-- ==== Sys2Proof/Word.lean ====
section
/-! DEFINITION. The word types of the KS7240 model and their plainest arithmetic (R3, R4, R251). -/

namespace Sys2Proof

/-- One byte. -/
abbrev Byte := BitVec 8

/-- One 64-bit word: a general register of a context, a timestamp, a log detail. -/
abbrev Word := BitVec 64

/-- A finite table: key and value pairs in rising key order; a key that is not listed has no entry. -/
abbrev Tab (α : Type) := List (Nat × α)

end Sys2Proof
end

