-- ==== Sys2Proof/Config.lean ====
section
/-! DEFINITION. What the part fixes (sizes of R2, R27, R318, R335, ...) and the free values: opaque
constants with no body for every value the manual leaves open. A claim about a free value holds for
every value of it. -/

namespace Sys2Proof.Config

/-- Slots of a 4 KiB block and the block size (R2, R224). -/
def blockBytes : Nat := 4096
/-- Cache frames (R27). -/
def frames : Nat := 12058624
/-- Sidings (R2), those kept for Maintenance (R163). -/
def sidings : Nat := 262144
def maintSidings : Nat := 16384
/-- Siding-cache entries (R2), and those of them reserved for Express (R18). -/
def sidingCache : Nat := 8192
def expressReserve : Nat := 512
/-- First member LBA and blocks of the mirror ring (R331). -/
def ringStart : Nat := 19456
def ringBlocks : Nat := 242688
/-- Journal records (R335). -/
def journalRecords : Nat := 131072
/-- Stripe lock entries and those kept for Express (R297). -/
def lockEntries : Nat := 131072
def lockReserve : Nat := 1024
/-- Frames kept clean and free for Express (R293). -/
def frameReserve : Nat := 65536
/-- The pulse on MPERST_N of a RESET in slots (R381). -/
def mperstPulse : Nat := 6554
/-- The lock watchdog in slots (R299). -/
def lockWatchdog : Nat := 655360
/-- First member LBA of the data area (R224). -/
def dataStart : Nat := 262144
/-- Blocks of an extent (R190). -/
def extentBlocks : Nat := 262144
/-- The write-through threshold of the dirty budget, 256 MiB (R326). -/
def writeThroughBytes : Nat := 268435456
/-- Stripe number of a group's label stripe (R330). -/
def labelStripe : Nat := 2 ^ 48 - 1
/-- Capacity of the circular logs, of the lost-stripe map and of the poison list (R206, R390, R332). -/
def logCapacity : Nat := 65536
def lostCapacity : Nat := 1048576
def poisonCapacity : Nat := 1048576

/-- A region of the HBM address space: first address, size, and whether any of it is dumped on power fail (R27). -/
structure HbmRegion where
  base : Nat
  size : Nat
  dumped : Bool := false
  deriving DecidableEq, Repr

/-- The regions of the HBM address space in the order of R27: cache frames, sidings, journal, directory, member
queues, inline buffers, programs and volume table, permutation tables, maps and logs, fare meters, plans and
working area, staging, reserved. -/
def hbmRegions : List HbmRegion :=
  [⟨0, 46 * 2 ^ 30, true⟩, ⟨0xB80000000, 128 * 2 ^ 20, false⟩, ⟨0xB88000000, 16 * 2 ^ 20, true⟩,
   ⟨0xB89000000, 368 * 2 ^ 20, true⟩, ⟨0xBA0000000, 384 * 2 ^ 20, false⟩, ⟨0xBB8000000, 16 * 2 ^ 20, true⟩,
   ⟨0xBB9000000, 64 * 2 ^ 20, false⟩, ⟨0xBBD000000, 32 * 2 ^ 20, false⟩, ⟨0xBBF000000, 64 * 2 ^ 20, true⟩,
   ⟨0xBC3000000, 16 * 2 ^ 20, false⟩, ⟨0xBC4000000, 128 * 2 ^ 20, false⟩, ⟨0xBCC000000, 512 * 2 ^ 20, false⟩,
   ⟨0xBEC000000, 320 * 2 ^ 20, false⟩]

/-- Address of byte 0 of a cache frame (R27). -/
def frameAddr (fr : Nat) : Nat := fr * blockBytes

/-- Address of a siding (R27). -/
def sidingAddr (n : Nat) : Nat := 0xB80000000 + n * 512

/-- Address of a journal record (R27). -/
def recordAddr (n : Nat) : Nat := 0xB88000000 + n * 128

/-- Free content of newly allocated storage: the byte at an offset of the n-th allocation (R292, R421). -/
opaque freeByte : Nat → Nat → BitVec 8
/-- A fresh free word, drawn with the state's counter. -/
opaque freeWord : Nat → BitVec 64
/-- The value CLD shows for a handle that is not empty (R249), less one: context, handle. -/
opaque handleValue : Nat → Nat → BitVec 32
/-- NEXT of a directory entry, the frame behind it in its hash chain (R318): draw, frame. -/
opaque chainNext : Nat → Nat → BitVec 24
/-- Whether a DEV_RST_N pulse between the two limits of R502 is taken as a reset. -/
opaque pulseIsReset : Nat → Bool
/-- ECDSA P-384 over SHA-384 verifies (R275, R453, R480): message, key bytes, signature bytes. -/
opaque sigValid : List (BitVec 8) → List (BitVec 8) → List (BitVec 8) → Bool
/-- Public vendor keys of the boot ROM by their SHA-384 (R275, R480). -/
opaque vendorKey : List (BitVec 8) → Option (List (BitVec 8))
/-- SHA-384 of a byte string (R235, R272, R394). -/
opaque sha384 : List (BitVec 8) → List (BitVec 8)
/-- Instructions that one run of a layout route's MAP executes (R282): route, mode, argument. -/
opaque mapInstrs : Nat → Nat → Nat → Nat
/-- Placement by an owner's layout program: route, seed, stripe, index to member index and row (R226). -/
opaque ownerPlace : Nat → Nat → Nat → Nat → Nat × Nat
/-- Whether an owner's layout program's BUILD refuses a geometry: route, n, w, strip log2, spare, seed (R284). -/
opaque ownerRefuses : Nat → Nat → Nat → Nat → Nat → Nat → Bool
/-- Stripes that an owner's layout places in a number of rows: route, n, w, rows (R225). -/
opaque ownerStripes : Nat → Nat → Nat → Nat → Nat
/-- Rows of an owner's table cycle and its period and base pattern: route, n, w, spare (R224, R229). -/
opaque ownerCycle : Nat → Nat → Nat → Nat → Nat × Nat × Nat
/-- Stripe and lane of the strip that an owner's layout places on a member's row (R226): route, seed, index, row. -/
opaque ownerStripeAt : Nat → Nat → Nat → Nat → Nat × Nat
/-- Code, handler entries and handler budgets of the route library's programs, which the manual does not print (R281). -/
opaque libraryCode : Nat → List (BitVec 64)
opaque libraryEntry : Nat → Nat → Nat
opaque libraryBudget : Nat → Nat → Nat
/-- SHA-384 of the route library's layout programs, which the manual does not print (R235, R281). -/
opaque libraryHash : Nat → List (BitVec 8)
/-- CODE of a log entry on an ignored register write, which no table gives (R88, R208). -/
opaque ignoredCode : BitVec 16
/-- A configuration dword from 0x200 on, by what it was last written: the manual gives these capabilities no contents (R94). -/
opaque extCfg : Nat → BitVec 32 → BitVec 32
/-- Stepping and die identifier of the part (R107). -/
opaque stepping : BitVec 8
opaque dieId : BitVec 64
/-- IDCODE of the test port (R497). -/
def idcode : BitVec 32 := stepping.extractLsb' 0 4 ++ 0x7240#16 ++ 0x5A3#12

end Sys2Proof.Config
end

