-- ==== Sys2Proof/Machine/Memory.lean ====
section
/-! DEFINITION. Addressed storage of the part: a 4 KiB frame, a push-queue entry area, an inline
buffer, a staging frame (R27, R147, R318, R419), and the finite tables. A memory is a list of
(offset, byte) cells in one canonical form over what an unlisted offset reads as. -/

namespace Sys2Proof

/-- The entry of a key. -/
def Tab.find {α : Type} : Tab α → Nat → Option α
  | [], _ => none
  | (k', v) :: t, k => if k = k' then some v else Tab.find t k

/-- Enter or replace the value of a key, keeping keys in rising order. -/
def Tab.put {α : Type} : Tab α → Nat → α → Tab α
  | [], k, v => [(k, v)]
  | (k', v') :: t, k, v =>
    if k < k' then (k, v) :: (k', v') :: t
    else if k = k' then (k, v) :: t
    else (k', v') :: Tab.put t k v

/-- Remove a key. -/
def Tab.del {α : Type} : Tab α → Nat → Tab α
  | [], _ => []
  | (k', v') :: t, k => if k = k' then t else (k', v') :: Tab.del t k

/-- The entry of a key, or the given default. -/
def Tab.getD {α : Type} (t : Tab α) (k : Nat) (d : α) : α := (t.find k).getD d

/-- Change an entry that exists; a table with no such entry is unchanged. -/
def Tab.upd {α : Type} (t : Tab α) (k : Nat) (f : α → α) : Tab α :=
  match t.find k with
  | some v => t.put k (f v)
  | none => t

/-- Change every entry. -/
def Tab.mapVal {α : Type} (t : Tab α) (f : Nat → α → α) : Tab α := t.map fun p => (p.1, f p.1 p.2)

/-- Keys in strictly rising order. -/
def Tab.sorted {α : Type} : Tab α → Bool
  | [] => true
  | [_] => true
  | (a, _) :: (b, y) :: t => decide (a < b) && Tab.sorted ((b, y) :: t)

/-- Storage of bytes: `fill none` reads as zero where nothing is listed, `fill (some n)` as the free
content of the n-th allocation. -/
structure Memory where
  fill : Option Nat := none
  cells : List Host.Cell := []
  deriving DecidableEq, Repr

/-- What an unlisted offset reads as. -/
def Memory.unlisted (m : Memory) (a : Nat) : Byte :=
  match m.fill with
  | none => 0
  | some n => Config.freeByte n a

/-- The byte at an offset. -/
def Memory.read (m : Memory) (a : Nat) : Byte := Tab.getD m.cells a (m.unlisted a)

/-- Store one byte, keeping the canonical form. -/
def Memory.write (m : Memory) (a : Nat) (v : Byte) : Memory :=
  { m with cells := if v = m.unlisted a then Tab.del m.cells a else Tab.put m.cells a v }

/-- Store bytes at rising offsets. -/
def Memory.writeList : Memory → Nat → List Byte → Memory
  | m, _, [] => m
  | m, a, v :: vs => Memory.writeList (m.write a v) (a + 1) vs

/-- All zero bytes. -/
def Memory.zero : Memory := {}

/-- Free content: the n-th allocation. -/
def Memory.free (n : Nat) : Memory := { fill := some n }

/-- A memory that holds the given bytes from offset 0 and zero beyond. -/
def Memory.ofBytes (bs : List Byte) : Memory := Memory.zero.writeList 0 bs

/-- n bytes from an offset. -/
def Memory.bytes (m : Memory) (off n : Nat) : List Byte := (List.range n).map fun i => m.read (off + i)

/-- The memory whose byte at o is f o for the given offsets and zero elsewhere. -/
def Memory.tabulate (f : Nat → Byte) : List Nat → Memory
  | [] => Memory.zero
  | o :: os => (Memory.tabulate f os).write o (f o)

/-- Offsets below `size` at which some source may be non-zero: those listed when every source reads as
zero elsewhere, otherwise all of them. -/
def Memory.support (size : Nat) (srcs : List Memory) : List Nat :=
  if srcs.all (fun m => m.fill.isNone) then
    (srcs.foldl (fun l m => l ++ m.cells.map Prod.fst) []).eraseDups.filter (· < size)
  else List.range size

/-- The canonical form: offsets strictly rising, no cell equal to what its offset reads as unlisted. -/
def Memory.wf (m : Memory) : Bool :=
  Tab.sorted m.cells && m.cells.all fun c => decide (c.2 ≠ m.unlisted c.1)

/-- Little-endian value of bytes (R4). -/
def leNat : List Byte → Nat
  | [] => 0
  | b :: bs => b.toNat + 256 * leNat bs

/-- n little-endian bytes of a value (R4). -/
def leBytes : Nat → Nat → List Byte
  | 0, _ => []
  | n + 1, v => BitVec.ofNat 8 v :: leBytes n (v / 256)

/-- One bit step of the reflected CRC-32 of R103. -/
def crc32Bit : Nat → BitVec 32 → BitVec 32
  | 0, c => c
  | n + 1, c => crc32Bit n (if c.getLsbD 0 then (c >>> 1) ^^^ 0xEDB88320#32 else c >>> 1)

/-- CRC-32 as in IEEE 802.3 (R103). -/
def crc32 (bs : List Byte) : BitVec 32 :=
  ~~~ (bs.foldl (fun c b => crc32Bit 8 (c ^^^ b.zeroExtend 32)) 0xFFFFFFFF#32)

/-- One bit step of the T10 CRC-16 (R180). -/
def crc16Bit : Nat → BitVec 16 → BitVec 16
  | 0, c => c
  | n + 1, c => crc16Bit n (if c.getLsbD 15 then (c <<< 1) ^^^ 0x8BB7#16 else c <<< 1)

/-- The guard of R180: CRC-16 with polynomial 0x8BB7, initial value 0, no inversion. -/
def crc16 (bs : List Byte) : BitVec 16 :=
  bs.foldl (fun c b => crc16Bit 8 (c ^^^ BitVec.shiftLeft (BitVec.zeroExtend 16 b) 8)) 0#16

end Sys2Proof
end

