-- ==== Sys2Proof/Syntax.lean ====
section
/-! DEFINITION. The commands of the KS7240: one constructor for each row of spec/opcode_table.json,
with the operands that the event, request or instruction carries. Rule numbers cite spec/. -/

namespace Sys2Proof

/-- A Jexro instruction as the thread of context `cx` issues it: the fields of R251. -/
structure Ins where
  cx : Nat
  d : BitVec 5
  a : BitVec 5
  b : BitVec 5
  mod : BitVec 9
  imm : BitVec 32
  deriving DecidableEq, Repr

/-- Host-held slots of a command, in all and by cause (R83, R86): a slow host read, a full ring, bus master
enable 0. Each slot counts once in the total. -/
structure Held where
  total : Nat := 0
  host : Nat := 0
  ring : Nat := 0
  bme : Nat := 0
  deriving DecidableEq, Repr

/-- An admin command as the signal box starts it (R174): the PF's port, the 64-byte submission entry
(R151), its visibility stamp, the data read from the host with its poison flag (R123), the host-held slots and the
deadline that it brings from its queue (R83, R84), and the buffer list read from the host (R154). -/
structure AdminCmd where
  port : Nat
  entry : BitVec 512
  vis : Word
  data : List Byte
  poisoned : Bool
  held : Held := {}
  dl : Word := BitVec.allOnes 64
  list : List Byte := []
  deriving DecidableEq, Repr

/-- A Gelbel request (R446): its tag and body. -/
structure GMsg where
  tag : Byte
  body : List Byte
  deriving DecidableEq, Repr

/-- How one member block came back when a handler read it (R21, R308). -/
inductive ReadEvent where
  | ok (data : Memory)
  | timeout
  | media
  | poisoned
  | lost
  deriving DecidableEq, Repr

/-- One member block read for a command: member index, member LBA, outcome. -/
structure LaneRead where
  index : Nat
  lba : Nat
  event : ReadEvent
  deriving DecidableEq, Repr

/-- One block of host data as it arrives for a WRITE (R122, R180): bytes, protection information, EP. -/
structure HostBlock where
  data : Memory
  pi : Word
  ep : Bool
  deriving DecidableEq, Repr

/-- What the boot ROM finds in a firmware slot (R480, R481). -/
structure SlotImage where
  readOk : Bool
  magicOk : Bool
  sigOk : Bool
  svn : Nat
  version : Word
  /-- Reason of R277 for which a library program is refused, 0 when the library is accepted, and its number. -/
  libraryRefused : Nat
  libraryAt : Nat
  /-- Digest that stands for program 0 of the slot's library (R447). -/
  program0 : Word
  deriving DecidableEq, Repr

/-- One journal record entry as an image or snapshot holds it (R335, R342). -/
structure ImageEntry where
  index : Nat
  lba : Nat
  blocks : List Memory
  zero : Bool
  restored : Bool
  uncorr : Bool
  deriving DecidableEq, Repr

/-- One sealed record of an image (R351). -/
structure ImageRecord where
  group : Nat
  stripe : Nat
  generation : Nat
  resync : Bool
  entries : List ImageEntry
  deriving DecidableEq, Repr

/-- One dirty frame or inline buffer of an image (R351); `restored` false: no valid mark (R352). -/
structure ImageBlock where
  vol : Nat
  lba : Nat
  data : Memory
  pi : Word
  poison : Bool
  age : Nat
  restored : Bool
  deriving DecidableEq, Repr

/-- Maps and logs of an image (R342, R351): lost stripes as group, stripe, cause, volume, erased lanes and
timestamp; poisoned blocks; deferred errors, the newest first, as volume, cause, group, timestamp, LBA and count; the sequence
number after the newest one's. -/
structure ImageMaps where
  lost : List (Nat × Nat × Nat × Option Nat × Nat × Word)
  poison : List (Nat × Nat)
  deferred : List (Nat × Nat × Nat × Word × Nat × Nat)
  deferredSeq : Nat
  deriving DecidableEq, Repr

/-- What the vault unit reads of one image (R343, R350). -/
structure ImageFound where
  areaB : Bool
  headerOk : Bool
  snapshotOk : Bool
  released : Bool
  seq : Nat
  groupIds : List Nat
  overLimit : Bool
  deriving DecidableEq, Repr

/-- A member label as read at bring-up (R235, R236): the copy in use. -/
structure LabelFound where
  port : Nat
  groupId : Nat
  generation : Nat
  group : Nat
  index : Nat
  mstate : Nat
  n : Nat
  w : Nat
  stripLog2 : Nat
  spare : Nat
  layout : Nat
  seed : Nat
  extents : Nat
  rows : Nat
  createTs : Word
  layoutHash : List Byte
  failHist : List (Option (Nat × Nat))
  /-- The mirror header found on the member: epoch, triple and CLEAN (R338). -/
  mirror : Option (Nat × (Nat × Nat × Nat) × Bool)
  /-- The valid spare home map with the highest GENERATION (R512): that GENERATION, and row, slot, history
  position and base column of each home. -/
  homes : Option (Nat × List (Nat × Nat × Nat × Nat))
  /-- Allocated group extents of the full extent map (R331). -/
  extentMap : List Nat
  /-- Lost stripes in the member's copy (R391): stripe, cause, volume, erased lanes, timestamp. -/
  lost : List (Nat × Nat × Option Nat × Nat × Word)
  /-- Poison list in the member's copy (R332): volume and block. -/
  poison : List (Nat × Nat)
  deriving DecidableEq, Repr

/-- What bring-up learns of a drive (R361 to R364); `failedStep` names the step that failed. -/
structure DriveInfo where
  failedStep : Option Nat
  nvme20 : Bool
  lba4k : Bool
  queuePairs : Nat
  mpsminOk : Bool
  blocks : Nat
  vwcOff : Bool
  fua : Bool
  plm : Bool
  ndwinMin : Nat
  dtwinMax : Nat
  urgentArb : Bool
  zerosDealloc : Bool
  model : List Byte
  width : Nat
  speed : Nat
  label : Option LabelFound
  deriving DecidableEq, Repr

/-- Who reads TT_NOW (R37): a function through Q_FN_NOW, a PF through the mirror, a signal box core. -/
inductive TtRequester where
  | fnNow (f : Nat)
  | mirror (f : Nat)
  | core (c : Nat)
  deriving DecidableEq, Repr

/-- Width and half of a TT_NOW read (R37). -/
inductive TtRead where
  | full
  | low
  | high
  deriving DecidableEq, Repr

/-- Where a register access falls: byte offset and size in bytes (R98). -/
structure Access where
  off : Nat
  size : Nat
  deriving DecidableEq, Repr

/-- The pins sampled at the rise of DEV_RST_N beside the straps: VLT_REL_N and TEST_EN (R469, R497). -/
structure RstPins where
  relN : Bool
  testEn : Bool
  deriving DecidableEq, Repr

/-- Register blocks (R7): a function's BAR0, its BAR2 and its configuration space, a port's ROM window, and the blocks of
the signal box address map. -/
inductive RegBlock where
  | fn (f : Nat)
  | bar2 (f : Nat)
  | rom (p : Nat)
  | tt
  | adm
  | vlt
  | mem
  | pwr
  | fare
  | tag
  | hb
  | mbx (i : Nat)
  | mov (m : Nat)
  | win (f w : Nat)
  | cfg (f : Nat)
  deriving DecidableEq, Repr

/-- Outcome of the ECC check of an HBM line (R320). -/
inductive Ecc where
  | clean
  | single
  | double
  deriving DecidableEq, Repr

/-- Status of a member completion entry (R308). -/
inductive CplStatus where
  | ok
  | media
  | poisoned
  | frame
  deriving DecidableEq, Repr

/-- Status of a completion for an upstream read (R126): Successful Completion, Unsupported Request, Completer Abort,
Configuration Request Retry Status. -/
inductive HostStatus where
  | success
  | unsupported
  | abort
  | retry
  deriving DecidableEq, Repr

/-- Trigger of a containment (R380). -/
inductive ContainCause where
  | presence
  | dlActive
  | fatalAer
  | registerTimeout
  deriving DecidableEq, Repr

/-- Wake events (R475). -/
inductive WakeEvent where
  | hostAccess
  | pfD0
  | hperst (p : Nat)
  | gelbel
  | member
  deriving DecidableEq, Repr

/-- Outcome of an ATS or page request (R415, R417). -/
inductive PrgCode where
  | success
  | invalid
  | failure
  deriving DecidableEq, Repr

/-- The commands, one constructor for each row of the table. -/
inductive Instr where
  -- power, reset and bring-up
  | devRstAssert (ticks : Nat)
  | devRstDeassert (g0 g1 : Option (BitVec 2)) (mgmt : Option Bool) (pins : RstPins)
  | railEnableStep
  | supplyFaultTimeout (rail : Nat)
  | powerGoodFall (rail : Nat)
  | vauxBelowInhibit (mv : BitVec 12)
  | vauxInhibitClear (mv : BitVec 12)
  | vauxBrownout (mv : BitVec 12)
  | vauxRelease (mv : BitVec 12)
  | powerSequenceComplete
  | selfTestStepDone (step : Nat) (failed : Option (BitVec 32))
  | bootLoad (a b : SlotImage) (preferB otpOk : Bool)
  | fwStartTimeout
  | vaultCheck (ok0 ok1 : Bool) (images : List ImageFound)
  | vaultRateMeasure (ns0 ns1 : Nat)
  | vaultSsdChange (port : Nat) (usable : Bool) (ns0 ns1 : Nat)
  | groupAssembly (labels : List LabelFound)
  | imageRestore (seq : Nat) (records : List ImageRecord) (blocks : List ImageBlock) (maps : ImageMaps)
  | journalReplay
  | imageRelease (seq : Nat)
  | enterReady
  | groupRepair (g : Nat) (open_ : List Nat)
  -- the timetable and the cycle edge
  | ttcInEdge (clock : Nat) (high : Nat)
  | ttMissingEdge
  | ttAcquireLapse
  | cycleEdge (temps : List (BitVec 16)) (bankMv : Nat)
  | possessionLeadNotice (port : Nat)
  | possNdwinIssue (port : Nat)
  | possDtwinIssue (port : Nat)
  | windowSelectCompletion (port : Nat) (ok : Bool)
  | windowSelectRetry (port : Nat)
  | strayEvent (port : Nat)
  | policyWindowEnd
  | fareLatch
  | remeasureDue (vStart : Nat)
  | scrubPassStart (g : Nat)
  | patrolRead (frame line : Nat) (ecc : Ecc)
  -- power failure
  | pfailQualify
  | memberAbandon
  | dumpWriteCompletion
  | vCutDetect (mv : Nat)
  | thermalTrip (sensor : Nat) (reading : BitVec 16)
  -- host ports and functions
  | hperstAssert (p : Nat)
  | hperstDeassert (p : Nat)
  | portRebuild (p : Nat)
  | crsPeriodEnd
  | hotReset (p : Nat)
  | flr (f : Nat)
  | flrTeardownEnd (f : Nat)
  | busMasterClear (f : Nat)
  | busMasterSet (f : Nat)
  | vfEnableWrite (p : Nat) (enable : Bool) (num : Nat)
  | dStateWrite (p : Nat) (d3 : Bool)
  | ctoValueWrite (f : Nat) (value : BitVec 4)
  | msixUnmask (f : Nat) (vector : Option Nat)
  | intxClear (f : Nat) (rings : Word) (status : BitVec 32)
  | genericRegisterWrite (block : RegBlock) (at_ : Access) (value : Word) (ep : Bool)
  | readToClear (block : RegBlock) (at_ : Access)
  | ttNowRead (who : TtRequester) (how : TtRead)
  -- queues
  | sqDoorbell (f slot : Nat) (value : BitVec 32)
  | entryFetchCompletion (f slot : Nat) (entries : List (BitVec 512)) (ep : Bool)
  | shadowPoll (f slot : Nat)
  | pollCompletion (f slot : Nat) (value : BitVec 32)
  | cqDoorbell (f slot : Nat) (value : BitVec 32)
  | pushDoorbell (f slot : Nat) (value : BitVec 32)
  | pushEntryWrite (f slot off : Nat) (bytes : List Byte) (ep : Bool)
  | inlineBufferWrite (f slot off : Nat) (bytes : List Byte) (ep : Bool)
  | peerWindowWrite (f win off : Nat) (bytes : List Byte) (rid : BitVec 16) (ep : Bool)
  | hostReadCompletion (tag : Nat) (status : HostStatus) (bytes : List Byte) (ep : Bool)
  | completionTimeout (tag : Nat)
  | lateHostCompletion (tag : Nat)
  | dispatch (lane : Nat)
  | completionIssue (f slot : Nat)
  | interruptDelayDue (f slot : Nat)
  -- threads and locks
  | slotAssign (cluster : Nat)
  | threadResume (cx : Nat)
  | waitExpiry (cx : Nat)
  | lockWatchdog (g stripe : Nat)
  | orphanRecordReplay (g stripe : Nat)
  -- members
  | memberCompletion (port cid : Nat) (status : CplStatus)
  | memberTimeout (port cid : Nat)
  | memberLateCompletion (port cid : Nat)
  | memberDmaRequest (port cid : Nat) (posted : Bool) (off : Nat) (bytes : List Byte)
  | presenceQualified (port : Nat) (present : Bool)
  | linkContainment (port : Nat) (cause : ContainCause)
  | memberBringup (port : Nat) (info : DriveInfo)
  | destageCreate (g stripe : Nat)
  | rebuildStepCreate (g : Nat)
  | jretireWmRelease (cx : Nat)
  | scrubStepCreate (g : Nat)
  | zeroingCreate (g : Nat)
  | labelWriteCreate (g index kind : Nat)
  | mirrorRehome (g : Nat)
  -- movers, translation, windows
  | moverChannelStart (m : Nat)
  | moverResume (m : Nat)
  | moverReadback (m c : Nat) (valid : Bool)
  | moverChannelComplete (m c : Nat)
  | movChGo (m : Nat)
  | movChHold (m : Nat) (hold : Bool)
  | translationCompletion (f pasid page pages : Nat) (addr : Word) (read write : Bool)
  | atsInvalidate (f itag page pages : Nat)
  | atsInvalidateCompletion (f itag : Nat)
  | prgResponse (f pasid index : Nat) (code : PrgCode)
  | winCommit (f w : Nat)
  | winCommitResume (f w : Nat)
  -- register writes with an effect of their own
  | ttLoadArm
  | ttSwitchArm
  | ttRefEnWrite (en : Bool)
  | ttPlanCommit
  | ttPlanEnWrite (en : Bool)
  | ttPlanEpochWrite (epoch : BitVec 44)
  | ttActiveBankWrite (off : Nat) (value : Word)
  | admMaintFloorWrite (value : BitVec 32)
  | admGroupModeWrite (g : Nat) (value : BitVec 32)
  | vltMeasure (vStart : Nat)
  | huTestEnd (vEnd : Nat)
  | vltLedgerParamWrite (pDump : Bool) (value : BitVec 32)
  | memQuadCfgWrite (cfg0 cfg1 : BitVec 32)
  | farePeriodWrite (value : BitVec 32)
  -- mailboxes and the signal box
  | mbxLockRead (i agent : Nat)
  | mbxLockWrite (i agent : Nat) (value : BitVec 32)
  | mbxPost (i agent : Nat) (value : BitVec 32)
  | mbxTake (i agent : Nat) (value : BitVec 32)
  | mbxTimeout (i : Nat)
  | noticePost (p : Nat)
  | adminInit (p : Nat)
  | bind (p : Nat)
  | unbind (p : Nat)
  | mbxHbWrite (value : BitVec 32)
  | heartbeatCheck
  | reloadHeartbeatTimeout
  -- the power ladder
  | rungEntryStart
  | rungCommit
  | rungWake (e : WakeEvent)
  | rungExitPoint (elapsed : Nat) (cycles : Nat)
  | layupRestoreEnd (digestOk : Bool) (ticks : BitVec 32)
  -- I/O commands
  | read (cx : Nat) (lanes : List LaneRead)
  | write (cx : Nat) (hostOk : Bool) (blocks : List HostBlock)
  | flush (cx : Nat)
  | flushDestage (cx : Nat)
  | writeZeroes (cx : Nat)
  | deallocate (cx : Nat)
  | verify (cx : Nat) (lanes : List LaneRead)
  -- admin commands
  | identifyVolume (a : AdminCmd)
  | createVolumeCreate (a : AdminCmd)
  | createVolumeAttach (a : AdminCmd)
  | createVolumeDetach (a : AdminCmd)
  | deleteVolume (a : AdminCmd)
  | createQueue (a : AdminCmd)
  | setPower (a : AdminCmd)
  | getLog (a : AdminCmd)
  | loadProgram (a : AdminCmd)
  | bindRoute (a : AdminCmd)
  | setTokens (a : AdminCmd)
  | createGroup (a : AdminCmd)
  | setTimetable (a : AdminCmd)
  | setWindow (a : AdminCmd)
  | memberControlReset (a : AdminCmd)
  | memberControlFail (a : AdminCmd)
  | memberControlReplace (a : AdminCmd)
  | memberControlProfile (a : AdminCmd)
  | memberControlAdopt (a : AdminCmd)
  | memberControlRetireGroup (a : AdminCmd)
  | memberControlFormat (a : AdminCmd)
  | memberControlSanitize (a : AdminCmd)
  | memberControlScrub (a : AdminCmd)
  | memberControlPowerOff (a : AdminCmd)
  | memberControlSetDepth (a : AdminCmd)
  -- Jexro instructions
  | add (i : Ins)
  | sub (i : Ins)
  | and (i : Ins)
  | or (i : Ins)
  | xor (i : Ins)
  | shl (i : Ins)
  | shr (i : Ins)
  | sar (i : Ins)
  | mul (i : Ins)
  | mulhu (i : Ins)
  | divu (i : Ins)
  | remu (i : Ins)
  | minu (i : Ins)
  | maxu (i : Ins)
  | cmp (i : Ins)
  | flop (i : Ins)
  | ldi (i : Ins)
  | ldih (i : Ins)
  | sel (i : Ins)
  | ext (i : Ins)
  | ins (i : Ins)
  | popc (i : Ins)
  | clz (i : Ins)
  | bswap (i : Ins)
  | br (i : Ins)
  | btab (i : Ins)
  | call (i : Ins)
  | ret (i : Ins)
  | loop (i : Ins)
  | callm (i : Ins)
  | lds (i : Ins)
  | cld (i : Ins)
  | cst (i : Ins)
  | xtl (i : Ins)
  | ginfo (i : Ins)
  | desc (i : Ins)
  | hread (i : Ins)
  | hwrite (i : Ins)
  | post (i : Ins)
  | clook (i : Ins)
  | calloc (i : Ins)
  | cpin (i : Ins)
  | cunpin (i : Ins)
  | lock (i : Ins)
  | unlock (i : Ins)
  | perm (i : Ins)
  | jopen (i : Ins)
  | jadd (i : Ins)
  | jseal (i : Ins)
  | jretire (i : Ins)
  | mread (i : Ins)
  | mwrite (i : Ins)
  | mwait (i : Ins)
  | xorv (i : Ins)
  | gmulv (i : Ins)
  | pqgen (i : Ins)
  | pqdelta (i : Ins)
  | pqsolve1 (i : Ins)
  | pqsolve2 (i : Ins)
  | cmpv (i : Ins)
  | ttnow (i : Ins)
  | dlset (i : Ins)
  | dlleft (i : Ins)
  | wait (i : Ins)
  | yield (i : Ins)
  | trap (i : Ins)
  | halt (i : Ins)
  | rfault (i : Ins)
  -- management
  | gelbelGetStatus (g : GMsg)
  | gelbelGetRouteBook (g : GMsg)
  | gelbelGetTemp (g : GMsg)
  | gelbelGetFare (g : GMsg)
  | tagRead (g : GMsg)
  | tagWrite (g : GMsg)
  | fwUpdateBegin (g : GMsg)
  | fwUpdateData (g : GMsg)
  | fwUpdateCommit (g : GMsg) (image : SlotImage)
  | fwUpdateAbort (g : GMsg)
  | gelbelTimetable (g : GMsg)
  | gelbelWake (g : GMsg)
  | vaultRelease (g : GMsg)
  | gelbelMemberControl (g : GMsg)
  | gelbelSetTokens (g : GMsg)
  | gelbelGetLog (g : GMsg)
  | mctpSetEndpointId (eid : Byte)
  | mctpGetEndpointId
  | mctpGetVersionSupport
  | mctpGetMessageTypeSupport
  | uartHelp
  | uartState
  | uartVer
  | uartTemp
  | uartTt
  | uartRb (off len : Nat)
  | uartTag (n : Nat)
  | uartMem (port : Nat)
  | uartLog (n : Nat)
  | uartVault
  | uartUnknownCommand
  | refclkLoss
  | hostLinkUp (p width speed : Nat) (flit : Bool)
  | gelbelUndefinedCommand (cmd : Byte) (g : GMsg)
  | mailboxUndefinedRequest (p : Nat)
  | memberControlUndefinedAction (a : AdminCmd)
  deriving DecidableEq, Repr

end Sys2Proof
end

