-- ==== Sys2Proof/Decode.lean ====
section
/-! DEFINITION. The words of spec/opcode_table.json: no row of the table gives bits, because the part
takes events, requests and prepared instructions and decodes no instruction word of a processor's kind. -/

namespace Sys2Proof

/-- The command that a word of the table spells: none, as no row gives bits. -/
def decodeTableWord (_nbits _w : Nat) : Option Instr := none

end Sys2Proof
end

