-- ==== Sys2Proof/Machine/State.lean ====
section
/-! DEFINITION. The state of the KS7240 as plain data: every register, buffer, queue, table, mode and
pin that spec/ names, the outcome reasons, and the state after reset. Each structure cites the rule that
gives its fields. Fields whose defaults the manual gives carry them as default values. -/

namespace Sys2Proof.Machine

/-- Reasons the model stops a command. -/
inductive Fault where
  /-- Raised by a Jexro instruction whose word the verifier refuses (R277 check 3, R278): an undefined
  selector, condition, width or mode, a flag f0 destination, or an instruction that its handler kind may
  not reach. An engine never meets one (R253), so the manual gives no effect. Safe. -/
  | unverified
  deriving DecidableEq, Repr

/-- Reasons the model has no meaning for a command. -/
inductive Refusal where
  /-- Raised only by an arm of exec that has no meaning yet; none in this model. Safe. -/
  | notModelled (mnemonic : String)
  deriving DecidableEq, Repr

/-- Device states (R468), in the order of DEV_STATE (R107). -/
inductive DevState where
  | off | starting | held | recovering | ready | vaulting | vaulted
  deriving DecidableEq, Repr

/-- DEV_STATE code (R107). -/
def DevState.code : DevState → Nat
  | .off => 0 | .starting => 1 | .held => 2 | .recovering => 3 | .ready => 4 | .vaulting => 5 | .vaulted => 6

/-- Timetable lock states (R38). -/
inductive LockState where
  | free | acquiring | locked | holdover
  deriving DecidableEq, Repr

/-- STATE code of R38. -/
def LockState.code : LockState → Nat
  | .free => 0 | .acquiring => 1 | .locked => 2 | .holdover => 3

/-- Service classes (R58). -/
inductive Cls where
  | express | standard | bulk | maintenance
  deriving DecidableEq, Repr

/-- Class code of R240; lower is served first (R59). -/
def Cls.code : Cls → Nat
  | .express => 0 | .standard => 1 | .bulk => 2 | .maintenance => 3

/-- Context states (R242); FREE is a context that is not listed. -/
inductive CtxState where
  | ready | running | waiting | translating | doneUnposted
  deriving DecidableEq, Repr

/-- STATE code of R242. -/
def CtxState.code : CtxState → Nat
  | .ready => 1 | .running => 2 | .waiting => 3 | .translating => 4 | .doneUnposted => 5

/-- What a WAITING context awaits (R19, R246). -/
inductive WaitFor where
  | nothing
  | tickets (mask : BitVec 32) (any : Bool) (dst : Nat)
  | ticketFree (t : Nat)
  /-- A mover channel that its HREAD (false) or HWRITE (true) may take: transfer word, immediate, destination. -/
  | channel (write : Bool) (w : Word) (imm dst : Nat)
  | mover
  | lock (g stripe : Nat)
  | retire (g stripe : Nat) (wm : Option (Nat × Nat)) (dst : Nat)
  | until_ (ts : Word)
  | frames
  | record
  | list (dst handle : Nat)
  | memQueue (port : Nat)
  deriving DecidableEq, Repr

/-- Where data of a descriptor lies (R152, R413). -/
inductive DescKind where
  | host (addr len : Nat)
  | list (extents : List (Nat × Nat)) (frame : Nat)
  | inline (buffer : Nat)
  | window (win offset len : Nat) (frames : List Nat)
  deriving DecidableEq, Repr

/-- A handle (R285): empty, a frame list (position to frame), or a host descriptor. -/
inductive Handle where
  | empty
  | frames (at_ : Tab Nat)
  | desc (kind : DescKind)
  deriving DecidableEq, Repr

/-- A member ticket of a context (R307, R308). -/
inductive Ticket where
  | outstanding
  | ended (event : Nat)
  | reported (event : Nat)
  deriving DecidableEq, Repr

/-- What kind of handler a thread runs (R278). -/
inductive HandlerKind where
  | opcode | map | fault | maint
  deriving DecidableEq, Repr

/-- Kinds of Maintenance work (R284, R333, R334, R384, R393). -/
inductive Work where
  | destage | rebuild | scrub | zero | label | build
  deriving DecidableEq, Repr

/-- Where a context lies (R18, R243): one of the 512 siding-cache entries reserved for Express, one of the 7,680
shared entries, or the siding region in HBM. -/
inductive Residence where
  | reserve | shared | siding
  deriving DecidableEq, Repr

/-- A context (R239 to R242, R249, R250) with the unit links it holds. -/
structure Ctx where
  pc : BitVec 24 := 0
  flags : BitVec 8 := 1
  cls : Cls
  inherited : Cls := .maintenance
  state : CtxState := .ready
  depth : Nat := 0
  inFault : Bool := false
  fault : Word := 0
  dl : Word
  vis : Word := 0
  budget : Nat := 65536
  held : Held := {}
  route : BitVec 16 := 0
  func : BitVec 16 := 0xFFFF
  sqid : BitVec 16 := 0xFFFF
  handler : BitVec 16 := 0
  cmd : BitVec 512 := 0
  locals : BitVec 512 := 0
  g : Tab Word := []
  h : Tab Handle := []
  retStack : List (BitVec 24) := []
  tickets : Tab Ticket := []
  kind : HandlerKind := .opcode
  /-- Volume and group of the context (R257). -/
  vol : Option Nat := none
  group : Option Nat := none
  work : Option Work := none
  /-- Engine and thread slot of a RUNNING context (R244). -/
  place : Option (Nat × Nat) := none
  cluster : Nat := 0
  /-- Arrival number since which it is READY (R244). -/
  since : Nat := 0
  wait : WaitFor := .nothing
  /-- STATUS given to POST (R291). -/
  posted : Option (BitVec 8) := none
  /-- Poisoned data was stored or sent (R156, R291). -/
  poison : Bool := false
  /-- The lock watchdog marked the thread (R299): stripe. -/
  lockHold : Option Nat := none
  /-- Program number whose code it runs; 64 k plus the number for replaced code (R279). -/
  program : Nat := 0
  bound : Nat := 0
  /-- Tokens spent at admission, by kind and units: 0 hit, 1 miss, 2 write, 3 and 4 Standard read and write, 5 and 6
  Bulk read and write (R64, R162). -/
  spent : Option (Nat × Nat) := none
  pinned : List Nat := []
  inlineBuf : Option Nat := none
  windowPages : Option (Nat × Nat × Nat) := none
  lateCause : Nat := 0
  writeBack : Bool := true
  /-- Counted as a degraded read (R20, R79). -/
  degraded : Bool := false
  /-- Frames, with volume and block, that a write-through completion waits for (R326). -/
  wtWait : List (Nat × Nat × Nat) := []
  /-- Blocks that a FLUSH with DESTAGE waits for (R184). -/
  flushWait : List (Nat × Nat) := []
  /-- Journalled rewrites of a VERIFY that have not been retired (R186). -/
  repairs : Nat := 0
  successes : Nat := 0
  res : Residence := .shared
  /-- Arrival number of its last run (R243). -/
  ran : Nat := 0
  /-- Slot in which it issued last (R247). -/
  issued : Word := 0
  /-- D of each stripe of an Express miss as accepted (R79, R80). -/
  dAt : List (Nat × Nat) := []
  deriving DecidableEq, Repr

/-- A completion ready to post (R156, R158, R161). -/
structure Ready where
  /-- Arrival number of its becoming ready (R121, R158). -/
  seq : Nat := 0
  cid : BitVec 16
  status : BitVec 8
  sqSlot : Nat
  vis : Word
  /-- Deadline of the command, all ones for none (R84). -/
  dl : Word
  held : Held
  /-- Slot in which it became ready to post (R158). -/
  readyTs : Word
  lateCause : BitVec 8
  refusalCause : BitVec 8
  poison : Bool
  vol : Option Nat
  ctx : Option Nat
  inlineBuf : Option Nat
  windowPages : Option (Nat × Nat × Nat)
  cls : Cls
  /-- Blocks that count as read and as written when STATUS is SUCCESS (R455). -/
  blocksRead : Nat
  blocksWritten : Nat
  parked : Bool := false
  deriving DecidableEq, Repr

/-- An announced entry that is not yet fetched: its visibility slot and host-held slots (R78, R83). -/
structure Stamp where
  vis : Word
  held : Held := {}
  deriving DecidableEq, Repr

/-- A submission entry fetched and not yet dispatched (R141, R142). -/
structure Fetched where
  entry : BitVec 512
  vis : Word
  held : Held := {}
  poisoned : Bool
  deriving DecidableEq, Repr

/-- A submission queue slot (R132 to R150, R168, R171). -/
structure Sq where
  push : Bool
  cls : Cls
  cqSlot : Nat
  log2 : Nat
  base : Nat
  pollInt : Nat
  pasid : Option Nat
  quota : Nat
  pi : Nat := 0
  ci : Nat := 0
  overrun : Bool := false
  fetchStop : Bool := false
  refusalWait : Bool := false
  /-- Slot in which the refusal record was freed: entries are taken from the next one on (R161). -/
  refusalTs : Option Word := none
  /-- Announced entries not yet fetched, oldest first (R78). -/
  announced : List Stamp := []
  fetched : List Fetched := []
  fetching : Nat := 0
  pollOut : Bool := false
  pollDue : Word := 0
  entries : Memory := {}
  /-- Copy of the entries in the staging region, from the preparation of W2 to the exit (R28, R472, R476). -/
  copy : Option Memory := none
  entryPoison : List Nat := []
  inline_ : Tab Memory := []
  inlinePoison : List Nat := []
  inlineBusy : List Nat := []
  /-- The entry that made a buffer busy last (R342). -/
  inlineFor : Tab (BitVec 512) := []
  /-- Entries whose INLINE buffer was busy when announced (R150). -/
  inlineClash : List Nat := []
  deriving DecidableEq, Repr

/-- A completion ring slot (R136, R139, R159, R165, R171). -/
structure Cq where
  log2 : Nat
  base : Nat
  pi : Nat := 0
  ci : Nat := 0
  overrun : Bool := false
  ien : Bool
  vec : Nat
  ivCount : Nat
  ivDelay : Nat
  /-- Ready and parked completions, oldest first (R158, R159). -/
  ready : List Ready := []
  unsignalled : Nat := 0
  /-- When IV_DELAY of the oldest unsignalled entry ends (R165). -/
  ivDue : Word := 0
  /-- The event was due in the slot before: it is signalled in the present one (R165). -/
  evDue : Bool := false
  deriving DecidableEq, Repr

/-- A peer window: shadow set, set in force and counters (R419 to R427). -/
structure Window where
  shEn : Bool := false
  shRidChk : Bool := false
  shSize : Nat := 0
  shRid : BitVec 16 := 0
  shGen : BitVec 32 := 0
  shEvt : BitVec 12 := 0
  en : Bool := false
  ridChk : Bool := false
  size : Nat := 0
  rid : BitVec 16 := 0
  gen : BitVec 32 := 0
  evt : BitVec 12 := 0
  commitPend : Bool := false
  /-- SET_WINDOW commands that complete with the pending commit (R424). -/
  commitWait : List AdminCmd := []
  drop : Bool := false
  cntDrop : BitVec 32 := 0
  cntRx : BitVec 32 := 0
  /-- Staging frame of each page, and the busy pages (R419, R423). -/
  pages : Tab Nat := []
  busy : List Nat := []
  deriving DecidableEq, Repr

/-- Work held while bus master enable is 0 (R120), in the order of R121. -/
inductive HeldWork where
  | shadow (addr : Nat) (value : Nat)
  | msix (vector : Nat)
  deriving DecidableEq, Repr

/-- A function: its registers (R100), configuration state and queues. -/
structure Func where
  exists_ : Bool := false
  flrBusy : Bool := false
  /-- Arrival slot of the reset that its teardown follows (R118, R143). -/
  flrTs : Word := 0
  /-- Held work goes on in the issue step of the present slot (R119, R121). -/
  resume : Bool := false
  stCto : Bool := false
  stUnexp : Bool := false
  stPsnIn : Bool := false
  stFetchTmo : Bool := false
  stRbChanged : Bool := false
  evtEn : BitVec 32 := 0
  evtVec : BitVec 11 := 0
  cto : BitVec 32 := 0x320000#32
  cntCto : BitVec 32 := 0
  cntUnexp : BitVec 32 := 0
  cntPsnIn : BitVec 32 := 0
  cntPsnOut : BitVec 32 := 0
  cntIgn : BitVec 32 := 0
  mirrorSel : BitVec 2 := 0
  /-- INIT_ERR of Q_SQ_STAT of slot 0 of a PF (R167, R171). -/
  initErr : Bool := false
  intxRing : Word := 0
  bme : Bool := false
  msixEn : Bool := false
  msixFmask : Bool := false
  intxDis : Bool := false
  ro : Bool := true
  /-- Tag width enables: 8-bit and 10-bit (R92, R128). -/
  extTag : Bool := true
  tag10 : Bool := false
  ltrEn : Bool := false
  pasidEn : Bool := false
  /-- Completion Timeout Value field as written (R125). -/
  ctoField : BitVec 4 := 0
  /-- Error bits of the Status register: bits 15, 13 and 12 (R92). -/
  cmdStat : BitVec 16 := 0
  /-- AER registers, sticky, by configuration offset (R92, R117). -/
  aer : Tab (BitVec 32) := []
  pmeEn : Bool := false
  atsEn : Bool := false
  priEn : Bool := false
  priStop : Bool := false
  priAlloc : Nat := 0
  d3 : Bool := false
  d3cold : Bool := false
  /-- Vectors whose mask bit is 0; every mask is 1 at reset (R117). -/
  unmasked : List Nat := []
  pba : List Nat := []
  /-- Address and data dwords of the MSI-X table, by dword (R97). -/
  msixTab : Tab (BitVec 32) := []
  /-- Other configuration dwords, by offset (R93, R94). -/
  cfg : Tab (BitVec 32) := []
  mps : Nat := 128
  mrrs : Nat := 512
  tagLimit : Nat := 256
  shadow : Option Nat := none
  sqs : Tab Sq := []
  cqs : Tab Cq := []
  held : List HeldWork := []
  windows : Tab Window := []
  deriving DecidableEq, Repr

/-- A host port (R90 to R95, R108, R128). -/
structure HostPort where
  widthMax : Nat
  hperst : Bool := false
  linkUp : Bool := false
  widthNeg : Nat := 0
  speedNeg : Nat := 0
  flit : Bool := false
  /-- Configuration requests get retry status (R95). -/
  crs : Bool := true
  rebuild : Bool := false
  /-- Slot in which HPERST_N deasserted (R95). -/
  rebuildTs : Word := 0
  vfEnable : Bool := false
  numVfs : Nat := 0
  /-- VFs kept across a hot reset until VF Enable is written (R117). -/
  vfHeld : Bool := false
  intx : Bool := false
  hwakeLow : Bool := false
  deriving DecidableEq, Repr

/-- Purpose of an upstream read request (R126). -/
inductive ReadPurpose where
  | entry (slot : Nat)
  | poll (slot : Nat)
  | list (cx : Nat)
  | data (m c pos len : Nat)
  | ats (pasid : Nat) (pages : List Nat)
  | page (index : Nat)
  deriving DecidableEq, Repr

/-- An upstream read request: outstanding, or quarantined after its timeout (R125 to R128). -/
structure HostRead where
  func : Nat
  purpose : ReadPurpose
  issued : Word
  due : Word
  express : Bool
  quarantined : Bool := false
  deriving DecidableEq, Repr

/-- Power, reset, boot and the always-on domain (R447, R450 to R454, R460 to R488, R495). -/
structure Power where
  devState : DevState := .off
  heldCode : BitVec 8 := 0
  heldDetail : BitVec 32 := 0
  rung : Nat := 0
  setRung : BitVec 3 := 4
  setDwell : BitVec 16 := 1000
  setWaiters : List AdminCmd := []
  railEn : BitVec 9 := 0
  railPg : BitVec 9 := 0
  /-- The rail sequence: none resting, some true on, some false off (R462). -/
  seqDir : Option Bool := none
  vauxOk : Bool := true
  rstCause : BitVec 32 := 0
  supplyLock : Bool := false
  bootFallback : Bool := false
  bootAOk : Bool := false
  bootBOk : Bool := false
  bootSlotB : Bool := false
  bootSvn : BitVec 8 := 0
  vauxMv : BitVec 12 := 0
  idle : BitVec 32 := 0
  cntEntry : BitVec 32 := 0
  cntAbandon : BitVec 32 := 0
  exitLast : BitVec 32 := 0
  restoreLast : BitVec 32 := 0
  nvInhibit : Bool := false
  /-- Rung that an entry in preparation goes to, and the start and commit slot of one to W1 or W2 (R472). -/
  entry : Option Nat := none
  entryStart : Word := 0
  entryDue : Word := 0
  /-- An exit runs since a wake, or its restore (R475, R476). -/
  exiting : Bool := false
  wakeTs : Word := 0
  restoring : Bool := false
  /-- A command was in flight in the present cycle (R203). -/
  busySeen : Bool := false
  strapG0 : BitVec 2 := 0
  strapG1 : BitVec 2 := 0
  mgmtI3c : Bool := false
  devRstHigh : Bool := false
  /-- TEST_EN as last seen high (R497). -/
  testEn : Bool := false
  vltRelLow : Bool := false
  vaultDoneLow : Bool := false
  thermtripLow : Bool := false
  refclk : Bool := true
  armedRelease : Option Nat := none
  layupDigest : Bool := false
  hbmTrained : Bool := false
  /-- End of the 20 cycles of retry status after DEV_RST_N (R95). -/
  crsDue : Word := 0
  selfTestStep : Nat := 0
  fwStarted : Bool := false
  fwBeat : Bool := false
  /-- Last slot in which the first heartbeat may come (R468). -/
  fwDue : Word := 0
  vaultChecked : Bool := false
  slotA : Option SlotImage := none
  slotB : Option SlotImage := none
  preferB : Bool := false
  bootSeq : Nat := 0
  otp : Nat := 0
  otpPending : Bool := false
  fwLen : Option Nat := none
  fwData : Memory := {}
  tags : Tab (List Byte) := []
  tagCount : Tab Nat := []
  tagWorn : BitVec 16 := 0
  temps : Tab (BitVec 16) := []
  eid : Byte := 0
  deriving DecidableEq, Repr

/-- A pending timetable switch (R44, R201): edges left and the values to apply. -/
structure TtSwitch where
  edges : Nat
  window : Option (BitVec 16) := none
  possLead : Option (BitVec 32) := none
  outWidth : Option (BitVec 12) := none
  deriving DecidableEq, Repr

/-- A SET_TIMETABLE with the edges it still waits on (R201). -/
structure TtWait where
  cmd : AdminCmd
  switch : Bool
  load : Bool
  swap : Bool
  deriving DecidableEq, Repr

/-- The timetable unit (R31 to R57). -/
structure Timetable where
  lock : LockState := .free
  ttFree : Bool := true
  ttHoldover : Bool := false
  slewing : Bool := false
  freqErr : Bool := false
  cntEst : Bool := false
  switch : Option TtSwitch := none
  waiters : List TtWait := []
  kActive : Nat := 16
  loadArm : Bool := false
  refEn : Bool := true
  cntEstLock : Bool := false
  running : Bool := false
  cycle : BitVec 44 := 0
  slot : Nat := 0
  nomCycle : BitVec 32 := 0xF4240#32
  nomActive : BitVec 32 := 0xF4240#32
  slotsLog2 : BitVec 5 := 16
  measPeriod : BitVec 40 := 0
  phaseErr : BitVec 32 := 0
  window : BitVec 16 := 0x40
  inComp : BitVec 10 := 0
  outEn : Bool := true
  outWidth : BitVec 12 := 32
  cycleLoad : BitVec 44 := 0
  miss : BitVec 16 := 0
  offwin : BitVec 16 := 0
  loadCnt : BitVec 32 := 0
  planEn : Bool := false
  bankB : Bool := false
  commitPend : Bool := false
  planErr : Bool := false
  errIndex : BitVec 10 := 0
  errKind : BitVec 2 := 0
  periodA : BitVec 16 := 0
  periodB : BitVec 16 := 0
  epoch : BitVec 44 := 0
  epochWrite : Option (BitVec 44) := none
  epochNext : BitVec 44 := 0
  possLead : BitVec 32 := 0x199A#32
  planA : Tab Word := []
  planB : Tab Word := []
  latchNow : Tab (BitVec 32) := []
  latchMirror : Tab (BitVec 32) := []
  latchCore : Tab (BitVec 32) := []
  /-- Level of TTC_OUT (R34). -/
  ttcHigh : Bool := false
  lastEdge : Option Nat := none
  /-- Slot in which the latest edge that counts arrived (R38, R39). -/
  edgeTs : Word := 0
  runPeriods : List Nat := []
  missed : Nat := 0
  fromHoldover : Bool := false
  /-- In HOLDOVER at TT_NOM_CYCLE since a switch edge (R38, R44). -/
  holdNominal : Bool := false
  deriving DecidableEq, Repr

/-- An ADM_EXP_Q entry with its live counters and pending allotment (R65, R89). -/
structure ExpQ where
  sqid : BitVec 16
  func : BitVec 9
  hit : BitVec 32 := 0
  miss : BitVec 32 := 0
  write : BitVec 32 := 0
  hitLeft : BitVec 32 := 0
  missLeft : BitVec 32 := 0
  writeLeft : BitVec 32 := 0
  naCount : BitVec 32 := 0
  next : Option (BitVec 32 × BitVec 32 × BitVec 32) := none
  deriving DecidableEq, Repr

/-- An ADM_SB_TOK entry with its live counters and pending allotment (R65, R66, R89). -/
structure SbTok where
  stdRead : BitVec 32 := 0xFFFFFFFF#32
  stdWrite : BitVec 32 := 0xFFFFFFFF#32
  bulkRead : BitVec 32 := 0xFFFFFFFF#32
  bulkWrite : BitVec 32 := 0xFFFFFFFF#32
  stdReadLeft : BitVec 32 := 0xFFFFFFFF#32
  stdWriteLeft : BitVec 32 := 0xFFFFFFFF#32
  bulkReadLeft : BitVec 32 := 0xFFFFFFFF#32
  bulkWriteLeft : BitVec 32 := 0xFFFFFFFF#32
  next : Option (BitVec 32 × BitVec 32 × BitVec 32 × BitVec 32) := none
  deriving DecidableEq, Repr

/-- The admission unit (R60 to R76, R89). -/
structure Adm where
  maintFloor : BitVec 6 := 25
  lHost : BitVec 16 := 0x42
  stdTarget : BitVec 32 := 0x10000#32
  throttle : BitVec 9 := 0x100
  sbPool : BitVec 32 := 0xFFFFFFFF#32
  poolLeft : BitVec 32 := 0xFFFFFFFF#32
  ceilEng : BitVec 32 := 0x16E3600#32
  ceilMov : BitVec 32 := 0xF424#32
  ceilHbm : BitVec 32 := 0x47868#32
  ceilWrite : BitVec 32 := 0
  ceilMem : Tab (BitVec 32) := []
  groupMode : Tab (BitVec 2) := []
  groupModeNext : Tab (BitVec 2) := []
  ceilCut : Bool := false
  pfailStop : Bool := false
  exp : Tab ExpQ := []
  /-- ADM_EXP_Q entries written while VALID is 0, as 128 bits (R9, R89). -/
  expIdle : Tab Nat := []
  sb : Tab SbTok := []
  deficit : Tab Int := []
  /-- Round-robin pointers of the dispatcher, by class (R15). -/
  rr : Tab Nat := []
  /-- SET_TOKENS commands that complete after the next cycle edge (R65). -/
  tokenWait : List AdminCmd := []
  deriving DecidableEq, Repr

/-- A cache frame with its directory entry (R318). -/
structure Frame where
  key : Option (Nat × Nat) := none
  pi : Word := 0
  dirty : Bool := false
  prot : Bool := false
  rdonly : Bool := false
  stage : Bool := false
  poison : Bool := false
  uncorr : Bool := false
  zfill : Bool := false
  retired : Bool := false
  /-- Unmapped and retired when its last pin goes (R320). -/
  retireLast : Bool := false
  /-- Block it will be mapped to once protected (CALLOC VOLUME, R290). -/
  bound : Option (Nat × Nat) := none
  /-- Made by CALLOC REPLACE: a member read maps it in place of the old frame (R292). -/
  reread : Bool := false
  pins : Nat := 0
  age : BitVec 32 := 0
  data : Memory := {}
  /-- Lines found uncorrectable (R320). -/
  badLines : List Nat := []
  deriving DecidableEq, Repr

/-- The cache directory and the poison list (R293, R318 to R321, R332). -/
structure Cache where
  frames : Tab Frame := []
  retired : Nat := 0
  poisonList : List (Nat × Nat) := []
  deriving DecidableEq, Repr

/-- A stripe lock entry (R294 to R301). -/
structure LockEnt where
  group : Nat
  stripe : Nat
  holder : Option Nat
  waiters : List Nat := []
  due : Word
  /-- UNLOCK deferred to the retire (R301). -/
  deferred : Bool := false
  /-- Its watchdog has found it held: it leaves its holder in the next slot (R299). -/
  expired : Bool := false
  deriving DecidableEq, Repr

/-- An entry of a journal record (R303, R335). -/
structure JEntry where
  index : Nat
  lba : Nat
  frames : List Nat
  stage : Bool
  done : Bool := false
  /-- Member writes issued under the entry and not yet ended. -/
  writing : Nat := 0
  deriving DecidableEq, Repr

/-- Work of the signal box that rewrites a stripe: the VERIFY of a context, or the PI of a new volume (R186, R191). -/
inductive Rewriter where
  | verify (cx : Nat) | fill (vol : Nat)
  deriving DecidableEq, Repr

/-- A journal record (R302 to R306, R335). -/
structure JRec where
  sealed : Bool := false
  group : Nat
  stripe : Nat
  generation : Nat
  vol : Option Nat
  ctx : Option Nat
  openTs : Word
  sealTs : Word := 0
  entries : List JEntry := []
  resync : Bool := false
  echoed : Bool := false
  /-- Made by a restore (R351). -/
  restored : Bool := false
  /-- Its replay has begun: it is retired when the replay's writes have ended (R300, R353). -/
  replaying : Bool := false
  /-- Its continuation records, in order, and the siding of the context that opened it (R335). -/
  conts : List Nat := []
  siding : Nat := 0
  /-- The signal box's work whose rewrite it is (R186, R191). -/
  repair : Option Rewriter := none
  deriving DecidableEq, Repr

/-- The journal unit. -/
structure Journal where
  recs : Tab JRec := []
  nextGen : Nat := 0
  deriving DecidableEq, Repr

/-- Group assembly states (R398). -/
inductive Assembly where
  | none | assembled | foreign | waitLayout | short | repairing
  deriving DecidableEq, Repr

/-- ASSEMBLY code of MEM_GROUP (R398). -/
def Assembly.code : Assembly → Nat
  | .none => 0 | .assembled => 1 | .foreign => 2 | .waitLayout => 3 | .short => 4 | .repairing => 5

/-- A failure-history entry (R233, R235). -/
structure FailEnt where
  index : Nat
  watermark : Nat
  /-- Place in the order of failure (R233). -/
  ord : Nat := 0
  deriving DecidableEq, Repr

/-- A home slot of the spare home map (R512): history position and base column. -/
structure Home where
  pos : Nat
  col : Nat
  deriving DecidableEq, Repr

/-- A registered rebuild step (R384, R386): entry position, row, context. -/
structure RbStep where
  pos : Nat
  row : Nat
  ctx : Nat
  deriving DecidableEq, Repr

/-- Extents still to be zeroed, in the order of R193: group extent, volume. -/
structure ZeroWork where
  extent : Nat
  vol : Option Nat
  zeroed : Bool := false
  /-- Deletion that the extent belongs to (R193). -/
  batch : Nat := 0
  deriving DecidableEq, Repr

/-- A parity group (R223 to R236, R337 to R340, R371 to R397, R512). -/
structure Group where
  assembly : Assembly := .none
  n : Nat := 0
  w : Nat := 0
  stripLog2 : Nat := 16
  spare : Nat := 0
  layout : Nat := 0
  seed : BitVec 32 := 0
  groupId : Nat := 0
  createTs : Word := 0
  generation : Nat := 0
  rows : Nat := 0
  extents : Nat := 0
  layoutHash : List Byte := []
  /-- Port of each member index (R195, R394). -/
  members : Tab Nat := []
  history : Tab FailEnt := []
  /-- Failed members that have no entry (R377). -/
  extraFailed : List Nat := []
  /-- Spare home map: row of the table cycle and slot (4 row + slot) to home (R512). -/
  homes : Tab Home := []
  depthCfg : Nat := 1
  /-- Ports in possession, the latest started first (R373). -/
  inPoss : List Nat := []
  scrubbing : Bool := false
  /-- Express misses wait for the repair scrub (R340 step 3). -/
  repairScrub : Bool := false
  /-- Extents of volumes, and those of deletions that are not free again (R190, R193). -/
  used : List Nat := []
  /-- Extents below this have been zeroed since the group's creation, and are free unless used (R195). -/
  zeroFrom : Nat := 0
  /-- Next extent that zeroing of the new group plans (R195). -/
  zeroPlan : Nat := 0
  zeroing : List ZeroWork := []
  epoch : Nat := 0
  triple : Nat × Nat × Nat := (0, 1, 2)
  mirrorDegraded : Bool := false
  ringPos : Nat := 0
  blockSeq : Nat := 0
  hdrSeq : Nat := 0
  /-- Record slots of 128 bytes that wait for the issue step of the present slot (R338, R339). -/
  echoQ : List (List Byte) := []
  clean : Bool := false
  resync : List Nat := []
  scrubQueue : List Nat := []
  scrubNext : Nat := 0
  /-- Stripes that a possession has moved to the end of the scrub pass (R392). -/
  scrubLate : List Nat := []
  /-- Start of the latest scrub pass (R392). -/
  scrubAt : Option Word := none
  steps : List RbStep := []
  /-- Strips that rebuild plans have had each member index read since the latest failure (R237). -/
  rbReads : Tab Nat := []
  seq : Nat := 0
  labelDirty : Bool := false
  /-- The ADOPT that completes at the end of the repair (R382). -/
  adopter : Option AdminCmd := none
  /-- The CREATE_GROUP that completes with the last label write, and the members whose labels are to be written
  (R195). -/
  creator : Option AdminCmd := none
  labelsLeft : List Nat := []
  deriving DecidableEq, Repr

/-- The writing of a new volume's PI: the CREATE that completes with it, the next unit, and whether its rewrite runs (R191). -/
structure PiFill where
  cmd : Option AdminCmd
  next : Nat := 0
  busy : Bool := false
  deriving DecidableEq, Repr

/-- A volume (R188 to R197, R209). -/
structure Volume where
  deleting : Bool := false
  group : Nat
  pi : Bool
  route : Nat
  blocks : Nat
  extents : List Nat
  piExtents : List Nat := []
  createTs : Word
  deferredCnt : BitVec 32 := 0
  attached : List Nat
  marks : List Nat := []
  blkRead : Word := 0
  blkWritten : Word := 0
  cmdExpress : Word := 0
  cmdStandard : Word := 0
  cmdBulk : Word := 0
  expTokens : Word := 0
  /-- Created since the latest fare latch (R209, R457). -/
  fresh : Bool := true
  fill : Option PiFill := none
  deleteWait : Option AdminCmd := none
  /-- DETACH commands that wait, each with its function (R191). -/
  detachWait : List (Nat × AdminCmd) := []
  deriving DecidableEq, Repr

/-- Kinds of member command (R307, R328, R370). -/
inductive MemOp where
  | read | write | winNdwin | winDtwin | admin
  /-- Format NVM of namespace 1 with an LBA format index, and Sanitize with its SANACT (R381). -/
  | format (lbaf : Nat)
  | sanitize (sanact : Nat)
  deriving DecidableEq, Repr

/-- An outstanding member command with its data window (R307, R360, R366). -/
structure MemCmd where
  op : MemOp
  ctx : Option Nat
  ticket : Nat
  lba : Nat
  count : Nat
  frames : List Nat
  issued : Word
  due : Word
  express : Bool
  /-- Issued in a deterministic window (R80, R365). -/
  determ : Bool
  /-- I/O queue of the member that carries it (R363). -/
  queue : Nat := 0
  /-- Journal record and member index of a write. -/
  jrec : Option (Nat × Nat)
  waiter : Option AdminCmd := none
  deriving DecidableEq, Repr

/-- A member port (R358 to R382, R398). -/
structure MPort where
  absent : Bool := true
  state : Nat := 0
  plm : Bool := false
  profiled : Bool := false
  inPoss : Bool := false
  lead : Bool := false
  stray : Bool := false
  present : Bool := false
  linkUp : Bool := false
  contained : Bool := false
  unfit : Bool := false
  /-- UNFIT for its LBA format alone, until FORMAT (R362). -/
  unfitLba : Bool := false
  width : Nat := 0
  speed : Nat := 0
  group : Option Nat := none
  index : Nat := 0
  d : BitVec 32 := 0
  latNs : BitVec 32 := 0
  rate : BitVec 32 := 0
  cntTmo : BitVec 32 := 0
  cntMedia : BitVec 32 := 0
  cntLate : BitVec 32 := 0
  possSkip : BitVec 16 := 0
  mperstHigh : Bool := false
  powerOff : Bool := false
  blocks : Nat := 0
  ndwinMin : Nat := 0
  dtwinMax : Nat := 0
  zerosDealloc : Bool := false
  fua : Bool := false
  urgent : Bool := false
  queuePairs : Nat := 0
  model : List Byte := []
  cmds : Tab MemCmd := []
  nextCid : Nat := 0
  quarantine : List Nat := []
  quarDet : List (Nat × Word) := []
  tmoWin : Nat := 0
  mediaWin : Nat := 0
  /-- Longest deterministic reads seen and the cycle of each (R80). -/
  observed : List (Nat × Nat) := []
  dtwinSent : Bool := false
  dtwinDone : Bool := false
  ndwinSent : Bool := false
  retryDue : Option Word := none
  /-- End of the pulse on MPERST_N that RESET began (R381). -/
  pulseDue : Option Word := none
  /-- A skipped entry announces nothing more until its end (R372). -/
  skipped : Bool := false
  /-- Plan entry (1,024 for bank B plus its index) that announces the port in the present cycle (R53). -/
  annc : Option Nat := none
  /-- The possession ends with its DTWIN completion and not at an edge (R370, R373). -/
  early : Bool := false
  /-- Member label read at bring-up (R361). -/
  label : Option LabelFound := none
  /-- RESET actions that complete with the next bring-up (R382). -/
  resetWait : List AdminCmd := []
  /-- Cycles with no queued command, and the lowest non-operational power state (R62). -/
  idleCycles : Nat := 0
  lowPower : Bool := false
  /-- Put down by a W3 or W4 entry, to be brought up again (R476). -/
  down : Bool := false
  deriving DecidableEq, Repr

/-- A lost-stripe map entry (R391). -/
structure Lost where
  group : Nat
  stripe : Nat
  cause : Nat
  vol : Option Nat
  erased : BitVec 32
  ts : Word
  deriving DecidableEq, Repr

/-- The MEM_ registers that belong to no port or group (R398) and the lost-stripe map. -/
structure MemRegs where
  hotplugEn : Bool := true
  scrubEn : Bool := true
  urgentArb : Bool := true
  cfg0 : BitVec 32 := 0xFFFFFFFF#32
  cfg1 : BitVec 4 := 0xF
  quadSet : Bool := false
  tmoStd : BitVec 32 := 0xA0000#32
  tmoBulk : BitVec 32 := 0x320000#32
  tmoMaint : BitVec 32 := 0x20000#32
  tmoWrite : BitVec 32 := 0x30000#32
  tmoAdmin : BitVec 32 := 0x3E80000#32
  slowTmo : BitVec 8 := 4
  failTmo : BitVec 8 := 16
  failMedia : BitVec 8 := 64
  policyWin : BitVec 16 := 0x3E8
  sbDepth : BitVec 10 := 0x40
  prsntDeb : BitVec 32 := 0xA0000#32
  winRetry : BitVec 32 := 0x10000#32
  rbDepth : BitVec 12 := 0x400
  scrubPeriod : BitVec 32 := 0x9A7EC800#32
  lost : List Lost := []
  lostFull : Bool := false
  lostTs : Word := 0
  /-- The latest end of a policy window (R376). -/
  policyTs : Option Word := none
  deriving DecidableEq, Repr

/-- One image area of the vault as the vault unit holds it (R343, R344). -/
structure Area where
  sealed : Bool := false
  seq : Nat := 0
  inProgress : Bool := false
  complete : Bool := false
  released : Bool := false
  vcut : Bool := false
  usable : Bool := false
  /-- Extents past the 78th were not dumped (R352). -/
  overLimit : Bool := false
  restored : Bool := false
  errorsDone : Bool := false
  groupIds : List Nat := []
  deriving DecidableEq, Repr

/-- Sections of a dump in the order of R347. -/
inductive DumpStep where
  | header
  | journal
  | index
  | maps
  | data (e : Nat)
  | trailer
  | final
  | flush
  | done
  deriving DecidableEq, Repr

/-- A dump in progress (R345 to R348). -/
structure Dump where
  areaB : Bool
  seq : Nat
  step : DumpStep
  q : Word
  abandoned : Bool := false
  /-- The next section waits for q + 131,072, or for the exit point of W1 or W2 (R347, R477). -/
  held : Bool := false
  recExtents : Nat
  dirtyExtents : Nat
  records : List Nat
  dirtyFrames : List Nat
  inlines : List (Nat × Nat)
  /-- Device state at the freeze (R343). -/
  devState : Nat := 0
  writes : Bool := true
  deriving DecidableEq, Repr

/-- The vault unit and the energy ledger (R322 to R326, R341 to R356). -/
structure Vault where
  ledgerValid : Bool := false
  measuring : Bool := false
  ledgerErr : Bool := false
  ledgerCode : BitVec 4 := 0
  ok0 : Bool := false
  ok1 : Bool := false
  pfail : Bool := false
  dumping : Bool := false
  dumpDone : Bool := false
  /-- VAULT_DONE_N goes low in the next slot (R349). -/
  doneNext : Bool := false
  vcut : Bool := false
  striped : Bool := false
  patrolEn : Bool := true
  huItest : BitVec 16 := 0
  huDiv : BitVec 16 := 0
  vCut : BitVec 17 := 0
  pDump : BitVec 24 := 0
  huTime : BitVec 32 := 0xA0000#32
  tFixed : BitVec 32 := 0x1E0000#32
  remeasure : BitVec 32 := 0x36EE80#32
  pfailFilt : BitVec 6 := 0x20
  patrol : BitVec 32 := 0x20000#32
  cMeas : BitVec 32 := 0
  vStart : BitVec 17 := 0
  huNow : BitVec 17 := 0
  /-- Nanoseconds in which each SSD wrote 1 GiB; 0: not measured (R324). -/
  ns0 : Nat := 0
  ns1 : Nat := 0
  rate : BitVec 32 := 0
  eUsable : BitVec 32 := 0
  budget : Nat := 0
  imgSeq : Nat := 0
  eccCe : BitVec 32 := 0
  eccUe : BitVec 32 := 0
  areaA : Area := {}
  areaB : Area := {}
  dump : Option Dump := none
  huDue : Word := 0
  /-- Scratch state of a measurement: VLT_HU_TIME at its start. -/
  huLen : Nat := 0
  deriving DecidableEq, Repr

/-- An endpoint of a mover channel: KIND and INDEX (R402). -/
structure Endpoint where
  kind : Nat := 0
  index : Nat := 0
  deriving DecidableEq, Repr

/-- Channel states (R426); IDLE is a channel that is not listed. -/
inductive ChState where
  | idle | queued | running | pausing | paused | readback | done
  deriving DecidableEq, Repr

/-- STATE code of R426. -/
def ChState.code : ChState → Nat
  | .idle => 0 | .queued => 1 | .running => 2 | .pausing => 3 | .paused => 4 | .readback => 5 | .done => 6

/-- A mover channel (R400 to R412, R425). Offsets are those at GO; the registers add the bytes done. -/
structure Channel where
  state : ChState := .idle
  go : Bool := false
  cls : Cls := .express
  ep : Bool := false
  hold : Bool := false
  causes : BitVec 6 := 0
  result : BitVec 8 := 0
  src : Endpoint := {}
  srcOff : Nat := 0
  dst : Endpoint := {}
  dstOff : Nat := 0
  count : Nat := 0
  /-- Bytes sent, or requested from a host source. -/
  done : Nat := 0
  ctx : Option Nat := none
  ilv : BitVec 32 := 0
  spat : Word := 0
  dpat : Word := 0
  seq : BitVec 32 := 0
  /-- Destination register and PC of the instruction, first position, blocks and sector size (R287, R405). -/
  dstReg : Nat := 0
  pc : BitVec 24 := 0
  first : Nat := 0
  block : Nat := 0
  blocks : Nat := 0
  sect : Nat := 4096
  /-- Read requests outstanding. -/
  inFlight : Nat := 0
  /-- Poisoned data met; a tag or guard failed (R289). -/
  poisoned : Bool := false
  piBad : Bool := false
  /-- Read-backs of the last line that have failed (R410). -/
  readbacks : Nat := 0
  deriving DecidableEq, Repr

/-- A mover: channels and counters (R425). -/
structure Mover where
  chans : Tab Channel := []
  cntBytes : Word := 0
  cntPreempt : BitVec 32 := 0
  cntRefused : BitVec 32 := 0
  nextSeq : BitVec 32 := 0
  /-- Slot in which an Express channel last completed (R407). -/
  expressTs : Option Word := none
  deriving DecidableEq, Repr

/-- An ATS cache entry (R415). -/
structure AtsEnt where
  func : Nat
  pasid : Nat
  page : Nat
  pages : Nat
  addr : Word
  read : Bool
  write : Bool
  deriving DecidableEq, Repr

/-- A page request group (R417); one that waits for room is not sent yet. -/
structure Prg where
  func : Nat
  pasid : Nat
  index : Nat
  ctx : Nat
  pages : List Nat
  sent : Bool := false
  deriving DecidableEq, Repr

/-- The translation unit (R413 to R418). -/
structure Xlate where
  ats : List AtsEnt := []
  prgs : List Prg := []
  /-- Retries with Success of a context for a page (R266): context, page, count. -/
  tries : List (Nat × Nat × Nat) := []
  /-- Pending invalidations in arrival order: function, tag, tags of the reads they wait for. -/
  invals : List (Nat × Nat × List Nat) := []
  nextIndex : Nat := 0
  deriving DecidableEq, Repr

/-- A handler of a program (R273). -/
structure HandlerEnt where
  entry : Nat
  budget : Nat
  kind : HandlerKind
  deriving DecidableEq, Repr

/-- A route (R274). -/
structure Route where
  id : Nat
  layout : Bool
  groupMaint : Bool
  map : Nat
  fault : Option Nat
  ops : List (Option Nat)
  destage : Option Nat
  rebuild : Option Nat
  scrub : Option Nat
  zero : Option Nat
  label : Option Nat
  build : Option Nat
  deriving DecidableEq, Repr

/-- A loaded program (R272, R279, R281). -/
structure Program where
  image : List Byte := []
  code : List Word := []
  consts : List Byte := []
  handlers : List HandlerEnt := []
  routes : List Route := []
  version : Word := 0
  /-- Code lines on the Express path (R280). -/
  expressLines : Nat := 0
  hash : List Byte := []
  deriving DecidableEq, Repr

/-- Staging of a program (R276). -/
structure Staging where
  total : Nat
  bytes : List Byte
  deriving DecidableEq, Repr

/-- Loaded programs and staging (R276 to R281). -/
structure Programs where
  loaded : Tab Program := []
  /-- Replaced code that contexts still run, at 64 k plus its program number (R279). -/
  kept : Tab Program := []
  staging : Tab Staging := []
  deriving DecidableEq, Repr

/-- A mailbox (R430 to R439). -/
structure Mailbox where
  msg : BitVec 512 := 0
  owner : Nat := 0
  full : Bool := false
  cause : Nat := 0
  empty : Bool := false
  noticeHeld : Bool := false
  poster : Nat := 0
  posterReset : Bool := false
  due : Word := 0
  tmo : BitVec 32 := 0x10000#32
  evt : Tab (BitVec 16) := []
  recv : Nat := 0
  recvView : Nat := 0
  bound : Bool := false
  boundBy : Option Nat := none
  send : List (Nat × Nat) := []
  cntIgn : BitVec 32 := 0
  deriving DecidableEq, Repr

/-- Mailboxes, the signal box and its heartbeat (R429 to R445). -/
structure Mailboxes where
  boxes : Tab Mailbox := []
  /-- Notices not yet posted, by PF port (R432). -/
  notices : Tab (List (BitVec 512)) := []
  hb : BitVec 32 := 0
  hbSeen : BitVec 32 := 0
  hbFails : Nat := 0
  hbPeriod : BitVec 32 := 0xA0000#32
  hbDue : Word := 0
  unattended : Bool := false
  /-- Two checks of the heartbeat in a row have failed: the next slot enters unattended mode (R441). -/
  lapsed : Bool := false
  gaveUp : Bool := false
  reloads : Nat := 0
  reloading : Bool := false
  /-- Failed reloads since the last heartbeat, and when the present reload fails (R444). -/
  reloadFails : Nat := 0
  reloadDue : Word := 0
  adminQ : List AdminCmd := []
  /-- Signal box SRAM as channel 15 fills and reads it (R402). -/
  sram : Memory := {}
  deriving DecidableEq, Repr

/-- A fare record of a snapshot (R209). -/
structure FareRec where
  vol : Nat
  flags : BitVec 8
  blkRead : Word
  blkWritten : Word
  cmdExpress : Word
  cmdStandard : Word
  cmdBulk : Word
  expTokens : Word
  extents : Nat
  deriving DecidableEq, Repr

/-- The fare meter unit (R455 to R458). -/
structure Fare where
  en : Bool := true
  period : BitVec 32 := 0xEA60#32
  periodNext : Option (BitVec 32) := none
  seq : BitVec 32 := 0
  ts : Word := 0
  prevTs : Word := 0
  originTs : Word := 0
  running : Bool := false
  snap : List FareRec := []
  deleted : List FareRec := []
  deriving DecidableEq, Repr

/-- An error log entry (R208). -/
structure LogEnt where
  code : BitVec 16
  source : BitVec 8
  flags : BitVec 8 := 0
  ts : Word
  func : BitVec 16 := 0
  vol : BitVec 16 := 0
  member : BitVec 8 := 0
  detail : Word := 0
  deriving DecidableEq, Repr

/-- A deferred-error log entry (R208). -/
structure DefEnt where
  vol : Nat
  cause : Nat
  group : Nat
  ts : Word
  lba : Nat
  count : Nat
  deriving DecidableEq, Repr

/-- The Route Book (R102 to R111): generation in force, changes that wait for the swap, and the
hardware's copy of the sections taken at the swap. -/
structure RouteBook where
  gen : BitVec 32 := 0
  changed : Bool := false
  swapTs : Word := 0
  /-- CHANGED of R107. -/
  sections : BitVec 32 := 0
  /-- Bytes of the sections but GEN, SWAP_TS, CHANGED, the copies of GEN, the CRC and the fixed ROM header. -/
  image : Memory := {}
  deriving DecidableEq, Repr

/-- The last line of a console reply (R449): OK, ERR POWER, ERR ?, or ERR with a reason that the manual does not word. -/
inductive UartEnd where
  | ok | errPower | errUnknown | errArgument
  deriving DecidableEq, Repr

/-- A W1C bit or an RC count that the part set in the present slot (R9): its register, bit, and the count (1 for a bit). -/
structure Fresh where
  block : RegBlock
  off : Nat
  pos : Nat
  amount : Nat
  deriving DecidableEq, Repr

/-- What leaves the part: TLPs, member and vault commands, messages and pin events. -/
inductive Out where
  | cqe (f cq index : Nat) (entry : BitVec 128)
  /-- A TLP that carries entries of a ring, from an index on (R157). -/
  | cqeTlp (f cq first count : Nat)
  | shadowWrite (f : Nat) (addr value : Nat)
  | msix (f vector : Nat)
  | assertIntx (port : Nat)
  | deassertIntx (port : Nat)
  /-- An upstream read, and data sent to the host, with the PASID prefix of an untranslated request (R414). -/
  | hostRead (tag f : Nat) (purpose : ReadPurpose) (addr len : Nat) (pasid : Option Nat)
  | hostData (f addr : Nat) (bytes : List Byte) (ep ro : Bool) (pasid : Option Nat)
  /-- Data of an admin command: the extents of its buffer, the bytes, Relaxed Ordering (R115, R152). -/
  | adminData (port : Nat) (cid : BitVec 16) (dest : List (Nat × Nat)) (bytes : List Byte) (ro : Bool)
  | regRead (value : Word)
  | configDone (f : Nat)
  | memCmd (port cid : Nat) (op : MemOp) (lba count : Nat) (zeroes dealloc : Bool)
  | memData (port cid : Nat) (bytes : List Byte)
  | memAbort (port cid : Nat)
  | memPower (port : Nat) (low : Bool)
  | mperst (port : Nat) (high : Bool)
  /-- An intent echo or a retire notice for the issue step (R339). -/
  | echo (g generation stripe : Nat) (retire : Bool)
  /-- An echo block, or copies A and B of a mirror header, for the members of a mirror's triple in service (R337, R338). -/
  | echoBlock (g : Nat) (ports : List Nat) (lba : Nat) (bytes : List Byte)
  | mirrorHeader (g epoch : Nat) (clean : Bool) (ports : List Nat) (a b : List Byte)
  | labels (g generation index kind : Nat)
  /-- A section of a dump, with the blocks of the area that VPORT0 and VPORT1 take; blocks of the section that are not listed are
  zero (R342). -/
  | vaultWrite (areaB : Bool) (section_ : DumpStep) (v0 v1 : List (Nat × Memory))
  | vaultReleased (seq : Nat)
  | vaultDone (low : Bool)
  | thermtrip (low : Bool)
  | huTest (high : Bool)
  | rail (i : Nat) (on : Bool)
  | ttcOut (high : Bool)
  | hwake (port : Nat) (low : Bool)
  | pme (port : Nat)
  /-- LTR with a latency in ns (R129). -/
  | ltr (port ns : Nat)
  | linkL1 (rung : Nat)
  | mbxEvent (agent box : Nat)
  | atsRequest (tag f pasid page pages : Nat)
  | pageRequest (f pasid index page : Nat) (last : Bool)
  | invalidateDone (f itag : Nat)
  | layupImage
  | unsupported (f : Nat)
  /-- A host read of BAR0 that is not aligned ends in a Completer Abort (R98). -/
  | hostAbort (f : Nat)
  /-- A configuration request gets Configuration Request Retry Status (R95). -/
  | configRetry (f : Nat)
  /-- Bytes that a read of BAR2 or of the ROM window returns, a completion each (R102, R149). -/
  | barData (f : Nat) (bytes : List Byte)
  | romData (p : Nat) (bytes : List Byte)
  | completerAbort (port cid : Nat)
  /-- An AER record of a function: 1 poisoned TLP, 2 completion timeout, 3 unexpected completion, 4 to 6 completions with the
  statuses of HostStatus (R123, R126, R127). -/
  | aer (f kind : Nat)
  | gelbel (cmd tag status : Byte) (body : List Byte)
  | mctp (cmd : Byte) (body : List Byte)
  | uart (command : String) (values : List Nat) (result : UartEnd)
  | flashWrite (slotB : Bool)
  | tagWrite (record : Nat)
  | fuse (count : Nat)
  deriving DecidableEq, Repr

/-- The machine. -/
structure State where
  pwr : Power := {}
  tt : Timetable := {}
  adm : Adm := {}
  ports : Tab HostPort := []
  funcs : Tab Func := []
  reads : Tab HostRead := []
  nextTag : Nat := 0
  ctxs : Tab Ctx := []
  /-- Arrival number since which slot 0 of an engine is free (R16). -/
  engineFree : Tab Nat := []
  cache : Cache := {}
  locks : List LockEnt := []
  journal : Journal := {}
  groups : Tab Group := []
  vols : Tab Volume := []
  /-- Volume numbers given up in the present slot: free for CREATE from the next one (R193). -/
  freedVols : List Nat := []
  mports : Tab MPort := []
  mem : MemRegs := {}
  vlt : Vault := {}
  movers : Tab Mover := []
  xlate : Xlate := {}
  progs : Programs := {}
  mbx : Mailboxes := {}
  fare : Fare := {}
  /-- Error log, newest first, and its sequence count (R206 to R208). -/
  errLog : List LogEnt := []
  errSeq : Nat := 0
  defLog : List DefEnt := []
  defSeq : Nat := 0
  rb : RouteBook := {}
  /-- What the part set in the present slot where a write or a read clears it (R9). -/
  fresh : List Fresh := []
  /-- Rings whose fetch waits for the issue step of the present slot (R46, R143): function and slot. -/
  fetchDue : List (Nat × Nat) := []
  /-- Everything the part has sent, newest first (the model's own record of its outputs). -/
  out : List Out := []
  /-- Counter of free values drawn (the model's own). -/
  freeCtr : Nat := 0
  /-- Arrival counter for first-come orders (the model's own). -/
  seqCtr : Nat := 0
  /-- Commands that wait, first in first out. -/
  pending : List Instr := []
  deriving DecidableEq, Repr

/-- The state right after reset: Off, every register at its reset value, nothing listed, no command
waiting (R8, R57, R89, R100, R356, R398, R487). -/
def State.reset : State := {}

end Sys2Proof.Machine
end

