-- ==== Sys2Proof/Machine/Time.lean ====
section
/-! DEFINITION. Timestamps and durations of the timetable (R36, R44, R47), and the maps that a cycle load
and a timetable switch apply to every stored deadline. -/

namespace Sys2Proof.Machine

/-- The timestamp of a cycle and a slot (R36). -/
def tsOf (cycle : BitVec 44) (slot : Nat) : Word := cycle ++ BitVec.ofNat 20 slot

/-- Cycle number of a timestamp. -/
def tsCycle (t : Word) : BitVec 44 := t.extractLsb' 20 44

/-- Slot number of a timestamp. -/
def tsSlot (t : Word) : Nat := (t.extractLsb' 0 20).toNat

/-- All ones: no deadline (R84, R241). -/
def noTs : Word := BitVec.allOnes 64

/-- Slots of a cycle at k (R35). -/
def slotsOf (k : Nat) : Nat := 2 ^ k

/-- Slots since cycle 0, slot 0 of a timestamp at k. -/
def tsLinear (k : Nat) (t : Word) : Nat := (tsCycle t).toNat * slotsOf k + tsSlot t

/-- The timestamp n slots after t at k; a sum past the last cycle wraps as the cycle number does (R36). -/
def tsAdd (k : Nat) (t : Word) (n : Nat) : Word :=
  let l := tsLinear k t + n
  tsOf (BitVec.ofNat 44 (l / slotsOf k)) (l % slotsOf k)

/-- Slots in which the timestamps at k go round: the cycle number wraps from 2^44 - 1 to 0 (R36). -/
def tsRound (k : Nat) : Nat := 2 ^ 44 * slotsOf k

/-- Slots from a to b at k, going round past the last cycle number (R36). -/
def tsAhead (k : Nat) (a b : Word) : Nat :=
  (tsLinear k b % tsRound k + tsRound k - tsLinear k a % tsRound k) % tsRound k

/-- Timestamp a is not later than b: b lies less than half a round ahead of a (R36, R40). -/
def tsLe (k : Nat) (a b : Word) : Bool := decide (2 * tsAhead k a b < tsRound k)

/-- Elapsed slots from a to b at k (R36); 0 when b is earlier. -/
def tsElapsed (k : Nat) (a b : Word) : Nat := if tsLe k a b then tsAhead k a b else 0

/-- The timestamp n slots before t at k, going round below cycle 0 (R36, R40). -/
def tsBack (k : Nat) (t : Word) (n : Nat) : Word :=
  let l := (tsLinear k t + tsRound k - n % tsRound k) % tsRound k
  tsOf (BitVec.ofNat 44 (l / slotsOf k)) (l % slotsOf k)

/-- The timestamp of the present slot (R37). -/
def now (s : State) : Word := tsOf s.tt.cycle s.tt.slot

/-- The timestamp n slots from now. -/
def after (s : State) (n : Nat) : Word := tsAdd s.tt.kActive (now s) n

/-- Slots elapsed since t. -/
def since (s : State) (t : Word) : Nat := tsElapsed s.tt.kActive t (now s)

/-- A timer due at t has come to its check slot (R47); the value of no deadline never comes. -/
def due (s : State) (t : Word) : Bool := t != noTs && tsLe s.tt.kActive t (now s)

/-- The check slot of a timer due at t has passed: an arrival now is late (R47). -/
def past (s : State) (t : Word) : Bool := due s t && t != now s

/-- Shift a stored timestamp by a difference of cycle numbers (R40); the value of no deadline stays. -/
def tsShift (diff : BitVec 44) (t : Word) : Word :=
  if t = noTs then t else tsOf (tsCycle t + diff) (tsSlot t)

/-- A number of slots of the old timetable as slots of the new one, rounded up (R44): nanosecond cycle and
k of each. -/
def slotsConvert (oldNom oldK newNom newK n : Nat) : Nat :=
  let num := n * oldNom * 2 ^ newK
  let den := newNom * 2 ^ oldK
  if den = 0 then n else (num + den - 1) / den

/-- A stored deadline across a switch edge (R44): the slots still to run, converted and counted from slot 0
of the new cycle; a deadline already past keeps its cycle with its slot brought into range. -/
def deadlineConvert (oldNom oldK newNom newK : Nat) (edge : Word) (t : Word) : Word :=
  if t = noTs then t
  else if tsLe oldK edge t then
    tsAdd newK edge (slotsConvert oldNom oldK newNom newK (tsElapsed oldK edge t))
  else tsOf (tsCycle t) (slotsConvert 1 oldK 1 newK (tsSlot t) % slotsOf newK)

/-- A stored time of visibility across a switch edge: the elapsed slots, converted rounding up, counted back
from the edge (R45). -/
def stampConvert (oldNom oldK newNom newK : Nat) (edge : Word) (t : Word) : Word :=
  tsBack newK edge (slotsConvert oldNom oldK newNom newK (tsElapsed oldK t edge))

/-- Apply a map to the deadline inside a wait. -/
def WaitFor.mapTime (f : Word → Word) : WaitFor → WaitFor
  | .until_ t => .until_ (f t)
  | w => w

/-- Apply maps to the deadlines and to the visibility stamps of a context. -/
def Ctx.mapTimes (f g : Word → Word) (c : Ctx) : Ctx :=
  { c with dl := f c.dl, vis := g c.vis, issued := g c.issued, wait := c.wait.mapTime f }

/-- The same for a ready completion. -/
def Ready.mapTimes (f g : Word → Word) (r : Ready) : Ready := { r with dl := f r.dl, vis := g r.vis, readyTs := g r.readyTs }

/-- The same for a fetched entry. -/
def Fetched.mapTimes (g : Word → Word) (e : Fetched) : Fetched := { e with vis := g e.vis }

/-- The same for the queues of a function. -/
def Func.mapTimes (f g : Word → Word) (fn : Func) : Func :=
  { fn with
    flrTs := g fn.flrTs
    sqs := fn.sqs.mapVal fun _ q =>
      { q with refusalTs := q.refusalTs.map g, announced := q.announced.map (fun a => { a with vis := g a.vis }), fetched := q.fetched.map (Fetched.mapTimes g),
               pollDue := f q.pollDue }
    cqs := fn.cqs.mapVal fun _ q =>
      { q with ready := q.ready.map (Ready.mapTimes f g), ivDue := f q.ivDue } }

/-- The same for a member port. -/
def MPort.mapTimes (f g : Word → Word) (p : MPort) : MPort :=
  { p with
    cmds := p.cmds.mapVal fun _ c => { c with issued := g c.issued, due := f c.due }
    quarDet := p.quarDet.map fun q => (q.1, g q.2)
    retryDue := p.retryDue.map f
    pulseDue := p.pulseDue.map f }

/-- The same for an admin command that waits. -/
def AdminCmd.mapTimes (f g : Word → Word) (a : AdminCmd) : AdminCmd := { a with dl := f a.dl, vis := g a.vis }

/-- Apply a map to every admin command that waits anywhere. -/
def State.mapAdmin (h : AdminCmd → AdminCmd) (s : State) : State :=
  { s with
    pwr := { s.pwr with setWaiters := s.pwr.setWaiters.map h }
    tt := { s.tt with waiters := s.tt.waiters.map fun w => { w with cmd := h w.cmd } }
    adm := { s.adm with tokenWait := s.adm.tokenWait.map h }
    funcs := s.funcs.mapVal fun _ fn => { fn with windows := fn.windows.mapVal fun _ w => { w with commitWait := w.commitWait.map h } }
    groups := s.groups.mapVal fun _ g => { g with adopter := g.adopter.map h, creator := g.creator.map h }
    vols := s.vols.mapVal fun _ v =>
      { v with fill := v.fill.map fun x => { x with cmd := x.cmd.map h }, deleteWait := v.deleteWait.map h, detachWait := v.detachWait.map fun x => (x.1, h x.2) }
    mports := s.mports.mapVal fun _ p =>
      { p with resetWait := p.resetWait.map h, cmds := p.cmds.mapVal fun _ c => { c with waiter := c.waiter.map h } }
    mbx := { s.mbx with adminQ := s.mbx.adminQ.map h } }

/-- Apply a map f to every stored deadline and a map g to every stored time that a bound counts from
(R40, R44, R45). -/
def State.mapTimes (f g : Word → Word) (s : State) : State :=
  let s := s.mapAdmin (AdminCmd.mapTimes f g)
  { s with
    tt := { s.tt with edgeTs := g s.tt.edgeTs }
    ports := s.ports.mapVal fun _ h => { h with rebuildTs := g h.rebuildTs }
    groups := s.groups.mapVal fun _ x => { x with scrubAt := x.scrubAt.map g }
    ctxs := s.ctxs.mapVal fun _ c => c.mapTimes f g
    funcs := s.funcs.mapVal fun _ fn => fn.mapTimes f g
    reads := s.reads.mapVal fun _ r => { r with issued := g r.issued, due := f r.due }
    locks := s.locks.map fun l => { l with due := f l.due }
    mports := s.mports.mapVal fun _ p => p.mapTimes f g
    vlt := { s.vlt with huDue := f s.vlt.huDue, dump := s.vlt.dump.map fun d => { d with q := g d.q } }
    pwr := { s.pwr with
      entryStart := g s.pwr.entryStart, entryDue := f s.pwr.entryDue, wakeTs := g s.pwr.wakeTs, fwDue := f s.pwr.fwDue,
      crsDue := f s.pwr.crsDue }
    mbx := { s.mbx with
      boxes := s.mbx.boxes.mapVal fun _ b => { b with due := f b.due }
      hbDue := f s.mbx.hbDue, reloadDue := f s.mbx.reloadDue } }

end Sys2Proof.Machine
end

