-- ==== Sys2Proof/Machine/Ops.lean ====
section
/-! DEFINITION. Operations shared by the meanings: field access, tables, logs, interrupts, upstream
requests, completion entries and outputs. -/

namespace Sys2Proof

/-- The lowest number from n on that is no key of a table in rising order. -/
def Tab.gap {α : Type} : Tab α → Nat → Nat
  | [], n => n
  | (k, _) :: t, n => if k < n then Tab.gap t n else if k = n then Tab.gap t (n + 1) else n

/-- The keys of a table. -/
def Tab.keys {α : Type} (t : Tab α) : List Nat := t.map Prod.fst

/-- The values of a table. -/
def Tab.vals {α : Type} (t : Tab α) : List α := t.map Prod.snd

/-- A key is listed. -/
def Tab.has {α : Type} (t : Tab α) (k : Nat) : Bool := (t.find k).isSome

namespace Machine

/-- Bits [lo + n - 1 : lo] of a bit vector as a number (R4). -/
def fieldOf {w : Nat} (v : BitVec w) (lo n : Nat) : Nat := (v.extractLsb' lo n).toNat

/-- Add one, saturating at all ones (R100, R57). -/
def satInc {w : Nat} (x : BitVec w) : BitVec w := if x = BitVec.allOnes w then x else x + 1

/-- Add n, saturating at all ones. -/
def satAdd {w : Nat} (x : BitVec w) (n : Nat) : BitVec w :=
  if 2 ^ w ≤ x.toNat + n then BitVec.allOnes w else x + BitVec.ofNat w n

/-- A flag as a bit of a register. -/
def bit (b : Bool) (i : Nat) : Nat := if b then 2 ^ i else 0

/-- Block numbers in the order of R13 (R50). DESIGN CHOICE (log entry 64): they count from 0. -/
inductive Block where
  | hostEndpoint | fetcher | pushMemory | dispatcher | admission | allocator | clusters | directory
  | lockUnit | journal | interlocking | initiator | vault | movers | translation | poster | timetable
  | fareMeter | signalBox | alwaysOn | mailboxes
  deriving DecidableEq, Repr

/-- The number of a block (R50), counted from 0 (log entry 64). -/
def Block.num : Block → Nat
  | .hostEndpoint => 0 | .fetcher => 1 | .pushMemory => 2 | .dispatcher => 3 | .admission => 4
  | .allocator => 5 | .clusters => 6 | .directory => 7 | .lockUnit => 8 | .journal => 9
  | .interlocking => 10 | .initiator => 11 | .vault => 12 | .movers => 13 | .translation => 14
  | .poster => 15 | .timetable => 16 | .fareMeter => 17 | .signalBox => 18 | .alwaysOn => 19
  | .mailboxes => 20

/-- Record what leaves the part. -/
def emit (s : State) (o : Out) : State := { s with out := o :: s.out }

/-- Record several outputs, the first of the list first. -/
def emitAll (s : State) (os : List Out) : State := { s with out := os.reverse ++ s.out }

/-- A new Route Book generation will be built at the next cycle edge (R104). -/
def rbChange (s : State) : State := { s with rb := { s.rb with changed := true } }

/-- What an error log entry names beside its code and source; 0xFFFF and 0xFF name nothing. -/
structure LogAt where
  func : Nat := 0xFFFF
  vol : Nat := 0xFFFF
  member : Nat := 0xFF
  deriving DecidableEq, Repr

/-- Write an error log entry (R206 to R208). -/
def logErr (s : State) (code : Nat) (src : Block) (w : LogAt) (detail : Nat) : State :=
  { s with
    errSeq := s.errSeq + 1
    errLog := (({ code := BitVec.ofNat 16 code, source := BitVec.ofNat 8 src.num, ts := now s,
                  func := BitVec.ofNat 16 w.func, vol := BitVec.ofNat 16 w.vol,
                  member := BitVec.ofNat 8 w.member, detail := BitVec.ofNat 64 detail } : LogEnt)
                :: s.errLog).take Config.logCapacity }

/-- A register of the signal box map was written with a value that is undefined or ignored: the error log counts it
(R11; no function is behind the write, log entry 69). -/
def undefinedField (s : State) (src : Block) (value : Nat) : State := logErr s Config.ignoredCode.toNat src {} value

/-- The directory and the journal are frozen from the qualification of PFAIL_N on (R345). -/
def frozen (s : State) : Bool := s.vlt.pfail

/-- The part rests on W0: no entry has reached its commit slot, no exit or restore runs, and no power failure is
qualified (R345, R470, R474). -/
def onW0 (s : State) : Bool := s.pwr.rung == 0 && !s.pwr.exiting && !s.pwr.restoring && !frozen s

/-- Draw the next free word: a value that nothing fixes (log entry 2). -/
def drawFree (s : State) : Word × State :=
  (Config.freeWord s.freeCtr, { s with freeCtr := s.freeCtr + 1 })

/-- The next arrival number of the first-come orders (R244, R297). -/
def nextSeq (s : State) : Nat × State := (s.seqCtr, { s with seqCtr := s.seqCtr + 1 })

/-! Functions and ports -/

/-- Port of a function index (R93). -/
def portOf (f : Nat) : Nat := f / 64

/-- The function is a PF (R93). -/
def isPF (f : Nat) : Bool := f % 64 == 0

/-- Change a function's state. -/
def updFunc (s : State) (f : Nat) (g : Func → Func) : State := { s with funcs := s.funcs.upd f g }

/-- Change a host port's state. -/
def updPort (s : State) (p : Nat) (g : HostPort → HostPort) : State := { s with ports := s.ports.upd p g }

/-- An existing function. -/
def fnOf (s : State) (f : Nat) : Option Func :=
  match s.funcs.find f with
  | some fn => if fn.exists_ then some fn else none
  | none => none

/-- The part acts on posted writes to BAR0 and BAR2 (R131). -/
def postedOk (s : State) : Bool :=
  match s.pwr.devState with
  | .starting | .recovering | .ready => true
  | _ => false

/-! What the part sets in the slot of a clearing access (R9) -/

/-- The part sets a W1C bit, or raises an RC count, in the present slot. -/
def markFresh (s : State) (b : RegBlock) (off pos amount : Nat) : State :=
  { s with fresh := { block := b, off := off, pos := pos, amount := amount } :: s.fresh }

/-- Bits of a W1C register that were set in the present slot. -/
def freshBits (s : State) (b : RegBlock) (off : Nat) : Nat :=
  ((s.fresh.filter fun x => x.block == b && x.off == off).map Fresh.pos).eraseDups.map (2 ^ ·) |>.sum

/-- Part of an RC count that was set in the present slot. -/
def freshCount (s : State) (b : RegBlock) (off pos : Nat) : Nat :=
  ((s.fresh.filter fun x => x.block == b && x.off == off && x.pos == pos).map Fresh.amount).sum

/-- A value written to a W1C register without the bits that stay set (R9). -/
def w1c {w : Nat} (s : State) (b : RegBlock) (off : Nat) (v : BitVec w) : BitVec w := v &&& ~~~BitVec.ofNat w (freshBits s b off)

/-- A count after the read that clears it (R9). -/
def keptCount {w : Nat} (s : State) (b : RegBlock) (off pos : Nat) : BitVec w := satAdd 0#w (freshCount s b off pos)

/-- A function that answers on its port now: VFs with VF Enable 0, and functions of a port in HPERST_N or its
rebuild, do not (R95, R117). -/
def answers (s : State) (f : Nat) : Option Func :=
  match fnOf s f, s.ports.find (portOf f) with
  | some fn, some p => if !p.hperst && !p.rebuild && (isPF f || p.vfEnable) then some fn else none
  | _, _ => none

/-- The function takes posted writes to its BARs now (R117, R129, R131); those that follow its reset in one slot are discarded
(R143). -/
def takesWrites (s : State) (f : Nat) : Option Func :=
  match answers s f with
  | some fn => if postedOk s && !fn.d3 && !(fn.flrBusy && fn.flrTs == now s) then some fn else none
  | none => none

/-- A function whose port answers configuration requests now, and not with retry status (R95). -/
def takesCfg (s : State) (f : Nat) : Option Func :=
  match answers s f, s.ports.find (portOf f) with
  | some fn, some p => if p.crs then none else some fn
  | _, _ => none

/-- The answer to a configuration request that is not taken: retry status while the port rebuilds or has just started (R95). -/
def refuseCfg (s : State) (f : Nat) : State :=
  match s.ports.find (portOf f) with
  | some p => if !p.hperst && (p.crs || p.rebuild) then emit s (.configRetry f) else s
  | none => s

/-- The part sends upstream requests (R131). -/
def dmaOk (s : State) : Bool :=
  match s.pwr.devState with
  | .recovering | .ready => !s.vlt.pfail
  | _ => false

/-- A function may send upstream TLPs now (R118, R120, R129). -/
def upstreamOk (s : State) (fn : Func) : Bool :=
  dmaOk s && fn.exists_ && fn.bme && !fn.flrBusy && !fn.d3

/-- Vectors of a function's MSI-X table (R97). -/
def vectorsOf (f : Nat) : Nat := if isPF f then 2048 else 64

/-- A vector is masked (R113). -/
def maskedVec (fn : Func) (v : Nat) : Bool := fn.msixFmask || !fn.unmasked.contains v

/-- Send an MSI-X message when MSI-X is enabled, mark it pending when masked, hold it while the function may not send
(R112, R113, R118, R120). -/
def sendMsix (s : State) (f v : Nat) : State :=
  match fnOf s f with
  | none => s
  | some fn =>
    if fn.flrBusy || !fn.msixEn then s
    else if maskedVec fn v then
      updFunc s f fun fn => { fn with pba := if fn.pba.contains v then fn.pba else v :: fn.pba }
    else if upstreamOk s fn then emit s (.msix f v)
    else updFunc s f fun fn =>
      { fn with held := if fn.held.contains (.msix v) then fn.held else fn.held ++ [.msix v] }

/-- W1C and read-only bits of Q_FN_STATUS but QUAR_FULL, BME_HOLD and INTX_EVT (R100). -/
def fnW1c (fn : Func) : Nat :=
  bit fn.stCto 2 + bit fn.stUnexp 3 + bit fn.stPsnIn 4 + bit fn.stFetchTmo 5 + bit fn.stRbChanged 7

/-- The function signals by INTA (R112). -/
def usesIntx (f : Nat) (fn : Func) : Bool := isPF f && !fn.msixEn && !fn.intxDis

/-- Some INTx event of the function is pending: a ring bit, or an enabled status bit (R114). -/
def intxPending (fn : Func) : Bool :=
  fn.intxRing != 0 || (BitVec.ofNat 32 (fnW1c fn) &&& fn.evtEn) != 0

/-- Send Assert_INTA when the first pending bit of a PF has risen (R114), and the function may send (R120, R131). -/
def updateIntx (s : State) (f : Nat) : State :=
  match fnOf s f, s.ports.find (portOf f) with
  | some fn, some p =>
    if usesIntx f fn && intxPending fn && !p.intx && upstreamOk s fn then
      emit (updPort s (portOf f) fun p => { p with intx := true }) (.assertIntx (portOf f))
    else s
  | _, _ => s

/-- INTA at the issue step of a slot: Deassert_INTA when the last pending bit is clear, Assert_INTA when one waits to be sent
(R114). -/
def settleIntx (s : State) (f : Nat) : State :=
  match fnOf s f, s.ports.find (portOf f) with
  | some fn, some p =>
    if p.intx && upstreamOk s fn && !(usesIntx f fn && intxPending fn) then
      emit (updPort s (portOf f) fun p => { p with intx := false }) (.deassertIntx (portOf f))
    else updateIntx s f
  | _, _ => s

/-- The status bits whose rise is a function event (R100). -/
inductive FnBit where
  | cto | unexp | psnIn | fetchTmo | rbChanged
  deriving DecidableEq, Repr

/-- Bit position (R100). -/
def FnBit.pos : FnBit → Nat
  | .cto => 2 | .unexp => 3 | .psnIn => 4 | .fetchTmo => 5 | .rbChanged => 7

/-- Set a status bit. -/
def FnBit.set (b : FnBit) (fn : Func) : Func :=
  match b with
  | .cto => { fn with stCto := true }
  | .unexp => { fn with stUnexp := true }
  | .psnIn => { fn with stPsnIn := true }
  | .fetchTmo => { fn with stFetchTmo := true }
  | .rbChanged => { fn with stRbChanged := true }

/-- The event of a function status bit, when it is enabled (R112, R114). -/
def sendEvent (s : State) (f : Nat) (b : FnBit) : State :=
  match fnOf s f with
  | none => s
  | some fn => if fn.evtEn.getLsbD b.pos then (if fn.msixEn then sendMsix s f fn.evtVec.toNat else updateIntx s f) else s

/-- A function status bit is set; when it rises and its event is enabled, the event is sent
(R100, R112, R114). -/
def raiseFn (s : State) (f : Nat) (b : FnBit) : State :=
  match fnOf s f with
  | none => s
  | some fn =>
    let s := markFresh s (.fn f) 0x04 b.pos 1
    if (fnW1c fn).testBit b.pos then s else sendEvent (updFunc s f b.set) f b

/-- Count an ignored write or an undefined value (R9, R11, R98). -/
def countIgn (s : State) (f : Nat) : State :=
  markFresh (updFunc s f fun fn => { fn with cntIgn := satInc fn.cntIgn }) (.fn f) 0x30 0 1

/-- An error of a function in its AER registers: the error's bit of the uncorrectable status, and the advisory non-fatal bit
of the correctable status (R123, R126, R127; log entry 11). -/
def aerSet (fn : Func) (pos : Nat) : Func :=
  let unc := fn.aer.getD 0x104 0 ||| BitVec.ofNat 32 (2 ^ pos)
  let cor := fn.aer.getD 0x110 0 ||| 0x2000#32
  { fn with aer := (fn.aer.put 0x104 unc).put 0x110 cor }

/-- A poisoned TLP arrived (R123). -/
def poisonIn (s : State) (f : Nat) : State :=
  let s := updFunc s f fun fn => { aerSet fn 12 with cntPsnIn := satInc fn.cntPsnIn, cmdStat := fn.cmdStat ||| 0x8000#16 }
  emit (raiseFn (markFresh s (.fn f) 0x28 0 1) f .psnIn) (.aer f 1)

/-- A poisoned data TLP was sent for a function (R100). -/
def poisonOut (s : State) (f : Nat) : State :=
  markFresh (updFunc s f fun fn => { fn with cntPsnOut := satInc fn.cntPsnOut }) (.fn f) 0x2C 0 1

/-- A TLP of the function was discarded as an unexpected completion (R127). -/
def unexpected (s : State) (f : Nat) : State :=
  let s := updFunc s f fun fn => { aerSet fn 16 with cntUnexp := satInc fn.cntUnexp }
  emit (raiseFn (markFresh s (.fn f) 0x24 0 1) f .unexp) (.aer f 3)

/-- Write a word of the function's shadow page, or hold the write while it may not be sent; a held write
of the same word takes the newer value (R120, R144, R145). -/
def shadowWrite (s : State) (f off value : Nat) : State :=
  match fnOf s f with
  | none => s
  | some fn =>
    match fn.shadow with
    | none => s
    | some base =>
      if fn.flrBusy then s
      else if upstreamOk s fn then emit s (.shadowWrite f (base + off) value)
      else updFunc s f fun fn =>
        { fn with held := fn.held.filter (fun h => match h with
                    | .shadow a _ => a != base + off
                    | .msix _ => true) ++ [.shadow (base + off) value] }

/-! Upstream reads (R125 to R128) -/

/-- A page request carries no tag of its own and takes no tracker (R417). -/
def isPageReq (r : HostRead) : Bool :=
  match r.purpose with
  | .page _ => true
  | _ => false

/-- Quarantined tags of a function. -/
def quarOf (s : State) (f : Nat) : Nat :=
  (s.reads.filter fun r => r.2.func == f && r.2.quarantined).length

/-- Outstanding reads of a function outside the Express reserve. -/
def readsOf (s : State) (f : Nat) : Nat :=
  (s.reads.filter fun r => r.2.func == f && !r.2.quarantined && !r.2.express && !isPageReq r.2).length

/-- Existing functions of a port. -/
def fnsOfPort (s : State) (p : Nat) : List Nat :=
  Tab.keys (s.funcs.filter fun x => portOf x.1 == p && x.2.exists_)

/-- Reads of a port in the shared remainder: beyond the 8 guaranteed to each function. -/
def sharedUsed (s : State) (p : Nat) : Nat :=
  ((fnsOfPort s p).map fun f => readsOf s f - 8).sum

/-- A read outside the Express reserve finds a tracker (R128). -/
def trackerShared (s : State) (f : Nat) : Bool :=
  readsOf s f < 8 || sharedUsed s (portOf f) + 8 * (fnsOfPort s (portOf f)).length < 640

/-- A read on behalf of an Express queue finds a reserved tracker (R128). -/
def trackerExpress (s : State) (p : Nat) : Bool :=
  (s.reads.filter fun r => portOf r.2.func == p && !r.2.quarantined && r.2.express).length < 128

/-- A read of the function may be issued now (R118, R120, R128). -/
def readOk (s : State) (f : Nat) (express : Bool) : Bool :=
  match fnOf s f with
  | none => false
  | some fn =>
    upstreamOk s fn && quarOf s f < 16 &&
      (s.reads.filter fun r => r.2.func == f && !r.2.quarantined && !isPageReq r.2).length < fn.tagLimit &&
      (trackerShared s f || (express && trackerExpress s (portOf f)))

/-- Register an upstream request with its timeout (R125, R47). -/
def openRead (s : State) (f : Nat) (purpose : ReadPurpose) (express : Bool) : State :=
  let cto := match fnOf s f with
    | some fn => fn.cto.toNat
    | none => 0
  let r : HostRead :=
    { func := f, purpose := purpose, issued := now s, due := after s cto,
      express := express && trackerExpress s (portOf f) }
  { s with reads := s.reads.put s.nextTag r, nextTag := s.nextTag + 1 }

/-- Issue an upstream read. -/
def issueRead (s : State) (f : Nat) (purpose : ReadPurpose) (express : Bool) (addr len : Nat) (pasid : Option Nat := none) :
    State :=
  emit (openRead s f purpose express) (.hostRead s.nextTag f purpose addr len pasid)

/-! Contexts -/

/-- Change a context. -/
def updCtx (s : State) (cx : Nat) (g : Ctx → Ctx) : State := { s with ctxs := s.ctxs.upd cx g }

/-- A waiting context becomes READY (R19, R246). -/
def wake (s : State) (cx : Nat) : State :=
  let (n, s) := nextSeq s
  updCtx s cx fun c => { c with state := .ready, wait := .nothing, since := n }

/-! Completion rings -/

/-- Entries of a completion ring. -/
def Cq.size (q : Cq) : Nat := 2 ^ q.log2

/-- Entries from index a up to index b of a queue of n entries (R137). -/
def idxDist (n a b : Nat) : Nat := (b + 2 * n - a % (2 * n)) % (2 * n)

/-- First index and count of the TLPs that carry n entries of 16 bytes from an index on, at most `per` in each, none of them across
the end of the ring (R157). -/
def tlpRuns (size per : Nat) : Nat → Nat → Nat → List (Nat × Nat)
  | 0, _, _ => []
  | k + 1, first, n =>
    if n = 0 then []
    else
      let m := min n (min (max 1 per) (size - first))
      (first, m) :: tlpRuns size per k ((first + m) % size) (n - m)

/-- A completion ring has a free entry (R159). -/
def Cq.hasRoom (q : Cq) : Bool := decide (idxDist q.size q.ci q.pi < q.size)

/-- Change a submission queue. -/
def updSq (s : State) (f slot : Nat) (g : Sq → Sq) : State :=
  updFunc s f fun fn => { fn with sqs := fn.sqs.upd slot g }

/-- Change a completion ring. -/
def updCq (s : State) (f slot : Nat) (g : Cq → Cq) : State :=
  updFunc s f fun fn => { fn with cqs := fn.cqs.upd slot g }

/-- A submission queue. -/
def sqOf (s : State) (f slot : Nat) : Option Sq := (fnOf s f).bind fun fn => fn.sqs.find slot

/-- A completion ring. -/
def cqOf (s : State) (f slot : Nat) : Option Cq := (fnOf s f).bind fun fn => fn.cqs.find slot

/-- The function is in its FLR teardown (R118). -/
def flrNow (s : State) (f : Nat) : Bool :=
  match fnOf s f with
  | some fn => fn.flrBusy
  | none => false

/-- A completion becomes ready to post: it joins the tail of its ring (R158). In a teardown it is dropped (R118). -/
def pushReady (s : State) (f : Nat) (r : Ready) : State :=
  if flrNow s f then s
  else
    match sqOf s f r.sqSlot with
    | none => s
    | some q =>
      let (n, s) := nextSeq s
      updCq s f q.cqSlot fun c => { c with ready := c.ready ++ [{ r with seq := n }] }

/-- A function has no context left. -/
def noCtxs (s : State) (f : Nat) : Bool := s.ctxs.all fun c => c.2.kind == .maint || c.2.func.toNat != f

/-- A VF exists only while VF Enable is 1 and NumVFs reaches it, or while it is held through a hot reset (R117). -/
def vfStays (p : HostPort) (f : Nat) : Bool :=
  isPF f || (p.vfEnable && decide (f % 64 ≤ p.numVfs)) || (p.vfHeld && !p.vfEnable)

/-- VAULT_DONE_N is driven low (R347, R349). -/
def driveDone (s : State) : State :=
  emit { s with vlt := { s.vlt with dumping := false, dumpDone := true, doneNext := false }, pwr := { s.pwr with vaultDoneLow := true } }
    (.vaultDone true)

/-- FLR_BUSY clears when the last context of the function is freed, at the earliest in the slot after the reset's (R118). -/
def flrSettle (s : State) (f : Nat) : State :=
  match fnOf s f, s.ports.find (portOf f) with
  | some fn, some p =>
    if !fn.flrBusy || !past s fn.flrTs || !noCtxs s f then s
    else
      let s := updFunc s f fun fn => { fn with flrBusy := false }
      rbChange (if vfStays p f then s else { s with funcs := s.funcs.del f })
  | _, _ => s

/-- PME for a member presence change or a Gelbel wake request, by each PF that has PME_En set: HWAKE_N in D3cold, PM_PME in
D3hot (R94, R130, R131). -/
def raisePme (s : State) : State :=
  (s.funcs.filter fun x => isPF x.1 && x.2.exists_ && x.2.pmeEn).foldl (fun s x =>
    let p := portOf x.1
    if x.2.d3cold then emit (updPort s p fun h => { h with hwakeLow := true }) (.hwake p true)
    else if x.2.d3 && dmaOk s then emit s (.pme p) else s) s

/-- Status codes of R175. -/
inductive Status where
  | success | notAdmitted | invalidOpcode | invalidField | volumeAbsent | lbaRange | dataPoisoned
  | piMismatch | stripeLost | hostFault | noContext | writeThroughOnly | programFault | nvInhibited
  | groupDegradedLimit
  deriving DecidableEq, Repr

/-- STATUS value (R175). -/
def Status.code : Status → Nat
  | .success => 0 | .notAdmitted => 1 | .invalidOpcode => 2 | .invalidField => 3 | .volumeAbsent => 4
  | .lbaRange => 5 | .dataPoisoned => 6 | .piMismatch => 7 | .stripeLost => 8 | .hostFault => 9
  | .noContext => 10 | .writeThroughOnly => 11 | .programFault => 12 | .nvInhibited => 13
  | .groupDegradedLimit => 14

/-- Place of a status in the order of R176; a lower number is reported first. -/
def Status.rank : Status → Nat
  | .hostFault => 0 | .programFault => 1 | .stripeLost => 2 | .piMismatch => 3 | .dataPoisoned => 4
  | .success => 5 | _ => 0

/-- The status that R176 reports of two. -/
def Status.worse (a b : Status) : Status := if a.rank ≤ b.rank then a else b

/-! Submission entry fields (R151, R152) -/

/-- OPC. -/
def eOpc (e : BitVec 512) : Nat := fieldOf e 0 8
/-- DPK. -/
def eDpk (e : BitVec 512) : Nat := fieldOf e 8 2
/-- Bit i of dword 0, by which CFLG bits are named. -/
def eFlag (e : BitVec 512) (i : Nat) : Bool := e.getLsbD i
/-- CID. -/
def eCid (e : BitVec 512) : BitVec 16 := e.extractLsb' 16 16
/-- VOL. -/
def eVol (e : BitVec 512) : Nat := fieldOf e 32 12
/-- LBA. -/
def eLba (e : BitVec 512) : Nat := fieldOf e 64 48
/-- NBLK. -/
def eNblk (e : BitVec 512) : Nat := fieldOf e 128 16
/-- Blocks of the command. -/
def eBlocks (e : BitVec 512) : Nat := eNblk e + 1
/-- n bits at bit b of byte k of the entry. -/
def eBits (e : BitVec 512) (k b n : Nat) : Nat := fieldOf e (8 * k + b) n

/-- The port number under which a Gelbel request waits where admin commands wait (R447): its entry holds CMD in
byte 0 and TAG in byte 2. -/
def gelbelPort : Nat := 8

/-- The response to a Gelbel request (R446). -/
def gelbelReply (s : State) (cmd tag : Byte) (st : Status) (body : List Byte) : State :=
  emit s (.gelbel (cmd ||| 0x80#8) tag (BitVec.ofNat 8 st.code) body)

/-- An admin command completes: its entry joins the ring of its PF's admin queue (R174), or the response to a
Gelbel request is sent (R447). -/
def adminDone (s : State) (a : AdminCmd) (st : Status) (poison : Bool) : State :=
  if a.port = gelbelPort then gelbelReply s (a.entry.extractLsb' 0 8) (a.entry.extractLsb' 16 8) st []
  else pushReady s (64 * a.port)
    { cid := eCid a.entry, status := BitVec.ofNat 8 st.code, sqSlot := 0, vis := a.vis, dl := a.dl, held := a.held,
      readyTs := now s, lateCause := 0, refusalCause := 0, poison := poison, vol := none, ctx := none,
      inlineBuf := none, windowPages := none, cls := .standard, blocksRead := 0, blocksWritten := 0 }

/-! Member ports, groups, volumes -/

/-- Change a member port. -/
def updMport (s : State) (p : Nat) (g : MPort → MPort) : State := { s with mports := s.mports.upd p g }

/-- Change a group. -/
def updGroup (s : State) (g : Nat) (h : Group → Group) : State := { s with groups := s.groups.upd g h }

/-- Change a volume. -/
def updVol (s : State) (v : Nat) (h : Volume → Volume) : State := { s with vols := s.vols.upd v h }

/-! Byte layouts (R4) -/

/-- Bytes in place of those of a list from an offset on. -/
def splice (l : List Byte) (off : Nat) (bs : List Byte) : List Byte := l.take off ++ bs ++ l.drop (off + bs.length)

/-- A list of bytes filled with zeros to a length. -/
def padTo (n : Nat) (l : List Byte) : List Byte := l.take n ++ List.replicate (n - l.length) 0

/-- Fields at rising offsets laid into n zero bytes. -/
def layBytes (n : Nat) (fs : List (Nat × List Byte)) : List Byte :=
  fs.foldl (fun b f => padTo n (splice b f.1 f.2)) (List.replicate n 0)

/-- Bytes followed by their CRC-32 (R103). -/
def sealBytes (b : List Byte) : List Byte := b ++ leBytes 4 (crc32 b).toNat

/-- Block k of a byte list as a frame's content. -/
def blockOfBytes (bs : List Byte) (k : Nat) : Memory := Memory.ofBytes ((bs.drop (4096 * k)).take 4096)

end Machine
end Sys2Proof
end

