-- ==== Sys2Proof/Machine/Cache.lean ====
section
/-! DEFINITION. The cache directory as the handlers use it: frames, pins, handles, allocation and dirty use
(R24, R285, R292, R293, R318, R319). -/

namespace Sys2Proof.Machine

/-- Change the directory. -/
def updCache (s : State) (g : Cache → Cache) : State := { s with cache := g s.cache }

/-- Change a frame. -/
def updFrame (s : State) (fr : Nat) (g : Frame → Frame) : State :=
  updCache s fun c => { c with frames := c.frames.upd fr g }

/-- The frame's entry; a frame that is not listed is free. -/
def frameOf (s : State) (fr : Nat) : Frame := s.cache.frames.getD fr {}

/-- The frame to which the directory maps a block. -/
def mapped (s : State) (vol lba : Nat) : Option Nat :=
  (s.cache.frames.find? fun x => x.2.key == some (vol, lba)).map Prod.fst

/-- A frame returns to the free pool. -/
def freeFrame (s : State) (fr : Nat) : State :=
  if frozen s then s else updCache s fun c => { c with frames := c.frames.del fr }

/-- A frame is taken out of use: it is never allocated again (R320). -/
def retireFrame (s : State) (fr : Nat) : State :=
  if frozen s then s else updCache s fun c =>
    { c with frames := c.frames.put fr { retired := true }
             retired := if (c.frames.getD fr {}).retired then c.retired else c.retired + 1 }

/-- Add a pin. -/
def pinFrame (s : State) (fr : Nat) : State := updFrame s fr fun x => { x with pins := x.pins + 1 }

/-- Drop a pin. A frame with no pin left is retired when so marked, and freed when no block is mapped to it
(R285, R292, R320). -/
def unpinFrame (s : State) (fr : Nat) : State :=
  match s.cache.frames.find fr with
  | none => s
  | some x =>
    if frozen s then s
    else if 1 < x.pins then updFrame s fr fun x => { x with pins := x.pins - 1 }
    else if x.retireLast then retireFrame s fr
    else if x.key.isNone then freeFrame s fr
    else updFrame s fr fun x => { x with pins := 0 }

/-- Drop a pin of each frame of a list. -/
def unpinAll (s : State) (frs : List Nat) : State := frs.foldl unpinFrame s

/-- Clean, mapped and unpinned: the directory may evict it. -/
def evictable (x : Frame) : Bool :=
  x.pins == 0 && !x.dirty && !x.rdonly && !x.retired && x.key.isSome

/-- Frames that an allocation may take: free ones and those it may evict. -/
def framesAvail (s : State) : Nat :=
  (Config.frames - s.cache.frames.length) + (s.cache.frames.filter fun x => evictable x.2).length

/-- Take a frame: the lowest free one, else the lowest that may be evicted (R23; log entry 8). -/
def takeFrame (s : State) : Option Nat :=
  let g := Tab.gap s.cache.frames 0
  if g < Config.frames then some g
  else (s.cache.frames.find? fun x => evictable x.2).map Prod.fst

/-- Allocate one frame with unspecified content (R292). -/
def allocFrame (s : State) (mk : Memory → Frame) : Option (Nat × State) :=
  match takeFrame s with
  | none => none
  | some fr =>
    some (fr, { s with cache := { s.cache with frames := s.cache.frames.put fr (mk (Memory.free s.freeCtr)) },
                       freeCtr := s.freeCtr + 1 })

/-- Allocate n frames, the k-th made by `mk k`; none when they run out. -/
def allocFrames : Nat → Nat → (Nat → Memory → Frame) → State → Option (List Nat × State)
  | 0, _, _, s => some ([], s)
  | n + 1, k, mk, s =>
    match allocFrame s (mk k) with
    | none => none
    | some (fr, s) =>
      match allocFrames n (k + 1) mk s with
      | none => none
      | some (l, s) => some (fr :: l, s)

/-- A frame becomes protected (R286). -/
def protectFrame (s : State) (fr : Nat) : State := updFrame s fr fun x => { x with prot := true }

/-- Map a block to a frame as dirty; the frame the block had loses the block, and is freed when nothing pins
it (R24, R290). -/
def mapDirty (s : State) (fr : Nat) (vol lba : Nat) : State :=
  let s := match mapped s vol lba with
    | none => s
    | some old =>
      if old = fr then s
      else
        let s := updFrame s old fun x => { x with key := none, dirty := false }
        if (frameOf s old).pins = 0 then freeFrame s old else s
  updFrame s fr fun x => { x with key := some (vol, lba), bound := none, dirty := true, age := s.tt.cycle.truncate 32 }

/-! Handles -/

/-- Handle k of a context. -/
def handleOf (c : Ctx) (k : Nat) : Handle := c.h.getD k .empty

/-- Frames of a handle, by position. -/
def Handle.frameTab : Handle → Tab Nat
  | .frames t => t
  | _ => []

/-- Frames that a handle pins (R285, R413). -/
def Handle.pins : Handle → List Nat
  | .frames t => t.vals
  | .desc (.list _ fr) => [fr]
  | .desc (.window _ _ _ frs) => frs
  | _ => []

/-- The frame at a position. -/
def Handle.at_ (h : Handle) (p : Nat) : Option Nat := h.frameTab.find p

/-- Set a handle of a context, with no regard to what it held. -/
def setHandle (s : State) (cx k : Nat) (h : Handle) : State :=
  updCtx s cx fun c => { c with h := match h with
    | .empty => c.h.del k
    | h => c.h.put k h }

/-- Release a handle (R285). -/
def releaseHandle (s : State) (cx k : Nat) : State :=
  match s.ctxs.find cx with
  | none => s
  | some c => setHandle (unpinAll s (handleOf c k).pins) cx k .empty

/-- Put a frame, already pinned for it, at a position of a handle; the frame that was there drops its pin
(R285). A handle that holds a descriptor is replaced. -/
def putFrame (s : State) (cx k pos fr : Nat) : State :=
  match s.ctxs.find cx with
  | none => s
  | some c =>
    let t := (handleOf c k).frameTab
    let s' := setHandle s cx k (.frames (t.put pos fr))
    match handleOf c k with
    | .desc _ => unpinAll s' (handleOf c k).pins
    | _ =>
      match t.find pos with
      | none => s'
      | some old => unpinFrame s' old

/-- Put frames at rising positions. -/
def putFrames (s : State) (cx k : Nat) : Nat → List Nat → State
  | _, [] => s
  | pos, fr :: frs => putFrames (putFrame s cx k pos fr) cx k (pos + 1) frs

/-- Release every handle and every admission pin of a context (R249, R262). -/
def releaseAll (s : State) (cx : Nat) : State :=
  match s.ctxs.find cx with
  | none => s
  | some c =>
    let s := unpinAll s ((c.h.map fun x => x.2.pins).flatten ++ c.pinned)
    updCtx s cx fun c => { c with h := [], pinned := [] }

/-- The frames at count positions from pos, none when one of them is empty. -/
def framesAt (h : Handle) (pos : Nat) : Nat → Option (List Nat)
  | 0 => some []
  | n + 1 =>
    match h.at_ pos, framesAt h (pos + 1) n with
    | some fr, some l => some (fr :: l)
    | _, _ => none

/-! Dirty use -/

/-- Frames of a sealed record that count as dirty use: its STAGE frames, and every frame of a restored one
(R319). -/
def recFrames (r : JRec) : List Nat :=
  if r.sealed then
    (r.entries.map fun e => if e.stage || r.restored then e.frames else []).flatten
  else []

/-- Busy inline buffers of every push queue (R150). -/
def busyInlines (s : State) : Nat :=
  (s.funcs.map fun f => (f.2.sqs.map fun q => q.2.inlineBusy.length).sum).sum

/-- Dirty in use in 4 KiB units (R319). -/
def dirtyUnits (s : State) : Nat :=
  (s.cache.frames.filter fun x => x.2.dirty).length +
    (s.journal.recs.map fun x => recFrames x.2).flatten.eraseDups.length + busyInlines s

/-- Write-through mode (R326). -/
def writeThrough (s : State) : Bool := decide (s.vlt.budget < Config.writeThroughBytes)

/-- Dirty use is past the urgent level: above 75 % of the budget, or above a new lower budget, in
write-through mode, or while W3 or W4 is prepared (R62, R325, R326, R472). -/
def urgentLevel (s : State) : Bool :=
  writeThrough s || decide (3 ≤ s.pwr.entry.getD 0) || decide (s.vlt.budget * 3 < dirtyUnits s * 4096 * 4)

/-- Contexts that wait for a free frame, best class first, are made READY so that they try again (R293). -/
def wakeFrameWaiters (s : State) : State :=
  (s.ctxs.filter fun x => x.2.wait == .frames).foldl (fun s x => wake s x.1) s

end Sys2Proof.Machine
end

