-- ==== Sys2Proof/Machine/Threads.lean ====
section
/-! DEFINITION. Threads as the shared units see them: effective class, stripe locks, journal records held by a
context, deferred errors, faults and the end of a thread (R22, R196, R248, R262 to R268, R296 to R301). -/

namespace Sys2Proof.Machine

/-- The effective class: the higher of own and inherited (R248). -/
def eclass (c : Ctx) : Cls := if c.inherited.code < c.cls.code then c.inherited else c.cls

/-- The instruction at PC completes: PC and budget move on (R271). -/
def advance (c : Ctx) : Ctx := { c with pc := c.pc + 1, budget := c.budget - 1 }

/-- General register n; g0 reads 0 (R249). -/
def greg (c : Ctx) (n : Nat) : Word := if n = 0 then 0 else c.g.getD n 0

/-- Write general register n; a write to g0 is discarded, and a register at 0 is not listed (R249). -/
def setGreg (c : Ctx) (n : Nat) (v : Word) : Ctx :=
  if n = 0 then c else if v = 0 then { c with g := c.g.del n } else { c with g := c.g.put n v }

/-- Flag n; f0 reads 1 (R249). -/
def flagOf (c : Ctx) (n : Nat) : Bool := n == 0 || c.flags.getLsbD n

/-- Write flag n; f0 stays 1. -/
def setFlag (c : Ctx) (n : Nat) (v : Bool) : Ctx :=
  if n = 0 then c
  else { c with flags := if v then c.flags ||| BitVec.ofNat 8 (2 ^ n) else c.flags &&& ~~~ (BitVec.ofNat 8 (2 ^ n)) }

/-- The wait of a context ends: the instruction that waited completes with a change of the context, and the
context becomes READY. -/
def finishWait (s : State) (cx : Nat) (h : Ctx → Ctx) : State :=
  wake (updCtx s cx fun c => h (advance c)) cx

/-- A running context gives up its slot: it was the last to run, and slot 0 of its engine counts as free from now on
(R19, R243, R244). -/
def leaveSlot (s : State) (cx : Nat) : State :=
  match s.ctxs.find cx with
  | none => s
  | some c =>
    match c.place with
    | some (e, t) =>
      let (n, s) := nextSeq s
      updCtx { s with engineFree := if t = 0 then s.engineFree.put e n else s.engineFree } cx
        fun c => { c with place := none, ran := n }
    | none => s

/-- A running context begins to wait (R19, R246). -/
def startWait (s : State) (cx : Nat) (w : WaitFor) : State :=
  updCtx (leaveSlot s cx) cx fun c => { c with state := .waiting, wait := w }

/-! The siding cache (R18, R19, R243; log entry 66) -/

/-- Contexts that lie in a part of the siding cache or in the siding region. -/
def residents (s : State) (r : Residence) : Nat := (s.ctxs.filter fun x => x.2.res == r).length

/-- A reserved entry is free. -/
def reserveRoom (s : State) : Bool := decide (residents s .reserve < Config.expressReserve)

/-- A shared entry is free. -/
def sharedRoom (s : State) : Bool := decide (residents s .shared < Config.sidingCache - Config.expressReserve)

/-- A context may be evicted: READY or WAITING in a shared entry, and not of class Express. -/
def mayEvict (c : Ctx) : Bool := c.res == .shared && (c.state == .ready || c.state == .waiting) && c.cls != .express

/-- Place of a class in the order of eviction; a lower number goes first. -/
def evictRank : Cls → Nat
  | .bulk => 0 | .maintenance => 1 | .standard => 2 | .express => 3

/-- The one of two contexts that is evicted first: by class, then the least recently run. -/
def firstOut (a b : Nat × Ctx) : Nat × Ctx :=
  if evictRank b.2.cls < evictRank a.2.cls || (evictRank b.2.cls == evictRank a.2.cls && decide (b.2.ran < a.2.ran)) then b else a

/-- Evict one context to the siding region, when there is one to evict. -/
def evictOne (s : State) : State :=
  match s.ctxs.filter fun x => mayEvict x.2 with
  | [] => s
  | x :: xs => updCtx s (xs.foldl firstOut x).1 fun c => { c with res := .siding }

/-- Free a shared entry when none is. -/
def makeRoom (s : State) : State := if sharedRoom s then s else evictOne s

/-- Where a new context of a class lies: an Express one in the reserve, else in a shared entry, for which another context is
evicted when none is free; any other in a shared entry when one is free, else in the siding region. -/
def newResidence (s : State) (cl : Cls) : Residence × State :=
  if cl == .express && reserveRoom s then (.reserve, s)
  else
    let s := if cl == .express then makeRoom s else s
    (if sharedRoom s then .shared else .siding, s)

/-- A context that takes a thread slot is loaded into the siding cache. -/
def loadCtx (s : State) (cx : Nat) : State :=
  match s.ctxs.find cx with
  | some c =>
    if c.res == .siding then updCtx (makeRoom s) cx fun c => { c with res := .shared } else s
  | none => s

/-! Stripe locks -/

/-- The lock entry of a stripe. -/
def lockOf (s : State) (g st : Nat) : Option LockEnt :=
  s.locks.find? fun l => l.group == g && l.stripe == st

/-- Change a lock entry. -/
def updLock (s : State) (g st : Nat) (h : LockEnt → LockEnt) : State :=
  { s with locks := s.locks.map fun l => if l.group == g && l.stripe == st then h l else l }

/-- The context holds the lock of a stripe. -/
def holds (s : State) (cx g st : Nat) : Bool :=
  match lockOf s g st with
  | some l => l.holder == some cx
  | none => false

/-- Locks a context holds. -/
def locksHeld (s : State) (cx : Nat) : List LockEnt := s.locks.filter fun l => l.holder == some cx

/-- The class that a context inherits from the waiters of its locks, as their classes stand (R298). -/
def inheritedOf (s : State) (cx : Nat) : Cls :=
  ((locksHeld s cx).map fun l => l.waiters).flatten.foldl (fun best w =>
    match s.ctxs.find w with
    | none => best
    | some x => if (eclass x).code < best.code then eclass x else best) .maintenance

/-- One round of inheritance over every context. -/
def inheritRound (s : State) : State :=
  { s with ctxs := s.ctxs.mapVal fun cx c => { c with inherited := inheritedOf s cx } }

/-- n rounds. -/
def inheritRounds : Nat → State → State
  | 0, s => s
  | n + 1, s => inheritRounds n (inheritRound s)

/-- Inherited classes after a change of locks: along every chain (R298). -/
def reclass (s : State) : State :=
  inheritRounds (s.locks.length + 1)
    { s with ctxs := s.ctxs.mapVal fun _ c => { c with inherited := .maintenance } }

/-- An entry of the lock table is free for a request of a class (R297). -/
def lockRoom (s : State) (express : Bool) : Bool :=
  if express then decide (s.locks.length < Config.lockEntries)
  else decide (s.locks.length + Config.lockReserve < Config.lockEntries)

/-- The grant ends a LOCK: the holder goes on past it. -/
def grantLock (s : State) (cx : Nat) : State := finishWait s cx id

/-- Contexts that wait for a lock of a stripe with no entry. -/
def entryWaiters (s : State) : List (Nat × Ctx) :=
  s.ctxs.filter fun x => match x.2.wait with
    | .lock g st => (lockOf s g st).isNone
    | _ => false

/-- The better of two waiting contexts: higher effective class, then earlier arrival. -/
def betterWaiter (a b : Nat × Ctx) : Nat × Ctx :=
  if (eclass b.2).code < (eclass a.2).code || ((eclass b.2).code == (eclass a.2).code && b.2.since < a.2.since)
  then b else a

/-- A waiting context takes its place by arrival. -/
def insertWaiter (x : Nat × Ctx) : List (Nat × Ctx) → List (Nat × Ctx)
  | [] => [x]
  | y :: ys => if x.2.since ≤ y.2.since then x :: y :: ys else y :: insertWaiter x ys

/-- A freed lock entry goes to the best context that waits for one; the others that wait for its stripe queue in arrival order (R297). -/
def giveEntry (s : State) : State :=
  match entryWaiters s with
  | [] => s
  | x :: xs =>
    let w := xs.foldl betterWaiter x
    match w.2.wait with
    | .lock g st =>
      if lockRoom s ((eclass w.2) == .express) then
        let others := (((entryWaiters s).filter fun y => y.2.wait == .lock g st && y.1 != w.1).foldr insertWaiter []).map Prod.fst
        grantLock { s with locks := s.locks ++
          [{ group := g, stripe := st, holder := some w.1, waiters := others, due := after s Config.lockWatchdog }] } w.1
      else s
    | _ => s

/-- The lock passes to its head waiter, or its entry is freed (R297). -/
def passLock (s : State) (g st : Nat) : State :=
  match lockOf s g st with
  | none => s
  | some l =>
    reclass (match l.waiters with
      | [] => giveEntry { s with locks := s.locks.filter fun l => !(l.group == g && l.stripe == st) }
      | w :: ws =>
        grantLock (updLock s g st fun l =>
          { l with holder := some w, waiters := ws, due := after s Config.lockWatchdog, deferred := false, expired := false }) w)

/-! Journal records of a context -/

/-- The record of a context for a stripe. -/
def recOf (s : State) (cx g st : Nat) : Option (Nat × JRec) :=
  s.journal.recs.find? fun x => x.2.ctx == some cx && x.2.group == g && x.2.stripe == st

/-- Records of a context. -/
def recsOf (s : State) (cx : Nat) : List (Nat × JRec) := s.journal.recs.filter fun x => x.2.ctx == some cx

/-- Change a record. -/
def updRec (s : State) (i : Nat) (h : JRec → JRec) : State :=
  { s with journal := { s.journal with recs := s.journal.recs.upd i h } }

/-- Pool records that a record takes: one for each six entries or part of six (R303). -/
def recUnits (r : JRec) : Nat := max 1 ((r.entries.length + 5) / 6)

/-- Pool records in use. -/
def recsUsed (s : State) : Nat := (s.journal.recs.map fun x => recUnits x.2).sum

/-- Contexts that wait for a free record try again. -/
def wakeRecordWaiters (s : State) : State :=
  (s.ctxs.filter fun x => x.2.wait == .record).foldl (fun s x => wake s x.1) s

/-- Free a record and its pins. -/
def dropRec (s : State) (i : Nat) : State :=
  match s.journal.recs.find i with
  | none => s
  | some r =>
    let s := unpinAll s (r.entries.map fun e => e.frames).flatten
    wakeRecordWaiters { s with journal := { s.journal with recs := s.journal.recs.del i } }

/-- The lock of a stripe leaves a context that has ended or lost it (R300): an open record is discarded and
the lock passes on; a sealed record keeps it, with no holder, until the orphan record is replayed. -/
def leaveLock (s : State) (cx g st : Nat) : State :=
  match recOf s cx g st with
  | some (i, r) =>
    if r.sealed then
      reclass (updLock (updRec s i fun r => { r with ctx := none }) g st fun l => { l with holder := none, expired := false })
    else passLock (dropRec s i) g st
  | none => passLock s g st

/-- A new slot: the locks that the watchdog found held leave their holders (R299). -/
def passExpired (s : State) : State :=
  (s.locks.filter fun l => l.expired).foldl (fun s l => match l.holder with
    | some cx => leaveLock s cx l.group l.stripe
    | none => s) s

/-- Every lock of a context leaves it; its open records are discarded. -/
def leaveLocks (s : State) (cx : Nat) : State :=
  let s := (locksHeld s cx).foldl (fun s l => leaveLock s cx l.group l.stripe) s
  let s := (recsOf s cx).foldl (fun s x =>
    if x.2.sealed then updRec s x.1 fun r => { r with ctx := none } else dropRec s x.1) s
  { s with locks := s.locks.map fun l => { l with waiters := l.waiters.filter (· != cx) } }

/-! Completion of commands -/

/-- Place of a LATE cause in the order of R86; a lower number is reported first. -/
def lateRank : Nat → Nat
  | 4 => 0 | 7 => 1 | 2 => 2 | 1 => 3 | 3 => 4 | 5 => 5 | 6 => 6 | _ => 7

/-- The LATE cause that R86 reports of two. -/
def lateOf (a b : Nat) : Nat := if lateRank a ≤ lateRank b then a else b

/-- Note a cause for which a command may be late (R86). -/
def noteLate (s : State) (cx cause : Nat) : State :=
  updCtx s cx fun c => { c with lateCause := lateOf c.lateCause cause }

/-- The completion of a context's command (R156, R158). -/
def readyOf (s : State) (cx : Nat) (c : Ctx) (status : BitVec 8) : Ready :=
  let opc := eOpc c.cmd
  let ok := status = 0
  { cid := eCid c.cmd, status := status, sqSlot := c.sqid.toNat % 64, vis := c.vis, dl := c.dl, held := c.held,
    readyTs := now s, lateCause := BitVec.ofNat 8 c.lateCause, refusalCause := 0, poison := c.poison,
    vol := c.vol, ctx := some cx, inlineBuf := c.inlineBuf, windowPages := c.windowPages, cls := c.cls,
    blocksRead := if ok && (opc == 1 || opc == 6) then eBlocks c.cmd else 0,
    blocksWritten := if ok && (opc == 2 || opc == 4 || opc == 5) then eBlocks c.cmd else 0 }

/-- A write that ends with the status has stored its blocks, poisoned ones with DATA_POISONED (R123, R176). -/
def stored (status : BitVec 8) : Bool := status == 0 || status == BitVec.ofNat 8 Status.dataPoisoned.code

/-- The frames of a write that its write-through completion waits for (R178, R326). -/
def wtFrames (s : State) (c : Ctx) (status : BitVec 8) : List (Nat × Nat × Nat) :=
  match c.vol with
  | none => []
  | some v =>
    if c.writeBack || !stored status || !([2, 4, 5].contains (eOpc c.cmd)) then []
    else (List.range (eBlocks c.cmd)).filterMap fun i =>
      (mapped s v (eLba c.cmd + i)).bind fun fr =>
        if (frameOf s fr).dirty then some (fr, v, eLba c.cmd + i) else none

/-- The completion of a context waits for blocks or for rewrites of its own (R178, R184, R186, R326). -/
def Ctx.owes (c : Ctx) : Bool := !c.wtWait.isEmpty || !c.flushWait.isEmpty || c.repairs != 0

/-- The command of a context becomes ready to post; a second POST has no effect (R158, R291). A write-through
write and a FLUSH with DESTAGE wait for their blocks first. -/
def postCtx (s : State) (cx : Nat) (status : BitVec 8) : State :=
  match s.ctxs.find cx with
  | none => s
  | some c =>
    if c.posted.isSome || c.kind == .maint then s
    else
      let wt := wtFrames s c status
      let c := { c with posted := some status, wtWait := wt }
      let s := updCtx s cx fun _ => c
      if c.owes then s else pushReady s c.func.toNat (readyOf s cx c status)

/-- A frame of a write-through write is settled: made clean, or replaced by a later write and in no record
(R326). -/
def wtSettled (s : State) (x : Nat × Nat × Nat) : Bool :=
  let f := frameOf s x.1
  if f.key == some x.2 then !f.dirty
  else !s.journal.recs.any fun r => r.2.sealed && r.2.entries.any fun e => e.frames.contains x.1

/-- A block that a FLUSH with DESTAGE waits for is clean, or its frame is gone (R184). -/
def flushSettled (s : State) (x : Nat × Nat) : Bool :=
  match mapped s x.1 x.2 with
  | none => true
  | some fr => !(frameOf s fr).dirty

/-- What a context's completion waits for has changed: the command is ready to post once nothing is left. -/
def settleCtx (s : State) (cx : Nat) (c : Ctx) : State :=
  let s := updCtx s cx fun _ => c
  match c.posted with
  | some st => if c.owes then s else pushReady s c.func.toNat (readyOf s cx c st)
  | none => s

/-- Completions that waited for blocks become ready to post once none is left (R178, R184, R326). -/
def settle (s : State) : State :=
  (s.ctxs.filter fun x => !x.2.wtWait.isEmpty || !x.2.flushWait.isEmpty).foldl (fun s x =>
    settleCtx s x.1 { x.2 with wtWait := x.2.wtWait.filter fun y => !wtSettled s y,
                               flushWait := x.2.flushWait.filter fun y => !flushSettled s y }) s

/-- A journalled rewrite of a VERIFY has been retired (R186). -/
def repairDone (s : State) (cx : Nat) : State :=
  match s.ctxs.find cx with
  | some c => if c.repairs = 0 then s else settleCtx s cx { c with repairs := c.repairs - 1 }
  | none => s

/-! Deferred errors -/

/-- COUNT of a whole-volume deferred error (R340, R390). -/
def wholeVolume : Nat := 0xFFFFFFFF

/-- Blocks that have become deferred errors no longer hold up a FLUSH with DESTAGE (R184). -/
def releaseFlush (s : State) (vol lba count : Nat) : State :=
  let gone := fun (x : Nat × Nat) => x.1 == vol && (count == wholeVolume || (decide (lba ≤ x.2) && decide (x.2 < lba + count)))
  (s.ctxs.filter fun x => x.2.flushWait.any gone).foldl (fun s x =>
    settleCtx s x.1 { x.2 with flushWait := x.2.flushWait.filter fun y => !gone y }) s

/-- Record a deferred error for a run of blocks (R184, R196, R197, R206, R208). -/
def deferErr (s : State) (vol group lba count cause : Nat) : State :=
  let e : DefEnt := { vol := vol, cause := cause, group := group, ts := now s, lba := lba, count := count }
  let s := updVol { s with defLog := (e :: s.defLog).take Config.logCapacity, defSeq := s.defSeq + 1 } vol
    fun v => { v with deferredCnt := v.deferredCnt + 1, marks := v.attached }
  releaseFlush s vol lba count

/-- A completion of the context is still to be issued. -/
def unissued (s : State) (c : Ctx) (cx : Nat) : Bool :=
  match s.funcs.find c.func.toNat with
  | none => false
  | some fn => fn.cqs.any fun q => q.2.ready.any fun r => r.ctx == some cx

/-- A completion of the context is still to be issued, and its ring is full: it will be parked (R159). -/
def willPark (s : State) (c : Ctx) (cx : Nat) : Bool :=
  match s.funcs.find c.func.toNat with
  | none => false
  | some fn => !fn.flrBusy && fn.cqs.any fun q => !q.2.hasRoom && q.2.ready.any fun r => r.ctx == some cx

/-- Stop the channels of a context: one with requests outstanding stays until they have arrived (R409). -/
def dropChans (cx : Nat) (m : Mover) : Mover :=
  { m with chans := m.chans.filterMap fun x =>
      if x.2.ctx != some cx then some x
      else if x.2.inFlight = 0 then none
      else some (x.1, { x.2 with ctx := none, state := .pausing }) }

/-- Replaced code that no thread runs any more is gone (R279). -/
def sweepKept (s : State) : State :=
  if s.progs.kept.isEmpty then s
  else
    let used : Nat → Bool := fun n => s.ctxs.any fun x => x.2.program == n && x.2.state != .doneUnposted
    { s with progs := { s.progs with kept := s.progs.kept.filter fun p => used p.1 } }

/-- Handles and pins leave a context whose thread is over, but one whose completion finds its ring full: it holds them until
the entry is issued (R160). -/
def releaseOver (s : State) (cx : Nat) : State :=
  match s.ctxs.find cx with
  | some c => if willPark s c cx then s else releaseAll s cx
  | none => s

/-- The thread of a context is over: handles, pins and locks leave it, its member commands run on without it,
its mover channels stop; the context goes to DONE_UNPOSTED, or to FREE when nothing is left to issue
(R118, R160, R242, R262, R309). -/
def endThread (s : State) (cx : Nat) : State :=
  let s := leaveLocks (releaseOver (leaveSlot s cx) cx) cx
  let s := { s with
    mports := s.mports.mapVal fun _ p =>
      { p with cmds := p.cmds.mapVal fun _ m => if m.ctx == some cx then { m with ctx := none } else m }
    groups := s.groups.mapVal fun _ g => { g with steps := g.steps.filter fun x => x.ctx != cx }
    movers := s.movers.mapVal fun _ m => dropChans cx m }
  let s := wakeFrameWaiters s
  match s.ctxs.find cx with
  | none => s
  | some c =>
    sweepKept <|
      if c.kind != .maint && !flrNow s c.func.toNat && (unissued s c cx || c.owes) then
        updCtx s cx fun c => { c with state := .doneUnposted, wait := .nothing }
      else flrSettle { s with ctxs := s.ctxs.del cx } c.func.toNat

/-! Faults -/

/-- Fault kinds (R263). -/
inductive FaultKind where
  | translation | interlock | poison | budget | order | lockHold
  deriving DecidableEq, Repr

/-- KIND code (R263). -/
def FaultKind.code : FaultKind → Nat
  | .translation => 1 | .interlock => 2 | .poison => 3 | .budget => 4 | .order => 5 | .lockHold => 6

/-- The FAULT register for a fault taken at a PC (R264). -/
def faultWord (k : FaultKind) (pc : BitVec 24) (detail : Nat) : Word :=
  BitVec.ofNat 64 (k.code + pc.toNat * 2 ^ 8 + detail % 2 ^ 32 * 2 ^ 32)

/-- First block and number of blocks that a destage descriptor names (R333): with FULL, every data block of the stripe. -/
def descRun (s : State) (c : Ctx) : Nat × Nat :=
  let full := match c.group.bind fun g => s.groups.find g with
    | some g => g.w * 2 ^ (g.stripLog2 - 12)
    | none => 0
  (fieldOf c.cmd 64 48, if c.cmd.getLsbD 145 then full else fieldOf c.cmd 128 16)

/-- A fatal fault ends the thread (R22, R268): FAULT is written and logged; a host command completes
with the status given, a destage records its deferred error, other Maintenance work is freed. -/
def fatalAs (s : State) (cx : Nat) (k : FaultKind) (detail : Nat) (st : Status) : State :=
  match s.ctxs.find cx with
  | none => s
  | some c =>
    let fw := faultWord k c.pc detail
    let s := updCtx s cx fun c => { c with fault := fw, lateCause := lateOf c.lateCause 4 }
    let s := logErr s (0x0800 + k.code) .clusters
      { func := c.func.toNat, vol := c.vol.getD 0xFFFF } fw.toNat
    let s := match c.work, c.vol with
      | some .destage, some v => deferErr s v (c.group.getD 0) (descRun s c).1 (descRun s c).2 3
      | _, _ => s
    endThread (postCtx s cx (BitVec.ofNat 8 st.code)) cx

/-- A fatal fault that completes the command PROGRAM_FAULT. -/
def fatal (s : State) (cx : Nat) (k : FaultKind) (detail : Nat) : State := fatalAs s cx k detail .programFault

/-- The route in force of a context. -/
def routeOf (s : State) (id : Nat) : Option (Nat × Route) :=
  s.progs.loaded.findSome? fun p => (p.2.routes.find? fun r => r.id == id).map fun r => (p.1, r)

/-- The code of a program number, or replaced code (R279). -/
def progOf (s : State) (n : Nat) : Option Program := (s.progs.loaded.find n).orElse fun _ => s.progs.kept.find n

/-- The route of a context, in the code that the context runs: a MAP's program keeps its number (R279). -/
def ctxRoute (s : State) (c : Ctx) : Option (Nat × Route) :=
  if c.program < 64 then routeOf s c.route.toNat
  else
    (progOf s c.program).bind fun p => (p.routes.find? fun r => r.id == c.route.toNat).map fun r => (c.program, r)

/-- A POISON fault: the route's fault handler is entered once, otherwise the fault is fatal (R267). -/
def poisonFault (s : State) (cx : Nat) (detail : Nat) : State :=
  match s.ctxs.find cx with
  | none => s
  | some c =>
    match (ctxRoute s c).bind fun r => r.2.fault.bind fun h => (progOf s r.1).bind fun p => p.handlers[h]? with
    | some h =>
      if c.inFault then fatal s cx .poison detail
      else updCtx s cx fun c =>
        { c with inFault := true, fault := faultWord .poison c.pc detail, pc := BitVec.ofNat 24 h.entry,
                 lateCause := lateOf c.lateCause 3 }
    | none => fatal s cx .poison detail

/-! Volume and group of a context -/

/-- The volume of a context (R257). -/
def ctxVol (s : State) (c : Ctx) : Option Volume := c.vol.bind fun v => s.vols.find v

/-- The group number of a context (R257). -/
def ctxGroupNo (s : State) (c : Ctx) : Option Nat :=
  match ctxVol s c with
  | some v => some v.group
  | none => c.group

/-- The group of a context. -/
def ctxGroup (s : State) (c : Ctx) : Option Group := (ctxGroupNo s c).bind fun g => s.groups.find g

end Sys2Proof.Machine
end

