-- ==== Sys2Proof/Machine/Operands.lean ====
section
/-! DEFINITION. Operand forms of Jexro instructions: the fields of R251, the second operand and its widths
(R252), what the verifier asks of a word (R277, R278), the packed operand words (R287), and the frame in
which every instruction runs (R265, R271). -/

namespace Sys2Proof
namespace Machine

end Machine
open Machine

/-- The I bit: the second operand is the immediate. -/
def Ins.useImm (i : Ins) : Bool := i.mod.getLsbD 0
/-- The W bit: 32-bit operation. -/
def Ins.narrow (i : Ins) : Bool := i.mod.getLsbD 1
/-- F: flag index. -/
def Ins.flag (i : Ins) : Nat := fieldOf i.mod 2 3
/-- C: condition or operation. -/
def Ins.cond (i : Ins) : Nat := fieldOf i.mod 5 4
/-- mod[5]: S of BR, A of WAIT. -/
def Ins.bit5 (i : Ins) : Bool := i.mod.getLsbD 5
/-- The immediate, sign-extended. -/
def Ins.simm (i : Ins) : Word := i.imm.signExtend 64
/-- n bits of the immediate from bit lo. -/
def Ins.immBits (i : Ins) (lo n : Nat) : Nat := fieldOf i.imm lo n

/-- Value of the register that a field names. -/
def Ins.ga (i : Ins) (c : Ctx) : Word := greg c i.a.toNat
/-- Value of the second source register. -/
def Ins.gb (i : Ins) (c : Ctx) : Word := greg c i.b.toNat
/-- Value of the register that the destination field names. -/
def Ins.gd (i : Ins) (c : Ctx) : Word := greg c i.d.toNat
/-- The second operand s2 (R252). -/
def Ins.s2 (i : Ins) (c : Ctx) : Word := if i.useImm then i.simm else i.gb c

namespace Machine


/-! What the verifier asks of a word (R277 check 3) -/

end Machine
open Machine

/-- Only the mod bits of a mask are set. -/
def Ins.modIn (i : Ins) (mask : BitVec 9) : Bool := i.mod &&& ~~~ mask == 0
/-- No d field. -/
def Ins.noD (i : Ins) : Bool := i.d == 0
/-- No a field. -/
def Ins.noA (i : Ins) : Bool := i.a == 0
/-- No b field. -/
def Ins.noB (i : Ins) : Bool := i.b == 0
/-- Only the low n bits of the immediate are set. -/
def Ins.immIn (i : Ins) (n : Nat) : Bool := decide (i.imm.toNat < 2 ^ n)
/-- The fields of s2 that I leaves unused are zero. -/
def Ins.s2ok (i : Ins) : Bool := if i.useImm then i.noB else i.imm == 0
/-- The flag written is not f0. -/
def Ins.flagOk (i : Ins) : Bool := i.flag != 0

namespace Machine


/-! Which handler kinds may reach an instruction (R278) -/

/-- Any kind. -/
def anyKind (_ : HandlerKind) : Bool := true
/-- Every kind but MAP. -/
def notMap (k : HandlerKind) : Bool := k != .map
/-- Group 0x4: opcode and fault handlers. -/
def hostKind (k : HandlerKind) : Bool := k == .opcode || k == .fault
/-- Maintenance handlers alone. -/
def maintOnly (k : HandlerKind) : Bool := k == .maint

/-- Kind of the handler a thread runs now: a thread with IN_FAULT runs its fault handler (R240, R267). -/
def kindNow (c : Ctx) : HandlerKind := if c.inFault then .fault else c.kind

/-- A context that issues in the present slot (R247). -/
def issue (s : State) (c : Ctx) : Ctx := { c with issued := now s }

/-- Run an instruction of the thread of a context. A word that the verifier refuses, or that the kind of
handler may not reach, never meets an engine (R253, R278). A thread that is not in a slot issues nothing. A
mark for LOCK_HOLD is taken first (R265), then the budget is judged (R271). What runs sees the context with the slot of its
issue (R247). -/
def runIns (i : Ins) (ok : Bool) (allow : HandlerKind → Bool) (s : State) (f : Ctx → State → State) :
    Host.Outcome State Fault Refusal :=
  if !ok then .fault .unverified
  else
    match s.ctxs.find i.cx with
    | none => .next s
    | some c =>
      if c.state != .running then .next s
      else if !allow (kindNow c) then .fault .unverified
      else
        match c.lockHold with
        | some st => .next (fatal s i.cx .lockHold st)
        | none =>
          if c.budget = 0 then .next (fatal s i.cx .budget 0)
          else .next (f (issue s c) (updCtx s i.cx (issue s)))

/-- The instruction completes with a change of its context. -/
def complete (s : State) (cx : Nat) (h : Ctx → Ctx) : State := updCtx s cx fun c => h (advance c)

/-- The instruction completes and writes its destination register. -/
def completeD (s : State) (i : Ins) (v : Word) : State := complete s i.cx fun c => setGreg c i.d.toNat v

/-- A register-only instruction: the change of the context depends on the context alone. -/
def pureIns (i : Ins) (ok : Bool) (h : Ctx → Ctx) (s : State) : Host.Outcome State Fault Refusal :=
  runIns i ok anyKind s fun _ s => complete s i.cx h

/-- A register-only instruction with one result. -/
def resultIns (i : Ins) (ok : Bool) (v : Ctx → Word) (s : State) : Host.Outcome State Fault Refusal :=
  runIns i ok anyKind s fun c s => completeD s i (v c)

/-- A two-operand operation with I and W: 64 bits wide, or 32 bits wide and zero-extended (R252, R254). -/
def aluOf (f64 : Word → Word → Word) (f32 : BitVec 32 → BitVec 32 → BitVec 32) (i : Ins) (c : Ctx) : Word :=
  if i.narrow then (f32 ((i.ga c).truncate 32) ((i.s2 c).truncate 32)).zeroExtend 64
  else f64 (i.ga c) (i.s2 c)

end Machine
open Machine

/-- The word form of a two-operand ALU instruction. -/
def Ins.aluOk (i : Ins) : Bool := i.modIn 0x003#9 && i.s2ok

/-- The word form of a one-source instruction without I. -/
def Ins.unaryOk (i : Ins) : Bool := i.modIn 0x002#9 && i.noB && i.imm == 0

namespace Machine


/-! Packed operand words (R287) -/

/-- Count of a lookup, frame, transfer, copy or member word. -/
def wCount (w : Word) : Nat := fieldOf w 48 8 + 1
/-- First position. -/
def wPos (w : Word) : Nat := fieldOf w 56 8
/-- LBA of a lookup, frame or member word. -/
def wLba (w : Word) : Nat := fieldOf w 0 48
/-- First block of a transfer word. -/
def wBlock (w : Word) : Nat := fieldOf w 0 8
/-- Member index of a route word. -/
def rwIndex (w : Word) : Nat := fieldOf w 0 8
/-- Ticket of a route word. -/
def rwTicket (w : Word) : Nat := fieldOf w 8 5

end Machine
end Sys2Proof
end

