-- ==== Sys2Proof/Machine/Flags.lean ====
section
/-! DEFINITION. Conditions of CMP and the flag logic of FLOP (R254, R255). -/

namespace Sys2Proof.Machine

/-- Condition C of CMP for two values of one width (R255). -/
def condHolds {w : Nat} (c : Nat) (x y : BitVec w) : Bool :=
  match c with
  | 0 => x == y
  | 1 => x != y
  | 2 => x.ult y
  | 3 => !x.ult y
  | 4 => x.slt y
  | 5 => !x.slt y
  | 6 => x &&& y != 0
  | 7 => x &&& y == 0
  | _ => false

/-- The condition for the operands of an instruction, at the width that W gives (R255). -/
def cmpHolds (i : Ins) (c : Ctx) : Bool :=
  if i.narrow then condHolds i.cond ((i.ga c).truncate 32) ((i.s2 c).truncate 32)
  else condHolds i.cond (i.ga c) (i.s2 c)

/-- Flag logic of FLOP (R254). -/
def flagLogic (c : Nat) (a b : Bool) : Bool :=
  match c with
  | 0 => a && b
  | 1 => a || b
  | 2 => a != b
  | 3 => a && !b
  | _ => !a

end Sys2Proof.Machine
end

