-- ==== Sys2Proof/Machine/CacheIns.lean ====
section
/-! DEFINITION. The cache instructions of group 0x5 (R285 to R287, R292, R293). -/

namespace Sys2Proof.Machine

/-- OPERAND, the refusal code of groups 0x4 and 0x5 (R289, R292). -/
def opErr : Word := 0xFE

/-- Positions from pos on fit a handle (R285). -/
def posOk (pos count : Nat) : Bool := decide (pos + count ≤ 256)

/-- The block is resident, and dirty when that is asked (R292). -/
def resident (s : State) (vol lba : Nat) (dirtyOnly : Bool) : Option Nat :=
  match mapped s vol lba with
  | some fr => if dirtyOnly && !(frameOf s fr).dirty then none else some fr
  | none => none

/-- Pin the resident blocks of a run into a handle; the mask of those reported (R292). -/
def lookRun (cx k vol lba pos : Nat) (pin dirtyOnly : Bool) : Nat → State → Nat × State
  | 0, s => (0, s)
  | n + 1, s =>
    let (m, s) := lookRun cx k vol lba pos pin dirtyOnly n s
    match resident s vol (lba + n) dirtyOnly with
    | none => (m, s)
    | some fr => (m + 2 ^ n, if pin then putFrame (pinFrame s fr) cx k (pos + n) fr else s)

/-- CLOOK (R292): an operand error returns 0 and pins nothing. -/
def execClook (i : Ins) (s : State) : Host.Outcome State Fault Refusal :=
  runIns i (i.modIn 0 && i.noB && i.immIn 6) notMap s fun c s =>
    let w := i.ga c
    let pin := i.imm.getLsbD 4
    match c.vol with
    | none => completeD s i 0
    | some v =>
      if 64 < wCount w || (pin && !posOk (wPos w) (wCount w)) then completeD s i 0
      else
        let (m, s) := lookRun i.cx (i.immBits 0 4) v (wLba w) (wPos w) pin (i.imm.getLsbD 5) (wCount w) s
        completeD s i (BitVec.ofNat 64 m)

/-- Frames that CALLOC may take for a thread: others than Express leave the reserve (R293). -/
def callocRoom (s : State) (c : Ctx) (n : Nat) : Bool :=
  if eclass c == .express then decide (n ≤ framesAvail s) else decide (n + Config.frameReserve ≤ framesAvail s)

/-- CALLOC STAGE and VOLUME: allocate and pin count frames into the handle (R292). -/
def callocRun (i : Ins) (s : State) (n pos : Nat) (mk : Nat → Memory → Frame) : State :=
  match allocFrames n 0 mk s with
  | none => startWait s i.cx .frames
  | some (frs, s) => completeD (putFrames s i.cx (i.immBits 0 4) pos frs) i 0

/-- CALLOC REPLACE: a new frame takes the position; the old frame is out of use when its last pin goes, and
the new one takes its block when a member read has filled it (R292, R320). -/
def callocReplace (i : Ins) (s : State) (pos old : Nat) : State :=
  let o := frameOf s old
  if o.rdonly then completeD s i opErr
  else
    match allocFrame s fun m =>
        { pins := 1, stage := o.stage, data := m, bound := o.key, reread := o.key.isSome, pi := o.pi } with
    | none => startWait s i.cx .frames
    | some (fr, s) =>
      let s := updFrame s old fun x => { x with key := none, dirty := false, retireLast := true }
      completeD (putFrame s i.cx (i.immBits 0 4) pos fr) i 0

/-- CALLOC (R292, R293): waits out of its slot while no frame is free. -/
def execCalloc (i : Ins) (s : State) : Host.Outcome State Fault Refusal :=
  runIns i (i.modIn 0 && i.noB && i.immIn 6 && decide (i.immBits 4 2 < 3)) notMap s fun c s =>
    let w := i.ga c
    let n := wCount w
    let mode := i.immBits 4 2
    if mode = 2 then
      match (handleOf c (i.immBits 0 4)).at_ (wPos w) with
      | none => completeD s i opErr
      | some old => if callocRoom s c 1 then callocReplace i s (wPos w) old else startWait s i.cx .frames
    else if !posOk (wPos w) n || (mode == 1 && (decide (32 < n) || c.vol.isNone)) then completeD s i opErr
    else if !callocRoom s c n then startWait s i.cx .frames
    else
      callocRun i s n (wPos w) fun k m =>
        if mode = 0 then { pins := 1, stage := true, data := m }
        else { pins := 1, data := m, bound := some (c.vol.getD 0, wLba w + k) }

/-- CPIN PIN: destination positions receive the source's frames, with added pins (R292). -/
def cpinRun (cx dst sp dp : Nat) (src : Handle) : Nat → State → State
  | 0, s => s
  | n + 1, s =>
    let s := cpinRun cx dst sp dp src n s
    match src.at_ (sp + n) with
    | none => s
    | some fr => putFrame (pinFrame s fr) cx dst (dp + n) fr

/-- The 8 bytes of a record of a PI extent frame (R227). -/
def piRecord (m : Memory) (idx : Nat) : Word := BitVec.ofNat 64 (leNat (m.bytes (8 * idx) 8))

/-- CPIN (R287, R292). -/
def execCpin (i : Ins) (s : State) : Host.Outcome State Fault Refusal :=
  runIns i (i.modIn 0 && i.noB && i.immIn 10 && decide (i.immBits 8 2 < 3)) notMap s fun c s =>
    let w := i.ga c
    let n := wCount w
    let sp := fieldOf w 0 8
    let dp := fieldOf w 8 8
    let idx := fieldOf w 32 9
    let dst := i.immBits 0 4
    let src := handleOf c (i.immBits 4 4)
    if src.frameTab.isEmpty || !posOk dp n then completeD s i opErr
    else if i.immBits 8 2 = 0 then
      if !posOk sp n then completeD s i opErr
      else completeD (cpinRun i.cx dst sp dp src n s) i 0
    else
      match src.at_ sp, framesAt (handleOf c dst) dp n with
      | some sf, some dfs =>
        if 512 < idx + n then completeD s i opErr
        else if i.immBits 8 2 = 1 then
          let m := (frameOf s sf).data
          completeD ((indexed dfs).foldl (fun s x =>
            updFrame s x.2 fun f => { f with pi := piRecord m (idx + x.1) }) s) i 0
        else
          completeD ((indexed dfs).foldl (fun s x =>
            let v := (frameOf s x.2).pi
            updFrame s sf fun f =>
              { f with data := f.data.writeList (8 * (idx + x.1)) (leBytes 8 v.toNat), zfill := false, prot := false }) s) i 0
      | _, _ => completeD s i opErr
where
  /-- Position and value of each element. -/
  indexed (l : List Nat) : List (Nat × Nat) := (List.range l.length).zip l

/-- CUNPIN (R292): releases each named handle. -/
def execCunpin (i : Ins) (s : State) : Host.Outcome State Fault Refusal :=
  runIns i (i.modIn 0 && i.noD && i.noA && i.noB && i.immIn 16) notMap s fun _ s =>
    let s := ((List.range 16).filter fun k => i.imm.getLsbD k).foldl (fun s k => releaseHandle s i.cx k) s
    complete (wakeFrameWaiters s) i.cx id

end Sys2Proof.Machine
end

