-- ==== Sys2Proof/Machine/Gf.lean ====
section
/-! DEFINITION. The field GF(2^8) with polynomial 0x11D, the syndromes P and Q, and the reconstruction
equations (R211 to R220), for bytes and for 4 KiB frames. -/

namespace Sys2Proof.Machine

/-- Product with g = 0x02 (R211). -/
def xtime (a : Byte) : Byte := if a.getLsbD 7 then (a <<< 1) ^^^ 0x1D#8 else a <<< 1

/-- One round of the product for each of n bits of b. -/
def gmulAux : Nat → Byte → Byte → Byte → Byte
  | 0, _, _, r => r
  | n + 1, a, b, r => gmulAux n (xtime a) (b >>> 1) (if b.getLsbD 0 then r ^^^ a else r)

/-- The product in GF(2^8) (R211). -/
def gmul (a b : Byte) : Byte := gmulAux 8 a b 0

/-- Product with the inverse of g (R211). -/
def ghalf (a : Byte) : Byte :=
  if a.getLsbD 0 then ((a ^^^ 0x1D#8) >>> 1) ||| 0x80#8 else a >>> 1

/-- The weight g^i (R212). -/
def gpow : Nat → Byte
  | 0 => 1
  | i + 1 => xtime (gpow i)

/-- g^-i (R212). -/
def gneg : Nat → Byte
  | 0 => 1
  | i + 1 => ghalf (gneg i)

/-- Product of the squares a^2, a^4, … over n squarings. -/
def ginvAux : Nat → Byte → Byte → Byte
  | 0, _, r => r
  | n + 1, a, r => let q := gmul a a; ginvAux n q (gmul r q)

/-- The inverse of a non-zero byte, a^254; 0 for 0. -/
def ginv (a : Byte) : Byte := ginvAux 7 a 1

/-- XOR of bytes. -/
def xorAll (l : List Byte) : Byte := l.foldl (· ^^^ ·) 0

/-- Weighted sum of (index, byte) pairs. -/
def weighted (l : List (Nat × Byte)) : Byte := l.foldl (fun r x => r ^^^ gmul (gpow x.1) x.2) 0

/-- Position and value of each byte of a list. -/
def indexed {α : Type} (l : List α) : List (Nat × α) := (List.range l.length).zip l

/-- P of data bytes in index order (R213). -/
def pOf (ds : List Byte) : Byte := xorAll ds

/-- Q of data bytes in index order (R213). -/
def qOf (ds : List Byte) : Byte := weighted (indexed ds)

/-- c_xy of R220. -/
def cxy (x y : Nat) : Byte := ginv (gpow x ^^^ gpow y)

/-- D_x and D_y from P_xy and Q_xy (R220). -/
def solve2 (x y : Nat) (pxy qxy : Byte) : Byte × Byte :=
  let dx := gmul (cxy x y) (qxy ^^^ gmul (gpow y) pxy)
  (dx, pxy ^^^ dx)

/-! The same over 4 KiB frames, byte by byte -/

/-- The frame whose byte at every offset is f of the source frames' bytes there, for an f that gives 0 of
zeros. -/
def mapFrames (f : List Byte → Byte) (srcs : List Memory) : Memory :=
  Memory.tabulate (fun o => f (srcs.map fun m => m.read o)) (Memory.support Config.blockBytes srcs)

/-- XOR of frames. -/
def xorFrames (srcs : List Memory) : Memory := mapFrames xorAll srcs

/-- A frame times a constant. -/
def scaleFrame (c : Byte) (m : Memory) : Memory := mapFrames (fun l => gmul c (xorAll l)) [m]

/-- Weighted sum of (index, frame) pairs. -/
def weightedFrames (srcs : List (Nat × Memory)) : Memory :=
  mapFrames (fun l => weighted ((srcs.map Prod.fst).zip l)) (srcs.map Prod.snd)

/-- Offset of the first byte in which two frames differ (R313). -/
def firstDiff (a b : Memory) : Option Nat :=
  let os := Memory.support Config.blockBytes [a, b]
  (os.filter fun o => a.read o != b.read o).foldl (fun r o => match r with
    | none => some o
    | some x => some (min x o)) none

end Sys2Proof.Machine
end

