-- ==== Sys2Proof/Machine/Layout.lean ====
section
/-! DEFINITION. The placement rules of dp-rotate and dp-decluster (R223 to R231) as arithmetic on a
geometry. -/

namespace Sys2Proof.Machine

/-- The geometry a layout works on (R223). -/
structure Geom where
  n : Nat
  w : Nat
  stripLog2 : Nat
  spare : Nat
  seed : BitVec 32
  deriving DecidableEq, Repr

/-- Blocks of a strip. -/
def Geom.b (g : Geom) : Nat := 2 ^ (g.stripLog2 - 12)
/-- Strips of a stripe. -/
def Geom.m (g : Geom) : Nat := g.w + 2
/-- Columns that are not spare. -/
def Geom.u (g : Geom) : Nat := g.n - g.spare
/-- Rows of a base pattern (R229). -/
def Geom.t (g : Geom) : Nat := g.m / Nat.gcd g.u g.m
/-- Stripes of a base pattern (R229). -/
def Geom.k (g : Geom) : Nat := g.u * g.t / g.m
/-- Stripes of an extent, E_s (R225). -/
def Geom.es (g : Geom) : Nat :=
  if g.w * g.b = 0 then 0 else (Config.extentBlocks + g.w * g.b - 1) / (g.w * g.b)

/-- One round of the xorshift of R230. -/
def xorshift (x : BitVec 32) : BitVec 32 :=
  let x := x ^^^ (x <<< 13)
  let x := x ^^^ (x >>> 17)
  x ^^^ (x <<< 5)

/-- Swap two places of a list. -/
def swapAt (l : List Nat) (i j : Nat) : List Nat :=
  (l.set i (l.getD j 0)).set j (l.getD i 0)

/-- The loop of R230 for c from the given value down to 1. -/
def sigmaLoop : Nat → BitVec 32 → List Nat → List Nat
  | 0, _, l => l
  | c + 1, x, l =>
    let x := xorshift x
    sigmaLoop c x (swapAt l (c + 1) (x.toNat % (c + 2)))

/-- The column permutation of R230. -/
def sigma (n : Nat) (seed : BitVec 32) : List Nat :=
  if seed = 0 then List.range n else sigmaLoop (n - 1) seed (List.range n)

/-- σ(c). -/
def Geom.sigma (g : Geom) (c : Nat) : Nat := (Machine.sigma g.n g.seed).getD c 0

/-- Row and member index of strip i of stripe s under dp-rotate (R228). -/
def rotatePlace (g : Geom) (s i : Nat) : Nat × Nat :=
  let p := g.n - 1 - s % g.n
  (s, if i = g.w then p else if i = g.w + 1 then (p + 1) % g.n else (p + 2 + i) % g.n)

/-- Slot of strip i of stripe s in the base pattern (R229). -/
def Geom.slot (g : Geom) (s i : Nat) : Nat := (s % g.k) * g.m + i

/-- Cycle and period of stripe s (R231). -/
def Geom.cycleOf (g : Geom) (s : Nat) : Nat := s / (g.n * g.k)
/-- Period within the cycle (R231). -/
def Geom.periodOf (g : Geom) (s : Nat) : Nat := (s % (g.n * g.k)) / g.k

/-- Row and member index of strip i of stripe s under dp-decluster (R231). -/
def declusterPlace (g : Geom) (s i : Nat) : Nat × Nat :=
  let t := g.slot s i
  (g.cycleOf s * (g.n * g.t) + g.periodOf s * g.t + t / g.u,
   (g.sigma (t % g.u) + g.periodOf s) % g.n)

/-- Rows of a table cycle (R224). -/
def Geom.cycleRows (g : Geom) (rotate : Bool) : Nat := if rotate then g.n else g.n * g.t

/-- Rows used of a member of a number of data-area blocks (R224). -/
def Geom.rowsOf (g : Geom) (rotate : Bool) (blocks : Nat) : Nat :=
  let rows := (blocks - Config.dataStart) / g.b
  let c := g.cycleRows rotate
  if c = 0 then 0 else rows / c * c

/-- Stripes placed in a number of used rows (R228, R231). -/
def Geom.stripesIn (g : Geom) (rotate : Bool) (rows : Nat) : Nat :=
  if rotate then rows else if g.t = 0 then 0 else rows / (g.n * g.t) * (g.n * g.k)

/-- The group's extent count (R225). -/
def Geom.extentsIn (g : Geom) (rotate : Bool) (rows : Nat) : Nat :=
  if g.es = 0 then 0 else g.stripesIn rotate rows / g.es

/-- The limits of R223 that a library layout checks; capacity aside. -/
def Geom.ok (g : Geom) (rotate : Bool) : Bool :=
  decide (2 ≤ g.w) && decide (g.w ≤ 30) && decide (14 ≤ g.stripLog2) && decide (g.stripLog2 ≤ 20) &&
    decide (g.w + 2 ≤ g.n) && decide (g.n ≤ 72) &&
    (if rotate then g.n == g.w + 2 && g.spare == 0
     else decide (g.w + 3 ≤ g.n) && decide (g.spare ≤ 4) && decide (g.spare + g.w + 2 ≤ g.n))

end Sys2Proof.Machine
end

