-- ==== Sys2Proof/Machine/Place.lean ====
section
/-! DEFINITION. Where the strips of a group's stripes lie: the layout route of the group, the spare home map
and the watermarks (R226 to R233, R281, R295, R512). -/

namespace Sys2Proof.Machine

/-- Whose placement rule a layout route gives: those of the library (R281), or an owner's program. -/
inductive LayoutKind where
  | rotate | decluster | owner (route : Nat)
  deriving DecidableEq, Repr

/-- The rule of a layout route number (R281). -/
def layoutKind (route : Nat) : LayoutKind :=
  if route = 1 then .rotate else if route = 2 then .decluster else .owner route

/-- The geometry of a group. -/
def Group.geom (g : Group) : Geom :=
  { n := g.n, w := g.w, stripLog2 := g.stripLog2, spare := g.spare, seed := g.seed }

/-- Row and member index of strip i of a stripe before any failure. -/
def basePlace (g : Group) (stripe i : Nat) : Nat × Nat :=
  match layoutKind g.layout with
  | .rotate => rotatePlace g.geom stripe i
  | .decluster => declusterPlace g.geom stripe i
  | .owner r => let x := Config.ownerPlace r g.seed.toNat stripe i; (x.2, x.1)

/-- Base column of strip i of a stripe: the name by which the spare home map knows the strip (R512). -/
def baseColumn (g : Group) (stripe i : Nat) : Nat :=
  match layoutKind g.layout with
  | .decluster => g.geom.slot stripe i % g.geom.u
  | _ => i

/-- Rows of a table cycle of a group (R224, R229). -/
def cycleRowsOf (g : Group) : Nat :=
  match layoutKind g.layout with
  | .rotate => g.n
  | .decluster => g.geom.n * g.geom.t
  | .owner r => (Config.ownerCycle r g.n g.w g.spare).1

/-- Period in rows and stripes of the base pattern, as GINFO shows them (R258). -/
def patternOf (g : Group) : Nat × Nat :=
  match layoutKind g.layout with
  | .rotate => (1, 1)
  | .decluster => (g.geom.t, g.geom.k)
  | .owner r => (Config.ownerCycle r g.n g.w g.spare).2

/-- The row of a table cycle on which a row of a member lies. -/
def cycleRow (g : Group) (row : Nat) : Nat := if cycleRowsOf g = 0 then 0 else row % cycleRowsOf g

/-- Member index of spare column slot s in a row (R230, R233). -/
def spareMember (g : Group) (row s : Nat) : Nat :=
  let t := g.geom.t
  let j := if t = 0 then 0 else cycleRow g row / t
  (g.geom.sigma (g.geom.u + s) + j) % g.n

/-- The history position and entry of a failed member index (R233). -/
def entryOf (g : Group) (index : Nat) : Option (Nat × FailEnt) := g.history.find? fun x => x.2.index == index

/-- The home slot that the map records in a row for the strip of a base column under a history position
(R512). -/
def homeSlot (g : Group) (row pos col : Nat) : Option Nat :=
  (List.range (min 4 g.spare)).find? fun s => g.homes.find (4 * cycleRow g row + s) == some { pos := pos, col := col }

/-- Follow a strip from a member through the recorded homes: at its home below the entry's watermark, at the
failed member otherwise (R233). Result: member index, and whether that is a spare home. -/
def follow (g : Group) (row col : Nat) : Nat → Nat → Bool → Nat × Bool
  | 0, m, sp => (m, sp)
  | k + 1, m, sp =>
    match entryOf g m with
    | none => (m, sp)
    | some (pos, e) =>
      match homeSlot g row pos col with
      | none => (m, sp)
      | some s => if row < e.watermark then follow g row col k (spareMember g row s) true else (m, sp)

/-- Every member that a strip has or will have as its home, in order, whatever the watermarks (R233). -/
def homeChain (g : Group) (row col : Nat) : Nat → Nat → List Nat
  | 0, m => [m]
  | k + 1, m =>
    match (entryOf g m).bind fun x => homeSlot g row x.1 col with
    | none => [m]
    | some s => m :: homeChain g row col k (spareMember g row s)

/-- Where MAP finds strip i of a stripe (R226, R233). -/
structure Place where
  member : Nat
  row : Nat
  spare : Bool
  deriving DecidableEq, Repr

/-- The placement that MAP returns. -/
def place (g : Group) (stripe i : Nat) : Place :=
  let (row, m) := basePlace g stripe i
  let (m, sp) := follow g row (baseColumn g stripe i) 8 m false
  { member := m, row := row, spare := sp }

/-- Member LBA of block o of a strip on a row (R226). -/
def memberLba (g : Group) (row o : Nat) : Nat := Config.dataStart + row * g.geom.b + o

/-- Row of a member LBA of the data area (R224). -/
def rowOf (g : Group) (lba : Nat) : Nat := if g.geom.b = 0 then 0 else (lba - Config.dataStart) / g.geom.b

/-- The extent of a stripe and its number within the extent (R225). -/
def extentOf (g : Group) (stripe : Nat) : Nat × Nat :=
  if g.geom.es = 0 then (0, 0) else (stripe / g.geom.es, stripe % g.geom.es)

/-- Data strip i of a stripe is padding (R214, R225). -/
def isPadding (g : Group) (stripe i : Nat) : Bool :=
  decide (i < g.w) && decide (Config.extentBlocks ≤ (extentOf g stripe).2 * (g.w * g.geom.b) + i * g.geom.b)

/-- The extent table of a volume: data extents, then PI extents (R190, R226, R227). -/
def Volume.extentTable (v : Volume) : List Nat := v.extents ++ v.piExtents

/-- Group extent at an index of the volume's extent table; all ones beyond it (R257). -/
def extentAt (v : Volume) (i : Nat) : Nat := v.extentTable.getD i (2 ^ 64 - 1)

/-- Stripe, data index and block within the strip of a volume block (R226). -/
def stripeOf (g : Group) (v : Volume) (lba : Nat) : Nat × Nat × Nat :=
  let off := lba % Config.extentBlocks
  let wb := g.w * g.geom.b
  let ge := extentAt v (lba / Config.extentBlocks)
  if wb = 0 then (0, 0, 0)
  else ((ge * g.geom.es + off / wb) % 2 ^ 64, off % wb / g.geom.b, off % wb % g.geom.b)

/-- The volume that holds a group extent, with the extent's position in its table. -/
def volOfExtent (s : State) (grp e : Nat) : Option (Nat × Nat) :=
  s.vols.findSome? fun x =>
    if x.2.group = grp then (x.2.extentTable.findIdx? (· == e)).map fun i => (x.1, i) else none

/-- Volume and volume block of block o of data strip i of a stripe; none for padding, PI and free extents. -/
def blockOf (s : State) (grp : Nat) (g : Group) (stripe i o : Nat) : Option (Nat × Nat) :=
  let (e, ls) := extentOf g stripe
  let off := ls * (g.w * g.geom.b) + i * g.geom.b + o
  match volOfExtent s grp e with
  | none => none
  | some (v, k) =>
    match s.vols.find v with
    | none => none
    | some vol =>
      if k < vol.extents.length && off < Config.extentBlocks && k * Config.extentBlocks + off < vol.blocks
      then some (v, k * Config.extentBlocks + off) else none

/-- Port of a member index. -/
def portOfMember (g : Group) (index : Nat) : Option Nat := g.members.find index

/-- State of the port of a member index. -/
def memberPort (s : State) (g : Group) (index : Nat) : Option MPort := (portOfMember g index).bind fun p => s.mports.find p

/-- Member state code of a member index (R110, R295); a member with no port is failed. -/
def memberState (s : State) (g : Group) (index : Nat) : Nat :=
  match memberPort s g index with
  | some p => p.state
  | none => 4

/-- The member of an index is in possession. -/
def memberInPoss (s : State) (g : Group) (index : Nat) : Bool :=
  match memberPort s g index with
  | some p => p.inPoss
  | none => false

end Sys2Proof.Machine
end

