-- ==== Sys2Proof/Machine/GfIns.lean ====
section
/-! DEFINITION. The GF vector instructions of group 0x9 (R312 to R315). -/

namespace Sys2Proof.Machine

/-- The fields of a vector word (R287). -/
structure Vec where
  o : Nat
  len : Nat
  dst : Nat
  stride : Nat
  deriving DecidableEq, Repr

/-- The vector word of a register value. -/
def vecOf (w : Word) : Vec :=
  { o := fieldOf w 0 8, len := fieldOf w 8 5 + 1, dst := fieldOf w 16 5, stride := fieldOf w 24 8 + 1 }

/-- Position of block column k of lane j. -/
def Vec.pos (v : Vec) (j k : Nat) : Nat := j * v.stride + v.o + k

/-- The last position of lane j is within a handle (R314). -/
def Vec.laneOk (v : Vec) (j : Nat) : Bool := decide ((j + 1) * v.stride ≤ 256)

/-- Lanes set in a mask. -/
def lanesOf (m : Word) : List Nat := (List.range 32).filter fun j => m.getLsbD j

/-- One vector operation: its source lanes, its destination lanes, and what column k's destinations become
from the sources' contents, in lane order. -/
structure VecOp where
  srcs : List Nat
  dsts : List Nat
  limitOk : Bool
  zfill : Bool
  result : List Memory → List Memory

/-- Frames of a lane's columns in a list. -/
def laneFrames (h : Handle) (v : Vec) (lanes : List Nat) : List (Option Nat) :=
  (lanes.map fun j => (List.range v.len).map fun k => h.at_ (v.pos j k)).flatten

/-- The instruction is not refused (R314). -/
def vecOk (s : State) (v : Vec) (src dst : Handle) (op : VecOp) : Bool :=
  (op.srcs ++ op.dsts).all v.laneOk && decide (v.o + v.len ≤ v.stride) &&
    decide (v.len * max op.srcs.length 1 ≤ 32) && op.limitOk &&
    (laneFrames dst v op.dsts).all (fun f => match f with
      | none => false
      | some fr => !(frameOf s fr).rdonly && !(laneFrames src v op.srcs).contains (some fr))

/-- Content of a source position; an empty one reads as zeros (R312). -/
def srcData (s : State) (h : Handle) (p : Nat) : Memory :=
  match h.at_ p with
  | none => Memory.zero
  | some fr => (frameOf s fr).data

/-- The first source position of a column that holds an uncorrectable line (R315). -/
def badSource (s : State) (h : Handle) (v : Vec) (srcs : List Nat) (k : Nat) : Option Nat :=
  (srcs.map fun j => v.pos j k).find? fun p => match h.at_ p with
    | none => false
    | some fr => !(frameOf s fr).badLines.isEmpty

/-- Write one column's results. -/
def writeColumn (s : State) (h : Handle) (v : Vec) (k : Nat) (zfill : Bool) : List (Nat × Memory) → State
  | [] => s
  | (j, m) :: l =>
    writeColumn (match h.at_ (v.pos j k) with
      | none => s
      | some fr => updFrame s fr fun f => { f with data := m, zfill := zfill, badLines := [], uncorr := false }) h v k zfill l

/-- Columns from k on, n of them: the state after those done, and the position that stopped the run
(R315). -/
def runColumns (src dst : Handle) (v : Vec) (op : VecOp) : Nat → Nat → State → State × Option Nat
  | 0, _, s => (s, none)
  | n + 1, k, s =>
    match badSource s src v op.srcs k with
    | some p => (s, some p)
    | none =>
      runColumns src dst v op n (k + 1)
        (writeColumn s dst v k op.zfill (op.dsts.zip (op.result (op.srcs.map fun j => srcData s src (v.pos j k)))))

/-- Set the protection mark of every destination frame. -/
def markDsts (s : State) (h : Handle) (v : Vec) (dsts : List Nat) (p : Bool) : State :=
  (laneFrames h v dsts).foldl (fun s f => match f with
    | none => s
    | some fr => updFrame s fr fun x => { x with prot := p }) s

/-- Count a POISON fault's place: handle index and offset in blocks (R264). -/
def poisonAt (h p : Nat) : Nat := h + p * 16

/-- A vector instruction (R312 to R315): refused with flag F at 0, stopped by POISON, or done with flag F at 1
and the destination frames protected (R286). -/
def vecRun (i : Ins) (s : State) (c : Ctx) (op : VecOp) : State :=
  let v := vecOf (i.ga c)
  let src := handleOf c (i.immBits 4 4)
  let dst := handleOf c (i.immBits 0 4)
  if !vecOk s v src dst op then complete s i.cx fun c => setFlag c i.flag false
  else
    match runColumns src dst v op v.len 0 (markDsts s dst v op.dsts false) with
    | (s, some p) => poisonFault s i.cx (poisonAt (i.immBits 4 4) p)
    | (s, none) => complete (markDsts s dst v op.dsts true) i.cx fun c => setFlag c i.flag true

/-- The word form of a vector instruction. -/
def vecForm (i : Ins) : Bool := i.modIn 0x01C#9 && i.noD && i.immIn 8 && i.flagOk

/-- W of the context's group; 0 when it names none. -/
def ctxW (s : State) (c : Ctx) : Nat := match ctxGroup s c with
  | some g => g.w
  | none => 0

/-- XORV (R313). -/
def execXorv (i : Ins) (s : State) : Host.Outcome State Fault Refusal :=
  runIns i (vecForm i) notMap s fun c s =>
    let ls := lanesOf ((i.gb c) &&& 0xFFFFFFFF#64)
    vecRun i s c { srcs := ls, dsts := [(vecOf (i.ga c)).dst], limitOk := true, zfill := ls.isEmpty,
                   result := fun ms => [xorFrames ms] }

/-- GMULV (R313). -/
def execGmulv (i : Ins) (s : State) : Host.Outcome State Fault Refusal :=
  runIns i (vecForm i) notMap s fun c s =>
    vecRun i s c { srcs := [fieldOf (i.gb c) 8 5], dsts := [(vecOf (i.ga c)).dst], limitOk := true, zfill := false,
                   result := fun ms => [scaleFrame ((i.gb c).truncate 8) (ms.headD Memory.zero)] }

/-- PQGEN (R213, R313): lane j is weighted g^j. -/
def execPqgen (i : Ins) (s : State) : Host.Outcome State Fault Refusal :=
  runIns i (vecForm i) notMap s fun c s =>
    let ls := lanesOf ((i.gb c) &&& 0xFFFFFFFF#64)
    let d := (vecOf (i.ga c)).dst
    vecRun i s c { srcs := ls, dsts := [d, d + 1], limitOk := true, zfill := false,
                   result := fun ms => [xorFrames ms, weightedFrames (ls.zip ms)] }

/-- PQDELTA (R215, R313): P′ and Q′ from old D, new D, old P and old Q. -/
def execPqdelta (i : Ins) (s : State) : Host.Outcome State Fault Refusal :=
  runIns i (vecForm i) notMap s fun c s =>
    let x := fieldOf (i.gb c) 0 5
    let d := (vecOf (i.ga c)).dst
    vecRun i s c { srcs := [0, 1, 2, 3], dsts := [d, d + 1], limitOk := decide (x < ctxW s c), zfill := false,
                   result := fun ms => match ms with
                     | [od, nd, p, q] =>
                       [xorFrames [p, od, nd], xorFrames [q, scaleFrame (gpow x) (xorFrames [od, nd])]]
                     | _ => [] }

/-- PQSOLVE1 (R220 second row, R313): D_x from the other data lanes and Q, into lane x. -/
def execPqsolve1 (i : Ins) (s : State) : Host.Outcome State Fault Refusal :=
  runIns i (vecForm i) notMap s fun c s =>
    let w := ctxW s c
    let x := fieldOf (i.gb c) 0 5
    let ds := (List.range w).filter (· != x)
    vecRun i s c { srcs := ds ++ [w + 1], dsts := [x], limitOk := decide (x < w), zfill := false,
                   result := fun ms =>
                     [scaleFrame (gneg x) (xorFrames [ms.getLastD Memory.zero, weightedFrames (ds.zip ms)])] }

/-- PQSOLVE2 (R220 fourth row, R313): D_x and D_y from the other data lanes, P and Q. -/
def execPqsolve2 (i : Ins) (s : State) : Host.Outcome State Fault Refusal :=
  runIns i (vecForm i) notMap s fun c s =>
    let w := ctxW s c
    let x := fieldOf (i.gb c) 0 5
    let y := fieldOf (i.gb c) 8 5
    let ds := (List.range w).filter fun j => j != x && j != y
    vecRun i s c { srcs := ds ++ [w, w + 1], dsts := [x, y], limitOk := decide (x < y) && decide (y < w),
                   zfill := false,
                   result := fun ms =>
                     let p := ms.getD ds.length Memory.zero
                     let q := ms.getD (ds.length + 1) Memory.zero
                     let pxy := xorFrames (p :: ms.take ds.length)
                     let qxy := xorFrames [q, weightedFrames (ds.zip ms)]
                     let dx := scaleFrame (cxy x y) (xorFrames [qxy, scaleFrame (gpow y) pxy])
                     [dx, xorFrames [pxy, dx]] }

/-- First difference of two lanes over columns from k on, as a byte offset from the start of the range. -/
def laneDiff (s : State) (h : Handle) (v : Vec) (a b : Nat) : Nat → Nat → Option Nat
  | 0, _ => none
  | n + 1, k =>
    match firstDiff (srcData s h (v.pos a k)) (srcData s h (v.pos b k)) with
    | some o => some (4096 * k + o)
    | none => laneDiff s h v a b n (k + 1)

/-- CMPV (R313): 0 when the lanes are equal, else 1 + the offset of the first difference. -/
def execCmpv (i : Ins) (s : State) : Host.Outcome State Fault Refusal :=
  runIns i (i.modIn 0x01C#9 && i.immIn 8 && decide (i.immBits 0 4 = 0) && i.flagOk) notMap s fun c s =>
    let v := vecOf (i.ga c)
    let a := fieldOf (i.gb c) 0 5
    let b := fieldOf (i.gb c) 8 5
    let src := handleOf c (i.immBits 4 4)
    let op : VecOp := { srcs := [a, b], dsts := [], limitOk := true, zfill := false, result := fun _ => [] }
    if !vecOk s v src .empty op then complete s i.cx fun c => setFlag c i.flag false
    else
      match (List.range v.len).findSome? fun k => badSource s src v [a, b] k with
      | some p => poisonFault s i.cx (poisonAt (i.immBits 4 4) p)
      | none =>
        complete s i.cx fun c =>
          setFlag (setGreg c i.d.toNat (match laneDiff s src v a b v.len 0 with
            | none => 0
            | some o => BitVec.ofNat 64 (o + 1))) i.flag true

end Sys2Proof.Machine
end

