-- ==== Sys2Proof/Machine/Pi.lean ====
section
/-! DEFINITION. Protection information of blocks: its layout, its checks and its generation (R177, R180 to
R183). A PI slot is held as the little-endian number of its 8 bytes. -/

namespace Sys2Proof.Machine

/-- Byte k of a PI slot. -/
def piByte (p : Word) (k : Nat) : Byte := p.extractLsb' (8 * k) 8

/-- GUARD: bytes 0 and 1, big-endian (R180). -/
def piGuard (p : Word) : BitVec 16 := piByte p 0 ++ piByte p 1

/-- APP: bytes 2 and 3. -/
def piApp (p : Word) : BitVec 16 := piByte p 2 ++ piByte p 3

/-- REF: bytes 4 to 7. -/
def piRef (p : Word) : BitVec 32 := piByte p 4 ++ piByte p 5 ++ piByte p 6 ++ piByte p 7

/-- A PI slot of a guard and two tags. -/
def piWord (guard app : BitVec 16) (ref : BitVec 32) : Word :=
  ref.extractLsb' 0 8 ++ ref.extractLsb' 8 8 ++ ref.extractLsb' 16 8 ++ ref.extractLsb' 24 8 ++
    app.extractLsb' 0 8 ++ app.extractLsb' 8 8 ++ guard.extractLsb' 0 8 ++ guard.extractLsb' 8 8

/-- The 8 bytes of a PI slot in order. -/
def piBytes (p : Word) : List Byte := (List.range 8).map (piByte p)

/-- Replace bytes of a PI slot from byte k on. -/
def piSet (p : Word) (k : Nat) (bs : List Byte) : Word :=
  BitVec.ofNat 64 (leNat ((piBytes p).take k ++ bs.take (8 - k) ++ (piBytes p).drop (k + bs.length)))

/-- PI of a block never written, or last written by DEALLOCATE (R183). -/
def piNone : Word := piWord 0 0xFFFF#16 0xFFFFFFFF#32

/-- The guard of a block (R180); an all-zero block has guard 0. -/
def guardOf (m : Memory) : BitVec 16 :=
  if m.fill.isNone && m.cells.isEmpty then 0 else crc16 (m.bytes 0 Config.blockBytes)

/-- PIS, CHK_APP, CHK_REF, EXP_REF, APP_TAG and APP_MASK of an entry (R177). -/
structure PiCtl where
  pis : Bool
  chkApp : Bool
  chkRef : Bool
  expRef : BitVec 32
  appTag : BitVec 16
  appMask : BitVec 16
  deriving DecidableEq, Repr

/-- The fields of an entry. -/
def piCtl (e : BitVec 512) : PiCtl :=
  { pis := eFlag e 10, chkApp := eFlag e 11, chkRef := eFlag e 12, expRef := BitVec.ofNat 32 (eBits e 40 0 32),
    appTag := BitVec.ofNat 16 (eBits e 44 0 16), appMask := BitVec.ofNat 16 (eBits e 46 0 16) }

/-- Application and reference tags of block i pass (R180). -/
def tagsOk (k : PiCtl) (i : Nat) (p : Word) : Bool :=
  piApp p == 0xFFFF#16 ||
    ((!k.chkApp || (piApp p &&& k.appMask) == (k.appTag &&& k.appMask)) &&
      (!k.chkRef || piRef p == k.expRef + BitVec.ofNat 32 i))

/-- The guard of a block passes (R180). -/
def guardOk (m : Memory) (p : Word) : Bool := piApp p == 0xFFFF#16 || piGuard p == guardOf m

/-- Generated PI of block i of a WRITE with PIS (R181). -/
def piGen (k : PiCtl) (i : Nat) (m : Memory) : Word := piWord (guardOf m) k.appTag (k.expRef + BitVec.ofNat 32 i)

/-- PI that WRITE_ZEROES stores for block i (R183). -/
def piZeroes (k : PiCtl) (i : Nat) : Word := piWord 0 k.appTag (k.expRef + BitVec.ofNat 32 i)

/-- Bytes that a block of a READ or WRITE takes in the host buffer (R177, R405). -/
def sectorOf (pi : Bool) (e : BitVec 512) : Nat := if pi && !eFlag e 10 then 4104 else 4096

/-- Data length of an I/O command in bytes; 0 for an opcode that moves no data. -/
def dataLen (pi : Bool) (e : BitVec 512) : Nat :=
  if eOpc e = 1 || eOpc e = 2 then eBlocks e * sectorOf pi e else 0

end Sys2Proof.Machine
end

