-- ==== Sys2Proof/Machine/Timetable.lean ====
section
/-! DEFINITION. The timetable unit: lock states, reference edges, arm bits, the possession plan and TT_NOW
(R31 to R57). The cycle edge itself is in Cycle.lean. -/

namespace Sys2Proof.Machine

/-- Change the timetable unit. -/
def updTt (s : State) (g : Timetable → Timetable) : State := { s with tt := g s.tt }

/-- Enter a lock state; a change raises the Route Book generation (R104). -/
def setLock (s : State) (l : LockState) : State :=
  if s.tt.lock = l then s else rbChange (updTt s fun t => { t with lock := l })

/-- A period in core clocks lies within 0.1 % of the nominal cycle in ns, at 1.5 clocks to the ns (R32). -/
def inTolerance (nomNs clocks : Nat) : Bool :=
  decide ((2 * clocks - 3 * nomNs) * 1000 ≤ 3 * nomNs) && decide ((3 * nomNs - 2 * clocks) * 1000 ≤ 3 * nomNs)

/-- A difference of core clocks is at most w slots of a nominal cycle (R39). -/
def withinSlots (nomNs k w diff : Nat) : Bool := decide (2 * diff * 2 ^ k ≤ w * 3 * nomNs)

/-- Largest less smallest of a list. -/
def spread (l : List Nat) : Nat := l.foldl max 0 - l.foldl min (l.foldl max 0)

/-- The local cycle period in core clocks: the measured one while a reference is followed, else the nominal. -/
def localClocks (t : Timetable) : Nat :=
  if t.lock = .locked || (t.ttHoldover && !t.holdNominal) then t.measPeriod.toNat / 256 else t.nomActive.toNat * 3 / 2

/-- Local edge less compensated reference edge, in core clocks, for an edge that arrives in the present
slot, by the shorter gap (R39, R57). -/
def phaseOf (t : Timetable) : Int :=
  let n := slotsOf t.kActive
  let clk := localClocks t
  if t.slot * 2 < n then (t.inComp.toNat : Int) - (t.slot * clk / n : Nat)
  else (t.inComp.toNat : Int) + ((n - t.slot) * clk / n : Nat)

/-- The phase is one slot or more. -/
def phaseOpen (t : Timetable) : Bool := decide (localClocks t ≤ (phaseOf t).natAbs * slotsOf t.kActive)

/-- Reach LOCKED at an edge (R39). -/
def ttLock (s : State) (ref period : Nat) : State :=
  let s := updTt s fun t =>
    { t with measPeriod := BitVec.ofNat 40 (period * 256), lastEdge := some ref, edgeTs := now s, runPeriods := [], missed := 0,
             ttFree := false, ttHoldover := false, freqErr := false,
             holdNominal := false,
             cntEst := t.cntEst && !t.cntEstLock }
  let s := updTt s fun t =>
    { t with phaseErr := BitVec.ofInt 32 (phaseOf t), slewing := phaseOpen t }
  setLock s .locked

/-- The run of qualifying periods starts again at an edge (R39, R42). -/
def ttRestart (s : State) (ref : Nat) (fe : Bool) : State :=
  updTt s fun t => { t with lastEdge := some ref, edgeTs := now s, runPeriods := [], freqErr := t.freqErr || fe }

/-- An edge while ACQUIRING (R32, R39). -/
def ttQualify (s : State) (ref : Nat) : State :=
  match s.tt.lastEdge with
  | none => updTt s fun t => { t with lastEdge := some ref, edgeTs := now s, runPeriods := [] }
  | some l =>
    let p := ref - l
    if !inTolerance s.tt.nomActive.toNat p then ttRestart s ref true
    else
      let ps := s.tt.runPeriods ++ [p]
      if !withinSlots s.tt.nomActive.toNat s.tt.kActive s.tt.window.toNat (spread ps) then ttRestart s ref false
      else if ps.length < 3 then
        updTt s fun t => { t with lastEdge := some ref, edgeTs := now s, runPeriods := ps }
      else ttLock s ref p

/-- The expected reference edge while LOCKED, in 1/256 core clocks: the last accepted edge and one period more for each edge
found missing since (R38). -/
def expectedEdge (t : Timetable) (last : Nat) : Nat := last * 256 + t.measPeriod.toNat * (t.missed + 1)

/-- A time in 1/256 core clocks lies more than TT_WINDOW slots from another, or with `atEdge` just at that distance (R38). -/
def outOfWindow (t : Timetable) (atEdge : Bool) (d : Nat) : Bool :=
  let w := t.window.toNat * t.measPeriod.toNat
  decide (w < d * slotsOf t.kActive) || (atEdge && d * slotsOf t.kActive == w)

/-- An edge while LOCKED: in window it updates period and phase, out of window it is counted (R38, R39);
a period outside the tolerance is not adopted (R32). -/
def ttTrack (s : State) (ref : Nat) : State :=
  let t := s.tt
  match t.lastEdge with
  | none => s
  | some l =>
    let expected := expectedEdge t l
    if !outOfWindow t false ((ref * 256 - expected) + (expected - ref * 256)) then
      let p := (ref - l) * 256 / (t.missed + 1)
      let ok := inTolerance t.nomActive.toNat (p / 256)
      let s := updTt s fun t =>
        { t with measPeriod := if ok then BitVec.ofNat 40 p else t.measPeriod, freqErr := t.freqErr || !ok,
                 lastEdge := some ref, edgeTs := now s, missed := 0 }
      updTt s fun t =>
        { t with phaseErr := BitVec.ofInt 32 (phaseOf t), slewing := t.slewing && phaseOpen t }
    else markFresh (updTt s fun t => { t with offwin := satInc t.offwin }) .tt 0x38 16 1

/-- A rising edge on TTC_IN at a core clock count, high for a number of core clocks (R31, R39). -/
def ttcEdge (s : State) (clock high : Nat) : State :=
  if high < 16 || !s.tt.refEn || !s.tt.running then s
  else
    let ref := clock - s.tt.inComp.toNat
    match s.tt.lock with
    | .free =>
      setLock (updTt s fun t => { t with lastEdge := some ref, edgeTs := now s, runPeriods := [], fromHoldover := false }) .acquiring
    | .holdover =>
      setLock (updTt s fun t => { t with lastEdge := some ref, edgeTs := now s, runPeriods := [], fromHoldover := true }) .acquiring
    | .acquiring => ttQualify s ref
    | .locked => ttTrack s ref

/-- TTC_IN_EDGE (R31, R32, R33, R39). -/
def execTtcInEdge (clock high : Nat) (s : State) : Host.Outcome State Fault Refusal :=
  .next (ttcEdge s clock high)

/-- The check slot of the expected edge: one cycle of slots after the last accepted edge, one more for each edge found missing
since, and TT_WINDOW slots (R38; log entry 24). -/
def missDue (t : Timetable) : Word := tsAdd t.kActive t.edgeTs (slotsOf t.kActive * (t.missed + 1) + t.window.toNat)

/-- TT_MISSING_EDGE (R38, R39): the check of the expected edge finds it missing; the third consecutive one enters HOLDOVER. -/
def execTtMissingEdge (s : State) : Host.Outcome State Fault Refusal :=
  .next (
    if s.tt.lock = .locked && due s (missDue s.tt) then
      let s := markFresh (updTt s fun t => { t with missed := t.missed + 1, miss := satInc t.miss }) .tt 0x38 0 1
      if s.tt.missed < 3 then s
      else setLock (updTt s fun t => { t with ttHoldover := true, slewing := false }) .holdover
    else s)

/-- The slot that ends three nominal cycles of 1.5 core clocks to the ns after the last edge, in slots of the local cycle
(R39; log entry 24). -/
def lapseDue (t : Timetable) : Word :=
  let clk := localClocks t
  tsAdd t.kActive t.edgeTs ((t.nomActive.toNat * 9 / 2 * slotsOf t.kActive + clk - 1) / clk)

/-- TT_ACQUIRE_LAPSE (R39). -/
def execTtAcquireLapse (s : State) : Host.Outcome State Fault Refusal :=
  .next (
    if s.tt.lock = .acquiring && due s (lapseDue s.tt) then
      setLock (updTt s fun t => { t with lastEdge := none, runPeriods := [] })
        (if s.tt.fromHoldover then .holdover else .free)
    else s)

/-- REF_EN changes; 0 enters FREE (R39). -/
def setRefEn (s : State) (en : Bool) : State :=
  let s := updTt s fun t => { t with refEn := en }
  if en then s
  else setLock (updTt s fun t =>
    { t with ttFree := true, ttHoldover := false, slewing := false, lastEdge := none, runPeriods := [],
             missed := 0 }) .free

/-- TT_REF_EN_WRITE (R39, R57). -/
def execTtRefEnWrite (en : Bool) (s : State) : Host.Outcome State Fault Refusal := .next (setRefEn s en)

/-- TT_LOAD_ARM (R40). -/
def execTtLoadArm (s : State) : Host.Outcome State Fault Refusal :=
  .next (updTt s fun t => { t with loadArm := true })

/-- TT_SWITCH_ARM (R44): the switch edge is the second cycle edge from here; a pending one stays. -/
def execTtSwitchArm (s : State) : Host.Outcome State Fault Refusal :=
  .next (updTt s fun t =>
    match t.switch with
    | some _ => t
    | none => { t with switch := some { edges := 2 } })

/-! The possession plan -/

/-- MEMBER of a plan entry. -/
def peMember (e : Word) : Nat := fieldOf e 0 7
/-- VALID. -/
def peValid (e : Word) : Bool := e.getLsbD 7
/-- START. -/
def peStart (e : Word) : Nat := fieldOf e 16 16
/-- Length in cycles. -/
def peLen (e : Word) : Nat := fieldOf e 32 16 + 1

/-- Period of a bank. -/
def bankPeriod (t : Timetable) (bankB : Bool) : Nat :=
  (if bankB then t.periodB.toNat else t.periodA.toNat) + 1

/-- Entries of a bank. -/
def bankOf (t : Timetable) (bankB : Bool) : Tab Word := if bankB then t.planB else t.planA

/-- Plan position of a cycle under an epoch and a period (R53): an epoch still to come counts too. -/
def planPos (epoch cycle : BitVec 44) (period : Nat) : Nat :=
  (Int.emod ((cycle.toNat : Int) - (epoch.toNat : Int)) (period : Int)).toNat

/-- A position lies in an entry's covered positions (R53). -/
def peCovers (e : Word) (period pos : Nat) : Bool :=
  peValid e && decide ((pos + period - peStart e % period) % period < peLen e)

/-- Two entries cover a common position (R55). -/
def peOverlap (a b : Word) (period : Nat) : Bool :=
  decide ((peStart b + period - peStart a % period) % period < peLen a) ||
    decide ((peStart a + period - peStart b % period) % period < peLen b)

/-- Why an entry fails the commit check: ERR_KIND, 0 for none (R55, R57). -/
def peCheck (bank : Tab Word) (period i : Nat) (e : Word) : Nat :=
  if !peValid e then 0
  else if 71 < peMember e then 1
  else if period < peLen e || period ≤ peStart e then 2
  else if bank.any fun x => x.1 != i && peValid x.2 && peMember x.2 == peMember e && peOverlap e x.2 period then 3
  else 0

/-- The first failing entry of a bank and its kind (R55). -/
def planCheck (bank : Tab Word) (period : Nat) : Option (Nat × Nat) :=
  bank.findSome? fun x =>
    let k := peCheck bank period x.1 x.2
    if k = 0 then none else some (x.1, k)

/-- Check the inactive bank and schedule it, or refuse the commit (R55). DESIGN CHOICE (log entry 64): an accepted commit
leaves what an earlier refusal put into PLAN_ERR, ERR_INDEX and ERR_KIND, and a refused one leaves an earlier COMMIT_PEND. -/
def planCommit (s : State) : State :=
  match planCheck (bankOf s.tt (!s.tt.bankB)) (bankPeriod s.tt (!s.tt.bankB)) with
  | some (i, k) =>
    markFresh (updTt s fun t => { t with planErr := true, errIndex := BitVec.ofNat 10 i, errKind := BitVec.ofNat 2 k }) .tt 0x44 2 1
  | none => updTt s fun t => { t with commitPend := true }

/-- TT_PLAN_COMMIT (R55). -/
def execTtPlanCommit (s : State) : Host.Outcome State Fault Refusal := .next (planCommit s)

/-- TT_PLAN_EN_WRITE (R56): possessions follow at the next cycle edge. -/
def execTtPlanEnWrite (en : Bool) (s : State) : Host.Outcome State Fault Refusal :=
  .next (updTt s fun t => { t with planEn := en })

/-- TT_PLAN_EPOCH_WRITE (R57): takes effect at the next cycle edge. -/
def execTtPlanEpochWrite (epoch : BitVec 44) (s : State) : Host.Outcome State Fault Refusal :=
  .next (updTt s fun t => { t with epochWrite := some epoch })

/-- An offset of the TT_ block belongs to a bank: its period register or its entries (R57). -/
def inBank (bankB : Bool) (off : Nat) : Bool :=
  if bankB then off == 0x4C || (decide (0x3000 ≤ off) && decide (off < 0x5000))
  else off == 0x48 || (decide (0x1000 ≤ off) && decide (off < 0x3000))

/-- TT_ACTIVE_BANK_WRITE (R57, R511): ignored and logged. -/
def execTtActiveBankWrite (off : Nat) (_value : Word) (s : State) : Host.Outcome State Fault Refusal :=
  .next (if inBank s.tt.bankB off then logErr s 0x0202 .timetable {} off else s)

/-! TTC_OUT (R34) -/

/-- Drive TTC_OUT to a level. -/
def ttcDrive (s : State) (high : Bool) : State :=
  if s.tt.ttcHigh = high then s else emit (updTt s fun t => { t with ttcHigh := high }) (.ttcOut high)

/-- A local cycle edge: a pulse on TTC_OUT begins when the output is enabled and the timetable runs (R34). -/
def ttcPulse (s : State) : State :=
  let s := ttcDrive s false
  if s.tt.outEn && s.tt.running then ttcDrive s true else s

/-- The pulse ends TT_OUT_CTRL.WIDTH slots after its edge, and the output is low when it may not be driven (R34). -/
def ttcSettle (s : State) : State :=
  if s.tt.outEn && s.tt.running && decide (s.tt.slot < s.tt.outWidth.toNat) then s else ttcDrive s false

/-! Reading TT_NOW -/

/-- The latch of a requester (R37). -/
def ttLatch (t : Timetable) : TtRequester → Option (BitVec 32)
  | .fnNow f => t.latchNow.find f
  | .mirror f => t.latchMirror.find f
  | .core c => t.latchCore.find c

/-- Set the latch of a requester. -/
def setTtLatch (t : Timetable) (who : TtRequester) (v : BitVec 32) : Timetable :=
  match who with
  | .fnNow f => { t with latchNow := t.latchNow.put f v }
  | .mirror f => { t with latchMirror := t.latchMirror.put f v }
  | .core c => { t with latchCore := t.latchCore.put c v }

/-- The value a read of TT_NOW returns (R37). -/
def ttNowValue (s : State) (who : TtRequester) : TtRead → Word
  | .full => now s
  | .low => ((now s).extractLsb' 0 32).zeroExtend 64
  | .high => ((ttLatch s.tt who).getD ((now s).extractLsb' 32 32)).zeroExtend 64

/-- TT_NOW_READ (R37): the low half latches the high half for its requester. -/
def execTtNowRead (who : TtRequester) (how : TtRead) (s : State) : Host.Outcome State Fault Refusal :=
  let v := ttNowValue s who how
  let s := match how with
    | .low => updTt s fun t => setTtLatch t who ((now s).extractLsb' 32 32)
    | _ => s
  .next (emit s (.regRead v))

end Sys2Proof.Machine
end

