-- ==== Sys2Proof/Machine/Bounds.lean ====
section
/-! DEFINITION. Bounds, member D, outstanding failures and scheduling of a group (R74, R77 to R82, R364,
R369, R371, R373). -/

namespace Sys2Proof.Machine

/-- Nanoseconds as slots of the timetable in force, rounded up (R80). -/
def slotsOfNs (s : State) (ns : Nat) : Nat :=
  let nom := s.tt.nomActive.toNat
  if nom = 0 then 0 else (ns * slotsOf s.tt.kActive + nom - 1) / nom

/-- Core clocks (1.5 GHz) as slots of the timetable in force, rounded up (R81). -/
def slotsOfClocks (s : State) (n : Nat) : Nat :=
  let nom := 3 * s.tt.nomActive.toNat
  if nom = 0 then 0 else (2 * n * slotsOf s.tt.kActive + nom - 1) / nom

/-- The fixed parts of the bounds (R77, R81). -/
structure Fixed where
  hitPush : Nat
  hitRing : Nat
  inline_ : Nat
  writeHost : Nat
  miss : Nat
  degraded : Nat
  step : Nat
  deriving DecidableEq, Repr

/-- The bound table's fixed parts in slots (R81). -/
def fixedParts (s : State) : Fixed :=
  { hitPush := slotsOfClocks s 1190, hitRing := slotsOfClocks s 2998, inline_ := slotsOfClocks s 1464,
    writeHost := slotsOfClocks s 4508, miss := slotsOfClocks s 30006, degraded := slotsOfClocks s 60012,
    step := slotsOfClocks s 91 }

/-- An observed read lies in the last 1,000 cycles before an edge (R80), the cycle number going round (R36). -/
def recent (s : State) (cycle : Nat) : Bool := decide ((s.tt.cycle - BitVec.ofNat 44 cycle).toNat ≤ 1000)

/-- A member's D as a cycle edge recomputes it: the declared latency, or the longest deterministic read of
the last 1,000 cycles (R80, R364). -/
def computeD (s : State) (p : MPort) : Nat :=
  let declared := if p.profiled then slotsOfNs s p.latNs.toNat else 0
  ((p.observed.filter fun x => recent s x.2).map Prod.fst).foldl max declared

/-- Largest D among the members of a group (R80). -/
def groupD (s : State) (g : Group) : Nat :=
  (g.members.map fun x => match s.mports.find x.2 with
    | some p => p.d.toNat
    | none => 0).foldl max 0

/-- Outstanding failures F of a group (R371). -/
def outF (g : Group) : Nat :=
  (g.history.filter fun x => decide (x.2.watermark < g.rows)).length + g.extraFailed.length

/-- Effective possession depth (R371). -/
def effDepth (g : Group) : Nat := min g.depthCfg (2 - outF g)

/-- A member state that possessions and scheduling judge (R369, R372). -/
def judged (state : Nat) : Bool := state == 2 || state == 3 || state == 5

/-- A member state in service: in service or slow (R110). -/
def inService (state : Nat) : Bool := state == 2 || state == 3

/-- Valid entries of a port in the active bank. -/
def portEntries (t : Timetable) (port : Nat) : List Word :=
  (Tab.vals (bankOf t t.bankB)).filter fun e => peValid e && peMember e == port

/-- Positions from the end of an entry to the next start of a list of entries of one member. -/
def gapAfter (period : Nat) (es : List Word) (e : Word) : Nat :=
  let fin := (peStart e + peLen e) % period
  ((es.map fun x => (peStart x + period - fin) % period).foldl min period)

/-- Longest run of cycles between two possessions of a port (R369). -/
def longestGap (t : Timetable) (port : Nat) : Nat :=
  let es := portEntries t port
  (es.map (gapAfter (bankPeriod t t.bankB) es)).foldl max 0

/-- A member is scheduled, a stray left aside (R369, R372). The drive's times are in ns. -/
def schedulable (s : State) (port : Nat) (p : MPort) : Bool :=
  let es := portEntries s.tt port
  p.plm && p.profiled && s.tt.planEn && !es.isEmpty &&
    es.all (fun e => decide (p.ndwinMin ≤ peLen e * s.tt.nomActive.toNat)) &&
    decide (longestGap s.tt port * s.tt.nomActive.toNat ≤ p.dtwinMax)

/-- A member is scheduled (R369). -/
def scheduled (s : State) (port : Nat) (p : MPort) : Bool := schedulable s port p && !p.stray

/-- The group counts as unscheduled (R369, R373). -/
def groupUnscheduled (s : State) (g : Group) : Bool :=
  g.members.any (fun x => match s.mports.find x.2 with
    | some p => judged p.state && !scheduled s x.2 p
    | none => false) || decide (effDepth g < g.inPoss.length)

/-- The window entries of a port in the bank in force announce a possession at a cycle (R53). -/
def announcedAt (t : Timetable) (port : Nat) (cycle : BitVec 44) : Bool :=
  t.planEn && (portEntries t port).any fun e =>
    peCovers e (bankPeriod t t.bankB) (planPos t.epoch cycle (bankPeriod t t.bankB))

end Sys2Proof.Machine
end

