-- ==== Sys2Proof/Machine/Images.lean ====
section
/-! DEFINITION. The bytes of journal records, echo blocks and mirror headers, and the pool of records (R4, R335, R336, R338). -/

namespace Sys2Proof.Machine

/-! The pool of records (R335, R336) -/

/-- Records of the pool in use, primaries and continuations. -/
def recIndices (s : State) : List Nat := (s.journal.recs.map fun x => x.1 :: x.2.conts).flatten

/-- The lowest number from k on, of the next n, that is not in a list. -/
def gapFrom (used : List Nat) : Nat → Nat → Nat
  | 0, k => k
  | n + 1, k => if used.contains k then gapFrom used n (k + 1) else k

/-- The n lowest records that are not in a list. -/
def takeRecs (used : List Nat) : Nat → List Nat
  | 0 => []
  | n + 1 => let k := gapFrom used used.length 0; k :: takeRecs (k :: used) n

/-- Enter a record with the continuations that its entries take; its index. -/
def addRec (s : State) (r : JRec) : Nat × State :=
  let l := takeRecs (recIndices s) (recUnits r)
  let i := l.headD 0
  (i, { s with journal := { s.journal with recs := s.journal.recs.put i { r with conts := l.tail } } })

/-! Record images (R335) -/

/-- Bits of a list, the first lowest. -/
def maskOf : List Bool → Nat
  | [] => 0
  | b :: t => (if b then 1 else 0) + 2 * maskOf t

/-- Every frame of an entry is ZFILL. -/
def entryZero (s : State) (e : JEntry) : Bool := e.frames.all fun fr => (frameOf s fr).zfill

/-- The fields that a primary and a continuation share: its entries, their masks, GENERATION, STRIPE, GROUP and HEAD. Part k of
record i holds entries 6k to 6k + 5. -/
def recFields (s : State) (i : Nat) (r : JRec) (k : Nat) : List (Nat × List Byte) :=
  let es := (r.entries.drop (6 * k)).take 6
  [(0x01, leBytes 1 r.group), (0x02, leBytes 1 es.length), (0x04, leBytes 4 (r.conts.getD k 0x3FFFF)), (0x08, leBytes 8 r.generation),
   (0x10, leBytes 8 r.stripe),
   (0x40, (es.map fun e => leBytes 1 e.index ++ leBytes 1 (e.frames.length - 1) ++ leBytes 6 e.lba).flatten),
   (0x70, leBytes 1 (maskOf (es.map fun e => e.stage))), (0x71, leBytes 1 (maskOf (es.map (entryZero s)))),
   (0x72, leBytes 1 (maskOf (es.map fun e => e.done))), (0x78, leBytes 4 i)]

/-- The fields of a primary record alone. -/
def primaryFields (r : JRec) : List (Nat × List Byte) :=
  [(0x00, leBytes 1 (if r.sealed then 2 else 1)), (0x03, leBytes 1 (bit r.resync 0)), (0x18, leBytes 2 (r.vol.getD 0xFFFF)),
   (0x1C, leBytes 4 r.siding), (0x20, leBytes 8 r.openTs.toNat), (0x28, leBytes 8 r.sealTs.toNat),
   (0x30, leBytes 9 ((r.entries.map fun e => 2 ^ e.index).eraseDups.sum))]

/-- Part k of record i in 128 bytes; an open record has no CRC yet. -/
def recPart (s : State) (i : Nat) (r : JRec) (k : Nat) : List Byte :=
  let b := layBytes 124 (recFields s i r k ++ if k = 0 then primaryFields r else [(0x00, leBytes 1 3)])
  if r.sealed then sealBytes b else b ++ leBytes 4 0

/-- The parts of a record, the primary first. -/
def recParts (s : State) (i : Nat) (r : JRec) : List (List Byte) := (List.range (recUnits r)).map (recPart s i r)

/-- A retire notice (R338). DESIGN CHOICE (log entry 71): fields that the rule does not name are 0, and it takes one slot. -/
def retireNotice (r : JRec) : List Byte := sealBytes (layBytes 124 [(0x08, leBytes 8 r.generation), (0x10, leBytes 8 r.stripe)])

/-! Echo blocks and mirror headers (R338) -/

/-- An echo block of at most 31 record slots. -/
def echoBytes (epoch seq : Nat) (slots : List (List Byte)) : List Byte :=
  let b := layBytes 4096 [(0x00, leBytes 4 0x4F484345), (0x04, leBytes 4 epoch), (0x08, leBytes 8 seq), (0x10, leBytes 1 slots.length),
    (0x80, slots.flatten)]
  splice b 0x7C (leBytes 4 (crc32 b).toNat)

/-- One copy of a group's mirror header. -/
def mirrorBytes (g : Group) (copy : Nat) : List Byte :=
  sealBytes <| layBytes 4092
    [(0x000, leBytes 4 0x52484D57), (0x004, leBytes 2 1), (0x006, leBytes 1 copy), (0x007, leBytes 1 (bit g.clean 0)),
     (0x008, leBytes 16 g.groupId), (0x018, leBytes 4 g.epoch), (0x020, leBytes 8 g.hdrSeq),
     (0x028, leBytes 1 g.triple.1 ++ leBytes 1 g.triple.2.1 ++ leBytes 1 g.triple.2.2)]

end Sys2Proof.Machine
end

