-- ==== Sys2Proof/Machine/Retire.lean ====
section
/-! DEFINITION. The journal unit: mirror echo and epochs, lost stripes, watermarks, and the retire of a record
(R233, R300, R304 to R306, R319, R332, R335 to R339, R388 to R390). -/

namespace Sys2Proof.Machine

/-! The journal mirror -/

/-- Member indices in service, ascending. -/
def serviceList (s : State) (g : Group) : List Nat :=
  (List.range g.n).filter fun i => inService (memberState s g i)

/-- The next three members in service after the highest index of a triple, wrapping (R337). -/
def nextTriple (s : State) (g : Group) : Nat × Nat × Nat :=
  let hi := max (max g.triple.1 g.triple.2.1) g.triple.2.2
  let l := serviceList s g
  let l := l.filter (hi < ·) ++ l.filter (· ≤ hi)
  (l.getD 0 g.triple.1, l.getD 1 g.triple.2.1, l.getD 2 g.triple.2.2)

/-- Some member of the triple is out of service (R337). -/
def tripleDegraded (s : State) (g : Group) : Bool :=
  !([g.triple.1, g.triple.2.1, g.triple.2.2].all fun i => inService (memberState s g i))

/-- Record slots of the sealed records of a group (R338). -/
def sealedSlots (s : State) (gno : Nat) : List (List Byte) :=
  ((s.journal.recs.filter fun x => x.2.sealed && x.2.group == gno).map fun x => recParts s x.1 x.2).flatten

/-- The number of a triple in a log detail. -/
def tripleCode (t : Nat × Nat × Nat) : Nat := t.1 + t.2.1 * 2 ^ 8 + t.2.2 * 2 ^ 16

/-- The Maintenance floor counts units issued at a member in a class (R60). -/
def countUnits (s : State) (port : Nat) (cl : Cls) (n : Nat) : State :=
  let d := s.adm.deficit.getD port 0
  let d := d + (n * s.adm.maintFloor.toNat : Nat) - (if cl == .maintenance then (100 * n : Nat) else 0)
  { s with adm := { s.adm with deficit := s.adm.deficit.put port d } }

/-- Ports of a mirror's triple that are in service. -/
def mirrorPorts (s : State) (g : Group) : List Nat :=
  [g.triple.1, g.triple.2.1, g.triple.2.2].filterMap fun i => if inService (memberState s g i) then portOfMember g i else none

/-- Mirror writes are Maintenance work of the members that take them (R58, R60). -/
def countMirror (s : State) (g : Group) (blocks : Nat) : State :=
  (mirrorPorts s g).foldl (fun s p => countUnits s p .maintenance blocks) s

/-- Write both copies of a mirror's header with a CLEAN (R338). -/
def writeHeader (s : State) (gno : Nat) (clean : Bool) : State :=
  let s := updGroup s gno fun g => { g with clean := clean, hdrSeq := g.hdrSeq + 1 }
  match s.groups.find gno with
  | none => s
  | some g => countMirror (emit s (.mirrorHeader gno g.epoch clean (mirrorPorts s g) (mirrorBytes g 0) (mirrorBytes g 1))) g 2

/-- Write one echo block at the mirror's next ring position (R339). -/
def writeEcho (gno : Nat) (slots : List (List Byte)) (s : State) : State :=
  match s.groups.find gno with
  | none => s
  | some g =>
    let s := emit s (.echoBlock gno (mirrorPorts s g) (Config.ringStart + g.ringPos) (echoBytes g.epoch g.blockSeq slots))
    countMirror (updGroup s gno fun g => { g with ringPos := g.ringPos + 1, blockSeq := g.blockSeq + 1 }) g 1

/-- Record slots in groups of 31, for at most n echo blocks. -/
def slotsBy31 : Nat → List (List Byte) → List (List (List Byte))
  | 0, _ => []
  | n + 1, l => if l.isEmpty then [] else l.take 31 :: slotsBy31 n (l.drop 31)

/-- A new epoch of a group's mirror: the sealed records go to the new triple's rings from block 0, then the headers (R337). -/
def newEpoch (s : State) (gno : Nat) : State :=
  match s.groups.find gno with
  | none => s
  | some g =>
    let t := nextTriple s g
    let slots := sealedSlots s gno
    let s := updGroup s gno fun g => { g with epoch := g.epoch + 1, triple := t, ringPos := 0, blockSeq := 0 }
    let s := updGroup s gno fun g => { g with mirrorDegraded := tripleDegraded s g }
    writeHeader ((slotsBy31 slots.length slots).foldl (fun s l => writeEcho gno l s) s) gno false

/-- The ring of a group's mirror is full. -/
def ringFull (s : State) (gno : Nat) : Bool :=
  match s.groups.find gno with
  | some g => decide (Config.ringBlocks ≤ g.ringPos)
  | none => false

/-- The issue step sends what a group's mirror has to echo, in as few blocks as hold it; the first echo after a clean entry to W3 or
W4 clears CLEAN, and at the ring's end a new epoch starts (R337 to R339). -/
def flushEcho (s : State) (gno : Nat) : State :=
  match s.groups.find gno with
  | none => s
  | some g =>
    if g.echoQ.isEmpty then s
    else
      let s := updGroup s gno fun g => { g with echoQ := [] }
      let s := if g.clean then writeHeader s gno false else s
      (slotsBy31 g.echoQ.length g.echoQ).foldl (fun s l => writeEcho gno l (if ringFull s gno then newEpoch s gno else s)) s

/-- Queue an intent echo or a retire notice for the issue step of the present slot (R338, R339). -/
def queueEcho (s : State) (gno gen stripe : Nat) (retire : Bool) (slots : List (List Byte)) : State :=
  emit (updGroup s gno fun g => { g with echoQ := g.echoQ ++ slots }) (.echo gno gen stripe retire)

/-! Lost stripes -/

/-- A stripe is in the lost-stripe map (R295). -/
def isLost (s : State) (gno stripe : Nat) : Bool :=
  s.mem.lost.any fun l => l.group == gno && l.stripe == stripe

/-- Volume blocks of a stripe, in lane order. -/
def stripeBlocks (s : State) (gno : Nat) (g : Group) (stripe : Nat) : List (Nat × Nat) :=
  ((List.range g.w).map fun i => (List.range g.geom.b).filterMap fun o => blockOf s gno g stripe i o).flatten

/-- Frames of sealed records. -/
def inSealed (s : State) (fr : Nat) : Bool :=
  s.journal.recs.any fun x => x.2.sealed && x.2.entries.any fun e => e.frames.contains fr

/-- A block's frame is dirty and in no sealed record; a volume being deleted is not destaged (R193). -/
def loneDirty (s : State) (x : Nat × Nat) : Option Nat :=
  match mapped s x.1 x.2 with
  | some fr =>
    let gone := match s.vols.find x.1 with
      | some v => v.deleting
      | none => true
    if (frameOf s fr).dirty && !inSealed s fr && !gone then some fr else none
  | none => none

/-- Maximal runs of consecutive blocks: volume, first block, count. -/
def runsOf : List (Nat × Nat) → List (Nat × Nat × Nat)
  | [] => []
  | (v, l) :: t =>
    match runsOf t with
    | (v', l', n) :: rs => if v' = v ∧ l' = l + 1 then (v, l, n + 1) :: rs else (v, l, 1) :: (v', l', n) :: rs
    | [] => [(v, l, 1)]

/-- Discard the dirty frame of a block: the block is unmapped, and the frame freed when nothing pins it. -/
def discardBlock (s : State) (fr : Nat) : State :=
  let s := updFrame s fr fun x => { x with key := none, dirty := false }
  if (frameOf s fr).pins = 0 then freeFrame s fr else s

/-- What becomes of the dirty frames of a stripe that is lost (R389). -/
def loseDirty (s : State) (gno : Nat) (g : Group) (stripe : Nat) : State :=
  let bs := stripeBlocks s gno g stripe
  let ds := bs.filter fun x => (loneDirty s x).isSome
  if bs.all fun x => match mapped s x.1 x.2 with
      | some fr => (frameOf s fr).dirty
      | none => false
  then s
  else
    let frs := ds.filterMap (loneDirty s)
    let s := (runsOf ds).foldl (fun s r => deferErr s r.1 gno r.2.1 r.2.2 1) s
    settle (wakeFrameWaiters (frs.foldl discardBlock s))

/-- Insert a lost-stripe entry in ascending group and stripe order (R391). -/
def insertLost (x : Lost) : List Lost → List Lost
  | [] => [x]
  | y :: t => if x.group < y.group || (x.group == y.group && x.stripe < y.stripe) then x :: y :: t
              else y :: insertLost x t

/-- Enter a stripe in the lost-stripe map (R388 to R390). -/
def enterLost (s : State) (gno stripe cause erased : Nat) : State :=
  match s.groups.find gno with
  | none => s
  | some g =>
    if isLost s gno stripe then s
    else
      let vol := (volOfExtent s gno (extentOf g stripe).1).map Prod.fst
      if Config.lostCapacity ≤ s.mem.lost.length then
        let s := match vol with
          | some v => deferErr s v gno 0 wholeVolume 1
          | none => s
        logErr { s with mem := { s.mem with lostFull := true } } 0x0B22 .signalBox {} (stripe + 2 ^ 63)
      else
        let x : Lost := { group := gno, stripe := stripe, cause := cause, vol := vol,
                          erased := BitVec.ofNat 32 erased, ts := now s }
        let t := now s
        let s := { s with mem := { s.mem with lost := insertLost x s.mem.lost, lostTs := t } }
        let s := updGroup s gno fun g => { g with labelDirty := true }
        loseDirty (logErr s 0x0B22 .signalBox { vol := vol.getD 0xFFFF } stripe) gno g stripe

/-- Remove a stripe from the lost-stripe map. -/
def leaveLost (s : State) (gno stripe : Nat) : State :=
  if isLost s gno stripe then
    let t := now s
    updGroup { s with mem := { s.mem with
      lost := s.mem.lost.filter fun l => !(l.group == gno && l.stripe == stripe), lostTs := t } } gno
      fun g => { g with labelDirty := true }
  else s

/-- Mark a stripe for resync (R320); a scrub rewrites it first (R392). -/
def markResync (s : State) (gno stripe : Nat) : State :=
  let s := updGroup s gno fun g =>
    { g with resync := if g.resync.contains stripe then g.resync else g.resync ++ [stripe] }
  logErr s 0x0A21 .journal {} stripe

/-! Poison marks -/

/-- A block carries a poison mark in the list (R332). -/
def inPoisonList (s : State) (v l : Nat) : Bool := s.cache.poisonList.contains (v, l)

/-- A block's poison mark leaves the list (R123, R332). -/
def clearPoison (s : State) (v l : Nat) : State :=
  updCache s fun c => { c with poisonList := c.poisonList.filter (· != (v, l)) }

/-- A block's poison mark moves to the list; when the list is full, its stripe is lost (R332). -/
def movePoison (s : State) (gno stripe v l : Nat) : State :=
  if inPoisonList s v l then s
  else if Config.poisonCapacity ≤ s.cache.poisonList.length then
    enterLost (logErr s 0x0A03 .journal { vol := v } stripe) gno stripe 3 0
  else updGroup (updCache s fun c => { c with poisonList := c.poisonList ++ [(v, l)] }) gno
    fun g => { g with labelDirty := true }

/-! Watermarks -/

/-- Member index and base column of a cycle row's strip of its own on a member under dp-decluster; none on a
spare column (R230, R233). -/
def ownColumn (g : Group) (row index : Nat) : Option Nat :=
  let t := g.geom.t
  let j := if t = 0 then 0 else cycleRow g row / t
  (List.range g.geom.u).find? fun c => (g.geom.sigma c + j) % g.n == index

/-- The order number of the next failure of a group. -/
def nextOrd (g : Group) : Nat := (g.history.map fun x => x.2.ord + 1).foldl max 0

/-- Insert a history entry in order of failure. -/
def insertEnt (x : Nat × FailEnt) : List (Nat × FailEnt) → List (Nat × FailEnt)
  | [] => [x]
  | y :: t => if x.2.ord ≤ y.2.ord then x :: y :: t else y :: insertEnt x t

/-- The entries of a failure history in order of failure (R233). -/
def byFailure (g : Group) : List (Nat × FailEnt) := g.history.foldr insertEnt []

/-- The entries that failed before the entry at a position, in order of failure. -/
def earlier (g : Group) (pos : Nat) : List (Nat × FailEnt) :=
  let n := match g.history.find pos with
    | some e => e.ord
    | none => nextOrd g
  (byFailure g).filter fun x => x.2.ord < n && x.1 != pos

/-- Base columns of the strips that a member holds in a row when the entry at a position is made: its own first, then each strip of an
earlier entry that has its home there, in the order of the entries (R233). -/
def stripsOn (g : Group) (row index pos : Nat) : List Nat :=
  (ownColumn g row index).toList ++
    ((earlier g pos).map fun x =>
      (List.range (min 4 g.spare)).filterMap fun k =>
        match g.homes.find (4 * cycleRow g row + k) with
        | some h => if h.pos == x.1 && spareMember g row k == index then some h.col else none
        | none => none).flatten

/-- A member holds an empty spare position in a row (R383). -/
def emptyRow (g : Group) (row index pos : Nat) : Bool :=
  layoutKind g.layout == .decluster && (stripsOn g row index pos).isEmpty

/-- A watermark past every row in which the member holds an empty spare position, at most n rows on (R383). -/
def passEmpty (g : Group) (index pos : Nat) : Nat → Nat → Nat
  | 0, wm => wm
  | n + 1, wm => if wm < g.rows && emptyRow g wm index pos then passEmpty g index pos n (wm + 1) else wm

/-- Label content of a group has changed and is to be written again (R236, R377). -/
def labelChange (s : State) (gno : Nat) : State := updGroup s gno fun g => { g with labelDirty := true }

/-- A failure-history entry's watermark has reached ROWS: a replacement enters service and the entry goes; F
falls (R375, R385). -/
def rebuildDone (s : State) (gno pos index : Nat) : State :=
  match s.groups.find gno with
  | none => s
  | some g =>
    let s := logErr s 0x0B21 .signalBox {} (gno + index * 2 ^ 8)
    let s := if memberState s g index = 5 then
        let s := updGroup s gno fun g =>
          { g with history := g.history.del pos, homes := g.homes.filter fun h => h.2.pos != pos }
        match portOfMember g index with
        | some p => updMport s p fun p => { p with state := 2 }
        | none => s
      else s
    rbChange (labelChange s gno)

/-- Raise the watermark of a member index from a row, under the stripe's lock (R306, R383). -/
def raiseWatermark (s : State) (gno index row : Nat) : State :=
  match s.groups.find gno with
  | none => s
  | some g =>
    match entryOf g index with
    | none => s
    | some (pos, e) =>
      if e.watermark != row then s
      else
        let wm := passEmpty g index pos (cycleRowsOf g) (row + 1)
        let s := updGroup s gno fun g =>
          { g with history := g.history.put pos { e with watermark := wm } }
        if g.rows ≤ wm then rebuildDone s gno pos index else s

/-! The retire -/

/-- What the retire of a record does to one frame of an entry (R24, R305, R320, R332). -/
def retireFrameOf (gno stripe : Nat) (stage : Bool) (s : State) (fr : Nat) : State :=
  let f := frameOf s fr
  let s := updFrame s fr fun x =>
    { x with rdonly := false, dirty := if stage then x.dirty else false,
             retireLast := x.retireLast || x.uncorr, key := if x.uncorr then none else x.key }
  let s := match f.key with
    | some (v, l) => if !stage && f.poison then
        movePoison (updFrame s fr fun x => { x with poison := false }) gno stripe v l else s
    | none => s
  unpinFrame s fr

/-- A record writes every strip of its stripe whole on the members in service (R389). -/
def wholeStripe (s : State) (r : JRec) : Bool :=
  match s.groups.find r.group with
  | none => false
  | some g =>
    (List.range g.geom.m).all fun i =>
      let p := place g r.stripe i
      !inService (memberState s g p.member) ||
        r.entries.any fun e => e.index == p.member && e.lba == memberLba g p.row 0 && decide (g.geom.b ≤ e.frames.length)

/-- Retire a sealed record (R300, R305). -/
def retireRec (s : State) (i : Nat) : State :=
  match s.journal.recs.find i with
  | none => s
  | some r =>
    let s := { s with journal := { s.journal with recs := s.journal.recs.del i } }
    let s := r.entries.foldl (fun s e => e.frames.foldl (retireFrameOf r.group r.stripe e.stage) s) s
    let s := if wholeStripe s r then leaveLost s r.group r.stripe else s
    let s := queueEcho s r.group r.generation r.stripe true [retireNotice r]
    wakeRecordWaiters (wakeFrameWaiters (settle s))

/-- A context's Maintenance work is a scrub step for a stripe marked for resync (R384, R393). -/
def isResync (c : Ctx) : Bool := c.work == some .scrub && c.cmd.getLsbD (8 * 0x20)

/-- Every write issued under a record has ended. -/
def writesEnded (r : JRec) : Bool := r.entries.all fun e => e.writing == 0

/-- A registered step of the same entry with a lower row has not ended (R386). -/
def lowerStep (s : State) (cx gno index row : Nat) : Bool :=
  match s.groups.find gno with
  | none => false
  | some g =>
    match entryOf g index with
    | none => false
    | some (pos, e) =>
      decide (e.watermark < row) && g.steps.any fun x => x.ctx != cx && x.pos == pos && decide (x.row < row)

/-- The watermark part of a retire, with the lock still held (R306). -/
def retireWm (s : State) (cx gno stripe : Nat) (wm : Option (Nat × Nat)) : State :=
  match wm with
  | some (index, row) => if holds s cx gno stripe then raiseWatermark s gno index row else s
  | none => s

/-- Perform a JRETIRE whose waits are over: the change of the state and the result. -/
def doRetire (s : State) (cx gno stripe : Nat) (wm : Option (Nat × Nat)) : Nat × State :=
  match recOf s cx gno stripe with
  | none => (4, s)
  | some (i, r) =>
    let s := retireWm s cx gno stripe wm
    if !r.sealed then (1, dropRec s i)
    else
      let s := retireRec s i
      let s := match s.ctxs.find cx with
        | some c => if isResync c then updGroup s gno fun g => { g with resync := g.resync.filter (· != stripe) } else s
        | none => s
      let deferred := match lockOf s gno stripe with
        | some l => l.deferred && l.holder == some cx
        | none => false
      (0, if deferred then passLock s gno stripe else s)

/-! Records that the journal unit replays (R300, R353) -/

/-- A sealed record of a stripe whose context has ended, or that a VERIFY made. -/
def orphanOf (s : State) (gno stripe : Nat) : Option (Nat × JRec) :=
  s.journal.recs.find? fun x => x.2.ctx.isNone && x.2.sealed && x.2.group == gno && x.2.stripe == stripe && !x.2.restored

/-- A lock with no holder passes on once the stripe has no orphan record left. -/
def passOrphan (s : State) (gno stripe : Nat) : State :=
  match lockOf s gno stripe with
  | some l => if l.holder.isNone && (orphanOf s gno stripe).isNone then passLock s gno stripe else s
  | none => s

/-- A replayed record whose writes have ended: a record marked RESYNC has its stripe resynced, the record is retired, the lock
passes on, and the work whose rewrite it is goes on (R186, R191, R300, R320, R353). -/
def endReplay (s : State) (i : Nat) (r : JRec) : State :=
  let s := if r.resync then markResync s r.group r.stripe else s
  let s := passOrphan (retireRec s i) r.group r.stripe
  match r.repair with
  | some (.verify cx) => repairDone s cx
  | some (.fill vol) => updVol s vol fun v => { v with fill := v.fill.map fun x => { x with next := x.next + 1, busy := false } }
  | none => s

/-- Replayed records whose writes have ended are retired. -/
def endReplays (s : State) : State :=
  if frozen s then s
  else (s.journal.recs.filter fun x => x.2.replaying && writesEnded x.2).foldl (fun s x => endReplay s x.1 x.2) s

/-- A JRETIRE may proceed: its writes have ended, and no lower step holds its watermark (R305, R386). -/
def retireReady (s : State) (cx gno stripe : Nat) (wm : Option (Nat × Nat)) : Bool :=
  (match recOf s cx gno stripe with
    | some (_, r) => !r.sealed || writesEnded r
    | none => true) &&
  (match wm with
    | some (index, row) => !lowerStep s cx gno index row
    | none => true)

/-- A context that waits in JRETIRE goes on when it may. -/
def tryRetire (s : State) (cx : Nat) : State :=
  match s.ctxs.find cx with
  | none => s
  | some c =>
    match c.wait with
    | .retire gno stripe wm dst =>
      if retireReady s cx gno stripe wm then
        let (v, s) := doRetire s cx gno stripe wm
        finishWait s cx fun c => setGreg c dst (BitVec.ofNat 64 v)
      else s
    | _ => s

end Sys2Proof.Machine
end

