-- ==== Sys2Proof/Machine/Initiator.lean ====
section
/-! DEFINITION. The member initiator: commands, tickets, failures, containment and possessions of member
drives (R21, R233, R307 to R311, R331, R360, R363 to R382). -/

namespace Sys2Proof.Machine

/-! Tickets -/

/-- Event codes of a ticket (R308). -/
inductive TicketEvent where
  | ok | timeout | media | poisoned | lost | frame
  deriving DecidableEq, Repr

/-- Code of R308. -/
def TicketEvent.code : TicketEvent → Nat
  | .ok => 0 | .timeout => 1 | .media => 2 | .poisoned => 3 | .lost => 4 | .frame => 5

/-- Ticket t is outstanding: its command runs, or its end has not been reported (R307). -/
def ticketBusy (c : Ctx) (t : Nat) : Bool :=
  match c.tickets.find t with
  | some .outstanding => true
  | some (.ended _) => true
  | _ => false

/-- Ticket t's command still runs. -/
def ticketRuns (c : Ctx) (t : Nat) : Bool := c.tickets.find t == some .outstanding

/-- Outstanding tickets of a mask. -/
def ticketsIn (c : Ctx) (mask : BitVec 32) : List Nat :=
  (List.range 32).filter fun t => mask.getLsbD t && ticketBusy c t

/-- Sum of the bits of a list of tickets. -/
def ticketBits (l : List Nat) : Nat := (l.map fun t => 2 ^ t).sum

/-- Tickets of a list that have ended. -/
def endedOf (c : Ctx) (l : List Nat) : List Nat := l.filter fun t => !ticketRuns c t

/-- A ticket ended with an event other than OK. -/
def hasEvent (c : Ctx) (t : Nat) : Bool :=
  match c.tickets.find t with
  | some (.ended e) => e != 0
  | _ => false

/-- What an MWAIT ALL or ANY reports now, none while it waits (R307): tickets reported. -/
def waitResult (c : Ctx) (mask : BitVec 32) (any : Bool) : Option (List Nat) :=
  let l := ticketsIn c mask
  let e := endedOf c l
  if l.isEmpty then some []
  else if any then (if e.isEmpty then none else some e)
  else if e.length = l.length then some e else none

/-- The value of gd for reported tickets. -/
def waitValue (c : Ctx) (l : List Nat) : Word :=
  BitVec.ofNat 64 (ticketBits l + ticketBits (l.filter (hasEvent c)) * 2 ^ 32)

/-- The tickets are reported. -/
def reportTickets (c : Ctx) (l : List Nat) : Ctx :=
  { c with tickets := c.tickets.mapVal fun t x => match x with
      | .ended e => if l.contains t then .reported e else x
      | x => x }

/-- A context that waits for tickets goes on when its wait is over. -/
def tryTickets (s : State) (cx : Nat) : State :=
  match s.ctxs.find cx with
  | none => s
  | some c =>
    match c.wait with
    | .tickets mask any dst =>
      match waitResult c mask any with
      | some l => finishWait s cx fun c => setGreg (reportTickets c l) dst (waitValue c l)
      | none => s
    | .ticketFree t => if ticketRuns c t then s else wake s cx
    | _ => s

/-- Contexts that wait for a queue entry of a port try again. -/
def wakeMem (s : State) (port : Nat) : State :=
  (s.ctxs.filter fun x => x.2.wait == .memQueue port).foldl (fun s x => wake s x.1) s

/-- Writes have ended: replayed records are retired, and contexts whose JRETIRE waits for writes go on when they may. -/
def retryRetires (s : State) : State :=
  let s := endReplays s
  (s.ctxs.filter fun x => match x.2.wait with
    | .retire _ _ _ _ => true
    | _ => false).foldl (fun s x => tryRetire s x.1) s

/-! The end of a member command -/

/-- Frames that a member read filled become protected (R286), and a rereading frame takes its block (R292). -/
def filledFrame (s : State) (fr : Nat) : State :=
  let f := frameOf s fr
  let s := protectFrame s fr
  match f.bound with
  | some b => if f.reread && !frozen s then updFrame s fr fun x => { x with key := some b, bound := none, reread := false } else s
  | none => s

/-- The entry of a record counts the end of one of its writes; OK sets its bit in DONE_MASK (R335). -/
def endWrite (s : State) (rec index : Nat) (ok : Bool) : State :=
  updRec s rec fun r =>
    { r with entries := r.entries.map fun e =>
        if e.index = index then { e with writing := e.writing - 1, done := e.done || ok } else e }

/-- A member command's ticket ends: its window closes, its pins go, its thread is told (R307, R309, R360). -/
def endCmd (s : State) (port cid : Nat) (m : MemCmd) (ev : TicketEvent) : State :=
  let s := updMport s port fun p => { p with cmds := p.cmds.del cid }
  let s := if m.op == .read && ev == .ok then m.frames.foldl filledFrame s else s
  let s := match m.jrec with
    | some (r, i) => endWrite s r i (ev == .ok)
    | none => s
  let s := match m.ctx with
    | some cx =>
      tryTickets (updCtx s cx fun c => { c with tickets := c.tickets.put m.ticket (.ended ev.code) }) cx
    | none => s
  wakeFrameWaiters (unpinAll s m.frames)

/-! Spare homes (R233) -/

/-- Stripe strips (cycle row, base column) of the strip of a base column in a cycle row under dp-decluster. -/
def patternStrips (g : Group) (row col : Nat) : List (Nat × Nat) :=
  let t := g.geom.t
  let j := if t = 0 then 0 else row / t
  let k := (row % max t 1 * g.geom.u + col) / g.geom.m
  (List.range g.geom.m).map fun i =>
    let sl := k * g.geom.m + i
    (j * t + sl / g.geom.u, sl % g.geom.u)

/-- A member holds a strip of the stripe, in the base pattern or as a recorded home. -/
def holdsStripe (g : Group) (row col index : Nat) : Bool :=
  (patternStrips g row col).any fun x =>
    let t := g.geom.t
    let j := if t = 0 then 0 else x.1 / t
    (g.geom.sigma x.2 + j) % g.n == index ||
      (List.range (min 4 g.spare)).any fun k => match g.homes.find (4 * x.1 + k) with
        | some h => h.col == x.2 && spareMember g x.1 k == index
        | none => false

/-- Give the strip of a base column in a cycle row its home under a history position (R233). -/
def giveHome (s : State) (pos row : Nat) (g : Group) (col : Nat) : Group :=
  match (List.range (min 4 g.spare)).find? fun k =>
      (g.homes.find (4 * row + k)).isNone && inService (memberState s g (spareMember g row k)) &&
        !holdsStripe g row col (spareMember g row k) with
  | some k => { g with homes := g.homes.put (4 * row + k) { pos := pos, col := col } }
  | none => g

/-- Give every strip that a failed member holds a home (R233, R512). -/
def giveHomes (s : State) (g : Group) (index pos : Nat) : Group :=
  if layoutKind g.layout == .decluster && g.spare != 0 then
    (List.range (cycleRowsOf g)).foldl (fun g row =>
      (stripsOn g row index pos).foldl (giveHome s pos row) g) g
  else g

/-- The history entry of a member index goes, with its home slots and its registered steps (R385). -/
def dropEntry (g : Group) (index : Nat) : Group :=
  match entryOf g index with
  | some (pos, _) =>
    { g with history := g.history.del pos, homes := g.homes.filter fun x => x.2.pos != pos,
             steps := g.steps.filter fun x => x.pos != pos }
  | none => g

/-- The first free history position (R377). -/
def freePos (g : Group) : Option Nat := (List.range 8).find? fun p => !g.history.has p

/-- A failure-history entry for a member index at watermark 0, with its homes: in place of the index's entry, or at the first free
position (R233, R377, R383). -/
def addFailure (s : State) (g : Group) (index : Nat) : Group :=
  let old := (entryOf g index).map Prod.fst
  let n := nextOrd g
  let g := { dropEntry g index with rbReads := [] }
  match old.orElse fun _ => freePos g with
  | none => { g with extraFailed := g.extraFailed ++ [index] }
  | some pos =>
    let g := { g with history := g.history.put pos { index := index, watermark := 0, ord := n } }
    let g := giveHomes s g index pos
    { g with history := g.history.put pos { index := index, watermark := passEmpty g index pos (cycleRowsOf g) 0, ord := n } }

/-! Possessions -/

/-- The intent echo of a record leaves before any member write of it (R339). -/
def echoFirst (s : State) (m : MemCmd) : State :=
  match m.jrec.bind fun x => s.journal.recs.find x.1 with
  | some r => flushEcho s r.group
  | none => s

/-- Register a command at a member port and send it (R360, R366, R367); a member in a low power state leaves it
(R62). -/
def sendMem (s : State) (port : Nat) (m : MemCmd) (zeroes : Bool) : State :=
  let s := echoFirst s m
  match s.mports.find port with
  | none => s
  | some p =>
    let s := if p.lowPower then emit s (.memPower port false) else s
    emit (updMport s port fun p =>
        { p with cmds := p.cmds.put p.nextCid m, nextCid := p.nextCid + 1, idleCycles := 0, lowPower := false })
      (.memCmd port p.nextCid m.op m.lba m.count zeroes (zeroes && p.zerosDealloc))

/-- The next issue on a member is Maintenance: the floor is owed and such work waits for the member (R60). -/
def floorDue (s : State) (port : Nat) : Bool :=
  decide (0 < s.adm.deficit.getD port 0) &&
    s.ctxs.any fun x => x.2.wait == .memQueue port && eclass x.2 == .maintenance

/-- Send an administrative command of the initiator or the signal box (R366). -/
def sendAdmin (s : State) (port : Nat) (op : MemOp) (waiter : Option AdminCmd) : State :=
  sendMem s port
    { op := op, ctx := none, ticket := 0, lba := 0, count := 0, frames := [], issued := now s,
      due := after s (max 1 s.mem.tmoAdmin.toNat), express := false, determ := false, jrec := none,
      waiter := waiter } false

/-- Issue Window Select DTWIN (R370, R373, R374). -/
def sendDtwin (s : State) (port : Nat) : State :=
  sendAdmin (updMport s port fun p => { p with dtwinSent := true, dtwinDone := false, retryDue := none }) port .winDtwin none

/-- Issue Window Select NDWIN (R370). -/
def sendNdwin (s : State) (port : Nat) : State :=
  sendAdmin (updMport s port fun p => { p with ndwinSent := true, retryDue := none }) port .winNdwin none

/-- A member's possession is over: the member is scheduled again when it had strayed (R369, R374). -/
def endPoss (s : State) (port : Nat) : State :=
  match s.mports.find port with
  | none => s
  | some p =>
    if !p.inPoss then s
    else
      let s := updMport s port fun p =>
        { p with inPoss := false, stray := false, early := false, dtwinSent := false, dtwinDone := false, ndwinSent := false,
                 retryDue := none }
      match p.group with
      | some g => updGroup s g fun g => { g with inPoss := g.inPoss.filter (· != port) }
      | none => s

/-- Members in possession beyond the effective depth end early, the latest started first (R373). -/
def applyDepth (s : State) (gno : Nat) : State :=
  match s.groups.find gno with
  | none => s
  | some g =>
    (g.inPoss.take (g.inPoss.length - effDepth g)).foldl (fun s port =>
      match s.mports.find port with
      | some p =>
        let s := updMport s port fun p => { p with early := true }
        if p.dtwinSent then s else sendDtwin s port
      | none => s) s

/-! Failure of a member (R375 to R377) -/

/-- End every outstanding command of a port with LOST; its identifiers are released (R377, R380). -/
def loseCmds (s : State) (port : Nat) : State :=
  match s.mports.find port with
  | none => s
  | some p =>
    let s := p.cmds.foldl (fun s x => endCmd s port x.1 x.2 .lost) s
    updMport s port fun p => { p with quarantine := [], quarDet := [] }

/-- An Express miss takes the degraded bound of a stripe, as D stood at its acceptance (R79, R80), for a cause that counts if
even that bound is passed; the largest bound among its stripes holds. -/
def degradeCtx (s : State) (stripe cause : Nat) (c : Ctx) : Ctx :=
  match c.dAt.find? fun x => x.1 == stripe with
  | none => c
  | some x =>
    let b := max c.bound (x.2 + (fixedParts s).degraded)
    { c with degraded := true, bound := b, lateCause := lateOf c.lateCause cause,
             dl := if c.dl = noTs then c.dl else tsAdd s.tt.kActive c.dl (b - c.bound) }

/-- Express misses in flight on a stripe of a failed member take the degraded bound (R79, R88). -/
def degradeReads (s : State) (gno index : Nat) : State :=
  match s.groups.find gno with
  | none => s
  | some g =>
    { s with ctxs := s.ctxs.mapVal fun _ c =>
        if ctxGroupNo s c != some gno then c
        else
          let hit := fun (st : Nat) => (List.range g.geom.m).any fun i => (place g st i).member == index
          ((c.dAt.map Prod.fst).filter hit).foldl (fun c st => degradeCtx s st 7 c) c }

/-- A member of a group fails (R377): cause as in MEMBER_FAILED (R399). -/
def failMember (s : State) (port cause : Nat) : State :=
  match s.mports.find port with
  | none => s
  | some p =>
    match p.group with
    | none => s
    | some gno =>
      if !judged p.state then s
      else
        let s := degradeReads s gno p.index
        let s := updMport s port fun p =>
          { p with state := 4, inPoss := false, lead := false, early := false, dtwinSent := false, dtwinDone := false,
                   ndwinSent := false, retryDue := none, mperstHigh := false }
        let s := loseCmds s port
        let s := updGroup s gno fun g =>
          { addFailure s g p.index with inPoss := g.inPoss.filter (· != port), labelDirty := true }
        let s := updGroup s gno fun g => { g with mirrorDegraded := tripleDegraded s g }
        let s := logErr s 0x0B06 .initiator { member := port } cause
        let s := emit (rbChange (applyDepth s gno)) (.mperst port false)
        wakeMem (retryRetires s) port

/-- A port is contained (R380). -/
def contain (s : State) (port : Nat) : State :=
  match s.mports.find port with
  | none => s
  | some p =>
    let s := if judged p.state then failMember s port 4 else loseCmds s port
    let s := updMport s port fun p =>
      { p with contained := true, linkUp := false, mperstHigh := false, pulseDue := none, width := 0, speed := 0,
               quarantine := [], quarDet := [] }
    wakeMem (emit (rbChange s) (.mperst port false)) port

/-! Failure policy (R376) -/

/-- Judge the counters of a policy window. -/
def judgePolicy (s : State) (port : Nat) : State :=
  match s.mports.find port with
  | none => s
  | some p =>
    if !judged p.state then s
    else if (s.mem.failTmo != 0 && decide (s.mem.failTmo.toNat ≤ p.tmoWin)) ||
        (s.mem.failMedia != 0 && decide (s.mem.failMedia.toNat ≤ p.mediaWin)) then failMember s port 1
    else if p.state == 2 && s.mem.slowTmo != 0 && decide (s.mem.slowTmo.toNat ≤ p.tmoWin) then
      rbChange (logErr (updMport s port fun p => { p with state := 3 }) 0x0B05 .initiator { member := port } 1)
    else s

/-- A media event or a window refusal is counted (R360, R376). -/
def countMedia (s : State) (port : Nat) : State :=
  judgePolicy (markFresh (updMport s port fun p => { p with cntMedia := satInc p.cntMedia, mediaWin := p.mediaWin + 1 }) .mem
    (0x1014 + 32 * port) 0 1) port

/-- A read timeout is counted (R376). -/
def countTimeout (s : State) (port : Nat) : State :=
  judgePolicy (updMport s port fun p => { p with tmoWin := p.tmoWin + 1 }) port

/-! From a member block back to its stripe (R226 to R233) -/

/-- Stripe and lane of the strip on a row of a member, none for an empty spare position. -/
def stripeAt (g : Group) (index row : Nat) : Option (Nat × Nat) :=
  match layoutKind g.layout with
  | .rotate =>
    let p := g.n - 1 - row % g.n
    some (row, if index = p then g.w else if index = (p + 1) % g.n then g.w + 1 else (index + 2 * g.n - p - 2) % g.n)
  | .decluster =>
    let t := g.geom.t
    let nt := g.n * t
    if nt = 0 then none
    else
      let j := row % nt / t
      let col := match ownColumn g row index with
        | some c => some c
        | none => (List.range (min 4 g.spare)).findSome? fun k =>
            match g.homes.find (4 * cycleRow g row + k) with
            | some h => if spareMember g row k == index then some h.col else none
            | none => none
      col.map fun c =>
        let sl := row % t * g.geom.u + c
        (row / nt * (g.n * g.geom.k) + j * g.geom.k + sl / g.geom.m, sl % g.geom.m)
  | .owner r => some (Config.ownerStripeAt r g.seed.toNat index row)

/-- Queue a scrub step for the stripe of a member block (R378). -/
def queueScrub (s : State) (port lba : Nat) : State :=
  match s.mports.find port with
  | none => s
  | some p =>
    match p.group, p.group.bind fun g => s.groups.find g with
    | some gno, some g =>
      if lba < Config.dataStart then s
      else
        match stripeAt g p.index (rowOf g lba) with
        | some (st, _) => updGroup s gno fun g =>
            { g with scrubQueue := if g.scrubQueue.contains st then g.scrubQueue else g.scrubQueue ++ [st] }
        | none => s
    | _, _ => s

/-! Issue of member commands -/

/-- Timeout in slots of a command of a class (R366). -/
def memTimeout (s : State) (p : MPort) (cl : Cls) (write : Bool) : Nat :=
  max 1 (if write then s.mem.tmoWrite.toNat
    else match cl with
      | .express => if p.inPoss || p.stray then s.mem.tmoStd.toNat else p.d.toNat
      | .standard => s.mem.tmoStd.toNat
      | .bulk => s.mem.tmoBulk.toNat
      | .maintenance => s.mem.tmoMaint.toNat)

/-- I/O queue of a member that carries a command of a class from a cluster (R363). -/
def memQueue (p : MPort) (cl : Cls) (cluster : Nat) : Nat :=
  let k := max 1 (p.queuePairs / 4)
  cl.code * k + cluster % k

/-- Work of a class above another, other than Express, waits for a port's queues (R59). -/
def higherWaits (s : State) (port : Nat) (cl : Cls) : Bool :=
  s.ctxs.any fun x => x.2.wait == .memQueue port && decide ((eclass x.2).code < cl.code)

/-- A command of a class may be issued at a port now (R59, R60, R363, R370). -/
def queueRoom (s : State) (port : Nat) (p : MPort) (cl : Cls) (cluster : Nat) : Bool :=
  let q := memQueue p cl cluster
  decide ((p.cmds.filter fun x => x.2.queue == q && (x.2.op == .read || x.2.op == .write)).length < 1023) &&
    (cl == .express ||
      (decide ((p.cmds.filter fun x => !x.2.express && (x.2.op == .read || x.2.op == .write)).length
          < s.mem.sbDepth.toNat) &&
        (if floorDue s port then cl == .maintenance else !higherWaits s port cl) && !(p.lead || (p.inPoss && !p.ndwinSent))))

/-- A range lies within one row of a member (R224). -/
def inOneRow (g : Group) (lba count : Nat) : Bool := decide (0 < count) && rowOf g lba == rowOf g (lba + count - 1)

/-- A member range cannot be read: it lies on a failed or absent member, or on a replacement at or above its
watermark (R308). -/
def readFailed (g : Group) (p : MPort) (lba : Nat) : Bool :=
  if inService p.state then false
  else if p.state == 5 then
    decide (Config.dataStart ≤ lba) &&
      (match entryOf g p.index with
        | some (_, e) => decide (e.watermark ≤ rowOf g lba)
        | none => true)
  else true

/-! Member instructions (R307 to R311) -/

/-- The route word's ticket begins a command. -/
def openTicket (c : Ctx) (t : Nat) : Ctx := { c with tickets := c.tickets.put t .outstanding }

/-- MREAD (R307, R308, R310). The lowest result that applies is returned; a command that finds no queue entry
waits out of its slot. -/
def execMread (i : Ins) (s : State) : Host.Outcome State Fault Refusal :=
  runIns i (i.modIn 0 && i.immIn 5) notMap s fun c s =>
    let rw := i.ga c
    let mw := i.gb c
    let n := wCount mw
    let t := rwTicket rw
    match ctxGroup s c with
    | none => completeD s i 1
    | some g =>
      match portOfMember g (rwIndex rw), memberPort s g (rwIndex rw) with
      | some port, some p =>
        if readFailed g p (wLba mw) then completeD s i 1
        else if i.imm.getLsbD 4 && p.inPoss then completeD s i 2
        else if ticketBusy c t then completeD s i 3
        else if p.blocks < wLba mw + n then completeD s i 4
        else
          match framesAt (handleOf c (i.immBits 0 4)) (wPos mw) n with
          | none => completeD s i 5
          | some frs =>
            if frs.any fun fr => (frameOf s fr).rdonly then completeD s i 5
            else
              let cl := eclass c
              if !queueRoom s port p cl c.cluster then startWait s i.cx (.memQueue port)
              else
                let s := frs.foldl (fun s fr => updFrame (pinFrame s fr) fr fun x => { x with prot := false }) s
                let m : MemCmd :=
                  { op := .read, ctx := some i.cx, ticket := t, lba := wLba mw, count := n, frames := frs,
                    issued := now s, due := after s (memTimeout s p cl false), express := cl == .express,
                    determ := !p.inPoss && !p.stray, jrec := none, queue := memQueue p cl c.cluster }
                complete (countUnits (sendMem s port m false) port cl n) i.cx fun c => openTicket (setGreg c i.d.toNat 0) t
      | _, _ => completeD s i 1

/-- Rows of the reserved area that the LABEL handler writes (R331). -/
def labelRows : List (Nat × Nat) := [(0, 1), (4, 11), (12, 19), (512, 1023), (1024, 3071), (3072, 19455)]

/-- The reserved-area rule for a member write (R331). -/
def labelWriteOk (c : Ctx) (p : MPort) (gno stripe lba n : Nat) : Bool :=
  c.work == some .label && decide (c.program % 64 ≤ 1) && stripe == Config.labelStripe &&
    labelRows.any (fun r => decide (r.1 ≤ lba) && decide (lba + n - 1 ≤ r.2)) &&
    ((p.group == some gno && judged p.state) || (p.present && c.cmd.getLsbD (8 * 2)))

/-- The frames that a member write takes from a record's entry for a range (R311). -/
def entryFrames (r : JRec) (index lba n : Nat) : Option (List Nat) :=
  match r.entries.find? fun e => e.index == index && decide (e.lba ≤ lba) && decide (lba + n ≤ e.lba + e.frames.length) with
  | some e => some ((e.frames.drop (lba - e.lba)).take n)
  | none => none

/-- Source frames of an MWRITE, or the failed check of the interlocking (R311, R331). -/
def interlock (s : State) (cx : Nat) (c : Ctx) (p : MPort) (gno stripe index lba n pos : Nat) :
    Except Nat (List Nat × Option Nat) :=
  if !holds s cx gno stripe then .error 1
  else if lba < Config.dataStart then
    if !labelWriteOk c p gno stripe lba n then .error 2
    else match framesAt (handleOf c 15) pos n with
      | none => .error 3
      | some frs => if frs.all fun fr => (frameOf s fr).prot then .ok (frs, none) else .error 3
  else
    match recOf s cx gno stripe with
    | none => .error 2
    | some (ri, r) =>
      if !r.sealed then .error 2
      else match entryFrames r index lba n with
        | none => .error 2
        | some frs =>
          if frs.all fun fr => (frameOf s fr).prot && decide (0 < (frameOf s fr).pins) then .ok (frs, some ri)
          else .error 3

/-- MWRITE (R309, R311, R329): the interlocking admits it or raises INTERLOCK. A write to a member with no port
in service fails check 2's entry only when the record names no such member; one whose member has failed ends
LOST at once. -/
def execMwrite (i : Ins) (s : State) : Host.Outcome State Fault Refusal :=
  runIns i (i.modIn 0 && i.imm == 0) notMap s fun c s =>
    let rw := i.ga c
    let mw := i.gb c
    let n := wCount mw
    let t := rwTicket rw
    let stripe := (i.gd c).toNat
    let index := rwIndex rw
    match ctxGroupNo s c, ctxGroup s c with
    | some gno, some g =>
      let port := portOfMember g index
      let p := (memberPort s g index).getD {}
      match interlock s i.cx c p gno stripe index (wLba mw) n (wPos mw) with
      | .error k => fatal s i.cx .interlock k
      | .ok (frs, ri) =>
        if ticketRuns c t then startWait s i.cx (.ticketFree t)
        else
          match port with
          | some port =>
            if !(judged p.state && p.group == some gno) && !(wLba mw < Config.dataStart && p.present) then
              complete s i.cx fun c => { c with tickets := c.tickets.put t (.ended TicketEvent.lost.code) }
            else
              let cl := eclass c
              if !queueRoom s port p cl c.cluster then startWait s i.cx (.memQueue port)
              else
                let zeroes := frs.all fun fr => (frameOf s fr).zfill
                let s := frs.foldl pinFrame s
                let s := match ri with
                  | some r => updRec s r fun r => { r with entries := r.entries.map fun e =>
                      if e.index = index then { e with writing := e.writing + 1 } else e }
                  | none => s
                let m : MemCmd :=
                  { op := .write, ctx := some i.cx, ticket := t, lba := wLba mw, count := n, frames := frs,
                    issued := now s, due := after s (memTimeout s p cl true), express := cl == .express,
                    determ := false, jrec := ri.map fun r => (r, index), queue := memQueue p cl c.cluster }
                complete (countUnits (sendMem s port m zeroes) port cl n) i.cx fun c => openTicket c t
          | none => complete s i.cx fun c => { c with tickets := c.tickets.put t (.ended TicketEvent.lost.code) }
    | _, _ => fatal s i.cx .interlock 1

/-- MWAIT (R307): ALL, ANY and QUERY. A ticket that never ended has no last event: QUERY gives a free value. -/
def execMwait (i : Ins) (s : State) : Host.Outcome State Fault Refusal :=
  runIns i (i.modIn 0x1E0#9 && i.noB && i.imm == 0 && decide (i.cond < 3)) notMap s fun c s =>
    let mask := (i.ga c).truncate 32
    if i.cond = 2 then
      match c.tickets.find ((i.ga c).toNat % 32) with
      | some (.reported e) => completeD s i (BitVec.ofNat 64 e)
      | none => let (v, s) := drawFree s; completeD s i v
      | _ => completeD s i 0xFF
    else
      match waitResult c mask (i.cond == 1) with
      | some l => complete s i.cx fun c => setGreg (reportTickets c l) i.d.toNat (waitValue c l)
      | none => startWait s i.cx (.tickets mask (i.cond == 1) i.d.toNat)

end Sys2Proof.Machine
end

