-- ==== Sys2Proof/Machine/Stripe.lean ====
section
/-! DEFINITION. Stripe locks and journal instructions, Maintenance contexts, and the journal unit's recoveries
(R284, R294 to R306, R333 to R340, R386). -/

namespace Sys2Proof.Machine

/-! Maintenance contexts (R163, R241, R284) -/

/-- Code of a Maintenance work's handler in a route. -/
def workHandler (r : Route) : Work → Option Nat
  | .destage => r.destage
  | .rebuild => r.rebuild
  | .scrub => r.scrub
  | .zero => r.zero
  | .label => r.label
  | .build => r.build

/-- The lowest handler route with GROUP_MAINT whose MAP is a layout (R284). -/
def maintRoute (s : State) (layout : Nat) : Option (Nat × Route) :=
  ((s.progs.loaded.map fun p => (p.2.routes.filter fun r => !r.layout && r.groupMaint && r.map == layout).map fun r =>
      (p.1, r)).flatten).foldl (fun best x =>
    match best with
    | none => some x
    | some b => if x.2.id < b.2.id then some x else some b) none

/-- The route that runs a work for a volume or a group (R284). -/
def workRoute (s : State) (w : Work) (vol : Option Nat) (gno : Nat) : Option (Nat × Route) :=
  match w with
  | .destage => (vol.bind fun v => s.vols.find v).bind fun v => routeOf s v.route
  | .build => (s.groups.find gno).bind fun g => routeOf s g.layout
  | _ => (s.groups.find gno).bind fun g => maintRoute s g.layout

/-- A program's handler. -/
def handlerOf (s : State) (prog : Nat) (h : Option Nat) : Option HandlerEnt :=
  h.bind fun h => (s.progs.loaded.find prog).bind fun p => p.handlers[h]?

/-- Maintenance contexts in use. -/
def maintUsed (s : State) : Nat := (s.ctxs.filter fun x => x.2.kind == .maint).length

/-- The lowest free siding. -/
def freeSiding (s : State) : Option Nat :=
  let cx := Tab.gap s.ctxs 0
  if cx < Config.sidings then some cx else none

/-- Maintenance work may be created: not from the start of an entry to the end of the exit that follows, but
for the destage that W3 and W4 prepare with (R471); while unattended, the signal box creates none (R442). -/
def workAllowed (s : State) (w : Work) : Bool :=
  onW0 s && (!s.mbx.unattended || w == .destage) && (s.pwr.entry.isNone || (w == .destage && decide (3 ≤ s.pwr.entry.getD 0)))

/-- Create a Maintenance context with a descriptor; h15 is set for label work (R241, R334). None when no
siding is left for Maintenance, no route has the handler, or the ladder bars it. -/
def createWork (s : State) (w : Work) (vol : Option Nat) (gno : Nat) (desc : BitVec 512) (h15 : Tab Nat) :
    Option (Nat × State) :=
  match freeSiding s, workRoute s w vol gno with
  | some cx, some (prog, r) =>
    match handlerOf s prog (workHandler r w) with
    | none => none
    | some h =>
      if Config.maintSidings ≤ maintUsed s || !workAllowed s w then none
      else
        let (n, s) := nextSeq s
        let (r', s) := newResidence s .maintenance
        let c : Ctx :=
          { pc := BitVec.ofNat 24 h.entry, cls := .maintenance, dl := noTs, budget := h.budget,
            route := BitVec.ofNat 16 r.id, handler := BitVec.ofNat 16 ((workHandler r w).getD 0),
            cmd := desc, kind := .maint, vol := vol, group := some gno, work := some w, cluster := cx % 4,
            since := n, program := prog, bound := 0, res := r', h := if h15.isEmpty then [] else [(15, .frames h15)] }
        some (cx, { s with ctxs := s.ctxs.put cx c })
  | _, _ => none

/-- A field of n bytes of a descriptor at a context offset from 0x040 on (R333, R334, R384). -/
def dscPut (off n v : Nat) : Nat := v % 2 ^ (8 * n) * 2 ^ (8 * (off - 0x40))

/-! Replay by the journal unit (R300, R353) -/

/-- The class that replay writes carry: the highest of the lock's waiters, or Maintenance (R300). -/
def replayClass (s : State) (r : JRec) : Cls :=
  match lockOf s r.group r.stripe with
  | some l => l.waiters.foldl (fun best w =>
      match s.ctxs.find w with
      | some x => if (eclass x).code < best.code then eclass x else best
      | none => best) .maintenance
  | none => .maintenance

/-- Check 2 and 3 of R311 for the replay of an entry: the record is sealed, the range is the entry's own and lies in the data
area, and its frames are protected and pinned (R328). -/
def replayOk (s : State) (r : JRec) (e : JEntry) : Bool :=
  r.sealed && decide (Config.dataStart ≤ e.lba) &&
    e.frames.all fun fr => (frameOf s fr).prot && decide (0 < (frameOf s fr).pins)

/-- A member takes a replay write: it is in service, or rebuilt (R300, R353). -/
def takesReplay (s : State) (g : Group) (index : Nat) : Bool := inService (memberState s g index) || memberState s g index == 5

/-- Send the replay write of one entry of record i through the interlocking. -/
def replayEntry (i : Nat) (r : JRec) (g : Group) (s : State) (e : JEntry) : State :=
  match portOfMember g e.index with
  | none => s
  | some port =>
    if e.frames.isEmpty || !takesReplay s g e.index || !replayOk s r e then s
    else
      let cl := replayClass s r
      let m : MemCmd :=
        { op := .write, ctx := none, ticket := 0, lba := e.lba, count := e.frames.length, frames := e.frames, issued := now s,
          due := after s (max 1 s.mem.tmoWrite.toNat), express := cl == .express, determ := false, jrec := some (i, e.index) }
      let s := updRec (e.frames.foldl pinFrame s) i fun r => { r with entries := r.entries.map fun x =>
        if x.index = e.index then { x with writing := x.writing + 1 } else x }
      countUnits (sendMem s port m (e.frames.all fun fr => (frameOf s fr).zfill)) port cl e.frames.length

/-- The replay of a sealed record begins; with no member to write it ends at once. -/
def replayRec (s : State) (i : Nat) : State :=
  match s.journal.recs.find i with
  | none => s
  | some r =>
    let s := updRec s i fun r => { r with replaying := true }
    let s := match s.groups.find r.group with
      | some g => r.entries.foldl (replayEntry i r g) s
      | none => s
    endReplays s

/-- ORPHAN_RECORD_REPLAY (R300): once every write issued under the record has ended. -/
def execOrphanRecordReplay (g stripe : Nat) (s : State) : Host.Outcome State Fault Refusal :=
  .next (match orphanOf s g stripe with
    | some (i, r) => if writesEnded r && !r.replaying && !frozen s then replayRec s i else s
    | none => s)

/-! Lock instructions (R294 to R301) -/

/-- The group number that locks of a context name; a context with no group names no group's stripes. -/
def lockGroup (s : State) (c : Ctx) : Nat := (ctxGroupNo s c).getD 8

/-- LOCK (R294, R296, R297): granted at once when the stripe is free and an entry is at hand. DESIGN CHOICE (log entry 68): the
manual states no allowance for a lock in a bound, and any wait for a held lock is noted as LATE cause LOCK (R86). -/
def execLock (i : Ins) (s : State) : Host.Outcome State Fault Refusal :=
  runIns i (i.modIn 0 && i.noD && i.noB && i.imm == 0) notMap s fun c s =>
    let g := lockGroup s c
    let st := (i.ga c).toNat
    let held := locksHeld s i.cx
    if decide (2 ≤ held.length) || held.any fun l => decide (st ≤ l.stripe) then fatal s i.cx .order st
    else
      match lockOf s g st with
      | some _ =>
        let s := noteLate (startWait s i.cx (.lock g st)) i.cx 5
        reclass (updLock s g st fun l => { l with waiters := l.waiters ++ [i.cx] })
      | none =>
        if lockRoom s (eclass c == .express) then
          let e : LockEnt := { group := g, stripe := st, holder := some i.cx, due := after s Config.lockWatchdog }
          complete { s with locks := s.locks ++ [e] } i.cx id
        else
          let (n, s) := nextSeq s
          updCtx (startWait s i.cx (.lock g st)) i.cx fun c => { c with since := n }

/-- UNLOCK (R294, R301). -/
def execUnlock (i : Ins) (s : State) : Host.Outcome State Fault Refusal :=
  runIns i (i.modIn 0 && i.noD && i.noB && i.imm == 0) notMap s fun c s =>
    let g := lockGroup s c
    let st := (i.ga c).toNat
    let s := complete s i.cx id
    if !holds s i.cx g st then s
    else
      match recOf s i.cx g st with
      | some (ri, r) =>
        if r.sealed then updLock s g st fun l => { l with deferred := true }
        else passLock (dropRec s ri) g st
      | none => passLock s g st

/-- Column permutation of a group (R230); dp-rotate has none of its own. -/
def groupSigma (g : Group) (c : Nat) : Nat :=
  match layoutKind g.layout with
  | .rotate => c
  | _ => g.geom.sigma c

/-- Spare home of the strip of a stripe that a member index holds (R233, R295, R385). -/
def spareHome (s : State) (g : Group) (stripe index : Nat) : Option Nat :=
  if memberState s g index = 5 then some index
  else
    (List.range g.geom.m).findSome? fun i =>
      let (row, m) := basePlace g stripe i
      let col := baseColumn g stripe i
      if (homeChain g row col 8 m).contains index then
        (entryOf g index).bind fun x => (homeSlot g row x.1 col).map fun k => spareMember g row k
      else none

/-- The value of a PERM selector (R295); none for an argument out of range. -/
def permValue (s : State) (gno : Nat) (g : Group) (sel a b : Nat) : Option Nat :=
  if sel = 0 then (if a < g.n then some (groupSigma g a) else none)
  else if sel = 1 then (List.range g.n).find? fun c => groupSigma g c == a
  else if sel = 2 then
    (if a < g.n then some (match entryOf g a with
      | some (_, e) => e.watermark
      | none => 0) else none)
  else if sel = 3 then (if b < g.n then spareHome s g a b else none)
  else if sel = 4 then (if a < g.n then some (memberState s g a + bit (memberInPoss s g a) 8) else none)
  else some (bit (isLost s gno a) 0)

/-- PERM (R294, R295). -/
def execPerm (i : Ins) (s : State) : Host.Outcome State Fault Refusal :=
  runIns i (i.modIn 0 && i.immIn 4 && decide (i.imm.toNat < 6)) anyKind s fun c s =>
    match ctxGroupNo s c, ctxGroup s c with
    | some gno, some g =>
      completeD s i (match permValue s gno g i.imm.toNat (i.ga c).toNat (i.gb c).toNat with
        | some v => BitVec.ofNat 64 v
        | none => BitVec.allOnes 64)
    | _, _ => completeD s i (BitVec.allOnes 64)

/-! Journal instructions (R302 to R306) -/

/-- JOPEN (R302, R303, R336). -/
def execJopen (i : Ins) (s : State) : Host.Outcome State Fault Refusal :=
  runIns i (i.modIn 0 && i.noB && i.imm == 0) notMap s fun c s =>
    let g := lockGroup s c
    let st := (i.ga c).toNat
    if !holds s i.cx g st then completeD s i 1
    else if (recOf s i.cx g st).isSome || decide (2 ≤ (recsOf s i.cx).length) then completeD s i 2
    else if Config.journalRecords ≤ recsUsed s then startWait s i.cx .record
    else
      let r : JRec :=
        { group := g, stripe := st, generation := s.journal.nextGen, vol := c.vol, ctx := some i.cx, siding := i.cx, openTs := now s }
      let s := (addRec s r).2
      completeD { s with journal := { s.journal with nextGen := s.journal.nextGen + 1 } } i 0

/-- The frames of a JADD, none when the entry is refused (R303). -/
def jaddFrames (s : State) (i : Ins) (c : Ctx) (g : Nat) : Option (Nat × JRec × List Nat) :=
  let st := (i.ga c).toNat
  let mw := i.gb c
  let idx := (i.gd c).toNat
  match recOf s i.cx g st, ctxGroup s c with
  | some (ri, r), some gr =>
    if holds s i.cx g st && !r.sealed && decide (idx < gr.n) && !r.entries.any (fun e => e.index == idx) &&
        decide (Config.dataStart ≤ wLba mw) && inOneRow gr (wLba mw) (wCount mw)
    then (framesAt (handleOf c (i.immBits 0 4)) (wPos mw) (wCount mw)).map fun frs => (ri, r, frs)
    else none
  | _, _ => none

/-- JADD (R302, R303): waits when a continuation record is needed and none is free. -/
def execJadd (i : Ins) (s : State) : Host.Outcome State Fault Refusal :=
  runIns i (i.modIn 0x01C#9 && i.immIn 5 && i.flagOk) notMap s fun c s =>
    match jaddFrames s i c (lockGroup s c) with
    | none => complete s i.cx fun c => setFlag c i.flag false
    | some (ri, r, frs) =>
      if r.entries.length % 6 == 0 && decide (0 < r.entries.length) && decide (Config.journalRecords ≤ recsUsed s) then
        startWait s i.cx .record
      else
        let e : JEntry := { index := (i.gd c).toNat, lba := wLba (i.gb c), frames := frs, stage := i.imm.getLsbD 4 }
        let s := frs.foldl pinFrame s
        let more := if r.entries.length % 6 == 0 && decide (0 < r.entries.length) then takeRecs (recIndices s) 1 else []
        complete (updRec s ri fun r => { r with entries := r.entries ++ [e], conts := r.conts ++ more }) i.cx fun c => setFlag c i.flag true

/-- JSEAL (R302 to R304). -/
def execJseal (i : Ins) (s : State) : Host.Outcome State Fault Refusal :=
  runIns i (i.modIn 0 && i.noB && i.imm == 0) notMap s fun c s =>
    let g := lockGroup s c
    let st := (i.ga c).toNat
    match recOf s i.cx g st with
    | none => completeD s i 4
    | some (ri, r) =>
      if r.sealed || r.entries.isEmpty then completeD s i 4
      else
        let frs := (r.entries.map fun e => e.frames).flatten
        if !frs.all fun fr => (frameOf s fr).prot then completeD s i 3
        else
          let s := frs.foldl (fun s fr => updFrame s fr fun x => { x with rdonly := true }) s
          let t := now s
          let r := { r with sealed := true, sealTs := t, echoed := true }
          let s := updRec s ri fun _ => r
          completeD (queueEcho s g r.generation st false (recParts s ri r)) i 0

/-- JRETIRE (R302, R303, R305, R306, R386). -/
def execJretire (i : Ins) (s : State) : Host.Outcome State Fault Refusal :=
  runIns i (i.modIn 0 && i.immIn 1 && (i.imm.getLsbD 0 || i.noB)) notMap s fun c s =>
    let g := lockGroup s c
    let st := (i.ga c).toNat
    let wm := if i.imm.getLsbD 0 then some (fieldOf (i.gb c) 0 8, fieldOf (i.gb c) 8 56) else none
    if (recOf s i.cx g st).isNone then completeD s i 4
    else if retireReady s i.cx g st wm then
      let (v, s) := doRetire s i.cx g st wm
      completeD s i (BitVec.ofNat 64 v)
    else startWait s i.cx (.retire g st wm i.d.toNat)

/-- JRETIRE_WM_RELEASE (R386): a waiting watermark retire proceeds once every registered step of a lower row has
ended. -/
def execJretireWmRelease (cx : Nat) (s : State) : Host.Outcome State Fault Refusal := .next (tryRetire s cx)

/-! Mirror re-homing (R337) -/

/-- MIRROR_REHOME (R337, R357): a member of the triple has failed or left service. -/
def execMirrorRehome (g : Nat) (s : State) : Host.Outcome State Fault Refusal :=
  .next (match s.groups.find g with
    | none => s
    | some gr =>
      if tripleDegraded s gr && !s.mbx.unattended then
        let s' := newEpoch s g
        match s'.groups.find g with
        | some gr' =>
          logErr s' 0x0A20 .journal {}
            (g + tripleCode gr.triple * 2 ^ 8 + tripleCode gr'.triple * 2 ^ 32 + gr'.epoch * 2 ^ 56)
        | none => s'
      else s)

end Sys2Proof.Machine
end

