-- ==== Sys2Proof/Machine/Rewrite.lean ====
section
/-! DEFINITION. Stripe updates of the signal box's own: the rewrites of a VERIFY, and the PI of a new volume (R14, R183, R186,
R191, R227). -/

namespace Sys2Proof.Machine

/-- The lock of a stripe under a rewrite of the signal box: it has no holder, and passes on with the last rewrite (R294, R300). -/
def lockRepair (s : State) (gno stripe : Nat) : State :=
  if (lockOf s gno stripe).isSome then s
  else { s with locks := s.locks ++ [{ group := gno, stripe := stripe, holder := none, due := noTs }] }

/-- Lanes of a stripe whose members take a rewrite. -/
def lanesTaken (s : State) (g : Group) (stripe : Nat) (fix : List (Nat × Memory)) : List (Nat × Memory) :=
  fix.filter fun x => takesReplay s g (place g stripe x.1).member

/-- One entry of a rewrite: a protected staging frame with a lane's content for its member. -/
def repairEntry (stripe o : Nat) (g : Group) (r : List JEntry × State) (x : Nat × Memory) : List JEntry × State :=
  let p := place g stripe x.1
  match allocFrame r.2 fun _ => { pins := 1, stage := true, prot := true, rdonly := true, data := x.2 } with
  | none => r
  | some (fr, s) => (r.1 ++ [{ index := p.member, lba := memberLba g p.row o, frames := [fr], stage := true }], s)

/-- Frames and records for a rewrite of n lanes are at hand: frames outside the Express reserve, and one record for six lanes
(R293, R303). -/
def rewriteRoom (s : State) (n : Nat) : Bool :=
  decide (n + Config.frameReserve ≤ framesAvail s) && decide (recsUsed s + n ≤ Config.journalRecords)

/-- The work has one rewrite more under way. -/
def rewriteBegun (s : State) (w : Rewriter) : State :=
  match w with
  | .verify cx => updCtx s cx fun c => { c with repairs := c.repairs + 1 }
  | .fill vol => updVol s vol fun v => { v with fill := v.fill.map fun x => { x with busy := true } }

/-- The volume for whose sake a stripe is rewritten. -/
def rewriteVol (s : State) (w : Rewriter) : Option Nat :=
  match w with
  | .verify cx => (s.ctxs.find cx).bind fun c => c.vol
  | .fill vol => some vol

/-- The siding that the record names: the VERIFY's context. DESIGN CHOICE (log entry 71): 0 for the writing of PI, which has none. -/
def rewriteSiding : Rewriter → Nat
  | .verify cx => cx
  | .fill _ => 0

/-- A sealed journal record holds the rewrite's pieces; the stripe is locked, the record is echoed and its writes begin (R186,
R191, R293, R296). -/
def rewriteRecord (s : State) (w : Rewriter) (gno stripe : Nat) (es : List JEntry) : State :=
  let gen := s.journal.nextGen
  let r : JRec :=
    { sealed := true, group := gno, stripe := stripe, generation := gen, vol := rewriteVol s w, ctx := none, openTs := now s,
      sealTs := now s, entries := es, echoed := true, siding := rewriteSiding w, repair := some w }
  let (i, s) := addRec s r
  let s := lockRepair { s with journal := { s.journal with nextGen := gen + 1 } } gno stripe
  let s := queueEcho s gno gen stripe false (match s.journal.recs.find i with
    | some r => recParts s i r
    | none => [])
  replayRec (rewriteBegun s w) i

/-- Rewrite lanes of a stripe at one offset: a stripe update under the stripe's lock and a sealed journal record, whose writes the
journal unit sends through the interlocking and whose retire follows them (R14, R186, R303 to R305, R328). -/
def rewriteLanes (s : State) (w : Rewriter) (gno stripe o : Nat) (g : Group) (fix : List (Nat × Memory)) : State :=
  let (es, s) := (lanesTaken s g stripe fix).foldl (repairEntry stripe o g) ([], s)
  if es.isEmpty then s else rewriteRecord s w gno stripe es

/-! PI of a new volume (R183, R191) -/

/-- A PI block whose 512 records are those of blocks never written (R183, R227). -/
def piBlock : Memory :=
  { cells := (List.range Config.blockBytes).filterMap fun i =>
      let b := piByte piNone (i % 8)
      if b = 0 then none else some (i, b) }

/-- Lanes of a stripe of a PI extent at one offset: the data strips that are no padding hold PI blocks, and P and Q go with them
(R214, R225). -/
def fillLanes (g : Group) (stripe : Nat) : List (Nat × Memory) :=
  let ds := (List.range g.w).map fun i => if isPadding g stripe i then {} else piBlock
  (List.range (g.w + 2)).zip (ds ++ [xorFrames ds, weightedFrames ((List.range g.w).zip ds)])

/-- Block offsets in the stripes of a volume's PI extents. -/
def fillUnits (g : Group) (v : Volume) : Nat := v.piExtents.length * (g.geom.es * g.geom.b)

/-- Stripe and offset of unit k. DESIGN CHOICE (log entry 52): one offset of one stripe at a time, in the order of the extent
table. -/
def fillUnit (g : Group) (v : Volume) (k : Nat) : Nat × Nat :=
  let per := g.geom.es * g.geom.b
  (v.piExtents.getD (k / per) 0 * g.geom.es + k % per / g.geom.b, k % g.geom.b)

/-- The PI is written, or the volume is being deleted: the CREATE completes (R191). -/
def endFill (s : State) (vol : Nat) (x : PiFill) : State :=
  let s := updVol s vol fun v => { v with fill := none }
  match x.cmd with
  | some a => adminDone s a .success false
  | none => s

/-- The signal box writes the next unit of a volume's PI, as Maintenance work (R58, R191), when the stripe is not locked and
frames and records are at hand. -/
def fillStep (s : State) (vol : Nat) : State :=
  match s.vols.find vol with
  | none => s
  | some v =>
    match v.fill, s.groups.find v.group with
    | some x, some g =>
      if x.busy then s
      else if v.deleting || fillUnits g v ≤ x.next then endFill s vol x
      else if !workAllowed s .build then s
      else
        let u := fillUnit g v x.next
        if (lockOf s v.group u.1).isSome || !rewriteRoom s (g.w + 2) then s
        else rewriteLanes s (.fill vol) v.group u.1 u.2 g (fillLanes g u.1)
    | _, _ => s

end Sys2Proof.Machine
end

