-- ==== Sys2Proof/Machine/Tags.lean ====
section
/-! DEFINITION. Records of the tag area (R450 to R452) and the member profiles they hold (R364). -/

namespace Sys2Proof.Machine

/-- The 256 bytes of a tag record; one never written reads as zeros (R450). -/
def tagBytes (s : State) (rec : Nat) : List Byte := s.pwr.tags.getD rec (List.replicate 256 0)

/-- n bytes of a record at an offset as a number. -/
def tagField (s : State) (rec off n : Nat) : Nat := leNat (((tagBytes s rec).drop off).take n)

/-- TYPE of a record. -/
def tagType (s : State) (rec : Nat) : Nat := tagField s rec 0 1

/-- A write of a tag record is logged and noted for the next swap (R104, R452, R459; log entry 20). -/
def noteTag (s : State) (rec seq : Nat) : State :=
  rbChange (emit (logErr s 0x0D10 .alwaysOn {} (rec + seq * 2 ^ 8)) (.tagWrite rec))

/-- A record in force after a write: SEQ raised, CRC set, the write counted (R451, R452). -/
def tagStore (s : State) (rec : Nat) (bs : List Byte) : State :=
  let seq := tagField s rec 4 4 + 1
  let b := splice (bs.take 0xFC) 4 (leBytes 4 seq)
  let b := b ++ leBytes 4 (crc32 b).toNat
  let n := s.pwr.tagCount.getD rec 0 + 1
  noteTag { s with pwr := { s.pwr with
      tags := s.pwr.tags.put rec b, tagCount := s.pwr.tagCount.put rec (min n 100000),
      tagWorn := if 100000 ≤ n then s.pwr.tagWorn ||| BitVec.ofNat 16 (2 ^ rec) else s.pwr.tagWorn } } rec seq

/-- The profile entries as record and offset (R451). -/
def profileSlots : List (Nat × Nat) :=
  ([3, 4, 5].map fun r => (List.range 4).map fun k => (r, 0x10 + 56 * k)).flatten

/-- Model number of a profile entry. -/
def profileModel (s : State) (x : Nat × Nat) : List Byte := ((tagBytes s x.1).drop x.2).take 40

/-- The entry whose model number matches (R364). -/
def profileOf (s : State) (model : List Byte) : Option (Nat × Nat) :=
  profileSlots.find? fun x => tagType s x.1 == 4 && profileModel s x == model

/-- The first empty profile entry (R451). -/
def profileFree (s : State) : Option (Nat × Nat) :=
  profileSlots.find? fun x => tagType s x.1 == 0 || (tagType s x.1 == 4 && (profileModel s x).all (· == 0))

/-- Why a write of a record is refused in a state that allows writes (R452). -/
def tagRefusal (s : State) (rec : Nat) : Option Status :=
  if s.pwr.nvInhibit then some .nvInhibited else if s.pwr.tagWorn.getLsbD rec then some .invalidField else none

/-- A refusal of a write of a record, with its log entry when VAUX is the reason (R452, R465). -/
def tagRefused (s : State) (st : Status) : State := if st == .nvInhibited then logErr s 0x0E12 .alwaysOn {} 1 else s

/-- Store a profile, or the status of a refusal: no entry is free for it, or its record takes no write (R451,
R452). -/
def storeProfile (s : State) (model : List Byte) (lat rate : Nat) : Status × State :=
  match (profileOf s model).orElse fun _ => profileFree s with
  | none => (.invalidField, s)
  | some x =>
    match tagRefusal s x.1 with
    | some st => (st, tagRefused s st)
    | none =>
      let b := splice (tagBytes s x.1) 0 ([4, 1] ++ leBytes 2 (4 * 56))
      (.success, tagStore s x.1 (splice b x.2 (model ++ leBytes 4 lat ++ leBytes 4 rate ++ leBytes 8 0)))

end Sys2Proof.Machine
end

