-- ==== Sys2Proof/Machine/Groups.lean ====
section
/-! DEFINITION. Group assembly, adoption and repair from the mirror, zeroing, and the creation of Maintenance
work (R193, R195, R236, R333, R334, R340, R383 to R387, R392 to R397, R512). -/

namespace Sys2Proof.Machine

/-- Programs' images: one has the given SHA-384 (R394). -/
def layoutLoaded (s : State) (hash : List Byte) : Bool := s.progs.loaded.any fun p => p.2.hash == hash

/-- A vault image of this part that can be used names a group (R395). -/
def imageNames (s : State) (gid : Nat) : Bool :=
  (s.vlt.areaA.usable && s.vlt.areaA.groupIds.contains gid) ||
    (s.vlt.areaB.usable && s.vlt.areaB.groupIds.contains gid)

/-- Two labels describe the same geometry, SEED and layout (R232). -/
def sameGeometry (a b : LabelFound) : Bool :=
  a.n == b.n && a.w == b.w && a.stripLog2 == b.stripLog2 && a.spare == b.spare && a.layout == b.layout &&
    a.seed == b.seed && a.extents == b.extents && a.rows == b.rows && a.layoutHash == b.layoutHash

/-- Labels of members that may join a group, by port (R394). -/
def labelPool (s : State) : List LabelFound :=
  s.mports.filterMap fun x =>
    if x.2.present && !x.2.contained && !x.2.powerOff && x.2.group.isNone && (x.2.state == 1 || x.2.state == 4) then
      x.2.label.map fun l => { l with port := x.1 }
    else none

/-- The reference label: the highest GENERATION (R394 step 1). -/
def refLabel : List LabelFound → Option LabelFound
  | [] => none
  | l :: ls => some (ls.foldl (fun b x => if b.generation < x.generation then x else b) l)

/-- Labels kept after step 2 of R394: same geometry, not retired, one for each index. -/
def keptLabels (ref : LabelFound) (ls : List LabelFound) : List LabelFound :=
  let ok := ls.filter fun l => sameGeometry ref l && l.mstate != 2
  ok.filter fun l => !ok.any fun x => x.index == l.index &&
    (decide (l.generation < x.generation) || (x.generation == l.generation && decide (x.port < l.port)))

/-- Entries of a label's FAIL_HIST by position. -/
def labelHistory (l : LabelFound) : Tab FailEnt :=
  ((List.range l.failHist.length).zip l.failHist).filterMap fun x =>
    x.2.map fun e => (x.1, { index := e.1, watermark := e.2, ord := x.1 })

/-- A member returns as a replacement being rebuilt (R394 step 3). -/
def returnsRebuilding (ref l : LabelFound) : Bool :=
  l.generation == ref.generation && l.mstate == 1 && (labelHistory ref).any fun e => e.2.index == l.index

/-- A member with its label comes back failed (R394 step 3). -/
def returnsFailed (ref l : LabelFound) : Bool :=
  !returnsRebuilding ref l &&
    (decide (l.generation < ref.generation) || (labelHistory ref).any fun e => e.2.index == l.index)

/-- The spare home map that assembly uses (R512). -/
def labelHomes (ref : LabelFound) (ls : List LabelFound) : Tab Home :=
  let maps := ls.filterMap fun l => l.homes.bind fun h => if h.1 ≤ ref.generation + 1 then some h else none
  match maps with
  | [] => []
  | m :: ms =>
    let best := ms.foldl (fun b x => if b.1 < x.1 then x else b) m
    let hist := labelHistory ref
    best.2.foldl (fun t (row, slot, pos, col) =>
      match hist.find pos with
      | some e =>
        if ls.any fun l => l.index == e.index && returnsRebuilding ref l then t
        else t.put (4 * row + slot) { pos := pos, col := col }
      | none => t) []

/-- The mirror header in force: the highest EPOCH (R338, R340). -/
def labelMirror (ls : List LabelFound) : Option (Nat × (Nat × Nat × Nat) × Bool) :=
  (ls.filterMap fun l => l.mirror).foldl (fun b x =>
    match b with
    | none => some x
    | some y => if y.1 < x.1 then some x else b) none

/-- Lost stripes and poison marks of the members whose mirror header has the highest EPOCH (R391). -/
def labelMarks (ls : List LabelFound) : List LabelFound :=
  match labelMirror ls with
  | none => []
  | some m => ls.filter fun l => match l.mirror with
      | some x => x.1 == m.1 && (l.index == x.2.1.1 || l.index == x.2.1.2.1 || l.index == x.2.1.2.2)
      | none => false

/-- Merge marks into the lost-stripe map and the poison list. -/
def mergeMarks (s : State) (gno : Nat) (ls : List LabelFound) : State :=
  (labelMarks ls).foldl (fun s l =>
    let s := l.lost.foldl (fun s (st, cause, vol, er, ts) =>
      if isLost s gno st then s
      else
        let x : Lost := { group := gno, stripe := st, cause := cause, vol := vol, erased := BitVec.ofNat 32 er, ts := ts }
        { s with mem := { s.mem with lost := insertLost x s.mem.lost } }) s
    l.poison.foldl (fun s x =>
      if inPoisonList s x.1 x.2 then s
      else updCache s fun c => { c with poisonList := c.poisonList ++ [x] }) s) s

/-- Key under which a group is held: its number while that is free, else a key from 8 on until ADOPT. -/
def groupKey (s : State) (num : Nat) : Nat :=
  if (s.groups.find num).isNone then num else Tab.gap s.groups 8

/-- Put the kept members into their group with their states (R394 step 3). -/
def placeMembers (s : State) (gno : Nat) (ref : LabelFound) (ls : List LabelFound) : State :=
  ls.foldl (fun s l =>
    updMport s l.port fun p =>
      { p with group := some gno, index := l.index,
               state := if returnsRebuilding ref l then 5 else if returnsFailed ref l then 4 else 2 }) s

/-- Failed indices that have no entry in the reference FAIL_HIST (R394 step 3). -/
def newFailures (ref : LabelFound) (ls : List LabelFound) : List Nat :=
  (List.range ref.n).filter fun i =>
    !(labelHistory ref).any (fun e => e.2.index == i) &&
      (match ls.find? fun l => l.index == i with
        | none => true
        | some l => returnsFailed ref l)

/-- The judgement of R394 step 4 on an assembled table entry. -/
def judgeGroup (s : State) (gno : Nat) (num : Nat) (clean : Bool) (g : Group) : Assembly :=
  if 2 < outF g then .short
  else if !layoutLoaded s g.layoutHash then .waitLayout
  else if gno != num || !(clean || imageNames s g.groupId) then .foreign
  else .assembled

/-- Assemble the members of one GROUP_ID (R394). -/
def assembleOne (s : State) (gid : Nat) : State :=
  let pool := (labelPool s).filter fun l => l.groupId == gid
  match refLabel pool with
  | none => s
  | some ref =>
    let ls := keptLabels ref pool
    let key := groupKey s ref.group
    let mir := labelMirror ls
    let g : Group :=
      { n := ref.n, w := ref.w, stripLog2 := ref.stripLog2, spare := ref.spare, layout := ref.layout,
        seed := BitVec.ofNat 32 ref.seed, groupId := gid, createTs := ref.createTs, generation := ref.generation,
        rows := ref.rows, extents := ref.extents, layoutHash := ref.layoutHash,
        members := ls.foldl (fun t l => t.put l.index l.port) [],
        history := labelHistory ref, homes := labelHomes ref ls, used := ref.extentMap,
        zeroFrom := ref.extents, zeroPlan := ref.extents,
        epoch := (mir.map fun m => m.1).getD 0, triple := (mir.map fun m => m.2.1).getD (0, 1, 2) }
    let s := placeMembers { s with groups := s.groups.put key g } key ref ls
    let s := updGroup s key fun g => (newFailures ref ls).foldl (fun g i => addFailure s g i) g
    let s := updGroup s key fun g =>
      { g with mirrorDegraded := tripleDegraded s g,
               clean := (mir.map fun m => m.2.2).getD false,
               assembly := judgeGroup s key ref.group ((mir.map fun m => m.2.2).getD false) g }
    let a := ((s.groups.find key).map fun g => g.assembly.code).getD 0
    let s := mergeMarks s key ls
    rbChange (logErr s 0x0B30 .signalBox {} (key + a * 2 ^ 8))

/-- GROUP_IDs of a list of labels, each once. -/
def groupIdsOf (ls : List LabelFound) : List Nat := (ls.map fun l => l.groupId).eraseDups

/-- Judge the groups that wait again: SHORT ones after a bring-up, WAIT_LAYOUT ones after a load (R394). Their
members go back to the pool first. -/
def reassemble (s : State) (which : Assembly) : State :=
  let gs := s.groups.filter fun x => x.2.assembly == which
  let s := gs.foldl (fun s x =>
    let s := { s with mports := s.mports.mapVal fun _ p =>
      if p.group == some x.1 then { p with group := none, state := if p.present then 1 else 0 } else p }
    { s with groups := s.groups.del x.1 }) s
  (groupIdsOf (labelPool s)).foldl (fun s gid =>
    if s.groups.any fun x => x.2.groupId == gid then s else assembleOne s gid) s

/-- Assemble every group that the pool of labels names and that is not held yet. -/
def assembleAll (s : State) : State :=
  (groupIdsOf (labelPool s)).foldl (fun s gid =>
    if s.groups.any fun x => x.2.groupId == gid then s else assembleOne s gid) s

/-- Volumes of a group. -/
def groupVols (s : State) (gno : Nat) : List Nat := Tab.keys (s.vols.filter fun v => v.2.group == gno)

/-- Steps 2 and 3 of R340: stripes with open intent are marked for resync; unless CLEAN, the whole group is to be
scrubbed, and every volume gets a whole-volume deferred error. -/
def repairGroup (s : State) (gno : Nat) (open_ : List Nat) : State :=
  match s.groups.find gno with
  | none => s
  | some g =>
    let s := open_.foldl (fun s st => markResync s gno st) s
    if g.clean then updGroup s gno fun g => { g with assembly := .assembled }
    else
      let s := (groupVols s gno).foldl (fun s v => deferErr s v gno 0 wholeVolume 2) s
      updGroup s gno fun g => { g with assembly := .assembled, scrubbing := true, repairScrub := true, scrubNext := 0, scrubAt := some (now s) }

/-- GROUP_REPAIR (R340): a group under adoption, or one whose image cannot be used. -/
def execGroupRepair (g : Nat) (open_ : List Nat) (s : State) : Host.Outcome State Fault Refusal :=
  .next (match s.groups.find g with
    | none => s
    | some gr =>
      if gr.assembly == .repairing || gr.assembly == .assembled then
        let s := rbChange (repairGroup s g open_)
        match gr.adopter with
        | some a => adminDone (updGroup s g fun g => { g with adopter := none }) a .success false
        | none => s
      else s)

/-! Zeroing (R193, R195) -/

/-- Free extents of a group in ascending order, at most n (R190). -/
def freeExtents (g : Group) : Nat → Nat → List Nat
  | 0, _ => []
  | fuel + 1, e =>
    if g.zeroFrom ≤ e then []
    else if g.used.contains e then freeExtents g fuel (e + 1) else e :: freeExtents g fuel (e + 1)

/-- Extents whose zeroing is done and below which nothing of the same batch is left become free (R193). -/
def settleZero (g : Group) : Group :=
  let ready := g.zeroing.filter fun z => z.zeroed && z.vol.isSome &&
    !g.zeroing.any fun y => y.vol.isSome && y.batch == z.batch && decide (y.extent < z.extent) && !y.zeroed
  let g := { g with used := g.used.filter (fun e => !ready.any fun z => z.extent == e),
                    zeroing := g.zeroing.filter fun z => !ready.any fun y => y == z }
  let start := g.zeroFrom
  let rec up : Nat → Nat → Nat
    | 0, e => e
    | n + 1, e => if g.zeroing.any fun z => z.vol.isNone && z.extent == e && z.zeroed then up n (e + 1) else e
  let top := up g.zeroing.length start
  { g with zeroFrom := top, zeroing := g.zeroing.filter fun z => !(z.vol.isNone && decide (z.extent < top)) }

/-- The zeroing work of an extent has ended (R193). -/
def extentZeroed (s : State) (gno e : Nat) : State :=
  updGroup s gno fun g =>
    settleZero { g with zeroing := g.zeroing.map fun z => if z.extent = e then { z with zeroed := true } else z }

/-- A context already zeroes an extent. -/
def zeroRunning (s : State) (gno e : Nat) : Bool :=
  s.ctxs.any fun x => x.2.work == some .zero && x.2.group == some gno && fieldOf x.2.cmd (8 * 0x0C) 32 == e

/-- The next extent to zero: of the lowest deletion, else of a group whose labels are written (R193, R195). -/
def nextZero (s : State) (gno : Nat) (g : Group) : Option (ZeroWork × Bool) :=
  match g.zeroing.find? fun z => !z.zeroed && !zeroRunning s gno z.extent with
  | some z => some (z, false)
  | none => if g.creator.isNone && decide (g.zeroPlan < g.extents) then some ({ extent := g.zeroPlan, vol := none }, true) else none

/-! Destage (R62, R217, R316, R333) -/

/-- Data lanes of a stripe that hold a dirty block, as DSC_DIRTY. -/
def dirtyLanes (s : State) (gno : Nat) (g : Group) (stripe : Nat) : Nat :=
  ((List.range g.w).map fun i =>
    bit ((List.range g.geom.b).any fun o => match blockOf s gno g stripe i o with
      | some x => (loneDirty s x).isSome
      | none => false) i).sum

/-- Every data block of a stripe is dirty and resident (R333). -/
def allDirty (s : State) (gno : Nat) (g : Group) (stripe : Nat) : Bool :=
  let bs := stripeBlocks s gno g stripe
  !bs.isEmpty && bs.all fun x => (loneDirty s x).isSome

/-- A stripe has an erasure by member failure (R219). -/
def stripeErased (s : State) (g : Group) (stripe : Nat) : Bool :=
  (List.range g.geom.m).any fun i =>
    let p := place g stripe i
    match memberPort s g p.member with
    | some mp => readFailed g mp (memberLba g p.row 0)
    | none => true

/-- Destage age in cycles of a running mode (R62). -/
def destageAge (s : State) (gno : Nat) : Nat := if (s.adm.groupMode.getD gno 0 == 1 || s.adm.groupMode.getD gno 0 == 2) then 32 else 4

/-- A dirty block has been dirty for longer than the destage age. -/
def oldDirty (s : State) (gno : Nat) (x : Nat × Nat) : Bool :=
  match loneDirty s x with
  | some fr => decide (destageAge s gno < (s.tt.cycle.truncate 32 - (frameOf s fr).age).toNat)
  | none => false

/-- A FLUSH with DESTAGE waits for a block (R184). -/
def flushNames (s : State) (x : Nat × Nat) : Bool := s.ctxs.any fun c => c.2.flushWait.contains x

/-- A destage context for a run exists already. -/
def destageRunning (s : State) (gno stripe lba : Nat) : Bool :=
  s.ctxs.any fun x => x.2.work == some .destage && x.2.group == some gno &&
    fieldOf x.2.cmd 0 48 == stripe && (fieldOf x.2.cmd 64 48 == lba || x.2.cmd.getLsbD (8 * 0x12 + 1))

/-- A stripe's destage is due: old, urgent, or named by a FLUSH (R62, R184, R333). -/
def destageDue (s : State) (gno : Nat) (g : Group) (stripe : Nat) : Bool :=
  let bs := stripeBlocks s gno g stripe
  (bs.any fun x => (loneDirty s x).isSome) &&
    (urgentLevel s || bs.any fun x => oldDirty s gno x || ((loneDirty s x).isSome && flushNames s x))

/-- A destage step of a run of n + 1 blocks from a block of a volume, unless one runs there (R188, R334). -/
def destageOne (s : State) (gno stripe flags dirty v lba n : Nat) : State :=
  if destageRunning s gno stripe lba then s
  else
    let seq := ((s.groups.find gno).map fun g => g.seq).getD 0
    let d := dscPut 0x40 8 stripe + dscPut 0x48 8 lba + dscPut 0x50 2 n + dscPut 0x52 1 flags +
      dscPut 0x54 2 v + dscPut 0x58 4 dirty + dscPut 0x61 1 gno + dscPut 0x64 4 seq
    match createWork s .destage (some v) gno (BitVec.ofNat 512 d) [] with
    | some (_, s) => updGroup s gno fun g => { g with seq := g.seq + 1 }
    | none => s

/-- A destage of the dirty lanes of a stripe would write a strip on a member in possession; it waits for the possession's end, but not
past the urgent level (R217). -/
def destageWaits (s : State) (g : Group) (stripe dirty : Nat) : Bool :=
  !urgentLevel s && (List.range g.geom.m).any fun i =>
    (decide (g.w ≤ i) || dirty.testBit i) && memberInPoss s g (place g stripe i).member

/-! Rebuild (R383 to R387) -/

/-- The member and row to which a strip of a failed index is rebuilt: its replacement, or its home (R383). -/
def rebuildTarget (s : State) (g : Group) (pos index row col : Nat) : Option Nat :=
  if memberState s g index = 5 then some index
  else (homeSlot g row pos col).map fun k => spareMember g row k

/-- Base columns of the strips that an index's entry must rebuild in a row, in order (R233, R383); the columns
of dp-rotate and of an owner's layout are the lanes themselves. -/
def rebuildCols (g : Group) (pos index row : Nat) : List Nat :=
  match layoutKind g.layout with
  | .decluster => stripsOn g row index pos
  | _ => match stripeAt g index row with
    | some (_, lane) => [lane]
    | none => []

/-- Stripe and lane of the strip of a base column in a row. -/
def stripeOfCol (g : Group) (index row col : Nat) : Nat × Nat :=
  match layoutKind g.layout with
  | .decluster =>
    let t := g.geom.t
    let nt := g.n * t
    let sl := row % max 1 t * g.geom.u + col
    (row / max 1 nt * (g.n * g.geom.k) + row % max 1 nt / max 1 t * g.geom.k + sl / g.geom.m, sl % g.geom.m)
  | _ => (stripeAt g index row).getD (0, 0)

/-- Reads that rebuild plans have had the member of a lane make (R237). -/
def laneReads (g : Group) (stripe lane : Nat) : Nat := g.rbReads.getD (place g stripe lane).member 0

/-- The lane with the most reads of some lanes, the first of several. -/
def mostRead (g : Group) (stripe : Nat) : List Nat → Option Nat
  | [] => none
  | i :: t =>
    match mostRead g stripe t with
    | none => some i
    | some k => if laneReads g stripe i < laneReads g stripe k then some k else some i

/-- DSC_SKIP: the lane to leave unread, a slow member's where there is one, else the one that keeps the survivors' totals even
(R237, R376, R384). DESIGN CHOICE (log entry 71): of lanes with equal totals Q is left unread, then P, then the lowest. -/
def skipLane (s : State) (g : Group) (stripe lane : Nat) : Nat :=
  let dual := if lane = g.w + 1 then g.w else g.w + 1
  let others := ([g.w + 1, g.w] ++ List.range g.w).filter (· != lane)
  if others.any fun i =>
      (let p := place g stripe i
       match memberPort s g p.member with
       | some mp => readFailed g mp (memberLba g p.row 0)
       | none => true) then dual
  else
    let slow := others.filter fun i => memberState s g (place g stripe i).member == 3
    (mostRead g stripe (if slow.isEmpty then others else slow)).getD dual

/-- The reads of one strip's rebuild enter the survivors' totals (R237). -/
def countReads (g : Group) (stripe lane skip : Nat) : Group :=
  ((List.range g.geom.m).filter fun i => i != lane && i != skip).foldl (fun g i =>
    { g with rbReads := g.rbReads.put (place g stripe i).member (laneReads g stripe i + 1) }) g

/-- The next row that an entry's plan has not registered: at or above the watermark (R383, R386). -/
def nextRow (g : Group) (pos : Nat) (e : FailEnt) : Nat :=
  ((g.steps.filter fun x => x.pos == pos).map fun x => x.row + 1).foldl max e.watermark

/-- A rebuild step of a piece of a strip (R384). -/
def rebuildPiece (s : State) (gno pos row : Nat) (e : FailEnt) (g : Group) (target stripe lane skip o n : Nat) (last : Bool) : State :=
  let seq := ((s.groups.find gno).map fun g => g.seq).getD 0
  let d := dscPut 0x40 8 stripe + dscPut 0x48 1 lane + dscPut 0x49 1 skip + dscPut 0x4A 2 o +
    dscPut 0x4C 2 n + dscPut 0x4E 1 target + dscPut 0x4F 1 e.index + dscPut 0x50 8 (memberLba g row o) +
    dscPut 0x58 8 row + dscPut 0x60 1 (bit last 0) + dscPut 0x61 1 gno + dscPut 0x64 4 seq
  match createWork s .rebuild none gno (BitVec.ofNat 512 d) [] with
  | some (cx, s) => updGroup s gno fun g => { g with seq := g.seq + 1, steps := g.steps ++ [{ pos := pos, row := row, ctx := cx }] }
  | none => s

/-- The steps of one strip: one for each piece, with one lane left unread (R237, R383). -/
def rebuildStrip (gno pos row : Nat) (e : FailEnt) (g : Group) (lastCol : Bool) (s : State) (col : Nat) : State :=
  match rebuildTarget s g pos e.index row col with
  | none => s
  | some target =>
    let piece := max 1 (256 / g.geom.m)
    let pieces := (g.geom.b + piece - 1) / piece
    let (stripe, lane) := stripeOfCol g e.index row col
    let skip := skipLane s ((s.groups.find gno).getD g) stripe lane
    (List.range pieces).foldl (fun s k =>
      rebuildPiece s gno pos row e g target stripe lane skip (k * piece) (min piece (g.geom.b - k * piece))
        (lastCol && k + 1 == pieces)) (updGroup s gno fun g => countReads g stripe lane skip)

/-- Create the steps of one row of an entry: those of each strip, the last with DSC_LAST (R383, R384). -/
def rebuildRow (s : State) (gno pos row : Nat) (e : FailEnt) (g : Group) : State :=
  let cols := rebuildCols g pos e.index row
  cols.foldl (fun s col => rebuildStrip gno pos row e g (some col == cols.getLast?) s col) s

/-- An entry has a row to plan: its strips have spare homes, or a replacement stands (R383, R385). -/
def plannable (s : State) (g : Group) (x : Nat × FailEnt) : Bool :=
  decide (nextRow g x.1 x.2 < g.rows) && (layoutKind g.layout == .decluster || memberState s g x.2.index == 5)

/-- A step of a group's rebuild can be planned: the group is assembled, below MEM_RB_DEPTH and has a row to plan (R383). -/
def rebuildCalls (s : State) (g : Group) : Bool :=
  g.assembly == .assembled && decide (g.steps.length < s.mem.rbDepth.toNat) && g.history.any (plannable s g)

/-- A rebuild of the group runs. -/
def rebuilding (s : State) (g : Group) : Bool := !g.steps.isEmpty || g.history.any (plannable s g)

/-! The order in which Maintenance work is created (R383) -/

/-- A destage context covers a block of a stripe. -/
def destageCovers (s : State) (gno stripe lba : Nat) : Bool :=
  s.ctxs.any fun x => x.2.work == some .destage && x.2.group == some gno && fieldOf x.2.cmd 0 48 == stripe &&
    (x.2.cmd.getLsbD (8 * 0x12 + 1) ||
      decide (fieldOf x.2.cmd 64 48 ≤ lba ∧ lba < fieldOf x.2.cmd 64 48 + fieldOf x.2.cmd (8 * 0x10) 16))

/-- A destage of a dirty block is due, waits for no possession and has no context yet. -/
def destageCalls (s : State) : Bool :=
  s.cache.frames.any fun x => match x.2.key with
    | none => false
    | some (v, l) =>
      match s.vols.find v with
      | none => false
      | some vol =>
        match s.groups.find vol.group with
        | none => false
        | some g =>
          let st := (stripeOf g vol l).1
          (loneDirty s (v, l)).isSome && destageDue s vol.group g st && !destageCovers s vol.group st l &&
            !destageWaits s g st (dirtyLanes s vol.group g st)

/-- Work that the signal box creates before a rebuild step: an urgent destage (R383). -/
def beforeRebuild (s : State) : Bool := urgentLevel s && destageCalls s

/-- Work that it creates before a destage: a rebuild step, unless the destage is urgent. -/
def beforeDestage (s : State) : Bool := !urgentLevel s && s.groups.any fun x => rebuildCalls s x.2

/-- Work that it creates before an extent's zeroing: a destage or a rebuild step. -/
def beforeZero (s : State) : Bool := destageCalls s || s.groups.any fun x => rebuildCalls s x.2

/-- Work that it creates before a scrub step: any other. -/
def beforeScrub (s : State) : Bool := beforeZero s || s.groups.any fun x => (nextZero s x.1 x.2).isSome

/-- REBUILD_STEP_CREATE (R383, R386): the next row of the entry that failed first of those with one to rebuild. -/
def execRebuildStepCreate (g : Nat) (s : State) : Host.Outcome State Fault Refusal :=
  .next (match s.groups.find g with
    | none => s
    | some gr =>
      if !rebuildCalls s gr || beforeRebuild s then s
      else
        match (byFailure gr).find? (plannable s gr) with
        | none => s
        | some (pos, e) =>
          let row := passEmpty gr e.index pos (cycleRowsOf gr) (nextRow gr pos e)
          let s := if gr.steps.isEmpty && e.watermark == 0 then
              logErr s 0x0B20 .signalBox {} (g + e.index * 2 ^ 8 + e.watermark * 2 ^ 16) else s
          rebuildRow s g pos row e gr)

/-- DESTAGE_CREATE (R217, R333): one descriptor with FULL, or one for each run of dirty blocks within a strip. -/
def destageCreate (s : State) (gno stripe : Nat) : State :=
  match s.groups.find gno with
  | none => s
  | some g =>
    if !destageDue s gno g stripe || beforeDestage s || destageWaits s g stripe (dirtyLanes s gno g stripe) then s
    else
      let full := allDirty s gno g stripe && decide (g.geom.m * g.geom.b ≤ 256)
      let flags := bit (stripeErased s g stripe) 0 + bit full 1 + bit (urgentLevel s) 2
      let dirty := dirtyLanes s gno g stripe
      let bs := stripeBlocks s gno g stripe
      if full then
        match bs with
        | (v, l) :: _ => destageOne s gno stripe flags dirty v l 0
        | [] => s
      else
        (List.range g.w).foldl (fun s i =>
          (runsOf ((List.range g.geom.b).filterMap fun o => (blockOf s gno g stripe i o).bind fun x =>
            if (loneDirty s x).isSome then some x else none)).foldl (fun s r => destageOne s gno stripe flags dirty r.1 r.2.1 r.2.2) s) s

/-- DESTAGE_CREATE. -/
def execDestageCreate (g stripe : Nat) (s : State) : Host.Outcome State Fault Refusal := .next (destageCreate s g stripe)

/-- ZEROING_CREATE (R193, R195, R334): the next extent's zeroing context. -/
def execZeroingCreate (g : Nat) (s : State) : Host.Outcome State Fault Refusal :=
  .next (match s.groups.find g with
    | none => s
    | some gr =>
      match if beforeZero s then none else nextZero s g gr with
      | none => s
      | some (z, fresh) =>
        let d := dscPut 0x40 8 (z.extent * gr.geom.es) + dscPut 0x48 4 gr.geom.es + dscPut 0x4C 4 z.extent +
          dscPut 0x50 2 (z.vol.getD 0xFFFF) + dscPut 0x61 1 g + dscPut 0x64 4 gr.seq
        match createWork s .zero z.vol g (BitVec.ofNat 512 d) [] with
        | none => s
        | some (_, s) =>
          updGroup s g fun g =>
            { g with seq := g.seq + 1, zeroPlan := if fresh then g.zeroPlan + 1 else g.zeroPlan,
                     zeroing := if fresh then g.zeroing ++ [z] else g.zeroing })

/-! Scrub (R378, R392, R393) -/

/-- A stripe has a strip on a member in possession. -/
def touchesPoss (s : State) (g : Group) (stripe : Nat) : Bool :=
  (List.range g.geom.m).any fun i => memberInPoss s g (place g stripe i).member

/-- Stripes of a group in use (R225). -/
def stripesOf (g : Group) : Nat := g.extents * g.geom.es

/-- A scrub pass of an assembled group starts; one that runs goes on (R392). -/
def scrubStart (s : State) (gno : Nat) : State :=
  updGroup s gno fun g =>
    if g.assembly == .assembled && !g.scrubbing then { g with scrubbing := true, scrubNext := 0, scrubAt := some (now s) } else g

/-- Cycles since a scrub pass's start. -/
def cyclesSince (s : State) (t : Word) : Nat := (s.tt.cycle - tsCycle t).toNat

/-- A pass is due: MEM_SCRUB_PERIOD cycles have passed since the latest start (R392). DESIGN CHOICE (log entry 71): a group's
first pass is due at once. -/
def scrubDue (s : State) (g : Group) : Bool :=
  match g.scrubAt with
  | some t => decide (s.mem.scrubPeriod.toNat ≤ cyclesSince s t)
  | none => true

/-- The next step of a pass is due: the steps are spread evenly over MEM_SCRUB_PERIOD (R392). DESIGN CHOICE (log entry 71): the
scrub of a group repair (R340) is not spread. -/
def scrubPaced (s : State) (g : Group) : Bool :=
  g.repairScrub || match g.scrubAt with
    | some t => decide (g.scrubNext * s.mem.scrubPeriod.toNat ≤ cyclesSince s t * stripesOf g)
    | none => true

/-- SCRUB_PASS_START. -/
def execScrubPassStart (g : Nat) (s : State) : Host.Outcome State Fault Refusal :=
  .next (match s.groups.find g with
    | none => s
    | some gr => if s.mem.scrubEn && scrubDue s gr then scrubStart s g else s)

/-- Create the scrub steps of one stripe, in pieces of the blocks that fit (R393). -/
def scrubStripe (s : State) (gno stripe : Nat) (g : Group) (resync : Bool) : State :=
  let piece := max 1 (256 / g.geom.m)
  (List.range ((g.geom.b + piece - 1) / piece)).foldl (fun s k =>
    let o := k * piece
    let d := dscPut 0x40 8 stripe + dscPut 0x4A 2 o + dscPut 0x4C 2 (min piece (g.geom.b - o)) +
      dscPut 0x60 1 (bit resync 0) + dscPut 0x61 1 gno
    match createWork s .scrub none gno (BitVec.ofNat 512 d) [] with
    | some (_, s) => s
    | none => s) s

/-- A scrub context of the group runs. -/
def scrubRuns (s : State) (gno : Nat) : Bool := s.ctxs.any fun x => x.2.work == some .scrub && x.2.group == some gno

/-- The next resync stripe that no scrub context repairs and that touches no member in possession. -/
def nextResync (s : State) (gno : Nat) (g : Group) : Option Nat :=
  g.resync.find? fun st => !touchesPoss s g st &&
    !s.ctxs.any fun x => x.2.work == some .scrub && x.2.group == some gno && fieldOf x.2.cmd 0 48 == st

/-- The scrub step of one stripe, or its move to the end of the pass while a member of it is in possession (R392). -/
def scrubOne (s : State) (gno stripe : Nat) (g : Group) : State :=
  if touchesPoss s g stripe then updGroup s gno fun g => { g with scrubLate := g.scrubLate ++ [stripe] }
  else scrubStripe s gno stripe g false

/-- The rest of a scrub: the stripes moved to its end, then the end of the pass when its last step has ended. -/
def scrubTail (s : State) (gno : Nat) (g : Group) : State :=
  match g.scrubLate with
  | st :: rest => scrubOne (updGroup s gno fun g => { g with scrubLate := rest }) gno st g
  | [] => if g.scrubbing && !scrubRuns s gno then updGroup s gno fun g => { g with scrubbing := false, repairScrub := false } else s

/-- SCRUB_STEP_CREATE (R378, R392, R393): resync stripes first, then those queued by media events, then the pass
in ascending order; a stripe on a member in possession goes to the end of the pass. -/
def execScrubStepCreate (g : Nat) (s : State) : Host.Outcome State Fault Refusal :=
  .next (match s.groups.find g with
    | none => s
    | some gr =>
      if gr.assembly != .assembled || rebuilding s gr || beforeScrub s || (createWork s .scrub none g 0 []).isNone then s
      else
        match nextResync s g gr with
        | some st => scrubStripe s g st gr true
        | none =>
          match gr.scrubQueue with
          | st :: rest => scrubOne (updGroup s g fun g => { g with scrubQueue := rest }) g st gr
          | [] =>
            if !gr.scrubbing || decide (stripesOf gr ≤ gr.scrubNext) then scrubTail s g gr
            else if scrubPaced s gr then
              scrubOne (updGroup s g fun g => { g with scrubNext := g.scrubNext + 1 }) g gr.scrubNext gr
            else s)

end Sys2Proof.Machine
end

