-- ==== Sys2Proof/Machine/Admission.lean ====
section
/-! DEFINITION. The admission unit: tokens, the Express ceiling, bounds at acceptance and the decision on a
command (R60 to R89). -/

namespace Sys2Proof.Machine

/-- Change the admission unit. -/
def updAdm (s : State) (g : Adm → Adm) : State := { s with adm := g s.adm }

/-! Allotments and charged sums (R65, R73, R75) -/

/-- Allotments of an Express queue: its function and its hit, miss and write tokens. -/
structure Allot where
  func : Nat
  hit : Nat
  miss : Nat
  write : Nat
  deriving DecidableEq, Repr

/-- Allotments of an entry in force (R65). -/
def ExpQ.allot (e : ExpQ) : Allot := { func := e.func.toNat, hit := e.hit.toNat, miss := e.miss.toNat, write := e.write.toNat }

/-- Allotments that the next cycle edge gives an entry (R65). -/
def ExpQ.coming (e : ExpQ) : Allot :=
  match e.next with
  | some (h, m, w) => { func := e.func.toNat, hit := h.toNat, miss := m.toNat, write := w.toNat }
  | none => e.allot

/-- Allotments of every Express queue in force. -/
def allots (s : State) : List Allot := (Tab.vals s.adm.exp).map ExpQ.allot

/-- Allotments of every Express queue from the next cycle edge on. DESIGN CHOICE (log entry 65): a ceiling is judged against
these where a change is accepted or cut, and against those in force where R43 names them. -/
def coming (s : State) : List Allot := (Tab.vals s.adm.exp).map ExpQ.coming

/-- Allotments that count as held: those in force and those that the next edge gives (log entry 65). -/
def heldAllots (s : State) : List Allot := allots s ++ coming s

/-- An Express queue enters at the lowest free entry (R168). -/
def putExp (a : Adm) (x : ExpQ) : Adm :=
  let i := Tab.gap a.exp 0
  { a with exp := a.exp.put i x, expIdle := a.expIdle.del i }

/-- Groups to which a function's miss allotment is charged (R75). -/
def missGroups (s : State) (f : Nat) : List Nat :=
  ((s.vols.filter fun v => v.2.attached.contains f).map fun v => v.2.group).eraseDups

/-- W of a group. -/
def groupW (s : State) (g : Nat) : Nat := ((s.groups.find g).map fun x => x.w).getD 0

/-- The largest W among the groups charged (R73). -/
def missW (s : State) (f : Nat) : Nat := ((missGroups s f).map (groupW s)).foldl max 0

/-- Miss tokens of an allotment that charge anything (R75). -/
def missCharged (s : State) (a : Allot) : Nat := if (missGroups s a.func).isEmpty then 0 else a.miss

/-- Charged engine clocks (R73). -/
def sumEng (s : State) (l : List Allot) : Nat :=
  (l.map fun a => 160 * a.hit + (260 + 64 * missW s a.func) * missCharged s a + 600 * a.write).sum

/-- Charged mover units. -/
def sumMov (s : State) (l : List Allot) : Nat := (l.map fun a => a.hit + missCharged s a + a.write).sum

/-- Charged HBM units. -/
def sumHbm (s : State) (l : List Allot) : Nat :=
  (l.map fun a => a.hit + (missW s a.func + 1) * missCharged s a + 6 * a.write).sum

/-- Charged dirty write tokens. -/
def sumWrite (l : List Allot) : Nat := (l.map fun a => a.write).sum

/-- Charged member credits of a group. -/
def sumMem (s : State) (l : List Allot) (g : Nat) : Nat :=
  (l.map fun a => if (missGroups s a.func).contains g then groupW s g * a.miss else 0).sum

/-! Ceilings (R74) -/

/-- The five ceilings. -/
structure Ceil where
  eng : Nat
  mov : Nat
  hbm : Nat
  write : Nat
  mem : List (Nat × Nat)
  deriving DecidableEq, Repr

/-- r of a member for a cycle length in ns (R364). -/
def memberRate (nom : Nat) (p : MPort) : Nat := if p.profiled then p.rate.toNat * nom / 1000000000 else 0

/-- Member credits of a group (R74): a member that has been removed declares no rate. -/
def memCeil (s : State) (nom : Nat) (g : Group) : Nat :=
  let rs := g.members.filterMap fun x => match s.mports.find x.2 with
    | some p => if p.state = 0 then none else some (memberRate nom p)
    | none => none
  match rs with
  | [] => 0
  | r :: t => (g.n - 2) * t.foldl min r * (100 - s.adm.maintFloor.toNat) / 100

/-- The ceilings at a cycle length in ns. -/
def ceilings (s : State) (nom : Nat) : Ceil :=
  { eng := 24 * nom, mov := nom * 256 / 4096, hbm := nom * 1200 / 4096, write := s.vlt.budget / 2 / 262144,
    mem := (s.groups.filter fun g => decide (g.1 < 8)).map fun g => (g.1, memCeil s nom g.2) }

/-- Every charged sum is within its ceiling (R75). -/
def withinCeil (s : State) (c : Ceil) (l : List Allot) : Bool :=
  decide (sumEng s l ≤ c.eng) && decide (sumMov s l ≤ c.mov) && decide (sumHbm s l ≤ c.hbm) &&
    decide (sumWrite l ≤ c.write) && c.mem.all fun g => decide (sumMem s l g.1 ≤ g.2)

/-- The ceilings that the registers hold. -/
def ceilInForce (s : State) : Ceil :=
  { eng := s.adm.ceilEng.toNat, mov := s.adm.ceilMov.toNat, hbm := s.adm.ceilHbm.toNat, write := s.adm.ceilWrite.toNat,
    mem := s.adm.ceilMem.map fun g => (g.1, g.2.toNat) }

/-- A ratio of a ceiling to a charged sum that falls short. -/
def short (ceil sum : Nat) : List (Nat × Nat) := if ceil < sum then [(ceil, sum)] else []

/-- An allotment scaled once by the smallest of some ratios (R76). -/
def scaleBy (rs : List (Nat × Nat)) (x : Nat) : Nat := rs.foldl (fun y r => min y (x * r.1 / r.2)) x

/-- Scale every allotment that charges a resource whose ceiling falls short (R76). -/
def cutAllots (s : State) (c : Ceil) : State :=
  let l := coming s
  let wide := short c.eng (sumEng s l) ++ short c.mov (sumMov s l) ++ short c.hbm (sumHbm s l)
  let wr := short c.write (sumWrite l)
  updAdm s fun a => { a with exp := a.exp.mapVal fun _ e =>
    let x := e.coming
    let mem := (c.mem.map fun g => if (missGroups s x.func).contains g.1 then short g.2 (sumMem s l g.1) else []).flatten
    let miss := if (missGroups s x.func).isEmpty then [] else wide ++ mem
    { e with next := some (BitVec.ofNat 32 (scaleBy wide x.hit), BitVec.ofNat 32 (scaleBy miss x.miss),
                           BitVec.ofNat 32 (scaleBy (wide ++ wr) x.write)) } }

/-- The ceilings for the timetable in force enter the registers (R74). -/
def setCeil (s : State) : State :=
  let c := ceilings s s.tt.nomActive.toNat
  let t := updAdm s fun a =>
    { a with ceilEng := BitVec.ofNat 32 c.eng, ceilMov := BitVec.ofNat 32 c.mov, ceilHbm := BitVec.ofNat 32 c.hbm,
             ceilWrite := BitVec.ofNat 32 c.write, ceilMem := c.mem.map fun g => (g.1, BitVec.ofNat 32 g.2) }
  if ceilInForce t == ceilInForce s then t else rbChange t

/-- Allotments are cut from the next cycle edge on when a ceiling lies below its charged sum (R76). -/
def cutCeil (s : State) : State :=
  if withinCeil s (ceilInForce s) (coming s) then s
  else rbChange (markFresh (updAdm (cutAllots s (ceilInForce s)) fun a => { a with ceilCut := true }) .adm 0x00 1 1)

/-- Recompute the ceilings; when one falls below its charged sum, allotments are cut (R76). -/
def recomputeCeil (s : State) : State := cutCeil (setCeil s)

/-- Express dirty reserve of the allotments in force, in 4 KiB units (R71). -/
def dirtyReserve (s : State) : Nat := 64 * sumWrite (allots s)

/-! Registers with an effect (R60, R63) -/

/-- ADM_MAINT_FLOOR_WRITE (R60, R76): a value above 50 is ignored and counted in the error log. -/
def execAdmMaintFloorWrite (value : BitVec 32) (s : State) : Host.Outcome State Fault Refusal :=
  .next (
    let v := fieldOf value 0 6
    if 50 < v then undefinedField s .admission v
    else recomputeCeil (updAdm s fun a => { a with maintFloor := BitVec.ofNat 6 v }))

/-- ADM_GROUP_MODE_WRITE (R63): takes effect at the next cycle edge; the undefined value 3 is treated as 0 and logged (R11). -/
def execAdmGroupModeWrite (g : Nat) (value : BitVec 32) (s : State) : Host.Outcome State Fault Refusal :=
  .next (
    if 8 ≤ g then s
    else
      let v := fieldOf value 0 2
      let s := if v = 3 then undefinedField s .admission v else s
      updAdm s fun a => { a with groupModeNext := a.groupModeNext.put g (if v = 3 then 0#2 else BitVec.ofNat 2 v) })

/-! Tokens (R64 to R67, R162) -/

/-- The Express entry of a queue. -/
def expOf (s : State) (sqid : Nat) : Option (Nat × ExpQ) := s.adm.exp.find? fun e => e.2.sqid.toNat == sqid

/-- Change the Express entry of a queue. -/
def updExp (s : State) (sqid : Nat) (g : ExpQ → ExpQ) : State :=
  updAdm s fun a => { a with exp := a.exp.mapVal fun _ e => if e.sqid.toNat == sqid then g e else e }

/-- Standard and Bulk allotments of a function. -/
def sbOf (s : State) (f : Nat) : SbTok := s.adm.sb.getD f {}

/-- Move a live counter by tokens spent or restored; all ones is not counted (R66). -/
def moveTok (left : BitVec 32) (n : Nat) (back : Bool) : BitVec 32 :=
  if left = 0xFFFFFFFF#32 then left else if back then left + BitVec.ofNat 32 n else left - BitVec.ofNat 32 n

/-- Spend, or restore, n tokens of a kind of a queue (R64, R66, R162). -/
def moveTokens (s : State) (f sqid kind n : Nat) (back : Bool) : State :=
  let e := fun (x : BitVec 32) => if back then x + BitVec.ofNat 32 n else x - BitVec.ofNat 32 n
  if kind = 0 then updExp s sqid fun x => { x with hitLeft := e x.hitLeft }
  else if kind = 1 then updExp s sqid fun x => { x with missLeft := e x.missLeft }
  else if kind = 2 then updExp s sqid fun x => { x with writeLeft := e x.writeLeft }
  else
    updAdm s fun a =>
      let t := a.sb.getD f {}
      let t := if kind = 3 then { t with stdReadLeft := moveTok t.stdReadLeft n back }
        else if kind = 4 then { t with stdWriteLeft := moveTok t.stdWriteLeft n back }
        else if kind = 5 then { t with bulkReadLeft := moveTok t.bulkReadLeft n back }
        else { t with bulkWriteLeft := moveTok t.bulkWriteLeft n back }
      { a with sb := a.sb.put f t, poolLeft := moveTok a.poolLeft n back }

/-- The fare meter counts Express tokens spent or restored (R455). -/
def fareTokens (s : State) (vol kind n : Nat) (back : Bool) : State :=
  if kind < 3 && s.fare.running then
    updVol s vol fun v => { v with expTokens := if back then v.expTokens - BitVec.ofNat 64 n else v.expTokens + BitVec.ofNat 64 n }
  else s

/-- Spend the tokens of an admission. -/
def spendTokens (s : State) (f sqid vol kind n : Nat) : State := fareTokens (moveTokens s f sqid kind n false) vol kind n false

/-- Restore the tokens of a command that found no context (R162). -/
def restoreTokens (s : State) (f sqid vol kind n : Nat) : State := fareTokens (moveTokens s f sqid kind n true) vol kind n true

/-- Standard and Bulk capacity per cycle while throttled (R67). -/
def throttlePool (s : State) : BitVec 32 :=
  if s.adm.throttle.toNat < 256 then
    BitVec.ofNat 32 (s.adm.throttle.toNat * (s.tt.nomActive.toNat * 512 / 4096 - s.adm.ceilMov.toNat) / 256)
  else 0xFFFFFFFF#32

/-- Cycle-edge refill: pending allotments, then every counter to its allotment (R65, R67, R63). -/
def refill (s : State) : State :=
  let pool := throttlePool s
  let s := if coming s == allots s then s else rbChange s
  updAdm s fun a =>
    { a with
      exp := a.exp.mapVal fun _ e =>
        let x := match e.next with
          | some (h, m, w) => (h, m, w)
          | none => (e.hit, e.miss, e.write)
        { e with hit := x.1, miss := x.2.1, write := x.2.2, hitLeft := x.1, missLeft := x.2.1, writeLeft := x.2.2,
                 next := none }
      sb := a.sb.mapVal fun _ t =>
        let x := match t.next with
          | some y => y
          | none => (t.stdRead, t.stdWrite, t.bulkRead, t.bulkWrite)
        { t with stdRead := x.1, stdWrite := x.2.1, bulkRead := x.2.2.1, bulkWrite := x.2.2.2,
                 stdReadLeft := x.1, stdWriteLeft := x.2.1, bulkReadLeft := x.2.2.1, bulkWriteLeft := x.2.2.2, next := none }
      sbPool := pool, poolLeft := pool
      groupMode := a.groupModeNext.foldl (fun t x => t.put x.1 x.2) a.groupMode, groupModeNext := []
      deficit := [] }

/-- Clear the allotments of a function (R68). -/
def clearTokens (s : State) (f : Nat) : State :=
  let had := s.adm.exp.any fun e => e.2.func.toNat == f
  let s := updAdm s fun a => { a with exp := a.exp.filter fun e => e.2.func.toNat != f, sb := a.sb.del f }
  if had then rbChange s else s

/-! The decision (R66, R69 to R71, R77 to R79, R178) -/

/-- What admission decides. -/
inductive Verdict where
  /-- Admitted: token kind and units, bound in slots when there is one, frames to pin, counted as a degraded read. -/
  | accept (kind units : Nat) (bound : Option Nat) (pins : List Nat) (degraded : Bool)
  /-- NOT_ADMITTED with a cause (R86). -/
  | refuse (cause : Nat)
  /-- Completed with a status of its own and no token. -/
  | done (st : Status)
  /-- Left at the head of its queue (R66, R71). -/
  | wait
  deriving DecidableEq, Repr

/-- Blocks of a command as volume and block. -/
def cmdBlocks (e : BitVec 512) : List Nat := (List.range (eBlocks e)).map (eLba e + ·)

/-- Frames of a command's blocks when every one is resident. -/
def residentAll (s : State) (vol : Nat) (e : BitVec 512) : Option (List Nat) :=
  let l := (cmdBlocks e).filterMap fun b => mapped s vol b
  if l.length = eBlocks e then some l else none

/-- Stripes of a command. -/
def cmdStripes (g : Group) (v : Volume) (e : BitVec 512) : List Nat := ((cmdBlocks e).map fun b => (stripeOf g v b).1).eraseDups

/-- Largest member D of a stripe (R80). -/
def stripeD (s : State) (g : Group) (stripe : Nat) : Nat :=
  ((List.range g.geom.m).map fun i => match memberPort s g (place g stripe i).member with
    | some p => p.d.toNat
    | none => 0).foldl max 0

/-- The bound of a read miss and whether it is a degraded read: the largest among its stripes (R77, R79). -/
def missBound (s : State) (g : Group) (v : Volume) (e : BitVec 512) : Nat × Bool :=
  let f := fixedParts s
  (cmdStripes g v e).foldl (fun b st =>
    let deg := stripeErased s g st
    (max b.1 (stripeD s g st + (if deg then f.degraded else f.miss)), b.2 || deg)) (0, false)

/-- Read-hit bound of a queue kind for a number of blocks (R77). -/
def hitBound (s : State) (push : Bool) (units : Nat) : Nat :=
  let f := fixedParts s
  (if push then f.hitPush else f.hitRing) + (units - 1) * f.step

/-- The part is Vaulting or PFAIL_N has fallen. -/
def powerFailing (s : State) : Bool := s.vlt.pfail || s.adm.pfailStop || s.pwr.devState == .vaulting || s.pwr.devState == .vaulted

/-- Dirty use after more units stays within the budget less a reserve, in bytes. -/
def dirtyRoom (s : State) (units reserve : Nat) : Bool :=
  decide ((dirtyUnits s + units + reserve) * 4096 ≤ s.vlt.budget)

/-- Admission of an Express READ (R69, R371). -/
def admitRead (s : State) (q : Sq) (v : Volume) (vol : Nat) (e : BitVec 512) (x : ExpQ) : Verdict :=
  let units := eBlocks e
  match residentAll s vol e with
  | some frs =>
    if units ≤ x.hitLeft.toNat then .accept 0 units (some (hitBound s q.push units)) frs false else miss
  | none => miss
where
  /-- The read as a miss. -/
  miss : Verdict :=
    match s.groups.find v.group with
    | none => .refuse 0x46
    | some g =>
      if 2 ≤ outF g || g.repairScrub then .refuse 0x46
      else if effDepth g = 0 || groupUnscheduled s g then .refuse 0x47
      else if x.missLeft.toNat < eBlocks e then .refuse 0x48
      else
        let b := missBound s g v e
        .accept 1 (eBlocks e) (some b.1) [] b.2

/-- Admission of an Express command (R69). -/
def admitExpress (s : State) (sqid : Nat) (q : Sq) (v : Volume) (vol : Nat) (e : BitVec 512) : Verdict :=
  let x := match expOf s sqid with
    | some y => y.2
    | none => { sqid := 0, func := 0 }
  let units := eBlocks e
  let f := fixedParts s
  if 3 < eOpc e then .refuse 0x41
  else if powerFailing s then .refuse 0x42
  else if eOpc e = 3 then
    if x.hitLeft.toNat < 1 then .refuse 0x49 else .accept 0 1 (some (hitBound s q.push 1)) [] false
  else if eOpc e = 2 then
    if writeThrough s then .refuse 0x43
    else if !dirtyRoom s units 0 then .refuse 0x44
    else if x.writeLeft.toNat < units then .refuse 0x45
    else .accept 2 units (some (if eDpk e = 2 then f.inline_ else f.writeHost + (units - 1) * f.step)) [] false
  else admitRead s q v vol e x

/-- The target of a Standard command, scaled by the running mode of its group (R62, R82). -/
def stdTarget (s : State) (group : Nat) : Nat :=
  s.adm.stdTarget.toNat * (if s.adm.groupMode.getD group 0 = 1#2 then 4 else 1)

/-- Admission of a Standard or Bulk command (R66, R71, R178). -/
def admitShared (s : State) (func : Nat) (q : Sq) (v : Volume) (e : BitVec 512) : Verdict :=
  let t := sbOf s func
  let wr := eOpc e == 2 || eOpc e == 4
  let stores := wr || eOpc e == 5
  let units := if eOpc e = 1 || wr then eBlocks e else 1
  let std := q.cls == .standard
  let left := if std then (if wr then t.stdWriteLeft else t.stdReadLeft) else (if wr then t.bulkWriteLeft else t.bulkReadLeft)
  let kind := (if std then 3 else 5) + (if wr then 1 else 0)
  if powerFailing s then .wait
  else if stores && eFlag e 13 && writeThrough s then .done .writeThroughOnly
  else if stores && !writeThrough s && !dirtyRoom s (eBlocks e) (dirtyReserve s) then .wait
  else if (left != 0xFFFFFFFF#32 && decide (left.toNat < units)) ||
      (s.adm.poolLeft != 0xFFFFFFFF#32 && decide (s.adm.poolLeft.toNat < units)) then .wait
  else .accept kind units (if std then some (stdTarget s v.group) else none) [] false

/-- Admission. -/
def judgeEntry (s : State) (func sqid : Nat) (q : Sq) (v : Volume) (vol : Nat) (e : BitVec 512) : Verdict :=
  if q.cls == .express then admitExpress s sqid q v vol e else admitShared s func q v e

end Sys2Proof.Machine
end

