-- ==== Sys2Proof/Machine/Ladder.lean ====
section
/-! DEFINITION. The power ladder: target rung, entries and wakes (R72, R129, R202 to R204, R470 to R475). Commits, exit points and
restores are in Power.lean. -/

namespace Sys2Proof.Machine

/-- Change the always-on state. -/
def updPwr (s : State) (g : Power → Power) : State := { s with pwr := g s.pwr }

/-! The target rung (R129, R202, R471) -/

/-- The deepest rung that a function allows by the D-state of its PF (R129). -/
def rungAllowed (s : State) (f : Nat) : Nat :=
  match s.funcs.find (64 * portOf f) with
  | some pf => if pf.d3cold then 4 else if pf.d3 then 3 else 2
  | none => 2

/-- Some Express queue holds tokens (R72). -/
def expPin (s : State) : Bool :=
  (heldAllots s).any fun a => decide (0 < a.hit) || decide (0 < a.miss) || decide (0 < a.write)

/-- The deepest rung that SET_POWER, the functions and the allotments allow together. -/
def wantedRung (s : State) : Nat :=
  if expPin s then 0
  else ((s.funcs.filter fun x => x.2.exists_).map fun x => rungAllowed s x.1).foldl min (min 4 s.pwr.setRung.toNat)

/-- NO_LAYUP: the target is limited to W2 because no vault SSD is usable (R471). -/
def noLayup (s : State) : Bool := decide (3 ≤ wantedRung s) && !s.vlt.ok0 && !s.vlt.ok1

/-- The target rung in the present slot (R202, R471). -/
def targetRung (s : State) : Nat := if noLayup s then 2 else wantedRung s

/-! Idle time (R203) -/

/-- The ring of a function's admin commands (R174). -/
def isAdminRing (f slot : Nat) : Bool := isPF f && slot == 0

/-- A SET_POWER, which the count of idle cycles leaves out (R203). -/
def isSetPower (e : BitVec 512) : Bool := eOpc e == 0x44

/-- A submission queue holds a command that is not completed; on an admin ring, one that was fetched and is no SET_POWER. -/
def sqBusy (f slot : Nat) (q : Sq) : Bool :=
  if isAdminRing f slot then q.fetched.any fun x => !isSetPower x.entry
  else !q.announced.isEmpty || !q.fetched.isEmpty || decide (0 < q.fetching)

/-- Some queue of a function holds a command that is not completed. -/
def funcBusy (f : Nat) (fn : Func) : Bool :=
  fn.sqs.any (fun q => sqBusy f q.1 q.2) || fn.cqs.any (fun q => !q.2.ready.isEmpty) || fn.windows.any fun w => !w.2.commitWait.isEmpty

/-- An admin command other than a SET_POWER is queued, or waits for an event of its own. -/
def adminWaits (s : State) : Bool :=
  s.mbx.adminQ.any (fun a => a.port == gelbelPort || !isSetPower a.entry) || !s.adm.tokenWait.isEmpty ||
    !s.tt.waiters.isEmpty ||
    s.vols.any (fun v => v.2.fill.isSome || v.2.deleteWait.isSome || !v.2.detachWait.isEmpty) ||
    s.groups.any (fun g => g.2.adopter.isSome || g.2.creator.isSome) ||
    s.mports.any fun p => !p.2.resetWait.isEmpty || p.2.cmds.any fun c => c.2.waiter.isSome

/-- An entry of an admin ring is announced and not fetched: it may be a SET_POWER. -/
def adminComing (s : State) : Bool :=
  s.funcs.any fun f => f.2.sqs.any fun q => isAdminRing f.1 q.1 && !q.2.announced.isEmpty

/-- A command other than a SET_POWER is in flight (R203). -/
def inFlight (s : State) : Bool :=
  s.ctxs.any (fun c => c.2.kind != .maint) || s.funcs.any (fun f => funcBusy f.1 f.2) || adminWaits s

/-- Cycles of idleness that an entry asks for: a quarter when every group is Frugal (R62, R203). DESIGN CHOICE (log entry 64):
the quarter is rounded down. -/
def dwellOf (s : State) : Nat :=
  let frugal := !s.groups.isEmpty && s.groups.all fun g => s.adm.groupMode.getD g.1 0 == 2#2
  if frugal then s.pwr.setDwell.toNat / 4 else s.pwr.setDwell.toNat

/-- Count a cycle that has ended toward the dwell, or start again (R203, R204). -/
def countIdle (s : State) : State :=
  updPwr s fun p =>
    { p with idle := if p.busySeen || inFlight s then 0 else satInc p.idle, busySeen := inFlight s }

/-! Entry (R203, R471, R472) -/

/-- The latency that LTR gives for a rung, in ns: L_host, rounded up, on W0 (R129). -/
def ltrNs (s : State) (rung : Nat) : Nat :=
  if rung = 0 then (s.adm.lHost.toNat * s.tt.nomActive.toNat + slotsOf s.tt.kActive - 1) / slotsOf s.tt.kActive
  else if rung = 1 then 10000 else 100000

/-- Send LTR with the value of a rung on every port whose PF is in D0 (R129). -/
def sendLtr (s : State) (rung : Nat) : State :=
  (s.ports.filter fun p => p.2.linkUp).foldl (fun s p =>
    match s.funcs.find (64 * p.1) with
    | some pf => if pf.exists_ && !pf.d3 then emit s (.ltr p.1 (ltrNs s rung)) else s
    | none => s) s

/-- Slots of a preparation for W1 or W2 (R472). -/
def prepSlots (rung : Nat) : Nat := if rung = 1 then 656 else 3277

/-- The conditions of R471 and R203 for an entry now. DESIGN CHOICE (log entry 64): an admin entry that is announced and not fetched
puts the entry off, since it may be no SET_POWER. -/
def entryOk (s : State) (t : Nat) : Bool :=
  s.pwr.devState == .ready && !s.vlt.pfail && s.pwr.entry.isNone && !s.pwr.exiting && !s.pwr.restoring &&
    decide (s.pwr.rung < t) && s.ctxs.isEmpty && !inFlight s && !adminComing s &&
    (s.pwr.rung == 3 || (s.tt.slot == 0 && decide (dwellOf s ≤ s.pwr.idle.toNat))) &&
    s.groups.all fun g => g.2.steps.isEmpty && g.2.resync.isEmpty && g.2.assembly != .repairing &&
      g.2.history.all fun h => decide (g.2.rows ≤ h.2.watermark)

/-- Change every push queue. -/
def updPush (s : State) (h : Sq → Sq) : State :=
  { s with funcs := s.funcs.mapVal fun _ fn => { fn with sqs := fn.sqs.mapVal fun _ q => if q.push then h q else q } }

/-- Push-queue memory is copied to the staging region (R28, R472). -/
def copyPush (s : State) : State := updPush s fun q => { q with copy := some q.entries }

/-- Push-queue memory has lost its power (R470); only the copy is left. -/
def losePush (s : State) : State :=
  let n := s.freeCtr
  updPush { s with freeCtr := n + 1 } fun q => { q with entries := if q.copy.isSome then Memory.free n else q.entries }

/-- Push-queue memory holds the copy's bytes again (R472, R476). -/
def restorePush (s : State) : State := updPush s fun q => { q with entries := q.copy.getD q.entries, copy := none }

/-- RUNG_ENTRY_START (R203, R471, R472). -/
def execRungEntryStart (s : State) : Host.Outcome State Fault Refusal :=
  .next (
    let t := targetRung s
    if !entryOk s t then s
    else
      let start := now s
      let fin := after s (prepSlots t)
      let s := updPwr s fun p => { p with entry := some t, entryStart := start, entryDue := fin, busySeen := false }
      if t = 1 then sendLtr s 1
      else if t = 2 then sendLtr { copyPush s with xlate := { s.xlate with ats := [] }, locks := [] } 2
      else s)

/-- An entry is abandoned (R204, R472); the detail names the target rung and the arrival. -/
def abandonEntry (s : State) (arrival : Nat) : State :=
  match s.pwr.entry with
  | none => s
  | some t =>
    let s := markFresh (updPwr s fun p => { p with entry := none, cntAbandon := satInc p.cntAbandon, idle := 0, busySeen := true })
      .pwr 0x24 0 1
    let s := logErr (restorePush s) 0x0E02 .alwaysOn {} (t + arrival * 2 ^ 8)
    if t < 3 then sendLtr s 0 else s

/-- An exit toward W0 begins (R475). -/
def startExit (s : State) : State :=
  let t := now s
  if s.pwr.rung = 0 || s.pwr.exiting then s else updPwr s fun p => { p with exiting := true, wakeTs := t, idle := 0 }

/-- A cycle with a command in flight: the count of idle cycles starts again (R203). -/
def noteBusy (s : State) : State := updPwr s fun p => { p with busySeen := true }

/-- A command arrives: an entry is abandoned, and on W1 and W2 the part wakes (R204, R475). -/
def commandArrives (s : State) (arrival : Nat) : State :=
  let s := abandonEntry s arrival
  if s.pwr.rung < 3 then startExit s else s

/-! The commit slot (R472 to R474) -/

/-- Mirror headers of assembled groups are written CLEAN (R338, R472). -/
def cleanHeaders (s : State) : State :=
  (s.groups.filter fun g => g.2.assembly == .assembled).foldl (fun s g => writeHeader (flushEcho s g.1) g.1 true) s

/-- What HBM keeps of a frame when its rails go: retirement; the pages of windows get free content (R470). -/
def frameLost (k : Nat) (f : Frame) : Option Frame :=
  if f.retired then some { retired := true }
  else if 0 < f.pins then some { f with data := Memory.free k }
  else none

/-- The directory without the frames that W3 and W4 lose. -/
def dropFrames (s : State) : State :=
  { s with
    cache := { s.cache with frames := s.cache.frames.filterMap fun x => (frameLost s.freeCtr x.2).map fun f => (x.1, f) }
    freeCtr := s.freeCtr + 1 }

/-- Member ports that W3 or W4 puts down (R472). -/
def membersDown (s : State) (w4 : Bool) : State :=
  let up := (s.mports.filter fun p => p.2.present && !p.2.contained && !p.2.powerOff).map Prod.fst
  up.foldl (fun s p =>
    let s := updMport s p fun x =>
      { x with down := true, inPoss := false, lead := false, lowPower := false, quarantine := [], quarDet := [],
               mperstHigh := if w4 then false else x.mperstHigh, linkUp := if w4 then false else x.linkUp }
    if w4 then emit s (.mperst p false) else s) s

/-- Rails of W3 and of W4 (R460). -/
def railsOn (rung : Nat) : BitVec 9 := if rung < 3 then 0x1FF#9 else if rung = 3 then 0x03B#9 else 0#9

/-- What W3 and W4 do at the commit slot (R42, R470, R472, R473). -/
def layUp (s : State) (rung : Nat) : State :=
  let s := if s.pwr.rung < 3 then
      let s := emit (dropFrames (cleanHeaders s)) .layupImage
      { s with xlate := { s.xlate with ats := [] }, locks := [], groups := s.groups.mapVal fun _ g => { g with inPoss := [] } }
    else s
  let s := membersDown s (rung == 4)
  ttcSettle (updTt (updPwr s fun p => { p with layupDigest := true, railEn := railsOn rung, railPg := railsOn rung })
    fun t => { t with running := false })

/-- The preparation of an entry has ended (R472). -/
def prepared (s : State) (t : Nat) : Bool :=
  if t < 3 then due s s.pwr.entryDue
  else s.cache.frames.all (fun f => !f.2.dirty) && s.journal.recs.isEmpty && s.ctxs.isEmpty &&
    s.mports.all fun p => p.2.cmds.isEmpty

/-! Wakes (R475) -/

/-- A wake event takes effect on a rung (R475). -/
def wakes (rung : Nat) (e : WakeEvent) : Bool :=
  match e with
  | .hostAccess => rung < 3
  | .pfD0 => rung < 4
  | .hperst _ => true
  | .gelbel => true
  | .member => rung < 3

/-- A wake event arrives (R204, R475): it abandons an entry, and starts an exit below W0; on W3 a member event is
PME only. -/
def wakeUp (s : State) (e : WakeEvent) : State :=
  if wakes s.pwr.rung e then startExit (abandonEntry (updPwr s fun p => { p with busySeen := true }) 0xFFFF)
  else if e == .member && s.pwr.rung == 3 then raisePme s else s

/-- RUNG_WAKE (R475). -/
def execRungWake (e : WakeEvent) (s : State) : Host.Outcome State Fault Refusal :=
  .next (if s.pwr.devState == .ready then wakeUp s e else s)

end Sys2Proof.Machine
end

