-- ==== Sys2Proof/Machine/Queues.lean ====
section
/-! DEFINITION. Submission queues: indices, doorbells, polls, entry fetches and push queues (R78, R118, R131 to
R150, R168, R171). -/

namespace Sys2Proof.Machine

/-! Indices (R136 to R139) -/

/-- Entries of a submission queue (R136). -/
def Sq.size (q : Sq) : Nat := if q.push then 64 else 2 ^ q.log2

/-- A new producer value is accepted (R138). -/
def piAccepted (n pi ci p : Nat) : Bool :=
  decide (p < 2 * n) && decide (idxDist n ci pi ≤ idxDist n ci p) && decide (idxDist n ci p ≤ n)

/-- A new consumer value is accepted (R139). -/
def ciAccepted (n pi ci c : Nat) : Bool := decide (c < 2 * n) && decide (idxDist n c pi ≤ idxDist n ci pi)

/-- The ring is polled (R140). -/
def Sq.polled (q : Sq) : Bool := !q.push && q.pollInt != 0

/-- The SQ of an admin queue pair (R135). -/
def isAdminSq (f slot : Nat) : Bool := isPF f && slot == 0

/-- Device-wide identifier of a queue (R133). -/
def sqidOf (f slot : Nat) : Nat := 64 * f + slot

/-! Entry fetch (R128, R142, R468) -/

/-- The fetcher works for a queue: I/O queues in Ready, the admin pair in Recovering too, on W0 alone. -/
def fetcherRuns (s : State) (f slot : Nat) : Bool :=
  onW0 s && !s.vlt.pfail &&
    (s.pwr.devState == .ready || (s.pwr.devState == .recovering && isAdminSq f slot))

/-- Fetched and not yet dispatched entries that a ring may hold (R142). -/
def fetchCap (q : Sq) : Nat := if q.cls == .express then 64 else 16

/-- Entries of the next fetch of a ring: announced, room for them, one request, no wrap (R142). -/
def fetchCount (fn : Func) (q : Sq) : Nat :=
  min (min q.announced.length (fetchCap q - q.fetched.length))
    (min (q.size - q.ci % q.size) (min fn.mrrs 4096 / 64))

/-- Issue the next entry fetch of a ring when there is one. One request of a ring is outstanding at a time. -/
def fetch (s : State) (f slot : Nat) : State :=
  match fnOf s f, sqOf s f slot with
  | some fn, some q =>
    let n := fetchCount fn q
    if q.push || q.fetchStop || q.fetching != 0 || n = 0 || !fetcherRuns s f slot || !readOk s f (q.cls == .express)
    then s
    else
      issueRead (updSq s f slot fun q => { q with fetching := n }) f (.entry slot) (q.cls == .express)
        (q.base + 64 * (q.ci % q.size)) (64 * n)
  | _, _ => s

/-- Every queue of every function, by function and slot. -/
def allSqs (s : State) : List (Nat × Nat) := (s.funcs.map fun f => f.2.sqs.map fun q => (f.1, q.1)).flatten

/-- Fetches of the queues of a class that may be issued now (R128). -/
def fetchClass (cl : Cls) (s : State) : State :=
  ((allSqs s).filter fun x => match sqOf s x.1 x.2 with
    | some q => !q.push && q.fetching == 0 && !q.announced.isEmpty && q.cls == cl
    | none => false).foldl (fun s x => fetch s x.1 x.2) s

/-- Fetches that may be issued now, in class order (R128). -/
def fetchAll (s : State) : State := fetchClass .bulk (fetchClass .standard (fetchClass .express s))

/-- New entries of a queue become visible now (R78). -/
def announce (s : State) (f slot n : Nat) : State :=
  if n = 0 then s
  else
    let t := now s
    let s := updSq s f slot fun q => { q with announced := q.announced ++ List.replicate n { vis := t } }
    commandArrives (if isAdminRing f slot then s else noteBusy s) (f + slot * 2 ^ 16)

/-- The value of a producer index is judged: accepted, or refused with QUEUE_OVERRUN (R138). -/
def judgePi (s : State) (f slot p : Nat) (q : Sq) : State :=
  if piAccepted q.size q.pi q.ci p then
    announce (updSq s f slot fun q => { q with pi := p }) f slot (idxDist q.size q.pi p)
  else markFresh (updSq s f slot fun q => { q with overrun := true }) (.fn f) (0x204 + 8 * slot) 18 1

/-- The fetch of a ring goes out in the issue step of the present slot (R46, R143). -/
def fetchSoon (s : State) (f slot : Nat) : State := { s with fetchDue := s.fetchDue ++ [(f, slot)] }

/-- The fetches of the issue step. -/
def fetchIssue (s : State) : State := s.fetchDue.foldl (fun s x => fetch s x.1 x.2) { s with fetchDue := [] }

/-- SQ_DOORBELL (R138, R140, R143, R171). -/
def execSqDoorbell (f slot : Nat) (value : BitVec 32) (s : State) : Host.Outcome State Fault Refusal :=
  .next (match takesWrites s f with
    | none => s
    | some fn =>
      match fn.sqs.find slot with
      | none => countIgn s f
      | some q =>
        if q.push || q.polled then countIgn s f
        else fetchSoon (judgePi (updSq s f slot fun q => { q with fetchStop := false }) f slot value.toNat q) f slot)

/-- The outstanding read of a function for a purpose. -/
def readFor (s : State) (f : Nat) (p : ReadPurpose) : Option Nat :=
  (s.reads.find? fun r => r.2.func == f && r.2.purpose == p && !r.2.quarantined).map Prod.fst

/-- A tracker is free again. -/
def closeRead (s : State) (tag : Nat) : State := { s with reads := s.reads.del tag }

/-- A fetch has been received in full: SQ_CI moves past its entries (R123, R142, R145); an admin command other than a SET_POWER counts
as in flight (R203). -/
def fetchArrives (s : State) (f slot tag : Nat) (entries : List (BitVec 512)) (ep : Bool) : State :=
  let s := if ep then poisonIn s f else s
  let s := updSq (closeRead s tag) f slot fun q =>
    let new := (q.announced.take q.fetching).zip entries
    { q with
      ci := (q.ci + q.fetching) % (2 * q.size), announced := q.announced.drop q.fetching, fetching := 0,
      fetched := q.fetched ++ new.map fun x => { entry := x.2, vis := x.1.vis, held := x.1.held, poisoned := ep } }
  let s := if isAdminRing f slot && entries.any fun e => !isSetPower e then updPwr s fun p => { p with busySeen := true, idle := 0 } else s
  match sqOf s f slot with
  | some q => fetchAll (shadowWrite s f (4 * slot) q.ci)
  | none => s

/-- ENTRY_FETCH_COMPLETION (R142): it carries the entries that the fetch asked for. -/
def execEntryFetchCompletion (f slot : Nat) (entries : List (BitVec 512)) (ep : Bool) (s : State) :
    Host.Outcome State Fault Refusal :=
  .next (match readFor s f (.entry slot), sqOf s f slot with
    | some tag, some q => if entries.length = q.fetching then fetchArrives s f slot tag entries ep else s
    | _, _ => s)

/-! Polls (R141, R146) -/

/-- Issue a poll of a polled ring when one is due and may be issued. -/
def poll (s : State) (f slot : Nat) : State :=
  match fnOf s f, sqOf s f slot with
  | some fn, some q =>
    match fn.shadow with
    | none => s
    | some base =>
      if !q.polled || q.pollOut || !due s q.pollDue || !fetcherRuns s f slot || !readOk s f (q.cls == .express) then s
      else
        let t := after s q.pollInt
        issueRead (updSq s f slot fun q => { q with pollOut := true, pollDue := t }) f (.poll slot) (q.cls == .express)
          (base + 0x200 + 4 * slot) 4
  | _, _ => s

/-- SHADOW_POLL (R141). -/
def execShadowPoll (f slot : Nat) (s : State) : Host.Outcome State Fault Refusal := .next (poll s f slot)

/-- A poll completes: its value is judged, an accepted one restarts fetching, and a poll that has become due
meanwhile is issued (R126, R141). -/
def pollArrives (s : State) (f slot tag value : Nat) (ep : Bool) : State :=
  let s := if ep then poisonIn s f else s
  let s := updSq (closeRead s tag) f slot fun q => { q with pollOut := false }
  match sqOf s f slot with
  | none => s
  | some q =>
    let s := if ep then s
      else if piAccepted q.size q.pi q.ci value then
        judgePi (updSq s f slot fun q => { q with fetchStop := false }) f slot value q
      else judgePi s f slot value q
    poll (fetch s f slot) f slot

/-- POLL_COMPLETION (R141, R143). -/
def execPollCompletion (f slot : Nat) (value : BitVec 32) (s : State) : Host.Outcome State Fault Refusal :=
  .next (match readFor s f (.poll slot) with
    | some tag => pollArrives s f slot tag value.toNat false
    | none => match fnOf s f with
      | some fn => if fn.sqs.has slot then s else countIgn s f
      | none => s)

/-! Completion ring doorbell (R139) -/

/-- CQ_DOORBELL (R139, R171). -/
def execCqDoorbell (f slot : Nat) (value : BitVec 32) (s : State) : Host.Outcome State Fault Refusal :=
  .next (match takesWrites s f with
    | none => s
    | some fn =>
      match fn.cqs.find slot with
      | none => countIgn s f
      | some q =>
        if ciAccepted q.size q.pi q.ci value.toNat then updCq s f slot fun q => { q with ci := value.toNat }
        else markFresh (updCq s f slot fun q => { q with overrun := true }) (.fn f) (0x404 + 8 * slot) 2 1)

/-! Push queues (R147 to R150) -/

/-- Push-queue memory as it reads: the copy while there is one (R472, R476). -/
def Sq.pushMem (q : Sq) : Memory := q.copy.getD q.entries

/-- The entry at a position of a push queue. -/
def pushEntry (q : Sq) (pos : Nat) : BitVec 512 := BitVec.ofNat 512 (leNat (q.pushMem.bytes (64 * pos) 64))

/-- The push queue marks the inline buffer of a newly covered entry busy; a buffer already busy is a clash
(R150). -/
def coverEntry (q : Sq) (idx : Nat) : Sq :=
  let pos := idx % 64
  let e := pushEntry q pos
  if eDpk e = 2 then
    let b := eBits e 24 0 4
    if q.inlineBusy.contains b then { q with inlineClash := q.inlineClash ++ [pos] }
    else { q with inlineBusy := q.inlineBusy ++ [b], inlineFor := q.inlineFor.put b e }
  else q

/-- PUSH_DOORBELL (R78, R148, R150). -/
def execPushDoorbell (f slot : Nat) (value : BitVec 32) (s : State) : Host.Outcome State Fault Refusal :=
  .next (match takesWrites s f with
    | none => s
    | some fn =>
      match fn.sqs.find slot with
      | none => countIgn s f
      | some q =>
        if !q.push then countIgn s f
        else
          let n := if piAccepted 64 q.pi q.ci value.toNat then idxDist 64 q.pi value.toNat else 0
          let s := updSq s f slot fun q => (List.range n).foldl (fun q k => coverEntry q (q.pi + k)) q
          judgePi s f slot value.toNat q)

/-- Positions of the entries that lie between CI and PI. -/
def liveEntries (q : Sq) : List Nat := (List.range (idxDist 64 q.ci q.pi)).map fun k => (q.ci + k) % 64

/-- Entry positions that a write touches. -/
def touchedEntries (off len : Nat) : List Nat :=
  if len = 0 then [] else (List.range ((off + len - 1) / 64 + 1 - off / 64)).map (· + off / 64)

/-- Poisoned entry positions after a write (R123). -/
def entryPoisonAfter (old : List Nat) (off len : Nat) (ep : Bool) : List Nat :=
  let t := touchedEntries off len
  if ep then old ++ t.filter fun p => !old.contains p
  else old.filter fun p => !(decide (off ≤ 64 * p) && decide (64 * p + 64 ≤ off + len))

/-- PUSH_ENTRY_WRITE (R123, R147, R149). -/
def execPushEntryWrite (f slot off : Nat) (bytes : List Byte) (ep : Bool) (s : State) :
    Host.Outcome State Fault Refusal :=
  .next (match takesWrites s f with
    | none => s
    | some fn =>
      let s := if ep then poisonIn s f else s
      match fn.sqs.find slot with
      | none => countIgn s f
      | some q =>
        if !q.push || 4096 < off + bytes.length ||
            (touchedEntries off bytes.length).any fun p => (liveEntries q).contains p
        then countIgn s f
        else updSq s f slot fun q =>
          { q with entries := q.entries.writeList off bytes, copy := q.copy.map fun m => m.writeList off bytes,
                   entryPoison := entryPoisonAfter q.entryPoison off bytes.length ep })

/-- An inline buffer that holds a poisoned byte stays marked until a write without EP covers it whole (R122). -/
def inlinePoisonAfter (old : List Nat) (b off len : Nat) (ep : Bool) : List Nat :=
  if ep then (if old.contains b then old else old ++ [b])
  else if off % 4096 = 0 && 4096 ≤ len then old.filter (· != b) else old

/-- INLINE_BUFFER_WRITE (R122, R147, R150): a write lies within one buffer. -/
def execInlineBufferWrite (f slot off : Nat) (bytes : List Byte) (ep : Bool) (s : State) :
    Host.Outcome State Fault Refusal :=
  .next (match takesWrites s f with
    | none => s
    | some fn =>
      let s := if ep then poisonIn s f else s
      match fn.sqs.find slot with
      | none => countIgn s f
      | some q =>
        let b := off / 4096
        let bs := (List.range (if bytes.isEmpty then 0 else (off + bytes.length - 1) / 4096 + 1 - b)).map (· + b)
        if !q.push || 65536 < off + bytes.length || bs.any q.inlineBusy.contains then countIgn s f
        else updSq s f slot fun q =>
          bs.foldl (fun q k =>
            let a := max off (4096 * k)
            let z := min (off + bytes.length) (4096 * (k + 1))
            { q with inline_ := q.inline_.put k ((q.inline_.getD k {}).writeList (a - 4096 * k) ((bytes.drop (a - off)).take (z - a))),
                     inlinePoison := inlinePoisonAfter q.inlinePoison k (a - 4096 * k) (z - a) ep }) q)

end Sys2Proof.Machine
end

