-- ==== Sys2Proof/Machine/Labels.lean ====
section
/-! DEFINITION. The bytes of the reserved area (R235, R331, R332, R391, R512) and the label contexts that write
them (R236, R334); TRAP and HALT (R261, R262, R316, R317, R388). -/

namespace Sys2Proof.Machine

/-- MSTATE of a member's label (R235). -/
def labelMstate (s : State) (g : Group) (index : Nat) : Nat :=
  let st := memberState s g index
  if inService st then 0 else if st = 5 then 1 else 2

/-- FAIL_HIST of a group (R235). -/
def failHistBytes (g : Group) : List Byte :=
  ((List.range 8).map fun k => match g.history.find k with
    | some e => leBytes 8 (e.index + 2 ^ 8) ++ leBytes 8 e.watermark
    | none => leBytes 16 0).flatten

/-- n bytes of the allocation bits of extents from e on (R235, R331). -/
def extentBits (g : Group) (e n : Nat) : List Byte :=
  (List.range n).map fun k =>
    BitVec.ofNat 8 ((List.range 8).map fun b => bit (g.used.contains (e + 8 * k + b)) b).sum

/-- One copy of a member label (R235). -/
def labelBytes (s : State) (gno : Nat) (g : Group) (index copy : Nat) : List Byte :=
  sealBytes <| layBytes 4092
    [(0x000, leBytes 4 0x4C424D57), (0x004, leBytes 2 1), (0x006, leBytes 1 copy), (0x007, leBytes 1 (labelMstate s g index)),
     (0x008, leBytes 16 g.groupId), (0x018, leBytes 8 g.generation), (0x020, leBytes 1 gno), (0x021, leBytes 1 index),
     (0x022, leBytes 1 g.n), (0x023, leBytes 1 g.w), (0x024, leBytes 1 g.stripLog2), (0x025, leBytes 1 g.spare),
     (0x026, leBytes 2 g.layout), (0x028, leBytes 4 g.seed.toNat), (0x02C, leBytes 4 g.extents),
     (0x030, leBytes 8 g.rows), (0x038, leBytes 8 g.createTs.toNat), (0x040, padTo 48 g.layoutHash),
     (0x080, failHistBytes g), (0x100, extentBits g 0 512)]

/-- A home slot's two bytes (R512). -/
def homeWord (h : Option Home) : Nat :=
  match h with
  | some h => h.pos + 8 + h.col * 16
  | none => 0

/-- One copy of the spare home map (R512). -/
def homeMapBytes (g : Group) : List Byte :=
  let n := if layoutKind g.layout == .decluster && g.spare != 0 then cycleRowsOf g else 0
  let recs := ((List.range n).map fun r =>
    ((List.range 4).map fun k => leBytes 2 (homeWord (g.homes.find (4 * r + k)))).flatten).flatten
  let hd := layBytes 60
    [(0x00, leBytes 4 0x4D485357), (0x08, leBytes 8 g.generation), (0x10, leBytes 16 g.groupId), (0x20, leBytes 4 n)]
  hd ++ leBytes 4 (crc32 (hd ++ recs)).toNat ++ recs

/-- A group's poison list (R332). -/
def poisonBytes (s : State) (gno : Nat) : List Byte :=
  ((s.cache.poisonList.filter fun x => match s.vols.find x.1 with
    | some v => v.group == gno
    | none => false).map fun x => leBytes 8 (x.1 + x.2 * 2 ^ 12 + 2 ^ 63)).flatten

/-- A lost-stripe map entry (R391). -/
def lostBytes (l : Lost) : List Byte :=
  leBytes 8 l.stripe ++ leBytes 1 l.group ++ leBytes 1 l.cause ++ leBytes 2 (l.vol.getD 0xFFFF) ++
    leBytes 4 l.erased.toNat ++ leBytes 8 l.ts.toNat ++ leBytes 8 0

/-- The lost-stripe map in the format of R391. -/
def lostPage (ls : List Lost) (ts : Word) : List Byte :=
  layBytes 64 [(0x00, leBytes 1 4), (0x01, leBytes 1 1), (0x02, leBytes 2 32), (0x04, leBytes 4 Config.lostCapacity),
    (0x08, leBytes 4 ls.length), (0x10, leBytes 8 ts.toNat)] ++ (ls.map lostBytes).flatten

/-- The bytes that a label context of a kind writes (R331, R334). -/
def labelContent (s : State) (gno : Nat) (g : Group) (index kind copy : Nat) : List Byte :=
  if kind = 0 then labelBytes s gno g index copy
  else if kind = 1 then extentBits g 0 ((g.extents + 7) / 8)
  else if kind = 2 then poisonBytes s gno
  else if kind = 3 then lostPage (s.mem.lost.filter fun l => l.group == gno) s.mem.lostTs
  else homeMapBytes g

/-- First member LBA of a kind's row, or of its copy B (R331). -/
def labelLba (kind copy : Nat) : Nat :=
  if kind = 0 then copy else if kind = 1 then 512 else if kind = 2 then 1024 else if kind = 3 then 3072
  else if copy = 0 then 4 else 12

/-- Create the label context of one copy of a kind for a member (R334); at most 256 blocks. -/
def labelCreate (s : State) (gno index kind copy : Nat) : State :=
  match s.groups.find gno with
  | none => s
  | some g =>
    let bs := labelContent s gno g index kind copy
    let n := min 256 (max 1 ((bs.length + 4095) / 4096))
    match allocFrames n 0 (fun k _ => { pins := 1, stage := true, prot := true, data := blockOfBytes bs k }) s with
    | none => s
    | some (frs, s) =>
      let join := !judged (memberState s g index)
      let d := dscPut 0x40 1 kind + dscPut 0x41 1 index + dscPut 0x42 1 (bit join 0) +
        dscPut 0x48 8 (labelLba kind copy) + dscPut 0x50 2 n + dscPut 0x61 1 gno + dscPut 0x64 4 g.seq
      match createWork s .label none gno (BitVec.ofNat 512 d) ((List.range n).zip frs) with
      | none => unpinAll s frs
      | some (_, s) => updGroup s gno fun g => { g with seq := g.seq + 1, labelDirty := false }

/-- LABEL_WRITE_CREATE (R236, R334): a member label raises GENERATION, and copy A is written first. -/
def execLabelWriteCreate (g index kind : Nat) (s : State) : Host.Outcome State Fault Refusal :=
  .next (match s.groups.find g with
    | none => s
    | some gr =>
      if 4 < kind || gr.n ≤ index then s
      else
        labelCreate (updGroup s g fun g =>
          { g with generation := if kind = 0 then g.generation + 1 else g.generation }) g index kind 0)

/-! TRAP and HALT (R261, R262, R316, R317) -/

/-- TRAP (R261, R388): a posted log record; LOST_STRIPE enters its stripe at once; WRITE_EVENT and
REBUILD_WRITE leave their work to the signal box's planner. -/
def execTrap (i : Ins) (s : State) : Host.Outcome State Fault Refusal :=
  runIns i (i.modIn 0 && i.noD && i.noB && i.immIn 8) notMap s fun c s =>
    let s := complete s i.cx id
    let e : LogEnt :=
      { code := 0x0811, source := BitVec.ofNat 8 Block.clusters.num, flags := i.imm.truncate 8, ts := now s,
        func := c.func, vol := BitVec.ofNat 16 (c.vol.getD 0xFFFF), member := 0xFF, detail := i.ga c }
    let s := { s with errSeq := s.errSeq + 1, errLog := (e :: s.errLog).take Config.logCapacity }
    match ctxGroupNo s c with
    | some g => if i.imm.toNat = 3 then enterLost s g (i.ga c).toNat 1 0 else s
    | none => s

/-- DETAIL of HALT_UNCLEAN: bit 0 no POST, bit 1 a lock held, both for a journal record unretired (R262, R269;
log entry 20). -/
def haltLog (s : State) (c : Ctx) (detail : Nat) : State :=
  logErr s 0x0810 .clusters { func := c.func.toNat, vol := c.vol.getD 0xFFFF } detail

/-- The deadline of a context has passed. -/
def pastDl (s : State) (c : Ctx) : Bool := past s c.dl

/-- Both label copies of a member are written: a CREATE_GROUP completes with the last (R195). -/
def labelWritten (s : State) (gno index : Nat) : State :=
  match s.groups.find gno with
  | none => s
  | some g =>
    let left := g.labelsLeft.filter (· != index)
    let s := updGroup s gno fun g => { g with labelsLeft := left }
    match g.creator with
    | some a => if left.isEmpty then adminDone (updGroup s gno fun g => { g with creator := none }) a .success false else s
    | none => s

/-- What a Maintenance thread's end means to the unit that started it: a destage that returns 1 with no lock and
no record starts again with RCW (R316); a zeroing's extent is zero (R193); copy A of a label pair is followed by
copy B (R236). -/
def workEnded (s : State) (c : Ctx) (g1 : Word) (clean : Bool) : State :=
  match c.work with
  | some .destage =>
    if g1 == 1 && clean then
      match createWork s .destage c.vol (c.group.getD 0) (c.cmd ||| BitVec.ofNat 512 (dscPut 0x52 1 1)) [] with
      | some (_, s) => s
      | none => s
    else s
  | some .zero => extentZeroed s (c.group.getD 8) (fieldOf c.cmd (8 * 0x0C) 32)
  | some .label =>
    let kind := fieldOf c.cmd 0 8
    if (kind == 0 || kind == 4) && fieldOf c.cmd 64 64 == labelLba kind 0 then
      labelCreate s (c.group.getD 8) (fieldOf c.cmd 8 8) kind 1
    else if kind == 0 then labelWritten s (c.group.getD 8) (fieldOf c.cmd 8 8)
    else s
  | _ => s

/-- HALT (R242, R262, R316). -/
def execHalt (i : Ins) (s : State) : Host.Outcome State Fault Refusal :=
  runIns i (i.modIn 0 && i.noD && i.noA && i.noB && i.imm == 0) notMap s fun c s =>
    let s := complete s i.cx id
    let locks := locksHeld s i.cx
    let recs := recsOf s i.cx
    let unposted := c.kind != .maint && c.posted.isNone
    let s := if unposted then
        let s := if pastDl s c then noteLate s i.cx 4 else s
        haltLog (postCtx s i.cx (BitVec.ofNat 8 Status.programFault.code)) c 1
      else s
    let s := locks.foldl (fun s _ => haltLog s c 2) s
    let s := recs.foldl (fun s _ => haltLog s c 3) s
    workEnded (endThread s i.cx) c (greg c 1) (locks.isEmpty && recs.isEmpty)

end Sys2Proof.Machine
end

