-- ==== Sys2Proof/Machine/MemberEvents.lean ====
section
/-! DEFINITION. What arrives from the member drives: completions, timeouts, DMA, presence, containment,
bring-up, windows and strays (R308, R358 to R380). -/

namespace Sys2Proof.Machine

/-- An outstanding command of a port. -/
def cmdOf (s : State) (port cid : Nat) : Option MemCmd := (s.mports.find port).bind fun p => p.cmds.find cid

/-- A completion may still be taken: the part is not past the abandonment of R346. -/
def linksHeld (s : State) : Bool :=
  match s.vlt.dump with
  | some d => d.abandoned
  | none => s.pwr.devState == .vaulted

/-- A read completed in a deterministic window is observed (R80, R365). -/
def observe (s : State) (port : Nat) (m : MemCmd) : State :=
  if m.op == .read && m.determ then
    let n := since s m.issued
    updMport s port fun p => { p with observed := (n, s.tt.cycle.toNat) :: p.observed }
  else s

/-- Group and stripe of a member's block. -/
def memberStripe (s : State) (port lba : Nat) : Option (Nat × Nat) :=
  (s.mports.find port).bind fun p => p.group.bind fun gno => (s.groups.find gno).bind fun g =>
    if lba < Config.dataStart then none else (stripeAt g p.index (rowOf g lba)).map fun x => (gno, x.1)

/-- The D of a read's stripe that was in force when its command was accepted; for a read of no Express miss, the member's. -/
def acceptedDOf (s : State) (cx port lba : Nat) : Nat :=
  match (s.ctxs.find cx).bind fun c => (memberStripe s port lba).bind fun x => c.dAt.find? fun y => y.1 == x.2 with
  | some y => y.2
  | none => ((s.mports.find port).map fun p => p.d.toNat).getD 0

/-- An Express read that took longer than the D in force at acceptance notes cause MEMBER (R86). -/
def noteMember (s : State) (port : Nat) (m : MemCmd) : State :=
  match m.ctx with
  | some cx =>
    if m.op == .read && m.express && decide (acceptedDOf s cx port m.lba < since s m.issued) then noteLate s cx 1 else s
  | none => s

/-- A strip of a command's stripe cannot be read: the read is a degraded read and has its bound (R20, R79). The manual gives
a late one no cause for it. -/
def degradeUnread (s : State) (cx port lba : Nat) : State :=
  match memberStripe s port lba with
  | some x => updCtx s cx (degradeCtx s x.2 0)
  | none => s

/-- A media event, or a read whose data arrives poisoned or fails its guard: logged, counted, and its stripe scrubbed (R21, R182,
R376, R378, R399). -/
def mediaEvent (s : State) (port lba : Nat) : State :=
  countMedia (queueScrub (logErr s 0x0B03 .initiator { member := port } lba) port lba) port

/-- The stripe of a record is marked for resync when a write of it ends FRAME (R320, R368). -/
def frameEvent (s : State) (m : MemCmd) : State :=
  match m.jrec with
  | some (r, _) =>
    match s.journal.recs.find r with
    | some x => markResync (if frozen s then s else updRec s r fun y => { y with resync := true }) x.group x.stripe
    | none => s
  | none => s

/-- A completion of the signal box's own command: FORMAT and SANITIZE complete when the member reports the
operation done (R382). -/
def adminOpDone (s : State) (m : MemCmd) : State :=
  match m.waiter with
  | some a => adminDone s a .success false
  | none => s

/-- A member that was UNFIT for its LBA format alone is fit once it is formatted (R362, R381). -/
def formatted (s : State) (port : Nat) : State :=
  match s.mports.find port with
  | some p => if p.unfitLba then rbChange (updMport s port fun p => { p with unfit := false, unfitLba := false }) else s
  | none => s

/-- A Window Select that was refused or has timed out is issued again MEM_WIN_RETRY slots from now (R370, R374). -/
def retryWin (s : State) (port : Nat) : State :=
  let t := after s s.mem.winRetry.toNat
  updMport s port fun p => { p with retryDue := some t }

/-- The completion of a Window Select (R370, R373, R374): a successful DTWIN ends a possession at its end edge, or
at once when it is past or ended early; a refused one is retried. -/
def winCompletion (s : State) (port cid : Nat) (m : MemCmd) (ok : Bool) : State :=
  let s := endCmd s port cid m .ok
  if !ok then retryWin s port
  else if m.op == .winNdwin then s
  else
    match s.mports.find port with
    | some p =>
      if p.early then wakeMem (endPoss s port) port
      else updMport s port fun p => { p with dtwinDone := p.inPoss, retryDue := none, dtwinSent := p.inPoss }
    | none => s

/-- The completion of a member command in time (R308, R368, R376, R378). -/
def memCompletion (s : State) (port cid : Nat) (m : MemCmd) (st : CplStatus) : State :=
  match m.op, st with
  | .read, .ok => endCmd (noteMember (observe s port m) port m) port cid m .ok
  | .read, e =>
    let s := noteMember (observe s port m) port m
    let s := match m.ctx with
      | some cx => degradeUnread s cx port m.lba
      | none => s
    mediaEvent (endCmd s port cid m (if e == .poisoned then .poisoned else .media)) port m.lba
  | .write, .ok => endCmd s port cid m .ok
  | .write, .frame => frameEvent (endCmd s port cid m .frame) m
  | .write, _ => failMember (endCmd s port cid m .media) port 2
  | .winNdwin, e => winCompletion s port cid m (e == .ok)
  | .winDtwin, e => winCompletion s port cid m (e == .ok)
  | .format _, .ok => adminOpDone (formatted (endCmd s port cid m .ok) port) m
  | _, _ => adminOpDone (endCmd s port cid m .ok) m

/-- A command's identifier is quarantined (R367); the 64th fails the member. -/
def quarantineId (s : State) (port cid : Nat) (m : MemCmd) : State :=
  let s := updMport s port fun p =>
    { p with quarantine := p.quarantine ++ [cid],
             quarDet := if m.op == .read && m.determ then p.quarDet ++ [(cid, m.issued)] else p.quarDet }
  match s.mports.find port with
  | some p => if 64 ≤ p.quarantine.length then failMember s port 3 else s
  | none => s

/-- A timeout of a member command is logged and counted (R367, R399). -/
def logTimeout (s : State) (port queue cid : Nat) : State :=
  let s := logErr s 0x0B02 .initiator { member := port } (queue * 2 ^ 16 + cid)
  markFresh (updMport s port fun p => { p with cntTmo := satInc p.cntTmo }) .mem (0x1010 + 32 * port) 0 1

/-- A member command passes its timeout (R366 to R368, R376). -/
def memTimeoutOf (s : State) (port cid : Nat) (m : MemCmd) : State :=
  let s := logTimeout s port m.queue cid
  let s := match m.ctx with
    | some cx => if m.op == .read then noteLate s cx 2 else s
    | none => s
  let s := quarantineId (endCmd s port cid m .timeout) port cid m
  match m.op with
  | .read => countTimeout s port
  | .write => failMember s port 2
  | .winDtwin | .winNdwin => retryWin s port
  | _ => s

/-- MEMBER_TIMEOUT (R47, R366): in step 3 of the slot in which it is due. -/
def execMemberTimeout (port cid : Nat) (s : State) : Host.Outcome State Fault Refusal :=
  .next (match cmdOf s port cid with
    | none => s
    | some m =>
      if due s m.due && !linksHeld s then wakeMem (retryRetires (memTimeoutOf s port cid m)) port else s)

/-- A completion of a quarantined identifier is discarded, counted and observed (R365, R367). -/
def lateCompletion (s : State) (port cid : Nat) : State :=
  match s.mports.find port with
  | none => s
  | some p =>
    if !p.quarantine.contains cid then s
    else
      let obs := match p.quarDet.find? fun q => q.1 == cid with
        | some q => [(since s q.2, s.tt.cycle.toNat)]
        | none => []
      let s := markFresh s .mem (0x1018 + 32 * port) 0 1
      logErr (updMport s port fun p =>
        { p with quarantine := p.quarantine.filter (· != cid), quarDet := p.quarDet.filter fun q => q.1 != cid,
                 cntLate := satInc p.cntLate, observed := obs ++ p.observed }) 0x0B04 .initiator { member := port } 0

/-- MEMBER_COMPLETION (R46, R47, R308): a completion that arrives after the check slot of its timeout is a late one, whether or
not MEMBER_TIMEOUT has come. -/
def execMemberCompletion (port cid : Nat) (status : CplStatus) (s : State) : Host.Outcome State Fault Refusal :=
  .next (match cmdOf s port cid with
    | none => s
    | some m =>
      if linksHeld s then s
      else if past s m.due then lateCompletion (wakeMem (retryRetires (memTimeoutOf s port cid m)) port) port cid
      else wakeMem (retryRetires (memCompletion s port cid m status)) port)

/-- MEMBER_LATE_COMPLETION (R365, R367). -/
def execMemberLateCompletion (port cid : Nat) (s : State) : Host.Outcome State Fault Refusal :=
  .next (if linksHeld s then s else lateCompletion s port cid)

/-! DMA of a member (R360) -/

/-- Bytes written into a frame; the lines they cover are no longer uncorrectable. -/
def fillFrame (s : State) (fr off : Nat) (bs : List Byte) : State :=
  updFrame s fr fun f =>
    { f with data := f.data.writeList off bs, zfill := false,
             badLines := f.badLines.filter fun l => !(decide (off ≤ 64 * l) && decide (64 * l + 64 ≤ off + bs.length)) }

/-- Bytes written into the frames of a data window from an offset on. -/
def fillWindow (frs : List Nat) : Nat → Nat → List Byte → State → State
  | 0, _, _, s => s
  | n + 1, off, bs, s =>
    if bs.isEmpty then s
    else
      let room := 4096 - off % 4096
      let s := match frs[off / 4096]? with
        | some fr => fillFrame s fr (off % 4096) (bs.take room)
        | none => s
      fillWindow frs n (off + room) (bs.drop room) s

/-- A request lies inside the open data window of a command, in the direction of its transfer. -/
def inWindow (m : MemCmd) (posted : Bool) (off len : Nat) : Bool :=
  decide (off + len ≤ 4096 * m.frames.length) &&
    ((m.op == .read && posted) || (m.op == .write && !posted))

/-- Bytes of a data window. -/
def windowBytes (s : State) (frs : List Nat) (off len : Nat) : List Byte :=
  (List.range len).map fun k => match frs[(off + k) / 4096]? with
    | some fr => (frameOf s fr).data.read ((off + k) % 4096)
    | none => 0

/-- A request of a member inside an open window is served; any other is refused and counted (R360). A member
read's length is that of the byte list. -/
def execMemberDmaRequest (port cid : Nat) (posted : Bool) (off : Nat) (bytes : List Byte) (s : State) :
    Host.Outcome State Fault Refusal :=
  .next (match s.mports.find port with
    | none => s
    | some p =>
      if p.contained || linksHeld s then s
      else
        let ok := match p.cmds.find cid with
          | some m => inWindow m posted off bytes.length
          | none => false
        let frs := match p.cmds.find cid with
          | some m => m.frames
          | none => []
        if ok then
          if posted then fillWindow frs (frs.length + 1) off bytes s
          else emit s (.memData port cid (windowBytes s frs off bytes.length))
        else
          let s := if posted then s else emit s (.completerAbort port cid)
          wakeMem (retryRetires (countMedia s port)) port)

/-! Possessions (R54, R370, R374) -/

/-- Key of the plan entry of the bank in force that covers a port in a cycle (R53). -/
def entryAt (t : Timetable) (port : Nat) (cycle : BitVec 44) : Option Nat :=
  if !t.planEn then none
  else
    ((bankOf t t.bankB).find? fun x =>
      peMember x.2 == port && peCovers x.2 (bankPeriod t t.bankB) (planPos t.epoch cycle (bankPeriod t t.bankB))).map
      fun x => x.1 + (if t.bankB then 1024 else 0)

/-- Members of a port's group in possession other than the port. -/
def othersInPoss (g : Group) (port : Nat) : Nat := (g.inPoss.filter (· != port)).length

/-- The initiator would take a possession of a port (R372). -/
def takeable (s : State) (port : Nat) (p : MPort) : Bool :=
  match p.group.bind fun g => s.groups.find g with
  | none => false
  | some g => judged p.state && schedulable s port p && decide (othersInPoss g port < effDepth g)

/-- The slot of the lead notices of the starts of the next cycle has come: SLOTS_PER_CYCLE − TT_POSS_LEAD (R54). -/
def leadSlot (s : State) : Bool := slotsOf s.tt.kActive == s.tt.slot + s.tt.possLead.toNat

/-- The slot TT_POSS_LEAD before the next edge has come or passed (R370). -/
def leadCame (s : State) : Bool := decide (slotsOf s.tt.kActive ≤ s.tt.slot + s.tt.possLead.toNat)

/-- POSSESSION_LEAD_NOTICE (R54, R370): a start falls at the next cycle edge, and the slot of its notice has come. -/
def execPossessionLeadNotice (port : Nat) (s : State) : Host.Outcome State Fault Refusal :=
  .next (match s.mports.find port with
    | none => s
    | some p =>
      let next := entryAt s.tt port (s.tt.cycle + 1)
      if onW0 s && leadSlot s && next.isSome && next != p.annc && !p.inPoss && takeable s port p then
        updMport s port fun p => { p with lead := true }
      else s)

/-- An Express read issued before the start is still outstanding (R370). -/
def earlierReads (p : MPort) : Bool := p.cmds.any fun x => x.2.op == .read && x.2.express && x.2.determ

/-- POSS_NDWIN_ISSUE (R370): issue of the lower classes resumes with it. -/
def execPossNdwinIssue (port : Nat) (s : State) : Host.Outcome State Fault Refusal :=
  .next (match s.mports.find port with
    | none => s
    | some p =>
      if onW0 s && p.inPoss && !p.ndwinSent && !p.dtwinSent && !earlierReads p then wakeMem (sendNdwin s port) port else s)

/-- POSS_DTWIN_ISSUE (R370): the entry ends at the next cycle edge, and no start there continues it. -/
def execPossDtwinIssue (port : Nat) (s : State) : Host.Outcome State Fault Refusal :=
  .next (match s.mports.find port with
    | none => s
    | some p =>
      let next := entryAt s.tt port (s.tt.cycle + 1)
      if onW0 s && leadCame s && p.inPoss && !p.dtwinSent && next != p.annc && !(next.isSome && takeable s port p) then sendDtwin s port
      else s)

/-- The outstanding Window Select of a port: key and command, DTWIN before NDWIN. -/
def winCmd (p : MPort) : Option (Nat × MemCmd) :=
  (p.cmds.find? fun x => x.2.op == .winDtwin).orElse fun _ => p.cmds.find? fun x => x.2.op == .winNdwin

/-- WINDOW_SELECT_COMPLETION (R370, R373, R374). -/
def execWindowSelectCompletion (port : Nat) (ok : Bool) (s : State) : Host.Outcome State Fault Refusal :=
  .next (match (s.mports.find port).bind winCmd with
    | none => s
    | some (cid, m) => winCompletion s port cid m ok)

/-- WINDOW_SELECT_RETRY (R370, R374): NDWIN while a possession has not come to its DTWIN, DTWIN otherwise. -/
def execWindowSelectRetry (port : Nat) (s : State) : Host.Outcome State Fault Refusal :=
  .next (match s.mports.find port with
    | none => s
    | some p =>
      match p.retryDue with
      | some t =>
        if !onW0 s || !due s t then s
        else if p.inPoss && !p.dtwinSent then sendNdwin s port
        else sendDtwin s port
      | none => s)

/-- The group of a port takes possessions at all: at effective depth 0 no member strays (R372). -/
def depthPositive (s : State) (p : MPort) : Bool :=
  match p.group.bind fun g => s.groups.find g with
  | some g => decide (0 < effDepth g)
  | none => false

/-- STRAY_EVENT (R372, R374). -/
def execStrayEvent (port : Nat) (s : State) : Host.Outcome State Fault Refusal :=
  .next (match s.mports.find port with
    | none => s
    | some p =>
      if onW0 s && p.plm && judged p.state && !p.inPoss && depthPositive s p then
        rbChange (sendDtwin (logErr (updMport s port fun p => { p with stray := true }) 0x0B11 .initiator
          { member := port } 0) port)
      else s)

/-- The policy counters restart; slow members recover (R375, R376). -/
def policyEnd (s : State) : State :=
  s.mports.foldl (fun s x =>
    let p := x.2
    let back := p.state == 3 && decide (p.tmoWin < s.mem.slowTmo.toNat)
    let s := updMport s x.1 fun p => { p with tmoWin := 0, mediaWin := 0, state := if back then 2 else p.state }
    if back then rbChange (logErr s 0x0B05 .initiator { member := x.1 } 0) else s) s

/-- A policy window ends in the present slot: slot 0 of a cycle that is a multiple of MEM_POLICY_WIN, not taken yet (R376). -/
def policyDue (s : State) : Bool :=
  s.mem.policyWin != 0 && s.tt.running && s.tt.slot == 0 && s.tt.cycle.toNat % s.mem.policyWin.toNat == 0 &&
    s.mem.policyTs != some (now s)

/-- The end of a policy window at a cycle edge. -/
def policyEdge (s : State) : State :=
  if policyDue s then
    let t := now s
    policyEnd { s with mem := { s.mem with policyTs := some t } }
  else s

/-- POLICY_WINDOW_END (R376): an end that falls in the present slot and that the edge has not taken. -/
def execPolicyWindowEnd (s : State) : Host.Outcome State Fault Refusal := .next (policyEdge s)

/-! Presence, containment and bring-up (R358 to R364, R375, R379, R380) -/

/-- A port's registers when no member is there. -/
def emptyPort (p : MPort) : MPort :=
  { p with state := 0, plm := false, profiled := false, inPoss := false, lead := false, stray := false,
           linkUp := false, unfit := false, unfitLba := false, pulseDue := none, width := 0, speed := 0, group := none, index := 0, label := none,
           mperstHigh := false, d := 0, latNs := 0, rate := 0, observed := [], blocks := 0 }

/-- VIO is powered: the balls of its domain are read (R463, R494). -/
def vioUp (s : State) : Bool := s.pwr.railEn.getLsbD 0 && s.pwr.railPg.getLsbD 0

/-- The part brings members up: in Held, as when it is Off, every member port stays in reset (R1, R485), and from PFAIL_N on
MPERST_N stays as it was (R346). -/
def membersUp (s : State) : Bool := postedOk s

/-- The member credits of the groups follow the members (R74, R76). -/
def creditsFollow (s : State) : State := if s.pwr.devState == .ready then recomputeCeil s else s

/-- GROUP_ASSEMBLY (R394, R395): in Starting or Recovering, from the labels read. -/
def execGroupAssembly (labels : List LabelFound) (s : State) : Host.Outcome State Fault Refusal :=
  .next (if membersUp s then
      creditsFollow (assembleAll (labels.foldl (fun s l =>
        updMport s l.port fun p => if p.present then { p with label := some l } else p) s))
    else s)

/-- PRESENCE_QUALIFIED (R375, R379, R380): presence gained starts bring-up; presence lost fails the member and
contains the port. -/
def execPresenceQualified (port : Nat) (present : Bool) (s : State) : Host.Outcome State Fault Refusal :=
  .next (match s.mports.find port with
    | none => s
    | some p =>
      if p.absent || p.powerOff || p.present == present || !vioUp s then s
      else
        let s := logErr s 0x0B07 .initiator { member := port } (bit present 0)
        let s := if present then
            let s := updMport s port fun p => { p with present := true, contained := false }
            if s.mem.hotplugEn && membersUp s then emit (updMport s port fun p => { p with mperstHigh := true }) (.mperst port true)
            else s
          else
            let s := contain s port
            updMport s port fun p => { emptyPort p with present := false, contained := true }
        raisePme (rbChange s))

/-- LINK_CONTAINMENT (R380). -/
def execLinkContainment (port : Nat) (cause : ContainCause) (s : State) : Host.Outcome State Fault Refusal :=
  .next (match cause, s.mports.find port with
    | _, none => s
    | _, some p => if p.contained || !p.present then s else contain s port)

/-- A member fails a requirement of R362. -/
def unfitOf (i : DriveInfo) : Bool :=
  !(i.nvme20 && i.lba4k && decide (8 ≤ i.queuePairs) && i.mpsminOk && decide (262400 ≤ i.blocks) && (i.vwcOff || i.fua))

/-- The LBA format is the one requirement that a member fails (R362). -/
def unfitForLba (i : DriveInfo) : Bool := unfitOf i && !unfitOf { i with lba4k := true }

/-- A drive's figures after bring-up (R361 to R364). -/
def broughtUp (s : State) (i : DriveInfo) (p : MPort) : MPort :=
  let prof := profileOf s i.model
  { p with linkUp := true, mperstHigh := true, width := i.width, speed := i.speed, plm := i.plm, blocks := i.blocks,
           ndwinMin := i.ndwinMin, dtwinMax := i.dtwinMax, fua := !i.vwcOff, urgent := i.urgentArb && s.mem.urgentArb,
           queuePairs := i.queuePairs / 4 * 4, zerosDealloc := i.zerosDealloc, model := i.model,
           unfit := unfitOf i, unfitLba := unfitForLba i, label := i.label, contained := false,
           profiled := prof.isSome,
           latNs := match prof with
             | some x => BitVec.ofNat 32 (tagField s x.1 (x.2 + 40) 4)
             | none => 0,
           rate := match prof with
             | some x => BitVec.ofNat 32 (tagField s x.1 (x.2 + 44) 4)
             | none => 0 }

/-- The label names an assembled group that lists the member failed (R375). -/
def labelFailed (s : State) (l : Option LabelFound) : Option (Nat × Nat) :=
  l.bind fun l => (s.groups.find? fun x => x.2.groupId == l.groupId && x.2.assembly == .assembled).bind fun x =>
    if (entryOf x.2 l.index).isSome || x.2.extraFailed.contains l.index then some (x.1, l.index) else none

/-- Bring-up of a port ends (R361, R375, R394). -/
def bringUp (s : State) (port : Nat) (i : DriveInfo) : State :=
  match i.failedStep with
  | some k => contain (logErr s 0x0B01 .initiator { member := port } k) port
  | none =>
    let s := updMport s port (broughtUp s i)
    let s := match labelFailed s i.label with
      | some (g, idx) =>
        let s := updMport s port fun p => { p with state := 4, group := some g, index := idx }
        updGroup s g fun g => { g with members := g.members.put idx port }
      | none => updMport s port fun p => { p with state := 1, group := none }
    rbChange (match s.pwr.devState with
      | .ready => creditsFollow (assembleAll (reassemble s .short))
      | _ => s)

/-- A member that a W3 or W4 entry put down comes back: its label is judged against its group (R394, R476). -/
def returnUp (s : State) (port : Nat) (i : DriveInfo) : State :=
  match i.failedStep with
  | some k => contain (logErr s 0x0B01 .initiator { member := port } k) port
  | none =>
    match s.mports.find port with
    | none => s
    | some p =>
      let ok := match p.group.bind fun g => s.groups.find g, i.label with
        | some g, some l => l.groupId == g.groupId && l.index == p.index && decide (g.generation ≤ l.generation)
        | _, _ => false
      let s := updMport s port fun p => { broughtUp s i p with down := false }
      rbChange (creditsFollow (if ok || !judged p.state then s else failMember s port 4))

/-- MEMBER_BRINGUP (R361, R381, R382, R476): a present port that is not in service is brought up, after the pulse of a RESET; a RESET
completes. -/
def execMemberBringup (port : Nat) (info : DriveInfo) (s : State) : Host.Outcome State Fault Refusal :=
  .next (match s.mports.find port with
    | none => s
    | some p =>
      if !membersUp s || p.absent || !p.present || p.powerOff || p.pulseDue.isSome || (judged p.state && !p.down) then s
      else if p.down then returnUp s port info
      else
        let s := bringUp s port info
        p.resetWait.foldl (fun s a => adminDone s a .success false) (updMport s port fun p => { p with resetWait := [] }))

/-! Quads (R358) -/

/-- Layout code of a quad. -/
def quadCode (m : MemRegs) (q : Nat) : Nat := if q < 16 then fieldOf m.cfg0 (2 * q) 2 else fieldOf m.cfg1 (2 * (q - 16)) 2

/-- A quad layout creates a port (R358). -/
def quadHas (m : MemRegs) (port : Nat) : Bool :=
  match quadCode m (port / 4) with
  | 0 => port % 4 == 0
  | 1 => port % 2 == 0
  | 2 => true
  | _ => false

/-- The quad layouts are set; the first write counts (R358). -/
def setQuads (s : State) (cfg0 cfg1 : BitVec 32) : State :=
  if s.mem.quadSet then s
  else
    let m := { s.mem with cfg0 := cfg0, cfg1 := cfg1.truncate 4, quadSet := true }
    { s with mem := m
             mports := (List.range 72).foldl (fun t p =>
               t.put p { (t.getD p {}) with absent := !quadHas m p }) s.mports }

/-- MEM_QUAD_CFG_WRITE (R358). -/
def execMemQuadCfgWrite (cfg0 cfg1 : BitVec 32) (s : State) : Host.Outcome State Fault Refusal := .next (setQuads s cfg0 cfg1)

end Sys2Proof.Machine
end

