-- ==== Sys2Proof/Machine/Movers.lean ====
section
/-! DEFINITION. The movers, the descriptors of group 0x4 and the translation unit (R265, R266, R288 to R291,
R400 to R418). -/

namespace Sys2Proof.Machine

/-! Movers and channels -/

/-- A mover. -/
def moverOf (s : State) (m : Nat) : Mover := s.movers.getD m {}

/-- Change a mover. -/
def updMover (s : State) (m : Nat) (f : Mover → Mover) : State := { s with movers := s.movers.put m (f (moverOf s m)) }

/-- Bytes moved by a mover, in MOV_CNT_BYTES (R425). -/
def movBytes (s : State) (m n : Nat) : State :=
  markFresh (updMover s m fun x => { x with cntBytes := satAdd x.cntBytes n }) (.mov m) 0x08 0 n

/-- A channel refused on a mover, in MOV_CNT_REFUSED (R403, R425). -/
def movRefused (s : State) (m : Nat) : State :=
  markFresh (updMover s m fun x => { x with cntRefused := satInc x.cntRefused }) (.mov m) 0x14 0 1

/-- A channel; one that is not listed is IDLE with its registers at reset. -/
def chanOf (s : State) (m c : Nat) : Channel := (moverOf s m).chans.getD c {}

/-- Change a listed channel. -/
def updChan (s : State) (m c : Nat) (f : Channel → Channel) : State :=
  updMover s m fun x => { x with chans := x.chans.upd c f }

/-- Write a channel. -/
def putChan (s : State) (m c : Nat) (ch : Channel) : State := updMover s m fun x => { x with chans := x.chans.put c ch }

/-- A channel returns to IDLE. -/
def delChan (s : State) (m c : Nat) : State := updMover s m fun x => { x with chans := x.chans.del c }

/-- The channel that a mover runs. -/
def runningOf (x : Mover) : Option (Nat × Channel) := x.chans.find? fun c => c.2.state == .running

/-- Express channels queued or running on a mover (R401). -/
def expressLive (x : Mover) : Tab Channel :=
  x.chans.filter fun c => c.2.cls == .express && (c.2.state == .queued || c.2.state == .running)

/-- Express bytes queued on a mover. -/
def expressBytes (x : Mover) : Nat := ((expressLive x).map fun c => c.2.count - c.2.done).sum

/-- The mover that R401 chooses of a cluster. -/
def chooseMover (s : State) (cluster : Nat) : Nat :=
  let a := moverOf s (2 * cluster)
  let b := moverOf s (2 * cluster + 1)
  if (expressLive a).isEmpty then 2 * cluster
  else if (expressLive b).isEmpty then 2 * cluster + 1
  else if expressBytes b < expressBytes a then 2 * cluster + 1 else 2 * cluster

/-- The other mover of a cluster. -/
def otherMover (m : Nat) : Nat := if m % 2 = 0 then m + 1 else m - 1

/-- The channel a thread of a class takes: 0 or 1 for Express, else the lowest of 2 to 14 (R400, R401). -/
def freeChan (s : State) (cluster : Nat) (express : Bool) : Option (Nat × Nat) :=
  let m := chooseMover s cluster
  let free := fun m c => !(moverOf s m).chans.has c
  if express then
    ([0, 1].find? (free m)).map (fun c => (m, c)) |>.orElse fun _ =>
      ([0, 1].find? (free (otherMover m))).map fun c => (otherMover m, c)
  else (List.range 13).findSome? fun k =>
    if free m (k + 2) then some (m, k + 2)
    else if free (otherMover m) (k + 2) then some (otherMover m, k + 2) else none

/-! Descriptors (R413) -/

/-- Bytes of a descriptor's data. -/
def descLen : DescKind → Nat
  | .host _ n => n
  | .list es _ => (es.map Prod.snd).sum
  | .inline _ => 4096
  | .window _ _ n _ => n

/-- Endpoint kind of a descriptor (R402). -/
def descCode : DescKind → Nat
  | .host _ _ => 1
  | .list _ _ => 1
  | .inline _ => 2
  | .window _ _ _ _ => 3

/-- Address of a byte of a list of extents, and the bytes from it to the end of its extent. -/
def extentByte : List (Nat × Nat) → Nat → Option (Nat × Nat)
  | [], _ => none
  | (a, n) :: es, off => if off < n then some (a + off, n - off) else extentByte es (off - n)

/-- Host address of a byte of a descriptor, with the bytes that follow it there. -/
def descAddr (d : DescKind) (off : Nat) : Option (Nat × Nat) :=
  match d with
  | .host a n => extentByte [(a, n)] off
  | .list es _ => extentByte es off
  | _ => none

/-- The host descriptor a handle holds. -/
def descIn (c : Ctx) (k : Nat) : Option DescKind :=
  match handleOf c k with
  | .desc d => some d
  | _ => none

/-! Translation (R414 to R416) -/

/-- PASID under which the requests of a context are translated by ATS; none when they are not. -/
def atsPasid (s : State) (c : Ctx) : Option Nat :=
  match fnOf s c.func.toNat, sqOf s c.func.toNat (c.sqid.toNat % 64) with
  | some fn, some q => if fn.atsEn then q.pasid else none
  | _, _ => none

/-- PASID prefix of an untranslated data request of a context: its SQ's, while ATS Enable is 0 (R414). -/
def prefixPasid (s : State) (c : Ctx) : Option Nat :=
  match fnOf s c.func.toNat, sqOf s c.func.toNat (c.sqid.toNat % 64) with
  | some fn, some q => if fn.atsEn then none else q.pasid
  | _, _ => none

/-- Outcome of a lookup of a page (R415). -/
inductive Look where
  | ok (addr : Nat)
  | pending
  | miss
  | denied
  deriving DecidableEq, Repr

/-- The ATS entry of a page. -/
def atsEntry (s : State) (f pasid page : Nat) : Option AtsEnt :=
  s.xlate.ats.find? fun e => e.func == f && e.pasid == pasid && decide (e.page ≤ page) && decide (page < e.page + e.pages)

/-- A Translation Request for a page is pending. -/
def atsPending (s : State) (f pasid page : Nat) : Bool :=
  s.reads.any fun r => r.2.func == f && !r.2.quarantined && (match r.2.purpose with
    | .ats p ps => p == pasid && ps.contains page
    | _ => false)

/-- Look a page up. -/
def lookPage (s : State) (f pasid page : Nat) (write : Bool) : Look :=
  match atsEntry s f pasid page with
  | some e =>
    if (if write then e.write else e.read) then .ok (e.addr.toNat + 4096 * (page - e.page)) else .denied
  | none => if atsPending s f pasid page then .pending else .miss

/-- The address that a request to a host address carries: as it stands, or translated (R414). -/
def translate (s : State) (c : Ctx) (addr : Nat) (write : Bool) : Look :=
  match atsPasid s c with
  | none => .ok addr
  | some p =>
    match lookPage s c.func.toNat p (addr / 4096) write with
    | .ok a => .ok (a + addr % 4096)
    | x => x

/-- The entry of a page becomes the most recently used. -/
def touchAts (s : State) (f pasid page : Nat) : State :=
  match atsEntry s f pasid page with
  | some e => { s with xlate := { s.xlate with ats := e :: s.xlate.ats.filter (· != e) } }
  | none => s

/-- Pages of a descriptor from a byte on, at most n. -/
def pagesFrom (d : DescKind) : Nat → Nat → List Nat
  | 0, _ => []
  | n + 1, off =>
    match descAddr d off with
    | none => []
    | some (a, r) => a / 4096 :: pagesFrom d n (off + min r (4096 - a % 4096))

/-- Runs of adjacent pages. -/
def pageRuns : List Nat → List (List Nat)
  | [] => []
  | p :: ps =>
    match pageRuns ps with
    | (q :: qs) :: rs => if q = p + 1 then (p :: q :: qs) :: rs else [p] :: (q :: qs) :: rs
    | rs => [p] :: rs

/-- Send Translation Requests for the missing pages from a byte of a descriptor up to 16 pages ahead (R415). -/
def lookAhead (s : State) (c : Ctx) (d : DescKind) (off : Nat) (write : Bool) : State :=
  match atsPasid s c with
  | none => s
  | some p =>
    let f := c.func.toNat
    let ps := (pagesFrom d 16 off).eraseDups.filter fun g => lookPage s f p g write == .miss
    (pageRuns ps).foldl (fun s r =>
      if readOk s f false then
        emit (openRead s f (.ats p r) false) (.atsRequest s.nextTag f p (r.headD 0) r.length)
      else s) s

/-! Pause and resume (R407 to R409) -/

/-- A pause cause is applied to a channel (R408, R409). -/
def pauseChan (s : State) (m c bit_ : Nat) : State :=
  updChan s m c fun ch =>
    match ch.state with
    | .running | .queued | .pausing | .paused =>
      { ch with causes := ch.causes ||| BitVec.ofNat 6 (2 ^ bit_)
                state := if ch.inFlight = 0 then .paused else .pausing }
    | _ => ch

/-- A pause cause is cleared; a channel with none left is QUEUED with its sequence number. -/
def clearCause (s : State) (m c bit_ : Nat) : State :=
  updChan s m c fun ch =>
    let cs := ch.causes &&& ~~~ (BitVec.ofNat 6 (2 ^ bit_))
    { ch with causes := cs
              state := if cs = 0 && ch.causes != 0 && (ch.state == .paused || ch.state == .pausing) &&
                  (ch.ctx.isSome || c == 15) then .queued else ch.state }

/-! Page requests (R266, R417) -/

/-- Pages of the requests of a function that are outstanding. -/
def prgOut (s : State) (f : Nat) : Nat :=
  ((s.xlate.prgs.filter fun g => g.func == f && g.sent).map fun g => g.pages.length).sum

/-- Send the page requests of a group, the final one with Last set, and time them (R266, R417). -/
def sendPrg (s : State) (g : Prg) : State :=
  let s := { s with xlate := { s.xlate with prgs := s.xlate.prgs.map fun x => if x = g then { x with sent := true } else x } }
  let s := g.pages.foldl (fun s p =>
    emit s (.pageRequest g.func g.pasid g.index p (g.pages.getLast? == some p))) s
  openRead s g.func (.page g.index) false

/-- Send the groups of a function that wait for room, or for the function to send again, in order (R120, R417). -/
def sendPrgs (s : State) (f : Nat) : State :=
  (s.xlate.prgs.filter fun g => g.func == f && !g.sent).foldl (fun s g =>
    match fnOf s f with
    | some fn => if upstreamOk s fn && decide (prgOut s f + g.pages.length ≤ fn.priAlloc) then sendPrg s g else s
    | none => s) s

/-- Page requests of every function that may go now. -/
def sendAllPrgs (s : State) : State :=
  ((s.xlate.prgs.filter fun g => !g.sent).map Prg.func).eraseDups.foldl sendPrgs s

/-- Requests with Success that a context has spent on a page (R266). -/
def triesOf (s : State) (cx page : Nat) : Nat :=
  match s.xlate.tries.find? fun t => t.1 == cx && t.2.1 == page with
  | some t => t.2.2
  | none => 0

/-- A TRANSLATION fault of the instruction that waits on a channel, at a byte of its descriptor (R264, R266,
R417): denied pages from there on make one page request group. -/
def raiseTranslation (s : State) (cx handle off : Nat) (d : DescKind) (write : Bool) : State :=
  match s.ctxs.find cx with
  | none => s
  | some c =>
    match atsPasid s c, fnOf s c.func.toNat with
    | some pasid, some fn =>
      let f := c.func.toNat
      let detail := handle + off / 4096 % 2 ^ 28 * 16
      let ps := (pagesFrom d 16 off).eraseDups.takeWhile fun g => lookPage s f pasid g write == .denied
      let ps := ps.take (max 1 fn.priAlloc)
      let s := logErr s 0x0C10 .translation { func := f } (pasid + ps.headD 0 * 2 ^ 20)
      if ps.any fun g => decide (3 ≤ triesOf s cx g) then fatal s cx .translation detail
      else if !fn.priEn || fn.priStop then fatalAs s cx .translation detail .hostFault
      else
        let g : Prg := { func := f, pasid := pasid, index := s.xlate.nextIndex % 512, ctx := cx, pages := ps }
        let s := updCtx s cx fun c =>
          { c with fault := faultWord .translation c.pc detail, state := .translating, wait := .nothing }
        sendPrgs { s with xlate := { s.xlate with prgs := s.xlate.prgs ++ [g], nextIndex := s.xlate.nextIndex + 1 } } f
    | _, _ => s

/-- Byte of its descriptor that a channel has reached. -/
def descPos (ch : Channel) : Nat := if ch.src.kind = 0 then ch.dstOff + ch.done else ch.srcOff + ch.done

/-- Descriptor handle of a channel. -/
def descHandle (ch : Channel) : Nat := if ch.src.kind = 0 then ch.dst.index else ch.src.index

/-- A channel has reached a page that it cannot use yet (R415). -/
def pageStop (s : State) (m c cx : Nat) (ch : Channel) (d : DescKind) (off : Nat) (look : Look) (write : Bool) : State :=
  let s := pauseChan s m c 1
  match look, s.ctxs.find cx with
  | .denied, _ => raiseTranslation s cx (descHandle ch) off d write
  | .miss, some x => lookAhead s x d off write
  | _, _ => s

/-! Bytes into frames (R405) -/

/-- Write bytes of the transfer from a position on into the frames and PI slots of a handle. -/
def putBytes (h : Handle) (ch : Channel) : Nat → Nat → List Byte → State → State
  | 0, _, _, s => s
  | n + 1, pos, bs, s =>
    if bs.isEmpty then s
    else
      let k := pos / ch.sect
      let o := pos % ch.sect
      let room := if o < 4096 then 4096 - o else ch.sect - o
      let s := match h.at_ (ch.first + k) with
        | some fr =>
          if o < 4096 then fillFrame s fr o (bs.take room)
          else updFrame s fr fun f => { f with pi := piSet f.pi (o - 4096) (bs.take room) }
        | none => s
      putBytes h ch n (pos + room) (bs.drop room) s

/-- Poison marks on the blocks of a range of the transfer (R122). -/
def markBlocks (s : State) (h : Handle) (ch : Channel) (pos len : Nat) : State :=
  (List.range ch.blocks).foldl (fun s k =>
    if k * ch.sect < pos + len && pos < (k + 1) * ch.sect then
      match h.at_ (ch.first + k) with
      | some fr => updFrame s fr fun f => { f with poison := true }
      | none => s
    else s) s

/-- The volume of a context has protection information. -/
def ctxPi (s : State) (c : Ctx) : Bool :=
  match ctxVol s c with
  | some v => v.pi
  | none => false

/-- Check or generate the PI of every block that has entered its frame (R181). -/
def enterPi (s : State) (c : Ctx) (h : Handle) (m ch : Nat) (x : Channel) : State :=
  if !ctxPi s c then s
  else
    let k := piCtl c.cmd
    (List.range x.blocks).foldl (fun s i =>
      match h.at_ (x.first + i) with
      | none => s
      | some fr =>
        let f := frameOf s fr
        if k.pis then updFrame s fr fun f => { f with pi := piGen k (x.block + i) f.data }
        else if guardOk f.data f.pi && tagsOk k (x.block + i) f.pi then s
        else updChan s m ch fun y => { y with piBad := true }) s

/-- The last byte of a FRAME destination is written: the read-back is issued (R410). -/
def toReadback (s : State) (m ch : Nat) : State :=
  let x := chanOf s m ch
  match x.ctx.bind fun cx => s.ctxs.find cx with
  | none => s
  | some c => updChan (enterPi s c (handleOf c x.dst.index) m ch x) m ch fun y => { y with state := .readback }

/-- Bytes of an inline buffer or of window frames that a descriptor names. -/
def localBytes (s : State) (c : Ctx) (d : DescKind) (off len : Nat) : List Byte :=
  match d with
  | .inline b =>
    match sqOf s c.func.toNat (c.sqid.toNat % 64) with
    | some q => (q.inline_.getD b {}).bytes off len
    | none => []
  | .window _ w _ frs => windowBytes s frs (w % 4096 + off) len
  | _ => []

/-- Some byte of a range of an inline buffer or of window frames is poison-marked. -/
def localPoison (s : State) (c : Ctx) (d : DescKind) (off len : Nat) : Bool :=
  match d with
  | .inline b =>
    match sqOf s c.func.toNat (c.sqid.toNat % 64) with
    | some q => q.inlinePoison.contains b
    | none => false
  | .window _ w _ frs =>
    (List.range frs.length).any fun k =>
      decide (4096 * k < w % 4096 + off + len) && decide (w % 4096 + off < 4096 * (k + 1)) &&
        (match frs[k]? with
          | some fr => (frameOf s fr).poison
          | none => false)
  | _ => false

/-- An inline or window source is copied whole. -/
def copyLocal (s : State) (m ch : Nat) (c : Ctx) (d : DescKind) : State :=
  let x := chanOf s m ch
  let h := handleOf c x.dst.index
  let s := putBytes h x (2 * x.blocks + 1) 0 (localBytes s c d x.srcOff x.count) s
  let s := (List.range x.blocks).foldl (fun s k =>
    if localPoison s c d (x.srcOff + k * x.sect) x.sect then
      updChan (markBlocks s h x (k * x.sect) x.sect) m ch fun y => { y with poisoned := true }
    else s) s
  let s := movBytes s m x.count
  toReadback (updChan s m ch fun y => { y with done := y.count }) m ch

/-- Read requests of a HOST source (R412): at most n more, each within MRRS, 4 KiB and an extent. -/
def pump (m ch cx : Nat) : Nat → State → State
  | 0, s => s
  | n + 1, s =>
    let x := chanOf s m ch
    match s.ctxs.find cx with
    | none => s
    | some c =>
      match descIn c x.src.index, fnOf s c.func.toNat with
      | some d, some fn =>
        if x.state != .running || x.count ≤ x.done || 16 ≤ x.inFlight || !readOk s c.func.toNat (x.cls == .express) then s
        else
          match descAddr d (x.srcOff + x.done) with
          | none => s
          | some (a, r) =>
            match translate s c a false with
            | .ok ta =>
              let len := min (min (min fn.mrrs 4096) (4096 - a % 4096)) (min r (x.count - x.done))
              let s := match atsPasid s c with
                | some p => touchAts s c.func.toNat p (a / 4096)
                | none => s
              let s := issueRead s c.func.toNat (.data m ch x.done len) (x.cls == .express) ta len (prefixPasid s c)
              let s := updChan s m ch fun y => { y with done := y.done + len, inFlight := y.inFlight + 1 }
              pump m ch cx n s
            | l => pageStop s m ch cx x d (x.srcOff + x.done) l false
      | _, _ => s

/-- A channel issues transfers: it runs. A host-bound channel sends its bytes with MOVER_CHANNEL_COMPLETE. -/
def runChan (s : State) (m ch : Nat) : State :=
  let s := updChan s m ch fun y => { y with state := .running }
  let x := chanOf s m ch
  match x.ctx with
  | none => s
  | some cx =>
    match s.ctxs.find cx with
    | none => s
    | some c =>
      match descIn c (descHandle x) with
      | none => s
      | some d =>
        if x.src.kind = 0 then lookAhead s c d (descPos x) true
        else if x.src.kind = 1 then
          if x.count ≤ x.done && x.inFlight = 0 then toReadback s m ch
          else pump m ch cx 16 (lookAhead s c d (descPos x) false)
        else copyLocal s m ch c d

/-- The better of two queued channels: higher class, then lower GO sequence number (R406). -/
def betterChan (a b : Nat × Channel) : Nat × Channel :=
  if b.2.cls.code < a.2.cls.code || (b.2.cls == a.2.cls && b.2.seq.toNat < a.2.seq.toNat) then b else a

/-- An idle mover takes the best queued channel (R406). -/
def startBest (s : State) (m : Nat) : State :=
  if (runningOf (moverOf s m)).isSome then s
  else
    match (moverOf s m).chans.filter fun c => c.2.state == .queued with
    | [] => s
    | x :: xs => runChan s m (xs.foldl betterChan x).1

/-! HREAD and HWRITE (R288 to R290, R401 to R403) -/

/-- The failing endpoint of a transfer, 0 source and 1 destination; none when it may start (R289, R403). -/
def operandOf (s : State) (c : Ctx) (write : Bool) (w : Word) (imm : Nat) : Option Nat :=
  let n := wCount w
  let sect := sectorOf (ctxPi s c) c.cmd
  let hd := if write then 1 else 0
  let fr := handleOf c (imm / 16 % 16)
  match descIn c (imm % 16) with
  | none => some hd
  | some d =>
    if 32 < n || decide (descLen d < (wBlock w + n) * sect) || (write && descCode d != 1) then some hd
    else if fr.frameTab.isEmpty || !posOk (wPos w) n then some (1 - hd)
    else if write then none
    else match framesAt fr (wPos w) n with
      | none => some 1
      | some frs => if frs.any fun fr => (frameOf s fr).rdonly then some 1 else none

/-- Frames of a transfer's destination, unprotected as its writing starts (R286). -/
def openFrames (s : State) (c : Ctx) (write : Bool) (w : Word) (imm : Nat) : State :=
  if write then s
  else
    match framesAt (handleOf c (imm / 16 % 16)) (wPos w) (wCount w) with
    | some frs => frs.foldl (fun s fr => updFrame s fr fun f => { f with prot := false, poison := false, zfill := false }) s
    | none => s

/-- The channel of a transfer, QUEUED. -/
def newChan (s : State) (c : Ctx) (cx : Nat) (write : Bool) (w : Word) (imm dst : Nat) (seq : BitVec 32) : Channel :=
  let pi := ctxPi s c
  let sect := sectorOf pi c.cmd
  let k := piCtl c.cmd
  let host : Endpoint := { kind := ((descIn c (imm % 16)).map descCode).getD 0, index := imm % 16 }
  let fr : Endpoint := { kind := 0, index := imm / 16 % 16 }
  { state := .queued, cls := eclass c, ep := write && imm.testBit 8,
    src := if write then fr else host, dst := if write then host else fr,
    srcOff := if write then 4096 * wPos w else wBlock w * sect,
    dstOff := if write then wBlock w * sect else 4096 * wPos w,
    count := wCount w * sect, ctx := some cx,
    ilv := BitVec.ofNat 32 (1 + bit (sect == 4104) 1 + bit (pi && k.pis) 2 + bit (pi && k.chkApp) 3 + bit (pi && k.chkRef) 4 +
      (wCount w - 1) * 2 ^ 16),
    seq := seq, dstReg := dst, pc := c.pc, first := wPos w, block := wBlock w, blocks := wCount w, sect := sect }

/-- A transfer's channel is started on a channel at hand (R401, R406, R407): an Express one takes the mover from
a running channel of a lower class at once. -/
def startChan (s : State) (cx m ch : Nat) (write : Bool) (w : Word) (imm dst : Nat) : State :=
  match s.ctxs.find cx with
  | none => s
  | some c =>
    let s := openFrames s c write w imm
    let x := newChan s c cx write w imm dst (moverOf s m).nextSeq
    let s := putChan (updMover s m fun y => { y with nextSeq := y.nextSeq + 1 }) m ch x
    let s := updCtx s cx fun c => { c with wait := .mover }
    match fnOf s c.func.toNat with
    | none => s
    | some fn =>
      if !fn.bme && (x.src.kind == 1 || x.dst.kind == 1) then pauseChan s m ch 2
      else
        match runningOf (moverOf s m) with
        | some (r, y) =>
          if x.cls == .express && y.cls != .express then
            let s := markFresh (updMover (pauseChan s m r 0) m fun z => { z with cntPreempt := satInc z.cntPreempt }) (.mov m) 0x10 0 1
            runChan s m ch
          else s
        | none => s

/-- The context waits for a channel, behind those that came before it (R401). -/
def awaitChan (s : State) (cx : Nat) (write : Bool) (w : Word) (imm dst : Nat) : State :=
  let (n, s) := nextSeq s
  updCtx (startWait s cx (.channel write w imm dst)) cx fun c => { c with since := n }

/-- Contexts of a cluster that wait for a channel and would find one. -/
def chanWaiters (s : State) (cluster : Nat) : List (Nat × Ctx) :=
  s.ctxs.filter fun x => x.2.cluster == cluster && (match x.2.wait with
    | .channel _ _ _ _ => (freeChan s cluster (eclass x.2 == .express)).isSome
    | _ => false)

/-- Free channels of a cluster go to the contexts that wait: by class, then first in first out (R401). -/
def grantChans (cluster : Nat) : Nat → State → State
  | 0, s => s
  | n + 1, s =>
    match chanWaiters s cluster with
    | [] => s
    | x :: xs =>
      let y := xs.foldl betterWaiter x
      match y.2.wait, freeChan s cluster (eclass y.2 == .express) with
      | .channel write w imm dst, some (m, ch) => grantChans cluster n (startChan s y.1 m ch write w imm dst)
      | _, _ => s

/-- Grant to every context that may be granted. -/
def grantAll (s : State) (cluster : Nat) : State := grantChans cluster 32 s

/-- The instruction that waits on a channel completes with a result; the channel returns to IDLE. -/
def finishChan (s : State) (m ch : Nat) (result : Nat) : State :=
  let x := chanOf s m ch
  let t := now s
  let s := updMover (delChan s m ch) m fun y => if x.cls == .express then { y with expressTs := some t } else y
  match x.ctx with
  | none => s
  | some cx =>
    let s := finishWait s cx fun c =>
      let c := setGreg c x.dstReg (BitVec.ofNat 64 result)
      { c with poison := c.poison || result == 6 }
    grantAll s (m / 2)

/-- The channel of this instruction: one that a retry resumes (R266, R267, R290). -/
def ownChan (s : State) (cx : Nat) (pc : BitVec 24) : Option (Nat × Nat) :=
  s.movers.findSome? fun m => (m.2.chans.find? fun c => c.2.ctx == some cx && c.2.pc == pc).map fun c => (m.1, c.1)

/-- A channel whose page may be usable now goes on, waits, or faults again (R415). -/
def recheckChan (s : State) (m ch : Nat) : State :=
  let x := chanOf s m ch
  match x.ctx with
  | none => s
  | some cx =>
    match s.ctxs.find cx with
    | none => s
    | some c =>
      if !x.causes.getLsbD 1 || c.wait != .mover then s
      else
        match descIn c (descHandle x) with
        | none => s
        | some d =>
          let write := x.src.kind == 0
          match descAddr d (descPos x) with
          | none => s
          | some (a, _) =>
            match translate s c a write with
            | .ok _ => startBest (clearCause s m ch 1) m
            | .denied => raiseTranslation s cx (descHandle x) (descPos x) d write
            | .miss => lookAhead s c d (descPos x) write
            | .pending => s

/-- A retry of HREAD or HWRITE resumes its own channel. -/
def resumeOwn (s : State) (cx m ch : Nat) : State :=
  let s := startWait s cx .mover
  startBest (recheckChan (clearCause s m ch 3) m ch) m

/-- HREAD and HWRITE. -/
def hostTransfer (i : Ins) (write : Bool) (c : Ctx) (s : State) : State :=
  let w := i.ga c
  let imm := i.imm.toNat
  if c.posted.isSome || flrNow s c.func.toNat then completeD s i 9
  else
    match ownChan s i.cx c.pc with
    | some (m, ch) => resumeOwn s i.cx m ch
    | none =>
      match operandOf s c write w imm with
      | some e =>
        let m := chooseMover s c.cluster
        let s := movRefused s m
        completeD (logErr s 0x0C01 .movers { func := c.func.toNat } (m + 0xFF * 2 ^ 8 + e * 2 ^ 16)) i opErr
      | none =>
        match freeChan s c.cluster (eclass c == .express) with
        | some (m, ch) => startChan (startWait s i.cx .mover) i.cx m ch write w imm i.d.toNat
        | none => awaitChan s i.cx write w imm i.d.toNat

/-- HREAD (R288 to R290, R401). -/
def execHread (i : Ins) (s : State) : Host.Outcome State Fault Refusal :=
  runIns i (i.modIn 0 && i.noB && i.immIn 8) hostKind s (hostTransfer i false)

/-- HWRITE (R288 to R290, R401). -/
def execHwrite (i : Ins) (s : State) : Host.Outcome State Fault Refusal :=
  runIns i (i.modIn 0 && i.noB && i.immIn 9) hostKind s (hostTransfer i true)

/-! Completion (R410) -/

/-- Blocks bound to volume blocks are mapped as dirty, and lose a poison mark of the list (R123, R290, R332). -/
def mapBound (s : State) (fr : Nat) : State :=
  let f := frameOf s fr
  match f.bound with
  | some (v, l) => if f.reread then s else clearPoison (mapDirty s fr v l) v l
  | none => s

/-- The result of a FRAME channel (R289). -/
def frameResult (x : Channel) : Nat := if x.piBad then 7 else if x.poisoned then 6 else 0

/-- A FRAME channel completes: its frames become protected, and bound ones are mapped unless the check failed
(R286, R290, R410). -/
def completeFrames (s : State) (m ch : Nat) : State :=
  let x := chanOf s m ch
  match x.ctx.bind fun cx => s.ctxs.find cx with
  | none => s
  | some c =>
    let frs := (List.range x.blocks).filterMap fun k => (handleOf c x.dst.index).at_ (x.first + k)
    let s := frs.foldl protectFrame s
    let s := if x.piBad then s else frs.foldl mapBound s
    finishChan s m ch (frameResult x)

/-- A second failed read-back: the channel pauses at the start of the failing block, and the instruction raises
POISON (R410, R320). -/
def readbackFail (s : State) (m ch : Nat) : State :=
  let x := chanOf s m ch
  match x.ctx with
  | none => s
  | some cx =>
    match s.ctxs.find cx with
    | none => s
    | some c =>
      let k := x.blocks - 1
      let fr := ((handleOf c x.dst.index).at_ (x.first + k)).getD 0
      let s := updFrame (logErr s 0x0C02 .movers {} fr) fr fun f => { f with retireLast := true, badLines := [63] }
      let s := updChan s m ch fun y => { y with state := .running, done := k * y.sect, readbacks := 0 }
      poisonFault (wake (pauseChan s m ch 3) cx) cx (x.dst.index + (x.first + k) * 16)

/-- MOVER_READBACK (R410): valid check bits complete the channel; the first failure writes the line again. -/
def execMoverReadback (m c : Nat) (valid : Bool) (s : State) : Host.Outcome State Fault Refusal :=
  .next (
    let x := chanOf s m c
    if x.state != .readback then s
    else if valid then completeFrames s m c
    else if x.readbacks = 0 then updChan s m c fun y => { y with readbacks := 1 }
    else readbackFail s m c)

/-- The block of a host-bound transfer that sector k carries is poison-marked (R123). -/
def blockPoison (s : State) (c : Ctx) (x : Channel) (k : Nat) : Bool :=
  (match (handleOf c x.src.index).at_ (x.first + k) with
    | some fr => (frameOf s fr).poison
    | none => false) ||
  (match c.vol with
    | some v => inPoisonList s v (eLba c.cmd + x.block + k)
    | none => false)

/-- n bytes of sector k of a host-bound transfer from byte o of the sector; an empty position is zeros. -/
def sectorBytes (s : State) (c : Ctx) (x : Channel) (k o n : Nat) : List Byte :=
  match (handleOf c x.src.index).at_ (x.first + k) with
  | none => List.replicate n 0
  | some fr =>
    let f := frameOf s fr
    (List.range n).map fun j => if o + j < 4096 then f.data.read (o + j) else piByte f.pi (o + j - 4096)

/-- What stops a host-bound transfer before a sector: an uncorrectable line, or a failed guard (R182, R289,
R290); EP waives the guard. -/
inductive SectorStop where
  | clear
  | poison
  | guard
  deriving DecidableEq, Repr

/-- The stop before sector k. -/
def sectorStop (s : State) (c : Ctx) (x : Channel) (k : Nat) : SectorStop :=
  match (handleOf c x.src.index).at_ (x.first + k) with
  | none => .clear
  | some fr =>
    let f := frameOf s fr
    if !f.badLines.isEmpty then .poison
    else if ctxPi s c && !x.ep && !guardOk f.data f.pi then .guard else .clear

/-- The tags of sector k mismatch (R182). -/
def sectorTags (s : State) (c : Ctx) (x : Channel) (k : Nat) : Bool :=
  match (handleOf c x.src.index).at_ (x.first + k) with
  | none => false
  | some fr => ctxPi s c && !tagsOk (piCtl c.cmd) (x.block + k) (frameOf s fr).pi

/-- The result of a host-bound channel (R289). -/
def hostResult (x : Channel) : Nat := if x.piBad then 7 else if x.poisoned then 6 else 0

/-- Send the data TLPs of a host-bound channel, at most n (R116, R412): none crosses a sector, a 4 KiB address
boundary or MPS. -/
def sendData (m ch cx : Nat) : Nat → State → State
  | 0, s => s
  | n + 1, s =>
    let x := chanOf s m ch
    match s.ctxs.find cx with
    | none => s
    | some c =>
      if x.count ≤ x.done then finishChan s m ch (hostResult x)
      else
        match descIn c x.dst.index, fnOf s c.func.toNat with
        | some d, some fn =>
          let k := x.done / x.sect
          let o := x.done % x.sect
          let stop := if o = 0 then sectorStop s c x k else .clear
          match stop with
          | .guard => finishChan s m ch (0xF0 + k * 2 ^ 8)
          | .poison => poisonFault (wake (pauseChan s m ch 3) cx) cx (x.src.index + (x.first + k) * 16)
          | .clear =>
            match descAddr d (x.dstOff + x.done) with
            | none => s
            | some (a, r) =>
              match translate s c a true with
              | .ok ta =>
                let len := min (min fn.mps (4096 - a % 4096)) (min r (x.sect - o))
                let bad := blockPoison s c x k
                let ep := x.ep || bad
                let s := emit s (.hostData c.func.toNat ta (sectorBytes s c x k o len) ep fn.ro (prefixPasid s c))
                let s := if ep then
                    updCtx (poisonOut s c.func.toNat) cx fun c => { c with poison := true }
                  else s
                let s := match atsPasid s c with
                  | some p => touchAts s c.func.toNat p (a / 4096)
                  | none => s
                let s := movBytes s m len
                let s := updChan s m ch fun y =>
                  { y with done := y.done + len, poisoned := y.poisoned || ep,
                           piBad := y.piBad || (o == 0 && sectorTags s c y k) }
                sendData m ch cx n s
              | l => pageStop s m ch cx x d (x.dstOff + x.done) l true
        | _, _ => s

/-! Channel 15 (R400, R403 to R405) -/

/-- Entries of a buffer list: address, length, rsvd (R154). -/
def listExtents (bs : List Byte) (n : Nat) : List (Nat × Nat × Nat) :=
  (List.range n).map fun k =>
    (leNat ((bs.drop (16 * k)).take 8), leNat ((bs.drop (16 * k + 8)).take 4), leNat ((bs.drop (16 * k + 12)).take 4))

/-- A buffer list keeps the limits of R154. -/
def listOk (es : List (Nat × Nat × Nat)) (total : Nat) : Bool :=
  es.all (fun e => e.1 % 4 == 0 && e.2.1 != 0 && e.2.1 % 4 == 0 && e.2.2 == 0) &&
    (es.map fun e => e.2.1).sum == total

/-- Entries of the buffer list of an admin command, none before it is read. -/
def adminList (a : AdminCmd) : List (Nat × Nat × Nat) := listExtents a.list (min (eBits a.entry 32 0 16) (a.list.length / 16))

/-- Extents of the data of an admin command: one of its own, or those of its buffer list (R152, R154). -/
def adminExtents (a : AdminCmd) : List (Nat × Nat) :=
  if eDpk a.entry = 0 then [(eBits a.entry 24 0 64, eBits a.entry 32 0 32)] else (adminList a).map fun e => (e.1, e.2.1)

/-- Length of the data pointer of an admin command. -/
def adminLen (a : AdminCmd) : Nat := ((adminExtents a).map Prod.snd).sum

/-- The data of an admin command is not known to end before an offset: a list that is not read yet sets no limit (R403). -/
def adminHolds (a : AdminCmd) (off : Nat) : Bool := decide (off < adminLen a) || (eDpk a.entry == 1 && a.list.isEmpty)

/-- A pattern's LINE, STRIDE and LINES. -/
def patLine (p : Word) : Nat := fieldOf p 0 20
/-- STRIDE. -/
def patStride (p : Word) : Nat := fieldOf p 20 20
/-- LINES. -/
def patLines (p : Word) : Nat := fieldOf p 40 16

/-- A pattern keeps the limits of R404 for a count. -/
def patOk (p : Word) (count : Nat) : Bool :=
  patLine p == 0 || (patLine p * patLines p == count && decide (patLine p ≤ patStride p))

/-- Offset of byte k of a transfer on a side with a pattern (R404). -/
def patOffset (p : Word) (base k : Nat) : Nat :=
  if patLine p = 0 then base + k else base + k / patLine p * patStride p + k % patLine p

/-- Offset of byte k on the frame side in interleave mode (R405). -/
def ilvOffset (ilv : BitVec 32) (base k : Nat) : Nat :=
  let sect := if ilv.getLsbD 1 then 4104 else 4096
  let l := fieldOf ilv 16 8 + 1
  base + 4096 * (k / sect / l * (fieldOf ilv 24 8 + 1) + k / sect % l) + k % sect

/-- Offset on the signal box side of channel 15. -/
def sboxOffset (x : Channel) (pat : Word) (base k : Nat) : Nat :=
  if x.ilv.getLsbD 0 then ilvOffset x.ilv base k else patOffset pat base k

/-- Bytes of signal box SRAM (00_scope, on-chip memories). -/
def sramBytes : Nat := 4194304

/-- The failing endpoint of a GO of channel 15; none when it may start (R403, R404). -/
def goCheck (s : State) (x : Channel) : Option Nat :=
  match s.mbx.adminQ.head? with
  | none => some (if x.src.kind = 1 then 0 else 1)
  | some a =>
    let last := x.count - 1
    if !patOk x.spat x.count then some 0
    else if !patOk x.dpat x.count then some 1
    else if x.count = 0 then some 0
    else if x.src.kind = 1 && x.dst.kind = 4 then
      if !adminHolds a (patOffset x.spat x.srcOff last) then some 0
      else if sramBytes ≤ sboxOffset x x.dpat x.dstOff last then some 1 else none
    else if x.src.kind = 4 && x.dst.kind = 1 then
      if sramBytes ≤ sboxOffset x x.spat x.srcOff last then some 0
      else if !adminHolds a (patOffset x.dpat x.dstOff last) then some 1 else none
    else some (if x.src.kind = 1 || x.src.kind = 4 then 1 else 0)

/-- MOV_CH_GO (R403, R425): firmware starts channel 15. -/
def execMovChGo (m : Nat) (s : State) : Host.Outcome State Fault Refusal :=
  .next (
    let x := chanOf s m 15
    if x.state != .idle && x.state != .done then s
    else
      match goCheck s x with
      | some e =>
        let s := putChan s m 15 { x with state := .done, result := 0xFE, go := true }
        let s := movRefused s m
        logErr s 0x0C01 .movers {} (m + 15 * 2 ^ 8 + e * 2 ^ 16)
      | none =>
        let seq := (moverOf s m).nextSeq
        let s := updMover s m fun y => { y with nextSeq := y.nextSeq + 1 }
        let s := putChan s m 15
          { x with state := .queued, go := true, cls := .standard, done := 0, result := 0, causes := 0, seq := seq }
        if x.hold then pauseChan s m 15 4 else s)

/-- MOV_CH_HOLD (R409): cause FIRMWARE of channel 15. -/
def execMovChHold (m : Nat) (hold : Bool) (s : State) : Host.Outcome State Fault Refusal :=
  .next (
    let s := putChan s m 15 { (chanOf s m 15) with hold := hold }
    if hold then pauseChan s m 15 4 else startBest (clearCause s m 15 4) m)

/-- Data of an admin command leaves for the host, with the Relaxed Ordering of its PF (R115). -/
def emitAdmin (s : State) (a : AdminCmd) (bytes : List Byte) : State :=
  emit s (.adminData a.port (eCid a.entry) (adminExtents a) bytes (((fnOf s (64 * a.port)).map Func.ro).getD false))

/-- The transfer of channel 15 for the admin command being served (R402, R403). Host data that no command has carried here
yet is free (log entry 2). -/
def sboxTransfer (s : State) (m : Nat) (x : Channel) : State :=
  match s.mbx.adminQ.head? with
  | none => s
  | some a =>
    let s :=
      if x.src.kind = 1 then
        { s with
          freeCtr := s.freeCtr + 1
          mbx := { s.mbx with sram := (List.range x.count).foldl (fun r k =>
            let o := patOffset x.spat x.srcOff k
            r.write (sboxOffset x x.dpat x.dstOff k) (a.data.getD o (Config.freeByte s.freeCtr o))) s.mbx.sram } }
      else emitAdmin s a ((List.range x.count).map fun k => s.mbx.sram.read (sboxOffset x x.spat x.srcOff k))
    let s := movBytes s m x.count
    updChan s m 15 fun y => { y with state := .done, done := y.count, result := 0 }

/-- MOVER_CHANNEL_COMPLETE (R410): the host-bound channel that runs, or channel 15, sends its bytes. -/
def execMoverChannelComplete (m c : Nat) (s : State) : Host.Outcome State Fault Refusal :=
  .next (
    let x := chanOf s m c
    if x.state != .running then s
    else if c = 15 then sboxTransfer s m x
    else
      match x.ctx with
      | none => s
      | some cx =>
        match (s.ctxs.find cx).bind fun c => fnOf s c.func.toNat with
        | some fn => if x.src.kind = 0 && upstreamOk s fn then sendData m c cx (x.count + 1) s else s
        | none => s)

/-- MOVER_CHANNEL_START (R406); contexts that wait for a channel are served first. -/
def execMoverChannelStart (m : Nat) (s : State) : Host.Outcome State Fault Refusal :=
  .next (startBest (grantAll s (m / 2)) m)

/-- Clear a cause on every channel of a mover that carries it. -/
def clearAll (s : State) (m bit_ : Nat) : State :=
  (moverOf s m).chans.foldl (fun s c => if c.2.causes.getLsbD bit_ then clearCause s m c.1 bit_ else s) s

/-- MOVER_RESUME (R407): no Express channel is queued or running on the mover any more, from the slot after the last one's
completion. -/
def execMoverResume (m : Nat) (s : State) : Host.Outcome State Fault Refusal :=
  .next (if (expressLive (moverOf s m)).isEmpty && (moverOf s m).expressTs != some (now s) then startBest (clearAll s m 0) m else s)

/-! Host data that arrives (R126, R408) -/

/-- Requests of the channels of a class go on when a tracker may have come free (R128). -/
def pumpAll (cl : Cls) (s : State) : State :=
  (s.movers.map fun m => (m.2.chans.filter fun c => c.2.state == .running && c.2.src.kind == 1 && c.2.cls == cl).map fun c =>
      (m.1, c.1, c.2.ctx)).flatten.foldl (fun s x =>
    match x.2.2 with
    | some cx => pump x.1 x.2.1 cx 16 s
    | none => s) s

/-- One request of a channel has ended: a channel that drains is PAUSED, a stopped one IDLE (R408, R409). -/
def landed (s : State) (m ch : Nat) : State :=
  let s := updChan s m ch fun y =>
    let n := y.inFlight - 1
    { y with inFlight := n, state := if n = 0 && y.state == .pausing then .paused else y.state }
  let x := chanOf s m ch
  if x.ctx.isNone && x.inFlight = 0 && ch != 15 then grantAll (delChan s m ch) (m / 2) else s

/-- Data of a channel's read arrives (R122, R408). -/
def dataArrives (s : State) (m ch pos len : Nat) (bytes : List Byte) (ep : Bool) : State :=
  let x := chanOf s m ch
  let s := match x.ctx.bind fun cx => s.ctxs.find cx with
    | none => s
    | some c =>
      let h := handleOf c x.dst.index
      let s := putBytes h x (2 * x.blocks + 2) pos (bytes.take len) s
      let s := movBytes s m len
      if ep then updChan (markBlocks s h x pos len) m ch fun y => { y with poisoned := true } else s
  let s := landed s m ch
  let x := chanOf s m ch
  if x.state == .running && x.count ≤ x.done && x.inFlight = 0 then toReadback s m ch else s

/-- A read of a channel failed: the instruction ends with HOST_FAULT (R289, R412). -/
def dataFails (s : State) (m ch : Nat) : State :=
  let x := chanOf s m ch
  let s := landed s m ch
  match x.ctx with
  | none => s
  | some cx =>
    match s.ctxs.find cx with
    | none => s
    | some c =>
      if c.wait != .mover && c.state != .translating then s
      else
        let s := finishWait s cx fun c => setGreg c x.dstReg 9
        grantAll (updMover s m fun y => dropChans cx y) (m / 2)

/-! DESC and POST (R288, R289, R291) -/

/-- The buffer list of a DESC that waits has arrived: it is judged (R154). -/
def listArrives (s : State) (cx : Nat) (bytes : List Byte) (ep : Bool) : State :=
  match s.ctxs.find cx with
  | none => s
  | some c =>
    match c.wait with
    | .list dst k =>
      let es := listExtents bytes (eBits c.cmd 32 0 16)
      if ep then finishWait (releaseHandle s cx k) cx fun c => setGreg c dst 9
      else if listOk es (dataLen (ctxPi s c) c.cmd) then
        let fr := match handleOf c k with
          | .desc (.list _ fr) => fr
          | _ => 0
        let s := fillFrame s fr 0 bytes
        let s := setHandle s cx k (.desc (.list (es.map fun e => (e.1, e.2.1)) fr))
        finishWait s cx fun c => setGreg c dst 0
      else finishWait (releaseHandle s cx k) cx fun c => setGreg c dst 3
    | _ => s

/-- The read of a buffer list failed (R126). -/
def listFails (s : State) (cx : Nat) : State :=
  match s.ctxs.find cx with
  | none => s
  | some c =>
    match c.wait with
    | .list dst k => finishWait (releaseHandle s cx k) cx fun c => setGreg c dst 9
    | _ => s

/-- Issue the list read of a context that waits for one and has none outstanding. -/
def askList (s : State) (cx : Nat) : State :=
  match s.ctxs.find cx with
  | none => s
  | some c =>
    match c.wait with
    | .list _ _ =>
      if s.reads.any fun r => r.2.purpose == .list cx && !r.2.quarantined then s
      else if readOk s c.func.toNat (c.cls == .express) then
        issueRead s c.func.toNat (.list cx) (c.cls == .express) (eBits c.cmd 24 0 64) (16 * eBits c.cmd 32 0 16)
      else s
    | _ => s

/-- List reads of a class that could not be issued are issued when they may (R128). -/
def askLists (cl : Cls) (s : State) : State := (Tab.keys (s.ctxs.filter fun x => x.2.cls == cl)).foldl askList s

/-- DESC ends with a descriptor in its handle. -/
def giveDesc (s : State) (i : Ins) (k : Nat) (d : DescKind) : State := completeD (setHandle s i.cx k (.desc d)) i 0

/-- DESC (R288, R413): the descriptor of the command's own data pointer. -/
def execDesc (i : Ins) (s : State) : Host.Outcome State Fault Refusal :=
  runIns i (i.modIn 0 && i.noA && i.noB && i.immIn 4) hostKind s fun c s =>
    let k := i.imm.toNat
    if c.posted.isSome || flrNow s c.func.toNat then completeD s i 9
    else
      let s := releaseHandle s i.cx k
      if eDpk c.cmd = 0 then giveDesc s i k (.host (eBits c.cmd 24 0 64) (eBits c.cmd 32 0 32))
      else if eDpk c.cmd = 2 then giveDesc s i k (.inline (eBits c.cmd 24 0 4))
      else if eDpk c.cmd = 3 then
        giveDesc (c.pinned.foldl pinFrame s) i k (.window (eBits c.cmd 24 0 4) (eBits c.cmd 28 0 32) (eBits c.cmd 32 0 32) c.pinned)
      else if !callocRoom s c 1 then startWait s i.cx .frames
      else
        match allocFrame s fun m => { pins := 1, stage := true, data := m } with
        | none => startWait s i.cx .frames
        | some (fr, s) =>
          askList (startWait (setHandle s i.cx k (.desc (.list [] fr))) i.cx (.list i.d.toNat k)) i.cx

/-- Close the descriptor handles of a context (R288). -/
def closeDescs (s : State) (cx : Nat) : State :=
  match s.ctxs.find cx with
  | none => s
  | some c => (c.h.filter fun x => match x.2 with
      | .desc _ => true
      | _ => false).foldl (fun s x => releaseHandle s cx x.1) s

/-- STATUS that a POST posts: a value that R175 does not define is PROGRAM_FAULT (R291). -/
def postStatus (v : Word) : BitVec 8 := if v.toNat % 256 < 15 then v.truncate 8 else 0x0C#8

/-- POST (R288, R291). -/
def execPost (i : Ins) (s : State) : Host.Outcome State Fault Refusal :=
  runIns i (i.modIn 0 && i.noD && i.noB && i.imm == 0) hostKind s fun c s =>
    let s := complete s i.cx id
    let s := closeDescs s i.cx
    postCtx s i.cx (postStatus (i.ga c))

/-! Translation events (R415 to R417) -/

/-- Entries of the ATS cache after a new one: the least recently used of the function, or of the part, makes room
(R415). -/
def insertAts (l : List AtsEnt) (e : AtsEnt) : List AtsEnt :=
  let l := l.filter fun x => !(x.func == e.func && x.pasid == e.pasid && decide (e.page ≤ x.page) &&
    decide (x.page + x.pages ≤ e.page + e.pages))
  let mine := l.filter fun x => x.func == e.func
  let l := if 2048 ≤ mine.length then
      match mine.getLast? with
      | some y => l.filter (· != y)
      | none => l
    else if 16384 ≤ l.length then l.dropLast else l
  e :: l

/-- Every channel of a class that a page holds is looked at again: a Translation Request that found no tracker is sent now
(R128, R415). -/
def recheckClass (cl : Cls) (s : State) : State :=
  (s.movers.map fun m => (m.2.chans.filter fun c => c.2.causes.getLsbD 1 && c.2.cls == cl).map fun c => (m.1, c.1)).flatten.foldl
    (fun s x => recheckChan s x.1 x.2) s

/-- Every channel that a page holds is looked at again. -/
def recheckAll (s : State) : State :=
  (s.movers.map fun m => (m.2.chans.filter fun c => c.2.causes.getLsbD 1).map fun c => (m.1, c.1)).flatten.foldl
    (fun s x => recheckChan s x.1 x.2) s

/-- TRANSLATION_COMPLETION (R415): an answer to a pending request installs what the host granted. -/
def execTranslationCompletion (f pasid page pages : Nat) (addr : Word) (read write : Bool) (s : State) :
    Host.Outcome State Fault Refusal :=
  .next (
    let asked := (List.range pages).any fun k => atsPending s f pasid (page + k)
    if !asked then unexpected s f
    else
      let rs := s.reads.filterMap fun r => match r.2.purpose with
        | .ats p ps =>
          if r.2.func == f && p == pasid && !r.2.quarantined then
            let left := ps.filter fun g => !(decide (page ≤ g) && decide (g < page + pages))
            if left.isEmpty then none else some (r.1, { r.2 with purpose := .ats p left })
          else some r
        | _ => some r
      let e : AtsEnt := { func := f, pasid := pasid, page := page, pages := pages, addr := addr, read := read, write := write }
      recheckAll { s with reads := rs, xlate := { s.xlate with ats := insertAts s.xlate.ats e } })

/-- A Translation Request failed or timed out: the host has refused, and each command that waits on one of its
pages completes HOST_FAULT (R126, R266). -/
def atsFails (s : State) (f pasid : Nat) (pages : List Nat) : State :=
  (s.movers.map fun m => (m.2.chans.filter fun c => c.2.causes.getLsbD 1).map fun c => c.2).flatten.foldl (fun s x =>
    match x.ctx with
    | none => s
    | some cx =>
      match s.ctxs.find cx with
      | none => s
      | some c =>
        match descIn c (descHandle x) with
        | none => s
        | some d =>
          match descAddr d (descPos x) with
          | some (a, _) =>
            if c.func.toNat == f && atsPasid s c == some pasid && pages.contains (a / 4096) then
              fatalAs s cx .translation (descHandle x + descPos x / 4096 % 2 ^ 28 * 16) .hostFault
            else s
          | none => s) s

/-- Tags of the data reads of a function that carry translated addresses. -/
def translatedReads (s : State) (f : Nat) : List Nat :=
  Tab.keys (s.reads.filter fun r => r.2.func == f && !r.2.quarantined && (match r.2.purpose with
    | .data m ch _ _ =>
      match ((chanOf s m ch).ctx.bind fun cx => s.ctxs.find cx) with
      | some c => (atsPasid s c).isSome
      | none => true
    | _ => false))

/-- ATS_INVALIDATE (R416): the entries it covers go at once; at most 32 wait for each function. -/
def execAtsInvalidate (f itag page pages : Nat) (s : State) : Host.Outcome State Fault Refusal :=
  .next (
    if 32 ≤ (s.xlate.invals.filter fun v => v.1 == f).length then s
    else
      let tags := translatedReads s f
      { s with xlate := { s.xlate with
          ats := s.xlate.ats.filter fun e =>
            !(e.func == f && decide (e.page < page + pages) && decide (page < e.page + e.pages)),
          invals := s.xlate.invals ++ [(f, itag, tags)] } })

/-- The oldest pending invalidation of a function. -/
def firstInval (s : State) (f : Nat) : Option (Nat × Nat × List Nat) := s.xlate.invals.find? fun v => v.1 == f

/-- ATS_INVALIDATE_COMPLETION (R416): after the reads issued with the entries have ended, in order of arrival. -/
def execAtsInvalidateCompletion (f itag : Nat) (s : State) : Host.Outcome State Fault Refusal :=
  .next (match firstInval s f with
    | none => s
    | some v =>
      let live := v.2.2.any fun t => match s.reads.find t with
        | some r => !r.quarantined
        | none => false
      if v.2.1 == itag && !live then
        emit { s with xlate := { s.xlate with invals := s.xlate.invals.erase v } } (.invalidateDone f itag)
      else s)

/-- A page request group leaves, with its timer. -/
def dropPrg (s : State) (g : Prg) : State :=
  { s with
    reads := s.reads.filter fun r => !(r.2.func == g.func && r.2.purpose == .page g.index)
    xlate := { s.xlate with prgs := s.xlate.prgs.erase g } }

/-- The command of a group's context completes HOST_FAULT (R266, R417). -/
def prgFails (s : State) (g : Prg) : State :=
  match s.ctxs.find g.ctx with
  | some c =>
    if c.state == .translating then
      fatalAs { s with ctxs := s.ctxs } g.ctx .translation (fieldOf c.fault 32 32) .hostFault
    else s
  | none => s

/-- A group completes with Success: what the host denied is asked again when the context retries (R266, R417). -/
def prgSucceeds (s : State) (g : Prg) : State :=
  let s := { s with xlate := { s.xlate with
      ats := s.xlate.ats.filter fun e => !(e.func == g.func && e.pasid == g.pasid &&
        g.pages.any fun p => decide (e.page ≤ p) && decide (p < e.page + e.pages)),
      tries := g.pages.foldl (fun t p => (g.ctx, p, triesOf s g.ctx p + 1) :: t.filter fun x => !(x.1 == g.ctx && x.2.1 == p))
        s.xlate.tries } }
  match s.ctxs.find g.ctx with
  | some c => if c.state == .translating then wake s g.ctx else s
  | none => s

/-- PRG_RESPONSE (R417). -/
def execPrgResponse (f pasid index : Nat) (code : PrgCode) (s : State) : Host.Outcome State Fault Refusal :=
  .next (match s.xlate.prgs.find? fun g => g.func == f && g.pasid == pasid && g.index == index && g.sent with
    | none => logErr (unexpected s f) 0x0C12 .translation { func := f } (pasid + index * 2 ^ 20)
    | some g =>
      let s := dropPrg s g
      let s := match code with
        | .success => prgSucceeds s g
        | .invalid => prgFails (logErr s 0x0C11 .translation { func := f } (pasid + index * 2 ^ 20 + 2 ^ 32)) g
        | .failure =>
          prgFails (updFunc (logErr s 0x0C11 .translation { func := f } (pasid + index * 2 ^ 20 + 15 * 2 ^ 32)) f
            fun fn => { fn with priStop := true }) g
      sendPrgs s f)

/-! THREAD_RESUME (R19) -/

/-- A waiting context goes on if what it awaits has come about. -/
def tryResume (s : State) (cx : Nat) : State :=
  match s.ctxs.find cx with
  | none => s
  | some c =>
    if c.state != .waiting then s
    else
      match c.wait with
      | .tickets _ _ _ => tryTickets s cx
      | .ticketFree _ => tryTickets s cx
      | .retire _ _ _ _ => tryRetire s cx
      | .channel _ _ _ _ => grantAll s c.cluster
      | .list _ _ => askList s cx
      | .frames => if callocRoom s c 1 then wake s cx else s
      | .record => if recsUsed s < Config.journalRecords then wake s cx else s
      | .memQueue p =>
        match s.mports.find p with
        | some mp => if queueRoom s p mp (eclass c) c.cluster then wake s cx else s
        | none => wake s cx
      | _ => s

/-- THREAD_RESUME (R19). -/
def execThreadResume (cx : Nat) (s : State) : Host.Outcome State Fault Refusal := .next (tryResume s cx)

end Sys2Proof.Machine
end

