-- ==== Sys2Proof/Machine/Windows.lean ====
section
/-! DEFINITION. Peer windows: incoming writes, commits and their staging frames (R419 to R424, R427). -/

namespace Sys2Proof.Machine

/-- A window of a function; one never written is at its reset values. -/
def winOf (fn : Func) (w : Nat) : Window := fn.windows.getD w {}

/-- Change a window. -/
def updWin (s : State) (f w : Nat) (g : Window → Window) : State :=
  updFunc s f fun fn => { fn with windows := fn.windows.put w (g (winOf fn w)) }

/-- Bytes of a window's aperture (R419). -/
def aperture (f : Nat) : Nat := if isPF f then 1048576 else 131072

/-- A staging frame for each page. -/
def winFrames (n : Nat) (s : State) : Option (List Nat × State) :=
  if n + Config.frameReserve ≤ framesAvail s then
    allocFrames n 0 (fun _ m => { pins := 1, stage := true, data := m }) s
  else none

/-- Copy the shadow set to the set in force. -/
def inForce (x : Window) : Window :=
  { x with en := x.shEn, ridChk := x.shRidChk, size := x.shSize, rid := x.shRid, gen := x.shGen, evt := x.shEvt,
           commitPend := false, commitWait := [] }

/-- The commands that wait for a commit complete (R424). -/
def commitDone (s : State) (as : List AdminCmd) : State := as.foldl (fun s a => adminDone s a .success false) s

/-- A commit (R420, R421): new staging frames when it sets EN or changes the size, none when it clears EN. It waits
while frames are short. -/
def winCommit (s : State) (f w : Nat) : State :=
  match fnOf s f with
  | none => s
  | some fn =>
    let x := winOf fn w
    let old := Tab.vals x.pages
    if !x.shEn then
      commitDone (wakeFrameWaiters (unpinAll (updWin s f w fun y => { inForce y with pages := [] }) old)) x.commitWait
    else if x.en && x.shSize == x.size then commitDone (updWin s f w inForce) x.commitWait
    else
      match winFrames (x.shSize / 4096) s with
      | none => updWin s f w fun y => { y with commitPend := true }
      | some (frs, s) =>
        let s := updWin s f w fun y => { inForce y with pages := (List.range frs.length).zip frs }
        commitDone (wakeFrameWaiters (unpinAll s old)) x.commitWait

/-- WIN_COMMIT (R420, R421). -/
def execWinCommit (f w : Nat) (s : State) : Host.Outcome State Fault Refusal :=
  .next (if w < 16 then winCommit s f w else s)

/-- WIN_COMMIT_RESUME (R421). -/
def execWinCommitResume (f w : Nat) (s : State) : Host.Outcome State Fault Refusal :=
  .next (match fnOf s f with
    | some fn => if (winOf fn w).commitPend then winCommit s f w else s
    | none => s)

/-- Release every window of a function (R117, R427). -/
def clearWindows (s : State) (f : Nat) : State :=
  match s.funcs.find f with
  | none => s
  | some fn =>
    wakeFrameWaiters (unpinAll (updFunc s f fun fn => { fn with windows := [] })
      (fn.windows.map fun w => Tab.vals w.2.pages).flatten)

/-- Pages that a range of a window touches. -/
def pagesOf (off len : Nat) : List Nat := (List.range (if len = 0 then 0 else (off + len - 1) / 4096 + 1 - off / 4096)).map (· + off / 4096)

/-- Why a write to a window is dropped (R422); 0 when it is accepted. -/
def dropCase (x : Window) (off len : Nat) (rid : BitVec 16) : Nat :=
  if !x.en then 1
  else if x.size < off + len then 2
  else if x.ridChk && rid != x.rid then 3
  else if (pagesOf off len).any x.busy.contains then 4 else 0

/-- A write that is dropped (R422). -/
def winDrop (s : State) (f w off case_ : Nat) (x : Window) : State :=
  let s := updWin s f w fun y => { y with cntDrop := satInc y.cntDrop, drop := true }
  let s := markFresh (markFresh s (.win f w) 0x24 0 1) (.win f w) 0x18 2 1
  let s := logErr s 0x0C20 .translation { func := f } (w + off * 2 ^ 8 + case_ * 2 ^ 32)
  if x.evt.getLsbD 11 then sendMsix s f (fieldOf x.evt 0 11) else s

/-- A write that is accepted (R422). -/
def winAccept (s : State) (f w off : Nat) (bytes : List Byte) (ep : Bool) (x : Window) : State :=
  let s := (pagesOf off bytes.length).foldl (fun s p =>
    match x.pages.find p with
    | none => s
    | some fr =>
      let a := max off (4096 * p)
      let b := min (off + bytes.length) (4096 * (p + 1))
      let s := fillFrame s fr (a - 4096 * p) ((bytes.drop (a - off)).take (b - a))
      updFrame s fr fun g => { g with poison := ep || (g.poison && b - a != 4096) }) s
  markFresh (updWin s f w fun y => { y with cntRx := satAdd y.cntRx bytes.length }) (.win f w) 0x28 0 bytes.length

/-- PEER_WINDOW_WRITE (R422). -/
def execPeerWindowWrite (f win off : Nat) (bytes : List Byte) (rid : BitVec 16) (ep : Bool) (s : State) :
    Host.Outcome State Fault Refusal :=
  .next (match takesWrites s f with
    | none => s
    | some fn =>
      if 16 ≤ win || bytes.isEmpty then s
      else
        let s := if ep then poisonIn s f else s
        let x := winOf fn win
        let k := dropCase x off bytes.length rid
        if k = 0 then winAccept s f win off bytes ep x else winDrop s f win off k x)

end Sys2Proof.Machine
end

