-- ==== Sys2Proof/Machine/Entry.lean ====
section
/-! DEFINITION. Check 1 of R17 on a submission entry: the fields that each opcode defines (R10, R11, R151 to R153, R172 to
R186, R188, R194, R198 to R202, R206). -/

namespace Sys2Proof.Machine

/-! Check 1: reserved and enumerated fields (R10, R11, R151 to R153, R172 to R186) -/

/-- The fields that R151 marks rsvd for every opcode are 0. -/
def baseRsvdOk (e : BitVec 512) : Bool :=
  eBits e 4 12 20 == 0 && eBits e 14 0 16 == 0 && eBits e 18 0 16 == 0 && eBits e 20 0 32 == 0

/-- The data pointer is all 0, as an opcode that moves no data asks (R153). -/
def noPointer (e : BitVec 512) : Bool := eDpk e == 0 && eBits e 24 0 128 == 0

/-- CFLG bits of an opcode that are rsvd, as a mask over bits 10 to 15 (R177, R184 to R186). -/
def cflgRsvd (opc : Nat) : Nat :=
  if opc = 1 then 0xE000 else if opc = 2 then 0xC000 else if opc = 3 then 0xF800
  else if opc = 4 || opc = 5 then 0xDC00 else 0xE400

/-- First command-specific byte that is rsvd for an I/O opcode. -/
def tailStart (opc : Nat) : Nat := if opc = 3 then 40 else if opc = 4 || opc = 5 then 46 else 48

/-- The data pointer of a READ or WRITE keeps R152, R153 and R423; with no volume its length is not judged. -/
def pointerOk (fn : Func) (q : Sq) (v : Option Volume) (e : BitVec 512) : Bool :=
  let lenOk := fun (n : Nat) => match v with
    | some v => n == dataLen v.pi e
    | none => true
  match eDpk e with
  | 0 => eBits e 24 0 2 == 0 && eBits e 36 0 32 == 0 && lenOk (eBits e 32 0 32)
  | 1 => eBits e 24 0 4 == 0 && eBits e 34 0 48 == 0 && decide (1 ≤ eBits e 32 0 16) && decide (eBits e 32 0 16 ≤ 64) &&
      decide (eBits e 24 0 64 % 4096 + 16 * eBits e 32 0 16 ≤ 4096)
  | 2 => eBits e 24 4 4 == 0 && eBits e 25 0 120 == 0 && q.push && eOpc e == 2 && eNblk e == 0 &&
      (match v with
        | some v => !v.pi
        | none => true)
  | _ => eBits e 24 4 4 == 0 && eBits e 25 0 24 == 0 && eBits e 28 0 2 == 0 && eBits e 36 0 32 == 0 && eOpc e == 2 &&
      lenOk (eBits e 32 0 32) &&
      (let w := winOf fn (eBits e 24 0 4)
       let off := eBits e 28 0 32
       let len := eBits e 32 0 32
       w.en && decide (off + len ≤ w.size) && !(pagesOf off len).any w.busy.contains)

/-- Check 1 for an I/O opcode. -/
def check1 (fn : Func) (q : Sq) (v : Option Volume) (e : BitVec 512) : Bool :=
  let opc := eOpc e
  baseRsvdOk e && fieldOf e 0 16 &&& cflgRsvd opc == 0 && eBits e (tailStart opc) 0 (8 * (64 - tailStart opc)) == 0 &&
    (if opc = 1 || opc = 2 then pointerOk fn q v e
     else noPointer e && (opc != 3 || (eLba e == 0 && eNblk e == 0 && !(eFlag e 10 && q.cls == .express))))

/-! Check 1 for an admin opcode (R123, R135, R153, R174) -/

/-- The way an admin command's data goes. -/
inductive Dir where
  | none | toHost | fromHost
  deriving DecidableEq, Repr

/-- Fields of R151 that an admin opcode names, and its fields in bytes 40 to 63 as byte, bit and width. -/
structure AdminForm where
  vol : Bool := false
  lba : Bool := false
  nblk : Bool := false
  dir : Dir := .none
  tail : List (Nat × Nat × Nat) := []
  deriving DecidableEq, Repr

/-- Bits of bytes 40 to 63 that some field covers. -/
def tailMask (fs : List (Nat × Nat × Nat)) : BitVec 192 :=
  fs.foldl (fun m f => m ||| (BitVec.ofNat 192 (2 ^ f.2.2 - 1) <<< (8 * (f.1 - 40) + f.2.1))) 0

/-- Bytes 40 to 63. -/
def eTail (e : BitVec 512) : BitVec 192 := e.extractLsb' 320 192

/-- The data pointer keeps R152 and R153; inline data and windows carry no admin data. -/
def adminPtrOk (e : BitVec 512) (d : Dir) : Bool :=
  match d with
  | .none => noPointer e
  | _ =>
    if eDpk e = 0 then eBits e 24 0 2 == 0 && eBits e 36 0 32 == 0
    else eDpk e == 1 && eBits e 24 0 4 == 0 && eBits e 34 0 48 == 0 && decide (1 ≤ eBits e 32 0 16) &&
      decide (eBits e 32 0 16 ≤ 64) && decide (eBits e 24 0 64 % 4096 + 16 * eBits e 32 0 16 ≤ 4096)

/-- Reserved fields of an admin entry are 0 (R10, R174). -/
def adminRsvdOk (e : BitVec 512) (fm : AdminForm) : Bool :=
  baseRsvdOk e && fieldOf e 10 6 == 0 && (fm.vol || eVol e == 0) && (fm.lba || eLba e == 0) && (fm.nblk || eNblk e == 0) &&
    (eTail e &&& ~~~ tailMask fm.tail) == 0 && adminPtrOk e fm.dir

/-! The fields of each admin opcode -/

/-- ACTION of a CREATE_VOLUME. -/
def cvAction (e : BitVec 512) : Nat := eBits e 40 0 2
/-- FUNC of a CREATE_VOLUME. -/
def cvFunc (e : BitVec 512) : Nat := eBits e 42 0 9
/-- The fields of CREATE_VOLUME (R188). -/
def cvForm : AdminForm := { vol := true, lba := true, tail := [(40, 0, 2), (41, 0, 4), (42, 0, 9), (44, 0, 16)] }

/-- The fields of CREATE_QUEUE. -/
def cqForm : AdminForm :=
  { lba := true, nblk := true,
    tail := [(40, 0, 32), (44, 0, 17), (48, 0, 20), (52, 0, 19), (56, 0, 16), (58, 0, 48)] }

/-- Port of a MEMBER_CONTROL. -/
def mcPort (e : BitVec 512) : Nat := eBits e 40 0 7
/-- Action of a MEMBER_CONTROL. -/
def mcAction (e : BitVec 512) : Nat := eBits e 41 0 8
/-- A1 of a MEMBER_CONTROL. -/
def mcA1 (e : BitVec 512) : Nat := eBits e 44 0 32
/-- A2 of a MEMBER_CONTROL. -/
def mcA2 (e : BitVec 512) : Nat := eBits e 48 0 64
/-- The fields of MEMBER_CONTROL (R199). -/
def mcForm : AdminForm := { tail := [(40, 0, 7), (41, 0, 8), (44, 0, 32), (48, 0, 64)] }

/-- The fields of SET_TIMETABLE; its data pointer is used with PLAN only. -/
def ttForm (e : BitVec 512) : AdminForm :=
  { lba := true, dir := if (eBits e 40 6 1) = 1 then .fromHost else .none,
    tail := [(40, 0, 9), (42, 0, 9), (44, 0, 32), (48, 0, 16), (50, 0, 10), (52, 0, 12), (54, 0, 16), (56, 0, 32), (60, 0, 11)] }

/-- The fields of SET_POWER (R202). -/
def spForm : AdminForm := { tail := [(40, 0, 3), (42, 0, 16)] }
/-- The fields of GET_LOG (R206). -/
def glForm : AdminForm := { dir := .toHost, tail := [(40, 0, 8), (44, 0, 32)] }
/-- The fields of LOAD_PROGRAM (R199). -/
def lpForm : AdminForm := { dir := .fromHost, tail := [(40, 0, 16), (42, 0, 2), (44, 0, 32), (48, 0, 32)] }
/-- The fields of SET_TOKENS (R199). -/
def stForm : AdminForm := { tail := [(40, 0, 16), (42, 0, 1), (44, 0, 32), (48, 0, 32), (52, 0, 32), (56, 0, 32)] }
/-- The fields of CREATE_GROUP (R194). -/
def cgForm : AdminForm :=
  { tail := [(40, 0, 3), (41, 0, 7), (42, 0, 5), (43, 0, 8), (44, 0, 16), (48, 0, 32), (52, 0, 72)] }
/-- The fields of SET_WINDOW (R199). -/
def swForm : AdminForm := { tail := [(40, 0, 9), (42, 0, 4), (43, 0, 1), (44, 0, 160)] }

/-- The fields of an admin entry by its opcode (R174). -/
def adminForm (e : BitVec 512) : AdminForm :=
  match eOpc e with
  | 0x40 => { vol := true, dir := .toHost }
  | 0x41 => cvForm
  | 0x42 => { vol := true }
  | 0x43 => cqForm
  | 0x44 => spForm
  | 0x45 => glForm
  | 0x46 => lpForm
  | 0x47 => { vol := true, tail := [(40, 0, 16)] }
  | 0x48 => stForm
  | 0x49 => cgForm
  | 0x4A => mcForm
  | 0x4B => ttForm e
  | _ => swForm

/-- The enumerated fields of an admin entry are defined (R11): ACTION of CREATE_VOLUME, KIND and CLASS of CREATE_QUEUE, LOG_ID,
and the action of MEMBER_CONTROL. -/
def adminEnumOk (e : BitVec 512) : Bool :=
  match eOpc e with
  | 0x41 => cvAction e != 3
  | 0x43 => eBits e 40 9 2 != 3 && eBits e 40 22 2 != 3
  | 0x45 => decide (1 ≤ eBits e 40 0 8) && decide (eBits e 40 0 8 ≤ 4)
  | 0x4A => decide (1 ≤ mcAction e) && decide (mcAction e ≤ 11)
  | _ => true

/-- Check 1 for an admin opcode. -/
def adminCheck1 (e : BitVec 512) : Bool := adminRsvdOk e (adminForm e) && adminEnumOk e

end Sys2Proof.Machine
end

