-- ==== Sys2Proof/Machine/Dispatcher.lean ====
section
/-! DEFINITION. The dispatcher: early checks, admission, the context allocator and refusals (R10, R11, R15 to
R18, R69 to R71, R123, R150 to R155, R161 to R163, R172 to R178, R184 to R186, R423). -/

namespace Sys2Proof.Machine

/-! The judgement on the head of a queue (R17, R66, R69) -/

/-- Program, route number, handler index and handler that serve an opcode of a volume (R274). -/
def opHandler (s : State) (v : Volume) (opc : Nat) : Option (Nat × Route × Nat × HandlerEnt) :=
  (routeOf s v.route).bind fun r =>
    ((r.2.ops.getD (opc - 1) none).bind fun h =>
      ((s.progs.loaded.find r.1).bind fun p => p.handlers[h]?).map fun ent => (r.1, r.2, h, ent))

/-- What becomes of a queue's head entry. -/
inductive Judgement where
  /-- Completed without a context: status, refusal cause, POISON flag. -/
  | refusal (st : Status) (cause : Nat) (poison : Bool)
  /-- Handed to the signal box. -/
  | admin
  /-- Admitted by the admission unit. -/
  | admitted (kind units : Nat) (bound : Option Nat) (pins : List Nat) (degraded : Bool)
  /-- Left at the head of its queue. -/
  | wait
  deriving DecidableEq, Repr

/-- A head entry with its stamp, poison and inline clash. -/
structure Head where
  entry : BitVec 512
  vis : Word
  held : Held
  poisoned : Bool
  clash : Bool
  deriving DecidableEq, Repr

/-- The head entry that the dispatcher may take from a queue. -/
def headOf (q : Sq) : Option Head :=
  if q.refusalWait then none
  else if q.push then
    match q.announced with
    | a :: _ =>
      let pos := q.ci % 64
      some { entry := pushEntry q pos, vis := a.vis, held := a.held, poisoned := q.entryPoison.contains pos,
             clash := q.inlineClash.contains pos }
    | [] => none
  else match q.fetched with
    | x :: _ => some { entry := x.entry, vis := x.vis, held := x.held, poisoned := x.poisoned, clash := false }
    | [] => none

/-- A refusal of a queue waits on a ring with fewer free entries than ready ones: it will take the queue's refusal record. -/
def refusalStands (fn : Func) (slot : Nat) (q : Sq) : Bool :=
  match fn.cqs.find q.cqSlot with
  | some c => c.ready.any (fun r => r.sqSlot == slot && r.ctx.isNone) && decide (c.size - idxDist c.size c.ci c.pi < c.ready.length)
  | none => false

/-- The dispatcher may take from a queue: not while its refusal record is in use, and again from the slot after the record's
refusal is issued (R161). DESIGN CHOICE (log entry 68): nor while a refusal that finds no room is yet to be parked, since an SQ
has one record. -/
def mayTake (s : State) (fn : Func) (slot : Nat) (q : Sq) : Bool :=
  !q.refusalWait && !refusalStands fn slot q && (match q.refusalTs with
    | some t => past s t
    | none => true)

/-- Sidings that a function's queues grant it (R162). -/
def quotaOf (fn : Func) : Nat := (fn.sqs.map fun q => q.2.quota).sum

/-- Sidings that a function holds: those of commands whose entry is not issued (R162). -/
def sidingsHeld (s : State) (f : Nat) : Nat :=
  (s.ctxs.filter fun c => c.2.kind != .maint && c.2.func.toNat == f &&
    (c.2.posted.isNone || unissued s c.2 c.1 || c.2.owes)).length

/-- Admission of a command that has passed the checks of R17, and the quota of its function. -/
def judgeAdmission (s : State) (f slot : Nat) (fn : Func) (q : Sq) (v : Volume) (e : BitVec 512) : Judgement :=
  match judgeEntry s f (sqidOf f slot) q v (eVol e) e with
  | .refuse c => .refusal .notAdmitted c false
  | .done st => .refusal st 0 false
  | .wait => .wait
  | .accept k u b p d =>
    if quotaOf fn ≤ sidingsHeld s f then .refusal .noContext 0 false else .admitted k u b p d

/-- The checks of R17 on an I/O command, in their order; an inline buffer that was busy fails check 1 (R150). DESIGN CHOICE (log
entry 68): a Standard or Bulk head left in place for want of tokens (R66) is judged again from check 1, so that one whose
volume is deleted meanwhile ends VOLUME_ABSENT. -/
def judgeIo (s : State) (f slot : Nat) (fn : Func) (q : Sq) (e : BitVec 512) (clash : Bool) : Judgement :=
  let vol := s.vols.find (eVol e)
  let served := decide (1 ≤ eOpc e) && decide (eOpc e ≤ 6) &&
    (match vol with
      | some v => (opHandler s v (eOpc e)).isSome
      | none => true)
  if !served then (if baseRsvdOk e then .refusal .invalidOpcode 0 false else .refusal .invalidField 0 false)
  else if clash || !check1 fn q vol e then .refusal .invalidField 0 false
  else
    match vol with
    | none => .refusal .volumeAbsent 0 false
    | some v =>
      if v.deleting || !v.attached.contains f then .refusal .volumeAbsent 0 false
      else if eOpc e != 3 && (decide (31 < eNblk e) || decide (v.blocks ≤ eLba e + eNblk e)) then .refusal .lbaRange 0 false
      else judgeAdmission s f slot fn q v e

/-- The dispatcher's judgement on a head entry (R17, R123, R150, R174). -/
def judgeHead (s : State) (f slot : Nat) (fn : Func) (q : Sq) (h : Head) : Judgement :=
  if h.poisoned then .refusal .dataPoisoned 0 true
  else if isAdminSq f slot then
    if 0x40 ≤ eOpc h.entry && eOpc h.entry ≤ 0x4C then (if adminCheck1 h.entry then .admin else .refusal .invalidField 0 false)
    else if baseRsvdOk h.entry then .refusal .invalidOpcode 0 false else .refusal .invalidField 0 false
  else judgeIo s f slot fn q h.entry h.clash

/-! Taking an entry -/

/-- The queue moves past its head entry (R142, R148); a push queue's SQ_CI moves now (R145). -/
def takeHead (s : State) (f slot : Nat) (q : Sq) : State :=
  if q.push then
    let pos := q.ci % 64
    let ci := (q.ci + 1) % 128
    shadowWrite (updSq s f slot fun q =>
      { q with ci := ci, announced := q.announced.tail, inlineClash := q.inlineClash.filter (· != pos) }) f (4 * slot) ci
  else fetch (updSq s f slot fun q => { q with fetched := q.fetched.tail }) f slot

/-- The inline buffer that a taken entry holds busy (R150). -/
def inlineOf (q : Sq) (h : Head) : Option Nat :=
  if q.push && eDpk h.entry == 2 && !h.clash then some (eBits h.entry 24 0 4) else none

/-- The deadline of a command: visibility slot, bound and host-held slots (R84). -/
def deadlineOf (s : State) (h : Head) (bound : Option Nat) : Word :=
  match bound with
  | some b => tsAdd s.tt.kActive h.vis (b + h.held.total)
  | none => noTs

/-- The bound that a completion without a context has: the Standard target, or the read-hit bound of an Express command
that was refused or found no context (R70, R84, R85, R162); R77 gives an Express command that fails a check of R17 none. -/
def refusalBound (s : State) (q : Sq) (group : Option Nat) (st : Status) : Option Nat :=
  match q.cls with
  | .standard => some (stdTarget s (group.getD 8))
  | .express => if st == .notAdmitted || st == .noContext then some (hitBound s q.push 1) else none
  | _ => none

/-- A completion without a context (R70, R161). -/
def refuseCmd (s : State) (f slot : Nat) (q : Sq) (h : Head) (st : Status) (cause : Nat) (poison : Bool) : State :=
  let s := if st == .notAdmitted then updExp s (sqidOf f slot) fun x => { x with naCount := x.naCount + 1 } else s
  let vol := if isAdminSq f slot then none else (s.vols.find (eVol h.entry)).map fun _ => eVol h.entry
  pushReady s f
    { cid := eCid h.entry, status := BitVec.ofNat 8 st.code, sqSlot := slot, vis := h.vis,
      dl := deadlineOf s h (refusalBound s q (vol.bind fun v => (s.vols.find v).map fun x => x.group) st), held := h.held, readyTs := now s, lateCause := 0,
      refusalCause := BitVec.ofNat 8 cause, poison := poison, vol := vol, ctx := none, inlineBuf := inlineOf q h,
      windowPages := none, cls := q.cls, blocksRead := 0, blocksWritten := 0 }

/-- Window and pages of a WRITE whose data lies in a peer window (R423). -/
def windowOf (e : BitVec 512) : Option (Nat × Nat × Nat) :=
  if eDpk e = 3 then some (eBits e 24 0 4, eBits e 28 0 32, eBits e 32 0 32) else none

/-- The pages of an accepted WRITE become busy, and their frames are pinned (R423). -/
def holdPages (s : State) (f : Nat) (w : Option (Nat × Nat × Nat)) : List Nat × State :=
  match w, fnOf s f with
  | some (win, off, len), some fn =>
    let ps := pagesOf off len
    let frs := ps.filterMap fun p => (winOf fn win).pages.find p
    (frs, updWin (frs.foldl pinFrame s) f win fun x => { x with busy := x.busy ++ ps })
  | _, _ => ([], s)

/-- Blocks that a FLUSH with DESTAGE waits for: those of the volume that are dirty now (R184). -/
def flushSet (s : State) (e : BitVec 512) : List (Nat × Nat) :=
  if eOpc e == 3 && eFlag e 10 then
    (Tab.vals s.cache.frames).filterMap fun x => match x.key with
      | some k => if k.1 == eVol e && x.dirty then some k else none
      | none => none
  else []

/-- D of each stripe of an Express miss as it is accepted (R80). -/
def acceptedD (s : State) (v : Volume) (e : BitVec 512) (kind : Nat) : List (Nat × Nat) :=
  match kind, s.groups.find v.group with
  | 1, some g => (cmdStripes g v e).map fun st => (st, stripeD s g st)
  | _, _ => []

/-- An admitted command receives its context (R16, R18, R162, R241, R257). -/
def grantCtx (s : State) (f slot lane : Nat) (q : Sq) (h : Head) (v : Volume)
    (x : Nat × Route × Nat × HandlerEnt) (kind units : Nat) (bound : Option Nat) (pins : List Nat) (degraded : Bool) : State :=
  match freeSiding s with
  | none => s
  | some cx =>
    let s := spendTokens s f (sqidOf f slot) (eVol h.entry) kind units
    let s := pins.foldl pinFrame s
    let (frs, s) := holdPages s f (windowOf h.entry)
    let (n, s) := nextSeq s
    let (r, s) := newResidence s q.cls
    let c : Ctx :=
      { pc := BitVec.ofNat 24 x.2.2.2.entry, cls := q.cls, dl := deadlineOf s h bound, vis := h.vis,
        budget := x.2.2.2.budget, held := h.held, route := BitVec.ofNat 16 x.2.1.id, func := BitVec.ofNat 16 f,
        sqid := BitVec.ofNat 16 (sqidOf f slot), handler := BitVec.ofNat 16 x.2.2.1, cmd := h.entry,
        kind := .opcode, vol := some (eVol h.entry), group := some v.group, cluster := lane % 4, since := n,
        program := x.1, bound := bound.getD 0, spent := some (kind, units), pinned := pins ++ frs,
        inlineBuf := inlineOf q h, windowPages := windowOf h.entry, writeBack := !writeThrough s,
        degraded := degraded, flushWait := flushSet s h.entry, res := r, dAt := acceptedD s v h.entry kind }
    { s with ctxs := s.ctxs.put cx c }

/-- An admin command goes to the signal box in entry order, with its deadline and its held slots (R84, R135, R174). -/
def toSignalBox (s : State) (f : Nat) (h : Head) : State :=
  let a : AdminCmd :=
    { port := portOf f, entry := h.entry, vis := h.vis, data := [], poisoned := false, held := h.held,
      dl := deadlineOf s h (some (stdTarget s 8)) }
  { s with mbx := { s.mbx with adminQ := s.mbx.adminQ ++ [a] } }

/-- Act on the head of a queue; none when it is to be left in place. -/
def takeEntry (s : State) (lane f slot : Nat) (fn : Func) (q : Sq) (h : Head) : Option State :=
  match judgeHead s f slot fn q h with
  | .wait => none
  | .refusal st c p => some (refuseCmd (takeHead s f slot q) f slot q h st c p)
  | .admin => some (toSignalBox (takeHead s f slot q) f h)
  | .admitted k u b p d =>
    match s.vols.find (eVol h.entry) with
    | none => none
    | some v =>
      match opHandler s v (eOpc h.entry), freeSiding s with
      | some x, some _ => some (grantCtx (takeHead s f slot q) f slot lane q h v x k u b p d)
      | _, _ => none

/-! Service order (R15, R59) -/

/-- The dispatcher takes entries now: in Ready, admin entries in Recovering too, on W0 with no entry begun
(R131, R472); from PFAIL_N on Express entries alone, which it refuses (R69, R345). -/
def dispatchRuns (s : State) (admin : Bool) (cl : Cls) : Bool :=
  if s.vlt.pfail then cl == .express && s.pwr.devState == .vaulting
  else onW0 s && s.pwr.entry.isNone && (s.pwr.devState == .ready || (s.pwr.devState == .recovering && admin))

/-- Queues of a class with a head that may be taken, round-robin from the last one served. -/
def serviceOrder (s : State) (cl : Cls) : List (Nat × Nat) :=
  let l := (allSqs s).filter fun x => match fnOf s x.1 with
    | some fn =>
      (match fn.sqs.find x.2 with
        | some q => q.cls == cl && mayTake s fn x.2 q && (headOf q).isSome
        | none => false) && !fn.flrBusy && dispatchRuns s (isAdminSq x.1 x.2) cl
    | none => false
  match s.adm.rr.find cl.code with
  | some last => l.filter (fun x => decide (last < sqidOf x.1 x.2)) ++ l.filter fun x => decide (sqidOf x.1 x.2 ≤ last)
  | none => l

/-- The first entry of a list of queues that is not left in place is taken. -/
def dispatchFrom (s : State) (lane : Nat) (cl : Cls) : List (Nat × Nat) → Option State
  | [] => none
  | (f, slot) :: rest =>
    match fnOf s f with
    | none => dispatchFrom s lane cl rest
    | some fn =>
      match fn.sqs.find slot with
      | none => dispatchFrom s lane cl rest
      | some q =>
        match if mayTake s fn slot q then (headOf q).bind fun h => takeEntry s lane f slot fn q h else none with
        | some s' => some (updAdm s' fun a => { a with rr := a.rr.put cl.code (sqidOf f slot) })
        | none => dispatchFrom s lane cl rest

/-- DISPATCH (R15 to R17): a lane takes one entry, of the highest class that has one. -/
def execDispatch (lane : Nat) (s : State) : Host.Outcome State Fault Refusal :=
  .next (
    if 4 ≤ lane then s
    else
      (((dispatchFrom s lane .express (serviceOrder s .express)).orElse fun _ =>
        dispatchFrom s lane .standard (serviceOrder s .standard)).orElse fun _ =>
          dispatchFrom s lane .bulk (serviceOrder s .bulk)).getD s)

end Sys2Proof.Machine
end

