-- ==== Sys2Proof/Machine/Completion.lean ====
section
/-! DEFINITION. The completion poster: entries, parking, interrupts of rings, and what ends with a completion
entry (R83 to R86, R112 to R115, R156 to R165, R191, R193, R196, R423, R455). -/

namespace Sys2Proof.Machine

/-! The entry (R85, R86, R156) -/

/-- Cause of the most host-held slots; the lower value on a tie (R86). -/
def heldCause (h : Held) : Nat :=
  if h.ring ≤ h.host && h.bme ≤ h.host then 0x81 else if h.bme ≤ h.ring then 0x82 else 0x83

/-- LATE of a completion issued now (R85). -/
def isLate (s : State) (r : Ready) : Bool :=
  r.cls != .bulk && r.cls != .maintenance && past s r.dl

/-- CAUSE (R86). A late Standard command with no other cause noted is TARGET; for a late Express command with none
the manual names no value, and `free` stands for it (log entry 2). -/
def causeOf (r : Ready) (late : Bool) (free : Nat) : Nat :=
  if r.status = BitVec.ofNat 8 Status.notAdmitted.code then r.refusalCause.toNat
  else if late then
    (if r.lateCause != 0 then r.lateCause.toNat else if r.cls == .standard then 6 else free)
  else if 0 < r.held.total then heldCause r.held else 0

/-- TIME: slots from visibility to now, saturating (R85). -/
def timeOf (s : State) (r : Ready) : Nat := min (since s r.vis) 0xFFFFFFFF

/-- The 16-byte entry (R156). -/
def cqEntry (s : State) (f : Nat) (r : Ready) (sqCi : Nat) (deferred : Bool) (free : Nat) : BitVec 128 :=
  let late := isLate s r
  BitVec.ofNat 128 (r.cid.toNat + r.status.toNat * 2 ^ 16 + bit deferred 24 + bit late 25 +
    bit (decide (0 < r.held.total)) 26 + bit r.poison 27 + sqCi * 2 ^ 32 + sqidOf f r.sqSlot * 2 ^ 64 +
    causeOf r late free * 2 ^ 80 + timeOf s r * 2 ^ 96)

/-! What a volume awaits (R191, R193) -/

/-- A command of a volume, of one function when named, has no completion entry issued yet. -/
def volBusy (s : State) (vol : Nat) (f : Option Nat) : Bool :=
  s.ctxs.any (fun c => c.2.kind != .maint && c.2.vol == some vol && (f.isNone || f == some c.2.func.toNat) &&
      (c.2.posted.isNone || c.2.state == .doneUnposted || c.2.owes)) ||
    s.funcs.any fun fn => (f.isNone || f == some fn.1) && fn.2.cqs.any fun q => q.2.ready.any fun r => r.vol == some vol && r.ctx.isSome

/-- A deleted volume's last counts, for the next snapshot (R209, R455). -/
def fareLast (vol : Nat) (v : Volume) : FareRec :=
  { vol := vol, flags := 4, blkRead := v.blkRead, blkWritten := v.blkWritten, cmdExpress := v.cmdExpress,
    cmdStandard := v.cmdStandard, cmdBulk := v.cmdBulk, expTokens := v.expTokens,
    extents := v.extents.length + v.piExtents.length }

/-- The frames of a deleted volume are unmapped: its dirty data is discarded, and its poison marks go (R193). -/
def dropVolFrames (s : State) (vol : Nat) : State :=
  let own := fun (k : Option (Nat × Nat)) => match k with
    | some x => x.1 == vol
    | none => false
  updCache s fun c =>
    { c with
      frames := Tab.mapVal (c.frames.filter fun x => !(own x.2.key && x.2.pins == 0)) fun _ x =>
        { x with key := if own x.key then none else x.key, bound := if own x.bound then none else x.bound,
                 dirty := x.dirty && !own x.key }
      poisonList := c.poisonList.filter fun x => x.1 != vol }

/-- A deletion's commands have ended: the volume is gone, its number is free from the next slot, and its extents are to be zeroed
in ascending order (R104, R193). -/
def finishDelete (s : State) (vol : Nat) (v : Volume) : State :=
  let s := dropVolFrames s vol
  let batch := s.seqCtr
  let s := { s with seqCtr := s.seqCtr + 1, vols := s.vols.del vol, freedVols := s.freedVols ++ [vol], fare := { s.fare with deleted := s.fare.deleted ++ [fareLast vol v] } }
  let es := (v.extents ++ v.piExtents).mergeSort (· ≤ ·)
  let s := updGroup (rbChange s) v.group fun g =>
    { g with zeroing := g.zeroing ++ es.map fun e => { extent := e, vol := some vol, batch := batch } }
  match v.deleteWait with
  | some a => adminDone s a .success false
  | none => s

/-- A DETACH or a DELETE_VOLUME completes when the last of the commands it waits for has (R191, R193). -/
def volSettle (s : State) (vol : Nat) : State :=
  match s.vols.find vol with
  | none => s
  | some v =>
    let done := v.detachWait.filter fun x => !volBusy s vol (some x.1)
    let s := updVol s vol fun v => { v with detachWait := v.detachWait.filter fun x => volBusy s vol (some x.1) }
    let s := done.foldl (fun s x => adminDone s x.2 .success false) s
    if v.deleting && v.fill.isNone && !volBusy s vol none then finishDelete s vol v else s

/-! Issue (R157 to R161) -/

/-- Fare counters of an issued entry (R209, R455). -/
def fareCount (s : State) (r : Ready) : State :=
  match r.vol with
  | none => s
  | some v =>
    if !s.fare.running then s
    else updVol s v fun x =>
      { x with
        cmdExpress := if r.cls == .express then x.cmdExpress + 1 else x.cmdExpress
        cmdStandard := if r.cls == .standard then x.cmdStandard + 1 else x.cmdStandard
        cmdBulk := if r.cls == .bulk then x.cmdBulk + 1 else x.cmdBulk
        blkRead := x.blkRead + BitVec.ofNat 64 r.blocksRead
        blkWritten := x.blkWritten + BitVec.ofNat 64 r.blocksWritten }

/-- The inline buffer and the window pages of a command are free again (R150, R423). -/
def releaseData (s : State) (f : Nat) (r : Ready) : State :=
  let s := match r.inlineBuf with
    | some b => updSq s f r.sqSlot fun q => { q with inlineBusy := q.inlineBusy.filter (· != b) }
    | none => s
  match r.windowPages with
  | some (w, off, len) => updWin s f w fun x => { x with busy := x.busy.filter fun p => !(pagesOf off len).contains p }
  | none => s

/-- A context whose entry is issued is free when its thread has ended; its pins go (R160). -/
def freeCtx (s : State) (cx : Option Nat) : State :=
  match cx with
  | some cx =>
    match s.ctxs.find cx with
    | some c =>
      if c.state == .doneUnposted then
        let s := wakeFrameWaiters (releaseAll s cx)
        flrSettle { s with ctxs := s.ctxs.del cx } c.func.toNat
      else s
    | none => s
  | none => s

/-- A function's deferred mark on a volume is shown and cleared (R196). -/
def takeMark (s : State) (f : Nat) (vol : Option Nat) : Bool × State :=
  match vol.bind fun v => (s.vols.find v).map fun x => (v, x) with
  | some (v, x) => (x.marks.contains f, updVol s v fun x => { x with marks := x.marks.filter (· != f) })
  | none => (false, s)

/-- Issue the oldest ready entry of a ring. -/
def issueEntry (s : State) (f slot : Nat) (q : Cq) (r : Ready) : State :=
  let ci := ((sqOf s f r.sqSlot).map fun q => q.ci).getD 0
  let (d, s) := takeMark s f r.vol
  let (w, s) := drawFree s
  let t := after s q.ivDelay
  let s := emit s (.cqe f slot (q.pi % q.size) (cqEntry s f r ci d (w.toNat % 256)))
  let s := updCq s f slot fun q =>
    { q with pi := (q.pi + 1) % (2 * q.size), ready := q.ready.tail, unsignalled := q.unsignalled + 1,
             ivDue := if q.unsignalled = 0 then t else q.ivDue }
  let n := now s
  let s := if r.parked && r.ctx.isNone then updSq s f r.sqSlot fun q => { q with refusalWait := false, refusalTs := some n } else s
  let s := freeCtx (fareCount (releaseData s f r) r) r.ctx
  match r.vol with
  | some v => volSettle s v
  | none => s

/-- An entry may be issued now: it became ready in an earlier slot (R158). -/
def issuable (s : State) (r : Ready) : Bool := past s r.readyTs

/-- Issue the ring's ready entries, oldest first, while it has room. -/
def issueLoop (f slot : Nat) : Nat → State → State
  | 0, s => s
  | n + 1, s =>
    match cqOf s f slot with
    | none => s
    | some q =>
      match q.ready with
      | r :: _ => if issuable s r && q.hasRoom then issueLoop f slot n (issueEntry s f slot q r) else s
      | [] => s

/-- Entries that found the ring full are parked; a refusal takes its SQ's refusal record (R159, R161). DESIGN CHOICE (log entry
68): so does the completion of an admin command, which no context holds. -/
def parkRing (s : State) (f slot : Nat) : State :=
  match cqOf s f slot with
  | none => s
  | some q =>
    if q.hasRoom then s
    else
      let late := q.ready.filter fun r => issuable s r && !r.parked
      let s := updCq s f slot fun q => { q with ready := q.ready.map fun r => if issuable s r then { r with parked := true } else r }
      (late.filter fun r => r.ctx.isNone).foldl (fun s r => updSq s f r.sqSlot fun q => { q with refusalWait := true }) s

/-- The TLPs that carry the entries of a ring from an index on to its present one (R157). -/
def sendTlps (s : State) (f slot from_ : Nat) : State :=
  match fnOf s f, cqOf s f slot with
  | some fn, some q =>
    let n := idxDist q.size from_ q.pi
    emitAll s ((tlpRuns q.size (fn.mps / 16) n (from_ % q.size) n).map fun x => .cqeTlp f slot x.1 x.2)
  | _, _ => s

/-- What follows the entries of a ring that were issued from an index on: their TLPs, then the shadow CQ_PI (R145, R157). -/
def endIssue (s : State) (f slot from_ : Nat) : State :=
  match cqOf s f slot with
  | none => s
  | some q => if q.pi = from_ then s else shadowWrite (sendTlps s f slot from_) f (0x100 + 4 * slot) q.pi

/-! Interrupts of a ring (R112 to R114, R165) -/

/-- The ring's event is due after the issue step of the present slot (R165). -/
def ringDue (s : State) (q : Cq) : Bool :=
  decide (0 < q.unsignalled) && (decide (q.ivCount ≤ q.unsignalled) || due s q.ivDue)

/-- The end of a slot's issue step: a ring whose event is due is signalled in the next slot. -/
def Cq.endSlot (s : State) (q : Cq) : Cq := if ringDue s q then { q with unsignalled := 0, evDue := true } else q

/-- Events of a function that the slot before made due: one message for the rings of a vector, or their INTx bits (R114,
R165). -/
def signalFn (s : State) (f : Nat) : State :=
  match fnOf s f with
  | none => s
  | some fn =>
    let hot := fn.cqs.filter fun q => q.2.evDue
    if hot.isEmpty then s
    else
      let s := updFunc s f fun fn => { fn with cqs := fn.cqs.mapVal fun _ q => { q with evDue := false } }
      let on := hot.filter fun q => q.2.ien
      if fn.msixEn then (on.map fun q => q.2.vec).eraseDups.foldl (fun s v => sendMsix s f v) s
      else if usesIntx f fn then
        let s := updFunc s f fun fn => { fn with intxRing := fn.intxRing ||| BitVec.ofNat 64 (on.map fun q => 2 ^ q.1).sum }
        updateIntx (on.foldl (fun s q => markFresh s (.fn f) 0x48 q.1 1) s) f
      else s

/-- Signal every function, and find the rings whose events are due now (R165). -/
def signalAll (s : State) : State :=
  let s := (Tab.keys s.funcs).foldl signalFn s
  { s with funcs := s.funcs.mapVal fun _ fn => { fn with cqs := fn.cqs.mapVal fun _ q => q.endSlot s } }

/-- Issue what a ring can issue (R157, R159). -/
def issueRing (s : State) (f slot : Nat) : State :=
  match fnOf s f with
  | none => s
  | some fn =>
    if !upstreamOk s fn || !onW0 s then s
    else
      match fn.cqs.find slot with
      | none => s
      | some q =>
        parkRing (endIssue (issueLoop f slot (q.ready.length + 1) s) f slot q.pi) f slot

/-- Every ring with a ready entry, by function and slot. -/
def readyRings (s : State) : List (Nat × Nat) :=
  (s.funcs.map fun f => (f.2.cqs.filter fun q => !q.2.ready.isEmpty).map fun q => (f.1, q.1)).flatten

/-- The class of the entry that a ring would issue next, when it may be issued now. -/
def headClass (s : State) (f slot : Nat) : Option Cls :=
  match fnOf s f, cqOf s f slot with
  | some fn, some q =>
    match q.ready with
    | r :: _ => if upstreamOk s fn && onW0 s && issuable s r && q.hasRoom then some r.cls else none
    | [] => none
  | _, _ => none

/-- Another ring of the port has an entry of a higher class to issue (R59). -/
def outranked (s : State) (f slot : Nat) : Bool :=
  match headClass s f slot with
  | none => false
  | some cl => (readyRings s).any fun x => portOf x.1 == portOf f && (match headClass s x.1 x.2 with
      | some cl' => decide (cl'.code < cl.code)
      | none => false)

/-- INTERRUPT_DELAY_DUE (R165): the events that were due in the slot before, on this ring and on those that share its vector,
are signalled in the present one. -/
def execInterruptDelayDue (f slot : Nat) (s : State) : Host.Outcome State Fault Refusal :=
  .next (match cqOf s f slot with
    | some q => if q.evDue then signalFn s f else s
    | none => s)

/-- The ring of a function whose first entry became ready first, of those that may issue (R121). -/
def oldestHead (s : State) (fn : Func) : Option (Nat × Cq × Ready) :=
  (fn.cqs.filterMap fun x => match x.2.ready with
    | r :: _ => if issuable s r && x.2.hasRoom then some (x.1, x.2, r) else none
    | [] => none).foldl (fun b x => match b with
      | none => some x
      | some y => if x.2.2.seq < y.2.2.seq then some x else b) none

/-- Issue at most n ready entries of a function in the order in which they became ready (R121). -/
def issueOrdered (f : Nat) : Nat → State → State
  | 0, s => s
  | n + 1, s =>
    match (fnOf s f).bind (oldestHead s) with
    | some (slot, q, r) => issueOrdered f n (issueEntry s f slot q r)
    | none => s

/-- Issue what a function holds (R121): every ring's entries, then the shadow CQ_PI of the rings that moved. -/
def issueFn (s : State) (f : Nat) : State :=
  match fnOf s f with
  | none => s
  | some fn =>
    if !upstreamOk s fn || !onW0 s then s
    else
      let s := issueOrdered f (fn.cqs.map fun q => q.2.ready.length).sum s
      fn.cqs.foldl (fun s x => parkRing (endIssue s f x.1 x.2.pi) f x.1) s

/-! Host-held time (R83, R160) -/

/-- Slots, of the next n from now, in which a read issued at t has waited longer than ADM_L_HOST. -/
def slowSlots (s : State) (t : Word) (n : Nat) : Nat := n - min n (s.adm.lHost.toNat + 1 - since s t)

/-- Charge slots by cause: each slot counts once in the total (R83). -/
def chargeHeld (h : Held) (host ring bme : Nat) : Held :=
  { total := h.total + max host (max ring bme), host := h.host + host, ring := h.ring + ring, bme := h.bme + bme }

/-- A deadline moved on by the slots charged (R84). -/
def dlPlus (s : State) (dl : Word) (n : Nat) : Word := if dl = noTs then dl else tsAdd s.tt.kActive dl n

/-- Slow-read slots of a context: its data reads and its list read. -/
def ctxSlow (s : State) (cx n : Nat) : Nat :=
  (s.reads.map fun r =>
    if r.2.quarantined then 0
    else match r.2.purpose with
      | .list c => if c == cx then slowSlots s r.2.issued n else 0
      | .data m ch _ _ => if (chanOf s m ch).ctx == some cx then slowSlots s r.2.issued n else 0
      | _ => 0).foldl max 0

/-- Slow slots of the entry fetch of a queue. -/
def fetchSlow (s : State) (f slot n : Nat) : Nat :=
  ((s.reads.filter fun r => r.2.func == f && r.2.purpose == .entry slot && !r.2.quarantined).map fun r =>
    slowSlots s r.2.issued n).foldl max 0

/-- Charge the commands of a queue that have no context yet; reads that 16 quarantined tags hold back count as slow
(R128). -/
def chargeSq (s : State) (f : Nat) (bme n slot : Nat) (q : Sq) : Sq :=
  let slow := fetchSlow s f slot n
  let full := if 16 ≤ quarOf s f && !q.push then n else 0
  let ann := ((List.range q.announced.length).zip q.announced).map fun x =>
    { x.2 with held := chargeHeld x.2.held (if x.1 < q.fetching then slow else full) 0 bme }
  { q with announced := ann, fetched := q.fetched.map fun x => { x with held := chargeHeld x.held 0 0 bme } }

/-- Charge the ready entries of a ring: those it has no room for, from the slot after they became ready. -/
def chargeCq (s : State) (bme n : Nat) (q : Cq) : Cq :=
  { q with ready := q.ready.map fun r =>
      let ring := if q.hasRoom then 0 else if issuable s r then n else n - 1
      let h := chargeHeld r.held 0 ring bme
      { r with held := h, dl := dlPlus s r.dl (h.total - r.held.total) } }

/-- A context waits for host data that it may still have to ask for: a list, or a transfer from the host (R128). -/
def awaitsHost (s : State) (c : Ctx) : Bool :=
  match c.wait with
  | .list _ _ => true
  | .mover => s.movers.any fun m => m.2.chans.any fun x =>
      (x.2.ctx.bind fun cx => s.ctxs.find cx) == some c && x.2.src.kind == 1 && decide (x.2.done < x.2.count)
  | _ => false

/-- Charge a context whose command is not ready to post. -/
def chargeCtx (s : State) (n cx : Nat) (c : Ctx) : Ctx :=
  if c.kind == .maint || (c.posted.isSome && !c.owes) then c
  else
    match s.funcs.find c.func.toNat with
    | none => c
    | some fn =>
      let quar := if 16 ≤ quarOf s c.func.toNat && awaitsHost s c then n else 0
      let h := chargeHeld c.held (max quar (ctxSlow s cx n)) 0 (if fn.bme then 0 else n)
      { c with held := h, dl := dlPlus s c.dl (h.total - c.held.total) }

/-- Charge an admin command that waits or runs. -/
def chargeAdmin (s : State) (n : Nat) (a : AdminCmd) : AdminCmd :=
  match s.funcs.find (64 * a.port) with
  | none => a
  | some fn =>
    let h := chargeHeld a.held 0 0 (if fn.bme then 0 else n)
    { a with held := h, dl := dlPlus s a.dl (h.total - a.held.total) }

/-- Charge host-held time for the n slots from the present one on (R83). -/
def accrue (s : State) (n : Nat) : State :=
  let s := s.mapAdmin (chargeAdmin s n)
  { s with
    ctxs := s.ctxs.mapVal fun cx c => chargeCtx s n cx c
    funcs := s.funcs.mapVal fun f fn =>
      let b := if fn.bme then 0 else n
      { fn with sqs := fn.sqs.mapVal fun slot q => chargeSq s f b n slot q, cqs := fn.cqs.mapVal fun _ q => chargeCq s b n q } }

end Sys2Proof.Machine
end

