-- ==== Sys2Proof/Machine/Mailbox.lean ====
section
/-! DEFINITION. Mailboxes, their locks, posts and timeouts, requests to the signal box, notices, and the
heartbeat (R166, R167, R429 to R445). -/

namespace Sys2Proof.Machine

/-- Agent number of a function (R429). -/
def agentOf (f : Nat) : Nat := f + 1

/-- Agents of the signal box cores (R429). -/
def isCore (a : Nat) : Bool := a == 1025 || a == 1026

/-- The binding of a mailbox that no BIND has changed (R430). -/
def fixedBox (i : Nat) : Mailbox :=
  if i < 8 then { recv := 1025, send := [(agentOf (64 * i), 0)], bound := true }
  else if i < 16 then { recv := agentOf (64 * (i - 8)), recvView := 1, send := [(1025, 0)], bound := true }
  else if i = 16 then { recv := 1027, send := [(1025, 0)], bound := true }
  else if i = 17 then { recv := 1025, send := [(1027, 0)], bound := true }
  else {}

/-- A mailbox. -/
def boxOf (s : State) (i : Nat) : Mailbox := s.mbx.boxes.getD i (fixedBox i)

/-- Change the mailbox block. -/
def updMbx (s : State) (g : Mailboxes → Mailboxes) : State := { s with mbx := g s.mbx }

/-- Change a mailbox. -/
def updBox (s : State) (i : Nat) (g : Mailbox → Mailbox) : State :=
  updMbx s fun m => { m with boxes := m.boxes.put i (g (m.boxes.getD i (fixedBox i))) }

/-- Agent a acts under the name n of a binding: 1,025 stands for both cores (R431). -/
def names (n a : Nat) : Bool := n == a || (n == 1025 && a == 1026)

/-- The agent is the mailbox's receiver. -/
def isRecv (b : Mailbox) (a : Nat) : Bool := b.bound && names b.recv a

/-- The agent is one of its senders. -/
def isSender (b : Mailbox) (a : Nat) : Bool := b.bound && b.send.any fun x => names x.1 a

/-- Place of a sender in the binding. -/
def senderNo (b : Mailbox) (a : Nat) : Option Nat := b.send.findIdx? fun x => names x.1 a

/-- The agent can touch the mailbox now: a function that exists in D0, or an agent inside the part; the cores act
only while attended and above W3 (R430, R437, R442). -/
def agentUp (s : State) (a : Nat) : Bool :=
  if a = 0 then false
  else if a ≤ 512 then (takesWrites s (a - 1)).isSome
  else if isCore a then !s.mbx.unattended && decide (s.pwr.rung < 3) else a == 1027

/-- The agent can read the mailbox now: BAR0 reads are answered in every state but D3hot (R129, R131, R442). -/
def agentReads (s : State) (a : Nat) : Bool :=
  if 1 ≤ a && a ≤ 512 then (answers s (a - 1)).any fun fn => !fn.d3 else agentUp s a

/-- An ignored access is counted (R434); one through an unmapped view counts for its function (R430). -/
def ignoreAccess (s : State) (i a : Nat) : State :=
  let b := boxOf s i
  if isRecv b a || isSender b a then markFresh (updBox s i fun b => { b with cntIgn := satInc b.cntIgn }) (.mbx i) 0x5C 0 1
  else if a ≤ 512 then countIgn s (a - 1) else s

/-! Lock (R433, R434) -/

/-- MBX_LOCK_READ (R131, R433). -/
def execMbxLockRead (i agent : Nat) (s : State) : Host.Outcome State Fault Refusal :=
  .next (
    if 64 ≤ i || !agentReads s agent then s
    else
      let b := boxOf s i
      if !isRecv b agent && !isSender b agent then emit s (.regRead 0)
      else if isSender b agent && b.owner == 0 then emit (updBox s i fun b => { b with owner := agent }) (.regRead 0)
      else emit s (.regRead (BitVec.ofNat 64 b.owner)))

/-- MBX_LOCK_WRITE (R434): the rsvd bits of the value are ignored (R10). -/
def execMbxLockWrite (i agent : Nat) (value : BitVec 32) (s : State) : Host.Outcome State Fault Refusal :=
  .next (
    if 64 ≤ i || !agentUp s agent then s
    else if (boxOf s i).owner == agent && fieldOf value 0 12 == 0 then updBox s i fun b => { b with owner := 0 }
    else ignoreAccess s i agent)

/-! Post, take, timeout (R435 to R437) -/

/-- The empty interrupt of a poster (R436). -/
def emptyEvent (s : State) (i : Nat) (b : Mailbox) : State :=
  if b.poster ≤ 512 then
    match (senderNo b b.poster).bind fun k => b.evt.find k with
    | some e => if e.getLsbD 11 then sendMsix s (b.poster - 1) (fieldOf e 0 11) else s
    | none => s
  else emit s (.mbxEvent b.poster i)

/-- A message ends with a cause (R436 to R438); the signal box releases a notice mailbox's lock then (R432). -/
def endMessage (s : State) (i cause : Nat) : State :=
  let b := boxOf s i
  let s := updBox s i fun b =>
    { b with full := false, cause := cause, empty := true, noticeHeld := b.posterReset,
             owner := if 8 ≤ i && i < 16 then 0 else b.owner }
  let s := markFresh s (.mbx i) 0x4C 3 1
  if b.posterReset then s else emptyEvent s i b

/-- A message is posted by an agent (R435). -/
def postMessage (s : State) (i agent : Nat) : State :=
  let t := after s (boxOf s i).tmo.toNat
  updBox s i fun b => { b with full := true, poster := agent, posterReset := false, noticeHeld := false, due := t }

/-- MBX_POST (R434, R435). -/
def execMbxPost (i agent : Nat) (value : BitVec 32) (s : State) : Host.Outcome State Fault Refusal :=
  .next (
    if 64 ≤ i || !agentUp s agent then s
    else
      let b := boxOf s i
      if b.owner != agent || b.full then ignoreAccess s i agent
      else if value.getLsbD 0 then postMessage s i agent else s)

/-- A message whose check slot has passed has timed out (R47, R437). -/
def lapse (s : State) (i : Nat) : State :=
  if (boxOf s i).full && past s (boxOf s i).due then endMessage s i 2 else s

/-- MBX_TAKE (R47, R436): one in the check slot of the timeout is in time, a later one finds FULL clear. -/
def execMbxTake (i agent : Nat) (value : BitVec 32) (s : State) : Host.Outcome State Fault Refusal :=
  .next (
    if 64 ≤ i || !agentUp s agent then s
    else
      let s := lapse s i
      let b := boxOf s i
      if isRecv b agent && !value.getLsbD 0 then s
      else if !isRecv b agent || !b.full then ignoreAccess s i agent
      else endMessage s i 1)

/-- MBX_TIMEOUT (R437, R47). -/
def execMbxTimeout (i : Nat) (s : State) : Host.Outcome State Fault Refusal :=
  .next (if decide (i < 64) && (boxOf s i).full && due s (boxOf s i).due then endMessage s i 2 else s)

/-! Resets (R438) -/

/-- What the reset of an agent does to one mailbox. -/
def resetOnBox (agent : Nat) (s : State) (i : Nat) : State :=
  let s := updBox s i fun b =>
    { b with posterReset := b.posterReset || (b.full && b.poster == agent),
             evt := match senderNo b agent with
               | some k => b.evt.del k
               | none => b.evt }
  let s := if isRecv (boxOf s i) agent && (boxOf s i).full then endMessage s i 3 else s
  updBox s i fun b => { b with owner := if b.owner == agent then 0 else b.owner }

/-- Mailboxes that hold state of their own. -/
def usedBoxes (s : State) : List Nat := Tab.keys s.mbx.boxes

/-- An agent is reset (R438); mailboxes that a reset PF bound are unbound after that. -/
def resetAgent (s : State) (agent : Nat) : State :=
  let s := (usedBoxes s).foldl (resetOnBox agent) s
  if agent ≤ 512 then
    updMbx s fun m => { m with boxes := m.boxes.filter fun b => b.2.boundBy != some (agent - 1) }
  else s

/-! Notices (R431, R432) -/

/-- The notices that wait for a PF. -/
def noticesOf (s : State) (p : Nat) : List (BitVec 512) := s.mbx.notices.getD p []

/-- A notice joins a PF's queue. -/
def queueNotice (s : State) (p : Nat) (msg : BitVec 512) : State :=
  updMbx s fun m => { m with notices := m.notices.put p (m.notices.getD p [] ++ [msg]) }

/-- The RESULT notice of a request (R431). -/
def resultNotice (s : State) (p type : Nat) (st : Status) (box : Nat) : State :=
  queueNotice s p (BitVec.ofNat 512 (0x81 + type * 2 ^ 8 + st.code * 2 ^ 16 + box * 2 ^ 24))

/-- The signal box posts a message on a PF's notice mailbox, holding its lock meanwhile. -/
def postNotice (s : State) (p : Nat) (msg : BitVec 512) : State :=
  postMessage (updBox s (8 + p) fun b => { b with msg := msg, owner := 1025 }) (8 + p) 1025

/-- NOTICE_POST (R432). -/
def execNoticePost (p : Nat) (s : State) : Host.Outcome State Fault Refusal :=
  .next (
    if s.mbx.unattended || decide (8 ≤ p) || (boxOf s (8 + p)).full then s
    else
      match noticesOf s p with
      | n :: rest => postNotice (updMbx s fun m => { m with notices := m.notices.put p rest }) p n
      | [] => s)

/-! Requests (R166, R167, R431) -/

/-- n bytes at byte k of a message. -/
def msgField (m : BitVec 512) (k n : Nat) : Nat := fieldOf m (8 * k) (8 * n)

/-- The signal box may take a request of a PF now (R432, R437, R442). -/
def canTake (s : State) (p : Nat) : Bool :=
  decide (p < 8) && (boxOf s p).full && !s.mbx.unattended && decide ((noticesOf s p).length < 8) && decide (s.pwr.rung < 3)

/-- The signal box takes a request and answers it. -/
def answerRequest (s : State) (p type : Nat) (st : Status) (box : Nat) : State :=
  resultNotice (endMessage s p 1) p type st box

/-- A ring size, log2 (R136). -/
def log2Ok (k : Nat) : Bool := decide (4 ≤ k) && decide (k ≤ 16)

/-- A poll interval (R140). -/
def pollOk (k : Nat) : Bool := k == 0 || (decide (64 ≤ k) && decide (k ≤ 65536))

/-- The fields of an ADMIN_INIT keep their ranges (R166, R167). -/
def adminInitOk (m : BitVec 512) : Bool :=
  msgField m 1 1 == 0 && msgField m 7 1 == 0 && msgField m 0x24 28 == 0 &&
    log2Ok (msgField m 2 1) && log2Ok (msgField m 3 1) && decide (msgField m 4 2 ≤ 2047) && decide (msgField m 6 1 ≤ 1) &&
    msgField m 0x08 8 % 4096 == 0 && msgField m 0x10 8 % 4096 == 0 && msgField m 0x18 8 % 4096 == 0 &&
    pollOk (msgField m 0x20 4)

/-- The admin queue pair that an ADMIN_INIT describes (R135, R167). -/
def adminPair (m : BitVec 512) (t : Word) (fn : Func) : Func :=
  { fn with
    shadow := some (msgField m 0x18 8)
    sqs := fn.sqs.put 0 { push := false, cls := .standard, cqSlot := 0, log2 := msgField m 2 1, base := msgField m 8 8,
                          pollInt := msgField m 0x20 4, pasid := none, quota := 0, pollDue := t }
    cqs := fn.cqs.put 0 { log2 := msgField m 3 1, base := msgField m 0x10 8, ien := (msgField m 6 1) % 2 == 1,
                          vec := msgField m 4 2, ivCount := 1, ivDelay := 0 } }

/-- The effect of an ADMIN_INIT that is taken. -/
def applyInit (s : State) (p : Nat) (m : BitVec 512) : State :=
  let f := 64 * p
  match fnOf s f with
  | none => answerRequest s p 1 .invalidField 0xFF
  | some fn =>
    let up := s.pwr.devState == .recovering || s.pwr.devState == .ready
    if up && adminInitOk m && !fn.sqs.has 0 then
      let t := now s
      poll (answerRequest (updFunc s f (adminPair m t)) p 1 .success 0xFF) f 0
    else answerRequest (markFresh (updFunc s f fun fn => { fn with initErr := true }) (.fn f) 0x204 25 1) p 1 .invalidField 0xFF

/-- ADMIN_INIT (R166, R167): in Starting the message waits. -/
def execAdminInit (p : Nat) (s : State) : Host.Outcome State Fault Refusal :=
  .next (
    let m := (boxOf s p).msg
    if canTake s p && msgField m 0 1 == 1 && s.pwr.devState != .starting && s.pwr.devState != .off then applyInit s p m else s)

/-- An agent that a BIND of a PF may name (R431). -/
def bindAgentOk (s : State) (p a : Nat) : Bool :=
  a == 1025 || (decide (1 ≤ a) && decide (a ≤ 512) && portOf (a - 1) == p && (fnOf s (a - 1)).isSome)

/-- A view of a function is in use (R430). -/
def viewUsed (s : State) (a view : Nat) : Bool :=
  (List.range 64).any fun i =>
    let b := boxOf s i
    b.bound && ((b.recv == a && b.recvView == view) || b.send.any fun x => x.1 == a && x.2 == view)

/-- A view byte that a BIND may give an agent. -/
def bindViewOk (s : State) (a view : Nat) : Bool :=
  if a = 1025 then view == 0 else decide (2 ≤ view) && decide (view ≤ 15) && !viewUsed s a view

/-- Senders of a BIND: agent and view. -/
def bindSenders (m : BitVec 512) : List (Nat × Nat) :=
  ((List.range 4).map fun k => (msgField m (8 + 4 * k) 2, msgField m (10 + 4 * k) 1)).filter fun x => x.1 != 0

/-- Pairs of function agent and view are all different. -/
def viewsDiffer (l : List (Nat × Nat)) : Bool := decide ((l.filter fun x => x.1 != 1025).eraseDups.length = (l.filter fun x => x.1 != 1025).length)

/-- The fields of a BIND are allowed (R431). -/
def bindOk (s : State) (p : Nat) (m : BitVec 512) : Bool :=
  let recv := msgField m 2 2
  let ss := bindSenders m
  msgField m 1 1 == 0 && msgField m 5 3 == 0 && msgField m 0x18 40 == 0 &&
    (List.range 4).all (fun k => msgField m (11 + 4 * k) 1 == 0) &&
    bindAgentOk s p recv && bindViewOk s recv (msgField m 4 1) &&
    ss.all (fun x => bindAgentOk s p x.1 && bindViewOk s x.1 x.2 && x.1 != recv) &&
    viewsDiffer ((recv, msgField m 4 1) :: ss)

/-- The lowest free mailbox of 18 to 63. -/
def freeBox (s : State) : Option Nat := ((List.range 46).map (· + 18)).find? fun i => !(boxOf s i).bound

/-- BIND (R431). -/
def execBind (p : Nat) (s : State) : Host.Outcome State Fault Refusal :=
  .next (
    let m := (boxOf s p).msg
    if !canTake s p || msgField m 0 1 != 2 then s
    else
      match freeBox s with
      | some i =>
        if bindOk s p m then
          answerRequest (updBox s i fun _ =>
            { recv := msgField m 2 2, recvView := msgField m 4 1, send := bindSenders m, bound := true,
              boundBy := some (64 * p) }) p 2 .success i
        else answerRequest s p 2 .invalidField 0xFF
      | none => answerRequest s p 2 .invalidField 0xFF)

/-- UNBIND (R431). -/
def execUnbind (p : Nat) (s : State) : Host.Outcome State Fault Refusal :=
  .next (
    let m := (boxOf s p).msg
    if !canTake s p || msgField m 0 1 != 3 then s
    else
      let i := msgField m 1 1
      if (boxOf s i).boundBy == some (64 * p) && msgField m 5 3 == 0 && msgField m 0x18 40 == 0 then
        let s := if (boxOf s i).full then endMessage s i 3 else s
        answerRequest (updMbx s fun x => { x with boxes := x.boxes.del i }) p 3 .success i
      else answerRequest s p 3 .invalidField 0xFF)

/-- MAILBOX_UNDEFINED_REQUEST (R431). -/
def execMailboxUndefinedRequest (p : Nat) (s : State) : Host.Outcome State Fault Refusal :=
  .next (
    let t := msgField (boxOf s p).msg 0 1
    if canTake s p && t != 1 && t != 2 && t != 3 then answerRequest s p t .invalidField 0xFF else s)

/-! Heartbeat (R441 to R444) -/

/-- Admin commands that wait for an event, taken out of what they wait for (R443). -/
def waitingAdmin (s : State) : List AdminCmd :=
  s.mbx.adminQ ++ s.adm.tokenWait ++ s.pwr.setWaiters ++
    s.tt.waiters.map TtWait.cmd ++
    (s.vols.map fun v => (v.2.fill.bind PiFill.cmd).toList ++ v.2.deleteWait.toList ++ v.2.detachWait.map Prod.snd).flatten ++
    (s.groups.map fun g => g.2.adopter.toList ++ g.2.creator.toList).flatten ++
    (s.mports.map fun p => p.2.resetWait ++ (p.2.cmds.map fun c => c.2.waiter.toList).flatten).flatten ++
    (s.funcs.map fun f => (f.2.windows.map fun w => w.2.commitWait).flatten).flatten

/-- The writing of PI goes on with no command that waits for it. -/
def PiFill.orphan (x : PiFill) : PiFill := { x with cmd := none }

/-- No admin command waits any more. -/
def dropWaiters (s : State) : State :=
  { s with
    mbx := { s.mbx with adminQ := [] }
    adm := { s.adm with tokenWait := [] }
    pwr := { s.pwr with setWaiters := [] }
    tt := { s.tt with waiters := [] }
    vols := s.vols.mapVal fun _ v => { v with fill := v.fill.map PiFill.orphan, deleteWait := none, detachWait := [] }
    groups := s.groups.mapVal fun _ g => { g with adopter := none, creator := none }
    mports := s.mports.mapVal fun _ p => { p with resetWait := [], cmds := p.cmds.mapVal fun _ c => { c with waiter := none } }
    funcs := s.funcs.mapVal fun _ f => { f with windows := f.windows.mapVal fun _ w => { w with commitWait := [] } } }

/-- PFs that exist, by port. -/
def enabledPfs (s : State) : List Nat := (s.funcs.filter fun f => isPF f.1 && f.2.exists_).map fun f => portOf f.1

/-- The unattended notice (R444). -/
def sbNotice (entered : Bool) : BitVec 512 := BitVec.ofNat 512 (0x82 + bit entered 8)

/-- A reload of the firmware resets the cores and begins; it fails after 3,000 cycles with no heartbeat (R37, R444). -/
def startReload (s : State) : State :=
  let t := after s (3000 * slotsOf s.tt.kActive)
  updMbx (updTt s fun t => { t with latchCore := [] }) fun m => { m with reloading := true, reloadDue := t, reloads := min 3 (m.reloads + 1) }

/-- Entry to unattended mode (R442 to R444). -/
def enterUnattended (s : State) : State :=
  let w := waitingAdmin s
  let s := w.foldl (fun s a => adminDone s a .notAdmitted false) (dropWaiters s)
  let s := resetAgent (resetAgent s 1025) 1026
  let s := updMbx s fun m => { m with unattended := true, lapsed := false, notices := [], hbFails := 0, reloadFails := 0 }
  let s := logErr s 0x0D01 .signalBox {} 1
  startReload ((enabledPfs s).foldl (fun s p => if (boxOf s (8 + p)).full then s else postNotice s p (sbNotice true)) s)

/-- The end of unattended mode (R444). -/
def leaveUnattended (s : State) : State :=
  let s := updMbx s fun m => { m with unattended := false, reloading := false, reloadFails := 0, hbFails := 0 }
  (enabledPfs s).foldl (fun s p =>
    updMbx s fun m => { m with notices := m.notices.put p (sbNotice false :: m.notices.getD p []) })
    (logErr s 0x0D01 .signalBox {} 0)

/-- MBX_HB_WRITE (R441, R444). -/
def execMbxHbWrite (value : BitVec 32) (s : State) : Host.Outcome State Fault Refusal :=
  .next (
    let t := after s s.mbx.hbPeriod.toNat
    let s := if s.pwr.fwBeat then s else updMbx s fun m => { m with hbDue := t }
    let s := { (updMbx s fun m => { m with hb := value }) with pwr := { s.pwr with fwBeat := true } }
    if s.mbx.unattended && s.mbx.reloading && !s.mbx.gaveUp then leaveUnattended s else s)

/-- HEARTBEAT_CHECK (R441): two failed checks in a row enter unattended mode in the next slot. -/
def execHeartbeatCheck (s : State) : Host.Outcome State Fault Refusal :=
  .next (
    if !s.pwr.fwBeat || s.mbx.unattended || !due s s.mbx.hbDue then s
    else
      let t := after s s.mbx.hbPeriod.toNat
      let ok := s.mbx.hb != s.mbx.hbSeen
      let s := updMbx s fun m => { m with hbSeen := m.hb, hbDue := t, hbFails := if ok then 0 else m.hbFails + 1 }
      if 2 ≤ s.mbx.hbFails then updMbx s fun m => { m with lapsed := true } else s)

/-- RELOAD_HEARTBEAT_TIMEOUT (R444): the third failed reload gives up. -/
def execReloadHeartbeatTimeout (s : State) : Host.Outcome State Fault Refusal :=
  .next (
    if !s.mbx.reloading || !due s s.mbx.reloadDue then s
    else
      let n := s.mbx.reloadFails + 1
      let s := logErr (updMbx s fun m => { m with reloadFails := n }) 0x0D02 .alwaysOn {} n
      if 3 ≤ n then updMbx s fun m => { m with reloading := false, gaveUp := true } else startReload s)

end Sys2Proof.Machine
end

