-- ==== Sys2Proof/Machine/Host.lean ====
section
/-! DEFINITION. Host ports and functions: upstream read completions and timeouts, resets, bus master enable, VF
enable, D-states, interrupt masks (R90 to R95, R112 to R131, R478). -/

namespace Sys2Proof.Machine

/-- Requests of a class that a freed tracker lets go on: entry fetches, list reads, then Translation Requests and channel
requests, in the order of the blocks that make them (R50, R128). -/
def kickClass (s : State) (cl : Cls) : State := pumpAll cl (recheckClass cl (askLists cl (fetchClass cl s)))

/-- Requests that a freed tracker lets go on, in class order (R128), and page requests, which need none. -/
def kick (s : State) : State := sendAllPrgs ([Cls.express, .standard, .bulk].foldl kickClass s)

/-! Read completions (R125 to R127) -/

/-- Entries of 64 bytes. -/
def entriesOf (n : Nat) (bs : List Byte) : List (BitVec 512) :=
  (List.range n).map fun k => BitVec.ofNat 512 (leNat ((bs.drop (64 * k)).take 64))

/-- The page request group of an index. -/
def prgOf (s : State) (f index : Nat) : Option Prg :=
  s.xlate.prgs.find? fun g => g.func == f && g.index == index && g.sent

/-- The data of a read arrives in time (R126, R142, R154, R408). -/
def readArrives (s : State) (tag : Nat) (r : HostRead) (bytes : List Byte) (ep : Bool) : State :=
  match r.purpose with
  | .entry slot =>
    match sqOf s r.func slot with
    | some q => fetchArrives s r.func slot tag (entriesOf q.fetching bytes) ep
    | none => closeRead s tag
  | .poll slot => pollArrives s r.func slot tag (leNat (bytes.take 4)) ep
  | .list cx =>
    let s := closeRead s tag
    listArrives (if ep then poisonIn s r.func else s) cx bytes ep
  | .data m c pos len =>
    let s := closeRead s tag
    dataArrives (if ep then poisonIn s r.func else s) m c pos len bytes ep
  | .ats _ _ => s
  | .page _ => s

/-- The effect of a read that failed or timed out, by its purpose (R126). -/
def readFails (s : State) (r : HostRead) : State :=
  match r.purpose with
  | .entry slot =>
    raiseFn (updSq s r.func slot fun q => { q with fetchStop := true, fetching := 0 }) r.func .fetchTmo
  | .poll slot =>
    let t := after s (((sqOf s r.func slot).map fun q => q.pollInt).getD 0)
    updSq s r.func slot fun q => { q with pollOut := false, pollDue := t }
  | .list cx => listFails s cx
  | .data m c _ _ => dataFails s m c
  | .ats p ps => atsFails s r.func p ps
  | .page i =>
    match prgOf s r.func i with
    | some g => sendPrgs (prgFails (dropPrg s g) g) r.func
    | none => s

/-- A timeout is counted, sets CTO and is logged through AER (R126). -/
def countCto (s : State) (f : Nat) : State :=
  let s := updFunc s f fun fn => { aerSet fn 14 with cntCto := satInc fn.cntCto }
  emit (raiseFn (markFresh s (.fn f) 0x20 0 1) f .cto) (.aer f 2)

/-- A read has timed out: its tag is quarantined until its late completion (R126, R127). A page request has no tag of its
own. -/
def timeoutRead (s : State) (tag : Nat) (r : HostRead) : State :=
  let s := countCto s r.func
  let s := if isPageReq r then closeRead s tag
    else { s with reads := s.reads.upd tag fun r => { r with quarantined := true } }
  kick (readFails s r)

/-- A late completion: discarded, counted, and the tag released (R127). -/
def lateRead (s : State) (tag : Nat) (r : HostRead) : State := kick (unexpected (closeRead s tag) r.func)

/-- The record of a status other than Successful Completion: the AER record, and the bit of the Status register that PCIe gives
it (R126; log entry 11). -/
def statusRecord (s : State) (f : Nat) (st : HostStatus) : State :=
  match st with
  | .success => s
  | .unsupported => emit (updFunc s f fun fn => { fn with cmdStat := fn.cmdStat ||| 0x2000#16 }) (.aer f 4)
  | .abort => emit (updFunc s f fun fn => { fn with cmdStat := fn.cmdStat ||| 0x1000#16 }) (.aer f 5)
  | .retry => emit s (.aer f 6)

/-- HOST_READ_COMPLETION (R47, R126, R127): data of a read that is still awaited, or a status other than success; one that comes
after the check slot of its timeout is late. -/
def execHostReadCompletion (tag : Nat) (status : HostStatus) (bytes : List Byte) (ep : Bool) (s : State) :
    Host.Outcome State Fault Refusal :=
  .next (match s.reads.find tag with
    | none => s
    | some r =>
      if isPageReq r then s
      else if r.quarantined then lateRead s tag r
      else if past s r.due then lateRead (timeoutRead s tag r) tag r
      else if status == .success then kick (readArrives s tag r bytes ep)
      else kick (readFails (statusRecord (closeRead s tag) r.func status) r))

/-- COMPLETION_TIMEOUT (R126, R127). -/
def execCompletionTimeout (tag : Nat) (s : State) : Host.Outcome State Fault Refusal :=
  .next (match s.reads.find tag with
    | none => s
    | some r => if r.quarantined || !due s r.due then s else timeoutRead s tag r)

/-- LATE_HOST_COMPLETION (R127). -/
def execLateHostCompletion (tag : Nat) (s : State) : Host.Outcome State Fault Refusal :=
  .next (match s.reads.find tag with
    | none => s
    | some r => if r.quarantined then lateRead s tag r else s)

/-! Teardown of a function (R117, R118) -/

/-- Contexts of a function's commands. -/
def ctxsOf (s : State) (f : Nat) : List Nat := Tab.keys (s.ctxs.filter fun c => c.2.kind != .maint && c.2.func.toNat == f)

/-- The context holds a stripe lock or a journal record. -/
def engaged (s : State) (cx : Nat) : Bool := !(locksHeld s cx).isEmpty || !(recsOf s cx).isEmpty

/-- A context that goes on through a teardown leaves its host transfer: the instruction ends with HOST_FAULT. -/
def leaveHost (s : State) (cx : Nat) (c : Ctx) : State :=
  let s := { s with movers := s.movers.mapVal fun _ m => dropChans cx m }
  match c.wait with
  | .mover =>
    match ownChan s cx c.pc with
    | some (m, ch) => finishWait s cx fun c => setGreg c (chanOf s m ch).dstReg 9
    | none => finishWait s cx id
  | .channel _ _ _ dst => finishWait s cx fun c => setGreg c dst 9
  | .list dst k => finishWait (releaseHandle s cx k) cx fun c => setGreg c dst 9
  | _ => if c.state == .translating then wake s cx else s

/-- One context of a function in teardown (R118): a handler with a lock or a record goes on to its end, any other
ends now. -/
def tearCtx (s : State) (cx : Nat) : State :=
  match s.ctxs.find cx with
  | none => s
  | some c => if engaged s cx then leaveHost s cx c else endThread (updCtx s cx fun c => { c with wtWait := [], flushWait := [], repairs := 0 }) cx

/-- Translation state of a function goes (R117, R418). -/
def tearXlate (s : State) (f : Nat) : State :=
  { s with
    reads := s.reads.filter fun r => r.2.func != f
    xlate := { s.xlate with
      ats := s.xlate.ats.filter fun e => e.func != f, prgs := s.xlate.prgs.filter fun g => g.func != f,
      invals := s.xlate.invals.filter fun v => v.1 != f } }

/-- An admin command is not one of a port's (a reset of a PF drops those of its port). -/
def keepAdmin (p : Nat) (a : Option AdminCmd) : Option AdminCmd := a.filter fun a => a.port != p

/-- The admin commands of a PF leave what they wait for: their completions have no queue any more (R117). -/
def dropAdmin (s : State) (p : Nat) : State :=
  let keep := fun (a : AdminCmd) => a.port != p
  { s with
    mbx := { s.mbx with adminQ := s.mbx.adminQ.filter keep }
    adm := { s.adm with tokenWait := s.adm.tokenWait.filter keep }
    pwr := { s.pwr with setWaiters := s.pwr.setWaiters.filter keep }
    tt := { s.tt with waiters := s.tt.waiters.filter fun w => keep w.cmd }
    groups := s.groups.mapVal fun _ g => { g with adopter := keepAdmin p g.adopter, creator := keepAdmin p g.creator }
    mports := s.mports.mapVal fun _ m =>
      { m with resetWait := m.resetWait.filter keep, cmds := m.cmds.mapVal fun _ c => { c with waiter := keepAdmin p c.waiter } }
    funcs := s.funcs.mapVal fun _ f =>
      { f with windows := f.windows.mapVal fun _ w => { w with commitWait := w.commitWait.filter keep } } }

/-- The values of a function after its reset (R100, R117): Max Payload Size and the sticky AER registers are kept, as PCIe
keeps them through FLR. -/
def resetFunc (fn : Func) (busy : Bool) : Func := { exists_ := true, flrBusy := busy, mps := fn.mps, aer := fn.aer }

/-- Volumes whose waiting DETACH or DELETE_VOLUME may complete now. -/
def settleVols (s : State) : State := (Tab.keys s.vols).foldl volSettle s

/-- The teardown of a function begins (R68, R117, R118, R438). -/
def tearDown (s : State) (f : Nat) : State :=
  match fnOf s f with
  | none => s
  | some _ =>
    let s := clearWindows s f
    let s := clearTokens s f
    let s := resetAgent s (agentOf f)
    let s := if isPF f then dropAdmin s (portOf f) else s
    let s := if isPF f then updPort s (portOf f) fun p => { p with intx := false } else s
    let t := now s
    let s := updFunc s f fun fn => { resetFunc fn true with flrTs := t }
    let s := (ctxsOf s f).foldl tearCtx (tearXlate s f)
    let s := updTt s fun t => { t with latchNow := t.latchNow.del f, latchMirror := t.latchMirror.del f }
    rbChange (kick (settleVols (wakeFrameWaiters s)))

/-- VFs of a port. -/
def vfsOf (s : State) (p : Nat) : List Nat := (fnsOfPort s p).filter fun f => !isPF f

/-- FLR (R117, R118): an FLR of a PF tears its VFs down too. -/
def execFlr (f : Nat) (s : State) : Host.Outcome State Fault Refusal :=
  .next (match takesCfg s f with
    | none => refuseCfg s f
    | some _ => (if isPF f then vfsOf s (portOf f) else []).foldl tearDown (tearDown (emit s (.configDone f)) f))

/-- FLR_TEARDOWN_END (R118): no context of the function is left, in a slot after the reset's. -/
def execFlrTeardownEnd (f : Nat) (s : State) : Host.Outcome State Fault Refusal := .next (flrSettle s f)

/-! HPERST_N (R95, R117, R475, R478) -/

/-- HPERST_ASSERT (R117, R478): with its PF in D3hot the port is in D3cold. -/
def execHperstAssert (p : Nat) (s : State) : Host.Outcome State Fault Refusal :=
  .next (match s.ports.find p with
    | none => s
    | some h =>
      if h.hperst then s
      else
        let pf := s.funcs.getD (64 * p) {}
        let s := (fnsOfPort s p).foldl tearDown s
        let s := updPort s p fun h =>
          { h with hperst := true, linkUp := false, widthNeg := 0, speedNeg := 0, flit := false, crs := true,
                   vfEnable := false, numVfs := 0, vfHeld := false, intx := false }
        rbChange (if pf.d3 then updFunc s (64 * p) fun fn => { fn with d3 := true, d3cold := true, pmeEn := pf.pmeEn } else s))

/-- HPERST_DEASSERT (R91, R95, R130, R475): the port trains again and waits for its rebuild. -/
def execHperstDeassert (p : Nat) (s : State) : Host.Outcome State Fault Refusal :=
  .next (match s.ports.find p with
    | none => s
    | some h =>
      if !h.hperst then s
      else
        let s := if h.hwakeLow then emit s (.hwake p false) else s
        let t := now s
        let s := updPort s p fun h => { h with hperst := false, rebuild := true, rebuildTs := t, hwakeLow := false }
        let s := rbChange (updFunc s (64 * p) fun fn => { fn with d3 := false, d3cold := false })
        if s.pwr.devState == .ready then wakeUp s (.hperst p) else s)

/-- PORT_REBUILD (R95): at the first cycle edge after the deassertion at which no function of the port is in teardown. -/
def execPortRebuild (p : Nat) (s : State) : Host.Outcome State Fault Refusal :=
  .next (match s.ports.find p with
    | none => s
    | some h =>
      if !h.rebuild || h.hperst || s.tt.slot != 0 || !past s h.rebuildTs || (fnsOfPort s p).any (flrNow s) then s
      else
        let s := { s with funcs := Tab.put (s.funcs.filter fun x => portOf x.1 != p || isPF x.1) (64 * p) { exists_ := true } }
        rbChange (updPort s p fun h => { h with rebuild := false, crs := false }))

/-- CRS_PERIOD_END (R95): 20 cycles after the start. -/
def execCrsPeriodEnd (s : State) : Host.Outcome State Fault Refusal :=
  .next (
    if s.pwr.devState == .off || !due s s.pwr.crsDue then s
    else { s with ports := s.ports.mapVal fun _ h => if h.hperst || h.rebuild then h else { h with crs := false } })

/-- HOST_LINK_UP (R91, R104): the port has trained, at most to its strapped width, at a rate code of 1 to 6 (R108); at 64 GT/s it
is in Flit mode whatever its partner offers. -/
def execHostLinkUp (p width speed : Nat) (flit : Bool) (s : State) : Host.Outcome State Fault Refusal :=
  .next (match s.ports.find p with
    | none => s
    | some h =>
      if h.hperst || width = 0 || speed = 0 || 6 < speed then s
      else rbChange (updPort s p fun h =>
        { h with linkUp := true, widthNeg := min width h.widthMax, speedNeg := speed, flit := flit || speed == 6 }))

/-! Bus master enable (R120, R121) -/

/-- Channels of a function. -/
def chansOf (s : State) (f : Nat) : List (Nat × Nat) :=
  (s.movers.map fun m => (m.2.chans.filter fun c => match c.2.ctx.bind fun cx => s.ctxs.find cx with
    | some x => x.func.toNat == f
    | none => false).map fun c => (m.1, c.1)).flatten

/-- A function's channels pause with cause BUS_MASTER (R120, R408). -/
def holdChans (s : State) (f : Nat) : State := (chansOf s f).foldl (fun s x => pauseChan s x.1 x.2 2) s

/-- A held shadow write or message is sent. -/
def sendHeld (s : State) (f : Nat) (h : HeldWork) : State :=
  match h with
  | .shadow a v => emit s (.shadowWrite f a v)
  | .msix v => sendMsix s f v

/-- The held work is a shadow write. -/
def isShadow : HeldWork → Bool
  | .shadow _ _ => true
  | .msix _ => false

/-- Held work of a function goes on, in the order of R121: channels, shadow writes, completion entries, messages. -/
def releaseHeld (s : State) (f : Nat) : State :=
  match fnOf s f with
  | none => s
  | some fn =>
    if !upstreamOk s fn then s
    else
      let s := updFunc s f fun fn => { fn with held := [] }
      let s := (chansOf s f).foldl (fun s x => startBest (clearCause s x.1 x.2 2) x.1) s
      let s := (fn.held.filter isShadow).foldl (fun s h => sendHeld s f h) s
      let s := issueFn s f
      let s := (fn.held.filter fun h => !isShadow h).foldl (fun s h => sendHeld s f h) s
      kick s

/-- A function that may send again resumes in the issue step of the slot (R119, R121). -/
def resumeFn (s : State) (f : Nat) : State :=
  match fnOf s f with
  | some fn => if fn.resume then releaseHeld (updFunc s f fun fn => { fn with resume := false }) f else s
  | none => s

/-- COMPLETION_ISSUE (R59, R121, R157 to R161): an entry of a higher class on the port goes first. -/
def execCompletionIssue (f slot : Nat) (s : State) : Host.Outcome State Fault Refusal :=
  .next (let s := resumeFn s f
    if outranked s f slot then s else issueRing s f slot)

/-- What is left of the issue step of the present slot: echoes, functions that may send again, entry fetches, INTA, and the events of
the rings (R46, R114, R119, R121, R165, R339). -/
def issueSlot (s : State) : State :=
  let s := (Tab.keys s.groups).foldl flushEcho s
  let s := (Tab.keys s.funcs).foldl resumeFn s
  signalAll ((Tab.keys s.funcs).foldl settleIntx (fetchIssue s))

/-- The writing of PI goes on, and a deletion that waited for it may complete (R191, R193). -/
def fillAll (s : State) : State :=
  (Tab.keys (s.vols.filter fun v => v.2.fill.isSome)).foldl (fun s v => volSettle (fillStep s v) v) s

/-- The pulse on MPERST_N of a RESET ends: the port leaves reset where a member stands (R361, R381). -/
def pulseEnd (s : State) (port : Nat) : State :=
  match s.mports.find port with
  | some p =>
    if p.pulseDue.any (due s) then
      let s := updMport s port fun p => { p with pulseDue := none, mperstHigh := p.present }
      if p.present then emit s (.mperst port true) else s
    else s
  | none => s

/-- What a new slot settles: teardowns with no context left end (R118), the writing of PI goes on, resets of member ports end, and
nothing has been set or given up in it yet. -/
def settleSlot (s : State) : State :=
  (Tab.keys s.mports).foldl pulseEnd
    ((Tab.keys s.funcs).foldl flrSettle (fillAll (passExpired { s with fresh := [], freedVols := [] })))

/-- The state update that opens a slot; unattended mode begins in the slot after the heartbeat's second failed check (R441), and
VAULT_DONE_N goes low in the slot after a power failure with nothing to dump (R349). -/
def openSlot (s : State) : State :=
  let s := settleSlot s
  let s := if s.mbx.lapsed then enterUnattended s else s
  if s.vlt.doneNext then driveDone s else s

/-- Bus Master Enable becomes 0 (R120). -/
def clearBme (s : State) (f : Nat) : State := holdChans (updFunc s f fun fn => { fn with bme := false, resume := false }) f

/-- Bus Master Enable becomes 1: the issue step of the slot resumes the function (R119, R121). -/
def setBme (s : State) (f : Nat) : State := updFunc s f fun fn => { fn with bme := true, resume := true }

/-- BUS_MASTER_CLEAR (R120): the completion of the write itself is issued. -/
def execBusMasterClear (f : Nat) (s : State) : Host.Outcome State Fault Refusal :=
  .next (match takesCfg s f with
    | some _ => rbChange (emit (clearBme s f) (.configDone f))
    | none => refuseCfg s f)

/-- BUS_MASTER_SET (R121). -/
def execBusMasterSet (f : Nat) (s : State) : Host.Outcome State Fault Refusal :=
  .next (match takesCfg s f with
    | some _ => rbChange (setBme (emit s (.configDone f)) f)
    | none => refuseCfg s f)

/-! Hot reset, VF enable, D-states (R117, R129) -/

/-- A function across a hot reset: configuration reset, masks 1, Q_FN_CTO reset, the rest kept (R100, R117). -/
def hotFunc (fn : Func) : Func :=
  { fn with
    bme := false, resume := false, msixEn := false, msixFmask := false, unmasked := [], intxDis := false, ro := true,
    pmeEn := false, extTag := true, tag10 := false, ltrEn := false, pasidEn := false, ctoField := 0, cmdStat := 0,
    atsEn := false, priEn := false, priStop := false, priAlloc := 0, mps := 128, mrrs := 512, tagLimit := 256, cfg := [],
    cto := 0x320000#32, d3 := false, d3cold := false }

/-- HOT_RESET (R117): a hot reset or a link down. -/
def execHotReset (p : Nat) (s : State) : Host.Outcome State Fault Refusal :=
  .next (match s.ports.find p with
    | none => s
    | some h =>
      if h.hperst then s
      else
        let held := h.vfHeld || h.vfEnable
        let s := (fnsOfPort s p).foldl (fun s f => updFunc (clearBme s f) f hotFunc) s
        rbChange (updPort s p fun h =>
          { h with linkUp := false, widthNeg := 0, speedNeg := 0, flit := false, vfEnable := false, numVfs := 0, vfHeld := held,
                   intx := false }))

/-- Create the VFs of a port up to a number that are missing. -/
def makeVfs (s : State) (p num : Nat) : State :=
  (List.range num).foldl (fun s k =>
    if (fnOf s (64 * p + k + 1)).isSome then s
    else { s with funcs := s.funcs.put (64 * p + k + 1) { exists_ := true } }) s

/-- VF_ENABLE_WRITE (R93, R117): held VFs up to NumVFs return, those above are torn down. -/
def execVfEnableWrite (p : Nat) (enable : Bool) (num : Nat) (s : State) : Host.Outcome State Fault Refusal :=
  .next (match s.ports.find p, takesCfg s (64 * p) with
    | some h, some _ =>
      let n := min num 63
      let s := emit s (.configDone (64 * p))
      if enable then
        let s := updPort s p fun h => { h with vfEnable := true, numVfs := n, vfHeld := false }
        let s := makeVfs s p n
        rbChange (((vfsOf s p).filter fun f => decide (n < f % 64)).foldl tearDown s)
      else
        let s := updPort s p fun h => { h with vfEnable := false, numVfs := n }
        rbChange (if h.vfEnable then (vfsOf s p).foldl tearDown s else s)
    | _, _ => refuseCfg s (64 * p))

/-- D_STATE_WRITE (R129, R475): VFs follow their PF. -/
def execDStateWrite (p : Nat) (d3 : Bool) (s : State) : Host.Outcome State Fault Refusal :=
  .next (match takesCfg s (64 * p) with
    | none => refuseCfg s (64 * p)
    | some _ =>
      let fs := fnsOfPort s p
      let s := emit s (.configDone (64 * p))
      let s := rbChange (fs.foldl (fun s f => updFunc s f fun fn => { fn with d3 := d3 }) s)
      if d3 then s
      else
        let s := if s.pwr.devState == .ready then wakeUp s .pfD0 else s
        fs.foldl (fun s f => updFunc s f fun fn => { fn with resume := fn.bme }) s)

/-- The Completion Timeout Value field is written: it loads Q_FN_CTO (R125). A value without meaning is treated as DEFAULT, the
field's reset value, and counted (R11). -/
def loadCto (s : State) (f : Nat) (value : BitVec 4) : State :=
  let load := fun (v : BitVec 4) (n : Nat) => updFunc s f fun fn => { fn with ctoField := v, cto := BitVec.ofNat 32 n }
  match value.toNat with
  | 0 => load 0 3276800
  | 1 => load 1 6554
  | 2 => load 2 655360
  | _ => countIgn (load 0 3276800) f

/-- CTO_VALUE_WRITE (R11, R125). -/
def execCtoValueWrite (f : Nat) (value : BitVec 4) (s : State) : Host.Outcome State Fault Refusal :=
  .next (match takesCfg s f with
    | none => refuseCfg s f
    | some _ => loadCto (emit s (.configDone f)) f value)

/-! Interrupts (R112 to R114) -/

/-- Pending messages of vectors that are no longer masked are sent (R113). -/
def sendPending (s : State) (f : Nat) : State :=
  match fnOf s f with
  | none => s
  | some fn =>
    if !fn.msixEn then s
    else
      let vs := fn.pba.filter fun v => !maskedVec fn v
      vs.reverse.foldl (fun s v => sendMsix s f v) (updFunc s f fun fn => { fn with pba := fn.pba.filter (maskedVec fn) })

/-- MSIX_UNMASK (R113): the mask of a vector clears by a write to BAR0, the Function Mask by one to configuration space (R129,
R131). -/
def execMsixUnmask (f : Nat) (vector : Option Nat) (s : State) : Host.Outcome State Fault Refusal :=
  .next (match vector with
    | some v =>
      match takesWrites s f with
      | some _ =>
        if v < vectorsOf f then
          sendPending (updFunc s f fun fn => { fn with unmasked := if fn.unmasked.contains v then fn.unmasked else v :: fn.unmasked }) f
        else s
      | none => s
    | none =>
      match takesCfg s f with
      | some _ => sendPending (updFunc (emit s (.configDone f)) f fun fn => { fn with msixFmask := false }) f
      | none => refuseCfg s f)

/-- Clear the W1C bits of Q_FN_STATUS that a value names (R100). -/
def clearStatus (fn : Func) (v : BitVec 32) : Func :=
  { fn with
    stCto := fn.stCto && !v.getLsbD 2, stUnexp := fn.stUnexp && !v.getLsbD 3, stPsnIn := fn.stPsnIn && !v.getLsbD 4,
    stFetchTmo := fn.stFetchTmo && !v.getLsbD 5, stRbChanged := fn.stRbChanged && !v.getLsbD 7 }

/-- INTX_CLEAR (R9, R114): a bit set in the same slot stays; INTA follows in the issue step. -/
def execIntxClear (f : Nat) (rings : Word) (status : BitVec 32) (s : State) : Host.Outcome State Fault Refusal :=
  .next (match takesWrites s f with
    | none => s
    | some _ =>
      let r := w1c s (.fn f) 0x48 rings
      let t := w1c s (.fn f) 0x04 status
      updFunc s f fun fn => clearStatus { fn with intxRing := fn.intxRing &&& ~~~ r } t)

end Sys2Proof.Machine
end

