-- ==== Sys2Proof/Machine/IoCmds.lean ====
section
/-! DEFINITION. The I/O commands as their completions show them: what READ, WRITE, FLUSH, WRITE_ZEROES, DEALLOCATE and
VERIFY do for a context, with the host data and the member reads that the command brings (R20 to R24, R122 to R124,
R172 to R187, R218 to R221, R227). -/

namespace Sys2Proof.Machine

/-! The strips of a stripe as a command reads them (R20, R182, R218 to R222) -/

/-- A strip of a stripe at a block offset, for a read: erased by a member's failure or possession, not readable (its read ended
with an event, or its data fails the guard), not read yet, or read. -/
inductive Strip where
  | erased | bad | unread
  | data (m : Memory)
  deriving DecidableEq, Repr

/-- The data of a strip that was read. -/
def Strip.value : Strip → Option Memory
  | .data m => some m
  | _ => none

/-- The strip counts as erased (R218). -/
def Strip.lost : Strip → Bool
  | .erased => true
  | .bad => true
  | _ => false

/-- Strip i of a stripe at a block offset, its guard not judged; with `avoid` a member in possession is erased too. -/
def rawStrip (s : State) (g : Group) (lanes : List LaneRead) (avoid : Bool) (stripe o i : Nat) : Strip :=
  let p := place g stripe i
  let lba := memberLba g p.row o
  match memberPort s g p.member with
  | none => .erased
  | some mp =>
    if readFailed g mp lba || (avoid && mp.inPoss) then .erased
    else
      match lanes.find? fun l => l.index == p.member && l.lba == lba with
      | none => .unread
      | some l => match l.event with
        | .ok d => .data d
        | _ => .bad

/-- The data of strip i as it was read. -/
def laneOf (s : State) (g : Group) (lanes : List LaneRead) (avoid : Bool) (stripe o i : Nat) : Option Memory :=
  (rawStrip s g lanes avoid stripe o i).value

/-- Strips of a stripe that count as erased. -/
def erasures (m : Nat) (get : Nat → Strip) : Nat := ((List.range m).filter fun i => (get i).lost).length

/-- The strips of a stripe: a possession erases its member's strip, unless the stripe would then have more than two erasures
(R218). -/
def withPossession (m : Nat) (get : Bool → Nat → Strip) : Nat → Strip :=
  if erasures m (get true) ≤ 2 then get true else get false

/-- The erasure of a member in possession is withdrawn: the read loses its bound (R218). -/
def withdrawn (m : Nat) (get : Bool → Nat → Strip) : Bool :=
  decide (2 < erasures m (get true)) && decide (erasures m (get false) < erasures m (get true))

/-- Data lane t from the other lanes (R220); `get` gives a lane that is not erased. -/
def solveData (w : Nat) (get : Nat → Option Memory) (t : Nat) : Option Memory :=
  let others := (List.range w).filter (· != t)
  let known := others.filterMap fun j => (get j).map fun m => (j, m)
  let lost := others.filter fun j => (get j).isNone
  match lost, get w, get (w + 1) with
  | [], some p, _ => some (xorFrames (p :: known.map Prod.snd))
  | [], none, some q => some (scaleFrame (gneg t) (xorFrames [q, weightedFrames known]))
  | [y], some p, some q =>
    let x := min t y
    let z := max t y
    let pxy := xorFrames (p :: known.map Prod.snd)
    let qxy := xorFrames [q, weightedFrames known]
    let dx := scaleFrame (cxy x z) (xorFrames [qxy, scaleFrame (gpow z) pxy])
    some (if t = x then dx else xorFrames [pxy, dx])
  | _, _, _ => none

/-- Data strip t: as read, or reconstructed while the stripe has at most two erasures (R220, R222). -/
def solveStrip (w : Nat) (get : Nat → Strip) (t : Nat) : Option Memory :=
  match get t with
  | .data m => some m
  | .unread => none
  | _ => if 2 < erasures (w + 2) get then none else solveData w (fun i => (get i).value) t

/-- The strips that a read of data strip t takes (R221): the strip itself; with it erased the other data strips that are not
erased, and P, or Q when P is erased, or both with a second data strip erased. -/
def readPlan (w : Nat) (get : Nat → Strip) (t : Nat) : List Nat :=
  if !(get t).lost then [t]
  else if 2 < erasures (w + 2) get then []
  else
    let others := (List.range w).filter (· != t)
    let sound := others.filter fun i => !(get i).lost
    if sound.length = others.length then sound ++ [if (get w).lost then w + 1 else w] else sound ++ [w, w + 1]

/-- A read that the plan for a data strip takes has not come back. -/
def planOpen (w : Nat) (get : Nat → Strip) (t : Nat) : Bool := (readPlan w get t).any fun i => get i == .unread

/-- Strips of a block of PI, which carry no guard. -/
def piStrips (s : State) (g : Group) (lanes : List LaneRead) (stripe o : Nat) : Nat → Strip :=
  withPossession g.geom.m fun avoid => rawStrip s g lanes avoid stripe o

/-- Where a volume keeps the PI of a block: stripe, data strip, block offset (R190, R227). -/
def piPlace (g : Group) (v : Volume) (lba : Nat) : Nat × Nat × Nat :=
  stripeOf g v (v.extents.length * Config.extentBlocks + lba / 512)

/-- PI of a volume block as the members hold it (R227). -/
def memberPi (s : State) (g : Group) (v : Volume) (lanes : List LaneRead) (lba : Nat) : Option Word :=
  let x := piPlace g v lba
  (solveStrip g.w (piStrips s g lanes x.1 x.2.2) x.2.1).map fun m => BitVec.ofNat 64 (leNat (m.bytes (8 * (lba % 512)) 8))

/-- Data that a member returned for strip i fails the guard of its block (R182). -/
def guardFails (s : State) (gno : Nat) (g : Group) (lanes : List LaneRead) (stripe o i : Nat) (m : Memory) : Bool :=
  if g.w ≤ i then false
  else
    match (blockOf s gno g stripe i o).bind fun x => (s.vols.find x.1).bind fun v =>
      if v.pi then memberPi s g v lanes x.2 else none with
    | some pi => !guardOk m pi
    | none => false

/-- Strip i of a stripe at a block offset, with its guard judged. -/
def stripAt (s : State) (gno : Nat) (g : Group) (lanes : List LaneRead) (avoid : Bool) (stripe o i : Nat) : Strip :=
  match rawStrip s g lanes avoid stripe o i with
  | .data m => if guardFails s gno g lanes stripe o i m then .bad else .data m
  | x => x

/-- The strips at the offset of a volume block; with `skip` its own strip counts as not readable. -/
def blockStrips (s : State) (g : Group) (v : Volume) (lanes : List LaneRead) (lba : Nat) (skip : Bool) (avoid : Bool) (i : Nat) : Strip :=
  let x := stripeOf g v lba
  if skip && i == x.2.1 then .bad else stripAt s v.group g lanes avoid x.1 x.2.2 i

/-- The strips that a read of a volume block goes by. -/
def blockView (s : State) (g : Group) (v : Volume) (lanes : List LaneRead) (lba : Nat) (skip : Bool) : Nat → Strip :=
  withPossession g.geom.m (blockStrips s g v lanes lba skip)

/-- A volume block as the members hold it. A stripe in the lost-stripe map gives what it still holds, and reconstructs nothing
until every block has been rewritten (R222). -/
def memberBlock (s : State) (g : Group) (v : Volume) (lanes : List LaneRead) (lba : Nat) (skip : Bool) : Option Memory :=
  let x := stripeOf g v lba
  let get := blockView s g v lanes lba skip
  if isLost s v.group x.1 then (get x.2.1).value else solveStrip g.w get x.2.1

/-- A member read that the PI of a block needs is still to come. -/
def piOpen (s : State) (g : Group) (v : Volume) (lanes : List LaneRead) (lba : Nat) : Bool :=
  let y := piPlace g v lba
  v.pi && planOpen g.w (piStrips s g lanes y.1 y.2.2) y.2.1

/-- A member read that a volume block and its PI need is still to come (R221). -/
def blockOpen (s : State) (g : Group) (v : Volume) (lanes : List LaneRead) (lba : Nat) (skip : Bool) : Bool :=
  let x := stripeOf g v lba
  let get := blockView s g v lanes lba skip
  (if isLost s v.group x.1 then get x.2.1 == .unread else planOpen g.w get x.2.1) || piOpen s g v lanes lba

/-! Blocks of a READ (R123, R124, R179, R182) -/

/-- A block that a READ returns: its bytes and PI, EP, and the status it calls for. -/
structure BlockOut where
  data : Memory
  pi : Word
  ep : Bool
  st : Status
  deriving DecidableEq, Repr

/-- The tags of a returned block are judged (R182). -/
def tagStatus (v : Volume) (e : BitVec 512) (i : Nat) (pi : Word) : Status :=
  if v.pi && !tagsOk (piCtl e) i pi then .piMismatch else .success

/-- A block judged: guard, tags and poison. With a guard mismatch, `again` is the block reconstructed. -/
def judgeBlock (v : Volume) (e : BitVec 512) (i : Nat) (d : Memory) (pi : Word) (poison : Bool) (again : Option Memory) :
    BlockOut :=
  let tags := tagStatus v e i pi
  let st := if poison then Status.worse tags .dataPoisoned else tags
  if !v.pi || guardOk d pi then { data := d, pi := pi, ep := poison, st := st }
  else
    match again with
    | some m =>
      if guardOk m pi then { data := m, pi := pi, ep := poison, st := st }
      else { data := m, pi := pi, ep := true, st := .piMismatch }
    | none => { data := d, pi := pi, ep := true, st := .piMismatch }

/-- The frame that serves a block: resident, with every line correct. -/
def servedBy (s : State) (vol lba : Nat) : Option Frame :=
  (mapped s vol lba).bind fun fr => if (frameOf s fr).badLines.isEmpty then some (frameOf s fr) else none

/-- A resident block whose frame fails its guard and can be reconstructed from the members: it is not dirty (R182). -/
def frameSuspect (v : Volume) (f : Frame) : Bool := v.pi && !f.dirty && !guardOk f.data f.pi

/-- Block i of a READ. A block of a lost stripe that no member gives is sent with EP and free content. -/
def readBlock (s : State) (g : Group) (v : Volume) (vol : Nat) (e : BitVec 512) (lanes : List LaneRead) (i : Nat) : BlockOut :=
  let lba := eLba e + i
  let marked := inPoisonList s vol lba
  match servedBy s vol lba with
  | some f =>
    judgeBlock v e i f.data f.pi (f.poison || marked) (if frameSuspect v f then memberBlock s g v lanes lba true else none)
  | none =>
    let gone : BlockOut := { data := Memory.free (s.freeCtr + i), pi := 0, ep := true, st := .stripeLost }
    match memberBlock s g v lanes lba false with
    | none => gone
    | some d =>
      if !v.pi then judgeBlock v e i d piNone marked none
      else
        match memberPi s g v lanes lba with
        | none => gone
        | some pi => judgeBlock v e i d pi marked none

/-- The member reads of block i of a READ are not all back (R221). -/
def readOpen (s : State) (g : Group) (v : Volume) (vol : Nat) (e : BitVec 512) (lanes : List LaneRead) (i : Nat) : Bool :=
  match servedBy s vol (eLba e + i) with
  | some f => frameSuspect v f && blockOpen s g v lanes (eLba e + i) true
  | none => blockOpen s g v lanes (eLba e + i) false

/-- Bytes of a block as the host buffer holds it. -/
def blockBytes (sect : Nat) (b : BlockOut) : List Byte :=
  b.data.bytes 0 4096 ++ (if sect = 4104 then piBytes b.pi else [])

/-! Descriptors and translation of a command (R126, R154, R266, R415) -/

/-- The context that an I/O command row completes: an opcode handler's, not posted, that waits for nothing. -/
def ioCtx (s : State) (cx opc : Nat) : Option Ctx :=
  (s.ctxs.find cx).bind fun c =>
    if c.kind == .opcode && c.posted.isNone && eOpc c.cmd == opc && (c.state == .ready || c.state == .running) then some c else none

/-- The command ends: it is posted with a status and its thread is over (R160, R242, R291). -/
def finishIo (s : State) (cx : Nat) (st : Status) (poison : Bool) : State :=
  endThread (postCtx (updCtx s cx fun c => { c with poison := c.poison || poison }) cx (BitVec.ofNat 8 st.code)) cx

/-- The descriptor of a command's data, or the state in which it waits for its buffer list or has failed for it. -/
def ioDesc (s : State) (cx : Nat) (c : Ctx) : DescKind ⊕ State :=
  match descIn c 0 with
  | some d => .inl d
  | none =>
    if eDpk c.cmd = 0 then .inl (.host (eBits c.cmd 24 0 64) (eBits c.cmd 32 0 32))
    else if eDpk c.cmd = 2 then .inl (.inline (eBits c.cmd 24 0 4))
    else if eDpk c.cmd = 3 then .inl (.window (eBits c.cmd 24 0 4) (eBits c.cmd 28 0 32) (eBits c.cmd 32 0 32) c.pinned)
    else if greg c 1 = 3 then .inr (finishIo s cx .invalidField false)
    else if greg c 1 = 9 then .inr (finishIo s cx .hostFault false)
    else if !callocRoom s c 1 then .inr (startWait s cx .frames)
    else
      match allocFrame s fun m => { pins := 1, stage := true, data := m } with
      | none => .inr (startWait s cx .frames)
      | some (fr, s) => .inr (askList (startWait (setHandle s cx 0 (.desc (.list [] fr))) cx (.list 1 0)) cx)

/-- The first byte of a descriptor whose page cannot be used now, and why. -/
def firstStop (s : State) (c : Ctx) (d : DescKind) (write : Bool) : Nat → Nat → Option (Nat × Look)
  | 0, _ => none
  | n + 1, off =>
    match descAddr d off with
    | none => none
    | some (a, r) =>
      match translate s c a write with
      | .ok _ => firstStop s c d write n (off + min r (4096 - a % 4096))
      | l => some (off, l)

/-- What a page that cannot be used does to the command: a request for it, or a TRANSLATION fault (R266, R415). -/
def pageWait (s : State) (cx : Nat) (c : Ctx) (d : DescKind) (off : Nat) (l : Look) (write : Bool) : State :=
  match l with
  | .denied => raiseTranslation (leaveSlot s cx) cx 0 off d write
  | .miss => lookAhead s c d off write
  | _ => s

/-- Send bytes of a command's data to the host from an offset of its descriptor, at most n TLPs (R115, R116). -/
def sendBytes (c : Ctx) (d : DescKind) (ep : Bool) : Nat → Nat → List Byte → State → State
  | 0, _, _, s => s
  | n + 1, off, bs, s =>
    if bs.isEmpty then s
    else
      match fnOf s c.func.toNat, descAddr d off with
      | some fn, some (a, r) =>
        match translate s c a true with
        | .ok ta =>
          let len := max 1 (min (min fn.mps (4096 - a % 4096)) (min r bs.length))
          let s := emit s (.hostData c.func.toNat ta (bs.take len) ep fn.ro (prefixPasid s c))
          let s := if ep then poisonOut s c.func.toNat else s
          sendBytes c d ep n (off + len) (bs.drop len) s
        | _ => s
      | _, _ => s

/-- Send the blocks of a READ in order. -/
def sendBlocks (c : Ctx) (d : DescKind) (sect : Nat) (bs : List BlockOut) (s : State) : State :=
  ((List.range bs.length).zip bs).foldl (fun s x =>
    sendBytes c d x.2.ep 4104 (x.1 * sect) (blockBytes sect x.2) s) s

/-- The function of a context may send upstream now; one in teardown sends nothing and its commands end. -/
def ioStopped (s : State) (c : Ctx) : Bool :=
  match fnOf s c.func.toNat with
  | some fn => !upstreamOk s fn
  | none => true

/-- A strip of a command whose read ended with data that cannot be used: the member's media event, and a degraded read (R20,
R21). -/
def stripUnread (s : State) (cx port lba : Nat) : State := mediaEvent (degradeUnread s cx port lba) port lba

/-- Data of a read that fails the guard of its block is a media error (R182). -/
def laneGuard (s : State) (gno : Nat) (g : Group) (lanes : List LaneRead) (index lba : Nat) (m : Memory) : Bool :=
  decide (Config.dataStart ≤ lba) &&
    match stripeAt g index (rowOf g lba) with
    | some (st, i) => guardFails s gno g lanes st ((lba - Config.dataStart) % g.geom.b) i m
    | none => false

/-- One read of a command that timed out: logged and counted, and its identifier quarantined (R21, R366, R367). -/
def laneTimeout (s : State) (cx port : Nat) (c : Ctx) (p : MPort) (lba : Nat) : State :=
  let m : MemCmd :=
    { op := .read, ctx := none, ticket := 0, lba := lba, count := 1, frames := [], issued := now s, due := now s,
      express := eclass c == .express, determ := false, jrec := none, queue := memQueue p (eclass c) c.cluster }
  let s := logTimeout (noteLate s cx 2) port m.queue p.nextCid
  let s := updMport s port fun p => { p with nextCid := p.nextCid + 1 }
  countTimeout (quarantineId s port p.nextCid m) port

/-- What one read of a command did: it counts at its member (R60), and its event is handled (R21, R182). `at0` is the state in
which the reads came back. -/
def laneEvent (at0 : State) (gno : Nat) (g : Group) (cx : Nat) (c : Ctx) (lanes : List LaneRead) (s : State) (l : LaneRead) : State :=
  match portOfMember g l.index, memberPort s g l.index with
  | some port, some p =>
    let s := countUnits s port (eclass c) 1
    match l.event with
    | .ok m => if laneGuard at0 gno g lanes l.index l.lba m then stripUnread s cx port l.lba else s
    | .timeout => laneTimeout s cx port c p l.lba
    | .media => stripUnread s cx port l.lba
    | .poisoned => stripUnread s cx port l.lba
    | _ => s
  | _, _ => s

/-- The events of a command's reads (R21, R376, R378). -/
def laneEvents (s : State) (gno : Nat) (g : Group) (cx : Nat) (c : Ctx) (lanes : List LaneRead) : State :=
  lanes.foldl (laneEvent s gno g cx c lanes) s

/-- Member and data block of a volume block's own strip. -/
def ownStrip (g : Group) (v : Volume) (lba : Nat) : Nat × Nat :=
  let x := stripeOf g v lba
  let p := place g x.1 x.2.1
  (p.member, memberLba g p.row x.2.2)

/-- What a READ notes of one of its blocks: a frame that fails its guard is a media error of its strip (R182); a frame with an
uncorrectable line was read again from the members (R88); the possessed member was read for want of others (R218). -/
def noteBlock (at0 : State) (g : Group) (v : Volume) (vol cx : Nat) (lanes : List LaneRead) (s : State) (lba : Nat) : State :=
  match servedBy at0 vol lba with
  | some f =>
    let x := ownStrip g v lba
    match frameSuspect v f, portOfMember g x.1 with
    | true, some port => mediaEvent s port x.2
    | _, _ => s
  | none =>
    let s := if (mapped at0 vol lba).isSome then noteLate s cx 3 else s
    if withdrawn g.geom.m (blockStrips at0 g v lanes lba false) then noteLate s cx 1 else s

/-- An Express miss has waited for its member reads longer than a D in force at its acceptance: cause MEMBER (R86). DESIGN CHOICE
(log entry 68): the reads of a READ row carry no times of their own, and the time since visibility stands for them. -/
def noteSlow (s : State) (cx : Nat) (c : Ctx) (lanes : List LaneRead) : State :=
  if !lanes.isEmpty && c.cls == .express && c.dAt.any fun x => decide (x.2 < since s c.vis) then noteLate s cx 1 else s

/-- The READ of a context whose data can be sent now. -/
def readNow (s : State) (cx : Nat) (c : Ctx) (vol : Nat) (v : Volume) (g : Group) (d : DescKind) (lanes : List LaneRead) : State :=
  let bs := (List.range (eBlocks c.cmd)).map (readBlock s g v vol c.cmd lanes)
  let st := bs.foldl (fun a b => Status.worse a b.st) .success
  let t := noteSlow (laneEvents s v.group g cx c lanes) cx c lanes
  let t := (cmdBlocks c.cmd).foldl (noteBlock s g v vol cx lanes) t
  let t := { t with freeCtr := t.freeCtr + eBlocks c.cmd }
  finishIo (sendBlocks c d (sectorOf v.pi c.cmd) bs t) cx st (bs.any fun b => b.ep)

/-- READ (R123, R124, R179, R182, R221): blocks in the cache come from their frames, the others from the member reads that
the command brings. While a read that they need is still to come, the context waits for it. -/
def execRead (cx : Nat) (lanes : List LaneRead) (s : State) : Host.Outcome State Fault Refusal :=
  .next (match ioCtx s cx 1 with
    | none => s
    | some c =>
      if flrNow s c.func.toNat then finishIo s cx .hostFault false
      else
        match c.vol.bind fun n => (s.vols.find n).map fun v => (n, v) with
        | none => s
        | some (vol, v) =>
          match s.groups.find v.group with
          | none => s
          | some g =>
            match ioDesc s cx c with
            | .inr s' => s'
            | .inl d =>
              match firstStop s c d true 128 0 with
              | some (off, l) => pageWait s cx c d off l true
              | none =>
                if ioStopped s c || (List.range (eBlocks c.cmd)).any (readOpen s g v vol c.cmd lanes) then s
                else readNow s cx c vol v g d lanes)

/-! WRITE (R122, R123, R178, R181) -/

/-- One block that a write stores. -/
structure BlockIn where
  data : Memory
  pi : Word
  poison : Bool
  deriving DecidableEq, Repr

/-- Blocks that lie in an inline buffer or a window. -/
def localBlocks (s : State) (c : Ctx) (d : DescKind) (sect : Nat) : List BlockIn :=
  (List.range (eBlocks c.cmd)).map fun i =>
    { data := Memory.ofBytes (localBytes s c d (i * sect) 4096),
      pi := if sect = 4104 then BitVec.ofNat 64 (leNat (localBytes s c d (i * sect + 4096) 8)) else 0,
      poison := localPoison s c d (i * sect) sect }

/-- The blocks of a WRITE; none when the command brings the wrong number of them. -/
def writeBlocks (s : State) (c : Ctx) (v : Volume) (d : DescKind) (blocks : List HostBlock) : Option (List BlockIn) :=
  match d with
  | .inline _ => some (localBlocks s c d (sectorOf v.pi c.cmd))
  | .window _ _ _ _ => some (localBlocks s c d (sectorOf v.pi c.cmd))
  | _ =>
    if blocks.length = eBlocks c.cmd then some (blocks.map fun b => { data := b.data, pi := b.pi, poison := b.ep }) else none

/-- PI of block i as it enters its frame; none when a check fails (R181). -/
def enterBlock (v : Volume) (e : BitVec 512) (i : Nat) (b : BlockIn) : Option Word :=
  if !v.pi then some piNone
  else if (piCtl e).pis then some (piGen (piCtl e) i b.data)
  else if guardOk b.data b.pi && tagsOk (piCtl e) i b.pi then some b.pi else none

/-- Store blocks as dirty, protected frames of a volume, from a block on (R24, R123, R286, R290). -/
def storeBlocks (vol : Nat) : Nat → List (BlockIn × Word) → State → Option State
  | _, [], s => some s
  | lba, (b, pi) :: t, s =>
    match allocFrame s fun _ => { pins := 1, prot := true, poison := b.poison, pi := pi, data := b.data } with
    | none => none
    | some (fr, s) => storeBlocks vol (lba + 1) t (unpinFrame (clearPoison (mapDirty s fr vol lba) vol lba) fr)

/-- Poisoned blocks from the host are counted, each as one TLP (R123). -/
def countPoison (s : State) (f : Nat) (bs : List BlockIn) (host : Bool) : State :=
  if host then (bs.filter fun b => b.poison).foldl (fun s _ => poisonIn s f) s else s

/-- Store a command's blocks and post it; a PI mismatch stores nothing, and sets no POISON (R176, R181). -/
def storeNow (s : State) (cx : Nat) (c : Ctx) (vol : Nat) (bs : List BlockIn) (pis : List (Option Word)) : State :=
  if pis.any Option.isNone then finishIo s cx .piMismatch false
  else if !callocRoom s c bs.length then startWait s cx .frames
  else
    match storeBlocks vol (eLba c.cmd) (bs.zip (pis.map fun p => p.getD 0)) s with
    | none => startWait s cx .frames
    | some s =>
      let poison := bs.any fun b => b.poison
      finishIo s cx (if poison then .dataPoisoned else .success) poison

/-- WRITE (R122, R178, R181): host data that the command brings, or an inline buffer or window. -/
def execWrite (cx : Nat) (hostOk : Bool) (blocks : List HostBlock) (s : State) : Host.Outcome State Fault Refusal :=
  .next (match ioCtx s cx 2 with
    | none => s
    | some c =>
      if flrNow s c.func.toNat then finishIo s cx .hostFault false
      else
        match c.vol.bind fun n => (s.vols.find n).map fun v => (n, v) with
        | none => s
        | some (vol, v) =>
          match ioDesc s cx c with
          | .inr s' => s'
          | .inl d =>
            match firstStop s c d false 128 0 with
            | some (off, l) => pageWait s cx c d off l false
            | none =>
              let host := descCode d == 1
              if host && ioStopped s c then s
              else if host && !hostOk then finishIo s cx .hostFault false
              else
                match writeBlocks s c v d blocks with
                | none => s
                | some bs =>
                  let s := countPoison s c.func.toNat bs host
                  storeNow s cx c vol bs (((List.range bs.length).zip bs).map fun x => enterBlock v c.cmd x.1 x.2))

/-! WRITE_ZEROES, DEALLOCATE, FLUSH (R183 to R185) -/

/-- Zero blocks with a PI for each. -/
def zeroCmd (s : State) (cx opc : Nat) (pi : PiCtl → Nat → Word) : State :=
  match ioCtx s cx opc with
  | none => s
  | some c =>
    match c.vol.bind fun n => (s.vols.find n).map fun v => (n, v) with
    | none => s
    | some (vol, v) =>
      let n := eBlocks c.cmd
      storeNow s cx c vol (List.replicate n { data := {}, pi := 0, poison := false })
        ((List.range n).map fun i => some (if v.pi then pi (piCtl c.cmd) i else piNone))

/-- WRITE_ZEROES (R183, R185). -/
def execWriteZeroes (cx : Nat) (s : State) : Host.Outcome State Fault Refusal := .next (zeroCmd s cx 4 piZeroes)

/-- DEALLOCATE (R183, R185): no deallocation goes to a member. -/
def execDeallocate (cx : Nat) (s : State) : Host.Outcome State Fault Refusal := .next (zeroCmd s cx 5 fun _ _ => piNone)

/-- A FLUSH is handled (R184); one with DESTAGE becomes ready to post once its blocks are settled. -/
def flushCmd (s : State) (cx : Nat) (destage : Bool) : State :=
  match ioCtx s cx 3 with
  | some c => if eFlag c.cmd 10 == destage then finishIo s cx .success false else s
  | none => s

/-- FLUSH (R184). -/
def execFlush (cx : Nat) (s : State) : Host.Outcome State Fault Refusal := .next (flushCmd s cx false)

/-- FLUSH_DESTAGE (R184). -/
def execFlushDestage (cx : Nat) (s : State) : Host.Outcome State Fault Refusal := .next (flushCmd s cx true)

/-! VERIFY (R186, R388) -/

/-- What VERIFY finds at one block offset of a stripe. -/
structure Verified where
  st : Status
  /-- Lanes to be rewritten, with their contents. -/
  fix : List (Nat × Memory)
  /-- P or Q differs with every strip readable. -/
  parity : Bool
  lost : Bool
  deriving DecidableEq, Repr

/-- Strips that VERIFY reads at one offset: every one, its member in possession or not. -/
def verifyStrips (s : State) (gno : Nat) (g : Group) (lanes : List LaneRead) (stripe o : Nat) : Nat → Strip :=
  stripAt s gno g lanes false stripe o

/-- Tags of a verified block of the command's range, and its guard after reconstruction. -/
def verifyTags (s : State) (g : Group) (v : Volume) (e : BitVec 512) (lanes : List LaneRead) (lba : Nat) (d : Memory) : Status :=
  if !v.pi || lba < eLba e || eLba e + eBlocks e ≤ lba then .success
  else
    match memberPi s g v lanes lba with
    | none => .stripeLost
    | some pi => if guardOk d pi && tagsOk (piCtl e) (lba - eLba e) pi then .success else .piMismatch

/-- VERIFY of one block offset of a stripe: at most two erased lanes are rebuilt, then P and Q are compared. -/
def verifyAt (s : State) (g : Group) (gno : Nat) (v : Volume) (vol : Nat) (e : BitVec 512) (lanes : List LaneRead) (stripe o : Nat) :
    Verified :=
  let get := verifyStrips s gno g lanes stripe o
  let ds := (List.range g.w).map (solveStrip g.w get)
  if ds.any Option.isNone then { st := .stripeLost, fix := [], parity := false, lost := true }
  else
    let ds := ds.map fun d => d.getD {}
    let p := xorFrames ds
    let q := weightedFrames (indexed ds)
    let fixD := (indexed ds).filter fun x => (get x.1).lost
    let fixP := [(g.w, p), (g.w + 1, q)].filter fun x => (get x.1).value != some x.2
    let st := (indexed ds).foldl (fun a x =>
      match blockOf s gno g stripe x.1 o with
      | some (w, lba) => if w = vol then Status.worse a (verifyTags s g v e lanes lba x.2) else a
      | none => a) .success
    { st := st, fix := fixD ++ fixP, parity := erasures g.geom.m get == 0 && !fixP.isEmpty, lost := false }

/-- Stripes that a command's range touches, each once, at every block offset of their strips (R186). -/
def rangeUnits (g : Group) (v : Volume) (e : BitVec 512) : List (Nat × Nat) :=
  (((cmdBlocks e).map fun b => (stripeOf g v b).1).eraseDups.map fun st => (List.range g.geom.b).map fun o => (st, o)).flatten

/-- What VERIFY does at one offset: a lost stripe is entered, lanes are rewritten, a parity repair is logged (R186, R388, R393,
R399). -/
def verifyUnit (s : State) (cx gno : Nat) (g : Group) (u : Nat × Nat) (x : Verified) : State :=
  if x.lost then enterLost s gno u.1 2 0
  else
    let s := if x.parity then logErr s 0x0B23 .signalBox {} (u.1 + (x.fix.map fun y => 2 ^ y.1).sum * 2 ^ 32) else s
    rewriteLanes s (.verify cx) gno u.1 u.2 g x.fix

/-- VERIFY of a context: unit after unit, once frames and records for its rewrites are at hand. The command is ready to post when
its rewrites have been retired. -/
def verifyNow (s : State) (cx : Nat) (c : Ctx) (vol : Nat) (v : Volume) (g : Group) (lanes : List LaneRead) : State :=
  let xs := (rangeUnits g v c.cmd).map fun u => (u, verifyAt s g v.group v vol c.cmd lanes u.1 u.2)
  if !rewriteRoom s (xs.map fun x => x.2.fix.length).sum then s else
  let st := xs.foldl (fun a x => Status.worse a x.2.st) .success
  let s := xs.foldl (fun s x => verifyUnit s cx v.group g x.1 x.2) (laneEvents s v.group g cx c lanes)
  finishIo s cx st false

/-- A read of the range that VERIFY needs is still to come. -/
def verifyOpen (s : State) (g : Group) (v : Volume) (e : BitVec 512) (lanes : List LaneRead) : Bool :=
  ((rangeUnits g v e).any fun u => (List.range g.geom.m).any fun i => rawStrip s g lanes false u.1 u.2 i == .unread) ||
    (cmdBlocks e).any (piOpen s g v lanes)

/-- VERIFY (R186): the stripes it touches are not locked by another thread, and its reads are back. -/
def execVerify (cx : Nat) (lanes : List LaneRead) (s : State) : Host.Outcome State Fault Refusal :=
  .next (match ioCtx s cx 6 with
    | none => s
    | some c =>
      match c.vol.bind fun n => (s.vols.find n).map fun v => (n, v) with
      | none => s
      | some (vol, v) =>
        match s.groups.find v.group with
        | none => s
        | some g =>
          if ((rangeUnits g v c.cmd).any fun u => (lockOf s v.group u.1).isSome) || verifyOpen s g v c.cmd lanes then s
          else verifyNow s cx c vol v g lanes)

end Sys2Proof.Machine
end

