-- ==== Sys2Proof/Machine/Admin.lean ====
section
/-! DEFINITION. Admin commands on volumes, queues and power (R153, R168, R169, R174, R188 to R193, R198, R202,
R205, R283), and what every admin command shares. -/

namespace Sys2Proof.Machine

/-! What every admin command shares (R123, R135, R153, R174) -/

/-- The oldest admin command of a PF that the signal box has not started (R135, R174). -/
def adminHead (s : State) (p : Nat) : Option AdminCmd := s.mbx.adminQ.find? fun a => a.port == p

/-- The signal box starts that command. -/
def adminTake (s : State) (p : Nat) : State :=
  { s with mbx := { s.mbx with adminQ := s.mbx.adminQ.eraseP fun a => a.port == p } }

/-- The PF of a port may send and receive data now. -/
def pfUp (s : State) (p : Nat) : Bool :=
  match fnOf s (64 * p) with
  | some fn => upstreamOk s fn
  | none => false

/-- Run an admin command that stands first of its PF: reserved fields, unattended mode, its buffer list (R154; one that did not
come back whole is a host fault, R126), the data's arrival, then the effect. A command of another row or one that is not
first changes nothing; one whose data cannot move now waits. -/
def adminRun (s : State) (a : AdminCmd) (row : Bool) (fm : AdminForm) (body : AdminCmd → State → State) : State :=
  match adminHead s a.port with
  | none => s
  | some q =>
    let c := { q with data := a.data, poisoned := a.poisoned, list := a.list }
    let t := adminTake s a.port
    if q.entry != a.entry || !row || frozen s then s
    else if s.mbx.unattended then adminDone t c .notAdmitted false
    else if !adminRsvdOk c.entry fm then adminDone t c .invalidField false
    else if fm.dir == .none then body c t
    else if !pfUp s a.port then s
    else if eDpk c.entry = 1 && c.list.length != 16 * eBits c.entry 32 0 16 then adminDone t c .hostFault false
    else if eDpk c.entry = 1 && !listOk (adminList c) (adminLen c) then adminDone t c .invalidField false
    else if fm.dir == .toHost then body c t
    else if c.poisoned then adminDone (poisonIn t (64 * a.port)) c .dataPoisoned true
    else if c.data.length != adminLen c then adminDone t c .hostFault false
    else body c t

/-- An admin command ends with INVALID_FIELD and no other effect. -/
def adminBad (s : State) (a : AdminCmd) : State := adminDone s a .invalidField false

/-- An admin command ends with SUCCESS. -/
def adminOk (s : State) (a : AdminCmd) : State := adminDone s a .success false

/-- An admin command sends its data and ends with SUCCESS. -/
def adminSend (s : State) (a : AdminCmd) (bytes : List Byte) : State :=
  adminOk (emitAdmin s a bytes) a

/-! IDENTIFY_VOLUME (R192) -/

/-- ATTACH_MAP. -/
def attachMap (v : Volume) : List Byte :=
  (List.range 64).map fun k => BitVec.ofNat 8 ((List.range 8).map fun b => bit (v.attached.contains (8 * k + b)) b).sum

/-- The 4,096 bytes of IDENTIFY_VOLUME as a PF sees them. -/
def identifyBytes (s : State) (vol pf : Nat) : List Byte :=
  match s.vols.find vol with
  | none => layBytes 4096 [(0, leBytes 2 vol)]
  | some v =>
    layBytes 4096
      [(0x000, leBytes 2 vol), (0x002, leBytes 1 (if v.deleting then 2 else 1)),
       (0x003, leBytes 1 (bit v.pi 0 + bit (v.marks.contains pf) 1)), (0x004, leBytes 1 v.group), (0x006, leBytes 2 v.route),
       (0x008, leBytes 8 v.blocks), (0x010, leBytes 4 (v.extents.length + v.piExtents.length)),
       (0x014, leBytes 4 v.deferredCnt.toNat), (0x018, leBytes 8 v.createTs.toNat), (0x020, leBytes 2 v.attached.length),
       (0x040, attachMap v)]

/-- IDENTIFY_VOLUME. -/
def execIdentifyVolume (a : AdminCmd) (s : State) : Host.Outcome State Fault Refusal :=
  .next (adminRun s a (eOpc a.entry == 0x40) { vol := true, dir := .toHost } fun a s =>
    if adminLen a != 4096 then adminBad s a else adminSend s a (identifyBytes s (eVol a.entry) (64 * a.port)))

/-! CREATE_VOLUME and DELETE_VOLUME (R188 to R191, R193) -/

/-- Every charged sum (R73, R75). -/
def sumsOf (s : State) : List Nat :=
  let l := allots s
  [sumEng s l, sumMov s l, sumHbm s l, sumWrite l] ++ (List.range 8).map (sumMem s l)

/-- A change of a charged sum raises the Route Book generation (R104). -/
def noteSums (before s : State) : State := if sumsOf before = sumsOf s then s else rbChange s

/-- Every charged sum is within the ceilings in force (R75). -/
def sumsFit (s : State) : Bool := withinCeil s (ceilInForce s) (coming s)

/-- A loaded handler route whose MAP is the layout of a group (R283). -/
def routeFits (s : State) (route : Nat) (g : Group) : Bool :=
  match routeOf s route with
  | some (_, r) => !r.layout && r.map == g.layout
  | none => false

/-- Data and PI extents of a volume (R190). -/
def extentNeed (blocks : Nat) (pi : Bool) : Nat × Nat :=
  let e := (blocks + Config.extentBlocks - 1) / Config.extentBlocks
  (e, if pi then (e + 511) / 512 else 0)

/-- The volume that a CREATE makes, and the group without its extents. -/
def createdVol (s : State) (e : BitVec 512) (gno : Nat) (g : Group) : Option (Volume × Group) :=
  let pi := eBits e 41 3 1 == 1
  let n := extentNeed (eLba e + 1) pi
  let es := (freeExtents g g.extents 0).take (n.1 + n.2)
  if es.length < n.1 + n.2 then none
  else
    some ({ group := gno, pi := pi, route := eBits e 44 0 16, blocks := eLba e + 1, extents := es.take n.1,
            piExtents := es.drop n.1, createTs := now s, attached := [cvFunc e] },
          { g with used := g.used ++ es, labelDirty := true })

/-- CREATE (R189, R191): with PI it completes when the PI is written. -/
def createVolume (s : State) (a : AdminCmd) : State :=
  let e := a.entry
  let vol := eVol e
  let gno := eBits e 41 0 3
  match s.groups.find gno with
  | none => adminBad s a
  | some g =>
    if s.vols.has vol || s.freedVols.contains vol || !(g.assembly == .assembled || g.assembly == .repairing) then adminBad s a
    else if 2 ≤ outF g then adminDone s a .groupDegradedLimit false
    else
      match createdVol s e gno g with
      | none => adminBad s a
      | some (v, g') =>
        let t := { s with vols := s.vols.put vol v, groups := s.groups.put gno g' }
        if !routeFits s v.route g || (fnOf s (cvFunc e)).isNone || !sumsFit t then adminBad s a
        else if v.pi then updVol (rbChange t) vol fun v => { v with fill := some { cmd := some a } }
        else adminOk (rbChange t) a

/-- CREATE_VOLUME with ACTION CREATE; the undefined ACTION 3 is INVALID_FIELD (R11, R188). -/
def execCreateVolumeCreate (a : AdminCmd) (s : State) : Host.Outcome State Fault Refusal :=
  let k := cvAction a.entry
  .next (adminRun s a (eOpc a.entry == 0x41 && (k == 0 || k == 3)) cvForm fun a s =>
    if cvAction a.entry = 3 then adminBad s a else createVolume s a)

/-- A volume in use that is not being deleted. -/
def usableVol (s : State) (vol : Nat) : Option Volume := (s.vols.find vol).filter fun v => !v.deleting

/-- ATTACH (R189, R191). -/
def attachVolume (s : State) (a : AdminCmd) : State :=
  let f := cvFunc a.entry
  let vol := eVol a.entry
  match usableVol s vol with
  | none => adminBad s a
  | some v =>
    if (fnOf s f).isNone || eLba a.entry != 0 then adminBad s a
    else if v.attached.contains f then adminOk s a
    else
      let t := updVol s vol fun v => { v with attached := v.attached ++ [f] }
      if sumsFit t then adminOk (noteSums s t) a else adminBad s a

/-- CREATE_VOLUME with ACTION ATTACH. -/
def execCreateVolumeAttach (a : AdminCmd) (s : State) : Host.Outcome State Fault Refusal :=
  .next (adminRun s a (eOpc a.entry == 0x41 && cvAction a.entry == 1) cvForm fun a s => attachVolume s a)

/-- DETACH (R189, R191): it completes when the last command of the function past check 3 has. -/
def detachVolume (s : State) (a : AdminCmd) : State :=
  let f := cvFunc a.entry
  let vol := eVol a.entry
  match usableVol s vol with
  | none => adminBad s a
  | some v =>
    if (fnOf s f).isNone || eLba a.entry != 0 || !v.attached.contains f then adminBad s a
    else
      volSettle (noteSums s (updVol s vol fun v =>
        { v with attached := v.attached.filter (· != f), marks := v.marks.filter (· != f), detachWait := v.detachWait ++ [(f, a)] })) vol

/-- CREATE_VOLUME with ACTION DETACH. -/
def execCreateVolumeDetach (a : AdminCmd) (s : State) : Host.Outcome State Fault Refusal :=
  .next (adminRun s a (eOpc a.entry == 0x41 && cvAction a.entry == 2) cvForm fun a s => detachVolume s a)

/-- DELETE_VOLUME (R193). -/
def execDeleteVolume (a : AdminCmd) (s : State) : Host.Outcome State Fault Refusal :=
  .next (adminRun s a (eOpc a.entry == 0x42) { vol := true } fun a s =>
    let vol := eVol a.entry
    match usableVol s vol with
    | none => adminBad s a
    | some _ => volSettle (rbChange (updVol s vol fun v => { v with deleting := true, deleteWait := some a })) vol)

/-! BIND_ROUTE (R199, R283) -/

/-- BIND_ROUTE. -/
def execBindRoute (a : AdminCmd) (s : State) : Host.Outcome State Fault Refusal :=
  .next (adminRun s a (eOpc a.entry == 0x47) { vol := true, tail := [(40, 0, 16)] } fun a s =>
    let vol := eVol a.entry
    let r := eBits a.entry 40 0 16
    match (usableVol s vol).bind fun v => s.groups.find v.group with
    | none => adminBad s a
    | some g => if routeFits s r g then adminOk (updVol s vol fun v => { v with route := r }) a else adminBad s a)

/-! CREATE_QUEUE (R134, R163, R168, R169, R198) -/

/-- The parameters of CREATE_QUEUE as R198 places them. -/
structure QueueSpec where
  func : Nat
  kind : Nat
  slot : Nat
  log2 : Nat
  base : Nat
  cls : Nat
  cqSlot : Nat
  pollInt : Nat
  pasidEn : Bool
  pasid : Nat
  quotaM1 : Nat
  ien : Bool
  vec : Nat
  ivCountM1 : Nat
  ivDelay : Nat
  shadow : Nat
  deriving DecidableEq, Repr

/-- Read the parameters. -/
def queueSpec (e : BitVec 512) : QueueSpec :=
  { func := eBits e 40 0 9, kind := eBits e 40 9 2, slot := eBits e 40 11 6, log2 := eBits e 40 17 5,
    base := eLba e * 4096, cls := eBits e 40 22 2, cqSlot := eBits e 40 24 6, pollInt := eBits e 44 0 17,
    pasidEn := eBits e 40 31 1 == 1, pasid := eBits e 48 0 20, quotaM1 := eNblk e, ien := eBits e 40 30 1 == 1,
    vec := eBits e 52 0 11, ivCountM1 := eBits e 52 11 8, ivDelay := eBits e 56 0 16, shadow := eBits e 58 0 48 * 4096 }

/-- Fields that do not apply to a KIND are 0 (R198). -/
def QueueSpec.unusedOk (q : QueueSpec) : Bool :=
  if q.kind = 0 then
    q.cls == 0 && q.cqSlot == 0 && q.pollInt == 0 && !q.pasidEn && q.pasid == 0 && q.quotaM1 == 0
  else
    !q.ien && q.vec == 0 && q.ivCountM1 == 0 && q.ivDelay == 0 &&
      (q.kind == 1 || (q.log2 == 0 && q.base == 0 && q.cls == 0 && q.pollInt == 0 && !q.pasidEn && q.pasid == 0))

/-- Submission queues of the device that satisfy a test. -/
def countSqs (s : State) (p : Sq → Bool) : Nat := (s.funcs.map fun f => (f.2.sqs.filter fun q => p q.2).length).sum

/-- Completion rings of the device. -/
def countCqs (s : State) : Nat := (s.funcs.map fun f => f.2.cqs.length).sum

/-- Quotas of every function (R163). -/
def quotaSum (s : State) : Nat := (s.funcs.map fun f => quotaOf f.2).sum

/-- The shadow page address fits the function (R168, R169). -/
def shadowOk (fn : Func) (q : QueueSpec) : Bool :=
  match fn.shadow with
  | some b => q.shadow == 0 || q.shadow == b
  | none => q.shadow != 0

/-- The ranges, slot and limits for a completion ring. -/
def ringSpecOk (s : State) (fn : Func) (q : QueueSpec) : Bool :=
  log2Ok q.log2 && decide (q.vec < vectorsOf q.func) && !fn.cqs.has q.slot && decide (countCqs s < 16384)

/-- The ranges, slot and limits for a submission queue of either kind (R58, R134, R163, R168). -/
def sqSpecOk (s : State) (fn : Func) (q : QueueSpec) : Bool :=
  !fn.sqs.has q.slot && fn.cqs.has q.cqSlot && decide (q.cls < 3) && decide (quotaSum s + q.quotaM1 + 1 ≤ 245760) &&
    decide (countSqs s (fun _ => true) < 16384) &&
    (q.cls != 0 || (decide (countSqs s (fun x => x.cls == .express) < 256) && !q.pasidEn && !fn.priEn)) &&
    (if q.kind = 1 then log2Ok q.log2 && pollOk q.pollInt
     else decide (q.slot < (if isPF q.func then 64 else 16)) && decide (countSqs s (fun x => x.push) < 256))

/-- The checks of R169. -/
def queueOk (s : State) (p : Nat) (q : QueueSpec) : Bool :=
  match fnOf s q.func, s.ports.find p with
  | some fn, some hp =>
    portOf q.func == p && (isPF q.func || hp.vfEnable) && !fn.flrBusy && decide (q.kind < 3) && q.unusedOk &&
      !(isPF q.func && q.slot == 0) && shadowOk fn q && (if q.kind = 0 then ringSpecOk s fn q else sqSpecOk s fn q)
  | _, _ => false

/-- Class of a CLASS value (R168). -/
def clsOfSpec (k : Nat) : Cls := if k = 0 then .express else if k = 1 then .standard else .bulk

/-- The function with the new queue, enabled with indices 0. -/
def addQueue (q : QueueSpec) (t : Word) (fn : Func) : Func :=
  let fn := { fn with shadow := fn.shadow.orElse fun _ => some q.shadow }
  if q.kind = 0 then
    { fn with cqs := fn.cqs.put q.slot { log2 := q.log2, base := q.base, ien := q.ien, vec := q.vec, ivCount := q.ivCountM1 + 1,
                                         ivDelay := q.ivDelay } }
  else
    { fn with sqs := fn.sqs.put q.slot { push := q.kind == 2, cls := clsOfSpec q.cls, cqSlot := q.cqSlot, log2 := q.log2,
                                         base := q.base, pollInt := q.pollInt, pasid := if q.pasidEn then some q.pasid else none,
                                         quota := q.quotaM1 + 1, pollDue := t } }

/-- An Express queue takes the lowest free ADM_EXP_Q entry, with allotments 0 (R89, R169; log entry 9). -/
def addExpEntry (s : State) (q : QueueSpec) : State :=
  if q.kind = 0 || q.cls != 0 then s
  else
    updAdm s fun a => putExp a { sqid := BitVec.ofNat 16 (sqidOf q.func q.slot), func := BitVec.ofNat 9 q.func }

/-- CREATE_QUEUE: a polled ring issues its first poll in the slot in which it is enabled (R141). -/
def execCreateQueue (a : AdminCmd) (s : State) : Host.Outcome State Fault Refusal :=
  .next (adminRun s a (eOpc a.entry == 0x43) cqForm fun a s =>
    let q := queueSpec a.entry
    if queueOk s a.port q then adminOk (poll (addExpEntry (updFunc s q.func (addQueue q (now s))) q) q.func q.slot) a
    else adminBad s a)

/-! SET_POWER (R202, R205) -/

/-- SET_POWER: an earlier one that waits completes; with target W0 this one completes too. -/
def execSetPower (a : AdminCmd) (s : State) : Host.Outcome State Fault Refusal :=
  .next (adminRun s a (eOpc a.entry == 0x44) spForm fun a s =>
    let rung := eBits a.entry 40 0 3
    let dwell := eBits a.entry 42 0 16
    if 4 < rung || dwell = 0 then adminBad s a
    else
      let old := s.pwr.setWaiters
      let s := updPwr s fun p => { p with setRung := BitVec.ofNat 3 rung, setDwell := BitVec.ofNat 16 dwell, setWaiters := [] }
      let s := old.foldl (fun s b => adminOk s b) s
      if targetRung s = 0 then adminOk s a else updPwr s fun p => { p with setWaiters := [a] })

end Sys2Proof.Machine
end

