-- ==== Sys2Proof/Machine/AdminMgmt.lean ====
section
/-! DEFINITION. Admin commands on tokens, windows, logs and the timetable (R43, R44, R65, R75, R199 to R201,
R206 to R210, R391, R424). -/

namespace Sys2Proof.Machine

/-! SET_TOKENS (R65, R75, R199) -/

/-- The fields of a SET_TOKENS: KIND, TARGET and four counts. -/
structure TokenReq where
  kind : Nat
  target : Nat
  v : BitVec 32 × BitVec 32 × BitVec 32 × BitVec 32
  deriving DecidableEq, Repr

/-- The submission queue of an identifier. -/
def sqById (s : State) (sqid : Nat) : Option Sq := sqOf s (sqid / 64) (sqid % 64)

/-- Set the allotment of an Express queue from the next cycle edge on, when every charged sum keeps its ceiling. -/
def setExpress (s : State) (sqid : Nat) (h m w : BitVec 32) : Option State :=
  match sqById s sqid with
  | none => none
  | some q =>
    if q.cls != .express then none
    else
      let t := match expOf s sqid with
        | some _ => updExp s sqid fun x => { x with next := some (h, m, w) }
        | none =>
          let x : ExpQ := { sqid := BitVec.ofNat 16 sqid, func := BitVec.ofNat 9 (sqid / 64), next := some (h, m, w) }
          updAdm s fun a => putExp a x
      if sumsFit t then some (rbChange t) else none

/-- Set the Standard and Bulk allotments of a function from the next cycle edge on (R66). -/
def setShared (s : State) (f : Nat) (v : BitVec 32 × BitVec 32 × BitVec 32 × BitVec 32) : Option State :=
  match fnOf s f with
  | none => none
  | some _ => some (updAdm s fun a => { a with sb := a.sb.put f { (a.sb.getD f {}) with next := some v } })

/-- Apply a SET_TOKENS whose target `may` names; none when it is refused (R75, R199). -/
def applyTokens (s : State) (r : TokenReq) (may : Nat → Bool) : Option State :=
  if r.kind = 0 then
    if may (r.target / 64) && r.v.2.2.2 == 0 then setExpress s r.target r.v.1 r.v.2.1 r.v.2.2.1 else none
  else if may r.target then setShared s r.target r.v else none

/-- The issuing PF or one of its enabled VFs (R199). -/
def ownFunc (s : State) (p f : Nat) : Bool :=
  portOf f == p && (fnOf s f).isSome && (isPF f || (match s.ports.find p with
    | some hp => hp.vfEnable
    | none => false))

/-- The fields of an entry, 4 bytes each from byte 44 on. -/
def tokenReq (e : BitVec 512) : TokenReq :=
  { kind := eBits e 42 0 1, target := eBits e 40 0 16,
    v := (BitVec.ofNat 32 (eBits e 44 0 32), BitVec.ofNat 32 (eBits e 48 0 32), BitVec.ofNat 32 (eBits e 52 0 32),
          BitVec.ofNat 32 (eBits e 56 0 32)) }

/-- SET_TOKENS: it completes after the next cycle edge. -/
def execSetTokens (a : AdminCmd) (s : State) : Host.Outcome State Fault Refusal :=
  .next (adminRun s a (eOpc a.entry == 0x48) stForm fun a s =>
    match applyTokens s (tokenReq a.entry) (ownFunc s a.port) with
    | some t => updAdm t fun x => { x with tokenWait := x.tokenWait ++ [a] }
    | none => adminBad s a)

/-! SET_WINDOW (R199, R420, R424, R427) -/

/-- The checks of R424. -/
def windowOk (s : State) (p : Nat) (e : BitVec 512) : Bool :=
  let f := eBits e 40 0 9
  let size := eBits e 48 0 32
  portOf f == p && (fnOf s f).isSome && size % 4096 == 0 && decide (size ≤ aperture f) && eBits e 44 2 30 == 0 &&
    eBits e 52 16 16 == 0 && eBits e 60 12 20 == 0

/-- Write the shadow set of a window from bytes 44 to 63. -/
def shadowSet (e : BitVec 512) (x : Window) : Window :=
  { x with shEn := eBits e 44 0 1 == 1, shRidChk := eBits e 44 1 1 == 1, shSize := eBits e 48 0 32,
           shRid := BitVec.ofNat 16 (eBits e 52 0 16), shGen := BitVec.ofNat 32 (eBits e 56 0 32),
           shEvt := BitVec.ofNat 12 (eBits e 60 0 12) }

/-- SET_WINDOW: with COMMIT it completes when the commit is applied. -/
def execSetWindow (a : AdminCmd) (s : State) : Host.Outcome State Fault Refusal :=
  .next (adminRun s a (eOpc a.entry == 0x4C) swForm fun a s =>
    let e := a.entry
    let f := eBits e 40 0 9
    let w := eBits e 42 0 4
    if !windowOk s a.port e then adminBad s a
    else
      let s := updWin s f w (shadowSet e)
      if eBits e 43 0 1 = 1 then winCommit (updWin s f w fun x => { x with commitWait := x.commitWait ++ [a] }) f w
      else adminOk s a)

/-! Log pages (R206 to R210, R391) -/

/-- The header that pages 1 to 3 share, filled to 64 bytes (R207). -/
def logHeader (id entrySize capacity newest oldest : Nat) (ts : Word) (rest : List (Nat × List Byte)) : List Byte :=
  layBytes 64 ([(0x00, leBytes 1 id), (0x01, leBytes 1 1), (0x02, leBytes 2 entrySize), (0x04, leBytes 4 capacity),
    (0x08, leBytes 4 newest), (0x0C, leBytes 4 oldest), (0x10, leBytes 8 ts.toNat)] ++ rest)

/-- Newest and oldest sequence numbers of a circular log of n entries kept of seq written. -/
def logSeqs (seq n : Nat) : Nat × Nat := if n = 0 then (0xFFFFFFFF, 0) else ((seq - 1) % 2 ^ 32, (seq - n) % 2 ^ 32)

/-- Sequence number and entry that stand at a place of a circular log, newest first in the list. -/
def logAt {α : Type} (log : List α) (seq pos : Nat) : Option (Nat × α) :=
  if log.isEmpty then none
  else
    let back := ((seq - 1) % Config.logCapacity + Config.logCapacity - pos) % Config.logCapacity
    (log[back]?).map fun e => (seq - 1 - back, e)

/-- An error log entry (R208). -/
def errBytes (q : Nat) (e : LogEnt) : List Byte :=
  leBytes 4 q ++ leBytes 2 e.code.toNat ++ leBytes 1 e.source.toNat ++ leBytes 1 e.flags.toNat ++ leBytes 8 e.ts.toNat ++
    leBytes 2 e.func.toNat ++ leBytes 2 e.vol.toNat ++ leBytes 1 e.member.toNat ++ leBytes 3 0 ++ leBytes 8 e.detail.toNat

/-- A deferred-error entry (R208). -/
def defBytes (q : Nat) (e : DefEnt) : List Byte :=
  leBytes 4 q ++ leBytes 2 e.vol ++ leBytes 1 e.cause ++ leBytes 1 e.group ++ leBytes 8 e.ts.toNat ++ leBytes 8 e.lba ++
    leBytes 4 e.count ++ leBytes 4 0

/-- A fare record (R209). -/
def fareBytes (seq : BitVec 32) (r : FareRec) : List Byte :=
  leBytes 2 r.vol ++ leBytes 2 r.flags.toNat ++ leBytes 4 seq.toNat ++ leBytes 8 r.blkRead.toNat ++ leBytes 8 r.blkWritten.toNat ++
    leBytes 8 r.cmdExpress.toNat ++ leBytes 8 r.cmdStandard.toNat ++ leBytes 8 r.cmdBulk.toNat ++ leBytes 8 r.expTokens.toNat ++
    leBytes 8 r.extents

/-- The record of a volume that the snapshot does not hold. -/
def fareNone (vol : Nat) : FareRec :=
  { vol := vol, flags := 0, blkRead := 0, blkWritten := 0, cmdExpress := 0, cmdStandard := 0, cmdBulk := 0, expTokens := 0,
    extents := 0 }

/-- The record of a volume in the current snapshot. -/
def fareRecord (s : State) (vol : Nat) : FareRec := (s.fare.snap.find? fun r => r.vol == vol).getD (fareNone vol)

/-- 32 bytes of a log page: chunk k from its start; zeros beyond its end (R206). -/
def logChunk (s : State) (id k : Nat) : List Byte :=
  let cut := fun (b : List Byte) (i : Nat) => padTo 32 (b.drop (32 * i))
  if id = 1 then
    let q := logSeqs s.errSeq s.errLog.length
    if k < 2 then cut (logHeader 1 32 Config.logCapacity q.1 q.2 (now s) []) k
    else if Config.logCapacity ≤ k - 2 then List.replicate 32 0
    else ((logAt s.errLog s.errSeq (k - 2)).map fun x => errBytes x.1 x.2).getD (List.replicate 32 0)
  else if id = 2 then
    let q := logSeqs s.defSeq s.defLog.length
    if k < 2 then cut (logHeader 2 32 Config.logCapacity q.1 q.2 (now s) []) k
    else if Config.logCapacity ≤ k - 2 then List.replicate 32 0
    else ((logAt s.defLog s.defSeq (k - 2)).map fun x => defBytes x.1 x.2).getD (List.replicate 32 0)
  else if id = 3 then
    if k < 2 then
      cut (logHeader 3 64 4096 s.fare.seq.toNat 0 s.fare.ts
        [(0x18, leBytes 8 s.fare.prevTs.toNat), (0x20, leBytes 4 s.fare.period.toNat), (0x28, leBytes 8 s.fare.originTs.toNat)]) k
    else if 4096 ≤ (k - 2) / 2 then List.replicate 32 0
    else cut (fareBytes s.fare.seq (fareRecord s ((k - 2) / 2))) (k % 2)
  else if k < 2 then cut (lostPage s.mem.lost s.mem.lostTs) k
  else ((s.mem.lost[k - 2]?).map lostBytes).getD (List.replicate 32 0)

/-- Bytes of a log page from an offset on, both in multiples of 64. -/
def logBytes (s : State) (id off len : Nat) : List Byte := ((List.range (len / 32)).map fun i => logChunk s id (off / 32 + i)).flatten

/-- GET_LOG (R206). -/
def execGetLog (a : AdminCmd) (s : State) : Host.Outcome State Fault Refusal :=
  .next (adminRun s a (eOpc a.entry == 0x45) glForm fun a s =>
    let id := eBits a.entry 40 0 8
    let off := eBits a.entry 44 0 32
    let len := adminLen a
    if id = 0 || 4 < id || off % 64 != 0 || len % 64 != 0 || len = 0 || 131072 < len then adminBad s a
    else adminSend s a (logBytes s id off len))

/-! SET_TIMETABLE (R43, R44, R200, R201) -/

/-- The fields of a SET_TIMETABLE: SEL and what it selects. -/
structure TtReq where
  sel : BitVec 16
  cycleLoad : Nat
  k : Nat
  refEn : Bool
  cntEstLock : Bool
  outEn : Bool
  planEn : Bool
  nom : Nat
  window : Nat
  inComp : Nat
  outWidth : Nat
  periodM1 : Nat
  possLead : Nat
  count : Nat
  /-- The parameter block and the plan entries, as words. -/
  block : List Word
  deriving DecidableEq, Repr

/-- The fields of the 64 bytes of an entry (R200), with the data that PLAN reads. -/
def ttReq (e : BitVec 512) (data : List Byte) : TtReq :=
  { sel := BitVec.ofNat 16 (eBits e 40 0 16), cycleLoad := fieldOf e 64 44, k := eBits e 42 0 5, refEn := eBits e 42 5 1 == 1,
    cntEstLock := eBits e 42 6 1 == 1, outEn := eBits e 42 7 1 == 1, planEn := eBits e 42 8 1 == 1, nom := eBits e 44 0 32,
    window := eBits e 48 0 16, inComp := eBits e 50 0 10, outWidth := eBits e 52 0 12, periodM1 := eBits e 54 0 16,
    possLead := eBits e 56 0 32, count := eBits e 60 0 11,
    block := (List.range (data.length / 8)).map fun i => BitVec.ofNat 64 (leNat ((data.drop (8 * i)).take 8)) }

/-- SEL selects a change. -/
def TtReq.on (r : TtReq) (i : Nat) : Bool := r.sel.getLsbD i

/-- Fields that SEL does not select are 0, and SEL names no undefined change. -/
def TtReq.fieldsOk (r : TtReq) : Bool :=
  r.sel &&& 0xFE00#16 == 0 && (r.on 0 || (r.nom == 0 && r.k == 0)) && (r.on 1 || r.cycleLoad == 0) && (r.on 2 || r.window == 0) &&
    (r.on 3 || r.inComp == 0) && (r.on 4 || (!r.outEn && r.outWidth == 0)) && (r.on 5 || (!r.refEn && !r.cntEstLock)) &&
    (r.on 6 || (r.periodM1 == 0 && r.count == 0)) && (r.on 7 || !r.planEn) && (r.on 8 || r.possLead == 0)

/-- A slot of a cycle lasts 4 ns to 250 ns (R35). -/
def slotLenOk (nom k : Nat) : Bool :=
  decide (12 ≤ k) && decide (k ≤ 20) && decide (125000 ≤ nom) && decide (nom ≤ 16000000) && decide (4 * 2 ^ k ≤ nom) &&
    decide (nom ≤ 250 * 2 ^ k)

/-- The plan entries received, by index; reserved bits are dropped and empty entries are not listed. -/
def TtReq.plan (r : TtReq) : Tab Word :=
  ((List.range r.count).zip ((r.block.drop 2).map fun w => w &&& 0x0000FFFFFFFF00FF#64)).filter fun x => x.2 != 0

/-- The parameter block of PLAN is right (R55, R200, R201). -/
def TtReq.planOk (s : State) (r : TtReq) : Bool :=
  decide (r.count ≤ 1024) && decide (r.block.length = 2 + r.count) && !s.tt.commitPend &&
    decide ((r.block.getD 0 0).toNat < 2 ^ 44) && r.block.getD 1 0 == 0 && planCheck r.plan (r.periodM1 + 1) == none

/-- Every selected field keeps its range and R43 (R201). -/
def TtReq.ok (s : State) (r : TtReq) : Bool :=
  let k := if r.on 0 then r.k else s.tt.kActive
  r.fieldsOk &&
    (!r.on 0 || (slotLenOk r.nom r.k && withinCeil s (ceilings s r.nom) (allots s) && withinCeil s (ceilings s r.nom) (coming s) && s.tt.switch.isNone)) &&
    (!r.on 2 || r.window != 0) &&
    (!r.on 4 || (r.outWidth != 0 && decide (2 * r.outWidth < slotsOf k))) &&
    (!r.on 6 || r.planOk s) && (!r.on 8 || decide (r.possLead < slotsOf k))

/-- The inactive bank and its epoch take a plan, and the commit is scheduled (R55, R200). -/
def writePlan (r : TtReq) (t : Timetable) : Timetable :=
  let t := { t with epochNext := BitVec.ofNat 44 (r.block.getD 0 0).toNat, commitPend := true }
  if t.bankB then { t with planA := r.plan, periodA := BitVec.ofNat 16 r.periodM1 }
  else { t with planB := r.plan, periodB := BitVec.ofNat 16 r.periodM1 }

/-- The switch of a request, with the values for the new timetable (R44, R201). -/
def TtReq.toSwitch (r : TtReq) : TtSwitch :=
  { edges := 2,
    window := if r.on 2 then some (BitVec.ofNat 16 r.window) else none,
    possLead := if r.on 8 then some (BitVec.ofNat 32 r.possLead) else none,
    outWidth := if r.on 4 then some (BitVec.ofNat 12 r.outWidth) else none }

/-- Apply the selected changes together (R201). -/
def ttApply (s : State) (r : TtReq) : State :=
  let s := if r.on 5 then setRefEn (updTt s fun t => { t with cntEstLock := r.cntEstLock }) r.refEn else s
  updTt s fun t =>
    let t := if r.on 0 then
        { t with nomCycle := BitVec.ofNat 32 r.nom, slotsLog2 := BitVec.ofNat 5 r.k, switch := some r.toSwitch }
      else
        { t with window := if r.on 2 then BitVec.ofNat 16 r.window else t.window,
                 outWidth := if r.on 4 then BitVec.ofNat 12 r.outWidth else t.outWidth,
                 possLead := if r.on 8 then BitVec.ofNat 32 r.possLead else t.possLead }
    let t := if r.on 1 then { t with cycleLoad := BitVec.ofNat 44 r.cycleLoad, loadArm := true } else t
    let t := if r.on 6 then writePlan r t else t
    { t with inComp := if r.on 3 then BitVec.ofNat 10 r.inComp else t.inComp,
             outEn := if r.on 4 then r.outEn else t.outEn, planEn := if r.on 7 then r.planEn else t.planEn }

/-- Edges that a request waits on: switch, load, swap. -/
def TtReq.waits (r : TtReq) : Bool := r.on 0 || r.on 1 || r.on 6

/-- SET_TIMETABLE: it completes after the last edge it waits on. -/
def execSetTimetable (a : AdminCmd) (s : State) : Host.Outcome State Fault Refusal :=
  .next (adminRun s a (eOpc a.entry == 0x4B) (ttForm a.entry) fun a s =>
    let r := ttReq a.entry a.data
    if eLba a.entry / 2 ^ 44 != 0 || (r.on 6 && adminLen a != 16 + 8 * r.count) || !r.ok s then adminBad s a
    else
      let s := ttApply s r
      if r.waits then
        updTt s fun t => { t with waiters := t.waiters ++ [{ cmd := a, switch := r.on 0, load := r.on 1, swap := r.on 6 }] }
      else adminOk s a)

end Sys2Proof.Machine
end

