-- ==== Sys2Proof/Machine/AdminMembers.lean ====
section
/-! DEFINITION. CREATE_GROUP and MEMBER_CONTROL (R76, R194, R195, R223 to R225, R284, R364, R371, R381, R382, R385,
R396, R397). -/

namespace Sys2Proof.Machine

/-! CREATE_GROUP -/

/-- The parameters of a CREATE_GROUP (R194). -/
structure GroupReq where
  group : Nat
  n : Nat
  w : Nat
  stripLog2 : Nat
  spare : Nat
  layout : Nat
  seed : Nat
  members : Nat
  deriving DecidableEq, Repr

/-- Read the parameters. -/
def groupReq (e : BitVec 512) : GroupReq :=
  { group := eBits e 40 0 3, n := eBits e 41 0 7, w := eBits e 42 0 5, stripLog2 := eBits e 43 0 5, spare := eBits e 43 5 3,
    layout := eBits e 44 0 16, seed := eBits e 48 0 32, members := eBits e 52 0 72 }

/-- The ports of the map, ascending. -/
def GroupReq.ports (r : GroupReq) : List Nat := (List.range 72).filter fun p => r.members.testBit p

/-- The geometry asked for. -/
def GroupReq.geom (r : GroupReq) : Geom :=
  { n := r.n, w := r.w, stripLog2 := r.stripLog2, spare := r.spare, seed := BitVec.ofNat 32 r.seed }

/-- A port whose member may join a new group (R194, R362). -/
def joinable (s : State) (p : Nat) : Bool :=
  match s.mports.find p with
  | some x => x.state == 1 && x.present && !x.unfit && !x.contained && !x.powerOff
  | none => false

/-- Rows used of each member and the group's extents (R224, R225). -/
def GroupReq.size (s : State) (r : GroupReq) : Nat × Nat :=
  let blocks := (r.ports.map fun p => ((s.mports.find p).map fun x => x.blocks).getD 0)
  let least := blocks.foldl min (blocks.headD 0)
  let g := r.geom
  match layoutKind r.layout with
  | .rotate => let rows := g.rowsOf true least; (rows, g.extentsIn true rows)
  | .decluster => let rows := g.rowsOf false least; (rows, g.extentsIn false rows)
  | .owner k =>
    let c := (Config.ownerCycle k r.n r.w r.spare).1
    let rows := if c = 0 || g.b = 0 then 0 else (least - Config.dataStart) / g.b / c * c
    (rows, if g.es = 0 then 0 else Config.ownerStripes k r.n r.w rows / g.es)

/-- BUILD of the layout route refuses the geometry (R223, R284). -/
def buildRefuses (s : State) (r : GroupReq) : Bool :=
  (match layoutKind r.layout with
    | .rotate => !r.geom.ok true
    | .decluster => !r.geom.ok false
    | .owner k => Config.ownerRefuses k r.n r.w r.stripLog2 r.spare r.seed) || (r.size s).2 == 0

/-- A loaded layout route, and some handler route with GROUP_MAINT whose MAP it is (R284). -/
def layoutServed (s : State) (layout : Nat) : Bool :=
  (match routeOf s layout with
    | some (_, x) => x.layout
    | none => false) &&
  s.progs.loaded.any fun p => p.2.routes.any fun x => !x.layout && x.groupMaint && x.map == layout

/-- The checks of R194 and R284. -/
def GroupReq.ok (s : State) (r : GroupReq) : Bool :=
  (s.groups.find r.group).isNone && r.ports.length == r.n && r.ports.all (joinable s) &&
    decide (2 ≤ r.w) && decide (r.w ≤ 30) && decide (r.w + 2 ≤ r.n) && decide (r.n ≤ 72) && decide (14 ≤ r.stripLog2) &&
    decide (r.stripLog2 ≤ 20) && decide (r.spare ≤ 4) && layoutServed s r.layout && !buildRefuses s r

/-- SHA-384 of the image that holds a layout route (R275). -/
def hashOfLayout (s : State) (layout : Nat) : List Byte :=
  match routeOf s layout with
  | some (p, _) => ((s.progs.loaded.find p).map fun x => x.hash).getD []
  | none => []

/-- The new group (R195, R235, R337). -/
def newGroup (s : State) (r : GroupReq) (a : AdminCmd) : Group :=
  { assembly := .assembled, n := r.n, w := r.w, stripLog2 := r.stripLog2, spare := r.spare, layout := r.layout,
    seed := BitVec.ofNat 32 r.seed, groupId := Config.dieId.toNat + (now s).toNat * 2 ^ 64, createTs := now s,
    rows := (r.size s).1, extents := (r.size s).2, layoutHash := hashOfLayout s r.layout,
    members := (List.range r.n).zip r.ports, creator := some a, labelsLeft := List.range r.n, labelDirty := true }

/-- Form the group: member index i is the i-th port of the map (R195); the ceilings are recomputed (R76). -/
def formGroup (s : State) (r : GroupReq) (a : AdminCmd) : State :=
  let g := newGroup s r a
  let s := { s with groups := s.groups.put r.group g }
  let s := g.members.foldl (fun s x => updMport s x.2 fun p => { p with state := 2, group := some r.group, index := x.1 }) s
  rbChange (recomputeCeil s)

/-- CREATE_GROUP: it completes with the last label write (R195). -/
def execCreateGroup (a : AdminCmd) (s : State) : Host.Outcome State Fault Refusal :=
  .next (adminRun s a (eOpc a.entry == 0x49) cgForm fun a s =>
    let r := groupReq a.entry
    if r.ok s then formGroup s r a else adminBad s a)

/-! MEMBER_CONTROL -/

/-- What an action comes to: refused with a status, also with a log entry, done, or done when an event it awaits arrives. -/
inductive Acted where
  | refused (st : Status)
  | turned (st : Status) (s : State)
  | done (s : State)
  | waits (s : State)
  deriving DecidableEq, Repr

/-- Complete an action for its command. -/
def Acted.finish (r : Acted) (s : State) (a : AdminCmd) : State :=
  match r with
  | .refused st => adminDone s a st false
  | .turned st t => adminDone t a st false
  | .done t => adminOk t a
  | .waits t => t

/-- The assembled group of a port. -/
def assembledOf (s : State) (p : MPort) : Option Nat :=
  match p.group.bind fun g => (s.groups.find g).map fun x => (g, x) with
  | some (g, x) => if x.assembly == .assembled then some g else none
  | none => none

/-- RESET: MPERST_N goes low for 6,554 slots, containment is lifted and the port is brought up again (R381, R382). -/
def actReset (s : State) (port : Nat) (w : AdminCmd) : Acted :=
  match s.mports.find port with
  | none => .refused .invalidField
  | some p =>
    if !(p.state == 1 || p.state == 4 || p.contained) then .refused .invalidField
    else
      let due := after s Config.mperstPulse
      let s := updMport (loseCmds s port) port fun p =>
        { p with powerOff := false, contained := false, linkUp := false, mperstHigh := false,
                 pulseDue := some due, resetWait := p.resetWait ++ [w] }
      .waits (rbChange (emit s (.mperst port false)))

/-- FAIL (R377, R382). -/
def actFail (s : State) (port : Nat) : Acted :=
  match s.mports.find port with
  | none => .refused .invalidField
  | some p =>
    match p.group.bind fun g => s.groups.find g with
    | none => .refused .invalidField
    | some g =>
      if !judged p.state then .refused .invalidField
      else if p.state != 5 && decide (2 ≤ outF g) then .refused .groupDegradedLimit
      else .done (failMember s port 5)

/-- The entry of a replaced index: a new one at watermark 0, with no home of its own (R385). An index that had no
entry gets one while a history position is free. -/
def replaceEntry (g : Group) (index : Nat) : Group :=
  let old := (entryOf g index).map Prod.fst
  let n := nextOrd g
  let g := dropEntry g index
  match old.orElse fun _ => freePos g with
  | none => g
  | some pos =>
    let wm := passEmpty g index pos (cycleRowsOf g) 0
    { g with history := g.history.put pos { index := index, watermark := wm, ord := n }, extraFailed := g.extraFailed.filter (· != index) }

/-- The port at an index of a group that is not in service there leaves the group. -/
def freeIndex (s : State) (gno index port : Nat) : State :=
  { s with mports := s.mports.mapVal fun k p =>
      if p.group == some gno && p.index == index && k != port then { p with group := none } else p }

/-- A port may replace an index: it is unassigned and fit, or it is the failed member of that index; the index is
one that has failed (R381). -/
def mayReplace (s : State) (port : Nat) (p : MPort) (gno index : Nat) (g : Group) : Bool :=
  (joinable s port || (p.state == 4 && p.group == some gno && p.index == index && !p.contained && p.present)) && decide (index < g.n) &&
    ((entryOf g index).isSome || g.extraFailed.contains index) && !judged (memberState s g index)

/-- The failed index's entry no longer counts in F (R382). -/
def entryPassed (g : Group) (index : Nat) : Bool :=
  match entryOf g index with
  | some (_, e) => decide (g.rows ≤ e.watermark)
  | none => false

/-- REPLACE (R76, R382, R385). -/
def actReplace (s : State) (port a1 : Nat) : Acted :=
  let gno := a1 % 8
  let f := a1 / 256 % 256
  match s.mports.find port, s.groups.find gno with
  | some p, some g =>
    if !mayReplace s port p gno f g then .refused .invalidField
    else if entryPassed g f && decide (2 ≤ outF g) then .refused .groupDegradedLimit
    else
      let s := freeIndex s gno f port
      let s := updMport s port fun p => { p with state := 5, group := some gno, index := f }
      let s := updGroup s gno fun g => { replaceEntry g f with members := g.members.put f port, labelDirty := true }
      let s := updGroup s gno fun g => { g with mirrorDegraded := tripleDegraded s g }
      .done (rbChange (recomputeCeil (applyDepth s gno)))
  | _, _ => .refused .invalidField

/-- PROFILE: the figures are set and stored in the tag area (R364, R451); the ceilings follow the new rate. -/
def actProfile (s : State) (port a1 a2 : Nat) : Acted :=
  match s.mports.find port with
  | none => .refused .invalidField
  | some p =>
    if !p.present then .refused .invalidField
    else
      match storeProfile s p.model a1 (a2 % 2 ^ 32) with
      | (.success, s) =>
        let s := updMport s port fun p =>
          { p with profiled := true, latNs := BitVec.ofNat 32 a1, rate := BitVec.ofNat 32 (a2 % 2 ^ 32) }
        .done (rbChange (recomputeCeil s))
      | (st, t) => .turned st t

/-- The low 8 bytes of a group's GROUP_ID are A2. -/
def idMatches (g : Group) (a2 : Nat) : Bool := g.groupId % 2 ^ 64 == a2

/-- A group moves to another number. -/
def renumber (s : State) (old new : Nat) : State :=
  match s.groups.find old with
  | none => s
  | some g =>
    let mine := (s.mem.lost.filter fun l => l.group == old).map fun l => { l with group := new }
    let lost := mine.foldl (fun ls x => insertLost x ls) (s.mem.lost.filter fun l => l.group != old)
    { s with
      groups := Tab.put (s.groups.del old) new g
      mports := s.mports.mapVal fun _ p => if p.group == some old then { p with group := some new } else p
      mem := { s.mem with lost := lost } }

/-- ADOPT: the group takes its number and is repaired; it completes at the end of step 2 of R340 (R396). -/
def actAdopt (s : State) (port a1 a2 : Nat) (w : AdminCmd) : Acted :=
  let new := a1 % 8
  match (s.mports.find port).bind fun p => p.group.bind fun g => (s.groups.find g).map fun x => (g, x) with
  | none => .refused .invalidField
  | some (old, g) =>
    if g.assembly != .foreign || !idMatches g a2 || (new != old && (s.groups.find new).isSome) then .refused .invalidField
    else
      .waits (rbChange (updGroup (renumber s old new) new fun g =>
        { g with assembly := .repairing, adopter := some w, labelDirty := true }))

/-- A volume goes with its group: no zeroing, and whatever waits for it completes (R397). -/
def eraseVol (s : State) (vol : Nat) (v : Volume) : State :=
  let s := dropVolFrames s vol
  let s := { s with vols := s.vols.del vol, fare := { s.fare with deleted := s.fare.deleted ++ [fareLast vol v] } }
  (v.deleteWait.toList ++ v.detachWait.map Prod.snd).foldl (fun s a => adminOk s a) s

/-- The journal records of a group are discarded, with their frames (R353, R397). -/
def dropGroupRecs (s : State) (gno : Nat) : State :=
  (s.journal.recs.filter fun r => r.2.group == gno).foldl (fun s r =>
    let s := (recFrames r.2).foldl (fun s fr => updFrame s fr fun x => { x with rdonly := false }) s
    dropRec s r.1) s

/-- A group is retired: labels with MSTATE 2, members unassigned, volumes and marks gone (R397). -/
def retireGroup (s : State) (gno : Nat) (g : Group) : State :=
  let vols := s.vols.filter fun v => v.2.group == gno
  let poison := s.cache.poisonList.filter fun x => !vols.any fun v => v.1 == x.1
  let s := dropGroupRecs s gno
  let s := vols.foldl (fun s v => eraseVol s v.1 v.2) s
  let s := updCache s fun c => { c with poisonList := poison }
  let s := { s with mem := { s.mem with lost := s.mem.lost.filter fun l => l.group != gno } }
  let s := g.members.foldl (fun s m =>
    match s.mports.find m.2 with
    | some p => if p.present && !p.contained then emit s (.labels gno (g.generation + 1) m.1 0) else s
    | none => s) s
  let s := { s with
    mports := s.mports.mapVal fun _ p =>
      if p.group == some gno then
        { p with group := none, index := 0, state := if p.present then 1 else 0, label := none, inPoss := false, lead := false,
                 stray := false, early := false }
      else p
    groups := s.groups.del gno }
  rbChange (recomputeCeil s)

/-- RETIRE_GROUP (R381, R397). -/
def actRetireGroup (s : State) (port a1 a2 : Nat) : Acted :=
  match (s.mports.find port).bind fun p => p.group.bind fun g => (s.groups.find g).map fun x => (g, x) with
  | none => .refused .invalidField
  | some (gno, g) =>
    let named := decide (8 ≤ gno) || gno == a1 % 8
    let may := match g.assembly with
      | .short | .waitLayout | .foreign => true
      | .assembled => !s.vols.any fun v => v.2.group == gno
      | _ => false
    if named && idMatches g a2 && may then .done (retireGroup s gno g) else .refused .invalidField

/-- FORMAT and SANITIZE of an unassigned member: they complete when the member reports the operation done. -/
def actFormat (s : State) (port : Nat) (op : MemOp) (argOk : Bool) (w : AdminCmd) : Acted :=
  match s.mports.find port with
  | some p => if p.state == 1 && argOk then .waits (sendAdmin s port op (some w)) else .refused .invalidField
  | none => .refused .invalidField

/-- SCRUB: a pass of the group starts now. -/
def actScrub (s : State) (port : Nat) : Acted :=
  match (s.mports.find port).bind fun p => assembledOf s p with
  | some g => .done (scrubStart s g)
  | none => .refused .invalidField

/-- POWER_OFF: MPERST_N is held low and presence ignored until RESET. -/
def actPowerOff (s : State) (port : Nat) : Acted :=
  match s.mports.find port with
  | none => .refused .invalidField
  | some p =>
    if !(p.state == 1 || p.state == 4) then .refused .invalidField
    else
      .done (rbChange (emit (updMport (loseCmds s port) port fun p =>
        { p with powerOff := true, mperstHigh := false, pulseDue := none, linkUp := false, width := 0, speed := 0 }) (.mperst port false)))

/-- SET_DEPTH (R371, R373). -/
def actSetDepth (s : State) (port a1 : Nat) : Acted :=
  match (s.mports.find port).bind fun p => assembledOf s p with
  | some g =>
    if 2 < a1 % 4 then .refused .invalidField
    else .done (rbChange (applyDepth (updGroup s g fun x => { x with depthCfg := a1 % 4 }) g))
  | none => .refused .invalidField

/-- An action by its number (R381); w is what completes when the action has to wait. -/
def memberAct (s : State) (e : BitVec 512) (w : AdminCmd) : Acted :=
  let p := mcPort e
  match mcAction e with
  | 1 => actReset s p w
  | 2 => actFail s p
  | 3 => actReplace s p (mcA1 e)
  | 4 => actProfile s p (mcA1 e) (mcA2 e)
  | 5 => actAdopt s p (mcA1 e) (mcA2 e) w
  | 6 => actRetireGroup s p (mcA1 e) (mcA2 e)
  | 7 => actFormat s p (.format (mcA1 e % 16)) true w
  | 8 => actFormat s p (.sanitize (mcA1 e % 8)) (decide (2 ≤ mcA1 e % 8) && decide (mcA1 e % 8 ≤ 4)) w
  | 9 => actScrub s p
  | 10 => actPowerOff s p
  | 11 => actSetDepth s p (mcA1 e)
  | _ => .refused .invalidField

/-- A MEMBER_CONTROL command of an action. -/
def memberRow (s : State) (a : AdminCmd) (action : Nat) : State :=
  adminRun s a (eOpc a.entry == 0x4A && mcAction a.entry == action) mcForm fun a s => (memberAct s a.entry a).finish s a

/-- MEMBER_CONTROL RESET. -/
def execMemberControlReset (a : AdminCmd) (s : State) : Host.Outcome State Fault Refusal := .next (memberRow s a 1)
/-- MEMBER_CONTROL FAIL. -/
def execMemberControlFail (a : AdminCmd) (s : State) : Host.Outcome State Fault Refusal := .next (memberRow s a 2)
/-- MEMBER_CONTROL REPLACE. -/
def execMemberControlReplace (a : AdminCmd) (s : State) : Host.Outcome State Fault Refusal := .next (memberRow s a 3)
/-- MEMBER_CONTROL PROFILE. -/
def execMemberControlProfile (a : AdminCmd) (s : State) : Host.Outcome State Fault Refusal := .next (memberRow s a 4)
/-- MEMBER_CONTROL ADOPT. -/
def execMemberControlAdopt (a : AdminCmd) (s : State) : Host.Outcome State Fault Refusal := .next (memberRow s a 5)
/-- MEMBER_CONTROL RETIRE_GROUP. -/
def execMemberControlRetireGroup (a : AdminCmd) (s : State) : Host.Outcome State Fault Refusal := .next (memberRow s a 6)
/-- MEMBER_CONTROL FORMAT. -/
def execMemberControlFormat (a : AdminCmd) (s : State) : Host.Outcome State Fault Refusal := .next (memberRow s a 7)
/-- MEMBER_CONTROL SANITIZE. -/
def execMemberControlSanitize (a : AdminCmd) (s : State) : Host.Outcome State Fault Refusal := .next (memberRow s a 8)
/-- MEMBER_CONTROL SCRUB. -/
def execMemberControlScrub (a : AdminCmd) (s : State) : Host.Outcome State Fault Refusal := .next (memberRow s a 9)
/-- MEMBER_CONTROL POWER_OFF. -/
def execMemberControlPowerOff (a : AdminCmd) (s : State) : Host.Outcome State Fault Refusal := .next (memberRow s a 10)
/-- MEMBER_CONTROL SET_DEPTH. -/
def execMemberControlSetDepth (a : AdminCmd) (s : State) : Host.Outcome State Fault Refusal := .next (memberRow s a 11)

/-- MEMBER_CONTROL with an undefined action. -/
def execMemberControlUndefinedAction (a : AdminCmd) (s : State) : Host.Outcome State Fault Refusal :=
  .next (adminRun s a (eOpc a.entry == 0x4A && (mcAction a.entry == 0 || decide (11 < mcAction a.entry))) mcForm fun a s =>
    adminBad s a)

end Sys2Proof.Machine
end

