-- ==== Sys2Proof/Machine/Alu.lean ====
section
/-! DEFINITION. The ALU instructions (R254, R255). -/

namespace Sys2Proof
namespace Machine

/-- All ones when the divisor is 0 (R254). -/
def divOr {w : Nat} (x y : BitVec w) : BitVec w := if y = 0 then BitVec.allOnes w else x / y
/-- The dividend when the divisor is 0 (R254). -/
def remOr {w : Nat} (x y : BitVec w) : BitVec w := if y = 0 then x else x % y
/-- Unsigned minimum. -/
def minBv {w : Nat} (x y : BitVec w) : BitVec w := if y.ult x then y else x
/-- Unsigned maximum. -/
def maxBv {w : Nat} (x y : BitVec w) : BitVec w := if x.ult y then y else x
/-- Left shift by the amount modulo the width. -/
def shlMod {w : Nat} (x y : BitVec w) : BitVec w := x <<< (y.toNat % w)
/-- Logical right shift by the amount modulo the width. -/
def shrMod {w : Nat} (x y : BitVec w) : BitVec w := x >>> (y.toNat % w)
/-- Arithmetic right shift by the amount modulo the width. -/
def sarMod {w : Nat} (x y : BitVec w) : BitVec w := x.sshiftRight (y.toNat % w)

/-- ADD (R254). -/
def execAdd (i : Ins) (s : State) : Host.Outcome State Fault Refusal :=
  resultIns i i.aluOk (aluOf (· + ·) (· + ·) i) s
/-- SUB (R254). -/
def execSub (i : Ins) (s : State) : Host.Outcome State Fault Refusal :=
  resultIns i i.aluOk (aluOf (· - ·) (· - ·) i) s
/-- AND (R254). -/
def execAnd (i : Ins) (s : State) : Host.Outcome State Fault Refusal :=
  resultIns i i.aluOk (aluOf (· &&& ·) (· &&& ·) i) s
/-- OR (R254). -/
def execOr (i : Ins) (s : State) : Host.Outcome State Fault Refusal :=
  resultIns i i.aluOk (aluOf (· ||| ·) (· ||| ·) i) s
/-- XOR (R254). -/
def execXor (i : Ins) (s : State) : Host.Outcome State Fault Refusal :=
  resultIns i i.aluOk (aluOf (· ^^^ ·) (· ^^^ ·) i) s
/-- SHL (R254): the amount is modulo 64, or 32 with W. -/
def execShl (i : Ins) (s : State) : Host.Outcome State Fault Refusal :=
  resultIns i i.aluOk (aluOf shlMod shlMod i) s
/-- SHR (R254). -/
def execShr (i : Ins) (s : State) : Host.Outcome State Fault Refusal :=
  resultIns i i.aluOk (aluOf shrMod shrMod i) s
/-- SAR (R254): with W the sign is bit 31. -/
def execSar (i : Ins) (s : State) : Host.Outcome State Fault Refusal :=
  resultIns i i.aluOk (aluOf sarMod sarMod i) s
/-- MUL (R254). -/
def execMul (i : Ins) (s : State) : Host.Outcome State Fault Refusal :=
  resultIns i i.aluOk (aluOf (· * ·) (· * ·) i) s
/-- MULHU (R254): W is not allowed. -/
def execMulhu (i : Ins) (s : State) : Host.Outcome State Fault Refusal :=
  resultIns i (i.modIn 0x001#9 && i.s2ok)
    (fun c => BitVec.ofNat 64 ((i.ga c).toNat * (i.s2 c).toNat / 2 ^ 64)) s
/-- DIVU (R254). -/
def execDivu (i : Ins) (s : State) : Host.Outcome State Fault Refusal :=
  resultIns i i.aluOk (aluOf divOr divOr i) s
/-- REMU (R254). -/
def execRemu (i : Ins) (s : State) : Host.Outcome State Fault Refusal :=
  resultIns i i.aluOk (aluOf remOr remOr i) s
/-- MINU (R254). -/
def execMinu (i : Ins) (s : State) : Host.Outcome State Fault Refusal :=
  resultIns i i.aluOk (aluOf minBv minBv i) s
/-- MAXU (R254). -/
def execMaxu (i : Ins) (s : State) : Host.Outcome State Fault Refusal :=
  resultIns i i.aluOk (aluOf maxBv maxBv i) s

/-- CMP (R254, R255): writes flag F. -/
def execCmp (i : Ins) (s : State) : Host.Outcome State Fault Refusal :=
  pureIns i (i.modIn 0x1FF#9 && i.noD && i.s2ok && i.flagOk && decide (i.cond < 8))
    (fun c => setFlag c i.flag (cmpHolds i c)) s

/-- FLOP (R254): flag logic on the flags that d, a and b name in their low three bits. -/
def execFlop (i : Ins) (s : State) : Host.Outcome State Fault Refusal :=
  pureIns i (i.modIn 0x1E0#9 && i.imm == 0 && decide (i.cond < 5) && decide (i.d.toNat < 8) && !i.noD &&
      decide (i.a.toNat < 8) && decide (i.b.toNat < 8) && (i.cond != 4 || i.noB))
    (fun c => setFlag c i.d.toNat (flagLogic i.cond (flagOf c i.a.toNat) (flagOf c i.b.toNat))) s

/-- LDI (R254): sign-extended, zero-extended with W. -/
def execLdi (i : Ins) (s : State) : Host.Outcome State Fault Refusal :=
  resultIns i (i.modIn 0x002#9 && i.noA && i.noB)
    (fun _ => if i.narrow then i.imm.zeroExtend 64 else i.simm) s

/-- LDIH (R254): the high half is loaded and the low half kept. -/
def execLdih (i : Ins) (s : State) : Host.Outcome State Fault Refusal :=
  resultIns i (i.modIn 0 && i.noA && i.noB)
    (fun c => i.imm ++ (i.gd c).truncate 32) s

/-- SEL (R254): ga if flag F is 1, else s2. -/
def execSel (i : Ins) (s : State) : Host.Outcome State Fault Refusal :=
  resultIns i (i.modIn 0x01F#9 && i.s2ok)
    (fun c => aluOf (fun x y => if flagOf c i.flag then x else y) (fun x y => if flagOf c i.flag then x else y) i c) s

end Machine
open Machine

/-- p of EXT and INS. -/
def Ins.fp (i : Ins) : Nat := i.immBits 0 6
/-- n of EXT and INS. -/
def Ins.fn (i : Ins) : Nat := i.immBits 6 7
/-- The word form of EXT and INS: n from 1, p + n at most 64 (R254). -/
def Ins.bitsOk (i : Ins) : Bool :=
  i.modIn 0x002#9 && i.noB && i.immIn 13 && decide (1 ≤ i.fn) && decide (i.fp + i.fn ≤ 64)

/-- The low 32 bits with W, the whole value otherwise. -/
def Ins.cut (i : Ins) (v : Word) : Word := if i.narrow then (v.truncate 32).zeroExtend 64 else v

namespace Machine


/-- n ones. -/
def onesBv (n : Nat) : Word := BitVec.ofNat 64 (2 ^ n - 1)

/-- EXT (R254). -/
def execExt (i : Ins) (s : State) : Host.Outcome State Fault Refusal :=
  resultIns i i.bitsOk (fun c => i.cut ((i.cut (i.ga c) >>> i.fp) &&& onesBv i.fn)) s

/-- INS (R254): bits of gd outside [p+n-1:p] are kept. -/
def execIns (i : Ins) (s : State) : Host.Outcome State Fault Refusal :=
  resultIns i i.bitsOk
    (fun c => i.cut ((i.gd c &&& ~~~ (onesBv i.fn <<< i.fp)) ||| ((i.ga c &&& onesBv i.fn) <<< i.fp))) s

/-- Number of ones among the low n bits. -/
def popCount (v : Word) : Nat → Nat
  | 0 => 0
  | n + 1 => popCount v n + (if v.getLsbD n then 1 else 0)

/-- Leading zeros of the low n bits. -/
def leadZeros (v : Word) : Nat → Nat
  | 0 => 0
  | n + 1 => if v.getLsbD n then 0 else leadZeros v n + 1

/-- The low n bytes in reversed order: byte k goes to place n - 1 - k. -/
def swapBytes (v : Word) (n : Nat) : Nat :=
  ((List.range n).map fun k => fieldOf v (8 * k) 8 * 256 ^ (n - 1 - k)).sum

/-- POPC (R254). -/
def execPopc (i : Ins) (s : State) : Host.Outcome State Fault Refusal :=
  resultIns i i.unaryOk (fun c => BitVec.ofNat 64 (popCount (i.ga c) (if i.narrow then 32 else 64))) s
/-- CLZ (R254). -/
def execClz (i : Ins) (s : State) : Host.Outcome State Fault Refusal :=
  resultIns i i.unaryOk (fun c => BitVec.ofNat 64 (leadZeros (i.ga c) (if i.narrow then 32 else 64))) s
/-- BSWAP (R254). -/
def execBswap (i : Ins) (s : State) : Host.Outcome State Fault Refusal :=
  resultIns i i.unaryOk (fun c => BitVec.ofNat 64 (swapBytes (i.ga c) (if i.narrow then 4 else 8))) s

end Machine
end Sys2Proof
end

