-- ==== Sys2Proof/Machine/Verify.lean ====
section
/-! DEFINITION. Program images and the verifier: the header, the tables, and the ten checks of LOAD_PROGRAM
(R251 to R261, R271 to R278, R280). -/

namespace Sys2Proof.Machine

/-! Words (R251) -/

/-- The opcode of an instruction word. -/
def wordOp (w : Word) : Nat := fieldOf w 56 8

/-- The operand fields of an instruction word. -/
def wordIns (w : Word) : Ins :=
  { cx := 0, d := w.extractLsb' 51 5, a := w.extractLsb' 46 5, b := w.extractLsb' 41 5, mod := w.extractLsb' 32 9,
    imm := w.extractLsb' 0 32 }

/-- Word forms of the ALU group (R254). -/
def aluForm (op : Nat) (i : Ins) : Bool :=
  match op with
  | 0x00 | 0x01 | 0x02 | 0x03 | 0x04 | 0x05 | 0x06 | 0x07 | 0x08 | 0x0A | 0x0B | 0x0C | 0x0D => i.aluOk
  | 0x09 => i.modIn 0x001#9 && i.s2ok
  | 0x0E => i.modIn 0x1FF#9 && i.noD && i.s2ok && i.flagOk && decide (i.cond < 8)
  | 0x0F =>
    i.modIn 0x1E0#9 && i.imm == 0 && decide (i.cond < 5) && decide (i.d.toNat < 8) && !i.noD && decide (i.a.toNat < 8) &&
      decide (i.b.toNat < 8) && (i.cond != 4 || i.noB)
  | 0x10 => i.modIn 0x002#9 && i.noA && i.noB
  | 0x11 => i.modIn 0 && i.noA && i.noB
  | 0x12 => i.modIn 0x01F#9 && i.s2ok
  | 0x13 | 0x14 => i.bitsOk
  | 0x15 | 0x16 | 0x17 => i.unaryOk
  | _ => false

/-- No operand at all. -/
def bareForm (i : Ins) : Bool := i.modIn 0 && i.noD && i.noA && i.noB && i.imm == 0

/-- Word forms of the branch and load/store groups (R256 to R258). -/
def flowForm (op : Nat) (i : Ins) : Bool :=
  match op with
  | 0x20 => i.modIn 0x03C#9 && i.noD && i.noA && i.noB
  | 0x21 => i.modIn 0 && i.noD && i.noB && decide (1 ≤ i.imm.toNat) && decide (i.imm.toNat ≤ 256)
  | 0x22 => i.modIn 0 && i.noD && i.noA && i.noB
  | 0x23 | 0x25 => bareForm i
  | 0x24 => i.modIn 0 && i.noA && i.noB
  | 0x30 | 0x31 => i.modIn 0x01C#9 && i.noB
  | 0x32 => i.modIn 0x00C#9 && i.noD
  | 0x33 => i.modIn 0x001#9 && i.noA && i.s2ok
  | 0x34 => i.modIn 0 && i.noA && i.noB && decide (i.imm.toNat < 15)
  | _ => false

/-- Word forms of the host, cache and stripe groups (R285 to R306). -/
def unitForm (op : Nat) (i : Ins) : Bool :=
  match op with
  | 0x40 => i.modIn 0 && i.noA && i.noB && i.immIn 4
  | 0x41 => i.modIn 0 && i.noB && i.immIn 8
  | 0x42 => i.modIn 0 && i.noB && i.immIn 9
  | 0x43 | 0x60 | 0x61 => i.modIn 0 && i.noD && i.noB && i.imm == 0
  | 0x50 => i.modIn 0 && i.noB && i.immIn 6
  | 0x51 => i.modIn 0 && i.noB && i.immIn 6 && decide (i.immBits 4 2 < 3)
  | 0x52 => i.modIn 0 && i.noB && i.immIn 10 && decide (i.immBits 8 2 < 3)
  | 0x53 => i.modIn 0 && i.noD && i.noA && i.noB && i.immIn 16
  | 0x62 => i.modIn 0 && i.immIn 4 && decide (i.imm.toNat < 6)
  | 0x70 | 0x72 => i.modIn 0 && i.noB && i.imm == 0
  | 0x71 => i.modIn 0x01C#9 && i.immIn 5 && i.flagOk
  | 0x73 => i.modIn 0 && i.immIn 1 && (i.imm.getLsbD 0 || i.noB)
  | _ => false

/-- Word forms of the member, parity, time and system groups (R259 to R261, R307 to R316). -/
def memForm (op : Nat) (i : Ins) : Bool :=
  match op with
  | 0x80 => i.modIn 0 && i.immIn 5
  | 0x81 => i.modIn 0 && i.imm == 0
  | 0x82 => i.modIn 0x1E0#9 && i.noB && i.imm == 0 && decide (i.cond < 3)
  | 0x90 | 0x91 | 0x92 | 0x93 | 0x94 | 0x95 => vecForm i
  | 0x96 => i.modIn 0x01C#9 && i.immIn 8 && decide (i.immBits 0 4 = 0) && i.flagOk
  | 0xA0 | 0xA2 => i.modIn 0 && i.noA && i.noB && i.imm == 0
  | 0xA1 => i.modIn 0x001#9 && i.noD && i.noA && i.s2ok
  | 0xA3 =>
    i.modIn 0x021#9 && i.noD && (if i.bit5 then !i.useImm && i.noB && i.imm == 0 else i.noA && i.s2ok)
  | 0xB0 | 0xB2 => bareForm i
  | 0xB1 => i.modIn 0 && i.noD && i.noB && i.immIn 8
  | 0xB3 => i.modIn 0x001#9 && i.noD && i.noA && i.noB && i.imm == 0
  | _ => false

/-- A word holds a defined opcode and selectors, rsvd fields 0, and no flag f0 as a destination (R277 check 3). -/
def wordOk (w : Word) : Bool :=
  let op := wordOp w
  let i := wordIns w
  if op < 0x20 then aluForm op i
  else if op < 0x40 then flowForm op i
  else if op < 0x80 then unitForm op i
  else memForm op i

/-- Which kinds of handler may reach an opcode (R278). -/
def kindAllows (k : HandlerKind) (op : Nat) : Bool :=
  match k with
  | .map => op ≤ 0x17 || (0x20 ≤ op && op ≤ 0x24) || op == 0x30 || op == 0x31 || op == 0x33 || op == 0x34 || op == 0x62
  | .opcode => op != 0xA1 && op != 0xB3
  | .fault => op != 0xA1
  | .maint => op / 16 != 4 && op != 0xB3

/-- A MAP writes only g1 to g7 and f1 to f3 (R277 check 7). -/
def mapWrites (w : Word) : Bool :=
  let op := wordOp w
  let i := wordIns w
  if op = 0x0E then i.flag ≤ 3
  else if op = 0x0F then i.d.toNat ≤ 3
  else if op ≤ 0x17 || op == 0x24 || op == 0x30 || op == 0x31 || op == 0x33 || op == 0x34 || op == 0x62 then
    1 ≤ i.d.toNat && i.d.toNat ≤ 7
  else true

/-! Reach of the code -/

/-- The instruction at a signed offset, when it lies in a code of n words. -/
def target (n k : Nat) (i : Ins) : Option Nat :=
  let t := (k : Int) + i.imm.toInt
  if 0 ≤ t ∧ t < n then some t.toNat else none

/-- Targets that an instruction names, one outside the code being none (R277 check 4). -/
def targets (n k : Nat) (w : Word) : List (Option Nat) :=
  let i := wordIns w
  match wordOp w with
  | 0x20 | 0x22 | 0x24 => [target n k i]
  | 0x21 => (List.range i.imm.toNat).map fun j => if k + 1 + j < n then some (k + 1 + j) else none
  | _ => []

/-- Execution may go on with the word behind. A branch on f0, which is 1, always or never goes (R240, R256). -/
def fallsThrough (w : Word) : Bool :=
  let i := wordIns w
  match wordOp w with
  | 0x20 => !(i.flag == 0 && i.bit5)
  | 0x21 | 0x23 | 0xB2 | 0xB3 => false
  | _ => true

/-- Words that may run next after word k; a CALL is stepped over, or entered too. -/
def nexts (code : List Word) (enter : Bool) (k : Nat) : List Nat :=
  match code[k]? with
  | none => []
  | some w =>
    let taken := match wordOp w with
      | 0x22 => enter
      | 0x20 => !((wordIns w).flag == 0 && !(wordIns w).bit5)
      | _ => true
    (if taken then (targets code.length k w).filterMap (fun x => x) else []) ++ (if fallsThrough w then [k + 1] else [])

/-- Words reached from a work list. -/
def reachFrom (code : List Word) (enter : Bool) : Nat → List Nat → List Nat → List Nat
  | 0, _, seen => seen
  | _ + 1, [], seen => seen
  | n + 1, k :: ks, seen =>
    if seen.contains k then reachFrom code enter n ks seen
    else reachFrom code enter n (nexts code enter k ++ ks) (k :: seen)

/-- Words reached from an entry. A word has at most 257 successors. -/
def reach (code : List Word) (enter : Bool) (entry : Nat) : List Nat :=
  reachFrom code enter (300 * code.length + 2) [entry] []

/-- Code and entry of a function. -/
structure Fn where
  code : List Word
  entry : Nat
  deriving DecidableEq, Repr

/-- Functions that a function calls; CALLM calls the MAPs given. -/
def callees (maps : List Fn) (f : Fn) : List Fn :=
  ((reach f.code false f.entry).map fun k =>
    match f.code[k]? with
    | none => []
    | some w =>
      if wordOp w = 0x22 then
        ((target f.code.length k (wordIns w)).map fun t => [{ f with entry := t }]).getD []
      else if wordOp w = 0x25 then maps
      else []).flatten

/-- Calls nest deeper than a number from a function; a cycle nests without end (R277 check 5). -/
def deeper (maps : List Fn) : Nat → Fn → Bool
  | 0, f => !(callees maps f).isEmpty
  | n + 1, f => (callees maps f).any (deeper maps n)

/-! The image (R272 to R274) -/

/-- n little-endian bytes of an image. -/
def imgField (b : List Byte) (off n : Nat) : Nat := leNat ((b.drop off).take n)

/-- Bytes of an image. -/
def imgBytes (b : List Byte) (off n : Nat) : List Byte := (b.drop off).take n

/-- The header of an image. -/
structure ImgHead where
  len : Nat
  codeOff : Nat
  codeWords : Nat
  constOff : Nat
  constLen : Nat
  handlerOff : Nat
  handlerCount : Nat
  routeCount : Nat
  routeOff : Nat
  version : Nat
  signer : Nat
  keyHash : List Byte
  deriving DecidableEq, Repr

/-- Read the header. -/
def imgHead (b : List Byte) : ImgHead :=
  { len := imgField b 8 4, codeOff := imgField b 0xC 4, codeWords := imgField b 0x10 4, constOff := imgField b 0x14 4,
    constLen := imgField b 0x18 4, handlerOff := imgField b 0x1C 4, handlerCount := imgField b 0x20 2,
    routeCount := imgField b 0x22 2, routeOff := imgField b 0x24 4, version := imgField b 0x28 8,
    signer := imgField b 0x30 1, keyHash := imgBytes b 0x40 48 }

/-- Header, code, constants, handlers and routes as offset and length. -/
def ImgHead.regions (h : ImgHead) : List (Nat × Nat) :=
  [(0, 0x80), (h.codeOff, 8 * h.codeWords), (h.constOff, h.constLen), (h.handlerOff, 16 * h.handlerCount),
   (h.routeOff, 32 * h.routeCount)].filter fun r => r.2 != 0

/-- Two regions have no byte in common. -/
def apart (x y : Nat × Nat) : Bool := x.1 + x.2 ≤ y.1 || y.1 + y.2 ≤ x.1

/-- No two regions of a list have a byte in common. -/
def allApart : List (Nat × Nat) → Bool
  | [] => true
  | x :: xs => xs.all (apart x) && allApart xs

/-- ASCII bytes, then zeros. -/
def asciiPadded (bs : List Byte) : Bool :=
  bs.all (fun x => decide (x.toNat < 128)) && (bs.dropWhile (· != 0)).all (· == 0)

/-- The header keeps R272. -/
def headOk (b : List Byte) (h : ImgHead) : Bool :=
  decide (0x80 + 96 ≤ b.length) && imgField b 0 4 == 0x4750584A && imgField b 4 2 == 1 && imgField b 6 2 == 0x80 &&
    h.len == b.length && h.len % 8 == 0 && decide (h.len ≤ 8388608) && h.codeOff % 8 == 0 &&
    decide (1 ≤ h.codeWords) && decide (h.codeWords ≤ 1048576) && decide (h.constLen ≤ 65536) &&
    decide (1 ≤ h.handlerCount) && decide (h.handlerCount ≤ 4096) && decide (1 ≤ h.routeCount) &&
    decide (h.routeCount ≤ 64) && decide (h.signer ≤ 2) && (imgBytes b 0x31 15).all (· == 0) &&
    (h.signer != 0 || h.keyHash.all (· == 0)) && asciiPadded (imgBytes b 0x70 16) &&
    h.regions.all (fun r => decide (r.1 + r.2 ≤ h.len - 96)) && allApart h.regions

/-- KIND of a handler entry (R273). -/
def kindOf (n : Nat) : HandlerKind :=
  if n = 0 then .opcode else if n = 1 then .map else if n = 2 then .fault else .maint

/-- Handler entry k of an image. -/
def imgHandler (b : List Byte) (h : ImgHead) (k : Nat) : HandlerEnt :=
  let o := h.handlerOff + 16 * k
  { entry := imgField b o 4, budget := imgField b (o + 4) 4, kind := kindOf (imgField b (o + 8) 1) }

/-- A handler entry keeps R273. -/
def handlerOk (b : List Byte) (h : ImgHead) (k : Nat) : Bool :=
  let o := h.handlerOff + 16 * k
  decide (imgField b o 4 < h.codeWords) && decide (imgField b (o + 8) 1 ≤ 3) && (imgBytes b (o + 9) 7).all (· == 0)

/-- A handler field: 0xFFFF is none. -/
def handlerField (b : List Byte) (off : Nat) : Option Nat :=
  let v := imgField b off 2
  if v = 0xFFFF then none else some v

/-- Route entry k of an image. -/
def imgRoute (b : List Byte) (h : ImgHead) (k : Nat) : Route :=
  let o := h.routeOff + 32 * k
  { id := imgField b o 2, layout := (imgField b (o + 2) 2).testBit 0, groupMaint := (imgField b (o + 2) 2).testBit 1,
    map := imgField b (o + 4) 2, fault := handlerField b (o + 6), ops := (List.range 6).map fun j => handlerField b (o + 8 + 2 * j),
    destage := handlerField b (o + 0x14), rebuild := handlerField b (o + 0x16), scrub := handlerField b (o + 0x18),
    zero := handlerField b (o + 0x1A), label := handlerField b (o + 0x1C), build := handlerField b (o + 0x1E) }

/-- Maintenance handlers of a route but BUILD. -/
def Route.maint (r : Route) : List (Option Nat) := [r.destage, r.rebuild, r.scrub, r.zero, r.label]

/-- Handlers of a route with the kind each must have (R274). -/
def Route.handlers (r : Route) : List (Nat × HandlerKind) :=
  (if r.layout then [(r.map, .map)] else []) ++ (r.fault.toList.map fun h => (h, .fault)) ++
    (r.ops.filterMap (fun x => x)).map (fun h => (h, .opcode)) ++ (r.maint.filterMap (fun x => x)).map (fun h => (h, .maint)) ++
    (r.build.toList.map fun h => (h, .maint))

/-- A route entry keeps R274. -/
def routeEntOk (b : List Byte) (h : ImgHead) (k : Nat) : Bool :=
  let r := imgRoute b h k
  decide (1 ≤ r.id) && decide (r.id ≤ 0xFFFE) && decide (imgField b (h.routeOff + 32 * k + 2) 2 < 4) &&
    r.handlers.all (fun x => decide (x.1 < h.handlerCount)) &&
    (if r.layout then r.fault.isNone && r.ops.all Option.isNone && r.maint.all Option.isNone else r.build.isNone)

/-- The first number below n that fails a test. -/
def firstBad (n : Nat) (p : Nat → Bool) : Option Nat := (List.range n).find? fun k => !p k

/-- The program that an image holds. -/
def imgProgram (b : List Byte) (h : ImgHead) : Program :=
  { image := b, code := (List.range h.codeWords).map fun k => BitVec.ofNat 64 (imgField b (h.codeOff + 8 * k) 8),
    consts := imgBytes b h.constOff h.constLen, handlers := (List.range h.handlerCount).map (imgHandler b h),
    routes := (List.range h.routeCount).map (imgRoute b h), version := BitVec.ofNat 64 h.version, hash := Config.sha384 b }

/-- Check 1: the index of the entry at fault, 0 for the header. -/
def formatBad (b : List Byte) : Option Nat :=
  let h := imgHead b
  let rs := (List.range h.routeCount).map (imgRoute b h)
  if !headOk b h then some 0
  else
    ((firstBad h.handlerCount (handlerOk b h)).orElse fun _ => firstBad h.routeCount (routeEntOk b h)).orElse fun _ =>
      firstBad h.routeCount fun k => !((rs.take k).any fun r => rs[k]?.map (fun x => x.id) == some r.id)

/-! The checks (R275, R277, R280) -/

/-- The owner's public key, when one is enrolled (R451, R453). -/
def ownerKey (s : State) : Option (List Byte) :=
  if tagType s 1 = 2 then some (((tagBytes s 1).drop 0x10).take 96) else none

/-- Check 2: the signature stands as R275 asks. -/
def signatureOk (s : State) (n : Nat) (b : List Byte) : Bool :=
  let h := imgHead b
  let body := b.take (h.len - 96)
  let sig := b.drop (h.len - 96)
  if h.signer = 1 then
    match Config.vendorKey h.keyHash with
    | some k => Config.sigValid body k sig
    | none => false
  else if n < 2 then false
  else if h.signer = 2 then
    match ownerKey s with
    | some k => Config.sha384 k == h.keyHash && Config.sigValid body k sig
    | none => false
  else (ownerKey s).isNone && sig.all (· == 0)

/-- Entries of the handlers of a program. -/
def Program.entries (p : Program) : List Nat := p.handlers.map fun h => h.entry

/-- Check 4: the first word that branches out of the code, loops forward, or runs past the end. -/
def branchBad (p : Program) : Option Nat :=
  let n := p.code.length
  let last := n - 1
  (firstBad n fun k =>
    let w := p.code.getD k 0
    (targets n k w).all Option.isSome && (wordOp w != 0x24 || (wordIns w).imm.msb)).orElse fun _ =>
    if fallsThrough (p.code.getD last 0) && p.entries.any (fun e => (reach p.code true e).contains last) then some last else none

/-- The program and route of a ROUTE_ID among loaded programs but one number. -/
def otherRoute (s : State) (n id : Nat) : Option (Program × Route) :=
  s.progs.loaded.findSome? fun x => if x.1 = n then none else (x.2.routes.find? fun r => r.id == id).map fun r => (x.2, r)

/-- The layout route that a handler route names: of this image, or of another loaded program (R274). -/
def layoutFor (s : State) (n : Nat) (p : Program) (id : Nat) : Option (Program × Route) :=
  ((p.routes.find? fun r => r.id == id).map fun r => (p, r)).orElse (fun _ => otherRoute s n id) |>.filter fun x => x.2.layout

/-- The MAP that CALLM calls for a route. -/
def mapsFor (s : State) (n : Nat) (p : Program) (r : Route) : List Fn :=
  let own := if r.layout then some (p, r) else layoutFor s n p r.map
  match own with
  | some (q, l) => ((q.handlers[l.map]?).map fun h => [{ code := q.code, entry := h.entry }]).getD []
  | none => []

/-- Check 5: the first handler, as a route reaches it, whose calls nest deeper than 4. -/
def callBad (s : State) (n : Nat) (p : Program) : Option Nat :=
  firstBad p.handlers.length fun k =>
    let f : Fn := { code := p.code, entry := (p.entries.getD k 0) }
    !deeper [] 4 f && p.routes.all fun r => !r.handlers.any (fun x => x.1 == k) || !deeper (mapsFor s n p r) 4 f

/-- The budget in force of a declared one (R271). -/
def budgetOf (b : Nat) : Nat := if b = 0 then 65536 else b

/-- Handlers of READ, WRITE and FLUSH of a route. -/
def Route.expressOps (r : Route) : List Nat := (r.ops.take 3).filterMap (fun x => x)

/-- Check 6: the first handler whose declared budget breaks R271. -/
def budgetBad (p : Program) : Option Nat :=
  firstBad p.handlers.length fun k =>
    match p.handlers[k]? with
    | none => true
    | some h =>
      let b := budgetOf h.budget
      decide (b ≤ 1048576) && (h.kind != .map || decide (b ≤ 256)) &&
        (!p.routes.any (fun r => r.expressOps.contains k) || decide (b ≤ 2048))

/-- Check 7: the first handler that reaches an instruction its kind does not allow, or a MAP that writes elsewhere. -/
def kindBad (p : Program) : Option Nat :=
  firstBad p.handlers.length fun k =>
    match p.handlers[k]? with
    | none => true
    | some h => (reach p.code true h.entry).all fun j =>
        let w := p.code.getD j 0
        kindAllows h.kind (wordOp w) && (h.kind != .map || mapWrites w)

/-- Check 8: the first route that another program holds, or that names a handler of another kind, or no layout. -/
def routeBad (s : State) (n : Nat) (p : Program) : Option Nat :=
  firstBad p.routes.length fun k =>
    match p.routes[k]? with
    | none => true
    | some r =>
      (otherRoute s n r.id).isNone && r.handlers.all (fun x => (p.handlers[x.1]?).map (fun h => h.kind) == some x.2) &&
        (r.layout || (layoutFor s n p r.map).isSome)

/-- Lines of the Express path of a program, 8 words each (R280). -/
def expressLinesOf (p : Program) : Nat :=
  let ops := ((p.routes.filter fun r => !r.layout).map fun r => r.expressOps).flatten
  let pick := (List.range p.handlers.length).filter fun k =>
    ops.contains k || (match p.handlers[k]? with
      | some h => h.kind == .map || h.kind == .fault
      | none => false)
  let words := (pick.map fun k => reach p.code true (p.entries.getD k 0)).flatten
  ((words.map fun k => k / 8).eraseDups).length

/-- Check 9: the limits of R280 with the image in place of the old one. -/
def capacityOk (s : State) (n : Nat) (p : Program) : Bool :=
  let ps := p :: Tab.vals (s.progs.loaded.filter fun x => x.1 != n)
  decide (ps.length ≤ 64) && decide ((ps.map fun q => q.routes.length).sum ≤ 1024) &&
    decide ((ps.map fun q => q.code.length).sum ≤ 4194304) && decide ((ps.map fun q => q.consts.length).sum ≤ 65536) &&
    decide ((ps.map fun q => q.expressLines).sum ≤ 256)

/-- Routes that a volume is bound to, and the MAP of such a route (R279). -/
def boundRoutes (s : State) : List Nat :=
  (s.vols.map fun v => v.2.route :: (match routeOf s v.2.route with
    | some (_, r) => if r.layout then [] else [r.map]
    | none => [])).flatten

/-- Check 10: a replacement keeps the routes in use, and the code of a group's layout (R279). -/
def replaceOk (s : State) (n : Nat) (p : Program) : Bool :=
  match s.progs.loaded.find n with
  | none => true
  | some old =>
    let has : Nat → Bool := fun id => p.routes.any fun r => r.id == id
    let used := boundRoutes s
    old.routes.all (fun r => !used.contains r.id || has r.id) &&
      (!old.routes.any (fun r => r.layout && s.groups.any (fun g => g.2.layout == r.id)) || p.image == old.image)

/-- The reason of a refusal with the index concerned, in the order of R277; none: the program to install. -/
def verify (s : State) (n : Nat) (b : List Byte) : Except (Nat × Nat) Program :=
  match formatBad b with
  | some k => .error (1, k)
  | none =>
    if !signatureOk s n b then .error (2, 0)
    else
      let p := imgProgram b (imgHead b)
      match firstBad p.code.length fun k => wordOk (p.code.getD k 0) with
      | some k => .error (3, k)
      | none =>
        match branchBad p with
        | some k => .error (4, k)
        | none =>
          match callBad s n p with
          | some k => .error (5, k)
          | none =>
            match budgetBad p with
            | some k => .error (6, k)
            | none =>
              match kindBad p with
              | some k => .error (7, k)
              | none =>
                match routeBad s n p with
                | some k => .error (8, k)
                | none =>
                  let p := { p with expressLines := expressLinesOf p }
                  if !capacityOk s n p then .error (9, 0)
                  else if !replaceOk s n p then .error (10, 0)
                  else .ok p

/-! LOAD_PROGRAM (R199, R276, R279) -/

/-- The image is installed; threads of replaced code keep it (R279). -/
def installProgram (s : State) (n : Nat) (p : Program) : State :=
  let inUse := s.ctxs.any fun x => x.2.program == n && x.2.state != .doneUnposted
  let k := (List.range (s.progs.kept.length + 1)).find? fun j => !s.progs.kept.has (64 * (j + 1) + n)
  let key := 64 * (k.getD 0 + 1) + n
  let s := match s.progs.loaded.find n with
    | some old =>
      if inUse then
        { s with
          progs := { s.progs with kept := s.progs.kept.put key old }
          ctxs := s.ctxs.mapVal fun _ c => if c.program = n then { c with program := key } else c }
      else s
    | none => s
  reassemble { s with progs := { s.progs with loaded := s.progs.loaded.put n p } } .waitLayout

/-- The staging of a program number is discarded. -/
def dropStaging (s : State) (n : Nat) : State := { s with progs := { s.progs with staging := s.progs.staging.del n } }

/-- A segment against the staging before it: the staging after it, or none where it breaks R276. -/
def stageNext (s : State) (n : Nat) (first last : Bool) (off total : Nat) (data : List Byte) : Option Staging :=
  let old := s.progs.staging.find n
  let st : Option Staging :=
    if first then
      if old.isNone && decide (4 ≤ s.progs.staging.length) then none else some { total := total, bytes := [] }
    else old
  match st with
  | none => none
  | some st =>
    let len := st.bytes.length + data.length
    if data.length % 8 != 0 || decide (data.length < 8) || decide (131072 < data.length) || off != st.bytes.length ||
        total != st.total || decide (st.total < len) || (last && len != st.total) then none
    else some { st with bytes := st.bytes ++ data }

/-- Stage a segment and, with LAST, verify and install the image. -/
def loadSegment (s : State) (a : AdminCmd) : State :=
  let e := a.entry
  let n := eBits e 40 0 16
  let last := eBits e 42 1 1 == 1
  if 64 ≤ n then adminBad s a
  else
    match stageNext s n (eBits e 42 0 1 == 1) last (eBits e 44 0 32) (eBits e 48 0 32) a.data with
    | none => adminBad (dropStaging s n) a
    | some st =>
      if !last then adminOk { s with progs := { s.progs with staging := s.progs.staging.put n st } } a
      else
        let s := dropStaging s n
        match verify s n st.bytes with
        | .ok p => adminOk (installProgram s n p) a
        | .error (r, k) => adminDone (logErr s 0x0820 .clusters {} (r + k * 2 ^ 8)) a .programFault false

/-- LOAD_PROGRAM. -/
def execLoadProgram (a : AdminCmd) (s : State) : Host.Outcome State Fault Refusal :=
  .next (adminRun s a (eOpc a.entry == 0x46)
    { dir := .fromHost, tail := [(40, 0, 16), (42, 0, 2), (44, 0, 32), (48, 0, 32)] } fun a s => loadSegment s a)

end Sys2Proof.Machine
end

