-- ==== Sys2Proof/Machine/VaultImage.lean ====
section
/-! DEFINITION. The blocks of a vault image (R4, R318, R342, R343). A section is given as the blocks of its area that it writes,
counted from the area's base; blocks of a section that are not listed are zero. DESIGN CHOICE (log entry 67): the places of the
fields of marks and trailer, the section numbers, and the places of the three parts of the maps section, none of which the manual
states. -/

namespace Sys2Proof.Machine

/-- Blocks of an area by their number. -/
abbrev Blocks := List (Nat × Memory)

/-- A list cut into blocks of 4 KiB from a block on. -/
def cutBlocks (first : Nat) (bs : List Byte) : Blocks :=
  (List.range ((bs.length + 4095) / 4096)).map fun k => (first + k, blockOfBytes bs k)

/-- The bytes of n blocks from a block on. -/
def spanBytes (bs : Blocks) (first n : Nat) : List Byte :=
  ((List.range n).map fun k => (((bs.find? fun x => x.1 == first + k).map Prod.snd).getD {}).bytes 0 4096).flatten

/-- A completion mark at a block: it covers n blocks from another on. -/
def markOf (seq number : Nat) (bs : Blocks) (at_ first n : Nat) : Nat × Memory :=
  (at_, Memory.ofBytes (layBytes 4096 [(0x00, leBytes 4 0x4B524D57), (0x04, leBytes 8 seq), (0x0C, leBytes 4 number), (0x10, leBytes 4 n),
    (0x14, leBytes 4 (crc32 (spanBytes bs first n)).toNat)]))

/-! The dump set -/

/-- Insert a record by GENERATION. -/
def insertRec (x : Nat × JRec) : List (Nat × JRec) → List (Nat × JRec)
  | [] => [x]
  | y :: t => if x.2.generation < y.2.generation then x :: y :: t else y :: insertRec x t

/-- Sealed records in ascending GENERATION. -/
def sealedRecs (s : State) : List (Nat × JRec) :=
  (s.journal.recs.filter fun r => r.2.sealed).foldl (fun l x => insertRec x l) []

/-- A block of a record extent: where it comes from, and its frame. -/
structure RecBlock where
  record : Nat
  entry : Nat
  block : Nat
  generation : Nat
  lba : Nat
  index : Nat
  group : Nat
  frame : Nat
  deriving DecidableEq, Repr

/-- Blocks of the entries of a record, but for those with a bit in ZERO_MASK. -/
def blocksOfRec (s : State) (x : Nat × JRec) : List RecBlock :=
  (((List.range x.2.entries.length).zip x.2.entries).filter fun e => !entryZero s e.2).map (fun e =>
    ((List.range e.2.frames.length).zip e.2.frames).map fun f =>
      { record := (x.1 :: x.2.conts).getD (e.1 / 6) 0, entry := e.1 % 6, block := f.1, generation := x.2.generation,
        lba := e.2.lba + f.1, index := e.2.index, group := x.2.group, frame := f.2 }) |>.flatten

/-- Blocks of the record extents (R342). -/
def recBlocks (s : State) : List RecBlock := ((sealedRecs s).map (blocksOfRec s)).flatten

/-- Index entry of a block of a record extent. -/
def recIndexBytes (s : State) (b : RecBlock) : List Byte :=
  leBytes 4 b.record ++ leBytes 1 b.entry ++ leBytes 1 b.block ++ leBytes 2 0 ++ leBytes 8 b.generation ++ leBytes 8 b.lba ++
    leBytes 1 b.index ++ leBytes 1 b.group ++ leBytes 1 (bit (frameOf s b.frame).uncorr 0) ++ leBytes 5 0

/-- STATE of a directory entry (R318). -/
def frameBits (f : Frame) : Nat :=
  bit f.key.isSome 0 + bit f.dirty 1 + bit f.prot 2 + bit f.rdonly 3 + bit f.stage 4 + bit f.poison 5 + bit f.uncorr 6 + bit f.zfill 7 +
    bit f.retired 8

/-- A directory entry (R318). -/
def frameEntry (s : State) (fr : Nat) : List Byte :=
  let f := frameOf s fr
  leBytes 8 ((f.key.map fun k => k.1 + k.2 * 2 ^ 12).getD 0) ++ leBytes 8 f.pi.toNat ++ leBytes 2 (frameBits f) ++
    leBytes 2 (min f.pins 0xFFFF) ++ leBytes 4 f.age.toNat ++ leBytes 4 (Config.chainNext s.freeCtr fr).toNat ++ leBytes 4 0

/-! Sections (R342, R343) -/

/-- The header with MARKS. -/
def headerBlock (s : State) (d : Dump) (marks : Nat) : Nat × Memory :=
  let fw := ((if s.pwr.bootSlotB then s.pwr.slotB else s.pwr.slotA).map fun i => i.version.toNat).getD 0
  (0, Memory.ofBytes (sealBytes (layBytes 4092
    [(0x000, leBytes 4 0x544C5657), (0x004, leBytes 2 1), (0x006, leBytes 1 (bit d.areaB 0)), (0x007, leBytes 1 marks),
     (0x008, leBytes 8 d.seq), (0x010, leBytes 8 Config.dieId.toNat), (0x018, leBytes 8 d.q.toNat), (0x020, leBytes 1 (bit s.vlt.striped 0)),
     (0x021, leBytes 1 d.devState), (0x022, leBytes 2 d.recExtents), (0x024, leBytes 2 d.dirtyExtents), (0x026, leBytes 2 d.inlines.length),
     (0x028, leBytes 4 (min (recBlocks s).length (65536 * d.recExtents))), (0x02C, leBytes 4 (min d.dirtyFrames.length (65536 * d.dirtyExtents))), (0x030, leBytes 4 (recsUsed s)),
     (0x038, leBytes 8 fw),
     (0x040, ((List.range 8).map fun g => leBytes 16 (((s.groups.find g).map fun x => x.groupId).getD 0)).flatten)])))

/-- The journal snapshot: record i in 128 bytes. -/
def journalBlocks (s : State) : Blocks :=
  let parts := (s.journal.recs.map fun x => (x.1 :: x.2.conts).zip (recParts s x.1 x.2)).flatten
  ((parts.map fun p => p.1 / 32).eraseDups).map fun b =>
    (256 + b, Memory.ofBytes (layBytes 4096 ((parts.filter fun p => p.1 / 32 == b).map fun p => (128 * (p.1 % 32), p.2))))

/-- The lost-stripe map, the poison list and the deferred-error log. -/
def mapBlocks (s : State) : Blocks :=
  cutBlocks 8192 (lostPage s.mem.lost s.mem.lostTs) ++
    cutBlocks 20480 (s.cache.poisonList.map fun x => leBytes 8 (x.1 + x.2 * 2 ^ 12 + 2 ^ 63)).flatten ++
    cutBlocks 22528 (logBytes s 2 0 (64 + 32 * Config.logCapacity))

/-- The queue of an SQID. -/
def sqOfId (s : State) (sqid : Nat) : Option Sq := sqOf s (sqid / 64) (sqid % 64)

/-- Index entry of a busy inline buffer: the block that its command names. -/
def inlineEntry (s : State) (x : Nat × Nat) : List Byte :=
  let e := ((sqOfId s x.1).bind fun q => q.inlineFor.find x.2).getD 0
  leBytes 8 (eVol e + eLba e * 2 ^ 12) ++ leBytes 2 x.1 ++ leBytes 6 0

/-- The busy inline buffers, in index order. -/
def inlineBlocks (s : State) (d : Dump) : Blocks :=
  cutBlocks 24576 (d.inlines.map (inlineEntry s)).flatten ++
    ((List.range d.inlines.length).zip d.inlines).map fun x =>
      (24592 + x.1, ((sqOfId s x.2.1).map fun q => q.inline_.getD x.2.2 {}).getD {})

/-- First block of extent e. -/
def extentBase (e : Nat) : Nat := 32768 + 66560 * e

/-- The frames of extent e, each with its index entry. -/
def extentItems (s : State) (d : Dump) (e : Nat) : List (List Byte × Nat) :=
  if e < d.recExtents then (((recBlocks s).drop (65536 * e)).take 65536).map fun b => (recIndexBytes s b, b.frame)
  else ((d.dirtyFrames.drop (65536 * (e - d.recExtents))).take 65536).map fun fr => (frameEntry s fr, fr)

/-- Index blocks of extent e. -/
def extentIndex (s : State) (d : Dump) (e : Nat) : Blocks := cutBlocks (extentBase e) ((extentItems s d e).map Prod.fst).flatten

/-- Data blocks of extent e and its mark. -/
def extentData (s : State) (d : Dump) (e : Nat) : Blocks :=
  let items := extentItems s d e
  let bs := ((List.range items.length).zip items).map fun x => (extentBase e + 512 + x.1, (frameOf s x.2.2).data)
  bs ++ [markOf d.seq e bs (extentBase e + 66048) (extentBase e + 512) items.length]

/-- The extents of a dump. -/
def Dump.extents (d : Dump) : Nat := d.recExtents + d.dirtyExtents

/-- Blocks that a whole dump writes, its marks, header and trailer among them. -/
def dumpBlocks (s : State) (d : Dump) : Nat :=
  2 + 4097 + 16384 + 16 + 4097 + 513 * d.extents + ((List.range d.extents).map fun e => (extentItems s d e).length).sum

/-- The trailer. -/
def trailerBlock (s : State) (d : Dump) : Nat × Memory :=
  (extentBase d.extents, Memory.ofBytes (sealBytes (layBytes 4092
    [(0x00, leBytes 4 0x52545657), (0x04, leBytes 8 d.seq), (0x0C, leBytes 8 (now s).toNat), (0x14, leBytes 4 (dumpBlocks s d))])))

/-- Extents that a vault port takes: all of them mirrored, every second one striped (R342). -/
def portExtents (s : State) (d : Dump) (port : Nat) : List Nat :=
  (List.range d.extents).filter fun e => !s.vlt.striped || e % 2 == port

/-- The blocks that a step of a dump writes on a port (R342, R347). -/
def stepBlocks (s : State) (d : Dump) (port : Nat) : Blocks :=
  match d.step with
  | .header => [headerBlock s d 1]
  | .journal => let bs := journalBlocks s; bs ++ [markOf d.seq 1 bs 4352 256 4096]
  | .index => ((portExtents s d port).map (extentIndex s d)).flatten
  | .maps => let bs := mapBlocks s ++ inlineBlocks s d; bs ++ [markOf d.seq 4 bs 28688 24592 4096]
  | .data e => if (portExtents s d port).contains e then extentData s d e else []
  | .trailer => [trailerBlock s d]
  | .final => [headerBlock s d 2]
  | .flush | .done => []

end Sys2Proof.Machine
end

