-- ==== Sys2Proof/Machine/Vault.lean ====
section
/-! DEFINITION. The energy ledger, the patrol, power failure and the dump, the vault check and the recovery of
images (R320 to R326, R341 to R355, R463, R477, R507). -/

namespace Sys2Proof.Machine

/-- Change the vault unit. -/
def updVlt (s : State) (g : Vault → Vault) : State := { s with vlt := g s.vlt }

/-- The device state changes (R104, R468). -/
def setDev (s : State) (d : DevState) : State :=
  if s.pwr.testEn then s else rbChange (updPwr s fun p => { p with devState := d })

/-! The energy ledger (R322 to R325) -/

/-- Nanoseconds in which the vault writes 2 GiB at its rate: mirrored the slower SSD counts, striped both share;
one SSD alone counts in either mode; 0 with none (R324). -/
def vaultNs (v : Vault) : Nat :=
  if v.ok0 && v.ok1 then (if v.striped then max v.ns0 v.ns1 else 2 * max v.ns0 v.ns1)
  else if v.ok0 then 2 * v.ns0
  else if v.ok1 then 2 * v.ns1
  else 0

/-- VLT_RATE in MB/s. -/
def vaultRate (v : Vault) : Nat := if vaultNs v = 0 then 0 else 2 ^ 31 * 1000 / vaultNs v

/-- V_start² − V_cut² in mV². -/
def voltGap (v : Vault) : Nat := v.vStart.toNat ^ 2 - v.vCut.toNat ^ 2

/-- E in mJ, rounded down (R323): C in µF, voltages in mV. -/
def usableMj (v : Vault) : Nat := 45 * v.cMeas.toNat * voltGap v / 10 ^ 11

/-- The dirty budget in units of 256 MiB before rounding and limit (R323). -/
def budgetUnits (nomNs k : Nat) (v : Vault) : Nat :=
  let num := 36 * v.cMeas.toNat * voltGap v * 2 ^ k - 100 * v.pDump.toNat * v.tFixed.toNat * nomNs
  let den := 100 * 2 ^ k * v.pDump.toNat * vaultNs v
  if den = 0 then 0 else 8 * num / den

/-- The dirty budget in bytes: a multiple of 1 GiB, or of 256 MiB below 1 GiB, at most 16 GiB (R323). -/
def budgetBytes (nomNs k : Nat) (v : Vault) : Nat :=
  let u := min 64 (budgetUnits nomNs k v)
  (if u < 4 then u else u / 4 * 4) * 2 ^ 28

/-- A new budget is in force: ceilings, Route Book and log follow (R325, R357). -/
def setBudget (s : State) (b : Nat) : State :=
  let s := updVlt s fun v => { v with budget := b, rate := BitVec.ofNat 32 (vaultRate v), eUsable := BitVec.ofNat 32 (usableMj v) }
  settle (recomputeCeil (rbChange (logErr s 0x0A10 .vault {} (b / 2 ^ 20))))

/-- The budget from the last C and V_start, the parameters and the rate. -/
def recomputeBudget (s : State) : State := setBudget s (budgetBytes s.tt.nomActive.toNat s.tt.kActive s.vlt)

/-- A measurement that does not complete: LEDGER_ERR with its code; the budget is 0 but for ABORTED (R325). -/
def ledgerFail (s : State) (code : Nat) : State :=
  let s := updVlt s fun v => { v with measuring := false, ledgerErr := true, ledgerCode := BitVec.ofNat 4 code }
  let s := logErr s 0x0A11 .vault {} code
  if code = 4 then s else setBudget s 0

/-- A usable image that is not released yet (R350). -/
def imageWaits (s : State) : Bool :=
  (s.vlt.areaA.usable && !s.vlt.areaA.released) || (s.vlt.areaB.usable && !s.vlt.areaB.released)

/-- The hold-up measurement of self-test ends: with a usable image the state becomes Recovering (R350, R468,
R483). -/
def measureEnds (s : State) : State :=
  if s.pwr.devState == .starting then
    let s := updPwr s fun p => { p with selfTestStep := 8 }
    if s.pwr.vaultChecked && imageWaits s then setDev s .recovering else s
  else s

/-- A measurement starts, or fails before its test (R322, R325). -/
def startMeasure (s : State) (vStart : Nat) : State :=
  if s.vlt.measuring then s
  else
    let s := updVlt s fun v => { v with vStart := BitVec.ofNat 17 vStart, huNow := BitVec.ofNat 17 vStart }
    if s.vlt.huItest = 0 || s.vlt.huDiv = 0 || s.vlt.pDump = 0 then measureEnds (ledgerFail s 1)
    else if vStart ≤ s.vlt.vCut.toNat then measureEnds (ledgerFail s 2)
    else if !s.vlt.ok0 && !s.vlt.ok1 then measureEnds (ledgerFail s 5)
    else
      let t := after s s.vlt.huTime.toNat
      emit (updVlt s fun v => { v with measuring := true, huDue := t, huLen := v.huTime.toNat }) (.huTest true)

/-- A measurement may start: on W0, in Ready and Recovering, and in Starting once the vault rate is known
(R322, R324). -/
def measureOk (s : State) : Bool :=
  onW0 s && (match s.pwr.devState with
    | .starting => s.pwr.vaultChecked
    | .recovering | .ready => true
    | _ => false)

/-- VLT_MEASURE (R322). -/
def execVltMeasure (vStart : Nat) (s : State) : Host.Outcome State Fault Refusal :=
  .next (if measureOk s then startMeasure s vStart else s)

/-- REMEASURE_DUE (R322): at a cycle edge that is a multiple of VLT_REMEASURE. -/
def execRemeasureDue (vStart : Nat) (s : State) : Host.Outcome State Fault Refusal :=
  .next (if measureOk s && s.pwr.devState != .starting && s.vlt.remeasure != 0 && s.tt.slot == 0 &&
      s.tt.cycle.toNat % s.vlt.remeasure.toNat == 0 then startMeasure s vStart else s)

/-- C in µF of a test of n slots (R322): current in mA, slot length from the nominal cycle in ns, voltages in mV. -/
def measuredC (s : State) (n vEnd : Nat) : Nat :=
  s.vlt.huItest.toNat * n * s.tt.nomActive.toNat / (2 ^ s.tt.kActive * (s.vlt.vStart.toNat - vEnd) * 1000)

/-- HU_TEST_END (R322, R323, R325). -/
def execHuTestEnd (vEnd : Nat) (s : State) : Host.Outcome State Fault Refusal :=
  .next (
    if !s.vlt.measuring || !due s s.vlt.huDue then s
    else
      let s := emit (updVlt s fun v => { v with measuring := false, huNow := BitVec.ofNat 17 vEnd }) (.huTest false)
      if s.vlt.vStart.toNat < vEnd + 250 then measureEnds (ledgerFail s 3)
      else if !s.vlt.ok0 && !s.vlt.ok1 then measureEnds (ledgerFail s 5)
      else
        let c := measuredC s s.vlt.huLen vEnd
        let s := updVlt s fun v =>
          { v with cMeas := BitVec.ofNat 32 c, ledgerValid := true, ledgerErr := false, ledgerCode := 0 }
        measureEnds (recomputeBudget s))

/-- VLT_LEDGER_PARAM_WRITE (R325): a write of VLT_V_CUT or VLT_P_DUMP. -/
def execVltLedgerParamWrite (pDump : Bool) (value : BitVec 32) (s : State) : Host.Outcome State Fault Refusal :=
  .next (recomputeBudget (updVlt s fun v =>
    if pDump then { v with pDump := value.truncate 24 } else { v with vCut := value.truncate 17 }))

/-- VAULT_RATE_MEASURE (R324): after the vault check of Starting. -/
def execVaultRateMeasure (ns0 ns1 : Nat) (s : State) : Host.Outcome State Fault Refusal :=
  .next (
    if s.pwr.devState == .starting && s.pwr.vaultChecked then
      updVlt s fun v =>
        let v := { v with ns0 := if v.ok0 then ns0 else 0, ns1 := if v.ok1 then ns1 else 0 }
        { v with rate := BitVec.ofNat 32 (vaultRate v) }
    else s)

/-- VAULT_SSD_CHANGE (R324, R325, R357). -/
def execVaultSsdChange (port : Nat) (usable : Bool) (ns0 ns1 : Nat) (s : State) : Host.Outcome State Fault Refusal :=
  .next (
    if 2 ≤ port || !s.pwr.vaultChecked || frozen s then s
    else
      let s := updVlt s fun v => if port = 0 then { v with ok0 := usable } else { v with ok1 := usable }
      let s := updVlt s fun v => { v with ns0 := if v.ok0 then ns0 else 0, ns1 := if v.ok1 then ns1 else 0 }
      let s := logErr s 0x0A30 .vault {} (port + vaultRate s.vlt * 2 ^ 8)
      if !s.vlt.ok0 && !s.vlt.ok1 then ledgerFail s 5 else recomputeBudget s)

/-! The patrol (R320, R321) -/

/-- A frame is retired, also past the 4,096 kept (R321). -/
def retireCounted (s : State) (fr : Nat) : State :=
  let s := retireFrame s fr
  if 4096 < s.cache.retired then logErr s 0x0A02 .directory {} fr else s

/-- The sealed record that pins a frame. -/
def sealedOf (s : State) (fr : Nat) : Option (Nat × JRec) :=
  s.journal.recs.find? fun r => r.2.sealed && r.2.entries.any fun e => e.frames.contains fr

/-- A line found uncorrectable is noted in its frame. -/
def noteLine (s : State) (fr line : Nat) : State :=
  updFrame s fr fun f =>
    { f with uncorr := true, badLines := if f.badLines.contains line then f.badLines else f.badLines ++ [line] }

/-- The effect of an uncorrectable line by the frame's state (R320); a dirty frame's block is a deferred error once (R196). -/
def uncorrectable (s : State) (fr line : Nat) : State :=
  let f := frameOf s fr
  if f.retired then s
  else
    match sealedOf s fr with
    | some (i, r) =>
      markResync (updRec (noteLine s fr line) i fun y => { y with resync := true }) r.group r.stripe
    | none =>
      if f.dirty then
        let s := updFrame s fr fun f =>
          { f with uncorr := true, poison := true, data := f.data.writeList (64 * line) (List.replicate 64 0),
                   badLines := f.badLines.filter (· != line) }
        match if f.uncorr then none else f.key with
        | some (v, l) => deferErr s v (((s.vols.find v).map fun x => x.group).getD 0) l 1 2
        | none => s
      else if 0 < f.pins then updFrame (noteLine s fr line) fr fun f => { f with retireLast := true }
      else retireCounted s fr

/-- PATROL_READ (R320, R321). -/
def execPatrolRead (frame line : Nat) (ecc : Ecc) (s : State) : Host.Outcome State Fault Refusal :=
  .next (
    if Config.frames ≤ frame || 64 ≤ line || !s.vlt.patrolEn || s.vlt.patrol = 0 || !onW0 s then s
    else
      match ecc with
      | .clean => s
      | .single => markFresh (updVlt s fun v => { v with eccCe := satInc v.eccCe }) .vlt 0x64 0 1
      | .double =>
        let s := markFresh (updVlt s fun v => { v with eccUe := satInc v.eccUe }) .vlt 0x68 0 1
        let s := logErr s 0x0A01 .directory {} (frame + line * 2 ^ 32)
        uncorrectable s frame line)

/-! Power failure (R345 to R349, R463, R477) -/

/-- The dump is over: VAULT_DONE_N is low and the state Vaulted (R347). -/
def vaulted (s : State) : State := setDev (driveDone s) .vaulted

/-- VAULT_DONE_N goes low in slot q + 1 (R349). DESIGN CHOICE (log entry 72): at once while the timetable is stopped, since no slot
then follows. -/
def doneSoon (s : State) : State := if s.tt.running then updVlt s fun v => { v with doneNext := true } else driveDone s

/-- DIRTY frames that no sealed record pins, in ascending number (R342). -/
def dirtySet (s : State) : List Nat :=
  (s.cache.frames.filter fun f => f.2.dirty && (sealedOf s f.1).isNone).map Prod.fst

/-- Busy inline buffers as SQID and buffer (R342). -/
def inlineSet (s : State) : List (Nat × Nat) :=
  (s.funcs.map fun f => (f.2.sqs.map fun q => q.2.inlineBusy.map fun b => (64 * f.1 + q.1, b)).flatten).flatten

/-- The image area a dump writes: the first that is not sealed (R341); none when both are, or no SSD is usable. -/
def dumpArea (s : State) : Option Bool :=
  if !s.vlt.ok0 && !s.vlt.ok1 then none
  else if !s.vlt.areaA.sealed then some false
  else if !s.vlt.areaB.sealed then some true
  else none

/-- The dump set taken at the freeze (R342, R345). -/
def takeDump (s : State) : Dump :=
  let recs := sealedRecs s
  let n := ((recBlocks s).length + 65535) / 65536
  let dirty := dirtySet s
  { areaB := (dumpArea s).getD false, seq := s.vlt.imgSeq + 1, step := .header, q := now s, recExtents := n,
    dirtyExtents := min ((dirty.length + 65535) / 65536) (78 - n), records := recs.map Prod.fst, dirtyFrames := dirty,
    inlines := inlineSet s, devState := s.pwr.devState.code, writes := (dumpArea s).isSome }

/-- The present section of the dump is issued to the usable SSDs of the vault. -/
def issueStep (s : State) : State :=
  match s.vlt.dump with
  | some d => emit s (.vaultWrite d.areaB d.step (if s.vlt.ok0 then stepBlocks s d 0 else []) (if s.vlt.ok1 then stepBlocks s d 1 else []))
  | none => s

/-- Change the area that the dump writes. -/
def updArea (s : State) (b : Bool) (g : Area → Area) : State :=
  updVlt s fun v => if b then { v with areaB := g v.areaB } else { v with areaA := g v.areaA }

/-- The first write of the header: the area is sealed from here on (R343, R344). -/
def startDump (s : State) : State :=
  match s.vlt.dump with
  | none => s
  | some d =>
    if !d.writes then s
    else
      let ids := (s.groups.map fun g => g.2.groupId)
      issueStep (updArea (updVlt s fun v => { v with imgSeq := d.seq, dump := some { d with held := false } }) d.areaB fun _ =>
        { sealed := true, seq := d.seq, inProgress := true, groupIds := ids })

/-- A channel at q: paused with cause FREEZE, its bytes in flight discarded (R411). -/
def freezeChan (x : Channel) : Channel :=
  match x.state with
  | .idle | .done => x
  | _ => { x with state := .paused, causes := x.causes ||| 0x20#6, inFlight := 0, ctx := none }

/-- What stops in the state update of q: admission, host DMA, engines, a measurement (R345). -/
def freeze (s : State) : State :=
  let s := if s.vlt.measuring then emit (ledgerFail s 4) (.huTest false) else s
  let s := abandonEntry s 0xFFFF
  let d := takeDump s
  { s with
    ctxs := [], locks := [], reads := []
    movers := s.movers.mapVal fun _ m => { m with chans := m.chans.mapVal fun _ x => freezeChan x }
    mports := s.mports.mapVal fun _ p => { p with cmds := p.cmds.mapVal fun _ c => { c with ctx := none } }
    adm := { s.adm with pfailStop := true }
    vlt := { s.vlt with pfail := true, dumping := true, dump := some d } }

/-- PFAIL_N is qualified (R345, R349, R477). -/
def pfailQualified (s : State) : State :=
  let mark := updVlt s fun v => { v with pfail := true }
  match s.pwr.devState with
  | .off | .vaulting | .vaulted => s
  | .held => if s.vlt.pfail then s else doneSoon mark
  | .starting => if s.pwr.vaultChecked then startDump (setDev (freeze s) .vaulting) else setDev (doneSoon mark) .vaulted
  | .recovering => startDump (setDev (freeze s) .vaulting)
  | .ready =>
    if 3 ≤ s.pwr.rung then vaulted mark
    else if s.pwr.rung = 0 then startDump (setDev (freeze s) .vaulting)
    else
      let s := startExit (freeze s)
      setDev (updVlt s fun v => { v with dump := v.dump.map fun d => { d with held := true } }) .vaulting

/-- PFAIL_QUALIFY. -/
def execPfailQualify (s : State) : Host.Outcome State Fault Refusal := .next (pfailQualified s)

/-- MEMBER_ABANDON (R346): at q + 131,072; the sections that waited for it are issued. -/
def execMemberAbandon (s : State) : Host.Outcome State Fault Refusal :=
  .next (match s.vlt.dump with
    | none => s
    | some d =>
      if d.abandoned || !due s (tsAdd s.tt.kActive d.q 131072) || s.pwr.devState != .vaulting then s
      else
        let s := s.mports.foldl (fun s p =>
          emitAll (updMport s p.1 fun x => { x with cmds := [] }) (p.2.cmds.map fun c => .memAbort p.1 c.1)) s
        let wait := d.held && d.step == .maps
        let s := updVlt s fun v => { v with dump := some { d with abandoned := true, held := d.held && !wait } }
        if !d.writes then vaulted s else if wait then issueStep s else s)

/-- The section behind one of a dump (R347). -/
def nextStep (d : Dump) : DumpStep :=
  let n := d.recExtents + d.dirtyExtents
  match d.step with
  | .header => .journal
  | .journal => .index
  | .index => .maps
  | .maps => if n = 0 then .trailer else .data 0
  | .data e => if e + 1 < n then .data (e + 1) else .trailer
  | .trailer => .final
  | .final => .flush
  | _ => .done

/-- A section of the dump is complete (R343, R347). -/
def dumpAdvance (s : State) (d : Dump) : State :=
  let s := if d.step == .final then updArea s d.areaB fun a => { a with inProgress := false, complete := true } else s
  let n := { d with step := nextStep d }
  let wait := n.step == .maps && !d.abandoned
  let s := updVlt s fun v => { v with dump := some { n with held := wait } }
  if n.step == .done then vaulted s else if wait then s else issueStep s

/-- DUMP_WRITE_COMPLETION (R347): every write of the present section has completed. -/
def execDumpWriteCompletion (s : State) : Host.Outcome State Fault Refusal :=
  .next (match s.vlt.dump with
    | none => s
    | some d => if d.held || !d.writes || s.pwr.devState != .vaulting then s else dumpAdvance s d)

/-- V_CUT_DETECT (R348): no new write; Flush, and VAULT_DONE_N when it completes or when no SSD is left. -/
def execVCutDetect (mv : Nat) (s : State) : Host.Outcome State Fault Refusal :=
  .next (match s.vlt.dump with
    | none => s
    | some d =>
      let s := updVlt s fun v => { v with huNow := BitVec.ofNat 17 mv }
      if s.pwr.devState != .vaulting || s.vlt.vcut || s.vlt.vCut.toNat ≤ mv then s
      else
        let s := updVlt s fun v => { v with vcut := true, dump := some { d with step := .flush, held := false } }
        if d.writes then issueStep s else vaulted s)

/-- REFCLK_LOSS (R30): the core domain and the timetable stop; a power failure. -/
def execRefclkLoss (s : State) : Host.Outcome State Fault Refusal :=
  .next (
    let s := pfailQualified s
    let s := if s.vlt.doneNext then driveDone s else s
    updTt (updPwr s fun p => { p with refclk := false }) fun t => { t with running := false })

/-- THERMAL_TRIP (R507): THERMTRIP_N goes low and stays low; PFAIL_N is treated as qualified. -/
def execThermalTrip (sensor : Nat) (reading : BitVec 16) (s : State) : Host.Outcome State Fault Refusal :=
  .next (
    if 12 ≤ sensor || s.pwr.devState == .off then s
    else
      let s := updPwr s fun p => { p with temps := p.temps.put sensor reading }
      if reading.msb || reading.toNat < 920 then s
      else
        let s := if s.pwr.thermtripLow then s else emit (updPwr s fun p => { p with thermtripLow := true }) (.thermtrip true)
        match s.pwr.devState with
        | .held => s
        | _ => pfailQualified s)

/-! The vault check and recovery (R344, R350 to R354) -/

/-- An area as the vault check finds it: sealed with a valid header that is not released; the release armed for an
image that cannot be restored takes effect with VLT_REL_N low (R344, R350, R354). -/
def areaFound (s : State) (f : ImageFound) : Area :=
  let usable := f.headerOk && f.snapshotOk && !f.released
  let freed := f.headerOk && !f.released && !usable && s.pwr.vltRelLow && s.pwr.armedRelease == some f.seq
  { sealed := f.headerOk && !f.released && !freed, seq := f.seq, released := f.released || freed, usable := usable,
    overLimit := f.overLimit, groupIds := f.groupIds }

/-- One image is judged. -/
def judgeImage (s : State) (f : ImageFound) : State :=
  let a := areaFound s f
  let s := updArea (updVlt s fun v => { v with imgSeq := if f.headerOk then max v.imgSeq f.seq else v.imgSeq }) f.areaB fun _ => a
  let s := if f.headerOk && !f.released && a.released then
      emit (updPwr s fun p => { p with armedRelease := none }) (.vaultReleased f.seq) else s
  if a.sealed && !a.usable then logErr s 0x0A32 .vault {} f.seq else s

/-- VAULT_CHECK (R350): in Starting, after self-test steps 1 to 7. -/
def execVaultCheck (ok0 ok1 : Bool) (images : List ImageFound) (s : State) : Host.Outcome State Fault Refusal :=
  .next (
    if s.pwr.devState != .starting || s.pwr.vaultChecked || s.pwr.selfTestStep < 7 then s
    else
      let s := updPwr (updVlt s fun v => { v with ok0 := ok0, ok1 := ok1 }) fun p => { p with vaultChecked := true }
      images.foldl judgeImage s)

/-- The content of restored blocks goes into frames; a ZERO_MASK entry makes a ZFILL frame (R351). -/
def fillRestored (s : State) (fr : Nat) (data : Memory) (zero : Bool) : State :=
  updFrame s fr fun f => { f with data := if zero then Memory.zero else data, zfill := zero }

/-- Frames of a restored entry, pinned by it and mapped to no block. -/
def restoreEntry (s : State) (e : ImageEntry) : JEntry × State :=
  match allocFrames e.blocks.length 0 (fun _ m => { data := m, pins := 1, prot := true, rdonly := true }) s with
  | none => ({ index := e.index, lba := e.lba, frames := [], stage := true }, s)
  | some (frs, s) =>
    ({ index := e.index, lba := e.lba, frames := frs, stage := true },
     (frs.zip e.blocks).foldl (fun s x => fillRestored s x.1 x.2 e.zero) s)

/-- Restore the entries of a record. -/
def restoreEntries : List ImageEntry → State → List JEntry × State
  | [], s => ([], s)
  | e :: es, s =>
    let (x, s) := restoreEntry s e
    let (xs, s) := restoreEntries es s
    (x :: xs, s)

/-- A sealed record of the snapshot becomes a record of the journal (R351, R352). -/
def restoreRec (s : State) (r : ImageRecord) : State :=
  let (es, s) := restoreEntries r.entries s
  let bad := r.resync || r.entries.any fun e => !e.restored || e.uncorr
  let x : JRec :=
    { sealed := true, group := r.group, stripe := r.stripe, generation := r.generation, vol := none, ctx := none, openTs := now s,
      sealTs := now s, entries := es, resync := bad, restored := true }
  let s := (addRec s x).2
  let s := { s with journal := { s.journal with nextGen := max s.journal.nextGen (r.generation + 1) } }
  if bad then markResync s r.group r.stripe else s

/-- The stripe of a volume block. -/
def blockStripe (s : State) (vol lba : Nat) : Option (Nat × Nat) :=
  (s.vols.find vol).bind fun v => (s.groups.find v.group).map fun g => (v.group, (stripeOf g v lba).1)

/-- A block whose data was not restored is poison-marked (R352). -/
def markBlock (s : State) (x : Nat × Nat) : State :=
  match blockStripe s x.1 x.2 with
  | some (g, st) => movePoison s g st x.1 x.2
  | none => updCache s fun c => { c with poisonList := if c.poisonList.contains x then c.poisonList else c.poisonList ++ [x] }

/-- Insert a block in ascending order of volume and LBA, once. -/
def insertBlock (x : Nat × Nat) : List (Nat × Nat) → List (Nat × Nat)
  | [] => [x]
  | y :: t => if x = y then y :: t else if x.1 < y.1 || (x.1 == y.1 && x.2 < y.2) then x :: y :: t else y :: insertBlock x t

/-- Blocks whose data was not restored: one deferred error with cause 2 for each run, and a poison mark for each block (R196,
R352). -/
def lostBlocks (s : State) (l : List (Nat × Nat)) : State :=
  let l := (l.filter fun x => (s.vols.find x.1).isSome).foldr insertBlock []
  let s := (runsOf l).foldl (fun s r => deferErr s r.1 (((s.vols.find r.1).map fun v => v.group).getD 0) r.2.1 r.2.2 2) s
  l.foldl markBlock s

/-- A dirty frame or inline buffer of an image becomes a DIRTY frame, and the newer image's block replaces the older's (R351); a
block that was not restored, or finds no frame, is left for R352. -/
def restoreBlock (r : State × List (Nat × Nat)) (b : ImageBlock) : State × List (Nat × Nat) :=
  if !b.restored then (r.1, (b.vol, b.lba) :: r.2)
  else
    match allocFrame r.1 (fun m => { data := m, prot := true }) with
    | none => (r.1, (b.vol, b.lba) :: r.2)
    | some (fr, s) =>
      let s := mapDirty (fillRestored s fr b.data false) fr b.vol b.lba
      (updFrame s fr fun f => { f with pi := b.pi, poison := b.poison, age := BitVec.ofNat 32 b.age }, r.2)

/-- The records and blocks of an image are restored; blocks that could not be are lost (R351, R352). -/
def placeImage (s : State) (records : List ImageRecord) (blocks : List ImageBlock) : State :=
  let r := blocks.foldl restoreBlock (records.foldl restoreRec s, [])
  lostBlocks r.1 r.2

/-- A lost-stripe map entry of an image. -/
def lostOf (x : Nat × Nat × Nat × Option Nat × Nat × Word) : Lost :=
  { group := x.1, stripe := x.2.1, cause := x.2.2.1, vol := x.2.2.2.1, erased := BitVec.ofNat 32 x.2.2.2.2.1, ts := x.2.2.2.2.2 }

/-- The maps and the deferred-error log of an image are merged (R351). The log is kept whole, with its sequence numbers (R206);
DESIGN CHOICE (log entry 71): entries that a log already holds stay, and the other entries of a second image follow them. -/
def mergeMaps (s : State) (m : ImageMaps) : State :=
  let lost := m.lost.foldl (fun l x => if l.any fun y => y.group == x.1 && y.stripe == x.2.1 then l else insertLost (lostOf x) l)
    s.mem.lost
  let def_ := m.deferred.map fun x =>
    ({ vol := x.1, cause := x.2.1, group := x.2.2.1, ts := x.2.2.2.1, lba := x.2.2.2.2.1, count := x.2.2.2.2.2 } : DefEnt)
  let fresh := def_.filter fun e => !s.defLog.contains e
  { s with
    mem := { s.mem with lost := lost }
    cache := { s.cache with poisonList := s.cache.poisonList ++ m.poison.filter fun p => !s.cache.poisonList.contains p }
    defLog := (fresh ++ s.defLog).take Config.logCapacity
    defSeq := if s.defLog.isEmpty then max s.defSeq m.deferredSeq else s.defSeq + fresh.length }

/-- Every volume of the groups that an image names carries a whole-volume deferred error (R352). -/
def deferGroups (s : State) (ids : List Nat) : State :=
  (s.vols.filter fun v => match s.groups.find v.2.group with
      | some g => ids.contains g.groupId
      | none => false).foldl (fun s v => deferErr s v.1 v.2.group 0 wholeVolume 2) s

/-- The area that holds an image. -/
def areaOf (s : State) (seq : Nat) : Option (Bool × Area) :=
  if s.vlt.areaA.seq = seq && s.vlt.areaA.usable then some (false, s.vlt.areaA)
  else if s.vlt.areaB.seq = seq && s.vlt.areaB.usable then some (true, s.vlt.areaB)
  else none

/-- A usable image of a lower number satisfies a test. -/
def lowerImages (s : State) (seq : Nat) (p : Area → Bool) : Bool :=
  [s.vlt.areaA, s.vlt.areaB].all fun a => !a.usable || seq ≤ a.seq || p a

/-- Which blocks of the record extents of an image were restored, in the order of R342. -/
def recordMarks (records : List ImageRecord) : List Bool :=
  (records.map fun r => ((r.entries.filter fun e => !e.zero).map fun e => List.replicate e.blocks.length e.restored).flatten).flatten

/-- The first extent of 65,536 blocks with a block that was not restored. -/
def unmarkedIn (l : List Bool) : Option Nat := (l.findIdx? fun b => !b).map fun i => i / 65536

/-- The first unmarked extent of an image, the extent past the limit behind the others; none when it is complete (R352, R357). -/
def firstUnmarked (records : List ImageRecord) (blocks : List ImageBlock) (sealed : Bool) : Option Nat :=
  let m := recordMarks records
  ((unmarkedIn m).orElse fun _ => (unmarkedIn (blocks.map fun b => b.restored)).map fun e => (m.length + 65535) / 65536 + e).orElse
    fun _ => if sealed then some 78 else none

/-- IMAGE_RESTORE (R351, R352): in Recovering, in ascending IMAGE_SEQ. -/
def execImageRestore (seq : Nat) (records : List ImageRecord) (blocks : List ImageBlock) (maps : ImageMaps) (s : State) :
    Host.Outcome State Fault Refusal :=
  .next (match areaOf s seq with
    | none => s
    | some (b, a) =>
      if s.pwr.devState != .recovering || a.restored || !lowerImages s seq fun x => x.restored then s
      else
        let s := placeImage (mergeMaps s maps) records blocks
        let s := if a.overLimit then deferGroups s a.groupIds else s
        let s := match firstUnmarked records blocks a.overLimit with
          | some e => logErr s 0x0A31 .vault {} (seq % 2 ^ 56 + e * 2 ^ 56)
          | none => s
        rbChange (updArea s b fun a => { a with restored := true, errorsDone := true }))

/-- A record's group has assembled. -/
def recReady (s : State) (r : JRec) : Bool :=
  match s.groups.find r.group with
  | some g => g.assembly == .assembled || g.assembly == .repairing
  | none => false

/-- Restored sealed records of assembled groups, in ascending GENERATION (R353). -/
def replayable (s : State) : List (Nat × JRec) := (sealedRecs s).filter fun r => r.2.restored && !r.2.replaying && recReady s r.2

/-- JOURNAL_REPLAY (R353). -/
def execJournalReplay (s : State) : Host.Outcome State Fault Refusal :=
  .next (
    if frozen s then s
    else
      match s.pwr.devState with
      | .recovering | .ready => (replayable s).foldl (fun s r => replayRec s r.1) s
      | _ => s)

/-- IMAGE_RELEASE (R354). -/
def execImageRelease (seq : Nat) (s : State) : Host.Outcome State Fault Refusal :=
  .next (match areaOf s seq with
    | none => s
    | some (b, a) =>
      if a.restored && a.errorsDone && !a.released && !frozen s && lowerImages s seq (fun x => x.released) then
        emit (updArea s b fun a => { a with released := true, sealed := false }) (.vaultReleased seq)
      else s)

end Sys2Proof.Machine
end

