-- ==== Sys2Proof/Machine/Power.lean ====
section
/-! DEFINITION. Rails, VAUX, DEV_RST_N, boot, self-test, the entry to Ready, and the commits and exits of the ladder (R42, R90,
R95, R205, R341, R354, R358, R455, R460 to R469, R475 to R486, R502). -/

namespace Sys2Proof.Machine

/-! The return to Off (R463, R464, R466) -/

/-- What lasts in the always-on domain over every return to Off: non-volatile stores, straps, rails and the state of the
supply watch. PWR_VAUX goes to its reset value (R8, R487). -/
def keptPower (p : Power) : Power :=
  { railEn := p.railEn, railPg := p.railPg, seqDir := some false, vauxOk := p.vauxOk, rstCause := p.rstCause,
    supplyLock := p.supplyLock, nvInhibit := p.nvInhibit, testEn := p.testEn, strapG0 := p.strapG0, strapG1 := p.strapG1,
    mgmtI3c := p.mgmtI3c, devRstHigh := p.devRstHigh, vltRelLow := p.vltRelLow, refclk := p.refclk,
    armedRelease := p.armedRelease, hbmTrained := p.hbmTrained, slotA := p.slotA, slotB := p.slotB, preferB := p.preferB,
    bootSeq := p.bootSeq, otp := p.otp, tags := p.tags, tagCount := p.tagCount, tagWorn := p.tagWorn, temps := p.temps }

/-- A volume of the table when the part starts again: nothing of a command in progress is left, the writing of its PI included (log
entry 52). -/
def keptVolume (v : Volume) : Volume :=
  { v with fill := none, deleteWait := none, detachWait := [], blkRead := 0, blkWritten := 0, cmdExpress := 0, cmdStandard := 0, cmdBulk := 0,
           expTokens := 0 }

/-- Every register and buffer of the switched rails at its reset value; the volume table stays (log entry 10). -/
def coldState (s : State) (p : Power) : State :=
  { State.reset with
    pwr := p, vols := s.vols.mapVal fun _ v => keptVolume v, out := s.out, freeCtr := s.freeCtr, seqCtr := s.seqCtr,
    pending := s.pending }

/-- Outputs go to their reset state (R466, R495). -/
def outputsOff (s : State) : State :=
  let s := (s.mports.filter fun p => p.2.mperstHigh).foldl (fun s p => emit s (.mperst p.1 false)) s
  let s := (s.ports.filter fun p => p.2.hwakeLow).foldl (fun s p => emit s (.hwake p.1 false)) s
  let s := if s.pwr.vaultDoneLow then emit s (.vaultDone false) else s
  let s := if s.pwr.thermtripLow then emit s (.thermtrip false) else s
  let s := if s.vlt.measuring then emit s (.huTest false) else s
  ttcDrive s false

/-- The state becomes Off for a cause of PWR_RST_CAUSE, with the HELD_CODE in force (R487). -/
def toOff (s : State) (cause : Nat) : State :=
  let s := outputsOff s
  let p := keptPower s.pwr
  coldState s { p with rstCause := BitVec.ofNat 32 (cause + s.pwr.heldCode.toNat * 2 ^ 8) }

/-! DEV_RST_N (R466, R469, R502) -/

/-- Whether a low pulse of a number of ticks is taken as a reset (R502). -/
def pulseTaken (s : State) (ticks : Nat) : Bool :=
  if ticks ≤ 25 then false else if 250 ≤ ticks then true else Config.pulseIsReset s.freeCtr

/-- Always-on retention that DEV_RST_N clears goes; a return from another state to Off is recorded. -/
def resetDevice (s : State) : State :=
  if s.pwr.devState == .off then coldState (outputsOff s) (keptPower s.pwr) else toOff s 2

/-- DEV_RST_ASSERT (R466): DEV_RST_N is low for a number of ticks. -/
def execDevRstAssert (ticks : Nat) (s : State) : Host.Outcome State Fault Refusal :=
  .next (
    let taken := pulseTaken s ticks
    let s := { s with freeCtr := s.freeCtr + 1 }
    if taken then updPwr (resetDevice s) fun p => { p with devRstHigh := false } else s)

/-- Ports of a group of 16 host lanes by its strap, with their widths (R90). -/
def strapPorts (g : Nat) (strap : BitVec 2) : List (Nat × Nat) :=
  if strap = 0 then [(4 * g, 16)]
  else if strap = 1 then [(4 * g, 8), (4 * g + 1, 8)]
  else if strap = 2 then [(4 * g, 4), (4 * g + 1, 4), (4 * g + 2, 4), (4 * g + 3, 4)]
  else []

/-- The ports and their PFs as the straps give them. -/
def makePorts (s : State) : State :=
  (strapPorts 0 s.pwr.strapG0 ++ strapPorts 1 s.pwr.strapG1).foldl (fun s p =>
    { s with ports := s.ports.put p.1 { widthMax := p.2 }, funcs := s.funcs.put (64 * p.1) { exists_ := true } }) s

/-- VAULT_MODE of the BOARD record; an empty record gives mirrored (R341). -/
def boardStriped (s : State) : Bool := tagType s 2 == 3 && (tagField s 2 0x28 4).testBit 0

/-- DEV_RST_N rises with VAUX released: the ports are laid out, the vault mode is loaded, the rail sequence starts. -/
def riseReset (s : State) : State :=
  let s := makePorts { s with ports := [], funcs := [] }
  let s := updVlt s fun v => { v with striped := boardStriped s }
  updPwr s fun p => { p with seqDir := some true, supplyLock := false }

/-- DEV_RST_DEASSERT (R469, R497, R502): a strap that changes in its window is sampled as an undefined value; with TEST_EN
high the part enters no device state. -/
def execDevRstDeassert (g0 g1 : Option (BitVec 2)) (mgmt : Option Bool) (pins : RstPins) (s : State) :
    Host.Outcome State Fault Refusal :=
  .next (
    if s.pwr.devRstHigh || s.pwr.devState != .off then s
    else
      let (w, s) := drawFree s
      let s := updPwr s fun p =>
        { p with devRstHigh := true, strapG0 := g0.getD (w.extractLsb' 0 2), strapG1 := g1.getD (w.extractLsb' 2 2),
                 mgmtI3c := mgmt.getD (w.getLsbD 4), vltRelLow := !pins.relN, testEn := pins.testEn }
      if s.pwr.vauxOk && !pins.testEn then riseReset s else s)

/-! The rail sequence (R460 to R463) -/

/-- Rail i as a bit of PWR_RAIL. -/
def railBit (i : Nat) : BitVec 9 := BitVec.ofNat 9 (2 ^ i)

/-- The lowest rail that is off. -/
def nextOn (p : Power) : Option Nat := (List.range 9).find? fun i => !p.railEn.getLsbD i

/-- The highest rail that is on. -/
def nextOff (p : Power) : Option Nat := (List.range 9).reverse.find? fun i => p.railEn.getLsbD i

/-- RAIL_ENABLE_STEP (R462): power-good of the rail before was seen high 2,500 ticks ago, or the next rail falls. -/
def execRailEnableStep (s : State) : Host.Outcome State Fault Refusal :=
  .next (match s.pwr.seqDir with
    | none => s
    | some true =>
      (match nextOn s.pwr with
        | none => s
        | some i => emit (updPwr s fun p =>
            { p with railEn := p.railEn ||| railBit i, railPg := if i = 0 then p.railPg else p.railPg ||| railBit (i - 1) }) (.rail i true))
    | some false =>
      (match nextOff s.pwr with
        | none => updPwr s fun p => { p with seqDir := none, railPg := 0 }
        | some i => emit (updPwr s fun p =>
            { p with railEn := p.railEn &&& ~~~ railBit i, railPg := p.railPg &&& ~~~ railBit i,
                     seqDir := if i = 0 then none else p.seqDir }) (.rail i false)))

/-- A supply fault of a rail: recorded, and no new start before the next DEV_RST_N (R462). -/
def supplyFault (s : State) (rail : Nat) : State :=
  updPwr s fun p =>
    { p with supplyLock := true, seqDir := some false,
             rstCause := (p.rstCause &&& 0xFF07#32) ||| BitVec.ofNat 32 (8 + rail % 16 * 16) }

/-- SUPPLY_FAULT_TIMEOUT (R462). -/
def execSupplyFaultTimeout (rail : Nat) (s : State) : Host.Outcome State Fault Refusal :=
  .next (if s.pwr.seqDir == some true && decide (rail < 9) && s.pwr.railEn.getLsbD rail && !s.pwr.railPg.getLsbD rail then
      supplyFault s rail else s)

/-- POWER_SEQUENCE_COMPLETE (R34, R57, R468): the timetable starts at slot 0 of cycle 0 and the device is Starting. -/
def execPowerSequenceComplete (s : State) : Host.Outcome State Fault Refusal :=
  .next (
    if s.pwr.seqDir == some true && s.pwr.railEn == 0x1FF#9 && s.pwr.devState == .off then
      let t := after s (20 * slotsOf s.tt.kActive)
      let s := updPwr s fun p => { p with seqDir := none, railPg := 0x1FF#9, crsDue := t }
      setDev (ttcPulse (updTt s fun t => { t with running := true })) .starting
    else s)

/-- POWER_GOOD_FALL (R463): VIO and SerDes rails count as a power failure, the others end in Off. -/
def execPowerGoodFall (rail : Nat) (s : State) : Host.Outcome State Fault Refusal :=
  .next (
    if s.pwr.seqDir.isSome || s.pwr.devState == .off || 9 ≤ rail || !s.pwr.railEn.getLsbD rail then s
    else
      let s := updPwr s fun p => { p with railPg := p.railPg &&& ~~~ railBit rail }
      if rail = 0 || rail = 3 || rail = 4 || rail = 5 then pfailQualified s
      else supplyFault (toOff s 0) rail)

/-! VAUX (R464, R465) -/

/-- VAUX_BELOW_INHIBIT (R464). -/
def execVauxBelowInhibit (mv : BitVec 12) (s : State) : Host.Outcome State Fault Refusal :=
  .next (updPwr s fun p => { p with vauxMv := mv, nvInhibit := p.nvInhibit || decide (mv.toNat < 1650) })

/-- VAUX_INHIBIT_CLEAR (R464). -/
def execVauxInhibitClear (mv : BitVec 12) (s : State) : Host.Outcome State Fault Refusal :=
  .next (updPwr s fun p => { p with vauxMv := mv, nvInhibit := p.nvInhibit && decide (mv.toNat ≤ 1680) })

/-- VAUX_BROWNOUT (R464): the always-on domain is reset and every rail drops. -/
def execVauxBrownout (mv : BitVec 12) (s : State) : Host.Outcome State Fault Refusal :=
  .next (
    if 1550 ≤ mv.toNat then updPwr s fun p => { p with vauxMv := mv }
    else
      updPwr (toOff s 4) fun p =>
        { p with railEn := 0, railPg := 0, seqDir := none, vauxOk := false, vauxMv := mv, nvInhibit := true,
                 armedRelease := none, hbmTrained := false, supplyLock := false })

/-- VAUX_RELEASE (R464, R487, R502): DEV_RST_N held high counts as rising at the release. -/
def execVauxRelease (mv : BitVec 12) (s : State) : Host.Outcome State Fault Refusal :=
  .next (
    if s.pwr.vauxOk || mv.toNat ≤ 1600 then s
    else
      let s := updPwr s fun p => { p with vauxOk := true, vauxMv := mv, rstCause := p.rstCause ||| 1#32 }
      if s.pwr.devRstHigh && !s.pwr.testEn then riseReset s else s)

/-! Held, self-test and boot (R479 to R485) -/

/-- The state becomes Held: member ports are in reset, and no write is issued (R484, R485). -/
def enterHeld (s : State) (code detail : Nat) : State :=
  let s := s.mports.foldl (fun s p =>
    let s := updMport s p.1 fun x => { x with mperstHigh := false, linkUp := false }
    if p.2.mperstHigh then emit s (.mperst p.1 false) else s) s
  setDev (updPwr s fun p => { p with heldCode := BitVec.ofNat 8 code, heldDetail := BitVec.ofNat 32 detail }) .held

/-- HELD_CODE of a self-test step (R483, R484). -/
def stepCode (step : Nat) : Nat :=
  match step with
  | 1 => 0x10 | 2 => 0x20 | 3 => 0x21 | 4 => 0x30 | 5 => 0x31 | 6 => 0x40 | _ => 0x50

/-- SELF_TEST_STEP_DONE (R483): steps 1 to 7 in order, 4 and 5 by firmware that runs; step 8 is the hold-up measurement. -/
def execSelfTestStepDone (step : Nat) (failed : Option (BitVec 32)) (s : State) : Host.Outcome State Fault Refusal :=
  .next (
    if s.pwr.devState != .starting || step != s.pwr.selfTestStep + 1 || 8 ≤ step ||
        ((step == 4 || step == 5) && !s.pwr.fwStarted) then s
    else
      match failed with
      | some d => enterHeld s (stepCode step) d.toNat
      | none => updPwr s fun p => { p with selfTestStep := step, hbmTrained := p.hbmTrained || step == 2 })

/-- Why the boot ROM refuses a slot; 0 when it accepts it (R481, R484). -/
def slotReason (otp : Nat) (x : SlotImage) : Nat :=
  if !x.readOk then 4 else if !x.magicOk then 1 else if !x.sigOk then 2 else if x.svn < otp then 3 else 0

/-- Program n of the route library: its routes are those of R281, the rest is not printed: code, entries, budgets and hashes
are free (log entry 2). DESIGN CHOICE (log entry 70): it has no constants, no image bytes and no Express lines. -/
def libraryProgram (n : Nat) (x : SlotImage) : Program :=
  let h : Nat → HandlerKind → HandlerEnt := fun k kind =>
    { entry := Config.libraryEntry n k, budget := Config.libraryBudget n k, kind := kind }
  let route : Nat → Nat → Route := fun id map =>
    { id := id, layout := false, groupMaint := true, map := map, fault := some 11, ops := (List.range 6).map some,
      destage := some 6, rebuild := some 7, scrub := some 8, zero := some 9, label := some 10, build := none }
  let layout : Nat → Nat → Route := fun id k =>
    { id := id, layout := true, groupMaint := true, map := k, fault := none, ops := List.replicate 6 none, destage := none,
      rebuild := none, scrub := none, zero := none, label := none, build := some (k + 2) }
  if n = 0 then
    { code := Config.libraryCode 0, handlers := [h 0 .map, h 1 .map, h 2 .maint, h 3 .maint], routes := [layout 1 0, layout 2 1],
      version := x.version, hash := Config.libraryHash 0 }
  else
    { code := Config.libraryCode 1,
      handlers := (List.range 6).map (fun k => h k .opcode) ++ (List.range 5).map (fun k => h (k + 6) .maint) ++ [h 11 .fault],
      routes := [route 0x11 1, route 0x12 2], version := x.version, hash := Config.libraryHash 1 }

/-- Firmware loads the board configuration record (R322, R358, R451). -/
def loadBoard (s : State) : State :=
  if tagType s 2 != 3 then s
  else
    let f : Nat → Nat := fun off => tagField s 2 (0x10 + off) 4
    let s := updVlt s fun v =>
      { v with huItest := BitVec.ofNat 16 (f 0), huDiv := BitVec.ofNat 16 (f 4), vCut := BitVec.ofNat 17 (f 8),
               pDump := BitVec.ofNat 24 (f 12) }
    setQuads s (BitVec.ofNat 32 (f 16)) (BitVec.ofNat 32 (f 20))

/-- Firmware of an accepted slot runs and loads the route library (R281, R481). -/
def startFirmware (s : State) (slotB : Bool) (x : SlotImage) : State :=
  let t := after s (3000 * slotsOf s.tt.kActive)
  let s := loadBoard (updPwr s fun p =>
    { p with bootSlotB := slotB, bootSvn := BitVec.ofNat 8 x.svn, fwStarted := true, fwBeat := false, fwDue := t })
  if x.libraryRefused = 0 then
    { s with progs := { s.progs with loaded := [(0, libraryProgram 0 x), (1, libraryProgram 1 x)] } }
  else enterHeld s 0x12 (x.libraryAt + x.libraryRefused * 2 ^ 8)

/-- BOOT_LOAD (R481, R484): the preferred slot first, then the other. -/
def execBootLoad (a b : SlotImage) (preferB otpOk : Bool) (s : State) : Host.Outcome State Fault Refusal :=
  .next (
    if s.pwr.devState != .starting || s.pwr.fwStarted || s.pwr.selfTestStep = 0 then s
    else if !otpOk then enterHeld s 0x60 0
    else
      let s := updPwr s fun p => { p with slotA := some a, slotB := some b, preferB := preferB }
      let ra := slotReason s.pwr.otp a
      let rb := slotReason s.pwr.otp b
      let first := if preferB then rb else ra
      let second := if preferB then ra else rb
      let s := updPwr s fun p =>
        { p with bootAOk := ra == 0 && (!preferB || rb != 0), bootBOk := rb == 0 && (preferB || ra != 0) }
      if first = 0 then startFirmware s preferB (if preferB then b else a)
      else if second = 0 then
        let why := if preferB then rb * 16 else ra
        let s := logErr (updPwr s fun p => { p with bootFallback := true }) 0x0E10 .alwaysOn {} why
        startFirmware s (!preferB) (if preferB then a else b)
      else enterHeld s 0x11 (ra + rb * 16))

/-- FW_START_TIMEOUT (R468). -/
def execFwStartTimeout (s : State) : Host.Outcome State Fault Refusal :=
  .next (if s.pwr.devState == .starting && s.pwr.fwStarted && !s.pwr.fwBeat && due s s.pwr.fwDue then enterHeld s 0x13 0 else s)

/-! Ready (R355, R455, R468, R482) -/

/-- The anti-rollback fuses follow the running image (R465, R482). -/
def blowFuses (s : State) : State :=
  let old := s.pwr.otp
  let svn := min 64 s.pwr.bootSvn.toNat
  if svn ≤ old then s
  else if s.pwr.nvInhibit then logErr (updPwr s fun p => { p with otpPending := true }) 0x0E12 .alwaysOn {} 2
  else
    logErr (emit (updPwr s fun p => { p with otp := svn, otpPending := false }) (.fuse svn)) 0x0E11 .alwaysOn {} (old + svn * 2 ^ 8)

/-- Start-up or recovery has ended (R355, R468). -/
def readyNow (s : State) : Bool :=
  !frozen s && (match s.pwr.devState with
    | .starting => s.pwr.fwStarted && s.pwr.vaultChecked && s.pwr.selfTestStep == 8 && !imageWaits s
    | .recovering => !imageWaits s && (replayable s).isEmpty
    | _ => false)

/-- ENTER_READY (R468). -/
def execEnterReady (s : State) : Host.Outcome State Fault Refusal :=
  .next (
    if !readyNow s then s
    else
      let t := now s
      let s := setDev s .ready
      let s := { s with fare := { s.fare with originTs := t, running := true }, vols := s.vols.mapVal fun _ v => keptVolume v }
      recomputeCeil (blowFuses s))

/-! The commit slot (R205, R472) -/

/-- The entry at the head of a PF's admin completion ring is issued in the present slot with its interrupt message (R165, R205).
DESIGN CHOICE (log entry 64): the event is not held back by IV_COUNT, IV_DELAY or the slot that R165 gives it, since L1 follows it;
where the ring is full or the function may not send, the entry waits as any other. -/
def issueNow (s : State) (f : Nat) : State :=
  match fnOf s f with
  | none => s
  | some fn =>
    match (fn.sqs.find 0).bind fun x => (fn.cqs.find x.cqSlot).map fun q => (x.cqSlot, q) with
    | some (slot, q) =>
      match q.ready with
      | r :: _ =>
        if upstreamOk s fn && q.hasRoom then
          let s := endIssue (issueEntry s f slot q r) f slot q.pi
          signalFn (updCq s f slot fun q => { q with unsignalled := 0, evDue := true }) f
        else s
      | [] => s
    | none => s

/-- A SET_POWER that waits completes, and its entry is issued at once (R205). -/
def powerSet (s : State) (a : AdminCmd) : State := issueNow (adminDone s a .success false) (64 * a.port)

/-- The rung is reached: SET_POWER completes first, then gating and rails, and the links go to L1 when its entry and message have
been issued (R205, R472). -/
def commitRung (s : State) (t : Nat) : State :=
  let s := if targetRung s = t then
      let w := s.pwr.setWaiters
      w.foldl powerSet (updPwr s fun p => { p with setWaiters := [] })
    else s
  let from_ := s.pwr.rung
  let s := if 3 ≤ t then layUp s t else if t = 2 then losePush s else s
  let s := markFresh (updPwr s fun p => { p with rung := t, entry := none, cntEntry := satInc p.cntEntry }) .pwr 0x20 0 1
  let s := logErr s 0x0E01 .alwaysOn {} (from_ + t * 2 ^ 8 + s.pwr.exitLast.toNat * 2 ^ 32)
  if s.funcs.any fun f => f.2.cqs.any fun q => !q.2.ready.isEmpty then s else emit s (.linkL1 t)

/-- RUNG_COMMIT (R204, R472): an entry whose target has become shallower meanwhile is abandoned. -/
def execRungCommit (s : State) : Host.Outcome State Fault Refusal :=
  .next (match s.pwr.entry with
    | none => s
    | some t =>
      if !prepared s t then s
      else if targetRung s < t then abandonEntry s 0xFFFF
      else commitRung s t)

/-! Exits of the ladder (R42, R476, R477) -/

/-- The exit point of W1 or W2: dispatch goes on; a dump that waits starts. -/
def exitShallow (s : State) : State :=
  let from_ := s.pwr.rung
  let n := BitVec.ofNat 32 (since s s.pwr.wakeTs)
  let s := updPwr s fun p => { p with rung := 0, exiting := false, exitLast := n, idle := 0 }
  let s := sendLtr (logErr (restorePush s) 0x0E01 .alwaysOn {} (from_ + n.toNat * 2 ^ 32)) 0
  match s.vlt.dump with
  | some d => if d.held && d.step == .header then startDump s else s
  | none => s

/-- The exit point of W3 or W4: rails are up, the timetable runs again from its slot 0, and the restore begins (R34, R42,
R129). DESIGN CHOICE (log entry 64): no other action of the cycle edge is taken at that slot 0. -/
def exitDeep (s : State) (elapsed cycles : Nat) : State :=
  let from_ := s.pwr.rung
  let n := BitVec.ofNat 32 elapsed
  let s := updPwr s fun p =>
    { p with rung := 0, exiting := false, restoring := true, exitLast := n, idle := 0, railEn := 0x1FF#9, railPg := 0x1FF#9 }
  let s := updTt s fun t =>
    { t with running := true, slot := 0, cycle := t.cycle + BitVec.ofNat 44 cycles, cntEst := true, lock := .free, ttFree := true,
             ttHoldover := false, slewing := false, lastEdge := none, runPeriods := [], missed := 0, fromHoldover := false,
             holdNominal := false }
  sendLtr (logErr (ttcPulse (openSlot (restorePush s))) 0x0E01 .alwaysOn {} (from_ + n.toNat * 2 ^ 32)) 0

/-- RUNG_EXIT_POINT (R42, R476, R477): elapsed ticks and whole cycles, counted on the crystal, of a W3 or W4 exit. -/
def execRungExitPoint (elapsed cycles : Nat) (s : State) : Host.Outcome State Fault Refusal :=
  .next (
    if !s.pwr.exiting then s
    else if s.pwr.rung < 3 then exitShallow s
    else if s.pwr.devState != .ready then s
    else exitDeep s elapsed cycles)

/-- The restore has found another image: the part starts again from the boot ROM on, host links kept (R476). The TT_ registers
stay, since only DEV_RST_N returns them (R57). -/
def restartFirmware (s : State) : State :=
  let p := { s.pwr with
    restoring := false, layupDigest := false, selfTestStep := 1, fwStarted := false, fwBeat := false, vaultChecked := false,
    setWaiters := [], entry := none, busySeen := false, otpPending := false }
  let t := coldState s p
  let t := { t with ports := s.ports, funcs := s.funcs.mapVal fun _ fn => resetFunc fn false
                    tt := { s.tt with waiters := [], latchNow := [], latchMirror := [], latchCore := [] }
                    vlt := { t.vlt with striped := s.vlt.striped } }
  setDev (logErr t 0x0E03 .alwaysOn {} 0) .starting

/-- LAYUP_RESTORE_END (R476): every member that was put down has been brought up or has failed. -/
def execLayupRestoreEnd (digestOk : Bool) (ticks : BitVec 32) (s : State) : Host.Outcome State Fault Refusal :=
  .next (
    if !s.pwr.restoring || s.pwr.devState != .ready then s
    else if !digestOk then restartFirmware s
    else if s.mports.any fun p => p.2.down && !p.2.contained then s
    else rbChange (updPwr s fun p => { p with restoring := false, restoreLast := ticks, layupDigest := false }))

end Sys2Proof.Machine
end

