-- ==== Sys2Proof/Machine/RegWords.lean ====
section
/-! DEFINITION. The values that status registers show (R57, R89, R100, R171, R356, R398, R425, R427, R439, R445,
R454, R487). Registers whose value is a field of the state are read in Registers.lean. -/

namespace Sys2Proof.Machine

/-- A register word from its fields: lowest bit, width, value. -/
def packed (fs : List (Nat × Nat × Nat)) : Nat := (fs.map fun f => f.2.2 % 2 ^ f.2.1 * 2 ^ f.1).sum

/-- TT_STATUS (R57). -/
def ttStatus (s : State) : Nat :=
  let t := s.tt
  packed [(0, 2, t.lock.code), (16, 5, t.kActive)] + bit t.ttFree 2 + bit t.ttHoldover 3 + bit t.slewing 4 + bit t.freqErr 5 +
    bit t.cntEst 6 + bit t.switch.isSome 7 + bit t.loadArm 8

/-- TT_CTRL (R57). -/
def ttCtrl (s : State) : Nat := bit s.tt.loadArm 0 + bit s.tt.switch.isSome 1 + bit s.tt.refEn 2 + bit s.tt.cntEstLock 3

/-- TT_OUT_CTRL (R57). -/
def ttOutCtrl (s : State) : Nat := bit s.tt.outEn 0 + packed [(4, 12, s.tt.outWidth.toNat)]

/-- TT_PLAN_STATUS (R57). -/
def ttPlanStatus (s : State) : Nat :=
  let t := s.tt
  bit t.bankB 0 + bit t.commitPend 1 + bit t.planErr 2 +
    packed [(4, 10, t.errIndex.toNat), (14, 2, t.errKind.toNat), (16, 16, planPos t.epoch t.cycle (bankPeriod t t.bankB))]

/-- ADM_STATUS (R89). -/
def admStatus (s : State) : Nat :=
  bit (writeThrough s) 0 + bit s.adm.ceilCut 1 + bit (decide (s.adm.throttle.toNat < 256)) 2 + bit s.adm.pfailStop 3 +
    packed [(16, 9, s.adm.exp.length)]

/-- ADM_EXP_Q as 128 bits (R89). -/
def expWord (e : ExpQ) : Nat :=
  packed [(0, 16, e.sqid.toNat), (16, 9, e.func.toNat), (31, 1, 1), (32, 32, e.hit.toNat), (64, 32, e.miss.toNat),
    (96, 32, e.write.toNat)]

/-- ADM_EXP_LEFT as 128 bits. -/
def expLeftWord (e : ExpQ) : Nat :=
  packed [(0, 32, e.hitLeft.toNat), (32, 32, e.missLeft.toNat), (64, 32, e.writeLeft.toNat), (96, 32, e.naCount.toNat)]

/-- ADM_SB_TOK as 128 bits. -/
def sbWord (t : SbTok) : Nat :=
  packed [(0, 32, t.stdRead.toNat), (32, 32, t.stdWrite.toNat), (64, 32, t.bulkRead.toNat), (96, 32, t.bulkWrite.toNat)]

/-- ADM_COST_ENG: engine clocks per hit token, the fixed part per miss token, per write token (R73, R89). -/
def costEng : Nat := packed [(0, 10, 160), (10, 10, 260), (20, 10, 600)]

/-- Express miss admission is open on a group (R69, R398). -/
def missOpen (s : State) (g : Group) : Bool :=
  decide (outF g < 2) && !g.repairScrub && effDepth g != 0 && !groupUnscheduled s g

/-- MEM_GROUP of a group (R398). -/
def memGroupWord (s : State) (g : Group) : Nat :=
  packed [(0, 3, g.assembly.code), (4, 3, min (outF g) 7), (8, 2, g.depthCfg), (10, 2, effDepth g), (12, 2, g.inPoss.length)] +
    bit (groupUnscheduled s g) 14 + bit (rebuilding s g) 15 + bit g.scrubbing 16 + bit (missOpen s g) 17

/-- The group, when it is listed under one of the eight numbers of the registers (R398). -/
def groupOf8 (s : State) (g : Nat) : Option Group := if g < 8 then s.groups.find g else none

/-- MEM_STATUS (R398). -/
def memStatus (s : State) : Nat :=
  packed [(0, 7, (s.mports.filter fun p => p.2.present).length), (8, 7, (s.mports.filter fun p => p.2.state == 4).length)] +
    bit s.mem.lostFull 16 + bit s.mem.quadSet 17

/-- MEM_CTRL (R398). -/
def memCtrl (s : State) : Nat := bit s.mem.hotplugEn 0 + bit s.mem.scrubEn 1 + bit s.mem.urgentArb 2

/-- MEM_POLICY (R398). -/
def memPolicy (s : State) : Nat :=
  packed [(0, 8, s.mem.slowTmo.toNat), (8, 8, s.mem.failTmo.toNat), (16, 8, s.mem.failMedia.toNat)]

/-- MEM_P_STAT (R398). -/
def memPStat (p : MPort) : Nat :=
  packed [(0, 3, p.state), (12, 3, p.width), (16, 3, p.speed), (20, 3, p.group.getD 0), (24, 7, p.index)] +
    bit p.plm 3 + bit p.profiled 4 + bit p.inPoss 5 + bit p.lead 6 + bit p.stray 7 + bit p.present 8 + bit p.linkUp 9 +
    bit p.contained 10 + bit p.unfit 11 + bit p.group.isNone 23

/-- MEM_P_QUAR (R398). -/
def memPQuar (p : MPort) : Nat := packed [(0, 7, p.quarantine.length), (16, 16, p.possSkip.toNat)]

/-- VLT_STATUS (R356). -/
def vltStatus (s : State) : Nat :=
  let v := s.vlt
  bit v.ledgerValid 0 + bit (writeThrough s) 1 + bit v.measuring 2 + bit v.ledgerErr 3 + packed [(4, 4, v.ledgerCode.toNat)] +
    bit v.ok0 8 + bit v.ok1 9 + bit v.pfail 10 + bit v.dumping 11 + bit v.dumpDone 12 + bit v.vcut 13 +
    bit (s.groups.any fun g => g.2.mirrorDegraded) 14

/-- VLT_CTRL (R356). -/
def vltCtrl (s : State) : Nat := bit s.vlt.striped 0 + bit s.vlt.measuring 1 + bit s.vlt.patrolEn 2

/-- VLT_MIRROR of a group (R356); without a group its reset value. -/
def vltMirror (s : State) (g : Nat) : Nat :=
  match groupOf8 s g with
  | some x => packed [(0, 8, x.triple.1), (8, 8, x.triple.2.1), (16, 8, x.triple.2.2)] + bit x.mirrorDegraded 24
  | none => 0x20100

/-- Bits of a list of numbered flags. -/
def bitsOf (l : List Nat) : Nat := (l.eraseDups.map fun i => 2 ^ i).sum

/-- PHASE of PWR_STATUS: exiting or restoring, preparing, counting dwell, resting (R487). -/
def pwrPhase (s : State) : Nat :=
  if s.pwr.exiting || s.pwr.restoring then 3 else if s.pwr.entry.isSome then 2
  else if s.pwr.devState == .ready && decide (s.pwr.rung < targetRung s) then 1 else 0

/-- PWR_STATUS (R487). -/
def pwrStatus (s : State) : Nat :=
  packed [(0, 3, s.pwr.rung), (4, 3, if s.pwr.devState == .ready then targetRung s else 0), (8, 2, pwrPhase s),
    (16, 4, s.pwr.devState.code)] +
    bit (expPin s) 10 + bit s.pwr.nvInhibit 11 + bit (s.pwr.devState == .ready && noLayup s) 12

/-- PWR_BOOT (R487). -/
def pwrBoot (s : State) : Nat :=
  bit s.pwr.bootSlotB 0 + bit s.pwr.bootFallback 1 + bit s.pwr.bootAOk 2 + bit s.pwr.bootBOk 3 +
    packed [(8, 8, s.pwr.bootSvn.toNat), (16, 7, s.pwr.otp)]

/-- TAG_STATUS (R454); a write of the tag area is whole within its command. -/
def tagAreaStatus (s : State) : Nat := bit s.pwr.nvInhibit 1 + packed [(16, 16, s.pwr.tagWorn.toNat)]

/-- MBX_SB_STAT (R445). -/
def sbStat (s : State) : Nat := bit s.mbx.unattended 0 + bit s.mbx.gaveUp 1 + packed [(2, 2, min s.mbx.reloads 3)]

/-- MBX_SB_QDEPTH (R445): admin commands and Gelbel requests queued. -/
def sbDepth (s : State) : Nat :=
  packed [(0, 16, (s.mbx.adminQ.filter fun a => a.port != gelbelPort).length),
    (16, 16, (s.mbx.adminQ.filter fun a => a.port == gelbelPort).length)]

/-- MBX_STAT of a mailbox (R439). -/
def boxStat (b : Mailbox) : Nat :=
  bit b.full 0 + packed [(1, 2, b.cause), (16, 12, b.poster)] + bit b.empty 3 + bit b.noticeHeld 4

/-- MBX_SEND: sender k in [16k + 15:16k] with its view (R439). -/
def boxSend (b : Mailbox) : Nat :=
  packed ((List.range 4).map fun k =>
    match b.send[k]? with
    | some x => (16 * k, 16, x.1 + x.2 * 2 ^ 12)
    | none => (16 * k, 16, 0))

/-- MBX_RECV (R439). -/
def boxRecv (b : Mailbox) : Nat := packed [(0, 12, b.recv), (12, 4, b.recvView)] + bit b.bound 31

/-- MBX_EVT_ALL: entry k in [16k + 15:16k] (R439). -/
def boxEvtAll (b : Mailbox) : Nat := packed ((List.range 4).map fun k => (16 * k, 16, (b.evt.getD k 0).toNat))

/-- MOV_STATUS (R425): the first running channel, and the pausing and paused ones. -/
def movStatus (m : Mover) : Nat :=
  let run := m.chans.find? fun c => c.2.state == .running
  packed [(0, 4, (run.map Prod.fst).getD 0)] + bit run.isSome 4 +
    bitsOf (Tab.keys (m.chans.filter fun c => c.2.state == .pausing || c.2.state == .paused)) * 2 ^ 16

/-- MOV_CH_CTRL (R425). -/
def chCtrl (x : Channel) : Nat := bit x.go 0 + bit x.hold 1 + packed [(2, 2, x.cls.code)] + bit x.ep 4

/-- MOV_CH_STAT (R425). -/
def chStat (x : Channel) : Nat := packed [(0, 3, x.state.code), (4, 6, x.causes.toNat), (16, 8, x.result.toNat)]

/-- MOV_CH_SRC or MOV_CH_DST (R425): the offset is that of the next byte. -/
def chEnd (c : Nat) (x : Channel) (e : Endpoint) (pat : Word) (base : Nat) : Nat :=
  packed [(0, 4, e.kind), (4, 4, e.index), (8, 18, x.ctx.getD 0), (26, 1, if c = 15 then 1 else 0),
    (32, 24, patOffset pat base x.done)]

/-- Bytes left in the line of a pattern; a contiguous side has no line (R425). -/
def lineLeft (pat : Word) (x : Channel) : Nat :=
  if patLine pat = 0 || x.count ≤ x.done then 0 else patLine pat - x.done % patLine pat

/-- MOV_CH_PROG (R425). -/
def chProg (x : Channel) : Nat :=
  packed [(0, 20, lineLeft x.spat x), (20, 20, lineLeft x.dpat x), (40, 13, if x.sect = 0 then 0 else x.done % x.sect)]

/-- WIN_STATUS (R427). -/
def winStatus (x : Window) : Nat := bit x.en 0 + bit x.commitPend 1 + bit x.drop 2 + packed [(4, 9, x.busy.eraseDups.length)]

/-- Commands of a function that are ready to post while bus master enable is 0: Q_FN_HELD (R100). -/
def fnHeld (fn : Func) : Nat := if fn.bme then 0 else (fn.cqs.map fun q => q.2.ready.length).sum

/-- BME_HOLD: bus master enable is 0 and the function has held or paused work (R100). -/
def bmeHold (s : State) (f : Nat) (fn : Func) : Bool :=
  !fn.bme && (!fn.held.isEmpty || decide (0 < fnHeld fn) ||
    fn.sqs.any (fun q => !q.2.announced.isEmpty && !q.2.push) ||
    s.ctxs.any fun c => c.2.func.toNat == f && (match c.2.wait with
      | .mover => true
      | _ => false))

/-- Q_FN_STATUS (R100). -/
def fnStatus (s : State) (f : Nat) (fn : Func) : Nat :=
  bit (bmeHold s f fn) 0 + bit fn.flrBusy 1 + fnW1c fn + bit (decide (16 ≤ quarOf s f)) 6 +
    bit (match s.ports.find (portOf f) with
      | some p => isPF f && p.intx
      | none => false) 8

/-- Q_FN_ID (R100). -/
def fnId (f : Nat) : Nat := packed [(0, 6, f % 64), (6, 3, portOf f)] + bit (!isPF f) 9

/-- Q_SQ_STAT of a slot (R171). -/
def sqStat (fn : Func) (i : Nat) : Nat :=
  (match fn.sqs.find i with
    | some q => packed [(0, 17, q.ci), (21, 2, q.cls.code)] + bit true 17 + bit q.overrun 18 + bit q.fetchStop 19 +
        bit q.refusalWait 20 + bit q.push 23 + bit (decide (0 < q.pollInt)) 24
    | none => 0) + bit (i == 0 && fn.initErr) 25

/-- Q_CQ_STAT of a slot (R171). -/
def cqStat (fn : Func) (i : Nat) : Nat :=
  match fn.cqs.find i with
  | some q => bit true 0 + bit (!q.hasRoom) 1 + bit q.overrun 2 + bit q.ien 3 +
      packed [(8, 24, (q.ready.filter fun r => r.parked).length)]
  | none => 0

/-- Q_PQ_STAT of a push queue (R147). -/
def pqStat (q : Sq) : Nat := packed [(0, 7, q.pi), (8, 7, q.ci), (16, 16, bitsOf q.inlineBusy)]

end Sys2Proof.Machine
end

