-- ==== Sys2Proof/Machine/RouteBook.lean ====
section
/-! DEFINITION. The Route Book: its sections and the swap of generations (R102 to R111, R442, R485). -/

namespace Sys2Proof.Machine

/-- A field of the image: offset, size in bytes, value. -/
abbrev RbField := Nat × Nat × Nat

/-- Bytes of ASCII text. -/
def ascii (t : String) : List Byte := t.toList.map fun c => BitVec.ofNat 8 c.toNat

/-- The bytes that are not 0 of a list placed at an offset, written from the last to the first. -/
def placeBytes (off : Nat) : List Byte → Memory → Memory
  | [], m => m
  | b :: bs, m =>
    let m := placeBytes (off + 1) bs m
    if b = 0 then m else m.write off b

/-- An image from its fields, zero where none lies. -/
def placeFields : List RbField → Memory → Memory
  | [], m => m
  | (o, n, v) :: fs, m => placeBytes o (leBytes n v) (placeFields fs m)

/-- Fields of 4 bytes from an offset on. -/
def dwords (off : Nat) (vs : List Nat) : List RbField := (List.range vs.length).map fun i => (off + 4 * i, 4, vs.getD i 0)

/-- The fixed ROM header and PCI data structure (R102). -/
def rbRom : List RbField :=
  [(0x00, 2, 0xAA55), (0x18, 2, 0x0020), (0x20, 4, 0x52494350), (0x24, 2, 0x3C7A), (0x26, 2, 0x7240), (0x2A, 2, 0x001C),
   (0x2C, 1, 0x03), (0x2D, 3, 0x010400), (0x30, 2, 0x0080), (0x32, 2, 0x0001), (0x34, 1, 0x7E), (0x35, 1, 0x80)]

/-- VERSION of a firmware slot, 0 when it is empty. -/
def slotVersion (x : Option SlotImage) : Nat := (x.map fun i => i.version.toNat).getD 0

/-- Header and part, but GEN, SWAP_TS and CHANGED (R107). -/
def rbHeader (s : State) : List RbField :=
  [(0x40, 4, 0x4B425257), (0x44, 2, 1), (0x46, 2, 0xC0), (0x4C, 1, s.pwr.devState.code), (0x4D, 1, s.pwr.heldCode.toNat),
   (0x4E, 1, Config.stepping.toNat), (0x4F, 1, bit s.pwr.bootSlotB 0), (0x60, 16, leNat (ascii "KS7240-FB48")),
   (0x70, 8, slotVersion s.pwr.slotA), (0x78, 8, slotVersion s.pwr.slotB), (0x80, 8, Config.dieId.toNat), (0x88, 4, s.pwr.otp)]

/-- A host port entry (R108). -/
def rbPort (p : Nat) (h : HostPort) : List RbField :=
  let o := 0x100 + 32 * p
  [(o, 1, if h.hperst then 1 else if h.linkUp then 3 else 2), (o + 1, 1, h.widthMax), (o + 2, 1, h.widthNeg),
   (o + 3, 1, h.speedNeg), (o + 4, 1, bit h.flit 0), (o + 5, 1, if h.vfEnable then h.numVfs else 0), (o + 6, 2, 768),
   (o + 8, 2, 128), (o + 10, 2, 64 * p), (o + 12, 4, 0x160E1910)]

/-- Submission queues of a class, over all functions. -/
def sqsOfClass (s : State) (c : Cls) : Nat := (s.funcs.map fun f => (f.2.sqs.filter fun q => q.2.cls == c).length).sum

/-- Limits (R109). -/
def rbLimits (s : State) : List RbField :=
  [(0x200, 4, 16384), (0x204, 4, 16384), (0x208, 2, 64), (0x20A, 2, 64), (0x20C, 2, 256), (0x20E, 2, sqsOfClass s .express),
   (0x210, 4, 4096), (0x214, 4, s.vols.length), (0x218, 1, 8), (0x219, 1, 0x84), (0x21C, 4, 131072), (0x220, 4, Config.sidings),
   (0x224, 4, 256), (0x228, 8, s.vlt.budget), (0x230, 8, Config.frames * 4096)]

/-- Timetable (R109). -/
def rbTimetable (s : State) : List RbField :=
  let t := s.tt
  let n := slotsOf t.kActive
  [(0x300, 4, ttStatus s), (0x304, 4, t.nomActive.toNat), (0x308, 1, t.kActive), (0x30C, 4, (2000 * t.nomActive.toNat + n) / (2 * n)),
   (0x310, 2, bankPeriod t t.bankB - 1), (0x314, 4, t.possLead.toNat), (0x318, 8, t.epoch.toNat)]

/-- Bounds (R109). -/
def rbBounds (s : State) : List RbField :=
  let f := fixedParts s
  dwords 0x380 [f.hitPush, f.hitRing, f.inline_, f.writeHost, f.step, f.miss, f.degraded, s.adm.lHost.toNat,
    s.adm.stdTarget.toNat, Config.lockWatchdog]

/-- A member-credit ceiling or sum of each of the eight groups. -/
def perGroup (f : Nat → Nat) : List Nat := (List.range 8).map f

/-- ADM_CEIL_MEM of a group. -/
def ceilMemOf (s : State) (g : Nat) : Nat := (s.adm.ceilMem.getD g 0).toNat

/-- Token ceiling (R109). -/
def rbCeiling (s : State) : List RbField :=
  let l := allots s
  let a := s.adm
  dwords 0x400 ([a.ceilEng.toNat, a.ceilMov.toNat, a.ceilHbm.toNat, a.ceilWrite.toNat, sumEng s l, sumMov s l, sumHbm s l,
    sumWrite l] ++ perGroup (ceilMemOf s) ++ perGroup (sumMem s l) ++ [costEng, admStatus s])

/-- STATE of a group (R110, R371). -/
def rbGroupState (g : Group) : Nat := if g.assembly == .none then 0 else 1 + min 2 (outF g)

/-- D and the bounds that rest on it (R110). -/
def rbGroupD (s : State) (no : Nat) (g : Group) : List RbField :=
  let d := groupD s g
  let f := fixedParts s
  dwords (0x508 + 32 * no) [d, d + f.miss, d + f.degraded]

/-- FLAGS of a group (R110). -/
def rbGroupFlags (s : State) (g : Group) : Nat := bit (groupUnscheduled s g) 0 + bit (rebuilding s g) 1 + bit (missOpen s g) 2

/-- A group entry (R110). -/
def rbGroup (s : State) (no : Nat) (g : Group) : List RbField :=
  let o := 0x500 + 32 * no
  [(o, 1, rbGroupState g), (o + 1, 1, effDepth g), (o + 2, 1, rbGroupFlags s g),
   (o + 3, 1, (s.adm.groupMode.getD no 0).toNat), (o + 4, 1, g.n), (o + 5, 1, g.w), (o + 6, 1, g.stripLog2)] ++ rbGroupD s no g

/-- Groups under the eight numbers. -/
def groups8 (s : State) : Tab Group := s.groups.filter fun g => decide (g.1 < 8)

/-- The D field of a member (R110). -/
def rbMemberD (port : Nat) (p : MPort) : RbField := (0x604 + 8 * port, 4, p.d.toNat)

/-- A member entry (R110); a port that the board does not use is empty. -/
def rbMember (port : Nat) (p : MPort) : List RbField :=
  let o := 0x600 + 8 * port
  let g := if p.state < 2 then 0xFF else (p.group.filter fun g => decide (g < 8)).getD 0xFF
  [(o, 1, p.state), (o + 1, 1, g), (o + 2, 1, bit p.plm 0), rbMemberD port p]

/-- Tag area copy (R103). -/
def rbTags (s : State) : List RbField := s.pwr.tags.map fun r => (0x1000 + 256 * r.1, 256, leNat r.2)

/-- A function that the Route Book shows: a PF, a VF under VF Enable, or one in teardown (R93, R111, R117). -/
def rbShown (s : State) (f : Nat) (fn : Func) : Bool :=
  fn.exists_ && (isPF f || fn.flrBusy || (match s.ports.find (portOf f) with
    | some p => p.vfEnable
    | none => false))

/-- A function entry (R111). -/
def rbFunc (s : State) (f : Nat) (fn : Func) : List RbField :=
  let o := 0x2000 + 16 * f
  let mine := (Tab.vals s.adm.exp).filter fun e => e.func.toNat == f
  [(o, 1, if fn.flrBusy then 2 else 1), (o + 1, 1, if fn.d3 then 3 else 0),
   (o + 2, 1, bit fn.bme 0 + bit fn.msixEn 1 + bit (usesIntx f fn) 2 +
     bit (mine.any fun e => e.hit != 0 || e.miss != 0 || e.write != 0) 3),
   (o + 3, 1, rungAllowed s f), (o + 4, 2, fn.sqs.length), (o + 6, 2, fn.cqs.length),
   (o + 8, 2, (fn.sqs.filter fun q => q.2.cls == .express).length), (o + 10, 2, (s.vols.filter fun v => v.2.attached.contains f).length)]

/-- The sections that firmware fills, in ascending order: before and after those of the hardware (R442, R485). -/
def rbFirmware (s : State) : List RbField × List RbField × List RbField :=
  ((s.ports.map fun p => rbPort p.1 p.2).flatten, rbLimits s,
   ((groups8 s).map fun g => rbGroup s g.1 g.2).flatten ++ ((List.range 72).map fun p => rbMember p (s.mports.getD p {})).flatten ++ rbTags s ++
     ((s.funcs.filter fun f => rbShown s f.1 f.2).map fun f => rbFunc s f.1 f.2).flatten)

/-- Held for a reason that leaves the sections of firmware zero: FW_NONE, LIBRARY, FW_START (R485). -/
def noFirmware (s : State) : Bool :=
  s.pwr.devState == .held && decide (0x11 ≤ s.pwr.heldCode.toNat) && decide (s.pwr.heldCode.toNat ≤ 0x13)

/-- A new image with all sections (R103). -/
def rbBuild (s : State) : Memory :=
  let w := if noFirmware s then ([], [], []) else rbFirmware s
  placeFields (rbHeader s ++ w.1 ++ w.2.1 ++ rbTimetable s ++ rbBounds s ++ rbCeiling s ++ w.2.2) {}

/-- Offsets that hardware assembles: DEV_STATE, timetable, bounds and ceiling, and the D fields (R442). -/
def rbHardware (o : Nat) : Bool :=
  o == 0x4C || (decide (0x300 ≤ o) && decide (o < 0x500)) ||
    (decide (0x500 ≤ o) && decide (o < 0x600) && decide (8 ≤ o % 32) && decide (o % 32 < 20)) ||
    (decide (0x600 ≤ o) && decide (o < 0x840) && decide (4 ≤ o % 8))

/-- Write the cells of a list on a memory, the last first. -/
def overlay : List Host.Cell → Memory → Memory
  | [], m => m
  | c :: cs, m => (overlay cs m).write c.1 c.2

/-- The image when only hardware assembles: its bytes of the new image, the rest of the old one (R442). -/
def rbMerge (old new : Memory) : Memory :=
  overlay (new.cells.filter fun c => rbHardware c.1) (overlay (old.cells.filter fun c => !rbHardware c.1) {})

/-- The sections in the order of R103, first and last offset, but those that hold GEN or the CRC. -/
def rbSections : List (Nat × Nat × Nat) :=
  [(1, 0x100, 0x200), (2, 0x200, 0x300), (3, 0x300, 0x380), (4, 0x380, 0x400), (5, 0x400, 0x500), (6, 0x500, 0x600),
   (7, 0x600, 0x840), (9, 0x1000, 0x2000), (10, 0x2000, 0x4000)]

/-- Cells of an image in a range. -/
def cellsIn (m : Memory) (a b : Nat) : List Host.Cell := m.cells.filter fun c => decide (a ≤ c.1) && decide (c.1 < b)

/-- CHANGED (R107): the header, the copies of GEN and the CRC change with every generation. -/
def rbChangedBits (old new : Memory) : Nat :=
  bitsOf ([0, 8, 11, 12] ++ ((rbSections.filter fun x => cellsIn old x.2.1 x.2.2 != cellsIn new x.2.1 x.2.2).map Prod.fst))

/-- A change of a group's FLAGS that no other event has noted raises the generation (R104, R110). -/
def noteFlags (s : State) : State :=
  if (groups8 s).all fun g => (s.rb.image.read (0x502 + 32 * g.1)).toNat == rbGroupFlags s g.2 then s else rbChange s

/-- A swap sets RB_CHANGED of a function, and sends its event also when the bit is 1 already (R104). -/
def swapEvent (s : State) (f : Nat) : State :=
  sendEvent (updFunc (markFresh s (.fn f) 0x04 FnBit.rbChanged.pos 1) f FnBit.rbChanged.set) f .rbChanged

/-- The swap at a cycle edge, when something changed (R104): the new generation is in force and RB_CHANGED rises in every
function. While unattended only the sections of the hardware move, and the other changes wait (R442). -/
def rbSwap (s : State) : State :=
  if !s.rb.changed then s
  else
    let full := rbBuild s
    let new := if s.mbx.unattended then rbMerge s.rb.image full else full
    if s.mbx.unattended && new == s.rb.image then s
    else
      let rb : RouteBook :=
        { gen := s.rb.gen + 1, changed := s.mbx.unattended, swapTs := now s, sections := BitVec.ofNat 32 (rbChangedBits s.rb.image new),
          image := new }
      (Tab.keys s.funcs).foldl swapEvent { s with rb := rb }

/-- Bytes of the generation in force without the CRC. -/
def rbBody (s : State) : Memory :=
  let r := s.rb
  overlay (placeFields rbRom {}).cells (placeFields
    [(0x48, 4, r.gen.toNat), (0x50, 8, r.swapTs.toNat), (0x58, 4, r.sections.toNat), (0xFFC, 4, r.gen.toNat), (0xFFF8, 4, r.gen.toNat)]
    r.image)

/-- CRC-32 of the generation in force (R103). -/
def rbCrc (s : State) : Nat := (crc32 ((rbBody s).bytes 0 0xFFFC)).toNat

/-- n bytes of the generation in force from an offset (R102, R106). -/
def rbBytes (s : State) (off n : Nat) : List Byte :=
  (List.range n).map fun i =>
    let o := off + i
    if 0xFFFC ≤ o && o < 0x10000 then BitVec.ofNat 8 (rbCrc s / 256 ^ (o - 0xFFFC)) else (rbBody s).read o

end Sys2Proof.Machine
end

