-- ==== Sys2Proof/Machine/Cycle.lean ====
section
/-! DEFINITION. The cycle edge (R32 to R57, R62, R65, R67, R80, R104, R203, R370, R372, R456, R457, R506), the fare
latch and the tick of a slot. -/

namespace Sys2Proof.Machine

/-! Cycle number and cycle load (R36, R40) -/

/-- Slot 0 of the next cycle begins. -/
def nextCycle (s : State) : State :=
  let t := s.tt
  if t.loadArm then
    let diff := t.cycleLoad - (t.cycle + 1)
    let f := fun x => tsShift diff x
    let s := s.mapTimes f f
    let s := { s with mports := s.mports.mapVal fun _ p =>
      { p with observed := p.observed.map fun o => (o.1, (BitVec.ofNat 44 o.2 + diff).toNat) } }
    rbChange (updTt s fun x =>
      { x with cycle := t.cycleLoad, slot := 0, loadArm := false, cntEst := false, loadCnt := t.loadCnt + 1 })
  else updTt s fun x => { x with cycle := t.cycle + 1, slot := 0 }

/-! The timetable switch (R44, R45, R52, R511) -/

/-- A converted duration, limited to its range and logged when it was limited. -/
def limited (s : State) (detail lo hi v : Nat) : Nat × State :=
  if v < lo then (lo, logErr s 0x0201 .timetable {} detail)
  else if hi < v then (hi, logErr s 0x0201 .timetable {} detail)
  else (v, s)

/-- DETAIL of TT_LIMITED for a register: its offset and the block number of its owner (R511). -/
def regDetail (off : Nat) (b : Block) : Nat := off + b.num * 2 ^ 32

/-- DETAIL of TT_LIMITED for a queue parameter (R511). -/
def queueDetail (f slot : Nat) (ring : Bool) : Nat := 64 * f + slot + bit ring 32 + 2 ^ 63

/-- A register that holds a duration in slots: its access, its range and its place (R44). -/
structure DurReg where
  get : State → Nat
  set : State → Nat → State
  lo : Nat
  hi : Nat
  detail : Nat

/-- All ones of 32 bits. -/
def max32 : Nat := 0xFFFFFFFF

/-- A MEM_ duration. -/
def memDur (off : Nat) (get : MemRegs → BitVec 32) (set : MemRegs → BitVec 32 → MemRegs) : DurReg :=
  { get := fun s => (get s.mem).toNat, set := fun s v => { s with mem := set s.mem (BitVec.ofNat 32 v) }, lo := 0, hi := max32,
    detail := regDetail off .initiator }

/-- The registers of single blocks, but the three that SET_TIMETABLE may give (R44). -/
def durRegs : List DurReg :=
  [{ get := fun s => s.adm.lHost.toNat, set := fun s v => updAdm s fun a => { a with lHost := BitVec.ofNat 16 v }, lo := 0,
     hi := 0xFFFF, detail := regDetail 0x8 .admission },
   { get := fun s => s.adm.stdTarget.toNat, set := fun s v => updAdm s fun a => { a with stdTarget := BitVec.ofNat 32 v }, lo := 0,
     hi := max32, detail := regDetail 0xC .admission },
   memDur 0x10 (·.tmoStd) fun m v => { m with tmoStd := v }, memDur 0x14 (·.tmoBulk) fun m v => { m with tmoBulk := v },
   memDur 0x18 (·.tmoMaint) fun m v => { m with tmoMaint := v }, memDur 0x1C (·.tmoWrite) fun m v => { m with tmoWrite := v },
   memDur 0x20 (·.tmoAdmin) fun m v => { m with tmoAdmin := v }, memDur 0x30 (·.prsntDeb) fun m v => { m with prsntDeb := v },
   memDur 0x34 (·.winRetry) fun m v => { m with winRetry := v },
   { get := fun s => s.mbx.hbPeriod.toNat, set := fun s v => updMbx s fun m => { m with hbPeriod := BitVec.ofNat 32 v }, lo := 65536,
     hi := max32, detail := regDetail 0x4004 .mailboxes },
   { get := fun s => s.vlt.huTime.toNat, set := fun s v => updVlt s fun x => { x with huTime := BitVec.ofNat 32 v }, lo := 65536,
     hi := 6553600, detail := regDetail 0x18 .vault },
   { get := fun s => s.vlt.tFixed.toNat, set := fun s v => updVlt s fun x => { x with tFixed := BitVec.ofNat 32 v }, lo := 0,
     hi := max32, detail := regDetail 0x1C .vault },
   { get := fun s => s.vlt.pfailFilt.toNat, set := fun s v => updVlt s fun x => { x with pfailFilt := BitVec.ofNat 6 v }, lo := 1,
     hi := 63, detail := regDetail 0x24 .vault }]

/-- Convert a register. -/
def convertReg (conv : Nat → Nat) (s : State) (r : DurReg) : State :=
  let (v, s) := limited s r.detail r.lo r.hi (conv (r.get s))
  r.set s v

/-- The registers that a SET_TIMETABLE may give for the new timetable: its value, else the converted one (R44, R201). -/
def convertGiven (conv : Nat → Nat) (sw : TtSwitch) (s : State) : State :=
  let n := slotsOf s.tt.kActive
  let s := match sw.window with
    | some w => updTt s fun t => { t with window := w }
    | none =>
      let (v, s) := limited s (regDetail 0x24 .timetable) 1 65535 (conv s.tt.window.toNat)
      updTt s fun t => { t with window := BitVec.ofNat 16 v }
  let s := match sw.possLead with
    | some w => updTt s fun t => { t with possLead := w }
    | none =>
      let (v, s) := limited s (regDetail 0x58 .timetable) 0 (n - 1) (conv s.tt.possLead.toNat)
      updTt s fun t => { t with possLead := BitVec.ofNat 32 v }
  match sw.outWidth with
  | some w => updTt s fun t => { t with outWidth := w }
  | none =>
    let (v, s) := limited s (regDetail 0x2C .timetable) 1 (min 4095 (n / 2 - 1)) (conv s.tt.outWidth.toNat)
    updTt s fun t => { t with outWidth := BitVec.ofNat 12 v }

/-- Convert the MBX_TMO of every mailbox. -/
def convertBoxes (conv : Nat → Nat) (s : State) : State :=
  (List.range 64).foldl (fun s i =>
    let (v, s) := limited s (regDetail (0x100 * i + 0x50) .mailboxes) 1 max32 (conv (boxOf s i).tmo.toNat)
    updBox s i fun b => { b with tmo := BitVec.ofNat 32 v }) s

/-- Convert POLL_INT of a ring; 0 stays 0. -/
def convertSq (conv : Nat → Nat) (f : Nat) (s : State) (slot : Nat) : State :=
  match sqOf s f slot with
  | none => s
  | some q =>
    if q.pollInt = 0 then s
    else
      let (v, s) := limited s (queueDetail f slot false) 64 65536 (conv q.pollInt)
      updSq s f slot fun q => { q with pollInt := v }

/-- Convert IV_DELAY of a completion ring. -/
def convertCq (conv : Nat → Nat) (f : Nat) (s : State) (slot : Nat) : State :=
  match cqOf s f slot with
  | none => s
  | some q =>
    let (v, s) := limited s (queueDetail f slot true) 0 65535 (conv q.ivDelay)
    updCq s f slot fun q => { q with ivDelay := v }

/-- Convert Q_FN_CTO and the queue parameters of a function. -/
def convertFunc (conv : Nat → Nat) (s : State) (f : Nat) : State :=
  match fnOf s f with
  | none => s
  | some fn =>
    let (v, s) := limited s (regDetail 0x14 .hostEndpoint) 3277 4194304 (conv fn.cto.toNat)
    let s := updFunc s f fun fn => { fn with cto := BitVec.ofNat 32 v }
    let s := (Tab.keys fn.sqs).foldl (convertSq conv f) s
    (Tab.keys fn.cqs).foldl (convertCq conv f) s

/-- Host-held slots in the new slot length (R45). -/
def convertHeld (conv : Nat → Nat) (h : Held) : Held :=
  { total := conv h.total, host := conv h.host, ring := conv h.ring, bme := conv h.bme }

/-- Bounds, budgets of time and held slots of commands in flight, and observed reads, in new slots (R45, R80). -/
def convertCounts (conv : Nat → Nat) (s : State) : State :=
  let s := s.mapAdmin fun a => { a with held := convertHeld conv a.held }
  { s with
    vlt := { s.vlt with huLen := conv s.vlt.huLen }
    ctxs := s.ctxs.mapVal fun _ c => { c with bound := conv c.bound, dAt := c.dAt.map (fun x => (x.1, conv x.2)), held := convertHeld conv c.held }
    funcs := s.funcs.mapVal fun _ fn =>
      { fn with
        sqs := fn.sqs.mapVal fun _ q =>
          { q with announced := q.announced.map (fun x => { x with held := convertHeld conv x.held }),
                   fetched := q.fetched.map (fun x => { x with held := convertHeld conv x.held }) }
        cqs := fn.cqs.mapVal fun _ q => { q with ready := q.ready.map fun r => { r with held := convertHeld conv r.held } } }
    mports := s.mports.mapVal fun _ p => { p with observed := p.observed.map fun o => (conv o.1, o.2) } }

/-- The slot field of a record's timestamp in the new range (R44). -/
def stampRange (oldK newK : Nat) (t : Word) : Word :=
  tsOf (tsCycle t) (tsSlot t * slotsOf newK / slotsOf oldK % slotsOf newK)

/-- Every timestamp that a record keeps, by a map (R44). -/
def mapRecords (g : Word → Word) (s : State) : State :=
  { s with
    errLog := s.errLog.map fun e => { e with ts := g e.ts }
    defLog := s.defLog.map fun e => { e with ts := g e.ts }
    journal := { s.journal with recs := s.journal.recs.mapVal fun _ r => { r with openTs := g r.openTs, sealTs := g r.sealTs } }
    groups := s.groups.mapVal fun _ x => { x with createTs := g x.createTs }
    vols := s.vols.mapVal fun _ v => { v with createTs := g v.createTs }
    mem := { s.mem with lost := s.mem.lost.map (fun l => { l with ts := g l.ts }), lostTs := g s.mem.lostTs }
    fare := { s.fare with ts := g s.fare.ts, prevTs := g s.fare.prevTs, originTs := g s.fare.originTs }
    rb := { s.rb with swapTs := g s.rb.swapTs } }

/-- The lock state across a switch edge (R38, R39, R44). -/
def switchLock (s : State) : State :=
  let nom := s.tt.nomActive.toNat
  let s := updTt s fun t =>
    { t with runPeriods := if t.runPeriods.all (inTolerance nom) then t.runPeriods else [] }
  if s.tt.lock == .locked then
    if inTolerance nom (s.tt.measPeriod.toNat / 256) then s
    else
      setLock (updTt s fun t =>
        { t with ttHoldover := true, slewing := false, holdNominal := true, lastEdge := none, runPeriods := [], missed := 0 }) .holdover
  else updTt s fun t => { t with holdNominal := t.ttHoldover }

/-- The switch edge (R44). -/
def switchEdge (s : State) (sw : TtSwitch) : State :=
  let oldNom := s.tt.nomActive.toNat
  let oldK := s.tt.kActive
  let newNom := s.tt.nomCycle.toNat
  let newK := s.tt.slotsLog2.toNat
  let edge := now s
  let conv := slotsConvert oldNom oldK newNom newK
  let s := s.mapTimes (deadlineConvert oldNom oldK newNom newK edge) (stampConvert oldNom oldK newNom newK edge)
  let s := mapRecords (stampRange oldK newK) (convertCounts conv s)
  let s := updTt s fun t => { t with nomActive := t.nomCycle, kActive := newK, switch := none }
  let s := durRegs.foldl (convertReg conv) s
  let s := convertBoxes conv (convertGiven conv sw s)
  let s := (Tab.keys s.funcs).foldl (convertFunc conv) s
  rbChange (setCeil (switchLock s))

/-- A pending switch comes an edge nearer, and applies at its last. -/
def applySwitch (s : State) : State :=
  match s.tt.switch with
  | none => s
  | some sw => if sw.edges ≤ 1 then switchEdge s sw else updTt s fun t => { t with switch := some { sw with edges := sw.edges - 1 } }

/-! Throttling (R67, R506) -/

/-- The hottest of some readings in eighths of a degree, 0x8000 left out. -/
def hottest (ts : List (BitVec 16)) : Option Int :=
  (ts.filter fun t => t != 0x8000#16).foldl (fun m t =>
    match m with
    | some h => some (max h t.toInt)
    | none => some t.toInt) none

/-- ADM_THROTTLE after an edge. -/
def throttleNext (v : BitVec 9) (h : Option Int) : BitVec 9 :=
  match h with
  | none => v
  | some h =>
    if 784 ≤ h then BitVec.ofNat 9 (v.toNat - 16)
    else if h ≤ 744 then BitVec.ofNat 9 (min 256 (v.toNat + 8))
    else v

/-- Adjust ADM_THROTTLE from the 12 readings of the previous cycle. -/
def throttle (s : State) (ts : List (BitVec 16)) : State :=
  updAdm s fun a => { a with throttle := throttleNext a.throttle (hottest (ts.take 12)) }

/-- The readings that the sensors hold, by index. -/
def sensorTab (ts : List (BitVec 16)) : Tab (BitVec 16) := (List.range 12).filterMap fun i => (ts[i]?).map fun t => (i, t)

/-! The possession plan (R53 to R56, R370, R372) -/

/-- A plan epoch that was written takes effect, and the committed bank becomes active at its position 0 (R55, R57). DESIGN
CHOICE (log entry 64): where both fall on one edge the written epoch is applied first, and the swap replaces it. -/
def planEdge (s : State) : State :=
  updTt s fun t =>
    let t := match t.epochWrite with
      | some e => { t with epoch := e, epochWrite := none }
      | none => t
    if t.commitPend && planPos t.epochNext t.cycle (bankPeriod t (!t.bankB)) == 0 then
      { t with bankB := !t.bankB, epoch := t.epochNext, commitPend := false }
    else t

/-- A possession reaches its end edge: over when its DTWIN has succeeded, else when that completion comes; a DTWIN not yet
issued is issued now (R370). -/
def possEnd (s : State) (port : Nat) (p : MPort) : State :=
  if p.dtwinDone then wakeMem (endPoss s port) port
  else
    let s := updMport s port fun p => { p with early := true }
    if p.dtwinSent then s else sendDtwin s port

/-- A possession starts (R370). -/
def possStart (s : State) (port : Nat) (p : MPort) : State :=
  let s := updMport s port fun p =>
    { p with inPoss := true, lead := false, ndwinSent := false, dtwinSent := false, dtwinDone := false, early := false }
  match p.group with
  | some g => updGroup s g fun x => { x with inPoss := port :: x.inPoss.filter (· != port) }
  | none => s

/-- A start is skipped for its whole entry (R372). -/
def possSkip (s : State) (port : Nat) (p : MPort) : State :=
  let s := updMport s port fun p => { p with lead := false }
  if p.state = 0 || p.state = 4 then s
  else logErr (updMport s port fun p => { p with possSkip := satInc p.possSkip }) 0x0B10 .initiator { member := port } 0

/-- Ends at an edge: a possession whose entry no longer covers the cycle, or whose DTWIN has succeeded (R54, R370). -/
def possEnds (s : State) (port : Nat) : State :=
  match s.mports.find port with
  | none => s
  | some p =>
    let new := entryAt s.tt port s.tt.cycle
    if p.inPoss && new != p.annc && (new.isNone || p.dtwinDone) then possEnd s port p else s

/-- Starts at an edge, in ascending port order (R370, R372). -/
def possStarts (s : State) (port : Nat) : State :=
  match s.mports.find port with
  | none => s
  | some p =>
    let new := entryAt s.tt port s.tt.cycle
    if new == p.annc then s
    else
      let s :=
        if new.isNone then s
        else if p.inPoss then
          if !p.dtwinSent && takeable s port p then s
          else possSkip (possEnd s port p) port p
        else if takeable s port p then possStart s port p
        else possSkip s port p
      updMport s port fun p => { p with annc := new }

/-- Below W0 no start is judged and no Window Select is issued (R474): an entry whose start falls there is not taken, and a
possession whose DTWIN has succeeded ends at its edge (R54, R370). Another ends by the first edge on W0. -/
def possUnjudged (s : State) (port : Nat) : State :=
  match s.mports.find port with
  | none => s
  | some p =>
    let new := entryAt s.tt port s.tt.cycle
    if !p.inPoss then updMport s port fun p => { p with annc := new }
    else if new != p.annc && p.dtwinDone then updMport (endPoss s port) port fun p => { p with annc := new }
    else s

/-- Possession ends and starts of an edge. -/
def possessions (s : State) : State :=
  let ps := Tab.keys s.mports
  if onW0 s then ps.foldl possStarts (ps.foldl possEnds s) else ps.foldl possUnjudged s

/-! Member D and idle members (R62, R80) -/

/-- Recompute every member's D. -/
def recomputeD (s : State) : State :=
  let s' := { s with mports := s.mports.mapVal fun _ p =>
    { p with d := BitVec.ofNat 32 (computeD s p), observed := p.observed.filter fun x => recent s x.2 } }
  if s.mports.all fun p => p.2.d == BitVec.ofNat 32 (computeD s p.2) then s' else rbChange s'

/-- An Express queue holds miss tokens on a function with a volume in a group (R62). -/
def missPinned (s : State) (gno : Nat) : Bool :=
  (heldAllots s).any fun a => decide (0 < a.miss) && (missGroups s a.func).contains gno

/-- A member of a Frugal group with no command for 64 cycles goes to its lowest non-operational power state, and one for which
that no longer holds is kept in its operational power state again (R62). -/
def idleMember (s : State) (port : Nat) (p : MPort) : State :=
  match p.group with
  | none => s
  | some g =>
    let n := if p.cmds.isEmpty then p.idleCycles + 1 else 0
    let s := updMport s port fun p => { p with idleCycles := n }
    let mayRest := s.adm.groupMode.getD g 0 == 2#2 && !missPinned s g
    if 64 ≤ n && !p.lowPower && p.linkUp && !p.contained && mayRest then
      emit (updMport s port fun p => { p with lowPower := true }) (.memPower port true)
    else if p.lowPower && !mayRest then
      emit (updMport s port fun p => { p with lowPower := false, idleCycles := 0 }) (.memPower port false)
    else s

/-- Count the idle cycles of every member. -/
def idleMembers (s : State) : State := s.mports.foldl (fun s p => idleMember s p.1 p.2) s

/-! Commands that wait for an edge (R65, R201) -/

/-- SET_TOKENS commands complete after the edge that applied them (R65). -/
def tokensDone (s : State) : State :=
  let w := s.adm.tokenWait
  w.foldl (fun s a => adminDone s a .success false) (updAdm s fun a => { a with tokenWait := [] })

/-- A SET_TIMETABLE after an edge that switched, loaded or swapped (R201). -/
def TtWait.passed (w : TtWait) (sw ld sp : Bool) : TtWait :=
  { w with switch := w.switch && !sw, load := w.load && !ld, swap := w.swap && !sp }

/-- A SET_TIMETABLE waits for nothing more. -/
def TtWait.over (w : TtWait) : Bool := !w.switch && !w.load && !w.swap

/-- SET_TIMETABLE commands complete after the last edge they wait for. -/
def timetableDone (before s : State) : State :=
  let sw := before.tt.switch.isSome && s.tt.switch.isNone
  let ld := before.tt.loadArm && !s.tt.loadArm
  let sp := before.tt.commitPend && !s.tt.commitPend
  let ws := s.tt.waiters.map fun w => w.passed sw ld sp
  (ws.filter TtWait.over).foldl (fun s w => adminDone s w.cmd .success false)
    (updTt s fun t => { t with waiters := ws.filter fun w => !w.over })

/-! The fare meters (R455 to R458) -/

/-- The record of a volume at a latch: bit 0 EXISTS, bit 1 NEW, bit 2 DELETED (R209, R457). -/
def fareOf (vol : Nat) (v : Volume) : FareRec :=
  { vol := vol, flags := BitVec.ofNat 8 (1 + bit v.fresh 1), blkRead := v.blkRead,
    blkWritten := v.blkWritten, cmdExpress := v.cmdExpress, cmdStandard := v.cmdStandard, cmdBulk := v.cmdBulk,
    expTokens := v.expTokens, extents := v.extents.length + v.piExtents.length }

/-- Latch every counter into a new snapshot (R456, R457). -/
def fareLatch (s : State) : State :=
  let live := s.vols.map fun v => fareOf v.1 v.2
  let gone := s.fare.deleted.filter fun r => !s.vols.has r.vol
  let t := now s
  { s with
    fare := { s.fare with seq := s.fare.seq + 1, prevTs := s.fare.ts, ts := t, snap := live ++ gone, deleted := [] }
    vols := s.vols.mapVal fun _ v => { v with fresh := false } }

/-- A latch falls in the present slot: slot 0 of a cycle that is a multiple of the period, not latched yet (R456). -/
def fareDue (s : State) : Bool :=
  s.fare.en && s.tt.running && s.tt.slot == 0 && s.tt.cycle.toNat % s.fare.period.toNat == 0 &&
    !(s.fare.seq != 0 && s.fare.ts == now s)

/-- A write of FARE_PERIOD takes effect (R457). -/
def farePeriodEdge (s : State) : State :=
  match s.fare.periodNext with
  | some p => { s with fare := { s.fare with period := p, periodNext := none } }
  | none => s

/-- The latch of an edge (R46, R456). -/
def fareEdge (s : State) : State := if fareDue s then fareLatch s else s

/-! The edge -/

/-- The state update of slot 0 in the order of R46, with the sensor readings of the previous cycle. -/
def edgeUpdate (s : State) (ts : List (BitVec 16)) : State :=
  let s1 := applySwitch (nextCycle s)
  let s2 := refill (throttle s1 ts)
  let s2 := fareEdge (farePeriodEdge (if s.tt.switch.isSome && s1.tt.switch.isNone then cutCeil s2 else s2))
  let s3 := timetableDone s (tokensDone (recomputeD (possessions (planEdge s2))))
  rbSwap (noteFlags (idleMembers (countIdle (policyEdge s3))))

/-- The edge at the end of the present cycle: the issue step of the present slot ends, the slots up to the edge are charged as
host-held, then slot 0 begins, and TTC_OUT rises when it is driven (R34, R46, R83). -/
def cycleEdge (s : State) (ts : List (BitVec 16)) : State :=
  openSlot (ttcPulse (edgeUpdate (accrue (issueSlot s) (slotsOf s.tt.kActive - s.tt.slot)) ts))

/-- CYCLE_EDGE (R32, R36, R41, R46): with the 12 sensor readings of the cycle that ends and the bank voltage (R356, R448).
A stopped timetable has no edge (R42). -/
def execCycleEdge (temps : List (BitVec 16)) (bankMv : Nat) (s : State) : Host.Outcome State Fault Refusal :=
  .next (
    if !s.tt.running then s
    else
      let s := updPwr s fun p => { p with temps := sensorTab temps }
      cycleEdge (updVlt s fun v => { v with huNow := BitVec.ofNat 17 bankMv }) temps)

/-- One slot passes with no command (log entry 1): the last slot of a cycle is followed by the edge, which takes the
readings that the sensors hold. -/
def tick (s : State) : State :=
  if !s.tt.running then s
  else if s.tt.slot + 1 < slotsOf s.tt.kActive then
    openSlot (ttcSettle (updTt (accrue (issueSlot s) 1) fun t => { t with slot := t.slot + 1 }))
  else cycleEdge s (Tab.vals s.pwr.temps)

/-! Commands of the fare meters (R455 to R458) -/

/-- FARE_LATCH (R456): a latch that falls in the present slot and that the edge has not taken; it also runs with the signal
box unattended. -/
def execFareLatch (s : State) : Host.Outcome State Fault Refusal := .next (fareEdge s)

/-- FARE_PERIOD_WRITE (R457, R458): a write of 0 is ignored. -/
def execFarePeriodWrite (value : BitVec 32) (s : State) : Host.Outcome State Fault Refusal :=
  .next (if value = 0 then s else { s with fare := { s.fare with periodNext := some value } })

end Sys2Proof.Machine
end

