-- ==== Sys2Proof/Machine/Engine.lean ====
section
/-! DEFINITION. Branch, load and store, time and system instructions, the call of MAP, thread slots and the
waits (R239, R240, R244 to R248, R256 to R262, R265, R282, R299, R300). -/

namespace Sys2Proof.Machine

/-! Branch (R256) -/

/-- PC moved by a signed offset from the instruction itself. -/
def jump (c : Ctx) (off : BitVec 32) : Ctx := { c with pc := c.pc + off.truncate 24, budget := c.budget - 1 }

/-- BR: taken when flag F equals S. -/
def execBr (i : Ins) (s : State) : Host.Outcome State Fault Refusal :=
  runIns i (i.modIn 0x03C#9 && i.noD && i.noA && i.noB) anyKind s fun c s =>
    updCtx s i.cx fun c' => if flagOf c i.flag == i.bit5 then jump c' i.imm else advance c'

/-- BTAB: the only computed branch, into the table of N words behind it. -/
def execBtab (i : Ins) (s : State) : Host.Outcome State Fault Refusal :=
  runIns i (i.modIn 0 && i.noD && i.noB && decide (1 ≤ i.imm.toNat) && decide (i.imm.toNat ≤ 256)) anyKind s
    fun c s => updCtx s i.cx fun c' =>
      jump c' (BitVec.ofNat 32 (1 + min (i.ga c).toNat (i.imm.toNat - 1)))

/-- CALL: a verified program never calls at depth 4 (R256, R277). -/
def execCall (i : Ins) (s : State) : Host.Outcome State Fault Refusal :=
  if ((s.ctxs.find i.cx).map fun c => decide (4 ≤ c.depth)) == some true then .fault .unverified
  else
    runIns i (i.modIn 0 && i.noD && i.noA && i.noB) anyKind s fun _ s =>
      updCtx s i.cx fun c => { jump c i.imm with retStack := (c.pc + 1) :: c.retStack, depth := c.depth + 1 }

/-- RET: from depth 0, which nothing refuses, the PC and DEPTH are free values (log entry 2). -/
def execRet (i : Ins) (s : State) : Host.Outcome State Fault Refusal :=
  runIns i (i.modIn 0 && i.noD && i.noA && i.noB && i.imm == 0) anyKind s fun c s =>
    if c.depth = 0 then
      let (w, s) := drawFree s
      updCtx s i.cx fun c => { c with pc := w.truncate 24, depth := fieldOf w 24 3, budget := c.budget - 1 }
    else
      updCtx s i.cx fun c =>
        { c with pc := c.retStack.headD 0, retStack := c.retStack.tail, depth := c.depth - 1,
                 budget := c.budget - 1 }

/-- LOOP: counts gd down and branches back while it is not 0. -/
def execLoop (i : Ins) (s : State) : Host.Outcome State Fault Refusal :=
  runIns i (i.modIn 0 && i.noA && i.noB && i.imm.msb) anyKind s fun c s =>
    let v := i.gd c - 1
    updCtx s i.cx fun c' => setGreg (if v = 0 then advance c' else jump c' i.imm) i.d.toNat v

/-! Load and store (R257, R258) -/

/-- Size in bytes of a load or store. -/
def accessSize (i : Ins) : Nat := 2 ^ fieldOf i.mod 2 2

/-- A loaded value of n bytes, sign-extended with mod[4] (R257). -/
def extendLoad (i : Ins) (v : Nat) : Word :=
  let n := 8 * accessSize i
  if i.mod.getLsbD 4 && v.testBit (n - 1) then BitVec.ofNat 64 (v + 2 ^ 64 - 2 ^ n) else BitVec.ofNat 64 v

/-- An offset modulo a power of two, aligned down to the access size. -/
def accessAt (i : Ins) (base : Word) (modulus : Nat) : Nat :=
  let a := (base + i.simm).toNat % modulus
  a - a % accessSize i

/-- LDS: a load from the constant segment of the running program; offsets beyond it read 0. -/
def execLds (i : Ins) (s : State) : Host.Outcome State Fault Refusal :=
  runIns i (i.modIn 0x01C#9 && i.noB) anyKind s fun c s =>
    let consts := match progOf s c.program with
      | some p => p.consts
      | none => []
    let a := accessAt i (i.ga c) (2 ^ 32)
    completeD s i (extendLoad i (leNat ((List.range (accessSize i)).map fun k => consts.getD (a + k) 0)))

/-- The control word of a context (R240). -/
def ctlWord (c : Ctx) : Nat :=
  c.pc.toNat + (c.flags.toNat ||| 1) * 2 ^ 24 + c.cls.code * 2 ^ 32 + (eclass c).code * 2 ^ 34 +
    c.state.code * 2 ^ 36 + c.depth * 2 ^ 40 + bit c.inFault 43

/-- What CLD shows for handle k: 0 for an empty one, otherwise a value other than 0 that the manual does not
fix (R249; log entry 2). -/
def handleWord (cx : Nat) (c : Ctx) (k : Nat) : Nat :=
  match handleOf c k with
  | .empty => 0
  | _ => 1 + (Config.handleValue cx k).toNat % (2 ^ 32 - 1)

/-- The 8 bytes of a context at offset 8k (R239). -/
def ctxWord (cx : Nat) (c : Ctx) (k : Nat) : Nat :=
  if k = 0 then ctlWord c
  else if k = 1 then c.fault.toNat
  else if k = 2 then c.dl.toNat
  else if k = 3 then c.vis.toNat
  else if k = 4 then c.budget % 2 ^ 32 + c.held.total % 2 ^ 32 * 2 ^ 32
  else if k = 5 then
    c.route.toNat + c.func.toNat * 2 ^ 16 + c.sqid.toNat * 2 ^ 32 + c.handler.toNat * 2 ^ 48
  else if k < 8 then 0
  else if k < 16 then fieldOf c.cmd (64 * (k - 8)) 64
  else if k < 24 then handleWord cx c (2 * (k - 16)) + handleWord cx c (2 * (k - 16) + 1) * 2 ^ 32
  else if k < 32 then fieldOf c.locals (64 * (k - 24)) 64
  else (greg c (k - 32)).toNat

/-- CLD: a load from the thread's own context. -/
def execCld (i : Ins) (s : State) : Host.Outcome State Fault Refusal :=
  runIns i (i.modIn 0x01C#9 && i.noB) anyKind s fun c s =>
    let a := accessAt i (i.ga c) 512
    completeD s i (extendLoad i (ctxWord i.cx c (a / 8) / 2 ^ (8 * (a % 8)) % 2 ^ (8 * accessSize i)))

/-- n bits of a 512-bit value replaced from bit lo. -/
def insert512 (v : BitVec 512) (lo n x : Nat) : BitVec 512 :=
  BitVec.ofNat 512 (v.toNat - fieldOf v lo n * 2 ^ lo + x % 2 ^ n * 2 ^ lo)

/-- CST: a store to LOCAL. -/
def execCst (i : Ins) (s : State) : Host.Outcome State Fault Refusal :=
  runIns i (i.modIn 0x00C#9 && i.noD) notMap s fun c s =>
    let a := accessAt i (i.ga c) 64
    complete s i.cx fun c' =>
      { c' with locals := insert512 c'.locals (8 * a) (8 * accessSize i) (i.gb c).toNat }

/-- XTL: group extent number at an index of the volume's extent table; all ones when there is none. -/
def execXtl (i : Ins) (s : State) : Host.Outcome State Fault Refusal :=
  runIns i (i.modIn 0x001#9 && i.noA && i.s2ok) anyKind s fun c s =>
    completeD s i (match ctxVol s c with
      | some v => BitVec.ofNat 64 (extentAt v (i.s2 c).toNat)
      | none => BitVec.allOnes 64)

/-- The geometry fields of GINFO (R258). -/
def ginfoField (no : Nat) (g : Group) : Nat → Nat
  | 0 => no
  | 1 => g.n
  | 2 => g.w
  | 3 => g.stripLog2
  | 4 => g.stripLog2 - 12
  | 5 => g.spare
  | 6 => g.geom.es
  | 7 => g.w * g.geom.b
  | 8 => (patternOf g).1
  | 9 => (patternOf g).2
  | 10 => g.n - g.spare
  | 11 => g.rows
  | 12 => Config.dataStart
  | 13 => g.extents
  | _ => g.seed.toNat

/-- GINFO: a context that names no group gives a free value. -/
def execGinfo (i : Ins) (s : State) : Host.Outcome State Fault Refusal :=
  runIns i (i.modIn 0 && i.noA && i.noB && decide (i.imm.toNat < 15)) anyKind s fun c s =>
    match ctxGroupNo s c, ctxGroup s c with
    | some no, some g => completeD s i (BitVec.ofNat 64 (ginfoField no g i.imm.toNat))
    | _, _ => let (v, s) := drawFree s; completeD s i v

/-! The call of MAP (R226, R282) -/

/-- The layout route whose MAP a route uses (R274). -/
def layoutRouteOf (s : State) (route : Nat) : Nat :=
  match routeOf s route with
  | some (_, r) => if r.layout then r.id else r.map
  | none => 0

/-- What one run of MAP returns: stripe, index, place and block within the strip. -/
structure MapOut where
  stripe : Nat
  index : Nat
  at_ : Place
  o : Nat
  deriving DecidableEq, Repr

/-- MAP of a group from a volume block (mode 0) or from a stripe, an index and a block (mode 1) (R282). DESIGN CHOICE (log
entry 70): any other g2 acts as mode 1, and mode 0 with no volume maps stripe 0. -/
def mapRun (g : Group) (v : Option Volume) (mode g1 g3 g5 : Nat) : MapOut :=
  if mode = 0 then
    match v with
    | some v =>
      let x := stripeOf g v g1
      { stripe := x.1, index := x.2.1, at_ := place g x.1 x.2.1, o := x.2.2 }
    | none => { stripe := 0, index := 0, at_ := place g 0 0, o := 0 }
  else { stripe := g1, index := g3, at_ := place g g1 g3, o := g5 }

/-- Registers and flags after MAP; g7 and f3 are left at values that nothing fixes (R282). -/
def mapRegs (g : Group) (r : MapOut) (w7 : Word) (c : Ctx) : Ctx :=
  let c := setGreg c 1 (BitVec.ofNat 64 r.stripe)
  let c := setGreg c 2 (BitVec.ofNat 64 r.index)
  let c := setGreg c 3 (BitVec.ofNat 64 r.at_.member)
  let c := setGreg c 4 (BitVec.ofNat 64 (memberLba g r.at_.row r.o))
  let c := setGreg c 5 (BitVec.ofNat 64 r.o)
  let c := setGreg c 6 (BitVec.ofNat 64 r.at_.row)
  let c := setGreg c 7 w7
  let c := setFlag c 1 r.at_.spare
  let c := setFlag c 2 (isPadding g r.stripe r.index)
  setFlag c 3 (w7.getLsbD 0)

/-- CALLM: the MAP of the context's route runs to its RET as one step; its instructions count against the
budget (R271, R282). DESIGN CHOICE (log entry 70): a context that names no group keeps g1 to g6, f1 and f2. -/
def execCallm (i : Ins) (s : State) : Host.Outcome State Fault Refusal :=
  if ((s.ctxs.find i.cx).map fun c => decide (4 ≤ c.depth)) == some true then .fault .unverified
  else
    runIns i (i.modIn 0 && i.noD && i.noA && i.noB && i.imm == 0) notMap s fun c s =>
      let cost := Config.mapInstrs (layoutRouteOf s c.route.toNat) (greg c 2).toNat (greg c 1).toNat
      if c.budget < 1 + cost then fatal s i.cx .budget 0
      else
        let (w7, s) := drawFree s
        match ctxGroup s c with
        | none => complete s i.cx fun c => { setGreg c 7 w7 with budget := c.budget - cost }
        | some g =>
          let r := mapRun g (ctxVol s c) (greg c 2).toNat (greg c 1).toNat (greg c 3).toNat (greg c 5).toNat
          complete s i.cx fun c => mapRegs g r w7 { c with budget := c.budget - cost }

/-! Time (R259, R260) -/

/-- TTNOW. -/
def execTtnow (i : Ins) (s : State) : Host.Outcome State Fault Refusal :=
  runIns i (i.modIn 0 && i.noA && i.noB && i.imm == 0) notMap s fun _ s => completeD s i (now s)

/-- DLSET: Maintenance handlers alone write DL. -/
def execDlset (i : Ins) (s : State) : Host.Outcome State Fault Refusal :=
  runIns i (i.modIn 0x001#9 && i.noD && i.noA && i.s2ok) maintOnly s fun c s =>
    let t := after s (i.s2 c).toNat
    complete s i.cx fun c => { c with dl := t }

/-- Slots from now to a deadline, signed (R36, R259). -/
def slotsLeft (s : State) (dl : Word) : Word :=
  if dl = noTs then BitVec.ofNat 64 (2 ^ 63 - 1)
  else if tsLe s.tt.kActive (now s) dl then BitVec.ofNat 64 (tsAhead s.tt.kActive (now s) dl)
  else BitVec.ofInt 64 (-(tsAhead s.tt.kActive dl (now s) : Int))

/-- DLLEFT. -/
def execDlleft (i : Ins) (s : State) : Host.Outcome State Fault Refusal :=
  runIns i (i.modIn 0 && i.noA && i.noB && i.imm == 0) notMap s fun c s => completeD s i (slotsLeft s c.dl)

/-- The thread gives up its slot and is READY. -/
def yieldCtx (s : State) (cx : Nat) : State := wake (leaveSlot s cx) cx

/-- WAIT: for a number of slots (A = 0) or until a timestamp (A = 1). DESIGN CHOICE (log entry 70): R259 gives s2 as 1 to
2^32 - 1; a greater one counts modulo 2^32. -/
def execWait (i : Ins) (s : State) : Host.Outcome State Fault Refusal :=
  runIns i (i.modIn 0x021#9 && i.noD &&
      (if i.bit5 then !i.useImm && i.noB && i.imm == 0 else i.noA && i.s2ok)) notMap s fun c s =>
    let s := complete s i.cx id
    if i.bit5 then
      startWait s i.cx (.until_ (if tsLe s.tt.kActive (i.ga c) (now s) then after s 1 else i.ga c))
    else
      let n := (i.s2 c).toNat % 2 ^ 32
      if n = 0 then yieldCtx s i.cx else startWait s i.cx (.until_ (after s n))

/-! System (R261, R262) -/

/-- YIELD. -/
def execYield (i : Ins) (s : State) : Host.Outcome State Fault Refusal :=
  runIns i (i.modIn 0 && i.noD && i.noA && i.noB && i.imm == 0) notMap s fun _ s =>
    yieldCtx (complete s i.cx id) i.cx

/-- RFAULT: leave the fault handler, retrying or skipping the faulting instruction. -/
def execRfault (i : Ins) (s : State) : Host.Outcome State Fault Refusal :=
  runIns i (i.modIn 0x001#9 && i.noD && i.noA && i.noB && i.imm == 0) (· == .fault) s fun _ s =>
    let s := if i.useImm then { s with movers := s.movers.mapVal fun _ m => dropChans i.cx m } else s
    updCtx s i.cx fun c =>
      { c with inFault := false, budget := c.budget - 1,
               pc := BitVec.ofNat 24 (fieldOf c.fault 8 24) + (if i.useImm then 1 else 0) }

/-! Thread slots (R244, R247, R248) -/

/-- Engines of a cluster (R238). -/
def enginesOf (cluster : Nat) : List Nat := (List.range 8).map fun e => 8 * cluster + e

/-- A thread slot is free. -/
def slotFree (s : State) (e t : Nat) : Bool := !s.ctxs.any fun x => x.2.place == some (e, t)

/-- The engine of a cluster whose slot 0 is free, and has been so longest. -/
def freeSlot0 (s : State) (cluster : Nat) : Option Nat :=
  ((enginesOf cluster).filter fun e => slotFree s e 0).foldl (fun best e =>
    match best with
    | none => some e
    | some b => if s.engineFree.getD e 0 < s.engineFree.getD b 0 then some e else some b) none

/-- Threads of a class in slots 1 to 7 of an engine (R16). -/
def classLoad (s : State) (e : Nat) (cl : Cls) : Nat :=
  (s.ctxs.filter fun x => x.2.cls == cl && (match x.2.place with
    | some (e', _) => e' == e
    | none => false)).length

/-- A free slot 1 to 7 of a cluster: on the engine with the fewest threads of the class (R16). -/
def freeOther (s : State) (cluster : Nat) (cl : Cls) : Option (Nat × Nat) :=
  (enginesOf cluster).foldl (fun best e =>
    match (List.range 7).find? fun t => slotFree s e (t + 1) with
    | none => best
    | some t =>
      match best with
      | none => some (e, t + 1)
      | some b => if classLoad s e cl < classLoad s b.1 cl then some (e, t + 1) else some b) none

/-- A thread issued before another, or in the same slot and became READY first. -/
def issuedBefore (s : State) (a b : Ctx) : Bool :=
  if a.issued = b.issued then decide (a.since < b.since) else tsLe s.tt.kActive a.issued b.issued

/-- The thread of slots 1 to 7 of a cluster that an Express context switches out: of the lowest effective
class, not Express; among equals the one that issued least recently, and of two that issued in one slot the one that became
READY first (R247; log entry 68). -/
def victimOf (s : State) (cluster : Nat) : Option (Nat × Ctx) :=
  (s.ctxs.filter fun x => x.2.state == .running && x.2.cluster == cluster && eclass x.2 != .express &&
      (match x.2.place with
        | some (_, t) => t != 0
        | none => false)).foldl (fun best x =>
    match best with
    | none => some x
    | some b =>
      if (eclass b.2).code < (eclass x.2).code || ((eclass b.2).code == (eclass x.2).code && issuedBefore s x.2 b.2)
      then some x else some b) none

/-- A context enters a slot, from the siding region by way of the siding cache (R18). -/
def enterSlot (s : State) (cx e t : Nat) : State :=
  updCtx (loadCtx s cx) cx fun c => { c with state := .running, place := some (e, t) }

/-- The READY context of a cluster that is served next: own class Express first, then effective class order,
first come first served (R244, R248). -/
def nextReady (s : State) (cluster : Nat) (p : Ctx → Bool) : Option (Nat × Ctx) :=
  match s.ctxs.filter fun x => x.2.state == .ready && x.2.cluster == cluster && p x.2 with
  | [] => none
  | x :: xs => some (xs.foldl betterWaiter x)

/-- A READY context of a cluster takes a thread slot (R244, R247). -/
def slotAssign (s : State) (cluster : Nat) : State :=
  match nextReady s cluster fun c => c.cls == .express with
  | some (cx, _) =>
    match freeSlot0 s cluster with
    | some e => enterSlot s cx e 0
    | none =>
      match freeOther s cluster .express with
      | some (e, t) => enterSlot s cx e t
      | none =>
        match victimOf s cluster with
        | none => s
        | some (v, vc) =>
          match vc.place with
          | none => s
          | some (e, t) => enterSlot (yieldCtx s v) cx e t
  | none =>
    match nextReady s cluster fun c => c.cls != .express with
    | none => s
    | some (cx, c) =>
      match freeOther s cluster c.cls with
      | some (e, t) => enterSlot s cx e t
      | none => s

/-- SLOT_ASSIGN (R244). -/
def execSlotAssign (cluster : Nat) (s : State) : Host.Outcome State Fault Refusal := .next (slotAssign s cluster)

/-- WAIT_EXPIRY (R259): the end of a WAIT makes the context READY. -/
def execWaitExpiry (cx : Nat) (s : State) : Host.Outcome State Fault Refusal :=
  .next (match s.ctxs.find cx with
    | none => s
    | some c =>
      match c.wait with
      | .until_ t => if c.state == .waiting && due s t then wake s cx else s
      | _ => s)

/-- LOCK_WATCHDOG (R299): the holder is marked for LOCK_HOLD, and the lock leaves it in the next slot. A waiting holder becomes
READY and takes the fault before it issues (R265). -/
def execLockWatchdog (g stripe : Nat) (s : State) : Host.Outcome State Fault Refusal :=
  .next (match lockOf s g stripe with
    | none => s
    | some l =>
      match l.holder with
      | none => s
      | some cx =>
        if !due s l.due || l.expired then s
        else
          let s := updLock s g stripe fun l => { l with expired := true }
          match s.ctxs.find cx with
          | none => s
          | some c =>
            let s := updCtx s cx fun c => { c with lockHold := some stripe }
            if c.state == .waiting || c.state == .translating then
              wake { s with locks := s.locks.map fun l => { l with waiters := l.waiters.filter (· != cx) } } cx
            else s)

end Sys2Proof.Machine
end

