-- ==== Sys2Proof/Machine/CfgSpace.lean ====
section
/-! DEFINITION. Configuration space of a function (R91 to R96, R117, R125). The manual gives the capabilities and their
offsets; the offsets and bits within a capability are those of the PCIe specification (PRESUMED, log entry 11). Fields with a
command of their own (bus master enable, VF enable, the D-state, FLR, clearing the Function Mask) are left to it. -/

namespace Sys2Proof.Machine

/-- First offset of the MSI-X table of a function (R97). -/
def tableBase (f : Nat) : Nat := if isPF f then 0x8000 else 0x2000

/-- Subsystem Vendor ID and Subsystem ID from the IDENTITY record, 0x3C7A and 0x0000 when unset (R93, R451). -/
def subsystemId (s : State) : Nat :=
  if tagType s 0 = 1 && tagField s 0 0x40 4 != 0 then tagField s 0 0x40 4 else 0x3C7A

/-- Bits of a configuration dword of a PF that read back as written: cache line size, BARs by their sizes (R96), interrupt
line, device control, page size of VFs, LTR and L1 PM control. -/
def pfMask (off : Nat) : BitVec 32 :=
  match off with
  | 0x04 => 0x142
  | 0x0C => 0xFF
  | 0x10 => 0xFFFF0000
  | 0x14 => 0xFFFFFFFF
  | 0x18 => 0xFE000000
  | 0x1C => 0xFFFFFFFF
  | 0x30 => 0xFFFF0001
  | 0x3C => 0xFF
  | 0x58 => 0x71FF
  | 0x60 => 0xFB
  | 0x80 => 0x3F
  | 0x168 => 0x18
  | 0x184 => 0xFFFFC000
  | 0x188 => 0xFFFFFFFF
  | 0x18C => 0xFFC00000
  | 0x190 => 0xFFFFFFFF
  | 0x1A4 => 0x1F0000
  | 0x1D4 => 0x1FFF1FFF
  | 0x1E8 => 0xE3FFFF0F
  | 0x1EC => 0xFB
  | _ => 0

/-- The same of a VF: its BARs lie in the SR-IOV capability of its PF. -/
def vfMask (off : Nat) : BitVec 32 :=
  match off with
  | 0x04 => 0x140
  | 0x0C => 0xFF
  | 0x58 => 0x71FF
  | 0x1A4 => 0x1F0000
  | _ => 0

/-- Bits that read back as written. -/
def cfgMask (f off : Nat) : BitVec 32 := if isPF f then pfMask off else vfMask off

/-- Fixed bits of the dwords that only a PF has: power management, SR-IOV, LTR and L1 PM Substates (R93, R94, R96). -/
def pfFixed (off : Nat) : Nat :=
  match off with
  | 0x10 => 4
  | 0x18 => 4
  | 0x34 => 0x40
  | 0x3C => 0x100
  | 0x40 => 0xC0035001
  | 0x148 => 0x1601000E
  | 0x160 => 0x1A010010
  | 0x164 => 4
  | 0x16C => 0x003F003F
  | 0x174 => 0x00010001
  | 0x178 => 0x72400000
  | 0x17C => 1
  | 0x180 => 1
  | 0x184 => 4
  | 0x18C => 4
  | 0x1C0 => 0x1D01001B
  | 0x1D0 => 0x1E010018
  | 0x1E0 => 0x2001001E
  | 0x1E4 => 0x1F
  | _ => 0

/-- Fixed bits that a VF has in place of them. -/
def vfFixed (off : Nat) : Nat :=
  match off with
  | 0x34 => 0x50
  | 0x148 => 0x1A01000E
  | 0x1C0 => 0x0001001B
  | _ => 0

/-- Fixed bits of every function's dwords (R92 to R94, R125). -/
def fnFixed (off : Nat) : Nat :=
  match off with
  | 0x00 => 0x72403C7A
  | 0x04 => 0x00100000
  | 0x08 => 0x01040000 + Config.stepping.toNat
  | 0x50 => 0x0002B010
  | 0x54 => 0x10008022
  | 0x74 => 0x00030001
  | 0x7C => 0x7E
  | 0xB4 => 0
  | 0xB8 => 0x2400
  | 0x100 => 0x14820001
  | 0x1A0 => 0x1B01000F
  | 0x1B0 => 0x1C010013
  | 0x1C4 => 0x1400
  | _ => 0

/-- Fixed bits of a configuration dword. -/
def cfgFixed (f off : Nat) : Nat := fnFixed off + if isPF f then pfFixed off else vfFixed off

/-- The reset values of the AER registers: header end-to-end prefixes and the error masks and severities (log entry 11). -/
def aerReset (off : Nat) : BitVec 32 :=
  match off with
  | 0x108 => 0x400000
  | 0x10C => 0x462030
  | 0x114 => 0xE000
  | 0x118 => 0xA0
  | _ => 0

/-- Bits of an AER register that software writes. -/
def aerMask (off : Nat) : BitVec 32 :=
  match off with
  | 0x108 => 0x7FFFF030
  | 0x10C => 0x7FFFF030
  | 0x114 => 0xF1C1
  | 0x118 => 0x140
  | _ => 0

/-- AER status registers: their bits clear when written 1. -/
def aerStatus (off : Nat) : Bool := off == 0x104 || off == 0x110

/-- A negotiated link as the Link Capabilities or Link Status fields show it: speed and width (R90, R91). -/
def linkWord (speed width : Nat) : Nat := packed [(0, 4, speed), (4, 6, width)]

/-- The variable part of the dwords of a port: link, SR-IOV (R91, R93). -/
def portCfg (h : HostPort) (pf : Bool) (off : Nat) : Nat :=
  match off with
  | 0x5C => packed [(0, 10, linkWord 6 h.widthMax), (10, 2, 2)]
  | 0x60 => packed [(16, 10, linkWord h.speedNeg h.widthNeg)]
  | 0x168 => if pf then bit h.vfEnable 0 else 0
  | 0x170 => if pf then h.numVfs else 0
  | _ => 0

/-- The variable part of the dwords of a function. -/
def fnCfg (s : State) (f : Nat) (fn : Func) (off : Nat) : Nat :=
  match off with
  | 0x04 => packed [(2, 1, bit fn.bme 0), (10, 1, bit (isPF f && fn.intxDis) 0), (16, 16, fn.cmdStat.toNat),
      (19, 1, bit (isPF f && intxPending fn) 0)]
  | 0x2C => subsystemId s
  | 0x44 => if isPF f then packed [(0, 2, if fn.d3 then 3 else 0), (8, 1, bit fn.pmeEn 0)] else 0
  | 0x74 => bit (isPF f) 11
  | 0x78 => packed [(0, 4, fn.ctoField.toNat), (10, 1, bit (isPF f && fn.ltrEn) 0), (12, 1, bit fn.tag10 0)]
  | 0xB0 => packed [(0, 8, 0x11), (16, 11, vectorsOf f - 1), (30, 1, bit fn.msixFmask 0), (31, 1, bit fn.msixEn 0)]
  | 0xB4 => tableBase f
  | 0x1A4 => bit fn.atsEn 31
  | 0x1B4 => packed [(0, 1, bit fn.priEn 0), (16, 1, bit fn.priStop 0)]
  | 0x1BC => fn.priAlloc
  | 0x1C4 => bit fn.pasidEn 16
  | _ => 0

/-- The capabilities from 0x200 on (R94): a PF has them, and the first is Secondary PCI Express. The manual gives neither the
offsets of the others nor their contents: those are free, as a function of the dword and of what it was last written. -/
def extCfg (f : Nat) (fn : Func) (off : Nat) : Nat :=
  if !isPF f || 0x1000 ≤ off then 0
  else
    let v := (Config.extCfg off (fn.cfg.getD off 0)).toNat
    if off = 0x200 then 0x10019 + v / 2 ^ 20 * 2 ^ 20 else v

/-- A configuration dword of a function (R93, R94). -/
def readCfg (s : State) (f : Nat) (fn : Func) (off : Nat) : Nat :=
  if 0x200 ≤ off then extCfg f fn off
  else if 0x104 ≤ off && off ≤ 0x118 then (fn.aer.getD off (aerReset off)).toNat
  else
    let port := ((s.ports.find (portOf f)).map fun h => portCfg h (isPF f) off).getD 0
    (fn.cfg.getD off 0 &&& cfgMask f off).toNat ||| cfgFixed f off ||| port ||| fnCfg s f fn off

/-- Outstanding tags by the tag widths enabled: 5 bits, 8 bits, 10 bits (R92, R128). -/
def tagsOf (fn : Func) : Nat := if fn.tag10 then 768 else if fn.extTag then 256 else 32

/-- A size field of Device Control: 128 bytes doubled. -/
def pcieSize (v : Nat) : Nat := 128 * 2 ^ min v 5

/-- Device Control: relaxed ordering, payload sizes and 8-bit tags (R92, R115). -/
def writeDevControl (fn : Func) (v : BitVec 32) : Func :=
  let fn := { fn with ro := v.getLsbD 4, mps := min 512 (pcieSize (fieldOf v 5 3)), mrrs := pcieSize (fieldOf v 12 3),
                      extTag := v.getLsbD 8 }
  { fn with tagLimit := tagsOf fn }

/-- Device Control 2 but the timeout value: 10-bit tags and LTR (R92). -/
def writeDevControl2 (f : Nat) (fn : Func) (v : BitVec 32) : Func :=
  let fn := { fn with tag10 := v.getLsbD 12, ltrEn := isPF f && v.getLsbD 10 }
  { fn with tagLimit := tagsOf fn }

/-- An AER register is written (R92). -/
def writeAer (fn : Func) (off : Nat) (v ones : BitVec 32) : Func :=
  let old := fn.aer.getD off (aerReset off)
  { fn with aer := fn.aer.put off (if aerStatus off then old &&& ~~~ones else (v &&& aerMask off) ||| (aerReset off &&& ~~~aerMask off)) }

/-- A configuration dword is written: `v` is its new value, and `ones` has the bits written 1 (R93, R94, R119). -/
def writeCfg (f : Nat) (fn : Func) (off : Nat) (v ones : BitVec 32) : Func :=
  if 0x104 ≤ off && off ≤ 0x118 then writeAer fn off v ones
  else
    let kept := if 0x200 ≤ off && isPF f then v else v &&& cfgMask f off
    let fn := { fn with cfg := if kept = 0 then fn.cfg.del off else fn.cfg.put off kept }
    match off with
    | 0x04 => { fn with intxDis := isPF f && v.getLsbD 10, cmdStat := fn.cmdStat &&& ~~~(ones.extractLsb' 16 16) }
    | 0x44 => { fn with pmeEn := isPF f && v.getLsbD 8 }
    | 0x58 => writeDevControl fn v
    | 0x78 => writeDevControl2 f fn v
    | 0xB0 => { fn with msixEn := v.getLsbD 31, msixFmask := v.getLsbD 30 || fn.msixFmask }
    | 0x1A4 => { fn with atsEn := v.getLsbD 31 }
    | 0x1B4 => { fn with priEn := v.getLsbD 0, priStop := fn.priStop && !(v.getLsbD 0 && !fn.priEn) }
    | 0x1BC => { fn with priAlloc := v.toNat }
    | 0x1C4 => { fn with pasidEn := v.getLsbD 16 }
    | _ => fn

/-- The effects of a configuration write beyond its function: the Route Book, interrupts, the completion timeout (R104, R112,
R113, R125). -/
def cfgWritten (s : State) (f off at_ : Nat) (v : BitVec 32) : State :=
  match off with
  | 0x04 => rbChange (updateIntx s f)
  | 0xB0 => rbChange (updateIntx (sendPending s f) f)
  | 0x78 => if at_ = 0 then loadCto s f (v.extractLsb' 0 4) else s
  | _ => s

/-- A naturally aligned access of 1, 2 or 4 bytes (R94; log entry 11). -/
def cfgAligned (off size : Nat) : Bool := (size == 1 || size == 2 || size == 4) && off % size == 0

/-- The bytes of a configuration dword that a read names. -/
def readCfgBytes (s : State) (f : Nat) (fn : Func) (off size : Nat) : Nat :=
  readCfg s f fn (off / 4 * 4) / 2 ^ (8 * (off % 4)) % 2 ^ (8 * size)

/-- A configuration write of 1, 2 or 4 bytes. -/
def writeCfgBytes (s : State) (f : Nat) (fn : Func) (off size : Nat) (v : Word) : State :=
  let d := off / 4 * 4
  let old := readCfg s f fn d
  let field := 2 ^ (8 * (off % 4))
  let new := v.toNat % 2 ^ (8 * size) * field
  let kept := old - old / field % 2 ^ (8 * size) * field
  let w := BitVec.ofNat 32 (kept + new)
  cfgWritten (emit (updFunc s f fun fn => writeCfg f fn d w (BitVec.ofNat 32 new)) (.configDone f)) f d (off % 4) w

end Sys2Proof.Machine
end

