-- ==== Sys2Proof/Machine/Registers.lean ====
section
/-! DEFINITION. Reads of registers and writes of those that have no command of their own (R9 to R11, R57, R89, R93, R94,
R97 to R100, R112, R113, R117, R123, R171, R356, R398, R425, R427, R430, R434, R435, R439, R445, R454, R458, R487). -/

namespace Sys2Proof.Machine

/-! Reads -/

/-- The register of a table of n entries of some bytes at a base: index and byte within the entry. -/
def entryAtOff (base size n off : Nat) : Option (Nat × Nat) :=
  if base ≤ off && off < base + size * n then some ((off - base) / size, (off - base) % size) else none

/-- A dword of a wide entry. -/
def dwordOf (v i : Nat) : Nat := v / 2 ^ (32 * i) % 2 ^ 32

/-- TT_ registers but TT_NOW (R57). -/
def readTt (s : State) (off : Nat) : Option Nat :=
  let t := s.tt
  match off with
  | 0x00 => some (ttStatus s)
  | 0x04 => some (ttCtrl s)
  | 0x08 => none
  | 0x0C => none
  | 0x10 => some t.nomCycle.toNat
  | 0x14 => some t.slotsLog2.toNat
  | 0x18 => some t.measPeriod.toNat
  | 0x20 => some t.phaseErr.toNat
  | 0x24 => some t.window.toNat
  | 0x28 => some t.inComp.toNat
  | 0x2C => some (ttOutCtrl s)
  | 0x30 => some t.cycleLoad.toNat
  | 0x38 => some (packed [(0, 16, t.miss.toNat), (16, 16, t.offwin.toNat)])
  | 0x3C => some t.loadCnt.toNat
  | 0x40 => some (bit t.planEn 1)
  | 0x44 => some (ttPlanStatus s)
  | 0x48 => some t.periodA.toNat
  | 0x4C => some t.periodB.toNat
  | 0x50 => some (t.epochWrite.getD t.epoch).toNat
  | 0x58 => some t.possLead.toNat
  | 0x60 => some t.epochNext.toNat
  | _ =>
    match entryAtOff 0x1000 8 1024 off, entryAtOff 0x3000 8 1024 off with
    | some x, _ => some ((t.planA.getD x.1 0).toNat / 2 ^ (8 * x.2))
    | none, some x => some ((t.planB.getD x.1 0).toNat / 2 ^ (8 * x.2))
    | none, none => some 0

/-- ADM_ registers (R89). -/
def readAdm (s : State) (off : Nat) : Nat :=
  let a := s.adm
  let l := allots s
  match off with
  | 0x00 => admStatus s
  | 0x04 => a.maintFloor.toNat
  | 0x08 => a.lHost.toNat
  | 0x0C => a.stdTarget.toNat
  | 0x10 => a.throttle.toNat
  | 0x14 => 0x80
  | 0x18 => a.sbPool.toNat
  | 0x1C => dirtyReserve s
  | 0x20 => a.ceilEng.toNat
  | 0x24 => a.ceilMov.toNat
  | 0x28 => a.ceilHbm.toNat
  | 0x2C => a.ceilWrite.toNat
  | 0x30 => sumEng s l
  | 0x34 => sumMov s l
  | 0x38 => sumHbm s l
  | 0x3C => sumWrite l
  | 0xA0 => costEng
  | _ =>
    match entryAtOff 0x40 4 8 off, entryAtOff 0x60 4 8 off, entryAtOff 0x80 4 8 off with
    | some g, _, _ => ceilMemOf s g.1
    | none, some g, _ => sumMem s l g.1
    | none, none, some g => ((a.groupModeNext.find g.1).getD (a.groupMode.getD g.1 0)).toNat
    | none, none, none =>
      match entryAtOff 0x1000 16 256 off, entryAtOff 0x2000 16 256 off, entryAtOff 0x4000 16 512 off with
      | some x, _, _ => dwordOf (((a.exp.find x.1).map expWord).getD (a.expIdle.getD x.1 0)) (x.2 / 4)
      | none, some x, _ => dwordOf (((a.exp.find x.1).map expLeftWord).getD 0) (x.2 / 4)
      | none, none, some x => dwordOf (sbWord (a.sb.getD x.1 {})) (x.2 / 4)
      | none, none, none => 0

/-- VLT_ registers (R356). -/
def readVlt (s : State) (off : Nat) : Nat :=
  let v := s.vlt
  match off with
  | 0x00 => vltStatus s
  | 0x04 => vltCtrl s
  | 0x08 => v.huItest.toNat
  | 0x0C => v.huDiv.toNat
  | 0x10 => v.vCut.toNat
  | 0x14 => v.pDump.toNat
  | 0x18 => v.huTime.toNat
  | 0x1C => v.tFixed.toNat
  | 0x20 => v.remeasure.toNat
  | 0x24 => v.pfailFilt.toNat
  | 0x28 => v.patrol.toNat
  | 0x30 => v.cMeas.toNat
  | 0x34 => v.vStart.toNat
  | 0x38 => v.huNow.toNat
  | 0x3C => v.rate.toNat
  | 0x40 => v.eUsable.toNat
  | 0x48 => v.budget
  | 0x50 => dirtyUnits s * 4096
  | 0x58 => v.imgSeq
  | 0x60 => bit v.areaA.sealed 0 + bit v.areaB.sealed 1
  | 0x64 => v.eccCe.toNat
  | 0x68 => v.eccUe.toNat
  | 0x6C => min s.cache.retired 4096
  | 0x70 => s.journal.recs.length
  | _ =>
    match entryAtOff 0x80 4 8 off with
    | some g => vltMirror s g.1
    | none => 0

/-- A port register of the MEM_ block (R398). -/
def readMemPort (p : MPort) (reg : Nat) : Nat :=
  match reg with
  | 0x00 => memPStat p
  | 0x04 => p.d.toNat
  | 0x08 => p.latNs.toNat
  | 0x0C => p.rate.toNat
  | 0x10 => p.cntTmo.toNat
  | 0x14 => p.cntMedia.toNat
  | 0x18 => p.cntLate.toNat
  | _ => memPQuar p

/-- MEM_ registers (R398). -/
def readMem (s : State) (off : Nat) : Nat :=
  let m := s.mem
  match off with
  | 0x00 => memStatus s
  | 0x04 => memCtrl s
  | 0x08 => m.cfg0.toNat
  | 0x0C => m.cfg1.toNat
  | 0x10 => m.tmoStd.toNat
  | 0x14 => m.tmoBulk.toNat
  | 0x18 => m.tmoMaint.toNat
  | 0x1C => m.tmoWrite.toNat
  | 0x20 => m.tmoAdmin.toNat
  | 0x24 => memPolicy s
  | 0x28 => m.policyWin.toNat
  | 0x2C => m.sbDepth.toNat
  | 0x30 => m.prsntDeb.toNat
  | 0x34 => m.winRetry.toNat
  | 0x38 => m.rbDepth.toNat
  | 0x3C => m.scrubPeriod.toNat
  | 0x40 => m.lost.length
  | _ =>
    match entryAtOff 0x80 4 8 off, entryAtOff 0x1000 32 72 off with
    | some g, _ => ((groupOf8 s g.1).map (memGroupWord s)).getD 0x100
    | none, some x => readMemPort ((s.mports.find x.1).getD {}) x.2
    | none, none => 0

/-- PWR_ registers (R487). -/
def readPwr (s : State) (off : Nat) : Nat :=
  let p := s.pwr
  match off with
  | 0x00 => pwrStatus s
  | 0x04 => packed [(0, 3, p.setRung.toNat), (16, 16, p.setDwell.toNat)]
  | 0x08 => packed [(0, 9, p.railEn.toNat), (16, 9, p.railPg.toNat)]
  | 0x0C => p.rstCause.toNat
  | 0x10 => p.heldDetail.toNat
  | 0x14 => pwrBoot s
  | 0x18 => p.vauxMv.toNat
  | 0x1C => p.idle.toNat
  | 0x20 => p.cntEntry.toNat
  | 0x24 => p.cntAbandon.toNat
  | 0x28 => p.exitLast.toNat
  | 0x2C => p.restoreLast.toNat
  | _ => 0

/-- FARE_ registers (R458). -/
def readFare (s : State) (off : Nat) : Nat :=
  let f := s.fare
  match off with
  | 0x00 => bit f.en 0
  | 0x04 => (f.periodNext.getD f.period).toNat
  | 0x08 => f.seq.toNat
  | 0x10 => f.ts.toNat
  | 0x18 => f.prevTs.toNat
  | 0x20 => f.originTs.toNat
  | _ => 0

/-- TAG_ registers (R454). -/
def readTag (s : State) (off : Nat) : Nat :=
  if off = 0 then tagAreaStatus s
  else
    match entryAtOff 0x40 4 16 off with
    | some x => s.pwr.tagCount.getD x.1 0
    | none => 0

/-- Heartbeat registers (R445). -/
def readHb (s : State) (off : Nat) : Nat :=
  match off with
  | 0x4000 => s.mbx.hb.toNat
  | 0x4004 => s.mbx.hbPeriod.toNat
  | 0x4008 => sbStat s
  | 0x400C => sbDepth s
  | _ => 0

/-- A mailbox register as an agent sees it, MBX_LOCK excepted (R439). -/
def readBox (b : Mailbox) (agent off : Nat) : Option Nat :=
  if off < 0x40 then some (b.msg.toNat / 2 ^ (8 * off) % 2 ^ 32)
  else
    match off with
    | 0x40 => none
    | 0x4C => some (boxStat b)
    | 0x50 => some b.tmo.toNat
    | 0x54 => some (((senderNo b agent).bind fun k => b.evt.find k).getD 0).toNat
    | 0x58 => some (boxRecv b)
    | 0x5C => some b.cntIgn.toNat
    | 0x60 => some (boxSend b)
    | 0x68 => some (if isCore agent then boxEvtAll b else 0)
    | _ => some 0

/-- MOV_ registers (R425). -/
def readMov (s : State) (m off : Nat) : Nat :=
  let v := moverOf s m
  match off with
  | 0x00 => movStatus v
  | 0x08 => v.cntBytes.toNat
  | 0x10 => v.cntPreempt.toNat
  | 0x14 => v.cntRefused.toNat
  | _ =>
    match entryAtOff 0x100 0x40 16 off with
    | none => 0
    | some (c, reg) =>
      let x := chanOf s m c
      match reg with
      | 0x00 => chCtrl x
      | 0x04 => chStat x
      | 0x08 => chEnd c x x.src x.spat x.srcOff
      | 0x10 => chEnd c x x.dst x.dpat x.dstOff
      | 0x18 => x.count - x.done
      | 0x1C => x.ilv.toNat
      | 0x20 => x.spat.toNat
      | 0x28 => x.dpat.toNat
      | 0x30 => chProg x
      | 0x38 => x.seq.toNat
      | _ => 0

/-- WIN_ registers (R427). -/
def readWin (x : Window) (off : Nat) : Nat :=
  match off with
  | 0x00 => bit x.shEn 0 + bit x.shRidChk 1
  | 0x04 => x.shSize
  | 0x08 => x.shRid.toNat
  | 0x0C => x.shGen.toNat
  | 0x10 => x.shEvt.toNat
  | 0x18 => winStatus x
  | 0x1C => x.size
  | 0x20 => x.gen.toNat
  | 0x24 => x.cntDrop.toNat
  | 0x28 => x.cntRx.toNat
  | _ => 0

/-- The mailbox that an agent reaches at a view (R430). -/
def boxAtView (s : State) (agent view : Nat) : Option Nat :=
  (List.range 64).find? fun i =>
    let b := boxOf s i
    b.bound && ((b.recv == agent && b.recvView == view) || b.send.any fun x => x.1 == agent && x.2 == view)

/-- A dword of the MSI-X table: address, data, and the vector control word with the mask bit (R97). -/
def readVector (fn : Func) (i : Nat) : Nat :=
  if i % 4 = 3 then bit (!fn.unmasked.contains (i / 4)) 0 else (fn.msixTab.getD i 0).toNat

/-- Registers of the function register area, Q_FN_NOW excepted (R100). -/
def readFnReg (s : State) (f : Nat) (fn : Func) (off : Nat) : Option Nat :=
  match off with
  | 0x00 => some (fnId f)
  | 0x04 => some (fnStatus s f fn)
  | 0x08 => some fn.evtEn.toNat
  | 0x0C => some fn.evtVec.toNat
  | 0x10 => some s.rb.gen.toNat
  | 0x14 => some fn.cto.toNat
  | 0x18 => some (quarOf s f)
  | 0x1C => some (fnHeld fn)
  | 0x20 => some fn.cntCto.toNat
  | 0x24 => some fn.cntUnexp.toNat
  | 0x28 => some fn.cntPsnIn.toNat
  | 0x2C => some fn.cntPsnOut.toNat
  | 0x30 => some fn.cntIgn.toNat
  | 0x34 => some (if isPF f then fn.mirrorSel.toNat else 0)
  | 0x40 => none
  | 0x44 => none
  | 0x48 => some fn.intxRing.toNat
  | _ => some 0

/-- A register behind the mirror window: page 0 and 1 of TT_, 2 and 3 of ADM_ (R99). -/
def readMirror (s : State) (fn : Func) (off : Nat) : Option Nat :=
  let p := fn.mirrorSel.toNat
  let x := off - 0x4000 + (p % 2) * 0x4000
  if p < 2 then readTt s x else some (readAdm s x)

/-- Vectors pending, as the dword of the PBA at an offset from its start (R97, R113). -/
def readPba (fn : Func) (off : Nat) : Nat := bitsOf fn.pba / 2 ^ (8 * off) % 2 ^ 32

/-- BAR0 of a function (R97). -/
def readFn (s : State) (f : Nat) (fn : Func) (off : Nat) : Option Nat :=
  if off < 0x100 then readFnReg s f fn off
  else if 0x200 ≤ off && off < 0x400 then
    some (if off % 8 = 0 then ((fn.sqs.find ((off - 0x200) / 8)).map fun q => q.pi).getD 0 else sqStat fn ((off - 0x200) / 8))
  else if 0x400 ≤ off && off < 0x600 then
    some (if off % 8 = 0 then ((fn.cqs.find ((off - 0x400) / 8)).map fun q => q.ci).getD 0 else cqStat fn ((off - 0x400) / 8))
  else if 0x1000 ≤ off && off < 0x2000 then
    match boxAtView s (f + 1) ((off - 0x1000) / 0x100) with
    | some i => readBox (boxOf s i) (f + 1) (off % 0x100)
    | none => some 0
  else if 0x2400 ≤ off && off < 0x2400 + vectorsOf f / 8 then some (readPba fn (off - 0x2400))
  else if 0x3000 ≤ off && off < 0x4000 then some (leNat (rbBytes s (off - 0x3000) 4))
  else if isPF f && 0x4000 ≤ off && off < 0x8000 then readMirror s fn off
  else if tableBase f ≤ off && off < tableBase f + 16 * vectorsOf f then some (readVector fn ((off - tableBase f) / 4))
  else some 0

/-! The value of a register -/

/-- The value of the register at an offset; none for a register whose read is a command of its own. -/
def regValue (s : State) : RegBlock → Nat → Option Nat
  | .fn f, off => (fnOf s f).bind fun fn => readFn s f fn off
  | .tt, off => readTt s off
  | .adm, off => some (readAdm s off)
  | .vlt, off => some (readVlt s off)
  | .mem, off => some (readMem s off)
  | .pwr, off => some (readPwr s off)
  | .fare, off => some (readFare s off)
  | .tag, off => some (readTag s off)
  | .hb, off => some (readHb s off)
  | .mbx i, off => if i < 64 then readBox (boxOf s i) 1025 off else none
  | .mov m, off => if m < 8 then some (readMov s m off) else none
  | .win f w, off => (fnOf s f).bind fun fn => if w < 16 then some (readWin (winOf fn w) off) else none
  | .bar2 _, _ => none
  | .rom _, _ => none
  | .cfg _, _ => none

/-! Accesses of 4 and 8 bytes (R9, R98) -/

/-- A 64-bit register of the TT_ block lies at an offset (R57). -/
def wideTt (b : Nat) : Bool := [0x08, 0x18, 0x30, 0x50, 0x60].contains b || (0x1000 ≤ b && b < 0x5000)

/-- A 64-bit register of a mailbox lies at an offset (R439). -/
def wideBox (b : Nat) : Bool := b == 0x60 || b == 0x68

/-- A 64-bit register lies at an offset of a block; all the others are 32 bits wide, or sets of 32-bit fields. -/
def wide (s : State) (block : RegBlock) (b : Nat) : Bool :=
  match block with
  | .tt => wideTt b
  | .vlt => b == 0x48 || b == 0x50 || b == 0x58
  | .fare => b == 0x10 || b == 0x18 || b == 0x20
  | .mov _ => b == 0x08 || (0x100 ≤ b && b < 0x500 && [0x08, 0x10, 0x20, 0x28, 0x30].contains (b % 0x40))
  | .mbx _ => wideBox b
  | .fn f =>
    if b < 0x100 then b == 0x40 || b == 0x48
    else if 0x1000 ≤ b && b < 0x2000 then wideBox (b % 0x100)
    else
      match fnOf s f with
      | some fn => isPF f && 0x4000 ≤ b && b < 0x8000 && fn.mirrorSel.toNat < 2 &&
          wideTt (b - 0x4000 + fn.mirrorSel.toNat * 0x4000)
      | none => false
  | _ => false

/-- The dword at an offset. -/
def readDword (s : State) (block : RegBlock) (off : Nat) : Option Nat :=
  let b := off / 8 * 8
  if wide s block b then (regValue s block b).map fun v => dwordOf v ((off - b) / 4) else (regValue s block off).map (dwordOf · 0)

/-- A naturally aligned access of 4 or 8 bytes (R98). -/
def regAligned (off size : Nat) : Bool := (size == 4 || size == 8) && off % size == 0

/-- What an aligned access of 4 or 8 bytes reads. -/
def readReg (s : State) (block : RegBlock) (off size : Nat) : Option Nat :=
  if size = 8 then
    match readDword s block off, readDword s block (off + 4) with
    | some a, some b => some (a + b * 2 ^ 32)
    | _, _ => none
  else readDword s block off

/-- Clear an RC register of a mailbox. -/
def clearBox (s : State) (i off : Nat) : State :=
  if off = 0x5C then updBox s i fun b => { b with cntIgn := keptCount s (.mbx i) 0x5C 0 } else s

/-- Clear an RC register of the function registers (R100). -/
def clearFnReg (s : State) (f off : Nat) (fn : Func) : Func :=
  let k := keptCount s (.fn f) off 0
  match off with
  | 0x20 => { fn with cntCto := k }
  | 0x24 => { fn with cntUnexp := k }
  | 0x28 => { fn with cntPsnIn := k }
  | 0x2C => { fn with cntPsnOut := k }
  | 0x30 => { fn with cntIgn := k }
  | _ => fn

/-- Clear an RC register of a member port (R398). -/
def clearMemPort (s : State) (off reg : Nat) (p : MPort) : MPort :=
  let k := keptCount s .mem off 0
  match reg with
  | 0x10 => { p with cntTmo := k }
  | 0x14 => { p with cntMedia := k }
  | 0x18 => { p with cntLate := k }
  | _ => p

/-- Clear an RC register of a mover; a dword of MOV_CNT_BYTES clears on its own (log entry 69). -/
def clearMov (s : State) (m off : Nat) (v : Mover) : Mover :=
  match off with
  | 0x08 => { v with cntBytes := v.cntBytes.extractLsb' 32 32 ++ (keptCount s (.mov m) 0x08 0 : Word).extractLsb' 0 32 }
  | 0x0C => { v with cntBytes := (keptCount s (.mov m) 0x08 0 : Word).extractLsb' 32 32 ++ v.cntBytes.extractLsb' 0 32 }
  | 0x10 => { v with cntPreempt := keptCount s (.mov m) 0x10 0 }
  | 0x14 => { v with cntRefused := keptCount s (.mov m) 0x14 0 }
  | _ => v

/-- Clear an RC register of a window (R427). -/
def clearWin (s : State) (f w off : Nat) (x : Window) : Window :=
  match off with
  | 0x24 => { x with cntDrop := keptCount s (.win f w) 0x24 0 }
  | 0x28 => { x with cntRx := keptCount s (.win f w) 0x28 0 }
  | _ => x

/-- A read clears the dword of an RC register, and no other, but for what was set in the same slot (R9). -/
def regClear (s : State) : RegBlock → Nat → State
  | .fn f, off =>
    if 0x1000 ≤ off && off < 0x2000 then
      match boxAtView s (f + 1) ((off - 0x1000) / 0x100) with
      | some i => clearBox s i (off % 0x100)
      | none => s
    else updFunc s f (clearFnReg s f off)
  | .tt, off =>
    if off = 0x38 then updTt s fun t => { t with miss := keptCount s .tt 0x38 0, offwin := keptCount s .tt 0x38 16 } else s
  | .vlt, off =>
    match off with
    | 0x64 => updVlt s fun v => { v with eccCe := keptCount s .vlt 0x64 0 }
    | 0x68 => updVlt s fun v => { v with eccUe := keptCount s .vlt 0x68 0 }
    | _ => s
  | .mem, off =>
    match entryAtOff 0x1000 32 72 off with
    | some x => updMport s x.1 (clearMemPort s off x.2)
    | none => s
  | .pwr, off =>
    match off with
    | 0x20 => updPwr s fun p => { p with cntEntry := keptCount s .pwr 0x20 0 }
    | 0x24 => updPwr s fun p => { p with cntAbandon := keptCount s .pwr 0x24 0 }
    | _ => s
  | .mbx i, off => clearBox s i off
  | .mov m, off => updMover s m (clearMov s m off)
  | .win f w, off => updWin s f w (clearWin s f w off)
  | _, _ => s

/-- An aligned read: its value, and what it clears. -/
def regAccess (s : State) (block : RegBlock) (off size : Nat) : State :=
  match readReg s block off size with
  | some v =>
    let s := regClear s block off
    emit (if size = 8 then regClear s block (off + 4) else s) (.regRead (BitVec.ofNat 64 v))
  | none => s

/-! Reads of BAR2 and of the ROM window (R98, R102, R147, R149) -/

/-- The bytes of a push-queue window that a read returns: the entry area at any size, the doorbell (0) and Q_PQ_STAT by aligned
4-byte reads; none for the rest of a window. -/
def readPush (q : Sq) (off size : Nat) : Option (List Byte) :=
  if off + size ≤ 0x1000 then some (q.pushMem.bytes off size)
  else if size ≠ 4 then none
  else
    match off with
    | 0x1000 => some (leBytes 4 0)
    | 0x1004 => some (leBytes 4 (pqStat q))
    | _ => none

/-- The push queue of a window of BAR2 (R101). -/
def pushAt (f : Nat) (fn : Func) (off : Nat) : Option Sq :=
  if off / 0x20000 < (if isPF f then 64 else 16) then (fn.sqs.find (off / 0x20000)).filter fun q => q.push else none

/-- A read of BAR2: all that is not a push queue's entry area, doorbell or status receives Unsupported Request (R98, R422). -/
def readBar2 (s : State) (f : Nat) (fn : Func) (off size : Nat) : State :=
  match (pushAt f fn off).bind fun q => readPush q (off % 0x20000) size with
  | some bs => emit s (.barData f bs)
  | none => emit s (.unsupported f)

/-- Split bytes at the 64-byte read completion boundary (R102). -/
def splitRead (off : Nat) : Nat → List Byte → List (List Byte)
  | 0, _ => []
  | n + 1, bs => if bs.isEmpty then [] else bs.take (64 - off % 64) :: splitRead 0 n (bs.drop (64 - off % 64))

/-- A read of the ROM window of a port: answered with ROM Enable and Memory Space Enable 1 (R102). -/
def readRom (s : State) (p : Nat) (fn : Func) (off size : Nat) : State :=
  if !((fn.cfg.getD 0x30 0).getLsbD 0 && (fn.cfg.getD 0x04 0).getLsbD 1) || 4096 < size || 0x10000 < off + size || fn.d3 then
    emit s (.unsupported (64 * p))
  else (splitRead off 65 (rbBytes s off size)).foldl (fun s bs => emit s (.romData p bs)) s

/-- READ_TO_CLEAR (R9): a read returns the value of a register and clears an RC register. A read of a BAR in D3hot receives UR
(R129); one of BAR0 that is not a naturally aligned 4- or 8-byte access gets a Completer Abort and clears nothing (R98). In the
signal box map such an access is no access, and neither is one to a register whose read is a command of its own (TT_NOW,
Q_FN_NOW, MBX_LOCK). -/
def execReadToClear (block : RegBlock) (at_ : Access) (s : State) : Host.Outcome State Fault Refusal :=
  .next (
    match block with
    | .cfg f =>
      match takesCfg s f with
      | none => refuseCfg s f
      | some fn =>
        if cfgAligned at_.off at_.size then emit s (.regRead (BitVec.ofNat 64 (readCfgBytes s f fn at_.off at_.size)))
        else emit s (.unsupported f)
    | .fn f =>
      match answers s f with
      | none => s
      | some fn =>
        if fn.d3 then emit s (.unsupported f)
        else if regAligned at_.off at_.size then regAccess s block at_.off at_.size
        else emit s (.hostAbort f)
    | .bar2 f =>
      match answers s f with
      | none => s
      | some fn => if fn.d3 then emit s (.unsupported f) else readBar2 s f fn at_.off at_.size
    | .rom p =>
      match answers s (64 * p) with
      | none => s
      | some fn => readRom s p fn at_.off at_.size
    | _ => if regAligned at_.off at_.size then regAccess s block at_.off at_.size else s)

/-! Writes -/

/-- The low 32 bits of a value. -/
def lo32 (v : Word) : BitVec 32 := v.extractLsb' 0 32

/-- Write an entry of the inactive bank; an entry of zeros is not listed. -/
def writePlanEntry (t : Tab Word) (i : Nat) (v : Word) : Tab Word :=
  let w := v &&& 0x0000FFFFFFFF00FF#64
  if w = 0 then t.del i else t.put i w

/-- Writes of the TT_ block that have no command of their own (R57). -/
def writeTt (off : Nat) (v : Word) (t : Timetable) : Timetable :=
  match off with
  | 0x04 => { t with cntEstLock := v.getLsbD 3 }
  | 0x10 => { t with nomCycle := lo32 v }
  | 0x14 => { t with slotsLog2 := v.extractLsb' 0 5 }
  | 0x24 => { t with window := v.extractLsb' 0 16 }
  | 0x28 => { t with inComp := v.extractLsb' 0 10 }
  | 0x2C => { t with outEn := v.getLsbD 0, outWidth := v.extractLsb' 4 12 }
  | 0x30 => { t with cycleLoad := v.extractLsb' 0 44 }
  | 0x44 => { t with planErr := t.planErr && !v.getLsbD 2 }
  | 0x48 => if t.bankB then { t with periodA := v.extractLsb' 0 16 } else t
  | 0x4C => if t.bankB then t else { t with periodB := v.extractLsb' 0 16 }
  | 0x58 => { t with possLead := lo32 v }
  | 0x60 => { t with epochNext := v.extractLsb' 0 44 }
  | _ =>
    match entryAtOff 0x1000 8 1024 off, entryAtOff 0x3000 8 1024 off with
    | some x, _ => if t.bankB then { t with planA := writePlanEntry t.planA x.1 v } else t
    | none, some x => if t.bankB then t else { t with planB := writePlanEntry t.planB x.1 v }
    | none, none => t

/-- A 128-bit entry with a dword replaced. -/
def putDword (old dw : Nat) (v : BitVec 32) : Nat := old - dwordOf old dw * 2 ^ (32 * dw) + v.toNat * 2 ^ (32 * dw)

/-- The allotments that a dword of an Express entry changes at the next edge (R65, R89). -/
def writeExp (e : ExpQ) (dw : Nat) (v : BitVec 32) : ExpQ :=
  let n := e.next.getD (e.hit, e.miss, e.write)
  match dw with
  | 0 => { e with sqid := v.extractLsb' 0 16, func := v.extractLsb' 16 9 }
  | 1 => { e with next := some (v, n.2.1, n.2.2) }
  | 2 => { e with next := some (n.1, v, n.2.2) }
  | _ => { e with next := some (n.1, n.2.1, v) }

/-- The Express entry that a word with VALID 1 makes: its allotments come into force at the next edge (R65). -/
def newExp (w : Nat) : ExpQ :=
  let d := fun i => BitVec.ofNat 32 (dwordOf w i)
  { sqid := (d 0).extractLsb' 0 16, func := (d 0).extractLsb' 16 9, next := some (d 1, d 2, d 3) }

/-- Write a dword of ADM_EXP_Q. An entry with VALID 0 is no Express queue, and keeps what is written to it (R9, R89). -/
def writeExpQ (s : State) (i dw : Nat) (v : BitVec 32) : State :=
  let v := if dw = 0 then v &&& 0x81FFFFFF#32 else v
  rbChange (updAdm s fun a =>
    match a.exp.find i with
    | some e =>
      if dw = 0 && !v.getLsbD 31 then { a with exp := a.exp.del i, expIdle := a.expIdle.put i (putDword (expWord e) 0 v) }
      else { a with exp := a.exp.put i (writeExp e dw v) }
    | none =>
      let w := putDword (a.expIdle.getD i 0) dw v
      if dw = 0 && v.getLsbD 31 then { a with exp := a.exp.put i (newExp w), expIdle := a.expIdle.del i }
      else { a with expIdle := if w = 0 then a.expIdle.del i else a.expIdle.put i w })

/-- Write a dword of ADM_SB_TOK: it applies at the next edge (R65, R89). -/
def writeSb (t : SbTok) (dw : Nat) (v : BitVec 32) : SbTok :=
  let n := t.next.getD (t.stdRead, t.stdWrite, t.bulkRead, t.bulkWrite)
  match dw with
  | 0 => { t with next := some (v, n.2.1, n.2.2.1, n.2.2.2) }
  | 1 => { t with next := some (n.1, v, n.2.2.1, n.2.2.2) }
  | 2 => { t with next := some (n.1, n.2.1, v, n.2.2.2) }
  | _ => { t with next := some (n.1, n.2.1, n.2.2.1, v) }

/-- Writes of the ADM_ block that have no command of their own (R89). -/
def writeAdm (s : State) (off : Nat) (v : Word) : State :=
  match off with
  | 0x00 => updAdm s fun a => { a with ceilCut := a.ceilCut && !(w1c s .adm 0x00 v).getLsbD 1 }
  | 0x08 => rbChange (updAdm s fun a => { a with lHost := v.extractLsb' 0 16 })
  | 0x0C => rbChange (updAdm s fun a => { a with stdTarget := lo32 v })
  | _ =>
    match entryAtOff 0x1000 16 256 off, entryAtOff 0x4000 16 512 off with
    | some x, _ => writeExpQ s x.1 (x.2 / 4) (lo32 v)
    | none, some x => updAdm s fun a => { a with sb := a.sb.put x.1 (writeSb (a.sb.getD x.1 {}) (x.2 / 4) (lo32 v)) }
    | none, none => s

/-- Writes of the VLT_ block that have no command of their own (R356). -/
def writeVlt (off : Nat) (v : Word) (x : Vault) : Vault :=
  match off with
  | 0x04 => { x with patrolEn := v.getLsbD 2 }
  | 0x08 => { x with huItest := v.extractLsb' 0 16 }
  | 0x0C => { x with huDiv := v.extractLsb' 0 16 }
  | 0x18 => { x with huTime := lo32 v }
  | 0x1C => { x with tFixed := lo32 v }
  | 0x20 => { x with remeasure := lo32 v }
  | 0x24 => { x with pfailFilt := v.extractLsb' 0 6 }
  | 0x28 => { x with patrol := lo32 v }
  | _ => x

/-- Writes of the MEM_ registers that belong to no port or group (R398). -/
def writeMemRegs (off : Nat) (v : Word) (m : MemRegs) : MemRegs :=
  match off with
  | 0x04 => { m with hotplugEn := v.getLsbD 0, scrubEn := v.getLsbD 1, urgentArb := v.getLsbD 2 }
  | 0x10 => { m with tmoStd := lo32 v }
  | 0x14 => { m with tmoBulk := lo32 v }
  | 0x18 => { m with tmoMaint := lo32 v }
  | 0x1C => { m with tmoWrite := lo32 v }
  | 0x20 => { m with tmoAdmin := lo32 v }
  | 0x24 => { m with slowTmo := v.extractLsb' 0 8, failTmo := v.extractLsb' 8 8, failMedia := v.extractLsb' 16 8 }
  | 0x28 => { m with policyWin := v.extractLsb' 0 16 }
  | 0x2C => { m with sbDepth := v.extractLsb' 0 10 }
  | 0x30 => { m with prsntDeb := lo32 v }
  | 0x34 => { m with winRetry := lo32 v }
  | 0x38 => { m with rbDepth := v.extractLsb' 0 12 }
  | 0x3C => { m with scrubPeriod := lo32 v }
  | _ => m

/-- DEPTH_CFG of a group; the undefined value 3 stands for the reset value 1 and is logged (R11, R371, R398; log entry 69). -/
def writeDepth (s : State) (g : Nat) (v : Word) : State :=
  match groupOf8 s g with
  | none => s
  | some _ =>
    let d := fieldOf v 8 2
    let s := if d = 3 then undefinedField s .initiator d else s
    rbChange (applyDepth (updGroup s g fun x => { x with depthCfg := if d = 3 then 1 else d }) g)

/-- Writes of the MEM_ block that have no command of their own (R398). -/
def writeMem (s : State) (off : Nat) (v : Word) : State :=
  match entryAtOff 0x80 4 8 off, entryAtOff 0x1000 32 72 off with
  | some g, _ => writeDepth s g.1 v
  | none, some x =>
    updMport s x.1 fun p =>
      if x.2 = 0x08 then { p with latNs := lo32 v } else if x.2 = 0x0C then { p with rate := lo32 v } else p
  | none, none => { s with mem := writeMemRegs off v s.mem }

/-- PWR_SET; an undefined RUNG stands for the reset value 4 and is logged (R11, R202, R487; log entry 69). -/
def writePwr (s : State) (off : Nat) (v : Word) : State :=
  if off = 0x04 then
    let r := fieldOf v 0 3
    let s := if 4 < r then undefinedField s .alwaysOn r else s
    updPwr s fun p => { p with setRung := if 4 < r then 4#3 else v.extractLsb' 0 3, setDwell := v.extractLsb' 16 16 }
  else s

/-- The owner writes a dword of the message (R434, R435). -/
def writeMsg (s : State) (i agent off : Nat) (v : Word) : State :=
  let b := boxOf s i
  if b.owner != agent || b.full then ignoreAccess s i agent
  else
    updBox s i fun b =>
      let clear := b.msg &&& ~~~ ((0xFFFFFFFF#512) <<< (8 * off))
      { b with msg := clear ||| (((lo32 v).zeroExtend 512) <<< (8 * off)) }

/-- MBX_TMO: a write of 0, or by an agent that does not own the lock, is ignored and counted (R434, R439). -/
def writeTmo (s : State) (i agent : Nat) (v : Word) : State :=
  if (boxOf s i).owner != agent || lo32 v == 0 then ignoreAccess s i agent else updBox s i fun b => { b with tmo := lo32 v }

/-- MBX_EVT: the writing sender's own entry (R439). -/
def writeEvt (s : State) (i agent : Nat) (v : Word) : State :=
  updBox s i fun b =>
    match senderNo b agent with
    | some k => { b with evt := b.evt.put k (v.extractLsb' 0 12 |>.zeroExtend 16) }
    | none => b

/-- The four senders of MBX_SEND. -/
def sendersOf (v : Word) : List (Nat × Nat) :=
  ((List.range 4).map fun k => (fieldOf v (16 * k) 12, fieldOf v (16 * k + 12) 4)).filter fun x => x.1 != 0

/-- Registers of a mailbox that only the signal box map lets be written (R439). -/
def writeBinding (s : State) (i off : Nat) (v : Word) : State :=
  updBox s i fun b =>
    match off with
    | 0x58 => { b with recv := fieldOf v 0 12, recvView := fieldOf v 12 4, bound := v.getLsbD 31 }
    | 0x60 => { b with send := sendersOf v }
    | _ => { b with evt := (List.range 4).foldl (fun t k => t.put k (v.extractLsb' (16 * k) 12 |>.zeroExtend 16)) b.evt }

/-- Write a mailbox register that has no command of its own (R434, R435, R439); none for a write of a register that the agent's
view holds read-only, or of a reserved offset. -/
def writeBox (s : State) (i agent off : Nat) (v : Word) : Option State :=
  if !agentUp s agent then some s
  else if off < 0x40 then some (writeMsg s i agent off v)
  else
    match off with
    | 0x40 => some s
    | 0x44 => some s
    | 0x48 => some s
    | 0x4C => some (updBox s i fun b => { b with empty := b.empty && !(w1c s (.mbx i) 0x4C v).getLsbD 3 })
    | 0x50 => some (writeTmo s i agent v)
    | 0x54 => some (writeEvt s i agent v)
    | _ => if isCore agent && (off == 0x58 || off == 0x60 || off == 0x68) then some (writeBinding s i off v) else none

/-- The registers of channel 15 count from where a finished transfer left them. -/
def settleChan (x : Channel) : Channel :=
  { x with srcOff := patOffset x.spat x.srcOff x.done, dstOff := patOffset x.dpat x.dstOff x.done, count := x.count - x.done, done := 0 }

/-- The endpoint and offset that firmware writes. -/
def endOf (v : Word) : Endpoint × Nat := ({ kind := fieldOf v 0 4, index := fieldOf v 4 4 }, fieldOf v 32 24)

/-- An endpoint kind that R402 does not define. -/
def undefinedKind (reg : Nat) (v : Word) : Bool := (reg == 0x08 || reg == 0x10) && decide (4 < fieldOf v 0 4)

/-- A source or destination word with an undefined kind has the reset value of the field, FRAME (R11, R402, R425). -/
def definedEnd (reg : Nat) (v : Word) : Word := if undefinedKind reg v then v &&& ~~~0xF#64 else v

/-- Firmware writes a register of channel 15 (R425). -/
def writeChan (x : Channel) (reg : Nat) (v : Word) : Channel :=
  let x := settleChan x
  match reg with
  | 0x00 => { x with ep := v.getLsbD 4 }
  | 0x08 => { x with src := (endOf v).1, srcOff := (endOf v).2 }
  | 0x10 => { x with dst := (endOf v).1, dstOff := (endOf v).2 }
  | 0x18 => { x with count := fieldOf v 0 24 }
  | 0x1C => { x with ilv := lo32 v &&& 0xFFFF1F1F#32 }
  | 0x20 => { x with spat := v &&& 0x00FFFFFFFFFFFFFF#64 }
  | 0x28 => { x with dpat := v &&& 0x00FFFFFFFFFFFFFF#64 }
  | _ => x

/-- Writes of a MOV_ block: channel 15 alone, while it is IDLE or DONE (R425; log entry 12); an undefined endpoint kind is logged
(R11, log entry 69). -/
def writeMov (s : State) (m off : Nat) (v : Word) : State :=
  match entryAtOff 0x100 0x40 16 off with
  | some (15, reg) =>
    let x := chanOf s m 15
    if m < 8 && (x.state == .idle || x.state == .done) then
      let s := if undefinedKind reg v then undefinedField s .movers (fieldOf v 0 4) else s
      putChan s m 15 (writeChan x reg (definedEnd reg v))
    else s
  | _ => s

/-- Writes of a window's shadow set and of DROP (R420, R427). -/
def writeWin (off : Nat) (v : Word) (x : Window) : Window :=
  match off with
  | 0x00 => { x with shEn := v.getLsbD 0, shRidChk := v.getLsbD 1 }
  | 0x04 => { x with shSize := (lo32 v).toNat }
  | 0x08 => { x with shRid := v.extractLsb' 0 16 }
  | 0x0C => { x with shGen := lo32 v }
  | 0x10 => { x with shEvt := v.extractLsb' 0 12 }
  | 0x18 => { x with drop := x.drop && !v.getLsbD 2 }
  | _ => x

/-- Function registers with no command of their own (R100, R112); none for a write that is ignored and counted. -/
def writeFnReg (s : State) (f off : Nat) (v : Word) : Option State :=
  let x := lo32 v
  match off with
  | 0x04 => some s
  | 0x08 => some (updateIntx (updFunc s f fun fn => { fn with evtEn := x }) f)
  | 0x0C =>
    if fieldOf v 0 11 < vectorsOf f then some (updFunc s f fun fn => { fn with evtVec := v.extractLsb' 0 11 }) else none
  | 0x14 => if 3277 ≤ x.toNat && x.toNat ≤ 4194304 then some (updFunc s f fun fn => { fn with cto := x }) else none
  | 0x34 => some (if isPF f then updFunc s f fun fn => { fn with mirrorSel := v.extractLsb' 0 2 } else s)
  | 0x48 => some s
  | 0x4C => some s
  | _ => none

/-- W1C bits of Q_SQ_STAT and Q_CQ_STAT; writes of the index registers are commands of their own (R9, R171). -/
def writeQueueReg (s : State) (f off : Nat) (v : Word) : State :=
  let v := w1c s (.fn f) off v
  if off % 8 != 4 then s
  else if off < 0x400 then
    let i := (off - 0x200) / 8
    let s := if v.getLsbD 18 then updSq s f i fun q => { q with overrun := false } else s
    if i == 0 && v.getLsbD 25 then updFunc s f fun fn => { fn with initErr := false } else s
  else if v.getLsbD 2 then updCq s f ((off - 0x400) / 8) fun q => { q with overrun := false }
  else s

/-- A dword of the MSI-X table; clearing a mask bit is MSIX_UNMASK (R97, R113). -/
def writeVector (fn : Func) (i : Nat) (v : BitVec 32) : Func :=
  if i % 4 = 3 then
    if v.getLsbD 0 then { fn with unmasked := fn.unmasked.filter (· != i / 4) } else fn
  else { fn with msixTab := if v = 0 then fn.msixTab.del i else fn.msixTab.put i v }

/-- A dword of BAR0 of a function (R97, R98, R100): none for a write that is ignored and counted, of an RO register, of the Route
Book excerpt, of the mirror window or of a reserved offset. -/
def writeFn (s : State) (f off : Nat) (v : Word) : Option State :=
  if off < 0x100 then writeFnReg s f off v
  else if 0x200 ≤ off && off < 0x600 then some (writeQueueReg s f off v)
  else if 0x1000 ≤ off && off < 0x2000 then
    (boxAtView s (f + 1) ((off - 0x1000) / 0x100)).bind fun i => writeBox s i (f + 1) (off % 0x100) v
  else if tableBase f ≤ off && off < tableBase f + 16 * vectorsOf f then
    some (updFunc s f fun fn => writeVector fn ((off - tableBase f) / 4) (lo32 v))
  else none

/-- An aligned write of BAR0: 8 bytes write two dwords, the lower first, and one write counts once (R98). -/
def writeBar0 (s : State) (f off size : Nat) (v : Word) : State :=
  let a := writeFn s f off ((lo32 v).zeroExtend 64)
  if size = 4 then a.getD (countIgn s f)
  else
    let t := a.getD s
    match a, writeFn t f (off + 4) (v >>> 32) with
    | some _, some b => b
    | none, some b => countIgn b f
    | _, none => countIgn t f

/-- Write a register of the signal box map: the value is 32 bits, or the 64 of a wide register. -/
def writeBlock (s : State) (block : RegBlock) (off : Nat) (v : Word) : State :=
  match block with
  | .tt => updTt s (writeTt off (if off = 0x44 then w1c s .tt 0x44 v else v))
  | .adm => writeAdm s off v
  | .vlt => updVlt s (writeVlt off v)
  | .mem => writeMem s off v
  | .pwr => writePwr s off v
  | .fare => if off = 0 then { s with fare := { s.fare with en := v.getLsbD 0 } } else s
  | .hb => if off = 0x4004 && decide (65536 ≤ (lo32 v).toNat) then updMbx s fun m => { m with hbPeriod := lo32 v } else s
  | .mbx i => if i < 64 then (writeBox s i 1025 off v).getD s else s
  | .mov m => writeMov s m off v
  | .win f w =>
    if w < 16 && (fnOf s f).isSome then updWin s f w (writeWin off (if off = 0x18 then w1c s (.win f w) 0x18 v else v)) else s
  | _ => s

/-- A 64-bit register after a write of one of its halves. -/
def withHalf (old : Word) (upper : Bool) (v : BitVec 32) : Word :=
  if upper then v ++ (old.extractLsb' 0 32) else (old.extractLsb' 32 32) ++ v

/-- An aligned write of 4 or 8 bytes in the signal box map. -/
def writeMap (s : State) (block : RegBlock) (off size : Nat) (v : Word) : State :=
  let b := off / 8 * 8
  if wide s block b then
    let old := BitVec.ofNat 64 ((regValue s block b).getD 0)
    writeBlock s block b (if size = 8 then v else withHalf old (off != b) (lo32 v))
  else
    let s := writeBlock s block off ((lo32 v).zeroExtend 64)
    if size = 8 then writeBlock s block (off + 4) (v >>> 32) else s

/-- GENERIC_REGISTER_WRITE (R9 to R11, R98, R123): a write of a register with no behaviour of its own. A poisoned write to a
BAR or to configuration space is dropped and counted, and so are, of BAR2, writes that no command of its own takes; a write of
BAR0 that is not a naturally aligned 4- or 8-byte access is dropped, and writes of the ROM window are (R102). The registers that
have a command of their own are written by it; a doorbell that arrives with EP comes as this command. -/
def execGenericRegisterWrite (block : RegBlock) (at_ : Access) (value : Word) (ep : Bool) (s : State) :
    Host.Outcome State Fault Refusal :=
  .next (
    match block with
    | .fn f =>
      match takesWrites s f with
      | none => s
      | some _ => if ep then poisonIn s f else if regAligned at_.off at_.size then writeBar0 s f at_.off at_.size value else s
    | .bar2 f =>
      match takesWrites s f with
      | none => s
      | some _ => if ep then poisonIn s f else countIgn s f
    | .cfg f =>
      match takesCfg s f with
      | none => refuseCfg s f
      | some fn =>
        if ep then emit (poisonIn s f) (.unsupported f)
        else if cfgAligned at_.off at_.size then writeCfgBytes s f fn at_.off at_.size value
        else emit s (.unsupported f)
    | .rom _ => s
    | _ => if regAligned at_.off at_.size then writeMap s block at_.off at_.size value else s)

end Sys2Proof.Machine
end

