-- ==== Sys2Proof/Machine/Mgmt.lean ====
section
/-! DEFINITION. Gelbel, MCTP control, firmware updates, the tag area's messages and the UART console (R130, R440,
R446 to R454, R465, R475, R479 to R481). -/

namespace Sys2Proof.Machine

/-! Gelbel: what every command shares (R446, R447) -/

/-- A request that a command asks: its number, whether the signal box serves it, whether it writes. -/
structure GelbelForm where
  cmd : Byte
  core : Bool := false
  writes : Bool := false
  deriving DecidableEq, Repr

/-- The response to a request. -/
def answer (s : State) (fm : GelbelForm) (g : GMsg) (st : Status) (body : List Byte) : State := gelbelReply s fm.cmd g.tag st body

/-- A core command is served on W0 and W1 with the signal box attended (R447). -/
def coreServed (s : State) : Bool := decide (s.pwr.rung ≤ 1) && !s.mbx.unattended

/-- Serve a request, except in Off, where nothing is answered (R466). The response to a core command that writes waits
while a power failure has stopped the part (R345). -/
def gelbelRun (s : State) (fm : GelbelForm) (g : GMsg) (body : State → State) : State :=
  if s.pwr.devState == .off then s
  else if fm.core && !coreServed s then answer s fm g .notAdmitted []
  else if fm.writes && s.pwr.devState == .held then answer s fm g .notAdmitted []
  else if fm.core && fm.writes && frozen s then s
  else body s

/-- A field of a request's body: bytes from an offset. -/
def gField (g : GMsg) (off n : Nat) : Nat := leNat ((g.body.drop off).take n)

/-- A command that only reads: its body when the request is right, else INVALID_FIELD. -/
def gelbelRead (s : State) (fm : GelbelForm) (g : GMsg) (ok : Bool) (body : List Byte) : State :=
  gelbelRun s fm g fun s => if ok then answer s fm g .success body else answer s fm g .invalidField []

/-- The 12 readings of R448; a domain that is powered down shows 0x8000. -/
def readings (s : State) : List (BitVec 16) := (List.range 12).map fun i => s.pwr.temps.getD i 0x8000#16

/-- The hottest reading; 0x8000 with every domain down. -/
def hottestWord (s : State) : BitVec 16 :=
  match hottest (readings s) with
  | some t => BitVec.ofInt 16 t
  | none => 0x8000#16

/-- The body of GET_STATUS in the order of R447, each register at its width (log entry 21). -/
def statusBody (s : State) : List Byte :=
  leBytes 1 s.pwr.devState.code ++ leBytes 1 s.pwr.heldCode.toNat ++ leBytes 1 s.pwr.rung ++ leBytes 4 (sbStat s) ++
    leBytes 4 (sbDepth s) ++ leBytes 4 s.rb.gen.toNat ++ leBytes 4 (vltStatus s) ++ leBytes 4 (ttStatus s) ++
    leBytes 2 (hottestWord s).toNat

/-- GET_STATUS. -/
def execGelbelGetStatus (g : GMsg) (s : State) : Host.Outcome State Fault Refusal :=
  .next (gelbelRead s { cmd := 0x01 } g g.body.isEmpty (statusBody s))

/-- GET_ROUTE_BOOK: a core command but in Held. -/
def execGelbelGetRouteBook (g : GMsg) (s : State) : Host.Outcome State Fault Refusal :=
  let off := gField g 0 4
  let len := gField g 4 2
  .next (gelbelRead s { cmd := 0x02, core := s.pwr.devState != .held } g
    (decide (g.body.length = 6) && decide (len ≤ 1008) && decide (off + len ≤ 0x10000))
    (leBytes 4 s.rb.gen.toNat ++ rbBytes s off len))

/-- GET_TEMP (R448). -/
def execGelbelGetTemp (g : GMsg) (s : State) : Host.Outcome State Fault Refusal :=
  .next (gelbelRead s { cmd := 0x03 } g g.body.isEmpty ((readings s).map fun t => leBytes 2 t.toNat).flatten)

/-- GET_FARE (R209, R447). -/
def execGelbelGetFare (g : GMsg) (s : State) : Host.Outcome State Fault Refusal :=
  let vol := gField g 0 2
  let n := gField g 2 1
  .next (gelbelRead s { cmd := 0x04, core := true } g
    (decide (g.body.length = 3) && decide (n ≤ 15) && decide (vol + n ≤ 4096))
    (leBytes 4 s.fare.seq.toNat ++ leBytes 8 s.fare.ts.toNat ++
      ((List.range n).map fun i => fareBytes s.fare.seq (fareRecord s (vol + i))).flatten))

/-- Bytes of a log page from any offset. -/
def logSlice (s : State) (id off len : Nat) : List Byte := ((logBytes s id (off / 32 * 32) (len + 64)).drop (off % 32)).take len

/-- GET_LOG (R206, R447). -/
def execGelbelGetLog (g : GMsg) (s : State) : Host.Outcome State Fault Refusal :=
  let id := gField g 0 1
  let len := gField g 5 2
  .next (gelbelRead s { cmd := 0x0D, core := true } g
    (decide (g.body.length = 7) && decide (1 ≤ id) && decide (id ≤ 4) && decide (len ≤ 1008)) (logSlice s id (gField g 1 4) len))

/-! The tag area (R450 to R454) -/

/-- TAG_READ. -/
def execTagRead (g : GMsg) (s : State) : Host.Outcome State Fault Refusal :=
  .next (gelbelRead s { cmd := 0x05 } g (decide (g.body.length = 1) && decide (gField g 0 1 < 16)) (tagBytes s (gField g 0 1)))

/-- A TYPE fits a record: empty, or the record's own (R451). -/
def tagTypeFits (rec type : Nat) : Bool :=
  type == 0 || (if rec < 3 then type == rec + 1 else if rec < 6 then type == 4 else type == 5)

/-- Record 1 is written when it is empty, or with a signature by the key in force (R453). -/
def ownerMay (s : State) (bytes sig : List Byte) : Bool :=
  match ownerKey s with
  | none => true
  | some k => Config.sigValid bytes k sig

/-- The write itself and its refusals (R451 to R453, R459, R465). -/
def tagWriteBody (s : State) (fm : GelbelForm) (g : GMsg) : State :=
  let rec_ := gField g 0 1
  let bytes := (g.body.drop 1).take 256
  let sig := g.body.drop 257
  let sized := g.body.length = 257 || (g.body.length = 353 && rec_ = 1)
  if !sized || 16 ≤ rec_ || !tagTypeFits rec_ (leNat (bytes.take 1)) then answer s fm g .invalidField []
  else
    match tagRefusal s rec_ with
    | some st => answer (tagRefused s st) fm g st []
    | none =>
      if rec_ = 1 && !ownerMay s bytes sig then
        answer (logErr s 0x0D11 .alwaysOn {} (rec_ + Status.invalidField.code * 2 ^ 8)) fm g .invalidField []
      else answer (tagStore s rec_ bytes) fm g .success []

/-- TAG_WRITE. -/
def execTagWrite (g : GMsg) (s : State) : Host.Outcome State Fault Refusal :=
  let fm : GelbelForm := { cmd := 0x06, writes := true }
  .next (gelbelRun s fm g fun s => tagWriteBody s fm g)

/-! Firmware updates (R447, R479 to R481) -/

/-- FW_UPDATE as a request. -/
def fwForm : GelbelForm := { cmd := 0x07, core := true, writes := true }

/-- FW_UPDATE BEGIN with a length; the image region of a slot is 8 MiB (R479). -/
def execFwUpdateBegin (g : GMsg) (s : State) : Host.Outcome State Fault Refusal :=
  .next (gelbelRun s fwForm g fun s =>
    if g.body.length = 5 && gField g 0 1 = 0 && gField g 1 4 ≤ 0x800000 then
      answer (updPwr s fun p => { p with fwLen := some (gField g 1 4), fwData := {} }) fwForm g .success []
    else answer s fwForm g .invalidField [])

/-- FW_UPDATE DATA: up to 1,000 bytes within the length of BEGIN. -/
def execFwUpdateData (g : GMsg) (s : State) : Host.Outcome State Fault Refusal :=
  .next (gelbelRun s fwForm g fun s =>
    let data := g.body.drop 5
    let off := gField g 1 4
    match s.pwr.fwLen with
    | some n =>
      if 5 ≤ g.body.length && gField g 0 1 = 1 && data.length ≤ 1000 && off + data.length ≤ n then
        answer (updPwr s fun p => { p with fwData := p.fwData.writeList off data }) fwForm g .success []
      else answer s fwForm g .invalidField []
    | none => answer s fwForm g .invalidField [])

/-- The image of the slot that runs. -/
def activeImage (s : State) : Option SlotImage := if s.pwr.bootSlotB then s.pwr.slotB else s.pwr.slotA

/-- Some group is known to the part (R447). -/
def groupKnown (s : State) : Bool := s.groups.any fun x => x.2.assembly != .none

/-- The update keeps program 0 of the route library while a group rests on it (R447). -/
def libraryKept (s : State) (x : SlotImage) : Bool :=
  !groupKnown s || (match activeImage s with
    | some a => a.program0 == x.program0
    | none => true)

/-- The image goes to the inactive slot, and the boot record then prefers that slot (R479). -/
def writeSlot (s : State) (x : SlotImage) : State :=
  let toB := !s.pwr.bootSlotB
  let s := updPwr s fun p =>
    { p with slotA := if toB then p.slotA else some x, slotB := if toB then some x else p.slotB, preferB := toB,
             bootSeq := p.bootSeq + 1, fwLen := none, fwData := {} }
  rbChange (emit (logErr s 0x0D20 .alwaysOn {} (bit toB 0 + x.version.toNat * 2 ^ 8)) (.flashWrite toB))

/-- FW_UPDATE COMMIT: `image` is what the checks of R480 find in the bytes received. -/
def execFwUpdateCommit (g : GMsg) (image : SlotImage) (s : State) : Host.Outcome State Fault Refusal :=
  .next (gelbelRun s fwForm g fun s =>
    if g.body.length != 1 || gField g 0 1 != 2 || s.pwr.fwLen.isNone || slotReason s.pwr.otp image != 0 || !libraryKept s image then
      answer s fwForm g .invalidField []
    else if s.pwr.nvInhibit then answer (logErr s 0x0E12 .alwaysOn {} 3) fwForm g .nvInhibited []
    else answer (writeSlot s image) fwForm g .success [])

/-- FW_UPDATE ABORT. -/
def execFwUpdateAbort (g : GMsg) (s : State) : Host.Outcome State Fault Refusal :=
  .next (gelbelRun s fwForm g fun s =>
    if g.body.length = 1 && gField g 0 1 = 3 then
      answer (updPwr s fun p => { p with fwLen := none, fwData := {} }) fwForm g .success []
    else answer s fwForm g .invalidField [])

/-! Commands that act as admin commands do (R199 to R201, R440, R447) -/

/-- The entry that a request stands for: its number and tag, LBA, and bytes from 40 on; its completion is the response. -/
def gelbelEntry (cmd : Byte) (tag : Byte) (lba : Nat) (tail : List Byte) : AdminCmd :=
  { port := gelbelPort, vis := 0, data := [], poisoned := false,
    entry := BitVec.ofNat 512 (cmd.toNat + tag.toNat * 2 ^ 16 + lba * 2 ^ 64 + leNat tail * 2 ^ 320) }

/-- The named bits of bytes 40 to 63 are all that is set (R10). -/
def tailOk (a : AdminCmd) (fm : AdminForm) : Bool := (eTail a.entry &&& ~~~ tailMask fm.tail) == 0

/-- TIMETABLE: SET_TIMETABLE with PLAN 0. -/
def execGelbelTimetable (g : GMsg) (s : State) : Host.Outcome State Fault Refusal :=
  let fm : GelbelForm := { cmd := 0x08, core := true, writes := true }
  .next (gelbelRun s fm g fun s =>
    let a := gelbelEntry fm.cmd g.tag (gField g 0 8 % 2 ^ 44) (g.body.drop 8)
    let r := ttReq a.entry []
    if g.body.length != 32 || 2 ^ 44 ≤ gField g 0 8 || !tailOk a (ttForm a.entry) || r.on 6 || !r.ok s then
      answer s fm g .invalidField []
    else
      let s := ttApply s r
      if r.waits then updTt s fun t => { t with waiters := t.waiters ++ [{ cmd := a, switch := r.on 0, load := r.on 1, swap := false }] }
      else adminOk s a)

/-- WAKE (R130, R475): PME on every port that enables it, and an exit to W0. -/
def execGelbelWake (g : GMsg) (s : State) : Host.Outcome State Fault Refusal :=
  let fm : GelbelForm := { cmd := 0x09 }
  .next (gelbelRun s fm g fun s =>
    if !g.body.isEmpty then answer s fm g .invalidField []
    else
      let t := answer (raisePme s) fm g .success []
      if s.pwr.devState == .ready then wakeUp t .gelbel else t)

/-- VAULT_RELEASE: another one replaces the armed value (R354, R447). -/
def execVaultRelease (g : GMsg) (s : State) : Host.Outcome State Fault Refusal :=
  let fm : GelbelForm := { cmd := 0x0A }
  .next (gelbelRun s fm g fun s =>
    if g.body.length = 8 then answer (updPwr s fun p => { p with armedRelease := some (gField g 0 8) }) fm g .success []
    else answer s fm g .invalidField [])

/-- MEMBER_CONTROL from the baseboard management controller. -/
def execGelbelMemberControl (g : GMsg) (s : State) : Host.Outcome State Fault Refusal :=
  let fm : GelbelForm := { cmd := 0x0B, core := true, writes := true }
  .next (gelbelRun s fm g fun s =>
    let a := gelbelEntry fm.cmd g.tag 0 g.body
    if g.body.length != 16 || !tailOk a mcForm then answer s fm g .invalidField []
    else (memberAct s a.entry a).finish s a)

/-- SET_TOKENS: any Express queue or function of the device (R199). -/
def execGelbelSetTokens (g : GMsg) (s : State) : Host.Outcome State Fault Refusal :=
  let fm : GelbelForm := { cmd := 0x0C, core := true, writes := true }
  .next (gelbelRun s fm g fun s =>
    let a := gelbelEntry fm.cmd g.tag 0 g.body
    let form : AdminForm := { tail := [(40, 0, 16), (42, 0, 1), (44, 0, 32), (48, 0, 32), (52, 0, 32), (56, 0, 32)] }
    if g.body.length != 20 || !tailOk a form then answer s fm g .invalidField []
    else
      match applyTokens s (tokenReq a.entry) (fun _ => true) with
      | some t => updAdm t fun x => { x with tokenWait := x.tokenWait ++ [a] }
      | none => answer s fm g .invalidField [])

/-- A message with a CMD that R447 does not define completes INVALID_OPCODE; a defined CMD is another command's. -/
def execGelbelUndefinedCommand (cmd : Byte) (g : GMsg) (s : State) : Host.Outcome State Fault Refusal :=
  .next (
    if 1 ≤ cmd.toNat && cmd.toNat ≤ 0x0D then s
    else gelbelRun s { cmd := cmd } g fun s => answer s { cmd := cmd } g .invalidOpcode [])

/-! MCTP control (R446) -/

/-- An MCTP control message is answered except in Off. -/
def mctpRun (s : State) (cmd : Byte) (body : State → List Byte) : State :=
  if s.pwr.devState == .off then s else emit s (.mctp cmd (body s))

/-- Set Endpoint ID. -/
def execMctpSetEndpointId (eid : Byte) (s : State) : Host.Outcome State Fault Refusal :=
  .next (if s.pwr.devState == .off then s else mctpRun (updPwr s fun p => { p with eid := eid }) 1 fun s => [s.pwr.eid])
/-- Get Endpoint ID. -/
def execMctpGetEndpointId (s : State) : Host.Outcome State Fault Refusal := .next (mctpRun s 2 fun s => [s.pwr.eid])
/-- Get MCTP Version Support: version 1.3. -/
def execMctpGetVersionSupport (s : State) : Host.Outcome State Fault Refusal := .next (mctpRun s 4 fun _ => [1, 3])
/-- Get Message Type Support: types 0x00 and 0x7E. -/
def execMctpGetMessageTypeSupport (s : State) : Host.Outcome State Fault Refusal := .next (mctpRun s 5 fun _ => [0x00, 0x7E])

/-! The UART console (R449) -/

/-- A console command: nothing in Off; `ERR POWER` for one that needs the core on W2 to W4; else its values, or an error
for an argument out of range. It changes nothing else. -/
def uartRun (s : State) (name : String) (core argOk : Bool) (values : List Nat) : State :=
  if s.pwr.devState == .off then s
  else if core && decide (2 ≤ s.pwr.rung) then emit s (.uart name [] .errPower)
  else if argOk then emit s (.uart name values .ok)
  else emit s (.uart name [] .errArgument)

/-- The values of bytes. -/
def byteVals (l : List Byte) : List Nat := l.map fun b => b.toNat

/-- `help`: the command list as text. -/
def execUartHelp (s : State) : Host.Outcome State Fault Refusal :=
  .next (uartRun s "help" false true (byteVals (ascii "help state ver temp tt rb tag mem log vault")))
/-- `state`. -/
def execUartState (s : State) : Host.Outcome State Fault Refusal :=
  .next (uartRun s "state" false true
    [s.pwr.devState.code, s.pwr.heldCode.toNat, s.pwr.rung, bit s.mbx.unattended 0, s.rb.gen.toNat])
/-- `ver`. -/
def execUartVer (s : State) : Host.Outcome State Fault Refusal :=
  .next (uartRun s "ver" false true
    [Config.stepping.toNat, slotVersion s.pwr.slotA, slotVersion s.pwr.slotB, bit s.pwr.bootSlotB 0])
/-- `temp`: the readings as 16-bit words in eighths of a degree. -/
def execUartTemp (s : State) : Host.Outcome State Fault Refusal :=
  .next (uartRun s "temp" false true ((readings s).map fun t => t.toNat))
/-- `tt`. -/
def execUartTt (s : State) : Host.Outcome State Fault Refusal :=
  .next (uartRun s "tt" true true
    [ttStatus s, s.tt.cycle.toNat, s.tt.kActive, planPos s.tt.epoch s.tt.cycle (bankPeriod s.tt s.tt.bankB)])
/-- `rb`: up to 256 bytes of the Route Book. -/
def execUartRb (off len : Nat) (s : State) : Host.Outcome State Fault Refusal :=
  .next (uartRun s "rb" true (decide (len ≤ 256) && decide (off + len ≤ 0x10000)) (byteVals (rbBytes s off len)))
/-- `tag`. -/
def execUartTag (n : Nat) (s : State) : Host.Outcome State Fault Refusal :=
  .next (uartRun s "tag" false (decide (n < 16)) (byteVals (tagBytes s n)))
/-- `mem`: MEM_P_STAT and D of a member port. -/
def execUartMem (port : Nat) (s : State) : Host.Outcome State Fault Refusal :=
  let p := s.mports.getD port {}
  .next (uartRun s "mem" true (decide (port < 72)) [memPStat p, p.d.toNat])
/-- `log`: the newest entries, each as the 32 bytes of R208. -/
def execUartLog (n : Nat) (s : State) : Host.Outcome State Fault Refusal :=
  .next (uartRun s "log" true (decide (n ≤ 32))
    (byteVals (((s.errLog.take n).zipIdx.map fun x => errBytes (s.errSeq - 1 - x.2) x.1).flatten)))
/-- `vault`: VLT_STATUS, VLT_SEAL, VLT_BUDGET. -/
def execUartVault (s : State) : Host.Outcome State Fault Refusal :=
  .next (uartRun s "vault" false true [vltStatus s, bit s.vlt.areaA.sealed 0 + bit s.vlt.areaB.sealed 1, s.vlt.budget])
/-- An unknown command replies `ERR ?`. -/
def execUartUnknownCommand (s : State) : Host.Outcome State Fault Refusal :=
  .next (if s.pwr.devState == .off then s else emit s (.uart "" [] .errUnknown))

end Sys2Proof.Machine
end

