-- ==== Sys2Proof/Machine/Dispatch.lean ====
section
/-! DEFINITION. The meaning of every command: one arm for each constructor of Instr. -/

namespace Sys2Proof.Machine

def exec (i : Instr) (s : State) : Host.Outcome State Fault Refusal :=
  match i with
  | .devRstAssert ticks => Sys2Proof.Machine.execDevRstAssert ticks s
  | .devRstDeassert g0 g1 mgmt pins => Sys2Proof.Machine.execDevRstDeassert g0 g1 mgmt pins s
  | .railEnableStep => Sys2Proof.Machine.execRailEnableStep s
  | .supplyFaultTimeout rail => Sys2Proof.Machine.execSupplyFaultTimeout rail s
  | .powerGoodFall rail => Sys2Proof.Machine.execPowerGoodFall rail s
  | .vauxBelowInhibit mv => Sys2Proof.Machine.execVauxBelowInhibit mv s
  | .vauxInhibitClear mv => Sys2Proof.Machine.execVauxInhibitClear mv s
  | .vauxBrownout mv => Sys2Proof.Machine.execVauxBrownout mv s
  | .vauxRelease mv => Sys2Proof.Machine.execVauxRelease mv s
  | .powerSequenceComplete => Sys2Proof.Machine.execPowerSequenceComplete s
  | .selfTestStepDone step failed => Sys2Proof.Machine.execSelfTestStepDone step failed s
  | .bootLoad a b preferB otpOk => Sys2Proof.Machine.execBootLoad a b preferB otpOk s
  | .fwStartTimeout => Sys2Proof.Machine.execFwStartTimeout s
  | .vaultCheck ok0 ok1 images => Sys2Proof.Machine.execVaultCheck ok0 ok1 images s
  | .vaultRateMeasure ns0 ns1 => Sys2Proof.Machine.execVaultRateMeasure ns0 ns1 s
  | .vaultSsdChange port usable ns0 ns1 => Sys2Proof.Machine.execVaultSsdChange port usable ns0 ns1 s
  | .groupAssembly labels => Sys2Proof.Machine.execGroupAssembly labels s
  | .imageRestore seq records blocks maps => Sys2Proof.Machine.execImageRestore seq records blocks maps s
  | .journalReplay => Sys2Proof.Machine.execJournalReplay s
  | .imageRelease seq => Sys2Proof.Machine.execImageRelease seq s
  | .enterReady => Sys2Proof.Machine.execEnterReady s
  | .groupRepair g open_ => Sys2Proof.Machine.execGroupRepair g open_ s
  | .ttcInEdge clock high => Sys2Proof.Machine.execTtcInEdge clock high s
  | .ttMissingEdge => Sys2Proof.Machine.execTtMissingEdge s
  | .ttAcquireLapse => Sys2Proof.Machine.execTtAcquireLapse s
  | .cycleEdge temps bankMv => Sys2Proof.Machine.execCycleEdge temps bankMv s
  | .possessionLeadNotice port => Sys2Proof.Machine.execPossessionLeadNotice port s
  | .possNdwinIssue port => Sys2Proof.Machine.execPossNdwinIssue port s
  | .possDtwinIssue port => Sys2Proof.Machine.execPossDtwinIssue port s
  | .windowSelectCompletion port ok => Sys2Proof.Machine.execWindowSelectCompletion port ok s
  | .windowSelectRetry port => Sys2Proof.Machine.execWindowSelectRetry port s
  | .strayEvent port => Sys2Proof.Machine.execStrayEvent port s
  | .policyWindowEnd => Sys2Proof.Machine.execPolicyWindowEnd s
  | .fareLatch => Sys2Proof.Machine.execFareLatch s
  | .remeasureDue vStart => Sys2Proof.Machine.execRemeasureDue vStart s
  | .scrubPassStart g => Sys2Proof.Machine.execScrubPassStart g s
  | .patrolRead frame line ecc => Sys2Proof.Machine.execPatrolRead frame line ecc s
  | .pfailQualify => Sys2Proof.Machine.execPfailQualify s
  | .memberAbandon => Sys2Proof.Machine.execMemberAbandon s
  | .dumpWriteCompletion => Sys2Proof.Machine.execDumpWriteCompletion s
  | .vCutDetect mv => Sys2Proof.Machine.execVCutDetect mv s
  | .thermalTrip sensor reading => Sys2Proof.Machine.execThermalTrip sensor reading s
  | .hperstAssert p => Sys2Proof.Machine.execHperstAssert p s
  | .hperstDeassert p => Sys2Proof.Machine.execHperstDeassert p s
  | .portRebuild p => Sys2Proof.Machine.execPortRebuild p s
  | .crsPeriodEnd => Sys2Proof.Machine.execCrsPeriodEnd s
  | .hotReset p => Sys2Proof.Machine.execHotReset p s
  | .flr f => Sys2Proof.Machine.execFlr f s
  | .flrTeardownEnd f => Sys2Proof.Machine.execFlrTeardownEnd f s
  | .busMasterClear f => Sys2Proof.Machine.execBusMasterClear f s
  | .busMasterSet f => Sys2Proof.Machine.execBusMasterSet f s
  | .vfEnableWrite p enable num => Sys2Proof.Machine.execVfEnableWrite p enable num s
  | .dStateWrite p d3 => Sys2Proof.Machine.execDStateWrite p d3 s
  | .ctoValueWrite f value => Sys2Proof.Machine.execCtoValueWrite f value s
  | .msixUnmask f vector => Sys2Proof.Machine.execMsixUnmask f vector s
  | .intxClear f rings status => Sys2Proof.Machine.execIntxClear f rings status s
  | .genericRegisterWrite block at_ value ep => Sys2Proof.Machine.execGenericRegisterWrite block at_ value ep s
  | .readToClear block at_ => Sys2Proof.Machine.execReadToClear block at_ s
  | .ttNowRead who how => Sys2Proof.Machine.execTtNowRead who how s
  | .sqDoorbell f slot value => Sys2Proof.Machine.execSqDoorbell f slot value s
  | .entryFetchCompletion f slot entries ep => Sys2Proof.Machine.execEntryFetchCompletion f slot entries ep s
  | .shadowPoll f slot => Sys2Proof.Machine.execShadowPoll f slot s
  | .pollCompletion f slot value => Sys2Proof.Machine.execPollCompletion f slot value s
  | .cqDoorbell f slot value => Sys2Proof.Machine.execCqDoorbell f slot value s
  | .pushDoorbell f slot value => Sys2Proof.Machine.execPushDoorbell f slot value s
  | .pushEntryWrite f slot off bytes ep => Sys2Proof.Machine.execPushEntryWrite f slot off bytes ep s
  | .inlineBufferWrite f slot off bytes ep => Sys2Proof.Machine.execInlineBufferWrite f slot off bytes ep s
  | .peerWindowWrite f win off bytes rid ep => Sys2Proof.Machine.execPeerWindowWrite f win off bytes rid ep s
  | .hostReadCompletion tag status bytes ep => Sys2Proof.Machine.execHostReadCompletion tag status bytes ep s
  | .completionTimeout tag => Sys2Proof.Machine.execCompletionTimeout tag s
  | .lateHostCompletion tag => Sys2Proof.Machine.execLateHostCompletion tag s
  | .dispatch lane => Sys2Proof.Machine.execDispatch lane s
  | .completionIssue f slot => Sys2Proof.Machine.execCompletionIssue f slot s
  | .interruptDelayDue f slot => Sys2Proof.Machine.execInterruptDelayDue f slot s
  | .slotAssign cluster => Sys2Proof.Machine.execSlotAssign cluster s
  | .threadResume cx => Sys2Proof.Machine.execThreadResume cx s
  | .waitExpiry cx => Sys2Proof.Machine.execWaitExpiry cx s
  | .lockWatchdog g stripe => Sys2Proof.Machine.execLockWatchdog g stripe s
  | .orphanRecordReplay g stripe => Sys2Proof.Machine.execOrphanRecordReplay g stripe s
  | .memberCompletion port cid status => Sys2Proof.Machine.execMemberCompletion port cid status s
  | .memberTimeout port cid => Sys2Proof.Machine.execMemberTimeout port cid s
  | .memberLateCompletion port cid => Sys2Proof.Machine.execMemberLateCompletion port cid s
  | .memberDmaRequest port cid posted off bytes => Sys2Proof.Machine.execMemberDmaRequest port cid posted off bytes s
  | .presenceQualified port present => Sys2Proof.Machine.execPresenceQualified port present s
  | .linkContainment port cause => Sys2Proof.Machine.execLinkContainment port cause s
  | .memberBringup port info => Sys2Proof.Machine.execMemberBringup port info s
  | .destageCreate g stripe => Sys2Proof.Machine.execDestageCreate g stripe s
  | .rebuildStepCreate g => Sys2Proof.Machine.execRebuildStepCreate g s
  | .jretireWmRelease cx => Sys2Proof.Machine.execJretireWmRelease cx s
  | .scrubStepCreate g => Sys2Proof.Machine.execScrubStepCreate g s
  | .zeroingCreate g => Sys2Proof.Machine.execZeroingCreate g s
  | .labelWriteCreate g index kind => Sys2Proof.Machine.execLabelWriteCreate g index kind s
  | .mirrorRehome g => Sys2Proof.Machine.execMirrorRehome g s
  | .moverChannelStart m => Sys2Proof.Machine.execMoverChannelStart m s
  | .moverResume m => Sys2Proof.Machine.execMoverResume m s
  | .moverReadback m c valid => Sys2Proof.Machine.execMoverReadback m c valid s
  | .moverChannelComplete m c => Sys2Proof.Machine.execMoverChannelComplete m c s
  | .movChGo m => Sys2Proof.Machine.execMovChGo m s
  | .movChHold m hold => Sys2Proof.Machine.execMovChHold m hold s
  | .translationCompletion f pasid page pages addr read write => Sys2Proof.Machine.execTranslationCompletion f pasid page pages addr read write s
  | .atsInvalidate f itag page pages => Sys2Proof.Machine.execAtsInvalidate f itag page pages s
  | .atsInvalidateCompletion f itag => Sys2Proof.Machine.execAtsInvalidateCompletion f itag s
  | .prgResponse f pasid index code => Sys2Proof.Machine.execPrgResponse f pasid index code s
  | .winCommit f w => Sys2Proof.Machine.execWinCommit f w s
  | .winCommitResume f w => Sys2Proof.Machine.execWinCommitResume f w s
  | .ttLoadArm => Sys2Proof.Machine.execTtLoadArm s
  | .ttSwitchArm => Sys2Proof.Machine.execTtSwitchArm s
  | .ttRefEnWrite en => Sys2Proof.Machine.execTtRefEnWrite en s
  | .ttPlanCommit => Sys2Proof.Machine.execTtPlanCommit s
  | .ttPlanEnWrite en => Sys2Proof.Machine.execTtPlanEnWrite en s
  | .ttPlanEpochWrite epoch => Sys2Proof.Machine.execTtPlanEpochWrite epoch s
  | .ttActiveBankWrite off value => Sys2Proof.Machine.execTtActiveBankWrite off value s
  | .admMaintFloorWrite value => Sys2Proof.Machine.execAdmMaintFloorWrite value s
  | .admGroupModeWrite g value => Sys2Proof.Machine.execAdmGroupModeWrite g value s
  | .vltMeasure vStart => Sys2Proof.Machine.execVltMeasure vStart s
  | .huTestEnd vEnd => Sys2Proof.Machine.execHuTestEnd vEnd s
  | .vltLedgerParamWrite pDump value => Sys2Proof.Machine.execVltLedgerParamWrite pDump value s
  | .memQuadCfgWrite cfg0 cfg1 => Sys2Proof.Machine.execMemQuadCfgWrite cfg0 cfg1 s
  | .farePeriodWrite value => Sys2Proof.Machine.execFarePeriodWrite value s
  | .mbxLockRead w agent => Sys2Proof.Machine.execMbxLockRead w agent s
  | .mbxLockWrite w agent value => Sys2Proof.Machine.execMbxLockWrite w agent value s
  | .mbxPost w agent value => Sys2Proof.Machine.execMbxPost w agent value s
  | .mbxTake w agent value => Sys2Proof.Machine.execMbxTake w agent value s
  | .mbxTimeout w => Sys2Proof.Machine.execMbxTimeout w s
  | .noticePost p => Sys2Proof.Machine.execNoticePost p s
  | .adminInit p => Sys2Proof.Machine.execAdminInit p s
  | .bind p => Sys2Proof.Machine.execBind p s
  | .unbind p => Sys2Proof.Machine.execUnbind p s
  | .mbxHbWrite value => Sys2Proof.Machine.execMbxHbWrite value s
  | .heartbeatCheck => Sys2Proof.Machine.execHeartbeatCheck s
  | .reloadHeartbeatTimeout => Sys2Proof.Machine.execReloadHeartbeatTimeout s
  | .rungEntryStart => Sys2Proof.Machine.execRungEntryStart s
  | .rungCommit => Sys2Proof.Machine.execRungCommit s
  | .rungWake e => Sys2Proof.Machine.execRungWake e s
  | .rungExitPoint elapsed cycles => Sys2Proof.Machine.execRungExitPoint elapsed cycles s
  | .layupRestoreEnd digestOk ticks => Sys2Proof.Machine.execLayupRestoreEnd digestOk ticks s
  | .read cx lanes => Sys2Proof.Machine.execRead cx lanes s
  | .write cx hostOk blocks => Sys2Proof.Machine.execWrite cx hostOk blocks s
  | .flush cx => Sys2Proof.Machine.execFlush cx s
  | .flushDestage cx => Sys2Proof.Machine.execFlushDestage cx s
  | .writeZeroes cx => Sys2Proof.Machine.execWriteZeroes cx s
  | .deallocate cx => Sys2Proof.Machine.execDeallocate cx s
  | .verify cx lanes => Sys2Proof.Machine.execVerify cx lanes s
  | .identifyVolume a => Sys2Proof.Machine.execIdentifyVolume a s
  | .createVolumeCreate a => Sys2Proof.Machine.execCreateVolumeCreate a s
  | .createVolumeAttach a => Sys2Proof.Machine.execCreateVolumeAttach a s
  | .createVolumeDetach a => Sys2Proof.Machine.execCreateVolumeDetach a s
  | .deleteVolume a => Sys2Proof.Machine.execDeleteVolume a s
  | .createQueue a => Sys2Proof.Machine.execCreateQueue a s
  | .setPower a => Sys2Proof.Machine.execSetPower a s
  | .getLog a => Sys2Proof.Machine.execGetLog a s
  | .loadProgram a => Sys2Proof.Machine.execLoadProgram a s
  | .bindRoute a => Sys2Proof.Machine.execBindRoute a s
  | .setTokens a => Sys2Proof.Machine.execSetTokens a s
  | .createGroup a => Sys2Proof.Machine.execCreateGroup a s
  | .setTimetable a => Sys2Proof.Machine.execSetTimetable a s
  | .setWindow a => Sys2Proof.Machine.execSetWindow a s
  | .memberControlReset a => Sys2Proof.Machine.execMemberControlReset a s
  | .memberControlFail a => Sys2Proof.Machine.execMemberControlFail a s
  | .memberControlReplace a => Sys2Proof.Machine.execMemberControlReplace a s
  | .memberControlProfile a => Sys2Proof.Machine.execMemberControlProfile a s
  | .memberControlAdopt a => Sys2Proof.Machine.execMemberControlAdopt a s
  | .memberControlRetireGroup a => Sys2Proof.Machine.execMemberControlRetireGroup a s
  | .memberControlFormat a => Sys2Proof.Machine.execMemberControlFormat a s
  | .memberControlSanitize a => Sys2Proof.Machine.execMemberControlSanitize a s
  | .memberControlScrub a => Sys2Proof.Machine.execMemberControlScrub a s
  | .memberControlPowerOff a => Sys2Proof.Machine.execMemberControlPowerOff a s
  | .memberControlSetDepth a => Sys2Proof.Machine.execMemberControlSetDepth a s
  | .add w => Sys2Proof.Machine.execAdd w s
  | .sub w => Sys2Proof.Machine.execSub w s
  | .and w => Sys2Proof.Machine.execAnd w s
  | .or w => Sys2Proof.Machine.execOr w s
  | .xor w => Sys2Proof.Machine.execXor w s
  | .shl w => Sys2Proof.Machine.execShl w s
  | .shr w => Sys2Proof.Machine.execShr w s
  | .sar w => Sys2Proof.Machine.execSar w s
  | .mul w => Sys2Proof.Machine.execMul w s
  | .mulhu w => Sys2Proof.Machine.execMulhu w s
  | .divu w => Sys2Proof.Machine.execDivu w s
  | .remu w => Sys2Proof.Machine.execRemu w s
  | .minu w => Sys2Proof.Machine.execMinu w s
  | .maxu w => Sys2Proof.Machine.execMaxu w s
  | .cmp w => Sys2Proof.Machine.execCmp w s
  | .flop w => Sys2Proof.Machine.execFlop w s
  | .ldi w => Sys2Proof.Machine.execLdi w s
  | .ldih w => Sys2Proof.Machine.execLdih w s
  | .sel w => Sys2Proof.Machine.execSel w s
  | .ext w => Sys2Proof.Machine.execExt w s
  | .ins w => Sys2Proof.Machine.execIns w s
  | .popc w => Sys2Proof.Machine.execPopc w s
  | .clz w => Sys2Proof.Machine.execClz w s
  | .bswap w => Sys2Proof.Machine.execBswap w s
  | .br w => Sys2Proof.Machine.execBr w s
  | .btab w => Sys2Proof.Machine.execBtab w s
  | .call w => Sys2Proof.Machine.execCall w s
  | .ret w => Sys2Proof.Machine.execRet w s
  | .loop w => Sys2Proof.Machine.execLoop w s
  | .callm w => Sys2Proof.Machine.execCallm w s
  | .lds w => Sys2Proof.Machine.execLds w s
  | .cld w => Sys2Proof.Machine.execCld w s
  | .cst w => Sys2Proof.Machine.execCst w s
  | .xtl w => Sys2Proof.Machine.execXtl w s
  | .ginfo w => Sys2Proof.Machine.execGinfo w s
  | .desc w => Sys2Proof.Machine.execDesc w s
  | .hread w => Sys2Proof.Machine.execHread w s
  | .hwrite w => Sys2Proof.Machine.execHwrite w s
  | .post w => Sys2Proof.Machine.execPost w s
  | .clook w => Sys2Proof.Machine.execClook w s
  | .calloc w => Sys2Proof.Machine.execCalloc w s
  | .cpin w => Sys2Proof.Machine.execCpin w s
  | .cunpin w => Sys2Proof.Machine.execCunpin w s
  | .lock w => Sys2Proof.Machine.execLock w s
  | .unlock w => Sys2Proof.Machine.execUnlock w s
  | .perm w => Sys2Proof.Machine.execPerm w s
  | .jopen w => Sys2Proof.Machine.execJopen w s
  | .jadd w => Sys2Proof.Machine.execJadd w s
  | .jseal w => Sys2Proof.Machine.execJseal w s
  | .jretire w => Sys2Proof.Machine.execJretire w s
  | .mread w => Sys2Proof.Machine.execMread w s
  | .mwrite w => Sys2Proof.Machine.execMwrite w s
  | .mwait w => Sys2Proof.Machine.execMwait w s
  | .xorv w => Sys2Proof.Machine.execXorv w s
  | .gmulv w => Sys2Proof.Machine.execGmulv w s
  | .pqgen w => Sys2Proof.Machine.execPqgen w s
  | .pqdelta w => Sys2Proof.Machine.execPqdelta w s
  | .pqsolve1 w => Sys2Proof.Machine.execPqsolve1 w s
  | .pqsolve2 w => Sys2Proof.Machine.execPqsolve2 w s
  | .cmpv w => Sys2Proof.Machine.execCmpv w s
  | .ttnow w => Sys2Proof.Machine.execTtnow w s
  | .dlset w => Sys2Proof.Machine.execDlset w s
  | .dlleft w => Sys2Proof.Machine.execDlleft w s
  | .wait w => Sys2Proof.Machine.execWait w s
  | .yield w => Sys2Proof.Machine.execYield w s
  | .trap w => Sys2Proof.Machine.execTrap w s
  | .halt w => Sys2Proof.Machine.execHalt w s
  | .rfault w => Sys2Proof.Machine.execRfault w s
  | .gelbelGetStatus g => Sys2Proof.Machine.execGelbelGetStatus g s
  | .gelbelGetRouteBook g => Sys2Proof.Machine.execGelbelGetRouteBook g s
  | .gelbelGetTemp g => Sys2Proof.Machine.execGelbelGetTemp g s
  | .gelbelGetFare g => Sys2Proof.Machine.execGelbelGetFare g s
  | .tagRead g => Sys2Proof.Machine.execTagRead g s
  | .tagWrite g => Sys2Proof.Machine.execTagWrite g s
  | .fwUpdateBegin g => Sys2Proof.Machine.execFwUpdateBegin g s
  | .fwUpdateData g => Sys2Proof.Machine.execFwUpdateData g s
  | .fwUpdateCommit g image => Sys2Proof.Machine.execFwUpdateCommit g image s
  | .fwUpdateAbort g => Sys2Proof.Machine.execFwUpdateAbort g s
  | .gelbelTimetable g => Sys2Proof.Machine.execGelbelTimetable g s
  | .gelbelWake g => Sys2Proof.Machine.execGelbelWake g s
  | .vaultRelease g => Sys2Proof.Machine.execVaultRelease g s
  | .gelbelMemberControl g => Sys2Proof.Machine.execGelbelMemberControl g s
  | .gelbelSetTokens g => Sys2Proof.Machine.execGelbelSetTokens g s
  | .gelbelGetLog g => Sys2Proof.Machine.execGelbelGetLog g s
  | .mctpSetEndpointId eid => Sys2Proof.Machine.execMctpSetEndpointId eid s
  | .mctpGetEndpointId => Sys2Proof.Machine.execMctpGetEndpointId s
  | .mctpGetVersionSupport => Sys2Proof.Machine.execMctpGetVersionSupport s
  | .mctpGetMessageTypeSupport => Sys2Proof.Machine.execMctpGetMessageTypeSupport s
  | .uartHelp => Sys2Proof.Machine.execUartHelp s
  | .uartState => Sys2Proof.Machine.execUartState s
  | .uartVer => Sys2Proof.Machine.execUartVer s
  | .uartTemp => Sys2Proof.Machine.execUartTemp s
  | .uartTt => Sys2Proof.Machine.execUartTt s
  | .uartRb off len => Sys2Proof.Machine.execUartRb off len s
  | .uartTag n => Sys2Proof.Machine.execUartTag n s
  | .uartMem port => Sys2Proof.Machine.execUartMem port s
  | .uartLog n => Sys2Proof.Machine.execUartLog n s
  | .uartVault => Sys2Proof.Machine.execUartVault s
  | .uartUnknownCommand => Sys2Proof.Machine.execUartUnknownCommand s
  | .refclkLoss => Sys2Proof.Machine.execRefclkLoss s
  | .hostLinkUp p width speed flit => Sys2Proof.Machine.execHostLinkUp p width speed flit s
  | .gelbelUndefinedCommand cmd g => Sys2Proof.Machine.execGelbelUndefinedCommand cmd g s
  | .mailboxUndefinedRequest p => Sys2Proof.Machine.execMailboxUndefinedRequest p s
  | .memberControlUndefinedAction a => Sys2Proof.Machine.execMemberControlUndefinedAction a s

end Sys2Proof.Machine
end

