-- ==== Sys2Proof/WellFormed.lean ====
section
/-! DEFINITION. Well-formed commands: operands in the ranges that the manual gives them (R2, R7, R16, R50, R93, R101, R128,
R129, R134, R147, R318, R358, R400, R419, R429, R430, R448, R449, R480). A command that is not well-formed names a thing
that no 7240 has. -/

namespace Sys2Proof

/-- A function index: 8 ports of 64 (R93). -/
def fnOk (f : Nat) : Bool := decide (f < 512)
/-- A queue or ring slot (R134). -/
def slotOk (q : Nat) : Bool := decide (q < 64)
/-- A siding number (R2). -/
def cxOk (cx : Nat) : Bool := decide (cx < Config.sidings)
/-- A host port (R90). -/
def hostPortOk (p : Nat) : Bool := decide (p < 8)
/-- A member port (R358). -/
def memberPortOk (p : Nat) : Bool := decide (p < 72)
/-- A group number (R194). -/
def groupOk (g : Nat) : Bool := decide (g < 8)
/-- A mailbox (R430). -/
def boxOk (b : Nat) : Bool := decide (b < 64)
/-- An agent number (R429). -/
def agentOk (a : Nat) : Bool := (decide (1 ≤ a) && decide (a ≤ 512)) || (decide (1025 ≤ a) && decide (a ≤ 1027))
/-- A mover (R400). -/
def moverOk (m : Nat) : Bool := decide (m < 8)
/-- A mover channel (R400). -/
def channelOk (c : Nat) : Bool := decide (c < 16)
/-- A peer window (R419). -/
def winOk (w : Nat) : Bool := decide (w < 16)
/-- A stripe number (R225). -/
def stripeOk (x : Nat) : Bool := decide (x < 2 ^ 48)
/-- A member command identifier of 16 bits. -/
def cidOk (c : Nat) : Bool := decide (c < 65536)
/-- A sensor (R448). -/
def sensorOk (i : Nat) : Bool := decide (i < 12)
/-- A rail (R460). -/
def railOk (i : Nat) : Bool := decide (i < 9)
/-- A dispatch lane (R16). -/
def laneOk (l : Nat) : Bool := decide (l < 4)
/-- An engine cluster (R13). -/
def clusterOk (c : Nat) : Bool := decide (c < 4)
/-- A PASID of 20 bits (R413). -/
def pasidOk (p : Nat) : Bool := decide (p < 2 ^ 20)
/-- The PF of an admin command. -/
def adminPortOk (a : AdminCmd) : Bool := hostPortOk a.port
/-- A Gelbel body (R446). -/
def bodyOk (g : GMsg) : Bool := decide (g.body.length ≤ 1012)
/-- SVN of a firmware image (R480). -/
def imageOk (x : SlotImage) : Bool := decide (x.svn ≤ 64)

/-- A register block of the part. -/
def RegBlock.ok : RegBlock → Bool
  | .fn f => fnOk f
  | .cfg f => fnOk f
  | .bar2 f => fnOk f
  | .rom p => hostPortOk p
  | .mbx i => boxOk i
  | .mov m => moverOk m
  | .win f w => fnOk f && winOk w
  | .tt | .adm | .vlt | .mem | .pwr | .fare | .tag | .hb => true

/-- A requester of TT_NOW: the mirror belongs to PFs, and the signal box has two cores (R37). -/
def TtRequester.ok : TtRequester → Bool
  | .fnNow f => fnOk f
  | .mirror f => fnOk f && f % 64 == 0
  | .core c => decide (c < 2)

/-- The operands of a command are in range. -/
def Instr.wf (i : Instr) : Bool :=
  match i with
  | .devRstAssert _ => true
  | .devRstDeassert _ _ _ _ => true
  | .railEnableStep => true
  | .supplyFaultTimeout rail => railOk rail
  | .powerGoodFall rail => railOk rail
  | .vauxBelowInhibit _ => true
  | .vauxInhibitClear _ => true
  | .vauxBrownout _ => true
  | .vauxRelease _ => true
  | .powerSequenceComplete => true
  | .selfTestStepDone step _ => decide (1 ≤ step) && decide (step ≤ 7)
  | .bootLoad a b _ _ => imageOk a && imageOk b
  | .fwStartTimeout => true
  | .vaultCheck _ _ _ => true
  | .vaultRateMeasure _ _ => true
  | .vaultSsdChange port _ _ _ => decide (port < 2)
  | .groupAssembly labels => labels.all fun l => memberPortOk l.port
  | .imageRestore _ _ _ _ => true
  | .journalReplay => true
  | .imageRelease _ => true
  | .enterReady => true
  | .groupRepair g _ => groupOk g
  | .ttcInEdge _ _ => true
  | .ttMissingEdge => true
  | .ttAcquireLapse => true
  | .cycleEdge temps _ => decide (temps.length = 12)
  | .possessionLeadNotice port => memberPortOk port
  | .possNdwinIssue port => memberPortOk port
  | .possDtwinIssue port => memberPortOk port
  | .windowSelectCompletion port _ => memberPortOk port
  | .windowSelectRetry port => memberPortOk port
  | .strayEvent port => memberPortOk port
  | .policyWindowEnd => true
  | .fareLatch => true
  | .remeasureDue vStart => decide (vStart < 2 ^ 17)
  | .scrubPassStart g => groupOk g
  | .patrolRead frame line _ => decide (frame < Config.frames) && decide (line < 64)
  | .pfailQualify => true
  | .memberAbandon => true
  | .dumpWriteCompletion => true
  | .vCutDetect mv => decide (mv < 2 ^ 17)
  | .thermalTrip sensor _ => sensorOk sensor
  | .hperstAssert p => hostPortOk p
  | .hperstDeassert p => hostPortOk p
  | .portRebuild p => hostPortOk p
  | .crsPeriodEnd => true
  | .hotReset p => hostPortOk p
  | .flr f => fnOk f
  | .flrTeardownEnd f => fnOk f
  | .busMasterClear f => fnOk f
  | .busMasterSet f => fnOk f
  | .vfEnableWrite p _ num => hostPortOk p && decide (num ≤ 63)
  | .dStateWrite p _ => hostPortOk p
  | .ctoValueWrite f _ => fnOk f
  | .msixUnmask f vector => fnOk f && (match vector with
    | some v => decide (v < 2048)
    | none => true)
  | .intxClear f _ _ => fnOk f
  | .genericRegisterWrite block _ _ _ => block.ok
  | .readToClear block _ => block.ok
  | .ttNowRead who _ => who.ok
  | .sqDoorbell f slot _ => fnOk f && slotOk slot
  | .entryFetchCompletion f slot _ _ => fnOk f && slotOk slot
  | .shadowPoll f slot => fnOk f && slotOk slot
  | .pollCompletion f slot _ => fnOk f && slotOk slot
  | .cqDoorbell f slot _ => fnOk f && slotOk slot
  | .pushDoorbell f slot _ => fnOk f && slotOk slot
  | .pushEntryWrite f slot off bytes _ => fnOk f && slotOk slot && decide (off + bytes.length ≤ 4096)
  | .inlineBufferWrite f slot off bytes _ => fnOk f && slotOk slot && decide (off + bytes.length ≤ 65536)
  | .peerWindowWrite f win _ _ _ _ => fnOk f && winOk win
  | .hostReadCompletion _ _ _ _ => true
  | .completionTimeout _ => true
  | .lateHostCompletion _ => true
  | .dispatch lane => laneOk lane
  | .completionIssue f slot => fnOk f && slotOk slot
  | .interruptDelayDue f slot => fnOk f && slotOk slot
  | .slotAssign cluster => clusterOk cluster
  | .threadResume cx => cxOk cx
  | .waitExpiry cx => cxOk cx
  | .lockWatchdog g stripe => groupOk g && stripeOk stripe
  | .orphanRecordReplay g stripe => groupOk g && stripeOk stripe
  | .memberCompletion port cid _ => memberPortOk port && cidOk cid
  | .memberTimeout port cid => memberPortOk port && cidOk cid
  | .memberLateCompletion port cid => memberPortOk port && cidOk cid
  | .memberDmaRequest port cid _ _ _ => memberPortOk port && cidOk cid
  | .presenceQualified port _ => memberPortOk port
  | .linkContainment port _ => memberPortOk port
  | .memberBringup port _ => memberPortOk port
  | .destageCreate g stripe => groupOk g && stripeOk stripe
  | .rebuildStepCreate g => groupOk g
  | .jretireWmRelease cx => cxOk cx
  | .scrubStepCreate g => groupOk g
  | .zeroingCreate g => groupOk g
  | .labelWriteCreate g index kind => groupOk g && decide (index < 72) && decide (kind < 5)
  | .mirrorRehome g => groupOk g
  | .moverChannelStart m => moverOk m
  | .moverResume m => moverOk m
  | .moverReadback m c _ => moverOk m && channelOk c
  | .moverChannelComplete m c => moverOk m && channelOk c
  | .movChGo m => moverOk m
  | .movChHold m _ => moverOk m
  | .translationCompletion f pasid _ _ _ _ _ => fnOk f && pasidOk pasid
  | .atsInvalidate f itag _ _ => fnOk f && decide (itag < 32)
  | .atsInvalidateCompletion f itag => fnOk f && decide (itag < 32)
  | .prgResponse f pasid index _ => fnOk f && pasidOk pasid && decide (index < 512)
  | .winCommit f w => fnOk f && winOk w
  | .winCommitResume f w => fnOk f && winOk w
  | .ttLoadArm => true
  | .ttSwitchArm => true
  | .ttRefEnWrite _ => true
  | .ttPlanCommit => true
  | .ttPlanEnWrite _ => true
  | .ttPlanEpochWrite _ => true
  | .ttActiveBankWrite _ _ => true
  | .admMaintFloorWrite _ => true
  | .admGroupModeWrite g _ => groupOk g
  | .vltMeasure vStart => decide (vStart < 2 ^ 17)
  | .huTestEnd vEnd => decide (vEnd < 2 ^ 17)
  | .vltLedgerParamWrite _ _ => true
  | .memQuadCfgWrite _ _ => true
  | .farePeriodWrite _ => true
  | .mbxLockRead b agent => boxOk b && agentOk agent
  | .mbxLockWrite b agent _ => boxOk b && agentOk agent
  | .mbxPost b agent _ => boxOk b && agentOk agent
  | .mbxTake b agent _ => boxOk b && agentOk agent
  | .mbxTimeout b => boxOk b
  | .noticePost p => hostPortOk p
  | .adminInit p => hostPortOk p
  | .bind p => hostPortOk p
  | .unbind p => hostPortOk p
  | .mbxHbWrite _ => true
  | .heartbeatCheck => true
  | .reloadHeartbeatTimeout => true
  | .rungEntryStart => true
  | .rungCommit => true
  | .rungWake _ => true
  | .rungExitPoint elapsed cycles => decide (elapsed < 2 ^ 32) && decide (cycles < 2 ^ 44)
  | .layupRestoreEnd _ _ => true
  | .read cx _ => cxOk cx
  | .write cx _ _ => cxOk cx
  | .flush cx => cxOk cx
  | .flushDestage cx => cxOk cx
  | .writeZeroes cx => cxOk cx
  | .deallocate cx => cxOk cx
  | .verify cx _ => cxOk cx
  | .identifyVolume a => adminPortOk a
  | .createVolumeCreate a => adminPortOk a
  | .createVolumeAttach a => adminPortOk a
  | .createVolumeDetach a => adminPortOk a
  | .deleteVolume a => adminPortOk a
  | .createQueue a => adminPortOk a
  | .setPower a => adminPortOk a
  | .getLog a => adminPortOk a
  | .loadProgram a => adminPortOk a
  | .bindRoute a => adminPortOk a
  | .setTokens a => adminPortOk a
  | .createGroup a => adminPortOk a
  | .setTimetable a => adminPortOk a
  | .setWindow a => adminPortOk a
  | .memberControlReset a => adminPortOk a
  | .memberControlFail a => adminPortOk a
  | .memberControlReplace a => adminPortOk a
  | .memberControlProfile a => adminPortOk a
  | .memberControlAdopt a => adminPortOk a
  | .memberControlRetireGroup a => adminPortOk a
  | .memberControlFormat a => adminPortOk a
  | .memberControlSanitize a => adminPortOk a
  | .memberControlScrub a => adminPortOk a
  | .memberControlPowerOff a => adminPortOk a
  | .memberControlSetDepth a => adminPortOk a
  | .add x => cxOk x.cx
  | .sub x => cxOk x.cx
  | .and x => cxOk x.cx
  | .or x => cxOk x.cx
  | .xor x => cxOk x.cx
  | .shl x => cxOk x.cx
  | .shr x => cxOk x.cx
  | .sar x => cxOk x.cx
  | .mul x => cxOk x.cx
  | .mulhu x => cxOk x.cx
  | .divu x => cxOk x.cx
  | .remu x => cxOk x.cx
  | .minu x => cxOk x.cx
  | .maxu x => cxOk x.cx
  | .cmp x => cxOk x.cx
  | .flop x => cxOk x.cx
  | .ldi x => cxOk x.cx
  | .ldih x => cxOk x.cx
  | .sel x => cxOk x.cx
  | .ext x => cxOk x.cx
  | .ins x => cxOk x.cx
  | .popc x => cxOk x.cx
  | .clz x => cxOk x.cx
  | .bswap x => cxOk x.cx
  | .br x => cxOk x.cx
  | .btab x => cxOk x.cx
  | .call x => cxOk x.cx
  | .ret x => cxOk x.cx
  | .loop x => cxOk x.cx
  | .callm x => cxOk x.cx
  | .lds x => cxOk x.cx
  | .cld x => cxOk x.cx
  | .cst x => cxOk x.cx
  | .xtl x => cxOk x.cx
  | .ginfo x => cxOk x.cx
  | .desc x => cxOk x.cx
  | .hread x => cxOk x.cx
  | .hwrite x => cxOk x.cx
  | .post x => cxOk x.cx
  | .clook x => cxOk x.cx
  | .calloc x => cxOk x.cx
  | .cpin x => cxOk x.cx
  | .cunpin x => cxOk x.cx
  | .lock x => cxOk x.cx
  | .unlock x => cxOk x.cx
  | .perm x => cxOk x.cx
  | .jopen x => cxOk x.cx
  | .jadd x => cxOk x.cx
  | .jseal x => cxOk x.cx
  | .jretire x => cxOk x.cx
  | .mread x => cxOk x.cx
  | .mwrite x => cxOk x.cx
  | .mwait x => cxOk x.cx
  | .xorv x => cxOk x.cx
  | .gmulv x => cxOk x.cx
  | .pqgen x => cxOk x.cx
  | .pqdelta x => cxOk x.cx
  | .pqsolve1 x => cxOk x.cx
  | .pqsolve2 x => cxOk x.cx
  | .cmpv x => cxOk x.cx
  | .ttnow x => cxOk x.cx
  | .dlset x => cxOk x.cx
  | .dlleft x => cxOk x.cx
  | .wait x => cxOk x.cx
  | .yield x => cxOk x.cx
  | .trap x => cxOk x.cx
  | .halt x => cxOk x.cx
  | .rfault x => cxOk x.cx
  | .gelbelGetStatus g => bodyOk g
  | .gelbelGetRouteBook g => bodyOk g
  | .gelbelGetTemp g => bodyOk g
  | .gelbelGetFare g => bodyOk g
  | .tagRead g => bodyOk g
  | .tagWrite g => bodyOk g
  | .fwUpdateBegin g => bodyOk g
  | .fwUpdateData g => bodyOk g
  | .fwUpdateCommit g image => bodyOk g && imageOk image
  | .fwUpdateAbort g => bodyOk g
  | .gelbelTimetable g => bodyOk g
  | .gelbelWake g => bodyOk g
  | .vaultRelease g => bodyOk g
  | .gelbelMemberControl g => bodyOk g
  | .gelbelSetTokens g => bodyOk g
  | .gelbelGetLog g => bodyOk g
  | .mctpSetEndpointId _ => true
  | .mctpGetEndpointId => true
  | .mctpGetVersionSupport => true
  | .mctpGetMessageTypeSupport => true
  | .uartHelp => true
  | .uartState => true
  | .uartVer => true
  | .uartTemp => true
  | .uartTt => true
  | .uartRb off len => decide (off < 65536) && decide (len ≤ 256)
  | .uartTag n => decide (n < 16)
  | .uartMem port => memberPortOk port
  | .uartLog n => decide (n ≤ 32)
  | .uartVault => true
  | .uartUnknownCommand => true
  | .refclkLoss => true
  | .hostLinkUp p width _ _ => hostPortOk p && decide (1 ≤ width) && decide (width ≤ 16)
  | .gelbelUndefinedCommand _ g => bodyOk g
  | .mailboxUndefinedRequest p => hostPortOk p
  | .memberControlUndefinedAction a => adminPortOk a

end Sys2Proof
end

