-- ==== Sys2Proof/Safety.lean ====
section
/-! DEFINITION. The terms claims use: which parts of the state a command changes, the moves of the device state (R468),
the canonical form of every storage, and what a safe run is. -/

namespace Sys2Proof.Machine

/-- The parts of the state. -/
inductive Part where
  | pwr | tt | adm | ports | funcs | reads | nextTag | ctxs | engineFree | cache | locks | journal | groups | vols | freedVols
  | mports | mem | vlt | movers | xlate | progs | mbx | fare | errLog | errSeq | defLog | defSeq | rb | fresh | fetchDue | out
  | freeCtr | seqCtr | pending
  deriving DecidableEq, Repr

/-- A part is the same in two states. -/
def Part.same : Part → State → State → Prop
  | .pwr, s, t => t.pwr = s.pwr
  | .tt, s, t => t.tt = s.tt
  | .adm, s, t => t.adm = s.adm
  | .ports, s, t => t.ports = s.ports
  | .funcs, s, t => t.funcs = s.funcs
  | .reads, s, t => t.reads = s.reads
  | .nextTag, s, t => t.nextTag = s.nextTag
  | .ctxs, s, t => t.ctxs = s.ctxs
  | .engineFree, s, t => t.engineFree = s.engineFree
  | .cache, s, t => t.cache = s.cache
  | .locks, s, t => t.locks = s.locks
  | .journal, s, t => t.journal = s.journal
  | .groups, s, t => t.groups = s.groups
  | .vols, s, t => t.vols = s.vols
  | .freedVols, s, t => t.freedVols = s.freedVols
  | .mports, s, t => t.mports = s.mports
  | .mem, s, t => t.mem = s.mem
  | .vlt, s, t => t.vlt = s.vlt
  | .movers, s, t => t.movers = s.movers
  | .xlate, s, t => t.xlate = s.xlate
  | .progs, s, t => t.progs = s.progs
  | .mbx, s, t => t.mbx = s.mbx
  | .fare, s, t => t.fare = s.fare
  | .errLog, s, t => t.errLog = s.errLog
  | .errSeq, s, t => t.errSeq = s.errSeq
  | .defLog, s, t => t.defLog = s.defLog
  | .defSeq, s, t => t.defSeq = s.defSeq
  | .rb, s, t => t.rb = s.rb
  | .fresh, s, t => t.fresh = s.fresh
  | .fetchDue, s, t => t.fetchDue = s.fetchDue
  | .out, s, t => t.out = s.out
  | .freeCtr, s, t => t.freeCtr = s.freeCtr
  | .seqCtr, s, t => t.seqCtr = s.seqCtr
  | .pending, s, t => t.pending = s.pending

/-- From s to t nothing changes outside the named parts. -/
def OnlyChanges (ps : List Part) (s t : State) : Prop := ∀ p : Part, p ∉ ps → p.same s t

/-- The parts of the state that a command can change, whatever its operands and whatever the state. -/
def footprint (c : Instr) : List Part :=
  match c with
  | .devRstAssert _ =>
    [.pwr, .tt, .adm, .ports, .funcs, .reads, .nextTag, .ctxs, .engineFree, .cache, .locks, .journal, .groups, .vols,
      .freedVols, .mports, .mem, .vlt, .movers, .xlate, .progs, .mbx, .fare, .errLog, .errSeq, .defLog, .defSeq, .rb,
      .fresh, .fetchDue, .out, .freeCtr]
  | .devRstDeassert _ _ _ _ =>
    [.pwr, .ports, .funcs, .vlt, .freeCtr]
  | .railEnableStep =>
    [.pwr, .out]
  | .supplyFaultTimeout _ =>
    [.pwr]
  | .powerGoodFall _ =>
    [.pwr, .tt, .adm, .ports, .funcs, .reads, .nextTag, .ctxs, .engineFree, .cache, .locks, .journal, .groups, .vols,
      .freedVols, .mports, .mem, .vlt, .movers, .xlate, .progs, .mbx, .fare, .errLog, .errSeq, .defLog, .defSeq, .rb,
      .fresh, .fetchDue, .out, .seqCtr]
  | .vauxBelowInhibit _ | .vauxInhibitClear _ =>
    [.pwr]
  | .vauxBrownout _ =>
    [.pwr, .tt, .adm, .ports, .funcs, .reads, .nextTag, .ctxs, .engineFree, .cache, .locks, .journal, .groups, .vols,
      .freedVols, .mports, .mem, .vlt, .movers, .xlate, .progs, .mbx, .fare, .errLog, .errSeq, .defLog, .defSeq, .rb,
      .fresh, .fetchDue, .out]
  | .vauxRelease _ =>
    [.pwr, .ports, .funcs, .vlt]
  | .powerSequenceComplete =>
    [.pwr, .tt, .rb, .out]
  | .selfTestStepDone _ _ =>
    [.pwr, .mports, .rb, .out]
  | .bootLoad _ _ _ _ =>
    [.pwr, .mports, .mem, .vlt, .progs, .errLog, .errSeq, .rb, .out]
  | .fwStartTimeout =>
    [.pwr, .mports, .rb, .out]
  | .vaultCheck _ _ _ =>
    [.pwr, .vlt, .errLog, .errSeq, .out]
  | .vaultRateMeasure _ _ =>
    [.vlt]
  | .vaultSsdChange _ _ _ _ =>
    [.adm, .funcs, .ctxs, .vlt, .errLog, .errSeq, .rb, .fresh, .seqCtr]
  | .groupAssembly _ =>
    [.adm, .cache, .groups, .mports, .mem, .errLog, .errSeq, .rb, .fresh]
  | .imageRestore _ _ _ _ =>
    [.funcs, .ctxs, .cache, .journal, .groups, .vols, .mem, .vlt, .errLog, .errSeq, .defLog, .defSeq, .rb, .freeCtr,
      .seqCtr]
  | .journalReplay =>
    [.adm, .funcs, .ctxs, .cache, .locks, .journal, .groups, .vols, .mports, .mem, .errLog, .errSeq, .defLog, .defSeq,
      .out, .seqCtr]
  | .imageRelease _ =>
    [.vlt, .out]
  | .enterReady =>
    [.pwr, .adm, .vols, .fare, .errLog, .errSeq, .rb, .fresh, .out]
  | .groupRepair _ _ =>
    [.funcs, .ctxs, .groups, .vols, .errLog, .errSeq, .defLog, .defSeq, .rb, .out, .seqCtr]
  | .ttcInEdge _ _ | .ttMissingEdge =>
    [.tt, .rb, .fresh]
  | .ttAcquireLapse =>
    [.tt, .rb]
  | .cycleEdge _ _ =>
    [.pwr, .tt, .adm, .ports, .funcs, .reads, .nextTag, .ctxs, .engineFree, .cache, .locks, .journal, .groups, .vols,
      .freedVols, .mports, .mem, .vlt, .movers, .xlate, .progs, .mbx, .fare, .errLog, .errSeq, .defLog, .defSeq, .rb,
      .fresh, .fetchDue, .out, .freeCtr, .seqCtr]
  | .possessionLeadNotice _ =>
    [.mports]
  | .possNdwinIssue _ =>
    [.adm, .ctxs, .groups, .mports, .out, .seqCtr]
  | .possDtwinIssue _ =>
    [.adm, .groups, .mports, .out]
  | .windowSelectCompletion _ _ =>
    [.ctxs, .cache, .journal, .groups, .mports, .seqCtr]
  | .windowSelectRetry _ =>
    [.adm, .groups, .mports, .out]
  | .strayEvent _ =>
    [.adm, .groups, .mports, .errLog, .errSeq, .rb, .out]
  | .policyWindowEnd =>
    [.mports, .mem, .errLog, .errSeq, .rb]
  | .fareLatch =>
    [.vols, .fare]
  | .remeasureDue _ =>
    [.pwr, .adm, .funcs, .ctxs, .vlt, .errLog, .errSeq, .rb, .fresh, .out, .seqCtr]
  | .scrubPassStart _ =>
    [.groups]
  | .patrolRead _ _ _ =>
    [.funcs, .ctxs, .cache, .journal, .groups, .vols, .vlt, .errLog, .errSeq, .defLog, .defSeq, .fresh, .seqCtr]
  | .pfailQualify =>
    [.pwr, .adm, .funcs, .reads, .ctxs, .locks, .mports, .vlt, .movers, .errLog, .errSeq, .rb, .fresh, .out, .seqCtr]
  | .memberAbandon =>
    [.pwr, .mports, .vlt, .rb, .out]
  | .dumpWriteCompletion | .vCutDetect _ =>
    [.pwr, .vlt, .rb, .out]
  | .thermalTrip _ _ =>
    [.pwr, .adm, .funcs, .reads, .ctxs, .locks, .mports, .vlt, .movers, .errLog, .errSeq, .rb, .fresh, .out, .seqCtr]
  | .hperstAssert _ =>
    [.pwr, .tt, .adm, .ports, .funcs, .reads, .nextTag, .ctxs, .engineFree, .cache, .locks, .journal, .groups, .vols,
      .freedVols, .mports, .movers, .xlate, .progs, .mbx, .fare, .errLog, .errSeq, .defLog, .defSeq, .rb, .fresh,
      .out, .seqCtr]
  | .hperstDeassert _ =>
    [.pwr, .ports, .funcs, .errLog, .errSeq, .rb, .fresh, .out]
  | .portRebuild _ =>
    [.ports, .funcs, .rb]
  | .crsPeriodEnd =>
    [.ports]
  | .hotReset _ =>
    [.ports, .funcs, .movers, .rb]
  | .flr _ =>
    [.pwr, .tt, .adm, .ports, .funcs, .reads, .nextTag, .ctxs, .engineFree, .cache, .locks, .journal, .groups, .vols,
      .freedVols, .mports, .movers, .xlate, .progs, .mbx, .fare, .errLog, .errSeq, .defLog, .defSeq, .rb, .fresh,
      .out, .seqCtr]
  | .flrTeardownEnd _ =>
    [.funcs, .rb]
  | .busMasterClear _ =>
    [.funcs, .movers, .rb, .out]
  | .busMasterSet _ =>
    [.funcs, .rb, .out]
  | .vfEnableWrite _ _ _ =>
    [.pwr, .tt, .adm, .ports, .funcs, .reads, .nextTag, .ctxs, .engineFree, .cache, .locks, .journal, .groups, .vols,
      .freedVols, .mports, .movers, .xlate, .progs, .mbx, .fare, .errLog, .errSeq, .defLog, .defSeq, .rb, .fresh,
      .out, .seqCtr]
  | .dStateWrite _ _ =>
    [.pwr, .ports, .funcs, .errLog, .errSeq, .rb, .fresh, .out]
  | .ctoValueWrite _ _ =>
    [.funcs, .fresh, .out]
  | .msixUnmask _ _ =>
    [.funcs, .out]
  | .intxClear _ _ _ =>
    [.funcs]
  | .genericRegisterWrite _ _ _ _ =>
    [.pwr, .tt, .adm, .ports, .funcs, .groups, .mports, .mem, .vlt, .movers, .mbx, .fare, .errLog, .errSeq, .rb,
      .fresh, .out]
  | .readToClear _ _ =>
    [.pwr, .tt, .funcs, .mports, .vlt, .movers, .mbx, .out]
  | .ttNowRead _ _ =>
    [.tt, .out]
  | .sqDoorbell _ _ _ =>
    [.pwr, .funcs, .errLog, .errSeq, .fresh, .fetchDue, .out]
  | .entryFetchCompletion _ _ _ _ =>
    [.pwr, .ports, .funcs, .reads, .nextTag, .fresh, .out]
  | .shadowPoll _ _ =>
    [.funcs, .reads, .nextTag, .out]
  | .pollCompletion _ _ _ =>
    [.pwr, .ports, .funcs, .reads, .nextTag, .errLog, .errSeq, .fresh, .out]
  | .cqDoorbell _ _ _ =>
    [.funcs, .fresh]
  | .pushDoorbell _ _ _ =>
    [.pwr, .funcs, .errLog, .errSeq, .fresh, .out]
  | .pushEntryWrite _ _ _ _ _ | .inlineBufferWrite _ _ _ _ _ =>
    [.ports, .funcs, .fresh, .out]
  | .peerWindowWrite _ _ _ _ _ _ =>
    [.ports, .funcs, .cache, .errLog, .errSeq, .fresh, .out]
  | .hostReadCompletion _ _ _ _ =>
    [.pwr, .ports, .funcs, .reads, .nextTag, .ctxs, .engineFree, .cache, .locks, .journal, .groups, .vols, .mports,
      .movers, .xlate, .progs, .errLog, .errSeq, .defLog, .defSeq, .rb, .fresh, .out, .seqCtr]
  | .completionTimeout _ | .lateHostCompletion _ =>
    [.ports, .funcs, .reads, .nextTag, .ctxs, .engineFree, .cache, .locks, .journal, .groups, .vols, .mports, .movers,
      .xlate, .progs, .errLog, .errSeq, .defLog, .defSeq, .rb, .fresh, .out, .seqCtr]
  | .dispatch _ =>
    [.adm, .funcs, .reads, .nextTag, .ctxs, .cache, .vols, .mbx, .out, .seqCtr]
  | .completionIssue _ _ =>
    [.funcs, .reads, .nextTag, .ctxs, .engineFree, .cache, .locks, .journal, .groups, .vols, .freedVols, .mports,
      .movers, .xlate, .progs, .fare, .errLog, .errSeq, .defLog, .defSeq, .rb, .fresh, .out, .freeCtr, .seqCtr]
  | .interruptDelayDue _ _ =>
    [.ports, .funcs, .fresh, .out]
  | .slotAssign _ =>
    [.ctxs, .engineFree, .seqCtr]
  | .threadResume _ =>
    [.funcs, .reads, .nextTag, .ctxs, .engineFree, .cache, .locks, .journal, .groups, .vols, .mports, .mem, .movers,
      .xlate, .progs, .errLog, .errSeq, .defLog, .defSeq, .rb, .fresh, .out, .seqCtr]
  | .waitExpiry _ =>
    [.ctxs, .seqCtr]
  | .lockWatchdog _ _ =>
    [.ctxs, .locks, .seqCtr]
  | .orphanRecordReplay _ _ =>
    [.adm, .funcs, .ctxs, .cache, .locks, .journal, .groups, .vols, .mports, .mem, .errLog, .errSeq, .defLog, .defSeq,
      .out, .seqCtr]
  | .memberCompletion _ _ _ | .memberTimeout _ _ =>
    [.adm, .funcs, .ctxs, .cache, .locks, .journal, .groups, .vols, .mports, .mem, .errLog, .errSeq, .defLog, .defSeq,
      .rb, .fresh, .out, .seqCtr]
  | .memberLateCompletion _ _ =>
    [.mports, .errLog, .errSeq, .fresh]
  | .memberDmaRequest _ _ _ _ _ =>
    [.adm, .funcs, .ctxs, .cache, .locks, .journal, .groups, .vols, .mports, .mem, .errLog, .errSeq, .defLog, .defSeq,
      .rb, .fresh, .out, .seqCtr]
  | .presenceQualified _ _ =>
    [.adm, .ports, .funcs, .ctxs, .cache, .locks, .journal, .groups, .vols, .mports, .mem, .errLog, .errSeq, .defLog,
      .defSeq, .rb, .out, .seqCtr]
  | .linkContainment _ _ =>
    [.adm, .funcs, .ctxs, .cache, .locks, .journal, .groups, .vols, .mports, .mem, .errLog, .errSeq, .defLog, .defSeq,
      .rb, .out, .seqCtr]
  | .memberBringup _ _ =>
    [.adm, .funcs, .ctxs, .cache, .locks, .journal, .groups, .vols, .mports, .mem, .errLog, .errSeq, .defLog, .defSeq,
      .rb, .fresh, .out, .seqCtr]
  | .destageCreate _ _ =>
    [.ctxs, .groups, .seqCtr]
  | .rebuildStepCreate _ =>
    [.ctxs, .groups, .errLog, .errSeq, .seqCtr]
  | .jretireWmRelease _ =>
    [.funcs, .ctxs, .cache, .locks, .journal, .groups, .vols, .mports, .mem, .errLog, .errSeq, .defLog, .defSeq, .rb,
      .out, .seqCtr]
  | .scrubStepCreate _ | .zeroingCreate _ =>
    [.ctxs, .groups, .seqCtr]
  | .labelWriteCreate _ _ _ =>
    [.ctxs, .cache, .groups, .freeCtr, .seqCtr]
  | .mirrorRehome _ =>
    [.adm, .groups, .errLog, .errSeq, .out]
  | .moverChannelStart _ | .moverResume _ | .moverReadback _ _ _ =>
    [.funcs, .reads, .nextTag, .ctxs, .engineFree, .cache, .locks, .journal, .groups, .vols, .mports, .movers, .xlate,
      .progs, .errLog, .errSeq, .defLog, .defSeq, .rb, .fresh, .out, .seqCtr]
  | .moverChannelComplete _ _ =>
    [.funcs, .reads, .nextTag, .ctxs, .engineFree, .cache, .locks, .journal, .groups, .vols, .mports, .movers, .xlate,
      .progs, .mbx, .errLog, .errSeq, .defLog, .defSeq, .rb, .fresh, .out, .freeCtr, .seqCtr]
  | .movChGo _ =>
    [.movers, .errLog, .errSeq, .fresh]
  | .movChHold _ _ =>
    [.funcs, .reads, .nextTag, .ctxs, .engineFree, .cache, .locks, .journal, .groups, .vols, .mports, .movers, .xlate,
      .progs, .errLog, .errSeq, .defLog, .defSeq, .rb, .fresh, .out, .seqCtr]
  | .translationCompletion _ _ _ _ _ _ _ =>
    [.ports, .funcs, .reads, .nextTag, .ctxs, .engineFree, .cache, .locks, .journal, .groups, .vols, .mports, .movers,
      .xlate, .progs, .errLog, .errSeq, .defLog, .defSeq, .rb, .fresh, .out, .seqCtr]
  | .atsInvalidate _ _ _ _ =>
    [.xlate]
  | .atsInvalidateCompletion _ _ =>
    [.xlate, .out]
  | .prgResponse _ _ _ _ =>
    [.ports, .funcs, .reads, .nextTag, .ctxs, .engineFree, .cache, .locks, .journal, .groups, .vols, .mports, .movers,
      .xlate, .progs, .errLog, .errSeq, .defLog, .defSeq, .rb, .fresh, .out, .seqCtr]
  | .winCommit _ _ | .winCommitResume _ _ =>
    [.funcs, .ctxs, .cache, .out, .freeCtr, .seqCtr]
  | .ttLoadArm | .ttSwitchArm =>
    [.tt]
  | .ttRefEnWrite _ =>
    [.tt, .rb]
  | .ttPlanCommit =>
    [.tt, .fresh]
  | .ttPlanEnWrite _ | .ttPlanEpochWrite _ =>
    [.tt]
  | .ttActiveBankWrite _ _ =>
    [.errLog, .errSeq]
  | .admMaintFloorWrite _ =>
    [.adm, .errLog, .errSeq, .rb, .fresh]
  | .admGroupModeWrite _ _ =>
    [.adm, .errLog, .errSeq]
  | .vltMeasure _ | .huTestEnd _ =>
    [.pwr, .adm, .funcs, .ctxs, .vlt, .errLog, .errSeq, .rb, .fresh, .out, .seqCtr]
  | .vltLedgerParamWrite _ _ =>
    [.adm, .funcs, .ctxs, .vlt, .errLog, .errSeq, .rb, .fresh, .seqCtr]
  | .memQuadCfgWrite _ _ =>
    [.mports, .mem]
  | .farePeriodWrite _ =>
    [.fare]
  | .mbxLockRead _ _ =>
    [.mbx, .out]
  | .mbxLockWrite _ _ _ | .mbxPost _ _ _ =>
    [.funcs, .mbx, .fresh]
  | .mbxTake _ _ _ | .mbxTimeout _ =>
    [.funcs, .mbx, .fresh, .out]
  | .noticePost _ | .heartbeatCheck =>
    [.mbx]
  | .adminInit _ =>
    [.funcs, .reads, .nextTag, .mbx, .fresh, .out]
  | .bind _ | .unbind _ =>
    [.funcs, .mbx, .fresh, .out]
  | .mbxHbWrite _ =>
    [.pwr, .mbx, .errLog, .errSeq]
  | .reloadHeartbeatTimeout =>
    [.tt, .mbx, .errLog, .errSeq]
  | .rungEntryStart =>
    [.pwr, .funcs, .locks, .xlate, .out]
  | .rungCommit =>
    [.pwr, .tt, .adm, .ports, .funcs, .ctxs, .cache, .locks, .groups, .vols, .freedVols, .mports, .xlate, .fare,
      .errLog, .errSeq, .rb, .fresh, .out, .freeCtr, .seqCtr]
  | .rungWake _ =>
    [.pwr, .ports, .funcs, .errLog, .errSeq, .fresh, .out]
  | .rungExitPoint _ _ =>
    [.pwr, .tt, .adm, .funcs, .ctxs, .cache, .locks, .journal, .groups, .vols, .freedVols, .mports, .mem, .vlt, .mbx,
      .fare, .errLog, .errSeq, .defLog, .defSeq, .rb, .fresh, .out, .freeCtr, .seqCtr]
  | .layupRestoreEnd _ _ =>
    [.pwr, .tt, .adm, .ports, .funcs, .reads, .nextTag, .ctxs, .engineFree, .cache, .locks, .journal, .groups, .vols,
      .freedVols, .mports, .mem, .vlt, .movers, .xlate, .progs, .mbx, .fare, .errLog, .errSeq, .defLog, .defSeq, .rb,
      .fresh, .fetchDue]
  | .read _ _ =>
    [.adm, .funcs, .reads, .nextTag, .ctxs, .engineFree, .cache, .locks, .journal, .groups, .vols, .mports, .mem,
      .movers, .xlate, .progs, .errLog, .errSeq, .defLog, .defSeq, .rb, .fresh, .out, .freeCtr, .seqCtr]
  | .write _ _ _ =>
    [.ports, .funcs, .reads, .nextTag, .ctxs, .engineFree, .cache, .locks, .journal, .groups, .vols, .mports, .movers,
      .xlate, .progs, .errLog, .errSeq, .defLog, .defSeq, .rb, .fresh, .out, .freeCtr, .seqCtr]
  | .flush _ | .flushDestage _ =>
    [.funcs, .ctxs, .engineFree, .cache, .locks, .journal, .groups, .mports, .movers, .progs, .rb, .seqCtr]
  | .writeZeroes _ | .deallocate _ =>
    [.funcs, .ctxs, .engineFree, .cache, .locks, .journal, .groups, .mports, .movers, .progs, .rb, .freeCtr, .seqCtr]
  | .verify _ _ =>
    [.adm, .funcs, .ctxs, .engineFree, .cache, .locks, .journal, .groups, .vols, .mports, .mem, .movers, .progs,
      .errLog, .errSeq, .defLog, .defSeq, .rb, .fresh, .out, .freeCtr, .seqCtr]
  | .identifyVolume _ =>
    [.ports, .funcs, .mbx, .fresh, .out, .seqCtr]
  | .createVolumeCreate _ =>
    [.ports, .funcs, .groups, .vols, .mbx, .rb, .fresh, .out, .seqCtr]
  | .createVolumeAttach _ =>
    [.ports, .funcs, .vols, .mbx, .rb, .fresh, .out, .seqCtr]
  | .createVolumeDetach _ | .deleteVolume _ =>
    [.ports, .funcs, .cache, .groups, .vols, .freedVols, .mbx, .fare, .rb, .fresh, .out, .seqCtr]
  | .createQueue _ =>
    [.adm, .ports, .funcs, .reads, .nextTag, .mbx, .fresh, .out, .seqCtr]
  | .setPower _ =>
    [.pwr, .ports, .funcs, .mbx, .fresh, .out, .seqCtr]
  | .getLog _ =>
    [.ports, .funcs, .mbx, .fresh, .out, .seqCtr]
  | .loadProgram _ =>
    [.ports, .funcs, .ctxs, .cache, .groups, .mports, .mem, .progs, .mbx, .errLog, .errSeq, .rb, .fresh, .out, .seqCtr]
  | .bindRoute _ =>
    [.ports, .funcs, .vols, .mbx, .fresh, .out, .seqCtr]
  | .setTokens _ =>
    [.adm, .ports, .funcs, .mbx, .rb, .fresh, .out, .seqCtr]
  | .createGroup _ =>
    [.adm, .ports, .funcs, .groups, .mports, .mbx, .rb, .fresh, .out, .seqCtr]
  | .setTimetable _ =>
    [.tt, .ports, .funcs, .mbx, .rb, .fresh, .out, .seqCtr]
  | .setWindow _ =>
    [.ports, .funcs, .ctxs, .cache, .mbx, .fresh, .out, .freeCtr, .seqCtr]
  | .memberControlReset _ | .memberControlFail _ | .memberControlReplace _ | .memberControlProfile _ |
    .memberControlAdopt _ | .memberControlRetireGroup _ | .memberControlFormat _ | .memberControlSanitize _ |
    .memberControlScrub _ | .memberControlPowerOff _ | .memberControlSetDepth _ =>
    [.pwr, .adm, .ports, .funcs, .ctxs, .cache, .locks, .journal, .groups, .vols, .mports, .mem, .mbx, .fare, .errLog,
      .errSeq, .defLog, .defSeq, .rb, .fresh, .out, .seqCtr]
  | .add _ | .sub _ | .and _ | .or _ | .xor _ | .shl _ | .shr _ | .sar _ | .mul _ | .mulhu _ | .divu _ | .remu _ |
    .minu _ | .maxu _ | .cmp _ | .flop _ | .ldi _ | .ldih _ | .sel _ | .ext _ | .ins _ | .popc _ | .clz _ | .bswap _ |
    .br _ | .btab _ | .call _ =>
    [.funcs, .ctxs, .engineFree, .cache, .locks, .journal, .groups, .vols, .mports, .movers, .progs, .errLog, .errSeq,
      .defLog, .defSeq, .rb, .seqCtr]
  | .ret _ =>
    [.funcs, .ctxs, .engineFree, .cache, .locks, .journal, .groups, .vols, .mports, .movers, .progs, .errLog, .errSeq,
      .defLog, .defSeq, .rb, .freeCtr, .seqCtr]
  | .loop _ =>
    [.funcs, .ctxs, .engineFree, .cache, .locks, .journal, .groups, .vols, .mports, .movers, .progs, .errLog, .errSeq,
      .defLog, .defSeq, .rb, .seqCtr]
  | .callm _ =>
    [.funcs, .ctxs, .engineFree, .cache, .locks, .journal, .groups, .vols, .mports, .movers, .progs, .errLog, .errSeq,
      .defLog, .defSeq, .rb, .freeCtr, .seqCtr]
  | .lds _ | .cld _ | .cst _ | .xtl _ =>
    [.funcs, .ctxs, .engineFree, .cache, .locks, .journal, .groups, .vols, .mports, .movers, .progs, .errLog, .errSeq,
      .defLog, .defSeq, .rb, .seqCtr]
  | .ginfo _ =>
    [.funcs, .ctxs, .engineFree, .cache, .locks, .journal, .groups, .vols, .mports, .movers, .progs, .errLog, .errSeq,
      .defLog, .defSeq, .rb, .freeCtr, .seqCtr]
  | .desc _ =>
    [.funcs, .reads, .nextTag, .ctxs, .engineFree, .cache, .locks, .journal, .groups, .vols, .mports, .movers, .progs,
      .errLog, .errSeq, .defLog, .defSeq, .rb, .out, .freeCtr, .seqCtr]
  | .hread _ | .hwrite _ =>
    [.funcs, .reads, .nextTag, .ctxs, .engineFree, .cache, .locks, .journal, .groups, .vols, .mports, .movers, .xlate,
      .progs, .errLog, .errSeq, .defLog, .defSeq, .rb, .fresh, .out, .seqCtr]
  | .post _ | .clook _ =>
    [.funcs, .ctxs, .engineFree, .cache, .locks, .journal, .groups, .vols, .mports, .movers, .progs, .errLog, .errSeq,
      .defLog, .defSeq, .rb, .seqCtr]
  | .calloc _ =>
    [.funcs, .ctxs, .engineFree, .cache, .locks, .journal, .groups, .vols, .mports, .movers, .progs, .errLog, .errSeq,
      .defLog, .defSeq, .rb, .freeCtr, .seqCtr]
  | .cpin _ | .cunpin _ | .lock _ | .unlock _ | .perm _ | .jopen _ | .jadd _ =>
    [.funcs, .ctxs, .engineFree, .cache, .locks, .journal, .groups, .vols, .mports, .movers, .progs, .errLog, .errSeq,
      .defLog, .defSeq, .rb, .seqCtr]
  | .jseal _ =>
    [.funcs, .ctxs, .engineFree, .cache, .locks, .journal, .groups, .vols, .mports, .movers, .progs, .errLog, .errSeq,
      .defLog, .defSeq, .rb, .out, .seqCtr]
  | .jretire _ =>
    [.funcs, .ctxs, .engineFree, .cache, .locks, .journal, .groups, .vols, .mports, .mem, .movers, .progs, .errLog,
      .errSeq, .defLog, .defSeq, .rb, .out, .seqCtr]
  | .mread _ | .mwrite _ =>
    [.adm, .funcs, .ctxs, .engineFree, .cache, .locks, .journal, .groups, .vols, .mports, .movers, .progs, .errLog,
      .errSeq, .defLog, .defSeq, .rb, .out, .seqCtr]
  | .mwait _ =>
    [.funcs, .ctxs, .engineFree, .cache, .locks, .journal, .groups, .vols, .mports, .movers, .progs, .errLog, .errSeq,
      .defLog, .defSeq, .rb, .freeCtr, .seqCtr]
  | .xorv _ | .gmulv _ | .pqgen _ | .pqdelta _ | .pqsolve1 _ | .pqsolve2 _ | .cmpv _ | .ttnow _ | .dlset _ |
    .dlleft _ | .wait _ | .yield _ =>
    [.funcs, .ctxs, .engineFree, .cache, .locks, .journal, .groups, .vols, .mports, .movers, .progs, .errLog, .errSeq,
      .defLog, .defSeq, .rb, .seqCtr]
  | .trap _ =>
    [.funcs, .ctxs, .engineFree, .cache, .locks, .journal, .groups, .vols, .mports, .mem, .movers, .progs, .errLog,
      .errSeq, .defLog, .defSeq, .rb, .seqCtr]
  | .halt _ =>
    [.funcs, .ctxs, .engineFree, .cache, .locks, .journal, .groups, .vols, .mports, .movers, .progs, .errLog, .errSeq,
      .defLog, .defSeq, .rb, .out, .freeCtr, .seqCtr]
  | .rfault _ =>
    [.funcs, .ctxs, .engineFree, .cache, .locks, .journal, .groups, .vols, .mports, .movers, .progs, .errLog, .errSeq,
      .defLog, .defSeq, .rb, .seqCtr]
  | .gelbelGetStatus _ | .gelbelGetRouteBook _ | .gelbelGetTemp _ | .gelbelGetFare _ | .tagRead _ =>
    [.out]
  | .tagWrite _ =>
    [.pwr, .errLog, .errSeq, .rb, .out]
  | .fwUpdateBegin _ | .fwUpdateData _ =>
    [.pwr, .out]
  | .fwUpdateCommit _ _ =>
    [.pwr, .errLog, .errSeq, .rb, .out]
  | .fwUpdateAbort _ =>
    [.pwr, .out]
  | .gelbelTimetable _ =>
    [.tt, .funcs, .rb, .out, .seqCtr]
  | .gelbelWake _ =>
    [.pwr, .ports, .funcs, .errLog, .errSeq, .fresh, .out]
  | .vaultRelease _ =>
    [.pwr, .out]
  | .gelbelMemberControl _ =>
    [.pwr, .adm, .funcs, .ctxs, .cache, .locks, .journal, .groups, .vols, .mports, .mem, .fare, .errLog, .errSeq,
      .defLog, .defSeq, .rb, .fresh, .out, .seqCtr]
  | .gelbelSetTokens _ =>
    [.adm, .rb, .out]
  | .gelbelGetLog _ =>
    [.out]
  | .mctpSetEndpointId _ =>
    [.pwr, .out]
  | .mctpGetEndpointId | .mctpGetVersionSupport | .mctpGetMessageTypeSupport | .uartHelp | .uartState | .uartVer |
    .uartTemp | .uartTt | .uartRb _ _ | .uartTag _ | .uartMem _ | .uartLog _ | .uartVault | .uartUnknownCommand =>
    [.out]
  | .refclkLoss =>
    [.pwr, .tt, .adm, .funcs, .reads, .ctxs, .locks, .mports, .vlt, .movers, .errLog, .errSeq, .rb, .fresh, .out,
      .seqCtr]
  | .hostLinkUp _ _ _ _ =>
    [.ports, .rb]
  | .gelbelUndefinedCommand _ _ =>
    [.out]
  | .mailboxUndefinedRequest _ =>
    [.funcs, .mbx, .fresh, .out]
  | .memberControlUndefinedAction _ =>
    [.ports, .funcs, .mbx, .fresh, .out, .seqCtr]

/-- A command answers a next state with a property, and changes nothing outside the named parts. -/
def Does (c : Instr) (ps : List Part) (s : State) (post : State → Prop) : Prop :=
  ∃ t, exec c s = .next t ∧ OnlyChanges ps s t ∧ post t

/-- The word of an instruction of the Jexro engines (R251); none for the commands that no thread issues. -/
def wordOf (c : Instr) : Option Ins :=
  match c with
  | .add i | .sub i | .and i | .or i | .xor i | .shl i | .shr i | .sar i | .mul i | .mulhu i | .divu i | .remu i
  | .minu i | .maxu i | .cmp i | .flop i | .ldi i | .ldih i | .sel i | .ext i | .ins i | .popc i | .clz i | .bswap i
  | .br i | .btab i | .call i | .ret i | .loop i | .callm i | .lds i | .cld i | .cst i | .xtl i | .ginfo i | .desc i
  | .hread i | .hwrite i | .post i | .clook i | .calloc i | .cpin i | .cunpin i | .lock i | .unlock i | .perm i
  | .jopen i | .jadd i | .jseal i | .jretire i | .mread i | .mwrite i | .mwait i | .xorv i | .gmulv i | .pqgen i
  | .pqdelta i | .pqsolve1 i | .pqsolve2 i | .cmpv i | .ttnow i | .dlset i | .dlleft i | .wait i | .yield i
  | .trap i | .halt i | .rfault i => some i
  | _ => none

/-- A command answers a next state with a property, and changes nothing outside its footprint. -/
def Runs (c : Instr) (s : State) (post : State → Prop) : Prop := Does c (footprint c) s post

/-- No list read, no transfer and no entry fetch waits for a tracker to come free, and no page request group is unsent. -/
def Unblocked (s : State) : Prop :=
  (∀ p ∈ s.ctxs, ∀ d k, p.2.wait ≠ .list d k) ∧
  (∀ m ∈ s.movers, ∀ c ∈ m.2.chans, c.2.state ≠ .running ∧ c.2.causes.getLsbD 1 = false) ∧
  (∀ g ∈ s.xlate.prgs, g.sent = true) ∧
  (∀ p ∈ s.funcs, ∀ q ∈ p.2.sqs, q.2.push = true ∨ q.2.fetchStop = true ∨ q.2.fetching ≠ 0 ∨ q.2.announced = [])

/-- The thread of a context issues an instruction now: it is in a slot, the kind of its handler may reach the
instruction, it is not marked for LOCK_HOLD and its budget is not spent (R244, R265, R271, R278). The context c is the one that
stands in s, with the present slot as the slot of its issue (R247). -/
def Issues (allow : HandlerKind → Bool) (i : Ins) (c : Ctx) (s : State) : Prop :=
  (s.ctxs.find i.cx).map (issue s) = some c ∧ c.state = .running ∧ allow (kindNow c) = true ∧ c.lockHold = none ∧ c.budget ≠ 0

/-- From s to t one context becomes c and no other context changes. -/
def CtxIs (cx : Nat) (c : Ctx) (s t : State) : Prop :=
  t.ctxs.find cx = some c ∧ ∀ k, k ≠ cx → t.ctxs.find k = s.ctxs.find k

/-- From s to t the context cx is woken: READY, with nothing to wait for, and else unchanged; no other context changes. -/
def Woken (cx : Nat) (c : Ctx) (s t : State) : Prop :=
  CtxIs cx { c with state := .ready, wait := .nothing, since := s.seqCtr } s t

/-- From s to t the contexts outside a list keep what they hold; with no shared entry of the siding cache free, one that may be
evicted can move to the siding region (R18, R243). -/
def OthersKeep (but : List Nat) (s t : State) : Prop :=
  ∀ k, k ∉ but → t.ctxs.find k = s.ctxs.find k ∨ (sharedRoom s = false ∧ ∃ x, s.ctxs.find k = some x ∧ mayEvict x = true ∧
    t.ctxs.find k = some { x with res := .siding })

/-- From s to t the context takes a thread slot: RUNNING, in the siding cache, and else unchanged (R18, R243, R244). -/
def CtxRuns (cx e n : Nat) (c : Ctx) (t : State) : Prop :=
  t.ctxs.find cx = some { c with state := .running, place := some (e, n), res := if c.res = .siding then .shared else c.res }

/-- The head entry of a queue is left in place (R66 to R71). -/
def LeftInPlace (s : State) (x : Nat × Nat) : Prop :=
  ∀ fn q h, fnOf s x.1 = some fn → fn.sqs.find x.2 = some q → headOf q = some h → judgeHead s x.1 x.2 fn q h = .wait

/-- The queue that a lane serves next: the first of the highest class, round-robin, whose head is not left in place (R15, R59). -/
def ServedNext (s : State) (cl : Cls) (f slot : Nat) : Prop :=
  cl ≠ .maintenance ∧ (∀ k : Cls, k.code < cl.code → ∀ x ∈ serviceOrder s k, LeftInPlace s x) ∧
  ∃ pre rest, serviceOrder s cl = pre ++ (f, slot) :: rest ∧ ∀ x ∈ pre, LeftInPlace s x

/-- From s to t one function becomes fn and no other function changes. -/
def FuncIs (f : Nat) (fn : Func) (s t : State) : Prop :=
  t.funcs.find f = some fn ∧ ∀ k, k ≠ f → t.funcs.find k = s.funcs.find k

/-- From s to t one submission queue becomes q; no other queue, and nothing else of a function, changes. -/
def SqIs (f slot : Nat) (q : Sq) (s t : State) : Prop :=
  ∃ a b, s.funcs.find f = some a ∧ FuncIs f b s t ∧ b = { a with sqs := b.sqs } ∧ b.sqs.find slot = some q ∧
    ∀ k, k ≠ slot → b.sqs.find k = a.sqs.find k

/-- From s to t one completion ring becomes q; no other ring, and nothing else of a function, changes. -/
def CqIs (f slot : Nat) (q : Cq) (s t : State) : Prop :=
  ∃ a b, s.funcs.find f = some a ∧ FuncIs f b s t ∧ b = { a with cqs := b.cqs } ∧ b.cqs.find slot = some q ∧
    ∀ k, k ≠ slot → b.cqs.find k = a.cqs.find k

/-- From s to t one member port becomes p and no other port changes. -/
def MportIs (port : Nat) (p : MPort) (s t : State) : Prop :=
  t.mports.find port = some p ∧ ∀ k, k ≠ port → t.mports.find k = s.mports.find k

/-- From s to t one group becomes x and no other group changes. -/
def GroupIs (g : Nat) (x : Group) (s t : State) : Prop :=
  t.groups.find g = some x ∧ ∀ k, k ≠ g → t.groups.find k = s.groups.find k

/-- From s to t one volume becomes x and no other volume changes. -/
def VolIs (v : Nat) (x : Volume) (s t : State) : Prop :=
  t.vols.find v = some x ∧ ∀ k, k ≠ v → t.vols.find k = s.vols.find k

/-- From s to t one error log entry is written, now, with a code and a DETAIL (R206 to R208). -/
def Logged (code : BitVec 16) (detail : Nat) (s t : State) : Prop :=
  t.errSeq = s.errSeq + 1 ∧ ∃ e, t.errLog.head? = some e ∧ e.code = code ∧ e.detail = BitVec.ofNat 64 detail ∧ e.ts = now s

/-- An admin command stands first of its PF and meets the checks that every admin command shares: it is of the row's
opcode, its reserved fields are 0, the signal box is attended, its buffer list is whole and right, and its data can move and
has arrived (R123, R135, R153, R154, R174). -/
def AdminReady (a : AdminCmd) (opc : Nat) (fm : AdminForm) (s : State) : Prop :=
  (∃ q, adminHead s a.port = some q ∧ q.entry = a.entry) ∧ frozen s = false ∧ s.mbx.unattended = false ∧
  eOpc a.entry = opc ∧ adminRsvdOk a.entry fm = true ∧ a.port < 8 ∧ flrNow s (64 * a.port) = false ∧
  (fm.dir ≠ .none → pfUp s a.port = true ∧
    (eDpk a.entry = 1 → a.list.length = 16 * eBits a.entry 32 0 16 ∧ listOk (adminList a) (adminLen a) = true)) ∧
  (fm.dir = .fromHost → a.poisoned = false ∧ a.data.length = adminLen a)

/-- A MEMBER_CONTROL command and the number of its action (R381). -/
def memberActionOf (c : Instr) : Option (AdminCmd × Nat) :=
  match c with
  | .memberControlReset a => some (a, 1)
  | .memberControlFail a => some (a, 2)
  | .memberControlReplace a => some (a, 3)
  | .memberControlProfile a => some (a, 4)
  | .memberControlAdopt a => some (a, 5)
  | .memberControlRetireGroup a => some (a, 6)
  | .memberControlFormat a => some (a, 7)
  | .memberControlSanitize a => some (a, 8)
  | .memberControlScrub a => some (a, 9)
  | .memberControlPowerOff a => some (a, 10)
  | .memberControlSetDepth a => some (a, 11)
  | _ => none

/-- An admin command, whether its entry is of the command's row, and the form of the entry (R172, R188, R381). -/
def adminRowOf (c : Instr) : Option (AdminCmd × Bool × AdminForm) :=
  let of := fun (a : AdminCmd) (opc : Nat) (fm : AdminForm) => some (a, eOpc a.entry == opc, fm)
  let vol := fun (a : AdminCmd) (ok : Nat → Bool) => some (a, eOpc a.entry == 0x41 && ok (cvAction a.entry), cvForm)
  match c with
  | .identifyVolume a => of a 0x40 { vol := true, dir := .toHost }
  | .createVolumeCreate a => vol a fun k => k == 0 || k == 3
  | .createVolumeAttach a => vol a fun k => k == 1
  | .createVolumeDetach a => vol a fun k => k == 2
  | .deleteVolume a => of a 0x42 { vol := true }
  | .createQueue a => of a 0x43 cqForm
  | .setPower a => of a 0x44 spForm
  | .getLog a => of a 0x45 glForm
  | .loadProgram a => of a 0x46 lpForm
  | .bindRoute a => of a 0x47 { vol := true, tail := [(40, 0, 16)] }
  | .setTokens a => of a 0x48 stForm
  | .createGroup a => of a 0x49 cgForm
  | .setTimetable a => of a 0x4B (ttForm a.entry)
  | .setWindow a => of a 0x4C swForm
  | .memberControlUndefinedAction a =>
    some (a, eOpc a.entry == 0x4A && (mcAction a.entry == 0 || decide (11 < mcAction a.entry)), mcForm)
  | c => (memberActionOf c).map fun x => (x.1, eOpc x.1.entry == 0x4A && mcAction x.1.entry == x.2, mcForm)

/-- From s to t the admin command leaves its place, and a completion with a status joins the ring of its queue (R158,
R174). -/
def AdminEnds (code : Nat) (a : AdminCmd) (s t : State) : Prop :=
  t.mbx = (adminTake s a.port).mbx ∧ ∀ q k, sqOf s (64 * a.port) 0 = some q → cqOf s (64 * a.port) q.cqSlot = some k →
    ∃ r y, cqOf t (64 * a.port) q.cqSlot = some y ∧ y.ready = k.ready ++ [r] ∧ r.cid = eCid a.entry ∧
      r.status = BitVec.ofNat 8 code ∧ r.readyTs = now s ∧ r.ctx = none

/-- From s to t the admin command leaves its place and no completion joins a ring yet; it waits in a list. -/
def AdminWaits (a : AdminCmd) (waits : List AdminCmd) (s t : State) : Prop :=
  t.mbx = (adminTake s a.port).mbx ∧ t.funcs = s.funcs ∧ ∃ b ∈ waits, b.entry = a.entry ∧ b.port = a.port

/-- From s to t the data of an admin command leaves, to the places its pointer names, with the Relaxed Ordering attribute of
its PF (R115, R152). -/
def AdminSent (a : AdminCmd) (bytes : List Byte) (s t : State) : Prop :=
  ∃ fn, fnOf s (64 * a.port) = some fn ∧
    t.out = .adminData a.port (eCid a.entry) (adminExtents a) bytes fn.ro :: s.out

/-- The entry of a record may be replayed: its member has a port and takes the write, which the interlocking accepts (R300,
R311, R353). -/
def Replayable (s : State) (g : Group) (r : JRec) (e : JEntry) : Prop :=
  takesReplay s g e.index = true ∧ replayOk s r e = true ∧ e.frames ≠ [] ∧
  ∃ port p, portOfMember g e.index = some port ∧ s.mports.find port = some p

/-- From s to t the replay of a record of one entry begins: the entry's write is sent to its member, and the record waits
for its end (R300, R353). -/
def ReplayBegun (i : Nat) (r : JRec) (g : Group) (e : JEntry) (s t : State) : Prop :=
  (∃ q, t.journal.recs.find i = some q ∧ q.replaying = true ∧ q.entries = [{ e with writing := e.writing + 1 }] ∧
    q.sealed = r.sealed ∧ q.group = r.group ∧ q.stripe = r.stripe) ∧
  (∀ k, k ≠ i → t.journal.recs.find k = s.journal.recs.find k) ∧
  ∀ port p, portOfMember g e.index = some port → s.mports.find port = some p →
    let z := e.frames.all fun fr => (frameOf s fr).zfill
    t.out.head? = some (.memCmd port p.nextCid .write e.lba e.frames.length z (z && p.zerosDealloc))

/-- TEST_EN keeps the device in Off (R497). -/
def TestHeld (s : State) : Prop := s.pwr.testEn = true → s.pwr.devState = .off

/-- The last output of t, behind the outputs before, writes a section of the dump; an SSD of s that is not usable gets no
block (R341, R347). -/
def VaultWrites (areaB : Bool) (step : DumpStep) (s : State) (before : List Out) (t : State) : Prop :=
  ∃ v0 v1, t.out = .vaultWrite areaB step v0 v1 :: before ∧ (s.vlt.ok0 = false → v0 = []) ∧ (s.vlt.ok1 = false → v1 = [])

/-- A command that changes one context and nothing else. -/
def Sets (c : Instr) (cx : Nat) (x : Ctx) (s : State) : Prop := Does c [.ctxs] s (CtxIs cx x s)

/-- An engine instruction that writes one result: the destination register, PC and budget (R249, R271). -/
def Gives (c : Instr) (i : Ins) (x : Ctx) (v : Word) (s : State) : Prop :=
  Sets c i.cx (setGreg { x with pc := x.pc + 1, budget := x.budget - 1 } i.d.toNat v) s

/-- A vector instruction of one block column is not refused, and no source line is uncorrectable (R314, R315): every lane
ends within the list, each destination position holds a listed frame that is not read-only and no source, and no two
destinations are one frame. -/
def VecFits (s : State) (v : Vec) (src dst : Handle) (srcs dsts : List Nat) : Prop :=
  v.len = 1 ∧ v.o + 1 ≤ v.stride ∧ srcs.length ≤ 32 ∧ (∀ j ∈ srcs ++ dsts, (j + 1) * v.stride ≤ 256) ∧
  (∀ j ∈ srcs, ∀ fr, src.at_ (v.pos j 0) = some fr → (frameOf s fr).badLines = []) ∧
  (∀ j ∈ dsts, ∃ fr f, dst.at_ (v.pos j 0) = some fr ∧ s.cache.frames.find fr = some f ∧ f.rdonly = false ∧
    ∀ k ∈ srcs, src.at_ (v.pos k 0) ≠ some fr) ∧
  (∀ j ∈ dsts, ∀ k ∈ dsts, j ≠ k → dst.at_ (v.pos j 0) ≠ dst.at_ (v.pos k 0))

/-- The frame at the one column of a destination lane is protected and holds the bytes f. -/
def LaneIs (v : Vec) (dst : Handle) (j : Nat) (f : Nat → Byte) (t : State) : Prop :=
  ∃ fr y, dst.at_ (v.pos j 0) = some fr ∧ t.cache.frames.find fr = some y ∧ y.prot = true ∧
    ∀ o < 4096, y.data.read o = f o

/-- The moves of the device state (R468). -/
def devMoves : List (DevState × DevState) :=
  [(.off, .starting), (.starting, .held), (.starting, .recovering), (.starting, .ready), (.recovering, .ready),
   (.starting, .vaulting), (.recovering, .vaulting), (.ready, .vaulting), (.starting, .vaulted), (.ready, .vaulted),
   (.vaulting, .vaulted)]

/-- A move of R468, a return to Off, or none. -/
def devMoveOk (a b : DevState) : Bool := a == b || b == .off || devMoves.contains (a, b)

/-- A run is safe when it stops with no fault: no word that the verifier refuses, no jump out of the code (R253, R277). -/
def safeStep (s : State) : Prop := ∀ f, step s ≠ .fault f

end Sys2Proof.Machine
end

