-- ==== Sys2Proof/Certificates/Slice0/Obligations.lean ====
section
/-! DEFINITION. The statements for the provers. -/

open Sys2Proof Sys2Proof.Machine

/-- Arithmetic of R254: at 64 bits, or at 32 bits zero-extended with W; division by 0 gives all ones and the
dividend. It says that ADD, SUB, MUL, MULHU, DIVU, REMU, MINU and MAXU complete. -/
def Obligations.EngineArithmetic : Prop :=
  ∀ (i : Ins) (x : Ctx) (s : State), Issues anyKind i x s →
    let a := i.ga x
    let b := i.s2 x
    let a32 : BitVec 32 := a.truncate 32
    let b32 : BitVec 32 := b.truncate 32
    (i.aluOk = true →
      (i.narrow = false →
        Gives (.add i) i x (a + b) s ∧ Gives (.sub i) i x (a - b) s ∧ Gives (.mul i) i x (a * b) s ∧
        Gives (.divu i) i x (if b = 0 then BitVec.allOnes 64 else a / b) s ∧
        Gives (.remu i) i x (if b = 0 then a else a % b) s ∧
        Gives (.minu i) i x (if b.toNat < a.toNat then b else a) s ∧
        Gives (.maxu i) i x (if a.toNat < b.toNat then b else a) s) ∧
      (i.narrow = true →
        Gives (.add i) i x ((a32 + b32).zeroExtend 64) s ∧ Gives (.sub i) i x ((a32 - b32).zeroExtend 64) s ∧
        Gives (.mul i) i x ((a32 * b32).zeroExtend 64) s ∧
        Gives (.divu i) i x (if b32 = 0 then 0xFFFFFFFF#64 else (a32 / b32).zeroExtend 64) s ∧
        Gives (.remu i) i x (if b32 = 0 then a32.zeroExtend 64 else (a32 % b32).zeroExtend 64) s ∧
        Gives (.minu i) i x (if b32.toNat < a32.toNat then b32.zeroExtend 64 else a32.zeroExtend 64) s ∧
        Gives (.maxu i) i x (if a32.toNat < b32.toNat then b32.zeroExtend 64 else a32.zeroExtend 64) s)) ∧
    ((i.modIn 0x001#9 && i.s2ok) = true →
      Gives (.mulhu i) i x (BitVec.ofNat 64 (a.toNat * b.toNat / 2 ^ 64)) s)

/-- Logic, shifts and SEL of R254: shift amounts count modulo the width. It says that AND, OR, XOR, SHL, SHR, SAR and
SEL complete. -/
def Obligations.EngineLogicAndShifts : Prop :=
  ∀ (i : Ins) (x : Ctx) (s : State), Issues anyKind i x s →
    let a := i.ga x
    let b := i.s2 x
    let a32 : BitVec 32 := a.truncate 32
    let b32 : BitVec 32 := b.truncate 32
    (i.aluOk = true →
      (i.narrow = false →
        Gives (.and i) i x (a &&& b) s ∧ Gives (.or i) i x (a ||| b) s ∧ Gives (.xor i) i x (a ^^^ b) s ∧
        Gives (.shl i) i x (a <<< (b.toNat % 64)) s ∧ Gives (.shr i) i x (a >>> (b.toNat % 64)) s ∧
        Gives (.sar i) i x (a.sshiftRight (b.toNat % 64)) s) ∧
      (i.narrow = true →
        Gives (.and i) i x ((a32 &&& b32).zeroExtend 64) s ∧ Gives (.or i) i x ((a32 ||| b32).zeroExtend 64) s ∧
        Gives (.xor i) i x ((a32 ^^^ b32).zeroExtend 64) s ∧
        Gives (.shl i) i x ((a32 <<< (b.toNat % 32)).zeroExtend 64) s ∧
        Gives (.shr i) i x ((a32 >>> (b.toNat % 32)).zeroExtend 64) s ∧
        Gives (.sar i) i x ((a32.sshiftRight (b.toNat % 32)).zeroExtend 64) s)) ∧
    ((i.modIn 0x01F#9 && i.s2ok) = true →
      let v := if flagOf x i.flag then a else b
      Gives (.sel i) i x (if i.narrow then (v.truncate 32 : BitVec 32).zeroExtend 64 else v) s)

/-- LDI, LDIH, EXT, INS, POPC, CLZ and BSWAP of R254, each bit of the result named. It says that LDI, LDIH, EXT, INS,
POPC, CLZ and BSWAP complete. -/
def Obligations.EngineBitFields : Prop :=
  ∀ (i : Ins) (x : Ctx) (s : State), Issues anyKind i x s →
    let a := i.ga x
    let p := i.imm.toNat % 64
    let n := i.imm.toNat / 64
    let width := if i.narrow then 32 else 64
    ((i.modIn 0x002#9 && i.noA && i.noB) = true →
      Gives (.ldi i) i x (if i.narrow then i.imm.zeroExtend 64 else i.imm.signExtend 64) s) ∧
    ((i.modIn 0 && i.noA && i.noB) = true → ∃ v : Word, Gives (.ldih i) i x v s ∧
      ∀ k < 64, v.getLsbD k = if k < 32 then (i.gd x).getLsbD k else i.imm.getLsbD (k - 32)) ∧
    (i.bitsOk = true →
      (∃ v : Word, Gives (.ext i) i x v s ∧ ∀ k < 64, v.getLsbD k = (decide (k < n ∧ p + k < width) && a.getLsbD (p + k))) ∧
      (∃ v : Word, Gives (.ins i) i x v s ∧ ∀ k < 64, v.getLsbD k =
        (decide (k < width) && if p ≤ k ∧ k < p + n then a.getLsbD (k - p) else (i.gd x).getLsbD k))) ∧
    (i.unaryOk = true →
      Gives (.popc i) i x (BitVec.ofNat 64 ((List.range width).countP fun k => a.getLsbD k)) s ∧
      (∃ z ≤ width, Gives (.clz i) i x (BitVec.ofNat 64 z) s ∧ (∀ k, width - z ≤ k → k < width → a.getLsbD k = false) ∧
        (z < width → a.getLsbD (width - 1 - z) = true)) ∧
      (∃ v : Word, Gives (.bswap i) i x v s ∧ ∀ k < 8, v.extractLsb' (8 * k) 8 =
        if 8 * k < width then a.extractLsb' (width - 8 - 8 * k) 8 else 0))

/-- CMP writes flag F by the condition C of R255, at 64 bits or with W at the low 32 bits, and a condition from 8 to
15 is no instruction; FLOP writes flag d by the logic C of R254; no register changes. It says that CMP and FLOP
complete. -/
def Obligations.EngineFlags : Prop :=
  ∀ (i : Ins) (x : Ctx) (s : State), Issues anyKind i x s →
    let a := i.ga x
    let b := i.s2 x
    let a32 : BitVec 32 := a.truncate 32
    let b32 : BitVec 32 := b.truncate 32
    let x' : Ctx := { x with pc := x.pc + 1, budget := x.budget - 1 }
    ((i.modIn 0x1FF#9 && i.noD && i.s2ok && i.flagOk && decide (i.cond < 8)) = true → ∃ v : Bool,
      Sets (.cmp i) i.cx (setFlag x' i.flag v) s ∧
      (i.narrow = false →
        (i.cond = 0 → (v = true ↔ a = b)) ∧ (i.cond = 1 → (v = true ↔ a ≠ b)) ∧
        (i.cond = 2 → (v = true ↔ a.toNat < b.toNat)) ∧ (i.cond = 3 → (v = true ↔ b.toNat ≤ a.toNat)) ∧
        (i.cond = 4 → (v = true ↔ a.toInt < b.toInt)) ∧ (i.cond = 5 → (v = true ↔ b.toInt ≤ a.toInt)) ∧
        (i.cond = 6 → (v = true ↔ a &&& b ≠ 0)) ∧ (i.cond = 7 → (v = true ↔ a &&& b = 0))) ∧
      (i.narrow = true →
        (i.cond = 0 → (v = true ↔ a32 = b32)) ∧ (i.cond = 1 → (v = true ↔ a32 ≠ b32)) ∧
        (i.cond = 2 → (v = true ↔ a32.toNat < b32.toNat)) ∧ (i.cond = 3 → (v = true ↔ b32.toNat ≤ a32.toNat)) ∧
        (i.cond = 4 → (v = true ↔ a32.toInt < b32.toInt)) ∧ (i.cond = 5 → (v = true ↔ b32.toInt ≤ a32.toInt)) ∧
        (i.cond = 6 → (v = true ↔ a32 &&& b32 ≠ 0)) ∧ (i.cond = 7 → (v = true ↔ a32 &&& b32 = 0)))) ∧
    (8 ≤ i.cond → exec (.cmp i) s = .fault .unverified) ∧
    ((i.modIn 0x1E0#9 && i.imm == 0 && decide (i.cond < 5) && decide (i.d.toNat < 8) && !i.noD &&
        decide (i.a.toNat < 8) && decide (i.b.toNat < 8) && (i.cond != 4 || i.noB)) = true → ∃ v : Bool,
      Sets (.flop i) i.cx (setFlag x' i.d.toNat v) s ∧
      let fa := flagOf x i.a.toNat
      let fb := flagOf x i.b.toNat
      (i.cond = 0 → v = (fa && fb)) ∧ (i.cond = 1 → v = (fa || fb)) ∧ (i.cond = 2 → v = xor fa fb) ∧
      (i.cond = 3 → v = (fa && !fb)) ∧ (i.cond = 4 → v = !fa))

/-- The register file of R249: g0 reads 0 and drops writes, f0 reads 1 and drops writes; every other register or flag
reads what was written last, and no other one changes. -/
def Obligations.RegisterFile : Prop :=
  ∀ (x : Ctx) (n m : Nat) (v : Word) (b : Bool),
    greg x 0 = 0 ∧ setGreg x 0 v = x ∧ (n ≠ 0 → Tab.sorted x.g = true → greg (setGreg x n v) n = v) ∧
    (m ≠ n → greg (setGreg x n v) m = greg x m) ∧ (setGreg x n v).flags = x.flags ∧ (setGreg x n v).pc = x.pc ∧
    flagOf x 0 = true ∧ setFlag x 0 b = x ∧ (n ≠ 0 → n < 8 → flagOf (setFlag x n b) n = b) ∧
    (m < 8 → n < 8 → m ≠ n → flagOf (setFlag x n b) m = flagOf x m) ∧ (setFlag x n b).g = x.g

/-- Branches (R256): offsets count from the branch itself; BTAB picks one of the N words behind it; CALL and RET use
the return stack; LOOP counts its register down. It says that BR, BTAB, CALL, RET and LOOP complete. -/
def Obligations.EngineBranches : Prop :=
  ∀ (i : Ins) (x : Ctx) (s : State), Issues anyKind i x s →
    let x1 : Ctx := { x with budget := x.budget - 1 }
    let far : BitVec 24 := x.pc + i.imm.truncate 24
    ((i.modIn 0x03C#9 && i.noD && i.noA && i.noB) = true →
      Sets (.br i) i.cx { x1 with pc := if flagOf x i.flag = i.mod.getLsbD 5 then far else x.pc + 1 } s) ∧
    ((i.modIn 0 && i.noD && i.noB && decide (1 ≤ i.imm.toNat) && decide (i.imm.toNat ≤ 256)) = true →
      Sets (.btab i) i.cx { x1 with pc := x.pc + BitVec.ofNat 24 (1 + min (i.ga x).toNat (i.imm.toNat - 1)) } s) ∧
    ((i.modIn 0 && i.noD && i.noA && i.noB) = true →
      (x.depth < 4 →
        Sets (.call i) i.cx { x1 with pc := far, retStack := (x.pc + 1) :: x.retStack, depth := x.depth + 1 } s) ∧
      (4 ≤ x.depth → exec (.call i) s = .fault .unverified)) ∧
    ((i.modIn 0 && i.noD && i.noA && i.noB && i.imm == 0) = true → 0 < x.depth → ∀ p rest, x.retStack = p :: rest →
      Sets (.ret i) i.cx { x1 with pc := p, retStack := rest, depth := x.depth - 1 } s) ∧
    ((i.modIn 0 && i.noA && i.noB && i.imm.msb) = true →
      let v := i.gd x - 1
      Sets (.loop i) i.cx (setGreg { x1 with pc := if v = 0 then x.pc + 1 else far } i.d.toNat v) s)

/-- CALLM in a handler that is not a MAP (R226, R282): mode 0 gives the stripe, the index, the member, its LBA, the
block and the row of a volume block in g1 to g6, and the spare and padding flags in f1 and f2; the MAP's instructions
count against the budget; g7 and f3 are free; nothing else of the context changes. It says that CALLM completes. -/
def Obligations.EngineCallMap : Prop :=
  ∀ (i : Ins) (x : Ctx) (s : State) (v : Volume) (g : Group), Issues notMap i x s →
    (i.modIn 0 && i.noD && i.noA && i.noB && i.imm == 0) = true → x.depth < 4 →
    let cost := Config.mapInstrs (layoutRouteOf s x.route.toNat) (greg x 2).toNat (greg x 1).toNat
    1 + cost ≤ x.budget → ctxVol s x = some v → ctxGroup s x = some g → greg x 2 = 0 →
    Does (.callm i) [.ctxs, .freeCtr] s fun t => ∃ y, CtxIs i.cx y s t ∧
      let u := stripeOf g v (greg x 1).toNat
      let p := place g u.1 u.2.1
      y.pc = x.pc + 1 ∧ y.budget = x.budget - 1 - cost ∧ y.state = .running ∧ y.h = x.h ∧ y.locals = x.locals ∧
      (Tab.sorted x.g = true →
        greg y 1 = BitVec.ofNat 64 u.1 ∧ greg y 2 = BitVec.ofNat 64 u.2.1 ∧ greg y 3 = BitVec.ofNat 64 p.member ∧
        greg y 4 = BitVec.ofNat 64 (memberLba g p.row u.2.2) ∧ greg y 5 = BitVec.ofNat 64 u.2.2 ∧
        greg y 6 = BitVec.ofNat 64 p.row) ∧
      flagOf y 1 = p.spare ∧ flagOf y 2 = isPadding g u.1 u.2.1 ∧ (∀ k, 7 < k → greg y k = greg x k) ∧
      (∀ k < 8, 3 < k → flagOf y k = flagOf x k)

/-- Loads and stores (R257, R258): aligned down to the size, zero-extended, or sign-extended with mod[4]; LDS reads 0
beyond the constants; CST writes the low bytes of gb into LOCAL; XTL and GINFO read the tables of the context's
volume and group. It says that LDS, CLD, CST, XTL and GINFO complete. -/
def Obligations.EngineLoadsAndStores : Prop :=
  ∀ (i : Ins) (x : Ctx) (s : State),
    let n := 2 ^ (i.mod.toNat / 4 % 4)
    let aligned : Nat → Nat := fun m => let a := (i.ga x + i.imm.signExtend 64).toNat % m; a - a % n
    let ext : Nat → Word := fun v =>
      if i.mod.getLsbD 4 && v.testBit (8 * n - 1) then (BitVec.ofNat (8 * n) v).signExtend 64 else BitVec.ofNat 64 v
    (Issues anyKind i x s → (i.modIn 0x01C#9 && i.noB) = true →
      (∀ p, progOf s x.program = some p →
        Gives (.lds i) i x (ext (leNat ((List.range n).map fun k => p.consts.getD (aligned (2 ^ 32) + k) 0))) s) ∧
      Gives (.cld i) i x (ext (ctxWord i.cx x (aligned 512 / 8) / 2 ^ (8 * (aligned 512 % 8)) % 2 ^ (8 * n))) s) ∧
    (Issues notMap i x s → (i.modIn 0x00C#9 && i.noD) = true → ∃ l : BitVec 512,
      Sets (.cst i) i.cx { x with pc := x.pc + 1, budget := x.budget - 1, locals := l } s ∧
      ∀ k < 512, l.getLsbD k = if 8 * aligned 64 ≤ k ∧ k < 8 * (aligned 64 + n) then (i.gb x).getLsbD (k - 8 * aligned 64)
        else x.locals.getLsbD k) ∧
    (Issues anyKind i x s → (i.modIn 0x001#9 && i.noA && i.s2ok) = true →
      (∀ v, ctxVol s x = some v → Gives (.xtl i) i x (BitVec.ofNat 64 (extentAt v (i.s2 x).toNat)) s) ∧
      (ctxVol s x = none → Gives (.xtl i) i x (BitVec.allOnes 64) s)) ∧
    (Issues anyKind i x s → (i.modIn 0 && i.noA && i.noB && decide (i.imm.toNat < 15)) = true →
      ∀ no g, ctxGroupNo s x = some no → ctxGroup s x = some g →
      Gives (.ginfo i) i x (BitVec.ofNat 64 ([no, g.n, g.w, g.stripLog2, g.stripLog2 - 12, g.spare, g.geom.es, g.w * g.geom.b,
        (patternOf g).1, (patternOf g).2, g.n - g.spare, g.rows, 262144, g.extents, g.seed.toNat].getD i.imm.toNat 0)) s)

/-- Time and system instructions that stay in their slot or leave it (R259 to R261): TTNOW, DLSET and DLLEFT read and
write timestamps; WAIT and YIELD give up the slot; TRAP logs and goes on; RFAULT leaves the fault handler. It says
that TTNOW, DLSET, DLLEFT, WAIT, YIELD, TRAP and RFAULT complete. -/
def Obligations.EngineTimeAndSystem : Prop :=
  ∀ (i : Ins) (x : Ctx) (s : State),
    let x' : Ctx := { x with pc := x.pc + 1, budget := x.budget - 1 }
    let out : WaitFor → Ctx → Prop := fun w y =>
      y.state = .waiting ∧ y.wait = w ∧ y.place = none ∧ y.pc = x.pc + 1 ∧ y.budget = x.budget - 1 ∧ y.g = x.g ∧ y.h = x.h
    let ready : Ctx → Prop := fun y =>
      y.state = .ready ∧ y.wait = .nothing ∧ y.place = none ∧ y.pc = x.pc + 1 ∧ y.budget = x.budget - 1 ∧ y.g = x.g ∧ y.h = x.h
    let slot : List Part := [.ctxs, .engineFree, .seqCtr]
    (Issues notMap i x s → (i.modIn 0 && i.noA && i.noB && i.imm == 0) = true →
      Gives (.ttnow i) i x (tsOf s.tt.cycle s.tt.slot) s ∧
      (x.dl = BitVec.allOnes 64 → Gives (.dlleft i) i x 0x7FFFFFFFFFFFFFFF#64 s) ∧
      (x.dl ≠ BitVec.allOnes 64 → ∃ d : Int, Gives (.dlleft i) i x (BitVec.ofInt 64 d) s ∧
        -(2 ^ 44 * 2 ^ s.tt.kActive : Nat) ≤ 2 * d ∧ 2 * d < (2 ^ 44 * 2 ^ s.tt.kActive : Nat) ∧
        ((2 ^ 44 * 2 ^ s.tt.kActive : Nat) : Int) ∣
          d - ((tsLinear s.tt.kActive x.dl : Int) - (tsLinear s.tt.kActive (now s) : Int)))) ∧
    (Issues maintOnly i x s → (i.modIn 0x001#9 && i.noD && i.noA && i.s2ok) = true →
      Sets (.dlset i) i.cx { x' with dl := tsAdd s.tt.kActive (now s) (i.s2 x).toNat } s) ∧
    (Issues notMap i x s → (i.modIn 0x021#9 && i.noD && !i.bit5 && i.noA && i.s2ok) = true →
      let n := (i.s2 x).toNat % 2 ^ 32
      Does (.wait i) slot s fun t => ∃ y, CtxIs i.cx y s t ∧
        if n = 0 then ready y else out (.until_ (tsAdd s.tt.kActive (now s) n)) y) ∧
    (Issues notMap i x s → (i.modIn 0x021#9 && i.noD && i.bit5 && !i.useImm && i.noB && i.imm == 0) = true →
      Does (.wait i) slot s fun t => ∃ y, CtxIs i.cx y s t ∧
        out (.until_ (if tsLe s.tt.kActive (i.ga x) (now s) then tsAdd s.tt.kActive (now s) 1 else i.ga x)) y) ∧
    (Issues notMap i x s → (i.modIn 0 && i.noD && i.noA && i.noB && i.imm == 0) = true →
      Does (.yield i) slot s fun t => ∃ y, CtxIs i.cx y s t ∧ ready y) ∧
    (Issues notMap i x s → (i.modIn 0 && i.noD && i.noB && i.immIn 8) = true → i.imm ≠ 3 →
      Does (.trap i) [.ctxs, .errLog, .errSeq] s fun t => CtxIs i.cx x' s t ∧ t.errSeq = s.errSeq + 1 ∧
        ∃ e, t.errLog.head? = some e ∧ e.code = 0x0811#16 ∧ e.flags = i.imm.truncate 8 ∧ e.detail = i.ga x ∧ e.ts = now s ∧
          e.func = x.func) ∧
    (Issues (· == .fault) i x s → (i.modIn 0x001#9 && i.noD && i.noA && i.noB && i.imm == 0) = true →
      Does (.rfault i) [.ctxs, .movers] s fun t =>
        CtxIs i.cx { x with inFault := false, budget := x.budget - 1,
                            pc := x.fault.extractLsb' 8 24 + (if i.mod.getLsbD 0 then 1 else 0) } s t ∧
        (i.mod.getLsbD 0 = false → t.movers = s.movers))

/-- HALT of a host command that has posted and holds no lock and no record (R242, R262): the thread is over, its
context is free or waits for its completion to be issued, and nothing waits in it. It says that HALT completes. -/
def Obligations.EngineHalt : Prop :=
  ∀ (i : Ins) (x : Ctx) (s : State), Issues notMap i x s →
    (i.modIn 0 && i.noD && i.noA && i.noB && i.imm == 0) = true →
    x.kind ≠ .maint → x.posted ≠ none → x.work = none → locksHeld s i.cx = [] → recsOf s i.cx = [] →
    Tab.sorted s.ctxs = true →
    Does (.halt i) [.ctxs, .engineFree, .cache, .locks, .journal, .groups, .mports, .movers, .progs, .seqCtr] s fun t =>
      ∀ y, t.ctxs.find i.cx = some y → y.state = .doneUnposted ∧ y.wait = .nothing

/-- DESC and POST (R288, R291, R413): DESC makes a descriptor of the command's own data pointer; POST closes every
descriptor handle and makes the completion ready to post with the status of R291. It says that DESC and POST
complete. -/
def Obligations.EngineDescriptorAndPost : Prop :=
  ∀ (i : Ins) (x : Ctx) (s : State), Issues hostKind i x s → x.posted = none → flrNow s x.func.toNat = false →
    ((i.modIn 0 && i.noA && i.noB && i.immIn 4) = true →
      (eDpk x.cmd = 0 → Does (.desc i) [.ctxs, .cache] s fun t => ∃ y, CtxIs i.cx y s t ∧ y.pc = x.pc + 1 ∧
        handleOf y i.imm.toNat = .desc (.host (eBits x.cmd 24 0 64) (eBits x.cmd 32 0 32)) ∧
        (Tab.sorted x.g = true → i.d ≠ 0 → greg y i.d.toNat = 0)) ∧
      (eDpk x.cmd = 2 → Does (.desc i) [.ctxs, .cache] s fun t => ∃ y, CtxIs i.cx y s t ∧ y.pc = x.pc + 1 ∧
        handleOf y i.imm.toNat = .desc (.inline (eBits x.cmd 24 0 4)) ∧
        (Tab.sorted x.g = true → i.d ≠ 0 → greg y i.d.toNat = 0))) ∧
    ((i.modIn 0 && i.noD && i.noB && i.imm == 0) = true → x.kind ≠ .maint → x.writeBack = true → x.flushWait = [] →
      let status : BitVec 8 := if (i.ga x).toNat % 256 < 15 then (i.ga x).truncate 8 else 0x0C#8
      Does (.post i) [.ctxs, .cache, .funcs, .seqCtr] s fun t =>
        (∃ y, t.ctxs.find i.cx = some y ∧ y.posted = some status ∧ y.pc = x.pc + 1 ∧ y.state = .running) ∧
        ∀ q c, sqOf s x.func.toNat (x.sqid.toNat % 64) = some q → cqOf s x.func.toNat q.cqSlot = some c →
          ∃ r, (cqOf t x.func.toNat q.cqSlot).map Cq.ready = some (c.ready ++ [r]) ∧ r.cid = eCid x.cmd ∧ r.status = status ∧
            r.readyTs = now s ∧ r.ctx = some i.cx)

/-- HREAD and HWRITE (R289, R290, R401, R406): with a channel free on the mover that R401 chooses, the transfer is
queued on it with its endpoints and its length, and the thread waits for it out of its slot; a refused operand gives
0xFE and is logged; after the command's POST the result is 9. It says that HREAD and HWRITE complete. -/
def Obligations.EngineHostTransfers : Prop :=
  ∀ (i : Ins) (x : Ctx) (s : State) (write : Bool), Issues hostKind i x s →
    (i.modIn 0 && i.noB && i.immIn (if write then 9 else 8)) = true →
    let c : Instr := if write then .hwrite i else .hread i
    let w := i.ga x
    (x.posted ≠ none → Gives c i x 9 s) ∧
    (x.posted = none → flrNow s x.func.toNat = false → ownChan s i.cx x.pc = none →
      (∀ e, operandOf s x write w i.imm.toNat = some e →
        Does c [.ctxs, .movers, .errLog, .errSeq, .fresh] s fun t => t.errSeq = s.errSeq + 1 ∧
          CtxIs i.cx (setGreg { x with pc := x.pc + 1, budget := x.budget - 1 } i.d.toNat 0xFE) s t ∧
          (t.errLog.head?.map LogEnt.code) = some 0x0C01#16) ∧
      (∀ m ch fn, operandOf s x write w i.imm.toNat = none → freeChan s x.cluster (eclass x == .express) = some (m, ch) →
        fnOf s x.func.toNat = some fn → fn.bme = true → runningOf (moverOf s m) = none →
        Does c [.ctxs, .engineFree, .seqCtr, .cache, .movers] s fun t =>
          (∃ y, t.ctxs.find i.cx = some y ∧ y.state = .waiting ∧ y.wait = .mover ∧ y.place = none ∧ y.pc = x.pc) ∧
          ∃ k, (moverOf t m).chans.find ch = some k ∧ k.state = .queued ∧ k.ctx = some i.cx ∧ k.cls = eclass x ∧
            k.count = wCount w * k.sect ∧ k.sect = (if ctxPi s x && !eFlag x.cmd 10 then 4104 else 4096) ∧
            (if write then k.src else k.dst) = { kind := 0, index := i.imm.toNat / 16 % 16 } ∧
            (if write then k.dst else k.src).index = i.imm.toNat % 16 ∧ k.seq = (moverOf s m).nextSeq))

/-- CLOOK, CALLOC, CPIN and CUNPIN (R285, R292, R293): CLOOK without PIN answers the mask of resident blocks and pins
nothing; CALLOC STAGE of one frame pins a fresh frame with unspecified content into the handle; CPIN PIN of one
position adds a pin; a refused operand gives 0xFE and changes nothing; CUNPIN empties the named handles and no other.
It says that CLOOK, CALLOC, CPIN and CUNPIN complete. -/
def Obligations.EngineCacheInstructions : Prop :=
  ∀ (i : Ins) (x : Ctx) (s : State), Issues notMap i x s →
    let w := i.ga x
    let n := wCount w
    let k := i.imm.toNat % 16
    ((i.modIn 0 && i.noB && i.immIn 6) = true → ∀ v, x.vol = some v → n ≤ 64 → i.imm.getLsbD 4 = false →
      ∃ r : Word, Gives (.clook i) i x r s ∧
        ∀ j < 64, r.getLsbD j = (decide (j < n) && (resident s v (wLba w + j) (i.imm.getLsbD 5)).isSome)) ∧
    ((i.modIn 0 && i.noB && i.immIn 6 && decide (i.imm.toNat / 16 = 0)) = true →
      (256 < wPos w + n → Gives (.calloc i) i x 0xFE s) ∧
      (n = 1 → callocRoom s x 1 = true → handleOf x k = .empty → ∀ fr, takeFrame s = some fr →
        Does (.calloc i) [.ctxs, .cache, .freeCtr] s fun t => t.freeCtr = s.freeCtr + 1 ∧
          frameOf t fr = { pins := 1, stage := true, data := Memory.free s.freeCtr } ∧
          (∀ j, j ≠ fr → frameOf t j = frameOf s j) ∧
          ∃ y, CtxIs i.cx y s t ∧ (handleOf y k).at_ (wPos w) = some fr ∧ y.pc = x.pc + 1 ∧
            ∀ j, j ≠ k → handleOf y j = handleOf x j)) ∧
    ((i.modIn 0 && i.noB && i.immIn 8) = true →
      let src := i.imm.toNat / 16
      ((handleOf x src).frameTab = [] → Gives (.cpin i) i x 0xFE s) ∧
      (n = 1 → src ≠ k → handleOf x k = .empty → ∀ fr f, (handleOf x src).at_ (w.toNat % 256) = some fr →
        s.cache.frames.find fr = some f →
        Does (.cpin i) [.ctxs, .cache] s fun t => t.cache.frames.find fr = some { f with pins := f.pins + 1 } ∧
          ∃ y, CtxIs i.cx y s t ∧ (handleOf y k).at_ (w.toNat / 256 % 256) = some fr ∧ y.pc = x.pc + 1 ∧
            ∀ j, j ≠ k → handleOf y j = handleOf x j)) ∧
    ((i.modIn 0 && i.noD && i.noA && i.noB && i.immIn 16) = true → Tab.sorted x.h = true →
      Does (.cunpin i) [.ctxs, .cache, .seqCtr] s fun t => ∃ y, t.ctxs.find i.cx = some y ∧ y.pc = x.pc + 1 ∧
        ∀ j < 16, handleOf y j = if i.imm.getLsbD j then .empty else handleOf x j)

/-- LOCK, UNLOCK and PERM (R294 to R297): a free stripe is granted at once, a held one makes the thread wait in line;
an UNLOCK of the last interest frees the entry, and one of a stripe not held changes nothing; PERM answers its
selector. It says that LOCK, UNLOCK and PERM complete. -/
def Obligations.EngineLocks : Prop :=
  ∀ (i : Ins) (x : Ctx) (s : State),
    let g := lockGroup s x
    let st := (i.ga x).toNat
    let x' : Ctx := { x with pc := x.pc + 1, budget := x.budget - 1 }
    (Issues notMap i x s → (i.modIn 0 && i.noD && i.noB && i.imm == 0) = true →
      ((locksHeld s i.cx).length < 2 → (∀ l ∈ locksHeld s i.cx, l.stripe < st) →
        (lockOf s g st = none → lockRoom s (eclass x == .express) = true →
          Does (.lock i) [.ctxs, .locks] s fun t => CtxIs i.cx x' s t ∧
            t.locks = s.locks ++ [{ group := g, stripe := st, holder := some i.cx, due := after s Config.lockWatchdog }]) ∧
        (∀ l, lockOf s g st = some l →
          Does (.lock i) [.ctxs, .locks, .engineFree, .seqCtr] s fun t =>
            lockOf t g st = some { l with waiters := l.waiters ++ [i.cx] } ∧
            ∃ y, t.ctxs.find i.cx = some y ∧ y.state = .waiting ∧ y.wait = .lock g st ∧ y.place = none ∧ y.pc = x.pc)) ∧
      (holds s i.cx g st = false → Sets (.unlock i) i.cx x' s) ∧
      (∀ l, lockOf s g st = some l → l.holder = some i.cx → l.waiters = [] → recOf s i.cx g st = none →
        (∀ p ∈ s.ctxs, ∀ a b, p.2.wait ≠ .lock a b) →
        Does (.unlock i) [.ctxs, .locks] s fun t => lockOf t g st = none ∧
          (∀ a b, (a, b) ≠ (g, st) → lockOf t a b = lockOf s a b) ∧
          ∃ y, t.ctxs.find i.cx = some y ∧ y.pc = x.pc + 1 ∧ y.state = .running)) ∧
    (Issues anyKind i x s → (i.modIn 0 && i.immIn 4 && decide (i.imm.toNat < 6)) = true →
      (ctxGroup s x = none → Gives (.perm i) i x (BitVec.allOnes 64) s) ∧
      (∀ no gr, ctxGroupNo s x = some no → ctxGroup s x = some gr →
        ∃ v : Word, Gives (.perm i) i x v s ∧
          (i.imm = 0 → st < gr.n → v = BitVec.ofNat 64 (groupSigma gr st)) ∧
          (i.imm = 4 → st < gr.n → v = BitVec.ofNat 64 (memberState s gr st + if memberInPoss s gr st then 256 else 0)) ∧
          (i.imm = 5 → v = if isLost s no st then 1 else 0)))

/-- The journal instructions (R302, R303, R305): JOPEN makes an open record of the locked stripe with the next
GENERATION; JADD puts an entry into it and pins its frames; JSEAL closes it once every frame is protected; JRETIRE of
an open record discards it with result 1; each refusal has the result that R303 gives. It says that JOPEN, JADD,
JSEAL and JRETIRE complete. -/
def Obligations.EngineJournal : Prop :=
  ∀ (i : Ins) (x : Ctx) (s : State), Issues notMap i x s →
    let g := lockGroup s x
    let st := (i.ga x).toNat
    ((i.modIn 0 && i.noB && i.imm == 0) = true →
      (holds s i.cx g st = false → Gives (.jopen i) i x 1 s) ∧
      (holds s i.cx g st = true → recOf s i.cx g st ≠ none → Gives (.jopen i) i x 2 s) ∧
      (holds s i.cx g st = true → recOf s i.cx g st = none → (recsOf s i.cx).length < 2 →
        recsUsed s < Config.journalRecords →
        Does (.jopen i) [.ctxs, .journal] s fun t => t.journal.nextGen = s.journal.nextGen + 1 ∧
          CtxIs i.cx (setGreg { x with pc := x.pc + 1, budget := x.budget - 1 } i.d.toNat 0) s t ∧
          ∃ n r, t.journal.recs.find n = some r ∧ r.group = g ∧ r.stripe = st ∧ r.generation = s.journal.nextGen ∧
            r.ctx = some i.cx ∧ r.sealed = false ∧ r.entries = [] ∧ r.vol = x.vol) ∧
      (recOf s i.cx g st = none → Gives (.jseal i) i x 4 s) ∧
      (∀ n r, recOf s i.cx g st = some (n, r) → r.sealed = false → r.entries ≠ [] →
        (r.entries.any fun e => e.frames.any fun fr => !(frameOf s fr).prot) = true → Gives (.jseal i) i x 3 s) ∧
      (∀ n r, recOf s i.cx g st = some (n, r) → s.journal.recs.find n = some r → r.sealed = false → r.entries ≠ [] →
        (r.entries.all fun e => e.frames.all fun fr => (frameOf s fr).prot) = true →
        Does (.jseal i) [.ctxs, .cache, .journal, .groups, .out] s fun t =>
          t.journal.recs.find n = some { r with sealed := true, sealTs := now s, echoed := true } ∧
          CtxIs i.cx (setGreg { x with pc := x.pc + 1, budget := x.budget - 1 } i.d.toNat 0) s t)) ∧
    ((i.modIn 0x01C#9 && i.immIn 5 && i.flagOk) = true →
      (jaddFrames s i x g = none →
        Sets (.jadd i) i.cx (setFlag { x with pc := x.pc + 1, budget := x.budget - 1 } i.flag false) s) ∧
      (∀ n r frs, jaddFrames s i x g = some (n, r, frs) → s.journal.recs.find n = some r → r.entries.length < 6 →
        (r.entries.length % 6 ≠ 0 ∨ r.entries = []) →
        Does (.jadd i) [.ctxs, .cache, .journal] s fun t =>
          t.journal.recs.find n = some { r with entries := r.entries ++
            [{ index := (i.gd x).toNat, lba := wLba (i.gb x), frames := frs, stage := i.imm.getLsbD 4 }] } ∧
          CtxIs i.cx (setFlag { x with pc := x.pc + 1, budget := x.budget - 1 } i.flag true) s t)) ∧
    ((i.modIn 0 && i.noB && i.imm == 0) = true →
      (recOf s i.cx g st = none → Gives (.jretire i) i x 4 s) ∧
      (∀ n r, recOf s i.cx g st = some (n, r) → s.journal.recs.find n = some r → r.sealed = false →
        Tab.sorted s.journal.recs = true → (∀ p ∈ s.ctxs, p.2.wait ≠ .record) →
        Does (.jretire i) [.ctxs, .cache, .journal, .seqCtr] s fun t => t.journal.recs.find n = none ∧
          CtxIs i.cx (setGreg { x with pc := x.pc + 1, budget := x.budget - 1 } i.d.toNat 1) s t))

/-- MREAD, MWRITE and MWAIT (R307 to R311): an accepted read or write gives the member a command for its range, its
ticket runs, and the thread goes on; the refusals of R308 change nothing but the result; MWAIT ALL of tickets that
have ended answers them at once, one that still runs makes it wait, and QUERY answers the last reported event. It
says that MREAD, MWRITE and MWAIT complete. -/
def Obligations.EngineMemberInstructions : Prop :=
  ∀ (i : Ins) (x : Ctx) (s : State), Issues notMap i x s →
    let rw := i.ga x
    let mw := i.gb x
    let n := wCount mw
    let t := rwTicket rw
    (∀ gno g port p, ctxGroupNo s x = some gno → ctxGroup s x = some g → portOfMember g (rwIndex rw) = some port →
      memberPort s g (rwIndex rw) = some p → s.mports.find port = some p →
      ((i.modIn 0 && i.immIn 5) = true →
        (readFailed g p (wLba mw) = true → Gives (.mread i) i x 1 s) ∧
        (readFailed g p (wLba mw) = false → i.imm.getLsbD 4 = true → p.inPoss = true → Gives (.mread i) i x 2 s) ∧
        (readFailed g p (wLba mw) = false → i.imm.getLsbD 4 = false ∨ p.inPoss = false →
          (ticketBusy x t = true → Gives (.mread i) i x 3 s) ∧
          (ticketBusy x t = false → p.blocks < wLba mw + n → Gives (.mread i) i x 4 s) ∧
          (∀ frs, ticketBusy x t = false → wLba mw + n ≤ p.blocks →
            framesAt (handleOf x (i.imm.toNat % 16)) (wPos mw) n = some frs → (∀ fr ∈ frs, (frameOf s fr).rdonly = false) →
            queueRoom s port p (eclass x) x.cluster = true →
            Does (.mread i) [.ctxs, .cache, .mports, .adm, .out] s fun t' =>
              CtxIs i.cx (openTicket (setGreg { x with pc := x.pc + 1, budget := x.budget - 1 } i.d.toNat 0) t) s t' ∧
              t'.out.head? = some (.memCmd port p.nextCid .read (wLba mw) n false false) ∧
              ∃ q c, t'.mports.find port = some q ∧ q.nextCid = p.nextCid + 1 ∧ q.cmds.find p.nextCid = some c ∧
                c.op = .read ∧ c.ticket = t ∧ c.ctx = some i.cx ∧ c.frames = frs ∧ c.issued = now s))) ∧
      ((i.modIn 0 && i.imm == 0) = true → p.group = some gno → judged p.state = true → ∀ frs ri,
        interlock s i.cx x p gno (i.gd x).toNat (rwIndex rw) (wLba mw) n (wPos mw) = .ok (frs, ri) →
        ticketRuns x t = false → queueRoom s port p (eclass x) x.cluster = true →
        Does (.mwrite i) [.ctxs, .cache, .journal, .groups, .mports, .adm, .out] s fun t' =>
          CtxIs i.cx (openTicket { x with pc := x.pc + 1, budget := x.budget - 1 } t) s t' ∧
          (let zeroes := frs.all fun fr => (frameOf s fr).zfill
           t'.out.head? = some (.memCmd port p.nextCid .write (wLba mw) n zeroes (zeroes && p.zerosDealloc))) ∧
          ∃ q c, t'.mports.find port = some q ∧ q.nextCid = p.nextCid + 1 ∧ q.cmds.find p.nextCid = some c ∧
            c.op = .write ∧ c.ticket = t ∧ c.ctx = some i.cx ∧ c.frames = frs)) ∧
    ((i.modIn 0x1E0#9 && i.noB && i.imm == 0) = true →
      (i.cond = 2 → ∀ e, x.tickets.find (rw.toNat % 32) = some (.reported e) → Gives (.mwait i) i x (BitVec.ofNat 64 e) s) ∧
      (i.cond = 2 → ticketBusy x (rw.toNat % 32) = true → Gives (.mwait i) i x 0xFF s) ∧
      (i.cond < 2 → (∀ k < 32, rw.getLsbD k = true → ticketBusy x k = false) → Gives (.mwait i) i x 0 s) ∧
      (i.cond = 0 → (∃ k < 32, rw.getLsbD k = true ∧ ticketRuns x k = true) →
        Does (.mwait i) [.ctxs, .engineFree, .seqCtr] s fun t' => ∃ y, CtxIs i.cx y s t' ∧ y.state = .waiting ∧
          y.wait = .tickets (rw.truncate 32) false i.d.toNat ∧ y.place = none ∧ y.pc = x.pc))

/-- The GF vector instructions (R312 to R314): over one block column, XORV, GMULV, PQGEN, PQDELTA, PQSOLVE1 and
PQSOLVE2 write byte by byte what their rows of R313 give into the destination lanes, whose frames become protected,
CMPV answers 0 or 1 + the offset of the first difference, and flag F is 1; with o + L beyond the stride each of them
is refused with flag F at 0 and nothing read or written. It says that XORV, GMULV, PQGEN, PQDELTA, PQSOLVE1, PQSOLVE2
and CMPV complete. -/
def Obligations.EngineVectors : Prop :=
  ∀ (i : Ins) (x : Ctx) (s : State), Issues notMap i x s →
    let v := vecOf (i.ga x)
    let b := i.gb x
    let src := handleOf x (i.imm.toNat / 16 % 16)
    let dst := handleOf x (i.imm.toNat % 16)
    let x' : Ctx := { x with pc := x.pc + 1, budget := x.budget - 1 }
    let at_ : Nat → Nat → Byte := fun j o => (srcData s src (v.pos j 0)).read o
    let lanes := (List.range 32).filter fun j => b.getLsbD j
    let sum : List Nat → Nat → Byte := fun js o => js.foldl (fun r j => r ^^^ at_ j o) 0
    let wsum : List Nat → Nat → Byte := fun js o => js.foldl (fun r j => r ^^^ gmul (gpow j) (at_ j o)) 0
    let w := ctxW s x
    let p := b.toNat % 32
    let q := b.toNat / 256 % 32
    let done : Instr → (State → Prop) → Prop := fun c post =>
      Does c [.ctxs, .cache] s fun t => CtxIs i.cx (setFlag x' i.flag true) s t ∧ post t
    (vecForm i = true →
      (v.stride < v.o + v.len →
        ∀ c ∈ [Instr.xorv i, .gmulv i, .pqgen i, .pqdelta i, .pqsolve1 i, .pqsolve2 i],
          Sets c i.cx (setFlag x' i.flag false) s) ∧
      (VecFits s v src dst lanes [v.dst] → done (.xorv i) (LaneIs v dst v.dst (sum lanes))) ∧
      (VecFits s v src dst [q] [v.dst] →
        done (.gmulv i) (LaneIs v dst v.dst fun o => gmul (b.truncate 8) (at_ q o))) ∧
      (VecFits s v src dst lanes [v.dst, v.dst + 1] →
        done (.pqgen i) fun t => LaneIs v dst v.dst (sum lanes) t ∧ LaneIs v dst (v.dst + 1) (wsum lanes) t) ∧
      (VecFits s v src dst [0, 1, 2, 3] [v.dst, v.dst + 1] → p < w →
        done (.pqdelta i) fun t =>
          LaneIs v dst v.dst (fun o => at_ 2 o ^^^ at_ 0 o ^^^ at_ 1 o) t ∧
          LaneIs v dst (v.dst + 1) (fun o => at_ 3 o ^^^ gmul (gpow p) (at_ 0 o ^^^ at_ 1 o)) t) ∧
      (let ds := (List.range w).filter (· != p)
       VecFits s v src dst (ds ++ [w + 1]) [p] → p < w →
        done (.pqsolve1 i) (LaneIs v dst p fun o => gmul (gneg p) (at_ (w + 1) o ^^^ wsum ds o))) ∧
      (let ds := (List.range w).filter fun j => j != p && j != q
       VecFits s v src dst (ds ++ [w, w + 1]) [p, q] → p < q → q < w →
        done (.pqsolve2 i) fun t =>
          let r := fun o => solve2 p q (at_ w o ^^^ sum ds o) (at_ (w + 1) o ^^^ wsum ds o)
          LaneIs v dst p (fun o => (r o).1) t ∧ LaneIs v dst q (fun o => (r o).2) t)) ∧
    ((i.modIn 0x01C#9 && i.immIn 8 && decide (i.imm.toNat % 16 = 0) && i.flagOk) = true →
      (v.stride < v.o + v.len → Sets (.cmpv i) i.cx (setFlag x' i.flag false) s) ∧
      (VecFits s v src .empty [p, q] [] → ∃ r : Nat,
        Sets (.cmpv i) i.cx (setFlag (setGreg x' i.d.toNat (BitVec.ofNat 64 r)) i.flag true) s ∧
        ((∀ o < 4096, at_ p o = at_ q o) → r = 0) ∧
        (∀ o < 4096, at_ p o ≠ at_ q o → (∀ k < o, at_ p k = at_ q k) → r = o + 1)))

/-- Recovery of lost strips (R213, R215, R220): from the other data bytes with P and Q, the second and the fourth row of
R220 give back one and two lost bytes of any stripe of up to 255 data indices; the delta rule of R215 keeps P and Q equal to
those of the new data. -/
def Obligations.LostStripsRecovered : Prop :=
  (∀ (ds : List Byte) (x : Nat), x < ds.length → ds.length ≤ 255 →
    gmul (gneg x) (qOf ds ^^^ weighted ((indexed ds).filter fun e => e.1 != x)) = ds.getD x 0) ∧
  (∀ (ds : List Byte) (x y : Nat), x < y → y < ds.length → ds.length ≤ 255 →
    let rest := (indexed ds).filter fun e => e.1 != x && e.1 != y
    solve2 x y (pOf ds ^^^ xorAll (rest.map Prod.snd)) (qOf ds ^^^ weighted rest) = (ds.getD x 0, ds.getD y 0)) ∧
  (∀ (ds : List Byte) (x : Nat) (new : Byte), x < ds.length →
    let old := ds.getD x 0
    pOf (ds.set x new) = pOf ds ^^^ old ^^^ new ∧ qOf (ds.set x new) = qOf ds ^^^ gmul (gpow x) (old ^^^ new))

/-- The movers (R401 to R410): a queued channel of an idle mover runs; a resumed one loses the pause cause; a valid
read-back ends the transfer and its instruction, a first failure only counts; firmware starts and holds channel 15,
whose completion moves the bytes between the command's data and the signal box memory. It says that
MOVER_CHANNEL_START, MOVER_RESUME, MOVER_READBACK, MOVER_CHANNEL_COMPLETE, MOV_CH_GO and MOV_CH_HOLD complete. -/
def Obligations.Movers : Prop :=
  ∀ (m c : Nat) (s : State) (k : Channel),
    (chanWaiters s (m / 2) = [] → (moverOf s m).chans = [(c, k)] → k.state = .queued → k.src.kind = 0 →
      Does (.moverChannelStart m) [.movers, .reads, .nextTag, .out] s fun t =>
        (moverOf t m).chans = [(c, { k with state := .running })]) ∧
    ((moverOf s m).chans = [(c, k)] → k.state = .paused → k.causes = 1 → k.cls ≠ .express → k.src.kind = 0 → k.ctx ≠ none →
      Does (.moverResume m) [.movers, .reads, .nextTag, .out] s fun t =>
        (moverOf t m).chans = [(c, { k with state := .running, causes := 0 })]) ∧
    ((moverOf s m).chans.find c = some k → k.state = .readback → k.readbacks = 0 →
      Does (.moverReadback m c false) [.movers] s fun t =>
        (moverOf t m).chans.find c = some { k with readbacks := 1 }) ∧
    (∀ cx x, (moverOf s m).chans.find c = some k → k.state = .readback → k.ctx = some cx → s.ctxs.find cx = some x →
      (∀ p ∈ s.ctxs, ∀ a b d e, p.2.wait ≠ .channel a b d e) → Tab.sorted (moverOf s m).chans = true →
      Does (.moverReadback m c true) [.movers, .ctxs, .seqCtr, .cache] s fun t => (moverOf t m).chans.find c = none ∧
        ∃ y, CtxIs cx y s t ∧ y.state = .ready ∧ y.wait = .nothing ∧ y.pc = x.pc + 1 ∧
          (Tab.sorted x.g = true → k.dstReg ≠ 0 →
            greg y k.dstReg = if k.piBad then 7 else if k.poisoned then 6 else 0)) ∧
    ((chanOf s m 15).state = .idle ∨ (chanOf s m 15).state = .done →
      (∀ e, goCheck s (chanOf s m 15) = some e →
        Does (.movChGo m) [.movers, .errLog, .errSeq, .fresh] s fun t => (chanOf t m 15).state = .done ∧
          (chanOf t m 15).result = 0xFE ∧ t.errSeq = s.errSeq + 1) ∧
      (goCheck s (chanOf s m 15) = none → (chanOf s m 15).hold = false →
        Does (.movChGo m) [.movers] s fun t => (chanOf t m 15).state = .queued ∧ (chanOf t m 15).done = 0 ∧
          (chanOf t m 15).go = true ∧ (chanOf t m 15).cls = .standard)) ∧
    ((chanOf s m 15).state = .queued → (chanOf s m 15).inFlight = 0 →
      Does (.movChHold m true) [.movers] s fun t => (chanOf t m 15).hold = true ∧ (chanOf t m 15).state = .paused ∧
        (chanOf t m 15).causes.getLsbD 4 = true) ∧
    (∀ a, s.mbx.adminQ.head? = some a → (moverOf s m).chans.find 15 = some k → k.state = .running → k.src.kind = 1 →
      k.spat = 0 → k.dpat = 0 → k.ilv = 0 → s.mbx.sram.wf = true →
      Does (.moverChannelComplete m 15) [.movers, .mbx, .fresh, .freeCtr] s fun t =>
        (moverOf t m).chans.find 15 = some { k with state := .done, done := k.count, result := 0 } ∧
        (∀ j < k.count, t.mbx.sram.read (k.dstOff + j) = a.data.getD (k.srcOff + j) 0) ∧
        (∀ j, j < k.dstOff ∨ k.dstOff + k.count ≤ j → t.mbx.sram.read j = s.mbx.sram.read j))

/-- Address translation (R415 to R417): a Translation Completion that was asked for installs its entry; an
invalidation removes every entry it covers and is answered once the reads issued with them have ended; a Page Request
Group Response of no group is an unexpected completion and is logged, and one with Success lets the context retry. It
says that TRANSLATION_COMPLETION, ATS_INVALIDATE, ATS_INVALIDATE_COMPLETION and PRG_RESPONSE complete. -/
def Obligations.AddressTranslation : Prop :=
  ∀ (s : State) (f pasid page pages index itag : Nat) (addr : Word) (r w : Bool),
    ((∃ k < pages, atsPending s f pasid (page + k) = true) → (∀ p ∈ s.movers, ∀ q ∈ p.2.chans, q.2.causes.getLsbD 1 = false) →
      Does (.translationCompletion f pasid page pages addr r w) [.reads, .xlate] s fun t =>
        t.xlate.ats.head? = some { func := f, pasid := pasid, page := page, pages := pages, addr := addr, read := r, write := w } ∧
        t.xlate.prgs = s.xlate.prgs) ∧
    ((s.xlate.invals.filter fun v => v.1 == f).length < 32 →
      Does (.atsInvalidate f itag page pages) [.xlate] s fun t =>
        t.xlate.invals = s.xlate.invals ++ [(f, itag, translatedReads s f)] ∧
        ∀ e, e ∈ t.xlate.ats ↔ e ∈ s.xlate.ats ∧ ¬(e.func = f ∧ e.page < page + pages ∧ page < e.page + e.pages)) ∧
    (∀ tags, firstInval s f = some (f, itag, tags) →
      (∀ g ∈ tags, ∀ x, s.reads.find g = some x → x.quarantined = true) →
      Does (.atsInvalidateCompletion f itag) [.xlate, .out] s fun t =>
        t.out.head? = some (.invalidateDone f itag) ∧ t.xlate.invals = s.xlate.invals.erase (f, itag, tags)) ∧
    (∀ code, (∀ g ∈ s.xlate.prgs, ¬(g.func = f ∧ g.pasid = pasid ∧ g.index = index ∧ g.sent = true)) →
      Does (.prgResponse f pasid index code) [.funcs, .ports, .out, .errLog, .errSeq, .fresh] s fun t =>
        t.errSeq = s.errSeq + 1 ∧ t.errLog.head?.map LogEnt.code = some 0x0C12#16 ∧ t.xlate = s.xlate) ∧
    (∀ g x, (s.xlate.prgs.find? fun g => g.func == f && g.pasid == pasid && g.index == index && g.sent) = some g →
      s.xlate.prgs.filter (fun g => g.func == f && !g.sent) = [] → s.ctxs.find g.ctx = some x → x.state = .translating →
      Does (.prgResponse f pasid index .success) [.ctxs, .reads, .xlate, .seqCtr] s fun t =>
        t.xlate.prgs = s.xlate.prgs.erase g ∧ ∃ y, CtxIs g.ctx y s t ∧ y.state = .ready ∧ y.pc = x.pc)

/-- Producer indices (R138, R143, R148): a doorbell moves PI when the outstanding count neither falls nor exceeds N,
and the entries it newly covers are announced in this slot; any other value leaves PI and sets QUEUE_OVERRUN; a
doorbell of no queue, of a polled ring or of the other kind is counted as ignored, and a function that takes no
writes (R118, R131) leaves everything as it is. The fetch of a ring's new entries goes out in the issue step of the
slot (R46). It says that SQ_DOORBELL and PUSH_DOORBELL complete. -/
def Obligations.QueueDoorbells : Prop :=
  ∀ (f slot : Nat) (value : BitVec 32) (s : State), (takesWrites s f = none → ∀ off bytes ep win rid,
      ∀ c ∈ [Instr.sqDoorbell f slot value, .pushDoorbell f slot value, .cqDoorbell f slot value, .pushEntryWrite f slot off bytes ep,
        .inlineBufferWrite f slot off bytes ep, .peerWindowWrite f win off bytes rid ep], exec c s = .next s) ∧
    ∀ fn : Func, takesWrites s f = some fn →
    let ignored : Instr → Prop := fun c => Does c [.funcs, .fresh] s (FuncIs f { fn with cntIgn := satInc fn.cntIgn } s)
    (fn.cqs.find slot = none → ignored (.cqDoorbell f slot value)) ∧
    (fn.sqs.find slot = none → ignored (.sqDoorbell f slot value) ∧ ignored (.pushDoorbell f slot value)) ∧
    ∀ q, fn.sqs.find slot = some q →
      let n := if q.push then 64 else 2 ^ q.log2
      let p := value.toNat
      let d : Nat → Int := fun x => ((x : Int) - q.ci) % (2 * n : Nat)
      let new := (((p : Int) - q.pi) % (2 * n : Nat)).toNat
      let judged_ : Sq → Prop := fun r =>
        r.ci = q.ci ∧ r.fetched = q.fetched ∧ r.entries = q.entries ∧
        if 2 * n ≤ p ∨ d p < d q.pi ∨ n < d p then r.pi = q.pi ∧ r.announced = q.announced ∧ r.overrun = true
        else r.pi = p ∧ r.announced = q.announced ++ List.replicate new { vis := now s } ∧ r.overrun = q.overrun
      (q.push = false → q.pollInt = 0 →
        Runs (.sqDoorbell f slot value) s fun t => ∃ r, SqIs f slot r s t ∧ r.fetchStop = false ∧ judged_ r ∧
          t.fetchDue = s.fetchDue ++ [(f, slot)]) ∧
      (q.push = true → Runs (.pushDoorbell f slot value) s fun t => ∃ r, SqIs f slot r s t ∧ judged_ r) ∧
      (q.push = false → ignored (.pushDoorbell f slot value)) ∧
      (q.push = true ∨ q.pollInt ≠ 0 → ignored (.sqDoorbell f slot value))

/-- Consumer indices (R139): a completion ring takes a new CQ_CI that moves neither backward nor past the producer;
any other value leaves it and sets QUEUE_OVERRUN; nothing else changes. It says that CQ_DOORBELL completes. -/
def Obligations.ConsumerIndex : Prop :=
  ∀ (f slot : Nat) (value : BitVec 32) (s : State) (fn : Func) (q : Cq), takesWrites s f = some fn →
    fn.cqs.find slot = some q →
    let n := 2 ^ q.log2
    let c := value.toNat
    let d : Nat → Int := fun x => ((q.pi : Int) - x) % (2 * n : Nat)
    Does (.cqDoorbell f slot value) [.funcs, .fresh] s
      (CqIs f slot (if 2 * n ≤ c ∨ d q.ci < d c then { q with overrun := true } else { q with ci := c }) s)

/-- The occupancy of a ring of N = 2^k entries (R137): the outstanding count is (PI - CI) mod 2N; it is 0 exactly when the
indices are equal and N exactly when they differ in bit k only; all N entries can be announced. -/
def Obligations.RingOccupancy : Prop :=
  ∀ (k pi ci : Nat), pi < 2 * 2 ^ k → ci < 2 * 2 ^ k →
    (idxDist (2 ^ k) ci pi : Int) = ((pi : Int) - ci) % (2 * 2 ^ k : Nat) ∧
    (idxDist (2 ^ k) ci pi = 0 ↔ pi = ci) ∧ (idxDist (2 ^ k) ci pi = 2 ^ k ↔ pi ^^^ ci = 2 ^ k) ∧
    (idxDist (2 ^ k) ci pi ≤ 2 ^ k → piAccepted (2 ^ k) pi ci ((ci + 2 ^ k) % (2 * 2 ^ k)) = true)

/-- Entry fetches and polls (R126, R127, R141, R142): a fetch that arrives moves SQ_CI past its entries, which wait
for the dispatcher in order; a due poll is issued, and its value is judged as a doorbell is; a failed or timed-out
poll comes again after POLL_INT, a failed or timed-out fetch stops the ring's fetching; a timed-out tag is
quarantined until its late completion. It says that ENTRY_FETCH_COMPLETION, SHADOW_POLL, POLL_COMPLETION,
HOST_READ_COMPLETION, COMPLETION_TIMEOUT and LATE_HOST_COMPLETION complete. -/
def Obligations.FetchesAndPolls : Prop :=
  ∀ (f slot tag : Nat) (s : State) (q : Sq), sqOf s f slot = some q →
    (∀ entries ep, readFor s f (.entry slot) = some tag → entries.length = q.fetching →
      Runs (.entryFetchCompletion f slot entries ep) s fun t => ∃ r, sqOf t f slot = some r ∧
        r.ci = (q.ci + q.fetching) % (2 * q.size) ∧ r.announced = q.announced.drop q.fetching ∧ r.pi = q.pi ∧
        r.fetched = q.fetched ++ ((q.announced.take q.fetching).zip entries).map fun x =>
          { entry := x.2, vis := x.1.vis, held := x.1.held, poisoned := ep }) ∧
    (∀ fn, fnOf s f = some fn → s.fetchDue = [(f, slot)] → q.push = false → q.fetchStop = false → q.fetching = 0 →
      fetcherRuns s f slot = true → readOk s f (q.cls == .express) = true →
      let n := min (min q.announced.length ((if q.cls = .express then 64 else 16) - q.fetched.length))
        (min (2 ^ q.log2 - q.ci % 2 ^ q.log2) (min fn.mrrs 4096 / 64))
      n ≠ 0 → let t := fetchIssue s
        OnlyChanges [.funcs, .reads, .nextTag, .fetchDue, .out] s t ∧ SqIs f slot { q with fetching := n } s t ∧
        t.out = .hostRead s.nextTag f (.entry slot) (q.base + 64 * (q.ci % 2 ^ q.log2)) (64 * n) none :: s.out ∧
        ∃ x, t.reads.find s.nextTag = some x ∧ x.func = f ∧ x.purpose = .entry slot ∧ x.issued = now s) ∧
    (∀ fn base, fnOf s f = some fn → fn.shadow = some base → q.push = false → q.pollInt ≠ 0 → q.pollOut = false →
      due s q.pollDue = true → fetcherRuns s f slot = true → readOk s f (q.cls == .express) = true →
      Runs (.shadowPoll f slot) s fun t =>
        SqIs f slot { q with pollOut := true, pollDue := after s q.pollInt } s t ∧
        t.out.head? = some (.hostRead s.nextTag f (.poll slot) (base + 0x200 + 4 * slot) 4 none) ∧ t.nextTag = s.nextTag + 1 ∧
        ∃ x, t.reads.find s.nextTag = some x ∧ x.func = f ∧ x.purpose = .poll slot ∧ x.issued = now s ∧
          x.quarantined = false) ∧
    (∀ value, readFor s f (.poll slot) = some tag →
      Runs (.pollCompletion f slot value) s fun t => ∃ r, sqOf t f slot = some r ∧ r.ci = q.ci ∧
        if piAccepted q.size q.pi q.ci value.toNat then
          r.pi = value.toNat ∧ r.fetchStop = false ∧
            r.announced = q.announced ++ List.replicate (idxDist q.size q.pi value.toNat) { vis := now s }
        else r.pi = q.pi ∧ r.announced = q.announced ∧ r.overrun = true) ∧
    (∀ x, s.reads.find tag = some x → x.func = f → Unblocked s → Tab.sorted s.reads = true →
      (∀ bytes ep, x.quarantined = false → x.purpose = .poll slot →
        (past s x.due = false →
          (∀ st kind, (st, kind) ∈ [(HostStatus.unsupported, 4), (.abort, 5), (.retry, 6)] →
            Runs (.hostReadCompletion tag st bytes ep) s fun t => t.reads.find tag = none ∧ Out.aer f kind ∈ t.out ∧
              sqOf t f slot = some { q with pollOut := false, pollDue := after s q.pollInt }) ∧
          (piAccepted q.size q.pi q.ci (leNat (bytes.take 4)) = true →
            Runs (.hostReadCompletion tag .success bytes false) s fun t => ∃ r, sqOf t f slot = some r ∧
              r.pi = leNat (bytes.take 4) ∧ r.ci = q.ci ∧ r.fetchStop = false)) ∧
        (past s x.due = true → ∀ st, Runs (.hostReadCompletion tag st bytes ep) s fun t => t.reads.find tag = none ∧
          sqOf t f slot = some { q with pollOut := false, pollDue := after s q.pollInt } ∧
          ∃ a b, s.funcs.find f = some a ∧ t.funcs.find f = some b ∧ b.cntCto = satInc a.cntCto ∧
            b.cntUnexp = satInc a.cntUnexp)) ∧
      (x.quarantined = false → due s x.due = true →
        (x.purpose = .poll slot → Runs (.completionTimeout tag) s fun t =>
          t.reads.find tag = some { x with quarantined := true } ∧
          sqOf t f slot = some { q with pollOut := false, pollDue := after s q.pollInt } ∧
          ∃ a b, s.funcs.find f = some a ∧ t.funcs.find f = some b ∧ b.stCto = true ∧ b.cntCto = satInc a.cntCto) ∧
        (x.purpose = .entry slot → Runs (.completionTimeout tag) s fun t =>
          t.reads.find tag = some { x with quarantined := true } ∧
          sqOf t f slot = some { q with fetchStop := true, fetching := 0 } ∧
          ∃ a b, s.funcs.find f = some a ∧ t.funcs.find f = some b ∧ b.stFetchTmo = true ∧ b.cntCto = satInc a.cntCto)) ∧
      (x.quarantined = true → Runs (.lateHostCompletion tag) s fun t => t.reads.find tag = none ∧
        ∃ a b, s.funcs.find f = some a ∧ t.funcs.find f = some b ∧ b.stUnexp = true ∧ b.cntUnexp = satInc a.cntUnexp))

/-- Writes to push queues and peer windows (R123, R149, R150, R422): the bytes of an accepted write are stored,
across the buffers or pages that it covers, and no other byte changes; a write that touches an entry between CI and
PI, or a busy inline buffer, is dropped whole and counted; a write that a window refuses is counted in WIN_CNT_DROP
and logged with its case. A poisoned write is stored too; it is counted and marked. It says that PUSH_ENTRY_WRITE,
INLINE_BUFFER_WRITE and PEER_WINDOW_WRITE complete. -/
def Obligations.PushAndWindowWrites : Prop :=
  ∀ (f slot off : Nat) (bytes : List Byte) (ep : Bool) (s : State) (fn : Func), takesWrites s f = some fn → bytes ≠ [] →
    let last := off + bytes.length - 1
    -- the part of a memory that begins at `base` of the range written
    let stored : Nat → Memory → Memory → Prop := fun base old new =>
      ∀ j < 4096, new.read j = if off ≤ base + j ∧ base + j ≤ last then bytes.getD (base + j - off) 0 else old.read j
    -- a poisoned write is counted for the function as well
    let does : Instr → List Part → (State → Prop) → Prop := fun c ps post =>
      Does c (if ep then [.funcs, .ports, .fresh, .out] ++ ps else ps) s fun t => post t ∧
        (ep = true → ∃ b, fnOf t f = some b ∧ b.cntPsnIn = satInc fn.cntPsnIn ∧ b.stPsnIn = true)
    let ignored : Instr → Prop := fun c => does c [.funcs, .fresh] fun t =>
      ∃ b, FuncIs f b s t ∧ b.cntIgn = satInc fn.cntIgn ∧ b.sqs = fn.sqs
    let sqBecomes : (Sq → Prop) → State → Prop := fun post t => ∃ b r, FuncIs f b s t ∧ b.sqs.find slot = some r ∧
      (ep = false → b = { fn with sqs := b.sqs }) ∧ (∀ k, k ≠ slot → b.sqs.find k = fn.sqs.find k) ∧ post r
    ((∀ q, fn.sqs.find slot = some q → q.push = false) →
      ignored (.pushEntryWrite f slot off bytes ep) ∧ ignored (.inlineBufferWrite f slot off bytes ep)) ∧
    (∀ q, fn.sqs.find slot = some q → q.push = true →
      let touched := ∃ j, j < (((q.pi : Int) - q.ci) % 128).toNat ∧
        let p := (q.ci + j) % 64
        64 * p ≤ last ∧ off < 64 * p + 64
      let busy := ∃ k ∈ q.inlineBusy, 4096 * k ≤ last ∧ off < 4096 * (k + 1)
      (off + bytes.length ≤ 4096 → ¬touched → q.entries.wf = true → (∀ m, q.copy = some m → m.wf = true) →
        does (.pushEntryWrite f slot off bytes ep) [.funcs] (sqBecomes fun r =>
          r = { q with entries := r.entries, copy := r.copy, entryPoison := r.entryPoison } ∧ stored 0 q.entries r.entries ∧
          (q.copy = none → r.copy = none) ∧ (∀ m, q.copy = some m → ∃ x, r.copy = some x ∧ stored 0 m x) ∧
          ∀ p, 64 * p ≤ last → off < 64 * p + 64 → (ep = true → p ∈ r.entryPoison) ∧
            (ep = false → off ≤ 64 * p → 64 * p + 64 ≤ last + 1 → p ∉ r.entryPoison))) ∧
      (4096 < off + bytes.length ∨ touched → ignored (.pushEntryWrite f slot off bytes ep)) ∧
      (off + bytes.length ≤ 65536 → ¬busy → (∀ k, (q.inline_.getD k {}).wf = true) →
        does (.inlineBufferWrite f slot off bytes ep) [.funcs] (sqBecomes fun r =>
          r = { q with inline_ := r.inline_, inlinePoison := r.inlinePoison } ∧
          (∀ k, stored (4096 * k) (q.inline_.getD k {}) (r.inline_.getD k {})) ∧
          ∀ k, 4096 * k ≤ last → off < 4096 * (k + 1) → ep = true → k ∈ r.inlinePoison)) ∧
      (65536 < off + bytes.length ∨ busy → ignored (.inlineBufferWrite f slot off bytes ep))) ∧
    (∀ win rid,
      let x := winOf fn win
      let c := if x.en = false then 1 else if x.size < off + bytes.length then 2 else if x.ridChk = true ∧ rid ≠ x.rid then 3
        else if ∃ p ∈ x.busy, off / 4096 ≤ p ∧ p ≤ last / 4096 then 4 else 0
      let cover : Nat → Prop := fun p => off / 4096 ≤ p ∧ p ≤ last / 4096
      (16 ≤ win → exec (.peerWindowWrite f win off bytes rid ep) s = .next s) ∧
      (win < 16 → c = 0 →
        (∀ p, cover p → ∃ fr g, x.pages.find p = some fr ∧ s.cache.frames.find fr = some g ∧ g.data.wf = true) →
        (∀ p p', cover p → cover p' → x.pages.find p = x.pages.find p' → p = p') →
        does (.peerWindowWrite f win off bytes rid ep) [.funcs, .cache, .fresh] fun t =>
          (∀ p fr g, cover p → x.pages.find p = some fr → s.cache.frames.find fr = some g →
            ∃ h, t.cache.frames.find fr = some h ∧ stored (4096 * p) g.data h.data ∧ (ep = true → h.poison = true)) ∧
          (∀ j, (∀ p, cover p → x.pages.find p ≠ some j) → t.cache.frames.find j = s.cache.frames.find j) ∧
          ∃ b, FuncIs f b s t ∧ (ep = false → b = { fn with windows := b.windows }) ∧
            winOf b win = { x with cntRx := satAdd x.cntRx bytes.length }) ∧
      (win < 16 → c ≠ 0 → does (.peerWindowWrite f win off bytes rid ep) [.funcs, .errLog, .errSeq, .fresh, .out] fun t =>
        Logged 0x0C20#16 (win + off * 2 ^ 8 + c * 2 ^ 32) s t ∧
        ∃ b, fnOf t f = some b ∧ winOf b win = { x with cntDrop := satInc x.cntDrop, drop := true }))

/-- The dispatcher (R15 to R17, R70, R161, R174): a lane serves the highest class that has an entry it may take,
first the queue that is next in turn; a refused command's completion joins its ring with the status and the cause, an
admin command goes to the signal box, and an admitted one receives a free context with its deadline; the entry leaves
its queue. It says that DISPATCH completes. -/
def Obligations.Dispatching : Prop :=
  ∀ (lane : Nat) (s : State), lane < 4 →
    ((∀ k : Cls, ∀ x ∈ serviceOrder s k, LeftInPlace s x) → exec (.dispatch lane) s = .next s) ∧
    ∀ (f slot : Nat) (cl : Cls) (fn : Func) (q : Sq) (h : Head), ServedNext s cl f slot → fnOf s f = some fn →
      fn.sqs.find slot = some q → headOf q = some h →
      let taken : State → Prop := fun t => t.adm.rr.find cl.code = some (64 * f + slot) ∧ ∃ r, sqOf t f slot = some r ∧
        r.pi = q.pi ∧ (q.push = true → r.ci = (q.ci + 1) % 128 ∧ r.announced = q.announced.tail) ∧
        (q.push = false → r.ci = q.ci ∧ r.fetched = q.fetched.tail)
      (∀ st cause poison c, judgeHead s f slot fn q h = .refusal st cause poison → cqOf s f q.cqSlot = some c →
        flrNow s f = false → Runs (.dispatch lane) s fun t => taken t ∧ t.ctxs = s.ctxs ∧
          ∃ r, (cqOf t f q.cqSlot).map Cq.ready = some (c.ready ++ [r]) ∧ r.cid = eCid h.entry ∧
            r.status = BitVec.ofNat 8 st.code ∧ r.refusalCause = BitVec.ofNat 8 cause ∧ r.poison = poison ∧ r.ctx = none ∧
            r.vis = h.vis ∧ r.held = h.held ∧ r.readyTs = now s ∧ r.cls = q.cls) ∧
      (judgeHead s f slot fn q h = .admin →
        Runs (.dispatch lane) s fun t => taken t ∧ t.ctxs = s.ctxs ∧ t.mbx = { s.mbx with adminQ := s.mbx.adminQ ++
          [{ port := f / 64, entry := h.entry, vis := h.vis, data := [], poisoned := false, held := h.held,
             dl := tsAdd s.tt.kActive h.vis (stdTarget s 8 + h.held.total) }] }) ∧
      (∀ kind units bound pins degraded v x cx, judgeHead s f slot fn q h = .admitted kind units bound pins degraded →
        s.vols.find (eVol h.entry) = some v → opHandler s v (eOpc h.entry) = some x → freeSiding s = some cx →
        Runs (.dispatch lane) s fun t => taken t ∧ OthersKeep [cx] s t ∧
          t.adm.exp = (moveTokens s f (sqidOf f slot) kind units false).adm.exp ∧
          ∃ c, t.ctxs.find cx = some c ∧ c.cmd = h.entry ∧ c.state = .ready ∧ c.cls = q.cls ∧ c.kind = .opcode ∧
            c.pc = BitVec.ofNat 24 x.2.2.2.entry ∧ c.budget = x.2.2.2.budget ∧ c.vol = some (eVol h.entry) ∧
            c.group = some v.group ∧ c.func = BitVec.ofNat 16 f ∧ c.sqid = BitVec.ofNat 16 (64 * f + slot) ∧ c.vis = h.vis ∧
            c.held = h.held ∧ c.posted = none ∧
            (c.cls = .express → reserveRoom s = true → c.res = .reserve) ∧ (c.cls ≠ .express → c.res ≠ .reserve) ∧
            c.dl = match bound with
              | some b => tsAdd s.tt.kActive h.vis (b + h.held.total)
              | none => noTs)

/-- Completion entries and their interrupts (R59, R112 to R114, R145, R156 to R161, R165): the entries ready on a
ring are sent in order while it has room, to the positions from CQ_PI on, which moves past them and is written to the
shadow page; a context that has ended is then free; an entry that finds the ring full is parked, and no ring sends
before one of a higher class on its port. A ring whose event is due after the issue step is signalled in the next
slot: with MSI-X one message for the rings of a vector, pending where it is masked; else the bits of Q_FN_INTX_RING;
without IEN nothing. It says that COMPLETION_ISSUE and INTERRUPT_DELAY_DUE complete. -/
def Obligations.CompletionsIssued : Prop :=
  ∀ (f slot : Nat) (s : State) (fn : Func) (q : Cq), fnOf s f = some fn → fn.cqs.find slot = some q →
    (fn.resume = false →
      (upstreamOk s fn = false ∨ onW0 s = false ∨ outranked s f slot = true → exec (.completionIssue f slot) s = .next s) ∧
      (upstreamOk s fn = true → onW0 s = true → q.hasRoom = false → Runs (.completionIssue f slot) s fun t =>
        cqOf t f slot = some { q with ready := q.ready.map fun r => if past s r.readyTs then { r with parked := true } else r } ∧
        ∀ r ∈ q.ready, past s r.readyTs = true → r.parked = false → r.ctx = none →
          ∀ z, sqOf s f r.sqSlot = some z → ∃ y, sqOf t f r.sqSlot = some y ∧ y.refusalWait = true) ∧
      (∀ r rest, q.ready = r :: rest → upstreamOk s fn = true → onW0 s = true → outranked s f slot = false → q.hasRoom = true →
        past s r.readyTs = true →
        (∀ x ∈ q.ready, (∀ k v, x.vol = some k → s.vols.find k = some v → v.detachWait = [] ∧ v.deleting = false) ∧
          x.sqSlot < 64 ∧ ∀ z, sqOf s f x.sqSlot = some z → z.ci < 2 ^ 32) → f < 512 → Tab.sorted s.ctxs = true →
        let n := min (q.ready.takeWhile fun x => past s x.readyTs).length (q.size - idxDist q.size q.ci q.pi)
        Runs (.completionIssue f slot) s fun t =>
          (∀ i < n, ∃ x, q.ready[i]? = some x ∧ (∃ e, Out.cqe f slot ((q.pi + i) % q.size) e ∈ t.out ∧
              e.extractLsb' 0 16 = x.cid ∧ e.extractLsb' 16 8 = x.status ∧ e.getLsbD 25 = isLate s x ∧
              e.getLsbD 26 = decide (0 < x.held.total) ∧ e.getLsbD 27 = x.poison ∧
              e.extractLsb' 32 32 = BitVec.ofNat 32 (((sqOf s f x.sqSlot).map fun z => z.ci).getD 0) ∧
              e.extractLsb' 64 16 = BitVec.ofNat 16 (64 * f + x.sqSlot) ∧
              e.extractLsb' 96 32 = BitVec.ofNat 32 (min (since s x.vis) 0xFFFFFFFF) ∧
              (isLate s x = false → x.held.total = 0 → x.status ≠ 1 → e.extractLsb' 80 8 = 0)) ∧
            ∀ cx y, x.ctx = some cx → s.ctxs.find cx = some y → y.state = .doneUnposted → t.ctxs.find cx = none) ∧
          (∃ c, cqOf t f slot = some c ∧ c.pi = (q.pi + n) % (2 * q.size) ∧ c.ci = q.ci ∧
            c.unsignalled = q.unsignalled + n ∧ c.ready.map Ready.cid = (q.ready.drop n).map Ready.cid) ∧
          (∃ m, Out.cqeTlp f slot (q.pi % q.size) m ∈ t.out ∧ 1 ≤ m ∧ m ≤ n ∧ 16 * m ≤ max 16 fn.mps) ∧
          ∀ b, fn.shadow = some b → Out.shadowWrite f (b + (0x100 + 4 * slot)) ((q.pi + n) % (2 * q.size)) ∈ t.out)) ∧
    (∃ y, cqOf (signalAll s) f slot = some y ∧ y.evDue = ringDue s q ∧
      y.unsignalled = (if ringDue s q then 0 else q.unsignalled) ∧ y.ready = q.ready ∧ y.pi = q.pi) ∧
    (q.evDue = false → exec (.interruptDelayDue f slot) s = .next s) ∧
    (q.evDue = true → Runs (.interruptDelayDue f slot) s fun t => ∃ b, fnOf t f = some b ∧
      (∀ k x, fn.cqs.find k = some x → b.cqs.find k = some { x with evDue := false }) ∧
      ((∀ x ∈ fn.cqs, x.2.evDue = true → x.2.ien = false) → t.out = s.out ∧ b.pba = fn.pba ∧ b.intxRing = fn.intxRing) ∧
      (q.ien = true → fn.msixEn = true → fn.flrBusy = false →
        (maskedVec fn q.vec = true → q.vec ∈ b.pba) ∧
        (maskedVec fn q.vec = false → upstreamOk s fn = true → Out.msix f q.vec ∈ t.out) ∧
        (maskedVec fn q.vec = false → upstreamOk s fn = false → HeldWork.msix q.vec ∈ b.held)) ∧
      (q.ien = true → usesIntx f fn = true → slot < 64 → Tab.sorted fn.cqs = true → b.intxRing.getLsbD slot = true ∧
        ∀ p, s.ports.find (f / 64) = some p → p.intx = false → upstreamOk s fn = true → Out.assertIntx (f / 64) ∈ t.out))

/-- Events of threads (R18, R19, R243, R244, R247, R259, R299): the best READY context of a cluster takes a slot and
lies in the siding cache, an Express one slot 0 before all others, and it switches a thread out when every slot is
taken; a wait that is over makes its context READY; the lock watchdog marks the holder, and in the next slot the lock
passes to the head waiter or is free. It says that LOCK_WATCHDOG, SLOT_ASSIGN, THREAD_RESUME and WAIT_EXPIRY
complete. -/
def Obligations.ThreadEvents : Prop :=
  ∀ (s : State) (cx : Nat) (c : Ctx), s.ctxs.find cx = some c →
    let enters : Nat → Nat → Nat → Prop := fun cluster e n =>
      Does (.slotAssign cluster) [.ctxs] s fun t => CtxRuns cx e n c t ∧ OthersKeep [cx] s t
    (∀ cluster x, nextReady s cluster (fun c => c.cls == .express) = some (cx, x) →
      (∀ e, freeSlot0 s cluster = some e → enters cluster e 0) ∧
      (∀ e n, freeSlot0 s cluster = none → freeOther s cluster .express = some (e, n) → enters cluster e n) ∧
      (freeSlot0 s cluster = none → freeOther s cluster .express = none → victimOf s cluster = none →
        exec (.slotAssign cluster) s = .next s) ∧
      (∀ v y e n, freeSlot0 s cluster = none → freeOther s cluster .express = none → victimOf s cluster = some (v, y) →
        y.place = some (e, n) → s.ctxs.find v = some y → v ≠ cx →
        Does (.slotAssign cluster) [.ctxs, .engineFree, .seqCtr] s fun t => CtxRuns cx e n c t ∧
          (∃ r, t.ctxs.find v = some { y with state := .ready, wait := .nothing, place := none, ran := s.seqCtr,
                                              since := s.seqCtr + 1, res := r } ∧ (r = y.res ∨ r = .siding)) ∧
          OthersKeep [cx, v] s t ∧ (n ≠ 0 → t.engineFree = s.engineFree))) ∧
    (∀ cluster x e n, nextReady s cluster (fun c => c.cls == .express) = none →
      nextReady s cluster (fun c => c.cls != .express) = some (cx, x) → freeOther s cluster x.cls = some (e, n) →
      enters cluster e n) ∧
    (c.state = .waiting →
      let wakes : Prop := Does (.threadResume cx) [.ctxs, .seqCtr] s (Woken cx c s)
      (c.wait = .frames → callocRoom s c 1 = true → wakes) ∧
      (c.wait = .record → recsUsed s < Config.journalRecords → wakes) ∧
      (∀ p, c.wait = .memQueue p → (∀ mp, s.mports.find p = some mp → queueRoom s p mp (eclass c) c.cluster = true) → wakes) ∧
      (∀ mask any d l, c.wait = .tickets mask any d → waitResult c mask any = some l →
        Does (.threadResume cx) [.ctxs, .seqCtr] s fun t => ∃ y, CtxIs cx y s t ∧ y.state = .ready ∧ y.wait = .nothing ∧
          y.pc = c.pc + 1 ∧ (Tab.sorted c.g = true → d ≠ 0 → greg y d = waitValue c l)) ∧
      (∀ ts, c.wait = .until_ ts → due s ts = true → Does (.waitExpiry cx) [.ctxs, .seqCtr] s (Woken cx c s)) ∧
      (∀ ts, c.wait = .until_ ts → due s ts = false → exec (.waitExpiry cx) s = .next s)) ∧
    (∀ g st l, lockOf s g st = some l → l.holder = some cx →
      (due s l.due = false ∨ l.expired = true → exec (.lockWatchdog g st) s = .next s) ∧
      (due s l.due = true → l.expired = false →
        (c.state ≠ .waiting → c.state ≠ .translating → Does (.lockWatchdog g st) [.ctxs, .locks] s fun t =>
          CtxIs cx { c with lockHold := some st } s t ∧ lockOf t g st = some { l with expired := true }) ∧
        (c.state = .waiting ∨ c.state = .translating → Does (.lockWatchdog g st) [.ctxs, .locks, .seqCtr] s fun t =>
          Woken cx { c with lockHold := some st } s t ∧
          lockOf t g st = some { l with expired := true, waiters := l.waiters.filter (· != cx) })) ∧
      ((s.locks.filter fun l => l.expired) = [l] → recOf s cx g st = none →
        (∀ w ws, l.waiters = w :: ws → lockOf (passExpired s) g st =
          some { l with holder := some w, waiters := ws, due := after s Config.lockWatchdog, deferred := false,
                        expired := false }) ∧
        (l.waiters = [] → (∀ p ∈ s.ctxs, ∀ a b, p.2.wait ≠ .lock a b) → lockOf (passExpired s) g st = none)))

/-- Events of the journal (R300, R305, R306, R337): an orphan record whose writes have ended is replayed: with a
member that takes its entry, the write goes out through the interlocking and the record waits for its end; with no
member to write, the record is retired at once; a JRETIRE that waited for lower steps retires its record with result
0; a mirror triple that has lost a member gets a new epoch on the next triple. It says that ORPHAN_RECORD_REPLAY,
JRETIRE_WM_RELEASE and MIRROR_REHOME complete. -/
def Obligations.JournalEvents : Prop :=
  ∀ (s : State),
    (∀ g st i r gr, orphanOf s g st = some (i, r) → s.journal.recs.find i = some r → r.replaying = false →
      (∀ e ∈ r.entries, e.writing = 0) → s.vlt.pfail = false → Tab.sorted s.journal.recs = true → s.groups.find g = some gr →
      ((∀ p ∈ s.journal.recs, p.2.replaying = false) → (∀ e ∈ r.entries, takesReplay s gr e.index = false) →
        Runs (.orphanRecordReplay g st) s fun t => t.journal.recs.find i = none ∧
          ∀ k, k ≠ i → t.journal.recs.find k = s.journal.recs.find k) ∧
      (∀ e, r.entries = [e] → Replayable s gr r e → (∀ p ∈ s.journal.recs, p.2.replaying = false) →
        Runs (.orphanRecordReplay g st) s (ReplayBegun i r gr e s))) ∧
    (∀ cx c g st wm d i r, s.ctxs.find cx = some c → c.wait = .retire g st wm d → recOf s cx g st = some (i, r) →
      r.sealed = true → (∀ e ∈ r.entries, e.writing = 0) →
      (∀ index row, wm = some (index, row) → lowerStep s cx g index row = false) → (∀ l ∈ s.locks, cx ∉ l.waiters) →
      Tab.sorted s.journal.recs = true →
      Runs (.jretireWmRelease cx) s fun t => t.journal.recs.find i = none ∧
        ∃ y, t.ctxs.find cx = some y ∧ y.state = .ready ∧ y.wait = .nothing ∧ y.pc = c.pc + 1 ∧
          (Tab.sorted c.g = true → d ≠ 0 → greg y d = 0)) ∧
    (∀ g gr, s.groups.find g = some gr → tripleDegraded s gr = true → s.mbx.unattended = false →
      Does (.mirrorRehome g) [.adm, .groups, .errLog, .errSeq, .out] s fun t =>
        (∃ ports a b, t.out.head? = some (.mirrorHeader g (gr.epoch + 1) false ports a b)) ∧ t.errSeq = s.errSeq + 1 ∧
        t.errLog.head?.map LogEnt.code = some 0x0A20#16 ∧
        ∃ y, t.groups.find g = some y ∧ y.epoch = gr.epoch + 1 ∧ y.triple = nextTriple s gr ∧ y.clean = false ∧
          y.hdrSeq = gr.hdrSeq + 1 ∧ ∀ k, k ≠ g → t.groups.find k = s.groups.find k)

/-- Power and reset (R90, R460 to R466, R469, R502): a long DEV_RST_N pulse returns the part to Off, empties every
switched unit and keeps the non-volatile stores, a glitch does nothing; its rise lays out the host ports by the
straps and starts the rail sequence, which goes up one rail at a time and down in the reverse order; a late
power-good is a supply fault; with every rail up the device is Starting, unless TEST_EN is high (R497); the loss of a
core or HBM rail returns it to Off, as a VAUX brownout does. It says that DEV_RST_ASSERT, DEV_RST_DEASSERT,
RAIL_ENABLE_STEP, SUPPLY_FAULT_TIMEOUT, POWER_GOOD_FALL, VAUX_BELOW_INHIBIT, VAUX_INHIBIT_CLEAR, VAUX_BROWNOUT,
VAUX_RELEASE and POWER_SEQUENCE_COMPLETE complete. -/
def Obligations.PowerAndReset : Prop :=
  ∀ (s : State),
    let off : State → Prop := fun t =>
      t.pwr.devState = .off ∧ t.ports = [] ∧ t.funcs = [] ∧ t.ctxs = [] ∧ t.cache = {} ∧ t.journal = {} ∧ t.groups = [] ∧
      t.mports = [] ∧ t.vlt = {} ∧ t.adm = {} ∧ t.tt = {} ∧ t.pwr.tags = s.pwr.tags ∧ t.pwr.otp = s.pwr.otp ∧
      t.pwr.slotA = s.pwr.slotA ∧ t.pwr.slotB = s.pwr.slotB
    let widths : BitVec 2 → List Nat := fun v =>
      if v = 0 then [16] else if v = 1 then [8, 8] else if v = 2 then [4, 4, 4, 4] else []
    let laidOut : BitVec 2 → BitVec 2 → State → Prop := fun a b t => ∀ g < 2, ∀ k < 4,
      let w := (widths (if g = 0 then a else b))[k]?
      t.ports.find (4 * g + k) = w.map (fun w => { widthMax := w }) ∧
        t.funcs.find (64 * (4 * g + k)) = w.map fun _ => { exists_ := true }
    (∀ ticks, 250 ≤ ticks → Runs (.devRstAssert ticks) s fun t => off t ∧ t.pwr.devRstHigh = false ∧
      (s.pwr.devState ≠ .off → t.pwr.rstCause = BitVec.ofNat 32 (2 + s.pwr.heldCode.toNat * 2 ^ 8))) ∧
    (∀ ticks, ticks ≤ 25 → Does (.devRstAssert ticks) [.freeCtr] s fun _ => True) ∧
    (∀ ticks, Runs (.devRstAssert ticks) s fun t =>
      (off t ∧ t.pwr.devRstHigh = false) ∨ t = { s with freeCtr := s.freeCtr + 1 }) ∧
    (∀ g0 g1 m rel te, s.pwr.devRstHigh = true ∨ s.pwr.devState ≠ .off → exec (.devRstDeassert g0 g1 m ⟨rel, te⟩) s = .next s) ∧
    (∀ g0 g1 m rel te, s.pwr.devRstHigh = false → s.pwr.devState = .off →
      ∃ a b z, (∀ v, g0 = some v → a = v) ∧ (∀ v, g1 = some v → b = v) ∧ (∀ v, m = some v → z = v) ∧
      let c := Instr.devRstDeassert g0 g1 m ⟨rel, te⟩
      let p : Power := { s.pwr with devRstHigh := true, strapG0 := a, strapG1 := b, mgmtI3c := z, vltRelLow := !rel, testEn := te }
      (s.pwr.vauxOk = true → te = false → Runs c s fun t => laidOut a b t ∧
        t.pwr = { p with seqDir := some true, supplyLock := false }) ∧
      (s.pwr.vauxOk = false ∨ te = true → Does c [.pwr, .freeCtr] s fun t => t.pwr = p)) ∧
    (s.pwr.seqDir = none → exec .railEnableStep s = .next s) ∧
    (∀ i < 9, s.pwr.railEn.getLsbD i = false → (∀ k < i, s.pwr.railEn.getLsbD k = true) → s.pwr.seqDir = some true →
      Does (.railEnableStep) [.pwr, .out] s fun t => t.out = .rail i true :: s.out ∧ t.pwr.seqDir = some true ∧
        ∀ k < 9, t.pwr.railEn.getLsbD k = (s.pwr.railEn.getLsbD k || k == i)) ∧
    (∀ i < 9, s.pwr.railEn.getLsbD i = true → (∀ k < 9, i < k → s.pwr.railEn.getLsbD k = false) →
      s.pwr.seqDir = some false → Does (.railEnableStep) [.pwr, .out] s fun t => t.out = .rail i false :: s.out ∧
        (∀ k < 9, t.pwr.railEn.getLsbD k = (s.pwr.railEn.getLsbD k && k != i)) ∧
        t.pwr.seqDir = if i = 0 then none else some false) ∧
    (∀ rail < 9, s.pwr.seqDir = some true → s.pwr.railEn.getLsbD rail = true → s.pwr.railPg.getLsbD rail = false →
      Does (.supplyFaultTimeout rail) [.pwr] s fun t => t.pwr.supplyLock = true ∧ t.pwr.seqDir = some false ∧
        t.pwr.rstCause.getLsbD 3 = true ∧ (t.pwr.rstCause.extractLsb' 4 4).toNat = rail) ∧
    (s.pwr.seqDir = some true → s.pwr.railEn = 0x1FF#9 → s.pwr.devState = .off →
      (s.pwr.testEn = false → Does (.powerSequenceComplete) [.pwr, .tt, .rb, .out] s fun t => t.pwr.devState = .starting ∧
        t.pwr.seqDir = none ∧ t.pwr.railPg = 0x1FF#9 ∧ t.pwr.crsDue = tsAdd s.tt.kActive (now s) (20 * 2 ^ s.tt.kActive) ∧
        t.tt = { s.tt with running := true, ttcHigh := s.tt.outEn } ∧ t.rb.changed = true) ∧
      (s.pwr.testEn = true → Does (.powerSequenceComplete) [.pwr, .tt, .out] s fun t => t.pwr.devState = .off)) ∧
    (∀ rail ∈ [1, 2, 6, 7, 8], s.pwr.seqDir = none → s.pwr.devState ≠ .off → s.pwr.railEn.getLsbD rail = true →
      Runs (.powerGoodFall rail) s fun t => off t ∧ t.pwr.supplyLock = true ∧ t.pwr.seqDir = some false ∧
        t.pwr.rstCause.getLsbD 3 = true ∧ (t.pwr.rstCause.extractLsb' 4 4).toNat = rail) ∧
    (∀ mv, Does (.vauxBelowInhibit mv) [.pwr] s fun t =>
      t.pwr = { s.pwr with vauxMv := mv, nvInhibit := s.pwr.nvInhibit || decide (mv.toNat < 1650) }) ∧
    (∀ mv, Does (.vauxInhibitClear mv) [.pwr] s fun t =>
      t.pwr = { s.pwr with vauxMv := mv, nvInhibit := s.pwr.nvInhibit && decide (mv.toNat ≤ 1680) }) ∧
    (∀ mv, mv.toNat < 1550 → Runs (.vauxBrownout mv) s fun t => off t ∧ t.pwr.railEn = 0 ∧ t.pwr.vauxOk = false ∧
      t.pwr.nvInhibit = true ∧ t.pwr.rstCause = BitVec.ofNat 32 (4 + s.pwr.heldCode.toNat * 2 ^ 8)) ∧
    (∀ mv, s.pwr.vauxOk = false → 1600 < mv.toNat → Runs (.vauxRelease mv) s fun t => t.pwr.vauxOk = true ∧
      t.pwr.vauxMv = mv ∧ t.pwr.rstCause = s.pwr.rstCause ||| 1#32 ∧
      if s.pwr.devRstHigh = true ∧ s.pwr.testEn = false then
        laidOut s.pwr.strapG0 s.pwr.strapG1 t ∧ t.pwr.seqDir = some true
      else t.ports = s.ports ∧ t.funcs = s.funcs ∧ t.pwr.seqDir = s.pwr.seqDir)

/-- Start-up (R324, R350, R355, R465, R468, R481 to R484): self-test steps run in order and a failure enters Held
with the step's code; the boot ROM runs the preferred slot it accepts, else the other, else Held; no first heartbeat
in time is Held; the vault check takes in the images; the rate is that of the slower SSD of a mirrored vault; the end
of start-up enters Ready, sets the fare origin and blows the fuses. It says that SELF_TEST_STEP_DONE, BOOT_LOAD,
FW_START_TIMEOUT, VAULT_CHECK, VAULT_RATE_MEASURE and ENTER_READY complete. -/
def Obligations.StartUp : Prop :=
  ∀ (s : State),
    let held : Nat → Nat → State → Prop := fun code detail t => t.pwr.devState = .held ∧
      t.pwr.heldCode = BitVec.ofNat 8 code ∧ t.pwr.heldDetail = BitVec.ofNat 32 detail
    TestHeld s →
    (s.pwr.devState = .starting →
      (∀ n, n = s.pwr.selfTestStep + 1 → n < 8 → (n = 4 ∨ n = 5 → s.pwr.fwStarted = true) →
        Does (.selfTestStepDone n none) [.pwr] s (fun t =>
          t.pwr = { s.pwr with selfTestStep := n, hbmTrained := s.pwr.hbmTrained || n == 2 }) ∧
        ∀ d : BitVec 32, Runs (.selfTestStepDone n (some d)) s fun t =>
          held ([0x10, 0x20, 0x21, 0x30, 0x31, 0x40, 0x50].getD (n - 1) 0) d.toNat t) ∧
      (s.pwr.fwStarted = false → s.pwr.selfTestStep ≠ 0 → ∀ (a b : SlotImage) (preferB : Bool),
        let good : SlotImage → Prop := fun x => x.readOk = true ∧ x.magicOk = true ∧ x.sigOk = true ∧ s.pwr.otp ≤ x.svn
        let first := if preferB then b else a
        let second := if preferB then a else b
        let runs : SlotImage → Bool → State → Prop := fun x slotB t => t.pwr.devState = .starting ∧ t.pwr.fwStarted = true ∧
          t.pwr.bootSlotB = slotB ∧ t.pwr.bootSvn = BitVec.ofNat 8 x.svn ∧
          t.pwr.fwDue = after s (3000 * 2 ^ s.tt.kActive) ∧
          t.progs.loaded = [(0, libraryProgram 0 x), (1, libraryProgram 1 x)]
        (good first → first.libraryRefused = 0 → Runs (.bootLoad a b preferB true) s (runs first preferB)) ∧
        (¬good first → good second → second.libraryRefused = 0 → Runs (.bootLoad a b preferB true) s fun t =>
          runs second (!preferB) t ∧ t.pwr.bootFallback = true ∧ t.errLog.head?.map LogEnt.code = some 0x0E10#16) ∧
        (¬good a → ¬good b → Runs (.bootLoad a b preferB true) s fun t => t.pwr.devState = .held ∧ t.pwr.heldCode = 0x11#8) ∧
        Runs (.bootLoad a b preferB false) s (held 0x60 0)) ∧
      (s.pwr.fwStarted = true → s.pwr.fwBeat = false → due s s.pwr.fwDue = true → Runs (.fwStartTimeout) s (held 0x13 0)) ∧
      (s.pwr.vaultChecked = false → s.pwr.selfTestStep = 7 → ∀ ok0 ok1,
        Runs (.vaultCheck ok0 ok1 []) s (fun t => t.pwr.vaultChecked = true ∧ t.vlt = { s.vlt with ok0 := ok0, ok1 := ok1 }) ∧
        ∀ f : ImageFound, f.headerOk = true → f.snapshotOk = true → f.released = false →
          Runs (.vaultCheck ok0 ok1 [f]) s fun t => (if f.areaB then t.vlt.areaB else t.vlt.areaA) =
            { sealed := true, seq := f.seq, usable := true, overLimit := f.overLimit, groupIds := f.groupIds }) ∧
      (s.pwr.vaultChecked = true → ∀ n0 n1, s.vlt.ok0 = true → s.vlt.ok1 = true → 0 < n0 → 0 < n1 →
        Does (.vaultRateMeasure n0 n1) [.vlt] s fun t => t.vlt = { s.vlt with
          ns0 := n0, ns1 := n1,
          rate := BitVec.ofNat 32 (2 ^ 31 * 1000 / (if s.vlt.striped then max n0 n1 else 2 * max n0 n1)) })) ∧
    (readyNow s = true → Runs (.enterReady) s fun t => t.pwr.devState = .ready ∧ t.fare.originTs = now s ∧
      t.fare.running = true ∧ t.rb.changed = true ∧
      t.pwr.otp = if s.pwr.nvInhibit then s.pwr.otp else max s.pwr.otp (min 64 s.pwr.bootSvn.toNat))

/-- Recovery (R340, R351, R353, R354, R394): the labels of a group not yet held assemble it; a repair marks the open
stripes and, unless the group was clean, starts a scrub of all of it; an image is restored once, its blocks as dirty
ones; records are replayed, by a write to the member that takes the entry, or at once where none does; a restored
image is released in order. It says that GROUP_ASSEMBLY, IMAGE_RESTORE, JOURNAL_REPLAY, IMAGE_RELEASE and
GROUP_REPAIR complete. -/
def Obligations.Recovery : Prop :=
  ∀ (s : State),
    (∀ l, s.pwr.devState = .ready → labelPool s = [l] → s.groups = [] → l.mstate = 0 → Tab.sorted s.mports = true →
      (labelHistory l).any (fun e => e.2.index == l.index) = false →
      Runs (.groupAssembly []) s fun t => t.errLog.head?.map LogEnt.code = some 0x0B30#16 ∧
        (∃ g, t.groups.find l.group = some g ∧ g.groupId = l.groupId ∧ g.n = l.n ∧ g.w = l.w ∧ g.layout = l.layout ∧
          g.rows = l.rows ∧ g.members.find l.index = some l.port ∧ g.assembly ≠ .none) ∧
        ∃ p q, s.mports.find l.port = some p ∧ t.mports.find l.port = some q ∧
          q = { p with group := some l.group, index := l.index, state := 2 }) ∧
    (∀ g gr open_, s.groups.find g = some gr → gr.assembly = .repairing ∨ gr.assembly = .assembled →
      Runs (.groupRepair g open_) s fun t => ∃ y, t.groups.find g = some y ∧ y.assembly = .assembled ∧ y.adopter = none ∧
        (∀ st ∈ open_, st ∈ y.resync) ∧ (gr.clean = false → y.scrubbing = true ∧ y.repairScrub = true ∧ y.scrubNext = 0 ∧ y.scrubAt = some (now s))) ∧
    (∀ seq b a records blocks maps, areaOf s seq = some (b, a) → s.pwr.devState = .recovering → a.restored = false →
      lowerImages s seq (fun x => x.restored) = true →
      Runs (.imageRestore seq records blocks maps) s fun t =>
        (if b then t.vlt.areaB else t.vlt.areaA) = { a with restored := true, errorsDone := true } ∧ t.rb.changed = true ∧
        ∀ x fr, records = [] → blocks = [x] → x.restored = true → mapped s x.vol x.lba = none → takeFrame s = some fr →
          a.overLimit = false → ∃ f, t.cache.frames.find fr = some f ∧ f.key = some (x.vol, x.lba) ∧ f.dirty = true ∧
            f.prot = true ∧ f.data = x.data ∧ f.pi = x.pi ∧ f.poison = x.poison) ∧
    (∀ i r gr, s.pwr.devState = .recovering ∨ s.pwr.devState = .ready → s.vlt.pfail = false → replayable s = [(i, r)] →
      Tab.sorted s.journal.recs = true → s.groups.find r.group = some gr → (∀ p ∈ s.journal.recs, p.2.replaying = false) →
      (∀ e ∈ r.entries, e.writing = 0) →
      ((∀ e ∈ r.entries, takesReplay s gr e.index = false) → Runs (.journalReplay) s fun t =>
        t.journal.recs.find i = none ∧ ∀ k, k ≠ i → t.journal.recs.find k = s.journal.recs.find k) ∧
      (∀ e, r.entries = [e] → Replayable s gr r e → Runs (.journalReplay) s (ReplayBegun i r gr e s))) ∧
    (∀ seq b a, areaOf s seq = some (b, a) → a.restored = true → a.errorsDone = true → a.released = false →
      s.vlt.pfail = false → lowerImages s seq (fun x => x.released) = true →
      Does (.imageRelease seq) [.vlt, .out] s fun t => t.out = .vaultReleased seq :: s.out ∧
        (if b then t.vlt.areaB else t.vlt.areaA) = { a with released := true, sealed := false } ∧
        (if b then t.vlt.areaA else t.vlt.areaB) = if b then s.vlt.areaA else s.vlt.areaB)

/-- The energy ledger and the patrol (R320, R322 to R325): a measurement that may start draws HU_ITEST for
VLT_HU_TIME; one that the board does not allow, or that finds too small a drop, leaves LEDGER_ERR and a budget of 0;
its end gives C and the budget of R323; a parameter or an SSD that changes gives a new budget; a corrected line is
counted, and an uncorrectable one is zeroed and poisoned in a dirty frame and retires an unpinned clean one. It says
that VAULT_SSD_CHANGE, REMEASURE_DUE, PATROL_READ, VLT_MEASURE, HU_TEST_END and VLT_LEDGER_PARAM_WRITE complete. -/
def Obligations.EnergyLedger : Prop :=
  ∀ (s : State),
    let budget : State → Prop := fun t => t.vlt.budget = budgetBytes s.tt.nomActive.toNat s.tt.kActive t.vlt
    let starts : Instr → Nat → Prop := fun c v => Does c [.vlt, .out] s fun t => t.out = .huTest true :: s.out ∧
      t.vlt = { s.vlt with vStart := BitVec.ofNat 17 v, huNow := BitVec.ofNat 17 v, measuring := true,
                           huDue := after s s.vlt.huTime.toNat, huLen := s.vlt.huTime.toNat }
    let fails : Instr → Nat → Prop := fun c code => Runs c s fun t => t.vlt.ledgerErr = true ∧
      t.vlt.ledgerCode = BitVec.ofNat 4 code ∧ t.vlt.measuring = false ∧ t.vlt.budget = 0
    let board := s.vlt.huItest ≠ 0 ∧ s.vlt.huDiv ≠ 0 ∧ s.vlt.pDump ≠ 0
    (∀ v, measureOk s = true → s.vlt.measuring = false →
      (board → s.vlt.vCut.toNat < v → s.vlt.ok0 = true ∨ s.vlt.ok1 = true → starts (.vltMeasure v) v ∧
        (s.pwr.devState ≠ .starting → s.vlt.remeasure ≠ 0 → s.tt.slot = 0 →
          s.tt.cycle.toNat % s.vlt.remeasure.toNat = 0 →
          starts (.remeasureDue v) v)) ∧
      (¬board → fails (.vltMeasure v) 1) ∧ (board → v ≤ s.vlt.vCut.toNat → fails (.vltMeasure v) 2) ∧
      (board → s.vlt.vCut.toNat < v → s.vlt.ok0 = false → s.vlt.ok1 = false → fails (.vltMeasure v) 5)) ∧
    (∀ e, s.vlt.measuring = true → due s s.vlt.huDue = true →
      (s.vlt.vStart.toNat < e + 250 → fails (.huTestEnd e) 3) ∧
      (e + 250 ≤ s.vlt.vStart.toNat → s.vlt.ok0 = true ∨ s.vlt.ok1 = true → Runs (.huTestEnd e) s fun t => budget t ∧
        t.vlt.measuring = false ∧ t.vlt.ledgerValid = true ∧ t.vlt.ledgerErr = false ∧ t.vlt.huNow = BitVec.ofNat 17 e ∧
        t.vlt.cMeas = BitVec.ofNat 32 (s.vlt.huItest.toNat * s.vlt.huLen * s.tt.nomActive.toNat /
          (2 ^ s.tt.kActive * (s.vlt.vStart.toNat - e) * 1000)))) ∧
    (∀ value : BitVec 32,
      Runs (.vltLedgerParamWrite true value) s (fun t => budget t ∧ t.vlt.pDump = value.truncate 24 ∧
        t.vlt.vCut = s.vlt.vCut) ∧
      Runs (.vltLedgerParamWrite false value) s fun t => budget t ∧ t.vlt.vCut = value.truncate 17 ∧
        t.vlt.pDump = s.vlt.pDump) ∧
    (s.pwr.vaultChecked = true → s.vlt.pfail = false → ∀ n0 n1,
      (s.vlt.ok1 = false → fails (.vaultSsdChange 0 false n0 n1) 5) ∧
      Runs (.vaultSsdChange 0 true n0 n1) s (fun t => budget t ∧ t.vlt.ok0 = true ∧ t.vlt.ok1 = s.vlt.ok1 ∧ t.vlt.ns0 = n0) ∧
      Runs (.vaultSsdChange 1 true n0 n1) s fun t => budget t ∧ t.vlt.ok1 = true ∧ t.vlt.ok0 = s.vlt.ok0 ∧ t.vlt.ns1 = n1) ∧
    (∀ fr line, fr < Config.frames → line < 64 → s.vlt.patrolEn = true → s.vlt.patrol ≠ 0 → onW0 s = true →
      exec (.patrolRead fr line .clean) s = .next s ∧
      Does (.patrolRead fr line .single) [.vlt, .fresh] s (fun t => t.vlt = { s.vlt with eccCe := satInc s.vlt.eccCe }) ∧
      ∀ f, s.cache.frames.find fr = some f → f.retired = false → sealedOf s fr = none →
        (∀ v l, f.dirty = true → f.key = some (v, l) → f.data.wf = true → Runs (.patrolRead fr line .double) s fun t =>
          Logged 0x0A01#16 (fr + line * 2 ^ 32) s t ∧ t.vlt.eccUe = satInc s.vlt.eccUe ∧ t.defSeq = s.defSeq + 1 ∧
          ∃ y, t.cache.frames.find fr = some y ∧ y.poison = true ∧ y.uncorr = true ∧ y.key = f.key ∧ y.dirty = true ∧
            ∀ j, y.data.read j = if 64 * line ≤ j ∧ j < 64 * line + 64 then 0 else f.data.read j) ∧
        (f.dirty = false → f.pins = 0 → Runs (.patrolRead fr line .double) s fun t =>
          t.cache.frames.find fr = some { retired := true } ∧ t.cache.retired = s.cache.retired + 1))

/-- Power failure (R30, R345 to R348, R463, R507): its qualification in Ready stops every context, read and lock,
leaves the directory and the journal as they are, seals an area and begins the dump; the sections follow one another,
the data sections only after the member commands are abandoned; at V_cut the dump ends with a Flush; the end drives
VAULT_DONE_N, which goes low in slot q + 1 of a qualification before the vault check or in Held (R349) while the timetable runs (at once
while it stands: log entry 72); a thermal trip, a lost reference clock and a lost VIO or SerDes rail count as a power failure. It says
that PFAIL_QUALIFY, MEMBER_ABANDON, DUMP_WRITE_COMPLETION, V_CUT_DETECT, THERMAL_TRIP and REFCLK_LOSS complete. -/
def Obligations.PowerFailure : Prop :=
  ∀ (s : State),
    let begun : Bool → State → Prop := fun b t => t.pwr.devState = .vaulting ∧ t.vlt.pfail = true ∧ t.vlt.dumping = true ∧
      t.ctxs = [] ∧ t.reads = [] ∧ t.locks = [] ∧ t.cache = s.cache ∧ t.journal = s.journal ∧
      (if b then t.vlt.areaB else t.vlt.areaA) =
        { sealed := true, seq := s.vlt.imgSeq + 1, inProgress := true, groupIds := s.groups.map fun g => g.2.groupId } ∧
      VaultWrites b .header s t.out.tail t
    let none_ : State → Prop := fun t => t.pwr.devState = .vaulted ∧ t.vlt.pfail = true ∧ t.pwr.vaultDoneLow = true ∧
      t.out.head? = some (.vaultDone true)
    let soon : State → Prop := fun t => t.vlt.pfail = true ∧
      if s.tt.running then t.vlt.doneNext = true ∧ t.out = s.out
      else t.pwr.vaultDoneLow = true ∧ t.out = .vaultDone true :: s.out
    TestHeld s →
    (s.pwr.devState = .ready ∧ 3 ≤ s.pwr.rung → Runs (.pfailQualify) s none_) ∧
    (s.pwr.devState = .starting → s.pwr.vaultChecked = false → Runs (.pfailQualify) s fun t => t.pwr.devState = .vaulted ∧
      soon t) ∧
    (s.vlt.doneNext = true → s.tt.running = true → s.tt.slot + 1 < slotsOf s.tt.kActive → s.pending = [] →
      ∃ t, step s = .next t ∧ t.pwr.vaultDoneLow = true ∧ t.vlt.doneNext = false ∧ t.out.head? = some (.vaultDone true)) ∧
    (∀ b, s.pwr.devState = .ready ∧ s.pwr.rung = 0 ∨ s.pwr.devState = .recovering ∨
        s.pwr.devState = .starting ∧ s.pwr.vaultChecked = true → dumpArea s = some b →
      Runs (.pfailQualify) s (begun b) ∧
      Runs (.refclkLoss) s (fun t => begun b t ∧ t.pwr.refclk = false ∧ t.tt.running = false) ∧
      (∀ rail ∈ [0, 3, 4, 5], s.pwr.seqDir = none → s.pwr.railEn.getLsbD rail = true →
        Runs (.powerGoodFall rail) s fun t => begun b t ∧ t.pwr.railPg.getLsbD rail = false) ∧
      ∀ sensor (reading : BitVec 16), sensor < 12 → reading.msb = false →
        (920 ≤ reading.toNat → Runs (.thermalTrip sensor reading) s fun t => begun b t ∧ t.pwr.thermtripLow = true ∧
          (s.pwr.thermtripLow = false → Out.thermtrip true ∈ t.out)) ∧
        (reading.toNat < 920 → Does (.thermalTrip sensor reading) [.pwr] s fun t =>
          t.pwr = { s.pwr with temps := s.pwr.temps.put sensor reading })) ∧
    (s.pwr.devState = .held → s.vlt.pfail = false → Runs (.pfailQualify) s fun t => t.pwr.devState = .held ∧ soon t) ∧
    (∀ d, s.vlt.dump = some d → s.pwr.devState = .vaulting → d.writes = true →
      (d.abandoned = false → due s (tsAdd s.tt.kActive d.q 131072) = true → Runs (.memberAbandon) s fun t =>
        t.vlt.dump = some { d with abandoned := true, held := d.held && !(d.step == .maps) } ∧
        (d.held = true → d.step = .maps → VaultWrites d.areaB .maps s t.out.tail t) ∧
        ∀ p q, s.mports.find p = some q → t.mports.find p = some { q with cmds := [] }) ∧
      (d.held = false →
        (d.step = .header → Runs (.dumpWriteCompletion) s fun t =>
          t.vlt.dump = some { d with step := .journal } ∧ VaultWrites d.areaB .journal s s.out t) ∧
        (d.step = .index → Runs (.dumpWriteCompletion) s fun t =>
          t.vlt.dump = some { d with step := .maps, held := !d.abandoned } ∧
          if d.abandoned then VaultWrites d.areaB .maps s s.out t else t.out = s.out) ∧
        (d.step = .final → Runs (.dumpWriteCompletion) s fun t => t.vlt.dump = some { d with step := .flush } ∧
          VaultWrites d.areaB .flush s s.out t ∧
          (if d.areaB then t.vlt.areaB.complete else t.vlt.areaA.complete) = true) ∧
        (d.step = .flush → Runs (.dumpWriteCompletion) s fun t => t.pwr.devState = .vaulted ∧
          t.pwr.vaultDoneLow = true ∧ t.vlt.dumpDone = true ∧ t.out = .vaultDone true :: s.out)) ∧
      (∀ mv, s.vlt.vcut = false → mv < s.vlt.vCut.toNat → Runs (.vCutDetect mv) s fun t => t.vlt.vcut = true ∧
        t.vlt.dump = some { d with step := .flush, held := false } ∧ VaultWrites d.areaB .flush s s.out t))

/-- The power ladder (R28, R34, R42, R129, R202 to R205, R471 to R476): an entry that may start prepares its rung (on
W2 the push-queue memory is copied and the lock table and the translations are dropped) and reaches it at its commit
slot, where the waiting SET_POWER completes in the same slot, before the links go to L1; a target that has become
shallower abandons it; a wake that its rung takes starts the exit, whose point returns the part to W0 and restarts
the stopped timetable of W3 and W4; the restore ends the layup, or starts the firmware again when the image differs.
It says that RUNG_ENTRY_START, RUNG_COMMIT, RUNG_WAKE, RUNG_EXIT_POINT, LAYUP_RESTORE_END and GELBEL_WAKE complete. -/
def Obligations.PowerLadder : Prop :=
  ∀ (s : State),
    let pushBecomes : (Sq → Sq) → State → Prop := fun h t => ∀ f fn slot q, s.funcs.find f = some fn → fn.sqs.find slot = some q →
      ∃ b, t.funcs.find f = some b ∧ b.sqs.find slot = some (if q.push then h q else q)
    let restored : State → Prop := pushBecomes fun q => { q with entries := q.copy.getD q.entries, copy := none }
    let ltr : Nat → State → Prop := fun ns t => ∀ p h pf, s.ports.find p = some h → h.linkUp = true →
      s.funcs.find (64 * p) = some pf → pf.exists_ = true → pf.d3 = false → Out.ltr p ns ∈ t.out
    (entryOk s (targetRung s) = false → exec .rungEntryStart s = .next s) ∧
    (entryOk s (targetRung s) = true →
      let y := { s.pwr with entry := some (targetRung s), entryStart := now s, busySeen := false,
                            entryDue := after s (if targetRung s = 1 then 656 else 3277) }
      (targetRung s = 1 → Does (.rungEntryStart) [.pwr, .out] s fun t => t.pwr = y ∧ ltr 10000 t) ∧
      (targetRung s = 2 → Does (.rungEntryStart) [.pwr, .funcs, .locks, .xlate, .out] s fun t => t.pwr = y ∧ ltr 100000 t ∧
        t.xlate.ats = [] ∧ t.locks = [] ∧ pushBecomes (fun q => { q with copy := some q.entries }) t) ∧
      (3 ≤ targetRung s → Does (.rungEntryStart) [.pwr] s fun t => t.pwr.entry = some (targetRung s))) ∧
    (s.pwr.entry = none → exec .rungCommit s = .next s) ∧
    (∀ r, s.pwr.entry = some r → (prepared s r = false → exec .rungCommit s = .next s) ∧ (prepared s r = true →
      (targetRung s < r → Runs (.rungCommit) s fun t => t.pwr.entry = none ∧ restored t ∧ t.tt = s.tt ∧ t.cache = s.cache ∧
        t.pwr.rung = s.pwr.rung ∧ t.pwr.cntAbandon = satInc s.pwr.cntAbandon ∧ Logged 0x0E02#16 (r + 0xFFFF * 2 ^ 8) s t) ∧
      (r ≤ targetRung s → Runs (.rungCommit) s fun t => t.pwr.entry = none ∧ t.pwr.rung = r ∧
        t.pwr.cntEntry = satInc s.pwr.cntEntry ∧ (targetRung s = r → t.pwr.setWaiters = []) ∧
        (t.errLog.head?.map LogEnt.code) = some 0x0E01#16 ∧
        ((∀ f ∈ s.funcs, ∀ q ∈ f.2.cqs, q.2.ready = []) →
          (s.pwr.setWaiters = [] → t.out.head? = some (.linkL1 r)) ∧
          ∀ a fn q k, s.pwr.setWaiters = [a] → targetRung s = r → a.port < 8 → fnOf s (64 * a.port) = some fn →
            fn.sqs.find 0 = some q → fn.cqs.find q.cqSlot = some k → upstreamOk s fn = true → k.hasRoom = true → q.ci < 2 ^ 32 →
            t.out.head? = some (.linkL1 r) ∧ ∃ e, Out.cqe (64 * a.port) q.cqSlot (k.pi % k.size) e ∈ t.out ∧
              e.extractLsb' 0 16 = eCid a.entry ∧ e.extractLsb' 16 8 = 0) ∧
        (r < 3 → t.pwr.railEn = s.pwr.railEn ∧ t.tt = s.tt ∧ t.cache = s.cache) ∧
        (3 ≤ r → t.pwr.railEn = (if r = 3 then 0x03B#9 else 0#9) ∧
          t.tt = { s.tt with running := false, ttcHigh := false } ∧
          (s.pwr.rung < 3 → t.locks = [] ∧ t.xlate.ats = [] ∧ Out.layupImage ∈ t.out) ∧ t.pwr.layupDigest = true)))) ∧
    (s.pwr.devState = .ready → s.pwr.entry = none → s.pwr.exiting = false →
      let woken : State → Prop := fun t => t.pwr.exiting = true ∧ t.pwr.wakeTs = now s ∧ t.pwr.rung = s.pwr.rung
      (s.pwr.rung = 1 ∨ s.pwr.rung = 2 → ∀ e, Runs (.rungWake e) s woken) ∧
      (3 ≤ s.pwr.rung → (∀ p, Runs (.rungWake (.hperst p)) s woken) ∧ Runs (.rungWake .gelbel) s woken ∧
        exec (.rungWake .hostAccess) s = .next s) ∧
      (s.pwr.rung = 3 → Runs (.rungWake .pfD0) s woken ∧ Runs (.rungWake .member) s fun t => t.pwr.exiting = false) ∧
      (4 ≤ s.pwr.rung → exec (.rungWake .pfD0) s = .next s ∧ exec (.rungWake .member) s = .next s) ∧
      (0 < s.pwr.rung → ∀ tag, Runs (.gelbelWake { tag := tag, body := [] }) s fun t => woken t ∧
        Out.gelbel 0x89#8 tag 0 [] ∈ t.out)) ∧
    (s.pwr.devState ≠ .ready → ∀ e, exec (.rungWake e) s = .next s) ∧
    (∀ a b, s.pwr.exiting = false → exec (.rungExitPoint a b) s = .next s) ∧
    (s.pwr.exiting = true →
      (s.pwr.rung < 3 → (∀ d, s.vlt.dump = some d → d.held = false) → ∀ a b, Runs (.rungExitPoint a b) s fun t =>
        t.pwr = { s.pwr with rung := 0, exiting := false, exitLast := BitVec.ofNat 32 (since s s.pwr.wakeTs), idle := 0 } ∧
        t.tt = s.tt ∧ t.vlt = s.vlt ∧ restored t ∧ ltr (ltrNs s 0) t) ∧
      (3 ≤ s.pwr.rung → s.pwr.devState = .ready → ∀ a b, Runs (.rungExitPoint a b) s fun t =>
        t.pwr.rung = 0 ∧ t.pwr.exiting = false ∧ t.pwr.restoring = true ∧ t.pwr.railEn = 0x1FF#9 ∧
        t.pwr.exitLast = BitVec.ofNat 32 a ∧ t.tt.running = true ∧ t.tt.slot = 0 ∧
        t.tt.cycle = s.tt.cycle + BitVec.ofNat 44 b ∧ t.tt.cntEst = true ∧ t.tt.lock = .free ∧ t.tt.slewing = false ∧
        t.tt.lastEdge = none ∧ t.tt.runPeriods = [] ∧ t.tt.missed = 0 ∧ t.tt.ttFree = true ∧
        (s.tt.outEn = true → Out.ttcOut true ∈ t.out) ∧ ltr (ltrNs s 0) t)) ∧
    (s.pwr.restoring = true → s.pwr.devState = .ready → TestHeld s → ∀ ticks,
      ((∀ p ∈ s.mports, p.2.down = true → p.2.contained = true) → Does (.layupRestoreEnd true ticks) [.pwr, .rb] s fun t =>
        t.pwr = { s.pwr with restoring := false, restoreLast := ticks, layupDigest := false } ∧ t.rb.changed = true) ∧
      Runs (.layupRestoreEnd false ticks) s fun t => t.pwr.devState = .starting ∧ t.pwr.selfTestStep = 1 ∧
        t.pwr.fwStarted = false ∧ t.ports = s.ports ∧ t.tt.cycle = s.tt.cycle ∧ t.tt.running = s.tt.running ∧ t.ctxs = [] ∧
        t.cache = {} ∧ t.journal = {} ∧ t.errLog.head?.map LogEnt.code = some 0x0E03#16)

/-- The lock state of the timetable (R31, R32, R38, R39): a short pulse or an edge with REF_EN 0 does nothing; an
edge starts the acquisition; the third period within 0.1 % and the window locks, one that breaks the run restarts it;
in the locked state an edge in the window is followed and one outside it is counted; an edge that has not come
TT_WINDOW slots after it was expected is missing, and the third one gives HOLDOVER; an acquisition with no edge for
three nominal cycles lapses; REF_EN 0 gives FREE. That one period is one cycle of slots is the model's reading (log
entry 24). It says that TTC_IN_EDGE, TT_MISSING_EDGE, TT_ACQUIRE_LAPSE and
TT_REF_EN_WRITE complete. -/
def Obligations.TimetableLock : Prop :=
  ∀ (s : State),
    let goes : Instr → Timetable → Prop := fun c x => Runs c s fun t => t.tt = x
    let moves : Instr → Timetable → Prop := fun c x => Runs c s fun t => t.tt = x ∧ t.rb.changed = true
    let nom := s.tt.nomActive.toNat
    let near : Nat → Prop := fun p => (2 * (p : Int) - 3 * (nom : Int)).natAbs * 1000 ≤ 3 * nom
    (∀ clock high,
      (high < 16 ∨ s.tt.refEn = false ∨ s.tt.running = false → exec (.ttcInEdge clock high) s = .next s) ∧
      (16 ≤ high → s.tt.refEn = true → s.tt.running = true →
        let c := Instr.ttcInEdge clock high
        let ref := clock - s.tt.inComp.toNat
        (s.tt.lock = .free →
          moves c { s.tt with lock := .acquiring, lastEdge := some ref, edgeTs := now s, runPeriods := [], fromHoldover := false }) ∧
        (s.tt.lock = .holdover →
          moves c { s.tt with lock := .acquiring, lastEdge := some ref, edgeTs := now s, runPeriods := [], fromHoldover := true }) ∧
        (s.tt.lock = .acquiring → ∀ l, s.tt.lastEdge = some l →
          let p := ref - l
          (¬near p → goes c { s.tt with lastEdge := some ref, edgeTs := now s, runPeriods := [], freqErr := true }) ∧
          (near p → s.tt.runPeriods = [] → goes c { s.tt with lastEdge := some ref, edgeTs := now s, runPeriods := [p] }) ∧
          (near p → ∀ a, s.tt.runPeriods = [a] →
            let fits := 2 * (max p a - min p a) * 2 ^ s.tt.kActive ≤ s.tt.window.toNat * 3 * nom
            (¬fits → goes c { s.tt with lastEdge := some ref, edgeTs := now s, runPeriods := [] }) ∧
            (fits → goes c { s.tt with lastEdge := some ref, edgeTs := now s, runPeriods := [a, p] })) ∧
          (near p → ∀ a b, s.tt.runPeriods = [a, b] →
            let fits := 2 * (max p (max a b) - min p (min a b)) * 2 ^ s.tt.kActive ≤ s.tt.window.toNat * 3 * nom
            (¬fits → goes c { s.tt with lastEdge := some ref, edgeTs := now s, runPeriods := [] }) ∧
            (fits → Runs c s fun t => t.tt.lock = .locked ∧ t.tt.measPeriod = BitVec.ofNat 40 (p * 256) ∧
              t.tt.lastEdge = some ref ∧ t.tt.edgeTs = now s ∧ t.tt.ttFree = false ∧ t.tt.ttHoldover = false ∧ t.tt.freqErr = false ∧
              t.tt.cycle = s.tt.cycle ∧ t.tt.slot = s.tt.slot ∧ t.tt.cntEst = (s.tt.cntEst && !s.tt.cntEstLock) ∧
              t.rb.changed = true))) ∧
        (s.tt.lock = .locked → ∀ l, s.tt.lastEdge = some l →
          let meas := s.tt.measPeriod.toNat
          let off := (((ref * 256 : Nat) : Int) - ((l * 256 + meas * (s.tt.missed + 1) : Nat) : Int)).natAbs
          let inWindow := off * 2 ^ s.tt.kActive ≤ s.tt.window.toNat * meas
          (¬inWindow → goes c { s.tt with offwin := satInc s.tt.offwin }) ∧
          (inWindow → Runs c s fun t => t.tt.lock = .locked ∧ t.tt.missed = 0 ∧ t.tt.lastEdge = some ref ∧
            t.tt.edgeTs = now s ∧ t.tt.phaseErr = BitVec.ofInt 32 (phaseOf t.tt) ∧ t.tt.cycle = s.tt.cycle ∧ t.tt.slot = s.tt.slot ∧
            (s.tt.missed = 0 → near (ref - l) → t.tt.measPeriod = BitVec.ofNat 40 ((ref - l) * 256)) ∧
            (s.tt.missed = 0 → ¬near (ref - l) → t.tt.measPeriod = s.tt.measPeriod ∧ t.tt.freqErr = true))))) ∧
    (s.tt.lock = .locked →
      let k := s.tt.kActive
      let check := due s (tsAdd k s.tt.edgeTs (2 ^ k * (s.tt.missed + 1) + s.tt.window.toNat))
      (check = false → exec .ttMissingEdge s = .next s) ∧
      (check = true → s.tt.missed < 2 →
        goes .ttMissingEdge { s.tt with missed := s.tt.missed + 1, miss := satInc s.tt.miss }) ∧
      (check = true → s.tt.missed = 2 →
        moves .ttMissingEdge { s.tt with missed := 3, miss := satInc s.tt.miss, lock := .holdover, ttHoldover := true,
                                         slewing := false })) ∧
    (s.tt.lock = .acquiring →
      let k := s.tt.kActive
      let lapse := due s (tsAdd k s.tt.edgeTs ((nom * 9 / 2 * 2 ^ k + localClocks s.tt - 1) / localClocks s.tt))
      (lapse = false → exec .ttAcquireLapse s = .next s) ∧
      (lapse = true → moves .ttAcquireLapse
        { s.tt with lock := if s.tt.fromHoldover then .holdover else .free, lastEdge := none, runPeriods := [] })) ∧
    goes (.ttRefEnWrite true) { s.tt with refEn := true } ∧
    (let x := { s.tt with refEn := false, lock := .free, ttFree := true, ttHoldover := false, slewing := false,
                          lastEdge := none, runPeriods := [], missed := 0 }
     goes (.ttRefEnWrite false) x ∧ (s.tt.lock ≠ .free → moves (.ttRefEnWrite false) x))

/-- The plan position in a cycle, and the positions that an entry covers (R53); in a cycle before the plan epoch the position
is the remainder over the integers, which is the model's reading (log entry 13). -/
def Obligations.PlanPosition : Prop :=
  ∀ (t : Timetable) (cycle : BitVec 44) (e : Word),
    let period := bankPeriod t t.bankB
    1 ≤ period ∧ period ≤ 65536 ∧ planPos t.epoch cycle period < period ∧
    ((planPos t.epoch cycle period : Nat) : Int) = ((cycle.toNat : Int) - (t.epoch.toNat : Int)) % (period : Int) ∧
    (peValid e = true → ∀ pos < period,
      (peCovers e period pos = true ↔ ∃ j < peLen e, (peStart e + j) % period = pos))

/-- The controls of the timetable (R37, R40, R44, R55 to R57): the arm bits wait for their edge; a commit is accepted
exactly when every valid entry of the inactive bank names a port, fits in the period and shares no position with
another entry of the same port; plan enable and plan epoch are taken; the active bank's registers are not written and
the attempt is logged; a 32-bit read of the low half of TT_NOW latches the high half for its requester. It says that
TT_NOW_READ, TT_LOAD_ARM, TT_SWITCH_ARM, TT_PLAN_COMMIT, TT_PLAN_EN_WRITE, TT_PLAN_EPOCH_WRITE and
TT_ACTIVE_BANK_WRITE complete. -/
def Obligations.TimetableControl : Prop :=
  ∀ (s : State),
    let goes : Instr → Timetable → Prop := fun c x => Does c [.tt] s fun t => t.tt = x
    let off : Nat → Prop := fun o => if s.tt.bankB then o = 0x4C ∨ (0x3000 ≤ o ∧ o < 0x5000)
      else o = 0x48 ∨ (0x1000 ≤ o ∧ o < 0x3000)
    let bank := if s.tt.bankB then s.tt.planA else s.tt.planB
    let period := (if s.tt.bankB then s.tt.periodA.toNat else s.tt.periodB.toNat) + 1
    let covers : Word → Nat → Prop := fun e pos => ∃ j < peLen e, (peStart e + j) % period = pos
    let good : Nat × Word → Prop := fun x => peValid x.2 = true →
      peMember x.2 ≤ 71 ∧ peLen x.2 ≤ period ∧ peStart x.2 < period ∧
      ∀ y ∈ bank, y.1 ≠ x.1 → peValid y.2 = true → peMember y.2 = peMember x.2 →
        ¬∃ pos < period, covers x.2 pos ∧ covers y.2 pos
    goes .ttLoadArm { s.tt with loadArm := true } ∧
    (s.tt.switch = none → goes .ttSwitchArm { s.tt with switch := some { edges := 2 } }) ∧
    (∀ sw, s.tt.switch = some sw → exec .ttSwitchArm s = .next s) ∧
    ((∀ x ∈ bank, good x) → goes .ttPlanCommit { s.tt with commitPend := true }) ∧
    ((∃ x ∈ bank, ¬good x) → Does .ttPlanCommit [.tt, .fresh] s fun t => t.tt.planErr = true ∧ t.tt.errKind ≠ 0 ∧
      (∃ x ∈ bank, t.tt.errIndex = BitVec.ofNat 10 x.1 ∧ peValid x.2 = true) ∧
      t.tt = { s.tt with planErr := true, errIndex := t.tt.errIndex, errKind := t.tt.errKind }) ∧
    (∀ en, goes (.ttPlanEnWrite en) { s.tt with planEn := en }) ∧
    (∀ e, goes (.ttPlanEpochWrite e) { s.tt with epochWrite := some e }) ∧
    (∀ o v, (off o → Does (.ttActiveBankWrite o v) [.errLog, .errSeq] s (Logged 0x0202#16 o s)) ∧
      (¬off o → exec (.ttActiveBankWrite o v) s = .next s)) ∧
    (∀ who,
      Does (.ttNowRead who .full) [.out] s (fun t => t.out = .regRead (tsOf s.tt.cycle s.tt.slot) :: s.out) ∧
      Does (.ttNowRead who .low) [.tt, .out] s (fun t =>
        t.out = .regRead (((now s).extractLsb' 0 32).zeroExtend 64) :: s.out ∧
        ttLatch t.tt who = some ((now s).extractLsb' 32 32) ∧ ∀ w, w ≠ who → ttLatch t.tt w = ttLatch s.tt w) ∧
      Does (.ttNowRead who .high) [.out] s fun t => t.out =
        .regRead (((ttLatch s.tt who).getD ((now s).extractLsb' 32 32)).zeroExtend 64) :: s.out)

/-- The cycle edge and what is keyed to it (R36, R40 to R42, R44, R65, R67, R376, R392, R456, R457): the next cycle
number or the loaded one, the pending switch one edge nearer, every Express counter back to its allotment, the
throttle by the hottest sensor, TTC_OUT; the fare latch, the policy window and the scrub pass at their cycles. Where
a function's INTX request has gone, INTA is deasserted in the issue step that ends (R114). It says that CYCLE_EDGE,
POLICY_WINDOW_END, FARE_LATCH, SCRUB_PASS_START and FARE_PERIOD_WRITE complete. -/
def Obligations.CycleEdge : Prop :=
  ∀ (s : State),
    (∀ temps mv, s.tt.running = false → exec (.cycleEdge temps mv) s = .next s) ∧
    (∀ temps mv, s.tt.running = true → (∀ sw, s.tt.switch = some sw → 1 < sw.edges) →
      let seen := (temps.take 12).filter fun r => r != 0x8000#16
      Runs (.cycleEdge temps mv) s fun t =>
        t.tt.slot = 0 ∧ t.tt.cycle = (if s.tt.loadArm then s.tt.cycleLoad else s.tt.cycle + 1) ∧ t.tt.loadArm = false ∧
        t.tt.loadCnt = (if s.tt.loadArm then s.tt.loadCnt + 1 else s.tt.loadCnt) ∧ t.tt.kActive = s.tt.kActive ∧
        t.tt.lock = s.tt.lock ∧ (t.tt.switch = s.tt.switch.map fun sw => { sw with edges := sw.edges - 1 }) ∧
        (s.tt.outEn = true → Out.ttcOut true ∈ t.out) ∧ t.tt.ttcHigh = s.tt.outEn ∧ t.vlt.huNow = BitVec.ofNat 17 mv ∧
        (s.fare.en = true → s.tt.loadArm = false →
          (s.tt.cycle + 1).toNat % (s.fare.periodNext.getD s.fare.period).toNat = 0 → s.fare.seq = 0 ∨ s.fare.ts ≠ now t →
          t.fare.seq = s.fare.seq + 1 ∧ t.fare.ts = now t ∧ t.fare.prevTs = s.fare.ts) ∧
        (∀ p h pf, s.ports.find p = some h → fnOf s (64 * p) = some pf → h.intx = true → intxPending pf = false →
          pf.cqs = [] → Out.deassertIntx p ∈ t.out) ∧
        t.fare.period = s.fare.periodNext.getD s.fare.period ∧ t.fare.periodNext = none ∧
        (∀ q e, s.adm.exp.find q = some e → ∃ y, t.adm.exp.find q = some y ∧
          let x := e.next.getD (e.hit, e.miss, e.write)
          (y.hit, y.miss, y.write) = x ∧ (y.hitLeft, y.missLeft, y.writeLeft) = x ∧ y.next = none) ∧
        ((∃ r ∈ seen, 784 ≤ r.toInt) → t.adm.throttle = BitVec.ofNat 9 (s.adm.throttle.toNat - 16)) ∧
        (seen ≠ [] → (∀ r ∈ seen, r.toInt ≤ 744) → t.adm.throttle = BitVec.ofNat 9 (min 256 (s.adm.throttle.toNat + 8))) ∧
        (seen = [] → t.adm.throttle = s.adm.throttle)) ∧
    (s.fare.en = true → s.tt.running = true → s.tt.slot = 0 → s.tt.cycle.toNat % s.fare.period.toNat = 0 →
      s.fare.seq = 0 ∨ s.fare.ts ≠ now s →
      Does .fareLatch [.fare, .vols] s fun t => t.fare.seq = s.fare.seq + 1 ∧ t.fare.ts = now s ∧ t.fare.prevTs = s.fare.ts ∧
        (∀ v, t.vols.find v = (s.vols.find v).map fun x => { x with fresh := false }) ∧
        t.fare.deleted = [] ∧ ∀ x ∈ s.vols, ∃ r ∈ t.fare.snap, r.vol = x.1 ∧ r.blkRead = x.2.blkRead ∧
          r.blkWritten = x.2.blkWritten ∧ r.cmdExpress = x.2.cmdExpress ∧ r.cmdStandard = x.2.cmdStandard ∧
          r.cmdBulk = x.2.cmdBulk ∧ r.expTokens = x.2.expTokens ∧ r.flags.getLsbD 0 = true ∧
          r.flags.getLsbD 1 = x.2.fresh) ∧
    (∀ v, v ≠ 0 → Does (.farePeriodWrite v) [.fare] s fun t => t.fare = { s.fare with periodNext := some v }) ∧
    exec (.farePeriodWrite 0) s = .next s ∧
    (s.mem.policyWin ≠ 0 → s.tt.running = true → s.tt.slot = 0 → s.tt.cycle.toNat % s.mem.policyWin.toNat = 0 →
      s.mem.policyTs ≠ some (now s) → Tab.sorted s.mports = true →
      Runs .policyWindowEnd s fun t => ∀ port p, s.mports.find port = some p → t.mports.find port = some
        { p with tmoWin := 0, mediaWin := 0,
                 state := if p.state = 3 ∧ p.tmoWin < s.mem.slowTmo.toNat then 2 else p.state }) ∧
    (s.mem.scrubEn = true → ∀ g gr, s.groups.find g = some gr → gr.assembly = .assembled → gr.scrubbing = false →
      gr.scrubAt = none ∨ s.mem.scrubPeriod.toNat ≤ (s.tt.cycle - tsCycle (gr.scrubAt.getD 0)).toNat →
      Does (.scrubPassStart g) [.groups] s
        (GroupIs g { gr with scrubbing := true, scrubNext := 0, scrubAt := some (now s) } s)) ∧
    (s.mem.scrubEn = false → ∀ g, exec (.scrubPassStart g) s = .next s)

/-- Possessions (R54, R370, R372 to R374): the lead notice ahead of a start that will be taken; the Window Selects of
a start and of an end, what their completions change, the retry; a member that left its window outside a possession
is stray. It says that POSSESSION_LEAD_NOTICE, POSS_NDWIN_ISSUE, POSS_DTWIN_ISSUE, WINDOW_SELECT_COMPLETION,
WINDOW_SELECT_RETRY and STRAY_EVENT complete. -/
def Obligations.Possessions : Prop :=
  ∀ (s : State) (port : Nat) (p : MPort), s.mports.find port = some p →
    let sent : MemOp → State → (MPort → Prop) → Prop := fun op t post => ∃ q m, t.mports.find port = some q ∧
      q.cmds.find p.nextCid = some m ∧ m.op = op ∧ m.due = after s (max 1 s.mem.tmoAdmin.toNat) ∧ post q ∧
      t.out.head? = some (.memCmd port p.nextCid op 0 0 false false) ∧ ∀ k, k ≠ port → t.mports.find k = s.mports.find k
    let next := entryAt s.tt port (s.tt.cycle + 1)
    (onW0 s = true →
      (2 ^ s.tt.kActive = s.tt.slot + s.tt.possLead.toNat → next ≠ none → next ≠ p.annc → p.inPoss = false →
        takeable s port p = true → Does (.possessionLeadNotice port) [.mports] s (MportIs port { p with lead := true } s)) ∧
      (p.inPoss = true → p.ndwinSent = false → p.dtwinSent = false →
        (∀ x ∈ p.cmds, (x.2.op == .read && x.2.express && x.2.determ) = false) →
        Runs (.possNdwinIssue port) s fun t => sent .winNdwin t fun q => q.ndwinSent = true) ∧
      (2 ^ s.tt.kActive ≤ s.tt.slot + s.tt.possLead.toNat → p.inPoss = true → p.dtwinSent = false → next ≠ p.annc →
        next = none ∨ takeable s port p = false → Runs (.possDtwinIssue port) s fun t => sent .winDtwin t fun q => q.dtwinSent = true ∧ q.dtwinDone = false) ∧
      (∀ d, p.retryDue = some d → due s d = true →
        (p.inPoss = true ∧ p.dtwinSent = false →
          Runs (.windowSelectRetry port) s fun t => sent .winNdwin t fun q => q.retryDue = none ∧ q.ndwinSent = true) ∧
        (p.inPoss = false ∨ p.dtwinSent = true →
          Runs (.windowSelectRetry port) s fun t => sent .winDtwin t fun q => q.retryDue = none ∧ q.dtwinSent = true)) ∧
      (p.plm = true → judged p.state = true → p.inPoss = false → depthPositive s p = true →
        Runs (.strayEvent port) s fun t => Logged 0x0B11#16 0 s t ∧ t.rb.changed = true ∧
          sent .winDtwin t fun q => q.stray = true)) ∧
    (∀ cid m, winCmd p = some (cid, m) →
      let after_ : Bool → (MPort → Prop) → Prop := fun ok post => Runs (.windowSelectCompletion port ok) s fun t =>
        ∃ q, t.mports.find port = some q ∧ q.cmds = p.cmds.del cid ∧ post q
      (m.op = .winNdwin → after_ true (fun q => q.ndwinSent = p.ndwinSent ∧ q.inPoss = p.inPoss) ∧
        after_ false fun q => q.retryDue = some (after s s.mem.winRetry.toNat) ∧ q.inPoss = p.inPoss) ∧
      (m.op = .winDtwin →
        after_ false (fun q => q.retryDue = some (after s s.mem.winRetry.toNat) ∧ q.inPoss = p.inPoss) ∧
        (p.early = false → after_ true fun q => q.dtwinDone = p.inPoss ∧ q.inPoss = p.inPoss ∧ q.retryDue = none) ∧
        (p.early = true → p.inPoss = true → after_ true fun q => q.inPoss = false ∧ q.stray = false ∧ q.early = false)))

/-- The end of a member command (R307 to R309, R335, R360, R365 to R368, R376, R378): its window closes, its ticket
ends with the event, a read's frames become protected and a write's entry is done; a media error is logged and
counted, a failed write fails the member, a FRAME marks the stripe; a timeout quarantines the identifier until the
late completion; a request in the open window is served and any other one refused. It says that MEMBER_COMPLETION,
MEMBER_TIMEOUT, MEMBER_LATE_COMPLETION and MEMBER_DMA_REQUEST complete. -/
def Obligations.MemberCommands : Prop :=
  ∀ (s : State) (port cid : Nat) (p : MPort), s.mports.find port = some p → linksHeld s = false →
    (∀ x ∈ s.ctxs, ∀ g st wm d, x.2.wait ≠ .retire g st wm d) →
    (∀ x ∈ s.journal.recs, x.2.replaying = false) →
    s.mem.failTmo = 0 → s.mem.failMedia = 0 → s.mem.slowTmo = 0 →
    (∀ m, p.cmds.find cid = some m →
      let told : Nat → State → Prop := fun ev t => ∀ cx c, m.ctx = some cx → s.ctxs.find cx = some c → c.wait = .nothing →
        ∃ y, t.ctxs.find cx = some y ∧ y.tickets.find m.ticket = some (.ended ev) ∧ y.pc = c.pc ∧ y.g = c.g
      let ends : Instr → Nat → (State → MPort → Prop) → Prop := fun c ev post => Runs c s fun t => told ev t ∧
        ∃ q, t.mports.find port = some q ∧ q.cmds = p.cmds.del cid ∧ post t q
      (m.op = .read → past s m.due = true → p.quarantine.length < 63 → ∀ st, Runs (.memberCompletion port cid st) s fun t =>
        told 1 t ∧ ∃ q, t.mports.find port = some q ∧ q.cmds = p.cmds.del cid ∧ q.cntTmo = satInc p.cntTmo ∧
          (cid ∉ p.quarantine → q.cntLate = satInc p.cntLate ∧ q.quarantine = p.quarantine)) ∧
      (m.op = .read → past s m.due = false →
        ends (.memberCompletion port cid .ok) 0 (fun t q => q.quarantine = p.quarantine ∧
          ∀ fr f, m.frames = [fr] → s.cache.frames.find fr = some f → f.retireLast = false → f.key ≠ none →
            ∃ y, t.cache.frames.find fr = some y ∧ y.prot = true ∧ y.data = f.data) ∧
        ends (.memberCompletion port cid .media) 2 (fun t q => q.cntMedia = satInc p.cntMedia ∧ Logged 0x0B03#16 m.lba s t) ∧
        ends (.memberCompletion port cid .poisoned) 3 (fun t q => q.cntMedia = satInc p.cntMedia ∧
          Logged 0x0B03#16 m.lba s t) ∧
        (due s m.due = true → p.quarantine.length < 63 → ends (.memberTimeout port cid) 1 fun t q =>
          q.quarantine = p.quarantine ++ [cid] ∧ q.cntTmo = satInc p.cntTmo ∧
          Logged 0x0B02#16 (m.queue * 2 ^ 16 + cid) s t)) ∧
      (m.op = .write → past s m.due = false → ∀ r i x, m.jrec = some (r, i) → s.journal.recs.find r = some x →
        ends (.memberCompletion port cid .ok) 0 (fun t _ => ∃ y, t.journal.recs.find r = some y ∧
          y.entries = x.entries.map fun e =>
            if e.index = i then { e with writing := e.writing - 1, done := true } else e) ∧
        (∀ gr, s.groups.find x.group = some gr → ends (.memberCompletion port cid .frame) 5 fun t _ =>
          Logged 0x0A21#16 x.stripe s t ∧ ∃ y, t.groups.find x.group = some y ∧ x.stripe ∈ y.resync) ∧
        (judged p.state = true → ∀ g, p.group = some g → Runs (.memberCompletion port cid .media) s fun t =>
          Logged 0x0B06#16 2 s t ∧ t.rb.changed = true ∧ Out.mperst port false ∈ t.out ∧
          ∃ q, t.mports.find port = some q ∧ q.state = 4 ∧ q.mperstHigh = false)) ∧
      (p.contained = false → ∀ off bytes, off + bytes.length ≤ 4096 → ∀ fr f, m.frames = [fr] →
        s.cache.frames.find fr = some f → f.data.wf = true →
        (m.op = .read → bytes ≠ [] → Runs (.memberDmaRequest port cid true off bytes) s fun t =>
          ∃ y, t.cache.frames.find fr = some y ∧ y.key = f.key ∧ y.pins = f.pins ∧
            ∀ j, y.data.read j = if off ≤ j ∧ j < off + bytes.length then bytes.getD (j - off) 0 else f.data.read j) ∧
        (m.op = .write → Does (.memberDmaRequest port cid false off bytes) [.out] s fun t =>
          t.out = .memData port cid ((List.range bytes.length).map fun k => f.data.read (off + k)) :: s.out) ∧
        (m.op = .read → Runs (.memberDmaRequest port cid false off bytes) s fun t => Out.completerAbort port cid ∈ t.out ∧
          t.cache = s.cache ∧ ∃ q, t.mports.find port = some q ∧ q.cntMedia = satInc p.cntMedia))) ∧
    (cid ∈ p.quarantine → Does (.memberLateCompletion port cid) [.mports, .errLog, .errSeq, .fresh] s fun t =>
      Logged 0x0B04#16 0 s t ∧ ∃ q, t.mports.find port = some q ∧ cid ∉ q.quarantine ∧ q.cntLate = satInc p.cntLate ∧
        q.cmds = p.cmds ∧ ∀ k, k ≠ port → t.mports.find k = s.mports.find k)

/-- Member ports (R358, R361 to R364, R375, R379, R380): the first write of the quad layouts makes the ports;
presence gained releases the reset, but for the states in which every member port stays in reset, and presence lost
empties and contains the port; the pulse of a RESET ends when its slots have passed (R381), and no bring-up runs before; a containment fails the member; a bring-up takes in what the drive reports, or
contains the port at the step that failed. It says that PRESENCE_QUALIFIED, LINK_CONTAINMENT, MEMBER_BRINGUP and
MEM_QUAD_CFG_WRITE complete. -/
def Obligations.MemberPorts : Prop :=
  ∀ (s : State),
    let inService_ := s.pwr.devState = .starting ∨ s.pwr.devState = .recovering ∨ s.pwr.devState = .ready
    (∀ cfg0 cfg1 : BitVec 32,
      (s.mem.quadSet = true → exec (.memQuadCfgWrite cfg0 cfg1) s = .next s) ∧
      (s.mem.quadSet = false → Does (.memQuadCfgWrite cfg0 cfg1) [.mports, .mem] s fun t =>
        t.mem = { s.mem with cfg0 := cfg0, cfg1 := cfg1.truncate 4, quadSet := true } ∧ ∀ k < 72,
          let code := if k < 64 then cfg0.toNat / 4 ^ (k / 4) % 4 else cfg1.toNat / 4 ^ (k / 4 - 16) % 4
          ∃ q, t.mports.find k = some q ∧ (q.absent = false ↔
            (code = 0 ∧ k % 4 = 0) ∨ (code = 1 ∧ k % 2 = 0) ∨ code = 2))) ∧
    (∀ port p, s.mports.find port = some p → p.absent = false → p.powerOff = false →
      (p.present = false → vioUp s = true → Runs (.presenceQualified port true) s fun t =>
        Logged 0x0B07#16 1 s t ∧ t.rb.changed = true ∧
        if s.mem.hotplugEn = true ∧ inService_ then
          Out.mperst port true ∈ t.out ∧ MportIs port { p with present := true, contained := false, mperstHigh := true } s t
        else MportIs port { p with present := true, contained := false } s t) ∧
      (p.present = true → vioUp s = true → Runs (.presenceQualified port false) s fun t =>
        t.rb.changed = true ∧ Out.mperst port false ∈ t.out ∧ ∃ q, t.mports.find port = some q ∧ q.present = false ∧
          q.contained = true ∧ q.state = 0 ∧ q.linkUp = false ∧ q.label = none ∧ q.group = none) ∧
      (p.present = true → p.contained = false → ∀ cause, Runs (.linkContainment port cause) s fun t =>
        t.rb.changed = true ∧ Out.mperst port false ∈ t.out ∧ ∃ q, t.mports.find port = some q ∧ q.contained = true ∧
          q.linkUp = false ∧ q.mperstHigh = false ∧ q.quarantine = []) ∧
      (¬inService_ → ∀ info, exec (.memberBringup port info) s = .next s) ∧
      (∀ d, p.pulseDue = some d → (due s d = false → pulseEnd s port = s) ∧ (due s d = true → p.present = true →
        (pulseEnd s port).out = .mperst port true :: s.out ∧
        MportIs port { p with pulseDue := none, mperstHigh := true } s (pulseEnd s port))) ∧
      (p.pulseDue.isSome = true → ∀ info, exec (.memberBringup port info) s = .next s) ∧
      (inService_ → p.present = true → judged p.state = false → p.down = false → p.pulseDue = none → p.resetWait = [] → ∀ info,
        (info.failedStep = none → info.label = none → s.pwr.devState ≠ .ready → Runs (.memberBringup port info) s fun t =>
          t.rb.changed = true ∧ MportIs port { broughtUp s info p with state := 1, group := none } s t) ∧
        (∀ k, info.failedStep = some k → Runs (.memberBringup port info) s fun t => Logged 0x0B01#16 k s t ∧
          ∃ q, t.mports.find port = some q ∧ q.contained = true ∧ q.linkUp = false))) ∧
    (∀ i p, let q := broughtUp s i p
      q.linkUp = true ∧ q.mperstHigh = true ∧ q.width = i.width ∧ q.speed = i.speed ∧ q.blocks = i.blocks ∧ q.plm = i.plm ∧
      q.ndwinMin = i.ndwinMin ∧ q.dtwinMax = i.dtwinMax ∧ q.fua = !i.vwcOff ∧ q.queuePairs = i.queuePairs / 4 * 4 ∧
      q.label = i.label ∧ (q.unfit = false ↔ i.nvme20 = true ∧ i.lba4k = true ∧ 8 ≤ i.queuePairs ∧ i.mpsminOk = true ∧
        262400 ≤ i.blocks ∧ (i.vwcOff = true ∨ i.fua = true)))

/-- The creation of Maintenance contexts (R193, R236, R284, R333, R334, R383, R384, R392, R393): with a siding, a
route with the handler and the ladder's leave, the next destage, rebuild, scrub, zeroing or label step gets its
context, of class Maintenance, with its descriptor. It says that DESTAGE_CREATE, REBUILD_STEP_CREATE,
SCRUB_STEP_CREATE, ZEROING_CREATE and LABEL_WRITE_CREATE complete. -/
def Obligations.MaintenanceWork : Prop :=
  ∀ (s : State) (g : Nat) (gr : Group) (cx prog : Nat) (r : Route) (h : HandlerEnt), s.groups.find g = some gr →
    freeSiding s = some cx → maintUsed s < Config.maintSidings →
    let can : Work → Option Nat → Prop := fun w vol => workRoute s w vol g = some (prog, r) ∧
      handlerOf s prog (workHandler r w) = some h ∧ workAllowed s w = true
    let made : Work → Option Nat → State → (Ctx → Prop) → Prop := fun w vol t post => ∃ c, t.ctxs.find cx = some c ∧
      c.cls = .maintenance ∧ c.kind = .maint ∧ c.work = some w ∧ c.vol = vol ∧ c.group = some g ∧
      c.pc = BitVec.ofNat 24 h.entry ∧ c.budget = h.budget ∧ c.program = prog ∧ c.state = .ready ∧ c.dl = noTs ∧ post c ∧
      ∀ k, k ≠ cx → t.ctxs.find k = s.ctxs.find k
    let m := gr.geom.m
    let b := gr.geom.b
    (∀ stripe v l rest, can .destage (some v) → stripeBlocks s g gr stripe = (v, l) :: rest →
      (∀ x ∈ (v, l) :: rest, loneDirty s x ≠ none) → oldDirty s g (v, l) = true → m * b ≤ 256 →
      destageRunning s g stripe l = false → beforeDestage s = false →
      destageWaits s gr stripe (dirtyLanes s g gr stripe) = false → Does (.destageCreate g stripe) [.ctxs, .groups, .seqCtr] s fun t =>
        GroupIs g { gr with seq := gr.seq + 1 } s t ∧ made .destage (some v) t fun c =>
          fieldOf c.cmd 0 64 = stripe % 2 ^ 64 ∧ fieldOf c.cmd 64 64 = l % 2 ^ 64 ∧ c.cmd.getLsbD (8 * 0x12 + 1) = true) ∧
    (∀ pos e row col target, can .rebuild none → gr.assembly = .assembled → gr.steps = [] → 0 < s.mem.rbDepth.toNat →
      gr.history = [(pos, e)] → e.watermark = 0 → 0 < gr.rows →
      passEmpty gr e.index pos (cycleRowsOf gr) 0 = row → rebuildCols gr pos e.index row = [col] →
      layoutKind gr.layout = .decluster ∨ memberState s gr e.index = 5 → beforeRebuild s = false →
      rebuildTarget s gr pos e.index row col = some target → 0 < m → 0 < b → m * b ≤ 256 →
      Runs (.rebuildStepCreate g) s fun t => Logged 0x0B20#16 (g + e.index * 2 ^ 8) s t ∧
        (∃ y, GroupIs g y s t ∧ y = { gr with
          seq := gr.seq + 1, steps := [{ pos := pos, row := row, ctx := cx }], rbReads := y.rbReads }) ∧
        made .rebuild none t fun c => fieldOf c.cmd 0 64 = (stripeOfCol gr e.index row col).1 % 2 ^ 64 ∧
          fieldOf c.cmd (8 * 0x18) 64 = row % 2 ^ 64 ∧ fieldOf c.cmd (8 * 0x0E) 8 = target % 2 ^ 8 ∧
          fieldOf c.cmd (8 * 0x0C) 16 = b % 2 ^ 16) ∧
    (gr.assembly = .assembled → rebuilding s gr = false → gr.resync = [] → can .scrub none → beforeScrub s = false →
      let step : Nat → Group → Prop := fun st y => 0 < m → 0 < b → m * b ≤ 256 →
        Does (.scrubStepCreate g) [.ctxs, .groups, .seqCtr] s fun t => GroupIs g y s t ∧
          made .scrub none t fun c => fieldOf c.cmd 0 64 = st % 2 ^ 64 ∧ fieldOf c.cmd (8 * 0x0C) 16 = b % 2 ^ 16
      (∀ st rest, gr.scrubQueue = st :: rest →
        (touchesPoss s gr st = false → step st { gr with scrubQueue := rest }) ∧
        (touchesPoss s gr st = true → Does (.scrubStepCreate g) [.groups] s
          (GroupIs g { gr with scrubQueue := rest, scrubLate := gr.scrubLate ++ [st] } s))) ∧
      (gr.scrubQueue = [] → gr.scrubbing = true → gr.scrubNext < gr.extents * gr.geom.es → scrubPaced s gr = true →
        touchesPoss s gr gr.scrubNext = false → step gr.scrubNext { gr with scrubNext := gr.scrubNext + 1 }) ∧
      (gr.scrubQueue = [] → gr.scrubbing = true → gr.extents * gr.geom.es ≤ gr.scrubNext →
        (gr.scrubLate = [] → scrubRuns s g = false →
          Does (.scrubStepCreate g) [.groups] s (GroupIs g { gr with scrubbing := false, repairScrub := false } s)) ∧
        (∀ st rest, gr.scrubLate = st :: rest → touchesPoss s gr st = false → step st { gr with scrubLate := rest }))) ∧
    (can .zero none → gr.zeroing = [] → gr.zeroPlan < gr.extents → gr.creator = none → beforeZero s = false →
      Does (.zeroingCreate g) [.ctxs, .groups, .seqCtr] s fun t =>
        GroupIs g { gr with seq := gr.seq + 1, zeroPlan := gr.zeroPlan + 1,
                            zeroing := [{ extent := gr.zeroPlan, vol := none }] } s t ∧
        made .zero none t fun c => fieldOf c.cmd 0 64 = gr.zeroPlan * gr.geom.es % 2 ^ 64 ∧
          fieldOf c.cmd (8 * 0x08) 32 = gr.geom.es % 2 ^ 32 ∧ fieldOf c.cmd (8 * 0x0C) 32 = gr.zeroPlan % 2 ^ 32) ∧
    (∀ index fr, can .label none → index < gr.n → takeFrame s = some fr →
      Runs (.labelWriteCreate g index 0) s fun t =>
        GroupIs g { gr with generation := gr.generation + 1, seq := gr.seq + 1, labelDirty := false } s t ∧
        (∃ f, t.cache.frames.find fr = some f ∧ f.stage = true ∧ f.prot = true ∧ f.pins = 1) ∧
        made .label none t fun c => c.h = [(15, .frames [(0, fr)])] ∧ fieldOf c.cmd 8 8 = index % 2 ^ 8 ∧
          fieldOf c.cmd 64 64 = 0)

/-- Resets of a host port and of a function (R68, R95, R117, R118, R130, R478): a teardown stops the function, takes
its queues, windows and tokens and ends with FLR_TEARDOWN_END; HPERST_N puts a port in reset, keeps D3cold for a PF
in D3hot, and its release leads through the rebuild; a hot reset keeps the queues; a trained link shows at most the
strapped width. It says that HPERST_ASSERT, HPERST_DEASSERT, PORT_REBUILD, CRS_PERIOD_END, HOT_RESET, FLR,
FLR_TEARDOWN_END and HOST_LINK_UP complete. -/
def Obligations.HostResets : Prop :=
  ∀ (s : State), Unblocked s → (∀ v ∈ s.vols, v.2.detachWait = [] ∧ v.2.deleting = false) →
    let torn : Nat → State → Prop := fun f t => (∀ e ∈ t.adm.exp, e.2.func.toNat ≠ f) ∧ t.rb.changed = true ∧
      ∃ x, t.funcs.find f = some x ∧ x.flrBusy = true ∧ x.bme = false ∧ x.sqs = [] ∧ x.cqs = [] ∧ x.windows = [] ∧
        x.evtEn = 0 ∧ x.pba = []
    (∀ f fn, takesCfg s f = some fn → ctxsOf s f = [] → (isPF f = true → vfsOf s (portOf f) = []) →
      Runs (.flr f) s fun t => torn f t ∧ Out.configDone f ∈ t.out ∧
        ∃ x, t.funcs.find f = some x ∧ x.flrTs = now s ∧ x.mps = fn.mps ∧ x.aer = fn.aer) ∧
    (∀ f p, s.ports.find (portOf f) = some p → p.hperst = false → p.crs = true ∨ p.rebuild = true →
      Does (.flr f) [.out] s fun t => t.out = .configRetry f :: s.out) ∧
    (∀ f fn p, s.funcs.find f = some fn → fn.exists_ = true → s.ports.find (portOf f) = some p → fn.flrBusy = true →
      ctxsOf s f = [] → past s fn.flrTs = true →
      (vfStays p f = true → Does (.flrTeardownEnd f) [.funcs, .rb] s (FuncIs f { fn with flrBusy := false } s)) ∧
      (vfStays p f = false → Tab.sorted s.funcs = true → Does (.flrTeardownEnd f) [.funcs, .rb] s fun t =>
        t.funcs.find f = none ∧ ∀ k, k ≠ f → t.funcs.find k = s.funcs.find k)) ∧
    (∀ p h pf, s.ports.find p = some h → s.funcs.find (64 * p) = some pf →
      (h.hperst = false → fnsOfPort s p = [64 * p] → ctxsOf s (64 * p) = [] → Runs (.hperstAssert p) s fun t =>
        torn (64 * p) t ∧
        t.ports.find p = some { h with hperst := true, linkUp := false, widthNeg := 0, speedNeg := 0, flit := false,
                                       crs := true, vfEnable := false, numVfs := 0, vfHeld := false, intx := false } ∧
        (pf.d3 = true → ∃ x, t.funcs.find (64 * p) = some x ∧ x.d3 = true ∧ x.d3cold = true ∧ x.pmeEn = pf.pmeEn)) ∧
      (h.hperst = true → Runs (.hperstDeassert p) s fun t => t.rb.changed = true ∧
        t.ports.find p = some { h with hperst := false, rebuild := true, rebuildTs := now s, hwakeLow := false } ∧
        FuncIs (64 * p) { pf with d3 := false, d3cold := false } s t ∧ (h.hwakeLow = true → Out.hwake p false ∈ t.out)) ∧
      (h.rebuild = true → h.hperst = false → s.tt.slot = 0 → past s h.rebuildTs = true → (∀ f ∈ fnsOfPort s p, flrNow s f = false) →
        Does (.portRebuild p) [.ports, .funcs, .rb] s fun t => t.rb.changed = true ∧
          t.ports.find p = some { h with rebuild := false, crs := false } ∧
          t.funcs.find (64 * p) = some { exists_ := true } ∧
          ∀ f, f ≠ 64 * p → t.funcs.find f = if portOf f = p ∧ isPF f = false then none else s.funcs.find f) ∧
      (h.hperst = false → Does (.hotReset p) [.ports, .funcs, .movers, .rb] s fun t => t.rb.changed = true ∧
        t.ports.find p = some { h with linkUp := false, widthNeg := 0, speedNeg := 0, flit := false, vfEnable := false,
                                       numVfs := 0, vfHeld := h.vfHeld || h.vfEnable, intx := false } ∧
        ∀ f fn, s.funcs.find f = some fn → fn.exists_ = true → portOf f = p → ∃ x, t.funcs.find f = some x ∧
          x.bme = false ∧ x.msixEn = false ∧ x.unmasked = [] ∧ x.cto = 0x320000#32 ∧ x.d3 = false ∧ x.mps = 128 ∧
          x.cfg = [] ∧ x.aer = fn.aer ∧ x.sqs = fn.sqs ∧ x.cqs = fn.cqs ∧ x.windows = fn.windows ∧ x.evtEn = fn.evtEn) ∧
      (h.hperst = false → ∀ w sp fl, 1 ≤ w → 1 ≤ sp → sp ≤ 6 → Does (.hostLinkUp p w sp fl) [.ports, .rb] s fun t =>
        t.ports.find p = some { h with
          linkUp := true, widthNeg := min w h.widthMax, speedNeg := sp, flit := fl || decide (sp = 6) } ∧
        ∀ k, k ≠ p → t.ports.find k = s.ports.find k)) ∧
    (s.pwr.devState ≠ .off → due s s.pwr.crsDue = true → Does .crsPeriodEnd [.ports] s fun t => ∀ p,
      t.ports.find p = (s.ports.find p).map fun h => if h.hperst || h.rebuild then h else { h with crs := false }) ∧
    (s.pwr.devState = .off ∨ due s s.pwr.crsDue = false → exec .crsPeriodEnd s = .next s)

/-- The controls of a function (R93, R112 to R114, R117, R120, R121, R125, R129): Bus Master Enable stops and frees
upstream work, in the issue step of its slot, VF Enable makes and tears down the VFs, D-states, the completion
timeout value, the masks of MSI-X, INTx; a bit set in the slot of its clearing stays; a request to a port that is not
up yet gets retry status. It says that BUS_MASTER_CLEAR, BUS_MASTER_SET, VF_ENABLE_WRITE, D_STATE_WRITE,
CTO_VALUE_WRITE, MSIX_UNMASK and INTX_CLEAR complete. -/
def Obligations.HostControls : Prop :=
  ∀ (s : State) (f : Nat) (fn : Func), Unblocked s → (∀ v ∈ s.vols, v.2.detachWait = [] ∧ v.2.deleting = false) →
    (takesCfg s f = some fn →
      Runs (.busMasterClear f) s (fun t => FuncIs f { fn with bme := false, resume := false } s t ∧
        t.out = .configDone f :: s.out ∧
        ∀ x ∈ chansOf s f, (chanOf s x.1 x.2).state = .running → (chanOf t x.1 x.2).causes.getLsbD 2 = true) ∧
      Does (.busMasterSet f) [.funcs, .rb, .out] s (fun t => FuncIs f { fn with bme := true, resume := true } s t ∧
        t.out = .configDone f :: s.out) ∧
      (∀ v, let goes : BitVec 4 → Nat → Prop := fun c n => Does (.ctoValueWrite f v) [.funcs, .out] s fun t =>
          FuncIs f { fn with ctoField := c, cto := BitVec.ofNat 32 n } s t ∧ t.out = .configDone f :: s.out
        (v = 0 → goes 0 3276800) ∧ (v = 1 → goes 1 6554) ∧ (v = 2 → goes 2 655360) ∧
        (3 ≤ v.toNat → Does (.ctoValueWrite f v) [.funcs, .fresh, .out] s fun t =>
          FuncIs f { fn with ctoField := 0, cto := 3276800#32, cntIgn := satInc fn.cntIgn } s t ∧
          t.out = .configDone f :: s.out))) ∧
    (fnOf s f = some fn → fn.resume = true → upstreamOk s fn = true → chansOf s f = [] → (∀ x ∈ readyRings s, x.1 ≠ f) →
      ∀ a v, fn.held = [.shadow a v] → ∀ slot, Runs (.completionIssue f slot) s fun t =>
        FuncIs f { fn with resume := false, held := [] } s t ∧ t.out = .shadowWrite f a v :: s.out) ∧
    (∀ h, s.ports.find (portOf f) = some h → h.hperst = false → h.crs = true ∨ h.rebuild = true →
      ∀ v, ∀ c ∈ [Instr.busMasterClear f, .busMasterSet f, .ctoValueWrite f v, .msixUnmask f none],
        Does c [.out] s fun t => t.out = .configRetry f :: s.out) ∧
    (∀ p h pf, s.ports.find p = some h → takesCfg s (64 * p) = some pf →
      (vfsOf s p = [] → ∀ num,
        (Runs (.vfEnableWrite p true num) s fun t =>
          t.ports.find p = some { h with vfEnable := true, numVfs := min num 63, vfHeld := false } ∧
          (∀ k, 1 ≤ k → k ≤ min num 63 → t.funcs.find (64 * p + k) = some { exists_ := true }) ∧
          ∀ k, portOf k ≠ p → t.funcs.find k = s.funcs.find k) ∧
        (Runs (.vfEnableWrite p false num) s fun t =>
          t.ports.find p = some { h with vfEnable := false, numVfs := min num 63 } ∧ t.funcs = s.funcs ∧
          t.out.head? = some (.configDone (64 * p)))) ∧
      (h.vfEnable = true → ∀ vf num, vfsOf s p = [vf] → ctxsOf s vf = [] → Runs (.vfEnableWrite p false num) s fun t =>
        t.ports.find p = some { h with vfEnable := false, numVfs := min num 63 } ∧
        ∃ x, t.funcs.find vf = some x ∧ x.flrBusy = true ∧ x.sqs = [] ∧ x.cqs = []) ∧
      (∀ d3, Runs (.dStateWrite p d3) s fun t => t.rb.changed = true ∧ Out.configDone (64 * p) ∈ t.out ∧
        ∀ g x, s.funcs.find g = some x → x.exists_ = true → portOf g = p →
          t.funcs.find g = some { x with d3 := d3, resume := if d3 then x.resume else x.bme })) ∧
    (takesWrites s f = some fn → fn.msixFmask = false → fn.msixEn = true → upstreamOk s fn = true → ∀ v, v < vectorsOf f →
      v ∉ fn.unmasked →
      (fn.pba = [v] → Does (.msixUnmask f (some v)) [.funcs, .out] s fun t => t.out = .msix f v :: s.out ∧
        FuncIs f { fn with unmasked := v :: fn.unmasked, pba := [] } s t) ∧
      (fn.pba = [] → Does (.msixUnmask f (some v)) [.funcs] s (FuncIs f { fn with unmasked := v :: fn.unmasked } s))) ∧
    (takesCfg s f = some fn → fn.pba = [] → Does (.msixUnmask f none) [.funcs, .out] s fun t =>
      FuncIs f { fn with msixFmask := false } s t ∧ t.out = .configDone f :: s.out) ∧
    (takesWrites s f = some fn → ∀ rings (st : BitVec 32),
      let x : Func := { fn with
        intxRing := fn.intxRing &&& ~~~ rings, stCto := fn.stCto && !st.getLsbD 2, stUnexp := fn.stUnexp && !st.getLsbD 3,
        stPsnIn := fn.stPsnIn && !st.getLsbD 4, stFetchTmo := fn.stFetchTmo && !st.getLsbD 5,
        stRbChanged := fn.stRbChanged && !st.getLsbD 7 }
      ((∀ e ∈ s.fresh, e.block ≠ .fn f) → Does (.intxClear f rings st) [.funcs] s (FuncIs f x s)) ∧
      (∀ n < 64, s.fresh = [{ block := .fn f, off := 0x48, pos := n, amount := 1 }] →
        Does (.intxClear f rings st) [.funcs] s (FuncIs f
          { x with intxRing := fn.intxRing &&& ~~~(rings &&& ~~~BitVec.ofNat 64 (2 ^ n)) } s)))

/-- Reads and writes of registers (R9 to R11, R57, R89, R98, R100, R123, R129, R356, R398, R425, R427, R445, R458,
R487): a write changes the fields of its register, a 64-bit one in halves too, a read returns the value and clears an
RC register but for what was counted in its slot; a poisoned or misaligned access to a BAR, a reserved offset and an
undefined value have the effects of R9, R11, R98 and R123; a read of BAR2 returns the entry area of a push queue. It
says that GENERIC_REGISTER_WRITE and READ_TO_CLEAR complete. -/
def Obligations.Registers : Prop :=
  ∀ (s : State) (v : Word),
    let w : RegBlock → Nat → Instr := fun b o => .genericRegisterWrite b ⟨o, 4⟩ v false
    let v32 : BitVec 32 := v.extractLsb' 0 32
    let read : RegBlock → Nat → List Part → Nat → (State → Prop) → Prop := fun b o ps n post =>
      Does (.readToClear b ⟨o, 4⟩) ps s fun t => t.out = .regRead (BitVec.ofNat 64 n) :: s.out ∧ post t
    Does (w .tt 0x24) [.tt] s (fun t => t.tt = { s.tt with window := v.extractLsb' 0 16 }) ∧
    Does (.genericRegisterWrite .tt ⟨0x30, 8⟩ v false) [.tt] s (fun t => t.tt = { s.tt with cycleLoad := v.extractLsb' 0 44 }) ∧
    Does (w .tt 0x34) [.tt] s (fun t => t.tt =
      { s.tt with cycleLoad := v.extractLsb' 0 12 ++ s.tt.cycleLoad.extractLsb' 0 32 }) ∧
    Does (w .adm 0x08) [.adm, .rb] s (fun t => t.adm = { s.adm with lHost := v.extractLsb' 0 16 } ∧ t.rb.changed = true) ∧
    Does (w .vlt 0x08) [.vlt] s (fun t => t.vlt = { s.vlt with huItest := v.extractLsb' 0 16 }) ∧
    Does (w .mem 0x10) [.mem] s (fun t => t.mem = { s.mem with tmoStd := v32 }) ∧
    (∀ g < 8, ∀ gr, s.groups.find g = some gr → gr.inPoss = [] →
      Does (w .mem (0x80 + 4 * g)) [.groups, .errLog, .errSeq, .rb] s fun t =>
      GroupIs g { gr with depthCfg := if fieldOf v 8 2 = 3 then 1 else fieldOf v 8 2 } s t ∧ t.rb.changed = true) ∧
    Does (w .pwr 0x04) [.pwr, .errLog, .errSeq] s (fun t => t.pwr = { s.pwr with
      setRung := if 4 < fieldOf v 0 3 then 4#3 else v.extractLsb' 0 3, setDwell := v.extractLsb' 16 16 }) ∧
    Does (w .fare 0) [.fare] s (fun t => t.fare = { s.fare with en := v.getLsbD 0 }) ∧
    (65536 ≤ v32.toNat → Does (w .hb 0x4004) [.mbx] s fun t => t.mbx = { s.mbx with hbPeriod := v32 }) ∧
    (v32.toNat < 65536 → exec (w .hb 0x4004) s = .next s) ∧
    (∀ f fn, takesWrites s f = some fn →
      (∀ off size, ∀ b ∈ [RegBlock.fn f, .bar2 f],
        Runs (.genericRegisterWrite b ⟨off, size⟩ v true) s fun t => t.out.head? = some (.aer f 1) ∧
        ∃ x, t.funcs.find f = some x ∧ x.cntPsnIn = satInc fn.cntPsnIn ∧ x.stPsnIn = true) ∧
      (∀ off size, size ≠ 4 ∧ size ≠ 8 ∨ off % size ≠ 0 →
        exec (.genericRegisterWrite (.fn f) ⟨off, size⟩ v false) s = .next s) ∧
      (∀ off size, Does (.genericRegisterWrite (.bar2 f) ⟨off, size⟩ v false) [.funcs, .fresh] s
        (FuncIs f { fn with cntIgn := satInc fn.cntIgn } s)) ∧
      (3277 ≤ v32.toNat → v32.toNat ≤ 4194304 → Does (w (.fn f) 0x14) [.funcs] s (FuncIs f { fn with cto := v32 } s)) ∧
      (v32.toNat < 3277 ∨ 4194304 < v32.toNat →
        Does (w (.fn f) 0x14) [.funcs, .fresh] s (FuncIs f { fn with cntIgn := satInc fn.cntIgn } s)) ∧
      (∀ off size, 0x600 ≤ off → off < 0x1000 → size = 4 ∨ size = 8 → off % size = 0 →
        Does (.genericRegisterWrite (.fn f) ⟨off, size⟩ v false) [.funcs, .fresh] s (FuncIs f { fn with cntIgn := satInc fn.cntIgn } s))) ∧
    (∀ f fn, takesCfg s f = some fn → Does (w (.cfg f) 0x44) [.funcs, .out] s fun t => t.out = .configDone f :: s.out ∧
      FuncIs f { fn with pmeEn := v.getLsbD 8 } s t) ∧
    (∀ f fn n, takesWrites s f = some fn → n < 16 → Does (w (.win f n) 0x04) [.funcs] s fun t => ∃ x,
      FuncIs f { fn with windows := fn.windows.put n x } s t ∧ x = { fn.windows.getD n {} with shSize := v32.toNat }) ∧
    (∀ m < 8, (chanOf s m 15).state = .idle → Does (w (.mov m) (0x100 + 15 * 0x40 + 0x18)) [.movers] s fun t =>
      (chanOf t m 15).count = fieldOf v 0 24) ∧
    read .adm 0x08 [.out] s.adm.lHost.toNat (fun _ => True) ∧
    (s.fresh = [] →
      read .vlt 0x64 [.vlt, .out] s.vlt.eccCe.toNat (fun t => t.vlt = { s.vlt with eccCe := 0 }) ∧
      read .tt 0x38 [.tt, .out] (s.tt.miss.toNat + s.tt.offwin.toNat * 65536)
        (fun t => t.tt = { s.tt with miss := 0, offwin := 0 }) ∧
      read .pwr 0x20 [.pwr, .out] s.pwr.cntEntry.toNat (fun t => t.pwr = { s.pwr with cntEntry := 0 }) ∧
      (∀ port < 72, ∀ p, s.mports.find port = some p → read .mem (0x1000 + 32 * port + 0x10) [.mports, .out] p.cntTmo.toNat
        (MportIs port { p with cntTmo := 0 } s))) ∧
    (∀ n < 2 ^ 32, s.fresh = [{ block := .vlt, off := 0x64, pos := 0, amount := n }] →
      read .vlt 0x64 [.vlt, .out] s.vlt.eccCe.toNat fun t => t.vlt = { s.vlt with eccCe := BitVec.ofNat 32 n }) ∧
    (∀ f fn, answers s f = some fn →
      (fn.d3 = false →
        (s.fresh = [] → read (.fn f) 0x20 [.funcs, .out] fn.cntCto.toNat (FuncIs f { fn with cntCto := 0 } s)) ∧
        (∀ off size, size ≠ 4 ∧ size ≠ 8 ∨ off % size ≠ 0 →
          Does (.readToClear (.fn f) ⟨off, size⟩) [.out] s fun t => t.out = .hostAbort f :: s.out) ∧
        (∀ slot q off size, fn.sqs.find slot = some q → q.push = true → slot < 16 → off + size ≤ 4096 →
          Does (.readToClear (.bar2 f) ⟨slot * 0x20000 + off, size⟩) [.out] s fun t =>
            t.out = .barData f (q.pushMem.bytes off size) :: s.out) ∧
        (∀ off size, (∀ slot q, fn.sqs.find slot = some q → q.push = true → slot ≠ off / 0x20000) →
          Does (.readToClear (.bar2 f) ⟨off, size⟩) [.out] s fun t => t.out = .unsupported f :: s.out)) ∧
      (fn.d3 = true → ∀ off size, ∀ b ∈ [RegBlock.fn f, .bar2 f],
        Does (.readToClear b ⟨off, size⟩) [.out] s fun t => t.out = .unsupported f :: s.out))

/-- Peer windows and the registers of the admission unit (R60, R63, R74, R420, R421): a commit puts the shadow set in
force, with new staging frames when it enables the window or changes its size, with none when it disables it, and
waits while frames are short; a resume does the same; the Maintenance floor to 50 gives new ceilings, a larger one is
refused and logged; a group's running mode waits for the edge. It says that WIN_COMMIT, WIN_COMMIT_RESUME,
ADM_MAINT_FLOOR_WRITE and ADM_GROUP_MODE_WRITE complete. -/
def Obligations.WindowsAndAdmission : Prop :=
  ∀ (s : State),
    (∀ f w fn, fnOf s f = some fn → w < 16 →
      let x := winOf fn w
      let puts : Window → State → Prop := fun y t => FuncIs f { fn with windows := fn.windows.put w y } s t
      let force : Window := { x with en := x.shEn, ridChk := x.shRidChk, size := x.shSize, rid := x.shRid, gen := x.shGen,
                                     evt := x.shEvt, commitPend := false, commitWait := [] }
      let commits : Instr → Prop := fun c => x.commitWait = [] →
        (x.shEn = false → Runs c s (puts { force with pages := [] })) ∧
        (x.shEn = true → x.en = true → x.shSize = x.size → Does c [.funcs] s (puts force)) ∧
        (x.shEn = true → x.en = false ∨ x.shSize ≠ x.size →
          (winFrames (x.shSize / 4096) s = none → Does c [.funcs] s (puts { x with commitPend := true })) ∧
          (∀ frs u, winFrames (x.shSize / 4096) s = some (frs, u) →
            Runs c s (puts { force with pages := (List.range frs.length).zip frs })))
      commits (.winCommit f w) ∧ (x.commitPend = true → commits (.winCommitResume f w))) ∧
    (∀ value : BitVec 32, let v := value.toNat % 64
      (v ≤ 50 → Runs (.admMaintFloorWrite value) s fun t => t.adm.maintFloor = BitVec.ofNat 6 v ∧
        t.adm.ceilEng = BitVec.ofNat 32 (24 * s.tt.nomActive.toNat) ∧
        t.adm.ceilMov = BitVec.ofNat 32 (s.tt.nomActive.toNat * 256 / 4096) ∧
        t.adm.ceilHbm = BitVec.ofNat 32 (s.tt.nomActive.toNat * 1200 / 4096)) ∧
      (50 < v → Does (.admMaintFloorWrite value) [.errLog, .errSeq] s fun t => t.errSeq = s.errSeq + 1)) ∧
    (∀ g (value : BitVec 32),
      let mode : BitVec 2 := if value.toNat % 4 = 3 then 0 else BitVec.ofNat 2 value.toNat
      (g < 8 → Does (.admGroupModeWrite g value) [.adm, .errLog, .errSeq] s fun t =>
        t.adm = { s.adm with groupModeNext := s.adm.groupModeNext.put g mode }) ∧
      (8 ≤ g → exec (.admGroupModeWrite g value) s = .next s))

/-- Mailboxes (R429 to R437): a sender that reads a free lock takes it, its owner frees it, an owner posts and the
receiver takes, an untaken message ends at its timeout; accesses out of turn are ignored and counted; a waiting
notice is posted under the signal box's lock. It says that MBX_LOCK_READ, MBX_LOCK_WRITE, MBX_POST, MBX_TAKE,
MBX_TIMEOUT and NOTICE_POST complete. -/
def Obligations.Mailboxes : Prop :=
  ∀ (s : State) (i : Nat), i < 64 →
    let b := boxOf s i
    let boxIs : Mailbox → State → Prop := fun y t => t.mbx = { s.mbx with boxes := s.mbx.boxes.put i y }
    let ended : Nat → Mailbox := fun cause =>
      { b with full := false, cause := cause, empty := true, noticeHeld := b.posterReset,
               owner := if 8 ≤ i ∧ i < 16 then 0 else b.owner }
    (∀ a,
      (agentReads s a = true → isSender b a = true → b.owner = 0 → Does (.mbxLockRead i a) [.mbx, .out] s fun t =>
        boxIs { b with owner := a } t ∧ t.out = .regRead 0 :: s.out) ∧
      (agentReads s a = true → isSender b a = true → b.owner ≠ 0 → Does (.mbxLockRead i a) [.out] s fun t =>
        t.out = .regRead (BitVec.ofNat 64 b.owner) :: s.out) ∧
      (agentReads s a = true → isSender b a = false → isRecv b a = false →
        Does (.mbxLockRead i a) [.out] s fun t => t.out = .regRead 0 :: s.out) ∧
      (∀ v : BitVec 32, agentUp s a = true →
        (b.owner = a → v.toNat % 4096 = 0 → Does (.mbxLockWrite i a v) [.mbx] s (boxIs { b with owner := 0 })) ∧
        (b.owner ≠ a ∨ v.toNat % 4096 ≠ 0 → isSender b a = true →
          Does (.mbxLockWrite i a v) [.mbx, .fresh] s (boxIs { b with cntIgn := satInc b.cntIgn })) ∧
        (b.owner = a → b.full = false → v.getLsbD 0 = true → Does (.mbxPost i a v) [.mbx] s (boxIs
          { b with full := true, poster := a, posterReset := false, noticeHeld := false, due := after s b.tmo.toNat })) ∧
        (b.owner ≠ a ∨ b.full = true → isSender b a = true →
          Does (.mbxPost i a v) [.mbx, .fresh] s (boxIs { b with cntIgn := satInc b.cntIgn })) ∧
        (isRecv b a = true → b.full = true → past s b.due = true → v.getLsbD 0 = true → Runs (.mbxTake i a v) s
          (boxIs { ended 2 with cntIgn := satInc b.cntIgn })) ∧
        (isRecv b a = true → b.full = true → past s b.due = false → v.getLsbD 0 = true → Runs (.mbxTake i a v) s fun t => boxIs (ended 1) t ∧
          (b.posterReset = false → 512 < b.poster → t.out = .mbxEvent b.poster i :: s.out)) ∧
        (isRecv b a = true → b.full = false → v.getLsbD 0 = true →
          Does (.mbxTake i a v) [.mbx, .fresh] s (boxIs { b with cntIgn := satInc b.cntIgn })))) ∧
    (b.full = true → due s b.due = true → Runs (.mbxTimeout i) s fun t => boxIs (ended 2) t ∧
      (b.posterReset = false → 512 < b.poster → t.out = .mbxEvent b.poster i :: s.out)) ∧
    (∀ p n rest, i = 8 + p → p < 8 → s.mbx.unattended = false → b.full = false → noticesOf s p = n :: rest →
      Does (.noticePost p) [.mbx] s fun t => noticesOf t p = rest ∧ boxOf t i =
        { b with msg := n, owner := 1025, full := true, poster := 1025, posterReset := false, noticeHeld := false,
                 due := after s b.tmo.toNat })

/-- The heartbeat of the signal box (R441 to R444): the first write starts the checks; a check that finds a new value
passes, two that fail enter unattended mode in the next slot, which starts a reload; a beat during a reload ends it; three
reloads without one give up. It says that MBX_HB_WRITE, HEARTBEAT_CHECK and RELOAD_HEARTBEAT_TIMEOUT complete. -/
def Obligations.Heartbeat : Prop :=
  ∀ (s : State),
    (∀ v, s.mbx.unattended = false → Does (.mbxHbWrite v) [.pwr, .mbx] s fun t => t.pwr = { s.pwr with fwBeat := true } ∧
      t.mbx = { s.mbx with hb := v, hbDue := if s.pwr.fwBeat then s.mbx.hbDue else after s s.mbx.hbPeriod.toNat }) ∧
    (∀ v, s.mbx.unattended = true → s.mbx.reloading = true → s.mbx.gaveUp = false → Runs (.mbxHbWrite v) s fun t =>
      t.mbx.hb = v ∧ t.mbx.unattended = false ∧ t.mbx.reloading = false ∧ Logged 0x0D01#16 0 s t) ∧
    (s.pwr.fwBeat = true → s.mbx.unattended = false → due s s.mbx.hbDue = true →
      let next := after s s.mbx.hbPeriod.toNat
      (s.mbx.hb ≠ s.mbx.hbSeen → Does .heartbeatCheck [.mbx] s fun t =>
        t.mbx = { s.mbx with hbSeen := s.mbx.hb, hbDue := next, hbFails := 0 }) ∧
      (s.mbx.hb = s.mbx.hbSeen → s.mbx.hbFails = 0 → Does .heartbeatCheck [.mbx] s fun t =>
        t.mbx = { s.mbx with hbDue := next, hbFails := 1 }) ∧
      (s.mbx.hb = s.mbx.hbSeen → 1 ≤ s.mbx.hbFails → Does .heartbeatCheck [.mbx] s fun t =>
        t.mbx = { s.mbx with hbDue := next, hbFails := s.mbx.hbFails + 1, lapsed := true })) ∧
    (s.mbx.lapsed = true → s.tt.running = true → s.tt.slot + 1 < slotsOf s.tt.kActive → s.pending = [] →
      ∃ t, step s = .next t ∧ t.mbx.unattended = true ∧ t.mbx.lapsed = false ∧ t.mbx.reloading = true ∧
        t.mbx.reloads = min 3 (s.mbx.reloads + 1) ∧ t.mbx.adminQ = [] ∧ t.mbx.reloadDue = after t (3000 * 2 ^ s.tt.kActive) ∧
        ∃ u, t.errLog.head? = some u ∧ u.code = 0x0D01#16) ∧
    (s.mbx.reloading = true → due s s.mbx.reloadDue = true →
      let n := s.mbx.reloadFails + 1
      Does .reloadHeartbeatTimeout [.tt, .mbx, .errLog, .errSeq] s fun t => Logged 0x0D02#16 n s t ∧ t.mbx.reloadFails = n ∧
        (n < 3 → t.mbx.reloading = true ∧ t.mbx.reloads = min 3 (s.mbx.reloads + 1)) ∧
        (3 ≤ n → t.mbx.reloading = false ∧ t.mbx.gaveUp = true))

/-- Requests of a PF to the signal box (R135, R166, R167, R430, R431): ADMIN_INIT makes the admin queue pair, BIND
and UNBIND a mailbox; each request is taken and answered by a RESULT notice, a refused or unknown one with
INVALID_FIELD. It says that ADMIN_INIT, BIND, UNBIND and MAILBOX_UNDEFINED_REQUEST complete. -/
def Obligations.MailboxRequests : Prop :=
  ∀ (s : State) (p : Nat), canTake s p = true →
    let m := (boxOf s p).msg
    let type := m.toNat % 256
    let answered : Nat → Nat → State → Prop := fun code box t => noticesOf t p = noticesOf s p ++
        [BitVec.ofNat 512 (0x81 + type * 2 ^ 8 + code * 2 ^ 16 + box * 2 ^ 24)] ∧
      (boxOf t p).full = false ∧ (boxOf t p).cause = 1
    (type = 1 → ∀ fn, fnOf s (64 * p) = some fn →
      let takes := (s.pwr.devState = .recovering ∨ s.pwr.devState = .ready) ∧ adminInitOk m = true ∧ fn.sqs.find 0 = none
      (takes → Runs (.adminInit p) s fun t => answered 0 0xFF t ∧ ∃ x q c, fnOf t (64 * p) = some x ∧
        x.shadow = some (msgField m 0x18 8) ∧ x.sqs.find 0 = some q ∧ x.cqs.find 0 = some c ∧ q.push = false ∧
        q.cls = .standard ∧ q.cqSlot = 0 ∧ q.log2 = msgField m 2 1 ∧ q.base = msgField m 8 8 ∧
        q.pollInt = msgField m 0x20 4 ∧ q.pi = 0 ∧ q.ci = 0 ∧ c.log2 = msgField m 3 1 ∧ c.base = msgField m 0x10 8 ∧
        c.vec = msgField m 4 2 ∧ c.pi = 0 ∧ c.ci = 0) ∧
      (¬takes → s.pwr.devState ≠ .starting → s.pwr.devState ≠ .off → Runs (.adminInit p) s fun t => answered 3 0xFF t ∧
        ∃ x, fnOf t (64 * p) = some x ∧ x.initErr = true ∧ x.sqs = fn.sqs ∧ x.cqs = fn.cqs)) ∧
    (type = 2 →
      (∀ i, freeBox s = some i → bindOk s p m = true → Runs (.bind p) s fun t => answered 0 i t ∧
        boxOf t i = { recv := msgField m 2 2, recvView := msgField m 4 1, send := bindSenders m, bound := true,
                      boundBy := some (64 * p) }) ∧
      (freeBox s = none ∨ bindOk s p m = false → Runs (.bind p) s (answered 3 0xFF))) ∧
    (type = 3 → let i := msgField m 1 1
      let allowed := (boxOf s i).boundBy = some (64 * p) ∧ msgField m 5 3 = 0 ∧ msgField m 0x18 40 = 0
      (allowed → 18 ≤ i → Tab.sorted s.mbx.boxes = true → Runs (.unbind p) s fun t => answered 0 i t ∧
        boxOf t i = fixedBox i) ∧
      (¬allowed → Runs (.unbind p) s (answered 3 0xFF))) ∧
    (type ≠ 1 → type ≠ 2 → type ≠ 3 → Runs (.mailboxUndefinedRequest p) s (answered 3 0xFF))

/-- The I/O commands (R123, R158, R176 to R186, R221, R222, R227, R326, R388): a READ sends the bytes of its blocks,
and their PI, from the cache or from what the members hold; a WRITE makes its blocks dirty, protected frames, waits
while frames are short, and ends with HOST_FAULT when its data does not come, with PI_MISMATCH and nothing stored
when a check fails, with DATA_POISONED and the poisoned blocks stored otherwise; WRITE_ZEROES and DEALLOCATE store
zeros; a FLUSH ends at once and one with DESTAGE waits for its blocks; a VERIFY of sound stripes ends with 0x00, and
rewrites P and Q where they differ, under the stripe's lock and a journal record. Each is posted and its thread is
over; the completion joins its ring unless it waits for blocks (DESTAGE, write-through, rewrites). It says that READ,
WRITE, FLUSH, FLUSH_DESTAGE, WRITE_ZEROES, DEALLOCATE and VERIFY complete. -/
def Obligations.IoCommands : Prop :=
  ∀ (s : State) (cx opc n : Nat) (c : Ctx) (v : Volume), ioCtx s cx opc = some c → c.vol = some n → s.vols.find n = some v →
    flrNow s c.func.toNat = false → c.h = [] → c.pinned = [] → locksHeld s cx = [] → recsOf s cx = [] → s.vlt.pfail = false →
    let f := c.func.toNat
    let e := c.cmd
    let blocks := eBlocks e
    let sect := sectorOf v.pi e
    let posted : Nat → State → Prop := fun code t => ∃ z, t.ctxs.find cx = some z ∧ z.state = .doneUnposted ∧
      z.posted = some (BitVec.ofNat 8 code)
    let finished : Nat → State → Prop := fun code t => posted code t ∧ ∀ q k, sqOf s f (c.sqid.toNat % 64) = some q →
      cqOf s f q.cqSlot = some k → ∃ r y, cqOf t f q.cqSlot = some y ∧ y.ready = k.ready ++ [r] ∧ r.cid = eCid e ∧
        r.status = BitVec.ofNat 8 code ∧ r.readyTs = now s ∧ r.ctx = some cx
    let ends : Nat → State → Prop := fun code t => posted code t ∧ (c.flushWait = [] → c.writeBack = true → finished code t)
    let host := eDpk e = 0 ∧ eBits e 32 0 32 = blocks * sect ∧ atsPasid s c = none ∧
      ∃ fn, fnOf s f = some fn ∧ upstreamOk s fn = true ∧ 1 ≤ fn.mps
    let room := callocRoom s c blocks = true ∧ Tab.sorted s.cache.frames = true ∧ ∀ x ∈ s.cache.frames, x.1 < Config.frames
    let stored : State → (Nat → Frame → Prop) → Prop := fun t p => ∀ i < blocks, inPoisonList t n (eLba e + i) = false ∧
      ∃ fr y, t.cache.frames.find fr = some y ∧ y.key = some (n, eLba e + i) ∧ y.dirty = true ∧ y.prot = true ∧ y.pins = 0 ∧ p i y
    (opc = 1 → host → ∀ g lanes (d : Nat → Memory) (p : Nat → Word), s.groups.find v.group = some g →
      (∀ l ∈ lanes, ∃ m, l.event = .ok m) → (lanes = [] ∨ ∀ x ∈ s.vols, x.2.pi = false) →
      (∀ i < blocks, inPoisonList s n (eLba e + i) = false ∧ (v.pi = true → guardOk (d i) (p i) = true) ∧
        ((∃ fr, servedBy s n (eLba e + i) = some fr ∧ fr.poison = false ∧ fr.data = d i ∧ fr.pi = p i) ∨
          (servedBy s n (eLba e + i) = none ∧ v.pi = false ∧ blockOpen s g v lanes (eLba e + i) false = false ∧
            memberBlock s g v lanes (eLba e + i) false = some (d i)))) →
      Runs (.read cx lanes) s fun t =>
        ends (if v.pi = true ∧ ∃ i < blocks, tagsOk (piCtl e) i (p i) = false then 7 else 0) t ∧
        let sent : Nat → Byte → Prop := fun off x => ∃ a bs ro, Out.hostData f a bs false ro (prefixPasid s c) ∈ t.out ∧
          a ≤ eBits e 24 0 64 + off ∧ bs[eBits e 24 0 64 + off - a]? = some x
        ∀ i < blocks, (∀ k < 4096, sent (i * sect + k) ((d i).read k)) ∧
          (sect = 4104 → ∀ k < 8, ∃ x, (piBytes (p i))[k]? = some x ∧ sent (i * sect + 4096 + k) x)) ∧
    (opc = 2 → host → ∀ bs : List HostBlock,
      let pis := eFlag e 10
      let fails := v.pi = true ∧ pis = false ∧ ∃ i < blocks, ∃ b, bs[i]? = some b ∧
        (guardOk b.data b.pi = false ∨ tagsOk (piCtl e) i b.pi = false)
      Runs (.write cx false bs) s (ends 9) ∧
      (bs.length = blocks → fails → Runs (.write cx true bs) s fun t => ends 7 t ∧ t.cache = s.cache) ∧
      (bs.length = blocks → ¬fails → callocRoom s c blocks = false → Runs (.write cx true bs) s fun t =>
        t.cache = s.cache ∧ ∃ y, t.ctxs.find cx = some y ∧ y.state = .waiting ∧ y.wait = .frames ∧ y.posted = none) ∧
      (bs.length = blocks → ¬fails → room → Runs (.write cx true bs) s fun t =>
        ends (if ∃ b ∈ bs, b.ep = true then 6 else 0) t ∧ stored t fun i y => ∃ b, bs[i]? = some b ∧ y.data = b.data ∧
          y.poison = b.ep ∧ y.pi = if v.pi = false then piNone else if pis then piGen (piCtl e) i b.data else b.pi)) ∧
    (opc = 2 → eDpk e = 2 → v.pi = false → room → ∀ q bs, sqOf s f (c.sqid.toNat % 64) = some q →
      let b := eBits e 24 0 4
      b ∉ q.inlinePoison → Runs (.write cx true bs) s fun t => ends 0 t ∧ stored t fun i y =>
        ∀ k < 4096, y.data.read k = (q.inline_.getD b {}).read (4096 * i + k)) ∧
    (room →
      (opc = 4 → Runs (.writeZeroes cx) s fun t => ends 0 t ∧ stored t fun i y => (∀ j, y.data.read j = 0) ∧
        y.poison = false ∧ y.pi = if v.pi then piZeroes (piCtl e) i else piNone) ∧
      (opc = 5 → Runs (.deallocate cx) s fun t => ends 0 t ∧ stored t fun _ y => (∀ j, y.data.read j = 0) ∧
        y.poison = false ∧ y.pi = piNone)) ∧
    (opc = 3 → eFlag e 10 = false → Runs (.flush cx) s (ends 0)) ∧
    (opc = 3 → eFlag e 10 = true → c.writeBack = true →
      (c.flushWait = [] → Runs (.flushDestage cx) s (finished 0)) ∧
      (c.flushWait ≠ [] → Runs (.flushDestage cx) s fun t => t.funcs = s.funcs ∧ posted 0 t ∧
        ∀ y, t.ctxs.find cx = some y → y.flushWait = c.flushWait)) ∧
    (opc = 6 → v.pi = false → ∀ g lanes (d : Nat × Nat → Nat → Memory), s.groups.find v.group = some g →
      (∀ u ∈ rangeUnits g v e, lockOf s v.group u.1 = none) → (∀ l ∈ lanes, ∃ m, l.event = .ok m) →
      (∀ x ∈ s.vols, x.2.pi = false) →
      (∀ u ∈ rangeUnits g v e, ∀ i < g.w + 2, verifyStrips s v.group g lanes u.1 u.2 i = .data (d u i)) →
      let p : Nat × Nat → Memory := fun u => xorFrames ((List.range g.w).map (d u))
      let q : Nat × Nat → Memory := fun u => weightedFrames (indexed ((List.range g.w).map (d u)))
      let wrong : Nat × Nat → Nat := fun u => (if d u g.w ≠ p u then 2 ^ g.w else 0) + if d u (g.w + 1) ≠ q u then 2 ^ (g.w + 1) else 0
      ((∀ u ∈ rangeUnits g v e, wrong u = 0) → Runs (.verify cx lanes) s fun t => ends 0 t ∧ t.errSeq = s.errSeq ∧
        t.out = s.out ∧ t.journal = s.journal) ∧
      ∀ u ∈ rangeUnits g v e, wrong u ≠ 0 → (∀ x ∈ rangeUnits g v e, x ≠ u → wrong x = 0) → rewriteRoom s 2 = true →
        Runs (.verify cx lanes) s fun t => Logged 0x0B23#16 (u.1 + wrong u * 2 ^ 32) s t ∧ posted 0 t ∧
          (lanesTaken s g u.1 [(g.w, p u), (g.w + 1, q u)] = [] → ends 0 t ∧ t.journal = s.journal) ∧
          ((∀ i ∈ [g.w, g.w + 1], takesReplay s g (place g u.1 i).member = true) → Tab.sorted s.cache.frames = true →
            (∀ x ∈ s.cache.frames, x.1 < Config.frames) → ∃ i r, t.journal.recs.find i = some r ∧ r.sealed = true ∧
              r.group = v.group ∧ r.stripe = u.1 ∧ r.repair = some (.verify cx) ∧ (lockOf t v.group u.1).isSome = true))

/-- Admin commands on volumes (R188 to R193, R199, R283): IDENTIFY_VOLUME sends its 4,096 bytes; CREATE makes a
volume with its extents, attached to its function, and one with PI waits until its PI is written (log entry 52);
ATTACH and DETACH change the list of functions, DELETE_VOLUME unmaps its blocks and queues its extents for zeroing,
the last two once its commands have ended; BIND_ROUTE sets the route. It says that IDENTIFY_VOLUME,
CREATE_VOLUME_CREATE, CREATE_VOLUME_ATTACH, CREATE_VOLUME_DETACH, DELETE_VOLUME and BIND_ROUTE complete. -/
def Obligations.AdminVolumes : Prop :=
  ∀ (s : State) (a : AdminCmd),
    let e := a.entry
    let vol := eVol e
    let u := adminTake s a.port
    let ends : Nat → State → Prop := fun code t => AdminEnds code a s t
    let refused : Nat → State → Prop := fun code t => ends code t ∧ t.vols = s.vols ∧ t.groups = s.groups ∧ t.out = s.out
    (AdminReady a 0x40 { vol := true, dir := .toHost } s →
      (adminLen a ≠ 4096 → Runs (.identifyVolume a) s (refused 3)) ∧
      (adminLen a = 4096 → Runs (.identifyVolume a) s fun t => ends 0 t ∧ ∃ bs, AdminSent a bs s t ∧ bs.length = 4096 ∧
        let at_ : Nat → Nat → Nat := fun k n => leNat ((bs.drop k).take n)
        at_ 0 2 = vol ∧ (s.vols.find vol = none → ∀ b ∈ bs.drop 2, b = 0) ∧
        ∀ v, s.vols.find vol = some v → at_ 2 1 = (if v.deleting then 2 else 1) ∧
          at_ 3 1 = bit v.pi 0 + bit (v.marks.contains (64 * a.port)) 1 ∧ at_ 4 1 = v.group % 256 ∧
          at_ 6 2 = v.route % 2 ^ 16 ∧ at_ 8 8 = v.blocks % 2 ^ 64 ∧
          at_ 0x10 4 = (v.extents.length + v.piExtents.length) % 2 ^ 32 ∧ at_ 0x14 4 = v.deferredCnt.toNat ∧
          at_ 0x18 8 = v.createTs.toNat)) ∧
    (AdminReady a 0x41 cvForm s →
      let f := cvFunc e
      (cvAction e = 0 → ∀ g, s.groups.find (eBits e 41 0 3) = some g → g.assembly = .assembled ∨ g.assembly = .repairing →
        let unused := s.vols.find vol = none ∧ vol ∉ s.freedVols
        (¬unused → Runs (.createVolumeCreate a) s (refused 3)) ∧
        (unused → 2 ≤ outF g → Runs (.createVolumeCreate a) s (refused 14)) ∧
        (unused → outF g < 2 → createdVol u e (eBits e 41 0 3) g = none → Runs (.createVolumeCreate a) s (refused 3)) ∧
        ∀ v x, unused → outF g < 2 → createdVol u e (eBits e 41 0 3) g = some (v, x) →
          let fits := routeFits s v.route g = true ∧ (fnOf s f).isSome = true ∧
            sumsFit { u with vols := u.vols.put vol v, groups := u.groups.put (eBits e 41 0 3) x } = true
          (¬fits → Runs (.createVolumeCreate a) s (refused 3)) ∧
          (fits → Runs (.createVolumeCreate a) s fun t => (∃ w, VolIs vol { v with fill := w } s t ∧
              (v.pi = false → w = none ∧ ends 0 t) ∧
              (v.pi = true → ∃ b, w = some { cmd := some b } ∧ AdminWaits a [b] s t)) ∧
            GroupIs (eBits e 41 0 3) x s t ∧ t.rb.changed = true ∧ t.out = s.out ∧ v.blocks = eLba e + 1 ∧
            v.createTs = now s ∧ v.attached = [f] ∧ v.route = eBits e 44 0 16 ∧ v.pi = (eBits e 41 3 1 == 1) ∧
            v.extents.length = (eLba e + 262144) / 262144 ∧
            v.piExtents.length = (if eBits e 41 3 1 = 1 then ((eLba e + 262144) / 262144 + 511) / 512 else 0) ∧
            x.used = g.used ++ v.extents ++ v.piExtents)) ∧
      (cvAction e = 3 → Runs (.createVolumeCreate a) s (refused 3)) ∧
      (cvAction e = 1 → (usableVol s vol = none ∨ fnOf s f = none ∨ eLba e ≠ 0 →
          Runs (.createVolumeAttach a) s (refused 3)) ∧
        ∀ v, usableVol s vol = some v → (fnOf s f).isSome = true → eLba e = 0 →
          (f ∈ v.attached → Runs (.createVolumeAttach a) s (refused 0)) ∧
          (f ∉ v.attached → let fits := sumsFit (updVol u vol fun v => { v with attached := v.attached ++ [f] })
            (fits = true → Runs (.createVolumeAttach a) s fun t => ends 0 t ∧
              VolIs vol { v with attached := v.attached ++ [f] } s t) ∧
            (fits = false → Runs (.createVolumeAttach a) s (refused 3)))) ∧
      (cvAction e = 2 → ∀ v, usableVol s vol = some v → (fnOf s f).isSome = true → eLba e = 0 →
        (f ∉ v.attached → Runs (.createVolumeDetach a) s (refused 3)) ∧
        (f ∈ v.attached → v.detachWait = [] →
          let y := { v with attached := v.attached.filter (· != f), marks := v.marks.filter (· != f) }
          (volBusy s vol (some f) = false → Runs (.createVolumeDetach a) s fun t => ends 0 t ∧ VolIs vol y s t) ∧
          (volBusy s vol (some f) = true → Runs (.createVolumeDetach a) s fun t => ∃ w,
            VolIs vol { y with detachWait := w } s t ∧ AdminWaits a (w.map Prod.snd) s t)))) ∧
    (AdminReady a 0x42 { vol := true } s →
      (usableVol s vol = none → Runs (.deleteVolume a) s (refused 3)) ∧
      ∀ v, usableVol s vol = some v → v.detachWait = [] →
        (volBusy s vol none = true ∨ v.fill.isSome = true → Runs (.deleteVolume a) s fun t => t.rb.changed = true ∧ ∃ w,
          VolIs vol { v with deleting := true, deleteWait := some w } s t ∧ AdminWaits a [w] s t) ∧
        (volBusy s vol none = false → v.fill = none → Tab.sorted s.vols = true → Runs (.deleteVolume a) s fun t => ends 0 t ∧
          t.vols.find vol = none ∧ t.freedVols = s.freedVols ++ [vol] ∧ (∀ k, k ≠ vol → t.vols.find k = s.vols.find k) ∧ t.rb.changed = true ∧
          (∀ x ∈ t.cache.frames, ∀ l, x.2.key ≠ some (vol, l)) ∧ ∀ g, s.groups.find v.group = some g → ∃ y,
            t.groups.find v.group = some y ∧ ∀ x ∈ v.extents ++ v.piExtents, ∃ z ∈ y.zeroing, z.extent = x ∧ z.vol = some vol)) ∧
    (AdminReady a 0x47 { vol := true, tail := [(40, 0, 16)] } s → (usableVol s vol = none → Runs (.bindRoute a) s (refused 3)) ∧
      ∀ v g, usableVol s vol = some v → s.groups.find v.group = some g →
      (routeFits s (eBits e 40 0 16) g = true → Runs (.bindRoute a) s fun t => ends 0 t ∧
        VolIs vol { v with route := eBits e 40 0 16 } s t) ∧
      (routeFits s (eBits e 40 0 16) g = false → Runs (.bindRoute a) s (refused 3)))

/-- Admin commands on queues, power, logs, tokens, the timetable and windows (R65, R168, R169, R198 to R202, R205 to
R208, R424): each refuses what its checks refuse with INVALID_FIELD and no other effect; CREATE_QUEUE makes a ring or
a queue with indices 0; SET_POWER, SET_TOKENS, SET_TIMETABLE and a SET_WINDOW with COMMIT end when what they set has
taken effect. The first clause says what every admin command shares: unattended it is NOT_ADMITTED, a reserved field
that is not 0 or a wrong list is INVALID_FIELD, a list or data that did not arrive whole HOST_FAULT, poisoned data
DATA_POISONED; while a power failure has stopped the part, or the data cannot move, it waits (R10, R120, R123, R126,
R153, R154, R174, R345). It says that CREATE_QUEUE, SET_POWER, GET_LOG, SET_TOKENS, SET_TIMETABLE and SET_WINDOW
complete. -/
def Obligations.AdminSettings : Prop :=
  ∀ (s : State) (a : AdminCmd),
    let e := a.entry
    let u := adminTake s a.port
    let ends : Nat → State → Prop := fun code t => AdminEnds code a s t
    (∀ c fm, adminRowOf c = some (a, true, fm) → (∃ q, adminHead s a.port = some q ∧ q.entry = e) → a.port < 8 →
      flrNow s (64 * a.port) = false →
      let turned : Nat → Prop := fun code => Runs c s fun t => ends code t ∧ t.out = s.out
      let list := eDpk e = 1 ∧ a.list.length ≠ 16 * eBits e 32 0 16
      let bad := eDpk e = 1 ∧ listOk (adminList a) (adminLen a) = false
      let data := ¬list ∧ ¬bad ∧ fm.dir = .fromHost
      (frozen s = true → exec c s = .next s) ∧
      (frozen s = false →
        (s.mbx.unattended = true → turned 1) ∧
        (s.mbx.unattended = false → adminRsvdOk e fm = false → turned 3) ∧
        (s.mbx.unattended = false → adminRsvdOk e fm = true → fm.dir ≠ .none →
          (pfUp s a.port = false → exec c s = .next s) ∧
          (pfUp s a.port = true → (list → turned 9) ∧ (¬list → bad → turned 3) ∧ (data → a.poisoned = true → Runs c s fun t => ends 6 t ∧
              ∀ fn, fnOf s (64 * a.port) = some fn → ∃ y, fnOf t (64 * a.port) = some y ∧ y.cntPsnIn = satInc fn.cntPsnIn) ∧
            (data → a.poisoned = false → a.data.length ≠ adminLen a → turned 9))))) ∧
    (AdminReady a 0x43 cqForm s →
      let q := queueSpec e
      (queueOk s a.port q = false → Runs (.createQueue a) s fun t => ends 3 t ∧ t.adm = s.adm ∧ t.out = s.out) ∧
      (queueOk s a.port q = true → Runs (.createQueue a) s fun t => ends 0 t ∧ ∃ fn x, fnOf s q.func = some fn ∧
        fnOf t q.func = some x ∧ x.shadow = (fn.shadow.orElse fun _ => some q.shadow) ∧
        (q.kind = 0 → t.adm = s.adm ∧ ∃ k, x.cqs.find q.slot = some k ∧ k.log2 = q.log2 ∧ k.base = q.base ∧ k.ien = q.ien ∧
          k.vec = q.vec ∧ k.ivCount = q.ivCountM1 + 1 ∧ k.ivDelay = q.ivDelay ∧ k.pi = 0 ∧ k.ci = 0) ∧
        (q.kind ≠ 0 → ∃ k, x.sqs.find q.slot = some k ∧ k.push = (q.kind == 2) ∧ k.cls = clsOfSpec q.cls ∧
          k.cqSlot = q.cqSlot ∧ k.log2 = q.log2 ∧ k.base = q.base ∧ k.pollInt = q.pollInt ∧
          k.pasid = (if q.pasidEn then some q.pasid else none) ∧ k.quota = q.quotaM1 + 1 ∧ k.pi = 0 ∧ k.ci = 0) ∧
        (q.kind ≠ 0 → q.cls ≠ 0 → t.adm = s.adm) ∧
        (q.kind ≠ 0 → q.cls = 0 → ∃ i, t.adm.exp.find i =
          some { sqid := BitVec.ofNat 16 (sqidOf q.func q.slot), func := BitVec.ofNat 9 q.func }))) ∧
    (AdminReady a 0x44 spForm s →
      let rung := eBits e 40 0 3
      let dwell := eBits e 42 0 16
      let y := { s.pwr with setRung := BitVec.ofNat 3 rung, setDwell := BitVec.ofNat 16 dwell, setWaiters := [] }
      (4 < rung ∨ dwell = 0 → Runs (.setPower a) s fun t => ends 3 t ∧ t.pwr = s.pwr) ∧
      (rung ≤ 4 → dwell ≠ 0 → s.pwr.setWaiters = [] →
        (targetRung { s with pwr := y } = 0 → Runs (.setPower a) s fun t => ends 0 t ∧ t.pwr = y) ∧
        (targetRung { s with pwr := y } ≠ 0 → Runs (.setPower a) s fun t => AdminWaits a t.pwr.setWaiters s t ∧
          t.pwr = { y with setWaiters := t.pwr.setWaiters }))) ∧
    (AdminReady a 0x45 glForm s →
      let id := eBits e 40 0 8
      let off := eBits e 44 0 32
      let fits := 1 ≤ id ∧ id ≤ 4 ∧ off % 64 = 0 ∧ adminLen a % 64 = 0 ∧ adminLen a ≠ 0 ∧ adminLen a ≤ 131072
      (¬fits → Runs (.getLog a) s fun t => ends 3 t ∧ t.out = s.out) ∧
      (fits → Runs (.getLog a) s fun t => ends 0 t ∧ ∃ bs, AdminSent a bs s t ∧ bs.length = adminLen a ∧
        let at_ : Nat → Nat → Nat := fun k n => leNat ((bs.drop k).take n)
        (off = 0 → at_ 0 1 = id ∧ at_ 2 2 = (if id = 3 then 64 else 32) ∧
          (id ≤ 2 → at_ 4 4 = Config.logCapacity ∧ at_ 0x10 8 = (now s).toNat)) ∧
        ∀ x, id = 1 → off = 64 → s.errSeq = 1 → s.errLog = [x] → at_ 0 4 = 0 ∧ at_ 4 2 = x.code.toNat ∧
          at_ 8 8 = x.ts.toNat ∧ at_ 0x18 8 = x.detail.toNat)) ∧
    (AdminReady a 0x48 stForm s →
      let r := tokenReq e
      let bad := Runs (.setTokens a) s fun t => ends 3 t ∧ t.adm = s.adm
      let own := ownFunc s a.port (if r.kind = 0 then r.target / 64 else r.target)
      let express := setExpress u r.target r.v.1 r.v.2.1 r.v.2.2.1
      (own = false → bad) ∧
      (r.kind = 0 → own = true → (r.v.2.2.2 ≠ 0 ∨ express = none → bad) ∧
        (r.v.2.2.2 = 0 → express.isSome = true → Runs (.setTokens a) s fun t => AdminWaits a t.adm.tokenWait s t ∧
          t.rb.changed = true ∧ t.adm.sb = s.adm.sb ∧ ∃ x, expOf t r.target = some x ∧
            x.2.next = some (r.v.1, r.v.2.1, r.v.2.2.1) ∧
            ∀ z, expOf s r.target = some z → x = (z.1, { z.2 with next := x.2.next }))) ∧
      (r.kind = 1 → own = true → Runs (.setTokens a) s fun t => AdminWaits a t.adm.tokenWait s t ∧ t.adm.exp = s.adm.exp ∧
        t.adm.sb.find r.target = some { (sbOf s r.target) with next := some r.v } ∧
        ∀ k, k ≠ r.target → t.adm.sb.find k = s.adm.sb.find k)) ∧
    (AdminReady a 0x4B (ttForm e) s →
      let r := ttReq e a.data
      let takes := eLba e < 2 ^ 44 ∧ (r.on 6 = true → adminLen a = 16 + 8 * r.count) ∧ r.ok s = true
      (¬takes → Runs (.setTimetable a) s fun t => ends 3 t ∧ t.tt = s.tt) ∧
      (takes → Runs (.setTimetable a) s fun t =>
        (r.waits = false → ends 0 t) ∧ (r.waits = true → AdminWaits a (t.tt.waiters.map TtWait.cmd) s t) ∧
        t.tt.inComp = (if r.on 3 then BitVec.ofNat 10 r.inComp else s.tt.inComp) ∧
        t.tt.planEn = (if r.on 7 then r.planEn else s.tt.planEn) ∧
        t.tt.refEn = (if r.on 5 then r.refEn else s.tt.refEn) ∧
        t.tt.outEn = (if r.on 4 then r.outEn else s.tt.outEn) ∧
        t.tt.cycleLoad = (if r.on 1 then BitVec.ofNat 44 r.cycleLoad else s.tt.cycleLoad) ∧
        (r.on 1 = true → t.tt.loadArm = true) ∧
        (r.on 0 = true → t.tt.nomCycle = BitVec.ofNat 32 r.nom ∧ t.tt.slotsLog2 = BitVec.ofNat 5 r.k ∧
          t.tt.switch.isSome = true ∧ t.tt.window = s.tt.window ∧ t.tt.possLead = s.tt.possLead) ∧
        (r.on 0 = false → t.tt.window = (if r.on 2 then BitVec.ofNat 16 r.window else s.tt.window) ∧
          t.tt.possLead = (if r.on 8 then BitVec.ofNat 32 r.possLead else s.tt.possLead)) ∧
        (r.on 6 = true → t.tt.commitPend = true ∧
          (if s.tt.bankB then t.tt.planA else t.tt.planB) = r.plan ∧
          (if s.tt.bankB then t.tt.planB else t.tt.planA) = (if s.tt.bankB then s.tt.planB else s.tt.planA)))) ∧
    (AdminReady a 0x4C swForm s →
      let f := eBits e 40 0 9
      let w := eBits e 42 0 4
      (windowOk s a.port e = false → Runs (.setWindow a) s (ends 3)) ∧
      (windowOk s a.port e = true → ∃ fn, fnOf s f = some fn ∧
        let x := shadowSet e (winOf fn w)
        let winIs : Window → State → Prop := fun y t => ∃ z, fnOf t f = some z ∧ winOf z w = y
        (x.shEn = (eBits e 44 0 1 == 1) ∧ x.shSize = eBits e 48 0 32 ∧ x.en = (winOf fn w).en) ∧
        (eBits e 43 0 1 = 0 → Runs (.setWindow a) s fun t => ends 0 t ∧ winIs x t) ∧
        (eBits e 43 0 1 = 1 → x.commitWait = [] →
          (x.shEn = false → Runs (.setWindow a) s fun t => ends 0 t ∧ winIs { (inForce x) with pages := [] } t) ∧
          (x.shEn = true → x.en = true → x.shSize = x.size → Runs (.setWindow a) s fun t => ends 0 t ∧
            winIs (inForce x) t) ∧
          (x.shEn = true → x.en = false ∨ x.shSize ≠ x.size →
            (∀ frs v, winFrames (x.shSize / 4096) s = some (frs, v) → Runs (.setWindow a) s fun t => ends 0 t ∧
              winIs { (inForce x) with pages := (List.range frs.length).zip frs } t) ∧
            (winFrames (x.shSize / 4096) s = none → Runs (.setWindow a) s fun t => t.cache = s.cache ∧
              t.mbx = u.mbx ∧ ∃ b, b.entry = e ∧ winIs { x with commitPend := true, commitWait := [b] } t)))))

/-- Groups, member ports and programs as admin commands change them (R76, R194, R195, R276, R279, R364, R371, R377,
R381, R382, R385, R396, R397): what each ACTION of MEMBER_CONTROL does and refuses, CREATE_GROUP, and LOAD_PROGRAM
with its segments and its verification. It says that LOAD_PROGRAM, CREATE_GROUP, MEMBER_CONTROL_RESET,
MEMBER_CONTROL_FAIL, MEMBER_CONTROL_REPLACE, MEMBER_CONTROL_PROFILE, MEMBER_CONTROL_ADOPT,
MEMBER_CONTROL_RETIRE_GROUP, MEMBER_CONTROL_FORMAT, MEMBER_CONTROL_SANITIZE, MEMBER_CONTROL_SCRUB,
MEMBER_CONTROL_POWER_OFF, MEMBER_CONTROL_SET_DEPTH and MEMBER_CONTROL_UNDEFINED_ACTION complete. -/
def Obligations.MemberControls : Prop :=
  ∀ (s : State) (a : AdminCmd),
    let e := a.entry
    let u := adminTake s a.port
    let ends : Nat → State → Prop := fun code t => AdminEnds code a s t
    let refused : Nat → State → Prop := fun code t => ends code t ∧ t.mports = s.mports ∧ t.groups = s.groups ∧ t.out = s.out
    (AdminReady a 0x49 cgForm s →
      let r := groupReq e
      (r.ok s = false → Runs (.createGroup a) s (refused 3)) ∧
      (r.ok s = true → Runs (.createGroup a) s fun t => t.rb.changed = true ∧
        (∀ k, k ≠ r.group → t.groups.find k = s.groups.find k) ∧ ∃ g, t.groups.find r.group = some g ∧
        g.assembly = .assembled ∧ g.n = r.n ∧ g.w = r.w ∧ g.stripLog2 = r.stripLog2 ∧ g.spare = r.spare ∧
        g.layout = r.layout ∧ g.createTs = now s ∧ g.labelsLeft = List.range r.n ∧ g.used = [] ∧ g.history = [] ∧
        g.members = (List.range r.n).zip r.ports ∧ AdminWaits a g.creator.toList s t ∧
        ∀ x ∈ g.members, ∃ q, t.mports.find x.2 = some q ∧ q.state = 2 ∧ q.group = some r.group ∧ q.index = x.1)) ∧
    (AdminReady a 0x46 lpForm s →
      let n := eBits e 40 0 16
      let first := eBits e 42 0 1 == 1
      let last := eBits e 42 1 1 == 1
      let seg := stageNext u n first last (eBits e 44 0 32) (eBits e 48 0 32) a.data
      (64 ≤ n → Runs (.loadProgram a) s fun t => ends 3 t ∧ t.progs = s.progs) ∧
      (n < 64 → seg = none → Tab.sorted s.progs.staging = true → Runs (.loadProgram a) s fun t => ends 3 t ∧
        t.progs.staging.find n = none ∧ t.progs.loaded = s.progs.loaded) ∧
      (n < 64 → ∀ st, seg = some st →
        (if first then st.bytes = a.data ∧ st.total = eBits e 48 0 32 ∧ eBits e 44 0 32 = 0 else
          ∃ o, s.progs.staging.find n = some o ∧ st.bytes = o.bytes ++ a.data ∧ eBits e 44 0 32 = o.bytes.length) ∧
        (last = false → Runs (.loadProgram a) s fun t => ends 0 t ∧ t.progs.staging.find n = some st ∧
          t.progs.loaded = s.progs.loaded) ∧
        (last = true → st.bytes.length = st.total ∧
          (∀ p, verify (dropStaging u n) n st.bytes = .ok p → Runs (.loadProgram a) s fun t => ends 0 t ∧
            t.progs.loaded.find n = some p) ∧
          ∀ r k, verify (dropStaging u n) n st.bytes = .error (r, k) → Runs (.loadProgram a) s fun t => ends 12 t ∧
            t.progs.loaded = s.progs.loaded ∧ Logged 0x0820#16 (r + k * 2 ^ 8) s t))) ∧
    (AdminReady a 0x4A mcForm s →
      let p := mcPort e
      let k := mcAction e
      let a1 := mcA1 e
      let a2 := mcA2 e
      let portIs : (MPort → Prop) → State → Prop := fun f t => ∃ q, t.mports.find p = some q ∧ f q
      (k = 0 ∨ 11 < k → Runs (.memberControlUndefinedAction a) s (refused 3)) ∧
      (s.mports.find p = none → ∀ c, memberActionOf c = some (a, k) → Runs c s (refused 3)) ∧
      ∀ m, s.mports.find p = some m →
        (k = 1 → (m.state = 1 ∨ m.state = 4 ∨ m.contained = true → Runs (.memberControlReset a) s fun t =>
            t.out.head? = some (.mperst p false) ∧ t.rb.changed = true ∧ portIs (fun q => q.powerOff = false ∧
              q.contained = false ∧ q.linkUp = false ∧ q.mperstHigh = false ∧ q.pulseDue = some (after s 6554) ∧ AdminWaits a q.resetWait s t) t) ∧
          (m.state ≠ 1 → m.state ≠ 4 → m.contained = false → Runs (.memberControlReset a) s (refused 3))) ∧
        (k = 2 → (judged m.state = false ∨ m.group = none → Runs (.memberControlFail a) s (refused 3)) ∧
          ∀ gno g, m.group = some gno → s.groups.find gno = some g → judged m.state = true →
            (m.state ≠ 5 → 2 ≤ outF g → Runs (.memberControlFail a) s (refused 14)) ∧
            (m.state = 5 ∨ outF g < 2 → (∀ x ∈ s.ctxs, ∀ i j l o, x.2.wait ≠ .retire i j l o) →
              Runs (.memberControlFail a) s fun t => ends 0 t ∧ t.rb.changed = true ∧ Logged 0x0B06#16 5 s t ∧
                portIs (fun q => q.state = 4 ∧ q.mperstHigh = false ∧ q.inPoss = false ∧ q.quarantine = []) t ∧
                ∃ y, t.groups.find gno = some y ∧ p ∉ y.inPoss ∧ y.labelDirty = true ∧
                  ((entryOf y m.index).isSome = true ∨ m.index ∈ y.extraFailed))) ∧
        (k = 3 → ∀ g, s.groups.find (a1 % 8) = some g →
          let f := a1 / 256 % 256
          (mayReplace s p m (a1 % 8) f g = false → Runs (.memberControlReplace a) s (refused 3)) ∧
          (mayReplace s p m (a1 % 8) f g = true →
            (entryPassed g f = true → 2 ≤ outF g → Runs (.memberControlReplace a) s (refused 14)) ∧
            (entryPassed g f = false ∨ outF g < 2 → Runs (.memberControlReplace a) s fun t => ends 0 t ∧
              t.rb.changed = true ∧ portIs (fun q => q.state = 5 ∧ q.group = some (a1 % 8) ∧ q.index = f) t ∧
              ∃ y, t.groups.find (a1 % 8) = some y ∧ y.members.find f = some p ∧ y.labelDirty = true))) ∧
        (k = 4 → let w := storeProfile u m.model a1 (a2 % 2 ^ 32)
          (m.present = false → Runs (.memberControlProfile a) s (refused 3)) ∧
          (m.present = true → w.1 = .success → Runs (.memberControlProfile a) s fun t => ends 0 t ∧ t.pwr = w.2.pwr ∧
            t.rb.changed = true ∧ MportIs p { m with profiled := true, latNs := BitVec.ofNat 32 a1,
                                                     rate := BitVec.ofNat 32 (a2 % 2 ^ 32) } s t) ∧
          (m.present = true → w.1 ≠ .success → Runs (.memberControlProfile a) s fun t => ends w.1.code t ∧
            t.mports = s.mports)) ∧
        ((m.group.bind fun g => s.groups.find g) = none → (k = 2 → Runs (.memberControlFail a) s (refused 3)) ∧
          (k = 5 → Runs (.memberControlAdopt a) s (refused 3)) ∧ (k = 6 → Runs (.memberControlRetireGroup a) s (refused 3))) ∧
        (k = 3 → s.groups.find (a1 % 8) = none → Runs (.memberControlReplace a) s (refused 3)) ∧
        (k = 5 → ∀ old g, m.group = some old → s.groups.find old = some g →
          let new := a1 % 8
          (g.assembly ≠ .foreign ∨ idMatches g a2 = false ∨ (new ≠ old ∧ (s.groups.find new).isSome = true) →
            Runs (.memberControlAdopt a) s (refused 3)) ∧
          (g.assembly = .foreign → idMatches g a2 = true → new = old ∨ s.groups.find new = none →
            Runs (.memberControlAdopt a) s fun t => t.mports.find p = some { m with group := some new } ∧
              ∃ w, t.groups.find new = some { g with assembly := .repairing, adopter := some w, labelDirty := true } ∧
                AdminWaits a [w] s t)) ∧
        (k = 6 → ∀ gno g, m.group = some gno → s.groups.find gno = some g →
          let may := g.assembly = .short ∨ g.assembly = .waitLayout ∨ g.assembly = .foreign ∨
            (g.assembly = .assembled ∧ ∀ v ∈ s.vols, v.2.group ≠ gno)
          ((gno < 8 ∧ gno ≠ a1 % 8) ∨ idMatches g a2 = false ∨ ¬may → Runs (.memberControlRetireGroup a) s (refused 3)) ∧
          (8 ≤ gno ∨ gno = a1 % 8 → idMatches g a2 = true → may → Tab.sorted s.groups = true →
            Runs (.memberControlRetireGroup a) s fun t => t.groups.find gno = none ∧
              (∀ i, i ≠ gno → t.groups.find i = s.groups.find i) ∧ (∀ l ∈ t.mem.lost, l.group ≠ gno) ∧
              ((∀ v ∈ s.vols, v.2.group ≠ gno) → ends 0 t) ∧
              (∀ i x, s.mports.find i = some x → x.group = some gno → ∃ z, t.mports.find i = some z ∧ z.group = none ∧
                z.state = if x.present then 1 else 0) ∧
              ∀ x ∈ g.members, ∀ z, s.mports.find x.2 = some z → z.present = true → z.contained = false →
                Out.labels gno (g.generation + 1) x.1 0 ∈ t.out)) ∧
        (k = 7 ∨ k = 8 → let c := if k = 7 then Instr.memberControlFormat a else .memberControlSanitize a
          let op := if k = 7 then MemOp.format (a1 % 16) else .sanitize (a1 % 8)
          (m.state ≠ 1 ∨ (k = 8 ∧ (a1 % 8 < 2 ∨ 4 < a1 % 8)) → Runs c s (refused 3)) ∧
          (m.state = 1 → k = 7 ∨ (2 ≤ a1 % 8 ∧ a1 % 8 ≤ 4) → Runs c s fun t =>
            t.out.head? = some (.memCmd p m.nextCid op 0 0 false false) ∧ portIs (fun q => ∃ x,
              q.cmds.find m.nextCid = some x ∧ x.op = op ∧ AdminWaits a x.waiter.toList s t) t)) ∧
        (k = 9 → (assembledOf s m = none → Runs (.memberControlScrub a) s (refused 3)) ∧
          ∀ g gr, assembledOf s m = some g → s.groups.find g = some gr → Runs (.memberControlScrub a) s fun t => ends 0 t ∧
            GroupIs g (if gr.scrubbing then gr else { gr with scrubbing := true, scrubNext := 0, scrubAt := some (now s) }) s t) ∧
        (k = 10 → (m.state ≠ 1 → m.state ≠ 4 → Runs (.memberControlPowerOff a) s (refused 3)) ∧
          (m.state = 1 ∨ m.state = 4 → Runs (.memberControlPowerOff a) s fun t => ends 0 t ∧
            t.out.head? = some (.mperst p false) ∧ portIs (fun q => q.powerOff = true ∧ q.mperstHigh = false ∧
              q.linkUp = false) t)) ∧
        (k = 11 → (assembledOf s m = none ∨ a1 % 4 = 3 → Runs (.memberControlSetDepth a) s (refused 3)) ∧
          ∀ g gr, assembledOf s m = some g → s.groups.find g = some gr → a1 % 4 < 3 →
            Runs (.memberControlSetDepth a) s fun t => ends 0 t ∧ t.rb.changed = true ∧
              GroupIs g { gr with depthCfg := a1 % 4 } s t))

/-- Gelbel messages (R199, R354, R446 to R454, R465, R479): every command that is served answers with its own number,
its tag and its status; a core command is NOT_ADMITTED on W2 to W4 and while unattended, a write is in Held, and Off
answers nothing; reads give their bytes, writes their effect, and the commands that act as admin commands do answer
when these end. The exact length of a request is the model's choice, and the body of GET_STATUS is as log entry 21
has it. It says that GELBEL_GET_STATUS, GELBEL_GET_ROUTE_BOOK, GELBEL_GET_TEMP, GELBEL_GET_FARE, TAG_READ, TAG_WRITE,
FW_UPDATE_BEGIN, FW_UPDATE_DATA, FW_UPDATE_COMMIT, FW_UPDATE_ABORT, GELBEL_TIMETABLE, VAULT_RELEASE,
GELBEL_MEMBER_CONTROL, GELBEL_SET_TOKENS, GELBEL_GET_LOG and GELBEL_UNDEFINED_COMMAND complete. -/
def Obligations.GelbelMessages : Prop :=
  ∀ (s : State) (g : GMsg),
    let reply : Byte → Byte → List Byte → State → Prop := fun cmd st bs t =>
      t.out.head? = some (.gelbel (cmd ||| 0x80#8) g.tag st bs)
    let tells : Instr → Byte → Byte → List Byte → Prop := fun c cmd st bs =>
      Does c [.out] s fun t => t.out = .gelbel (cmd ||| 0x80#8) g.tag st bs :: s.out
    let reads : Instr → Byte → Bool → List Byte → Prop := fun c cmd ok bs =>
      (ok = true → tells c cmd 0 bs) ∧ (ok = false → tells c cmd 3 [])
    let n := g.body.length
    let field : Nat → Nat → Nat := fun off k => leNat ((g.body.drop off).take k)
    let up := s.pwr.devState ≠ .off
    let core := up ∧ s.pwr.rung ≤ 1 ∧ s.mbx.unattended = false
    let live := s.pwr.devState ≠ .held
    let temp : Nat → BitVec 16 := fun i => s.pwr.temps.getD i 0x8000#16
    let cores : List (Byte × Instr) := [(0x04, .gelbelGetFare g), (0x07, .fwUpdateBegin g), (0x07, .fwUpdateData g),
      (0x07, .fwUpdateAbort g), (0x08, .gelbelTimetable g), (0x0B, .gelbelMemberControl g), (0x0C, .gelbelSetTokens g),
      (0x0D, .gelbelGetLog g)]
    (∀ x ∈ cores, (s.pwr.devState = .off → exec x.2 s = .next s) ∧
      (up → 2 ≤ s.pwr.rung ∨ s.mbx.unattended = true → tells x.2 x.1 1 [])) ∧
    (core → s.pwr.devState = .held → ∀ x ∈ cores, x.1 ≠ 0x04 → x.1 ≠ 0x0D → tells x.2 x.1 1 []) ∧
    (up → ∀ cmd : Byte, cmd = 0 ∨ 0x0D#8 < cmd → tells (.gelbelUndefinedCommand cmd g) cmd 2 []) ∧
    (up → (g.body ≠ [] → tells (.gelbelGetStatus g) 0x01 3 [] ∧ tells (.gelbelGetTemp g) 0x03 3 []) ∧
      (g.body = [] → tells (.gelbelGetTemp g) 0x03 0 ((List.range 12).map fun i => leBytes 2 (temp i).toNat).flatten ∧
        ∃ bs, tells (.gelbelGetStatus g) 0x01 0 bs ∧ bs.length = 25 ∧
          (bs.take 3).map BitVec.toNat = [s.pwr.devState.code, s.pwr.heldCode.toNat, s.pwr.rung % 256] ∧
          leNat ((bs.drop 11).take 4) = s.rb.gen.toNat)) ∧
    (up → reads (.tagRead g) 0x05 (n == 1 && decide (field 0 1 < 16)) (tagBytes s (field 0 1))) ∧
    (core ∨ s.pwr.devState = .held → let k := field 4 2
      reads (.gelbelGetRouteBook g) 0x02 (n == 6 && decide (k ≤ 1008) && decide (field 0 4 + k ≤ 0x10000))
        (leBytes 4 s.rb.gen.toNat ++ rbBytes s (field 0 4) k)) ∧
    (core → reads (.gelbelGetFare g) 0x04 (n == 3 && decide (field 2 1 ≤ 15) && decide (field 0 2 + field 2 1 ≤ 4096))
        (leBytes 4 s.fare.seq.toNat ++ leBytes 8 s.fare.ts.toNat ++
          ((List.range (field 2 1)).map fun i => fareBytes s.fare.seq (fareRecord s (field 0 2 + i))).flatten)) ∧
    (core → let k := field 5 2
      reads (.gelbelGetLog g) 0x0D (n == 7 && decide (1 ≤ field 0 1) && decide (field 0 1 ≤ 4) && decide (k ≤ 1008))
        (((logBytes s (field 0 1) (field 1 4 / 32 * 32) (k + 64)).drop (field 1 4 % 32)).take k)) ∧
    (up → live → n ≠ 257 → n ≠ 353 ∨ field 0 1 ≠ 1 → tells (.tagWrite g) 0x06 3 []) ∧
    (up → live → n = 257 ∨ (n = 353 ∧ field 0 1 = 1) → let r := field 0 1
      let bs := (g.body.drop 1).take 256
      let fits := r < 16 ∧ tagTypeFits r (leNat (bs.take 1)) = true
      (¬fits → tells (.tagWrite g) 0x06 3 []) ∧
      (fits → s.pwr.nvInhibit = true → Runs (.tagWrite g) s fun t => reply 0x06 13 [] t ∧ t.pwr = s.pwr ∧
        Logged 0x0E12#16 1 s t) ∧
      (fits → s.pwr.nvInhibit = false → s.pwr.tagWorn.getLsbD r = true → tells (.tagWrite g) 0x06 3 []) ∧
      (fits → s.pwr.nvInhibit = false → s.pwr.tagWorn.getLsbD r = false →
        let may := ∀ key, ownerKey s = some key → Config.sigValid bs key (g.body.drop 257) = true
        let seq := tagField s r 4 4 + 1
        (r = 1 → ¬may → Runs (.tagWrite g) s fun t => reply 0x06 3 [] t ∧ t.pwr = s.pwr ∧ Logged 0x0D11#16 0x301 s t) ∧
        (r ≠ 1 ∨ may → Runs (.tagWrite g) s fun t => reply 0x06 0 [] t ∧ Out.tagWrite r ∈ t.out ∧ t.rb.changed = true ∧
          Logged 0x0D10#16 (r + seq * 2 ^ 8) s t ∧ ∃ b, t.pwr.tags.find r = some b ∧ b.length = 256 ∧
          b.take 4 = bs.take 4 ∧ leNat ((b.drop 4).take 4) = seq % 2 ^ 32 ∧
          (b.drop 8).take 244 = (bs.drop 8).take 244 ∧ b.drop 252 = leBytes 4 (crc32 (b.take 252)).toNat ∧
          ∀ k, k ≠ r → t.pwr.tags.find k = s.pwr.tags.find k))) ∧
    (up → (n = 8 → Runs (.vaultRelease g) s fun t => reply 0x0A 0 [] t ∧
        t.pwr = { s.pwr with armedRelease := some (field 0 8) }) ∧ (n ≠ 8 → tells (.vaultRelease g) 0x0A 3 [])) ∧
    (core → live → s.vlt.pfail = false →
      (n = 5 ∧ field 0 1 = 0 ∧ field 1 4 ≤ 0x800000 → Runs (.fwUpdateBegin g) s fun t => reply 0x07 0 [] t ∧
        t.pwr = { s.pwr with fwLen := some (field 1 4), fwData := {} }) ∧
      (s.pwr.fwLen = none → tells (.fwUpdateData g) 0x07 3 []) ∧
      (∀ len, s.pwr.fwLen = some len → 5 ≤ n → field 0 1 = 1 → n ≤ 1005 →
        (len < field 1 4 + (n - 5) → tells (.fwUpdateData g) 0x07 3 []) ∧
        (field 1 4 + (n - 5) ≤ len → s.pwr.fwData.wf = true → Runs (.fwUpdateData g) s fun t => reply 0x07 0 [] t ∧
          t.pwr = { s.pwr with fwData := t.pwr.fwData } ∧ ∀ j, t.pwr.fwData.read j =
            if field 1 4 ≤ j ∧ j < field 1 4 + (n - 5) then g.body.getD (5 + j - field 1 4) 0 else s.pwr.fwData.read j)) ∧
      (n = 1 → field 0 1 = 3 → Runs (.fwUpdateAbort g) s fun t => reply 0x07 0 [] t ∧
        t.pwr = { s.pwr with fwLen := none, fwData := {} }) ∧
      (n = 1 → field 0 1 = 2 → ∀ x : SlotImage, let c := Instr.fwUpdateCommit g x
        let good := s.pwr.fwLen.isSome = true ∧ x.readOk = true ∧ x.magicOk = true ∧ x.sigOk = true ∧ s.pwr.otp ≤ x.svn ∧
          libraryKept s x = true
        (¬good → tells c 0x07 3 []) ∧
        (good → s.pwr.nvInhibit = true → Runs c s fun t => reply 0x07 13 [] t ∧ t.pwr = s.pwr) ∧
        (good → s.pwr.nvInhibit = false → Runs c s fun t => reply 0x07 0 [] t ∧ t.rb.changed = true ∧
          t.pwr.preferB = !s.pwr.bootSlotB ∧ t.pwr.fwLen = none ∧ Out.flashWrite (!s.pwr.bootSlotB) ∈ t.out ∧
          (if s.pwr.bootSlotB then t.pwr.slotA else t.pwr.slotB) = some x ∧
          (if s.pwr.bootSlotB then t.pwr.slotB else t.pwr.slotA) =
            if s.pwr.bootSlotB then s.pwr.slotB else s.pwr.slotA)) ∧
      (let a := gelbelEntry 0x08 g.tag (field 0 8 % 2 ^ 44) (g.body.drop 8)
        let r := ttReq a.entry []
        let takes := n = 32 ∧ field 0 8 < 2 ^ 44 ∧ tailOk a (ttForm a.entry) = true ∧ r.on 6 = false ∧ r.ok s = true
        (¬takes → tells (.gelbelTimetable g) 0x08 3 []) ∧
        (takes → Runs (.gelbelTimetable g) s fun t => (r.waits = false → reply 0x08 0 [] t) ∧
          (r.waits = true → t.out = s.out ∧ a ∈ t.tt.waiters.map TtWait.cmd) ∧
          t.tt.inComp = (if r.on 3 then BitVec.ofNat 10 r.inComp else s.tt.inComp) ∧
          t.tt.planEn = if r.on 7 then r.planEn else s.tt.planEn)) ∧
      (let a := gelbelEntry 0x0B g.tag 0 g.body
        let bad := tells (.gelbelMemberControl g) 0x0B 3 []
        let p := mcPort a.entry
        let k := mcAction a.entry
        (n ≠ 16 ∨ tailOk a mcForm = false → bad) ∧
        (n = 16 → tailOk a mcForm = true → (k = 0 ∨ 11 < k → bad) ∧ ∀ m, s.mports.find p = some m →
          (k = 9 → ∀ y gr, assembledOf s m = some y → s.groups.find y = some gr → Runs (.gelbelMemberControl g) s fun t =>
            reply 0x0B 0 [] t ∧
              GroupIs y (if gr.scrubbing then gr else { gr with scrubbing := true, scrubNext := 0, scrubAt := some (now s) }) s t) ∧
          (k = 10 → m.state = 1 ∨ m.state = 4 → Runs (.gelbelMemberControl g) s fun t => reply 0x0B 0 [] t ∧
            Out.mperst p false ∈ t.out ∧ ∃ q, t.mports.find p = some q ∧ q.powerOff = true ∧ q.mperstHigh = false) ∧
          (k = 1 → m.state = 1 ∨ m.state = 4 ∨ m.contained = true → Runs (.gelbelMemberControl g) s fun t =>
            Out.mperst p false ∈ t.out ∧ ∃ q, t.mports.find p = some q ∧ a ∈ q.resetWait ∧
              q.powerOff = false ∧ q.contained = false ∧ q.mperstHigh = false ∧ q.pulseDue = some (after s 6554)))) ∧
      (let a := gelbelEntry 0x0C g.tag 0 g.body
        let r := tokenReq a.entry
        let form : AdminForm := { tail := [(40, 0, 16), (42, 0, 1), (44, 0, 32), (48, 0, 32), (52, 0, 32), (56, 0, 32)] }
        (n ≠ 20 ∨ tailOk a form = false → tells (.gelbelSetTokens g) 0x0C 3 []) ∧
        (n = 20 → tailOk a form = true → r.kind = 1 →
          (fnOf s r.target = none → tells (.gelbelSetTokens g) 0x0C 3 []) ∧
          ((fnOf s r.target).isSome = true → Does (.gelbelSetTokens g) [.adm] s fun t => a ∈ t.adm.tokenWait ∧
            t.adm.sb.find r.target = some { (sbOf s r.target) with next := some r.v }))))

/-- The MCTP control messages and the console (R448, R449, R446): each answers in every state but Off; the console
changes nothing, answers `ERR POWER` to its core commands on W2 to W4 and `ERR ?` to an unknown one. The forms of the
replies are log entry 21. It says that MCTP_SET_ENDPOINT_ID, MCTP_GET_ENDPOINT_ID, MCTP_GET_VERSION_SUPPORT,
MCTP_GET_MESSAGE_TYPE_SUPPORT, UART_HELP, UART_STATE, UART_VER, UART_TEMP, UART_TT, UART_RB, UART_TAG, UART_MEM,
UART_LOG, UART_VAULT and UART_UNKNOWN_COMMAND complete. -/
def Obligations.ServiceTerminal : Prop :=
  ∀ (s : State) (off len n : Nat) (eid : Byte),
    let up := s.pwr.devState ≠ .off
    let prints : Instr → String → List Nat → Prop := fun c name vs =>
      Does c [.out] s fun t => t.out = .uart name vs .ok :: s.out
    let fails : Instr → String → UartEnd → Prop := fun c name e =>
      Does c [.out] s fun t => t.out = .uart name [] e :: s.out
    let mctp : Instr → Byte → List Byte → Prop := fun c k bs => Does c [.out] s fun t => t.out = .mctp k bs :: s.out
    let all : List Instr := [.mctpSetEndpointId eid, .mctpGetEndpointId, .mctpGetVersionSupport, .mctpGetMessageTypeSupport,
      .uartHelp, .uartState, .uartVer, .uartTemp, .uartTt, .uartRb off len, .uartTag n, .uartMem n, .uartLog n, .uartVault,
      .uartUnknownCommand]
    let core : List (Instr × String) := [(.uartTt, "tt"), (.uartRb off len, "rb"), (.uartMem n, "mem"), (.uartLog n, "log")]
    (s.pwr.devState = .off → ∀ c ∈ all, exec c s = .next s) ∧
    (up →
      Does (.mctpSetEndpointId eid) [.pwr, .out] s (fun t => t.pwr = { s.pwr with eid := eid } ∧
        t.out = .mctp 1 [eid] :: s.out) ∧
      mctp .mctpGetEndpointId 2 [s.pwr.eid] ∧ mctp .mctpGetVersionSupport 4 [1, 3] ∧
      mctp .mctpGetMessageTypeSupport 5 [0x00, 0x7E] ∧
      fails .uartUnknownCommand "" .errUnknown ∧ (2 ≤ s.pwr.rung → ∀ x ∈ core, fails x.1 x.2 .errPower) ∧
      (∃ vs, prints .uartHelp "help" vs ∧ ∀ w ∈ ["help", "state", "ver", "temp", "tt", "rb", "tag", "mem", "log", "vault"],
        (ascii w).map BitVec.toNat <:+: vs) ∧
      prints .uartState "state"
        [s.pwr.devState.code, s.pwr.heldCode.toNat, s.pwr.rung, if s.mbx.unattended then 1 else 0, s.rb.gen.toNat] ∧
      prints .uartVer "ver" [Config.stepping.toNat, slotVersion s.pwr.slotA, slotVersion s.pwr.slotB,
        if s.pwr.bootSlotB then 1 else 0] ∧
      prints .uartTemp "temp" ((List.range 12).map fun i => (s.pwr.temps.getD i 0x8000#16).toNat) ∧
      prints .uartVault "vault" [vltStatus s, (if s.vlt.areaA.sealed then 1 else 0) + (if s.vlt.areaB.sealed then 2 else 0),
        s.vlt.budget] ∧
      (n < 16 → prints (.uartTag n) "tag" ((tagBytes s n).map BitVec.toNat)) ∧
      (16 ≤ n → fails (.uartTag n) "tag" .errArgument) ∧
      (s.pwr.rung < 2 →
        prints .uartTt "tt" [ttStatus s, s.tt.cycle.toNat, s.tt.kActive,
          planPos s.tt.epoch s.tt.cycle (bankPeriod s.tt s.tt.bankB)] ∧
        (len ≤ 256 → off + len ≤ 0x10000 → prints (.uartRb off len) "rb" ((rbBytes s off len).map BitVec.toNat)) ∧
        (256 < len ∨ 0x10000 < off + len → fails (.uartRb off len) "rb" .errArgument) ∧
        (∀ p, n < 72 → s.mports.find n = some p → prints (.uartMem n) "mem" [memPStat p, p.d.toNat]) ∧
        (72 ≤ n → fails (.uartMem n) "mem" .errArgument) ∧
        (32 < n → fails (.uartLog n) "log" .errArgument) ∧
        (n ≤ 32 → ∃ vs, prints (.uartLog n) "log" vs ∧ vs.length = 32 * min n s.errLog.length ∧
          ∀ k x, k < n → s.errLog[k]? = some x → x.code.toNat =
            vs.getD (32 * k + 4) 0 + 256 * vs.getD (32 * k + 5) 0)))

/-- The queue of commands: a step of a state with a command at the front of its queue is that command on the state with the
rest of the queue; with an empty queue one slot passes, which is the model's choice (log entry 1). -/
def Obligations.StepRunsFront : Prop :=
  ∀ (s : State) (c : Instr) (rest : List Instr),
    step { s with pending := c :: rest } = exec c { s with pending := rest } ∧
    step { s with pending := [] } = .next (tick { s with pending := [] })

/-- Completion and isolation: every command answers a next state, in every state and with every operand, but for an instruction
of the engines, which may fault where the verifier refuses its word or its place (R253, R256, R278); one that answers a next
state changes no part of the state outside its footprint, and no command changes the queue of those that wait. -/
def Obligations.Footprints : Prop :=
  ∀ (c : Instr) (s : State),
    (wordOf c = none → ∃ t, exec c s = .next t ∧ OnlyChanges (footprint c) s t ∧ t.pending = s.pending) ∧
    ∀ t, exec c s = .next t → OnlyChanges (footprint c) s t ∧ t.pending = s.pending

/-- The device state moves only as the table of R468 has it, in every step of every state, but for a restore that has found
another image and starts the part again from Ready (R476); a part that TEST_EN keeps in Off stays there (R497); the
anti-rollback fuses are never cleared and never exceed 64 (R465, R482). -/
def Obligations.DeviceStateMoves : Prop :=
  ∀ (s t : State), step s = .next t →
    (devMoveOk s.pwr.devState t.pwr.devState = true ∨
      ∃ ticks, s.pending.head? = some (.layupRestoreEnd false ticks) ∧ s.pwr.restoring = true ∧ s.pwr.devState = .ready ∧
        t.pwr.devState = .starting) ∧
    (TestHeld s → TestHeld t) ∧ s.pwr.otp ≤ t.pwr.otp ∧ (s.pwr.otp ≤ 64 → t.pwr.otp ≤ 64)

/-- Reset (R8, R57, R89, R356, R398, R439, R445, R458, R487): in the state right after reset every register listed reads as the
manual's Reset column, the device is Off, the fuses are within their 64, nothing is stored, nothing is under way and no command
waits. -/
def Obligations.ResetState : Prop :=
  let reads : RegBlock → List (Nat × Nat) → Prop := fun b l => ∀ x ∈ l, ∃ t,
    exec (.readToClear b ⟨x.1, 4⟩) State.reset = .next t ∧ t.out = [.regRead (BitVec.ofNat 64 x.2)]
  State.reset.pwr.devState = .off ∧ State.reset.pwr.otp ≤ 64 ∧ State.reset.pending = [] ∧ State.reset.out = [] ∧
  State.reset.ctxs = [] ∧ State.reset.cache.frames = [] ∧ State.reset.locks = [] ∧ State.reset.journal.recs = [] ∧
  State.reset.groups = [] ∧ State.reset.reads = [] ∧ State.reset.errLog = [] ∧ State.reset.tt.running = false ∧
  reads .tt [(0x00, 0x00100004), (0x04, 4), (0x10, 0xF4240), (0x14, 0x10), (0x18, 0), (0x20, 0), (0x24, 0x40), (0x28, 0),
    (0x2C, 0x201), (0x30, 0), (0x38, 0), (0x3C, 0), (0x40, 0), (0x44, 0), (0x48, 0), (0x4C, 0), (0x50, 0), (0x58, 0x199A),
    (0x60, 0), (0x1000, 0), (0x2FF8, 0), (0x3000, 0), (0x4FF8, 0)] ∧
  reads .adm [(0x00, 1), (0x04, 0x19), (0x08, 0x42), (0x0C, 0x10000), (0x10, 0x100), (0x14, 0x80), (0x18, 0xFFFFFFFF), (0x1C, 0),
    (0x20, 0x16E3600), (0x24, 0xF424), (0x28, 0x47868), (0x2C, 0), (0x30, 0), (0x34, 0), (0x38, 0), (0x3C, 0), (0x40, 0),
    (0x60, 0), (0x80, 0), (0xA0, 0x258410A0), (0x1000, 0), (0x2000, 0), (0x4000, 0xFFFFFFFF), (0x5FFC, 0xFFFFFFFF)] ∧
  reads .vlt [(0x00, 2), (0x04, 4), (0x08, 0), (0x0C, 0), (0x10, 0), (0x14, 0), (0x18, 0xA0000), (0x1C, 0x1E0000),
    (0x20, 0x36EE80), (0x24, 0x20), (0x28, 0x20000), (0x30, 0), (0x34, 0), (0x38, 0), (0x3C, 0), (0x40, 0), (0x48, 0), (0x50, 0),
    (0x58, 0), (0x60, 0), (0x64, 0), (0x68, 0), (0x6C, 0), (0x70, 0), (0x80, 0x20100), (0x9C, 0x20100)] ∧
  reads .mem [(0x00, 0), (0x04, 7), (0x08, 0xFFFFFFFF), (0x0C, 0xF), (0x10, 0xA0000), (0x14, 0x320000), (0x18, 0x20000),
    (0x1C, 0x30000), (0x20, 0x3E80000), (0x24, 0x401004), (0x28, 0x3E8), (0x2C, 0x40), (0x30, 0xA0000), (0x34, 0x10000),
    (0x38, 0x400), (0x3C, 0x9A7EC800), (0x40, 0), (0x80, 0x100), (0x9C, 0x100), (0x1000, 0x800000), (0x18E0, 0x800000),
    (0x1004, 0)] ∧
  reads .pwr [(0x00, 0), (0x04, 0x3E80004), (0x08, 0), (0x10, 0), (0x14, 0), (0x18, 0), (0x1C, 0), (0x20, 0), (0x24, 0), (0x28, 0),
    (0x2C, 0)] ∧
  reads .fare [(0x00, 1), (0x04, 0xEA60), (0x08, 0), (0x10, 0), (0x18, 0), (0x20, 0)] ∧
  reads .hb [(0x4000, 0), (0x4004, 0xA0000), (0x4008, 0), (0x400C, 0)] ∧
  reads (.mbx 0) [(0x00, 0), (0x4C, 0), (0x50, 0x10000), (0x54, 0)]
end

