-- ==== Sys2Proof/Laws/Frame.lean ====
section
/-! SUPPORT. How "nothing changes outside the named parts" composes: over updates, branches, folds, pairs, options, outcomes
and the actions of an administration command. The files Frames….lean hold one such lemma for each function that answers a
state: which parts of the state the function can change. -/

namespace Sys2Proof.Machine

theorem OnlyChanges.refl (F : List Part) (s : State) : OnlyChanges F s s := by
  intro p _; cases p <;> rfl

theorem OnlyChanges.of {F : List Part} {s t t' : State} (h : OnlyChanges F s t) (k : ∀ p, p ∉ F → p.same t t') :
    OnlyChanges F s t' := by
  intro p hp
  have a := h p hp
  have b := k p hp
  cases p <;> exact b.trans a

def Part.sub (G F : List Part) : Bool := G.all fun p => F.contains p

theorem Part.sub_trans {G H F : List Part} (a : Part.sub G H = true) (b : Part.sub H F = true) : Part.sub G F = true := by
  simp only [Part.sub, List.all_eq_true, List.contains_iff_mem] at *
  exact fun p hp => b p (a p hp)

theorem OnlyChanges.step {F G : List Part} {s t t' : State} (k : OnlyChanges G t t') (h : OnlyChanges F s t)
    (w : Part.sub G F = true := by decide) : OnlyChanges F s t' :=
  h.of fun p hp => k p fun hg => hp (by simpa using List.all_eq_true.mp w p hg)

theorem OnlyChanges.ite1 {F : List Part} {s a b : State} {c : Prop} [Decidable c] (h : OnlyChanges F s a) (k : OnlyChanges F s b) :
    OnlyChanges F s (if c then a else b) := by split <;> assumption

theorem OnlyChanges.foldl {α : Type _} {F : List Part} {s t : State} {f : State → α → State} {l : List α}
    (k : ∀ u x, OnlyChanges F s u → OnlyChanges F s (f u x)) (h : OnlyChanges F s t) :
    OnlyChanges F s (l.foldl f t) := by
  induction l generalizing t with
  | nil => exact h
  | cons x xs ih => exact ih (k _ _ h)

theorem OnlyChanges.foldlMem {α : Type _} {F : List Part} {s t : State} {f : State → α → State} {l : List α}
    (k : ∀ u, ∀ x ∈ l, OnlyChanges F s u → OnlyChanges F s (f u x)) (h : OnlyChanges F s t) :
    OnlyChanges F s (l.foldl f t) := by
  induction l generalizing t with
  | nil => exact h
  | cons x xs ih => exact ih (fun u y hy => k u y (List.mem_cons_of_mem _ hy)) (k _ _ List.mem_cons_self h)

theorem OnlyChanges.foldlPair {α β : Type _} {F : List Part} {s : State} {t : State × β} {f : State × β → α → State × β} {l : List α}
    (k : ∀ u x, OnlyChanges F s u.1 → OnlyChanges F s (f u x).1) (h : OnlyChanges F s t.1) : OnlyChanges F s (l.foldl f t).1 := by
  induction l generalizing t with
  | nil => exact h
  | cons x xs ih => exact ih (k _ _ h)

def OnlyChangesP {α : Type _} (F : List Part) (s : State) (p : α × State) : Prop := OnlyChanges F s p.2
def OnlyChangesO (F : List Part) (s : State) (o : Option State) : Prop := ∀ t, o = some t → OnlyChanges F s t
def OnlyChangesOP {α : Type _} (F : List Part) (s : State) (o : Option (α × State)) : Prop := ∀ p, o = some p → OnlyChanges F s p.2
def OnlyChangesQ (F : List Part) (s : State) (o : Host.Outcome State Fault Refusal) : Prop := ∀ t, o = .next t → OnlyChanges F s t

theorem OnlyChangesP.mk {α : Type _} {F : List Part} {s t : State} {a : α} (h : OnlyChanges F s t) : OnlyChangesP F s (a, t) := h
theorem OnlyChangesP.foldl {α β : Type _} {F : List Part} {s : State} {t : β × State} {f : β × State → α → β × State} {l : List α}
    (k : ∀ u x, OnlyChangesP F s u → OnlyChangesP F s (f u x)) (h : OnlyChangesP F s t) : OnlyChangesP F s (l.foldl f t) := by
  induction l generalizing t with
  | nil => exact h
  | cons x xs ih => exact ih (k _ _ h)
theorem OnlyChangesP.of_eq {α : Type _} {F : List Part} {s t : State} {a : α} {p : α × State} (e : p = (a, t)) (h : OnlyChangesP F s p) :
    OnlyChanges F s t := by subst e; exact h
theorem OnlyChangesP.step {α : Type _} {F G : List Part} {s t : State} {p : α × State} (k : OnlyChangesP G t p) (h : OnlyChanges F s t)
    (w : Part.sub G F = true := by decide) : OnlyChangesP F s p := OnlyChanges.step k h w
theorem OnlyChangesP.ite {α : Type _} {F : List Part} {s : State} {a b : α × State} {c : Prop} [Decidable c] (h : OnlyChangesP F s a)
    (k : OnlyChangesP F s b) : OnlyChangesP F s (if c then a else b) := by split <;> assumption
theorem OnlyChanges.ite2 {α : Type _} {F : List Part} {s : State} {a b : α × State} {c : Prop} [Decidable c] (h : OnlyChangesP F s a)
    (k : OnlyChangesP F s b) : OnlyChangesP F s (if c then a else b) := by split <;> assumption

theorem OnlyChangesO.some {F : List Part} {s t : State} (h : OnlyChanges F s t) : OnlyChangesO F s (Option.some t) := by
  intro u e; cases e; exact h
theorem OnlyChangesO.none {F : List Part} {s : State} : OnlyChangesO F s Option.none := by intro u e; cases e
theorem OnlyChangesO.of_eq {F : List Part} {s t : State} {o : Option State} (e : o = Option.some t) (h : OnlyChangesO F s o) :
    OnlyChanges F s t := h t e
theorem OnlyChangesO.step {F G : List Part} {s t : State} {o : Option State} (k : OnlyChangesO G t o) (h : OnlyChanges F s t)
    (w : Part.sub G F = true := by decide) : OnlyChangesO F s o := fun u e => OnlyChanges.step (k u e) h w
theorem OnlyChanges.ite3 {F : List Part} {s : State} {a b : Option State} {c : Prop} [Decidable c] (h : OnlyChangesO F s a)
    (k : OnlyChangesO F s b) : OnlyChangesO F s (if c then a else b) := by split <;> assumption

theorem OnlyChangesOP.some {α : Type _} {F : List Part} {s : State} {p : α × State} (h : OnlyChangesP F s p) :
    OnlyChangesOP F s (Option.some p) := by intro u e; cases e; exact h
theorem OnlyChangesOP.none {α : Type _} {F : List Part} {s : State} : OnlyChangesOP (α := α) F s Option.none := by intro u e; cases e
theorem OnlyChangesOP.of_eq {α : Type _} {F : List Part} {s t : State} {a : α} {o : Option (α × State)} (e : o = Option.some (a, t))
    (h : OnlyChangesOP F s o) : OnlyChanges F s t := h _ e
theorem OnlyChangesOP.step {α : Type _} {F G : List Part} {s t : State} {o : Option (α × State)} (k : OnlyChangesOP G t o)
    (h : OnlyChanges F s t) (w : Part.sub G F = true := by decide) : OnlyChangesOP F s o := fun u e => OnlyChanges.step (k u e) h w
theorem OnlyChanges.ite5 {α : Type _} {F : List Part} {s : State} {a b : Option (α × State)} {c : Prop} [Decidable c]
    (h : OnlyChangesOP F s a) (k : OnlyChangesOP F s b) : OnlyChangesOP F s (if c then a else b) := by split <;> assumption

theorem OnlyChanges.getD {F : List Part} {s t : State} {o : Option State} (h : OnlyChangesO F s o) (k : OnlyChanges F s t) :
    OnlyChanges F s (o.getD t) := by
  cases o with
  | none => exact k
  | some u => exact h u rfl

theorem OnlyChangesO.orElse {F : List Part} {s : State} {o : Option State} {k : Unit → Option State} (h : OnlyChangesO F s o)
    (j : OnlyChangesO F s (k ())) : OnlyChangesO F s (o.orElse k) := by
  cases o with
  | none => exact j
  | some u => exact h

theorem OnlyChangesQ.next {F : List Part} {s t : State} (h : OnlyChanges F s t) : OnlyChangesQ F s (.next t) := by
  intro u e; cases e; exact h
theorem OnlyChangesQ.fault {F : List Part} {s : State} {r : Fault} : OnlyChangesQ F s (.fault r) := by intro u e; cases e
theorem OnlyChangesQ.refused {F : List Part} {s : State} {r : Refusal} : OnlyChangesQ F s (.refused r) := by intro u e; cases e
theorem OnlyChangesQ.step {F G : List Part} {s t : State} {o : Host.Outcome State Fault Refusal} (k : OnlyChangesQ G t o)
    (h : OnlyChanges F s t) (w : Part.sub G F = true := by decide) : OnlyChangesQ F s o := fun u e => OnlyChanges.step (k u e) h w
theorem OnlyChanges.ite4 {F : List Part} {s : State} {a b : Host.Outcome State Fault Refusal} {c : Prop} [Decidable c]
    (h : OnlyChangesQ F s a) (k : OnlyChangesQ F s b) : OnlyChangesQ F s (if c then a else b) := by split <;> assumption

def OnlyChangesA (F : List Part) (s : State) (r : Acted) : Prop :=
  match r with
  | .refused _ => True
  | .turned _ t => OnlyChanges F s t
  | .done t => OnlyChanges F s t
  | .waits t => OnlyChanges F s t
theorem OnlyChangesA.refused {F : List Part} {s : State} {st : Status} : OnlyChangesA F s (.refused st) := trivial
theorem OnlyChangesA.turned {F : List Part} {s t : State} {st : Status} (h : OnlyChanges F s t) : OnlyChangesA F s (.turned st t) := h
theorem OnlyChangesA.done {F : List Part} {s t : State} (h : OnlyChanges F s t) : OnlyChangesA F s (.done t) := h
theorem OnlyChangesA.waits {F : List Part} {s t : State} (h : OnlyChanges F s t) : OnlyChangesA F s (.waits t) := h
theorem OnlyChangesA.step {F G : List Part} {s t : State} {r : Acted} (k : OnlyChangesA G t r) (h : OnlyChanges F s t)
    (w : Part.sub G F = true := by decide) : OnlyChangesA F s r := by
  cases r with
  | refused st => trivial
  | turned st u => exact OnlyChanges.step (G := G) k h w
  | done u => exact OnlyChanges.step (G := G) k h w
  | waits u => exact OnlyChanges.step (G := G) k h w
theorem OnlyChanges.ite8 {F : List Part} {s : State} {a b : Acted} {c : Prop} [Decidable c] (h : OnlyChangesA F s a)
    (k : OnlyChangesA F s b) : OnlyChangesA F s (if c then a else b) := by split <;> assumption
end Sys2Proof.Machine
end

