-- ==== Sys2Proof/Laws/FramesOps.lean ====
section
/-! SUPPORT. Which parts of the state each function of Machine/Ops.lean can change. -/

set_option Elab.async false

namespace Sys2Proof.Machine

theorem emit_frame (s : State) a2 : OnlyChanges [.out] s (emit s a2) := by
  unfold emit
  exact OnlyChanges.of (OnlyChanges.refl _ s) (by intro p hp; cases p <;> first | exact absurd (by decide) hp | exact rfl)

theorem gelbelReply_frame (s : State) a2 a3 a4 a5 : OnlyChanges [.out] s (gelbelReply s a2 a3 a4 a5) := by
  unfold gelbelReply
  refine OnlyChanges.step (emit_frame _ _) ?_
  exact (OnlyChanges.refl _ s)

theorem nextSeq_frame (s : State) : OnlyChangesP [.seqCtr] s (nextSeq s) := by
  unfold nextSeq
  refine OnlyChangesP.mk ?_
  exact OnlyChanges.of (OnlyChanges.refl _ s) (by intro p hp; cases p <;> first | exact absurd (by decide) hp | exact rfl)

theorem updFunc_frame (s : State) a2 a3 : OnlyChanges [.funcs] s (updFunc s a2 a3) := by
  unfold updFunc
  exact OnlyChanges.of (OnlyChanges.refl _ s) (by intro p hp; cases p <;> first | exact absurd (by decide) hp | exact rfl)

theorem updCq_frame (s : State) a2 a3 a4 : OnlyChanges [.funcs] s (updCq s a2 a3 a4) := by
  unfold updCq
  refine OnlyChanges.step (updFunc_frame _ _ _) ?_
  exact (OnlyChanges.refl _ s)

theorem pushReady_frame (s : State) a2 a3 : OnlyChanges [.funcs, .seqCtr] s (pushReady s a2 a3) := by
  unfold pushReady
  refine OnlyChanges.ite1 ?_ ?_
  · exact (OnlyChanges.refl _ s)
  · split
    · exact (OnlyChanges.refl _ s)
    · split
      · rename_i x1 x2 x3
        have hx2 : OnlyChanges [.funcs, .seqCtr] s x2 := by
          refine OnlyChangesP.of_eq x3 ?_
          refine OnlyChangesP.step (nextSeq_frame _) ?_
          exact (OnlyChanges.refl _ s)
        refine OnlyChanges.step (updCq_frame _ _ _ _) ?_
        exact hx2

theorem adminDone_frame (s : State) a2 a3 a4 : OnlyChanges [.funcs, .out, .seqCtr] s (adminDone s a2 a3 a4) := by
  unfold adminDone
  refine OnlyChanges.ite1 ?_ ?_
  · refine OnlyChanges.step (gelbelReply_frame _ _ _ _ _) ?_
    exact (OnlyChanges.refl _ s)
  · refine OnlyChanges.step (pushReady_frame _ _ _) ?_
    exact (OnlyChanges.refl _ s)

theorem logErr_frame (s : State) a2 a3 a4 a5 : OnlyChanges [.errLog, .errSeq] s (logErr s a2 a3 a4 a5) := by
  unfold logErr
  exact OnlyChanges.of (OnlyChanges.refl _ s) (by intro p hp; cases p <;> first | exact absurd (by decide) hp | exact rfl)

theorem markFresh_frame (s : State) a2 a3 a4 a5 : OnlyChanges [.fresh] s (markFresh s a2 a3 a4 a5) := by
  unfold markFresh
  exact OnlyChanges.of (OnlyChanges.refl _ s) (by intro p hp; cases p <;> first | exact absurd (by decide) hp | exact rfl)

theorem rbChange_frame (s : State) : OnlyChanges [.rb] s (rbChange s) := by
  unfold rbChange
  extract_lets -merge -underBinder +onlyGivenNames x1
  clear_value x1
  exact OnlyChanges.of (OnlyChanges.refl _ s) (by intro p hp; cases p <;> first | exact absurd (by decide) hp | exact rfl)

theorem updGroup_frame (s : State) a2 a3 : OnlyChanges [.groups] s (updGroup s a2 a3) := by
  unfold updGroup
  exact OnlyChanges.of (OnlyChanges.refl _ s) (by intro p hp; cases p <;> first | exact absurd (by decide) hp | exact rfl)

theorem updMport_frame (s : State) a2 a3 : OnlyChanges [.mports] s (updMport s a2 a3) := by
  unfold updMport
  exact OnlyChanges.of (OnlyChanges.refl _ s) (by intro p hp; cases p <;> first | exact absurd (by decide) hp | exact rfl)

theorem updCtx_frame (s : State) a2 a3 : OnlyChanges [.ctxs] s (updCtx s a2 a3) := by
  unfold updCtx
  exact OnlyChanges.of (OnlyChanges.refl _ s) (by intro p hp; cases p <;> first | exact absurd (by decide) hp | exact rfl)

theorem wake_frame (s : State) a2 : OnlyChanges [.ctxs, .seqCtr] s (wake s a2) := by
  unfold wake
  split
  · rename_i x1 x2 x3
    have hx2 : OnlyChanges [.ctxs, .seqCtr] s x2 := by
      refine OnlyChangesP.of_eq x3 ?_
      refine OnlyChangesP.step (nextSeq_frame _) ?_
      exact (OnlyChanges.refl _ s)
    refine OnlyChanges.step (updCtx_frame _ _ _) ?_
    exact hx2

theorem updVol_frame (s : State) a2 a3 : OnlyChanges [.vols] s (updVol s a2 a3) := by
  unfold updVol
  exact OnlyChanges.of (OnlyChanges.refl _ s) (by intro p hp; cases p <;> first | exact absurd (by decide) hp | exact rfl)

theorem emitAll_frame (s : State) a2 : OnlyChanges [.out] s (emitAll s a2) := by
  unfold emitAll
  exact OnlyChanges.of (OnlyChanges.refl _ s) (by intro p hp; cases p <;> first | exact absurd (by decide) hp | exact rfl)

theorem sendMsix_frame (s : State) a2 a3 : OnlyChanges [.funcs, .out] s (sendMsix s a2 a3) := by
  unfold sendMsix
  split
  · exact (OnlyChanges.refl _ s)
  · refine OnlyChanges.ite1 ?_ ?_
    · exact (OnlyChanges.refl _ s)
    · refine OnlyChanges.ite1 ?_ ?_
      · refine OnlyChanges.step (updFunc_frame _ _ _) ?_
        exact (OnlyChanges.refl _ s)
      · refine OnlyChanges.ite1 ?_ ?_
        · refine OnlyChanges.step (emit_frame _ _) ?_
          exact (OnlyChanges.refl _ s)
        · refine OnlyChanges.step (updFunc_frame _ _ _) ?_
          exact (OnlyChanges.refl _ s)

theorem updPort_frame (s : State) a2 a3 : OnlyChanges [.ports] s (updPort s a2 a3) := by
  unfold updPort
  exact OnlyChanges.of (OnlyChanges.refl _ s) (by intro p hp; cases p <;> first | exact absurd (by decide) hp | exact rfl)

theorem updateIntx_frame (s : State) a2 : OnlyChanges [.ports, .out] s (updateIntx s a2) := by
  unfold updateIntx
  split
  · refine OnlyChanges.ite1 ?_ ?_
    · refine OnlyChanges.step (emit_frame _ _) ?_
      refine OnlyChanges.step (updPort_frame _ _ _) ?_
      exact (OnlyChanges.refl _ s)
    · exact (OnlyChanges.refl _ s)
  · exact (OnlyChanges.refl _ s)

theorem sendEvent_frame (s : State) a2 a3 : OnlyChanges [.ports, .funcs, .out] s (sendEvent s a2 a3) := by
  unfold sendEvent
  split
  · exact (OnlyChanges.refl _ s)
  · refine OnlyChanges.ite1 ?_ ?_
    · refine OnlyChanges.ite1 ?_ ?_
      · refine OnlyChanges.step (sendMsix_frame _ _ _) ?_
        exact (OnlyChanges.refl _ s)
      · refine OnlyChanges.step (updateIntx_frame _ _) ?_
        exact (OnlyChanges.refl _ s)
    · exact (OnlyChanges.refl _ s)

theorem raiseFn_frame (s : State) a2 a3 : OnlyChanges [.ports, .funcs, .fresh, .out] s (raiseFn s a2 a3) := by
  unfold raiseFn
  split
  · exact (OnlyChanges.refl _ s)
  · extract_lets -merge -underBinder +onlyGivenNames x1
    have hx1 : OnlyChanges [.ports, .funcs, .fresh, .out] s x1 := by
      unfold x1
      refine OnlyChanges.step (markFresh_frame _ _ _ _ _) ?_
      exact (OnlyChanges.refl _ s)
    clear_value x1
    refine OnlyChanges.ite1 ?_ ?_
    · exact hx1
    · refine OnlyChanges.step (sendEvent_frame _ _ _) ?_
      refine OnlyChanges.step (updFunc_frame _ _ _) ?_
      exact hx1

theorem poisonIn_frame (s : State) a2 : OnlyChanges [.ports, .funcs, .fresh, .out] s (poisonIn s a2) := by
  unfold poisonIn
  extract_lets -merge -underBinder +onlyGivenNames x1
  have hx1 : OnlyChanges [.ports, .funcs, .fresh, .out] s x1 := by
    unfold x1
    refine OnlyChanges.step (updFunc_frame _ _ _) ?_
    exact (OnlyChanges.refl _ s)
  clear_value x1
  refine OnlyChanges.step (emit_frame _ _) ?_
  refine OnlyChanges.step (raiseFn_frame _ _ _) ?_
  refine OnlyChanges.step (markFresh_frame _ _ _ _ _) ?_
  exact hx1

theorem updSq_frame (s : State) a2 a3 a4 : OnlyChanges [.funcs] s (updSq s a2 a3 a4) := by
  unfold updSq
  refine OnlyChanges.step (updFunc_frame _ _ _) ?_
  exact (OnlyChanges.refl _ s)

theorem openRead_frame (s : State) a2 a3 a4 : OnlyChanges [.reads, .nextTag] s (openRead s a2 a3 a4) := by
  unfold openRead
  extract_lets -merge -underBinder +onlyGivenNames x1 x2
  clear_value x1
  clear_value x2
  exact OnlyChanges.of (OnlyChanges.refl _ s) (by intro p hp; cases p <;> first | exact absurd (by decide) hp | exact rfl)

theorem issueRead_frame (s : State) a2 a3 a4 a5 a6 a7 : OnlyChanges [.reads, .nextTag, .out] s (issueRead s a2 a3 a4 a5 a6 a7) := by
  unfold issueRead
  refine OnlyChanges.step (emit_frame _ _) ?_
  refine OnlyChanges.step (openRead_frame _ _ _ _) ?_
  exact (OnlyChanges.refl _ s)

theorem driveDone_frame (s : State) : OnlyChanges [.pwr, .vlt, .out] s (driveDone s) := by
  unfold driveDone
  refine OnlyChanges.step (emit_frame _ _) ?_
  exact OnlyChanges.of (OnlyChanges.refl _ s) (by intro p hp; cases p <;> first | exact absurd (by decide) hp | exact rfl)

theorem flrSettle_frame (s : State) a2 : OnlyChanges [.funcs, .rb] s (flrSettle s a2) := by
  unfold flrSettle
  split
  · extract_lets -merge -underBinder +onlyGivenNames x1
    have hx1 : OnlyChanges [.funcs, .rb] s x1 := by
      unfold x1
      refine OnlyChanges.step (updFunc_frame _ _ _) ?_
      exact (OnlyChanges.refl _ s)
    clear_value x1
    refine OnlyChanges.ite1 ?_ ?_
    · exact (OnlyChanges.refl _ s)
    · refine OnlyChanges.step (rbChange_frame _) ?_
      refine OnlyChanges.ite1 ?_ ?_
      · exact hx1
      · exact OnlyChanges.of hx1 (by intro p hp; cases p <;> first | exact absurd (by decide) hp | exact rfl)
  · exact (OnlyChanges.refl _ s)

theorem countIgn_frame (s : State) a2 : OnlyChanges [.funcs, .fresh] s (countIgn s a2) := by
  unfold countIgn
  refine OnlyChanges.step (markFresh_frame _ _ _ _ _) ?_
  refine OnlyChanges.step (updFunc_frame _ _ _) ?_
  exact (OnlyChanges.refl _ s)

theorem shadowWrite_frame (s : State) a2 a3 a4 : OnlyChanges [.funcs, .out] s (shadowWrite s a2 a3 a4) := by
  unfold shadowWrite
  split
  · exact (OnlyChanges.refl _ s)
  · split
    · exact (OnlyChanges.refl _ s)
    · refine OnlyChanges.ite1 ?_ ?_
      · exact (OnlyChanges.refl _ s)
      · refine OnlyChanges.ite1 ?_ ?_
        · refine OnlyChanges.step (emit_frame _ _) ?_
          exact (OnlyChanges.refl _ s)
        · refine OnlyChanges.step (updFunc_frame _ _ _) ?_
          exact (OnlyChanges.refl _ s)

theorem drawFree_frame (s : State) : OnlyChangesP [.freeCtr] s (drawFree s) := by
  unfold drawFree
  refine OnlyChangesP.mk ?_
  exact OnlyChanges.of (OnlyChanges.refl _ s) (by intro p hp; cases p <;> first | exact absurd (by decide) hp | exact rfl)

theorem settleIntx_frame (s : State) a2 : OnlyChanges [.ports, .out] s (settleIntx s a2) := by
  unfold settleIntx
  split
  · refine OnlyChanges.ite1 ?_ ?_
    · refine OnlyChanges.step (emit_frame _ _) ?_
      refine OnlyChanges.step (updPort_frame _ _ _) ?_
      exact (OnlyChanges.refl _ s)
    · refine OnlyChanges.step (updateIntx_frame _ _) ?_
      exact (OnlyChanges.refl _ s)
  · exact (OnlyChanges.refl _ s)

theorem undefinedField_frame (s : State) a2 a3 : OnlyChanges [.errLog, .errSeq] s (undefinedField s a2 a3) := by
  unfold undefinedField
  refine OnlyChanges.step (logErr_frame _ _ _ _ _) ?_
  exact (OnlyChanges.refl _ s)

theorem refuseCfg_frame (s : State) a2 : OnlyChanges [.out] s (refuseCfg s a2) := by
  unfold refuseCfg
  split
  · refine OnlyChanges.ite1 ?_ ?_
    · refine OnlyChanges.step (emit_frame _ _) ?_
      exact (OnlyChanges.refl _ s)
    · exact (OnlyChanges.refl _ s)
  · exact (OnlyChanges.refl _ s)

theorem raisePme_frame (s : State) : OnlyChanges [.ports, .out] s (raisePme s) := by
  unfold raisePme
  refine OnlyChanges.foldl (fun x1 x2 hx1 => ?_) ?_
  · extract_lets -merge -underBinder +onlyGivenNames x3
    clear_value x3
    refine OnlyChanges.ite1 ?_ ?_
    · refine OnlyChanges.step (emit_frame _ _) ?_
      refine OnlyChanges.step (updPort_frame _ _ _) ?_
      exact hx1
    · refine OnlyChanges.ite1 ?_ ?_
      · refine OnlyChanges.step (emit_frame _ _) ?_
        exact hx1
      · exact hx1
  · exact (OnlyChanges.refl _ s)

theorem unexpected_frame (s : State) a2 : OnlyChanges [.ports, .funcs, .fresh, .out] s (unexpected s a2) := by
  unfold unexpected
  extract_lets -merge -underBinder +onlyGivenNames x1
  have hx1 : OnlyChanges [.ports, .funcs, .fresh, .out] s x1 := by
    unfold x1
    refine OnlyChanges.step (updFunc_frame _ _ _) ?_
    exact (OnlyChanges.refl _ s)
  clear_value x1
  refine OnlyChanges.step (emit_frame _ _) ?_
  refine OnlyChanges.step (raiseFn_frame _ _ _) ?_
  refine OnlyChanges.step (markFresh_frame _ _ _ _ _) ?_
  exact hx1

theorem poisonOut_frame (s : State) a2 : OnlyChanges [.funcs, .fresh] s (poisonOut s a2) := by
  unfold poisonOut
  refine OnlyChanges.step (markFresh_frame _ _ _ _ _) ?_
  refine OnlyChanges.step (updFunc_frame _ _ _) ?_
  exact (OnlyChanges.refl _ s)

end Sys2Proof.Machine
end

