-- ==== Sys2Proof/Laws/FramesAdmission.lean ====
section
/-! SUPPORT. Which parts of the state each function of Machine/Admission.lean can change. -/

set_option Elab.async false

namespace Sys2Proof.Machine

theorem updAdm_frame (s : State) a2 : OnlyChanges [.adm] s (updAdm s a2) := by
  unfold updAdm
  exact OnlyChanges.of (OnlyChanges.refl _ s) (by intro p hp; cases p <;> first | exact absurd (by decide) hp | exact rfl)

theorem cutAllots_frame (s : State) a2 : OnlyChanges [.adm] s (cutAllots s a2) := by
  unfold cutAllots
  extract_lets -merge -underBinder +onlyGivenNames x1 x2 x3
  clear_value x1
  clear_value x2
  clear_value x3
  refine OnlyChanges.step (updAdm_frame _ _) ?_
  exact (OnlyChanges.refl _ s)

theorem cutCeil_frame (s : State) : OnlyChanges [.adm, .rb, .fresh] s (cutCeil s) := by
  unfold cutCeil
  refine OnlyChanges.ite1 ?_ ?_
  · exact (OnlyChanges.refl _ s)
  · refine OnlyChanges.step (rbChange_frame _) ?_
    refine OnlyChanges.step (markFresh_frame _ _ _ _ _) ?_
    refine OnlyChanges.step (updAdm_frame _ _) ?_
    refine OnlyChanges.step (cutAllots_frame _ _) ?_
    exact (OnlyChanges.refl _ s)

theorem setCeil_frame (s : State) : OnlyChanges [.adm, .rb] s (setCeil s) := by
  unfold setCeil
  extract_lets -merge -underBinder +onlyGivenNames x1 x2
  clear_value x1
  have hx2 : OnlyChanges [.adm, .rb] s x2 := by
    unfold x2
    refine OnlyChanges.step (updAdm_frame _ _) ?_
    exact (OnlyChanges.refl _ s)
  clear_value x2
  refine OnlyChanges.ite1 ?_ ?_
  · exact hx2
  · refine OnlyChanges.step (rbChange_frame _) ?_
    exact hx2

theorem recomputeCeil_frame (s : State) : OnlyChanges [.adm, .rb, .fresh] s (recomputeCeil s) := by
  unfold recomputeCeil
  refine OnlyChanges.step (cutCeil_frame _) ?_
  refine OnlyChanges.step (setCeil_frame _) ?_
  exact (OnlyChanges.refl _ s)

theorem updExp_frame (s : State) a2 a3 : OnlyChanges [.adm] s (updExp s a2 a3) := by
  unfold updExp
  refine OnlyChanges.step (updAdm_frame _ _) ?_
  exact (OnlyChanges.refl _ s)

theorem clearTokens_frame (s : State) a2 : OnlyChanges [.adm, .rb] s (clearTokens s a2) := by
  unfold clearTokens
  extract_lets -merge -underBinder +onlyGivenNames x1 x2
  clear_value x1
  have hx2 : OnlyChanges [.adm, .rb] s x2 := by
    unfold x2
    refine OnlyChanges.step (updAdm_frame _ _) ?_
    exact (OnlyChanges.refl _ s)
  clear_value x2
  refine OnlyChanges.ite1 ?_ ?_
  · refine OnlyChanges.step (rbChange_frame _) ?_
    exact hx2
  · exact hx2

theorem refill_frame (s : State) : OnlyChanges [.adm, .rb] s (refill s) := by
  unfold refill
  extract_lets -merge -underBinder +onlyGivenNames x1 x2
  clear_value x1
  have hx2 : OnlyChanges [.adm, .rb] s x2 := by
    unfold x2
    refine OnlyChanges.ite1 ?_ ?_
    · exact (OnlyChanges.refl _ s)
    · refine OnlyChanges.step (rbChange_frame _) ?_
      exact (OnlyChanges.refl _ s)
  clear_value x2
  refine OnlyChanges.step (updAdm_frame _ _) ?_
  exact hx2

theorem fareTokens_frame (s : State) a2 a3 a4 a5 : OnlyChanges [.vols] s (fareTokens s a2 a3 a4 a5) := by
  unfold fareTokens
  refine OnlyChanges.ite1 ?_ ?_
  · refine OnlyChanges.step (updVol_frame _ _ _) ?_
    exact (OnlyChanges.refl _ s)
  · exact (OnlyChanges.refl _ s)

theorem moveTokens_frame (s : State) a2 a3 a4 a5 a6 : OnlyChanges [.adm] s (moveTokens s a2 a3 a4 a5 a6) := by
  unfold moveTokens
  extract_lets -merge -underBinder +onlyGivenNames x1
  clear_value x1
  refine OnlyChanges.ite1 ?_ ?_
  · refine OnlyChanges.step (updExp_frame _ _ _) ?_
    exact (OnlyChanges.refl _ s)
  · refine OnlyChanges.ite1 ?_ ?_
    · refine OnlyChanges.step (updExp_frame _ _ _) ?_
      exact (OnlyChanges.refl _ s)
    · refine OnlyChanges.ite1 ?_ ?_
      · refine OnlyChanges.step (updExp_frame _ _ _) ?_
        exact (OnlyChanges.refl _ s)
      · refine OnlyChanges.step (updAdm_frame _ _) ?_
        exact (OnlyChanges.refl _ s)

theorem spendTokens_frame (s : State) a2 a3 a4 a5 a6 : OnlyChanges [.adm, .vols] s (spendTokens s a2 a3 a4 a5 a6) := by
  unfold spendTokens
  refine OnlyChanges.step (fareTokens_frame _ _ _ _ _) ?_
  refine OnlyChanges.step (moveTokens_frame _ _ _ _ _ _) ?_
  exact (OnlyChanges.refl _ s)

theorem execAdmGroupModeWrite_frame a1 a2 (s : State) : OnlyChangesQ [.adm, .errLog, .errSeq] s (execAdmGroupModeWrite a1 a2 s) := by
  unfold execAdmGroupModeWrite
  extract_lets -merge -underBinder +onlyGivenNames x1 x2
  clear_value x1
  have hx2 : OnlyChanges [.adm, .errLog, .errSeq] s x2 := by
    unfold x2
    refine OnlyChanges.ite1 ?_ ?_
    · refine OnlyChanges.step (undefinedField_frame _ _ _) ?_
      exact (OnlyChanges.refl _ s)
    · exact (OnlyChanges.refl _ s)
  clear_value x2
  refine OnlyChangesQ.next ?_
  refine OnlyChanges.ite1 ?_ ?_
  · exact (OnlyChanges.refl _ s)
  · refine OnlyChanges.step (updAdm_frame _ _) ?_
    exact hx2

theorem execAdmMaintFloorWrite_frame a1 (s : State) : OnlyChangesQ [.adm, .errLog, .errSeq, .rb, .fresh] s (execAdmMaintFloorWrite a1 s) := by
  unfold execAdmMaintFloorWrite
  extract_lets -merge -underBinder +onlyGivenNames x1
  clear_value x1
  refine OnlyChangesQ.next ?_
  refine OnlyChanges.ite1 ?_ ?_
  · refine OnlyChanges.step (undefinedField_frame _ _ _) ?_
    exact (OnlyChanges.refl _ s)
  · refine OnlyChanges.step (recomputeCeil_frame _) ?_
    refine OnlyChanges.step (updAdm_frame _ _) ?_
    exact (OnlyChanges.refl _ s)

theorem restoreTokens_frame (s : State) a2 a3 a4 a5 a6 : OnlyChanges [.adm, .vols] s (restoreTokens s a2 a3 a4 a5 a6) := by
  unfold restoreTokens
  refine OnlyChanges.step (fareTokens_frame _ _ _ _ _) ?_
  refine OnlyChanges.step (moveTokens_frame _ _ _ _ _ _) ?_
  exact (OnlyChanges.refl _ s)

end Sys2Proof.Machine
end

