-- ==== Sys2Proof/Laws/FramesCache.lean ====
section
/-! SUPPORT. Which parts of the state each function of Machine/Cache.lean can change. -/

set_option Elab.async false

namespace Sys2Proof.Machine

theorem updCache_frame (s : State) a2 : OnlyChanges [.cache] s (updCache s a2) := by
  unfold updCache
  exact OnlyChanges.of (OnlyChanges.refl _ s) (by intro p hp; cases p <;> first | exact absurd (by decide) hp | exact rfl)

theorem updFrame_frame (s : State) a2 a3 : OnlyChanges [.cache] s (updFrame s a2 a3) := by
  unfold updFrame
  refine OnlyChanges.step (updCache_frame _ _) ?_
  exact (OnlyChanges.refl _ s)

theorem protectFrame_frame (s : State) a2 : OnlyChanges [.cache] s (protectFrame s a2) := by
  unfold protectFrame
  refine OnlyChanges.step (updFrame_frame _ _ _) ?_
  exact (OnlyChanges.refl _ s)

theorem freeFrame_frame (s : State) a2 : OnlyChanges [.cache] s (freeFrame s a2) := by
  unfold freeFrame
  refine OnlyChanges.ite1 ?_ ?_
  · exact (OnlyChanges.refl _ s)
  · refine OnlyChanges.step (updCache_frame _ _) ?_
    exact (OnlyChanges.refl _ s)

theorem retireFrame_frame (s : State) a2 : OnlyChanges [.cache] s (retireFrame s a2) := by
  unfold retireFrame
  refine OnlyChanges.ite1 ?_ ?_
  · exact (OnlyChanges.refl _ s)
  · refine OnlyChanges.step (updCache_frame _ _) ?_
    exact (OnlyChanges.refl _ s)

theorem unpinFrame_frame (s : State) a2 : OnlyChanges [.cache] s (unpinFrame s a2) := by
  unfold unpinFrame
  split
  · exact (OnlyChanges.refl _ s)
  · refine OnlyChanges.ite1 ?_ ?_
    · exact (OnlyChanges.refl _ s)
    · refine OnlyChanges.ite1 ?_ ?_
      · refine OnlyChanges.step (updFrame_frame _ _ _) ?_
        exact (OnlyChanges.refl _ s)
      · refine OnlyChanges.ite1 ?_ ?_
        · refine OnlyChanges.step (retireFrame_frame _ _) ?_
          exact (OnlyChanges.refl _ s)
        · refine OnlyChanges.ite1 ?_ ?_
          · refine OnlyChanges.step (freeFrame_frame _ _) ?_
            exact (OnlyChanges.refl _ s)
          · refine OnlyChanges.step (updFrame_frame _ _ _) ?_
            exact (OnlyChanges.refl _ s)

theorem unpinAll_frame (s : State) a2 : OnlyChanges [.cache] s (unpinAll s a2) := by
  unfold unpinAll
  refine OnlyChanges.foldl (fun x1 x2 hx1 => ?_) ?_
  · refine OnlyChanges.step (unpinFrame_frame _ _) ?_
    exact hx1
  · exact (OnlyChanges.refl _ s)

theorem wakeFrameWaiters_frame (s : State) : OnlyChanges [.ctxs, .seqCtr] s (wakeFrameWaiters s) := by
  unfold wakeFrameWaiters
  refine OnlyChanges.foldl (fun x1 x2 hx1 => ?_) ?_
  · refine OnlyChanges.step (wake_frame _ _) ?_
    exact hx1
  · exact (OnlyChanges.refl _ s)

theorem allocFrame_frame (s : State) a2 : OnlyChangesOP [.cache, .freeCtr] s (allocFrame s a2) := by
  unfold allocFrame
  split
  · exact OnlyChangesOP.none
  · extract_lets -merge -underBinder +onlyGivenNames x1
    clear_value x1
    refine OnlyChangesOP.some ?_
    refine OnlyChangesP.mk ?_
    exact OnlyChanges.of (OnlyChanges.refl _ s) (by intro p hp; cases p <;> first | exact absurd (by decide) hp | exact rfl)

theorem allocFrames_frame a1 a2 a3 (s : State) : OnlyChangesOP [.cache, .freeCtr] s (allocFrames a1 a2 a3 s) := by
  induction a1 generalizing a2 s with
  | zero => exact OnlyChangesOP.some (OnlyChangesP.mk (OnlyChanges.refl _ s))
  | succ n ih =>
    unfold allocFrames
    split
    · exact OnlyChangesOP.none
    · rename_i x1 x2 x3
      have h := OnlyChangesOP.of_eq x3 (OnlyChangesOP.step (allocFrame_frame _ _) (OnlyChanges.refl [.cache, .freeCtr] s))
      split
      · exact OnlyChangesOP.none
      · rename_i x4 x5 x6
        exact OnlyChangesOP.some (OnlyChangesP.mk (OnlyChangesOP.of_eq x6 (OnlyChangesOP.step (ih _ _) h)))

theorem releaseAll_frame (s : State) a2 : OnlyChanges [.ctxs, .cache] s (releaseAll s a2) := by
  unfold releaseAll
  split
  · exact (OnlyChanges.refl _ s)
  · extract_lets -merge -underBinder +onlyGivenNames x1
    have hx1 : OnlyChanges [.ctxs, .cache] s x1 := by
      unfold x1
      refine OnlyChanges.step (unpinAll_frame _ _) ?_
      exact (OnlyChanges.refl _ s)
    clear_value x1
    refine OnlyChanges.step (updCtx_frame _ _ _) ?_
    exact hx1

theorem setHandle_frame (s : State) a2 a3 a4 : OnlyChanges [.ctxs] s (setHandle s a2 a3 a4) := by
  unfold setHandle
  refine OnlyChanges.step (updCtx_frame _ _ _) ?_
  exact (OnlyChanges.refl _ s)

theorem putFrame_frame (s : State) a2 a3 a4 a5 : OnlyChanges [.ctxs, .cache] s (putFrame s a2 a3 a4 a5) := by
  unfold putFrame
  split
  · exact (OnlyChanges.refl _ s)
  · extract_lets -merge -underBinder +onlyGivenNames x1 x2
    clear_value x1
    have hx2 : OnlyChanges [.ctxs, .cache] s x2 := by
      unfold x2
      refine OnlyChanges.step (setHandle_frame _ _ _ _) ?_
      exact (OnlyChanges.refl _ s)
    clear_value x2
    split
    · refine OnlyChanges.step (unpinAll_frame _ _) ?_
      exact hx2
    · split
      · exact hx2
      · refine OnlyChanges.step (unpinFrame_frame _ _) ?_
        exact hx2

theorem putFrames_frame (s : State) a2 a3 a4 a5 : OnlyChanges [.ctxs, .cache] s (putFrames s a2 a3 a4 a5) := by
  induction a5 generalizing s a4 with
  | nil => exact OnlyChanges.refl _ s
  | cons x xs ih => exact OnlyChanges.step (ih _ _) (OnlyChanges.step (putFrame_frame _ _ _ _ _) (OnlyChanges.refl _ s))

theorem releaseHandle_frame (s : State) a2 a3 : OnlyChanges [.ctxs, .cache] s (releaseHandle s a2 a3) := by
  unfold releaseHandle
  split
  · exact (OnlyChanges.refl _ s)
  · refine OnlyChanges.step (setHandle_frame _ _ _ _) ?_
    refine OnlyChanges.step (unpinAll_frame _ _) ?_
    exact (OnlyChanges.refl _ s)

theorem mapDirty_frame (s : State) a2 a3 a4 : OnlyChanges [.cache] s (mapDirty s a2 a3 a4) := by
  unfold mapDirty
  extract_lets -merge -underBinder +onlyGivenNames x1
  have hx1 : OnlyChanges [.cache] s x1 := by
    unfold x1
    split
    · exact (OnlyChanges.refl _ s)
    · extract_lets -merge -underBinder +onlyGivenNames x2
      have hx2 : OnlyChanges [.cache] s x2 := by
        unfold x2
        refine OnlyChanges.step (updFrame_frame _ _ _) ?_
        exact (OnlyChanges.refl _ s)
      clear_value x2
      refine OnlyChanges.ite1 ?_ ?_
      · exact (OnlyChanges.refl _ s)
      · refine OnlyChanges.ite1 ?_ ?_
        · refine OnlyChanges.step (freeFrame_frame _ _) ?_
          exact hx2
        · exact hx2
  clear_value x1
  refine OnlyChanges.step (updFrame_frame _ _ _) ?_
  exact hx1

theorem pinFrame_frame (s : State) a2 : OnlyChanges [.cache] s (pinFrame s a2) := by
  unfold pinFrame
  refine OnlyChanges.step (updFrame_frame _ _ _) ?_
  exact (OnlyChanges.refl _ s)

end Sys2Proof.Machine
end

