-- ==== Sys2Proof/Laws/FramesTime.lean ====
section
/-! SUPPORT. Which parts of the state each function of Machine/Time.lean can change. -/

set_option Elab.async false

namespace Sys2Proof.Machine

theorem State.mapAdmin_frame a1 (s : State) : OnlyChanges [.pwr, .tt, .adm, .funcs, .groups, .vols, .mports, .mbx] s (State.mapAdmin a1 s) := by
  unfold State.mapAdmin
  extract_lets -merge -underBinder +onlyGivenNames x1 x2 x3 x4
  clear_value x1
  clear_value x2
  clear_value x3
  clear_value x4
  exact OnlyChanges.of (OnlyChanges.refl _ s) (by intro p hp; cases p <;> first | exact absurd (by decide) hp | exact rfl)

theorem State.mapTimes_frame a1 a2 (s : State) : OnlyChanges [.pwr, .tt, .adm, .ports, .funcs, .reads, .ctxs, .locks, .groups, .vols, .mports, .vlt, .mbx] s (State.mapTimes a1 a2 s) := by
  unfold State.mapTimes
  extract_lets -merge -underBinder +onlyGivenNames x1 x2 x3 x4
  have hx1 : OnlyChanges [.pwr, .tt, .adm, .ports, .funcs, .reads, .ctxs, .locks, .groups, .vols, .mports, .vlt, .mbx] s x1 := by
    unfold x1
    refine OnlyChanges.step (State.mapAdmin_frame _ _) ?_
    exact (OnlyChanges.refl _ s)
  clear_value x1
  clear_value x2
  clear_value x3
  clear_value x4
  exact OnlyChanges.of hx1 (by intro p hp; cases p <;> first | exact absurd (by decide) hp | exact rfl)

end Sys2Proof.Machine
end

