-- ==== Sys2Proof/Laws/FramesThreads.lean ====
section
/-! SUPPORT. Which parts of the state each function of Machine/Threads.lean can change. -/

set_option Elab.async false

namespace Sys2Proof.Machine

theorem updRec_frame (s : State) a2 a3 : OnlyChanges [.journal] s (updRec s a2 a3) := by
  unfold updRec
  extract_lets -merge -underBinder +onlyGivenNames x1
  clear_value x1
  exact OnlyChanges.of (OnlyChanges.refl _ s) (by intro p hp; cases p <;> first | exact absurd (by decide) hp | exact rfl)

theorem finishWait_frame (s : State) a2 a3 : OnlyChanges [.ctxs, .seqCtr] s (finishWait s a2 a3) := by
  unfold finishWait
  refine OnlyChanges.step (wake_frame _ _) ?_
  refine OnlyChanges.step (updCtx_frame _ _ _) ?_
  exact (OnlyChanges.refl _ s)

theorem grantLock_frame (s : State) a2 : OnlyChanges [.ctxs, .seqCtr] s (grantLock s a2) := by
  unfold grantLock
  refine OnlyChanges.step (finishWait_frame _ _ _) ?_
  exact (OnlyChanges.refl _ s)

theorem giveEntry_frame (s : State) : OnlyChanges [.ctxs, .locks, .seqCtr] s (giveEntry s) := by
  unfold giveEntry
  split
  · exact (OnlyChanges.refl _ s)
  · extract_lets -merge -underBinder +onlyGivenNames x1
    clear_value x1
    split
    · extract_lets -merge -underBinder +onlyGivenNames x2
      clear_value x2
      refine OnlyChanges.ite1 ?_ ?_
      · refine OnlyChanges.step (grantLock_frame _ _) ?_
        exact OnlyChanges.of (OnlyChanges.refl _ s) (by intro p hp; cases p <;> first | exact absurd (by decide) hp | exact rfl)
      · exact (OnlyChanges.refl _ s)
    · exact (OnlyChanges.refl _ s)

theorem inheritRound_frame (s : State) : OnlyChanges [.ctxs] s (inheritRound s) := by
  unfold inheritRound
  exact OnlyChanges.of (OnlyChanges.refl _ s) (by intro p hp; cases p <;> first | exact absurd (by decide) hp | exact rfl)

theorem inheritRounds_frame a1 (s : State) : OnlyChanges [.ctxs] s (inheritRounds a1 s) := by
  induction a1 generalizing s with
  | zero => exact OnlyChanges.refl _ s
  | succ n ih => exact OnlyChanges.step (ih _) (OnlyChanges.step (inheritRound_frame _) (OnlyChanges.refl _ s))

theorem reclass_frame (s : State) : OnlyChanges [.ctxs] s (reclass s) := by
  unfold reclass
  refine OnlyChanges.step (inheritRounds_frame _ _) ?_
  exact OnlyChanges.of (OnlyChanges.refl _ s) (by intro p hp; cases p <;> first | exact absurd (by decide) hp | exact rfl)

theorem updLock_frame (s : State) a2 a3 a4 : OnlyChanges [.locks] s (updLock s a2 a3 a4) := by
  unfold updLock
  exact OnlyChanges.of (OnlyChanges.refl _ s) (by intro p hp; cases p <;> first | exact absurd (by decide) hp | exact rfl)

theorem passLock_frame (s : State) a2 a3 : OnlyChanges [.ctxs, .locks, .seqCtr] s (passLock s a2 a3) := by
  unfold passLock
  split
  · exact (OnlyChanges.refl _ s)
  · refine OnlyChanges.step (reclass_frame _) ?_
    split
    · refine OnlyChanges.step (giveEntry_frame _) ?_
      exact OnlyChanges.of (OnlyChanges.refl _ s) (by intro p hp; cases p <;> first | exact absurd (by decide) hp | exact rfl)
    · refine OnlyChanges.step (grantLock_frame _ _) ?_
      refine OnlyChanges.step (updLock_frame _ _ _ _) ?_
      exact (OnlyChanges.refl _ s)

theorem settleCtx_frame (s : State) a2 a3 : OnlyChanges [.funcs, .ctxs, .seqCtr] s (settleCtx s a2 a3) := by
  unfold settleCtx
  extract_lets -merge -underBinder +onlyGivenNames x1
  have hx1 : OnlyChanges [.funcs, .ctxs, .seqCtr] s x1 := by
    unfold x1
    refine OnlyChanges.step (updCtx_frame _ _ _) ?_
    exact (OnlyChanges.refl _ s)
  clear_value x1
  split
  · refine OnlyChanges.ite1 ?_ ?_
    · exact hx1
    · refine OnlyChanges.step (pushReady_frame _ _ _) ?_
      exact hx1
  · exact hx1

theorem repairDone_frame (s : State) a2 : OnlyChanges [.funcs, .ctxs, .seqCtr] s (repairDone s a2) := by
  unfold repairDone
  split
  · refine OnlyChanges.ite1 ?_ ?_
    · exact (OnlyChanges.refl _ s)
    · refine OnlyChanges.step (settleCtx_frame _ _ _) ?_
      exact (OnlyChanges.refl _ s)
  · exact (OnlyChanges.refl _ s)

theorem releaseFlush_frame (s : State) a2 a3 a4 : OnlyChanges [.funcs, .ctxs, .seqCtr] s (releaseFlush s a2 a3 a4) := by
  unfold releaseFlush
  extract_lets -merge -underBinder +onlyGivenNames x1
  clear_value x1
  refine OnlyChanges.foldl (fun x2 x3 hx2 => ?_) ?_
  · extract_lets -merge -underBinder +onlyGivenNames x4
    clear_value x4
    refine OnlyChanges.step (settleCtx_frame _ _ _) ?_
    exact hx2
  · exact (OnlyChanges.refl _ s)

theorem deferErr_frame (s : State) a2 a3 a4 a5 a6 : OnlyChanges [.funcs, .ctxs, .vols, .defLog, .defSeq, .seqCtr] s (deferErr s a2 a3 a4 a5 a6) := by
  unfold deferErr
  extract_lets -merge -underBinder +onlyGivenNames x1 x2
  clear_value x1
  have hx2 : OnlyChanges [.funcs, .ctxs, .vols, .defLog, .defSeq, .seqCtr] s x2 := by
    unfold x2
    refine OnlyChanges.step (updVol_frame _ _ _) ?_
    exact OnlyChanges.of (OnlyChanges.refl _ s) (by intro p hp; cases p <;> first | exact absurd (by decide) hp | exact rfl)
  clear_value x2
  refine OnlyChanges.step (releaseFlush_frame _ _ _ _) ?_
  exact hx2

theorem settle_frame (s : State) : OnlyChanges [.funcs, .ctxs, .seqCtr] s (settle s) := by
  unfold settle
  refine OnlyChanges.foldl (fun x1 x2 hx1 => ?_) ?_
  · extract_lets -merge -underBinder +onlyGivenNames x3
    clear_value x3
    refine OnlyChanges.step (settleCtx_frame _ _ _) ?_
    exact hx1
  · exact (OnlyChanges.refl _ s)

theorem wakeRecordWaiters_frame (s : State) : OnlyChanges [.ctxs, .seqCtr] s (wakeRecordWaiters s) := by
  unfold wakeRecordWaiters
  refine OnlyChanges.foldl (fun x1 x2 hx1 => ?_) ?_
  · refine OnlyChanges.step (wake_frame _ _) ?_
    exact hx1
  · exact (OnlyChanges.refl _ s)

theorem dropRec_frame (s : State) a2 : OnlyChanges [.ctxs, .cache, .journal, .seqCtr] s (dropRec s a2) := by
  unfold dropRec
  split
  · exact (OnlyChanges.refl _ s)
  · extract_lets -merge -underBinder +onlyGivenNames x1 x2
    have hx1 : OnlyChanges [.ctxs, .cache, .journal, .seqCtr] s x1 := by
      unfold x1
      refine OnlyChanges.step (unpinAll_frame _ _) ?_
      exact (OnlyChanges.refl _ s)
    clear_value x1
    clear_value x2
    refine OnlyChanges.step (wakeRecordWaiters_frame _) ?_
    exact OnlyChanges.of hx1 (by intro p hp; cases p <;> first | exact absurd (by decide) hp | exact rfl)

theorem leaveLock_frame (s : State) a2 a3 a4 : OnlyChanges [.ctxs, .cache, .locks, .journal, .seqCtr] s (leaveLock s a2 a3 a4) := by
  unfold leaveLock
  split
  · refine OnlyChanges.ite1 ?_ ?_
    · refine OnlyChanges.step (reclass_frame _) ?_
      refine OnlyChanges.step (updLock_frame _ _ _ _) ?_
      refine OnlyChanges.step (updRec_frame _ _ _) ?_
      exact (OnlyChanges.refl _ s)
    · refine OnlyChanges.step (passLock_frame _ _ _) ?_
      refine OnlyChanges.step (dropRec_frame _ _) ?_
      exact (OnlyChanges.refl _ s)
  · refine OnlyChanges.step (passLock_frame _ _ _) ?_
    exact (OnlyChanges.refl _ s)

theorem leaveLocks_frame (s : State) a2 : OnlyChanges [.ctxs, .cache, .locks, .journal, .seqCtr] s (leaveLocks s a2) := by
  unfold leaveLocks
  extract_lets -merge -underBinder +onlyGivenNames x1 x2
  have hx1 : OnlyChanges [.ctxs, .cache, .locks, .journal, .seqCtr] s x1 := by
    unfold x1
    refine OnlyChanges.foldl (fun x3 x4 hx3 => ?_) ?_
    · refine OnlyChanges.step (leaveLock_frame _ _ _ _) ?_
      exact hx3
    · exact (OnlyChanges.refl _ s)
  clear_value x1
  have hx2 : OnlyChanges [.ctxs, .cache, .locks, .journal, .seqCtr] s x2 := by
    unfold x2
    refine OnlyChanges.foldl (fun x5 x6 hx5 => ?_) ?_
    · refine OnlyChanges.ite1 ?_ ?_
      · refine OnlyChanges.step (updRec_frame _ _ _) ?_
        exact hx5
      · refine OnlyChanges.step (dropRec_frame _ _) ?_
        exact hx5
    · exact hx1
  clear_value x2
  exact OnlyChanges.of hx2 (by intro p hp; cases p <;> first | exact absurd (by decide) hp | exact rfl)

theorem leaveSlot_frame (s : State) a2 : OnlyChanges [.ctxs, .engineFree, .seqCtr] s (leaveSlot s a2) := by
  unfold leaveSlot
  split
  · exact (OnlyChanges.refl _ s)
  · split
    · split
      · rename_i x1 x2 x3
        have hx2 : OnlyChanges [.ctxs, .engineFree, .seqCtr] s x2 := by
          refine OnlyChangesP.of_eq x3 ?_
          refine OnlyChangesP.step (nextSeq_frame _) ?_
          exact (OnlyChanges.refl _ s)
        refine OnlyChanges.step (updCtx_frame _ _ _) ?_
        exact OnlyChanges.of hx2 (by intro p hp; cases p <;> first | exact absurd (by decide) hp | exact rfl)
    · exact (OnlyChanges.refl _ s)

theorem releaseOver_frame (s : State) a2 : OnlyChanges [.ctxs, .cache] s (releaseOver s a2) := by
  unfold releaseOver
  split
  · refine OnlyChanges.ite1 ?_ ?_
    · exact (OnlyChanges.refl _ s)
    · refine OnlyChanges.step (releaseAll_frame _ _) ?_
      exact (OnlyChanges.refl _ s)
  · exact (OnlyChanges.refl _ s)

theorem sweepKept_frame (s : State) : OnlyChanges [.progs] s (sweepKept s) := by
  unfold sweepKept
  extract_lets -merge -underBinder +onlyGivenNames x1 x2
  clear_value x1
  clear_value x2
  refine OnlyChanges.ite1 ?_ ?_
  · exact (OnlyChanges.refl _ s)
  · exact OnlyChanges.of (OnlyChanges.refl _ s) (by intro p hp; cases p <;> first | exact absurd (by decide) hp | exact rfl)

theorem endThread_frame (s : State) a2 : OnlyChanges [.funcs, .ctxs, .engineFree, .cache, .locks, .journal, .groups, .mports, .movers, .progs, .rb, .seqCtr] s (endThread s a2) := by
  unfold endThread
  extract_lets -merge -underBinder +onlyGivenNames x1 x2 x3
  have hx1 : OnlyChanges [.funcs, .ctxs, .engineFree, .cache, .locks, .journal, .groups, .mports, .movers, .progs, .rb, .seqCtr] s x1 := by
    unfold x1
    refine OnlyChanges.step (leaveLocks_frame _ _) ?_
    refine OnlyChanges.step (releaseOver_frame _ _) ?_
    refine OnlyChanges.step (leaveSlot_frame _ _) ?_
    exact (OnlyChanges.refl _ s)
  clear_value x1
  have hx2 : OnlyChanges [.funcs, .ctxs, .engineFree, .cache, .locks, .journal, .groups, .mports, .movers, .progs, .rb, .seqCtr] s x2 := by
    unfold x2
    exact OnlyChanges.of hx1 (by intro p hp; cases p <;> first | exact absurd (by decide) hp | exact rfl)
  clear_value x2
  have hx3 : OnlyChanges [.funcs, .ctxs, .engineFree, .cache, .locks, .journal, .groups, .mports, .movers, .progs, .rb, .seqCtr] s x3 := by
    unfold x3
    refine OnlyChanges.step (wakeFrameWaiters_frame _) ?_
    exact hx2
  clear_value x3
  split
  · exact hx3
  · refine OnlyChanges.step (sweepKept_frame _) ?_
    refine OnlyChanges.ite1 ?_ ?_
    · refine OnlyChanges.step (updCtx_frame _ _ _) ?_
      exact hx3
    · refine OnlyChanges.step (flrSettle_frame _ _) ?_
      exact OnlyChanges.of hx3 (by intro p hp; cases p <;> first | exact absurd (by decide) hp | exact rfl)

theorem postCtx_frame (s : State) a2 a3 : OnlyChanges [.funcs, .ctxs, .seqCtr] s (postCtx s a2 a3) := by
  unfold postCtx
  split
  · exact (OnlyChanges.refl _ s)
  · extract_lets -merge -underBinder +onlyGivenNames x1 x2 x3
    clear_value x1
    clear_value x2
    have hx3 : OnlyChanges [.funcs, .ctxs, .seqCtr] s x3 := by
      unfold x3
      refine OnlyChanges.step (updCtx_frame _ _ _) ?_
      exact (OnlyChanges.refl _ s)
    clear_value x3
    refine OnlyChanges.ite1 ?_ ?_
    · exact (OnlyChanges.refl _ s)
    · refine OnlyChanges.ite1 ?_ ?_
      · exact hx3
      · refine OnlyChanges.step (pushReady_frame _ _ _) ?_
        exact hx3

theorem fatalAs_frame (s : State) a2 a3 a4 a5 : OnlyChanges [.funcs, .ctxs, .engineFree, .cache, .locks, .journal, .groups, .vols, .mports, .movers, .progs, .errLog, .errSeq, .defLog, .defSeq, .rb, .seqCtr] s (fatalAs s a2 a3 a4 a5) := by
  unfold fatalAs
  split
  · exact (OnlyChanges.refl _ s)
  · extract_lets -merge -underBinder +onlyGivenNames x1 x2 x3 x4
    clear_value x1
    have hx2 : OnlyChanges [.funcs, .ctxs, .engineFree, .cache, .locks, .journal, .groups, .vols, .mports, .movers, .progs, .errLog, .errSeq, .defLog, .defSeq, .rb, .seqCtr] s x2 := by
      unfold x2
      refine OnlyChanges.step (updCtx_frame _ _ _) ?_
      exact (OnlyChanges.refl _ s)
    clear_value x2
    have hx3 : OnlyChanges [.funcs, .ctxs, .engineFree, .cache, .locks, .journal, .groups, .vols, .mports, .movers, .progs, .errLog, .errSeq, .defLog, .defSeq, .rb, .seqCtr] s x3 := by
      unfold x3
      refine OnlyChanges.step (logErr_frame _ _ _ _ _) ?_
      exact hx2
    clear_value x3
    have hx4 : OnlyChanges [.funcs, .ctxs, .engineFree, .cache, .locks, .journal, .groups, .vols, .mports, .movers, .progs, .errLog, .errSeq, .defLog, .defSeq, .rb, .seqCtr] s x4 := by
      unfold x4
      split
      · refine OnlyChanges.step (deferErr_frame _ _ _ _ _ _) ?_
        exact hx3
      · exact hx3
    clear_value x4
    refine OnlyChanges.step (endThread_frame _ _) ?_
    refine OnlyChanges.step (postCtx_frame _ _ _) ?_
    exact hx4

theorem startWait_frame (s : State) a2 a3 : OnlyChanges [.ctxs, .engineFree, .seqCtr] s (startWait s a2 a3) := by
  unfold startWait
  refine OnlyChanges.step (updCtx_frame _ _ _) ?_
  refine OnlyChanges.step (leaveSlot_frame _ _) ?_
  exact (OnlyChanges.refl _ s)

theorem fatal_frame (s : State) a2 a3 a4 : OnlyChanges [.funcs, .ctxs, .engineFree, .cache, .locks, .journal, .groups, .vols, .mports, .movers, .progs, .errLog, .errSeq, .defLog, .defSeq, .rb, .seqCtr] s (fatal s a2 a3 a4) := by
  unfold fatal
  refine OnlyChanges.step (fatalAs_frame _ _ _ _ _) ?_
  exact (OnlyChanges.refl _ s)

theorem evictOne_frame (s : State) : OnlyChanges [.ctxs] s (evictOne s) := by
  unfold evictOne
  split
  · exact (OnlyChanges.refl _ s)
  · refine OnlyChanges.step (updCtx_frame _ _ _) ?_
    exact (OnlyChanges.refl _ s)

theorem makeRoom_frame (s : State) : OnlyChanges [.ctxs] s (makeRoom s) := by
  unfold makeRoom
  refine OnlyChanges.ite1 ?_ ?_
  · exact (OnlyChanges.refl _ s)
  · refine OnlyChanges.step (evictOne_frame _) ?_
    exact (OnlyChanges.refl _ s)

theorem newResidence_frame (s : State) a2 : OnlyChangesP [.ctxs] s (newResidence s a2) := by
  unfold newResidence
  extract_lets -merge -underBinder +onlyGivenNames x1
  have hx1 : OnlyChanges [.ctxs] s x1 := by
    unfold x1
    refine OnlyChanges.ite1 ?_ ?_
    · refine OnlyChanges.step (makeRoom_frame _) ?_
      exact (OnlyChanges.refl _ s)
    · exact (OnlyChanges.refl _ s)
  clear_value x1
  refine OnlyChanges.ite2 ?_ ?_
  · refine OnlyChangesP.mk ?_
    exact (OnlyChanges.refl _ s)
  · refine OnlyChangesP.mk ?_
    exact hx1

theorem passExpired_frame (s : State) : OnlyChanges [.ctxs, .cache, .locks, .journal, .seqCtr] s (passExpired s) := by
  unfold passExpired
  refine OnlyChanges.foldl (fun x1 x2 hx1 => ?_) ?_
  · split
    · refine OnlyChanges.step (leaveLock_frame _ _ _ _) ?_
      exact hx1
    · exact hx1
  · exact (OnlyChanges.refl _ s)

theorem loadCtx_frame (s : State) a2 : OnlyChanges [.ctxs] s (loadCtx s a2) := by
  unfold loadCtx
  split
  · refine OnlyChanges.ite1 ?_ ?_
    · refine OnlyChanges.step (updCtx_frame _ _ _) ?_
      refine OnlyChanges.step (makeRoom_frame _) ?_
      exact (OnlyChanges.refl _ s)
    · exact (OnlyChanges.refl _ s)
  · exact (OnlyChanges.refl _ s)

theorem poisonFault_frame (s : State) a2 a3 : OnlyChanges [.funcs, .ctxs, .engineFree, .cache, .locks, .journal, .groups, .vols, .mports, .movers, .progs, .errLog, .errSeq, .defLog, .defSeq, .rb, .seqCtr] s (poisonFault s a2 a3) := by
  unfold poisonFault
  split
  · exact (OnlyChanges.refl _ s)
  · split
    · refine OnlyChanges.ite1 ?_ ?_
      · refine OnlyChanges.step (fatal_frame _ _ _ _) ?_
        exact (OnlyChanges.refl _ s)
      · refine OnlyChanges.step (updCtx_frame _ _ _) ?_
        exact (OnlyChanges.refl _ s)
    · refine OnlyChanges.step (fatal_frame _ _ _ _) ?_
      exact (OnlyChanges.refl _ s)

theorem noteLate_frame (s : State) a2 a3 : OnlyChanges [.ctxs] s (noteLate s a2 a3) := by
  unfold noteLate
  refine OnlyChanges.step (updCtx_frame _ _ _) ?_
  exact (OnlyChanges.refl _ s)

end Sys2Proof.Machine
end

