-- ==== Sys2Proof/Laws/FramesRetire.lean ====
section
/-! SUPPORT. Which parts of the state each function of Machine/Retire.lean can change. -/

set_option Elab.async false

namespace Sys2Proof.Machine

theorem countUnits_frame (s : State) a2 a3 a4 : OnlyChanges [.adm] s (countUnits s a2 a3 a4) := by
  unfold countUnits
  extract_lets -merge -underBinder +onlyGivenNames x1 x2 x3
  clear_value x1
  clear_value x2
  clear_value x3
  exact OnlyChanges.of (OnlyChanges.refl _ s) (by intro p hp; cases p <;> first | exact absurd (by decide) hp | exact rfl)

theorem countMirror_frame (s : State) a2 a3 : OnlyChanges [.adm] s (countMirror s a2 a3) := by
  unfold countMirror
  refine OnlyChanges.foldl (fun x1 x2 hx1 => ?_) ?_
  · refine OnlyChanges.step (countUnits_frame _ _ _ _) ?_
    exact hx1
  · exact (OnlyChanges.refl _ s)

theorem writeEcho_frame a1 a2 (s : State) : OnlyChanges [.adm, .groups, .out] s (writeEcho a1 a2 s) := by
  unfold writeEcho
  split
  · exact (OnlyChanges.refl _ s)
  · extract_lets -merge -underBinder +onlyGivenNames x1
    have hx1 : OnlyChanges [.adm, .groups, .out] s x1 := by
      unfold x1
      refine OnlyChanges.step (emit_frame _ _) ?_
      exact (OnlyChanges.refl _ s)
    clear_value x1
    refine OnlyChanges.step (countMirror_frame _ _ _) ?_
    refine OnlyChanges.step (updGroup_frame _ _ _) ?_
    exact hx1

theorem writeHeader_frame (s : State) a2 a3 : OnlyChanges [.adm, .groups, .out] s (writeHeader s a2 a3) := by
  unfold writeHeader
  extract_lets -merge -underBinder +onlyGivenNames x1
  have hx1 : OnlyChanges [.adm, .groups, .out] s x1 := by
    unfold x1
    refine OnlyChanges.step (updGroup_frame _ _ _) ?_
    exact (OnlyChanges.refl _ s)
  clear_value x1
  split
  · exact hx1
  · refine OnlyChanges.step (countMirror_frame _ _ _) ?_
    refine OnlyChanges.step (emit_frame _ _) ?_
    exact hx1

theorem newEpoch_frame (s : State) a2 : OnlyChanges [.adm, .groups, .out] s (newEpoch s a2) := by
  unfold newEpoch
  split
  · exact (OnlyChanges.refl _ s)
  · extract_lets -merge -underBinder +onlyGivenNames x1 x2 x3 x4
    clear_value x1
    clear_value x2
    have hx3 : OnlyChanges [.adm, .groups, .out] s x3 := by
      unfold x3
      refine OnlyChanges.step (updGroup_frame _ _ _) ?_
      exact (OnlyChanges.refl _ s)
    clear_value x3
    have hx4 : OnlyChanges [.adm, .groups, .out] s x4 := by
      unfold x4
      refine OnlyChanges.step (updGroup_frame _ _ _) ?_
      exact hx3
    clear_value x4
    refine OnlyChanges.step (writeHeader_frame _ _ _) ?_
    refine OnlyChanges.foldl (fun x5 x6 hx5 => ?_) ?_
    · refine OnlyChanges.step (writeEcho_frame _ _ _) ?_
      exact hx5
    · exact hx4

theorem flushEcho_frame (s : State) a2 : OnlyChanges [.adm, .groups, .out] s (flushEcho s a2) := by
  unfold flushEcho
  split
  · exact (OnlyChanges.refl _ s)
  · extract_lets -merge -underBinder +onlyGivenNames x1 x2
    have hx1 : OnlyChanges [.adm, .groups, .out] s x1 := by
      unfold x1
      refine OnlyChanges.step (updGroup_frame _ _ _) ?_
      exact (OnlyChanges.refl _ s)
    clear_value x1
    have hx2 : OnlyChanges [.adm, .groups, .out] s x2 := by
      unfold x2
      refine OnlyChanges.ite1 ?_ ?_
      · refine OnlyChanges.step (writeHeader_frame _ _ _) ?_
        exact hx1
      · exact hx1
    clear_value x2
    refine OnlyChanges.ite1 ?_ ?_
    · exact (OnlyChanges.refl _ s)
    · refine OnlyChanges.foldl (fun x3 x4 hx3 => ?_) ?_
      · refine OnlyChanges.step (writeEcho_frame _ _ _) ?_
        refine OnlyChanges.ite1 ?_ ?_
        · refine OnlyChanges.step (newEpoch_frame _ _) ?_
          exact hx3
        · exact hx3
      · exact hx2

theorem markResync_frame (s : State) a2 a3 : OnlyChanges [.groups, .errLog, .errSeq] s (markResync s a2 a3) := by
  unfold markResync
  extract_lets -merge -underBinder +onlyGivenNames x1
  have hx1 : OnlyChanges [.groups, .errLog, .errSeq] s x1 := by
    unfold x1
    refine OnlyChanges.step (updGroup_frame _ _ _) ?_
    exact (OnlyChanges.refl _ s)
  clear_value x1
  refine OnlyChanges.step (logErr_frame _ _ _ _ _) ?_
  exact hx1

theorem passOrphan_frame (s : State) a2 a3 : OnlyChanges [.ctxs, .locks, .seqCtr] s (passOrphan s a2 a3) := by
  unfold passOrphan
  split
  · refine OnlyChanges.ite1 ?_ ?_
    · refine OnlyChanges.step (passLock_frame _ _ _) ?_
      exact (OnlyChanges.refl _ s)
    · exact (OnlyChanges.refl _ s)
  · exact (OnlyChanges.refl _ s)

theorem leaveLost_frame (s : State) a2 a3 : OnlyChanges [.groups, .mem] s (leaveLost s a2 a3) := by
  unfold leaveLost
  extract_lets -merge -underBinder +onlyGivenNames x1 x2
  clear_value x1
  clear_value x2
  refine OnlyChanges.ite1 ?_ ?_
  · refine OnlyChanges.step (updGroup_frame _ _ _) ?_
    exact OnlyChanges.of (OnlyChanges.refl _ s) (by intro p hp; cases p <;> first | exact absurd (by decide) hp | exact rfl)
  · exact (OnlyChanges.refl _ s)

theorem queueEcho_frame (s : State) a2 a3 a4 a5 a6 : OnlyChanges [.groups, .out] s (queueEcho s a2 a3 a4 a5 a6) := by
  unfold queueEcho
  refine OnlyChanges.step (emit_frame _ _) ?_
  refine OnlyChanges.step (updGroup_frame _ _ _) ?_
  exact (OnlyChanges.refl _ s)

theorem discardBlock_frame (s : State) a2 : OnlyChanges [.cache] s (discardBlock s a2) := by
  unfold discardBlock
  extract_lets -merge -underBinder +onlyGivenNames x1
  have hx1 : OnlyChanges [.cache] s x1 := by
    unfold x1
    refine OnlyChanges.step (updFrame_frame _ _ _) ?_
    exact (OnlyChanges.refl _ s)
  clear_value x1
  refine OnlyChanges.ite1 ?_ ?_
  · refine OnlyChanges.step (freeFrame_frame _ _) ?_
    exact hx1
  · exact hx1

theorem loseDirty_frame (s : State) a2 a3 a4 : OnlyChanges [.funcs, .ctxs, .cache, .vols, .defLog, .defSeq, .seqCtr] s (loseDirty s a2 a3 a4) := by
  unfold loseDirty
  extract_lets -merge -underBinder +onlyGivenNames x1 x2 x3 x4
  clear_value x1
  clear_value x2
  clear_value x3
  have hx4 : OnlyChanges [.funcs, .ctxs, .cache, .vols, .defLog, .defSeq, .seqCtr] s x4 := by
    unfold x4
    refine OnlyChanges.foldl (fun x5 x6 hx5 => ?_) ?_
    · refine OnlyChanges.step (deferErr_frame _ _ _ _ _ _) ?_
      exact hx5
    · exact (OnlyChanges.refl _ s)
  clear_value x4
  refine OnlyChanges.ite1 ?_ ?_
  · exact (OnlyChanges.refl _ s)
  · refine OnlyChanges.step (settle_frame _) ?_
    refine OnlyChanges.step (wakeFrameWaiters_frame _) ?_
    refine OnlyChanges.foldl (fun x7 x8 hx7 => ?_) ?_
    · refine OnlyChanges.step (discardBlock_frame _ _) ?_
      exact hx7
    · exact hx4

theorem enterLost_frame (s : State) a2 a3 a4 a5 : OnlyChanges [.funcs, .ctxs, .cache, .groups, .vols, .mem, .errLog, .errSeq, .defLog, .defSeq, .seqCtr] s (enterLost s a2 a3 a4 a5) := by
  unfold enterLost
  split
  · exact (OnlyChanges.refl _ s)
  · extract_lets -merge -underBinder +onlyGivenNames x1 x2 x3 x4 x5 x6 x7 x8
    clear_value x1
    have hx2 : OnlyChanges [.funcs, .ctxs, .cache, .groups, .vols, .mem, .errLog, .errSeq, .defLog, .defSeq, .seqCtr] s x2 := by
      unfold x2
      split
      · refine OnlyChanges.step (deferErr_frame _ _ _ _ _ _) ?_
        exact (OnlyChanges.refl _ s)
      · exact (OnlyChanges.refl _ s)
    clear_value x2
    clear_value x3
    clear_value x4
    clear_value x5
    clear_value x6
    have hx7 : OnlyChanges [.funcs, .ctxs, .cache, .groups, .vols, .mem, .errLog, .errSeq, .defLog, .defSeq, .seqCtr] s x7 := by
      unfold x7
      exact OnlyChanges.of (OnlyChanges.refl _ s) (by intro p hp; cases p <;> first | exact absurd (by decide) hp | exact rfl)
    clear_value x7
    have hx8 : OnlyChanges [.funcs, .ctxs, .cache, .groups, .vols, .mem, .errLog, .errSeq, .defLog, .defSeq, .seqCtr] s x8 := by
      unfold x8
      refine OnlyChanges.step (updGroup_frame _ _ _) ?_
      exact hx7
    clear_value x8
    refine OnlyChanges.ite1 ?_ ?_
    · exact (OnlyChanges.refl _ s)
    · refine OnlyChanges.ite1 ?_ ?_
      · refine OnlyChanges.step (logErr_frame _ _ _ _ _) ?_
        exact OnlyChanges.of hx2 (by intro p hp; cases p <;> first | exact absurd (by decide) hp | exact rfl)
      · refine OnlyChanges.step (loseDirty_frame _ _ _ _) ?_
        refine OnlyChanges.step (logErr_frame _ _ _ _ _) ?_
        exact hx8

theorem movePoison_frame (s : State) a2 a3 a4 a5 : OnlyChanges [.funcs, .ctxs, .cache, .groups, .vols, .mem, .errLog, .errSeq, .defLog, .defSeq, .seqCtr] s (movePoison s a2 a3 a4 a5) := by
  unfold movePoison
  refine OnlyChanges.ite1 ?_ ?_
  · exact (OnlyChanges.refl _ s)
  · refine OnlyChanges.ite1 ?_ ?_
    · refine OnlyChanges.step (enterLost_frame _ _ _ _ _) ?_
      refine OnlyChanges.step (logErr_frame _ _ _ _ _) ?_
      exact (OnlyChanges.refl _ s)
    · refine OnlyChanges.step (updGroup_frame _ _ _) ?_
      refine OnlyChanges.step (updCache_frame _ _) ?_
      exact (OnlyChanges.refl _ s)

theorem retireFrameOf_frame a1 a2 a3 (s : State) a5 : OnlyChanges [.funcs, .ctxs, .cache, .groups, .vols, .mem, .errLog, .errSeq, .defLog, .defSeq, .seqCtr] s (retireFrameOf a1 a2 a3 s a5) := by
  unfold retireFrameOf
  extract_lets -merge -underBinder +onlyGivenNames x1 x2 x3
  clear_value x1
  have hx2 : OnlyChanges [.funcs, .ctxs, .cache, .groups, .vols, .mem, .errLog, .errSeq, .defLog, .defSeq, .seqCtr] s x2 := by
    unfold x2
    refine OnlyChanges.step (updFrame_frame _ _ _) ?_
    exact (OnlyChanges.refl _ s)
  clear_value x2
  have hx3 : OnlyChanges [.funcs, .ctxs, .cache, .groups, .vols, .mem, .errLog, .errSeq, .defLog, .defSeq, .seqCtr] s x3 := by
    unfold x3
    split
    · refine OnlyChanges.ite1 ?_ ?_
      · refine OnlyChanges.step (movePoison_frame _ _ _ _ _) ?_
        refine OnlyChanges.step (updFrame_frame _ _ _) ?_
        exact hx2
      · exact hx2
    · exact hx2
  clear_value x3
  refine OnlyChanges.step (unpinFrame_frame _ _) ?_
  exact hx3

theorem retireRec_frame (s : State) a2 : OnlyChanges [.funcs, .ctxs, .cache, .journal, .groups, .vols, .mem, .errLog, .errSeq, .defLog, .defSeq, .out, .seqCtr] s (retireRec s a2) := by
  unfold retireRec
  split
  · exact (OnlyChanges.refl _ s)
  · extract_lets -merge -underBinder +onlyGivenNames x1 x2 x3 x4 x5
    clear_value x1
    have hx2 : OnlyChanges [.funcs, .ctxs, .cache, .journal, .groups, .vols, .mem, .errLog, .errSeq, .defLog, .defSeq, .out, .seqCtr] s x2 := by
      unfold x2
      exact OnlyChanges.of (OnlyChanges.refl _ s) (by intro p hp; cases p <;> first | exact absurd (by decide) hp | exact rfl)
    clear_value x2
    have hx3 : OnlyChanges [.funcs, .ctxs, .cache, .journal, .groups, .vols, .mem, .errLog, .errSeq, .defLog, .defSeq, .out, .seqCtr] s x3 := by
      unfold x3
      refine OnlyChanges.foldl (fun x6 x7 hx6 => ?_) ?_
      · refine OnlyChanges.foldl (fun x8 x9 hx8 => ?_) ?_
        · refine OnlyChanges.step (retireFrameOf_frame _ _ _ _ _) ?_
          exact hx8
        · exact hx6
      · exact hx2
    clear_value x3
    have hx4 : OnlyChanges [.funcs, .ctxs, .cache, .journal, .groups, .vols, .mem, .errLog, .errSeq, .defLog, .defSeq, .out, .seqCtr] s x4 := by
      unfold x4
      refine OnlyChanges.ite1 ?_ ?_
      · refine OnlyChanges.step (leaveLost_frame _ _ _) ?_
        exact hx3
      · exact hx3
    clear_value x4
    have hx5 : OnlyChanges [.funcs, .ctxs, .cache, .journal, .groups, .vols, .mem, .errLog, .errSeq, .defLog, .defSeq, .out, .seqCtr] s x5 := by
      unfold x5
      refine OnlyChanges.step (queueEcho_frame _ _ _ _ _ _) ?_
      exact hx4
    clear_value x5
    refine OnlyChanges.step (wakeRecordWaiters_frame _) ?_
    refine OnlyChanges.step (wakeFrameWaiters_frame _) ?_
    refine OnlyChanges.step (settle_frame _) ?_
    exact hx5

theorem endReplay_frame (s : State) a2 a3 : OnlyChanges [.funcs, .ctxs, .cache, .locks, .journal, .groups, .vols, .mem, .errLog, .errSeq, .defLog, .defSeq, .out, .seqCtr] s (endReplay s a2 a3) := by
  unfold endReplay
  extract_lets -merge -underBinder +onlyGivenNames x1 x2
  have hx1 : OnlyChanges [.funcs, .ctxs, .cache, .locks, .journal, .groups, .vols, .mem, .errLog, .errSeq, .defLog, .defSeq, .out, .seqCtr] s x1 := by
    unfold x1
    refine OnlyChanges.ite1 ?_ ?_
    · refine OnlyChanges.step (markResync_frame _ _ _) ?_
      exact (OnlyChanges.refl _ s)
    · exact (OnlyChanges.refl _ s)
  clear_value x1
  have hx2 : OnlyChanges [.funcs, .ctxs, .cache, .locks, .journal, .groups, .vols, .mem, .errLog, .errSeq, .defLog, .defSeq, .out, .seqCtr] s x2 := by
    unfold x2
    refine OnlyChanges.step (passOrphan_frame _ _ _) ?_
    refine OnlyChanges.step (retireRec_frame _ _) ?_
    exact hx1
  clear_value x2
  split
  · refine OnlyChanges.step (repairDone_frame _ _) ?_
    exact hx2
  · refine OnlyChanges.step (updVol_frame _ _ _) ?_
    exact hx2
  · exact hx2

theorem endReplays_frame (s : State) : OnlyChanges [.funcs, .ctxs, .cache, .locks, .journal, .groups, .vols, .mem, .errLog, .errSeq, .defLog, .defSeq, .out, .seqCtr] s (endReplays s) := by
  unfold endReplays
  refine OnlyChanges.ite1 ?_ ?_
  · exact (OnlyChanges.refl _ s)
  · refine OnlyChanges.foldl (fun x1 x2 hx1 => ?_) ?_
    · refine OnlyChanges.step (endReplay_frame _ _ _) ?_
      exact hx1
    · exact (OnlyChanges.refl _ s)

theorem labelChange_frame (s : State) a2 : OnlyChanges [.groups] s (labelChange s a2) := by
  unfold labelChange
  refine OnlyChanges.step (updGroup_frame _ _ _) ?_
  exact (OnlyChanges.refl _ s)

theorem rebuildDone_frame (s : State) a2 a3 a4 : OnlyChanges [.groups, .mports, .errLog, .errSeq, .rb] s (rebuildDone s a2 a3 a4) := by
  unfold rebuildDone
  split
  · exact (OnlyChanges.refl _ s)
  · extract_lets -merge -underBinder +onlyGivenNames x1 x2 x3
    have hx1 : OnlyChanges [.groups, .mports, .errLog, .errSeq, .rb] s x1 := by
      unfold x1
      refine OnlyChanges.step (logErr_frame _ _ _ _ _) ?_
      exact (OnlyChanges.refl _ s)
    clear_value x1
    have hx2 : OnlyChanges [.groups, .mports, .errLog, .errSeq, .rb] s x2 := by
      unfold x2
      refine OnlyChanges.step (updGroup_frame _ _ _) ?_
      exact hx1
    clear_value x2
    have hx3 : OnlyChanges [.groups, .mports, .errLog, .errSeq, .rb] s x3 := by
      unfold x3
      refine OnlyChanges.ite1 ?_ ?_
      · split
        · refine OnlyChanges.step (updMport_frame _ _ _) ?_
          exact hx2
        · exact hx2
      · exact hx1
    clear_value x3
    refine OnlyChanges.step (rbChange_frame _) ?_
    refine OnlyChanges.step (labelChange_frame _ _) ?_
    exact hx3

theorem raiseWatermark_frame (s : State) a2 a3 a4 : OnlyChanges [.groups, .mports, .errLog, .errSeq, .rb] s (raiseWatermark s a2 a3 a4) := by
  unfold raiseWatermark
  split
  · exact (OnlyChanges.refl _ s)
  · split
    · exact (OnlyChanges.refl _ s)
    · extract_lets -merge -underBinder +onlyGivenNames x1 x2
      clear_value x1
      have hx2 : OnlyChanges [.groups, .mports, .errLog, .errSeq, .rb] s x2 := by
        unfold x2
        refine OnlyChanges.step (updGroup_frame _ _ _) ?_
        exact (OnlyChanges.refl _ s)
      clear_value x2
      refine OnlyChanges.ite1 ?_ ?_
      · exact (OnlyChanges.refl _ s)
      · refine OnlyChanges.ite1 ?_ ?_
        · refine OnlyChanges.step (rebuildDone_frame _ _ _ _) ?_
          exact hx2
        · exact hx2

theorem retireWm_frame (s : State) a2 a3 a4 a5 : OnlyChanges [.groups, .mports, .errLog, .errSeq, .rb] s (retireWm s a2 a3 a4 a5) := by
  unfold retireWm
  split
  · refine OnlyChanges.ite1 ?_ ?_
    · refine OnlyChanges.step (raiseWatermark_frame _ _ _ _) ?_
      exact (OnlyChanges.refl _ s)
    · exact (OnlyChanges.refl _ s)
  · exact (OnlyChanges.refl _ s)

theorem doRetire_frame (s : State) a2 a3 a4 a5 : OnlyChangesP [.funcs, .ctxs, .cache, .locks, .journal, .groups, .vols, .mports, .mem, .errLog, .errSeq, .defLog, .defSeq, .rb, .out, .seqCtr] s (doRetire s a2 a3 a4 a5) := by
  unfold doRetire
  split
  · refine OnlyChangesP.mk ?_
    exact (OnlyChanges.refl _ s)
  · extract_lets -merge -underBinder +onlyGivenNames x1 x2 x3 x4
    have hx1 : OnlyChanges [.funcs, .ctxs, .cache, .locks, .journal, .groups, .vols, .mports, .mem, .errLog, .errSeq, .defLog, .defSeq, .rb, .out, .seqCtr] s x1 := by
      unfold x1
      refine OnlyChanges.step (retireWm_frame _ _ _ _ _) ?_
      exact (OnlyChanges.refl _ s)
    clear_value x1
    have hx2 : OnlyChanges [.funcs, .ctxs, .cache, .locks, .journal, .groups, .vols, .mports, .mem, .errLog, .errSeq, .defLog, .defSeq, .rb, .out, .seqCtr] s x2 := by
      unfold x2
      refine OnlyChanges.step (retireRec_frame _ _) ?_
      exact hx1
    clear_value x2
    have hx3 : OnlyChanges [.funcs, .ctxs, .cache, .locks, .journal, .groups, .vols, .mports, .mem, .errLog, .errSeq, .defLog, .defSeq, .rb, .out, .seqCtr] s x3 := by
      unfold x3
      split
      · refine OnlyChanges.ite1 ?_ ?_
        · refine OnlyChanges.step (updGroup_frame _ _ _) ?_
          exact hx2
        · exact hx2
      · exact hx2
    clear_value x3
    clear_value x4
    refine OnlyChanges.ite2 ?_ ?_
    · refine OnlyChangesP.mk ?_
      refine OnlyChanges.step (dropRec_frame _ _) ?_
      exact hx1
    · refine OnlyChangesP.mk ?_
      refine OnlyChanges.ite1 ?_ ?_
      · refine OnlyChanges.step (passLock_frame _ _ _) ?_
        exact hx3
      · exact hx3

theorem tryRetire_frame (s : State) a2 : OnlyChanges [.funcs, .ctxs, .cache, .locks, .journal, .groups, .vols, .mports, .mem, .errLog, .errSeq, .defLog, .defSeq, .rb, .out, .seqCtr] s (tryRetire s a2) := by
  unfold tryRetire
  split
  · exact (OnlyChanges.refl _ s)
  · split
    · refine OnlyChanges.ite1 ?_ ?_
      · split
        · rename_i x1 x2 x3
          have hx2 : OnlyChanges [.funcs, .ctxs, .cache, .locks, .journal, .groups, .vols, .mports, .mem, .errLog, .errSeq, .defLog, .defSeq, .rb, .out, .seqCtr] s x2 := by
            refine OnlyChangesP.of_eq x3 ?_
            refine OnlyChangesP.step (doRetire_frame _ _ _ _ _) ?_
            exact (OnlyChanges.refl _ s)
          refine OnlyChanges.step (finishWait_frame _ _ _) ?_
          exact hx2
      · exact (OnlyChanges.refl _ s)
    · exact (OnlyChanges.refl _ s)

theorem clearPoison_frame (s : State) a2 a3 : OnlyChanges [.cache] s (clearPoison s a2 a3) := by
  unfold clearPoison
  refine OnlyChanges.step (updCache_frame _ _) ?_
  exact (OnlyChanges.refl _ s)

end Sys2Proof.Machine
end

