-- ==== Sys2Proof/Laws/FramesImages.lean ====
section
/-! SUPPORT. Which parts of the state each function of Machine/Images.lean can change. -/

set_option Elab.async false

namespace Sys2Proof.Machine

theorem addRec_frame (s : State) a2 : OnlyChangesP [.journal] s (addRec s a2) := by
  unfold addRec
  extract_lets -merge -underBinder +onlyGivenNames x1 x2 x3
  clear_value x1
  clear_value x2
  clear_value x3
  refine OnlyChangesP.mk ?_
  exact OnlyChanges.of (OnlyChanges.refl _ s) (by intro p hp; cases p <;> first | exact absurd (by decide) hp | exact rfl)

end Sys2Proof.Machine
end

