-- ==== Sys2Proof/Laws/FramesOperands.lean ====
section
/-! SUPPORT. Which parts of the state each function of Machine/Operands.lean can change. -/

set_option Elab.async false

namespace Sys2Proof.Machine

theorem complete_frame (s : State) a2 a3 : OnlyChanges [.ctxs] s (complete s a2 a3) := by
  unfold complete
  refine OnlyChanges.step (updCtx_frame _ _ _) ?_
  exact (OnlyChanges.refl _ s)

theorem completeD_frame (s : State) a2 a3 : OnlyChanges [.ctxs] s (completeD s a2 a3) := by
  unfold completeD
  refine OnlyChanges.step (complete_frame _ _ _) ?_
  exact (OnlyChanges.refl _ s)

/-- What an instruction's shared frame can do: a fatal end, or the instruction's own effect. -/
theorem runIns_frame {F : List Part} {s t : State} {i : Ins} {ok : Bool} {allow : HandlerKind → Bool} {f : Ctx → State → State}
    (k : ∀ c u, OnlyChanges F s u → OnlyChanges F s (f c u)) (h : OnlyChanges F s t) (w : Part.sub [.funcs, .ctxs, .engineFree, .cache, .locks, .journal, .groups, .vols, .mports, .movers, .progs, .errLog, .errSeq, .defLog, .defSeq, .rb, .seqCtr] F = true := by decide) :
    OnlyChangesQ F s (runIns i ok allow t f) := by
  unfold runIns
  refine OnlyChanges.ite4 OnlyChangesQ.fault ?_
  split
  · exact OnlyChangesQ.next h
  · refine OnlyChanges.ite4 (OnlyChangesQ.next h) (OnlyChanges.ite4 OnlyChangesQ.fault ?_)
    split
    · exact OnlyChangesQ.next (OnlyChanges.step (fatal_frame _ _ _ _) h w)
    · exact OnlyChanges.ite4 (OnlyChangesQ.next (OnlyChanges.step (fatal_frame _ _ _ _) h w)) (OnlyChangesQ.next (k _ _ (OnlyChanges.step (updCtx_frame _ _ _) h (Part.sub_trans (by decide) w))))

theorem resultIns_frame a1 a2 a3 (s : State) : OnlyChangesQ [.funcs, .ctxs, .engineFree, .cache, .locks, .journal, .groups, .vols, .mports, .movers, .progs, .errLog, .errSeq, .defLog, .defSeq, .rb, .seqCtr] s (resultIns a1 a2 a3 s) := by
  unfold resultIns
  refine runIns_frame ?_ ?_
  · intro x1 x2 hx2
    refine OnlyChanges.step (completeD_frame _ _ _) ?_
    exact hx2
  · exact (OnlyChanges.refl _ s)

theorem pureIns_frame a1 a2 a3 (s : State) : OnlyChangesQ [.funcs, .ctxs, .engineFree, .cache, .locks, .journal, .groups, .vols, .mports, .movers, .progs, .errLog, .errSeq, .defLog, .defSeq, .rb, .seqCtr] s (pureIns a1 a2 a3 s) := by
  unfold pureIns
  refine runIns_frame ?_ ?_
  · intro x1 x2 hx2
    refine OnlyChanges.step (complete_frame _ _ _) ?_
    exact hx2
  · exact (OnlyChanges.refl _ s)

end Sys2Proof.Machine
end

