-- ==== Sys2Proof/Laws/FramesInitiator.lean ====
section
/-! SUPPORT. Which parts of the state each function of Machine/Initiator.lean can change. -/

set_option Elab.async false

namespace Sys2Proof.Machine

theorem echoFirst_frame (s : State) a2 : OnlyChanges [.adm, .groups, .out] s (echoFirst s a2) := by
  unfold echoFirst
  split
  · refine OnlyChanges.step (flushEcho_frame _ _) ?_
    exact (OnlyChanges.refl _ s)
  · exact (OnlyChanges.refl _ s)

theorem sendMem_frame (s : State) a2 a3 a4 : OnlyChanges [.adm, .groups, .mports, .out] s (sendMem s a2 a3 a4) := by
  unfold sendMem
  extract_lets -merge -underBinder +onlyGivenNames x1
  have hx1 : OnlyChanges [.adm, .groups, .mports, .out] s x1 := by
    unfold x1
    refine OnlyChanges.step (echoFirst_frame _ _) ?_
    exact (OnlyChanges.refl _ s)
  clear_value x1
  split
  · exact hx1
  · extract_lets -merge -underBinder +onlyGivenNames x2
    have hx2 : OnlyChanges [.adm, .groups, .mports, .out] s x2 := by
      unfold x2
      refine OnlyChanges.ite1 ?_ ?_
      · refine OnlyChanges.step (emit_frame _ _) ?_
        exact hx1
      · exact hx1
    clear_value x2
    refine OnlyChanges.step (emit_frame _ _) ?_
    refine OnlyChanges.step (updMport_frame _ _ _) ?_
    exact hx2

theorem sendAdmin_frame (s : State) a2 a3 a4 : OnlyChanges [.adm, .groups, .mports, .out] s (sendAdmin s a2 a3 a4) := by
  unfold sendAdmin
  refine OnlyChanges.step (sendMem_frame _ _ _ _) ?_
  exact (OnlyChanges.refl _ s)

theorem sendDtwin_frame (s : State) a2 : OnlyChanges [.adm, .groups, .mports, .out] s (sendDtwin s a2) := by
  unfold sendDtwin
  refine OnlyChanges.step (sendAdmin_frame _ _ _ _) ?_
  refine OnlyChanges.step (updMport_frame _ _ _) ?_
  exact (OnlyChanges.refl _ s)

theorem applyDepth_frame (s : State) a2 : OnlyChanges [.adm, .groups, .mports, .out] s (applyDepth s a2) := by
  unfold applyDepth
  split
  · exact (OnlyChanges.refl _ s)
  · refine OnlyChanges.foldl (fun x1 x2 hx1 => ?_) ?_
    · split
      · extract_lets -merge -underBinder +onlyGivenNames x3
        have hx3 : OnlyChanges [.adm, .groups, .mports, .out] s x3 := by
          unfold x3
          refine OnlyChanges.step (updMport_frame _ _ _) ?_
          exact hx1
        clear_value x3
        refine OnlyChanges.ite1 ?_ ?_
        · exact hx3
        · refine OnlyChanges.step (sendDtwin_frame _ _) ?_
          exact hx3
      · exact hx1
    · exact (OnlyChanges.refl _ s)

theorem degradeReads_frame (s : State) a2 a3 : OnlyChanges [.ctxs] s (degradeReads s a2 a3) := by
  unfold degradeReads
  split
  · exact (OnlyChanges.refl _ s)
  · exact OnlyChanges.of (OnlyChanges.refl _ s) (by intro p hp; cases p <;> first | exact absurd (by decide) hp | exact rfl)

theorem endWrite_frame (s : State) a2 a3 a4 : OnlyChanges [.journal] s (endWrite s a2 a3 a4) := by
  unfold endWrite
  refine OnlyChanges.step (updRec_frame _ _ _) ?_
  exact (OnlyChanges.refl _ s)

theorem filledFrame_frame (s : State) a2 : OnlyChanges [.cache] s (filledFrame s a2) := by
  unfold filledFrame
  extract_lets -merge -underBinder +onlyGivenNames x1 x2
  clear_value x1
  have hx2 : OnlyChanges [.cache] s x2 := by
    unfold x2
    refine OnlyChanges.step (protectFrame_frame _ _) ?_
    exact (OnlyChanges.refl _ s)
  clear_value x2
  split
  · refine OnlyChanges.ite1 ?_ ?_
    · refine OnlyChanges.step (updFrame_frame _ _ _) ?_
      exact hx2
    · exact hx2
  · exact hx2

theorem tryTickets_frame (s : State) a2 : OnlyChanges [.ctxs, .seqCtr] s (tryTickets s a2) := by
  unfold tryTickets
  split
  · exact (OnlyChanges.refl _ s)
  · split
    · split
      · refine OnlyChanges.step (finishWait_frame _ _ _) ?_
        exact (OnlyChanges.refl _ s)
      · exact (OnlyChanges.refl _ s)
    · refine OnlyChanges.ite1 ?_ ?_
      · exact (OnlyChanges.refl _ s)
      · refine OnlyChanges.step (wake_frame _ _) ?_
        exact (OnlyChanges.refl _ s)
    · exact (OnlyChanges.refl _ s)

theorem endCmd_frame (s : State) a2 a3 a4 a5 : OnlyChanges [.ctxs, .cache, .journal, .mports, .seqCtr] s (endCmd s a2 a3 a4 a5) := by
  unfold endCmd
  extract_lets -merge -underBinder +onlyGivenNames x1 x2 x3 x4
  have hx1 : OnlyChanges [.ctxs, .cache, .journal, .mports, .seqCtr] s x1 := by
    unfold x1
    refine OnlyChanges.step (updMport_frame _ _ _) ?_
    exact (OnlyChanges.refl _ s)
  clear_value x1
  have hx2 : OnlyChanges [.ctxs, .cache, .journal, .mports, .seqCtr] s x2 := by
    unfold x2
    refine OnlyChanges.ite1 ?_ ?_
    · refine OnlyChanges.foldl (fun x5 x6 hx5 => ?_) ?_
      · refine OnlyChanges.step (filledFrame_frame _ _) ?_
        exact hx5
      · exact hx1
    · exact hx1
  clear_value x2
  have hx3 : OnlyChanges [.ctxs, .cache, .journal, .mports, .seqCtr] s x3 := by
    unfold x3
    split
    · refine OnlyChanges.step (endWrite_frame _ _ _ _) ?_
      exact hx2
    · exact hx2
  clear_value x3
  have hx4 : OnlyChanges [.ctxs, .cache, .journal, .mports, .seqCtr] s x4 := by
    unfold x4
    split
    · refine OnlyChanges.step (tryTickets_frame _ _) ?_
      refine OnlyChanges.step (updCtx_frame _ _ _) ?_
      exact hx3
    · exact hx3
  clear_value x4
  refine OnlyChanges.step (wakeFrameWaiters_frame _) ?_
  refine OnlyChanges.step (unpinAll_frame _ _) ?_
  exact hx4

theorem loseCmds_frame (s : State) a2 : OnlyChanges [.ctxs, .cache, .journal, .mports, .seqCtr] s (loseCmds s a2) := by
  unfold loseCmds
  split
  · exact (OnlyChanges.refl _ s)
  · extract_lets -merge -underBinder +onlyGivenNames x1
    have hx1 : OnlyChanges [.ctxs, .cache, .journal, .mports, .seqCtr] s x1 := by
      unfold x1
      refine OnlyChanges.foldl (fun x2 x3 hx2 => ?_) ?_
      · refine OnlyChanges.step (endCmd_frame _ _ _ _ _) ?_
        exact hx2
      · exact (OnlyChanges.refl _ s)
    clear_value x1
    refine OnlyChanges.step (updMport_frame _ _ _) ?_
    exact hx1

theorem retryRetires_frame (s : State) : OnlyChanges [.funcs, .ctxs, .cache, .locks, .journal, .groups, .vols, .mports, .mem, .errLog, .errSeq, .defLog, .defSeq, .rb, .out, .seqCtr] s (retryRetires s) := by
  unfold retryRetires
  extract_lets -merge -underBinder +onlyGivenNames x1
  have hx1 : OnlyChanges [.funcs, .ctxs, .cache, .locks, .journal, .groups, .vols, .mports, .mem, .errLog, .errSeq, .defLog, .defSeq, .rb, .out, .seqCtr] s x1 := by
    unfold x1
    refine OnlyChanges.step (endReplays_frame _) ?_
    exact (OnlyChanges.refl _ s)
  clear_value x1
  refine OnlyChanges.foldl (fun x2 x3 hx2 => ?_) ?_
  · refine OnlyChanges.step (tryRetire_frame _ _) ?_
    exact hx2
  · exact hx1

theorem wakeMem_frame (s : State) a2 : OnlyChanges [.ctxs, .seqCtr] s (wakeMem s a2) := by
  unfold wakeMem
  refine OnlyChanges.foldl (fun x1 x2 hx1 => ?_) ?_
  · refine OnlyChanges.step (wake_frame _ _) ?_
    exact hx1
  · exact (OnlyChanges.refl _ s)

theorem failMember_frame (s : State) a2 a3 : OnlyChanges [.adm, .funcs, .ctxs, .cache, .locks, .journal, .groups, .vols, .mports, .mem, .errLog, .errSeq, .defLog, .defSeq, .rb, .out, .seqCtr] s (failMember s a2 a3) := by
  unfold failMember
  split
  · exact (OnlyChanges.refl _ s)
  · split
    · exact (OnlyChanges.refl _ s)
    · extract_lets -merge -underBinder +onlyGivenNames x1 x2 x3 x4 x5 x6 x7
      have hx1 : OnlyChanges [.adm, .funcs, .ctxs, .cache, .locks, .journal, .groups, .vols, .mports, .mem, .errLog, .errSeq, .defLog, .defSeq, .rb, .out, .seqCtr] s x1 := by
        unfold x1
        refine OnlyChanges.step (degradeReads_frame _ _ _) ?_
        exact (OnlyChanges.refl _ s)
      clear_value x1
      have hx2 : OnlyChanges [.adm, .funcs, .ctxs, .cache, .locks, .journal, .groups, .vols, .mports, .mem, .errLog, .errSeq, .defLog, .defSeq, .rb, .out, .seqCtr] s x2 := by
        unfold x2
        refine OnlyChanges.step (updMport_frame _ _ _) ?_
        exact hx1
      clear_value x2
      have hx3 : OnlyChanges [.adm, .funcs, .ctxs, .cache, .locks, .journal, .groups, .vols, .mports, .mem, .errLog, .errSeq, .defLog, .defSeq, .rb, .out, .seqCtr] s x3 := by
        unfold x3
        refine OnlyChanges.step (loseCmds_frame _ _) ?_
        exact hx2
      clear_value x3
      have hx4 : OnlyChanges [.adm, .funcs, .ctxs, .cache, .locks, .journal, .groups, .vols, .mports, .mem, .errLog, .errSeq, .defLog, .defSeq, .rb, .out, .seqCtr] s x4 := by
        unfold x4
        refine OnlyChanges.step (updGroup_frame _ _ _) ?_
        exact hx3
      clear_value x4
      have hx5 : OnlyChanges [.adm, .funcs, .ctxs, .cache, .locks, .journal, .groups, .vols, .mports, .mem, .errLog, .errSeq, .defLog, .defSeq, .rb, .out, .seqCtr] s x5 := by
        unfold x5
        refine OnlyChanges.step (updGroup_frame _ _ _) ?_
        exact hx4
      clear_value x5
      have hx6 : OnlyChanges [.adm, .funcs, .ctxs, .cache, .locks, .journal, .groups, .vols, .mports, .mem, .errLog, .errSeq, .defLog, .defSeq, .rb, .out, .seqCtr] s x6 := by
        unfold x6
        refine OnlyChanges.step (logErr_frame _ _ _ _ _) ?_
        exact hx5
      clear_value x6
      have hx7 : OnlyChanges [.adm, .funcs, .ctxs, .cache, .locks, .journal, .groups, .vols, .mports, .mem, .errLog, .errSeq, .defLog, .defSeq, .rb, .out, .seqCtr] s x7 := by
        unfold x7
        refine OnlyChanges.step (emit_frame _ _) ?_
        refine OnlyChanges.step (rbChange_frame _) ?_
        refine OnlyChanges.step (applyDepth_frame _ _) ?_
        exact hx6
      clear_value x7
      refine OnlyChanges.ite1 ?_ ?_
      · exact (OnlyChanges.refl _ s)
      · refine OnlyChanges.step (wakeMem_frame _ _) ?_
        refine OnlyChanges.step (retryRetires_frame _) ?_
        exact hx7

theorem contain_frame (s : State) a2 : OnlyChanges [.adm, .funcs, .ctxs, .cache, .locks, .journal, .groups, .vols, .mports, .mem, .errLog, .errSeq, .defLog, .defSeq, .rb, .out, .seqCtr] s (contain s a2) := by
  unfold contain
  split
  · exact (OnlyChanges.refl _ s)
  · extract_lets -merge -underBinder +onlyGivenNames x1 x2
    have hx1 : OnlyChanges [.adm, .funcs, .ctxs, .cache, .locks, .journal, .groups, .vols, .mports, .mem, .errLog, .errSeq, .defLog, .defSeq, .rb, .out, .seqCtr] s x1 := by
      unfold x1
      refine OnlyChanges.ite1 ?_ ?_
      · refine OnlyChanges.step (failMember_frame _ _ _) ?_
        exact (OnlyChanges.refl _ s)
      · refine OnlyChanges.step (loseCmds_frame _ _) ?_
        exact (OnlyChanges.refl _ s)
    clear_value x1
    have hx2 : OnlyChanges [.adm, .funcs, .ctxs, .cache, .locks, .journal, .groups, .vols, .mports, .mem, .errLog, .errSeq, .defLog, .defSeq, .rb, .out, .seqCtr] s x2 := by
      unfold x2
      refine OnlyChanges.step (updMport_frame _ _ _) ?_
      exact hx1
    clear_value x2
    refine OnlyChanges.step (wakeMem_frame _ _) ?_
    refine OnlyChanges.step (emit_frame _ _) ?_
    refine OnlyChanges.step (rbChange_frame _) ?_
    exact hx2

theorem judgePolicy_frame (s : State) a2 : OnlyChanges [.adm, .funcs, .ctxs, .cache, .locks, .journal, .groups, .vols, .mports, .mem, .errLog, .errSeq, .defLog, .defSeq, .rb, .out, .seqCtr] s (judgePolicy s a2) := by
  unfold judgePolicy
  split
  · exact (OnlyChanges.refl _ s)
  · refine OnlyChanges.ite1 ?_ ?_
    · exact (OnlyChanges.refl _ s)
    · refine OnlyChanges.ite1 ?_ ?_
      · refine OnlyChanges.step (failMember_frame _ _ _) ?_
        exact (OnlyChanges.refl _ s)
      · refine OnlyChanges.ite1 ?_ ?_
        · refine OnlyChanges.step (rbChange_frame _) ?_
          refine OnlyChanges.step (logErr_frame _ _ _ _ _) ?_
          refine OnlyChanges.step (updMport_frame _ _ _) ?_
          exact (OnlyChanges.refl _ s)
        · exact (OnlyChanges.refl _ s)

theorem countMedia_frame (s : State) a2 : OnlyChanges [.adm, .funcs, .ctxs, .cache, .locks, .journal, .groups, .vols, .mports, .mem, .errLog, .errSeq, .defLog, .defSeq, .rb, .fresh, .out, .seqCtr] s (countMedia s a2) := by
  unfold countMedia
  refine OnlyChanges.step (judgePolicy_frame _ _) ?_
  refine OnlyChanges.step (markFresh_frame _ _ _ _ _) ?_
  refine OnlyChanges.step (updMport_frame _ _ _) ?_
  exact (OnlyChanges.refl _ s)

theorem countTimeout_frame (s : State) a2 : OnlyChanges [.adm, .funcs, .ctxs, .cache, .locks, .journal, .groups, .vols, .mports, .mem, .errLog, .errSeq, .defLog, .defSeq, .rb, .out, .seqCtr] s (countTimeout s a2) := by
  unfold countTimeout
  refine OnlyChanges.step (judgePolicy_frame _ _) ?_
  refine OnlyChanges.step (updMport_frame _ _ _) ?_
  exact (OnlyChanges.refl _ s)

theorem endPoss_frame (s : State) a2 : OnlyChanges [.groups, .mports] s (endPoss s a2) := by
  unfold endPoss
  split
  · exact (OnlyChanges.refl _ s)
  · extract_lets -merge -underBinder +onlyGivenNames x1
    have hx1 : OnlyChanges [.groups, .mports] s x1 := by
      unfold x1
      refine OnlyChanges.step (updMport_frame _ _ _) ?_
      exact (OnlyChanges.refl _ s)
    clear_value x1
    refine OnlyChanges.ite1 ?_ ?_
    · exact (OnlyChanges.refl _ s)
    · split
      · refine OnlyChanges.step (updGroup_frame _ _ _) ?_
        exact hx1
      · exact hx1

theorem queueScrub_frame (s : State) a2 a3 : OnlyChanges [.groups] s (queueScrub s a2 a3) := by
  unfold queueScrub
  split
  · exact (OnlyChanges.refl _ s)
  · split
    · refine OnlyChanges.ite1 ?_ ?_
      · exact (OnlyChanges.refl _ s)
      · split
        · refine OnlyChanges.step (updGroup_frame _ _ _) ?_
          exact (OnlyChanges.refl _ s)
        · exact (OnlyChanges.refl _ s)
    · exact (OnlyChanges.refl _ s)

theorem execMread_frame a1 (s : State) : OnlyChangesQ [.adm, .funcs, .ctxs, .engineFree, .cache, .locks, .journal, .groups, .vols, .mports, .movers, .progs, .errLog, .errSeq, .defLog, .defSeq, .rb, .out, .seqCtr] s (execMread a1 s) := by
  unfold execMread
  refine runIns_frame ?_ ?_
  · intro x1 x2 hx2
    extract_lets -merge -underBinder +onlyGivenNames x3 x4 x5 x6
    clear_value x3
    clear_value x4
    clear_value x5
    clear_value x6
    split
    · refine OnlyChanges.step (completeD_frame _ _ _) ?_
      exact hx2
    · split
      · refine OnlyChanges.ite1 ?_ ?_
        · refine OnlyChanges.step (completeD_frame _ _ _) ?_
          exact hx2
        · refine OnlyChanges.ite1 ?_ ?_
          · refine OnlyChanges.step (completeD_frame _ _ _) ?_
            exact hx2
          · refine OnlyChanges.ite1 ?_ ?_
            · refine OnlyChanges.step (completeD_frame _ _ _) ?_
              exact hx2
            · refine OnlyChanges.ite1 ?_ ?_
              · refine OnlyChanges.step (completeD_frame _ _ _) ?_
                exact hx2
              · split
                · refine OnlyChanges.step (completeD_frame _ _ _) ?_
                  exact hx2
                · extract_lets -merge -underBinder +onlyGivenNames x7 x8 x9
                  clear_value x7
                  have hx8 : OnlyChanges [.adm, .funcs, .ctxs, .engineFree, .cache, .locks, .journal, .groups, .vols, .mports, .movers, .progs, .errLog, .errSeq, .defLog, .defSeq, .rb, .out, .seqCtr] s x8 := by
                    unfold x8
                    refine OnlyChanges.foldl (fun x10 x11 hx10 => ?_) ?_
                    · refine OnlyChanges.step (updFrame_frame _ _ _) ?_
                      refine OnlyChanges.step (pinFrame_frame _ _) ?_
                      exact hx10
                    · exact hx2
                  clear_value x8
                  clear_value x9
                  refine OnlyChanges.ite1 ?_ ?_
                  · refine OnlyChanges.step (completeD_frame _ _ _) ?_
                    exact hx2
                  · refine OnlyChanges.ite1 ?_ ?_
                    · refine OnlyChanges.step (startWait_frame _ _ _) ?_
                      exact hx2
                    · refine OnlyChanges.step (complete_frame _ _ _) ?_
                      refine OnlyChanges.step (countUnits_frame _ _ _ _) ?_
                      refine OnlyChanges.step (sendMem_frame _ _ _ _) ?_
                      exact hx8
      · refine OnlyChanges.step (completeD_frame _ _ _) ?_
        exact hx2
  · exact (OnlyChanges.refl _ s)

theorem execMwait_frame a1 (s : State) : OnlyChangesQ [.funcs, .ctxs, .engineFree, .cache, .locks, .journal, .groups, .vols, .mports, .movers, .progs, .errLog, .errSeq, .defLog, .defSeq, .rb, .freeCtr, .seqCtr] s (execMwait a1 s) := by
  unfold execMwait
  refine runIns_frame ?_ ?_
  · intro x1 x2 hx2
    extract_lets -merge -underBinder +onlyGivenNames x3
    clear_value x3
    refine OnlyChanges.ite1 ?_ ?_
    · split
      · refine OnlyChanges.step (completeD_frame _ _ _) ?_
        exact hx2
      · split
        · rename_i x4 x5 x6
          have hx5 : OnlyChanges [.funcs, .ctxs, .engineFree, .cache, .locks, .journal, .groups, .vols, .mports, .movers, .progs, .errLog, .errSeq, .defLog, .defSeq, .rb, .freeCtr, .seqCtr] s x5 := by
            refine OnlyChangesP.of_eq x6 ?_
            refine OnlyChangesP.step (drawFree_frame _) ?_
            exact hx2
          refine OnlyChanges.step (completeD_frame _ _ _) ?_
          exact hx5
      · refine OnlyChanges.step (completeD_frame _ _ _) ?_
        exact hx2
    · split
      · refine OnlyChanges.step (complete_frame _ _ _) ?_
        exact hx2
      · refine OnlyChanges.step (startWait_frame _ _ _) ?_
        exact hx2
  · exact (OnlyChanges.refl _ s)

theorem execMwrite_frame a1 (s : State) : OnlyChangesQ [.adm, .funcs, .ctxs, .engineFree, .cache, .locks, .journal, .groups, .vols, .mports, .movers, .progs, .errLog, .errSeq, .defLog, .defSeq, .rb, .out, .seqCtr] s (execMwrite a1 s) := by
  unfold execMwrite
  refine runIns_frame ?_ ?_
  · intro x1 x2 hx2
    extract_lets -merge -underBinder +onlyGivenNames x3 x4 x5 x6 x7 x8
    clear_value x3
    clear_value x4
    clear_value x5
    clear_value x6
    clear_value x7
    clear_value x8
    split
    · extract_lets -merge -underBinder +onlyGivenNames x9 x10
      clear_value x9
      clear_value x10
      split
      · refine OnlyChanges.step (fatal_frame _ _ _ _) ?_
        exact hx2
      · refine OnlyChanges.ite1 ?_ ?_
        · refine OnlyChanges.step (startWait_frame _ _ _) ?_
          exact hx2
        · split
          · extract_lets -merge -underBinder +onlyGivenNames x11 x12 x13 x14 x15
            clear_value x11
            clear_value x12
            have hx13 : OnlyChanges [.adm, .funcs, .ctxs, .engineFree, .cache, .locks, .journal, .groups, .vols, .mports, .movers, .progs, .errLog, .errSeq, .defLog, .defSeq, .rb, .out, .seqCtr] s x13 := by
              unfold x13
              refine OnlyChanges.foldl (fun x16 x17 hx16 => ?_) ?_
              · refine OnlyChanges.step (pinFrame_frame _ _) ?_
                exact hx16
              · exact hx2
            clear_value x13
            have hx14 : OnlyChanges [.adm, .funcs, .ctxs, .engineFree, .cache, .locks, .journal, .groups, .vols, .mports, .movers, .progs, .errLog, .errSeq, .defLog, .defSeq, .rb, .out, .seqCtr] s x14 := by
              unfold x14
              split
              · refine OnlyChanges.step (updRec_frame _ _ _) ?_
                exact hx13
              · exact hx13
            clear_value x14
            clear_value x15
            refine OnlyChanges.ite1 ?_ ?_
            · refine OnlyChanges.step (complete_frame _ _ _) ?_
              exact hx2
            · refine OnlyChanges.ite1 ?_ ?_
              · refine OnlyChanges.step (startWait_frame _ _ _) ?_
                exact hx2
              · refine OnlyChanges.step (complete_frame _ _ _) ?_
                refine OnlyChanges.step (countUnits_frame _ _ _ _) ?_
                refine OnlyChanges.step (sendMem_frame _ _ _ _) ?_
                exact hx14
          · refine OnlyChanges.step (complete_frame _ _ _) ?_
            exact hx2
    · refine OnlyChanges.step (fatal_frame _ _ _ _) ?_
      exact hx2
  · exact (OnlyChanges.refl _ s)

theorem sendNdwin_frame (s : State) a2 : OnlyChanges [.adm, .groups, .mports, .out] s (sendNdwin s a2) := by
  unfold sendNdwin
  refine OnlyChanges.step (sendAdmin_frame _ _ _ _) ?_
  refine OnlyChanges.step (updMport_frame _ _ _) ?_
  exact (OnlyChanges.refl _ s)

end Sys2Proof.Machine
end

