-- ==== Sys2Proof/Laws/FramesStripe.lean ====
section
/-! SUPPORT. Which parts of the state each function of Machine/Stripe.lean can change. -/

set_option Elab.async false

namespace Sys2Proof.Machine

theorem createWork_frame (s : State) a2 a3 a4 a5 a6 : OnlyChangesOP [.ctxs, .seqCtr] s (createWork s a2 a3 a4 a5 a6) := by
  unfold createWork
  split
  · split
    · exact OnlyChangesOP.none
    · refine OnlyChanges.ite5 ?_ ?_
      · exact OnlyChangesOP.none
      · split
        · rename_i x1 x2 x3
          have hx2 : OnlyChanges [.ctxs, .seqCtr] s x2 := by
            refine OnlyChangesP.of_eq x3 ?_
            refine OnlyChangesP.step (nextSeq_frame _) ?_
            exact (OnlyChanges.refl _ s)
          split
          · rename_i x4 x5 x6
            have hx5 : OnlyChanges [.ctxs, .seqCtr] s x5 := by
              refine OnlyChangesP.of_eq x6 ?_
              refine OnlyChangesP.step (newResidence_frame _ _) ?_
              exact hx2
            extract_lets -merge -underBinder +onlyGivenNames x7
            clear_value x7
            refine OnlyChangesOP.some ?_
            refine OnlyChangesP.mk ?_
            exact OnlyChanges.of hx5 (by intro p hp; cases p <;> first | exact absurd (by decide) hp | exact rfl)
  · exact OnlyChangesOP.none

theorem replayEntry_frame a1 a2 a3 (s : State) a5 : OnlyChanges [.adm, .cache, .journal, .groups, .mports, .out] s (replayEntry a1 a2 a3 s a5) := by
  unfold replayEntry
  split
  · exact (OnlyChanges.refl _ s)
  · extract_lets -merge -underBinder +onlyGivenNames x1 x2 x3
    clear_value x1
    clear_value x2
    have hx3 : OnlyChanges [.adm, .cache, .journal, .groups, .mports, .out] s x3 := by
      unfold x3
      refine OnlyChanges.step (updRec_frame _ _ _) ?_
      refine OnlyChanges.foldl (fun x4 x5 hx4 => ?_) ?_
      · refine OnlyChanges.step (pinFrame_frame _ _) ?_
        exact hx4
      · exact (OnlyChanges.refl _ s)
    clear_value x3
    refine OnlyChanges.ite1 ?_ ?_
    · exact (OnlyChanges.refl _ s)
    · refine OnlyChanges.step (countUnits_frame _ _ _ _) ?_
      refine OnlyChanges.step (sendMem_frame _ _ _ _) ?_
      exact hx3

theorem replayRec_frame (s : State) a2 : OnlyChanges [.adm, .funcs, .ctxs, .cache, .locks, .journal, .groups, .vols, .mports, .mem, .errLog, .errSeq, .defLog, .defSeq, .out, .seqCtr] s (replayRec s a2) := by
  unfold replayRec
  split
  · exact (OnlyChanges.refl _ s)
  · extract_lets -merge -underBinder +onlyGivenNames x1 x2
    have hx1 : OnlyChanges [.adm, .funcs, .ctxs, .cache, .locks, .journal, .groups, .vols, .mports, .mem, .errLog, .errSeq, .defLog, .defSeq, .out, .seqCtr] s x1 := by
      unfold x1
      refine OnlyChanges.step (updRec_frame _ _ _) ?_
      exact (OnlyChanges.refl _ s)
    clear_value x1
    have hx2 : OnlyChanges [.adm, .funcs, .ctxs, .cache, .locks, .journal, .groups, .vols, .mports, .mem, .errLog, .errSeq, .defLog, .defSeq, .out, .seqCtr] s x2 := by
      unfold x2
      split
      · refine OnlyChanges.foldl (fun x3 x4 hx3 => ?_) ?_
        · refine OnlyChanges.step (replayEntry_frame _ _ _ _ _) ?_
          exact hx3
        · exact hx1
      · exact hx1
    clear_value x2
    refine OnlyChanges.step (endReplays_frame _) ?_
    exact hx2

theorem execJadd_frame a1 (s : State) : OnlyChangesQ [.funcs, .ctxs, .engineFree, .cache, .locks, .journal, .groups, .vols, .mports, .movers, .progs, .errLog, .errSeq, .defLog, .defSeq, .rb, .seqCtr] s (execJadd a1 s) := by
  unfold execJadd
  refine runIns_frame ?_ ?_
  · intro x1 x2 hx2
    split
    · refine OnlyChanges.step (complete_frame _ _ _) ?_
      exact hx2
    · extract_lets -merge -underBinder +onlyGivenNames x3 x4 x5
      clear_value x3
      have hx4 : OnlyChanges [.funcs, .ctxs, .engineFree, .cache, .locks, .journal, .groups, .vols, .mports, .movers, .progs, .errLog, .errSeq, .defLog, .defSeq, .rb, .seqCtr] s x4 := by
        unfold x4
        refine OnlyChanges.foldl (fun x6 x7 hx6 => ?_) ?_
        · refine OnlyChanges.step (pinFrame_frame _ _) ?_
          exact hx6
        · exact hx2
      clear_value x4
      clear_value x5
      refine OnlyChanges.ite1 ?_ ?_
      · refine OnlyChanges.step (startWait_frame _ _ _) ?_
        exact hx2
      · refine OnlyChanges.step (complete_frame _ _ _) ?_
        refine OnlyChanges.step (updRec_frame _ _ _) ?_
        exact hx4
  · exact (OnlyChanges.refl _ s)

theorem execJopen_frame a1 (s : State) : OnlyChangesQ [.funcs, .ctxs, .engineFree, .cache, .locks, .journal, .groups, .vols, .mports, .movers, .progs, .errLog, .errSeq, .defLog, .defSeq, .rb, .seqCtr] s (execJopen a1 s) := by
  unfold execJopen
  refine runIns_frame ?_ ?_
  · intro x1 x2 hx2
    extract_lets -merge -underBinder +onlyGivenNames x3 x4 x5 x6 x7
    clear_value x3
    clear_value x4
    clear_value x5
    have hx6 : OnlyChanges [.funcs, .ctxs, .engineFree, .cache, .locks, .journal, .groups, .vols, .mports, .movers, .progs, .errLog, .errSeq, .defLog, .defSeq, .rb, .seqCtr] s x6 := by
      unfold x6
      show OnlyChangesP _ s _
      refine OnlyChangesP.step (addRec_frame _ _) ?_
      exact hx2
    clear_value x6
    clear_value x7
    refine OnlyChanges.ite1 ?_ ?_
    · refine OnlyChanges.step (completeD_frame _ _ _) ?_
      exact hx2
    · refine OnlyChanges.ite1 ?_ ?_
      · refine OnlyChanges.step (completeD_frame _ _ _) ?_
        exact hx2
      · refine OnlyChanges.ite1 ?_ ?_
        · refine OnlyChanges.step (startWait_frame _ _ _) ?_
          exact hx2
        · refine OnlyChanges.step (completeD_frame _ _ _) ?_
          exact OnlyChanges.of hx6 (by intro p hp; cases p <;> first | exact absurd (by decide) hp | exact rfl)
  · exact (OnlyChanges.refl _ s)

theorem execJretire_frame a1 (s : State) : OnlyChangesQ [.funcs, .ctxs, .engineFree, .cache, .locks, .journal, .groups, .vols, .mports, .mem, .movers, .progs, .errLog, .errSeq, .defLog, .defSeq, .rb, .out, .seqCtr] s (execJretire a1 s) := by
  unfold execJretire
  refine runIns_frame ?_ ?_
  · intro x1 x2 hx2
    extract_lets -merge -underBinder +onlyGivenNames x3 x4 x5
    clear_value x3
    clear_value x4
    clear_value x5
    refine OnlyChanges.ite1 ?_ ?_
    · refine OnlyChanges.step (completeD_frame _ _ _) ?_
      exact hx2
    · refine OnlyChanges.ite1 ?_ ?_
      · split
        · rename_i x6 x7 x8
          have hx7 : OnlyChanges [.funcs, .ctxs, .engineFree, .cache, .locks, .journal, .groups, .vols, .mports, .mem, .movers, .progs, .errLog, .errSeq, .defLog, .defSeq, .rb, .out, .seqCtr] s x7 := by
            refine OnlyChangesP.of_eq x8 ?_
            refine OnlyChangesP.step (doRetire_frame _ _ _ _ _) ?_
            exact hx2
          refine OnlyChanges.step (completeD_frame _ _ _) ?_
          exact hx7
      · refine OnlyChanges.step (startWait_frame _ _ _) ?_
        exact hx2
  · exact (OnlyChanges.refl _ s)

theorem execJretireWmRelease_frame a1 (s : State) : OnlyChangesQ [.funcs, .ctxs, .cache, .locks, .journal, .groups, .vols, .mports, .mem, .errLog, .errSeq, .defLog, .defSeq, .rb, .out, .seqCtr] s (execJretireWmRelease a1 s) := by
  unfold execJretireWmRelease
  refine OnlyChangesQ.next ?_
  refine OnlyChanges.step (tryRetire_frame _ _) ?_
  exact (OnlyChanges.refl _ s)

theorem execJseal_frame a1 (s : State) : OnlyChangesQ [.funcs, .ctxs, .engineFree, .cache, .locks, .journal, .groups, .vols, .mports, .movers, .progs, .errLog, .errSeq, .defLog, .defSeq, .rb, .out, .seqCtr] s (execJseal a1 s) := by
  unfold execJseal
  refine runIns_frame ?_ ?_
  · intro x1 x2 hx2
    extract_lets -merge -underBinder +onlyGivenNames x3 x4
    clear_value x3
    clear_value x4
    split
    · refine OnlyChanges.step (completeD_frame _ _ _) ?_
      exact hx2
    · extract_lets -merge -underBinder +onlyGivenNames x5 x6 x7 x8 x9
      clear_value x5
      have hx6 : OnlyChanges [.funcs, .ctxs, .engineFree, .cache, .locks, .journal, .groups, .vols, .mports, .movers, .progs, .errLog, .errSeq, .defLog, .defSeq, .rb, .out, .seqCtr] s x6 := by
        unfold x6
        refine OnlyChanges.foldl (fun x10 x11 hx10 => ?_) ?_
        · refine OnlyChanges.step (updFrame_frame _ _ _) ?_
          exact hx10
        · exact hx2
      clear_value x6
      clear_value x7
      clear_value x8
      have hx9 : OnlyChanges [.funcs, .ctxs, .engineFree, .cache, .locks, .journal, .groups, .vols, .mports, .movers, .progs, .errLog, .errSeq, .defLog, .defSeq, .rb, .out, .seqCtr] s x9 := by
        unfold x9
        refine OnlyChanges.step (updRec_frame _ _ _) ?_
        exact hx6
      clear_value x9
      refine OnlyChanges.ite1 ?_ ?_
      · refine OnlyChanges.step (completeD_frame _ _ _) ?_
        exact hx2
      · refine OnlyChanges.ite1 ?_ ?_
        · refine OnlyChanges.step (completeD_frame _ _ _) ?_
          exact hx2
        · refine OnlyChanges.step (completeD_frame _ _ _) ?_
          refine OnlyChanges.step (queueEcho_frame _ _ _ _ _ _) ?_
          exact hx9
  · exact (OnlyChanges.refl _ s)

theorem execLock_frame a1 (s : State) : OnlyChangesQ [.funcs, .ctxs, .engineFree, .cache, .locks, .journal, .groups, .vols, .mports, .movers, .progs, .errLog, .errSeq, .defLog, .defSeq, .rb, .seqCtr] s (execLock a1 s) := by
  unfold execLock
  refine runIns_frame ?_ ?_
  · intro x1 x2 hx2
    extract_lets -merge -underBinder +onlyGivenNames x3 x4 x5
    clear_value x3
    clear_value x4
    clear_value x5
    refine OnlyChanges.ite1 ?_ ?_
    · refine OnlyChanges.step (fatal_frame _ _ _ _) ?_
      exact hx2
    · split
      · extract_lets -merge -underBinder +onlyGivenNames x6
        have hx6 : OnlyChanges [.funcs, .ctxs, .engineFree, .cache, .locks, .journal, .groups, .vols, .mports, .movers, .progs, .errLog, .errSeq, .defLog, .defSeq, .rb, .seqCtr] s x6 := by
          unfold x6
          refine OnlyChanges.step (noteLate_frame _ _ _) ?_
          refine OnlyChanges.step (startWait_frame _ _ _) ?_
          exact hx2
        clear_value x6
        refine OnlyChanges.step (reclass_frame _) ?_
        refine OnlyChanges.step (updLock_frame _ _ _ _) ?_
        exact hx6
      · extract_lets -merge -underBinder +onlyGivenNames x7
        clear_value x7
        refine OnlyChanges.ite1 ?_ ?_
        · refine OnlyChanges.step (complete_frame _ _ _) ?_
          exact OnlyChanges.of hx2 (by intro p hp; cases p <;> first | exact absurd (by decide) hp | exact rfl)
        · split
          · rename_i x8 x9 x10
            have hx9 : OnlyChanges [.funcs, .ctxs, .engineFree, .cache, .locks, .journal, .groups, .vols, .mports, .movers, .progs, .errLog, .errSeq, .defLog, .defSeq, .rb, .seqCtr] s x9 := by
              refine OnlyChangesP.of_eq x10 ?_
              refine OnlyChangesP.step (nextSeq_frame _) ?_
              exact hx2
            refine OnlyChanges.step (updCtx_frame _ _ _) ?_
            refine OnlyChanges.step (startWait_frame _ _ _) ?_
            exact hx9
  · exact (OnlyChanges.refl _ s)

theorem execMirrorRehome_frame a1 (s : State) : OnlyChangesQ [.adm, .groups, .errLog, .errSeq, .out] s (execMirrorRehome a1 s) := by
  unfold execMirrorRehome
  refine OnlyChangesQ.next ?_
  split
  · exact (OnlyChanges.refl _ s)
  · extract_lets -merge -underBinder +onlyGivenNames x1
    have hx1 : OnlyChanges [.adm, .groups, .errLog, .errSeq, .out] s x1 := by
      unfold x1
      refine OnlyChanges.step (newEpoch_frame _ _) ?_
      exact (OnlyChanges.refl _ s)
    clear_value x1
    refine OnlyChanges.ite1 ?_ ?_
    · split
      · refine OnlyChanges.step (logErr_frame _ _ _ _ _) ?_
        exact hx1
      · exact hx1
    · exact (OnlyChanges.refl _ s)

theorem execOrphanRecordReplay_frame a1 a2 (s : State) : OnlyChangesQ [.adm, .funcs, .ctxs, .cache, .locks, .journal, .groups, .vols, .mports, .mem, .errLog, .errSeq, .defLog, .defSeq, .out, .seqCtr] s (execOrphanRecordReplay a1 a2 s) := by
  unfold execOrphanRecordReplay
  refine OnlyChangesQ.next ?_
  split
  · refine OnlyChanges.ite1 ?_ ?_
    · refine OnlyChanges.step (replayRec_frame _ _) ?_
      exact (OnlyChanges.refl _ s)
    · exact (OnlyChanges.refl _ s)
  · exact (OnlyChanges.refl _ s)

theorem execPerm_frame a1 (s : State) : OnlyChangesQ [.funcs, .ctxs, .engineFree, .cache, .locks, .journal, .groups, .vols, .mports, .movers, .progs, .errLog, .errSeq, .defLog, .defSeq, .rb, .seqCtr] s (execPerm a1 s) := by
  unfold execPerm
  refine runIns_frame ?_ ?_
  · intro x1 x2 hx2
    split
    · refine OnlyChanges.step (completeD_frame _ _ _) ?_
      exact hx2
    · refine OnlyChanges.step (completeD_frame _ _ _) ?_
      exact hx2
  · exact (OnlyChanges.refl _ s)

theorem execUnlock_frame a1 (s : State) : OnlyChangesQ [.funcs, .ctxs, .engineFree, .cache, .locks, .journal, .groups, .vols, .mports, .movers, .progs, .errLog, .errSeq, .defLog, .defSeq, .rb, .seqCtr] s (execUnlock a1 s) := by
  unfold execUnlock
  refine runIns_frame ?_ ?_
  · intro x1 x2 hx2
    extract_lets -merge -underBinder +onlyGivenNames x3 x4 x5
    clear_value x3
    clear_value x4
    have hx5 : OnlyChanges [.funcs, .ctxs, .engineFree, .cache, .locks, .journal, .groups, .vols, .mports, .movers, .progs, .errLog, .errSeq, .defLog, .defSeq, .rb, .seqCtr] s x5 := by
      unfold x5
      refine OnlyChanges.step (complete_frame _ _ _) ?_
      exact hx2
    clear_value x5
    refine OnlyChanges.ite1 ?_ ?_
    · exact hx5
    · split
      · refine OnlyChanges.ite1 ?_ ?_
        · refine OnlyChanges.step (updLock_frame _ _ _ _) ?_
          exact hx5
        · refine OnlyChanges.step (passLock_frame _ _ _) ?_
          refine OnlyChanges.step (dropRec_frame _ _) ?_
          exact hx5
      · refine OnlyChanges.step (passLock_frame _ _ _) ?_
        exact hx5
  · exact (OnlyChanges.refl _ s)

end Sys2Proof.Machine
end

