-- ==== Sys2Proof/Laws/FramesGroups.lean ====
section
/-! SUPPORT. Which parts of the state each function of Machine/Groups.lean can change. -/

set_option Elab.async false

namespace Sys2Proof.Machine

theorem scrubStart_frame (s : State) a2 : OnlyChanges [.groups] s (scrubStart s a2) := by
  unfold scrubStart
  refine OnlyChanges.step (updGroup_frame _ _ _) ?_
  exact (OnlyChanges.refl _ s)

theorem mergeMarks_frame (s : State) a2 a3 : OnlyChanges [.cache, .mem] s (mergeMarks s a2 a3) := by
  unfold mergeMarks
  refine OnlyChanges.foldl (fun x1 x2 hx1 => ?_) ?_
  · extract_lets -merge -underBinder +onlyGivenNames x3
    have hx3 : OnlyChanges [.cache, .mem] s x3 := by
      unfold x3
      refine OnlyChanges.foldl (fun x4 x5 hx4 => ?_) ?_
      · split
        · extract_lets -merge -underBinder +onlyGivenNames x6 x7
          clear_value x6
          clear_value x7
          refine OnlyChanges.ite1 ?_ ?_
          · exact hx4
          · exact OnlyChanges.of hx4 (by intro p hp; cases p <;> first | exact absurd (by decide) hp | exact rfl)
      · exact hx1
    clear_value x3
    refine OnlyChanges.foldl (fun x8 x9 hx8 => ?_) ?_
    · refine OnlyChanges.ite1 ?_ ?_
      · exact hx8
      · refine OnlyChanges.step (updCache_frame _ _) ?_
        exact hx8
    · exact hx3
  · exact (OnlyChanges.refl _ s)

theorem placeMembers_frame (s : State) a2 a3 a4 : OnlyChanges [.mports] s (placeMembers s a2 a3 a4) := by
  unfold placeMembers
  refine OnlyChanges.foldl (fun x1 x2 hx1 => ?_) ?_
  · refine OnlyChanges.step (updMport_frame _ _ _) ?_
    exact hx1
  · exact (OnlyChanges.refl _ s)

theorem assembleOne_frame (s : State) a2 : OnlyChanges [.cache, .groups, .mports, .mem, .errLog, .errSeq, .rb] s (assembleOne s a2) := by
  unfold assembleOne
  extract_lets -merge -underBinder +onlyGivenNames x1
  clear_value x1
  split
  · exact (OnlyChanges.refl _ s)
  · extract_lets -merge -underBinder +onlyGivenNames x2 x3 x4 x5 x6 x7 x8 x9 x10
    clear_value x2
    clear_value x3
    clear_value x4
    clear_value x5
    have hx6 : OnlyChanges [.cache, .groups, .mports, .mem, .errLog, .errSeq, .rb] s x6 := by
      unfold x6
      refine OnlyChanges.step (placeMembers_frame _ _ _ _) ?_
      exact OnlyChanges.of (OnlyChanges.refl _ s) (by intro p hp; cases p <;> first | exact absurd (by decide) hp | exact rfl)
    clear_value x6
    have hx7 : OnlyChanges [.cache, .groups, .mports, .mem, .errLog, .errSeq, .rb] s x7 := by
      unfold x7
      refine OnlyChanges.step (updGroup_frame _ _ _) ?_
      exact hx6
    clear_value x7
    have hx8 : OnlyChanges [.cache, .groups, .mports, .mem, .errLog, .errSeq, .rb] s x8 := by
      unfold x8
      refine OnlyChanges.step (updGroup_frame _ _ _) ?_
      exact hx7
    clear_value x8
    clear_value x9
    have hx10 : OnlyChanges [.cache, .groups, .mports, .mem, .errLog, .errSeq, .rb] s x10 := by
      unfold x10
      refine OnlyChanges.step (mergeMarks_frame _ _ _) ?_
      exact hx8
    clear_value x10
    refine OnlyChanges.step (rbChange_frame _) ?_
    refine OnlyChanges.step (logErr_frame _ _ _ _ _) ?_
    exact hx10

theorem assembleAll_frame (s : State) : OnlyChanges [.cache, .groups, .mports, .mem, .errLog, .errSeq, .rb] s (assembleAll s) := by
  unfold assembleAll
  refine OnlyChanges.foldl (fun x1 x2 hx1 => ?_) ?_
  · refine OnlyChanges.ite1 ?_ ?_
    · exact hx1
    · refine OnlyChanges.step (assembleOne_frame _ _) ?_
      exact hx1
  · exact (OnlyChanges.refl _ s)

theorem reassemble_frame (s : State) a2 : OnlyChanges [.cache, .groups, .mports, .mem, .errLog, .errSeq, .rb] s (reassemble s a2) := by
  unfold reassemble
  extract_lets -merge -underBinder +onlyGivenNames x1 x2
  clear_value x1
  have hx2 : OnlyChanges [.cache, .groups, .mports, .mem, .errLog, .errSeq, .rb] s x2 := by
    unfold x2
    refine OnlyChanges.foldl (fun x3 x4 hx3 => ?_) ?_
    · extract_lets -merge -underBinder +onlyGivenNames x5
      have hx5 : OnlyChanges [.cache, .groups, .mports, .mem, .errLog, .errSeq, .rb] s x5 := by
        unfold x5
        exact OnlyChanges.of hx3 (by intro p hp; cases p <;> first | exact absurd (by decide) hp | exact rfl)
      clear_value x5
      exact OnlyChanges.of hx5 (by intro p hp; cases p <;> first | exact absurd (by decide) hp | exact rfl)
    · exact (OnlyChanges.refl _ s)
  clear_value x2
  refine OnlyChanges.foldl (fun x6 x7 hx6 => ?_) ?_
  · refine OnlyChanges.ite1 ?_ ?_
    · exact hx6
    · refine OnlyChanges.step (assembleOne_frame _ _) ?_
      exact hx6
  · exact hx2

theorem destageOne_frame (s : State) a2 a3 a4 a5 a6 a7 a8 : OnlyChanges [.ctxs, .groups, .seqCtr] s (destageOne s a2 a3 a4 a5 a6 a7 a8) := by
  unfold destageOne
  extract_lets -merge -underBinder +onlyGivenNames x1 x2
  clear_value x1
  clear_value x2
  refine OnlyChanges.ite1 ?_ ?_
  · exact (OnlyChanges.refl _ s)
  · split
    · rename_i x3 x4 x5
      have hx4 : OnlyChanges [.ctxs, .groups, .seqCtr] s x4 := by
        refine OnlyChangesOP.of_eq x5 ?_
        refine OnlyChangesOP.step (createWork_frame _ _ _ _ _ _) ?_
        exact (OnlyChanges.refl _ s)
      refine OnlyChanges.step (updGroup_frame _ _ _) ?_
      exact hx4
    · exact (OnlyChanges.refl _ s)

theorem destageCreate_frame (s : State) a2 a3 : OnlyChanges [.ctxs, .groups, .seqCtr] s (destageCreate s a2 a3) := by
  unfold destageCreate
  split
  · exact (OnlyChanges.refl _ s)
  · extract_lets -merge -underBinder +onlyGivenNames x1 x2 x3 x4
    clear_value x1
    clear_value x2
    clear_value x3
    clear_value x4
    refine OnlyChanges.ite1 ?_ ?_
    · exact (OnlyChanges.refl _ s)
    · refine OnlyChanges.ite1 ?_ ?_
      · split
        · refine OnlyChanges.step (destageOne_frame _ _ _ _ _ _ _ _) ?_
          exact (OnlyChanges.refl _ s)
        · exact (OnlyChanges.refl _ s)
      · refine OnlyChanges.foldl (fun x5 x6 hx5 => ?_) ?_
        · refine OnlyChanges.foldl (fun x7 x8 hx7 => ?_) ?_
          · refine OnlyChanges.step (destageOne_frame _ _ _ _ _ _ _ _) ?_
            exact hx7
          · exact hx5
        · exact (OnlyChanges.refl _ s)

theorem execDestageCreate_frame a1 a2 (s : State) : OnlyChangesQ [.ctxs, .groups, .seqCtr] s (execDestageCreate a1 a2 s) := by
  unfold execDestageCreate
  refine OnlyChangesQ.next ?_
  refine OnlyChanges.step (destageCreate_frame _ _ _) ?_
  exact (OnlyChanges.refl _ s)

theorem repairGroup_frame (s : State) a2 a3 : OnlyChanges [.funcs, .ctxs, .groups, .vols, .errLog, .errSeq, .defLog, .defSeq, .seqCtr] s (repairGroup s a2 a3) := by
  unfold repairGroup
  split
  · exact (OnlyChanges.refl _ s)
  · extract_lets -merge -underBinder +onlyGivenNames x1 x2
    have hx1 : OnlyChanges [.funcs, .ctxs, .groups, .vols, .errLog, .errSeq, .defLog, .defSeq, .seqCtr] s x1 := by
      unfold x1
      refine OnlyChanges.foldl (fun x3 x4 hx3 => ?_) ?_
      · refine OnlyChanges.step (markResync_frame _ _ _) ?_
        exact hx3
      · exact (OnlyChanges.refl _ s)
    clear_value x1
    have hx2 : OnlyChanges [.funcs, .ctxs, .groups, .vols, .errLog, .errSeq, .defLog, .defSeq, .seqCtr] s x2 := by
      unfold x2
      refine OnlyChanges.foldl (fun x5 x6 hx5 => ?_) ?_
      · refine OnlyChanges.step (deferErr_frame _ _ _ _ _ _) ?_
        exact hx5
      · exact hx1
    clear_value x2
    refine OnlyChanges.ite1 ?_ ?_
    · refine OnlyChanges.step (updGroup_frame _ _ _) ?_
      exact hx1
    · refine OnlyChanges.step (updGroup_frame _ _ _) ?_
      exact hx2

theorem execGroupRepair_frame a1 a2 (s : State) : OnlyChangesQ [.funcs, .ctxs, .groups, .vols, .errLog, .errSeq, .defLog, .defSeq, .rb, .out, .seqCtr] s (execGroupRepair a1 a2 s) := by
  unfold execGroupRepair
  refine OnlyChangesQ.next ?_
  split
  · exact (OnlyChanges.refl _ s)
  · extract_lets -merge -underBinder +onlyGivenNames x1
    have hx1 : OnlyChanges [.funcs, .ctxs, .groups, .vols, .errLog, .errSeq, .defLog, .defSeq, .rb, .out, .seqCtr] s x1 := by
      unfold x1
      refine OnlyChanges.step (rbChange_frame _) ?_
      refine OnlyChanges.step (repairGroup_frame _ _ _) ?_
      exact (OnlyChanges.refl _ s)
    clear_value x1
    refine OnlyChanges.ite1 ?_ ?_
    · split
      · refine OnlyChanges.step (adminDone_frame _ _ _ _) ?_
        refine OnlyChanges.step (updGroup_frame _ _ _) ?_
        exact hx1
      · exact hx1
    · exact (OnlyChanges.refl _ s)

theorem extentZeroed_frame (s : State) a2 a3 : OnlyChanges [.groups] s (extentZeroed s a2 a3) := by
  unfold extentZeroed
  refine OnlyChanges.step (updGroup_frame _ _ _) ?_
  exact (OnlyChanges.refl _ s)

theorem rebuildPiece_frame (s : State) a2 a3 a4 a5 a6 a7 a8 a9 a10 a11 a12 a13 : OnlyChanges [.ctxs, .groups, .seqCtr] s (rebuildPiece s a2 a3 a4 a5 a6 a7 a8 a9 a10 a11 a12 a13) := by
  unfold rebuildPiece
  extract_lets -merge -underBinder +onlyGivenNames x1 x2
  clear_value x1
  clear_value x2
  split
  · rename_i x3 x4 x5
    have hx4 : OnlyChanges [.ctxs, .groups, .seqCtr] s x4 := by
      refine OnlyChangesOP.of_eq x5 ?_
      refine OnlyChangesOP.step (createWork_frame _ _ _ _ _ _) ?_
      exact (OnlyChanges.refl _ s)
    refine OnlyChanges.step (updGroup_frame _ _ _) ?_
    exact hx4
  · exact (OnlyChanges.refl _ s)

theorem rebuildStrip_frame a1 a2 a3 a4 a5 a6 (s : State) a8 : OnlyChanges [.ctxs, .groups, .seqCtr] s (rebuildStrip a1 a2 a3 a4 a5 a6 s a8) := by
  unfold rebuildStrip
  split
  · exact (OnlyChanges.refl _ s)
  · extract_lets -merge -underBinder +onlyGivenNames x1 x2
    clear_value x1
    clear_value x2
    split
    · extract_lets -merge -underBinder +onlyGivenNames x3
      clear_value x3
      refine OnlyChanges.foldl (fun x4 x5 hx4 => ?_) ?_
      · refine OnlyChanges.step (rebuildPiece_frame _ _ _ _ _ _ _ _ _ _ _ _ _) ?_
        exact hx4
      · refine OnlyChanges.step (updGroup_frame _ _ _) ?_
        exact (OnlyChanges.refl _ s)

theorem rebuildRow_frame (s : State) a2 a3 a4 a5 a6 : OnlyChanges [.ctxs, .groups, .seqCtr] s (rebuildRow s a2 a3 a4 a5 a6) := by
  unfold rebuildRow
  extract_lets -merge -underBinder +onlyGivenNames x1
  clear_value x1
  refine OnlyChanges.foldl (fun x2 x3 hx2 => ?_) ?_
  · refine OnlyChanges.step (rebuildStrip_frame _ _ _ _ _ _ _ _) ?_
    exact hx2
  · exact (OnlyChanges.refl _ s)

theorem execRebuildStepCreate_frame a1 (s : State) : OnlyChangesQ [.ctxs, .groups, .errLog, .errSeq, .seqCtr] s (execRebuildStepCreate a1 s) := by
  unfold execRebuildStepCreate
  refine OnlyChangesQ.next ?_
  split
  · exact (OnlyChanges.refl _ s)
  · refine OnlyChanges.ite1 ?_ ?_
    · exact (OnlyChanges.refl _ s)
    · split
      · exact (OnlyChanges.refl _ s)
      · extract_lets -merge -underBinder +onlyGivenNames x1 x2
        clear_value x1
        have hx2 : OnlyChanges [.ctxs, .groups, .errLog, .errSeq, .seqCtr] s x2 := by
          unfold x2
          refine OnlyChanges.ite1 ?_ ?_
          · refine OnlyChanges.step (logErr_frame _ _ _ _ _) ?_
            exact (OnlyChanges.refl _ s)
          · exact (OnlyChanges.refl _ s)
        clear_value x2
        refine OnlyChanges.step (rebuildRow_frame _ _ _ _ _ _) ?_
        exact hx2

theorem execScrubPassStart_frame a1 (s : State) : OnlyChangesQ [.groups] s (execScrubPassStart a1 s) := by
  unfold execScrubPassStart
  refine OnlyChangesQ.next ?_
  split
  · exact (OnlyChanges.refl _ s)
  · refine OnlyChanges.ite1 ?_ ?_
    · refine OnlyChanges.step (scrubStart_frame _ _) ?_
      exact (OnlyChanges.refl _ s)
    · exact (OnlyChanges.refl _ s)

theorem scrubStripe_frame (s : State) a2 a3 a4 a5 : OnlyChanges [.ctxs, .seqCtr] s (scrubStripe s a2 a3 a4 a5) := by
  unfold scrubStripe
  extract_lets -merge -underBinder +onlyGivenNames x1
  clear_value x1
  refine OnlyChanges.foldl (fun x2 x3 hx2 => ?_) ?_
  · extract_lets -merge -underBinder +onlyGivenNames x4 x5
    clear_value x4
    clear_value x5
    split
    · rename_i x6 x7 x8
      have hx7 : OnlyChanges [.ctxs, .seqCtr] s x7 := by
        refine OnlyChangesOP.of_eq x8 ?_
        refine OnlyChangesOP.step (createWork_frame _ _ _ _ _ _) ?_
        exact hx2
      exact hx7
    · exact hx2
  · exact (OnlyChanges.refl _ s)

theorem scrubOne_frame (s : State) a2 a3 a4 : OnlyChanges [.ctxs, .groups, .seqCtr] s (scrubOne s a2 a3 a4) := by
  unfold scrubOne
  refine OnlyChanges.ite1 ?_ ?_
  · refine OnlyChanges.step (updGroup_frame _ _ _) ?_
    exact (OnlyChanges.refl _ s)
  · refine OnlyChanges.step (scrubStripe_frame _ _ _ _ _) ?_
    exact (OnlyChanges.refl _ s)

theorem scrubTail_frame (s : State) a2 a3 : OnlyChanges [.ctxs, .groups, .seqCtr] s (scrubTail s a2 a3) := by
  unfold scrubTail
  split
  · refine OnlyChanges.step (scrubOne_frame _ _ _ _) ?_
    refine OnlyChanges.step (updGroup_frame _ _ _) ?_
    exact (OnlyChanges.refl _ s)
  · refine OnlyChanges.ite1 ?_ ?_
    · refine OnlyChanges.step (updGroup_frame _ _ _) ?_
      exact (OnlyChanges.refl _ s)
    · exact (OnlyChanges.refl _ s)

theorem execScrubStepCreate_frame a1 (s : State) : OnlyChangesQ [.ctxs, .groups, .seqCtr] s (execScrubStepCreate a1 s) := by
  unfold execScrubStepCreate
  refine OnlyChangesQ.next ?_
  split
  · exact (OnlyChanges.refl _ s)
  · refine OnlyChanges.ite1 ?_ ?_
    · exact (OnlyChanges.refl _ s)
    · split
      · refine OnlyChanges.step (scrubStripe_frame _ _ _ _ _) ?_
        exact (OnlyChanges.refl _ s)
      · split
        · refine OnlyChanges.step (scrubOne_frame _ _ _ _) ?_
          refine OnlyChanges.step (updGroup_frame _ _ _) ?_
          exact (OnlyChanges.refl _ s)
        · refine OnlyChanges.ite1 ?_ ?_
          · refine OnlyChanges.step (scrubTail_frame _ _ _) ?_
            exact (OnlyChanges.refl _ s)
          · refine OnlyChanges.ite1 ?_ ?_
            · refine OnlyChanges.step (scrubOne_frame _ _ _ _) ?_
              refine OnlyChanges.step (updGroup_frame _ _ _) ?_
              exact (OnlyChanges.refl _ s)
            · exact (OnlyChanges.refl _ s)

theorem execZeroingCreate_frame a1 (s : State) : OnlyChangesQ [.ctxs, .groups, .seqCtr] s (execZeroingCreate a1 s) := by
  unfold execZeroingCreate
  refine OnlyChangesQ.next ?_
  split
  · exact (OnlyChanges.refl _ s)
  · split
    · exact (OnlyChanges.refl _ s)
    · extract_lets -merge -underBinder +onlyGivenNames x1
      clear_value x1
      split
      · exact (OnlyChanges.refl _ s)
      · rename_i x3 x4 x5
        have hx4 : OnlyChanges [.ctxs, .groups, .seqCtr] s x4 := by
          refine OnlyChangesOP.of_eq x5 ?_
          refine OnlyChangesOP.step (createWork_frame _ _ _ _ _ _) ?_
          exact (OnlyChanges.refl _ s)
        refine OnlyChanges.step (updGroup_frame _ _ _) ?_
        exact hx4

end Sys2Proof.Machine
end

