-- ==== Sys2Proof/Laws/FramesMemberEvents.lean ====
section
/-! SUPPORT. Which parts of the state each function of Machine/MemberEvents.lean can change. -/

set_option Elab.async false

namespace Sys2Proof.Machine

theorem adminOpDone_frame (s : State) a2 : OnlyChanges [.funcs, .out, .seqCtr] s (adminOpDone s a2) := by
  unfold adminOpDone
  split
  · refine OnlyChanges.step (adminDone_frame _ _ _ _) ?_
    exact (OnlyChanges.refl _ s)
  · exact (OnlyChanges.refl _ s)

theorem creditsFollow_frame (s : State) : OnlyChanges [.adm, .rb, .fresh] s (creditsFollow s) := by
  unfold creditsFollow
  refine OnlyChanges.ite1 ?_ ?_
  · refine OnlyChanges.step (recomputeCeil_frame _) ?_
    exact (OnlyChanges.refl _ s)
  · exact (OnlyChanges.refl _ s)

theorem bringUp_frame (s : State) a2 a3 : OnlyChanges [.adm, .funcs, .ctxs, .cache, .locks, .journal, .groups, .vols, .mports, .mem, .errLog, .errSeq, .defLog, .defSeq, .rb, .fresh, .out, .seqCtr] s (bringUp s a2 a3) := by
  unfold bringUp
  split
  · refine OnlyChanges.step (contain_frame _ _) ?_
    refine OnlyChanges.step (logErr_frame _ _ _ _ _) ?_
    exact (OnlyChanges.refl _ s)
  · extract_lets -merge -underBinder +onlyGivenNames x1 x2
    have hx1 : OnlyChanges [.adm, .funcs, .ctxs, .cache, .locks, .journal, .groups, .vols, .mports, .mem, .errLog, .errSeq, .defLog, .defSeq, .rb, .fresh, .out, .seqCtr] s x1 := by
      unfold x1
      refine OnlyChanges.step (updMport_frame _ _ _) ?_
      exact (OnlyChanges.refl _ s)
    clear_value x1
    have hx2 : OnlyChanges [.adm, .funcs, .ctxs, .cache, .locks, .journal, .groups, .vols, .mports, .mem, .errLog, .errSeq, .defLog, .defSeq, .rb, .fresh, .out, .seqCtr] s x2 := by
      unfold x2
      split
      · extract_lets -merge -underBinder +onlyGivenNames x3
        have hx3 : OnlyChanges [.adm, .funcs, .ctxs, .cache, .locks, .journal, .groups, .vols, .mports, .mem, .errLog, .errSeq, .defLog, .defSeq, .rb, .fresh, .out, .seqCtr] s x3 := by
          unfold x3
          refine OnlyChanges.step (updMport_frame _ _ _) ?_
          exact hx1
        clear_value x3
        refine OnlyChanges.step (updGroup_frame _ _ _) ?_
        exact hx3
      · refine OnlyChanges.step (updMport_frame _ _ _) ?_
        exact hx1
    clear_value x2
    refine OnlyChanges.step (rbChange_frame _) ?_
    split
    · refine OnlyChanges.step (creditsFollow_frame _) ?_
      refine OnlyChanges.step (assembleAll_frame _) ?_
      refine OnlyChanges.step (reassemble_frame _ _) ?_
      exact hx2
    · exact hx2

theorem fillFrame_frame (s : State) a2 a3 a4 : OnlyChanges [.cache] s (fillFrame s a2 a3 a4) := by
  unfold fillFrame
  refine OnlyChanges.step (updFrame_frame _ _ _) ?_
  exact (OnlyChanges.refl _ s)

theorem policyEnd_frame (s : State) : OnlyChanges [.mports, .errLog, .errSeq, .rb] s (policyEnd s) := by
  unfold policyEnd
  refine OnlyChanges.foldl (fun x1 x2 hx1 => ?_) ?_
  · extract_lets -merge -underBinder +onlyGivenNames x3 x4 x5
    clear_value x3
    clear_value x4
    have hx5 : OnlyChanges [.mports, .errLog, .errSeq, .rb] s x5 := by
      unfold x5
      refine OnlyChanges.step (updMport_frame _ _ _) ?_
      exact hx1
    clear_value x5
    refine OnlyChanges.ite1 ?_ ?_
    · refine OnlyChanges.step (rbChange_frame _) ?_
      refine OnlyChanges.step (logErr_frame _ _ _ _ _) ?_
      exact hx5
    · exact hx5
  · exact (OnlyChanges.refl _ s)

theorem policyEdge_frame (s : State) : OnlyChanges [.mports, .mem, .errLog, .errSeq, .rb] s (policyEdge s) := by
  unfold policyEdge
  extract_lets -merge -underBinder +onlyGivenNames x1 x2
  clear_value x1
  clear_value x2
  refine OnlyChanges.ite1 ?_ ?_
  · refine OnlyChanges.step (policyEnd_frame _) ?_
    exact OnlyChanges.of (OnlyChanges.refl _ s) (by intro p hp; cases p <;> first | exact absurd (by decide) hp | exact rfl)
  · exact (OnlyChanges.refl _ s)

theorem degradeUnread_frame (s : State) a2 a3 a4 : OnlyChanges [.ctxs] s (degradeUnread s a2 a3 a4) := by
  unfold degradeUnread
  split
  · refine OnlyChanges.step (updCtx_frame _ _ _) ?_
    exact (OnlyChanges.refl _ s)
  · exact (OnlyChanges.refl _ s)

theorem setQuads_frame (s : State) a2 a3 : OnlyChanges [.mports, .mem] s (setQuads s a2 a3) := by
  unfold setQuads
  extract_lets -merge -underBinder +onlyGivenNames x1 x2
  clear_value x1
  clear_value x2
  refine OnlyChanges.ite1 ?_ ?_
  · exact (OnlyChanges.refl _ s)
  · exact OnlyChanges.of (OnlyChanges.refl _ s) (by intro p hp; cases p <;> first | exact absurd (by decide) hp | exact rfl)

theorem execGroupAssembly_frame a1 (s : State) : OnlyChangesQ [.adm, .cache, .groups, .mports, .mem, .errLog, .errSeq, .rb, .fresh] s (execGroupAssembly a1 s) := by
  unfold execGroupAssembly
  refine OnlyChangesQ.next ?_
  refine OnlyChanges.ite1 ?_ ?_
  · refine OnlyChanges.step (creditsFollow_frame _) ?_
    refine OnlyChanges.step (assembleAll_frame _) ?_
    refine OnlyChanges.foldl (fun x1 x2 hx1 => ?_) ?_
    · refine OnlyChanges.step (updMport_frame _ _ _) ?_
      exact hx1
    · exact (OnlyChanges.refl _ s)
  · exact (OnlyChanges.refl _ s)

theorem execLinkContainment_frame a1 a2 (s : State) : OnlyChangesQ [.adm, .funcs, .ctxs, .cache, .locks, .journal, .groups, .vols, .mports, .mem, .errLog, .errSeq, .defLog, .defSeq, .rb, .out, .seqCtr] s (execLinkContainment a1 a2 s) := by
  unfold execLinkContainment
  refine OnlyChangesQ.next ?_
  split
  · exact (OnlyChanges.refl _ s)
  · refine OnlyChanges.ite1 ?_ ?_
    · exact (OnlyChanges.refl _ s)
    · refine OnlyChanges.step (contain_frame _ _) ?_
      exact (OnlyChanges.refl _ s)

theorem execMemQuadCfgWrite_frame a1 a2 (s : State) : OnlyChangesQ [.mports, .mem] s (execMemQuadCfgWrite a1 a2 s) := by
  unfold execMemQuadCfgWrite
  refine OnlyChangesQ.next ?_
  refine OnlyChanges.step (setQuads_frame _ _ _) ?_
  exact (OnlyChanges.refl _ s)

theorem returnUp_frame (s : State) a2 a3 : OnlyChanges [.adm, .funcs, .ctxs, .cache, .locks, .journal, .groups, .vols, .mports, .mem, .errLog, .errSeq, .defLog, .defSeq, .rb, .fresh, .out, .seqCtr] s (returnUp s a2 a3) := by
  unfold returnUp
  split
  · refine OnlyChanges.step (contain_frame _ _) ?_
    refine OnlyChanges.step (logErr_frame _ _ _ _ _) ?_
    exact (OnlyChanges.refl _ s)
  · split
    · exact (OnlyChanges.refl _ s)
    · extract_lets -merge -underBinder +onlyGivenNames x1 x2
      clear_value x1
      have hx2 : OnlyChanges [.adm, .funcs, .ctxs, .cache, .locks, .journal, .groups, .vols, .mports, .mem, .errLog, .errSeq, .defLog, .defSeq, .rb, .fresh, .out, .seqCtr] s x2 := by
        unfold x2
        refine OnlyChanges.step (updMport_frame _ _ _) ?_
        exact (OnlyChanges.refl _ s)
      clear_value x2
      refine OnlyChanges.step (rbChange_frame _) ?_
      refine OnlyChanges.step (creditsFollow_frame _) ?_
      refine OnlyChanges.ite1 ?_ ?_
      · exact hx2
      · refine OnlyChanges.step (failMember_frame _ _ _) ?_
        exact hx2

theorem execMemberBringup_frame a1 a2 (s : State) : OnlyChangesQ [.adm, .funcs, .ctxs, .cache, .locks, .journal, .groups, .vols, .mports, .mem, .errLog, .errSeq, .defLog, .defSeq, .rb, .fresh, .out, .seqCtr] s (execMemberBringup a1 a2 s) := by
  unfold execMemberBringup
  refine OnlyChangesQ.next ?_
  split
  · exact (OnlyChanges.refl _ s)
  · extract_lets -merge -underBinder +onlyGivenNames x1
    have hx1 : OnlyChanges [.adm, .funcs, .ctxs, .cache, .locks, .journal, .groups, .vols, .mports, .mem, .errLog, .errSeq, .defLog, .defSeq, .rb, .fresh, .out, .seqCtr] s x1 := by
      unfold x1
      refine OnlyChanges.step (bringUp_frame _ _ _) ?_
      exact (OnlyChanges.refl _ s)
    clear_value x1
    refine OnlyChanges.ite1 ?_ ?_
    · exact (OnlyChanges.refl _ s)
    · refine OnlyChanges.ite1 ?_ ?_
      · refine OnlyChanges.step (returnUp_frame _ _ _) ?_
        exact (OnlyChanges.refl _ s)
      · refine OnlyChanges.foldl (fun x2 x3 hx2 => ?_) ?_
        · refine OnlyChanges.step (adminDone_frame _ _ _ _) ?_
          exact hx2
        · refine OnlyChanges.step (updMport_frame _ _ _) ?_
          exact hx1

theorem lateCompletion_frame (s : State) a2 a3 : OnlyChanges [.mports, .errLog, .errSeq, .fresh] s (lateCompletion s a2 a3) := by
  unfold lateCompletion
  split
  · exact (OnlyChanges.refl _ s)
  · extract_lets -merge -underBinder +onlyGivenNames x1 x2
    clear_value x1
    have hx2 : OnlyChanges [.mports, .errLog, .errSeq, .fresh] s x2 := by
      unfold x2
      refine OnlyChanges.step (markFresh_frame _ _ _ _ _) ?_
      exact (OnlyChanges.refl _ s)
    clear_value x2
    refine OnlyChanges.ite1 ?_ ?_
    · exact (OnlyChanges.refl _ s)
    · refine OnlyChanges.step (logErr_frame _ _ _ _ _) ?_
      refine OnlyChanges.step (updMport_frame _ _ _) ?_
      exact hx2

theorem frameEvent_frame (s : State) a2 : OnlyChanges [.journal, .groups, .errLog, .errSeq] s (frameEvent s a2) := by
  unfold frameEvent
  split
  · split
    · refine OnlyChanges.step (markResync_frame _ _ _) ?_
      refine OnlyChanges.ite1 ?_ ?_
      · exact (OnlyChanges.refl _ s)
      · refine OnlyChanges.step (updRec_frame _ _ _) ?_
        exact (OnlyChanges.refl _ s)
    · exact (OnlyChanges.refl _ s)
  · exact (OnlyChanges.refl _ s)

theorem mediaEvent_frame (s : State) a2 a3 : OnlyChanges [.adm, .funcs, .ctxs, .cache, .locks, .journal, .groups, .vols, .mports, .mem, .errLog, .errSeq, .defLog, .defSeq, .rb, .fresh, .out, .seqCtr] s (mediaEvent s a2 a3) := by
  unfold mediaEvent
  refine OnlyChanges.step (countMedia_frame _ _) ?_
  refine OnlyChanges.step (queueScrub_frame _ _ _) ?_
  refine OnlyChanges.step (logErr_frame _ _ _ _ _) ?_
  exact (OnlyChanges.refl _ s)

theorem noteMember_frame (s : State) a2 a3 : OnlyChanges [.ctxs] s (noteMember s a2 a3) := by
  unfold noteMember
  split
  · refine OnlyChanges.ite1 ?_ ?_
    · refine OnlyChanges.step (noteLate_frame _ _ _) ?_
      exact (OnlyChanges.refl _ s)
    · exact (OnlyChanges.refl _ s)
  · exact (OnlyChanges.refl _ s)

theorem observe_frame (s : State) a2 a3 : OnlyChanges [.mports] s (observe s a2 a3) := by
  unfold observe
  extract_lets -merge -underBinder +onlyGivenNames x1
  clear_value x1
  refine OnlyChanges.ite1 ?_ ?_
  · refine OnlyChanges.step (updMport_frame _ _ _) ?_
    exact (OnlyChanges.refl _ s)
  · exact (OnlyChanges.refl _ s)

theorem retryWin_frame (s : State) a2 : OnlyChanges [.mports] s (retryWin s a2) := by
  unfold retryWin
  extract_lets -merge -underBinder +onlyGivenNames x1
  clear_value x1
  refine OnlyChanges.step (updMport_frame _ _ _) ?_
  exact (OnlyChanges.refl _ s)

theorem winCompletion_frame (s : State) a2 a3 a4 a5 : OnlyChanges [.ctxs, .cache, .journal, .groups, .mports, .seqCtr] s (winCompletion s a2 a3 a4 a5) := by
  unfold winCompletion
  extract_lets -merge -underBinder +onlyGivenNames x1
  have hx1 : OnlyChanges [.ctxs, .cache, .journal, .groups, .mports, .seqCtr] s x1 := by
    unfold x1
    refine OnlyChanges.step (endCmd_frame _ _ _ _ _) ?_
    exact (OnlyChanges.refl _ s)
  clear_value x1
  refine OnlyChanges.ite1 ?_ ?_
  · refine OnlyChanges.step (retryWin_frame _ _) ?_
    exact hx1
  · refine OnlyChanges.ite1 ?_ ?_
    · exact hx1
    · split
      · refine OnlyChanges.ite1 ?_ ?_
        · refine OnlyChanges.step (wakeMem_frame _ _) ?_
          refine OnlyChanges.step (endPoss_frame _ _) ?_
          exact hx1
        · refine OnlyChanges.step (updMport_frame _ _ _) ?_
          exact hx1
      · exact hx1

theorem formatted_frame (s : State) a2 : OnlyChanges [.mports, .rb] s (formatted s a2) := by
  unfold formatted
  split
  · refine OnlyChanges.ite1 ?_ ?_
    · refine OnlyChanges.step (rbChange_frame _) ?_
      refine OnlyChanges.step (updMport_frame _ _ _) ?_
      exact (OnlyChanges.refl _ s)
    · exact (OnlyChanges.refl _ s)
  · exact (OnlyChanges.refl _ s)

theorem memCompletion_frame (s : State) a2 a3 a4 a5 : OnlyChanges [.adm, .funcs, .ctxs, .cache, .locks, .journal, .groups, .vols, .mports, .mem, .errLog, .errSeq, .defLog, .defSeq, .rb, .fresh, .out, .seqCtr] s (memCompletion s a2 a3 a4 a5) := by
  unfold memCompletion
  split
  · refine OnlyChanges.step (endCmd_frame _ _ _ _ _) ?_
    refine OnlyChanges.step (noteMember_frame _ _ _) ?_
    refine OnlyChanges.step (observe_frame _ _ _) ?_
    exact (OnlyChanges.refl _ s)
  · extract_lets -merge -underBinder +onlyGivenNames x1 x2
    have hx1 : OnlyChanges [.adm, .funcs, .ctxs, .cache, .locks, .journal, .groups, .vols, .mports, .mem, .errLog, .errSeq, .defLog, .defSeq, .rb, .fresh, .out, .seqCtr] s x1 := by
      unfold x1
      refine OnlyChanges.step (noteMember_frame _ _ _) ?_
      refine OnlyChanges.step (observe_frame _ _ _) ?_
      exact (OnlyChanges.refl _ s)
    clear_value x1
    have hx2 : OnlyChanges [.adm, .funcs, .ctxs, .cache, .locks, .journal, .groups, .vols, .mports, .mem, .errLog, .errSeq, .defLog, .defSeq, .rb, .fresh, .out, .seqCtr] s x2 := by
      unfold x2
      split
      · refine OnlyChanges.step (degradeUnread_frame _ _ _ _) ?_
        exact hx1
      · exact hx1
    clear_value x2
    refine OnlyChanges.step (mediaEvent_frame _ _ _) ?_
    refine OnlyChanges.step (endCmd_frame _ _ _ _ _) ?_
    exact hx2
  · refine OnlyChanges.step (endCmd_frame _ _ _ _ _) ?_
    exact (OnlyChanges.refl _ s)
  · refine OnlyChanges.step (frameEvent_frame _ _) ?_
    refine OnlyChanges.step (endCmd_frame _ _ _ _ _) ?_
    exact (OnlyChanges.refl _ s)
  · refine OnlyChanges.step (failMember_frame _ _ _) ?_
    refine OnlyChanges.step (endCmd_frame _ _ _ _ _) ?_
    exact (OnlyChanges.refl _ s)
  · refine OnlyChanges.step (winCompletion_frame _ _ _ _ _) ?_
    exact (OnlyChanges.refl _ s)
  · refine OnlyChanges.step (winCompletion_frame _ _ _ _ _) ?_
    exact (OnlyChanges.refl _ s)
  · refine OnlyChanges.step (adminOpDone_frame _ _) ?_
    refine OnlyChanges.step (formatted_frame _ _) ?_
    refine OnlyChanges.step (endCmd_frame _ _ _ _ _) ?_
    exact (OnlyChanges.refl _ s)
  · refine OnlyChanges.step (adminOpDone_frame _ _) ?_
    refine OnlyChanges.step (endCmd_frame _ _ _ _ _) ?_
    exact (OnlyChanges.refl _ s)

theorem logTimeout_frame (s : State) a2 a3 a4 : OnlyChanges [.mports, .errLog, .errSeq, .fresh] s (logTimeout s a2 a3 a4) := by
  unfold logTimeout
  extract_lets -merge -underBinder +onlyGivenNames x1
  have hx1 : OnlyChanges [.mports, .errLog, .errSeq, .fresh] s x1 := by
    unfold x1
    refine OnlyChanges.step (logErr_frame _ _ _ _ _) ?_
    exact (OnlyChanges.refl _ s)
  clear_value x1
  refine OnlyChanges.step (markFresh_frame _ _ _ _ _) ?_
  refine OnlyChanges.step (updMport_frame _ _ _) ?_
  exact hx1

theorem quarantineId_frame (s : State) a2 a3 a4 : OnlyChanges [.adm, .funcs, .ctxs, .cache, .locks, .journal, .groups, .vols, .mports, .mem, .errLog, .errSeq, .defLog, .defSeq, .rb, .out, .seqCtr] s (quarantineId s a2 a3 a4) := by
  unfold quarantineId
  extract_lets -merge -underBinder +onlyGivenNames x1
  have hx1 : OnlyChanges [.adm, .funcs, .ctxs, .cache, .locks, .journal, .groups, .vols, .mports, .mem, .errLog, .errSeq, .defLog, .defSeq, .rb, .out, .seqCtr] s x1 := by
    unfold x1
    refine OnlyChanges.step (updMport_frame _ _ _) ?_
    exact (OnlyChanges.refl _ s)
  clear_value x1
  split
  · refine OnlyChanges.ite1 ?_ ?_
    · refine OnlyChanges.step (failMember_frame _ _ _) ?_
      exact hx1
    · exact hx1
  · exact hx1

theorem memTimeoutOf_frame (s : State) a2 a3 a4 : OnlyChanges [.adm, .funcs, .ctxs, .cache, .locks, .journal, .groups, .vols, .mports, .mem, .errLog, .errSeq, .defLog, .defSeq, .rb, .fresh, .out, .seqCtr] s (memTimeoutOf s a2 a3 a4) := by
  unfold memTimeoutOf
  extract_lets -merge -underBinder +onlyGivenNames x1 x2 x3
  have hx1 : OnlyChanges [.adm, .funcs, .ctxs, .cache, .locks, .journal, .groups, .vols, .mports, .mem, .errLog, .errSeq, .defLog, .defSeq, .rb, .fresh, .out, .seqCtr] s x1 := by
    unfold x1
    refine OnlyChanges.step (logTimeout_frame _ _ _ _) ?_
    exact (OnlyChanges.refl _ s)
  clear_value x1
  have hx2 : OnlyChanges [.adm, .funcs, .ctxs, .cache, .locks, .journal, .groups, .vols, .mports, .mem, .errLog, .errSeq, .defLog, .defSeq, .rb, .fresh, .out, .seqCtr] s x2 := by
    unfold x2
    split
    · refine OnlyChanges.ite1 ?_ ?_
      · refine OnlyChanges.step (noteLate_frame _ _ _) ?_
        exact hx1
      · exact hx1
    · exact hx1
  clear_value x2
  have hx3 : OnlyChanges [.adm, .funcs, .ctxs, .cache, .locks, .journal, .groups, .vols, .mports, .mem, .errLog, .errSeq, .defLog, .defSeq, .rb, .fresh, .out, .seqCtr] s x3 := by
    unfold x3
    refine OnlyChanges.step (quarantineId_frame _ _ _ _) ?_
    refine OnlyChanges.step (endCmd_frame _ _ _ _ _) ?_
    exact hx2
  clear_value x3
  split
  · refine OnlyChanges.step (countTimeout_frame _ _) ?_
    exact hx3
  · refine OnlyChanges.step (failMember_frame _ _ _) ?_
    exact hx3
  · refine OnlyChanges.step (retryWin_frame _ _) ?_
    exact hx3
  · refine OnlyChanges.step (retryWin_frame _ _) ?_
    exact hx3
  · exact hx3

theorem execMemberCompletion_frame a1 a2 a3 (s : State) : OnlyChangesQ [.adm, .funcs, .ctxs, .cache, .locks, .journal, .groups, .vols, .mports, .mem, .errLog, .errSeq, .defLog, .defSeq, .rb, .fresh, .out, .seqCtr] s (execMemberCompletion a1 a2 a3 s) := by
  unfold execMemberCompletion
  refine OnlyChangesQ.next ?_
  split
  · exact (OnlyChanges.refl _ s)
  · refine OnlyChanges.ite1 ?_ ?_
    · exact (OnlyChanges.refl _ s)
    · refine OnlyChanges.ite1 ?_ ?_
      · refine OnlyChanges.step (lateCompletion_frame _ _ _) ?_
        refine OnlyChanges.step (wakeMem_frame _ _) ?_
        refine OnlyChanges.step (retryRetires_frame _) ?_
        refine OnlyChanges.step (memTimeoutOf_frame _ _ _ _) ?_
        exact (OnlyChanges.refl _ s)
      · refine OnlyChanges.step (wakeMem_frame _ _) ?_
        refine OnlyChanges.step (retryRetires_frame _) ?_
        refine OnlyChanges.step (memCompletion_frame _ _ _ _ _) ?_
        exact (OnlyChanges.refl _ s)

theorem fillWindow_frame a1 a2 a3 a4 (s : State) : OnlyChanges [.cache] s (fillWindow a1 a2 a3 a4 s) := by
  induction a2 generalizing s a3 a4 with
  | zero => exact OnlyChanges.refl _ s
  | succ n ih =>
    unfold fillWindow
    refine OnlyChanges.ite1 (OnlyChanges.refl _ s) ?_
    dsimp only
    refine OnlyChanges.step (ih _ _ _) ?_
    split
    · exact OnlyChanges.step (fillFrame_frame _ _ _ _) (OnlyChanges.refl _ s)
    · exact OnlyChanges.refl _ s

theorem execMemberDmaRequest_frame a1 a2 a3 a4 a5 (s : State) : OnlyChangesQ [.adm, .funcs, .ctxs, .cache, .locks, .journal, .groups, .vols, .mports, .mem, .errLog, .errSeq, .defLog, .defSeq, .rb, .fresh, .out, .seqCtr] s (execMemberDmaRequest a1 a2 a3 a4 a5 s) := by
  unfold execMemberDmaRequest
  refine OnlyChangesQ.next ?_
  split
  · exact (OnlyChanges.refl _ s)
  · extract_lets -merge -underBinder +onlyGivenNames x1 x2 x3
    clear_value x1
    clear_value x2
    have hx3 : OnlyChanges [.adm, .funcs, .ctxs, .cache, .locks, .journal, .groups, .vols, .mports, .mem, .errLog, .errSeq, .defLog, .defSeq, .rb, .fresh, .out, .seqCtr] s x3 := by
      unfold x3
      refine OnlyChanges.ite1 ?_ ?_
      · exact (OnlyChanges.refl _ s)
      · refine OnlyChanges.step (emit_frame _ _) ?_
        exact (OnlyChanges.refl _ s)
    clear_value x3
    refine OnlyChanges.ite1 ?_ ?_
    · exact (OnlyChanges.refl _ s)
    · refine OnlyChanges.ite1 ?_ ?_
      · refine OnlyChanges.ite1 ?_ ?_
        · refine OnlyChanges.step (fillWindow_frame _ _ _ _ _) ?_
          exact (OnlyChanges.refl _ s)
        · refine OnlyChanges.step (emit_frame _ _) ?_
          exact (OnlyChanges.refl _ s)
      · refine OnlyChanges.step (wakeMem_frame _ _) ?_
        refine OnlyChanges.step (retryRetires_frame _) ?_
        refine OnlyChanges.step (countMedia_frame _ _) ?_
        exact hx3

theorem execMemberLateCompletion_frame a1 a2 (s : State) : OnlyChangesQ [.mports, .errLog, .errSeq, .fresh] s (execMemberLateCompletion a1 a2 s) := by
  unfold execMemberLateCompletion
  refine OnlyChangesQ.next ?_
  refine OnlyChanges.ite1 ?_ ?_
  · exact (OnlyChanges.refl _ s)
  · refine OnlyChanges.step (lateCompletion_frame _ _ _) ?_
    exact (OnlyChanges.refl _ s)

theorem execMemberTimeout_frame a1 a2 (s : State) : OnlyChangesQ [.adm, .funcs, .ctxs, .cache, .locks, .journal, .groups, .vols, .mports, .mem, .errLog, .errSeq, .defLog, .defSeq, .rb, .fresh, .out, .seqCtr] s (execMemberTimeout a1 a2 s) := by
  unfold execMemberTimeout
  refine OnlyChangesQ.next ?_
  split
  · exact (OnlyChanges.refl _ s)
  · refine OnlyChanges.ite1 ?_ ?_
    · refine OnlyChanges.step (wakeMem_frame _ _) ?_
      refine OnlyChanges.step (retryRetires_frame _) ?_
      refine OnlyChanges.step (memTimeoutOf_frame _ _ _ _) ?_
      exact (OnlyChanges.refl _ s)
    · exact (OnlyChanges.refl _ s)

theorem execPolicyWindowEnd_frame (s : State) : OnlyChangesQ [.mports, .mem, .errLog, .errSeq, .rb] s (execPolicyWindowEnd s) := by
  unfold execPolicyWindowEnd
  refine OnlyChangesQ.next ?_
  refine OnlyChanges.step (policyEdge_frame _) ?_
  exact (OnlyChanges.refl _ s)

theorem execPossDtwinIssue_frame a1 (s : State) : OnlyChangesQ [.adm, .groups, .mports, .out] s (execPossDtwinIssue a1 s) := by
  unfold execPossDtwinIssue
  refine OnlyChangesQ.next ?_
  split
  · exact (OnlyChanges.refl _ s)
  · extract_lets -merge -underBinder +onlyGivenNames x1
    clear_value x1
    refine OnlyChanges.ite1 ?_ ?_
    · refine OnlyChanges.step (sendDtwin_frame _ _) ?_
      exact (OnlyChanges.refl _ s)
    · exact (OnlyChanges.refl _ s)

theorem execPossNdwinIssue_frame a1 (s : State) : OnlyChangesQ [.adm, .ctxs, .groups, .mports, .out, .seqCtr] s (execPossNdwinIssue a1 s) := by
  unfold execPossNdwinIssue
  refine OnlyChangesQ.next ?_
  split
  · exact (OnlyChanges.refl _ s)
  · refine OnlyChanges.ite1 ?_ ?_
    · refine OnlyChanges.step (wakeMem_frame _ _) ?_
      refine OnlyChanges.step (sendNdwin_frame _ _) ?_
      exact (OnlyChanges.refl _ s)
    · exact (OnlyChanges.refl _ s)

theorem execPossessionLeadNotice_frame a1 (s : State) : OnlyChangesQ [.mports] s (execPossessionLeadNotice a1 s) := by
  unfold execPossessionLeadNotice
  refine OnlyChangesQ.next ?_
  split
  · exact (OnlyChanges.refl _ s)
  · extract_lets -merge -underBinder +onlyGivenNames x1
    clear_value x1
    refine OnlyChanges.ite1 ?_ ?_
    · refine OnlyChanges.step (updMport_frame _ _ _) ?_
      exact (OnlyChanges.refl _ s)
    · exact (OnlyChanges.refl _ s)

theorem execPresenceQualified_frame a1 a2 (s : State) : OnlyChangesQ [.adm, .ports, .funcs, .ctxs, .cache, .locks, .journal, .groups, .vols, .mports, .mem, .errLog, .errSeq, .defLog, .defSeq, .rb, .out, .seqCtr] s (execPresenceQualified a1 a2 s) := by
  unfold execPresenceQualified
  refine OnlyChangesQ.next ?_
  split
  · exact (OnlyChanges.refl _ s)
  · extract_lets -merge -underBinder +onlyGivenNames x1 x2 x3 x4
    have hx1 : OnlyChanges [.adm, .ports, .funcs, .ctxs, .cache, .locks, .journal, .groups, .vols, .mports, .mem, .errLog, .errSeq, .defLog, .defSeq, .rb, .out, .seqCtr] s x1 := by
      unfold x1
      refine OnlyChanges.step (logErr_frame _ _ _ _ _) ?_
      exact (OnlyChanges.refl _ s)
    clear_value x1
    have hx2 : OnlyChanges [.adm, .ports, .funcs, .ctxs, .cache, .locks, .journal, .groups, .vols, .mports, .mem, .errLog, .errSeq, .defLog, .defSeq, .rb, .out, .seqCtr] s x2 := by
      unfold x2
      refine OnlyChanges.step (updMport_frame _ _ _) ?_
      exact hx1
    clear_value x2
    have hx3 : OnlyChanges [.adm, .ports, .funcs, .ctxs, .cache, .locks, .journal, .groups, .vols, .mports, .mem, .errLog, .errSeq, .defLog, .defSeq, .rb, .out, .seqCtr] s x3 := by
      unfold x3
      refine OnlyChanges.step (contain_frame _ _) ?_
      exact hx1
    clear_value x3
    have hx4 : OnlyChanges [.adm, .ports, .funcs, .ctxs, .cache, .locks, .journal, .groups, .vols, .mports, .mem, .errLog, .errSeq, .defLog, .defSeq, .rb, .out, .seqCtr] s x4 := by
      unfold x4
      refine OnlyChanges.ite1 ?_ ?_
      · refine OnlyChanges.ite1 ?_ ?_
        · refine OnlyChanges.step (emit_frame _ _) ?_
          refine OnlyChanges.step (updMport_frame _ _ _) ?_
          exact hx2
        · exact hx2
      · refine OnlyChanges.step (updMport_frame _ _ _) ?_
        exact hx3
    clear_value x4
    refine OnlyChanges.ite1 ?_ ?_
    · exact (OnlyChanges.refl _ s)
    · refine OnlyChanges.step (raisePme_frame _) ?_
      refine OnlyChanges.step (rbChange_frame _) ?_
      exact hx4

theorem execStrayEvent_frame a1 (s : State) : OnlyChangesQ [.adm, .groups, .mports, .errLog, .errSeq, .rb, .out] s (execStrayEvent a1 s) := by
  unfold execStrayEvent
  refine OnlyChangesQ.next ?_
  split
  · exact (OnlyChanges.refl _ s)
  · refine OnlyChanges.ite1 ?_ ?_
    · refine OnlyChanges.step (rbChange_frame _) ?_
      refine OnlyChanges.step (sendDtwin_frame _ _) ?_
      refine OnlyChanges.step (logErr_frame _ _ _ _ _) ?_
      refine OnlyChanges.step (updMport_frame _ _ _) ?_
      exact (OnlyChanges.refl _ s)
    · exact (OnlyChanges.refl _ s)

theorem execWindowSelectCompletion_frame a1 a2 (s : State) : OnlyChangesQ [.ctxs, .cache, .journal, .groups, .mports, .seqCtr] s (execWindowSelectCompletion a1 a2 s) := by
  unfold execWindowSelectCompletion
  refine OnlyChangesQ.next ?_
  split
  · exact (OnlyChanges.refl _ s)
  · refine OnlyChanges.step (winCompletion_frame _ _ _ _ _) ?_
    exact (OnlyChanges.refl _ s)

theorem execWindowSelectRetry_frame a1 (s : State) : OnlyChangesQ [.adm, .groups, .mports, .out] s (execWindowSelectRetry a1 s) := by
  unfold execWindowSelectRetry
  refine OnlyChangesQ.next ?_
  split
  · exact (OnlyChanges.refl _ s)
  · split
    · refine OnlyChanges.ite1 ?_ ?_
      · exact (OnlyChanges.refl _ s)
      · refine OnlyChanges.ite1 ?_ ?_
        · refine OnlyChanges.step (sendNdwin_frame _ _) ?_
          exact (OnlyChanges.refl _ s)
        · refine OnlyChanges.step (sendDtwin_frame _ _) ?_
          exact (OnlyChanges.refl _ s)
    · exact (OnlyChanges.refl _ s)

end Sys2Proof.Machine
end

