-- ==== Sys2Proof/Laws/FramesWindows.lean ====
section
/-! SUPPORT. Which parts of the state each function of Machine/Windows.lean can change. -/

set_option Elab.async false

namespace Sys2Proof.Machine

theorem clearWindows_frame (s : State) a2 : OnlyChanges [.funcs, .ctxs, .cache, .seqCtr] s (clearWindows s a2) := by
  unfold clearWindows
  split
  · exact (OnlyChanges.refl _ s)
  · refine OnlyChanges.step (wakeFrameWaiters_frame _) ?_
    refine OnlyChanges.step (unpinAll_frame _ _) ?_
    refine OnlyChanges.step (updFunc_frame _ _ _) ?_
    exact (OnlyChanges.refl _ s)

theorem commitDone_frame (s : State) a2 : OnlyChanges [.funcs, .out, .seqCtr] s (commitDone s a2) := by
  unfold commitDone
  refine OnlyChanges.foldl (fun x1 x2 hx1 => ?_) ?_
  · refine OnlyChanges.step (adminDone_frame _ _ _ _) ?_
    exact hx1
  · exact (OnlyChanges.refl _ s)

theorem updWin_frame (s : State) a2 a3 a4 : OnlyChanges [.funcs] s (updWin s a2 a3 a4) := by
  unfold updWin
  refine OnlyChanges.step (updFunc_frame _ _ _) ?_
  exact (OnlyChanges.refl _ s)

theorem winAccept_frame (s : State) a2 a3 a4 a5 a6 a7 : OnlyChanges [.funcs, .cache, .fresh] s (winAccept s a2 a3 a4 a5 a6 a7) := by
  unfold winAccept
  extract_lets -merge -underBinder +onlyGivenNames x1
  have hx1 : OnlyChanges [.funcs, .cache, .fresh] s x1 := by
    unfold x1
    refine OnlyChanges.foldl (fun x2 x3 hx2 => ?_) ?_
    · split
      · exact hx2
      · extract_lets -merge -underBinder +onlyGivenNames x4 x5 x6
        clear_value x4
        clear_value x5
        have hx6 : OnlyChanges [.funcs, .cache, .fresh] s x6 := by
          unfold x6
          refine OnlyChanges.step (fillFrame_frame _ _ _ _) ?_
          exact hx2
        clear_value x6
        refine OnlyChanges.step (updFrame_frame _ _ _) ?_
        exact hx6
    · exact (OnlyChanges.refl _ s)
  clear_value x1
  refine OnlyChanges.step (markFresh_frame _ _ _ _ _) ?_
  refine OnlyChanges.step (updWin_frame _ _ _ _) ?_
  exact hx1

theorem winDrop_frame (s : State) a2 a3 a4 a5 a6 : OnlyChanges [.funcs, .errLog, .errSeq, .fresh, .out] s (winDrop s a2 a3 a4 a5 a6) := by
  unfold winDrop
  extract_lets -merge -underBinder +onlyGivenNames x1 x2 x3
  have hx1 : OnlyChanges [.funcs, .errLog, .errSeq, .fresh, .out] s x1 := by
    unfold x1
    refine OnlyChanges.step (updWin_frame _ _ _ _) ?_
    exact (OnlyChanges.refl _ s)
  clear_value x1
  have hx2 : OnlyChanges [.funcs, .errLog, .errSeq, .fresh, .out] s x2 := by
    unfold x2
    refine OnlyChanges.step (markFresh_frame _ _ _ _ _) ?_
    refine OnlyChanges.step (markFresh_frame _ _ _ _ _) ?_
    exact hx1
  clear_value x2
  have hx3 : OnlyChanges [.funcs, .errLog, .errSeq, .fresh, .out] s x3 := by
    unfold x3
    refine OnlyChanges.step (logErr_frame _ _ _ _ _) ?_
    exact hx2
  clear_value x3
  refine OnlyChanges.ite1 ?_ ?_
  · refine OnlyChanges.step (sendMsix_frame _ _ _) ?_
    exact hx3
  · exact hx3

theorem execPeerWindowWrite_frame a1 a2 a3 a4 a5 a6 (s : State) : OnlyChangesQ [.ports, .funcs, .cache, .errLog, .errSeq, .fresh, .out] s (execPeerWindowWrite a1 a2 a3 a4 a5 a6 s) := by
  unfold execPeerWindowWrite
  refine OnlyChangesQ.next ?_
  split
  · exact (OnlyChanges.refl _ s)
  · extract_lets -merge -underBinder +onlyGivenNames x1 x2 x3
    have hx1 : OnlyChanges [.ports, .funcs, .cache, .errLog, .errSeq, .fresh, .out] s x1 := by
      unfold x1
      refine OnlyChanges.ite1 ?_ ?_
      · refine OnlyChanges.step (poisonIn_frame _ _) ?_
        exact (OnlyChanges.refl _ s)
      · exact (OnlyChanges.refl _ s)
    clear_value x1
    clear_value x2
    clear_value x3
    refine OnlyChanges.ite1 ?_ ?_
    · exact (OnlyChanges.refl _ s)
    · refine OnlyChanges.ite1 ?_ ?_
      · refine OnlyChanges.step (winAccept_frame _ _ _ _ _ _ _) ?_
        exact hx1
      · refine OnlyChanges.step (winDrop_frame _ _ _ _ _ _) ?_
        exact hx1

theorem winFrames_frame a1 (s : State) : OnlyChangesOP [.cache, .freeCtr] s (winFrames a1 s) := by
  unfold winFrames
  refine OnlyChanges.ite5 ?_ ?_
  · refine OnlyChangesOP.step (allocFrames_frame _ _ _ _) ?_
    exact (OnlyChanges.refl _ s)
  · exact OnlyChangesOP.none

theorem winCommit_frame (s : State) a2 a3 : OnlyChanges [.funcs, .ctxs, .cache, .out, .freeCtr, .seqCtr] s (winCommit s a2 a3) := by
  unfold winCommit
  split
  · exact (OnlyChanges.refl _ s)
  · extract_lets -merge -underBinder +onlyGivenNames x1 x2
    clear_value x1
    clear_value x2
    refine OnlyChanges.ite1 ?_ ?_
    · refine OnlyChanges.step (commitDone_frame _ _) ?_
      refine OnlyChanges.step (wakeFrameWaiters_frame _) ?_
      refine OnlyChanges.step (unpinAll_frame _ _) ?_
      refine OnlyChanges.step (updWin_frame _ _ _ _) ?_
      exact (OnlyChanges.refl _ s)
    · refine OnlyChanges.ite1 ?_ ?_
      · refine OnlyChanges.step (commitDone_frame _ _) ?_
        refine OnlyChanges.step (updWin_frame _ _ _ _) ?_
        exact (OnlyChanges.refl _ s)
      · split
        · refine OnlyChanges.step (updWin_frame _ _ _ _) ?_
          exact (OnlyChanges.refl _ s)
        · rename_i x4 x5 x6
          have hx5 : OnlyChanges [.funcs, .ctxs, .cache, .out, .freeCtr, .seqCtr] s x5 := by
            refine OnlyChangesOP.of_eq x6 ?_
            refine OnlyChangesOP.step (winFrames_frame _ _) ?_
            exact (OnlyChanges.refl _ s)
          extract_lets -merge -underBinder +onlyGivenNames x7
          have hx7 : OnlyChanges [.funcs, .ctxs, .cache, .out, .freeCtr, .seqCtr] s x7 := by
            unfold x7
            refine OnlyChanges.step (updWin_frame _ _ _ _) ?_
            exact hx5
          clear_value x7
          refine OnlyChanges.step (commitDone_frame _ _) ?_
          refine OnlyChanges.step (wakeFrameWaiters_frame _) ?_
          refine OnlyChanges.step (unpinAll_frame _ _) ?_
          exact hx7

theorem execWinCommit_frame a1 a2 (s : State) : OnlyChangesQ [.funcs, .ctxs, .cache, .out, .freeCtr, .seqCtr] s (execWinCommit a1 a2 s) := by
  unfold execWinCommit
  refine OnlyChangesQ.next ?_
  refine OnlyChanges.ite1 ?_ ?_
  · refine OnlyChanges.step (winCommit_frame _ _ _) ?_
    exact (OnlyChanges.refl _ s)
  · exact (OnlyChanges.refl _ s)

theorem execWinCommitResume_frame a1 a2 (s : State) : OnlyChangesQ [.funcs, .ctxs, .cache, .out, .freeCtr, .seqCtr] s (execWinCommitResume a1 a2 s) := by
  unfold execWinCommitResume
  refine OnlyChangesQ.next ?_
  split
  · refine OnlyChanges.ite1 ?_ ?_
    · refine OnlyChanges.step (winCommit_frame _ _ _) ?_
      exact (OnlyChanges.refl _ s)
    · exact (OnlyChanges.refl _ s)
  · exact (OnlyChanges.refl _ s)

end Sys2Proof.Machine
end

