-- ==== Sys2Proof/Laws/FramesCompletion.lean ====
section
/-! SUPPORT. Which parts of the state each function of Machine/Completion.lean can change. -/

set_option Elab.async false

namespace Sys2Proof.Machine

theorem accrue_frame (s : State) a2 : OnlyChanges [.pwr, .tt, .adm, .funcs, .ctxs, .groups, .vols, .mports, .mbx] s (accrue s a2) := by
  unfold accrue
  extract_lets -merge -underBinder +onlyGivenNames x1
  have hx1 : OnlyChanges [.pwr, .tt, .adm, .funcs, .ctxs, .groups, .vols, .mports, .mbx] s x1 := by
    unfold x1
    refine OnlyChanges.step (State.mapAdmin_frame _ _) ?_
    exact (OnlyChanges.refl _ s)
  clear_value x1
  exact OnlyChanges.of hx1 (by intro p hp; cases p <;> first | exact absurd (by decide) hp | exact rfl)

theorem dropVolFrames_frame (s : State) a2 : OnlyChanges [.cache] s (dropVolFrames s a2) := by
  unfold dropVolFrames
  extract_lets -merge -underBinder +onlyGivenNames x1
  refine OnlyChanges.step (updCache_frame _ _) ?_
  exact (OnlyChanges.refl _ s)

theorem sendTlps_frame (s : State) a2 a3 a4 : OnlyChanges [.out] s (sendTlps s a2 a3 a4) := by
  unfold sendTlps
  split
  · extract_lets -merge -underBinder +onlyGivenNames x1
    clear_value x1
    refine OnlyChanges.step (emitAll_frame _ _) ?_
    exact (OnlyChanges.refl _ s)
  · exact (OnlyChanges.refl _ s)

theorem endIssue_frame (s : State) a2 a3 a4 : OnlyChanges [.funcs, .out] s (endIssue s a2 a3 a4) := by
  unfold endIssue
  split
  · exact (OnlyChanges.refl _ s)
  · refine OnlyChanges.ite1 ?_ ?_
    · exact (OnlyChanges.refl _ s)
    · refine OnlyChanges.step (shadowWrite_frame _ _ _ _) ?_
      refine OnlyChanges.step (sendTlps_frame _ _ _ _) ?_
      exact (OnlyChanges.refl _ s)

theorem fareCount_frame (s : State) a2 : OnlyChanges [.vols] s (fareCount s a2) := by
  unfold fareCount
  split
  · exact (OnlyChanges.refl _ s)
  · refine OnlyChanges.ite1 ?_ ?_
    · exact (OnlyChanges.refl _ s)
    · refine OnlyChanges.step (updVol_frame _ _ _) ?_
      exact (OnlyChanges.refl _ s)

theorem freeCtx_frame (s : State) a2 : OnlyChanges [.funcs, .ctxs, .cache, .rb, .seqCtr] s (freeCtx s a2) := by
  unfold freeCtx
  split
  · split
    · extract_lets -merge -underBinder +onlyGivenNames x1
      have hx1 : OnlyChanges [.funcs, .ctxs, .cache, .rb, .seqCtr] s x1 := by
        unfold x1
        refine OnlyChanges.step (wakeFrameWaiters_frame _) ?_
        refine OnlyChanges.step (releaseAll_frame _ _) ?_
        exact (OnlyChanges.refl _ s)
      clear_value x1
      refine OnlyChanges.ite1 ?_ ?_
      · refine OnlyChanges.step (flrSettle_frame _ _) ?_
        exact OnlyChanges.of hx1 (by intro p hp; cases p <;> first | exact absurd (by decide) hp | exact rfl)
      · exact (OnlyChanges.refl _ s)
    · exact (OnlyChanges.refl _ s)
  · exact (OnlyChanges.refl _ s)

theorem releaseData_frame (s : State) a2 a3 : OnlyChanges [.funcs] s (releaseData s a2 a3) := by
  unfold releaseData
  extract_lets -merge -underBinder +onlyGivenNames x1
  have hx1 : OnlyChanges [.funcs] s x1 := by
    unfold x1
    split
    · refine OnlyChanges.step (updSq_frame _ _ _ _) ?_
      exact (OnlyChanges.refl _ s)
    · exact (OnlyChanges.refl _ s)
  clear_value x1
  split
  · refine OnlyChanges.step (updWin_frame _ _ _ _) ?_
    exact hx1
  · exact hx1

theorem takeMark_frame (s : State) a2 a3 : OnlyChangesP [.vols] s (takeMark s a2 a3) := by
  unfold takeMark
  split
  · refine OnlyChangesP.mk ?_
    refine OnlyChanges.step (updVol_frame _ _ _) ?_
    exact (OnlyChanges.refl _ s)
  · refine OnlyChangesP.mk ?_
    exact (OnlyChanges.refl _ s)

theorem finishDelete_frame (s : State) a2 a3 : OnlyChanges [.funcs, .cache, .groups, .vols, .freedVols, .fare, .rb, .out, .seqCtr] s (finishDelete s a2 a3) := by
  unfold finishDelete
  extract_lets -merge -underBinder +onlyGivenNames x1 x2 x3 x4 x5 x6
  have hx1 : OnlyChanges [.funcs, .cache, .groups, .vols, .freedVols, .fare, .rb, .out, .seqCtr] s x1 := by
    unfold x1
    refine OnlyChanges.step (dropVolFrames_frame _ _) ?_
    exact (OnlyChanges.refl _ s)
  clear_value x1
  clear_value x2
  clear_value x3
  have hx4 : OnlyChanges [.funcs, .cache, .groups, .vols, .freedVols, .fare, .rb, .out, .seqCtr] s x4 := by
    unfold x4
    exact OnlyChanges.of hx1 (by intro p hp; cases p <;> first | exact absurd (by decide) hp | exact rfl)
  clear_value x4
  clear_value x5
  have hx6 : OnlyChanges [.funcs, .cache, .groups, .vols, .freedVols, .fare, .rb, .out, .seqCtr] s x6 := by
    unfold x6
    refine OnlyChanges.step (updGroup_frame _ _ _) ?_
    refine OnlyChanges.step (rbChange_frame _) ?_
    exact hx4
  clear_value x6
  split
  · refine OnlyChanges.step (adminDone_frame _ _ _ _) ?_
    exact hx6
  · exact hx6

theorem volSettle_frame (s : State) a2 : OnlyChanges [.funcs, .cache, .groups, .vols, .freedVols, .fare, .rb, .out, .seqCtr] s (volSettle s a2) := by
  unfold volSettle
  split
  · exact (OnlyChanges.refl _ s)
  · extract_lets -merge -underBinder +onlyGivenNames x1 x2 x3
    clear_value x1
    have hx2 : OnlyChanges [.funcs, .cache, .groups, .vols, .freedVols, .fare, .rb, .out, .seqCtr] s x2 := by
      unfold x2
      refine OnlyChanges.step (updVol_frame _ _ _) ?_
      exact (OnlyChanges.refl _ s)
    clear_value x2
    have hx3 : OnlyChanges [.funcs, .cache, .groups, .vols, .freedVols, .fare, .rb, .out, .seqCtr] s x3 := by
      unfold x3
      refine OnlyChanges.foldl (fun x4 x5 hx4 => ?_) ?_
      · refine OnlyChanges.step (adminDone_frame _ _ _ _) ?_
        exact hx4
      · exact hx2
    clear_value x3
    refine OnlyChanges.ite1 ?_ ?_
    · refine OnlyChanges.step (finishDelete_frame _ _ _) ?_
      exact hx3
    · exact hx3

theorem issueEntry_frame (s : State) a2 a3 a4 a5 : OnlyChanges [.funcs, .ctxs, .cache, .groups, .vols, .freedVols, .fare, .rb, .out, .freeCtr, .seqCtr] s (issueEntry s a2 a3 a4 a5) := by
  unfold issueEntry
  extract_lets -merge -underBinder +onlyGivenNames x1
  clear_value x1
  split
  · rename_i x2 x3 x4
    have hx3 : OnlyChanges [.funcs, .ctxs, .cache, .groups, .vols, .freedVols, .fare, .rb, .out, .freeCtr, .seqCtr] s x3 := by
      refine OnlyChangesP.of_eq x4 ?_
      refine OnlyChangesP.step (takeMark_frame _ _ _) ?_
      exact (OnlyChanges.refl _ s)
    split
    · rename_i x5 x6 x7
      have hx6 : OnlyChanges [.funcs, .ctxs, .cache, .groups, .vols, .freedVols, .fare, .rb, .out, .freeCtr, .seqCtr] s x6 := by
        refine OnlyChangesP.of_eq x7 ?_
        refine OnlyChangesP.step (drawFree_frame _) ?_
        exact hx3
      extract_lets -merge -underBinder +onlyGivenNames x8 x9 x10 x11 x12 x13
      clear_value x8
      have hx9 : OnlyChanges [.funcs, .ctxs, .cache, .groups, .vols, .freedVols, .fare, .rb, .out, .freeCtr, .seqCtr] s x9 := by
        unfold x9
        refine OnlyChanges.step (emit_frame _ _) ?_
        exact hx6
      clear_value x9
      have hx10 : OnlyChanges [.funcs, .ctxs, .cache, .groups, .vols, .freedVols, .fare, .rb, .out, .freeCtr, .seqCtr] s x10 := by
        unfold x10
        refine OnlyChanges.step (updCq_frame _ _ _ _) ?_
        exact hx9
      clear_value x10
      clear_value x11
      have hx12 : OnlyChanges [.funcs, .ctxs, .cache, .groups, .vols, .freedVols, .fare, .rb, .out, .freeCtr, .seqCtr] s x12 := by
        unfold x12
        refine OnlyChanges.ite1 ?_ ?_
        · refine OnlyChanges.step (updSq_frame _ _ _ _) ?_
          exact hx10
        · exact hx10
      clear_value x12
      have hx13 : OnlyChanges [.funcs, .ctxs, .cache, .groups, .vols, .freedVols, .fare, .rb, .out, .freeCtr, .seqCtr] s x13 := by
        unfold x13
        refine OnlyChanges.step (freeCtx_frame _ _) ?_
        refine OnlyChanges.step (fareCount_frame _ _) ?_
        refine OnlyChanges.step (releaseData_frame _ _ _) ?_
        exact hx12
      clear_value x13
      split
      · refine OnlyChanges.step (volSettle_frame _ _) ?_
        exact hx13
      · exact hx13

theorem signalFn_frame (s : State) a2 : OnlyChanges [.ports, .funcs, .fresh, .out] s (signalFn s a2) := by
  unfold signalFn
  split
  · exact (OnlyChanges.refl _ s)
  · extract_lets -merge -underBinder +onlyGivenNames x1 x2 x3 x4
    clear_value x1
    have hx2 : OnlyChanges [.ports, .funcs, .fresh, .out] s x2 := by
      unfold x2
      refine OnlyChanges.step (updFunc_frame _ _ _) ?_
      exact (OnlyChanges.refl _ s)
    clear_value x2
    clear_value x3
    have hx4 : OnlyChanges [.ports, .funcs, .fresh, .out] s x4 := by
      unfold x4
      refine OnlyChanges.step (updFunc_frame _ _ _) ?_
      exact hx2
    clear_value x4
    refine OnlyChanges.ite1 ?_ ?_
    · exact (OnlyChanges.refl _ s)
    · refine OnlyChanges.ite1 ?_ ?_
      · refine OnlyChanges.foldl (fun x5 x6 hx5 => ?_) ?_
        · refine OnlyChanges.step (sendMsix_frame _ _ _) ?_
          exact hx5
        · exact hx2
      · refine OnlyChanges.ite1 ?_ ?_
        · refine OnlyChanges.step (updateIntx_frame _ _) ?_
          refine OnlyChanges.foldl (fun x7 x8 hx7 => ?_) ?_
          · refine OnlyChanges.step (markFresh_frame _ _ _ _ _) ?_
            exact hx7
          · exact hx4
        · exact hx2

theorem issueOrdered_frame a1 a2 (s : State) : OnlyChanges [.funcs, .ctxs, .cache, .groups, .vols, .freedVols, .fare, .rb, .out, .freeCtr, .seqCtr] s (issueOrdered a1 a2 s) := by
  induction a2 generalizing s with
  | zero => exact OnlyChanges.refl _ s
  | succ n ih =>
    unfold issueOrdered
    split
    · exact OnlyChanges.step (ih _) (OnlyChanges.step (issueEntry_frame _ _ _ _ _) (OnlyChanges.refl _ s))
    · exact OnlyChanges.refl _ s

theorem parkRing_frame (s : State) a2 a3 : OnlyChanges [.funcs] s (parkRing s a2 a3) := by
  unfold parkRing
  split
  · exact (OnlyChanges.refl _ s)
  · extract_lets -merge -underBinder +onlyGivenNames x1 x2
    clear_value x1
    have hx2 : OnlyChanges [.funcs] s x2 := by
      unfold x2
      refine OnlyChanges.step (updCq_frame _ _ _ _) ?_
      exact (OnlyChanges.refl _ s)
    clear_value x2
    refine OnlyChanges.ite1 ?_ ?_
    · exact (OnlyChanges.refl _ s)
    · refine OnlyChanges.foldl (fun x3 x4 hx3 => ?_) ?_
      · refine OnlyChanges.step (updSq_frame _ _ _ _) ?_
        exact hx3
      · exact hx2

theorem issueFn_frame (s : State) a2 : OnlyChanges [.funcs, .ctxs, .cache, .groups, .vols, .freedVols, .fare, .rb, .out, .freeCtr, .seqCtr] s (issueFn s a2) := by
  unfold issueFn
  split
  · exact (OnlyChanges.refl _ s)
  · extract_lets -merge -underBinder +onlyGivenNames x1
    have hx1 : OnlyChanges [.funcs, .ctxs, .cache, .groups, .vols, .freedVols, .fare, .rb, .out, .freeCtr, .seqCtr] s x1 := by
      unfold x1
      refine OnlyChanges.step (issueOrdered_frame _ _ _) ?_
      exact (OnlyChanges.refl _ s)
    clear_value x1
    refine OnlyChanges.ite1 ?_ ?_
    · exact (OnlyChanges.refl _ s)
    · refine OnlyChanges.foldl (fun x2 x3 hx2 => ?_) ?_
      · refine OnlyChanges.step (parkRing_frame _ _ _) ?_
        refine OnlyChanges.step (endIssue_frame _ _ _ _) ?_
        exact hx2
      · exact hx1

theorem signalAll_frame (s : State) : OnlyChanges [.ports, .funcs, .fresh, .out] s (signalAll s) := by
  unfold signalAll
  extract_lets -merge -underBinder +onlyGivenNames x1
  have hx1 : OnlyChanges [.ports, .funcs, .fresh, .out] s x1 := by
    unfold x1
    refine OnlyChanges.foldl (fun x2 x3 hx2 => ?_) ?_
    · refine OnlyChanges.step (signalFn_frame _ _) ?_
      exact hx2
    · exact (OnlyChanges.refl _ s)
  clear_value x1
  exact OnlyChanges.of hx1 (by intro p hp; cases p <;> first | exact absurd (by decide) hp | exact rfl)

theorem issueLoop_frame a1 a2 a3 (s : State) : OnlyChanges [.funcs, .ctxs, .cache, .groups, .vols, .freedVols, .fare, .rb, .out, .freeCtr, .seqCtr] s (issueLoop a1 a2 a3 s) := by
  induction a3 generalizing s with
  | zero => exact OnlyChanges.refl _ s
  | succ n ih =>
    unfold issueLoop
    split
    · exact OnlyChanges.refl _ s
    · split
      · refine OnlyChanges.ite1 (OnlyChanges.step (ih _) ?_) (OnlyChanges.refl _ s)
        exact OnlyChanges.step (issueEntry_frame _ _ _ _ _) (OnlyChanges.refl _ s)
      · exact OnlyChanges.refl _ s

theorem issueRing_frame (s : State) a2 a3 : OnlyChanges [.funcs, .ctxs, .cache, .groups, .vols, .freedVols, .fare, .rb, .out, .freeCtr, .seqCtr] s (issueRing s a2 a3) := by
  unfold issueRing
  split
  · exact (OnlyChanges.refl _ s)
  · refine OnlyChanges.ite1 ?_ ?_
    · exact (OnlyChanges.refl _ s)
    · split
      · exact (OnlyChanges.refl _ s)
      · refine OnlyChanges.step (parkRing_frame _ _ _) ?_
        refine OnlyChanges.step (endIssue_frame _ _ _ _) ?_
        refine OnlyChanges.step (issueLoop_frame _ _ _ _) ?_
        exact (OnlyChanges.refl _ s)

theorem execInterruptDelayDue_frame a1 a2 (s : State) : OnlyChangesQ [.ports, .funcs, .fresh, .out] s (execInterruptDelayDue a1 a2 s) := by
  unfold execInterruptDelayDue
  refine OnlyChangesQ.next ?_
  split
  · refine OnlyChanges.ite1 ?_ ?_
    · refine OnlyChanges.step (signalFn_frame _ _) ?_
      exact (OnlyChanges.refl _ s)
    · exact (OnlyChanges.refl _ s)
  · exact (OnlyChanges.refl _ s)

end Sys2Proof.Machine
end

