-- ==== Sys2Proof/Laws/FramesTimetable.lean ====
section
/-! SUPPORT. Which parts of the state each function of Machine/Timetable.lean can change. -/

set_option Elab.async false

namespace Sys2Proof.Machine

theorem updTt_frame (s : State) a2 : OnlyChanges [.tt] s (updTt s a2) := by
  unfold updTt
  exact OnlyChanges.of (OnlyChanges.refl _ s) (by intro p hp; cases p <;> first | exact absurd (by decide) hp | exact rfl)

theorem setLock_frame (s : State) a2 : OnlyChanges [.tt, .rb] s (setLock s a2) := by
  unfold setLock
  refine OnlyChanges.ite1 ?_ ?_
  · exact (OnlyChanges.refl _ s)
  · refine OnlyChanges.step (rbChange_frame _) ?_
    refine OnlyChanges.step (updTt_frame _ _) ?_
    exact (OnlyChanges.refl _ s)

theorem ttcDrive_frame (s : State) a2 : OnlyChanges [.tt, .out] s (ttcDrive s a2) := by
  unfold ttcDrive
  refine OnlyChanges.ite1 ?_ ?_
  · exact (OnlyChanges.refl _ s)
  · refine OnlyChanges.step (emit_frame _ _) ?_
    refine OnlyChanges.step (updTt_frame _ _) ?_
    exact (OnlyChanges.refl _ s)

theorem ttcSettle_frame (s : State) : OnlyChanges [.tt, .out] s (ttcSettle s) := by
  unfold ttcSettle
  refine OnlyChanges.ite1 ?_ ?_
  · exact (OnlyChanges.refl _ s)
  · refine OnlyChanges.step (ttcDrive_frame _ _) ?_
    exact (OnlyChanges.refl _ s)

theorem ttcPulse_frame (s : State) : OnlyChanges [.tt, .out] s (ttcPulse s) := by
  unfold ttcPulse
  extract_lets -merge -underBinder +onlyGivenNames x1
  have hx1 : OnlyChanges [.tt, .out] s x1 := by
    unfold x1
    refine OnlyChanges.step (ttcDrive_frame _ _) ?_
    exact (OnlyChanges.refl _ s)
  clear_value x1
  refine OnlyChanges.ite1 ?_ ?_
  · refine OnlyChanges.step (ttcDrive_frame _ _) ?_
    exact hx1
  · exact hx1

theorem setRefEn_frame (s : State) a2 : OnlyChanges [.tt, .rb] s (setRefEn s a2) := by
  unfold setRefEn
  extract_lets -merge -underBinder +onlyGivenNames x1
  have hx1 : OnlyChanges [.tt, .rb] s x1 := by
    unfold x1
    refine OnlyChanges.step (updTt_frame _ _) ?_
    exact (OnlyChanges.refl _ s)
  clear_value x1
  refine OnlyChanges.ite1 ?_ ?_
  · exact hx1
  · refine OnlyChanges.step (setLock_frame _ _) ?_
    refine OnlyChanges.step (updTt_frame _ _) ?_
    exact hx1

theorem execTtAcquireLapse_frame (s : State) : OnlyChangesQ [.tt, .rb] s (execTtAcquireLapse s) := by
  unfold execTtAcquireLapse
  refine OnlyChangesQ.next ?_
  refine OnlyChanges.ite1 ?_ ?_
  · refine OnlyChanges.step (setLock_frame _ _) ?_
    refine OnlyChanges.step (updTt_frame _ _) ?_
    exact (OnlyChanges.refl _ s)
  · exact (OnlyChanges.refl _ s)

theorem execTtActiveBankWrite_frame a1 a2 (s : State) : OnlyChangesQ [.errLog, .errSeq] s (execTtActiveBankWrite a1 a2 s) := by
  unfold execTtActiveBankWrite
  refine OnlyChangesQ.next ?_
  refine OnlyChanges.ite1 ?_ ?_
  · refine OnlyChanges.step (logErr_frame _ _ _ _ _) ?_
    exact (OnlyChanges.refl _ s)
  · exact (OnlyChanges.refl _ s)

theorem execTtLoadArm_frame (s : State) : OnlyChangesQ [.tt] s (execTtLoadArm s) := by
  unfold execTtLoadArm
  refine OnlyChangesQ.next ?_
  refine OnlyChanges.step (updTt_frame _ _) ?_
  exact (OnlyChanges.refl _ s)

theorem execTtMissingEdge_frame (s : State) : OnlyChangesQ [.tt, .rb, .fresh] s (execTtMissingEdge s) := by
  unfold execTtMissingEdge
  extract_lets -merge -underBinder +onlyGivenNames x1
  have hx1 : OnlyChanges [.tt, .rb, .fresh] s x1 := by
    unfold x1
    refine OnlyChanges.step (markFresh_frame _ _ _ _ _) ?_
    refine OnlyChanges.step (updTt_frame _ _) ?_
    exact (OnlyChanges.refl _ s)
  clear_value x1
  refine OnlyChangesQ.next ?_
  refine OnlyChanges.ite1 ?_ ?_
  · refine OnlyChanges.ite1 ?_ ?_
    · exact hx1
    · refine OnlyChanges.step (setLock_frame _ _) ?_
      refine OnlyChanges.step (updTt_frame _ _) ?_
      exact hx1
  · exact (OnlyChanges.refl _ s)

theorem execTtNowRead_frame a1 a2 (s : State) : OnlyChangesQ [.tt, .out] s (execTtNowRead a1 a2 s) := by
  unfold execTtNowRead
  extract_lets -merge -underBinder +onlyGivenNames x1 x2
  clear_value x1
  have hx2 : OnlyChanges [.tt, .out] s x2 := by
    unfold x2
    split
    · refine OnlyChanges.step (updTt_frame _ _) ?_
      exact (OnlyChanges.refl _ s)
    · exact (OnlyChanges.refl _ s)
  clear_value x2
  refine OnlyChangesQ.next ?_
  refine OnlyChanges.step (emit_frame _ _) ?_
  exact hx2

theorem planCommit_frame (s : State) : OnlyChanges [.tt, .fresh] s (planCommit s) := by
  unfold planCommit
  split
  · refine OnlyChanges.step (markFresh_frame _ _ _ _ _) ?_
    refine OnlyChanges.step (updTt_frame _ _) ?_
    exact (OnlyChanges.refl _ s)
  · refine OnlyChanges.step (updTt_frame _ _) ?_
    exact (OnlyChanges.refl _ s)

theorem execTtPlanCommit_frame (s : State) : OnlyChangesQ [.tt, .fresh] s (execTtPlanCommit s) := by
  unfold execTtPlanCommit
  refine OnlyChangesQ.next ?_
  refine OnlyChanges.step (planCommit_frame _) ?_
  exact (OnlyChanges.refl _ s)

theorem execTtPlanEnWrite_frame a1 (s : State) : OnlyChangesQ [.tt] s (execTtPlanEnWrite a1 s) := by
  unfold execTtPlanEnWrite
  refine OnlyChangesQ.next ?_
  refine OnlyChanges.step (updTt_frame _ _) ?_
  exact (OnlyChanges.refl _ s)

theorem execTtPlanEpochWrite_frame a1 (s : State) : OnlyChangesQ [.tt] s (execTtPlanEpochWrite a1 s) := by
  unfold execTtPlanEpochWrite
  refine OnlyChangesQ.next ?_
  refine OnlyChanges.step (updTt_frame _ _) ?_
  exact (OnlyChanges.refl _ s)

theorem execTtRefEnWrite_frame a1 (s : State) : OnlyChangesQ [.tt, .rb] s (execTtRefEnWrite a1 s) := by
  unfold execTtRefEnWrite
  refine OnlyChangesQ.next ?_
  refine OnlyChanges.step (setRefEn_frame _ _) ?_
  exact (OnlyChanges.refl _ s)

theorem execTtSwitchArm_frame (s : State) : OnlyChangesQ [.tt] s (execTtSwitchArm s) := by
  unfold execTtSwitchArm
  refine OnlyChangesQ.next ?_
  refine OnlyChanges.step (updTt_frame _ _) ?_
  exact (OnlyChanges.refl _ s)

theorem ttLock_frame (s : State) a2 a3 : OnlyChanges [.tt, .rb] s (ttLock s a2 a3) := by
  unfold ttLock
  extract_lets -merge -underBinder +onlyGivenNames x1 x2
  have hx1 : OnlyChanges [.tt, .rb] s x1 := by
    unfold x1
    refine OnlyChanges.step (updTt_frame _ _) ?_
    exact (OnlyChanges.refl _ s)
  clear_value x1
  have hx2 : OnlyChanges [.tt, .rb] s x2 := by
    unfold x2
    refine OnlyChanges.step (updTt_frame _ _) ?_
    exact hx1
  clear_value x2
  refine OnlyChanges.step (setLock_frame _ _) ?_
  exact hx2

theorem ttRestart_frame (s : State) a2 a3 : OnlyChanges [.tt] s (ttRestart s a2 a3) := by
  unfold ttRestart
  refine OnlyChanges.step (updTt_frame _ _) ?_
  exact (OnlyChanges.refl _ s)

theorem ttQualify_frame (s : State) a2 : OnlyChanges [.tt, .rb] s (ttQualify s a2) := by
  unfold ttQualify
  split
  · refine OnlyChanges.step (updTt_frame _ _) ?_
    exact (OnlyChanges.refl _ s)
  · extract_lets -merge -underBinder +onlyGivenNames x1 x2
    clear_value x1
    clear_value x2
    refine OnlyChanges.ite1 ?_ ?_
    · refine OnlyChanges.step (ttRestart_frame _ _ _) ?_
      exact (OnlyChanges.refl _ s)
    · refine OnlyChanges.ite1 ?_ ?_
      · refine OnlyChanges.step (ttRestart_frame _ _ _) ?_
        exact (OnlyChanges.refl _ s)
      · refine OnlyChanges.ite1 ?_ ?_
        · refine OnlyChanges.step (updTt_frame _ _) ?_
          exact (OnlyChanges.refl _ s)
        · refine OnlyChanges.step (ttLock_frame _ _ _) ?_
          exact (OnlyChanges.refl _ s)

theorem ttTrack_frame (s : State) a2 : OnlyChanges [.tt, .fresh] s (ttTrack s a2) := by
  unfold ttTrack
  extract_lets -merge -underBinder +onlyGivenNames x1
  clear_value x1
  split
  · exact (OnlyChanges.refl _ s)
  · extract_lets -merge -underBinder +onlyGivenNames x2 x3 x4 x5
    clear_value x2
    clear_value x3
    clear_value x4
    have hx5 : OnlyChanges [.tt, .fresh] s x5 := by
      unfold x5
      refine OnlyChanges.step (updTt_frame _ _) ?_
      exact (OnlyChanges.refl _ s)
    clear_value x5
    refine OnlyChanges.ite1 ?_ ?_
    · refine OnlyChanges.step (updTt_frame _ _) ?_
      exact hx5
    · refine OnlyChanges.step (markFresh_frame _ _ _ _ _) ?_
      refine OnlyChanges.step (updTt_frame _ _) ?_
      exact (OnlyChanges.refl _ s)

theorem ttcEdge_frame (s : State) a2 a3 : OnlyChanges [.tt, .rb, .fresh] s (ttcEdge s a2 a3) := by
  unfold ttcEdge
  extract_lets -merge -underBinder +onlyGivenNames x1
  clear_value x1
  refine OnlyChanges.ite1 ?_ ?_
  · exact (OnlyChanges.refl _ s)
  · split
    · refine OnlyChanges.step (setLock_frame _ _) ?_
      refine OnlyChanges.step (updTt_frame _ _) ?_
      exact (OnlyChanges.refl _ s)
    · refine OnlyChanges.step (setLock_frame _ _) ?_
      refine OnlyChanges.step (updTt_frame _ _) ?_
      exact (OnlyChanges.refl _ s)
    · refine OnlyChanges.step (ttQualify_frame _ _) ?_
      exact (OnlyChanges.refl _ s)
    · refine OnlyChanges.step (ttTrack_frame _ _) ?_
      exact (OnlyChanges.refl _ s)

theorem execTtcInEdge_frame a1 a2 (s : State) : OnlyChangesQ [.tt, .rb, .fresh] s (execTtcInEdge a1 a2 s) := by
  unfold execTtcInEdge
  refine OnlyChangesQ.next ?_
  refine OnlyChanges.step (ttcEdge_frame _ _ _) ?_
  exact (OnlyChanges.refl _ s)

end Sys2Proof.Machine
end

