-- ==== Sys2Proof/Laws/FramesLadder.lean ====
section
/-! SUPPORT. Which parts of the state each function of Machine/Ladder.lean can change. -/

set_option Elab.async false

namespace Sys2Proof.Machine

theorem updPush_frame (s : State) a2 : OnlyChanges [.funcs] s (updPush s a2) := by
  unfold updPush
  exact OnlyChanges.of (OnlyChanges.refl _ s) (by intro p hp; cases p <;> first | exact absurd (by decide) hp | exact rfl)

theorem restorePush_frame (s : State) : OnlyChanges [.funcs] s (restorePush s) := by
  unfold restorePush
  refine OnlyChanges.step (updPush_frame _ _) ?_
  exact (OnlyChanges.refl _ s)

theorem sendLtr_frame (s : State) a2 : OnlyChanges [.out] s (sendLtr s a2) := by
  unfold sendLtr
  refine OnlyChanges.foldl (fun x1 x2 hx1 => ?_) ?_
  · split
    · refine OnlyChanges.ite1 ?_ ?_
      · refine OnlyChanges.step (emit_frame _ _) ?_
        exact hx1
      · exact hx1
    · exact hx1
  · exact (OnlyChanges.refl _ s)

theorem updPwr_frame (s : State) a2 : OnlyChanges [.pwr] s (updPwr s a2) := by
  unfold updPwr
  exact OnlyChanges.of (OnlyChanges.refl _ s) (by intro p hp; cases p <;> first | exact absurd (by decide) hp | exact rfl)

theorem abandonEntry_frame (s : State) a2 : OnlyChanges [.pwr, .funcs, .errLog, .errSeq, .fresh, .out] s (abandonEntry s a2) := by
  unfold abandonEntry
  split
  · exact (OnlyChanges.refl _ s)
  · extract_lets -merge -underBinder +onlyGivenNames x1 x2
    have hx1 : OnlyChanges [.pwr, .funcs, .errLog, .errSeq, .fresh, .out] s x1 := by
      unfold x1
      refine OnlyChanges.step (markFresh_frame _ _ _ _ _) ?_
      refine OnlyChanges.step (updPwr_frame _ _) ?_
      exact (OnlyChanges.refl _ s)
    clear_value x1
    have hx2 : OnlyChanges [.pwr, .funcs, .errLog, .errSeq, .fresh, .out] s x2 := by
      unfold x2
      refine OnlyChanges.step (logErr_frame _ _ _ _ _) ?_
      refine OnlyChanges.step (restorePush_frame _) ?_
      exact hx1
    clear_value x2
    refine OnlyChanges.ite1 ?_ ?_
    · refine OnlyChanges.step (sendLtr_frame _ _) ?_
      exact hx2
    · exact hx2

theorem startExit_frame (s : State) : OnlyChanges [.pwr] s (startExit s) := by
  unfold startExit
  extract_lets -merge -underBinder +onlyGivenNames x1
  clear_value x1
  refine OnlyChanges.ite1 ?_ ?_
  · exact (OnlyChanges.refl _ s)
  · refine OnlyChanges.step (updPwr_frame _ _) ?_
    exact (OnlyChanges.refl _ s)

theorem commandArrives_frame (s : State) a2 : OnlyChanges [.pwr, .funcs, .errLog, .errSeq, .fresh, .out] s (commandArrives s a2) := by
  unfold commandArrives
  extract_lets -merge -underBinder +onlyGivenNames x1
  have hx1 : OnlyChanges [.pwr, .funcs, .errLog, .errSeq, .fresh, .out] s x1 := by
    unfold x1
    refine OnlyChanges.step (abandonEntry_frame _ _) ?_
    exact (OnlyChanges.refl _ s)
  clear_value x1
  refine OnlyChanges.ite1 ?_ ?_
  · refine OnlyChanges.step (startExit_frame _) ?_
    exact hx1
  · exact hx1

theorem noteBusy_frame (s : State) : OnlyChanges [.pwr] s (noteBusy s) := by
  unfold noteBusy
  refine OnlyChanges.step (updPwr_frame _ _) ?_
  exact (OnlyChanges.refl _ s)

theorem cleanHeaders_frame (s : State) : OnlyChanges [.adm, .groups, .out] s (cleanHeaders s) := by
  unfold cleanHeaders
  refine OnlyChanges.foldl (fun x1 x2 hx1 => ?_) ?_
  · refine OnlyChanges.step (writeHeader_frame _ _ _) ?_
    refine OnlyChanges.step (flushEcho_frame _ _) ?_
    exact hx1
  · exact (OnlyChanges.refl _ s)

theorem dropFrames_frame (s : State) : OnlyChanges [.cache, .freeCtr] s (dropFrames s) := by
  unfold dropFrames
  extract_lets -merge -underBinder +onlyGivenNames x1
  clear_value x1
  exact OnlyChanges.of (OnlyChanges.refl _ s) (by intro p hp; cases p <;> first | exact absurd (by decide) hp | exact rfl)

theorem membersDown_frame (s : State) a2 : OnlyChanges [.mports, .out] s (membersDown s a2) := by
  unfold membersDown
  extract_lets -merge -underBinder +onlyGivenNames x1
  clear_value x1
  refine OnlyChanges.foldl (fun x2 x3 hx2 => ?_) ?_
  · extract_lets -merge -underBinder +onlyGivenNames x4
    have hx4 : OnlyChanges [.mports, .out] s x4 := by
      unfold x4
      refine OnlyChanges.step (updMport_frame _ _ _) ?_
      exact hx2
    clear_value x4
    refine OnlyChanges.ite1 ?_ ?_
    · refine OnlyChanges.step (emit_frame _ _) ?_
      exact hx4
    · exact hx4
  · exact (OnlyChanges.refl _ s)

theorem layUp_frame (s : State) a2 : OnlyChanges [.pwr, .tt, .adm, .cache, .locks, .groups, .mports, .xlate, .out, .freeCtr] s (layUp s a2) := by
  unfold layUp
  extract_lets -merge -underBinder +onlyGivenNames x1 x2 x3 x4
  have hx1 : OnlyChanges [.pwr, .tt, .adm, .cache, .locks, .groups, .mports, .xlate, .out, .freeCtr] s x1 := by
    unfold x1
    refine OnlyChanges.step (emit_frame _ _) ?_
    refine OnlyChanges.step (dropFrames_frame _) ?_
    refine OnlyChanges.step (cleanHeaders_frame _) ?_
    exact (OnlyChanges.refl _ s)
  clear_value x1
  clear_value x2
  have hx3 : OnlyChanges [.pwr, .tt, .adm, .cache, .locks, .groups, .mports, .xlate, .out, .freeCtr] s x3 := by
    unfold x3
    refine OnlyChanges.ite1 ?_ ?_
    · exact OnlyChanges.of hx1 (by intro p hp; cases p <;> first | exact absurd (by decide) hp | exact rfl)
    · exact (OnlyChanges.refl _ s)
  clear_value x3
  have hx4 : OnlyChanges [.pwr, .tt, .adm, .cache, .locks, .groups, .mports, .xlate, .out, .freeCtr] s x4 := by
    unfold x4
    refine OnlyChanges.step (membersDown_frame _ _) ?_
    exact hx3
  clear_value x4
  refine OnlyChanges.step (ttcSettle_frame _) ?_
  refine OnlyChanges.step (updTt_frame _ _) ?_
  refine OnlyChanges.step (updPwr_frame _ _) ?_
  exact hx4

theorem losePush_frame (s : State) : OnlyChanges [.funcs, .freeCtr] s (losePush s) := by
  unfold losePush
  extract_lets -merge -underBinder +onlyGivenNames x1
  clear_value x1
  refine OnlyChanges.step (updPush_frame _ _) ?_
  exact OnlyChanges.of (OnlyChanges.refl _ s) (by intro p hp; cases p <;> first | exact absurd (by decide) hp | exact rfl)

theorem copyPush_frame (s : State) : OnlyChanges [.funcs] s (copyPush s) := by
  unfold copyPush
  refine OnlyChanges.step (updPush_frame _ _) ?_
  exact (OnlyChanges.refl _ s)

theorem countIdle_frame (s : State) : OnlyChanges [.pwr] s (countIdle s) := by
  unfold countIdle
  refine OnlyChanges.step (updPwr_frame _ _) ?_
  exact (OnlyChanges.refl _ s)

theorem wakeUp_frame (s : State) a2 : OnlyChanges [.pwr, .ports, .funcs, .errLog, .errSeq, .fresh, .out] s (wakeUp s a2) := by
  unfold wakeUp
  refine OnlyChanges.ite1 ?_ ?_
  · refine OnlyChanges.step (startExit_frame _) ?_
    refine OnlyChanges.step (abandonEntry_frame _ _) ?_
    refine OnlyChanges.step (updPwr_frame _ _) ?_
    exact (OnlyChanges.refl _ s)
  · refine OnlyChanges.ite1 ?_ ?_
    · refine OnlyChanges.step (raisePme_frame _) ?_
      exact (OnlyChanges.refl _ s)
    · exact (OnlyChanges.refl _ s)

theorem execRungEntryStart_frame (s : State) : OnlyChangesQ [.pwr, .funcs, .locks, .xlate, .out] s (execRungEntryStart s) := by
  unfold execRungEntryStart
  extract_lets -merge -underBinder +onlyGivenNames x1 x2 x3 x4 x5 x6
  clear_value x1
  clear_value x2
  clear_value x3
  have hx4 : OnlyChanges [.pwr, .funcs, .locks, .xlate, .out] s x4 := by
    unfold x4
    refine OnlyChanges.step (updPwr_frame _ _) ?_
    exact (OnlyChanges.refl _ s)
  clear_value x4
  have hx5 : OnlyChanges [.pwr, .funcs, .locks, .xlate, .out] s x5 := by
    unfold x5
    refine OnlyChanges.step (copyPush_frame _) ?_
    exact hx4
  clear_value x5
  clear_value x6
  refine OnlyChangesQ.next ?_
  refine OnlyChanges.ite1 ?_ ?_
  · exact (OnlyChanges.refl _ s)
  · refine OnlyChanges.ite1 ?_ ?_
    · refine OnlyChanges.step (sendLtr_frame _ _) ?_
      exact hx4
    · refine OnlyChanges.ite1 ?_ ?_
      · refine OnlyChanges.step (sendLtr_frame _ _) ?_
        exact OnlyChanges.of hx5 (by intro p hp; cases p <;> first | exact absurd (by decide) hp | exact rfl)
      · exact hx4

theorem execRungWake_frame a1 (s : State) : OnlyChangesQ [.pwr, .ports, .funcs, .errLog, .errSeq, .fresh, .out] s (execRungWake a1 s) := by
  unfold execRungWake
  refine OnlyChangesQ.next ?_
  refine OnlyChanges.ite1 ?_ ?_
  · refine OnlyChanges.step (wakeUp_frame _ _) ?_
    exact (OnlyChanges.refl _ s)
  · exact (OnlyChanges.refl _ s)

end Sys2Proof.Machine
end

