-- ==== Sys2Proof/Laws/FramesMovers.lean ====
section
/-! SUPPORT. Which parts of the state each function of Machine/Movers.lean can change. -/

set_option Elab.async false

namespace Sys2Proof.Machine

theorem emitAdmin_frame (s : State) a2 a3 : OnlyChanges [.out] s (emitAdmin s a2 a3) := by
  unfold emitAdmin
  refine OnlyChanges.step (emit_frame _ _) ?_
  exact (OnlyChanges.refl _ s)

theorem askList_frame (s : State) a2 : OnlyChanges [.reads, .nextTag, .out] s (askList s a2) := by
  unfold askList
  split
  · exact (OnlyChanges.refl _ s)
  · split
    · refine OnlyChanges.ite1 ?_ ?_
      · exact (OnlyChanges.refl _ s)
      · refine OnlyChanges.ite1 ?_ ?_
        · refine OnlyChanges.step (issueRead_frame _ _ _ _ _ _ _) ?_
          exact (OnlyChanges.refl _ s)
        · exact (OnlyChanges.refl _ s)
    · exact (OnlyChanges.refl _ s)

theorem askLists_frame a1 (s : State) : OnlyChanges [.reads, .nextTag, .out] s (askLists a1 s) := by
  unfold askLists
  refine OnlyChanges.foldl (fun x1 x2 hx1 => ?_) ?_
  · refine OnlyChanges.step (askList_frame _ _) ?_
    exact hx1
  · exact (OnlyChanges.refl _ s)

theorem atsFails_frame (s : State) a2 a3 a4 : OnlyChanges [.funcs, .ctxs, .engineFree, .cache, .locks, .journal, .groups, .vols, .mports, .movers, .progs, .errLog, .errSeq, .defLog, .defSeq, .rb, .seqCtr] s (atsFails s a2 a3 a4) := by
  unfold atsFails
  refine OnlyChanges.foldl (fun x1 x2 hx1 => ?_) ?_
  · split
    · exact hx1
    · split
      · exact hx1
      · split
        · exact hx1
        · split
          · refine OnlyChanges.ite1 ?_ ?_
            · refine OnlyChanges.step (fatalAs_frame _ _ _ _ _) ?_
              exact hx1
            · exact hx1
          · exact hx1
  · exact (OnlyChanges.refl _ s)

theorem awaitChan_frame (s : State) a2 a3 a4 a5 a6 : OnlyChanges [.ctxs, .engineFree, .seqCtr] s (awaitChan s a2 a3 a4 a5 a6) := by
  unfold awaitChan
  split
  · rename_i x1 x2 x3
    have hx2 : OnlyChanges [.ctxs, .engineFree, .seqCtr] s x2 := by
      refine OnlyChangesP.of_eq x3 ?_
      refine OnlyChangesP.step (nextSeq_frame _) ?_
      exact (OnlyChanges.refl _ s)
    refine OnlyChanges.step (updCtx_frame _ _ _) ?_
    refine OnlyChanges.step (startWait_frame _ _ _) ?_
    exact hx2

theorem updMover_frame (s : State) a2 a3 : OnlyChanges [.movers] s (updMover s a2 a3) := by
  unfold updMover
  exact OnlyChanges.of (OnlyChanges.refl _ s) (by intro p hp; cases p <;> first | exact absurd (by decide) hp | exact rfl)

theorem updChan_frame (s : State) a2 a3 a4 : OnlyChanges [.movers] s (updChan s a2 a3 a4) := by
  unfold updChan
  refine OnlyChanges.step (updMover_frame _ _ _) ?_
  exact (OnlyChanges.refl _ s)

theorem clearCause_frame (s : State) a2 a3 a4 : OnlyChanges [.movers] s (clearCause s a2 a3 a4) := by
  unfold clearCause
  refine OnlyChanges.step (updChan_frame _ _ _ _) ?_
  exact (OnlyChanges.refl _ s)

theorem clearAll_frame (s : State) a2 a3 : OnlyChanges [.movers] s (clearAll s a2 a3) := by
  unfold clearAll
  refine OnlyChanges.foldl (fun x1 x2 hx1 => ?_) ?_
  · refine OnlyChanges.ite1 ?_ ?_
    · refine OnlyChanges.step (clearCause_frame _ _ _ _) ?_
      exact hx1
    · exact hx1
  · exact (OnlyChanges.refl _ s)

theorem pauseChan_frame (s : State) a2 a3 a4 : OnlyChanges [.movers] s (pauseChan s a2 a3 a4) := by
  unfold pauseChan
  refine OnlyChanges.step (updChan_frame _ _ _ _) ?_
  exact (OnlyChanges.refl _ s)

theorem closeDescs_frame (s : State) a2 : OnlyChanges [.ctxs, .cache] s (closeDescs s a2) := by
  unfold closeDescs
  split
  · exact (OnlyChanges.refl _ s)
  · refine OnlyChanges.foldl (fun x1 x2 hx1 => ?_) ?_
    · refine OnlyChanges.step (releaseHandle_frame _ _ _) ?_
      exact hx1
    · exact (OnlyChanges.refl _ s)

theorem delChan_frame (s : State) a2 a3 : OnlyChanges [.movers] s (delChan s a2 a3) := by
  unfold delChan
  refine OnlyChanges.step (updMover_frame _ _ _) ?_
  exact (OnlyChanges.refl _ s)

theorem openFrames_frame (s : State) a2 a3 a4 a5 : OnlyChanges [.cache] s (openFrames s a2 a3 a4 a5) := by
  unfold openFrames
  refine OnlyChanges.ite1 ?_ ?_
  · exact (OnlyChanges.refl _ s)
  · split
    · refine OnlyChanges.foldl (fun x1 x2 hx1 => ?_) ?_
      · refine OnlyChanges.step (updFrame_frame _ _ _) ?_
        exact hx1
      · exact (OnlyChanges.refl _ s)
    · exact (OnlyChanges.refl _ s)

theorem putChan_frame (s : State) a2 a3 a4 : OnlyChanges [.movers] s (putChan s a2 a3 a4) := by
  unfold putChan
  refine OnlyChanges.step (updMover_frame _ _ _) ?_
  exact (OnlyChanges.refl _ s)

theorem markBlocks_frame (s : State) a2 a3 a4 a5 : OnlyChanges [.cache] s (markBlocks s a2 a3 a4 a5) := by
  unfold markBlocks
  refine OnlyChanges.foldl (fun x1 x2 hx1 => ?_) ?_
  · refine OnlyChanges.ite1 ?_ ?_
    · split
      · refine OnlyChanges.step (updFrame_frame _ _ _) ?_
        exact hx1
      · exact hx1
    · exact hx1
  · exact (OnlyChanges.refl _ s)

theorem movBytes_frame (s : State) a2 a3 : OnlyChanges [.movers, .fresh] s (movBytes s a2 a3) := by
  unfold movBytes
  refine OnlyChanges.step (markFresh_frame _ _ _ _ _) ?_
  refine OnlyChanges.step (updMover_frame _ _ _) ?_
  exact (OnlyChanges.refl _ s)

theorem putBytes_frame a1 a2 a3 a4 a5 (s : State) : OnlyChanges [.cache] s (putBytes a1 a2 a3 a4 a5 s) := by
  induction a3 generalizing s a4 a5 with
  | zero => exact OnlyChanges.refl _ s
  | succ n ih =>
    unfold putBytes
    split
    · exact OnlyChanges.refl _ s
    · dsimp only
      refine OnlyChanges.step (ih _ _ _) ?_
      split
      · refine OnlyChanges.ite1 ?_ ?_
        · exact OnlyChanges.step (fillFrame_frame _ _ _ _) (OnlyChanges.refl _ s)
        · exact OnlyChanges.step (updFrame_frame _ _ _) (OnlyChanges.refl _ s)
      · exact OnlyChanges.refl _ s

theorem enterPi_frame (s : State) a2 a3 a4 a5 a6 : OnlyChanges [.cache, .movers] s (enterPi s a2 a3 a4 a5 a6) := by
  unfold enterPi
  extract_lets -merge -underBinder +onlyGivenNames x1
  clear_value x1
  refine OnlyChanges.ite1 ?_ ?_
  · exact (OnlyChanges.refl _ s)
  · refine OnlyChanges.foldl (fun x2 x3 hx2 => ?_) ?_
    · split
      · exact hx2
      · extract_lets -merge -underBinder +onlyGivenNames x4
        clear_value x4
        refine OnlyChanges.ite1 ?_ ?_
        · refine OnlyChanges.step (updFrame_frame _ _ _) ?_
          exact hx2
        · refine OnlyChanges.ite1 ?_ ?_
          · exact hx2
          · refine OnlyChanges.step (updChan_frame _ _ _ _) ?_
            exact hx2
    · exact (OnlyChanges.refl _ s)

theorem toReadback_frame (s : State) a2 a3 : OnlyChanges [.cache, .movers] s (toReadback s a2 a3) := by
  unfold toReadback
  extract_lets -merge -underBinder +onlyGivenNames x1
  clear_value x1
  split
  · exact (OnlyChanges.refl _ s)
  · refine OnlyChanges.step (updChan_frame _ _ _ _) ?_
    refine OnlyChanges.step (enterPi_frame _ _ _ _ _ _) ?_
    exact (OnlyChanges.refl _ s)

theorem copyLocal_frame (s : State) a2 a3 a4 a5 : OnlyChanges [.cache, .movers, .fresh] s (copyLocal s a2 a3 a4 a5) := by
  unfold copyLocal
  extract_lets -merge -underBinder +onlyGivenNames x1 x2 x3 x4 x5
  clear_value x1
  clear_value x2
  have hx3 : OnlyChanges [.cache, .movers, .fresh] s x3 := by
    unfold x3
    refine OnlyChanges.step (putBytes_frame _ _ _ _ _ _) ?_
    exact (OnlyChanges.refl _ s)
  clear_value x3
  have hx4 : OnlyChanges [.cache, .movers, .fresh] s x4 := by
    unfold x4
    refine OnlyChanges.foldl (fun x6 x7 hx6 => ?_) ?_
    · refine OnlyChanges.ite1 ?_ ?_
      · refine OnlyChanges.step (updChan_frame _ _ _ _) ?_
        refine OnlyChanges.step (markBlocks_frame _ _ _ _ _) ?_
        exact hx6
      · exact hx6
    · exact hx3
  clear_value x4
  have hx5 : OnlyChanges [.cache, .movers, .fresh] s x5 := by
    unfold x5
    refine OnlyChanges.step (movBytes_frame _ _ _) ?_
    exact hx4
  clear_value x5
  refine OnlyChanges.step (toReadback_frame _ _ _) ?_
  refine OnlyChanges.step (updChan_frame _ _ _ _) ?_
  exact hx5

theorem lookAhead_frame (s : State) a2 a3 a4 a5 : OnlyChanges [.reads, .nextTag, .out] s (lookAhead s a2 a3 a4 a5) := by
  unfold lookAhead
  split
  · exact (OnlyChanges.refl _ s)
  · extract_lets -merge -underBinder +onlyGivenNames x1 x2
    clear_value x1
    clear_value x2
    refine OnlyChanges.foldl (fun x3 x4 hx3 => ?_) ?_
    · refine OnlyChanges.ite1 ?_ ?_
      · refine OnlyChanges.step (emit_frame _ _) ?_
        refine OnlyChanges.step (openRead_frame _ _ _ _) ?_
        exact hx3
      · exact hx3
    · exact (OnlyChanges.refl _ s)

theorem sendPrg_frame (s : State) a2 : OnlyChanges [.reads, .nextTag, .xlate, .out] s (sendPrg s a2) := by
  unfold sendPrg
  extract_lets -merge -underBinder +onlyGivenNames x1 x2 x3
  clear_value x1
  have hx2 : OnlyChanges [.reads, .nextTag, .xlate, .out] s x2 := by
    unfold x2
    exact OnlyChanges.of (OnlyChanges.refl _ s) (by intro p hp; cases p <;> first | exact absurd (by decide) hp | exact rfl)
  clear_value x2
  have hx3 : OnlyChanges [.reads, .nextTag, .xlate, .out] s x3 := by
    unfold x3
    refine OnlyChanges.foldl (fun x4 x5 hx4 => ?_) ?_
    · refine OnlyChanges.step (emit_frame _ _) ?_
      exact hx4
    · exact hx2
  clear_value x3
  refine OnlyChanges.step (openRead_frame _ _ _ _) ?_
  exact hx3

theorem sendPrgs_frame (s : State) a2 : OnlyChanges [.reads, .nextTag, .xlate, .out] s (sendPrgs s a2) := by
  unfold sendPrgs
  refine OnlyChanges.foldl (fun x1 x2 hx1 => ?_) ?_
  · split
    · refine OnlyChanges.ite1 ?_ ?_
      · refine OnlyChanges.step (sendPrg_frame _ _) ?_
        exact hx1
      · exact hx1
    · exact hx1
  · exact (OnlyChanges.refl _ s)

theorem raiseTranslation_frame (s : State) a2 a3 a4 a5 a6 : OnlyChanges [.funcs, .reads, .nextTag, .ctxs, .engineFree, .cache, .locks, .journal, .groups, .vols, .mports, .movers, .xlate, .progs, .errLog, .errSeq, .defLog, .defSeq, .rb, .out, .seqCtr] s (raiseTranslation s a2 a3 a4 a5 a6) := by
  unfold raiseTranslation
  split
  · exact (OnlyChanges.refl _ s)
  · split
    · extract_lets -merge -underBinder +onlyGivenNames x1 x2 x3 x4 x5 x6 x7 x8
      clear_value x1
      clear_value x2
      clear_value x3
      clear_value x4
      have hx5 : OnlyChanges [.funcs, .reads, .nextTag, .ctxs, .engineFree, .cache, .locks, .journal, .groups, .vols, .mports, .movers, .xlate, .progs, .errLog, .errSeq, .defLog, .defSeq, .rb, .out, .seqCtr] s x5 := by
        unfold x5
        refine OnlyChanges.step (logErr_frame _ _ _ _ _) ?_
        exact (OnlyChanges.refl _ s)
      clear_value x5
      clear_value x6
      have hx7 : OnlyChanges [.funcs, .reads, .nextTag, .ctxs, .engineFree, .cache, .locks, .journal, .groups, .vols, .mports, .movers, .xlate, .progs, .errLog, .errSeq, .defLog, .defSeq, .rb, .out, .seqCtr] s x7 := by
        unfold x7
        refine OnlyChanges.step (updCtx_frame _ _ _) ?_
        exact hx5
      clear_value x7
      clear_value x8
      refine OnlyChanges.ite1 ?_ ?_
      · refine OnlyChanges.step (fatal_frame _ _ _ _) ?_
        exact hx5
      · refine OnlyChanges.ite1 ?_ ?_
        · refine OnlyChanges.step (fatalAs_frame _ _ _ _ _) ?_
          exact hx5
        · refine OnlyChanges.step (sendPrgs_frame _ _) ?_
          exact OnlyChanges.of hx7 (by intro p hp; cases p <;> first | exact absurd (by decide) hp | exact rfl)
    · exact (OnlyChanges.refl _ s)

theorem pageStop_frame (s : State) a2 a3 a4 a5 a6 a7 a8 a9 : OnlyChanges [.funcs, .reads, .nextTag, .ctxs, .engineFree, .cache, .locks, .journal, .groups, .vols, .mports, .movers, .xlate, .progs, .errLog, .errSeq, .defLog, .defSeq, .rb, .out, .seqCtr] s (pageStop s a2 a3 a4 a5 a6 a7 a8 a9) := by
  unfold pageStop
  extract_lets -merge -underBinder +onlyGivenNames x1
  have hx1 : OnlyChanges [.funcs, .reads, .nextTag, .ctxs, .engineFree, .cache, .locks, .journal, .groups, .vols, .mports, .movers, .xlate, .progs, .errLog, .errSeq, .defLog, .defSeq, .rb, .out, .seqCtr] s x1 := by
    unfold x1
    refine OnlyChanges.step (pauseChan_frame _ _ _ _) ?_
    exact (OnlyChanges.refl _ s)
  clear_value x1
  split
  · refine OnlyChanges.step (raiseTranslation_frame _ _ _ _ _ _) ?_
    exact hx1
  · refine OnlyChanges.step (lookAhead_frame _ _ _ _ _) ?_
    exact hx1
  · exact hx1

theorem touchAts_frame (s : State) a2 a3 a4 : OnlyChanges [.xlate] s (touchAts s a2 a3 a4) := by
  unfold touchAts
  split
  · extract_lets -merge -underBinder +onlyGivenNames x1
    clear_value x1
    exact OnlyChanges.of (OnlyChanges.refl _ s) (by intro p hp; cases p <;> first | exact absurd (by decide) hp | exact rfl)
  · exact (OnlyChanges.refl _ s)

theorem pump_frame a1 a2 a3 a4 (s : State) : OnlyChanges [.funcs, .reads, .nextTag, .ctxs, .engineFree, .cache, .locks, .journal, .groups, .vols, .mports, .movers, .xlate, .progs, .errLog, .errSeq, .defLog, .defSeq, .rb, .out, .seqCtr] s (pump a1 a2 a3 a4 s) := by
  induction a4 generalizing s with
  | zero => exact OnlyChanges.refl _ s
  | succ n ih =>
    unfold pump
    dsimp only
    split
    · exact OnlyChanges.refl _ s
    · split
      · refine OnlyChanges.ite1 (OnlyChanges.refl _ s) ?_
        split
        · exact OnlyChanges.refl _ s
        · split
          · refine OnlyChanges.step (ih _) (OnlyChanges.step (updChan_frame _ _ _ _) (OnlyChanges.step (issueRead_frame _ _ _ _ _ _ _) ?_))
            split
            · exact OnlyChanges.step (touchAts_frame _ _ _ _) (OnlyChanges.refl _ s)
            · exact OnlyChanges.refl _ s
          · exact OnlyChanges.step (pageStop_frame _ _ _ _ _ _ _ _ _) (OnlyChanges.refl _ s)
      · exact OnlyChanges.refl _ s

theorem runChan_frame (s : State) a2 a3 : OnlyChanges [.funcs, .reads, .nextTag, .ctxs, .engineFree, .cache, .locks, .journal, .groups, .vols, .mports, .movers, .xlate, .progs, .errLog, .errSeq, .defLog, .defSeq, .rb, .fresh, .out, .seqCtr] s (runChan s a2 a3) := by
  unfold runChan
  extract_lets -merge -underBinder +onlyGivenNames x1 x2
  have hx1 : OnlyChanges [.funcs, .reads, .nextTag, .ctxs, .engineFree, .cache, .locks, .journal, .groups, .vols, .mports, .movers, .xlate, .progs, .errLog, .errSeq, .defLog, .defSeq, .rb, .fresh, .out, .seqCtr] s x1 := by
    unfold x1
    refine OnlyChanges.step (updChan_frame _ _ _ _) ?_
    exact (OnlyChanges.refl _ s)
  clear_value x1
  clear_value x2
  split
  · exact hx1
  · split
    · exact hx1
    · split
      · exact hx1
      · refine OnlyChanges.ite1 ?_ ?_
        · refine OnlyChanges.step (lookAhead_frame _ _ _ _ _) ?_
          exact hx1
        · refine OnlyChanges.ite1 ?_ ?_
          · refine OnlyChanges.ite1 ?_ ?_
            · refine OnlyChanges.step (toReadback_frame _ _ _) ?_
              exact hx1
            · refine OnlyChanges.step (pump_frame _ _ _ _ _) ?_
              refine OnlyChanges.step (lookAhead_frame _ _ _ _ _) ?_
              exact hx1
          · refine OnlyChanges.step (copyLocal_frame _ _ _ _ _) ?_
            exact hx1

theorem startChan_frame (s : State) a2 a3 a4 a5 a6 a7 a8 : OnlyChanges [.funcs, .reads, .nextTag, .ctxs, .engineFree, .cache, .locks, .journal, .groups, .vols, .mports, .movers, .xlate, .progs, .errLog, .errSeq, .defLog, .defSeq, .rb, .fresh, .out, .seqCtr] s (startChan s a2 a3 a4 a5 a6 a7 a8) := by
  unfold startChan
  split
  · exact (OnlyChanges.refl _ s)
  · extract_lets -merge -underBinder +onlyGivenNames x1 x2 x3 x4
    have hx1 : OnlyChanges [.funcs, .reads, .nextTag, .ctxs, .engineFree, .cache, .locks, .journal, .groups, .vols, .mports, .movers, .xlate, .progs, .errLog, .errSeq, .defLog, .defSeq, .rb, .fresh, .out, .seqCtr] s x1 := by
      unfold x1
      refine OnlyChanges.step (openFrames_frame _ _ _ _ _) ?_
      exact (OnlyChanges.refl _ s)
    clear_value x1
    clear_value x2
    have hx3 : OnlyChanges [.funcs, .reads, .nextTag, .ctxs, .engineFree, .cache, .locks, .journal, .groups, .vols, .mports, .movers, .xlate, .progs, .errLog, .errSeq, .defLog, .defSeq, .rb, .fresh, .out, .seqCtr] s x3 := by
      unfold x3
      refine OnlyChanges.step (putChan_frame _ _ _ _) ?_
      refine OnlyChanges.step (updMover_frame _ _ _) ?_
      exact hx1
    clear_value x3
    have hx4 : OnlyChanges [.funcs, .reads, .nextTag, .ctxs, .engineFree, .cache, .locks, .journal, .groups, .vols, .mports, .movers, .xlate, .progs, .errLog, .errSeq, .defLog, .defSeq, .rb, .fresh, .out, .seqCtr] s x4 := by
      unfold x4
      refine OnlyChanges.step (updCtx_frame _ _ _) ?_
      exact hx3
    clear_value x4
    split
    · exact hx4
    · refine OnlyChanges.ite1 ?_ ?_
      · refine OnlyChanges.step (pauseChan_frame _ _ _ _) ?_
        exact hx4
      · split
        · extract_lets -merge -underBinder +onlyGivenNames x5
          have hx5 : OnlyChanges [.funcs, .reads, .nextTag, .ctxs, .engineFree, .cache, .locks, .journal, .groups, .vols, .mports, .movers, .xlate, .progs, .errLog, .errSeq, .defLog, .defSeq, .rb, .fresh, .out, .seqCtr] s x5 := by
            unfold x5
            refine OnlyChanges.step (markFresh_frame _ _ _ _ _) ?_
            refine OnlyChanges.step (updMover_frame _ _ _) ?_
            refine OnlyChanges.step (pauseChan_frame _ _ _ _) ?_
            exact hx4
          clear_value x5
          refine OnlyChanges.ite1 ?_ ?_
          · refine OnlyChanges.step (runChan_frame _ _ _) ?_
            exact hx5
          · exact hx4
        · exact hx4

theorem grantChans_frame a1 a2 (s : State) : OnlyChanges [.funcs, .reads, .nextTag, .ctxs, .engineFree, .cache, .locks, .journal, .groups, .vols, .mports, .movers, .xlate, .progs, .errLog, .errSeq, .defLog, .defSeq, .rb, .fresh, .out, .seqCtr] s (grantChans a1 a2 s) := by
  induction a2 generalizing s with
  | zero => exact OnlyChanges.refl _ s
  | succ n ih =>
    unfold grantChans
    split
    · exact OnlyChanges.refl _ s
    · dsimp only
      split
      · exact OnlyChanges.step (ih _) (OnlyChanges.step (startChan_frame _ _ _ _ _ _ _ _) (OnlyChanges.refl _ s))
      · exact OnlyChanges.refl _ s

theorem grantAll_frame (s : State) a2 : OnlyChanges [.funcs, .reads, .nextTag, .ctxs, .engineFree, .cache, .locks, .journal, .groups, .vols, .mports, .movers, .xlate, .progs, .errLog, .errSeq, .defLog, .defSeq, .rb, .fresh, .out, .seqCtr] s (grantAll s a2) := by
  unfold grantAll
  refine OnlyChanges.step (grantChans_frame _ _ _) ?_
  exact (OnlyChanges.refl _ s)

theorem finishChan_frame (s : State) a2 a3 a4 : OnlyChanges [.funcs, .reads, .nextTag, .ctxs, .engineFree, .cache, .locks, .journal, .groups, .vols, .mports, .movers, .xlate, .progs, .errLog, .errSeq, .defLog, .defSeq, .rb, .fresh, .out, .seqCtr] s (finishChan s a2 a3 a4) := by
  unfold finishChan
  extract_lets -merge -underBinder +onlyGivenNames x1 x2 x3
  clear_value x1
  clear_value x2
  have hx3 : OnlyChanges [.funcs, .reads, .nextTag, .ctxs, .engineFree, .cache, .locks, .journal, .groups, .vols, .mports, .movers, .xlate, .progs, .errLog, .errSeq, .defLog, .defSeq, .rb, .fresh, .out, .seqCtr] s x3 := by
    unfold x3
    refine OnlyChanges.step (updMover_frame _ _ _) ?_
    refine OnlyChanges.step (delChan_frame _ _ _) ?_
    exact (OnlyChanges.refl _ s)
  clear_value x3
  split
  · exact hx3
  · extract_lets -merge -underBinder +onlyGivenNames x4
    have hx4 : OnlyChanges [.funcs, .reads, .nextTag, .ctxs, .engineFree, .cache, .locks, .journal, .groups, .vols, .mports, .movers, .xlate, .progs, .errLog, .errSeq, .defLog, .defSeq, .rb, .fresh, .out, .seqCtr] s x4 := by
      unfold x4
      refine OnlyChanges.step (finishWait_frame _ _ _) ?_
      exact hx3
    clear_value x4
    refine OnlyChanges.step (grantAll_frame _ _) ?_
    exact hx4

theorem mapBound_frame (s : State) a2 : OnlyChanges [.cache] s (mapBound s a2) := by
  unfold mapBound
  extract_lets -merge -underBinder +onlyGivenNames x1
  clear_value x1
  split
  · refine OnlyChanges.ite1 ?_ ?_
    · exact (OnlyChanges.refl _ s)
    · refine OnlyChanges.step (clearPoison_frame _ _ _) ?_
      refine OnlyChanges.step (mapDirty_frame _ _ _ _) ?_
      exact (OnlyChanges.refl _ s)
  · exact (OnlyChanges.refl _ s)

theorem completeFrames_frame (s : State) a2 a3 : OnlyChanges [.funcs, .reads, .nextTag, .ctxs, .engineFree, .cache, .locks, .journal, .groups, .vols, .mports, .movers, .xlate, .progs, .errLog, .errSeq, .defLog, .defSeq, .rb, .fresh, .out, .seqCtr] s (completeFrames s a2 a3) := by
  unfold completeFrames
  extract_lets -merge -underBinder +onlyGivenNames x1
  clear_value x1
  split
  · exact (OnlyChanges.refl _ s)
  · extract_lets -merge -underBinder +onlyGivenNames x2 x3 x4
    clear_value x2
    have hx3 : OnlyChanges [.funcs, .reads, .nextTag, .ctxs, .engineFree, .cache, .locks, .journal, .groups, .vols, .mports, .movers, .xlate, .progs, .errLog, .errSeq, .defLog, .defSeq, .rb, .fresh, .out, .seqCtr] s x3 := by
      unfold x3
      refine OnlyChanges.foldl (fun x5 x6 hx5 => ?_) ?_
      · refine OnlyChanges.step (protectFrame_frame _ _) ?_
        exact hx5
      · exact (OnlyChanges.refl _ s)
    clear_value x3
    have hx4 : OnlyChanges [.funcs, .reads, .nextTag, .ctxs, .engineFree, .cache, .locks, .journal, .groups, .vols, .mports, .movers, .xlate, .progs, .errLog, .errSeq, .defLog, .defSeq, .rb, .fresh, .out, .seqCtr] s x4 := by
      unfold x4
      refine OnlyChanges.ite1 ?_ ?_
      · exact hx3
      · refine OnlyChanges.foldl (fun x7 x8 hx7 => ?_) ?_
        · refine OnlyChanges.step (mapBound_frame _ _) ?_
          exact hx7
        · exact hx3
    clear_value x4
    refine OnlyChanges.step (finishChan_frame _ _ _ _) ?_
    exact hx4

theorem pumpAll_frame a1 (s : State) : OnlyChanges [.funcs, .reads, .nextTag, .ctxs, .engineFree, .cache, .locks, .journal, .groups, .vols, .mports, .movers, .xlate, .progs, .errLog, .errSeq, .defLog, .defSeq, .rb, .out, .seqCtr] s (pumpAll a1 s) := by
  unfold pumpAll
  refine OnlyChanges.foldl (fun x1 x2 hx1 => ?_) ?_
  · split
    · refine OnlyChanges.step (pump_frame _ _ _ _ _) ?_
      exact hx1
    · exact hx1
  · exact (OnlyChanges.refl _ s)

theorem startBest_frame (s : State) a2 : OnlyChanges [.funcs, .reads, .nextTag, .ctxs, .engineFree, .cache, .locks, .journal, .groups, .vols, .mports, .movers, .xlate, .progs, .errLog, .errSeq, .defLog, .defSeq, .rb, .fresh, .out, .seqCtr] s (startBest s a2) := by
  unfold startBest
  refine OnlyChanges.ite1 ?_ ?_
  · exact (OnlyChanges.refl _ s)
  · split
    · exact (OnlyChanges.refl _ s)
    · refine OnlyChanges.step (runChan_frame _ _ _) ?_
      exact (OnlyChanges.refl _ s)

theorem recheckChan_frame (s : State) a2 a3 : OnlyChanges [.funcs, .reads, .nextTag, .ctxs, .engineFree, .cache, .locks, .journal, .groups, .vols, .mports, .movers, .xlate, .progs, .errLog, .errSeq, .defLog, .defSeq, .rb, .fresh, .out, .seqCtr] s (recheckChan s a2 a3) := by
  unfold recheckChan
  extract_lets -merge -underBinder +onlyGivenNames x1
  clear_value x1
  split
  · exact (OnlyChanges.refl _ s)
  · split
    · exact (OnlyChanges.refl _ s)
    · refine OnlyChanges.ite1 ?_ ?_
      · exact (OnlyChanges.refl _ s)
      · split
        · exact (OnlyChanges.refl _ s)
        · extract_lets -merge -underBinder +onlyGivenNames x2
          clear_value x2
          split
          · exact (OnlyChanges.refl _ s)
          · split
            · refine OnlyChanges.step (startBest_frame _ _) ?_
              refine OnlyChanges.step (clearCause_frame _ _ _ _) ?_
              exact (OnlyChanges.refl _ s)
            · refine OnlyChanges.step (raiseTranslation_frame _ _ _ _ _ _) ?_
              exact (OnlyChanges.refl _ s)
            · refine OnlyChanges.step (lookAhead_frame _ _ _ _ _) ?_
              exact (OnlyChanges.refl _ s)
            · exact (OnlyChanges.refl _ s)

theorem recheckClass_frame a1 (s : State) : OnlyChanges [.funcs, .reads, .nextTag, .ctxs, .engineFree, .cache, .locks, .journal, .groups, .vols, .mports, .movers, .xlate, .progs, .errLog, .errSeq, .defLog, .defSeq, .rb, .fresh, .out, .seqCtr] s (recheckClass a1 s) := by
  unfold recheckClass
  refine OnlyChanges.foldl (fun x1 x2 hx1 => ?_) ?_
  · refine OnlyChanges.step (recheckChan_frame _ _ _) ?_
    exact hx1
  · exact (OnlyChanges.refl _ s)

theorem sendAllPrgs_frame (s : State) : OnlyChanges [.reads, .nextTag, .xlate, .out] s (sendAllPrgs s) := by
  unfold sendAllPrgs
  refine OnlyChanges.foldl (fun x1 x2 hx1 => ?_) ?_
  · refine OnlyChanges.step (sendPrgs_frame _ _) ?_
    exact hx1
  · exact (OnlyChanges.refl _ s)

theorem landed_frame (s : State) a2 a3 : OnlyChanges [.funcs, .reads, .nextTag, .ctxs, .engineFree, .cache, .locks, .journal, .groups, .vols, .mports, .movers, .xlate, .progs, .errLog, .errSeq, .defLog, .defSeq, .rb, .fresh, .out, .seqCtr] s (landed s a2 a3) := by
  unfold landed
  extract_lets -merge -underBinder +onlyGivenNames x1 x2
  have hx1 : OnlyChanges [.funcs, .reads, .nextTag, .ctxs, .engineFree, .cache, .locks, .journal, .groups, .vols, .mports, .movers, .xlate, .progs, .errLog, .errSeq, .defLog, .defSeq, .rb, .fresh, .out, .seqCtr] s x1 := by
    unfold x1
    refine OnlyChanges.step (updChan_frame _ _ _ _) ?_
    exact (OnlyChanges.refl _ s)
  clear_value x1
  clear_value x2
  refine OnlyChanges.ite1 ?_ ?_
  · refine OnlyChanges.step (grantAll_frame _ _) ?_
    refine OnlyChanges.step (delChan_frame _ _ _) ?_
    exact hx1
  · exact hx1

theorem dataArrives_frame (s : State) a2 a3 a4 a5 a6 a7 : OnlyChanges [.funcs, .reads, .nextTag, .ctxs, .engineFree, .cache, .locks, .journal, .groups, .vols, .mports, .movers, .xlate, .progs, .errLog, .errSeq, .defLog, .defSeq, .rb, .fresh, .out, .seqCtr] s (dataArrives s a2 a3 a4 a5 a6 a7) := by
  unfold dataArrives
  extract_lets -merge -underBinder +onlyGivenNames x1 x2 x3 x4
  clear_value x1
  have hx2 : OnlyChanges [.funcs, .reads, .nextTag, .ctxs, .engineFree, .cache, .locks, .journal, .groups, .vols, .mports, .movers, .xlate, .progs, .errLog, .errSeq, .defLog, .defSeq, .rb, .fresh, .out, .seqCtr] s x2 := by
    unfold x2
    split
    · exact (OnlyChanges.refl _ s)
    · extract_lets -merge -underBinder +onlyGivenNames x5 x6 x7
      clear_value x5
      have hx6 : OnlyChanges [.funcs, .reads, .nextTag, .ctxs, .engineFree, .cache, .locks, .journal, .groups, .vols, .mports, .movers, .xlate, .progs, .errLog, .errSeq, .defLog, .defSeq, .rb, .fresh, .out, .seqCtr] s x6 := by
        unfold x6
        refine OnlyChanges.step (putBytes_frame _ _ _ _ _ _) ?_
        exact (OnlyChanges.refl _ s)
      clear_value x6
      have hx7 : OnlyChanges [.funcs, .reads, .nextTag, .ctxs, .engineFree, .cache, .locks, .journal, .groups, .vols, .mports, .movers, .xlate, .progs, .errLog, .errSeq, .defLog, .defSeq, .rb, .fresh, .out, .seqCtr] s x7 := by
        unfold x7
        refine OnlyChanges.step (movBytes_frame _ _ _) ?_
        exact hx6
      clear_value x7
      refine OnlyChanges.ite1 ?_ ?_
      · refine OnlyChanges.step (updChan_frame _ _ _ _) ?_
        refine OnlyChanges.step (markBlocks_frame _ _ _ _ _) ?_
        exact hx7
      · exact hx7
  clear_value x2
  have hx3 : OnlyChanges [.funcs, .reads, .nextTag, .ctxs, .engineFree, .cache, .locks, .journal, .groups, .vols, .mports, .movers, .xlate, .progs, .errLog, .errSeq, .defLog, .defSeq, .rb, .fresh, .out, .seqCtr] s x3 := by
    unfold x3
    refine OnlyChanges.step (landed_frame _ _ _) ?_
    exact hx2
  clear_value x3
  clear_value x4
  refine OnlyChanges.ite1 ?_ ?_
  · refine OnlyChanges.step (toReadback_frame _ _ _) ?_
    exact hx3
  · exact hx3

theorem dataFails_frame (s : State) a2 a3 : OnlyChanges [.funcs, .reads, .nextTag, .ctxs, .engineFree, .cache, .locks, .journal, .groups, .vols, .mports, .movers, .xlate, .progs, .errLog, .errSeq, .defLog, .defSeq, .rb, .fresh, .out, .seqCtr] s (dataFails s a2 a3) := by
  unfold dataFails
  extract_lets -merge -underBinder +onlyGivenNames x1 x2
  clear_value x1
  have hx2 : OnlyChanges [.funcs, .reads, .nextTag, .ctxs, .engineFree, .cache, .locks, .journal, .groups, .vols, .mports, .movers, .xlate, .progs, .errLog, .errSeq, .defLog, .defSeq, .rb, .fresh, .out, .seqCtr] s x2 := by
    unfold x2
    refine OnlyChanges.step (landed_frame _ _ _) ?_
    exact (OnlyChanges.refl _ s)
  clear_value x2
  split
  · exact hx2
  · split
    · exact hx2
    · extract_lets -merge -underBinder +onlyGivenNames x3
      have hx3 : OnlyChanges [.funcs, .reads, .nextTag, .ctxs, .engineFree, .cache, .locks, .journal, .groups, .vols, .mports, .movers, .xlate, .progs, .errLog, .errSeq, .defLog, .defSeq, .rb, .fresh, .out, .seqCtr] s x3 := by
        unfold x3
        refine OnlyChanges.step (finishWait_frame _ _ _) ?_
        exact hx2
      clear_value x3
      refine OnlyChanges.ite1 ?_ ?_
      · exact hx2
      · refine OnlyChanges.step (grantAll_frame _ _) ?_
        refine OnlyChanges.step (updMover_frame _ _ _) ?_
        exact hx3

theorem dropPrg_frame (s : State) a2 : OnlyChanges [.reads, .xlate] s (dropPrg s a2) := by
  unfold dropPrg
  extract_lets -merge -underBinder +onlyGivenNames x1
  clear_value x1
  exact OnlyChanges.of (OnlyChanges.refl _ s) (by intro p hp; cases p <;> first | exact absurd (by decide) hp | exact rfl)

theorem execAtsInvalidate_frame a1 a2 a3 a4 (s : State) : OnlyChangesQ [.xlate] s (execAtsInvalidate a1 a2 a3 a4 s) := by
  unfold execAtsInvalidate
  extract_lets -merge -underBinder +onlyGivenNames x1 x2
  clear_value x1
  clear_value x2
  refine OnlyChangesQ.next ?_
  refine OnlyChanges.ite1 ?_ ?_
  · exact (OnlyChanges.refl _ s)
  · exact OnlyChanges.of (OnlyChanges.refl _ s) (by intro p hp; cases p <;> first | exact absurd (by decide) hp | exact rfl)

theorem execAtsInvalidateCompletion_frame a1 a2 (s : State) : OnlyChangesQ [.xlate, .out] s (execAtsInvalidateCompletion a1 a2 s) := by
  unfold execAtsInvalidateCompletion
  refine OnlyChangesQ.next ?_
  split
  · exact (OnlyChanges.refl _ s)
  · extract_lets -merge -underBinder +onlyGivenNames x1 x2
    clear_value x1
    clear_value x2
    refine OnlyChanges.ite1 ?_ ?_
    · refine OnlyChanges.step (emit_frame _ _) ?_
      exact OnlyChanges.of (OnlyChanges.refl _ s) (by intro p hp; cases p <;> first | exact absurd (by decide) hp | exact rfl)
    · exact (OnlyChanges.refl _ s)

theorem listFails_frame (s : State) a2 : OnlyChanges [.ctxs, .cache, .seqCtr] s (listFails s a2) := by
  unfold listFails
  split
  · exact (OnlyChanges.refl _ s)
  · split
    · refine OnlyChanges.step (finishWait_frame _ _ _) ?_
      refine OnlyChanges.step (releaseHandle_frame _ _ _) ?_
      exact (OnlyChanges.refl _ s)
    · exact (OnlyChanges.refl _ s)

theorem prgFails_frame (s : State) a2 : OnlyChanges [.funcs, .ctxs, .engineFree, .cache, .locks, .journal, .groups, .vols, .mports, .movers, .progs, .errLog, .errSeq, .defLog, .defSeq, .rb, .seqCtr] s (prgFails s a2) := by
  unfold prgFails
  split
  · refine OnlyChanges.ite1 ?_ ?_
    · refine OnlyChanges.step (fatalAs_frame _ _ _ _ _) ?_
      exact (OnlyChanges.refl _ s)
    · exact (OnlyChanges.refl _ s)
  · exact (OnlyChanges.refl _ s)

theorem giveDesc_frame (s : State) a2 a3 a4 : OnlyChanges [.ctxs] s (giveDesc s a2 a3 a4) := by
  unfold giveDesc
  refine OnlyChanges.step (completeD_frame _ _ _) ?_
  refine OnlyChanges.step (setHandle_frame _ _ _ _) ?_
  exact (OnlyChanges.refl _ s)

theorem execDesc_frame a1 (s : State) : OnlyChangesQ [.funcs, .reads, .nextTag, .ctxs, .engineFree, .cache, .locks, .journal, .groups, .vols, .mports, .movers, .progs, .errLog, .errSeq, .defLog, .defSeq, .rb, .out, .freeCtr, .seqCtr] s (execDesc a1 s) := by
  unfold execDesc
  refine runIns_frame ?_ ?_
  · intro x1 x2 hx2
    extract_lets -merge -underBinder +onlyGivenNames x3 x4
    clear_value x3
    have hx4 : OnlyChanges [.funcs, .reads, .nextTag, .ctxs, .engineFree, .cache, .locks, .journal, .groups, .vols, .mports, .movers, .progs, .errLog, .errSeq, .defLog, .defSeq, .rb, .out, .freeCtr, .seqCtr] s x4 := by
      unfold x4
      refine OnlyChanges.step (releaseHandle_frame _ _ _) ?_
      exact hx2
    clear_value x4
    refine OnlyChanges.ite1 ?_ ?_
    · refine OnlyChanges.step (completeD_frame _ _ _) ?_
      exact hx2
    · refine OnlyChanges.ite1 ?_ ?_
      · refine OnlyChanges.step (giveDesc_frame _ _ _ _) ?_
        exact hx4
      · refine OnlyChanges.ite1 ?_ ?_
        · refine OnlyChanges.step (giveDesc_frame _ _ _ _) ?_
          exact hx4
        · refine OnlyChanges.ite1 ?_ ?_
          · refine OnlyChanges.step (giveDesc_frame _ _ _ _) ?_
            refine OnlyChanges.foldl (fun x5 x6 hx5 => ?_) ?_
            · refine OnlyChanges.step (pinFrame_frame _ _) ?_
              exact hx5
            · exact hx4
          · refine OnlyChanges.ite1 ?_ ?_
            · refine OnlyChanges.step (startWait_frame _ _ _) ?_
              exact hx4
            · split
              · refine OnlyChanges.step (startWait_frame _ _ _) ?_
                exact hx4
              · rename_i x8 x9 x10
                have hx9 : OnlyChanges [.funcs, .reads, .nextTag, .ctxs, .engineFree, .cache, .locks, .journal, .groups, .vols, .mports, .movers, .progs, .errLog, .errSeq, .defLog, .defSeq, .rb, .out, .freeCtr, .seqCtr] s x9 := by
                  refine OnlyChangesOP.of_eq x10 ?_
                  refine OnlyChangesOP.step (allocFrame_frame _ _) ?_
                  exact hx4
                refine OnlyChanges.step (askList_frame _ _) ?_
                refine OnlyChanges.step (startWait_frame _ _ _) ?_
                refine OnlyChanges.step (setHandle_frame _ _ _ _) ?_
                exact hx9
  · exact (OnlyChanges.refl _ s)

theorem listArrives_frame (s : State) a2 a3 a4 : OnlyChanges [.ctxs, .cache, .seqCtr] s (listArrives s a2 a3 a4) := by
  unfold listArrives
  split
  · exact (OnlyChanges.refl _ s)
  · split
    · extract_lets -merge -underBinder +onlyGivenNames x1 x2 x3 x4
      clear_value x1
      clear_value x2
      have hx3 : OnlyChanges [.ctxs, .cache, .seqCtr] s x3 := by
        unfold x3
        refine OnlyChanges.step (fillFrame_frame _ _ _ _) ?_
        exact (OnlyChanges.refl _ s)
      clear_value x3
      have hx4 : OnlyChanges [.ctxs, .cache, .seqCtr] s x4 := by
        unfold x4
        refine OnlyChanges.step (setHandle_frame _ _ _ _) ?_
        exact hx3
      clear_value x4
      refine OnlyChanges.ite1 ?_ ?_
      · refine OnlyChanges.step (finishWait_frame _ _ _) ?_
        refine OnlyChanges.step (releaseHandle_frame _ _ _) ?_
        exact (OnlyChanges.refl _ s)
      · refine OnlyChanges.ite1 ?_ ?_
        · refine OnlyChanges.step (finishWait_frame _ _ _) ?_
          exact hx4
        · refine OnlyChanges.step (finishWait_frame _ _ _) ?_
          refine OnlyChanges.step (releaseHandle_frame _ _ _) ?_
          exact (OnlyChanges.refl _ s)
    · exact (OnlyChanges.refl _ s)

theorem movRefused_frame (s : State) a2 : OnlyChanges [.movers, .fresh] s (movRefused s a2) := by
  unfold movRefused
  refine OnlyChanges.step (markFresh_frame _ _ _ _ _) ?_
  refine OnlyChanges.step (updMover_frame _ _ _) ?_
  exact (OnlyChanges.refl _ s)

theorem resumeOwn_frame (s : State) a2 a3 a4 : OnlyChanges [.funcs, .reads, .nextTag, .ctxs, .engineFree, .cache, .locks, .journal, .groups, .vols, .mports, .movers, .xlate, .progs, .errLog, .errSeq, .defLog, .defSeq, .rb, .fresh, .out, .seqCtr] s (resumeOwn s a2 a3 a4) := by
  unfold resumeOwn
  extract_lets -merge -underBinder +onlyGivenNames x1
  have hx1 : OnlyChanges [.funcs, .reads, .nextTag, .ctxs, .engineFree, .cache, .locks, .journal, .groups, .vols, .mports, .movers, .xlate, .progs, .errLog, .errSeq, .defLog, .defSeq, .rb, .fresh, .out, .seqCtr] s x1 := by
    unfold x1
    refine OnlyChanges.step (startWait_frame _ _ _) ?_
    exact (OnlyChanges.refl _ s)
  clear_value x1
  refine OnlyChanges.step (startBest_frame _ _) ?_
  refine OnlyChanges.step (recheckChan_frame _ _ _) ?_
  refine OnlyChanges.step (clearCause_frame _ _ _ _) ?_
  exact hx1

theorem hostTransfer_frame a1 a2 a3 (s : State) : OnlyChanges [.funcs, .reads, .nextTag, .ctxs, .engineFree, .cache, .locks, .journal, .groups, .vols, .mports, .movers, .xlate, .progs, .errLog, .errSeq, .defLog, .defSeq, .rb, .fresh, .out, .seqCtr] s (hostTransfer a1 a2 a3 s) := by
  unfold hostTransfer
  extract_lets -merge -underBinder +onlyGivenNames x1 x2
  clear_value x1
  clear_value x2
  refine OnlyChanges.ite1 ?_ ?_
  · refine OnlyChanges.step (completeD_frame _ _ _) ?_
    exact (OnlyChanges.refl _ s)
  · split
    · refine OnlyChanges.step (resumeOwn_frame _ _ _ _) ?_
      exact (OnlyChanges.refl _ s)
    · split
      · extract_lets -merge -underBinder +onlyGivenNames x3 x4
        clear_value x3
        have hx4 : OnlyChanges [.funcs, .reads, .nextTag, .ctxs, .engineFree, .cache, .locks, .journal, .groups, .vols, .mports, .movers, .xlate, .progs, .errLog, .errSeq, .defLog, .defSeq, .rb, .fresh, .out, .seqCtr] s x4 := by
          unfold x4
          refine OnlyChanges.step (movRefused_frame _ _) ?_
          exact (OnlyChanges.refl _ s)
        clear_value x4
        refine OnlyChanges.step (completeD_frame _ _ _) ?_
        refine OnlyChanges.step (logErr_frame _ _ _ _ _) ?_
        exact hx4
      · split
        · refine OnlyChanges.step (startChan_frame _ _ _ _ _ _ _ _) ?_
          refine OnlyChanges.step (startWait_frame _ _ _) ?_
          exact (OnlyChanges.refl _ s)
        · refine OnlyChanges.step (awaitChan_frame _ _ _ _ _ _) ?_
          exact (OnlyChanges.refl _ s)

theorem execHread_frame a1 (s : State) : OnlyChangesQ [.funcs, .reads, .nextTag, .ctxs, .engineFree, .cache, .locks, .journal, .groups, .vols, .mports, .movers, .xlate, .progs, .errLog, .errSeq, .defLog, .defSeq, .rb, .fresh, .out, .seqCtr] s (execHread a1 s) := by
  unfold execHread
  refine runIns_frame ?_ (OnlyChanges.refl _ s)
  intro c u h
  exact OnlyChanges.step (hostTransfer_frame _ _ _ _) h

theorem execHwrite_frame a1 (s : State) : OnlyChangesQ [.funcs, .reads, .nextTag, .ctxs, .engineFree, .cache, .locks, .journal, .groups, .vols, .mports, .movers, .xlate, .progs, .errLog, .errSeq, .defLog, .defSeq, .rb, .fresh, .out, .seqCtr] s (execHwrite a1 s) := by
  unfold execHwrite
  refine runIns_frame ?_ (OnlyChanges.refl _ s)
  intro c u h
  exact OnlyChanges.step (hostTransfer_frame _ _ _ _) h

theorem execMovChGo_frame a1 (s : State) : OnlyChangesQ [.movers, .errLog, .errSeq, .fresh] s (execMovChGo a1 s) := by
  unfold execMovChGo
  extract_lets -merge -underBinder +onlyGivenNames x1
  clear_value x1
  refine OnlyChangesQ.next ?_
  refine OnlyChanges.ite1 ?_ ?_
  · exact (OnlyChanges.refl _ s)
  · split
    · extract_lets -merge -underBinder +onlyGivenNames x2 x3
      have hx2 : OnlyChanges [.movers, .errLog, .errSeq, .fresh] s x2 := by
        unfold x2
        refine OnlyChanges.step (putChan_frame _ _ _ _) ?_
        exact (OnlyChanges.refl _ s)
      clear_value x2
      have hx3 : OnlyChanges [.movers, .errLog, .errSeq, .fresh] s x3 := by
        unfold x3
        refine OnlyChanges.step (movRefused_frame _ _) ?_
        exact hx2
      clear_value x3
      refine OnlyChanges.step (logErr_frame _ _ _ _ _) ?_
      exact hx3
    · extract_lets -merge -underBinder +onlyGivenNames x4 x5 x6
      clear_value x4
      have hx5 : OnlyChanges [.movers, .errLog, .errSeq, .fresh] s x5 := by
        unfold x5
        refine OnlyChanges.step (updMover_frame _ _ _) ?_
        exact (OnlyChanges.refl _ s)
      clear_value x5
      have hx6 : OnlyChanges [.movers, .errLog, .errSeq, .fresh] s x6 := by
        unfold x6
        refine OnlyChanges.step (putChan_frame _ _ _ _) ?_
        exact hx5
      clear_value x6
      refine OnlyChanges.ite1 ?_ ?_
      · refine OnlyChanges.step (pauseChan_frame _ _ _ _) ?_
        exact hx6
      · exact hx6

theorem execMovChHold_frame a1 a2 (s : State) : OnlyChangesQ [.funcs, .reads, .nextTag, .ctxs, .engineFree, .cache, .locks, .journal, .groups, .vols, .mports, .movers, .xlate, .progs, .errLog, .errSeq, .defLog, .defSeq, .rb, .fresh, .out, .seqCtr] s (execMovChHold a1 a2 s) := by
  unfold execMovChHold
  extract_lets -merge -underBinder +onlyGivenNames x1 x2
  clear_value x1
  have hx2 : OnlyChanges [.funcs, .reads, .nextTag, .ctxs, .engineFree, .cache, .locks, .journal, .groups, .vols, .mports, .movers, .xlate, .progs, .errLog, .errSeq, .defLog, .defSeq, .rb, .fresh, .out, .seqCtr] s x2 := by
    unfold x2
    refine OnlyChanges.step (putChan_frame _ _ _ _) ?_
    exact (OnlyChanges.refl _ s)
  clear_value x2
  refine OnlyChangesQ.next ?_
  refine OnlyChanges.ite1 ?_ ?_
  · refine OnlyChanges.step (pauseChan_frame _ _ _ _) ?_
    exact hx2
  · refine OnlyChanges.step (startBest_frame _ _) ?_
    refine OnlyChanges.step (clearCause_frame _ _ _ _) ?_
    exact hx2

theorem sboxTransfer_frame (s : State) a2 a3 : OnlyChanges [.movers, .mbx, .fresh, .out, .freeCtr] s (sboxTransfer s a2 a3) := by
  unfold sboxTransfer
  split
  · exact (OnlyChanges.refl _ s)
  · extract_lets -merge -underBinder +onlyGivenNames x1 x2 x3
    clear_value x1
    have hx2 : OnlyChanges [.movers, .mbx, .fresh, .out, .freeCtr] s x2 := by
      unfold x2
      refine OnlyChanges.ite1 ?_ ?_
      · exact OnlyChanges.of (OnlyChanges.refl _ s) (by intro p hp; cases p <;> first | exact absurd (by decide) hp | exact rfl)
      · refine OnlyChanges.step (emitAdmin_frame _ _ _) ?_
        exact (OnlyChanges.refl _ s)
    clear_value x2
    have hx3 : OnlyChanges [.movers, .mbx, .fresh, .out, .freeCtr] s x3 := by
      unfold x3
      refine OnlyChanges.step (movBytes_frame _ _ _) ?_
      exact hx2
    clear_value x3
    refine OnlyChanges.step (updChan_frame _ _ _ _) ?_
    exact hx3

theorem sendData_frame a1 a2 a3 a4 (s : State) : OnlyChanges [.funcs, .reads, .nextTag, .ctxs, .engineFree, .cache, .locks, .journal, .groups, .vols, .mports, .movers, .xlate, .progs, .errLog, .errSeq, .defLog, .defSeq, .rb, .fresh, .out, .seqCtr] s (sendData a1 a2 a3 a4 s) := by
  induction a4 generalizing s with
  | zero => exact OnlyChanges.refl _ s
  | succ n ih =>
    unfold sendData
    have r := OnlyChanges.refl [.funcs, .reads, .nextTag, .ctxs, .engineFree, .cache, .locks, .journal, .groups, .vols, .mports, .movers, .xlate, .progs, .errLog, .errSeq, .defLog, .defSeq, .rb, .fresh, .out, .seqCtr] s
    dsimp only
    split
    · exact r
    · refine OnlyChanges.ite1 (OnlyChanges.step (finishChan_frame _ _ _ _) r) ?_
      split
      · split
        · exact OnlyChanges.step (finishChan_frame _ _ _ _) r
        · exact OnlyChanges.step (poisonFault_frame _ _ _) (OnlyChanges.step (wake_frame _ _) (OnlyChanges.step (pauseChan_frame _ _ _ _) r))
        · split
          · exact r
          · split
            · refine OnlyChanges.step (ih _) (OnlyChanges.step (updChan_frame _ _ _ _) (OnlyChanges.step (movBytes_frame _ _ _) ?_))
              have e : ∀ o, OnlyChanges [.funcs, .reads, .nextTag, .ctxs, .engineFree, .cache, .locks, .journal, .groups, .vols, .mports, .movers, .xlate, .progs, .errLog, .errSeq, .defLog, .defSeq, .rb, .fresh, .out, .seqCtr] s (emit s o) := fun o => OnlyChanges.step (emit_frame _ _) r
              have p : ∀ c o f k, OnlyChanges [.funcs, .reads, .nextTag, .ctxs, .engineFree, .cache, .locks, .journal, .groups, .vols, .mports, .movers, .xlate, .progs, .errLog, .errSeq, .defLog, .defSeq, .rb, .fresh, .out, .seqCtr] s (if (c : Bool) then updCtx (poisonOut (emit s o) f) a3 k else emit s o) :=
                fun c o f k => OnlyChanges.ite1 (OnlyChanges.step (updCtx_frame _ _ _) (OnlyChanges.step (poisonOut_frame _ _) (e _))) (e _)
              split
              · exact OnlyChanges.step (touchAts_frame _ _ _ _) (p _ _ _ _)
              · exact p _ _ _ _
            · exact OnlyChanges.step (pageStop_frame _ _ _ _ _ _ _ _ _) r
      · exact r

theorem execMoverChannelComplete_frame a1 a2 (s : State) : OnlyChangesQ [.funcs, .reads, .nextTag, .ctxs, .engineFree, .cache, .locks, .journal, .groups, .vols, .mports, .movers, .xlate, .progs, .mbx, .errLog, .errSeq, .defLog, .defSeq, .rb, .fresh, .out, .freeCtr, .seqCtr] s (execMoverChannelComplete a1 a2 s) := by
  unfold execMoverChannelComplete
  extract_lets -merge -underBinder +onlyGivenNames x1
  clear_value x1
  refine OnlyChangesQ.next ?_
  refine OnlyChanges.ite1 ?_ ?_
  · exact (OnlyChanges.refl _ s)
  · refine OnlyChanges.ite1 ?_ ?_
    · refine OnlyChanges.step (sboxTransfer_frame _ _ _) ?_
      exact (OnlyChanges.refl _ s)
    · split
      · exact (OnlyChanges.refl _ s)
      · split
        · refine OnlyChanges.ite1 ?_ ?_
          · refine OnlyChanges.step (sendData_frame _ _ _ _ _) ?_
            exact (OnlyChanges.refl _ s)
          · exact (OnlyChanges.refl _ s)
        · exact (OnlyChanges.refl _ s)

theorem execMoverChannelStart_frame a1 (s : State) : OnlyChangesQ [.funcs, .reads, .nextTag, .ctxs, .engineFree, .cache, .locks, .journal, .groups, .vols, .mports, .movers, .xlate, .progs, .errLog, .errSeq, .defLog, .defSeq, .rb, .fresh, .out, .seqCtr] s (execMoverChannelStart a1 s) := by
  unfold execMoverChannelStart
  refine OnlyChangesQ.next ?_
  refine OnlyChanges.step (startBest_frame _ _) ?_
  refine OnlyChanges.step (grantAll_frame _ _) ?_
  exact (OnlyChanges.refl _ s)

theorem readbackFail_frame (s : State) a2 a3 : OnlyChanges [.funcs, .ctxs, .engineFree, .cache, .locks, .journal, .groups, .vols, .mports, .movers, .progs, .errLog, .errSeq, .defLog, .defSeq, .rb, .seqCtr] s (readbackFail s a2 a3) := by
  unfold readbackFail
  extract_lets -merge -underBinder +onlyGivenNames x1
  clear_value x1
  split
  · exact (OnlyChanges.refl _ s)
  · split
    · exact (OnlyChanges.refl _ s)
    · extract_lets -merge -underBinder +onlyGivenNames x2 x3 x4 x5
      clear_value x2
      clear_value x3
      have hx4 : OnlyChanges [.funcs, .ctxs, .engineFree, .cache, .locks, .journal, .groups, .vols, .mports, .movers, .progs, .errLog, .errSeq, .defLog, .defSeq, .rb, .seqCtr] s x4 := by
        unfold x4
        refine OnlyChanges.step (updFrame_frame _ _ _) ?_
        refine OnlyChanges.step (logErr_frame _ _ _ _ _) ?_
        exact (OnlyChanges.refl _ s)
      clear_value x4
      have hx5 : OnlyChanges [.funcs, .ctxs, .engineFree, .cache, .locks, .journal, .groups, .vols, .mports, .movers, .progs, .errLog, .errSeq, .defLog, .defSeq, .rb, .seqCtr] s x5 := by
        unfold x5
        refine OnlyChanges.step (updChan_frame _ _ _ _) ?_
        exact hx4
      clear_value x5
      refine OnlyChanges.step (poisonFault_frame _ _ _) ?_
      refine OnlyChanges.step (wake_frame _ _) ?_
      refine OnlyChanges.step (pauseChan_frame _ _ _ _) ?_
      exact hx5

theorem execMoverReadback_frame a1 a2 a3 (s : State) : OnlyChangesQ [.funcs, .reads, .nextTag, .ctxs, .engineFree, .cache, .locks, .journal, .groups, .vols, .mports, .movers, .xlate, .progs, .errLog, .errSeq, .defLog, .defSeq, .rb, .fresh, .out, .seqCtr] s (execMoverReadback a1 a2 a3 s) := by
  unfold execMoverReadback
  extract_lets -merge -underBinder +onlyGivenNames x1
  clear_value x1
  refine OnlyChangesQ.next ?_
  refine OnlyChanges.ite1 ?_ ?_
  · exact (OnlyChanges.refl _ s)
  · refine OnlyChanges.ite1 ?_ ?_
    · refine OnlyChanges.step (completeFrames_frame _ _ _) ?_
      exact (OnlyChanges.refl _ s)
    · refine OnlyChanges.ite1 ?_ ?_
      · refine OnlyChanges.step (updChan_frame _ _ _ _) ?_
        exact (OnlyChanges.refl _ s)
      · refine OnlyChanges.step (readbackFail_frame _ _ _) ?_
        exact (OnlyChanges.refl _ s)

theorem execMoverResume_frame a1 (s : State) : OnlyChangesQ [.funcs, .reads, .nextTag, .ctxs, .engineFree, .cache, .locks, .journal, .groups, .vols, .mports, .movers, .xlate, .progs, .errLog, .errSeq, .defLog, .defSeq, .rb, .fresh, .out, .seqCtr] s (execMoverResume a1 s) := by
  unfold execMoverResume
  refine OnlyChangesQ.next ?_
  refine OnlyChanges.ite1 ?_ ?_
  · refine OnlyChanges.step (startBest_frame _ _) ?_
    refine OnlyChanges.step (clearAll_frame _ _ _) ?_
    exact (OnlyChanges.refl _ s)
  · exact (OnlyChanges.refl _ s)

theorem execPost_frame a1 (s : State) : OnlyChangesQ [.funcs, .ctxs, .engineFree, .cache, .locks, .journal, .groups, .vols, .mports, .movers, .progs, .errLog, .errSeq, .defLog, .defSeq, .rb, .seqCtr] s (execPost a1 s) := by
  unfold execPost
  refine runIns_frame ?_ ?_
  · intro x1 x2 hx2
    extract_lets -merge -underBinder +onlyGivenNames x3 x4
    have hx3 : OnlyChanges [.funcs, .ctxs, .engineFree, .cache, .locks, .journal, .groups, .vols, .mports, .movers, .progs, .errLog, .errSeq, .defLog, .defSeq, .rb, .seqCtr] s x3 := by
      unfold x3
      refine OnlyChanges.step (complete_frame _ _ _) ?_
      exact hx2
    clear_value x3
    have hx4 : OnlyChanges [.funcs, .ctxs, .engineFree, .cache, .locks, .journal, .groups, .vols, .mports, .movers, .progs, .errLog, .errSeq, .defLog, .defSeq, .rb, .seqCtr] s x4 := by
      unfold x4
      refine OnlyChanges.step (closeDescs_frame _ _) ?_
      exact hx3
    clear_value x4
    refine OnlyChanges.step (postCtx_frame _ _ _) ?_
    exact hx4
  · exact (OnlyChanges.refl _ s)

theorem prgSucceeds_frame (s : State) a2 : OnlyChanges [.ctxs, .xlate, .seqCtr] s (prgSucceeds s a2) := by
  unfold prgSucceeds
  extract_lets -merge -underBinder +onlyGivenNames x1 x2
  clear_value x1
  have hx2 : OnlyChanges [.ctxs, .xlate, .seqCtr] s x2 := by
    unfold x2
    exact OnlyChanges.of (OnlyChanges.refl _ s) (by intro p hp; cases p <;> first | exact absurd (by decide) hp | exact rfl)
  clear_value x2
  split
  · refine OnlyChanges.ite1 ?_ ?_
    · refine OnlyChanges.step (wake_frame _ _) ?_
      exact hx2
    · exact hx2
  · exact hx2

theorem execPrgResponse_frame a1 a2 a3 a4 (s : State) : OnlyChangesQ [.ports, .funcs, .reads, .nextTag, .ctxs, .engineFree, .cache, .locks, .journal, .groups, .vols, .mports, .movers, .xlate, .progs, .errLog, .errSeq, .defLog, .defSeq, .rb, .fresh, .out, .seqCtr] s (execPrgResponse a1 a2 a3 a4 s) := by
  unfold execPrgResponse
  refine OnlyChangesQ.next ?_
  split
  · refine OnlyChanges.step (logErr_frame _ _ _ _ _) ?_
    refine OnlyChanges.step (unexpected_frame _ _) ?_
    exact (OnlyChanges.refl _ s)
  · extract_lets -merge -underBinder +onlyGivenNames x1 x2
    have hx1 : OnlyChanges [.ports, .funcs, .reads, .nextTag, .ctxs, .engineFree, .cache, .locks, .journal, .groups, .vols, .mports, .movers, .xlate, .progs, .errLog, .errSeq, .defLog, .defSeq, .rb, .fresh, .out, .seqCtr] s x1 := by
      unfold x1
      refine OnlyChanges.step (dropPrg_frame _ _) ?_
      exact (OnlyChanges.refl _ s)
    clear_value x1
    have hx2 : OnlyChanges [.ports, .funcs, .reads, .nextTag, .ctxs, .engineFree, .cache, .locks, .journal, .groups, .vols, .mports, .movers, .xlate, .progs, .errLog, .errSeq, .defLog, .defSeq, .rb, .fresh, .out, .seqCtr] s x2 := by
      unfold x2
      split
      · refine OnlyChanges.step (prgSucceeds_frame _ _) ?_
        exact hx1
      · refine OnlyChanges.step (prgFails_frame _ _) ?_
        refine OnlyChanges.step (logErr_frame _ _ _ _ _) ?_
        exact hx1
      · refine OnlyChanges.step (prgFails_frame _ _) ?_
        refine OnlyChanges.step (updFunc_frame _ _ _) ?_
        refine OnlyChanges.step (logErr_frame _ _ _ _ _) ?_
        exact hx1
    clear_value x2
    refine OnlyChanges.step (sendPrgs_frame _ _) ?_
    exact hx2

theorem tryResume_frame (s : State) a2 : OnlyChanges [.funcs, .reads, .nextTag, .ctxs, .engineFree, .cache, .locks, .journal, .groups, .vols, .mports, .mem, .movers, .xlate, .progs, .errLog, .errSeq, .defLog, .defSeq, .rb, .fresh, .out, .seqCtr] s (tryResume s a2) := by
  unfold tryResume
  split
  · exact (OnlyChanges.refl _ s)
  · refine OnlyChanges.ite1 ?_ ?_
    · exact (OnlyChanges.refl _ s)
    · split
      · refine OnlyChanges.step (tryTickets_frame _ _) ?_
        exact (OnlyChanges.refl _ s)
      · refine OnlyChanges.step (tryTickets_frame _ _) ?_
        exact (OnlyChanges.refl _ s)
      · refine OnlyChanges.step (tryRetire_frame _ _) ?_
        exact (OnlyChanges.refl _ s)
      · refine OnlyChanges.step (grantAll_frame _ _) ?_
        exact (OnlyChanges.refl _ s)
      · refine OnlyChanges.step (askList_frame _ _) ?_
        exact (OnlyChanges.refl _ s)
      · refine OnlyChanges.ite1 ?_ ?_
        · refine OnlyChanges.step (wake_frame _ _) ?_
          exact (OnlyChanges.refl _ s)
        · exact (OnlyChanges.refl _ s)
      · refine OnlyChanges.ite1 ?_ ?_
        · refine OnlyChanges.step (wake_frame _ _) ?_
          exact (OnlyChanges.refl _ s)
        · exact (OnlyChanges.refl _ s)
      · split
        · refine OnlyChanges.ite1 ?_ ?_
          · refine OnlyChanges.step (wake_frame _ _) ?_
            exact (OnlyChanges.refl _ s)
          · exact (OnlyChanges.refl _ s)
        · refine OnlyChanges.step (wake_frame _ _) ?_
          exact (OnlyChanges.refl _ s)
      · exact (OnlyChanges.refl _ s)

theorem execThreadResume_frame a1 (s : State) : OnlyChangesQ [.funcs, .reads, .nextTag, .ctxs, .engineFree, .cache, .locks, .journal, .groups, .vols, .mports, .mem, .movers, .xlate, .progs, .errLog, .errSeq, .defLog, .defSeq, .rb, .fresh, .out, .seqCtr] s (execThreadResume a1 s) := by
  unfold execThreadResume
  refine OnlyChangesQ.next ?_
  refine OnlyChanges.step (tryResume_frame _ _) ?_
  exact (OnlyChanges.refl _ s)

theorem recheckAll_frame (s : State) : OnlyChanges [.funcs, .reads, .nextTag, .ctxs, .engineFree, .cache, .locks, .journal, .groups, .vols, .mports, .movers, .xlate, .progs, .errLog, .errSeq, .defLog, .defSeq, .rb, .fresh, .out, .seqCtr] s (recheckAll s) := by
  unfold recheckAll
  refine OnlyChanges.foldl (fun x1 x2 hx1 => ?_) ?_
  · refine OnlyChanges.step (recheckChan_frame _ _ _) ?_
    exact hx1
  · exact (OnlyChanges.refl _ s)

theorem execTranslationCompletion_frame a1 a2 a3 a4 a5 a6 a7 (s : State) : OnlyChangesQ [.ports, .funcs, .reads, .nextTag, .ctxs, .engineFree, .cache, .locks, .journal, .groups, .vols, .mports, .movers, .xlate, .progs, .errLog, .errSeq, .defLog, .defSeq, .rb, .fresh, .out, .seqCtr] s (execTranslationCompletion a1 a2 a3 a4 a5 a6 a7 s) := by
  unfold execTranslationCompletion
  extract_lets -merge -underBinder +onlyGivenNames x1 x2 x3 x4
  clear_value x1
  clear_value x2
  clear_value x3
  clear_value x4
  refine OnlyChangesQ.next ?_
  refine OnlyChanges.ite1 ?_ ?_
  · refine OnlyChanges.step (unexpected_frame _ _) ?_
    exact (OnlyChanges.refl _ s)
  · refine OnlyChanges.step (recheckAll_frame _) ?_
    exact OnlyChanges.of (OnlyChanges.refl _ s) (by intro p hp; cases p <;> first | exact absurd (by decide) hp | exact rfl)

end Sys2Proof.Machine
end

