-- ==== Sys2Proof/Laws/FramesQueues.lean ====
section
/-! SUPPORT. Which parts of the state each function of Machine/Queues.lean can change. -/

set_option Elab.async false

namespace Sys2Proof.Machine

theorem announce_frame (s : State) a2 a3 a4 : OnlyChanges [.pwr, .funcs, .errLog, .errSeq, .fresh, .out] s (announce s a2 a3 a4) := by
  unfold announce
  extract_lets -merge -underBinder +onlyGivenNames x1 x2
  clear_value x1
  have hx2 : OnlyChanges [.pwr, .funcs, .errLog, .errSeq, .fresh, .out] s x2 := by
    unfold x2
    refine OnlyChanges.step (updSq_frame _ _ _ _) ?_
    exact (OnlyChanges.refl _ s)
  clear_value x2
  refine OnlyChanges.ite1 ?_ ?_
  · exact (OnlyChanges.refl _ s)
  · refine OnlyChanges.step (commandArrives_frame _ _) ?_
    refine OnlyChanges.ite1 ?_ ?_
    · exact hx2
    · refine OnlyChanges.step (noteBusy_frame _) ?_
      exact hx2

theorem poll_frame (s : State) a2 a3 : OnlyChanges [.funcs, .reads, .nextTag, .out] s (poll s a2 a3) := by
  unfold poll
  split
  · split
    · exact (OnlyChanges.refl _ s)
    · extract_lets -merge -underBinder +onlyGivenNames x1
      clear_value x1
      refine OnlyChanges.ite1 ?_ ?_
      · exact (OnlyChanges.refl _ s)
      · refine OnlyChanges.step (issueRead_frame _ _ _ _ _ _ _) ?_
        refine OnlyChanges.step (updSq_frame _ _ _ _) ?_
        exact (OnlyChanges.refl _ s)
  · exact (OnlyChanges.refl _ s)

theorem closeRead_frame (s : State) a2 : OnlyChanges [.reads] s (closeRead s a2) := by
  unfold closeRead
  exact OnlyChanges.of (OnlyChanges.refl _ s) (by intro p hp; cases p <;> first | exact absurd (by decide) hp | exact rfl)

theorem fetch_frame (s : State) a2 a3 : OnlyChanges [.funcs, .reads, .nextTag, .out] s (fetch s a2 a3) := by
  unfold fetch
  split
  · extract_lets -merge -underBinder +onlyGivenNames x1
    clear_value x1
    refine OnlyChanges.ite1 ?_ ?_
    · exact (OnlyChanges.refl _ s)
    · refine OnlyChanges.step (issueRead_frame _ _ _ _ _ _ _) ?_
      refine OnlyChanges.step (updSq_frame _ _ _ _) ?_
      exact (OnlyChanges.refl _ s)
  · exact (OnlyChanges.refl _ s)

theorem fetchIssue_frame (s : State) : OnlyChanges [.funcs, .reads, .nextTag, .fetchDue, .out] s (fetchIssue s) := by
  unfold fetchIssue
  refine OnlyChanges.foldl (fun x1 x2 hx1 => ?_) ?_
  · refine OnlyChanges.step (fetch_frame _ _ _) ?_
    exact hx1
  · exact OnlyChanges.of (OnlyChanges.refl _ s) (by intro p hp; cases p <;> first | exact absurd (by decide) hp | exact rfl)

theorem fetchClass_frame a1 (s : State) : OnlyChanges [.funcs, .reads, .nextTag, .out] s (fetchClass a1 s) := by
  unfold fetchClass
  refine OnlyChanges.foldl (fun x1 x2 hx1 => ?_) ?_
  · refine OnlyChanges.step (fetch_frame _ _ _) ?_
    exact hx1
  · exact (OnlyChanges.refl _ s)

theorem execCqDoorbell_frame a1 a2 a3 (s : State) : OnlyChangesQ [.funcs, .fresh] s (execCqDoorbell a1 a2 a3 s) := by
  unfold execCqDoorbell
  refine OnlyChangesQ.next ?_
  split
  · exact (OnlyChanges.refl _ s)
  · split
    · refine OnlyChanges.step (countIgn_frame _ _) ?_
      exact (OnlyChanges.refl _ s)
    · refine OnlyChanges.ite1 ?_ ?_
      · refine OnlyChanges.step (updCq_frame _ _ _ _) ?_
        exact (OnlyChanges.refl _ s)
      · refine OnlyChanges.step (markFresh_frame _ _ _ _ _) ?_
        refine OnlyChanges.step (updCq_frame _ _ _ _) ?_
        exact (OnlyChanges.refl _ s)

theorem fetchAll_frame (s : State) : OnlyChanges [.funcs, .reads, .nextTag, .out] s (fetchAll s) := by
  unfold fetchAll
  refine OnlyChanges.step (fetchClass_frame _ _) ?_
  refine OnlyChanges.step (fetchClass_frame _ _) ?_
  refine OnlyChanges.step (fetchClass_frame _ _) ?_
  exact (OnlyChanges.refl _ s)

theorem fetchArrives_frame (s : State) a2 a3 a4 a5 a6 : OnlyChanges [.pwr, .ports, .funcs, .reads, .nextTag, .fresh, .out] s (fetchArrives s a2 a3 a4 a5 a6) := by
  unfold fetchArrives
  extract_lets -merge -underBinder +onlyGivenNames x1 x2 x3
  have hx1 : OnlyChanges [.pwr, .ports, .funcs, .reads, .nextTag, .fresh, .out] s x1 := by
    unfold x1
    refine OnlyChanges.ite1 ?_ ?_
    · refine OnlyChanges.step (poisonIn_frame _ _) ?_
      exact (OnlyChanges.refl _ s)
    · exact (OnlyChanges.refl _ s)
  clear_value x1
  have hx2 : OnlyChanges [.pwr, .ports, .funcs, .reads, .nextTag, .fresh, .out] s x2 := by
    unfold x2
    refine OnlyChanges.step (updSq_frame _ _ _ _) ?_
    refine OnlyChanges.step (closeRead_frame _ _) ?_
    exact hx1
  clear_value x2
  have hx3 : OnlyChanges [.pwr, .ports, .funcs, .reads, .nextTag, .fresh, .out] s x3 := by
    unfold x3
    refine OnlyChanges.ite1 ?_ ?_
    · refine OnlyChanges.step (updPwr_frame _ _) ?_
      exact hx2
    · exact hx2
  clear_value x3
  split
  · refine OnlyChanges.step (fetchAll_frame _) ?_
    refine OnlyChanges.step (shadowWrite_frame _ _ _ _) ?_
    exact hx3
  · exact hx3

theorem execEntryFetchCompletion_frame a1 a2 a3 a4 (s : State) : OnlyChangesQ [.pwr, .ports, .funcs, .reads, .nextTag, .fresh, .out] s (execEntryFetchCompletion a1 a2 a3 a4 s) := by
  unfold execEntryFetchCompletion
  refine OnlyChangesQ.next ?_
  split
  · refine OnlyChanges.ite1 ?_ ?_
    · refine OnlyChanges.step (fetchArrives_frame _ _ _ _ _ _) ?_
      exact (OnlyChanges.refl _ s)
    · exact (OnlyChanges.refl _ s)
  · exact (OnlyChanges.refl _ s)

theorem judgePi_frame (s : State) a2 a3 a4 a5 : OnlyChanges [.pwr, .funcs, .errLog, .errSeq, .fresh, .out] s (judgePi s a2 a3 a4 a5) := by
  unfold judgePi
  refine OnlyChanges.ite1 ?_ ?_
  · refine OnlyChanges.step (announce_frame _ _ _ _) ?_
    refine OnlyChanges.step (updSq_frame _ _ _ _) ?_
    exact (OnlyChanges.refl _ s)
  · refine OnlyChanges.step (markFresh_frame _ _ _ _ _) ?_
    refine OnlyChanges.step (updSq_frame _ _ _ _) ?_
    exact (OnlyChanges.refl _ s)

theorem pollArrives_frame (s : State) a2 a3 a4 a5 a6 : OnlyChanges [.pwr, .ports, .funcs, .reads, .nextTag, .errLog, .errSeq, .fresh, .out] s (pollArrives s a2 a3 a4 a5 a6) := by
  unfold pollArrives
  extract_lets -merge -underBinder +onlyGivenNames x1 x2
  have hx1 : OnlyChanges [.pwr, .ports, .funcs, .reads, .nextTag, .errLog, .errSeq, .fresh, .out] s x1 := by
    unfold x1
    refine OnlyChanges.ite1 ?_ ?_
    · refine OnlyChanges.step (poisonIn_frame _ _) ?_
      exact (OnlyChanges.refl _ s)
    · exact (OnlyChanges.refl _ s)
  clear_value x1
  have hx2 : OnlyChanges [.pwr, .ports, .funcs, .reads, .nextTag, .errLog, .errSeq, .fresh, .out] s x2 := by
    unfold x2
    refine OnlyChanges.step (updSq_frame _ _ _ _) ?_
    refine OnlyChanges.step (closeRead_frame _ _) ?_
    exact hx1
  clear_value x2
  split
  · exact hx2
  · extract_lets -merge -underBinder +onlyGivenNames x3
    have hx3 : OnlyChanges [.pwr, .ports, .funcs, .reads, .nextTag, .errLog, .errSeq, .fresh, .out] s x3 := by
      unfold x3
      refine OnlyChanges.ite1 ?_ ?_
      · exact hx2
      · refine OnlyChanges.ite1 ?_ ?_
        · refine OnlyChanges.step (judgePi_frame _ _ _ _ _) ?_
          refine OnlyChanges.step (updSq_frame _ _ _ _) ?_
          exact hx2
        · refine OnlyChanges.step (judgePi_frame _ _ _ _ _) ?_
          exact hx2
    clear_value x3
    refine OnlyChanges.step (poll_frame _ _ _) ?_
    refine OnlyChanges.step (fetch_frame _ _ _) ?_
    exact hx3

theorem execInlineBufferWrite_frame a1 a2 a3 a4 a5 (s : State) : OnlyChangesQ [.ports, .funcs, .fresh, .out] s (execInlineBufferWrite a1 a2 a3 a4 a5 s) := by
  unfold execInlineBufferWrite
  refine OnlyChangesQ.next ?_
  split
  · exact (OnlyChanges.refl _ s)
  · extract_lets -merge -underBinder +onlyGivenNames x1
    have hx1 : OnlyChanges [.ports, .funcs, .fresh, .out] s x1 := by
      unfold x1
      refine OnlyChanges.ite1 ?_ ?_
      · refine OnlyChanges.step (poisonIn_frame _ _) ?_
        exact (OnlyChanges.refl _ s)
      · exact (OnlyChanges.refl _ s)
    clear_value x1
    split
    · refine OnlyChanges.step (countIgn_frame _ _) ?_
      exact hx1
    · extract_lets -merge -underBinder +onlyGivenNames x2 x3
      clear_value x2
      clear_value x3
      refine OnlyChanges.ite1 ?_ ?_
      · refine OnlyChanges.step (countIgn_frame _ _) ?_
        exact hx1
      · refine OnlyChanges.step (updSq_frame _ _ _ _) ?_
        exact hx1

theorem execPollCompletion_frame a1 a2 a3 (s : State) : OnlyChangesQ [.pwr, .ports, .funcs, .reads, .nextTag, .errLog, .errSeq, .fresh, .out] s (execPollCompletion a1 a2 a3 s) := by
  unfold execPollCompletion
  refine OnlyChangesQ.next ?_
  split
  · refine OnlyChanges.step (pollArrives_frame _ _ _ _ _ _) ?_
    exact (OnlyChanges.refl _ s)
  · split
    · refine OnlyChanges.ite1 ?_ ?_
      · exact (OnlyChanges.refl _ s)
      · refine OnlyChanges.step (countIgn_frame _ _) ?_
        exact (OnlyChanges.refl _ s)
    · exact (OnlyChanges.refl _ s)

theorem execPushDoorbell_frame a1 a2 a3 (s : State) : OnlyChangesQ [.pwr, .funcs, .errLog, .errSeq, .fresh, .out] s (execPushDoorbell a1 a2 a3 s) := by
  unfold execPushDoorbell
  refine OnlyChangesQ.next ?_
  split
  · exact (OnlyChanges.refl _ s)
  · split
    · refine OnlyChanges.step (countIgn_frame _ _) ?_
      exact (OnlyChanges.refl _ s)
    · extract_lets -merge -underBinder +onlyGivenNames x1 x2
      clear_value x1
      have hx2 : OnlyChanges [.pwr, .funcs, .errLog, .errSeq, .fresh, .out] s x2 := by
        unfold x2
        refine OnlyChanges.step (updSq_frame _ _ _ _) ?_
        exact (OnlyChanges.refl _ s)
      clear_value x2
      refine OnlyChanges.ite1 ?_ ?_
      · refine OnlyChanges.step (countIgn_frame _ _) ?_
        exact (OnlyChanges.refl _ s)
      · refine OnlyChanges.step (judgePi_frame _ _ _ _ _) ?_
        exact hx2

theorem execPushEntryWrite_frame a1 a2 a3 a4 a5 (s : State) : OnlyChangesQ [.ports, .funcs, .fresh, .out] s (execPushEntryWrite a1 a2 a3 a4 a5 s) := by
  unfold execPushEntryWrite
  refine OnlyChangesQ.next ?_
  split
  · exact (OnlyChanges.refl _ s)
  · extract_lets -merge -underBinder +onlyGivenNames x1
    have hx1 : OnlyChanges [.ports, .funcs, .fresh, .out] s x1 := by
      unfold x1
      refine OnlyChanges.ite1 ?_ ?_
      · refine OnlyChanges.step (poisonIn_frame _ _) ?_
        exact (OnlyChanges.refl _ s)
      · exact (OnlyChanges.refl _ s)
    clear_value x1
    split
    · refine OnlyChanges.step (countIgn_frame _ _) ?_
      exact hx1
    · refine OnlyChanges.ite1 ?_ ?_
      · refine OnlyChanges.step (countIgn_frame _ _) ?_
        exact hx1
      · refine OnlyChanges.step (updSq_frame _ _ _ _) ?_
        exact hx1

theorem execShadowPoll_frame a1 a2 (s : State) : OnlyChangesQ [.funcs, .reads, .nextTag, .out] s (execShadowPoll a1 a2 s) := by
  unfold execShadowPoll
  refine OnlyChangesQ.next ?_
  refine OnlyChanges.step (poll_frame _ _ _) ?_
  exact (OnlyChanges.refl _ s)

theorem fetchSoon_frame (s : State) a2 a3 : OnlyChanges [.fetchDue] s (fetchSoon s a2 a3) := by
  unfold fetchSoon
  exact OnlyChanges.of (OnlyChanges.refl _ s) (by intro p hp; cases p <;> first | exact absurd (by decide) hp | exact rfl)

theorem execSqDoorbell_frame a1 a2 a3 (s : State) : OnlyChangesQ [.pwr, .funcs, .errLog, .errSeq, .fresh, .fetchDue, .out] s (execSqDoorbell a1 a2 a3 s) := by
  unfold execSqDoorbell
  refine OnlyChangesQ.next ?_
  split
  · exact (OnlyChanges.refl _ s)
  · split
    · refine OnlyChanges.step (countIgn_frame _ _) ?_
      exact (OnlyChanges.refl _ s)
    · refine OnlyChanges.ite1 ?_ ?_
      · refine OnlyChanges.step (countIgn_frame _ _) ?_
        exact (OnlyChanges.refl _ s)
      · refine OnlyChanges.step (fetchSoon_frame _ _ _) ?_
        refine OnlyChanges.step (judgePi_frame _ _ _ _ _) ?_
        refine OnlyChanges.step (updSq_frame _ _ _ _) ?_
        exact (OnlyChanges.refl _ s)

end Sys2Proof.Machine
end

