-- ==== Sys2Proof/Laws/FramesAdmin.lean ====
section
/-! SUPPORT. Which parts of the state each function of Machine/Admin.lean can change. -/

set_option Elab.async false

namespace Sys2Proof.Machine

theorem adminOk_frame (s : State) a2 : OnlyChanges [.funcs, .out, .seqCtr] s (adminOk s a2) := by
  unfold adminOk
  refine OnlyChanges.step (adminDone_frame _ _ _ _) ?_
  exact (OnlyChanges.refl _ s)

theorem addExpEntry_frame (s : State) a2 : OnlyChanges [.adm] s (addExpEntry s a2) := by
  unfold addExpEntry
  refine OnlyChanges.ite1 ?_ ?_
  · exact (OnlyChanges.refl _ s)
  · refine OnlyChanges.step (updAdm_frame _ _) ?_
    exact (OnlyChanges.refl _ s)

theorem adminBad_frame (s : State) a2 : OnlyChanges [.funcs, .out, .seqCtr] s (adminBad s a2) := by
  unfold adminBad
  refine OnlyChanges.step (adminDone_frame _ _ _ _) ?_
  exact (OnlyChanges.refl _ s)

theorem adminTake_frame (s : State) a2 : OnlyChanges [.mbx] s (adminTake s a2) := by
  unfold adminTake
  extract_lets -merge -underBinder +onlyGivenNames x1
  clear_value x1
  exact OnlyChanges.of (OnlyChanges.refl _ s) (by intro p hp; cases p <;> first | exact absurd (by decide) hp | exact rfl)

theorem adminRun_frame {F : List Part} {s t : State} {a : AdminCmd} {row : Bool} {fm : AdminForm} {body : AdminCmd → State → State}
    (k : ∀ c u, OnlyChanges F s u → OnlyChanges F s (body c u)) (h : OnlyChanges F s t) (w : Part.sub [.ports, .funcs, .mbx, .fresh, .out, .seqCtr] F = true := by decide) :
    OnlyChanges F s (adminRun t a row fm body) := by
  have d : ∀ u c st b, OnlyChanges F s u → OnlyChanges F s (adminDone u c st b) := fun u c st b hu =>
    OnlyChanges.step (adminDone_frame _ _ _ _) hu (Part.sub_trans (by decide) w)
  have e : OnlyChanges F s (adminTake t a.port) := OnlyChanges.step (adminTake_frame _ _) h (Part.sub_trans (by decide) w)
  have p : OnlyChanges F s (poisonIn (adminTake t a.port) (64 * a.port)) :=
    OnlyChanges.step (poisonIn_frame _ _) e (Part.sub_trans (by decide) w)
  unfold adminRun
  dsimp only
  repeat' split
  all_goals first | exact h | exact d _ _ _ _ e | exact k _ _ e | exact d _ _ _ _ p

theorem adminSend_frame (s : State) a2 a3 : OnlyChanges [.funcs, .out, .seqCtr] s (adminSend s a2 a3) := by
  unfold adminSend
  refine OnlyChanges.step (adminOk_frame _ _) ?_
  refine OnlyChanges.step (emitAdmin_frame _ _ _) ?_
  exact (OnlyChanges.refl _ s)

theorem noteSums_frame a1 (s : State) : OnlyChanges [.rb] s (noteSums a1 s) := by
  unfold noteSums
  refine OnlyChanges.ite1 ?_ ?_
  · exact (OnlyChanges.refl _ s)
  · refine OnlyChanges.step (rbChange_frame _) ?_
    exact (OnlyChanges.refl _ s)

theorem attachVolume_frame (s : State) a2 : OnlyChanges [.funcs, .vols, .rb, .out, .seqCtr] s (attachVolume s a2) := by
  unfold attachVolume
  extract_lets -merge -underBinder +onlyGivenNames x1 x2
  clear_value x1
  clear_value x2
  split
  · refine OnlyChanges.step (adminBad_frame _ _) ?_
    exact (OnlyChanges.refl _ s)
  · extract_lets -merge -underBinder +onlyGivenNames x3
    have hx3 : OnlyChanges [.funcs, .vols, .rb, .out, .seqCtr] s x3 := by
      unfold x3
      refine OnlyChanges.step (updVol_frame _ _ _) ?_
      exact (OnlyChanges.refl _ s)
    clear_value x3
    refine OnlyChanges.ite1 ?_ ?_
    · refine OnlyChanges.step (adminBad_frame _ _) ?_
      exact (OnlyChanges.refl _ s)
    · refine OnlyChanges.ite1 ?_ ?_
      · refine OnlyChanges.step (adminOk_frame _ _) ?_
        exact (OnlyChanges.refl _ s)
      · refine OnlyChanges.ite1 ?_ ?_
        · refine OnlyChanges.step (adminOk_frame _ _) ?_
          refine OnlyChanges.step (noteSums_frame _ _) ?_
          exact hx3
        · refine OnlyChanges.step (adminBad_frame _ _) ?_
          exact (OnlyChanges.refl _ s)

theorem createVolume_frame (s : State) a2 : OnlyChanges [.funcs, .groups, .vols, .rb, .out, .seqCtr] s (createVolume s a2) := by
  unfold createVolume
  extract_lets -merge -underBinder +onlyGivenNames x1 x2 x3
  clear_value x1
  clear_value x2
  clear_value x3
  split
  · refine OnlyChanges.step (adminBad_frame _ _) ?_
    exact (OnlyChanges.refl _ s)
  · refine OnlyChanges.ite1 ?_ ?_
    · refine OnlyChanges.step (adminBad_frame _ _) ?_
      exact (OnlyChanges.refl _ s)
    · refine OnlyChanges.ite1 ?_ ?_
      · refine OnlyChanges.step (adminDone_frame _ _ _ _) ?_
        exact (OnlyChanges.refl _ s)
      · split
        · refine OnlyChanges.step (adminBad_frame _ _) ?_
          exact (OnlyChanges.refl _ s)
        · extract_lets -merge -underBinder +onlyGivenNames x4
          have hx4 : OnlyChanges [.funcs, .groups, .vols, .rb, .out, .seqCtr] s x4 := by
            unfold x4
            exact OnlyChanges.of (OnlyChanges.refl _ s) (by intro p hp; cases p <;> first | exact absurd (by decide) hp | exact rfl)
          clear_value x4
          refine OnlyChanges.ite1 ?_ ?_
          · refine OnlyChanges.step (adminBad_frame _ _) ?_
            exact (OnlyChanges.refl _ s)
          · refine OnlyChanges.ite1 ?_ ?_
            · refine OnlyChanges.step (updVol_frame _ _ _) ?_
              refine OnlyChanges.step (rbChange_frame _) ?_
              exact hx4
            · refine OnlyChanges.step (adminOk_frame _ _) ?_
              refine OnlyChanges.step (rbChange_frame _) ?_
              exact hx4

theorem detachVolume_frame (s : State) a2 : OnlyChanges [.funcs, .cache, .groups, .vols, .freedVols, .fare, .rb, .out, .seqCtr] s (detachVolume s a2) := by
  unfold detachVolume
  extract_lets -merge -underBinder +onlyGivenNames x1 x2
  clear_value x1
  clear_value x2
  split
  · refine OnlyChanges.step (adminBad_frame _ _) ?_
    exact (OnlyChanges.refl _ s)
  · refine OnlyChanges.ite1 ?_ ?_
    · refine OnlyChanges.step (adminBad_frame _ _) ?_
      exact (OnlyChanges.refl _ s)
    · refine OnlyChanges.step (volSettle_frame _ _) ?_
      refine OnlyChanges.step (noteSums_frame _ _) ?_
      refine OnlyChanges.step (updVol_frame _ _ _) ?_
      exact (OnlyChanges.refl _ s)

theorem execBindRoute_frame a1 (s : State) : OnlyChangesQ [.ports, .funcs, .vols, .mbx, .fresh, .out, .seqCtr] s (execBindRoute a1 s) := by
  unfold execBindRoute
  refine OnlyChangesQ.next ?_
  refine adminRun_frame ?_ ?_
  · intro x1 x2 hx2
    extract_lets -merge -underBinder +onlyGivenNames x3 x4
    clear_value x3
    clear_value x4
    split
    · refine OnlyChanges.step (adminBad_frame _ _) ?_
      exact hx2
    · refine OnlyChanges.ite1 ?_ ?_
      · refine OnlyChanges.step (adminOk_frame _ _) ?_
        refine OnlyChanges.step (updVol_frame _ _ _) ?_
        exact hx2
      · refine OnlyChanges.step (adminBad_frame _ _) ?_
        exact hx2
  · exact (OnlyChanges.refl _ s)

theorem execCreateQueue_frame a1 (s : State) : OnlyChangesQ [.adm, .ports, .funcs, .reads, .nextTag, .mbx, .fresh, .out, .seqCtr] s (execCreateQueue a1 s) := by
  unfold execCreateQueue
  refine OnlyChangesQ.next ?_
  refine adminRun_frame ?_ ?_
  · intro x1 x2 hx2
    extract_lets -merge -underBinder +onlyGivenNames x3
    clear_value x3
    refine OnlyChanges.ite1 ?_ ?_
    · refine OnlyChanges.step (adminOk_frame _ _) ?_
      refine OnlyChanges.step (poll_frame _ _ _) ?_
      refine OnlyChanges.step (addExpEntry_frame _ _) ?_
      refine OnlyChanges.step (updFunc_frame _ _ _) ?_
      exact hx2
    · refine OnlyChanges.step (adminBad_frame _ _) ?_
      exact hx2
  · exact (OnlyChanges.refl _ s)

theorem execCreateVolumeAttach_frame a1 (s : State) : OnlyChangesQ [.ports, .funcs, .vols, .mbx, .rb, .fresh, .out, .seqCtr] s (execCreateVolumeAttach a1 s) := by
  unfold execCreateVolumeAttach
  refine OnlyChangesQ.next ?_
  refine adminRun_frame ?_ ?_
  · intro x1 x2 hx2
    refine OnlyChanges.step (attachVolume_frame _ _) ?_
    exact hx2
  · exact (OnlyChanges.refl _ s)

theorem execCreateVolumeCreate_frame a1 (s : State) : OnlyChangesQ [.ports, .funcs, .groups, .vols, .mbx, .rb, .fresh, .out, .seqCtr] s (execCreateVolumeCreate a1 s) := by
  unfold execCreateVolumeCreate
  extract_lets -merge -underBinder +onlyGivenNames x1
  clear_value x1
  refine OnlyChangesQ.next ?_
  refine adminRun_frame ?_ ?_
  · intro x2 x3 hx3
    refine OnlyChanges.ite1 ?_ ?_
    · refine OnlyChanges.step (adminBad_frame _ _) ?_
      exact hx3
    · refine OnlyChanges.step (createVolume_frame _ _) ?_
      exact hx3
  · exact (OnlyChanges.refl _ s)

theorem execCreateVolumeDetach_frame a1 (s : State) : OnlyChangesQ [.ports, .funcs, .cache, .groups, .vols, .freedVols, .mbx, .fare, .rb, .fresh, .out, .seqCtr] s (execCreateVolumeDetach a1 s) := by
  unfold execCreateVolumeDetach
  refine OnlyChangesQ.next ?_
  refine adminRun_frame ?_ ?_
  · intro x1 x2 hx2
    refine OnlyChanges.step (detachVolume_frame _ _) ?_
    exact hx2
  · exact (OnlyChanges.refl _ s)

theorem execDeleteVolume_frame a1 (s : State) : OnlyChangesQ [.ports, .funcs, .cache, .groups, .vols, .freedVols, .mbx, .fare, .rb, .fresh, .out, .seqCtr] s (execDeleteVolume a1 s) := by
  unfold execDeleteVolume
  refine OnlyChangesQ.next ?_
  refine adminRun_frame ?_ ?_
  · intro x1 x2 hx2
    extract_lets -merge -underBinder +onlyGivenNames x3
    clear_value x3
    split
    · refine OnlyChanges.step (adminBad_frame _ _) ?_
      exact hx2
    · refine OnlyChanges.step (volSettle_frame _ _) ?_
      refine OnlyChanges.step (rbChange_frame _) ?_
      refine OnlyChanges.step (updVol_frame _ _ _) ?_
      exact hx2
  · exact (OnlyChanges.refl _ s)

theorem execIdentifyVolume_frame a1 (s : State) : OnlyChangesQ [.ports, .funcs, .mbx, .fresh, .out, .seqCtr] s (execIdentifyVolume a1 s) := by
  unfold execIdentifyVolume
  refine OnlyChangesQ.next ?_
  refine adminRun_frame ?_ ?_
  · intro x1 x2 hx2
    refine OnlyChanges.ite1 ?_ ?_
    · refine OnlyChanges.step (adminBad_frame _ _) ?_
      exact hx2
    · refine OnlyChanges.step (adminSend_frame _ _ _) ?_
      exact hx2
  · exact (OnlyChanges.refl _ s)

theorem execSetPower_frame a1 (s : State) : OnlyChangesQ [.pwr, .ports, .funcs, .mbx, .fresh, .out, .seqCtr] s (execSetPower a1 s) := by
  unfold execSetPower
  refine OnlyChangesQ.next ?_
  refine adminRun_frame ?_ ?_
  · intro x1 x2 hx2
    extract_lets -merge -underBinder +onlyGivenNames x3 x4 x5 x6 x7
    clear_value x3
    clear_value x4
    clear_value x5
    have hx6 : OnlyChanges [.pwr, .ports, .funcs, .mbx, .fresh, .out, .seqCtr] s x6 := by
      unfold x6
      refine OnlyChanges.step (updPwr_frame _ _) ?_
      exact hx2
    clear_value x6
    have hx7 : OnlyChanges [.pwr, .ports, .funcs, .mbx, .fresh, .out, .seqCtr] s x7 := by
      unfold x7
      refine OnlyChanges.foldl (fun x8 x9 hx8 => ?_) ?_
      · refine OnlyChanges.step (adminOk_frame _ _) ?_
        exact hx8
      · exact hx6
    clear_value x7
    refine OnlyChanges.ite1 ?_ ?_
    · refine OnlyChanges.step (adminBad_frame _ _) ?_
      exact hx2
    · refine OnlyChanges.ite1 ?_ ?_
      · refine OnlyChanges.step (adminOk_frame _ _) ?_
        exact hx7
      · refine OnlyChanges.step (updPwr_frame _ _) ?_
        exact hx7
  · exact (OnlyChanges.refl _ s)

end Sys2Proof.Machine
end

