-- ==== Sys2Proof/Laws/FramesTags.lean ====
section
/-! SUPPORT. Which parts of the state each function of Machine/Tags.lean can change. -/

set_option Elab.async false

namespace Sys2Proof.Machine

theorem tagRefused_frame (s : State) a2 : OnlyChanges [.errLog, .errSeq] s (tagRefused s a2) := by
  unfold tagRefused
  refine OnlyChanges.ite1 ?_ ?_
  · refine OnlyChanges.step (logErr_frame _ _ _ _ _) ?_
    exact (OnlyChanges.refl _ s)
  · exact (OnlyChanges.refl _ s)

theorem noteTag_frame (s : State) a2 a3 : OnlyChanges [.errLog, .errSeq, .rb, .out] s (noteTag s a2 a3) := by
  unfold noteTag
  refine OnlyChanges.step (rbChange_frame _) ?_
  refine OnlyChanges.step (emit_frame _ _) ?_
  refine OnlyChanges.step (logErr_frame _ _ _ _ _) ?_
  exact (OnlyChanges.refl _ s)

theorem tagStore_frame (s : State) a2 a3 : OnlyChanges [.pwr, .errLog, .errSeq, .rb, .out] s (tagStore s a2 a3) := by
  unfold tagStore
  extract_lets -merge -underBinder +onlyGivenNames x1 x2 x3 x4 x5
  clear_value x1
  clear_value x2
  clear_value x3
  clear_value x4
  clear_value x5
  refine OnlyChanges.step (noteTag_frame _ _ _) ?_
  exact OnlyChanges.of (OnlyChanges.refl _ s) (by intro p hp; cases p <;> first | exact absurd (by decide) hp | exact rfl)

theorem storeProfile_frame (s : State) a2 a3 a4 : OnlyChangesP [.pwr, .errLog, .errSeq, .rb, .out] s (storeProfile s a2 a3 a4) := by
  unfold storeProfile
  split
  · refine OnlyChangesP.mk ?_
    exact (OnlyChanges.refl _ s)
  · split
    · refine OnlyChangesP.mk ?_
      refine OnlyChanges.step (tagRefused_frame _ _) ?_
      exact (OnlyChanges.refl _ s)
    · extract_lets -merge -underBinder +onlyGivenNames x1
      clear_value x1
      refine OnlyChangesP.mk ?_
      refine OnlyChanges.step (tagStore_frame _ _ _) ?_
      exact (OnlyChanges.refl _ s)

end Sys2Proof.Machine
end

