-- ==== Sys2Proof/Laws/FramesAdminMembers.lean ====
section
/-! SUPPORT. Which parts of the state each function of Machine/AdminMembers.lean can change. -/

set_option Elab.async false

namespace Sys2Proof.Machine

theorem OnlyChangesA.finish {F : List Part} {s t : State} {r : Acted} {a : AdminCmd} (k : OnlyChangesA F s r)
    (h : OnlyChanges F s t) (w : Part.sub [.funcs, .out, .seqCtr] F = true := by decide) : OnlyChanges F s (r.finish t a) := by
  cases r with
  | refused st => exact OnlyChanges.step (adminDone_frame _ _ _ _) h (by simpa using w)
  | turned st u => exact OnlyChanges.step (adminDone_frame _ _ _ _) k (by simpa using w)
  | done u => exact OnlyChanges.step (adminOk_frame _ _) k (by simpa using w)
  | waits u => exact k

theorem renumber_frame (s : State) a2 a3 : OnlyChanges [.groups, .mports, .mem] s (renumber s a2 a3) := by
  unfold renumber
  split
  · exact (OnlyChanges.refl _ s)
  · extract_lets -merge -underBinder +onlyGivenNames x1 x2 x3
    clear_value x1
    clear_value x2
    clear_value x3
    exact OnlyChanges.of (OnlyChanges.refl _ s) (by intro p hp; cases p <;> first | exact absurd (by decide) hp | exact rfl)

theorem actAdopt_frame (s : State) a2 a3 a4 a5 : OnlyChangesA [.groups, .mports, .mem, .rb] s (actAdopt s a2 a3 a4 a5) := by
  unfold actAdopt
  extract_lets -merge -underBinder +onlyGivenNames x1
  clear_value x1
  split
  · exact OnlyChangesA.refused
  · refine OnlyChanges.ite8 ?_ ?_
    · exact OnlyChangesA.refused
    · refine OnlyChangesA.waits ?_
      refine OnlyChanges.step (rbChange_frame _) ?_
      refine OnlyChanges.step (updGroup_frame _ _ _) ?_
      refine OnlyChanges.step (renumber_frame _ _ _) ?_
      exact (OnlyChanges.refl _ s)

theorem actFail_frame (s : State) a2 : OnlyChangesA [.adm, .funcs, .ctxs, .cache, .locks, .journal, .groups, .vols, .mports, .mem, .errLog, .errSeq, .defLog, .defSeq, .rb, .out, .seqCtr] s (actFail s a2) := by
  unfold actFail
  split
  · exact OnlyChangesA.refused
  · split
    · exact OnlyChangesA.refused
    · refine OnlyChanges.ite8 ?_ ?_
      · exact OnlyChangesA.refused
      · refine OnlyChanges.ite8 ?_ ?_
        · exact OnlyChangesA.refused
        · refine OnlyChangesA.done ?_
          refine OnlyChanges.step (failMember_frame _ _ _) ?_
          exact (OnlyChanges.refl _ s)

theorem actFormat_frame (s : State) a2 a3 a4 a5 : OnlyChangesA [.adm, .groups, .mports, .out] s (actFormat s a2 a3 a4 a5) := by
  unfold actFormat
  split
  · refine OnlyChanges.ite8 ?_ ?_
    · refine OnlyChangesA.waits ?_
      refine OnlyChanges.step (sendAdmin_frame _ _ _ _) ?_
      exact (OnlyChanges.refl _ s)
    · exact OnlyChangesA.refused
  · exact OnlyChangesA.refused

theorem actPowerOff_frame (s : State) a2 : OnlyChangesA [.ctxs, .cache, .journal, .mports, .rb, .out, .seqCtr] s (actPowerOff s a2) := by
  unfold actPowerOff
  split
  · exact OnlyChangesA.refused
  · refine OnlyChanges.ite8 ?_ ?_
    · exact OnlyChangesA.refused
    · refine OnlyChangesA.done ?_
      refine OnlyChanges.step (rbChange_frame _) ?_
      refine OnlyChanges.step (emit_frame _ _) ?_
      refine OnlyChanges.step (updMport_frame _ _ _) ?_
      refine OnlyChanges.step (loseCmds_frame _ _) ?_
      exact (OnlyChanges.refl _ s)

theorem actProfile_frame (s : State) a2 a3 a4 : OnlyChangesA [.pwr, .adm, .mports, .errLog, .errSeq, .rb, .fresh, .out] s (actProfile s a2 a3 a4) := by
  unfold actProfile
  split
  · exact OnlyChangesA.refused
  · refine OnlyChanges.ite8 ?_ ?_
    · exact OnlyChangesA.refused
    · split
      · rename_i x1 x2
        have hx1 : OnlyChanges [.pwr, .adm, .mports, .errLog, .errSeq, .rb, .fresh, .out] s x1 := by
          refine OnlyChangesP.of_eq x2 ?_
          refine OnlyChangesP.step (storeProfile_frame _ _ _ _) ?_
          exact (OnlyChanges.refl _ s)
        extract_lets -merge -underBinder +onlyGivenNames x3
        have hx3 : OnlyChanges [.pwr, .adm, .mports, .errLog, .errSeq, .rb, .fresh, .out] s x3 := by
          unfold x3
          refine OnlyChanges.step (updMport_frame _ _ _) ?_
          exact hx1
        clear_value x3
        refine OnlyChangesA.done ?_
        refine OnlyChanges.step (rbChange_frame _) ?_
        refine OnlyChanges.step (recomputeCeil_frame _) ?_
        exact hx3
      · rename_i x4 x5 x6 x6b
        have hx5 : OnlyChanges [.pwr, .adm, .mports, .errLog, .errSeq, .rb, .fresh, .out] s x5 := by
          refine OnlyChangesP.of_eq x6b ?_
          refine OnlyChangesP.step (storeProfile_frame _ _ _ _) ?_
          exact (OnlyChanges.refl _ s)
        refine OnlyChangesA.turned ?_
        exact hx5

theorem freeIndex_frame (s : State) a2 a3 a4 : OnlyChanges [.mports] s (freeIndex s a2 a3 a4) := by
  unfold freeIndex
  exact OnlyChanges.of (OnlyChanges.refl _ s) (by intro p hp; cases p <;> first | exact absurd (by decide) hp | exact rfl)

theorem actReplace_frame (s : State) a2 a3 : OnlyChangesA [.adm, .groups, .mports, .rb, .fresh, .out] s (actReplace s a2 a3) := by
  unfold actReplace
  extract_lets -merge -underBinder +onlyGivenNames x1 x2
  clear_value x1
  clear_value x2
  split
  · extract_lets -merge -underBinder +onlyGivenNames x3 x4 x5 x6
    have hx3 : OnlyChanges [.adm, .groups, .mports, .rb, .fresh, .out] s x3 := by
      unfold x3
      refine OnlyChanges.step (freeIndex_frame _ _ _ _) ?_
      exact (OnlyChanges.refl _ s)
    clear_value x3
    have hx4 : OnlyChanges [.adm, .groups, .mports, .rb, .fresh, .out] s x4 := by
      unfold x4
      refine OnlyChanges.step (updMport_frame _ _ _) ?_
      exact hx3
    clear_value x4
    have hx5 : OnlyChanges [.adm, .groups, .mports, .rb, .fresh, .out] s x5 := by
      unfold x5
      refine OnlyChanges.step (updGroup_frame _ _ _) ?_
      exact hx4
    clear_value x5
    have hx6 : OnlyChanges [.adm, .groups, .mports, .rb, .fresh, .out] s x6 := by
      unfold x6
      refine OnlyChanges.step (updGroup_frame _ _ _) ?_
      exact hx5
    clear_value x6
    refine OnlyChanges.ite8 ?_ ?_
    · exact OnlyChangesA.refused
    · refine OnlyChanges.ite8 ?_ ?_
      · exact OnlyChangesA.refused
      · refine OnlyChangesA.done ?_
        refine OnlyChanges.step (rbChange_frame _) ?_
        refine OnlyChanges.step (recomputeCeil_frame _) ?_
        refine OnlyChanges.step (applyDepth_frame _ _) ?_
        exact hx6
  · exact OnlyChangesA.refused

theorem actReset_frame (s : State) a2 a3 : OnlyChangesA [.ctxs, .cache, .journal, .mports, .rb, .out, .seqCtr] s (actReset s a2 a3) := by
  unfold actReset
  split
  · exact OnlyChangesA.refused
  · extract_lets -merge -underBinder +onlyGivenNames x0 x1
    have hx1 : OnlyChanges [.ctxs, .cache, .journal, .mports, .rb, .out, .seqCtr] s x1 := by
      unfold x1
      refine OnlyChanges.step (updMport_frame _ _ _) ?_
      refine OnlyChanges.step (loseCmds_frame _ _) ?_
      exact (OnlyChanges.refl _ s)
    clear_value x1
    refine OnlyChanges.ite8 ?_ ?_
    · exact OnlyChangesA.refused
    · refine OnlyChangesA.waits ?_
      refine OnlyChanges.step (rbChange_frame _) ?_
      refine OnlyChanges.step (emit_frame _ _) ?_
      exact hx1

theorem dropGroupRecs_frame (s : State) a2 : OnlyChanges [.ctxs, .cache, .journal, .seqCtr] s (dropGroupRecs s a2) := by
  unfold dropGroupRecs
  refine OnlyChanges.foldl (fun x1 x2 hx1 => ?_) ?_
  · extract_lets -merge -underBinder +onlyGivenNames x3
    have hx3 : OnlyChanges [.ctxs, .cache, .journal, .seqCtr] s x3 := by
      unfold x3
      refine OnlyChanges.foldl (fun x4 x5 hx4 => ?_) ?_
      · refine OnlyChanges.step (updFrame_frame _ _ _) ?_
        exact hx4
      · exact hx1
    clear_value x3
    refine OnlyChanges.step (dropRec_frame _ _) ?_
    exact hx3
  · exact (OnlyChanges.refl _ s)

theorem eraseVol_frame (s : State) a2 a3 : OnlyChanges [.funcs, .cache, .vols, .fare, .out, .seqCtr] s (eraseVol s a2 a3) := by
  unfold eraseVol
  extract_lets -merge -underBinder +onlyGivenNames x1 x2 x3
  have hx1 : OnlyChanges [.funcs, .cache, .vols, .fare, .out, .seqCtr] s x1 := by
    unfold x1
    refine OnlyChanges.step (dropVolFrames_frame _ _) ?_
    exact (OnlyChanges.refl _ s)
  clear_value x1
  clear_value x2
  have hx3 : OnlyChanges [.funcs, .cache, .vols, .fare, .out, .seqCtr] s x3 := by
    unfold x3
    exact OnlyChanges.of hx1 (by intro p hp; cases p <;> first | exact absurd (by decide) hp | exact rfl)
  clear_value x3
  refine OnlyChanges.foldl (fun x4 x5 hx4 => ?_) ?_
  · refine OnlyChanges.step (adminOk_frame _ _) ?_
    exact hx4
  · exact hx3

theorem retireGroup_frame (s : State) a2 a3 : OnlyChanges [.adm, .funcs, .ctxs, .cache, .journal, .groups, .vols, .mports, .mem, .fare, .rb, .fresh, .out, .seqCtr] s (retireGroup s a2 a3) := by
  unfold retireGroup
  extract_lets -merge -underBinder +onlyGivenNames x1 x2 x3 x4 x5 x6 x7 x8 x9
  clear_value x1
  clear_value x2
  have hx3 : OnlyChanges [.adm, .funcs, .ctxs, .cache, .journal, .groups, .vols, .mports, .mem, .fare, .rb, .fresh, .out, .seqCtr] s x3 := by
    unfold x3
    refine OnlyChanges.step (dropGroupRecs_frame _ _) ?_
    exact (OnlyChanges.refl _ s)
  clear_value x3
  have hx4 : OnlyChanges [.adm, .funcs, .ctxs, .cache, .journal, .groups, .vols, .mports, .mem, .fare, .rb, .fresh, .out, .seqCtr] s x4 := by
    unfold x4
    refine OnlyChanges.foldl (fun x10 x11 hx10 => ?_) ?_
    · refine OnlyChanges.step (eraseVol_frame _ _ _) ?_
      exact hx10
    · exact hx3
  clear_value x4
  have hx5 : OnlyChanges [.adm, .funcs, .ctxs, .cache, .journal, .groups, .vols, .mports, .mem, .fare, .rb, .fresh, .out, .seqCtr] s x5 := by
    unfold x5
    refine OnlyChanges.step (updCache_frame _ _) ?_
    exact hx4
  clear_value x5
  clear_value x6
  have hx7 : OnlyChanges [.adm, .funcs, .ctxs, .cache, .journal, .groups, .vols, .mports, .mem, .fare, .rb, .fresh, .out, .seqCtr] s x7 := by
    unfold x7
    exact OnlyChanges.of hx5 (by intro p hp; cases p <;> first | exact absurd (by decide) hp | exact rfl)
  clear_value x7
  have hx8 : OnlyChanges [.adm, .funcs, .ctxs, .cache, .journal, .groups, .vols, .mports, .mem, .fare, .rb, .fresh, .out, .seqCtr] s x8 := by
    unfold x8
    refine OnlyChanges.foldl (fun x12 x13 hx12 => ?_) ?_
    · split
      · refine OnlyChanges.ite1 ?_ ?_
        · refine OnlyChanges.step (emit_frame _ _) ?_
          exact hx12
        · exact hx12
      · exact hx12
    · exact hx7
  clear_value x8
  have hx9 : OnlyChanges [.adm, .funcs, .ctxs, .cache, .journal, .groups, .vols, .mports, .mem, .fare, .rb, .fresh, .out, .seqCtr] s x9 := by
    unfold x9
    exact OnlyChanges.of hx8 (by intro p hp; cases p <;> first | exact absurd (by decide) hp | exact rfl)
  clear_value x9
  refine OnlyChanges.step (rbChange_frame _) ?_
  refine OnlyChanges.step (recomputeCeil_frame _) ?_
  exact hx9

theorem actRetireGroup_frame (s : State) a2 a3 a4 : OnlyChangesA [.adm, .funcs, .ctxs, .cache, .journal, .groups, .vols, .mports, .mem, .fare, .rb, .fresh, .out, .seqCtr] s (actRetireGroup s a2 a3 a4) := by
  unfold actRetireGroup
  split
  · exact OnlyChangesA.refused
  · extract_lets -merge -underBinder +onlyGivenNames x1 x2
    clear_value x1
    clear_value x2
    refine OnlyChanges.ite8 ?_ ?_
    · refine OnlyChangesA.done ?_
      refine OnlyChanges.step (retireGroup_frame _ _ _) ?_
      exact (OnlyChanges.refl _ s)
    · exact OnlyChangesA.refused

theorem actScrub_frame (s : State) a2 : OnlyChangesA [.groups] s (actScrub s a2) := by
  unfold actScrub
  split
  · refine OnlyChangesA.done ?_
    refine OnlyChanges.step (scrubStart_frame _ _) ?_
    exact (OnlyChanges.refl _ s)
  · exact OnlyChangesA.refused

theorem actSetDepth_frame (s : State) a2 a3 : OnlyChangesA [.adm, .groups, .mports, .rb, .out] s (actSetDepth s a2 a3) := by
  unfold actSetDepth
  split
  · refine OnlyChanges.ite8 ?_ ?_
    · exact OnlyChangesA.refused
    · refine OnlyChangesA.done ?_
      refine OnlyChanges.step (rbChange_frame _) ?_
      refine OnlyChanges.step (applyDepth_frame _ _) ?_
      refine OnlyChanges.step (updGroup_frame _ _ _) ?_
      exact (OnlyChanges.refl _ s)
  · exact OnlyChangesA.refused

theorem formGroup_frame (s : State) a2 a3 : OnlyChanges [.adm, .groups, .mports, .rb, .fresh] s (formGroup s a2 a3) := by
  unfold formGroup
  extract_lets -merge -underBinder +onlyGivenNames x1 x2 x3
  clear_value x1
  have hx2 : OnlyChanges [.adm, .groups, .mports, .rb, .fresh] s x2 := by
    unfold x2
    exact OnlyChanges.of (OnlyChanges.refl _ s) (by intro p hp; cases p <;> first | exact absurd (by decide) hp | exact rfl)
  clear_value x2
  have hx3 : OnlyChanges [.adm, .groups, .mports, .rb, .fresh] s x3 := by
    unfold x3
    refine OnlyChanges.foldl (fun x4 x5 hx4 => ?_) ?_
    · refine OnlyChanges.step (updMport_frame _ _ _) ?_
      exact hx4
    · exact hx2
  clear_value x3
  refine OnlyChanges.step (rbChange_frame _) ?_
  refine OnlyChanges.step (recomputeCeil_frame _) ?_
  exact hx3

theorem execCreateGroup_frame a1 (s : State) : OnlyChangesQ [.adm, .ports, .funcs, .groups, .mports, .mbx, .rb, .fresh, .out, .seqCtr] s (execCreateGroup a1 s) := by
  unfold execCreateGroup
  refine OnlyChangesQ.next ?_
  refine adminRun_frame ?_ ?_
  · intro x1 x2 hx2
    extract_lets -merge -underBinder +onlyGivenNames x3
    clear_value x3
    refine OnlyChanges.ite1 ?_ ?_
    · refine OnlyChanges.step (formGroup_frame _ _ _) ?_
      exact hx2
    · refine OnlyChanges.step (adminBad_frame _ _) ?_
      exact hx2
  · exact (OnlyChanges.refl _ s)

theorem memberAct_frame (s : State) a2 a3 : OnlyChangesA [.pwr, .adm, .funcs, .ctxs, .cache, .locks, .journal, .groups, .vols, .mports, .mem, .fare, .errLog, .errSeq, .defLog, .defSeq, .rb, .fresh, .out, .seqCtr] s (memberAct s a2 a3) := by
  unfold memberAct
  extract_lets -merge -underBinder +onlyGivenNames x1
  clear_value x1
  split
  · refine OnlyChangesA.step (actReset_frame _ _ _) ?_
    exact (OnlyChanges.refl _ s)
  · refine OnlyChangesA.step (actFail_frame _ _) ?_
    exact (OnlyChanges.refl _ s)
  · refine OnlyChangesA.step (actReplace_frame _ _ _) ?_
    exact (OnlyChanges.refl _ s)
  · refine OnlyChangesA.step (actProfile_frame _ _ _ _) ?_
    exact (OnlyChanges.refl _ s)
  · refine OnlyChangesA.step (actAdopt_frame _ _ _ _ _) ?_
    exact (OnlyChanges.refl _ s)
  · refine OnlyChangesA.step (actRetireGroup_frame _ _ _ _) ?_
    exact (OnlyChanges.refl _ s)
  · refine OnlyChangesA.step (actFormat_frame _ _ _ _ _) ?_
    exact (OnlyChanges.refl _ s)
  · refine OnlyChangesA.step (actFormat_frame _ _ _ _ _) ?_
    exact (OnlyChanges.refl _ s)
  · refine OnlyChangesA.step (actScrub_frame _ _) ?_
    exact (OnlyChanges.refl _ s)
  · refine OnlyChangesA.step (actPowerOff_frame _ _) ?_
    exact (OnlyChanges.refl _ s)
  · refine OnlyChangesA.step (actSetDepth_frame _ _ _) ?_
    exact (OnlyChanges.refl _ s)
  · exact OnlyChangesA.refused

theorem memberRow_frame (s : State) a2 a3 : OnlyChanges [.pwr, .adm, .ports, .funcs, .ctxs, .cache, .locks, .journal, .groups, .vols, .mports, .mem, .mbx, .fare, .errLog, .errSeq, .defLog, .defSeq, .rb, .fresh, .out, .seqCtr] s (memberRow s a2 a3) := by
  unfold memberRow
  refine adminRun_frame ?_ ?_
  · intro x1 x2 hx2
    refine OnlyChangesA.finish ?_ ?_
    · refine OnlyChangesA.step (memberAct_frame _ _ _) ?_
      exact hx2
    · exact hx2
  · exact (OnlyChanges.refl _ s)

theorem execMemberControlAdopt_frame a1 (s : State) : OnlyChangesQ [.pwr, .adm, .ports, .funcs, .ctxs, .cache, .locks, .journal, .groups, .vols, .mports, .mem, .mbx, .fare, .errLog, .errSeq, .defLog, .defSeq, .rb, .fresh, .out, .seqCtr] s (execMemberControlAdopt a1 s) := by
  unfold execMemberControlAdopt
  refine OnlyChangesQ.next ?_
  refine OnlyChanges.step (memberRow_frame _ _ _) ?_
  exact (OnlyChanges.refl _ s)

theorem execMemberControlFail_frame a1 (s : State) : OnlyChangesQ [.pwr, .adm, .ports, .funcs, .ctxs, .cache, .locks, .journal, .groups, .vols, .mports, .mem, .mbx, .fare, .errLog, .errSeq, .defLog, .defSeq, .rb, .fresh, .out, .seqCtr] s (execMemberControlFail a1 s) := by
  unfold execMemberControlFail
  refine OnlyChangesQ.next ?_
  refine OnlyChanges.step (memberRow_frame _ _ _) ?_
  exact (OnlyChanges.refl _ s)

theorem execMemberControlFormat_frame a1 (s : State) : OnlyChangesQ [.pwr, .adm, .ports, .funcs, .ctxs, .cache, .locks, .journal, .groups, .vols, .mports, .mem, .mbx, .fare, .errLog, .errSeq, .defLog, .defSeq, .rb, .fresh, .out, .seqCtr] s (execMemberControlFormat a1 s) := by
  unfold execMemberControlFormat
  refine OnlyChangesQ.next ?_
  refine OnlyChanges.step (memberRow_frame _ _ _) ?_
  exact (OnlyChanges.refl _ s)

theorem execMemberControlPowerOff_frame a1 (s : State) : OnlyChangesQ [.pwr, .adm, .ports, .funcs, .ctxs, .cache, .locks, .journal, .groups, .vols, .mports, .mem, .mbx, .fare, .errLog, .errSeq, .defLog, .defSeq, .rb, .fresh, .out, .seqCtr] s (execMemberControlPowerOff a1 s) := by
  unfold execMemberControlPowerOff
  refine OnlyChangesQ.next ?_
  refine OnlyChanges.step (memberRow_frame _ _ _) ?_
  exact (OnlyChanges.refl _ s)

theorem execMemberControlProfile_frame a1 (s : State) : OnlyChangesQ [.pwr, .adm, .ports, .funcs, .ctxs, .cache, .locks, .journal, .groups, .vols, .mports, .mem, .mbx, .fare, .errLog, .errSeq, .defLog, .defSeq, .rb, .fresh, .out, .seqCtr] s (execMemberControlProfile a1 s) := by
  unfold execMemberControlProfile
  refine OnlyChangesQ.next ?_
  refine OnlyChanges.step (memberRow_frame _ _ _) ?_
  exact (OnlyChanges.refl _ s)

theorem execMemberControlReplace_frame a1 (s : State) : OnlyChangesQ [.pwr, .adm, .ports, .funcs, .ctxs, .cache, .locks, .journal, .groups, .vols, .mports, .mem, .mbx, .fare, .errLog, .errSeq, .defLog, .defSeq, .rb, .fresh, .out, .seqCtr] s (execMemberControlReplace a1 s) := by
  unfold execMemberControlReplace
  refine OnlyChangesQ.next ?_
  refine OnlyChanges.step (memberRow_frame _ _ _) ?_
  exact (OnlyChanges.refl _ s)

theorem execMemberControlReset_frame a1 (s : State) : OnlyChangesQ [.pwr, .adm, .ports, .funcs, .ctxs, .cache, .locks, .journal, .groups, .vols, .mports, .mem, .mbx, .fare, .errLog, .errSeq, .defLog, .defSeq, .rb, .fresh, .out, .seqCtr] s (execMemberControlReset a1 s) := by
  unfold execMemberControlReset
  refine OnlyChangesQ.next ?_
  refine OnlyChanges.step (memberRow_frame _ _ _) ?_
  exact (OnlyChanges.refl _ s)

theorem execMemberControlRetireGroup_frame a1 (s : State) : OnlyChangesQ [.pwr, .adm, .ports, .funcs, .ctxs, .cache, .locks, .journal, .groups, .vols, .mports, .mem, .mbx, .fare, .errLog, .errSeq, .defLog, .defSeq, .rb, .fresh, .out, .seqCtr] s (execMemberControlRetireGroup a1 s) := by
  unfold execMemberControlRetireGroup
  refine OnlyChangesQ.next ?_
  refine OnlyChanges.step (memberRow_frame _ _ _) ?_
  exact (OnlyChanges.refl _ s)

theorem execMemberControlSanitize_frame a1 (s : State) : OnlyChangesQ [.pwr, .adm, .ports, .funcs, .ctxs, .cache, .locks, .journal, .groups, .vols, .mports, .mem, .mbx, .fare, .errLog, .errSeq, .defLog, .defSeq, .rb, .fresh, .out, .seqCtr] s (execMemberControlSanitize a1 s) := by
  unfold execMemberControlSanitize
  refine OnlyChangesQ.next ?_
  refine OnlyChanges.step (memberRow_frame _ _ _) ?_
  exact (OnlyChanges.refl _ s)

theorem execMemberControlScrub_frame a1 (s : State) : OnlyChangesQ [.pwr, .adm, .ports, .funcs, .ctxs, .cache, .locks, .journal, .groups, .vols, .mports, .mem, .mbx, .fare, .errLog, .errSeq, .defLog, .defSeq, .rb, .fresh, .out, .seqCtr] s (execMemberControlScrub a1 s) := by
  unfold execMemberControlScrub
  refine OnlyChangesQ.next ?_
  refine OnlyChanges.step (memberRow_frame _ _ _) ?_
  exact (OnlyChanges.refl _ s)

theorem execMemberControlSetDepth_frame a1 (s : State) : OnlyChangesQ [.pwr, .adm, .ports, .funcs, .ctxs, .cache, .locks, .journal, .groups, .vols, .mports, .mem, .mbx, .fare, .errLog, .errSeq, .defLog, .defSeq, .rb, .fresh, .out, .seqCtr] s (execMemberControlSetDepth a1 s) := by
  unfold execMemberControlSetDepth
  refine OnlyChangesQ.next ?_
  refine OnlyChanges.step (memberRow_frame _ _ _) ?_
  exact (OnlyChanges.refl _ s)

theorem execMemberControlUndefinedAction_frame a1 (s : State) : OnlyChangesQ [.ports, .funcs, .mbx, .fresh, .out, .seqCtr] s (execMemberControlUndefinedAction a1 s) := by
  unfold execMemberControlUndefinedAction
  refine OnlyChangesQ.next ?_
  refine adminRun_frame ?_ ?_
  · intro x1 x2 hx2
    refine OnlyChanges.step (adminBad_frame _ _) ?_
    exact hx2
  · exact (OnlyChanges.refl _ s)

end Sys2Proof.Machine
end

