-- ==== Sys2Proof/Laws/FramesAdminMgmt.lean ====
section
/-! SUPPORT. Which parts of the state each function of Machine/AdminMgmt.lean can change. -/

set_option Elab.async false

namespace Sys2Proof.Machine

theorem setExpress_frame (s : State) a2 a3 a4 a5 : OnlyChangesO [.adm, .rb] s (setExpress s a2 a3 a4 a5) := by
  unfold setExpress
  split
  · exact OnlyChangesO.none
  · extract_lets -merge -underBinder +onlyGivenNames x1
    have hx1 : OnlyChanges [.adm, .rb] s x1 := by
      unfold x1
      split
      · refine OnlyChanges.step (updExp_frame _ _ _) ?_
        exact (OnlyChanges.refl _ s)
      · extract_lets -merge -underBinder +onlyGivenNames x2
        clear_value x2
        refine OnlyChanges.step (updAdm_frame _ _) ?_
        exact (OnlyChanges.refl _ s)
    clear_value x1
    refine OnlyChanges.ite3 ?_ ?_
    · exact OnlyChangesO.none
    · refine OnlyChanges.ite3 ?_ ?_
      · refine OnlyChangesO.some ?_
        refine OnlyChanges.step (rbChange_frame _) ?_
        exact hx1
      · exact OnlyChangesO.none

theorem setShared_frame (s : State) a2 a3 : OnlyChangesO [.adm] s (setShared s a2 a3) := by
  unfold setShared
  split
  · exact OnlyChangesO.none
  · refine OnlyChangesO.some ?_
    refine OnlyChanges.step (updAdm_frame _ _) ?_
    exact (OnlyChanges.refl _ s)

theorem applyTokens_frame (s : State) a2 a3 : OnlyChangesO [.adm, .rb] s (applyTokens s a2 a3) := by
  unfold applyTokens
  refine OnlyChanges.ite3 ?_ ?_
  · refine OnlyChanges.ite3 ?_ ?_
    · refine OnlyChangesO.step (setExpress_frame _ _ _ _ _) ?_
      exact (OnlyChanges.refl _ s)
    · exact OnlyChangesO.none
  · refine OnlyChanges.ite3 ?_ ?_
    · refine OnlyChangesO.step (setShared_frame _ _ _) ?_
      exact (OnlyChanges.refl _ s)
    · exact OnlyChangesO.none

theorem ttApply_frame (s : State) a2 : OnlyChanges [.tt, .rb] s (ttApply s a2) := by
  unfold ttApply
  extract_lets -merge -underBinder +onlyGivenNames x1
  have hx1 : OnlyChanges [.tt, .rb] s x1 := by
    unfold x1
    refine OnlyChanges.ite1 ?_ ?_
    · refine OnlyChanges.step (setRefEn_frame _ _) ?_
      refine OnlyChanges.step (updTt_frame _ _) ?_
      exact (OnlyChanges.refl _ s)
    · exact (OnlyChanges.refl _ s)
  clear_value x1
  refine OnlyChanges.step (updTt_frame _ _) ?_
  exact hx1

theorem execGetLog_frame a1 (s : State) : OnlyChangesQ [.ports, .funcs, .mbx, .fresh, .out, .seqCtr] s (execGetLog a1 s) := by
  unfold execGetLog
  refine OnlyChangesQ.next ?_
  refine adminRun_frame ?_ ?_
  · intro x1 x2 hx2
    extract_lets -merge -underBinder +onlyGivenNames x3 x4 x5
    clear_value x3
    clear_value x4
    clear_value x5
    refine OnlyChanges.ite1 ?_ ?_
    · refine OnlyChanges.step (adminBad_frame _ _) ?_
      exact hx2
    · refine OnlyChanges.step (adminSend_frame _ _ _) ?_
      exact hx2
  · exact (OnlyChanges.refl _ s)

theorem execSetTimetable_frame a1 (s : State) : OnlyChangesQ [.tt, .ports, .funcs, .mbx, .rb, .fresh, .out, .seqCtr] s (execSetTimetable a1 s) := by
  unfold execSetTimetable
  refine OnlyChangesQ.next ?_
  refine adminRun_frame ?_ ?_
  · intro x1 x2 hx2
    extract_lets -merge -underBinder +onlyGivenNames x3 x4
    clear_value x3
    have hx4 : OnlyChanges [.tt, .ports, .funcs, .mbx, .rb, .fresh, .out, .seqCtr] s x4 := by
      unfold x4
      refine OnlyChanges.step (ttApply_frame _ _) ?_
      exact hx2
    clear_value x4
    refine OnlyChanges.ite1 ?_ ?_
    · refine OnlyChanges.step (adminBad_frame _ _) ?_
      exact hx2
    · refine OnlyChanges.ite1 ?_ ?_
      · refine OnlyChanges.step (updTt_frame _ _) ?_
        exact hx4
      · refine OnlyChanges.step (adminOk_frame _ _) ?_
        exact hx4
  · exact (OnlyChanges.refl _ s)

theorem execSetTokens_frame a1 (s : State) : OnlyChangesQ [.adm, .ports, .funcs, .mbx, .rb, .fresh, .out, .seqCtr] s (execSetTokens a1 s) := by
  unfold execSetTokens
  refine OnlyChangesQ.next ?_
  refine adminRun_frame ?_ ?_
  · intro x1 x2 hx2
    split
    · rename_i x3 x4
      have hx3 : OnlyChanges [.adm, .ports, .funcs, .mbx, .rb, .fresh, .out, .seqCtr] s x3 := by
        refine OnlyChangesO.of_eq x4 ?_
        refine OnlyChangesO.step (applyTokens_frame _ _ _) ?_
        exact hx2
      refine OnlyChanges.step (updAdm_frame _ _) ?_
      exact hx3
    · refine OnlyChanges.step (adminBad_frame _ _) ?_
      exact hx2
  · exact (OnlyChanges.refl _ s)

theorem execSetWindow_frame a1 (s : State) : OnlyChangesQ [.ports, .funcs, .ctxs, .cache, .mbx, .fresh, .out, .freeCtr, .seqCtr] s (execSetWindow a1 s) := by
  unfold execSetWindow
  refine OnlyChangesQ.next ?_
  refine adminRun_frame ?_ ?_
  · intro x1 x2 hx2
    extract_lets -merge -underBinder +onlyGivenNames x3 x4 x5 x6
    clear_value x3
    clear_value x4
    clear_value x5
    have hx6 : OnlyChanges [.ports, .funcs, .ctxs, .cache, .mbx, .fresh, .out, .freeCtr, .seqCtr] s x6 := by
      unfold x6
      refine OnlyChanges.step (updWin_frame _ _ _ _) ?_
      exact hx2
    clear_value x6
    refine OnlyChanges.ite1 ?_ ?_
    · refine OnlyChanges.step (adminBad_frame _ _) ?_
      exact hx2
    · refine OnlyChanges.ite1 ?_ ?_
      · refine OnlyChanges.step (winCommit_frame _ _ _) ?_
        refine OnlyChanges.step (updWin_frame _ _ _ _) ?_
        exact hx6
      · refine OnlyChanges.step (adminOk_frame _ _) ?_
        exact hx6
  · exact (OnlyChanges.refl _ s)

end Sys2Proof.Machine
end

