-- ==== Sys2Proof/Laws/FramesAlu.lean ====
section
/-! SUPPORT. Which parts of the state each function of Machine/Alu.lean can change. -/

set_option Elab.async false

namespace Sys2Proof.Machine

theorem execAdd_frame a1 (s : State) : OnlyChangesQ [.funcs, .ctxs, .engineFree, .cache, .locks, .journal, .groups, .vols, .mports, .movers, .progs, .errLog, .errSeq, .defLog, .defSeq, .rb, .seqCtr] s (execAdd a1 s) := by
  unfold execAdd
  refine OnlyChangesQ.step (resultIns_frame _ _ _ _) ?_
  exact (OnlyChanges.refl _ s)

theorem execAnd_frame a1 (s : State) : OnlyChangesQ [.funcs, .ctxs, .engineFree, .cache, .locks, .journal, .groups, .vols, .mports, .movers, .progs, .errLog, .errSeq, .defLog, .defSeq, .rb, .seqCtr] s (execAnd a1 s) := by
  unfold execAnd
  refine OnlyChangesQ.step (resultIns_frame _ _ _ _) ?_
  exact (OnlyChanges.refl _ s)

theorem execBswap_frame a1 (s : State) : OnlyChangesQ [.funcs, .ctxs, .engineFree, .cache, .locks, .journal, .groups, .vols, .mports, .movers, .progs, .errLog, .errSeq, .defLog, .defSeq, .rb, .seqCtr] s (execBswap a1 s) := by
  unfold execBswap
  refine OnlyChangesQ.step (resultIns_frame _ _ _ _) ?_
  exact (OnlyChanges.refl _ s)

theorem execClz_frame a1 (s : State) : OnlyChangesQ [.funcs, .ctxs, .engineFree, .cache, .locks, .journal, .groups, .vols, .mports, .movers, .progs, .errLog, .errSeq, .defLog, .defSeq, .rb, .seqCtr] s (execClz a1 s) := by
  unfold execClz
  refine OnlyChangesQ.step (resultIns_frame _ _ _ _) ?_
  exact (OnlyChanges.refl _ s)

theorem execCmp_frame a1 (s : State) : OnlyChangesQ [.funcs, .ctxs, .engineFree, .cache, .locks, .journal, .groups, .vols, .mports, .movers, .progs, .errLog, .errSeq, .defLog, .defSeq, .rb, .seqCtr] s (execCmp a1 s) := by
  unfold execCmp
  refine OnlyChangesQ.step (pureIns_frame _ _ _ _) ?_
  exact (OnlyChanges.refl _ s)

theorem execDivu_frame a1 (s : State) : OnlyChangesQ [.funcs, .ctxs, .engineFree, .cache, .locks, .journal, .groups, .vols, .mports, .movers, .progs, .errLog, .errSeq, .defLog, .defSeq, .rb, .seqCtr] s (execDivu a1 s) := by
  unfold execDivu
  refine OnlyChangesQ.step (resultIns_frame _ _ _ _) ?_
  exact (OnlyChanges.refl _ s)

theorem execExt_frame a1 (s : State) : OnlyChangesQ [.funcs, .ctxs, .engineFree, .cache, .locks, .journal, .groups, .vols, .mports, .movers, .progs, .errLog, .errSeq, .defLog, .defSeq, .rb, .seqCtr] s (execExt a1 s) := by
  unfold execExt
  refine OnlyChangesQ.step (resultIns_frame _ _ _ _) ?_
  exact (OnlyChanges.refl _ s)

theorem execFlop_frame a1 (s : State) : OnlyChangesQ [.funcs, .ctxs, .engineFree, .cache, .locks, .journal, .groups, .vols, .mports, .movers, .progs, .errLog, .errSeq, .defLog, .defSeq, .rb, .seqCtr] s (execFlop a1 s) := by
  unfold execFlop
  refine OnlyChangesQ.step (pureIns_frame _ _ _ _) ?_
  exact (OnlyChanges.refl _ s)

theorem execIns_frame a1 (s : State) : OnlyChangesQ [.funcs, .ctxs, .engineFree, .cache, .locks, .journal, .groups, .vols, .mports, .movers, .progs, .errLog, .errSeq, .defLog, .defSeq, .rb, .seqCtr] s (execIns a1 s) := by
  unfold execIns
  refine OnlyChangesQ.step (resultIns_frame _ _ _ _) ?_
  exact (OnlyChanges.refl _ s)

theorem execLdi_frame a1 (s : State) : OnlyChangesQ [.funcs, .ctxs, .engineFree, .cache, .locks, .journal, .groups, .vols, .mports, .movers, .progs, .errLog, .errSeq, .defLog, .defSeq, .rb, .seqCtr] s (execLdi a1 s) := by
  unfold execLdi
  refine OnlyChangesQ.step (resultIns_frame _ _ _ _) ?_
  exact (OnlyChanges.refl _ s)

theorem execLdih_frame a1 (s : State) : OnlyChangesQ [.funcs, .ctxs, .engineFree, .cache, .locks, .journal, .groups, .vols, .mports, .movers, .progs, .errLog, .errSeq, .defLog, .defSeq, .rb, .seqCtr] s (execLdih a1 s) := by
  unfold execLdih
  refine OnlyChangesQ.step (resultIns_frame _ _ _ _) ?_
  exact (OnlyChanges.refl _ s)

theorem execMaxu_frame a1 (s : State) : OnlyChangesQ [.funcs, .ctxs, .engineFree, .cache, .locks, .journal, .groups, .vols, .mports, .movers, .progs, .errLog, .errSeq, .defLog, .defSeq, .rb, .seqCtr] s (execMaxu a1 s) := by
  unfold execMaxu
  refine OnlyChangesQ.step (resultIns_frame _ _ _ _) ?_
  exact (OnlyChanges.refl _ s)

theorem execMinu_frame a1 (s : State) : OnlyChangesQ [.funcs, .ctxs, .engineFree, .cache, .locks, .journal, .groups, .vols, .mports, .movers, .progs, .errLog, .errSeq, .defLog, .defSeq, .rb, .seqCtr] s (execMinu a1 s) := by
  unfold execMinu
  refine OnlyChangesQ.step (resultIns_frame _ _ _ _) ?_
  exact (OnlyChanges.refl _ s)

theorem execMul_frame a1 (s : State) : OnlyChangesQ [.funcs, .ctxs, .engineFree, .cache, .locks, .journal, .groups, .vols, .mports, .movers, .progs, .errLog, .errSeq, .defLog, .defSeq, .rb, .seqCtr] s (execMul a1 s) := by
  unfold execMul
  refine OnlyChangesQ.step (resultIns_frame _ _ _ _) ?_
  exact (OnlyChanges.refl _ s)

theorem execMulhu_frame a1 (s : State) : OnlyChangesQ [.funcs, .ctxs, .engineFree, .cache, .locks, .journal, .groups, .vols, .mports, .movers, .progs, .errLog, .errSeq, .defLog, .defSeq, .rb, .seqCtr] s (execMulhu a1 s) := by
  unfold execMulhu
  refine OnlyChangesQ.step (resultIns_frame _ _ _ _) ?_
  exact (OnlyChanges.refl _ s)

theorem execOr_frame a1 (s : State) : OnlyChangesQ [.funcs, .ctxs, .engineFree, .cache, .locks, .journal, .groups, .vols, .mports, .movers, .progs, .errLog, .errSeq, .defLog, .defSeq, .rb, .seqCtr] s (execOr a1 s) := by
  unfold execOr
  refine OnlyChangesQ.step (resultIns_frame _ _ _ _) ?_
  exact (OnlyChanges.refl _ s)

theorem execPopc_frame a1 (s : State) : OnlyChangesQ [.funcs, .ctxs, .engineFree, .cache, .locks, .journal, .groups, .vols, .mports, .movers, .progs, .errLog, .errSeq, .defLog, .defSeq, .rb, .seqCtr] s (execPopc a1 s) := by
  unfold execPopc
  refine OnlyChangesQ.step (resultIns_frame _ _ _ _) ?_
  exact (OnlyChanges.refl _ s)

theorem execRemu_frame a1 (s : State) : OnlyChangesQ [.funcs, .ctxs, .engineFree, .cache, .locks, .journal, .groups, .vols, .mports, .movers, .progs, .errLog, .errSeq, .defLog, .defSeq, .rb, .seqCtr] s (execRemu a1 s) := by
  unfold execRemu
  refine OnlyChangesQ.step (resultIns_frame _ _ _ _) ?_
  exact (OnlyChanges.refl _ s)

theorem execSar_frame a1 (s : State) : OnlyChangesQ [.funcs, .ctxs, .engineFree, .cache, .locks, .journal, .groups, .vols, .mports, .movers, .progs, .errLog, .errSeq, .defLog, .defSeq, .rb, .seqCtr] s (execSar a1 s) := by
  unfold execSar
  refine OnlyChangesQ.step (resultIns_frame _ _ _ _) ?_
  exact (OnlyChanges.refl _ s)

theorem execSel_frame a1 (s : State) : OnlyChangesQ [.funcs, .ctxs, .engineFree, .cache, .locks, .journal, .groups, .vols, .mports, .movers, .progs, .errLog, .errSeq, .defLog, .defSeq, .rb, .seqCtr] s (execSel a1 s) := by
  unfold execSel
  refine OnlyChangesQ.step (resultIns_frame _ _ _ _) ?_
  exact (OnlyChanges.refl _ s)

theorem execShl_frame a1 (s : State) : OnlyChangesQ [.funcs, .ctxs, .engineFree, .cache, .locks, .journal, .groups, .vols, .mports, .movers, .progs, .errLog, .errSeq, .defLog, .defSeq, .rb, .seqCtr] s (execShl a1 s) := by
  unfold execShl
  refine OnlyChangesQ.step (resultIns_frame _ _ _ _) ?_
  exact (OnlyChanges.refl _ s)

theorem execShr_frame a1 (s : State) : OnlyChangesQ [.funcs, .ctxs, .engineFree, .cache, .locks, .journal, .groups, .vols, .mports, .movers, .progs, .errLog, .errSeq, .defLog, .defSeq, .rb, .seqCtr] s (execShr a1 s) := by
  unfold execShr
  refine OnlyChangesQ.step (resultIns_frame _ _ _ _) ?_
  exact (OnlyChanges.refl _ s)

theorem execSub_frame a1 (s : State) : OnlyChangesQ [.funcs, .ctxs, .engineFree, .cache, .locks, .journal, .groups, .vols, .mports, .movers, .progs, .errLog, .errSeq, .defLog, .defSeq, .rb, .seqCtr] s (execSub a1 s) := by
  unfold execSub
  refine OnlyChangesQ.step (resultIns_frame _ _ _ _) ?_
  exact (OnlyChanges.refl _ s)

theorem execXor_frame a1 (s : State) : OnlyChangesQ [.funcs, .ctxs, .engineFree, .cache, .locks, .journal, .groups, .vols, .mports, .movers, .progs, .errLog, .errSeq, .defLog, .defSeq, .rb, .seqCtr] s (execXor a1 s) := by
  unfold execXor
  refine OnlyChangesQ.step (resultIns_frame _ _ _ _) ?_
  exact (OnlyChanges.refl _ s)

end Sys2Proof.Machine
end

