-- ==== Sys2Proof/Laws/FramesCacheIns.lean ====
section
/-! SUPPORT. Which parts of the state each function of Machine/CacheIns.lean can change. -/

set_option Elab.async false

namespace Sys2Proof.Machine

theorem callocReplace_frame a1 (s : State) a3 a4 : OnlyChanges [.ctxs, .engineFree, .cache, .freeCtr, .seqCtr] s (callocReplace a1 s a3 a4) := by
  unfold callocReplace
  extract_lets -merge -underBinder +onlyGivenNames x1
  clear_value x1
  refine OnlyChanges.ite1 ?_ ?_
  · refine OnlyChanges.step (completeD_frame _ _ _) ?_
    exact (OnlyChanges.refl _ s)
  · split
    · refine OnlyChanges.step (startWait_frame _ _ _) ?_
      exact (OnlyChanges.refl _ s)
    · rename_i x3 x4 x5
      have hx4 : OnlyChanges [.ctxs, .engineFree, .cache, .freeCtr, .seqCtr] s x4 := by
        refine OnlyChangesOP.of_eq x5 ?_
        refine OnlyChangesOP.step (allocFrame_frame _ _) ?_
        exact (OnlyChanges.refl _ s)
      extract_lets -merge -underBinder +onlyGivenNames x6
      have hx6 : OnlyChanges [.ctxs, .engineFree, .cache, .freeCtr, .seqCtr] s x6 := by
        unfold x6
        refine OnlyChanges.step (updFrame_frame _ _ _) ?_
        exact hx4
      clear_value x6
      refine OnlyChanges.step (completeD_frame _ _ _) ?_
      refine OnlyChanges.step (putFrame_frame _ _ _ _ _) ?_
      exact hx6

theorem callocRun_frame a1 (s : State) a3 a4 a5 : OnlyChanges [.ctxs, .engineFree, .cache, .freeCtr, .seqCtr] s (callocRun a1 s a3 a4 a5) := by
  unfold callocRun
  split
  · refine OnlyChanges.step (startWait_frame _ _ _) ?_
    exact (OnlyChanges.refl _ s)
  · rename_i x2 x3 x4
    have hx3 : OnlyChanges [.ctxs, .engineFree, .cache, .freeCtr, .seqCtr] s x3 := by
      refine OnlyChangesOP.of_eq x4 ?_
      refine OnlyChangesOP.step (allocFrames_frame _ _ _ _) ?_
      exact (OnlyChanges.refl _ s)
    refine OnlyChanges.step (completeD_frame _ _ _) ?_
    refine OnlyChanges.step (putFrames_frame _ _ _ _ _) ?_
    exact hx3

theorem cpinRun_frame a1 a2 a3 a4 a5 a6 (s : State) : OnlyChanges [.ctxs, .cache] s (cpinRun a1 a2 a3 a4 a5 a6 s) := by
  induction a6 generalizing s with
  | zero => exact OnlyChanges.refl _ s
  | succ n ih =>
    unfold cpinRun
    dsimp only
    split
    · exact ih s
    · exact OnlyChanges.step (putFrame_frame _ _ _ _ _) (OnlyChanges.step (pinFrame_frame _ _) (ih s))

theorem execCalloc_frame a1 (s : State) : OnlyChangesQ [.funcs, .ctxs, .engineFree, .cache, .locks, .journal, .groups, .vols, .mports, .movers, .progs, .errLog, .errSeq, .defLog, .defSeq, .rb, .freeCtr, .seqCtr] s (execCalloc a1 s) := by
  unfold execCalloc
  refine runIns_frame ?_ ?_
  · intro x1 x2 hx2
    extract_lets -merge -underBinder +onlyGivenNames x3 x4 x5
    clear_value x3
    clear_value x4
    clear_value x5
    refine OnlyChanges.ite1 ?_ ?_
    · split
      · refine OnlyChanges.step (completeD_frame _ _ _) ?_
        exact hx2
      · refine OnlyChanges.ite1 ?_ ?_
        · refine OnlyChanges.step (callocReplace_frame _ _ _ _) ?_
          exact hx2
        · refine OnlyChanges.step (startWait_frame _ _ _) ?_
          exact hx2
    · refine OnlyChanges.ite1 ?_ ?_
      · refine OnlyChanges.step (completeD_frame _ _ _) ?_
        exact hx2
      · refine OnlyChanges.ite1 ?_ ?_
        · refine OnlyChanges.step (startWait_frame _ _ _) ?_
          exact hx2
        · refine OnlyChanges.step (callocRun_frame _ _ _ _ _) ?_
          exact hx2
  · exact (OnlyChanges.refl _ s)

theorem lookRun_frame a1 a2 a3 a4 a5 a6 a7 a8 (s : State) : OnlyChangesP [.ctxs, .cache] s (lookRun a1 a2 a3 a4 a5 a6 a7 a8 s) := by
  induction a8 with
  | zero => exact OnlyChangesP.mk (OnlyChanges.refl _ s)
  | succ n ih =>
    unfold lookRun
    split
    rename_i m t e
    have h := OnlyChangesP.of_eq e ih
    split
    · exact OnlyChangesP.mk h
    · refine OnlyChangesP.mk (OnlyChanges.ite1 ?_ h)
      exact OnlyChanges.step (putFrame_frame _ _ _ _ _) (OnlyChanges.step (pinFrame_frame _ _) h)

theorem execClook_frame a1 (s : State) : OnlyChangesQ [.funcs, .ctxs, .engineFree, .cache, .locks, .journal, .groups, .vols, .mports, .movers, .progs, .errLog, .errSeq, .defLog, .defSeq, .rb, .seqCtr] s (execClook a1 s) := by
  unfold execClook
  refine runIns_frame ?_ ?_
  · intro x1 x2 hx2
    extract_lets -merge -underBinder +onlyGivenNames x3 x4
    clear_value x3
    clear_value x4
    split
    · refine OnlyChanges.step (completeD_frame _ _ _) ?_
      exact hx2
    · refine OnlyChanges.ite1 ?_ ?_
      · refine OnlyChanges.step (completeD_frame _ _ _) ?_
        exact hx2
      · split
        · rename_i x5 x6 x7
          have hx6 : OnlyChanges [.funcs, .ctxs, .engineFree, .cache, .locks, .journal, .groups, .vols, .mports, .movers, .progs, .errLog, .errSeq, .defLog, .defSeq, .rb, .seqCtr] s x6 := by
            refine OnlyChangesP.of_eq x7 ?_
            refine OnlyChangesP.step (lookRun_frame _ _ _ _ _ _ _ _ _) ?_
            exact hx2
          refine OnlyChanges.step (completeD_frame _ _ _) ?_
          exact hx6
  · exact (OnlyChanges.refl _ s)

theorem execCpin_frame a1 (s : State) : OnlyChangesQ [.funcs, .ctxs, .engineFree, .cache, .locks, .journal, .groups, .vols, .mports, .movers, .progs, .errLog, .errSeq, .defLog, .defSeq, .rb, .seqCtr] s (execCpin a1 s) := by
  unfold execCpin
  refine runIns_frame ?_ ?_
  · intro x1 x2 hx2
    extract_lets -merge -underBinder +onlyGivenNames x3 x4 x5 x6 x7 x8 x9
    clear_value x3
    clear_value x4
    clear_value x5
    clear_value x6
    clear_value x7
    clear_value x8
    clear_value x9
    refine OnlyChanges.ite1 ?_ ?_
    · refine OnlyChanges.step (completeD_frame _ _ _) ?_
      exact hx2
    · refine OnlyChanges.ite1 ?_ ?_
      · refine OnlyChanges.ite1 ?_ ?_
        · refine OnlyChanges.step (completeD_frame _ _ _) ?_
          exact hx2
        · refine OnlyChanges.step (completeD_frame _ _ _) ?_
          refine OnlyChanges.step (cpinRun_frame _ _ _ _ _ _ _) ?_
          exact hx2
      · split
        · extract_lets -merge -underBinder +onlyGivenNames x10
          clear_value x10
          refine OnlyChanges.ite1 ?_ ?_
          · refine OnlyChanges.step (completeD_frame _ _ _) ?_
            exact hx2
          · refine OnlyChanges.ite1 ?_ ?_
            · refine OnlyChanges.step (completeD_frame _ _ _) ?_
              refine OnlyChanges.foldl (fun x11 x12 hx11 => ?_) ?_
              · refine OnlyChanges.step (updFrame_frame _ _ _) ?_
                exact hx11
              · exact hx2
            · refine OnlyChanges.step (completeD_frame _ _ _) ?_
              refine OnlyChanges.foldl (fun x13 x14 hx13 => ?_) ?_
              · extract_lets -merge -underBinder +onlyGivenNames x15
                clear_value x15
                refine OnlyChanges.step (updFrame_frame _ _ _) ?_
                exact hx13
              · exact hx2
        · refine OnlyChanges.step (completeD_frame _ _ _) ?_
          exact hx2
  · exact (OnlyChanges.refl _ s)

theorem execCunpin_frame a1 (s : State) : OnlyChangesQ [.funcs, .ctxs, .engineFree, .cache, .locks, .journal, .groups, .vols, .mports, .movers, .progs, .errLog, .errSeq, .defLog, .defSeq, .rb, .seqCtr] s (execCunpin a1 s) := by
  unfold execCunpin
  refine runIns_frame ?_ ?_
  · intro x1 x2 hx2
    extract_lets -merge -underBinder +onlyGivenNames x3
    have hx3 : OnlyChanges [.funcs, .ctxs, .engineFree, .cache, .locks, .journal, .groups, .vols, .mports, .movers, .progs, .errLog, .errSeq, .defLog, .defSeq, .rb, .seqCtr] s x3 := by
      unfold x3
      refine OnlyChanges.foldl (fun x4 x5 hx4 => ?_) ?_
      · refine OnlyChanges.step (releaseHandle_frame _ _ _) ?_
        exact hx4
      · exact hx2
    clear_value x3
    refine OnlyChanges.step (complete_frame _ _ _) ?_
    refine OnlyChanges.step (wakeFrameWaiters_frame _) ?_
    exact hx3
  · exact (OnlyChanges.refl _ s)

end Sys2Proof.Machine
end

