-- ==== Sys2Proof/Laws/FramesMailbox.lean ====
section
/-! SUPPORT. Which parts of the state each function of Machine/Mailbox.lean can change. -/

set_option Elab.async false

namespace Sys2Proof.Machine

theorem emptyEvent_frame (s : State) a2 a3 : OnlyChanges [.funcs, .out] s (emptyEvent s a2 a3) := by
  unfold emptyEvent
  refine OnlyChanges.ite1 ?_ ?_
  · split
    · refine OnlyChanges.ite1 ?_ ?_
      · refine OnlyChanges.step (sendMsix_frame _ _ _) ?_
        exact (OnlyChanges.refl _ s)
      · exact (OnlyChanges.refl _ s)
    · exact (OnlyChanges.refl _ s)
  · refine OnlyChanges.step (emit_frame _ _) ?_
    exact (OnlyChanges.refl _ s)

theorem updMbx_frame (s : State) a2 : OnlyChanges [.mbx] s (updMbx s a2) := by
  unfold updMbx
  exact OnlyChanges.of (OnlyChanges.refl _ s) (by intro p hp; cases p <;> first | exact absurd (by decide) hp | exact rfl)

theorem updBox_frame (s : State) a2 a3 : OnlyChanges [.mbx] s (updBox s a2 a3) := by
  unfold updBox
  refine OnlyChanges.step (updMbx_frame _ _) ?_
  exact (OnlyChanges.refl _ s)

theorem endMessage_frame (s : State) a2 a3 : OnlyChanges [.funcs, .mbx, .fresh, .out] s (endMessage s a2 a3) := by
  unfold endMessage
  extract_lets -merge -underBinder +onlyGivenNames x1 x2 x3
  clear_value x1
  have hx2 : OnlyChanges [.funcs, .mbx, .fresh, .out] s x2 := by
    unfold x2
    refine OnlyChanges.step (updBox_frame _ _ _) ?_
    exact (OnlyChanges.refl _ s)
  clear_value x2
  have hx3 : OnlyChanges [.funcs, .mbx, .fresh, .out] s x3 := by
    unfold x3
    refine OnlyChanges.step (markFresh_frame _ _ _ _ _) ?_
    exact hx2
  clear_value x3
  refine OnlyChanges.ite1 ?_ ?_
  · exact hx3
  · refine OnlyChanges.step (emptyEvent_frame _ _ _) ?_
    exact hx3

theorem queueNotice_frame (s : State) a2 a3 : OnlyChanges [.mbx] s (queueNotice s a2 a3) := by
  unfold queueNotice
  refine OnlyChanges.step (updMbx_frame _ _) ?_
  exact (OnlyChanges.refl _ s)

theorem resultNotice_frame (s : State) a2 a3 a4 a5 : OnlyChanges [.mbx] s (resultNotice s a2 a3 a4 a5) := by
  unfold resultNotice
  refine OnlyChanges.step (queueNotice_frame _ _ _) ?_
  exact (OnlyChanges.refl _ s)

theorem answerRequest_frame (s : State) a2 a3 a4 a5 : OnlyChanges [.funcs, .mbx, .fresh, .out] s (answerRequest s a2 a3 a4 a5) := by
  unfold answerRequest
  refine OnlyChanges.step (resultNotice_frame _ _ _ _ _) ?_
  refine OnlyChanges.step (endMessage_frame _ _ _) ?_
  exact (OnlyChanges.refl _ s)

theorem applyInit_frame (s : State) a2 a3 : OnlyChanges [.funcs, .reads, .nextTag, .mbx, .fresh, .out] s (applyInit s a2 a3) := by
  unfold applyInit
  extract_lets -merge -underBinder +onlyGivenNames x1
  clear_value x1
  split
  · refine OnlyChanges.step (answerRequest_frame _ _ _ _ _) ?_
    exact (OnlyChanges.refl _ s)
  · extract_lets -merge -underBinder +onlyGivenNames x2 x3
    clear_value x2
    clear_value x3
    refine OnlyChanges.ite1 ?_ ?_
    · refine OnlyChanges.step (poll_frame _ _ _) ?_
      refine OnlyChanges.step (answerRequest_frame _ _ _ _ _) ?_
      refine OnlyChanges.step (updFunc_frame _ _ _) ?_
      exact (OnlyChanges.refl _ s)
    · refine OnlyChanges.step (answerRequest_frame _ _ _ _ _) ?_
      refine OnlyChanges.step (markFresh_frame _ _ _ _ _) ?_
      refine OnlyChanges.step (updFunc_frame _ _ _) ?_
      exact (OnlyChanges.refl _ s)

theorem dropWaiters_frame (s : State) : OnlyChanges [.pwr, .tt, .adm, .funcs, .groups, .vols, .mports, .mbx] s (dropWaiters s) := by
  unfold dropWaiters
  extract_lets -merge -underBinder +onlyGivenNames x1 x2 x3 x4
  clear_value x1
  clear_value x2
  clear_value x3
  clear_value x4
  exact OnlyChanges.of (OnlyChanges.refl _ s) (by intro p hp; cases p <;> first | exact absurd (by decide) hp | exact rfl)

theorem postMessage_frame (s : State) a2 a3 : OnlyChanges [.mbx] s (postMessage s a2 a3) := by
  unfold postMessage
  extract_lets -merge -underBinder +onlyGivenNames x1
  clear_value x1
  refine OnlyChanges.step (updBox_frame _ _ _) ?_
  exact (OnlyChanges.refl _ s)

theorem postNotice_frame (s : State) a2 a3 : OnlyChanges [.mbx] s (postNotice s a2 a3) := by
  unfold postNotice
  refine OnlyChanges.step (postMessage_frame _ _ _) ?_
  refine OnlyChanges.step (updBox_frame _ _ _) ?_
  exact (OnlyChanges.refl _ s)

theorem resetOnBox_frame a1 (s : State) a3 : OnlyChanges [.funcs, .mbx, .fresh, .out] s (resetOnBox a1 s a3) := by
  unfold resetOnBox
  extract_lets -merge -underBinder +onlyGivenNames x1 x2
  have hx1 : OnlyChanges [.funcs, .mbx, .fresh, .out] s x1 := by
    unfold x1
    refine OnlyChanges.step (updBox_frame _ _ _) ?_
    exact (OnlyChanges.refl _ s)
  clear_value x1
  have hx2 : OnlyChanges [.funcs, .mbx, .fresh, .out] s x2 := by
    unfold x2
    refine OnlyChanges.ite1 ?_ ?_
    · refine OnlyChanges.step (endMessage_frame _ _ _) ?_
      exact hx1
    · exact hx1
  clear_value x2
  refine OnlyChanges.step (updBox_frame _ _ _) ?_
  exact hx2

theorem resetAgent_frame (s : State) a2 : OnlyChanges [.funcs, .mbx, .fresh, .out] s (resetAgent s a2) := by
  unfold resetAgent
  extract_lets -merge -underBinder +onlyGivenNames x1
  have hx1 : OnlyChanges [.funcs, .mbx, .fresh, .out] s x1 := by
    unfold x1
    refine OnlyChanges.foldl (fun x2 x3 hx2 => ?_) ?_
    · refine OnlyChanges.step (resetOnBox_frame _ _ _) ?_
      exact hx2
    · exact (OnlyChanges.refl _ s)
  clear_value x1
  refine OnlyChanges.ite1 ?_ ?_
  · refine OnlyChanges.step (updMbx_frame _ _) ?_
    exact hx1
  · exact hx1

theorem startReload_frame (s : State) : OnlyChanges [.tt, .mbx] s (startReload s) := by
  unfold startReload
  extract_lets -merge -underBinder +onlyGivenNames x1
  clear_value x1
  refine OnlyChanges.step (updMbx_frame _ _) ?_
  refine OnlyChanges.step (updTt_frame _ _) ?_
  exact (OnlyChanges.refl _ s)

theorem enterUnattended_frame (s : State) : OnlyChanges [.pwr, .tt, .adm, .funcs, .groups, .vols, .mports, .mbx, .errLog, .errSeq, .fresh, .out, .seqCtr] s (enterUnattended s) := by
  unfold enterUnattended
  extract_lets -merge -underBinder +onlyGivenNames x1 x2 x3 x4 x5
  clear_value x1
  have hx2 : OnlyChanges [.pwr, .tt, .adm, .funcs, .groups, .vols, .mports, .mbx, .errLog, .errSeq, .fresh, .out, .seqCtr] s x2 := by
    unfold x2
    refine OnlyChanges.foldl (fun x6 x7 hx6 => ?_) ?_
    · refine OnlyChanges.step (adminDone_frame _ _ _ _) ?_
      exact hx6
    · refine OnlyChanges.step (dropWaiters_frame _) ?_
      exact (OnlyChanges.refl _ s)
  clear_value x2
  have hx3 : OnlyChanges [.pwr, .tt, .adm, .funcs, .groups, .vols, .mports, .mbx, .errLog, .errSeq, .fresh, .out, .seqCtr] s x3 := by
    unfold x3
    refine OnlyChanges.step (resetAgent_frame _ _) ?_
    refine OnlyChanges.step (resetAgent_frame _ _) ?_
    exact hx2
  clear_value x3
  have hx4 : OnlyChanges [.pwr, .tt, .adm, .funcs, .groups, .vols, .mports, .mbx, .errLog, .errSeq, .fresh, .out, .seqCtr] s x4 := by
    unfold x4
    refine OnlyChanges.step (updMbx_frame _ _) ?_
    exact hx3
  clear_value x4
  have hx5 : OnlyChanges [.pwr, .tt, .adm, .funcs, .groups, .vols, .mports, .mbx, .errLog, .errSeq, .fresh, .out, .seqCtr] s x5 := by
    unfold x5
    refine OnlyChanges.step (logErr_frame _ _ _ _ _) ?_
    exact hx4
  clear_value x5
  refine OnlyChanges.step (startReload_frame _) ?_
  refine OnlyChanges.foldl (fun x8 x9 hx8 => ?_) ?_
  · refine OnlyChanges.ite1 ?_ ?_
    · exact hx8
    · refine OnlyChanges.step (postNotice_frame _ _ _) ?_
      exact hx8
  · exact hx5

theorem execAdminInit_frame a1 (s : State) : OnlyChangesQ [.funcs, .reads, .nextTag, .mbx, .fresh, .out] s (execAdminInit a1 s) := by
  unfold execAdminInit
  extract_lets -merge -underBinder +onlyGivenNames x1
  clear_value x1
  refine OnlyChangesQ.next ?_
  refine OnlyChanges.ite1 ?_ ?_
  · refine OnlyChanges.step (applyInit_frame _ _ _) ?_
    exact (OnlyChanges.refl _ s)
  · exact (OnlyChanges.refl _ s)

theorem execBind_frame a1 (s : State) : OnlyChangesQ [.funcs, .mbx, .fresh, .out] s (execBind a1 s) := by
  unfold execBind
  extract_lets -merge -underBinder +onlyGivenNames x1
  clear_value x1
  refine OnlyChangesQ.next ?_
  refine OnlyChanges.ite1 ?_ ?_
  · exact (OnlyChanges.refl _ s)
  · split
    · refine OnlyChanges.ite1 ?_ ?_
      · refine OnlyChanges.step (answerRequest_frame _ _ _ _ _) ?_
        refine OnlyChanges.step (updBox_frame _ _ _) ?_
        exact (OnlyChanges.refl _ s)
      · refine OnlyChanges.step (answerRequest_frame _ _ _ _ _) ?_
        exact (OnlyChanges.refl _ s)
    · refine OnlyChanges.step (answerRequest_frame _ _ _ _ _) ?_
      exact (OnlyChanges.refl _ s)

theorem ignoreAccess_frame (s : State) a2 a3 : OnlyChanges [.funcs, .mbx, .fresh] s (ignoreAccess s a2 a3) := by
  unfold ignoreAccess
  extract_lets -merge -underBinder +onlyGivenNames x1
  clear_value x1
  refine OnlyChanges.ite1 ?_ ?_
  · refine OnlyChanges.step (markFresh_frame _ _ _ _ _) ?_
    refine OnlyChanges.step (updBox_frame _ _ _) ?_
    exact (OnlyChanges.refl _ s)
  · refine OnlyChanges.ite1 ?_ ?_
    · refine OnlyChanges.step (countIgn_frame _ _) ?_
      exact (OnlyChanges.refl _ s)
    · exact (OnlyChanges.refl _ s)

theorem execHeartbeatCheck_frame (s : State) : OnlyChangesQ [.mbx] s (execHeartbeatCheck s) := by
  unfold execHeartbeatCheck
  extract_lets -merge -underBinder +onlyGivenNames x1 x2 x3
  clear_value x1
  clear_value x2
  have hx3 : OnlyChanges [.mbx] s x3 := by
    unfold x3
    refine OnlyChanges.step (updMbx_frame _ _) ?_
    exact (OnlyChanges.refl _ s)
  clear_value x3
  refine OnlyChangesQ.next ?_
  refine OnlyChanges.ite1 ?_ ?_
  · exact (OnlyChanges.refl _ s)
  · refine OnlyChanges.ite1 ?_ ?_
    · refine OnlyChanges.step (updMbx_frame _ _) ?_
      exact hx3
    · exact hx3

theorem execMailboxUndefinedRequest_frame a1 (s : State) : OnlyChangesQ [.funcs, .mbx, .fresh, .out] s (execMailboxUndefinedRequest a1 s) := by
  unfold execMailboxUndefinedRequest
  extract_lets -merge -underBinder +onlyGivenNames x1
  clear_value x1
  refine OnlyChangesQ.next ?_
  refine OnlyChanges.ite1 ?_ ?_
  · refine OnlyChanges.step (answerRequest_frame _ _ _ _ _) ?_
    exact (OnlyChanges.refl _ s)
  · exact (OnlyChanges.refl _ s)

theorem leaveUnattended_frame (s : State) : OnlyChanges [.mbx, .errLog, .errSeq] s (leaveUnattended s) := by
  unfold leaveUnattended
  extract_lets -merge -underBinder +onlyGivenNames x1
  have hx1 : OnlyChanges [.mbx, .errLog, .errSeq] s x1 := by
    unfold x1
    refine OnlyChanges.step (updMbx_frame _ _) ?_
    exact (OnlyChanges.refl _ s)
  clear_value x1
  refine OnlyChanges.foldl (fun x2 x3 hx2 => ?_) ?_
  · refine OnlyChanges.step (updMbx_frame _ _) ?_
    exact hx2
  · refine OnlyChanges.step (logErr_frame _ _ _ _ _) ?_
    exact hx1

theorem execMbxHbWrite_frame a1 (s : State) : OnlyChangesQ [.pwr, .mbx, .errLog, .errSeq] s (execMbxHbWrite a1 s) := by
  unfold execMbxHbWrite
  extract_lets -merge -underBinder +onlyGivenNames x1 x2 x3 x4 x5
  clear_value x1
  have hx2 : OnlyChanges [.pwr, .mbx, .errLog, .errSeq] s x2 := by
    unfold x2
    refine OnlyChanges.ite1 ?_ ?_
    · exact (OnlyChanges.refl _ s)
    · refine OnlyChanges.step (updMbx_frame _ _) ?_
      exact (OnlyChanges.refl _ s)
  clear_value x2
  have hx3 : OnlyChanges [.pwr, .mbx, .errLog, .errSeq] s x3 := by
    unfold x3
    refine OnlyChanges.step (updMbx_frame _ _) ?_
    exact hx2
  clear_value x3
  clear_value x4
  have hx5 : OnlyChanges [.pwr, .mbx, .errLog, .errSeq] s x5 := by
    unfold x5
    exact OnlyChanges.of hx3 (by intro p hp; cases p <;> first | exact absurd (by decide) hp | exact rfl)
  clear_value x5
  refine OnlyChangesQ.next ?_
  refine OnlyChanges.ite1 ?_ ?_
  · refine OnlyChanges.step (leaveUnattended_frame _) ?_
    exact hx5
  · exact hx5

theorem execMbxLockRead_frame a1 a2 (s : State) : OnlyChangesQ [.mbx, .out] s (execMbxLockRead a1 a2 s) := by
  unfold execMbxLockRead
  extract_lets -merge -underBinder +onlyGivenNames x1
  clear_value x1
  refine OnlyChangesQ.next ?_
  refine OnlyChanges.ite1 ?_ ?_
  · exact (OnlyChanges.refl _ s)
  · refine OnlyChanges.ite1 ?_ ?_
    · refine OnlyChanges.step (emit_frame _ _) ?_
      exact (OnlyChanges.refl _ s)
    · refine OnlyChanges.ite1 ?_ ?_
      · refine OnlyChanges.step (emit_frame _ _) ?_
        refine OnlyChanges.step (updBox_frame _ _ _) ?_
        exact (OnlyChanges.refl _ s)
      · refine OnlyChanges.step (emit_frame _ _) ?_
        exact (OnlyChanges.refl _ s)

theorem execMbxLockWrite_frame a1 a2 a3 (s : State) : OnlyChangesQ [.funcs, .mbx, .fresh] s (execMbxLockWrite a1 a2 a3 s) := by
  unfold execMbxLockWrite
  refine OnlyChangesQ.next ?_
  refine OnlyChanges.ite1 ?_ ?_
  · exact (OnlyChanges.refl _ s)
  · refine OnlyChanges.ite1 ?_ ?_
    · refine OnlyChanges.step (updBox_frame _ _ _) ?_
      exact (OnlyChanges.refl _ s)
    · refine OnlyChanges.step (ignoreAccess_frame _ _ _) ?_
      exact (OnlyChanges.refl _ s)

theorem execMbxPost_frame a1 a2 a3 (s : State) : OnlyChangesQ [.funcs, .mbx, .fresh] s (execMbxPost a1 a2 a3 s) := by
  unfold execMbxPost
  extract_lets -merge -underBinder +onlyGivenNames x1
  clear_value x1
  refine OnlyChangesQ.next ?_
  refine OnlyChanges.ite1 ?_ ?_
  · exact (OnlyChanges.refl _ s)
  · refine OnlyChanges.ite1 ?_ ?_
    · refine OnlyChanges.step (ignoreAccess_frame _ _ _) ?_
      exact (OnlyChanges.refl _ s)
    · refine OnlyChanges.ite1 ?_ ?_
      · refine OnlyChanges.step (postMessage_frame _ _ _) ?_
        exact (OnlyChanges.refl _ s)
      · exact (OnlyChanges.refl _ s)

theorem lapse_frame (s : State) a2 : OnlyChanges [.funcs, .mbx, .fresh, .out] s (lapse s a2) := by
  unfold lapse
  refine OnlyChanges.ite1 ?_ ?_
  · refine OnlyChanges.step (endMessage_frame _ _ _) ?_
    exact (OnlyChanges.refl _ s)
  · exact (OnlyChanges.refl _ s)

theorem execMbxTake_frame a1 a2 a3 (s : State) : OnlyChangesQ [.funcs, .mbx, .fresh, .out] s (execMbxTake a1 a2 a3 s) := by
  unfold execMbxTake
  extract_lets -merge -underBinder +onlyGivenNames x1 x2
  have hx1 : OnlyChanges [.funcs, .mbx, .fresh, .out] s x1 := by
    unfold x1
    refine OnlyChanges.step (lapse_frame _ _) ?_
    exact (OnlyChanges.refl _ s)
  clear_value x1
  clear_value x2
  refine OnlyChangesQ.next ?_
  refine OnlyChanges.ite1 ?_ ?_
  · exact (OnlyChanges.refl _ s)
  · refine OnlyChanges.ite1 ?_ ?_
    · exact hx1
    · refine OnlyChanges.ite1 ?_ ?_
      · refine OnlyChanges.step (ignoreAccess_frame _ _ _) ?_
        exact hx1
      · refine OnlyChanges.step (endMessage_frame _ _ _) ?_
        exact hx1

theorem execMbxTimeout_frame a1 (s : State) : OnlyChangesQ [.funcs, .mbx, .fresh, .out] s (execMbxTimeout a1 s) := by
  unfold execMbxTimeout
  refine OnlyChangesQ.next ?_
  refine OnlyChanges.ite1 ?_ ?_
  · refine OnlyChanges.step (endMessage_frame _ _ _) ?_
    exact (OnlyChanges.refl _ s)
  · exact (OnlyChanges.refl _ s)

theorem execNoticePost_frame a1 (s : State) : OnlyChangesQ [.mbx] s (execNoticePost a1 s) := by
  unfold execNoticePost
  refine OnlyChangesQ.next ?_
  refine OnlyChanges.ite1 ?_ ?_
  · exact (OnlyChanges.refl _ s)
  · split
    · refine OnlyChanges.step (postNotice_frame _ _ _) ?_
      refine OnlyChanges.step (updMbx_frame _ _) ?_
      exact (OnlyChanges.refl _ s)
    · exact (OnlyChanges.refl _ s)

theorem execReloadHeartbeatTimeout_frame (s : State) : OnlyChangesQ [.tt, .mbx, .errLog, .errSeq] s (execReloadHeartbeatTimeout s) := by
  unfold execReloadHeartbeatTimeout
  extract_lets -merge -underBinder +onlyGivenNames x1 x2
  clear_value x1
  have hx2 : OnlyChanges [.tt, .mbx, .errLog, .errSeq] s x2 := by
    unfold x2
    refine OnlyChanges.step (logErr_frame _ _ _ _ _) ?_
    refine OnlyChanges.step (updMbx_frame _ _) ?_
    exact (OnlyChanges.refl _ s)
  clear_value x2
  refine OnlyChangesQ.next ?_
  refine OnlyChanges.ite1 ?_ ?_
  · exact (OnlyChanges.refl _ s)
  · refine OnlyChanges.ite1 ?_ ?_
    · refine OnlyChanges.step (updMbx_frame _ _) ?_
      exact hx2
    · refine OnlyChanges.step (startReload_frame _) ?_
      exact hx2

theorem execUnbind_frame a1 (s : State) : OnlyChangesQ [.funcs, .mbx, .fresh, .out] s (execUnbind a1 s) := by
  unfold execUnbind
  extract_lets -merge -underBinder +onlyGivenNames x1 x2 x3
  clear_value x1
  clear_value x2
  have hx3 : OnlyChanges [.funcs, .mbx, .fresh, .out] s x3 := by
    unfold x3
    refine OnlyChanges.ite1 ?_ ?_
    · refine OnlyChanges.step (endMessage_frame _ _ _) ?_
      exact (OnlyChanges.refl _ s)
    · exact (OnlyChanges.refl _ s)
  clear_value x3
  refine OnlyChangesQ.next ?_
  refine OnlyChanges.ite1 ?_ ?_
  · exact (OnlyChanges.refl _ s)
  · refine OnlyChanges.ite1 ?_ ?_
    · refine OnlyChanges.step (answerRequest_frame _ _ _ _ _) ?_
      refine OnlyChanges.step (updMbx_frame _ _) ?_
      exact hx3
    · refine OnlyChanges.step (answerRequest_frame _ _ _ _ _) ?_
      exact (OnlyChanges.refl _ s)

end Sys2Proof.Machine
end

