-- ==== Sys2Proof/Laws/FramesRewrite.lean ====
section
/-! SUPPORT. Which parts of the state each function of Machine/Rewrite.lean can change. -/

set_option Elab.async false

namespace Sys2Proof.Machine

theorem endFill_frame (s : State) a2 a3 : OnlyChanges [.funcs, .vols, .out, .seqCtr] s (endFill s a2 a3) := by
  unfold endFill
  extract_lets -merge -underBinder +onlyGivenNames x1
  have hx1 : OnlyChanges [.funcs, .vols, .out, .seqCtr] s x1 := by
    unfold x1
    refine OnlyChanges.step (updVol_frame _ _ _) ?_
    exact (OnlyChanges.refl _ s)
  clear_value x1
  split
  · refine OnlyChanges.step (adminDone_frame _ _ _ _) ?_
    exact hx1
  · exact hx1

theorem repairEntry_frame {F : List Part} {s : State} a1 a2 a3 a4 a5 (h : OnlyChangesP F s a4)
    (w : Part.sub [.cache, .freeCtr] F = true := by decide) : OnlyChangesP F s (repairEntry a1 a2 a3 a4 a5) := by
  unfold repairEntry
  dsimp only
  split
  · exact h
  · rename_i e
    exact OnlyChangesOP.of_eq e (OnlyChangesOP.step (allocFrame_frame _ _) h w)

theorem lockRepair_frame (s : State) a2 a3 : OnlyChanges [.locks] s (lockRepair s a2 a3) := by
  unfold lockRepair
  refine OnlyChanges.ite1 ?_ ?_
  · exact (OnlyChanges.refl _ s)
  · exact OnlyChanges.of (OnlyChanges.refl _ s) (by intro p hp; cases p <;> first | exact absurd (by decide) hp | exact rfl)

theorem rewriteBegun_frame (s : State) a2 : OnlyChanges [.ctxs, .vols] s (rewriteBegun s a2) := by
  unfold rewriteBegun
  split
  · refine OnlyChanges.step (updCtx_frame _ _ _) ?_
    exact (OnlyChanges.refl _ s)
  · refine OnlyChanges.step (updVol_frame _ _ _) ?_
    exact (OnlyChanges.refl _ s)

theorem rewriteRecord_frame (s : State) a2 a3 a4 a5 : OnlyChanges [.adm, .funcs, .ctxs, .cache, .locks, .journal, .groups, .vols, .mports, .mem, .errLog, .errSeq, .defLog, .defSeq, .out, .seqCtr] s (rewriteRecord s a2 a3 a4 a5) := by
  unfold rewriteRecord
  extract_lets -merge -underBinder +onlyGivenNames x1 x2
  clear_value x1
  clear_value x2
  split
  · rename_i x3 x4 x5
    have hx4 : OnlyChanges [.adm, .funcs, .ctxs, .cache, .locks, .journal, .groups, .vols, .mports, .mem, .errLog, .errSeq, .defLog, .defSeq, .out, .seqCtr] s x4 := by
      refine OnlyChangesP.of_eq x5 ?_
      refine OnlyChangesP.step (addRec_frame _ _) ?_
      exact (OnlyChanges.refl _ s)
    extract_lets -merge -underBinder +onlyGivenNames x6 x7 x8
    clear_value x6
    have hx7 : OnlyChanges [.adm, .funcs, .ctxs, .cache, .locks, .journal, .groups, .vols, .mports, .mem, .errLog, .errSeq, .defLog, .defSeq, .out, .seqCtr] s x7 := by
      unfold x7
      refine OnlyChanges.step (lockRepair_frame _ _ _) ?_
      exact OnlyChanges.of hx4 (by intro p hp; cases p <;> first | exact absurd (by decide) hp | exact rfl)
    clear_value x7
    have hx8 : OnlyChanges [.adm, .funcs, .ctxs, .cache, .locks, .journal, .groups, .vols, .mports, .mem, .errLog, .errSeq, .defLog, .defSeq, .out, .seqCtr] s x8 := by
      unfold x8
      refine OnlyChanges.step (queueEcho_frame _ _ _ _ _ _) ?_
      exact hx7
    clear_value x8
    refine OnlyChanges.step (replayRec_frame _ _) ?_
    refine OnlyChanges.step (rewriteBegun_frame _ _) ?_
    exact hx8

theorem rewriteLanes_frame (s : State) a2 a3 a4 a5 a6 a7 : OnlyChanges [.adm, .funcs, .ctxs, .cache, .locks, .journal, .groups, .vols, .mports, .mem, .errLog, .errSeq, .defLog, .defSeq, .out, .freeCtr, .seqCtr] s (rewriteLanes s a2 a3 a4 a5 a6 a7) := by
  unfold rewriteLanes
  have h : OnlyChangesP [.adm, .funcs, .ctxs, .cache, .locks, .journal, .groups, .vols, .mports, .mem, .errLog, .errSeq, .defLog, .defSeq, .out, .freeCtr, .seqCtr] s ((lanesTaken s a6 a4 a7).foldl (repairEntry a4 a5 a6) ([], s)) :=
    OnlyChangesP.foldl (fun _ _ h => repairEntry_frame _ _ _ _ _ h) (OnlyChanges.refl _ s)
  split
  rename_i es u e
  have h := OnlyChangesP.of_eq e h
  exact OnlyChanges.ite1 h (OnlyChanges.step (rewriteRecord_frame _ _ _ _ _) h)

theorem fillStep_frame (s : State) a2 : OnlyChanges [.adm, .funcs, .ctxs, .cache, .locks, .journal, .groups, .vols, .mports, .mem, .errLog, .errSeq, .defLog, .defSeq, .out, .freeCtr, .seqCtr] s (fillStep s a2) := by
  unfold fillStep
  split
  · exact (OnlyChanges.refl _ s)
  · split
    · extract_lets -merge -underBinder +onlyGivenNames x1
      clear_value x1
      refine OnlyChanges.ite1 ?_ ?_
      · exact (OnlyChanges.refl _ s)
      · refine OnlyChanges.ite1 ?_ ?_
        · refine OnlyChanges.step (endFill_frame _ _ _) ?_
          exact (OnlyChanges.refl _ s)
        · refine OnlyChanges.ite1 ?_ ?_
          · exact (OnlyChanges.refl _ s)
          · refine OnlyChanges.ite1 ?_ ?_
            · exact (OnlyChanges.refl _ s)
            · refine OnlyChanges.step (rewriteLanes_frame _ _ _ _ _ _ _) ?_
              exact (OnlyChanges.refl _ s)
    · exact (OnlyChanges.refl _ s)

end Sys2Proof.Machine
end

