-- ==== Sys2Proof/Laws/FramesHost.lean ====
section
/-! SUPPORT. Which parts of the state each function of Machine/Host.lean can change. -/

set_option Elab.async false

namespace Sys2Proof.Machine

theorem loadCto_frame (s : State) a2 a3 : OnlyChanges [.funcs, .fresh] s (loadCto s a2 a3) := by
  have h : ∀ g, OnlyChanges [.funcs, .fresh] s (updFunc s a2 g) := fun g => OnlyChanges.step (updFunc_frame _ _ _) (OnlyChanges.refl _ s)
  unfold loadCto
  dsimp only
  split
  all_goals first | exact h _ | exact OnlyChanges.step (countIgn_frame _ _) (h _)

theorem sendPending_frame (s : State) a2 : OnlyChanges [.funcs, .out] s (sendPending s a2) := by
  unfold sendPending
  split
  · exact (OnlyChanges.refl _ s)
  · extract_lets -merge -underBinder +onlyGivenNames x1
    clear_value x1
    refine OnlyChanges.ite1 ?_ ?_
    · exact (OnlyChanges.refl _ s)
    · refine OnlyChanges.foldl (fun x2 x3 hx2 => ?_) ?_
      · refine OnlyChanges.step (sendMsix_frame _ _ _) ?_
        exact hx2
      · refine OnlyChanges.step (updFunc_frame _ _ _) ?_
        exact (OnlyChanges.refl _ s)

theorem holdChans_frame (s : State) a2 : OnlyChanges [.movers] s (holdChans s a2) := by
  unfold holdChans
  refine OnlyChanges.foldl (fun x1 x2 hx1 => ?_) ?_
  · refine OnlyChanges.step (pauseChan_frame _ _ _ _) ?_
    exact hx1
  · exact (OnlyChanges.refl _ s)

theorem clearBme_frame (s : State) a2 : OnlyChanges [.funcs, .movers] s (clearBme s a2) := by
  unfold clearBme
  refine OnlyChanges.step (holdChans_frame _ _) ?_
  refine OnlyChanges.step (updFunc_frame _ _ _) ?_
  exact (OnlyChanges.refl _ s)

theorem countCto_frame (s : State) a2 : OnlyChanges [.ports, .funcs, .fresh, .out] s (countCto s a2) := by
  unfold countCto
  extract_lets -merge -underBinder +onlyGivenNames x1
  have hx1 : OnlyChanges [.ports, .funcs, .fresh, .out] s x1 := by
    unfold x1
    refine OnlyChanges.step (updFunc_frame _ _ _) ?_
    exact (OnlyChanges.refl _ s)
  clear_value x1
  refine OnlyChanges.step (emit_frame _ _) ?_
  refine OnlyChanges.step (raiseFn_frame _ _ _) ?_
  refine OnlyChanges.step (markFresh_frame _ _ _ _ _) ?_
  exact hx1

theorem kickClass_frame (s : State) a2 : OnlyChanges [.funcs, .reads, .nextTag, .ctxs, .engineFree, .cache, .locks, .journal, .groups, .vols, .mports, .movers, .xlate, .progs, .errLog, .errSeq, .defLog, .defSeq, .rb, .fresh, .out, .seqCtr] s (kickClass s a2) := by
  unfold kickClass
  refine OnlyChanges.step (pumpAll_frame _ _) ?_
  refine OnlyChanges.step (recheckClass_frame _ _) ?_
  refine OnlyChanges.step (askLists_frame _ _) ?_
  refine OnlyChanges.step (fetchClass_frame _ _) ?_
  exact (OnlyChanges.refl _ s)

theorem kick_frame (s : State) : OnlyChanges [.funcs, .reads, .nextTag, .ctxs, .engineFree, .cache, .locks, .journal, .groups, .vols, .mports, .movers, .xlate, .progs, .errLog, .errSeq, .defLog, .defSeq, .rb, .fresh, .out, .seqCtr] s (kick s) := by
  unfold kick
  refine OnlyChanges.step (sendAllPrgs_frame _) ?_
  refine OnlyChanges.foldl (fun x1 x2 hx1 => ?_) ?_
  · refine OnlyChanges.step (kickClass_frame _ _) ?_
    exact hx1
  · exact (OnlyChanges.refl _ s)

theorem sendHeld_frame (s : State) a2 a3 : OnlyChanges [.funcs, .out] s (sendHeld s a2 a3) := by
  unfold sendHeld
  split
  · refine OnlyChanges.step (emit_frame _ _) ?_
    exact (OnlyChanges.refl _ s)
  · refine OnlyChanges.step (sendMsix_frame _ _ _) ?_
    exact (OnlyChanges.refl _ s)

theorem releaseHeld_frame (s : State) a2 : OnlyChanges [.funcs, .reads, .nextTag, .ctxs, .engineFree, .cache, .locks, .journal, .groups, .vols, .freedVols, .mports, .movers, .xlate, .progs, .fare, .errLog, .errSeq, .defLog, .defSeq, .rb, .fresh, .out, .freeCtr, .seqCtr] s (releaseHeld s a2) := by
  unfold releaseHeld
  split
  · exact (OnlyChanges.refl _ s)
  · extract_lets -merge -underBinder +onlyGivenNames x1 x2 x3 x4 x5
    have hx1 : OnlyChanges [.funcs, .reads, .nextTag, .ctxs, .engineFree, .cache, .locks, .journal, .groups, .vols, .freedVols, .mports, .movers, .xlate, .progs, .fare, .errLog, .errSeq, .defLog, .defSeq, .rb, .fresh, .out, .freeCtr, .seqCtr] s x1 := by
      unfold x1
      refine OnlyChanges.step (updFunc_frame _ _ _) ?_
      exact (OnlyChanges.refl _ s)
    clear_value x1
    have hx2 : OnlyChanges [.funcs, .reads, .nextTag, .ctxs, .engineFree, .cache, .locks, .journal, .groups, .vols, .freedVols, .mports, .movers, .xlate, .progs, .fare, .errLog, .errSeq, .defLog, .defSeq, .rb, .fresh, .out, .freeCtr, .seqCtr] s x2 := by
      unfold x2
      refine OnlyChanges.foldl (fun x6 x7 hx6 => ?_) ?_
      · refine OnlyChanges.step (startBest_frame _ _) ?_
        refine OnlyChanges.step (clearCause_frame _ _ _ _) ?_
        exact hx6
      · exact hx1
    clear_value x2
    have hx3 : OnlyChanges [.funcs, .reads, .nextTag, .ctxs, .engineFree, .cache, .locks, .journal, .groups, .vols, .freedVols, .mports, .movers, .xlate, .progs, .fare, .errLog, .errSeq, .defLog, .defSeq, .rb, .fresh, .out, .freeCtr, .seqCtr] s x3 := by
      unfold x3
      refine OnlyChanges.foldl (fun x8 x9 hx8 => ?_) ?_
      · refine OnlyChanges.step (sendHeld_frame _ _ _) ?_
        exact hx8
      · exact hx2
    clear_value x3
    have hx4 : OnlyChanges [.funcs, .reads, .nextTag, .ctxs, .engineFree, .cache, .locks, .journal, .groups, .vols, .freedVols, .mports, .movers, .xlate, .progs, .fare, .errLog, .errSeq, .defLog, .defSeq, .rb, .fresh, .out, .freeCtr, .seqCtr] s x4 := by
      unfold x4
      refine OnlyChanges.step (issueFn_frame _ _) ?_
      exact hx3
    clear_value x4
    have hx5 : OnlyChanges [.funcs, .reads, .nextTag, .ctxs, .engineFree, .cache, .locks, .journal, .groups, .vols, .freedVols, .mports, .movers, .xlate, .progs, .fare, .errLog, .errSeq, .defLog, .defSeq, .rb, .fresh, .out, .freeCtr, .seqCtr] s x5 := by
      unfold x5
      refine OnlyChanges.foldl (fun x10 x11 hx10 => ?_) ?_
      · refine OnlyChanges.step (sendHeld_frame _ _ _) ?_
        exact hx10
      · exact hx4
    clear_value x5
    refine OnlyChanges.ite1 ?_ ?_
    · exact (OnlyChanges.refl _ s)
    · refine OnlyChanges.step (kick_frame _) ?_
      exact hx5

theorem resumeFn_frame (s : State) a2 : OnlyChanges [.funcs, .reads, .nextTag, .ctxs, .engineFree, .cache, .locks, .journal, .groups, .vols, .freedVols, .mports, .movers, .xlate, .progs, .fare, .errLog, .errSeq, .defLog, .defSeq, .rb, .fresh, .out, .freeCtr, .seqCtr] s (resumeFn s a2) := by
  unfold resumeFn
  split
  · refine OnlyChanges.ite1 ?_ ?_
    · refine OnlyChanges.step (releaseHeld_frame _ _) ?_
      refine OnlyChanges.step (updFunc_frame _ _ _) ?_
      exact (OnlyChanges.refl _ s)
    · exact (OnlyChanges.refl _ s)
  · exact (OnlyChanges.refl _ s)

theorem issueSlot_frame (s : State) : OnlyChanges [.adm, .ports, .funcs, .reads, .nextTag, .ctxs, .engineFree, .cache, .locks, .journal, .groups, .vols, .freedVols, .mports, .movers, .xlate, .progs, .fare, .errLog, .errSeq, .defLog, .defSeq, .rb, .fresh, .fetchDue, .out, .freeCtr, .seqCtr] s (issueSlot s) := by
  unfold issueSlot
  extract_lets -merge -underBinder +onlyGivenNames x1 x2
  have hx1 : OnlyChanges [.adm, .ports, .funcs, .reads, .nextTag, .ctxs, .engineFree, .cache, .locks, .journal, .groups, .vols, .freedVols, .mports, .movers, .xlate, .progs, .fare, .errLog, .errSeq, .defLog, .defSeq, .rb, .fresh, .fetchDue, .out, .freeCtr, .seqCtr] s x1 := by
    unfold x1
    refine OnlyChanges.foldl (fun x3 x4 hx3 => ?_) ?_
    · refine OnlyChanges.step (flushEcho_frame _ _) ?_
      exact hx3
    · exact (OnlyChanges.refl _ s)
  clear_value x1
  have hx2 : OnlyChanges [.adm, .ports, .funcs, .reads, .nextTag, .ctxs, .engineFree, .cache, .locks, .journal, .groups, .vols, .freedVols, .mports, .movers, .xlate, .progs, .fare, .errLog, .errSeq, .defLog, .defSeq, .rb, .fresh, .fetchDue, .out, .freeCtr, .seqCtr] s x2 := by
    unfold x2
    refine OnlyChanges.foldl (fun x5 x6 hx5 => ?_) ?_
    · refine OnlyChanges.step (resumeFn_frame _ _) ?_
      exact hx5
    · exact hx1
  clear_value x2
  refine OnlyChanges.step (signalAll_frame _) ?_
  refine OnlyChanges.foldl (fun x7 x8 hx7 => ?_) ?_
  · refine OnlyChanges.step (settleIntx_frame _ _) ?_
    exact hx7
  · refine OnlyChanges.step (fetchIssue_frame _) ?_
    exact hx2

theorem fillAll_frame (s : State) : OnlyChanges [.adm, .funcs, .ctxs, .cache, .locks, .journal, .groups, .vols, .freedVols, .mports, .mem, .fare, .errLog, .errSeq, .defLog, .defSeq, .rb, .out, .freeCtr, .seqCtr] s (fillAll s) := by
  unfold fillAll
  refine OnlyChanges.foldl (fun x1 x2 hx1 => ?_) ?_
  · refine OnlyChanges.step (volSettle_frame _ _) ?_
    refine OnlyChanges.step (fillStep_frame _ _) ?_
    exact hx1
  · exact (OnlyChanges.refl _ s)

theorem pulseEnd_frame (s : State) a2 : OnlyChanges [.mports, .out] s (pulseEnd s a2) := by
  unfold pulseEnd
  split
  · refine OnlyChanges.ite1 ?_ ?_
    · refine OnlyChanges.ite1 ?_ ?_
      · refine OnlyChanges.step (emit_frame _ _) ?_
        refine OnlyChanges.step (updMport_frame _ _ _) ?_
        exact (OnlyChanges.refl _ s)
      · refine OnlyChanges.step (updMport_frame _ _ _) ?_
        exact (OnlyChanges.refl _ s)
    · exact (OnlyChanges.refl _ s)
  · exact (OnlyChanges.refl _ s)

theorem settleSlot_frame (s : State) : OnlyChanges [.adm, .funcs, .ctxs, .cache, .locks, .journal, .groups, .vols, .freedVols, .mports, .mem, .fare, .errLog, .errSeq, .defLog, .defSeq, .rb, .fresh, .out, .freeCtr, .seqCtr] s (settleSlot s) := by
  unfold settleSlot
  refine OnlyChanges.foldl (fun x1 x2 hx1 => ?_) ?_
  · refine OnlyChanges.step (pulseEnd_frame _ _) ?_
    exact hx1
  · refine OnlyChanges.foldl (fun x1 x2 hx1 => ?_) ?_
    · refine OnlyChanges.step (flrSettle_frame _ _) ?_
      exact hx1
    · refine OnlyChanges.step (fillAll_frame _) ?_
      refine OnlyChanges.step (passExpired_frame _) ?_
      exact OnlyChanges.of (OnlyChanges.refl _ s) (by intro p hp; cases p <;> first | exact absurd (by decide) hp | exact rfl)

theorem openSlot_frame (s : State) : OnlyChanges [.pwr, .tt, .adm, .funcs, .ctxs, .cache, .locks, .journal, .groups, .vols, .freedVols, .mports, .mem, .vlt, .mbx, .fare, .errLog, .errSeq, .defLog, .defSeq, .rb, .fresh, .out, .freeCtr, .seqCtr] s (openSlot s) := by
  unfold openSlot
  extract_lets -merge -underBinder +onlyGivenNames x1 x2
  have hx1 : OnlyChanges [.pwr, .tt, .adm, .funcs, .ctxs, .cache, .locks, .journal, .groups, .vols, .freedVols, .mports, .mem, .vlt, .mbx, .fare, .errLog, .errSeq, .defLog, .defSeq, .rb, .fresh, .out, .freeCtr, .seqCtr] s x1 := by
    unfold x1
    refine OnlyChanges.step (settleSlot_frame _) ?_
    exact (OnlyChanges.refl _ s)
  have hx2 : OnlyChanges [.pwr, .tt, .adm, .funcs, .ctxs, .cache, .locks, .journal, .groups, .vols, .freedVols, .mports, .mem, .vlt, .mbx, .fare, .errLog, .errSeq, .defLog, .defSeq, .rb, .fresh, .out, .freeCtr, .seqCtr] s x2 := by
    unfold x2
    refine OnlyChanges.ite1 ?_ hx1
    refine OnlyChanges.step (enterUnattended_frame _) ?_
    exact hx1
  clear_value x2
  refine OnlyChanges.ite1 ?_ hx2
  refine OnlyChanges.step (driveDone_frame _) ?_
  exact hx2

theorem dropAdmin_frame (s : State) a2 : OnlyChanges [.pwr, .tt, .adm, .funcs, .groups, .mports, .mbx] s (dropAdmin s a2) := by
  unfold dropAdmin
  extract_lets -merge -underBinder +onlyGivenNames x1 x2 x3 x4 x5
  clear_value x1
  clear_value x2
  clear_value x3
  clear_value x4
  clear_value x5
  exact OnlyChanges.of (OnlyChanges.refl _ s) (by intro p hp; cases p <;> first | exact absurd (by decide) hp | exact rfl)

theorem execBusMasterClear_frame a1 (s : State) : OnlyChangesQ [.funcs, .movers, .rb, .out] s (execBusMasterClear a1 s) := by
  unfold execBusMasterClear
  refine OnlyChangesQ.next ?_
  split
  · refine OnlyChanges.step (rbChange_frame _) ?_
    refine OnlyChanges.step (emit_frame _ _) ?_
    refine OnlyChanges.step (clearBme_frame _ _) ?_
    exact (OnlyChanges.refl _ s)
  · refine OnlyChanges.step (refuseCfg_frame _ _) ?_
    exact (OnlyChanges.refl _ s)

theorem setBme_frame (s : State) a2 : OnlyChanges [.funcs] s (setBme s a2) := by
  unfold setBme
  refine OnlyChanges.step (updFunc_frame _ _ _) ?_
  exact (OnlyChanges.refl _ s)

theorem execBusMasterSet_frame a1 (s : State) : OnlyChangesQ [.funcs, .rb, .out] s (execBusMasterSet a1 s) := by
  unfold execBusMasterSet
  refine OnlyChangesQ.next ?_
  split
  · refine OnlyChanges.step (rbChange_frame _) ?_
    refine OnlyChanges.step (setBme_frame _ _) ?_
    refine OnlyChanges.step (emit_frame _ _) ?_
    exact (OnlyChanges.refl _ s)
  · refine OnlyChanges.step (refuseCfg_frame _ _) ?_
    exact (OnlyChanges.refl _ s)

theorem execCompletionIssue_frame a1 a2 (s : State) : OnlyChangesQ [.funcs, .reads, .nextTag, .ctxs, .engineFree, .cache, .locks, .journal, .groups, .vols, .freedVols, .mports, .movers, .xlate, .progs, .fare, .errLog, .errSeq, .defLog, .defSeq, .rb, .fresh, .out, .freeCtr, .seqCtr] s (execCompletionIssue a1 a2 s) := by
  unfold execCompletionIssue
  extract_lets -merge -underBinder +onlyGivenNames x1
  have hx1 : OnlyChanges [.funcs, .reads, .nextTag, .ctxs, .engineFree, .cache, .locks, .journal, .groups, .vols, .freedVols, .mports, .movers, .xlate, .progs, .fare, .errLog, .errSeq, .defLog, .defSeq, .rb, .fresh, .out, .freeCtr, .seqCtr] s x1 := by
    unfold x1
    refine OnlyChanges.step (resumeFn_frame _ _) ?_
    exact (OnlyChanges.refl _ s)
  clear_value x1
  refine OnlyChangesQ.next ?_
  refine OnlyChanges.ite1 ?_ ?_
  · exact hx1
  · refine OnlyChanges.step (issueRing_frame _ _ _) ?_
    exact hx1

theorem readFails_frame (s : State) a2 : OnlyChanges [.ports, .funcs, .reads, .nextTag, .ctxs, .engineFree, .cache, .locks, .journal, .groups, .vols, .mports, .movers, .xlate, .progs, .errLog, .errSeq, .defLog, .defSeq, .rb, .fresh, .out, .seqCtr] s (readFails s a2) := by
  unfold readFails
  split
  · refine OnlyChanges.step (raiseFn_frame _ _ _) ?_
    refine OnlyChanges.step (updSq_frame _ _ _ _) ?_
    exact (OnlyChanges.refl _ s)
  · extract_lets -merge -underBinder +onlyGivenNames x1
    clear_value x1
    refine OnlyChanges.step (updSq_frame _ _ _ _) ?_
    exact (OnlyChanges.refl _ s)
  · refine OnlyChanges.step (listFails_frame _ _) ?_
    exact (OnlyChanges.refl _ s)
  · refine OnlyChanges.step (dataFails_frame _ _ _) ?_
    exact (OnlyChanges.refl _ s)
  · refine OnlyChanges.step (atsFails_frame _ _ _ _) ?_
    exact (OnlyChanges.refl _ s)
  · split
    · refine OnlyChanges.step (sendPrgs_frame _ _) ?_
      refine OnlyChanges.step (prgFails_frame _ _) ?_
      refine OnlyChanges.step (dropPrg_frame _ _) ?_
      exact (OnlyChanges.refl _ s)
    · exact (OnlyChanges.refl _ s)

theorem timeoutRead_frame (s : State) a2 a3 : OnlyChanges [.ports, .funcs, .reads, .nextTag, .ctxs, .engineFree, .cache, .locks, .journal, .groups, .vols, .mports, .movers, .xlate, .progs, .errLog, .errSeq, .defLog, .defSeq, .rb, .fresh, .out, .seqCtr] s (timeoutRead s a2 a3) := by
  unfold timeoutRead
  extract_lets -merge -underBinder +onlyGivenNames x1 x2
  have hx1 : OnlyChanges [.ports, .funcs, .reads, .nextTag, .ctxs, .engineFree, .cache, .locks, .journal, .groups, .vols, .mports, .movers, .xlate, .progs, .errLog, .errSeq, .defLog, .defSeq, .rb, .fresh, .out, .seqCtr] s x1 := by
    unfold x1
    refine OnlyChanges.step (countCto_frame _ _) ?_
    exact (OnlyChanges.refl _ s)
  clear_value x1
  have hx2 : OnlyChanges [.ports, .funcs, .reads, .nextTag, .ctxs, .engineFree, .cache, .locks, .journal, .groups, .vols, .mports, .movers, .xlate, .progs, .errLog, .errSeq, .defLog, .defSeq, .rb, .fresh, .out, .seqCtr] s x2 := by
    unfold x2
    refine OnlyChanges.ite1 ?_ ?_
    · refine OnlyChanges.step (closeRead_frame _ _) ?_
      exact hx1
    · exact OnlyChanges.of hx1 (by intro p hp; cases p <;> first | exact absurd (by decide) hp | exact rfl)
  clear_value x2
  refine OnlyChanges.step (kick_frame _) ?_
  refine OnlyChanges.step (readFails_frame _ _) ?_
  exact hx2

theorem execCompletionTimeout_frame a1 (s : State) : OnlyChangesQ [.ports, .funcs, .reads, .nextTag, .ctxs, .engineFree, .cache, .locks, .journal, .groups, .vols, .mports, .movers, .xlate, .progs, .errLog, .errSeq, .defLog, .defSeq, .rb, .fresh, .out, .seqCtr] s (execCompletionTimeout a1 s) := by
  unfold execCompletionTimeout
  refine OnlyChangesQ.next ?_
  split
  · exact (OnlyChanges.refl _ s)
  · refine OnlyChanges.ite1 ?_ ?_
    · exact (OnlyChanges.refl _ s)
    · refine OnlyChanges.step (timeoutRead_frame _ _ _) ?_
      exact (OnlyChanges.refl _ s)

theorem execCrsPeriodEnd_frame (s : State) : OnlyChangesQ [.ports] s (execCrsPeriodEnd s) := by
  unfold execCrsPeriodEnd
  refine OnlyChangesQ.next ?_
  refine OnlyChanges.ite1 ?_ ?_
  · exact (OnlyChanges.refl _ s)
  · exact OnlyChanges.of (OnlyChanges.refl _ s) (by intro p hp; cases p <;> first | exact absurd (by decide) hp | exact rfl)

theorem execCtoValueWrite_frame a1 a2 (s : State) : OnlyChangesQ [.funcs, .fresh, .out] s (execCtoValueWrite a1 a2 s) := by
  unfold execCtoValueWrite
  refine OnlyChangesQ.next ?_
  split
  · refine OnlyChanges.step (refuseCfg_frame _ _) ?_
    exact (OnlyChanges.refl _ s)
  · refine OnlyChanges.step (loadCto_frame _ _ _) ?_
    refine OnlyChanges.step (emit_frame _ _) ?_
    exact (OnlyChanges.refl _ s)

theorem execDStateWrite_frame a1 a2 (s : State) : OnlyChangesQ [.pwr, .ports, .funcs, .errLog, .errSeq, .rb, .fresh, .out] s (execDStateWrite a1 a2 s) := by
  unfold execDStateWrite
  refine OnlyChangesQ.next ?_
  split
  · refine OnlyChanges.step (refuseCfg_frame _ _) ?_
    exact (OnlyChanges.refl _ s)
  · extract_lets -merge -underBinder +onlyGivenNames x1 x2 x3 x4
    clear_value x1
    have hx2 : OnlyChanges [.pwr, .ports, .funcs, .errLog, .errSeq, .rb, .fresh, .out] s x2 := by
      unfold x2
      refine OnlyChanges.step (emit_frame _ _) ?_
      exact (OnlyChanges.refl _ s)
    clear_value x2
    have hx3 : OnlyChanges [.pwr, .ports, .funcs, .errLog, .errSeq, .rb, .fresh, .out] s x3 := by
      unfold x3
      refine OnlyChanges.step (rbChange_frame _) ?_
      refine OnlyChanges.foldl (fun x5 x6 hx5 => ?_) ?_
      · refine OnlyChanges.step (updFunc_frame _ _ _) ?_
        exact hx5
      · exact hx2
    clear_value x3
    have hx4 : OnlyChanges [.pwr, .ports, .funcs, .errLog, .errSeq, .rb, .fresh, .out] s x4 := by
      unfold x4
      refine OnlyChanges.ite1 ?_ ?_
      · refine OnlyChanges.step (wakeUp_frame _ _) ?_
        exact hx3
      · exact hx3
    clear_value x4
    refine OnlyChanges.ite1 ?_ ?_
    · exact hx3
    · refine OnlyChanges.foldl (fun x7 x8 hx7 => ?_) ?_
      · refine OnlyChanges.step (updFunc_frame _ _ _) ?_
        exact hx7
      · exact hx4

theorem settleVols_frame (s : State) : OnlyChanges [.funcs, .cache, .groups, .vols, .freedVols, .fare, .rb, .out, .seqCtr] s (settleVols s) := by
  unfold settleVols
  refine OnlyChanges.foldl (fun x1 x2 hx1 => ?_) ?_
  · refine OnlyChanges.step (volSettle_frame _ _) ?_
    exact hx1
  · exact (OnlyChanges.refl _ s)

theorem leaveHost_frame (s : State) a2 a3 : OnlyChanges [.ctxs, .cache, .movers, .seqCtr] s (leaveHost s a2 a3) := by
  unfold leaveHost
  extract_lets -merge -underBinder +onlyGivenNames x1
  have hx1 : OnlyChanges [.ctxs, .cache, .movers, .seqCtr] s x1 := by
    unfold x1
    exact OnlyChanges.of (OnlyChanges.refl _ s) (by intro p hp; cases p <;> first | exact absurd (by decide) hp | exact rfl)
  clear_value x1
  split
  · split <;> exact OnlyChanges.step (finishWait_frame _ _ _) hx1
  · exact OnlyChanges.step (finishWait_frame _ _ _) hx1
  · refine OnlyChanges.step (finishWait_frame _ _ _) ?_
    refine OnlyChanges.step (releaseHandle_frame _ _ _) ?_
    exact hx1
  · refine OnlyChanges.ite1 ?_ ?_
    · refine OnlyChanges.step (wake_frame _ _) ?_
      exact hx1
    · exact hx1

theorem tearCtx_frame (s : State) a2 : OnlyChanges [.funcs, .ctxs, .engineFree, .cache, .locks, .journal, .groups, .mports, .movers, .progs, .rb, .seqCtr] s (tearCtx s a2) := by
  unfold tearCtx
  split
  · exact (OnlyChanges.refl _ s)
  · refine OnlyChanges.ite1 ?_ ?_
    · refine OnlyChanges.step (leaveHost_frame _ _ _) ?_
      exact (OnlyChanges.refl _ s)
    · refine OnlyChanges.step (endThread_frame _ _) ?_
      refine OnlyChanges.step (updCtx_frame _ _ _) ?_
      exact (OnlyChanges.refl _ s)

theorem tearXlate_frame (s : State) a2 : OnlyChanges [.reads, .xlate] s (tearXlate s a2) := by
  unfold tearXlate
  extract_lets -merge -underBinder +onlyGivenNames x1
  clear_value x1
  exact OnlyChanges.of (OnlyChanges.refl _ s) (by intro p hp; cases p <;> first | exact absurd (by decide) hp | exact rfl)

theorem tearDown_frame (s : State) a2 : OnlyChanges [.pwr, .tt, .adm, .ports, .funcs, .reads, .nextTag, .ctxs, .engineFree, .cache, .locks, .journal, .groups, .vols, .freedVols, .mports, .movers, .xlate, .progs, .mbx, .fare, .errLog, .errSeq, .defLog, .defSeq, .rb, .fresh, .out, .seqCtr] s (tearDown s a2) := by
  unfold tearDown
  split
  · exact (OnlyChanges.refl _ s)
  · extract_lets -merge -underBinder +onlyGivenNames x1 x2 x3 x4 x5 x6 x7 x8 x9
    have hx1 : OnlyChanges [.pwr, .tt, .adm, .ports, .funcs, .reads, .nextTag, .ctxs, .engineFree, .cache, .locks, .journal, .groups, .vols, .freedVols, .mports, .movers, .xlate, .progs, .mbx, .fare, .errLog, .errSeq, .defLog, .defSeq, .rb, .fresh, .out, .seqCtr] s x1 := by
      unfold x1
      refine OnlyChanges.step (clearWindows_frame _ _) ?_
      exact (OnlyChanges.refl _ s)
    clear_value x1
    have hx2 : OnlyChanges [.pwr, .tt, .adm, .ports, .funcs, .reads, .nextTag, .ctxs, .engineFree, .cache, .locks, .journal, .groups, .vols, .freedVols, .mports, .movers, .xlate, .progs, .mbx, .fare, .errLog, .errSeq, .defLog, .defSeq, .rb, .fresh, .out, .seqCtr] s x2 := by
      unfold x2
      refine OnlyChanges.step (clearTokens_frame _ _) ?_
      exact hx1
    clear_value x2
    have hx3 : OnlyChanges [.pwr, .tt, .adm, .ports, .funcs, .reads, .nextTag, .ctxs, .engineFree, .cache, .locks, .journal, .groups, .vols, .freedVols, .mports, .movers, .xlate, .progs, .mbx, .fare, .errLog, .errSeq, .defLog, .defSeq, .rb, .fresh, .out, .seqCtr] s x3 := by
      unfold x3
      refine OnlyChanges.step (resetAgent_frame _ _) ?_
      exact hx2
    clear_value x3
    have hx4 : OnlyChanges [.pwr, .tt, .adm, .ports, .funcs, .reads, .nextTag, .ctxs, .engineFree, .cache, .locks, .journal, .groups, .vols, .freedVols, .mports, .movers, .xlate, .progs, .mbx, .fare, .errLog, .errSeq, .defLog, .defSeq, .rb, .fresh, .out, .seqCtr] s x4 := by
      unfold x4
      refine OnlyChanges.ite1 ?_ ?_
      · refine OnlyChanges.step (dropAdmin_frame _ _) ?_
        exact hx3
      · exact hx3
    clear_value x4
    have hx5 : OnlyChanges [.pwr, .tt, .adm, .ports, .funcs, .reads, .nextTag, .ctxs, .engineFree, .cache, .locks, .journal, .groups, .vols, .freedVols, .mports, .movers, .xlate, .progs, .mbx, .fare, .errLog, .errSeq, .defLog, .defSeq, .rb, .fresh, .out, .seqCtr] s x5 := by
      unfold x5
      refine OnlyChanges.ite1 ?_ ?_
      · refine OnlyChanges.step (updPort_frame _ _ _) ?_
        exact hx4
      · exact hx4
    clear_value x5
    clear_value x6
    have hx7 : OnlyChanges [.pwr, .tt, .adm, .ports, .funcs, .reads, .nextTag, .ctxs, .engineFree, .cache, .locks, .journal, .groups, .vols, .freedVols, .mports, .movers, .xlate, .progs, .mbx, .fare, .errLog, .errSeq, .defLog, .defSeq, .rb, .fresh, .out, .seqCtr] s x7 := by
      unfold x7
      refine OnlyChanges.step (updFunc_frame _ _ _) ?_
      exact hx5
    clear_value x7
    have hx8 : OnlyChanges [.pwr, .tt, .adm, .ports, .funcs, .reads, .nextTag, .ctxs, .engineFree, .cache, .locks, .journal, .groups, .vols, .freedVols, .mports, .movers, .xlate, .progs, .mbx, .fare, .errLog, .errSeq, .defLog, .defSeq, .rb, .fresh, .out, .seqCtr] s x8 := by
      unfold x8
      refine OnlyChanges.foldl (fun x10 x11 hx10 => ?_) ?_
      · refine OnlyChanges.step (tearCtx_frame _ _) ?_
        exact hx10
      · refine OnlyChanges.step (tearXlate_frame _ _) ?_
        exact hx7
    clear_value x8
    have hx9 : OnlyChanges [.pwr, .tt, .adm, .ports, .funcs, .reads, .nextTag, .ctxs, .engineFree, .cache, .locks, .journal, .groups, .vols, .freedVols, .mports, .movers, .xlate, .progs, .mbx, .fare, .errLog, .errSeq, .defLog, .defSeq, .rb, .fresh, .out, .seqCtr] s x9 := by
      unfold x9
      refine OnlyChanges.step (updTt_frame _ _) ?_
      exact hx8
    clear_value x9
    refine OnlyChanges.step (rbChange_frame _) ?_
    refine OnlyChanges.step (kick_frame _) ?_
    refine OnlyChanges.step (settleVols_frame _) ?_
    refine OnlyChanges.step (wakeFrameWaiters_frame _) ?_
    exact hx9

theorem execFlr_frame a1 (s : State) : OnlyChangesQ [.pwr, .tt, .adm, .ports, .funcs, .reads, .nextTag, .ctxs, .engineFree, .cache, .locks, .journal, .groups, .vols, .freedVols, .mports, .movers, .xlate, .progs, .mbx, .fare, .errLog, .errSeq, .defLog, .defSeq, .rb, .fresh, .out, .seqCtr] s (execFlr a1 s) := by
  unfold execFlr
  refine OnlyChangesQ.next ?_
  split
  · refine OnlyChanges.step (refuseCfg_frame _ _) ?_
    exact (OnlyChanges.refl _ s)
  · refine OnlyChanges.foldl (fun x1 x2 hx1 => ?_) ?_
    · refine OnlyChanges.step (tearDown_frame _ _) ?_
      exact hx1
    · refine OnlyChanges.step (tearDown_frame _ _) ?_
      refine OnlyChanges.step (emit_frame _ _) ?_
      exact (OnlyChanges.refl _ s)

theorem execFlrTeardownEnd_frame a1 (s : State) : OnlyChangesQ [.funcs, .rb] s (execFlrTeardownEnd a1 s) := by
  unfold execFlrTeardownEnd
  refine OnlyChangesQ.next ?_
  refine OnlyChanges.step (flrSettle_frame _ _) ?_
  exact (OnlyChanges.refl _ s)

theorem execHostLinkUp_frame a1 a2 a3 a4 (s : State) : OnlyChangesQ [.ports, .rb] s (execHostLinkUp a1 a2 a3 a4 s) := by
  unfold execHostLinkUp
  refine OnlyChangesQ.next ?_
  split
  · exact (OnlyChanges.refl _ s)
  · refine OnlyChanges.ite1 ?_ ?_
    · exact (OnlyChanges.refl _ s)
    · refine OnlyChanges.step (rbChange_frame _) ?_
      refine OnlyChanges.step (updPort_frame _ _ _) ?_
      exact (OnlyChanges.refl _ s)

theorem lateRead_frame (s : State) a2 a3 : OnlyChanges [.ports, .funcs, .reads, .nextTag, .ctxs, .engineFree, .cache, .locks, .journal, .groups, .vols, .mports, .movers, .xlate, .progs, .errLog, .errSeq, .defLog, .defSeq, .rb, .fresh, .out, .seqCtr] s (lateRead s a2 a3) := by
  unfold lateRead
  refine OnlyChanges.step (kick_frame _) ?_
  refine OnlyChanges.step (unexpected_frame _ _) ?_
  refine OnlyChanges.step (closeRead_frame _ _) ?_
  exact (OnlyChanges.refl _ s)

theorem readArrives_frame (s : State) a2 a3 a4 a5 : OnlyChanges [.pwr, .ports, .funcs, .reads, .nextTag, .ctxs, .engineFree, .cache, .locks, .journal, .groups, .vols, .mports, .movers, .xlate, .progs, .errLog, .errSeq, .defLog, .defSeq, .rb, .fresh, .out, .seqCtr] s (readArrives s a2 a3 a4 a5) := by
  unfold readArrives
  split
  · split
    · refine OnlyChanges.step (fetchArrives_frame _ _ _ _ _ _) ?_
      exact (OnlyChanges.refl _ s)
    · refine OnlyChanges.step (closeRead_frame _ _) ?_
      exact (OnlyChanges.refl _ s)
  · refine OnlyChanges.step (pollArrives_frame _ _ _ _ _ _) ?_
    exact (OnlyChanges.refl _ s)
  · extract_lets -merge -underBinder +onlyGivenNames x1
    have hx1 : OnlyChanges [.pwr, .ports, .funcs, .reads, .nextTag, .ctxs, .engineFree, .cache, .locks, .journal, .groups, .vols, .mports, .movers, .xlate, .progs, .errLog, .errSeq, .defLog, .defSeq, .rb, .fresh, .out, .seqCtr] s x1 := by
      unfold x1
      refine OnlyChanges.step (closeRead_frame _ _) ?_
      exact (OnlyChanges.refl _ s)
    clear_value x1
    refine OnlyChanges.step (listArrives_frame _ _ _ _) ?_
    refine OnlyChanges.ite1 ?_ ?_
    · refine OnlyChanges.step (poisonIn_frame _ _) ?_
      exact hx1
    · exact hx1
  · extract_lets -merge -underBinder +onlyGivenNames x2
    have hx2 : OnlyChanges [.pwr, .ports, .funcs, .reads, .nextTag, .ctxs, .engineFree, .cache, .locks, .journal, .groups, .vols, .mports, .movers, .xlate, .progs, .errLog, .errSeq, .defLog, .defSeq, .rb, .fresh, .out, .seqCtr] s x2 := by
      unfold x2
      refine OnlyChanges.step (closeRead_frame _ _) ?_
      exact (OnlyChanges.refl _ s)
    clear_value x2
    refine OnlyChanges.step (dataArrives_frame _ _ _ _ _ _ _) ?_
    refine OnlyChanges.ite1 ?_ ?_
    · refine OnlyChanges.step (poisonIn_frame _ _) ?_
      exact hx2
    · exact hx2
  · exact (OnlyChanges.refl _ s)
  · exact (OnlyChanges.refl _ s)

theorem statusRecord_frame (s : State) a2 a3 : OnlyChanges [.funcs, .out] s (statusRecord s a2 a3) := by
  unfold statusRecord
  split
  · exact (OnlyChanges.refl _ s)
  · refine OnlyChanges.step (emit_frame _ _) ?_
    refine OnlyChanges.step (updFunc_frame _ _ _) ?_
    exact (OnlyChanges.refl _ s)
  · refine OnlyChanges.step (emit_frame _ _) ?_
    refine OnlyChanges.step (updFunc_frame _ _ _) ?_
    exact (OnlyChanges.refl _ s)
  · refine OnlyChanges.step (emit_frame _ _) ?_
    exact (OnlyChanges.refl _ s)

theorem execHostReadCompletion_frame a1 a2 a3 a4 (s : State) : OnlyChangesQ [.pwr, .ports, .funcs, .reads, .nextTag, .ctxs, .engineFree, .cache, .locks, .journal, .groups, .vols, .mports, .movers, .xlate, .progs, .errLog, .errSeq, .defLog, .defSeq, .rb, .fresh, .out, .seqCtr] s (execHostReadCompletion a1 a2 a3 a4 s) := by
  unfold execHostReadCompletion
  refine OnlyChangesQ.next ?_
  split
  · exact (OnlyChanges.refl _ s)
  · refine OnlyChanges.ite1 ?_ ?_
    · exact (OnlyChanges.refl _ s)
    · refine OnlyChanges.ite1 ?_ ?_
      · refine OnlyChanges.step (lateRead_frame _ _ _) ?_
        exact (OnlyChanges.refl _ s)
      · refine OnlyChanges.ite1 ?_ ?_
        · refine OnlyChanges.step (lateRead_frame _ _ _) ?_
          refine OnlyChanges.step (timeoutRead_frame _ _ _) ?_
          exact (OnlyChanges.refl _ s)
        · refine OnlyChanges.ite1 ?_ ?_
          · refine OnlyChanges.step (kick_frame _) ?_
            refine OnlyChanges.step (readArrives_frame _ _ _ _ _) ?_
            exact (OnlyChanges.refl _ s)
          · refine OnlyChanges.step (kick_frame _) ?_
            refine OnlyChanges.step (readFails_frame _ _) ?_
            refine OnlyChanges.step (statusRecord_frame _ _ _) ?_
            refine OnlyChanges.step (closeRead_frame _ _) ?_
            exact (OnlyChanges.refl _ s)

theorem execHotReset_frame a1 (s : State) : OnlyChangesQ [.ports, .funcs, .movers, .rb] s (execHotReset a1 s) := by
  unfold execHotReset
  refine OnlyChangesQ.next ?_
  split
  · exact (OnlyChanges.refl _ s)
  · extract_lets -merge -underBinder +onlyGivenNames x1 x2
    clear_value x1
    have hx2 : OnlyChanges [.ports, .funcs, .movers, .rb] s x2 := by
      unfold x2
      refine OnlyChanges.foldl (fun x3 x4 hx3 => ?_) ?_
      · refine OnlyChanges.step (updFunc_frame _ _ _) ?_
        refine OnlyChanges.step (clearBme_frame _ _) ?_
        exact hx3
      · exact (OnlyChanges.refl _ s)
    clear_value x2
    refine OnlyChanges.ite1 ?_ ?_
    · exact (OnlyChanges.refl _ s)
    · refine OnlyChanges.step (rbChange_frame _) ?_
      refine OnlyChanges.step (updPort_frame _ _ _) ?_
      exact hx2

theorem execHperstAssert_frame a1 (s : State) : OnlyChangesQ [.pwr, .tt, .adm, .ports, .funcs, .reads, .nextTag, .ctxs, .engineFree, .cache, .locks, .journal, .groups, .vols, .freedVols, .mports, .movers, .xlate, .progs, .mbx, .fare, .errLog, .errSeq, .defLog, .defSeq, .rb, .fresh, .out, .seqCtr] s (execHperstAssert a1 s) := by
  unfold execHperstAssert
  refine OnlyChangesQ.next ?_
  split
  · exact (OnlyChanges.refl _ s)
  · extract_lets -merge -underBinder +onlyGivenNames x1 x2 x3
    clear_value x1
    have hx2 : OnlyChanges [.pwr, .tt, .adm, .ports, .funcs, .reads, .nextTag, .ctxs, .engineFree, .cache, .locks, .journal, .groups, .vols, .freedVols, .mports, .movers, .xlate, .progs, .mbx, .fare, .errLog, .errSeq, .defLog, .defSeq, .rb, .fresh, .out, .seqCtr] s x2 := by
      unfold x2
      refine OnlyChanges.foldl (fun x4 x5 hx4 => ?_) ?_
      · refine OnlyChanges.step (tearDown_frame _ _) ?_
        exact hx4
      · exact (OnlyChanges.refl _ s)
    clear_value x2
    have hx3 : OnlyChanges [.pwr, .tt, .adm, .ports, .funcs, .reads, .nextTag, .ctxs, .engineFree, .cache, .locks, .journal, .groups, .vols, .freedVols, .mports, .movers, .xlate, .progs, .mbx, .fare, .errLog, .errSeq, .defLog, .defSeq, .rb, .fresh, .out, .seqCtr] s x3 := by
      unfold x3
      refine OnlyChanges.step (updPort_frame _ _ _) ?_
      exact hx2
    clear_value x3
    refine OnlyChanges.ite1 ?_ ?_
    · exact (OnlyChanges.refl _ s)
    · refine OnlyChanges.step (rbChange_frame _) ?_
      refine OnlyChanges.ite1 ?_ ?_
      · refine OnlyChanges.step (updFunc_frame _ _ _) ?_
        exact hx3
      · exact hx3

theorem execHperstDeassert_frame a1 (s : State) : OnlyChangesQ [.pwr, .ports, .funcs, .errLog, .errSeq, .rb, .fresh, .out] s (execHperstDeassert a1 s) := by
  unfold execHperstDeassert
  refine OnlyChangesQ.next ?_
  split
  · exact (OnlyChanges.refl _ s)
  · extract_lets -merge -underBinder +onlyGivenNames x1 x2 x3 x4
    have hx1 : OnlyChanges [.pwr, .ports, .funcs, .errLog, .errSeq, .rb, .fresh, .out] s x1 := by
      unfold x1
      refine OnlyChanges.ite1 ?_ ?_
      · refine OnlyChanges.step (emit_frame _ _) ?_
        exact (OnlyChanges.refl _ s)
      · exact (OnlyChanges.refl _ s)
    clear_value x1
    clear_value x2
    have hx3 : OnlyChanges [.pwr, .ports, .funcs, .errLog, .errSeq, .rb, .fresh, .out] s x3 := by
      unfold x3
      refine OnlyChanges.step (updPort_frame _ _ _) ?_
      exact hx1
    clear_value x3
    have hx4 : OnlyChanges [.pwr, .ports, .funcs, .errLog, .errSeq, .rb, .fresh, .out] s x4 := by
      unfold x4
      refine OnlyChanges.step (rbChange_frame _) ?_
      refine OnlyChanges.step (updFunc_frame _ _ _) ?_
      exact hx3
    clear_value x4
    refine OnlyChanges.ite1 ?_ ?_
    · exact (OnlyChanges.refl _ s)
    · refine OnlyChanges.ite1 ?_ ?_
      · refine OnlyChanges.step (wakeUp_frame _ _) ?_
        exact hx4
      · exact hx4

theorem execIntxClear_frame a1 a2 a3 (s : State) : OnlyChangesQ [.funcs] s (execIntxClear a1 a2 a3 s) := by
  unfold execIntxClear
  refine OnlyChangesQ.next ?_
  split
  · exact (OnlyChanges.refl _ s)
  · extract_lets -merge -underBinder +onlyGivenNames x1 x2
    clear_value x1
    clear_value x2
    refine OnlyChanges.step (updFunc_frame _ _ _) ?_
    exact (OnlyChanges.refl _ s)

theorem execLateHostCompletion_frame a1 (s : State) : OnlyChangesQ [.ports, .funcs, .reads, .nextTag, .ctxs, .engineFree, .cache, .locks, .journal, .groups, .vols, .mports, .movers, .xlate, .progs, .errLog, .errSeq, .defLog, .defSeq, .rb, .fresh, .out, .seqCtr] s (execLateHostCompletion a1 s) := by
  unfold execLateHostCompletion
  refine OnlyChangesQ.next ?_
  split
  · exact (OnlyChanges.refl _ s)
  · refine OnlyChanges.ite1 ?_ ?_
    · refine OnlyChanges.step (lateRead_frame _ _ _) ?_
      exact (OnlyChanges.refl _ s)
    · exact (OnlyChanges.refl _ s)

theorem execMsixUnmask_frame a1 a2 (s : State) : OnlyChangesQ [.funcs, .out] s (execMsixUnmask a1 a2 s) := by
  unfold execMsixUnmask
  refine OnlyChangesQ.next ?_
  split
  · split
    · refine OnlyChanges.ite1 ?_ ?_
      · refine OnlyChanges.step (sendPending_frame _ _) ?_
        refine OnlyChanges.step (updFunc_frame _ _ _) ?_
        exact (OnlyChanges.refl _ s)
      · exact (OnlyChanges.refl _ s)
    · exact (OnlyChanges.refl _ s)
  · split
    · refine OnlyChanges.step (sendPending_frame _ _) ?_
      refine OnlyChanges.step (updFunc_frame _ _ _) ?_
      refine OnlyChanges.step (emit_frame _ _) ?_
      exact (OnlyChanges.refl _ s)
    · refine OnlyChanges.step (refuseCfg_frame _ _) ?_
      exact (OnlyChanges.refl _ s)

theorem execPortRebuild_frame a1 (s : State) : OnlyChangesQ [.ports, .funcs, .rb] s (execPortRebuild a1 s) := by
  unfold execPortRebuild
  refine OnlyChangesQ.next ?_
  split
  · exact (OnlyChanges.refl _ s)
  · extract_lets -merge -underBinder +onlyGivenNames x1
    have hx1 : OnlyChanges [.ports, .funcs, .rb] s x1 := by
      unfold x1
      exact OnlyChanges.of (OnlyChanges.refl _ s) (by intro p hp; cases p <;> first | exact absurd (by decide) hp | exact rfl)
    clear_value x1
    refine OnlyChanges.ite1 ?_ ?_
    · exact (OnlyChanges.refl _ s)
    · refine OnlyChanges.step (rbChange_frame _) ?_
      refine OnlyChanges.step (updPort_frame _ _ _) ?_
      exact hx1

theorem makeVfs_frame (s : State) a2 a3 : OnlyChanges [.funcs] s (makeVfs s a2 a3) := by
  unfold makeVfs
  refine OnlyChanges.foldl (fun x1 x2 hx1 => ?_) ?_
  · refine OnlyChanges.ite1 ?_ ?_
    · exact hx1
    · exact OnlyChanges.of hx1 (by intro p hp; cases p <;> first | exact absurd (by decide) hp | exact rfl)
  · exact (OnlyChanges.refl _ s)

theorem execVfEnableWrite_frame a1 a2 a3 (s : State) : OnlyChangesQ [.pwr, .tt, .adm, .ports, .funcs, .reads, .nextTag, .ctxs, .engineFree, .cache, .locks, .journal, .groups, .vols, .freedVols, .mports, .movers, .xlate, .progs, .mbx, .fare, .errLog, .errSeq, .defLog, .defSeq, .rb, .fresh, .out, .seqCtr] s (execVfEnableWrite a1 a2 a3 s) := by
  unfold execVfEnableWrite
  refine OnlyChangesQ.next ?_
  split
  · extract_lets -merge -underBinder +onlyGivenNames x1 x2 x3 x4 x5
    clear_value x1
    have hx2 : OnlyChanges [.pwr, .tt, .adm, .ports, .funcs, .reads, .nextTag, .ctxs, .engineFree, .cache, .locks, .journal, .groups, .vols, .freedVols, .mports, .movers, .xlate, .progs, .mbx, .fare, .errLog, .errSeq, .defLog, .defSeq, .rb, .fresh, .out, .seqCtr] s x2 := by
      unfold x2
      refine OnlyChanges.step (emit_frame _ _) ?_
      exact (OnlyChanges.refl _ s)
    clear_value x2
    have hx3 : OnlyChanges [.pwr, .tt, .adm, .ports, .funcs, .reads, .nextTag, .ctxs, .engineFree, .cache, .locks, .journal, .groups, .vols, .freedVols, .mports, .movers, .xlate, .progs, .mbx, .fare, .errLog, .errSeq, .defLog, .defSeq, .rb, .fresh, .out, .seqCtr] s x3 := by
      unfold x3
      refine OnlyChanges.step (updPort_frame _ _ _) ?_
      exact hx2
    clear_value x3
    have hx4 : OnlyChanges [.pwr, .tt, .adm, .ports, .funcs, .reads, .nextTag, .ctxs, .engineFree, .cache, .locks, .journal, .groups, .vols, .freedVols, .mports, .movers, .xlate, .progs, .mbx, .fare, .errLog, .errSeq, .defLog, .defSeq, .rb, .fresh, .out, .seqCtr] s x4 := by
      unfold x4
      refine OnlyChanges.step (makeVfs_frame _ _ _) ?_
      exact hx3
    clear_value x4
    have hx5 : OnlyChanges [.pwr, .tt, .adm, .ports, .funcs, .reads, .nextTag, .ctxs, .engineFree, .cache, .locks, .journal, .groups, .vols, .freedVols, .mports, .movers, .xlate, .progs, .mbx, .fare, .errLog, .errSeq, .defLog, .defSeq, .rb, .fresh, .out, .seqCtr] s x5 := by
      unfold x5
      refine OnlyChanges.step (updPort_frame _ _ _) ?_
      exact hx2
    clear_value x5
    refine OnlyChanges.ite1 ?_ ?_
    · refine OnlyChanges.step (rbChange_frame _) ?_
      refine OnlyChanges.foldl (fun x6 x7 hx6 => ?_) ?_
      · refine OnlyChanges.step (tearDown_frame _ _) ?_
        exact hx6
      · exact hx4
    · refine OnlyChanges.step (rbChange_frame _) ?_
      refine OnlyChanges.ite1 ?_ ?_
      · refine OnlyChanges.foldl (fun x8 x9 hx8 => ?_) ?_
        · refine OnlyChanges.step (tearDown_frame _ _) ?_
          exact hx8
        · exact hx5
      · exact hx5
  · refine OnlyChanges.step (refuseCfg_frame _ _) ?_
    exact (OnlyChanges.refl _ s)

end Sys2Proof.Machine
end

