-- ==== Sys2Proof/Laws/FramesCfgSpace.lean ====
section
/-! SUPPORT. Which parts of the state each function of Machine/CfgSpace.lean can change. -/

set_option Elab.async false

namespace Sys2Proof.Machine

theorem cfgWritten_frame (s : State) a2 a3 a4 a5 : OnlyChanges [.ports, .funcs, .rb, .fresh, .out] s (cfgWritten s a2 a3 a4 a5) := by
  unfold cfgWritten
  split
  · refine OnlyChanges.step (rbChange_frame _) ?_
    refine OnlyChanges.step (updateIntx_frame _ _) ?_
    exact (OnlyChanges.refl _ s)
  · refine OnlyChanges.step (rbChange_frame _) ?_
    refine OnlyChanges.step (updateIntx_frame _ _) ?_
    refine OnlyChanges.step (sendPending_frame _ _) ?_
    exact (OnlyChanges.refl _ s)
  · refine OnlyChanges.ite1 ?_ ?_
    · refine OnlyChanges.step (loadCto_frame _ _ _) ?_
      exact (OnlyChanges.refl _ s)
    · exact (OnlyChanges.refl _ s)
  · exact (OnlyChanges.refl _ s)

theorem writeCfgBytes_frame (s : State) a2 a3 a4 a5 a6 : OnlyChanges [.ports, .funcs, .rb, .fresh, .out] s (writeCfgBytes s a2 a3 a4 a5 a6) := by
  unfold writeCfgBytes
  extract_lets -merge -underBinder +onlyGivenNames x1 x2 x3 x4 x5 x6
  clear_value x1
  clear_value x2
  clear_value x3
  clear_value x4
  clear_value x5
  clear_value x6
  refine OnlyChanges.step (cfgWritten_frame _ _ _ _ _) ?_
  refine OnlyChanges.step (emit_frame _ _) ?_
  refine OnlyChanges.step (updFunc_frame _ _ _) ?_
  exact (OnlyChanges.refl _ s)

end Sys2Proof.Machine
end

