-- ==== Sys2Proof/Laws/FramesRouteBook.lean ====
section
/-! SUPPORT. Which parts of the state each function of Machine/RouteBook.lean can change. -/

set_option Elab.async false

namespace Sys2Proof.Machine

theorem noteFlags_frame (s : State) : OnlyChanges [.rb] s (noteFlags s) := by
  unfold noteFlags
  refine OnlyChanges.ite1 ?_ ?_
  · exact (OnlyChanges.refl _ s)
  · refine OnlyChanges.step (rbChange_frame _) ?_
    exact (OnlyChanges.refl _ s)

theorem swapEvent_frame (s : State) a2 : OnlyChanges [.ports, .funcs, .fresh, .out] s (swapEvent s a2) := by
  unfold swapEvent
  refine OnlyChanges.step (sendEvent_frame _ _ _) ?_
  refine OnlyChanges.step (updFunc_frame _ _ _) ?_
  refine OnlyChanges.step (markFresh_frame _ _ _ _ _) ?_
  exact (OnlyChanges.refl _ s)

theorem rbSwap_frame (s : State) : OnlyChanges [.ports, .funcs, .rb, .fresh, .out] s (rbSwap s) := by
  unfold rbSwap
  extract_lets -merge -underBinder +onlyGivenNames x1 x2 x3
  clear_value x1
  clear_value x2
  clear_value x3
  refine OnlyChanges.ite1 ?_ ?_
  · exact (OnlyChanges.refl _ s)
  · refine OnlyChanges.ite1 ?_ ?_
    · exact (OnlyChanges.refl _ s)
    · refine OnlyChanges.foldl (fun x4 x5 hx4 => ?_) ?_
      · refine OnlyChanges.step (swapEvent_frame _ _) ?_
        exact hx4
      · exact OnlyChanges.of (OnlyChanges.refl _ s) (by intro p hp; cases p <;> first | exact absurd (by decide) hp | exact rfl)

end Sys2Proof.Machine
end

