-- ==== Sys2Proof/Laws/FramesVault.lean ====
section
/-! SUPPORT. Which parts of the state each function of Machine/Vault.lean can change. -/

set_option Elab.async false

namespace Sys2Proof.Machine

theorem deferGroups_frame (s : State) a2 : OnlyChanges [.funcs, .ctxs, .vols, .defLog, .defSeq, .seqCtr] s (deferGroups s a2) := by
  unfold deferGroups
  refine OnlyChanges.foldl (fun x1 x2 hx1 => ?_) ?_
  · refine OnlyChanges.step (deferErr_frame _ _ _ _ _ _) ?_
    exact hx1
  · exact (OnlyChanges.refl _ s)

theorem updVlt_frame (s : State) a2 : OnlyChanges [.vlt] s (updVlt s a2) := by
  unfold updVlt
  exact OnlyChanges.of (OnlyChanges.refl _ s) (by intro p hp; cases p <;> first | exact absurd (by decide) hp | exact rfl)

theorem doneSoon_frame (s : State) : OnlyChanges [.pwr, .vlt, .out] s (doneSoon s) := by
  unfold doneSoon
  refine OnlyChanges.ite1 ?_ ?_
  · refine OnlyChanges.step (updVlt_frame _ _) ?_
    exact (OnlyChanges.refl _ s)
  · refine OnlyChanges.step (driveDone_frame _) ?_
    exact (OnlyChanges.refl _ s)

theorem issueStep_frame (s : State) : OnlyChanges [.out] s (issueStep s) := by
  unfold issueStep
  split
  · refine OnlyChanges.step (emit_frame _ _) ?_
    exact (OnlyChanges.refl _ s)
  · exact (OnlyChanges.refl _ s)

theorem updArea_frame (s : State) a2 a3 : OnlyChanges [.vlt] s (updArea s a2 a3) := by
  unfold updArea
  refine OnlyChanges.step (updVlt_frame _ _) ?_
  exact (OnlyChanges.refl _ s)

theorem setDev_frame (s : State) a2 : OnlyChanges [.pwr, .rb] s (setDev s a2) := by
  unfold setDev
  refine OnlyChanges.ite1 ?_ ?_
  · exact (OnlyChanges.refl _ s)
  · refine OnlyChanges.step (rbChange_frame _) ?_
    refine OnlyChanges.step (updPwr_frame _ _) ?_
    exact (OnlyChanges.refl _ s)

theorem vaulted_frame (s : State) : OnlyChanges [.pwr, .vlt, .rb, .out] s (vaulted s) := by
  unfold vaulted
  refine OnlyChanges.step (setDev_frame _ _) ?_
  refine OnlyChanges.step (driveDone_frame _) ?_
  exact (OnlyChanges.refl _ s)

theorem dumpAdvance_frame (s : State) a2 : OnlyChanges [.pwr, .vlt, .rb, .out] s (dumpAdvance s a2) := by
  unfold dumpAdvance
  extract_lets -merge -underBinder +onlyGivenNames x1 x2 x3 x4
  have hx1 : OnlyChanges [.pwr, .vlt, .rb, .out] s x1 := by
    unfold x1
    refine OnlyChanges.ite1 ?_ ?_
    · refine OnlyChanges.step (updArea_frame _ _ _) ?_
      exact (OnlyChanges.refl _ s)
    · exact (OnlyChanges.refl _ s)
  clear_value x1
  clear_value x2
  clear_value x3
  have hx4 : OnlyChanges [.pwr, .vlt, .rb, .out] s x4 := by
    unfold x4
    refine OnlyChanges.step (updVlt_frame _ _) ?_
    exact hx1
  clear_value x4
  refine OnlyChanges.ite1 ?_ ?_
  · refine OnlyChanges.step (vaulted_frame _) ?_
    exact hx4
  · refine OnlyChanges.ite1 ?_ ?_
    · exact hx4
    · refine OnlyChanges.step (issueStep_frame _) ?_
      exact hx4

theorem execDumpWriteCompletion_frame (s : State) : OnlyChangesQ [.pwr, .vlt, .rb, .out] s (execDumpWriteCompletion s) := by
  unfold execDumpWriteCompletion
  refine OnlyChangesQ.next ?_
  split
  · exact (OnlyChanges.refl _ s)
  · refine OnlyChanges.ite1 ?_ ?_
    · exact (OnlyChanges.refl _ s)
    · refine OnlyChanges.step (dumpAdvance_frame _ _) ?_
      exact (OnlyChanges.refl _ s)

theorem setBudget_frame (s : State) a2 : OnlyChanges [.adm, .funcs, .ctxs, .vlt, .errLog, .errSeq, .rb, .fresh, .seqCtr] s (setBudget s a2) := by
  unfold setBudget
  extract_lets -merge -underBinder +onlyGivenNames x1
  have hx1 : OnlyChanges [.adm, .funcs, .ctxs, .vlt, .errLog, .errSeq, .rb, .fresh, .seqCtr] s x1 := by
    unfold x1
    refine OnlyChanges.step (updVlt_frame _ _) ?_
    exact (OnlyChanges.refl _ s)
  clear_value x1
  refine OnlyChanges.step (settle_frame _) ?_
  refine OnlyChanges.step (recomputeCeil_frame _) ?_
  refine OnlyChanges.step (rbChange_frame _) ?_
  refine OnlyChanges.step (logErr_frame _ _ _ _ _) ?_
  exact hx1

theorem ledgerFail_frame (s : State) a2 : OnlyChanges [.adm, .funcs, .ctxs, .vlt, .errLog, .errSeq, .rb, .fresh, .seqCtr] s (ledgerFail s a2) := by
  unfold ledgerFail
  extract_lets -merge -underBinder +onlyGivenNames x1 x2
  have hx1 : OnlyChanges [.adm, .funcs, .ctxs, .vlt, .errLog, .errSeq, .rb, .fresh, .seqCtr] s x1 := by
    unfold x1
    refine OnlyChanges.step (updVlt_frame _ _) ?_
    exact (OnlyChanges.refl _ s)
  clear_value x1
  have hx2 : OnlyChanges [.adm, .funcs, .ctxs, .vlt, .errLog, .errSeq, .rb, .fresh, .seqCtr] s x2 := by
    unfold x2
    refine OnlyChanges.step (logErr_frame _ _ _ _ _) ?_
    exact hx1
  clear_value x2
  refine OnlyChanges.ite1 ?_ ?_
  · exact hx2
  · refine OnlyChanges.step (setBudget_frame _ _) ?_
    exact hx2

theorem measureEnds_frame (s : State) : OnlyChanges [.pwr, .rb] s (measureEnds s) := by
  unfold measureEnds
  extract_lets -merge -underBinder +onlyGivenNames x1
  have hx1 : OnlyChanges [.pwr, .rb] s x1 := by
    unfold x1
    refine OnlyChanges.step (updPwr_frame _ _) ?_
    exact (OnlyChanges.refl _ s)
  clear_value x1
  refine OnlyChanges.ite1 ?_ ?_
  · refine OnlyChanges.ite1 ?_ ?_
    · refine OnlyChanges.step (setDev_frame _ _) ?_
      exact hx1
    · exact hx1
  · exact (OnlyChanges.refl _ s)

theorem recomputeBudget_frame (s : State) : OnlyChanges [.adm, .funcs, .ctxs, .vlt, .errLog, .errSeq, .rb, .fresh, .seqCtr] s (recomputeBudget s) := by
  unfold recomputeBudget
  refine OnlyChanges.step (setBudget_frame _ _) ?_
  exact (OnlyChanges.refl _ s)

theorem execHuTestEnd_frame a1 (s : State) : OnlyChangesQ [.pwr, .adm, .funcs, .ctxs, .vlt, .errLog, .errSeq, .rb, .fresh, .out, .seqCtr] s (execHuTestEnd a1 s) := by
  unfold execHuTestEnd
  extract_lets -merge -underBinder +onlyGivenNames x1 x2 x3
  have hx1 : OnlyChanges [.pwr, .adm, .funcs, .ctxs, .vlt, .errLog, .errSeq, .rb, .fresh, .out, .seqCtr] s x1 := by
    unfold x1
    refine OnlyChanges.step (emit_frame _ _) ?_
    refine OnlyChanges.step (updVlt_frame _ _) ?_
    exact (OnlyChanges.refl _ s)
  clear_value x1
  clear_value x2
  have hx3 : OnlyChanges [.pwr, .adm, .funcs, .ctxs, .vlt, .errLog, .errSeq, .rb, .fresh, .out, .seqCtr] s x3 := by
    unfold x3
    refine OnlyChanges.step (updVlt_frame _ _) ?_
    exact hx1
  clear_value x3
  refine OnlyChangesQ.next ?_
  refine OnlyChanges.ite1 ?_ ?_
  · exact (OnlyChanges.refl _ s)
  · refine OnlyChanges.ite1 ?_ ?_
    · refine OnlyChanges.step (measureEnds_frame _) ?_
      refine OnlyChanges.step (ledgerFail_frame _ _) ?_
      exact hx1
    · refine OnlyChanges.ite1 ?_ ?_
      · refine OnlyChanges.step (measureEnds_frame _) ?_
        refine OnlyChanges.step (ledgerFail_frame _ _) ?_
        exact hx1
      · refine OnlyChanges.step (measureEnds_frame _) ?_
        refine OnlyChanges.step (recomputeBudget_frame _) ?_
        exact hx3

theorem execImageRelease_frame a1 (s : State) : OnlyChangesQ [.vlt, .out] s (execImageRelease a1 s) := by
  unfold execImageRelease
  refine OnlyChangesQ.next ?_
  split
  · exact (OnlyChanges.refl _ s)
  · refine OnlyChanges.ite1 ?_ ?_
    · refine OnlyChanges.step (emit_frame _ _) ?_
      refine OnlyChanges.step (updArea_frame _ _ _) ?_
      exact (OnlyChanges.refl _ s)
    · exact (OnlyChanges.refl _ s)

theorem mergeMaps_frame (s : State) a2 : OnlyChanges [.cache, .mem, .defLog, .defSeq] s (mergeMaps s a2) := by
  unfold mergeMaps
  extract_lets -merge -underBinder +onlyGivenNames x1 x2 x3 x4 x5
  clear_value x1
  clear_value x2
  clear_value x3
  clear_value x4
  clear_value x5
  exact OnlyChanges.of (OnlyChanges.refl _ s) (by intro p hp; cases p <;> first | exact absurd (by decide) hp | exact rfl)

theorem markBlock_frame (s : State) a2 : OnlyChanges [.funcs, .ctxs, .cache, .groups, .vols, .mem, .errLog, .errSeq, .defLog, .defSeq, .seqCtr] s (markBlock s a2) := by
  unfold markBlock
  split
  · refine OnlyChanges.step (movePoison_frame _ _ _ _ _) ?_
    exact (OnlyChanges.refl _ s)
  · refine OnlyChanges.step (updCache_frame _ _) ?_
    exact (OnlyChanges.refl _ s)

theorem lostBlocks_frame (s : State) a2 : OnlyChanges [.funcs, .ctxs, .cache, .groups, .vols, .mem, .errLog, .errSeq, .defLog, .defSeq, .seqCtr] s (lostBlocks s a2) := by
  unfold lostBlocks
  extract_lets -merge -underBinder +onlyGivenNames x1 x2
  clear_value x1
  have hx2 : OnlyChanges [.funcs, .ctxs, .cache, .groups, .vols, .mem, .errLog, .errSeq, .defLog, .defSeq, .seqCtr] s x2 := by
    unfold x2
    refine OnlyChanges.foldl (fun x3 x4 hx3 => ?_) ?_
    · refine OnlyChanges.step (deferErr_frame _ _ _ _ _ _) ?_
      exact hx3
    · exact (OnlyChanges.refl _ s)
  clear_value x2
  refine OnlyChanges.foldl (fun x5 x6 hx5 => ?_) ?_
  · refine OnlyChanges.step (markBlock_frame _ _) ?_
    exact hx5
  · exact hx2

theorem fillRestored_frame (s : State) a2 a3 a4 : OnlyChanges [.cache] s (fillRestored s a2 a3 a4) := by
  unfold fillRestored
  refine OnlyChanges.step (updFrame_frame _ _ _) ?_
  exact (OnlyChanges.refl _ s)

theorem restoreBlock_frame {F : List Part} {s : State} a1 a2 (h : OnlyChanges F s a1.1) (w : Part.sub [.cache, .freeCtr] F = true := by decide) :
    OnlyChanges F s (restoreBlock a1 a2).1 := by
  unfold restoreBlock
  split
  · exact h
  · split
    · exact h
    · rename_i e
      have h := OnlyChangesOP.of_eq e (OnlyChangesOP.step (allocFrame_frame _ _) h (Part.sub_trans (by decide) w))
      refine OnlyChanges.step (updFrame_frame _ _ _) (OnlyChanges.step (mapDirty_frame _ _ _ _) (OnlyChanges.step (fillRestored_frame _ _ _ _) h
        (Part.sub_trans (by decide) w)) (Part.sub_trans (by decide) w)) (Part.sub_trans (by decide) w)

theorem restoreEntry_frame (s : State) a2 : OnlyChangesP [.cache, .freeCtr] s (restoreEntry s a2) := by
  unfold restoreEntry
  split
  · refine OnlyChangesP.mk ?_
    exact (OnlyChanges.refl _ s)
  · rename_i x2 x3 x4
    have hx3 : OnlyChanges [.cache, .freeCtr] s x3 := by
      refine OnlyChangesOP.of_eq x4 ?_
      refine OnlyChangesOP.step (allocFrames_frame _ _ _ _) ?_
      exact (OnlyChanges.refl _ s)
    refine OnlyChangesP.mk ?_
    refine OnlyChanges.foldl (fun x5 x6 hx5 => ?_) ?_
    · refine OnlyChanges.step (fillRestored_frame _ _ _ _) ?_
      exact hx5
    · exact hx3

theorem restoreEntries_frame a1 (s : State) : OnlyChangesP [.cache, .freeCtr] s (restoreEntries a1 s) := by
  induction a1 generalizing s with
  | nil => exact OnlyChangesP.mk (OnlyChanges.refl _ s)
  | cons e es ih =>
    unfold restoreEntries
    exact OnlyChangesP.mk (OnlyChangesP.step (ih _) (OnlyChangesP.step (restoreEntry_frame _ _) (OnlyChanges.refl _ s)))

theorem restoreRec_frame (s : State) a2 : OnlyChanges [.cache, .journal, .groups, .errLog, .errSeq, .freeCtr] s (restoreRec s a2) := by
  unfold restoreRec
  split
  · rename_i x1 x2 x3
    have hx2 : OnlyChanges [.cache, .journal, .groups, .errLog, .errSeq, .freeCtr] s x2 := by
      refine OnlyChangesP.of_eq x3 ?_
      refine OnlyChangesP.step (restoreEntries_frame _ _) ?_
      exact (OnlyChanges.refl _ s)
    extract_lets -merge -underBinder +onlyGivenNames x4 x5 x6 x7 x8
    clear_value x4
    clear_value x5
    have hx6 : OnlyChanges [.cache, .journal, .groups, .errLog, .errSeq, .freeCtr] s x6 := by
      unfold x6
      show OnlyChangesP _ s _
      refine OnlyChangesP.step (addRec_frame _ _) ?_
      exact hx2
    clear_value x6
    clear_value x7
    have hx8 : OnlyChanges [.cache, .journal, .groups, .errLog, .errSeq, .freeCtr] s x8 := by
      unfold x8
      exact OnlyChanges.of hx6 (by intro p hp; cases p <;> first | exact absurd (by decide) hp | exact rfl)
    clear_value x8
    refine OnlyChanges.ite1 ?_ ?_
    · refine OnlyChanges.step (markResync_frame _ _ _) ?_
      exact hx8
    · exact hx8

theorem placeImage_frame (s : State) a2 a3 : OnlyChanges [.funcs, .ctxs, .cache, .journal, .groups, .vols, .mem, .errLog, .errSeq, .defLog, .defSeq, .freeCtr, .seqCtr] s (placeImage s a2 a3) := by
  unfold placeImage
  exact OnlyChanges.step (lostBlocks_frame _ _) (OnlyChanges.foldlPair (fun _ _ h => restoreBlock_frame _ _ h)
    (OnlyChanges.foldl (fun _ _ h => OnlyChanges.step (restoreRec_frame _ _) h) (OnlyChanges.refl _ s)))

theorem execImageRestore_frame a1 a2 a3 a4 (s : State) : OnlyChangesQ [.funcs, .ctxs, .cache, .journal, .groups, .vols, .mem, .vlt, .errLog, .errSeq, .defLog, .defSeq, .rb, .freeCtr, .seqCtr] s (execImageRestore a1 a2 a3 a4 s) := by
  unfold execImageRestore
  refine OnlyChangesQ.next ?_
  split
  · exact (OnlyChanges.refl _ s)
  · extract_lets -merge -underBinder +onlyGivenNames x1 x2 x3
    have hx1 : OnlyChanges [.funcs, .ctxs, .cache, .journal, .groups, .vols, .mem, .vlt, .errLog, .errSeq, .defLog, .defSeq, .rb, .freeCtr, .seqCtr] s x1 := by
      unfold x1
      refine OnlyChanges.step (placeImage_frame _ _ _) ?_
      refine OnlyChanges.step (mergeMaps_frame _ _) ?_
      exact (OnlyChanges.refl _ s)
    clear_value x1
    have hx2 : OnlyChanges [.funcs, .ctxs, .cache, .journal, .groups, .vols, .mem, .vlt, .errLog, .errSeq, .defLog, .defSeq, .rb, .freeCtr, .seqCtr] s x2 := by
      unfold x2
      refine OnlyChanges.ite1 ?_ ?_
      · refine OnlyChanges.step (deferGroups_frame _ _) ?_
        exact hx1
      · exact hx1
    clear_value x2
    have hx3 : OnlyChanges [.funcs, .ctxs, .cache, .journal, .groups, .vols, .mem, .vlt, .errLog, .errSeq, .defLog, .defSeq, .rb, .freeCtr, .seqCtr] s x3 := by
      unfold x3
      split
      · refine OnlyChanges.step (logErr_frame _ _ _ _ _) ?_
        exact hx2
      · exact hx2
    clear_value x3
    refine OnlyChanges.ite1 ?_ ?_
    · exact (OnlyChanges.refl _ s)
    · refine OnlyChanges.step (rbChange_frame _) ?_
      refine OnlyChanges.step (updArea_frame _ _ _) ?_
      exact hx3

theorem execJournalReplay_frame (s : State) : OnlyChangesQ [.adm, .funcs, .ctxs, .cache, .locks, .journal, .groups, .vols, .mports, .mem, .errLog, .errSeq, .defLog, .defSeq, .out, .seqCtr] s (execJournalReplay s) := by
  unfold execJournalReplay
  refine OnlyChangesQ.next ?_
  refine OnlyChanges.ite1 ?_ ?_
  · exact (OnlyChanges.refl _ s)
  · split
    · refine OnlyChanges.foldl (fun x1 x2 hx1 => ?_) ?_
      · refine OnlyChanges.step (replayRec_frame _ _) ?_
        exact hx1
      · exact (OnlyChanges.refl _ s)
    · refine OnlyChanges.foldl (fun x3 x4 hx3 => ?_) ?_
      · refine OnlyChanges.step (replayRec_frame _ _) ?_
        exact hx3
      · exact (OnlyChanges.refl _ s)
    · exact (OnlyChanges.refl _ s)

theorem execMemberAbandon_frame (s : State) : OnlyChangesQ [.pwr, .mports, .vlt, .rb, .out] s (execMemberAbandon s) := by
  unfold execMemberAbandon
  refine OnlyChangesQ.next ?_
  split
  · exact (OnlyChanges.refl _ s)
  · extract_lets -merge -underBinder +onlyGivenNames x1 x2 x3
    have hx1 : OnlyChanges [.pwr, .mports, .vlt, .rb, .out] s x1 := by
      unfold x1
      refine OnlyChanges.foldl (fun x4 x5 hx4 => ?_) ?_
      · refine OnlyChanges.step (emitAll_frame _ _) ?_
        refine OnlyChanges.step (updMport_frame _ _ _) ?_
        exact hx4
      · exact (OnlyChanges.refl _ s)
    clear_value x1
    clear_value x2
    have hx3 : OnlyChanges [.pwr, .mports, .vlt, .rb, .out] s x3 := by
      unfold x3
      refine OnlyChanges.step (updVlt_frame _ _) ?_
      exact hx1
    clear_value x3
    refine OnlyChanges.ite1 ?_ ?_
    · exact (OnlyChanges.refl _ s)
    · refine OnlyChanges.ite1 ?_ ?_
      · refine OnlyChanges.step (vaulted_frame _) ?_
        exact hx3
      · refine OnlyChanges.ite1 ?_ ?_
        · refine OnlyChanges.step (issueStep_frame _) ?_
          exact hx3
        · exact hx3

theorem noteLine_frame (s : State) a2 a3 : OnlyChanges [.cache] s (noteLine s a2 a3) := by
  unfold noteLine
  refine OnlyChanges.step (updFrame_frame _ _ _) ?_
  exact (OnlyChanges.refl _ s)

theorem retireCounted_frame (s : State) a2 : OnlyChanges [.cache, .errLog, .errSeq] s (retireCounted s a2) := by
  unfold retireCounted
  extract_lets -merge -underBinder +onlyGivenNames x1
  have hx1 : OnlyChanges [.cache, .errLog, .errSeq] s x1 := by
    unfold x1
    refine OnlyChanges.step (retireFrame_frame _ _) ?_
    exact (OnlyChanges.refl _ s)
  clear_value x1
  refine OnlyChanges.ite1 ?_ ?_
  · refine OnlyChanges.step (logErr_frame _ _ _ _ _) ?_
    exact hx1
  · exact hx1

theorem uncorrectable_frame (s : State) a2 a3 : OnlyChanges [.funcs, .ctxs, .cache, .journal, .groups, .vols, .errLog, .errSeq, .defLog, .defSeq, .seqCtr] s (uncorrectable s a2 a3) := by
  unfold uncorrectable
  extract_lets -merge -underBinder +onlyGivenNames x1
  clear_value x1
  refine OnlyChanges.ite1 ?_ ?_
  · exact (OnlyChanges.refl _ s)
  · split
    · refine OnlyChanges.step (markResync_frame _ _ _) ?_
      refine OnlyChanges.step (updRec_frame _ _ _) ?_
      refine OnlyChanges.step (noteLine_frame _ _ _) ?_
      exact (OnlyChanges.refl _ s)
    · extract_lets -merge -underBinder +onlyGivenNames x2
      have hx2 : OnlyChanges [.funcs, .ctxs, .cache, .journal, .groups, .vols, .errLog, .errSeq, .defLog, .defSeq, .seqCtr] s x2 := by
        unfold x2
        refine OnlyChanges.step (updFrame_frame _ _ _) ?_
        exact (OnlyChanges.refl _ s)
      clear_value x2
      refine OnlyChanges.ite1 ?_ ?_
      · split
        · refine OnlyChanges.step (deferErr_frame _ _ _ _ _ _) ?_
          exact hx2
        · exact hx2
      · refine OnlyChanges.ite1 ?_ ?_
        · refine OnlyChanges.step (updFrame_frame _ _ _) ?_
          refine OnlyChanges.step (noteLine_frame _ _ _) ?_
          exact (OnlyChanges.refl _ s)
        · refine OnlyChanges.step (retireCounted_frame _ _) ?_
          exact (OnlyChanges.refl _ s)

theorem execPatrolRead_frame a1 a2 a3 (s : State) : OnlyChangesQ [.funcs, .ctxs, .cache, .journal, .groups, .vols, .vlt, .errLog, .errSeq, .defLog, .defSeq, .fresh, .seqCtr] s (execPatrolRead a1 a2 a3 s) := by
  unfold execPatrolRead
  refine OnlyChangesQ.next ?_
  refine OnlyChanges.ite1 ?_ ?_
  · exact (OnlyChanges.refl _ s)
  · split
    · exact (OnlyChanges.refl _ s)
    · refine OnlyChanges.step (markFresh_frame _ _ _ _ _) ?_
      refine OnlyChanges.step (updVlt_frame _ _) ?_
      exact (OnlyChanges.refl _ s)
    · extract_lets -merge -underBinder +onlyGivenNames x1 x2
      have hx1 : OnlyChanges [.funcs, .ctxs, .cache, .journal, .groups, .vols, .vlt, .errLog, .errSeq, .defLog, .defSeq, .fresh, .seqCtr] s x1 := by
        unfold x1
        refine OnlyChanges.step (markFresh_frame _ _ _ _ _) ?_
        refine OnlyChanges.step (updVlt_frame _ _) ?_
        exact (OnlyChanges.refl _ s)
      clear_value x1
      have hx2 : OnlyChanges [.funcs, .ctxs, .cache, .journal, .groups, .vols, .vlt, .errLog, .errSeq, .defLog, .defSeq, .fresh, .seqCtr] s x2 := by
        unfold x2
        refine OnlyChanges.step (logErr_frame _ _ _ _ _) ?_
        exact hx1
      clear_value x2
      refine OnlyChanges.step (uncorrectable_frame _ _ _) ?_
      exact hx2

theorem freeze_frame (s : State) : OnlyChanges [.pwr, .adm, .funcs, .reads, .ctxs, .locks, .mports, .vlt, .movers, .errLog, .errSeq, .rb, .fresh, .out, .seqCtr] s (freeze s) := by
  unfold freeze
  extract_lets -merge -underBinder +onlyGivenNames x1 x2 x3 x4 x5
  have hx1 : OnlyChanges [.pwr, .adm, .funcs, .reads, .ctxs, .locks, .mports, .vlt, .movers, .errLog, .errSeq, .rb, .fresh, .out, .seqCtr] s x1 := by
    unfold x1
    refine OnlyChanges.ite1 ?_ ?_
    · refine OnlyChanges.step (emit_frame _ _) ?_
      refine OnlyChanges.step (ledgerFail_frame _ _) ?_
      exact (OnlyChanges.refl _ s)
    · exact (OnlyChanges.refl _ s)
  clear_value x1
  have hx2 : OnlyChanges [.pwr, .adm, .funcs, .reads, .ctxs, .locks, .mports, .vlt, .movers, .errLog, .errSeq, .rb, .fresh, .out, .seqCtr] s x2 := by
    unfold x2
    refine OnlyChanges.step (abandonEntry_frame _ _) ?_
    exact hx1
  clear_value x2
  clear_value x3
  clear_value x4
  clear_value x5
  exact OnlyChanges.of hx2 (by intro p hp; cases p <;> first | exact absurd (by decide) hp | exact rfl)

theorem startDump_frame (s : State) : OnlyChanges [.vlt, .out] s (startDump s) := by
  unfold startDump
  split
  · exact (OnlyChanges.refl _ s)
  · extract_lets -merge -underBinder +onlyGivenNames x1
    clear_value x1
    refine OnlyChanges.ite1 ?_ ?_
    · exact (OnlyChanges.refl _ s)
    · refine OnlyChanges.step (issueStep_frame _) ?_
      refine OnlyChanges.step (updArea_frame _ _ _) ?_
      refine OnlyChanges.step (updVlt_frame _ _) ?_
      exact (OnlyChanges.refl _ s)

theorem pfailQualified_frame (s : State) : OnlyChanges [.pwr, .adm, .funcs, .reads, .ctxs, .locks, .mports, .vlt, .movers, .errLog, .errSeq, .rb, .fresh, .out, .seqCtr] s (pfailQualified s) := by
  unfold pfailQualified
  extract_lets -merge -underBinder +onlyGivenNames x1
  have hx1 : OnlyChanges [.pwr, .adm, .funcs, .reads, .ctxs, .locks, .mports, .vlt, .movers, .errLog, .errSeq, .rb, .fresh, .out, .seqCtr] s x1 := by
    unfold x1
    refine OnlyChanges.step (updVlt_frame _ _) ?_
    exact (OnlyChanges.refl _ s)
  clear_value x1
  split
  · exact (OnlyChanges.refl _ s)
  · exact (OnlyChanges.refl _ s)
  · exact (OnlyChanges.refl _ s)
  · refine OnlyChanges.ite1 ?_ ?_
    · exact (OnlyChanges.refl _ s)
    · refine OnlyChanges.step (doneSoon_frame _) ?_
      exact hx1
  · refine OnlyChanges.ite1 ?_ ?_
    · refine OnlyChanges.step (startDump_frame _) ?_
      refine OnlyChanges.step (setDev_frame _ _) ?_
      refine OnlyChanges.step (freeze_frame _) ?_
      exact (OnlyChanges.refl _ s)
    · refine OnlyChanges.step (setDev_frame _ _) ?_
      refine OnlyChanges.step (doneSoon_frame _) ?_
      exact hx1
  · refine OnlyChanges.step (startDump_frame _) ?_
    refine OnlyChanges.step (setDev_frame _ _) ?_
    refine OnlyChanges.step (freeze_frame _) ?_
    exact (OnlyChanges.refl _ s)
  · extract_lets -merge -underBinder +onlyGivenNames x2
    have hx2 : OnlyChanges [.pwr, .adm, .funcs, .reads, .ctxs, .locks, .mports, .vlt, .movers, .errLog, .errSeq, .rb, .fresh, .out, .seqCtr] s x2 := by
      unfold x2
      refine OnlyChanges.step (startExit_frame _) ?_
      refine OnlyChanges.step (freeze_frame _) ?_
      exact (OnlyChanges.refl _ s)
    clear_value x2
    refine OnlyChanges.ite1 ?_ ?_
    · refine OnlyChanges.step (vaulted_frame _) ?_
      exact hx1
    · refine OnlyChanges.ite1 ?_ ?_
      · refine OnlyChanges.step (startDump_frame _) ?_
        refine OnlyChanges.step (setDev_frame _ _) ?_
        refine OnlyChanges.step (freeze_frame _) ?_
        exact (OnlyChanges.refl _ s)
      · refine OnlyChanges.step (setDev_frame _ _) ?_
        refine OnlyChanges.step (updVlt_frame _ _) ?_
        exact hx2

theorem execPfailQualify_frame (s : State) : OnlyChangesQ [.pwr, .adm, .funcs, .reads, .ctxs, .locks, .mports, .vlt, .movers, .errLog, .errSeq, .rb, .fresh, .out, .seqCtr] s (execPfailQualify s) := by
  unfold execPfailQualify
  refine OnlyChangesQ.next ?_
  refine OnlyChanges.step (pfailQualified_frame _) ?_
  exact (OnlyChanges.refl _ s)

theorem execRefclkLoss_frame (s : State) : OnlyChangesQ [.pwr, .tt, .adm, .funcs, .reads, .ctxs, .locks, .mports, .vlt, .movers, .errLog, .errSeq, .rb, .fresh, .out, .seqCtr] s (execRefclkLoss s) := by
  unfold execRefclkLoss
  extract_lets -merge -underBinder +onlyGivenNames x1 x2
  have hx1 : OnlyChanges [.pwr, .tt, .adm, .funcs, .reads, .ctxs, .locks, .mports, .vlt, .movers, .errLog, .errSeq, .rb, .fresh, .out, .seqCtr] s x1 := by
    unfold x1
    refine OnlyChanges.step (pfailQualified_frame _) ?_
    exact (OnlyChanges.refl _ s)
  have hx2 : OnlyChanges [.pwr, .tt, .adm, .funcs, .reads, .ctxs, .locks, .mports, .vlt, .movers, .errLog, .errSeq, .rb, .fresh, .out, .seqCtr] s x2 := by
    unfold x2
    refine OnlyChanges.ite1 ?_ hx1
    refine OnlyChanges.step (driveDone_frame _) ?_
    exact hx1
  clear_value x2
  refine OnlyChangesQ.next ?_
  refine OnlyChanges.step (updTt_frame _ _) ?_
  refine OnlyChanges.step (updPwr_frame _ _) ?_
  exact hx2

theorem startMeasure_frame (s : State) a2 : OnlyChanges [.pwr, .adm, .funcs, .ctxs, .vlt, .errLog, .errSeq, .rb, .fresh, .out, .seqCtr] s (startMeasure s a2) := by
  unfold startMeasure
  extract_lets -merge -underBinder +onlyGivenNames x1 x2
  have hx1 : OnlyChanges [.pwr, .adm, .funcs, .ctxs, .vlt, .errLog, .errSeq, .rb, .fresh, .out, .seqCtr] s x1 := by
    unfold x1
    refine OnlyChanges.step (updVlt_frame _ _) ?_
    exact (OnlyChanges.refl _ s)
  clear_value x1
  clear_value x2
  refine OnlyChanges.ite1 ?_ ?_
  · exact (OnlyChanges.refl _ s)
  · refine OnlyChanges.ite1 ?_ ?_
    · refine OnlyChanges.step (measureEnds_frame _) ?_
      refine OnlyChanges.step (ledgerFail_frame _ _) ?_
      exact hx1
    · refine OnlyChanges.ite1 ?_ ?_
      · refine OnlyChanges.step (measureEnds_frame _) ?_
        refine OnlyChanges.step (ledgerFail_frame _ _) ?_
        exact hx1
      · refine OnlyChanges.ite1 ?_ ?_
        · refine OnlyChanges.step (measureEnds_frame _) ?_
          refine OnlyChanges.step (ledgerFail_frame _ _) ?_
          exact hx1
        · refine OnlyChanges.step (emit_frame _ _) ?_
          refine OnlyChanges.step (updVlt_frame _ _) ?_
          exact hx1

theorem execRemeasureDue_frame a1 (s : State) : OnlyChangesQ [.pwr, .adm, .funcs, .ctxs, .vlt, .errLog, .errSeq, .rb, .fresh, .out, .seqCtr] s (execRemeasureDue a1 s) := by
  unfold execRemeasureDue
  refine OnlyChangesQ.next ?_
  refine OnlyChanges.ite1 ?_ ?_
  · refine OnlyChanges.step (startMeasure_frame _ _) ?_
    exact (OnlyChanges.refl _ s)
  · exact (OnlyChanges.refl _ s)

theorem execThermalTrip_frame a1 a2 (s : State) : OnlyChangesQ [.pwr, .adm, .funcs, .reads, .ctxs, .locks, .mports, .vlt, .movers, .errLog, .errSeq, .rb, .fresh, .out, .seqCtr] s (execThermalTrip a1 a2 s) := by
  unfold execThermalTrip
  extract_lets -merge -underBinder +onlyGivenNames x1 x2
  have hx1 : OnlyChanges [.pwr, .adm, .funcs, .reads, .ctxs, .locks, .mports, .vlt, .movers, .errLog, .errSeq, .rb, .fresh, .out, .seqCtr] s x1 := by
    unfold x1
    refine OnlyChanges.step (updPwr_frame _ _) ?_
    exact (OnlyChanges.refl _ s)
  clear_value x1
  have hx2 : OnlyChanges [.pwr, .adm, .funcs, .reads, .ctxs, .locks, .mports, .vlt, .movers, .errLog, .errSeq, .rb, .fresh, .out, .seqCtr] s x2 := by
    unfold x2
    refine OnlyChanges.ite1 ?_ ?_
    · exact hx1
    · refine OnlyChanges.step (emit_frame _ _) ?_
      refine OnlyChanges.step (updPwr_frame _ _) ?_
      exact hx1
  clear_value x2
  refine OnlyChangesQ.next ?_
  refine OnlyChanges.ite1 ?_ ?_
  · exact (OnlyChanges.refl _ s)
  · refine OnlyChanges.ite1 ?_ ?_
    · exact hx1
    · split
      · exact hx2
      · refine OnlyChanges.step (pfailQualified_frame _) ?_
        exact hx2

theorem execVCutDetect_frame a1 (s : State) : OnlyChangesQ [.pwr, .vlt, .rb, .out] s (execVCutDetect a1 s) := by
  unfold execVCutDetect
  refine OnlyChangesQ.next ?_
  split
  · exact (OnlyChanges.refl _ s)
  · extract_lets -merge -underBinder +onlyGivenNames x1 x2
    have hx1 : OnlyChanges [.pwr, .vlt, .rb, .out] s x1 := by
      unfold x1
      refine OnlyChanges.step (updVlt_frame _ _) ?_
      exact (OnlyChanges.refl _ s)
    clear_value x1
    have hx2 : OnlyChanges [.pwr, .vlt, .rb, .out] s x2 := by
      unfold x2
      refine OnlyChanges.step (updVlt_frame _ _) ?_
      exact hx1
    clear_value x2
    refine OnlyChanges.ite1 ?_ ?_
    · exact hx1
    · refine OnlyChanges.ite1 ?_ ?_
      · refine OnlyChanges.step (issueStep_frame _) ?_
        exact hx2
      · refine OnlyChanges.step (vaulted_frame _) ?_
        exact hx2

theorem judgeImage_frame (s : State) a2 : OnlyChanges [.pwr, .vlt, .errLog, .errSeq, .out] s (judgeImage s a2) := by
  unfold judgeImage
  extract_lets -merge -underBinder +onlyGivenNames x1 x2 x3
  clear_value x1
  have hx2 : OnlyChanges [.pwr, .vlt, .errLog, .errSeq, .out] s x2 := by
    unfold x2
    refine OnlyChanges.step (updArea_frame _ _ _) ?_
    refine OnlyChanges.step (updVlt_frame _ _) ?_
    exact (OnlyChanges.refl _ s)
  clear_value x2
  have hx3 : OnlyChanges [.pwr, .vlt, .errLog, .errSeq, .out] s x3 := by
    unfold x3
    refine OnlyChanges.ite1 ?_ ?_
    · refine OnlyChanges.step (emit_frame _ _) ?_
      refine OnlyChanges.step (updPwr_frame _ _) ?_
      exact hx2
    · exact hx2
  clear_value x3
  refine OnlyChanges.ite1 ?_ ?_
  · refine OnlyChanges.step (logErr_frame _ _ _ _ _) ?_
    exact hx3
  · exact hx3

theorem execVaultCheck_frame a1 a2 a3 (s : State) : OnlyChangesQ [.pwr, .vlt, .errLog, .errSeq, .out] s (execVaultCheck a1 a2 a3 s) := by
  unfold execVaultCheck
  extract_lets -merge -underBinder +onlyGivenNames x1
  have hx1 : OnlyChanges [.pwr, .vlt, .errLog, .errSeq, .out] s x1 := by
    unfold x1
    refine OnlyChanges.step (updPwr_frame _ _) ?_
    refine OnlyChanges.step (updVlt_frame _ _) ?_
    exact (OnlyChanges.refl _ s)
  clear_value x1
  refine OnlyChangesQ.next ?_
  refine OnlyChanges.ite1 ?_ ?_
  · exact (OnlyChanges.refl _ s)
  · refine OnlyChanges.foldl (fun x2 x3 hx2 => ?_) ?_
    · refine OnlyChanges.step (judgeImage_frame _ _) ?_
      exact hx2
    · exact hx1

theorem execVaultRateMeasure_frame a1 a2 (s : State) : OnlyChangesQ [.vlt] s (execVaultRateMeasure a1 a2 s) := by
  unfold execVaultRateMeasure
  refine OnlyChangesQ.next ?_
  refine OnlyChanges.ite1 ?_ ?_
  · refine OnlyChanges.step (updVlt_frame _ _) ?_
    exact (OnlyChanges.refl _ s)
  · exact (OnlyChanges.refl _ s)

theorem execVaultSsdChange_frame a1 a2 a3 a4 (s : State) : OnlyChangesQ [.adm, .funcs, .ctxs, .vlt, .errLog, .errSeq, .rb, .fresh, .seqCtr] s (execVaultSsdChange a1 a2 a3 a4 s) := by
  unfold execVaultSsdChange
  extract_lets -merge -underBinder +onlyGivenNames x1 x2 x3
  have hx1 : OnlyChanges [.adm, .funcs, .ctxs, .vlt, .errLog, .errSeq, .rb, .fresh, .seqCtr] s x1 := by
    unfold x1
    refine OnlyChanges.step (updVlt_frame _ _) ?_
    exact (OnlyChanges.refl _ s)
  clear_value x1
  have hx2 : OnlyChanges [.adm, .funcs, .ctxs, .vlt, .errLog, .errSeq, .rb, .fresh, .seqCtr] s x2 := by
    unfold x2
    refine OnlyChanges.step (updVlt_frame _ _) ?_
    exact hx1
  clear_value x2
  have hx3 : OnlyChanges [.adm, .funcs, .ctxs, .vlt, .errLog, .errSeq, .rb, .fresh, .seqCtr] s x3 := by
    unfold x3
    refine OnlyChanges.step (logErr_frame _ _ _ _ _) ?_
    exact hx2
  clear_value x3
  refine OnlyChangesQ.next ?_
  refine OnlyChanges.ite1 ?_ ?_
  · exact (OnlyChanges.refl _ s)
  · refine OnlyChanges.ite1 ?_ ?_
    · refine OnlyChanges.step (ledgerFail_frame _ _) ?_
      exact hx3
    · refine OnlyChanges.step (recomputeBudget_frame _) ?_
      exact hx3

theorem execVltLedgerParamWrite_frame a1 a2 (s : State) : OnlyChangesQ [.adm, .funcs, .ctxs, .vlt, .errLog, .errSeq, .rb, .fresh, .seqCtr] s (execVltLedgerParamWrite a1 a2 s) := by
  unfold execVltLedgerParamWrite
  refine OnlyChangesQ.next ?_
  refine OnlyChanges.step (recomputeBudget_frame _) ?_
  refine OnlyChanges.step (updVlt_frame _ _) ?_
  exact (OnlyChanges.refl _ s)

theorem execVltMeasure_frame a1 (s : State) : OnlyChangesQ [.pwr, .adm, .funcs, .ctxs, .vlt, .errLog, .errSeq, .rb, .fresh, .out, .seqCtr] s (execVltMeasure a1 s) := by
  unfold execVltMeasure
  refine OnlyChangesQ.next ?_
  refine OnlyChanges.ite1 ?_ ?_
  · refine OnlyChanges.step (startMeasure_frame _ _) ?_
    exact (OnlyChanges.refl _ s)
  · exact (OnlyChanges.refl _ s)

end Sys2Proof.Machine
end

