-- ==== Sys2Proof/Laws/FramesCycle.lean ====
section
/-! SUPPORT. Which parts of the state each function of Machine/Cycle.lean can change. -/

set_option Elab.async false

namespace Sys2Proof.Machine

theorem limited_frame (s : State) a2 a3 a4 a5 : OnlyChangesP [.errLog, .errSeq] s (limited s a2 a3 a4 a5) := by
  unfold limited
  refine OnlyChanges.ite2 ?_ ?_
  · refine OnlyChangesP.mk ?_
    refine OnlyChanges.step (logErr_frame _ _ _ _ _) ?_
    exact (OnlyChanges.refl _ s)
  · refine OnlyChanges.ite2 ?_ ?_
    · refine OnlyChangesP.mk ?_
      refine OnlyChanges.step (logErr_frame _ _ _ _ _) ?_
      exact (OnlyChanges.refl _ s)
    · refine OnlyChangesP.mk ?_
      exact (OnlyChanges.refl _ s)

theorem convertBoxes_frame a1 (s : State) : OnlyChanges [.mbx, .errLog, .errSeq] s (convertBoxes a1 s) := by
  unfold convertBoxes
  refine OnlyChanges.foldl (fun x1 x2 hx1 => ?_) ?_
  · split
    · rename_i x3 x4 x5
      have hx4 : OnlyChanges [.mbx, .errLog, .errSeq] s x4 := by
        refine OnlyChangesP.of_eq x5 ?_
        refine OnlyChangesP.step (limited_frame _ _ _ _ _) ?_
        exact hx1
      refine OnlyChanges.step (updBox_frame _ _ _) ?_
      exact hx4
  · exact (OnlyChanges.refl _ s)

theorem convertCounts_frame a1 (s : State) : OnlyChanges [.pwr, .tt, .adm, .funcs, .ctxs, .groups, .vols, .mports, .vlt, .mbx] s (convertCounts a1 s) := by
  unfold convertCounts
  extract_lets -merge -underBinder +onlyGivenNames x1 x2
  have hx1 : OnlyChanges [.pwr, .tt, .adm, .funcs, .ctxs, .groups, .vols, .mports, .vlt, .mbx] s x1 := by
    unfold x1
    refine OnlyChanges.step (State.mapAdmin_frame _ _) ?_
    exact (OnlyChanges.refl _ s)
  clear_value x1
  clear_value x2
  exact OnlyChanges.of hx1 (by intro p hp; cases p <;> first | exact absurd (by decide) hp | exact rfl)

theorem convertCq_frame a1 a2 (s : State) a4 : OnlyChanges [.funcs, .errLog, .errSeq] s (convertCq a1 a2 s a4) := by
  unfold convertCq
  split
  · exact (OnlyChanges.refl _ s)
  · split
    · rename_i x1 x2 x3
      have hx2 : OnlyChanges [.funcs, .errLog, .errSeq] s x2 := by
        refine OnlyChangesP.of_eq x3 ?_
        refine OnlyChangesP.step (limited_frame _ _ _ _ _) ?_
        exact (OnlyChanges.refl _ s)
      refine OnlyChanges.step (updCq_frame _ _ _ _) ?_
      exact hx2

theorem convertSq_frame a1 a2 (s : State) a4 : OnlyChanges [.funcs, .errLog, .errSeq] s (convertSq a1 a2 s a4) := by
  unfold convertSq
  split
  · exact (OnlyChanges.refl _ s)
  · refine OnlyChanges.ite1 ?_ ?_
    · exact (OnlyChanges.refl _ s)
    · split
      · rename_i x1 x2 x3
        have hx2 : OnlyChanges [.funcs, .errLog, .errSeq] s x2 := by
          refine OnlyChangesP.of_eq x3 ?_
          refine OnlyChangesP.step (limited_frame _ _ _ _ _) ?_
          exact (OnlyChanges.refl _ s)
        refine OnlyChanges.step (updSq_frame _ _ _ _) ?_
        exact hx2

theorem convertFunc_frame a1 (s : State) a3 : OnlyChanges [.funcs, .errLog, .errSeq] s (convertFunc a1 s a3) := by
  unfold convertFunc
  split
  · exact (OnlyChanges.refl _ s)
  · split
    · rename_i x1 x2 x3
      have hx2 : OnlyChanges [.funcs, .errLog, .errSeq] s x2 := by
        refine OnlyChangesP.of_eq x3 ?_
        refine OnlyChangesP.step (limited_frame _ _ _ _ _) ?_
        exact (OnlyChanges.refl _ s)
      extract_lets -merge -underBinder +onlyGivenNames x4 x5
      have hx4 : OnlyChanges [.funcs, .errLog, .errSeq] s x4 := by
        unfold x4
        refine OnlyChanges.step (updFunc_frame _ _ _) ?_
        exact hx2
      clear_value x4
      have hx5 : OnlyChanges [.funcs, .errLog, .errSeq] s x5 := by
        unfold x5
        refine OnlyChanges.foldl (fun x6 x7 hx6 => ?_) ?_
        · refine OnlyChanges.step (convertSq_frame _ _ _ _) ?_
          exact hx6
        · exact hx4
      clear_value x5
      refine OnlyChanges.foldl (fun x8 x9 hx8 => ?_) ?_
      · refine OnlyChanges.step (convertCq_frame _ _ _ _) ?_
        exact hx8
      · exact hx5

theorem convertGiven_frame a1 a2 (s : State) : OnlyChanges [.tt, .errLog, .errSeq] s (convertGiven a1 a2 s) := by
  unfold convertGiven
  extract_lets -merge -underBinder +onlyGivenNames x1 x2 x3
  clear_value x1
  have hx2 : OnlyChanges [.tt, .errLog, .errSeq] s x2 := by
    unfold x2
    split
    · refine OnlyChanges.step (updTt_frame _ _) ?_
      exact (OnlyChanges.refl _ s)
    · split
      · rename_i x4 x5 x6
        have hx5 : OnlyChanges [.tt, .errLog, .errSeq] s x5 := by
          refine OnlyChangesP.of_eq x6 ?_
          refine OnlyChangesP.step (limited_frame _ _ _ _ _) ?_
          exact (OnlyChanges.refl _ s)
        refine OnlyChanges.step (updTt_frame _ _) ?_
        exact hx5
  clear_value x2
  have hx3 : OnlyChanges [.tt, .errLog, .errSeq] s x3 := by
    unfold x3
    split
    · refine OnlyChanges.step (updTt_frame _ _) ?_
      exact hx2
    · split
      · rename_i x7 x8 x9
        have hx8 : OnlyChanges [.tt, .errLog, .errSeq] s x8 := by
          refine OnlyChangesP.of_eq x9 ?_
          refine OnlyChangesP.step (limited_frame _ _ _ _ _) ?_
          exact hx2
        refine OnlyChanges.step (updTt_frame _ _) ?_
        exact hx8
  clear_value x3
  split
  · refine OnlyChanges.step (updTt_frame _ _) ?_
    exact hx3
  · split
    · rename_i x10 x11 x12
      have hx11 : OnlyChanges [.tt, .errLog, .errSeq] s x11 := by
        refine OnlyChangesP.of_eq x12 ?_
        refine OnlyChangesP.step (limited_frame _ _ _ _ _) ?_
        exact hx3
      refine OnlyChanges.step (updTt_frame _ _) ?_
      exact hx11

theorem convertReg_frame (conv : Nat → Nat) (s : State) (r : DurReg) (k : ∀ u v, OnlyChanges [.adm, .mem, .mbx, .vlt] u (r.set u v)) :
    OnlyChanges [.adm, .mem, .mbx, .vlt, .errLog, .errSeq] s (convertReg conv s r) := by
  unfold convertReg
  split
  rename_i x1 x2 x3
  refine OnlyChanges.step (k _ _) ?_
  exact OnlyChangesP.of_eq x3 (OnlyChangesP.step (limited_frame _ _ _ _ _) (OnlyChanges.refl _ s))

theorem durRegs_frame (r : DurReg) (h : r ∈ durRegs) : ∀ u v, OnlyChanges [.adm, .mem, .mbx, .vlt] u (r.set u v) := by
  intro u v
  simp only [durRegs, memDur, List.mem_cons, List.not_mem_nil, or_false] at h
  obtain rfl | rfl | rfl | rfl | rfl | rfl | rfl | rfl | rfl | rfl | rfl | rfl | rfl := h <;>
    (intro p hp; cases p <;> first | exact absurd (by decide) hp | exact rfl)

theorem mapRecords_frame a1 (s : State) : OnlyChanges [.journal, .groups, .vols, .mem, .fare, .errLog, .defLog, .rb] s (mapRecords a1 s) := by
  unfold mapRecords
  extract_lets -merge -underBinder +onlyGivenNames x1 x2 x3 x4
  clear_value x1
  clear_value x2
  clear_value x3
  clear_value x4
  exact OnlyChanges.of (OnlyChanges.refl _ s) (by intro p hp; cases p <;> first | exact absurd (by decide) hp | exact rfl)

theorem switchLock_frame (s : State) : OnlyChanges [.tt, .rb] s (switchLock s) := by
  unfold switchLock
  extract_lets -merge -underBinder +onlyGivenNames x1 x2
  clear_value x1
  have hx2 : OnlyChanges [.tt, .rb] s x2 := by
    unfold x2
    refine OnlyChanges.step (updTt_frame _ _) ?_
    exact (OnlyChanges.refl _ s)
  clear_value x2
  refine OnlyChanges.ite1 ?_ ?_
  · refine OnlyChanges.ite1 ?_ ?_
    · exact hx2
    · refine OnlyChanges.step (setLock_frame _ _) ?_
      refine OnlyChanges.step (updTt_frame _ _) ?_
      exact hx2
  · refine OnlyChanges.step (updTt_frame _ _) ?_
    exact hx2

theorem switchEdge_frame (s : State) a2 : OnlyChanges [.pwr, .tt, .adm, .ports, .funcs, .reads, .ctxs, .locks, .journal, .groups, .vols, .mports, .mem, .vlt, .mbx, .fare, .errLog, .errSeq, .defLog, .rb] s (switchEdge s a2) := by
  unfold switchEdge
  extract_lets -merge -underBinder +onlyGivenNames x1 x2 x3 x4 x5 x6 x7 x8 x9 x10 x11 x12
  clear_value x1
  clear_value x2
  clear_value x3
  clear_value x4
  clear_value x5
  clear_value x6
  have hx7 : OnlyChanges [.pwr, .tt, .adm, .ports, .funcs, .reads, .ctxs, .locks, .journal, .groups, .vols, .mports, .mem, .vlt, .mbx, .fare, .errLog, .errSeq, .defLog, .rb] s x7 := by
    unfold x7
    refine OnlyChanges.step (State.mapTimes_frame _ _ _) ?_
    exact (OnlyChanges.refl _ s)
  clear_value x7
  have hx8 : OnlyChanges [.pwr, .tt, .adm, .ports, .funcs, .reads, .ctxs, .locks, .journal, .groups, .vols, .mports, .mem, .vlt, .mbx, .fare, .errLog, .errSeq, .defLog, .rb] s x8 := by
    unfold x8
    refine OnlyChanges.step (mapRecords_frame _ _) ?_
    refine OnlyChanges.step (convertCounts_frame _ _) ?_
    exact hx7
  clear_value x8
  have hx9 : OnlyChanges [.pwr, .tt, .adm, .ports, .funcs, .reads, .ctxs, .locks, .journal, .groups, .vols, .mports, .mem, .vlt, .mbx, .fare, .errLog, .errSeq, .defLog, .rb] s x9 := by
    unfold x9
    refine OnlyChanges.step (updTt_frame _ _) ?_
    exact hx8
  clear_value x9
  have hx10 : OnlyChanges [.pwr, .tt, .adm, .ports, .funcs, .reads, .ctxs, .locks, .journal, .groups, .vols, .mports, .mem, .vlt, .mbx, .fare, .errLog, .errSeq, .defLog, .rb] s x10 := by
    unfold x10
    refine OnlyChanges.foldlMem (fun x13 x14 m hx13 => ?_) ?_
    · refine OnlyChanges.step (convertReg_frame _ _ _ (durRegs_frame _ m)) ?_
      exact hx13
    · exact hx9
  clear_value x10
  have hx11 : OnlyChanges [.pwr, .tt, .adm, .ports, .funcs, .reads, .ctxs, .locks, .journal, .groups, .vols, .mports, .mem, .vlt, .mbx, .fare, .errLog, .errSeq, .defLog, .rb] s x11 := by
    unfold x11
    refine OnlyChanges.step (convertBoxes_frame _ _) ?_
    refine OnlyChanges.step (convertGiven_frame _ _ _) ?_
    exact hx10
  clear_value x11
  have hx12 : OnlyChanges [.pwr, .tt, .adm, .ports, .funcs, .reads, .ctxs, .locks, .journal, .groups, .vols, .mports, .mem, .vlt, .mbx, .fare, .errLog, .errSeq, .defLog, .rb] s x12 := by
    unfold x12
    refine OnlyChanges.foldl (fun x15 x16 hx15 => ?_) ?_
    · refine OnlyChanges.step (convertFunc_frame _ _ _) ?_
      exact hx15
    · exact hx11
  clear_value x12
  refine OnlyChanges.step (rbChange_frame _) ?_
  refine OnlyChanges.step (setCeil_frame _) ?_
  refine OnlyChanges.step (switchLock_frame _) ?_
  exact hx12

theorem applySwitch_frame (s : State) : OnlyChanges [.pwr, .tt, .adm, .ports, .funcs, .reads, .ctxs, .locks, .journal, .groups, .vols, .mports, .mem, .vlt, .mbx, .fare, .errLog, .errSeq, .defLog, .rb] s (applySwitch s) := by
  unfold applySwitch
  split
  · exact (OnlyChanges.refl _ s)
  · refine OnlyChanges.ite1 ?_ ?_
    · refine OnlyChanges.step (switchEdge_frame _ _) ?_
      exact (OnlyChanges.refl _ s)
    · refine OnlyChanges.step (updTt_frame _ _) ?_
      exact (OnlyChanges.refl _ s)

theorem fareLatch_frame (s : State) : OnlyChanges [.vols, .fare] s (fareLatch s) := by
  unfold fareLatch
  extract_lets -merge -underBinder +onlyGivenNames x1 x2 x3 x4
  clear_value x1
  clear_value x2
  clear_value x3
  clear_value x4
  exact OnlyChanges.of (OnlyChanges.refl _ s) (by intro p hp; cases p <;> first | exact absurd (by decide) hp | exact rfl)

theorem fareEdge_frame (s : State) : OnlyChanges [.vols, .fare] s (fareEdge s) := by
  unfold fareEdge
  refine OnlyChanges.ite1 ?_ ?_
  · refine OnlyChanges.step (fareLatch_frame _) ?_
    exact (OnlyChanges.refl _ s)
  · exact (OnlyChanges.refl _ s)

theorem farePeriodEdge_frame (s : State) : OnlyChanges [.fare] s (farePeriodEdge s) := by
  unfold farePeriodEdge
  split
  · extract_lets -merge -underBinder +onlyGivenNames x1
    clear_value x1
    exact OnlyChanges.of (OnlyChanges.refl _ s) (by intro p hp; cases p <;> first | exact absurd (by decide) hp | exact rfl)
  · exact (OnlyChanges.refl _ s)

theorem idleMember_frame (s : State) a2 a3 : OnlyChanges [.mports, .out] s (idleMember s a2 a3) := by
  unfold idleMember
  split
  · exact (OnlyChanges.refl _ s)
  · extract_lets -merge -underBinder +onlyGivenNames x1 x2 x3
    clear_value x1
    have hx2 : OnlyChanges [.mports, .out] s x2 := by
      unfold x2
      refine OnlyChanges.step (updMport_frame _ _ _) ?_
      exact (OnlyChanges.refl _ s)
    clear_value x2
    clear_value x3
    refine OnlyChanges.ite1 ?_ ?_
    · refine OnlyChanges.step (emit_frame _ _) ?_
      refine OnlyChanges.step (updMport_frame _ _ _) ?_
      exact hx2
    · refine OnlyChanges.ite1 ?_ ?_
      · refine OnlyChanges.step (emit_frame _ _) ?_
        refine OnlyChanges.step (updMport_frame _ _ _) ?_
        exact hx2
      · exact hx2

theorem idleMembers_frame (s : State) : OnlyChanges [.mports, .out] s (idleMembers s) := by
  unfold idleMembers
  refine OnlyChanges.foldl (fun x1 x2 hx1 => ?_) ?_
  · refine OnlyChanges.step (idleMember_frame _ _ _) ?_
    exact hx1
  · exact (OnlyChanges.refl _ s)

theorem nextCycle_frame (s : State) : OnlyChanges [.pwr, .tt, .adm, .ports, .funcs, .reads, .ctxs, .locks, .groups, .vols, .mports, .vlt, .mbx, .rb] s (nextCycle s) := by
  unfold nextCycle
  extract_lets -merge -underBinder +onlyGivenNames x1 x2 x3 x4 x5
  clear_value x1
  clear_value x2
  clear_value x3
  have hx4 : OnlyChanges [.pwr, .tt, .adm, .ports, .funcs, .reads, .ctxs, .locks, .groups, .vols, .mports, .vlt, .mbx, .rb] s x4 := by
    unfold x4
    refine OnlyChanges.step (State.mapTimes_frame _ _ _) ?_
    exact (OnlyChanges.refl _ s)
  clear_value x4
  have hx5 : OnlyChanges [.pwr, .tt, .adm, .ports, .funcs, .reads, .ctxs, .locks, .groups, .vols, .mports, .vlt, .mbx, .rb] s x5 := by
    unfold x5
    exact OnlyChanges.of hx4 (by intro p hp; cases p <;> first | exact absurd (by decide) hp | exact rfl)
  clear_value x5
  refine OnlyChanges.ite1 ?_ ?_
  · refine OnlyChanges.step (rbChange_frame _) ?_
    refine OnlyChanges.step (updTt_frame _ _) ?_
    exact hx5
  · refine OnlyChanges.step (updTt_frame _ _) ?_
    exact (OnlyChanges.refl _ s)

theorem planEdge_frame (s : State) : OnlyChanges [.tt] s (planEdge s) := by
  unfold planEdge
  refine OnlyChanges.step (updTt_frame _ _) ?_
  exact (OnlyChanges.refl _ s)

theorem possEnd_frame (s : State) a2 a3 : OnlyChanges [.adm, .ctxs, .groups, .mports, .out, .seqCtr] s (possEnd s a2 a3) := by
  unfold possEnd
  extract_lets -merge -underBinder +onlyGivenNames x1
  have hx1 : OnlyChanges [.adm, .ctxs, .groups, .mports, .out, .seqCtr] s x1 := by
    unfold x1
    refine OnlyChanges.step (updMport_frame _ _ _) ?_
    exact (OnlyChanges.refl _ s)
  clear_value x1
  refine OnlyChanges.ite1 ?_ ?_
  · refine OnlyChanges.step (wakeMem_frame _ _) ?_
    refine OnlyChanges.step (endPoss_frame _ _) ?_
    exact (OnlyChanges.refl _ s)
  · refine OnlyChanges.ite1 ?_ ?_
    · exact hx1
    · refine OnlyChanges.step (sendDtwin_frame _ _) ?_
      exact hx1

theorem possEnds_frame (s : State) a2 : OnlyChanges [.adm, .ctxs, .groups, .mports, .out, .seqCtr] s (possEnds s a2) := by
  unfold possEnds
  split
  · exact (OnlyChanges.refl _ s)
  · extract_lets -merge -underBinder +onlyGivenNames x1
    clear_value x1
    refine OnlyChanges.ite1 ?_ ?_
    · refine OnlyChanges.step (possEnd_frame _ _ _) ?_
      exact (OnlyChanges.refl _ s)
    · exact (OnlyChanges.refl _ s)

theorem possSkip_frame (s : State) a2 a3 : OnlyChanges [.mports, .errLog, .errSeq] s (possSkip s a2 a3) := by
  unfold possSkip
  extract_lets -merge -underBinder +onlyGivenNames x1
  have hx1 : OnlyChanges [.mports, .errLog, .errSeq] s x1 := by
    unfold x1
    refine OnlyChanges.step (updMport_frame _ _ _) ?_
    exact (OnlyChanges.refl _ s)
  clear_value x1
  refine OnlyChanges.ite1 ?_ ?_
  · exact hx1
  · refine OnlyChanges.step (logErr_frame _ _ _ _ _) ?_
    refine OnlyChanges.step (updMport_frame _ _ _) ?_
    exact hx1

theorem possStart_frame (s : State) a2 a3 : OnlyChanges [.groups, .mports] s (possStart s a2 a3) := by
  unfold possStart
  extract_lets -merge -underBinder +onlyGivenNames x1
  have hx1 : OnlyChanges [.groups, .mports] s x1 := by
    unfold x1
    refine OnlyChanges.step (updMport_frame _ _ _) ?_
    exact (OnlyChanges.refl _ s)
  clear_value x1
  split
  · refine OnlyChanges.step (updGroup_frame _ _ _) ?_
    exact hx1
  · exact hx1

theorem possStarts_frame (s : State) a2 : OnlyChanges [.adm, .ctxs, .groups, .mports, .errLog, .errSeq, .out, .seqCtr] s (possStarts s a2) := by
  unfold possStarts
  split
  · exact (OnlyChanges.refl _ s)
  · extract_lets -merge -underBinder +onlyGivenNames x1 x2
    clear_value x1
    have hx2 : OnlyChanges [.adm, .ctxs, .groups, .mports, .errLog, .errSeq, .out, .seqCtr] s x2 := by
      unfold x2
      refine OnlyChanges.ite1 ?_ ?_
      · exact (OnlyChanges.refl _ s)
      · refine OnlyChanges.ite1 ?_ ?_
        · refine OnlyChanges.ite1 ?_ ?_
          · exact (OnlyChanges.refl _ s)
          · refine OnlyChanges.step (possSkip_frame _ _ _) ?_
            refine OnlyChanges.step (possEnd_frame _ _ _) ?_
            exact (OnlyChanges.refl _ s)
        · refine OnlyChanges.ite1 ?_ ?_
          · refine OnlyChanges.step (possStart_frame _ _ _) ?_
            exact (OnlyChanges.refl _ s)
          · refine OnlyChanges.step (possSkip_frame _ _ _) ?_
            exact (OnlyChanges.refl _ s)
    clear_value x2
    refine OnlyChanges.ite1 ?_ ?_
    · exact (OnlyChanges.refl _ s)
    · refine OnlyChanges.step (updMport_frame _ _ _) ?_
      exact hx2

theorem possUnjudged_frame (s : State) a2 : OnlyChanges [.groups, .mports] s (possUnjudged s a2) := by
  unfold possUnjudged
  split
  · exact (OnlyChanges.refl _ s)
  · extract_lets -merge -underBinder +onlyGivenNames x1
    clear_value x1
    refine OnlyChanges.ite1 ?_ ?_
    · refine OnlyChanges.step (updMport_frame _ _ _) ?_
      exact (OnlyChanges.refl _ s)
    · refine OnlyChanges.ite1 ?_ ?_
      · refine OnlyChanges.step (updMport_frame _ _ _) ?_
        refine OnlyChanges.step (endPoss_frame _ _) ?_
        exact (OnlyChanges.refl _ s)
      · exact (OnlyChanges.refl _ s)

theorem possessions_frame (s : State) : OnlyChanges [.adm, .ctxs, .groups, .mports, .errLog, .errSeq, .out, .seqCtr] s (possessions s) := by
  unfold possessions
  extract_lets -merge -underBinder +onlyGivenNames x1
  clear_value x1
  refine OnlyChanges.ite1 ?_ ?_
  · refine OnlyChanges.foldl (fun x2 x3 hx2 => ?_) ?_
    · refine OnlyChanges.step (possStarts_frame _ _) ?_
      exact hx2
    · refine OnlyChanges.foldl (fun x4 x5 hx4 => ?_) ?_
      · refine OnlyChanges.step (possEnds_frame _ _) ?_
        exact hx4
      · exact (OnlyChanges.refl _ s)
  · refine OnlyChanges.foldl (fun x6 x7 hx6 => ?_) ?_
    · refine OnlyChanges.step (possUnjudged_frame _ _) ?_
      exact hx6
    · exact (OnlyChanges.refl _ s)

theorem recomputeD_frame (s : State) : OnlyChanges [.mports, .rb] s (recomputeD s) := by
  unfold recomputeD
  extract_lets -merge -underBinder +onlyGivenNames x1
  have hx1 : OnlyChanges [.mports, .rb] s x1 := by
    unfold x1
    exact OnlyChanges.of (OnlyChanges.refl _ s) (by intro p hp; cases p <;> first | exact absurd (by decide) hp | exact rfl)
  clear_value x1
  refine OnlyChanges.ite1 ?_ ?_
  · exact hx1
  · refine OnlyChanges.step (rbChange_frame _) ?_
    exact hx1

theorem throttle_frame (s : State) a2 : OnlyChanges [.adm] s (throttle s a2) := by
  unfold throttle
  refine OnlyChanges.step (updAdm_frame _ _) ?_
  exact (OnlyChanges.refl _ s)

theorem timetableDone_frame a1 (s : State) : OnlyChanges [.tt, .funcs, .out, .seqCtr] s (timetableDone a1 s) := by
  unfold timetableDone
  extract_lets -merge -underBinder +onlyGivenNames x1 x2 x3 x4
  clear_value x1
  clear_value x2
  clear_value x3
  clear_value x4
  refine OnlyChanges.foldl (fun x5 x6 hx5 => ?_) ?_
  · refine OnlyChanges.step (adminDone_frame _ _ _ _) ?_
    exact hx5
  · refine OnlyChanges.step (updTt_frame _ _) ?_
    exact (OnlyChanges.refl _ s)

theorem tokensDone_frame (s : State) : OnlyChanges [.adm, .funcs, .out, .seqCtr] s (tokensDone s) := by
  unfold tokensDone
  extract_lets -merge -underBinder +onlyGivenNames x1
  clear_value x1
  refine OnlyChanges.foldl (fun x2 x3 hx2 => ?_) ?_
  · refine OnlyChanges.step (adminDone_frame _ _ _ _) ?_
    exact hx2
  · refine OnlyChanges.step (updAdm_frame _ _) ?_
    exact (OnlyChanges.refl _ s)

theorem edgeUpdate_frame (s : State) a2 : OnlyChanges [.pwr, .tt, .adm, .ports, .funcs, .reads, .ctxs, .locks, .journal, .groups, .vols, .mports, .mem, .vlt, .mbx, .fare, .errLog, .errSeq, .defLog, .rb, .fresh, .out, .seqCtr] s (edgeUpdate s a2) := by
  unfold edgeUpdate
  extract_lets -merge -underBinder +onlyGivenNames x1 x2 x3 x4
  have hx1 : OnlyChanges [.pwr, .tt, .adm, .ports, .funcs, .reads, .ctxs, .locks, .journal, .groups, .vols, .mports, .mem, .vlt, .mbx, .fare, .errLog, .errSeq, .defLog, .rb, .fresh, .out, .seqCtr] s x1 := by
    unfold x1
    refine OnlyChanges.step (applySwitch_frame _) ?_
    refine OnlyChanges.step (nextCycle_frame _) ?_
    exact (OnlyChanges.refl _ s)
  clear_value x1
  have hx2 : OnlyChanges [.pwr, .tt, .adm, .ports, .funcs, .reads, .ctxs, .locks, .journal, .groups, .vols, .mports, .mem, .vlt, .mbx, .fare, .errLog, .errSeq, .defLog, .rb, .fresh, .out, .seqCtr] s x2 := by
    unfold x2
    refine OnlyChanges.step (refill_frame _) ?_
    refine OnlyChanges.step (throttle_frame _ _) ?_
    exact hx1
  clear_value x2
  have hx3 : OnlyChanges [.pwr, .tt, .adm, .ports, .funcs, .reads, .ctxs, .locks, .journal, .groups, .vols, .mports, .mem, .vlt, .mbx, .fare, .errLog, .errSeq, .defLog, .rb, .fresh, .out, .seqCtr] s x3 := by
    unfold x3
    refine OnlyChanges.step (fareEdge_frame _) ?_
    refine OnlyChanges.step (farePeriodEdge_frame _) ?_
    refine OnlyChanges.ite1 ?_ ?_
    · refine OnlyChanges.step (cutCeil_frame _) ?_
      exact hx2
    · exact hx2
  clear_value x3
  have hx4 : OnlyChanges [.pwr, .tt, .adm, .ports, .funcs, .reads, .ctxs, .locks, .journal, .groups, .vols, .mports, .mem, .vlt, .mbx, .fare, .errLog, .errSeq, .defLog, .rb, .fresh, .out, .seqCtr] s x4 := by
    unfold x4
    refine OnlyChanges.step (timetableDone_frame _ _) ?_
    refine OnlyChanges.step (tokensDone_frame _) ?_
    refine OnlyChanges.step (recomputeD_frame _) ?_
    refine OnlyChanges.step (possessions_frame _) ?_
    refine OnlyChanges.step (planEdge_frame _) ?_
    exact hx3
  clear_value x4
  refine OnlyChanges.step (rbSwap_frame _) ?_
  refine OnlyChanges.step (noteFlags_frame _) ?_
  refine OnlyChanges.step (idleMembers_frame _) ?_
  refine OnlyChanges.step (countIdle_frame _) ?_
  refine OnlyChanges.step (policyEdge_frame _) ?_
  exact hx4

theorem cycleEdge_frame (s : State) a2 : OnlyChanges [.pwr, .tt, .adm, .ports, .funcs, .reads, .nextTag, .ctxs, .engineFree, .cache, .locks, .journal, .groups, .vols, .freedVols, .mports, .mem, .vlt, .movers, .xlate, .progs, .mbx, .fare, .errLog, .errSeq, .defLog, .defSeq, .rb, .fresh, .fetchDue, .out, .freeCtr, .seqCtr] s (cycleEdge s a2) := by
  unfold cycleEdge
  refine OnlyChanges.step (openSlot_frame _) ?_
  refine OnlyChanges.step (ttcPulse_frame _) ?_
  refine OnlyChanges.step (edgeUpdate_frame _ _) ?_
  refine OnlyChanges.step (accrue_frame _ _) ?_
  refine OnlyChanges.step (issueSlot_frame _) ?_
  exact (OnlyChanges.refl _ s)

theorem execCycleEdge_frame a1 a2 (s : State) : OnlyChangesQ [.pwr, .tt, .adm, .ports, .funcs, .reads, .nextTag, .ctxs, .engineFree, .cache, .locks, .journal, .groups, .vols, .freedVols, .mports, .mem, .vlt, .movers, .xlate, .progs, .mbx, .fare, .errLog, .errSeq, .defLog, .defSeq, .rb, .fresh, .fetchDue, .out, .freeCtr, .seqCtr] s (execCycleEdge a1 a2 s) := by
  have r := OnlyChanges.refl [.pwr, .tt, .adm, .ports, .funcs, .reads, .nextTag, .ctxs, .engineFree, .cache, .locks, .journal, .groups, .vols, .freedVols, .mports, .mem, .vlt, .movers, .xlate, .progs, .mbx, .fare, .errLog, .errSeq, .defLog, .defSeq, .rb, .fresh, .fetchDue, .out, .freeCtr, .seqCtr] s
  unfold execCycleEdge
  exact OnlyChangesQ.next (OnlyChanges.ite1 r (OnlyChanges.step (cycleEdge_frame _ _) (OnlyChanges.step (updVlt_frame _ _)
    (OnlyChanges.step (updPwr_frame _ _) r))))

theorem execFareLatch_frame (s : State) : OnlyChangesQ [.vols, .fare] s (execFareLatch s) := by
  unfold execFareLatch
  refine OnlyChangesQ.next ?_
  refine OnlyChanges.step (fareEdge_frame _) ?_
  exact (OnlyChanges.refl _ s)

theorem execFarePeriodWrite_frame a1 (s : State) : OnlyChangesQ [.fare] s (execFarePeriodWrite a1 s) := by
  unfold execFarePeriodWrite
  extract_lets -merge -underBinder +onlyGivenNames x1
  clear_value x1
  refine OnlyChangesQ.next ?_
  refine OnlyChanges.ite1 ?_ ?_
  · exact (OnlyChanges.refl _ s)
  · exact OnlyChanges.of (OnlyChanges.refl _ s) (by intro p hp; cases p <;> first | exact absurd (by decide) hp | exact rfl)

theorem tick_frame (s : State) : OnlyChanges [.pwr, .tt, .adm, .ports, .funcs, .reads, .nextTag, .ctxs, .engineFree, .cache, .locks, .journal, .groups, .vols, .freedVols, .mports, .mem, .vlt, .movers, .xlate, .progs, .mbx, .fare, .errLog, .errSeq, .defLog, .defSeq, .rb, .fresh, .fetchDue, .out, .freeCtr, .seqCtr] s (tick s) := by
  unfold tick
  refine OnlyChanges.ite1 ?_ ?_
  · exact (OnlyChanges.refl _ s)
  · refine OnlyChanges.ite1 ?_ ?_
    · refine OnlyChanges.step (openSlot_frame _) ?_
      refine OnlyChanges.step (ttcSettle_frame _) ?_
      refine OnlyChanges.step (updTt_frame _ _) ?_
      refine OnlyChanges.step (accrue_frame _ _) ?_
      refine OnlyChanges.step (issueSlot_frame _) ?_
      exact (OnlyChanges.refl _ s)
    · refine OnlyChanges.step (cycleEdge_frame _ _) ?_
      exact (OnlyChanges.refl _ s)

end Sys2Proof.Machine
end

