-- ==== Sys2Proof/Laws/FramesDispatcher.lean ====
section
/-! SUPPORT. Which parts of the state each function of Machine/Dispatcher.lean can change. -/

set_option Elab.async false

namespace Sys2Proof.Machine

theorem holdPages_frame (s : State) a2 a3 : OnlyChangesP [.funcs, .cache] s (holdPages s a2 a3) := by
  unfold holdPages
  split
  · extract_lets -merge -underBinder +onlyGivenNames x1 x2
    clear_value x1
    clear_value x2
    refine OnlyChangesP.mk ?_
    refine OnlyChanges.step (updWin_frame _ _ _ _) ?_
    refine OnlyChanges.foldl (fun x3 x4 hx3 => ?_) ?_
    · refine OnlyChanges.step (pinFrame_frame _ _) ?_
      exact hx3
    · exact (OnlyChanges.refl _ s)
  · refine OnlyChangesP.mk ?_
    exact (OnlyChanges.refl _ s)

theorem grantCtx_frame (s : State) a2 a3 a4 a5 a6 a7 a8 a9 a10 a11 a12 a13 : OnlyChanges [.adm, .funcs, .ctxs, .cache, .vols, .seqCtr] s (grantCtx s a2 a3 a4 a5 a6 a7 a8 a9 a10 a11 a12 a13) := by
  unfold grantCtx
  split
  · exact (OnlyChanges.refl _ s)
  · extract_lets -merge -underBinder +onlyGivenNames x1 x2
    have hx1 : OnlyChanges [.adm, .funcs, .ctxs, .cache, .vols, .seqCtr] s x1 := by
      unfold x1
      refine OnlyChanges.step (spendTokens_frame _ _ _ _ _ _) ?_
      exact (OnlyChanges.refl _ s)
    clear_value x1
    have hx2 : OnlyChanges [.adm, .funcs, .ctxs, .cache, .vols, .seqCtr] s x2 := by
      unfold x2
      refine OnlyChanges.foldl (fun x3 x4 hx3 => ?_) ?_
      · refine OnlyChanges.step (pinFrame_frame _ _) ?_
        exact hx3
      · exact hx1
    clear_value x2
    split
    · rename_i x5 x6 x7
      have hx6 : OnlyChanges [.adm, .funcs, .ctxs, .cache, .vols, .seqCtr] s x6 := by
        refine OnlyChangesP.of_eq x7 ?_
        refine OnlyChangesP.step (holdPages_frame _ _ _) ?_
        exact hx2
      split
      · rename_i x8 x9 x10
        have hx9 : OnlyChanges [.adm, .funcs, .ctxs, .cache, .vols, .seqCtr] s x9 := by
          refine OnlyChangesP.of_eq x10 ?_
          refine OnlyChangesP.step (nextSeq_frame _) ?_
          exact hx6
        split
        · rename_i x11 x12 x13
          have hx12 : OnlyChanges [.adm, .funcs, .ctxs, .cache, .vols, .seqCtr] s x12 := by
            refine OnlyChangesP.of_eq x13 ?_
            refine OnlyChangesP.step (newResidence_frame _ _) ?_
            exact hx9
          extract_lets -merge -underBinder +onlyGivenNames x14
          clear_value x14
          exact OnlyChanges.of hx12 (by intro p hp; cases p <;> first | exact absurd (by decide) hp | exact rfl)

theorem refuseCmd_frame (s : State) a2 a3 a4 a5 a6 a7 a8 : OnlyChanges [.adm, .funcs, .seqCtr] s (refuseCmd s a2 a3 a4 a5 a6 a7 a8) := by
  unfold refuseCmd
  extract_lets -merge -underBinder +onlyGivenNames x1 x2
  have hx1 : OnlyChanges [.adm, .funcs, .seqCtr] s x1 := by
    unfold x1
    refine OnlyChanges.ite1 ?_ ?_
    · refine OnlyChanges.step (updExp_frame _ _ _) ?_
      exact (OnlyChanges.refl _ s)
    · exact (OnlyChanges.refl _ s)
  clear_value x1
  clear_value x2
  refine OnlyChanges.step (pushReady_frame _ _ _) ?_
  exact hx1

theorem takeHead_frame (s : State) a2 a3 a4 : OnlyChanges [.funcs, .reads, .nextTag, .out] s (takeHead s a2 a3 a4) := by
  unfold takeHead
  extract_lets -merge -underBinder +onlyGivenNames x1 x2
  clear_value x1
  clear_value x2
  refine OnlyChanges.ite1 ?_ ?_
  · refine OnlyChanges.step (shadowWrite_frame _ _ _ _) ?_
    refine OnlyChanges.step (updSq_frame _ _ _ _) ?_
    exact (OnlyChanges.refl _ s)
  · refine OnlyChanges.step (fetch_frame _ _ _) ?_
    refine OnlyChanges.step (updSq_frame _ _ _ _) ?_
    exact (OnlyChanges.refl _ s)

theorem toSignalBox_frame (s : State) a2 a3 : OnlyChanges [.mbx] s (toSignalBox s a2 a3) := by
  unfold toSignalBox
  extract_lets -merge -underBinder +onlyGivenNames x1 x2
  clear_value x1
  clear_value x2
  exact OnlyChanges.of (OnlyChanges.refl _ s) (by intro p hp; cases p <;> first | exact absurd (by decide) hp | exact rfl)

theorem takeEntry_frame (s : State) a2 a3 a4 a5 a6 a7 : OnlyChangesO [.adm, .funcs, .reads, .nextTag, .ctxs, .cache, .vols, .mbx, .out, .seqCtr] s (takeEntry s a2 a3 a4 a5 a6 a7) := by
  unfold takeEntry
  split
  · exact OnlyChangesO.none
  · refine OnlyChangesO.some ?_
    refine OnlyChanges.step (refuseCmd_frame _ _ _ _ _ _ _ _) ?_
    refine OnlyChanges.step (takeHead_frame _ _ _ _) ?_
    exact (OnlyChanges.refl _ s)
  · refine OnlyChangesO.some ?_
    refine OnlyChanges.step (toSignalBox_frame _ _ _) ?_
    refine OnlyChanges.step (takeHead_frame _ _ _ _) ?_
    exact (OnlyChanges.refl _ s)
  · split
    · exact OnlyChangesO.none
    · split
      · refine OnlyChangesO.some ?_
        refine OnlyChanges.step (grantCtx_frame _ _ _ _ _ _ _ _ _ _ _ _ _) ?_
        refine OnlyChanges.step (takeHead_frame _ _ _ _) ?_
        exact (OnlyChanges.refl _ s)
      · exact OnlyChangesO.none

theorem dispatchFrom_frame (s : State) a2 a3 a4 : OnlyChangesO [.adm, .funcs, .reads, .nextTag, .ctxs, .cache, .vols, .mbx, .out, .seqCtr] s (dispatchFrom s a2 a3 a4) := by
  induction a4 with
  | nil => exact OnlyChangesO.none
  | cons x xs ih =>
    have k : ∀ f slot fn q, OnlyChangesO [.adm, .funcs, .reads, .nextTag, .ctxs, .cache, .vols, .mbx, .out, .seqCtr] s (if mayTake s fn slot q then (headOf q).bind fun h => takeEntry s a2 f slot fn q h else none) := by
      intro f slot fn q
      refine OnlyChanges.ite3 (fun t e => ?_) OnlyChangesO.none
      obtain ⟨h, -, e⟩ := Option.bind_eq_some_iff.mp e
      exact OnlyChangesO.of_eq e (OnlyChangesO.step (takeEntry_frame _ _ _ _ _ _ _) (OnlyChanges.refl _ s))
    unfold dispatchFrom
    repeat' split
    all_goals first
      | exact ih
      | exact OnlyChangesO.some (OnlyChanges.step (updAdm_frame _ _) (OnlyChangesO.of_eq (by assumption) (k _ _ _ _)))

theorem execDispatch_frame a1 (s : State) : OnlyChangesQ [.adm, .funcs, .reads, .nextTag, .ctxs, .cache, .vols, .mbx, .out, .seqCtr] s (execDispatch a1 s) := by
  unfold execDispatch
  refine OnlyChangesQ.next ?_
  refine OnlyChanges.ite1 ?_ ?_
  · exact (OnlyChanges.refl _ s)
  · refine OnlyChanges.getD ?_ ?_
    · refine OnlyChangesO.orElse ?_ ?_
      · refine OnlyChangesO.orElse ?_ ?_
        · refine OnlyChangesO.step (dispatchFrom_frame _ _ _ _) ?_
          exact (OnlyChanges.refl _ s)
        · refine OnlyChangesO.step (dispatchFrom_frame _ _ _ _) ?_
          exact (OnlyChanges.refl _ s)
      · refine OnlyChangesO.step (dispatchFrom_frame _ _ _ _) ?_
        exact (OnlyChanges.refl _ s)
    · exact (OnlyChanges.refl _ s)

end Sys2Proof.Machine
end

