-- ==== Sys2Proof/Laws/FramesEngine.lean ====
section
/-! SUPPORT. Which parts of the state each function of Machine/Engine.lean can change. -/

set_option Elab.async false

namespace Sys2Proof.Machine

theorem enterSlot_frame (s : State) a2 a3 a4 : OnlyChanges [.ctxs] s (enterSlot s a2 a3 a4) := by
  unfold enterSlot
  refine OnlyChanges.step (updCtx_frame _ _ _) ?_
  refine OnlyChanges.step (loadCtx_frame _ _) ?_
  exact (OnlyChanges.refl _ s)

theorem execBr_frame a1 (s : State) : OnlyChangesQ [.funcs, .ctxs, .engineFree, .cache, .locks, .journal, .groups, .vols, .mports, .movers, .progs, .errLog, .errSeq, .defLog, .defSeq, .rb, .seqCtr] s (execBr a1 s) := by
  unfold execBr
  refine runIns_frame ?_ ?_
  · intro x1 x2 hx2
    refine OnlyChanges.step (updCtx_frame _ _ _) ?_
    exact hx2
  · exact (OnlyChanges.refl _ s)

theorem execBtab_frame a1 (s : State) : OnlyChangesQ [.funcs, .ctxs, .engineFree, .cache, .locks, .journal, .groups, .vols, .mports, .movers, .progs, .errLog, .errSeq, .defLog, .defSeq, .rb, .seqCtr] s (execBtab a1 s) := by
  unfold execBtab
  refine runIns_frame ?_ ?_
  · intro x1 x2 hx2
    refine OnlyChanges.step (updCtx_frame _ _ _) ?_
    exact hx2
  · exact (OnlyChanges.refl _ s)

theorem execCall_frame a1 (s : State) : OnlyChangesQ [.funcs, .ctxs, .engineFree, .cache, .locks, .journal, .groups, .vols, .mports, .movers, .progs, .errLog, .errSeq, .defLog, .defSeq, .rb, .seqCtr] s (execCall a1 s) := by
  unfold execCall
  refine OnlyChanges.ite4 ?_ ?_
  · exact OnlyChangesQ.fault
  · refine runIns_frame ?_ ?_
    · intro x1 x2 hx2
      refine OnlyChanges.step (updCtx_frame _ _ _) ?_
      exact hx2
    · exact (OnlyChanges.refl _ s)

theorem execCallm_frame a1 (s : State) : OnlyChangesQ [.funcs, .ctxs, .engineFree, .cache, .locks, .journal, .groups, .vols, .mports, .movers, .progs, .errLog, .errSeq, .defLog, .defSeq, .rb, .freeCtr, .seqCtr] s (execCallm a1 s) := by
  unfold execCallm
  refine OnlyChanges.ite4 ?_ ?_
  · exact OnlyChangesQ.fault
  · refine runIns_frame ?_ ?_
    · intro x1 x2 hx2
      extract_lets -merge -underBinder +onlyGivenNames x3
      clear_value x3
      refine OnlyChanges.ite1 ?_ ?_
      · refine OnlyChanges.step (fatal_frame _ _ _ _) ?_
        exact hx2
      · split
        · rename_i x4 x5 x6
          have hx5 : OnlyChanges [.funcs, .ctxs, .engineFree, .cache, .locks, .journal, .groups, .vols, .mports, .movers, .progs, .errLog, .errSeq, .defLog, .defSeq, .rb, .freeCtr, .seqCtr] s x5 := by
            refine OnlyChangesP.of_eq x6 ?_
            refine OnlyChangesP.step (drawFree_frame _) ?_
            exact hx2
          split
          · refine OnlyChanges.step (complete_frame _ _ _) ?_
            exact hx5
          · extract_lets -merge -underBinder +onlyGivenNames x7
            clear_value x7
            refine OnlyChanges.step (complete_frame _ _ _) ?_
            exact hx5
    · exact (OnlyChanges.refl _ s)

theorem execCld_frame a1 (s : State) : OnlyChangesQ [.funcs, .ctxs, .engineFree, .cache, .locks, .journal, .groups, .vols, .mports, .movers, .progs, .errLog, .errSeq, .defLog, .defSeq, .rb, .seqCtr] s (execCld a1 s) := by
  unfold execCld
  refine runIns_frame ?_ ?_
  · intro x1 x2 hx2
    extract_lets -merge -underBinder +onlyGivenNames x3
    clear_value x3
    refine OnlyChanges.step (completeD_frame _ _ _) ?_
    exact hx2
  · exact (OnlyChanges.refl _ s)

theorem execCst_frame a1 (s : State) : OnlyChangesQ [.funcs, .ctxs, .engineFree, .cache, .locks, .journal, .groups, .vols, .mports, .movers, .progs, .errLog, .errSeq, .defLog, .defSeq, .rb, .seqCtr] s (execCst a1 s) := by
  unfold execCst
  refine runIns_frame ?_ ?_
  · intro x1 x2 hx2
    extract_lets -merge -underBinder +onlyGivenNames x3
    clear_value x3
    refine OnlyChanges.step (complete_frame _ _ _) ?_
    exact hx2
  · exact (OnlyChanges.refl _ s)

theorem execDlleft_frame a1 (s : State) : OnlyChangesQ [.funcs, .ctxs, .engineFree, .cache, .locks, .journal, .groups, .vols, .mports, .movers, .progs, .errLog, .errSeq, .defLog, .defSeq, .rb, .seqCtr] s (execDlleft a1 s) := by
  unfold execDlleft
  refine runIns_frame ?_ ?_
  · intro x1 x2 hx2
    refine OnlyChanges.step (completeD_frame _ _ _) ?_
    exact hx2
  · exact (OnlyChanges.refl _ s)

theorem execDlset_frame a1 (s : State) : OnlyChangesQ [.funcs, .ctxs, .engineFree, .cache, .locks, .journal, .groups, .vols, .mports, .movers, .progs, .errLog, .errSeq, .defLog, .defSeq, .rb, .seqCtr] s (execDlset a1 s) := by
  unfold execDlset
  refine runIns_frame ?_ ?_
  · intro x1 x2 hx2
    extract_lets -merge -underBinder +onlyGivenNames x3
    clear_value x3
    refine OnlyChanges.step (complete_frame _ _ _) ?_
    exact hx2
  · exact (OnlyChanges.refl _ s)

theorem execGinfo_frame a1 (s : State) : OnlyChangesQ [.funcs, .ctxs, .engineFree, .cache, .locks, .journal, .groups, .vols, .mports, .movers, .progs, .errLog, .errSeq, .defLog, .defSeq, .rb, .freeCtr, .seqCtr] s (execGinfo a1 s) := by
  unfold execGinfo
  refine runIns_frame ?_ ?_
  · intro x1 x2 hx2
    split
    · refine OnlyChanges.step (completeD_frame _ _ _) ?_
      exact hx2
    · split
      · rename_i x3 x4 x5
        have hx4 : OnlyChanges [.funcs, .ctxs, .engineFree, .cache, .locks, .journal, .groups, .vols, .mports, .movers, .progs, .errLog, .errSeq, .defLog, .defSeq, .rb, .freeCtr, .seqCtr] s x4 := by
          refine OnlyChangesP.of_eq x5 ?_
          refine OnlyChangesP.step (drawFree_frame _) ?_
          exact hx2
        refine OnlyChanges.step (completeD_frame _ _ _) ?_
        exact hx4
  · exact (OnlyChanges.refl _ s)

theorem execLds_frame a1 (s : State) : OnlyChangesQ [.funcs, .ctxs, .engineFree, .cache, .locks, .journal, .groups, .vols, .mports, .movers, .progs, .errLog, .errSeq, .defLog, .defSeq, .rb, .seqCtr] s (execLds a1 s) := by
  unfold execLds
  refine runIns_frame ?_ ?_
  · intro x1 x2 hx2
    extract_lets -merge -underBinder +onlyGivenNames x3 x4
    clear_value x3
    clear_value x4
    refine OnlyChanges.step (completeD_frame _ _ _) ?_
    exact hx2
  · exact (OnlyChanges.refl _ s)

theorem execLockWatchdog_frame a1 a2 (s : State) : OnlyChangesQ [.ctxs, .locks, .seqCtr] s (execLockWatchdog a1 a2 s) := by
  unfold execLockWatchdog
  refine OnlyChangesQ.next ?_
  split
  · exact (OnlyChanges.refl _ s)
  · split
    · exact (OnlyChanges.refl _ s)
    · extract_lets -merge -underBinder +onlyGivenNames x1
      have hx1 : OnlyChanges [.ctxs, .locks, .seqCtr] s x1 := by
        unfold x1
        refine OnlyChanges.step (updLock_frame _ _ _ _) ?_
        exact (OnlyChanges.refl _ s)
      clear_value x1
      refine OnlyChanges.ite1 ?_ ?_
      · exact (OnlyChanges.refl _ s)
      · split
        · exact hx1
        · extract_lets -merge -underBinder +onlyGivenNames x2
          have hx2 : OnlyChanges [.ctxs, .locks, .seqCtr] s x2 := by
            unfold x2
            refine OnlyChanges.step (updCtx_frame _ _ _) ?_
            exact hx1
          clear_value x2
          refine OnlyChanges.ite1 ?_ ?_
          · refine OnlyChanges.step (wake_frame _ _) ?_
            exact OnlyChanges.of hx2 (by intro p hp; cases p <;> first | exact absurd (by decide) hp | exact rfl)
          · exact hx2

theorem execLoop_frame a1 (s : State) : OnlyChangesQ [.funcs, .ctxs, .engineFree, .cache, .locks, .journal, .groups, .vols, .mports, .movers, .progs, .errLog, .errSeq, .defLog, .defSeq, .rb, .seqCtr] s (execLoop a1 s) := by
  unfold execLoop
  refine runIns_frame ?_ ?_
  · intro x1 x2 hx2
    extract_lets -merge -underBinder +onlyGivenNames x3
    clear_value x3
    refine OnlyChanges.step (updCtx_frame _ _ _) ?_
    exact hx2
  · exact (OnlyChanges.refl _ s)

theorem execRet_frame a1 (s : State) : OnlyChangesQ [.funcs, .ctxs, .engineFree, .cache, .locks, .journal, .groups, .vols, .mports, .movers, .progs, .errLog, .errSeq, .defLog, .defSeq, .rb, .freeCtr, .seqCtr] s (execRet a1 s) := by
  unfold execRet
  refine runIns_frame ?_ ?_
  · intro x1 x2 hx2
    refine OnlyChanges.ite1 ?_ ?_
    · split
      · rename_i x3 x4 x5
        have hx4 : OnlyChanges [.funcs, .ctxs, .engineFree, .cache, .locks, .journal, .groups, .vols, .mports, .movers, .progs, .errLog, .errSeq, .defLog, .defSeq, .rb, .freeCtr, .seqCtr] s x4 := by
          refine OnlyChangesP.of_eq x5 ?_
          refine OnlyChangesP.step (drawFree_frame _) ?_
          exact hx2
        refine OnlyChanges.step (updCtx_frame _ _ _) ?_
        exact hx4
    · refine OnlyChanges.step (updCtx_frame _ _ _) ?_
      exact hx2
  · exact (OnlyChanges.refl _ s)

theorem execRfault_frame a1 (s : State) : OnlyChangesQ [.funcs, .ctxs, .engineFree, .cache, .locks, .journal, .groups, .vols, .mports, .movers, .progs, .errLog, .errSeq, .defLog, .defSeq, .rb, .seqCtr] s (execRfault a1 s) := by
  unfold execRfault
  refine runIns_frame ?_ ?_
  · intro x1 x2 hx2
    extract_lets -merge -underBinder +onlyGivenNames x3
    have hx3 : OnlyChanges [.funcs, .ctxs, .engineFree, .cache, .locks, .journal, .groups, .vols, .mports, .movers, .progs, .errLog, .errSeq, .defLog, .defSeq, .rb, .seqCtr] s x3 := by
      unfold x3
      refine OnlyChanges.ite1 ?_ ?_
      · exact OnlyChanges.of hx2 (by intro p hp; cases p <;> first | exact absurd (by decide) hp | exact rfl)
      · exact hx2
    clear_value x3
    refine OnlyChanges.step (updCtx_frame _ _ _) ?_
    exact hx3
  · exact (OnlyChanges.refl _ s)

theorem yieldCtx_frame (s : State) a2 : OnlyChanges [.ctxs, .engineFree, .seqCtr] s (yieldCtx s a2) := by
  unfold yieldCtx
  refine OnlyChanges.step (wake_frame _ _) ?_
  refine OnlyChanges.step (leaveSlot_frame _ _) ?_
  exact (OnlyChanges.refl _ s)

theorem slotAssign_frame (s : State) a2 : OnlyChanges [.ctxs, .engineFree, .seqCtr] s (slotAssign s a2) := by
  unfold slotAssign
  split
  · split
    · refine OnlyChanges.step (enterSlot_frame _ _ _ _) ?_
      exact (OnlyChanges.refl _ s)
    · split
      · refine OnlyChanges.step (enterSlot_frame _ _ _ _) ?_
        exact (OnlyChanges.refl _ s)
      · split
        · exact (OnlyChanges.refl _ s)
        · split
          · exact (OnlyChanges.refl _ s)
          · refine OnlyChanges.step (enterSlot_frame _ _ _ _) ?_
            refine OnlyChanges.step (yieldCtx_frame _ _) ?_
            exact (OnlyChanges.refl _ s)
  · split
    · exact (OnlyChanges.refl _ s)
    · split
      · refine OnlyChanges.step (enterSlot_frame _ _ _ _) ?_
        exact (OnlyChanges.refl _ s)
      · exact (OnlyChanges.refl _ s)

theorem execSlotAssign_frame a1 (s : State) : OnlyChangesQ [.ctxs, .engineFree, .seqCtr] s (execSlotAssign a1 s) := by
  unfold execSlotAssign
  refine OnlyChangesQ.next ?_
  refine OnlyChanges.step (slotAssign_frame _ _) ?_
  exact (OnlyChanges.refl _ s)

theorem execTtnow_frame a1 (s : State) : OnlyChangesQ [.funcs, .ctxs, .engineFree, .cache, .locks, .journal, .groups, .vols, .mports, .movers, .progs, .errLog, .errSeq, .defLog, .defSeq, .rb, .seqCtr] s (execTtnow a1 s) := by
  unfold execTtnow
  refine runIns_frame ?_ ?_
  · intro x1 x2 hx2
    refine OnlyChanges.step (completeD_frame _ _ _) ?_
    exact hx2
  · exact (OnlyChanges.refl _ s)

theorem execWait_frame a1 (s : State) : OnlyChangesQ [.funcs, .ctxs, .engineFree, .cache, .locks, .journal, .groups, .vols, .mports, .movers, .progs, .errLog, .errSeq, .defLog, .defSeq, .rb, .seqCtr] s (execWait a1 s) := by
  unfold execWait
  refine runIns_frame ?_ ?_
  · intro x1 x2 hx2
    extract_lets -merge -underBinder +onlyGivenNames x3 x4
    have hx3 : OnlyChanges [.funcs, .ctxs, .engineFree, .cache, .locks, .journal, .groups, .vols, .mports, .movers, .progs, .errLog, .errSeq, .defLog, .defSeq, .rb, .seqCtr] s x3 := by
      unfold x3
      refine OnlyChanges.step (complete_frame _ _ _) ?_
      exact hx2
    clear_value x3
    clear_value x4
    refine OnlyChanges.ite1 ?_ ?_
    · refine OnlyChanges.step (startWait_frame _ _ _) ?_
      exact hx3
    · refine OnlyChanges.ite1 ?_ ?_
      · refine OnlyChanges.step (yieldCtx_frame _ _) ?_
        exact hx3
      · refine OnlyChanges.step (startWait_frame _ _ _) ?_
        exact hx3
  · exact (OnlyChanges.refl _ s)

theorem execWaitExpiry_frame a1 (s : State) : OnlyChangesQ [.ctxs, .seqCtr] s (execWaitExpiry a1 s) := by
  unfold execWaitExpiry
  refine OnlyChangesQ.next ?_
  split
  · exact (OnlyChanges.refl _ s)
  · split
    · refine OnlyChanges.ite1 ?_ ?_
      · refine OnlyChanges.step (wake_frame _ _) ?_
        exact (OnlyChanges.refl _ s)
      · exact (OnlyChanges.refl _ s)
    · exact (OnlyChanges.refl _ s)

theorem execXtl_frame a1 (s : State) : OnlyChangesQ [.funcs, .ctxs, .engineFree, .cache, .locks, .journal, .groups, .vols, .mports, .movers, .progs, .errLog, .errSeq, .defLog, .defSeq, .rb, .seqCtr] s (execXtl a1 s) := by
  unfold execXtl
  refine runIns_frame ?_ ?_
  · intro x1 x2 hx2
    refine OnlyChanges.step (completeD_frame _ _ _) ?_
    exact hx2
  · exact (OnlyChanges.refl _ s)

theorem execYield_frame a1 (s : State) : OnlyChangesQ [.funcs, .ctxs, .engineFree, .cache, .locks, .journal, .groups, .vols, .mports, .movers, .progs, .errLog, .errSeq, .defLog, .defSeq, .rb, .seqCtr] s (execYield a1 s) := by
  unfold execYield
  refine runIns_frame ?_ ?_
  · intro x1 x2 hx2
    refine OnlyChanges.step (yieldCtx_frame _ _) ?_
    refine OnlyChanges.step (complete_frame _ _ _) ?_
    exact hx2
  · exact (OnlyChanges.refl _ s)

end Sys2Proof.Machine
end

