-- ==== Sys2Proof/Laws/FramesGfIns.lean ====
section
/-! SUPPORT. Which parts of the state each function of Machine/GfIns.lean can change. -/

set_option Elab.async false

namespace Sys2Proof.Machine

theorem execCmpv_frame a1 (s : State) : OnlyChangesQ [.funcs, .ctxs, .engineFree, .cache, .locks, .journal, .groups, .vols, .mports, .movers, .progs, .errLog, .errSeq, .defLog, .defSeq, .rb, .seqCtr] s (execCmpv a1 s) := by
  unfold execCmpv
  refine runIns_frame ?_ ?_
  · intro x1 x2 hx2
    extract_lets -merge -underBinder +onlyGivenNames x3 x4 x5 x6 x7
    clear_value x3
    clear_value x4
    clear_value x5
    clear_value x6
    clear_value x7
    refine OnlyChanges.ite1 ?_ ?_
    · refine OnlyChanges.step (complete_frame _ _ _) ?_
      exact hx2
    · split
      · refine OnlyChanges.step (poisonFault_frame _ _ _) ?_
        exact hx2
      · refine OnlyChanges.step (complete_frame _ _ _) ?_
        exact hx2
  · exact (OnlyChanges.refl _ s)

theorem markDsts_frame (s : State) a2 a3 a4 a5 : OnlyChanges [.cache] s (markDsts s a2 a3 a4 a5) := by
  unfold markDsts
  refine OnlyChanges.foldl (fun x1 x2 hx1 => ?_) ?_
  · split
    · exact hx1
    · refine OnlyChanges.step (updFrame_frame _ _ _) ?_
      exact hx1
  · exact (OnlyChanges.refl _ s)

theorem writeColumn_frame (s : State) a2 a3 a4 a5 a6 : OnlyChanges [.cache] s (writeColumn s a2 a3 a4 a5 a6) := by
  induction a6 generalizing s with
  | nil => exact OnlyChanges.refl _ s
  | cons x xs ih =>
    obtain ⟨j, m⟩ := x
    unfold writeColumn
    refine OnlyChanges.step (ih _) ?_
    split
    · exact OnlyChanges.refl _ s
    · exact OnlyChanges.step (updFrame_frame _ _ _) (OnlyChanges.refl _ s)

theorem runColumns_frame a1 a2 a3 a4 a5 a6 (s : State) : OnlyChanges [.cache] s (runColumns a1 a2 a3 a4 a5 a6 s).1 := by
  induction a5 generalizing s a6 with
  | zero => exact OnlyChanges.refl _ s
  | succ n ih =>
    unfold runColumns
    split
    · exact OnlyChanges.refl _ s
    · exact OnlyChanges.step (ih _ _) (OnlyChanges.step (writeColumn_frame _ _ _ _ _ _) (OnlyChanges.refl _ s))

theorem vecRun_frame a1 (s : State) a3 a4 : OnlyChanges [.funcs, .ctxs, .engineFree, .cache, .locks, .journal, .groups, .vols, .mports, .movers, .progs, .errLog, .errSeq, .defLog, .defSeq, .rb, .seqCtr] s (vecRun a1 s a3 a4) := by
  unfold vecRun
  dsimp only
  have h : ∀ src dst v op n k, OnlyChanges [.funcs, .ctxs, .engineFree, .cache, .locks, .journal, .groups, .vols, .mports, .movers, .progs, .errLog, .errSeq, .defLog, .defSeq, .rb, .seqCtr] s (runColumns src dst v op n k (markDsts s dst v op.dsts false)).1 := fun _ _ _ _ _ _ =>
    OnlyChanges.step (runColumns_frame _ _ _ _ _ _ _) (OnlyChanges.step (markDsts_frame _ _ _ _ _) (OnlyChanges.refl _ s))
  refine OnlyChanges.ite1 (OnlyChanges.step (complete_frame _ _ _) (OnlyChanges.refl _ s)) ?_
  split
  · rename_i e
    refine OnlyChanges.step (poisonFault_frame _ _ _) ?_
    have := h (handleOf a3 (a1.immBits 4 4)) (handleOf a3 (a1.immBits 0 4)) (vecOf (a1.ga a3)) a4 (vecOf (a1.ga a3)).len 0
    rwa [e] at this
  · rename_i e
    refine OnlyChanges.step (complete_frame _ _ _) (OnlyChanges.step (markDsts_frame _ _ _ _ _) ?_)
    have := h (handleOf a3 (a1.immBits 4 4)) (handleOf a3 (a1.immBits 0 4)) (vecOf (a1.ga a3)) a4 (vecOf (a1.ga a3)).len 0
    rwa [e] at this

theorem execGmulv_frame a1 (s : State) : OnlyChangesQ [.funcs, .ctxs, .engineFree, .cache, .locks, .journal, .groups, .vols, .mports, .movers, .progs, .errLog, .errSeq, .defLog, .defSeq, .rb, .seqCtr] s (execGmulv a1 s) := by
  unfold execGmulv
  refine runIns_frame ?_ ?_
  · intro x1 x2 hx2
    refine OnlyChanges.step (vecRun_frame _ _ _ _) ?_
    exact hx2
  · exact (OnlyChanges.refl _ s)

theorem execPqdelta_frame a1 (s : State) : OnlyChangesQ [.funcs, .ctxs, .engineFree, .cache, .locks, .journal, .groups, .vols, .mports, .movers, .progs, .errLog, .errSeq, .defLog, .defSeq, .rb, .seqCtr] s (execPqdelta a1 s) := by
  unfold execPqdelta
  refine runIns_frame ?_ ?_
  · intro x1 x2 hx2
    extract_lets -merge -underBinder +onlyGivenNames x3 x4
    clear_value x3
    clear_value x4
    refine OnlyChanges.step (vecRun_frame _ _ _ _) ?_
    exact hx2
  · exact (OnlyChanges.refl _ s)

theorem execPqgen_frame a1 (s : State) : OnlyChangesQ [.funcs, .ctxs, .engineFree, .cache, .locks, .journal, .groups, .vols, .mports, .movers, .progs, .errLog, .errSeq, .defLog, .defSeq, .rb, .seqCtr] s (execPqgen a1 s) := by
  unfold execPqgen
  refine runIns_frame ?_ ?_
  · intro x1 x2 hx2
    extract_lets -merge -underBinder +onlyGivenNames x3 x4
    clear_value x3
    clear_value x4
    refine OnlyChanges.step (vecRun_frame _ _ _ _) ?_
    exact hx2
  · exact (OnlyChanges.refl _ s)

theorem execPqsolve1_frame a1 (s : State) : OnlyChangesQ [.funcs, .ctxs, .engineFree, .cache, .locks, .journal, .groups, .vols, .mports, .movers, .progs, .errLog, .errSeq, .defLog, .defSeq, .rb, .seqCtr] s (execPqsolve1 a1 s) := by
  unfold execPqsolve1
  refine runIns_frame ?_ ?_
  · intro x1 x2 hx2
    extract_lets -merge -underBinder +onlyGivenNames x3 x4 x5
    clear_value x3
    clear_value x4
    clear_value x5
    refine OnlyChanges.step (vecRun_frame _ _ _ _) ?_
    exact hx2
  · exact (OnlyChanges.refl _ s)

theorem execPqsolve2_frame a1 (s : State) : OnlyChangesQ [.funcs, .ctxs, .engineFree, .cache, .locks, .journal, .groups, .vols, .mports, .movers, .progs, .errLog, .errSeq, .defLog, .defSeq, .rb, .seqCtr] s (execPqsolve2 a1 s) := by
  unfold execPqsolve2
  refine runIns_frame ?_ ?_
  · intro x1 x2 hx2
    extract_lets -merge -underBinder +onlyGivenNames x3 x4 x5 x6
    clear_value x3
    clear_value x4
    clear_value x5
    clear_value x6
    refine OnlyChanges.step (vecRun_frame _ _ _ _) ?_
    exact hx2
  · exact (OnlyChanges.refl _ s)

theorem execXorv_frame a1 (s : State) : OnlyChangesQ [.funcs, .ctxs, .engineFree, .cache, .locks, .journal, .groups, .vols, .mports, .movers, .progs, .errLog, .errSeq, .defLog, .defSeq, .rb, .seqCtr] s (execXorv a1 s) := by
  unfold execXorv
  refine runIns_frame ?_ ?_
  · intro x1 x2 hx2
    extract_lets -merge -underBinder +onlyGivenNames x3
    clear_value x3
    refine OnlyChanges.step (vecRun_frame _ _ _ _) ?_
    exact hx2
  · exact (OnlyChanges.refl _ s)

end Sys2Proof.Machine
end

