-- ==== Sys2Proof/Laws/FramesIoCmds.lean ====
section
/-! SUPPORT. Which parts of the state each function of Machine/IoCmds.lean can change. -/

set_option Elab.async false

namespace Sys2Proof.Machine

theorem countPoison_frame (s : State) a2 a3 a4 : OnlyChanges [.ports, .funcs, .fresh, .out] s (countPoison s a2 a3 a4) := by
  unfold countPoison
  refine OnlyChanges.ite1 ?_ ?_
  · refine OnlyChanges.foldl (fun x1 x2 hx1 => ?_) ?_
    · refine OnlyChanges.step (poisonIn_frame _ _) ?_
      exact hx1
    · exact (OnlyChanges.refl _ s)
  · exact (OnlyChanges.refl _ s)

theorem finishIo_frame (s : State) a2 a3 a4 : OnlyChanges [.funcs, .ctxs, .engineFree, .cache, .locks, .journal, .groups, .mports, .movers, .progs, .rb, .seqCtr] s (finishIo s a2 a3 a4) := by
  unfold finishIo
  refine OnlyChanges.step (endThread_frame _ _) ?_
  refine OnlyChanges.step (postCtx_frame _ _ _) ?_
  refine OnlyChanges.step (updCtx_frame _ _ _) ?_
  exact (OnlyChanges.refl _ s)

theorem storeBlocks_frame a1 a2 a3 (s : State) : OnlyChangesO [.cache, .freeCtr] s (storeBlocks a1 a2 a3 s) := by
  induction a3 generalizing s a2 with
  | nil => exact OnlyChangesO.some (OnlyChanges.refl _ s)
  | cons x xs ih =>
    obtain ⟨b, pi⟩ := x
    unfold storeBlocks
    split
    · exact OnlyChangesO.none
    · rename_i e
      have h := OnlyChangesOP.of_eq e (OnlyChangesOP.step (allocFrame_frame _ _) (OnlyChanges.refl [.cache, .freeCtr] s))
      refine OnlyChangesO.step (ih _ _) (OnlyChanges.step (unpinFrame_frame _ _) (OnlyChanges.step (clearPoison_frame _ _ _) ?_))
      exact OnlyChanges.step (mapDirty_frame _ _ _ _) h

theorem storeNow_frame (s : State) a2 a3 a4 a5 a6 : OnlyChanges [.funcs, .ctxs, .engineFree, .cache, .locks, .journal, .groups, .mports, .movers, .progs, .rb, .freeCtr, .seqCtr] s (storeNow s a2 a3 a4 a5 a6) := by
  unfold storeNow
  refine OnlyChanges.ite1 ?_ ?_
  · refine OnlyChanges.step (finishIo_frame _ _ _ _) ?_
    exact (OnlyChanges.refl _ s)
  · refine OnlyChanges.ite1 ?_ ?_
    · refine OnlyChanges.step (startWait_frame _ _ _) ?_
      exact (OnlyChanges.refl _ s)
    · split
      · refine OnlyChanges.step (startWait_frame _ _ _) ?_
        exact (OnlyChanges.refl _ s)
      · rename_i x2 x3
        have hx2 : OnlyChanges [.funcs, .ctxs, .engineFree, .cache, .locks, .journal, .groups, .mports, .movers, .progs, .rb, .freeCtr, .seqCtr] s x2 := by
          refine OnlyChangesO.of_eq x3 ?_
          refine OnlyChangesO.step (storeBlocks_frame _ _ _ _) ?_
          exact (OnlyChanges.refl _ s)
        extract_lets -merge -underBinder +onlyGivenNames x4
        clear_value x4
        refine OnlyChanges.step (finishIo_frame _ _ _ _) ?_
        exact hx2

theorem zeroCmd_frame (s : State) a2 a3 a4 : OnlyChanges [.funcs, .ctxs, .engineFree, .cache, .locks, .journal, .groups, .mports, .movers, .progs, .rb, .freeCtr, .seqCtr] s (zeroCmd s a2 a3 a4) := by
  unfold zeroCmd
  split
  · exact (OnlyChanges.refl _ s)
  · split
    · exact (OnlyChanges.refl _ s)
    · extract_lets -merge -underBinder +onlyGivenNames x1
      clear_value x1
      refine OnlyChanges.step (storeNow_frame _ _ _ _ _ _) ?_
      exact (OnlyChanges.refl _ s)

theorem execDeallocate_frame a1 (s : State) : OnlyChangesQ [.funcs, .ctxs, .engineFree, .cache, .locks, .journal, .groups, .mports, .movers, .progs, .rb, .freeCtr, .seqCtr] s (execDeallocate a1 s) := by
  unfold execDeallocate
  refine OnlyChangesQ.next ?_
  refine OnlyChanges.step (zeroCmd_frame _ _ _ _) ?_
  exact (OnlyChanges.refl _ s)

theorem flushCmd_frame (s : State) a2 a3 : OnlyChanges [.funcs, .ctxs, .engineFree, .cache, .locks, .journal, .groups, .mports, .movers, .progs, .rb, .seqCtr] s (flushCmd s a2 a3) := by
  unfold flushCmd
  split
  · refine OnlyChanges.ite1 ?_ ?_
    · refine OnlyChanges.step (finishIo_frame _ _ _ _) ?_
      exact (OnlyChanges.refl _ s)
    · exact (OnlyChanges.refl _ s)
  · exact (OnlyChanges.refl _ s)

theorem execFlush_frame a1 (s : State) : OnlyChangesQ [.funcs, .ctxs, .engineFree, .cache, .locks, .journal, .groups, .mports, .movers, .progs, .rb, .seqCtr] s (execFlush a1 s) := by
  unfold execFlush
  refine OnlyChangesQ.next ?_
  refine OnlyChanges.step (flushCmd_frame _ _ _) ?_
  exact (OnlyChanges.refl _ s)

theorem execFlushDestage_frame a1 (s : State) : OnlyChangesQ [.funcs, .ctxs, .engineFree, .cache, .locks, .journal, .groups, .mports, .movers, .progs, .rb, .seqCtr] s (execFlushDestage a1 s) := by
  unfold execFlushDestage
  refine OnlyChangesQ.next ?_
  refine OnlyChanges.step (flushCmd_frame _ _ _) ?_
  exact (OnlyChanges.refl _ s)

/-- What the descriptor of a command can do when it cannot be given at once. -/
theorem ioDesc_frame {t : State} (s : State) a2 a3 (e : ioDesc s a2 a3 = .inr t) : OnlyChanges [.funcs, .reads, .nextTag, .ctxs, .engineFree, .cache, .locks, .journal, .groups, .mports, .movers, .progs, .rb, .out, .freeCtr, .seqCtr] s t := by
  unfold ioDesc at e
  have r := OnlyChanges.refl [.funcs, .reads, .nextTag, .ctxs, .engineFree, .cache, .locks, .journal, .groups, .mports, .movers, .progs, .rb, .out, .freeCtr, .seqCtr] s
  repeat' split at e
  all_goals try cases e
  · exact OnlyChanges.step (finishIo_frame _ _ _ _) r
  · exact OnlyChanges.step (finishIo_frame _ _ _ _) r
  · exact OnlyChanges.step (startWait_frame _ _ _) r
  · exact OnlyChanges.step (startWait_frame _ _ _) r
  · rename_i e
    refine OnlyChanges.step (askList_frame _ _) (OnlyChanges.step (startWait_frame _ _ _) (OnlyChanges.step (setHandle_frame _ _ _ _) ?_))
    exact OnlyChangesOP.of_eq e (OnlyChangesOP.step (allocFrame_frame _ _) r)

theorem pageWait_frame (s : State) a2 a3 a4 a5 a6 a7 : OnlyChanges [.funcs, .reads, .nextTag, .ctxs, .engineFree, .cache, .locks, .journal, .groups, .vols, .mports, .movers, .xlate, .progs, .errLog, .errSeq, .defLog, .defSeq, .rb, .out, .seqCtr] s (pageWait s a2 a3 a4 a5 a6 a7) := by
  unfold pageWait
  split
  · refine OnlyChanges.step (raiseTranslation_frame _ _ _ _ _ _) ?_
    refine OnlyChanges.step (leaveSlot_frame _ _) ?_
    exact (OnlyChanges.refl _ s)
  · refine OnlyChanges.step (lookAhead_frame _ _ _ _ _) ?_
    exact (OnlyChanges.refl _ s)
  · exact (OnlyChanges.refl _ s)

theorem laneTimeout_frame (s : State) a2 a3 a4 a5 a6 : OnlyChanges [.adm, .funcs, .ctxs, .cache, .locks, .journal, .groups, .vols, .mports, .mem, .errLog, .errSeq, .defLog, .defSeq, .rb, .fresh, .out, .seqCtr] s (laneTimeout s a2 a3 a4 a5 a6) := by
  unfold laneTimeout
  extract_lets -merge -underBinder +onlyGivenNames x1 x2 x3
  clear_value x1
  have hx2 : OnlyChanges [.adm, .funcs, .ctxs, .cache, .locks, .journal, .groups, .vols, .mports, .mem, .errLog, .errSeq, .defLog, .defSeq, .rb, .fresh, .out, .seqCtr] s x2 := by
    unfold x2
    refine OnlyChanges.step (logTimeout_frame _ _ _ _) ?_
    refine OnlyChanges.step (noteLate_frame _ _ _) ?_
    exact (OnlyChanges.refl _ s)
  clear_value x2
  have hx3 : OnlyChanges [.adm, .funcs, .ctxs, .cache, .locks, .journal, .groups, .vols, .mports, .mem, .errLog, .errSeq, .defLog, .defSeq, .rb, .fresh, .out, .seqCtr] s x3 := by
    unfold x3
    refine OnlyChanges.step (updMport_frame _ _ _) ?_
    exact hx2
  clear_value x3
  refine OnlyChanges.step (countTimeout_frame _ _) ?_
  refine OnlyChanges.step (quarantineId_frame _ _ _ _) ?_
  exact hx3

theorem stripUnread_frame (s : State) a2 a3 a4 : OnlyChanges [.adm, .funcs, .ctxs, .cache, .locks, .journal, .groups, .vols, .mports, .mem, .errLog, .errSeq, .defLog, .defSeq, .rb, .fresh, .out, .seqCtr] s (stripUnread s a2 a3 a4) := by
  unfold stripUnread
  refine OnlyChanges.step (mediaEvent_frame _ _ _) ?_
  refine OnlyChanges.step (degradeUnread_frame _ _ _ _) ?_
  exact (OnlyChanges.refl _ s)

theorem laneEvent_frame a1 a2 a3 a4 a5 a6 (s : State) a8 : OnlyChanges [.adm, .funcs, .ctxs, .cache, .locks, .journal, .groups, .vols, .mports, .mem, .errLog, .errSeq, .defLog, .defSeq, .rb, .fresh, .out, .seqCtr] s (laneEvent a1 a2 a3 a4 a5 a6 s a8) := by
  unfold laneEvent
  split
  · extract_lets -merge -underBinder +onlyGivenNames x1
    have hx1 : OnlyChanges [.adm, .funcs, .ctxs, .cache, .locks, .journal, .groups, .vols, .mports, .mem, .errLog, .errSeq, .defLog, .defSeq, .rb, .fresh, .out, .seqCtr] s x1 := by
      unfold x1
      refine OnlyChanges.step (countUnits_frame _ _ _ _) ?_
      exact (OnlyChanges.refl _ s)
    clear_value x1
    split
    · refine OnlyChanges.ite1 ?_ ?_
      · refine OnlyChanges.step (stripUnread_frame _ _ _ _) ?_
        exact hx1
      · exact hx1
    · refine OnlyChanges.step (laneTimeout_frame _ _ _ _ _ _) ?_
      exact hx1
    · refine OnlyChanges.step (stripUnread_frame _ _ _ _) ?_
      exact hx1
    · refine OnlyChanges.step (stripUnread_frame _ _ _ _) ?_
      exact hx1
    · exact hx1
  · exact (OnlyChanges.refl _ s)

theorem laneEvents_frame (s : State) a2 a3 a4 a5 a6 : OnlyChanges [.adm, .funcs, .ctxs, .cache, .locks, .journal, .groups, .vols, .mports, .mem, .errLog, .errSeq, .defLog, .defSeq, .rb, .fresh, .out, .seqCtr] s (laneEvents s a2 a3 a4 a5 a6) := by
  unfold laneEvents
  refine OnlyChanges.foldl (fun x1 x2 hx1 => ?_) ?_
  · refine OnlyChanges.step (laneEvent_frame _ _ _ _ _ _ _ _) ?_
    exact hx1
  · exact (OnlyChanges.refl _ s)

theorem noteBlock_frame a1 a2 a3 a4 a5 a6 (s : State) a8 : OnlyChanges [.adm, .funcs, .ctxs, .cache, .locks, .journal, .groups, .vols, .mports, .mem, .errLog, .errSeq, .defLog, .defSeq, .rb, .fresh, .out, .seqCtr] s (noteBlock a1 a2 a3 a4 a5 a6 s a8) := by
  unfold noteBlock
  split
  · extract_lets -merge -underBinder +onlyGivenNames x1
    clear_value x1
    split
    · refine OnlyChanges.step (mediaEvent_frame _ _ _) ?_
      exact (OnlyChanges.refl _ s)
    · exact (OnlyChanges.refl _ s)
  · extract_lets -merge -underBinder +onlyGivenNames x2
    have hx2 : OnlyChanges [.adm, .funcs, .ctxs, .cache, .locks, .journal, .groups, .vols, .mports, .mem, .errLog, .errSeq, .defLog, .defSeq, .rb, .fresh, .out, .seqCtr] s x2 := by
      unfold x2
      refine OnlyChanges.ite1 ?_ ?_
      · refine OnlyChanges.step (noteLate_frame _ _ _) ?_
        exact (OnlyChanges.refl _ s)
      · exact (OnlyChanges.refl _ s)
    clear_value x2
    refine OnlyChanges.ite1 ?_ ?_
    · refine OnlyChanges.step (noteLate_frame _ _ _) ?_
      exact hx2
    · exact hx2

theorem noteSlow_frame (s : State) a2 a3 a4 : OnlyChanges [.ctxs] s (noteSlow s a2 a3 a4) := by
  unfold noteSlow
  refine OnlyChanges.ite1 ?_ ?_
  · refine OnlyChanges.step (noteLate_frame _ _ _) ?_
    exact (OnlyChanges.refl _ s)
  · exact (OnlyChanges.refl _ s)

theorem sendBytes_frame a1 a2 a3 a4 a5 a6 (s : State) : OnlyChanges [.funcs, .fresh, .out] s (sendBytes a1 a2 a3 a4 a5 a6 s) := by
  induction a4 generalizing s a5 a6 with
  | zero => exact OnlyChanges.refl _ s
  | succ n ih =>
    have h : ∀ o, OnlyChanges [.funcs, .fresh, .out] s (emit s o) := fun o => OnlyChanges.step (emit_frame _ _) (OnlyChanges.refl _ s)
    unfold sendBytes
    dsimp only
    repeat' split
    all_goals first
      | exact OnlyChanges.refl _ s
      | exact OnlyChanges.step (ih _ _ _) (OnlyChanges.step (poisonOut_frame _ _) (h _))
      | exact OnlyChanges.step (ih _ _ _) (h _)

theorem sendBlocks_frame a1 a2 a3 a4 (s : State) : OnlyChanges [.funcs, .fresh, .out] s (sendBlocks a1 a2 a3 a4 s) := by
  unfold sendBlocks
  refine OnlyChanges.foldl (fun x1 x2 hx1 => ?_) ?_
  · refine OnlyChanges.step (sendBytes_frame _ _ _ _ _ _ _) ?_
    exact hx1
  · exact (OnlyChanges.refl _ s)

theorem readNow_frame (s : State) a2 a3 a4 a5 a6 a7 a8 : OnlyChanges [.adm, .funcs, .ctxs, .engineFree, .cache, .locks, .journal, .groups, .vols, .mports, .mem, .movers, .progs, .errLog, .errSeq, .defLog, .defSeq, .rb, .fresh, .out, .freeCtr, .seqCtr] s (readNow s a2 a3 a4 a5 a6 a7 a8) := by
  unfold readNow
  extract_lets -merge -underBinder +onlyGivenNames x1 x2 x3 x4 x5
  clear_value x1
  clear_value x2
  have hx3 : OnlyChanges [.adm, .funcs, .ctxs, .engineFree, .cache, .locks, .journal, .groups, .vols, .mports, .mem, .movers, .progs, .errLog, .errSeq, .defLog, .defSeq, .rb, .fresh, .out, .freeCtr, .seqCtr] s x3 := by
    unfold x3
    refine OnlyChanges.step (noteSlow_frame _ _ _ _) ?_
    refine OnlyChanges.step (laneEvents_frame _ _ _ _ _ _) ?_
    exact (OnlyChanges.refl _ s)
  clear_value x3
  have hx4 : OnlyChanges [.adm, .funcs, .ctxs, .engineFree, .cache, .locks, .journal, .groups, .vols, .mports, .mem, .movers, .progs, .errLog, .errSeq, .defLog, .defSeq, .rb, .fresh, .out, .freeCtr, .seqCtr] s x4 := by
    unfold x4
    refine OnlyChanges.foldl (fun x6 x7 hx6 => ?_) ?_
    · refine OnlyChanges.step (noteBlock_frame _ _ _ _ _ _ _ _) ?_
      exact hx6
    · exact hx3
  clear_value x4
  have hx5 : OnlyChanges [.adm, .funcs, .ctxs, .engineFree, .cache, .locks, .journal, .groups, .vols, .mports, .mem, .movers, .progs, .errLog, .errSeq, .defLog, .defSeq, .rb, .fresh, .out, .freeCtr, .seqCtr] s x5 := by
    unfold x5
    exact OnlyChanges.of hx4 (by intro p hp; cases p <;> first | exact absurd (by decide) hp | exact rfl)
  clear_value x5
  refine OnlyChanges.step (finishIo_frame _ _ _ _) ?_
  refine OnlyChanges.step (sendBlocks_frame _ _ _ _ _) ?_
  exact hx5

theorem execRead_frame a1 a2 (s : State) : OnlyChangesQ [.adm, .funcs, .reads, .nextTag, .ctxs, .engineFree, .cache, .locks, .journal, .groups, .vols, .mports, .mem, .movers, .xlate, .progs, .errLog, .errSeq, .defLog, .defSeq, .rb, .fresh, .out, .freeCtr, .seqCtr] s (execRead a1 a2 s) := by
  unfold execRead
  have r := OnlyChanges.refl [.adm, .funcs, .reads, .nextTag, .ctxs, .engineFree, .cache, .locks, .journal, .groups, .vols, .mports, .mem, .movers, .xlate, .progs, .errLog, .errSeq, .defLog, .defSeq, .rb, .fresh, .out, .freeCtr, .seqCtr] s
  refine OnlyChangesQ.next ?_
  split
  · exact r
  · refine OnlyChanges.ite1 (OnlyChanges.step (finishIo_frame _ _ _ _) r) ?_
    split
    · exact r
    · split
      · exact r
      · split
        · rename_i e
          exact OnlyChanges.step (ioDesc_frame _ _ _ e) r
        · split
          · exact OnlyChanges.step (pageWait_frame _ _ _ _ _ _ _) r
          · exact OnlyChanges.ite1 r (OnlyChanges.step (readNow_frame _ _ _ _ _ _ _ _) r)

theorem verifyUnit_frame (s : State) a2 a3 a4 a5 a6 : OnlyChanges [.adm, .funcs, .ctxs, .cache, .locks, .journal, .groups, .vols, .mports, .mem, .errLog, .errSeq, .defLog, .defSeq, .out, .freeCtr, .seqCtr] s (verifyUnit s a2 a3 a4 a5 a6) := by
  unfold verifyUnit
  extract_lets -merge -underBinder +onlyGivenNames x1
  have hx1 : OnlyChanges [.adm, .funcs, .ctxs, .cache, .locks, .journal, .groups, .vols, .mports, .mem, .errLog, .errSeq, .defLog, .defSeq, .out, .freeCtr, .seqCtr] s x1 := by
    unfold x1
    refine OnlyChanges.ite1 ?_ ?_
    · refine OnlyChanges.step (logErr_frame _ _ _ _ _) ?_
      exact (OnlyChanges.refl _ s)
    · exact (OnlyChanges.refl _ s)
  clear_value x1
  refine OnlyChanges.ite1 ?_ ?_
  · refine OnlyChanges.step (enterLost_frame _ _ _ _ _) ?_
    exact (OnlyChanges.refl _ s)
  · refine OnlyChanges.step (rewriteLanes_frame _ _ _ _ _ _ _) ?_
    exact hx1

theorem verifyNow_frame (s : State) a2 a3 a4 a5 a6 a7 : OnlyChanges [.adm, .funcs, .ctxs, .engineFree, .cache, .locks, .journal, .groups, .vols, .mports, .mem, .movers, .progs, .errLog, .errSeq, .defLog, .defSeq, .rb, .fresh, .out, .freeCtr, .seqCtr] s (verifyNow s a2 a3 a4 a5 a6 a7) := by
  unfold verifyNow
  extract_lets -merge -underBinder +onlyGivenNames x1 x2 x3
  clear_value x1
  clear_value x2
  have hx3 : OnlyChanges [.adm, .funcs, .ctxs, .engineFree, .cache, .locks, .journal, .groups, .vols, .mports, .mem, .movers, .progs, .errLog, .errSeq, .defLog, .defSeq, .rb, .fresh, .out, .freeCtr, .seqCtr] s x3 := by
    unfold x3
    refine OnlyChanges.foldl (fun x4 x5 hx4 => ?_) ?_
    · refine OnlyChanges.step (verifyUnit_frame _ _ _ _ _ _) ?_
      exact hx4
    · refine OnlyChanges.step (laneEvents_frame _ _ _ _ _ _) ?_
      exact (OnlyChanges.refl _ s)
  clear_value x3
  refine OnlyChanges.ite1 ?_ ?_
  · exact (OnlyChanges.refl _ s)
  · refine OnlyChanges.step (finishIo_frame _ _ _ _) ?_
    exact hx3

theorem execVerify_frame a1 a2 (s : State) : OnlyChangesQ [.adm, .funcs, .ctxs, .engineFree, .cache, .locks, .journal, .groups, .vols, .mports, .mem, .movers, .progs, .errLog, .errSeq, .defLog, .defSeq, .rb, .fresh, .out, .freeCtr, .seqCtr] s (execVerify a1 a2 s) := by
  unfold execVerify
  refine OnlyChangesQ.next ?_
  split
  · exact (OnlyChanges.refl _ s)
  · split
    · exact (OnlyChanges.refl _ s)
    · split
      · exact (OnlyChanges.refl _ s)
      · refine OnlyChanges.ite1 ?_ ?_
        · exact (OnlyChanges.refl _ s)
        · refine OnlyChanges.step (verifyNow_frame _ _ _ _ _ _ _) ?_
          exact (OnlyChanges.refl _ s)

theorem execWrite_frame a1 a2 a3 (s : State) : OnlyChangesQ [.ports, .funcs, .reads, .nextTag, .ctxs, .engineFree, .cache, .locks, .journal, .groups, .vols, .mports, .movers, .xlate, .progs, .errLog, .errSeq, .defLog, .defSeq, .rb, .fresh, .out, .freeCtr, .seqCtr] s (execWrite a1 a2 a3 s) := by
  unfold execWrite
  have r := OnlyChanges.refl [.ports, .funcs, .reads, .nextTag, .ctxs, .engineFree, .cache, .locks, .journal, .groups, .vols, .mports, .movers, .xlate, .progs, .errLog, .errSeq, .defLog, .defSeq, .rb, .fresh, .out, .freeCtr, .seqCtr] s
  have f : ∀ st, OnlyChanges [.ports, .funcs, .reads, .nextTag, .ctxs, .engineFree, .cache, .locks, .journal, .groups, .vols, .mports, .movers, .xlate, .progs, .errLog, .errSeq, .defLog, .defSeq, .rb, .fresh, .out, .freeCtr, .seqCtr] s (finishIo s a1 st false) := fun st => OnlyChanges.step (finishIo_frame _ _ _ _) r
  refine OnlyChangesQ.next ?_
  split
  · exact r
  · refine OnlyChanges.ite1 (f _) ?_
    split
    · exact r
    · split
      · rename_i e
        exact OnlyChanges.step (ioDesc_frame _ _ _ e) r
      · split
        · exact OnlyChanges.step (pageWait_frame _ _ _ _ _ _ _) r
        · refine OnlyChanges.ite1 r (OnlyChanges.ite1 (f _) ?_)
          split
          · exact r
          · exact OnlyChanges.step (storeNow_frame _ _ _ _ _ _) (OnlyChanges.step (countPoison_frame _ _ _ _) r)

theorem execWriteZeroes_frame a1 (s : State) : OnlyChangesQ [.funcs, .ctxs, .engineFree, .cache, .locks, .journal, .groups, .mports, .movers, .progs, .rb, .freeCtr, .seqCtr] s (execWriteZeroes a1 s) := by
  unfold execWriteZeroes
  refine OnlyChangesQ.next ?_
  refine OnlyChanges.step (zeroCmd_frame _ _ _ _) ?_
  exact (OnlyChanges.refl _ s)

end Sys2Proof.Machine
end

