-- ==== Sys2Proof/Laws/FramesLabels.lean ====
section
/-! SUPPORT. Which parts of the state each function of Machine/Labels.lean can change. -/

set_option Elab.async false

namespace Sys2Proof.Machine

theorem haltLog_frame (s : State) a2 a3 : OnlyChanges [.errLog, .errSeq] s (haltLog s a2 a3) := by
  unfold haltLog
  refine OnlyChanges.step (logErr_frame _ _ _ _ _) ?_
  exact (OnlyChanges.refl _ s)

theorem labelCreate_frame (s : State) a2 a3 a4 a5 : OnlyChanges [.ctxs, .cache, .groups, .freeCtr, .seqCtr] s (labelCreate s a2 a3 a4 a5) := by
  unfold labelCreate
  split
  · exact (OnlyChanges.refl _ s)
  · extract_lets -merge -underBinder +onlyGivenNames x1 x2
    clear_value x1
    clear_value x2
    split
    · exact (OnlyChanges.refl _ s)
    · rename_i x4 x5 x6
      have hx5 : OnlyChanges [.ctxs, .cache, .groups, .freeCtr, .seqCtr] s x5 := by
        refine OnlyChangesOP.of_eq x6 ?_
        refine OnlyChangesOP.step (allocFrames_frame _ _ _ _) ?_
        exact (OnlyChanges.refl _ s)
      extract_lets -merge -underBinder +onlyGivenNames x7 x8
      clear_value x7
      clear_value x8
      split
      · refine OnlyChanges.step (unpinAll_frame _ _) ?_
        exact hx5
      · rename_i x10 x11 x12
        have hx11 : OnlyChanges [.ctxs, .cache, .groups, .freeCtr, .seqCtr] s x11 := by
          refine OnlyChangesOP.of_eq x12 ?_
          refine OnlyChangesOP.step (createWork_frame _ _ _ _ _ _) ?_
          exact hx5
        refine OnlyChanges.step (updGroup_frame _ _ _) ?_
        exact hx11

theorem labelWritten_frame (s : State) a2 a3 : OnlyChanges [.funcs, .groups, .out, .seqCtr] s (labelWritten s a2 a3) := by
  unfold labelWritten
  split
  · exact (OnlyChanges.refl _ s)
  · extract_lets -merge -underBinder +onlyGivenNames x1 x2
    clear_value x1
    have hx2 : OnlyChanges [.funcs, .groups, .out, .seqCtr] s x2 := by
      unfold x2
      refine OnlyChanges.step (updGroup_frame _ _ _) ?_
      exact (OnlyChanges.refl _ s)
    clear_value x2
    split
    · refine OnlyChanges.ite1 ?_ ?_
      · refine OnlyChanges.step (adminDone_frame _ _ _ _) ?_
        refine OnlyChanges.step (updGroup_frame _ _ _) ?_
        exact hx2
      · exact hx2
    · exact hx2

theorem workEnded_frame (s : State) a2 a3 a4 : OnlyChanges [.funcs, .ctxs, .cache, .groups, .out, .freeCtr, .seqCtr] s (workEnded s a2 a3 a4) := by
  unfold workEnded
  split
  · refine OnlyChanges.ite1 ?_ ?_
    · split
      · rename_i x1 x2 x3
        have hx2 : OnlyChanges [.funcs, .ctxs, .cache, .groups, .out, .freeCtr, .seqCtr] s x2 := by
          refine OnlyChangesOP.of_eq x3 ?_
          refine OnlyChangesOP.step (createWork_frame _ _ _ _ _ _) ?_
          exact (OnlyChanges.refl _ s)
        exact hx2
      · exact (OnlyChanges.refl _ s)
    · exact (OnlyChanges.refl _ s)
  · refine OnlyChanges.step (extentZeroed_frame _ _ _) ?_
    exact (OnlyChanges.refl _ s)
  · extract_lets -merge -underBinder +onlyGivenNames x5
    clear_value x5
    refine OnlyChanges.ite1 ?_ ?_
    · refine OnlyChanges.step (labelCreate_frame _ _ _ _ _) ?_
      exact (OnlyChanges.refl _ s)
    · refine OnlyChanges.ite1 ?_ ?_
      · refine OnlyChanges.step (labelWritten_frame _ _ _) ?_
        exact (OnlyChanges.refl _ s)
      · exact (OnlyChanges.refl _ s)
  · exact (OnlyChanges.refl _ s)

theorem execHalt_frame a1 (s : State) : OnlyChangesQ [.funcs, .ctxs, .engineFree, .cache, .locks, .journal, .groups, .vols, .mports, .movers, .progs, .errLog, .errSeq, .defLog, .defSeq, .rb, .out, .freeCtr, .seqCtr] s (execHalt a1 s) := by
  unfold execHalt
  refine runIns_frame ?_ ?_
  · intro x1 x2 hx2
    extract_lets -merge -underBinder +onlyGivenNames x3 x4 x5 x6 x7 x8 x9 x10
    have hx3 : OnlyChanges [.funcs, .ctxs, .engineFree, .cache, .locks, .journal, .groups, .vols, .mports, .movers, .progs, .errLog, .errSeq, .defLog, .defSeq, .rb, .out, .freeCtr, .seqCtr] s x3 := by
      unfold x3
      refine OnlyChanges.step (complete_frame _ _ _) ?_
      exact hx2
    clear_value x3
    clear_value x4
    clear_value x5
    clear_value x6
    have hx7 : OnlyChanges [.funcs, .ctxs, .engineFree, .cache, .locks, .journal, .groups, .vols, .mports, .movers, .progs, .errLog, .errSeq, .defLog, .defSeq, .rb, .out, .freeCtr, .seqCtr] s x7 := by
      unfold x7
      refine OnlyChanges.ite1 ?_ ?_
      · refine OnlyChanges.step (noteLate_frame _ _ _) ?_
        exact hx3
      · exact hx3
    clear_value x7
    have hx8 : OnlyChanges [.funcs, .ctxs, .engineFree, .cache, .locks, .journal, .groups, .vols, .mports, .movers, .progs, .errLog, .errSeq, .defLog, .defSeq, .rb, .out, .freeCtr, .seqCtr] s x8 := by
      unfold x8
      refine OnlyChanges.ite1 ?_ ?_
      · refine OnlyChanges.step (haltLog_frame _ _ _) ?_
        refine OnlyChanges.step (postCtx_frame _ _ _) ?_
        exact hx7
      · exact hx3
    clear_value x8
    have hx9 : OnlyChanges [.funcs, .ctxs, .engineFree, .cache, .locks, .journal, .groups, .vols, .mports, .movers, .progs, .errLog, .errSeq, .defLog, .defSeq, .rb, .out, .freeCtr, .seqCtr] s x9 := by
      unfold x9
      refine OnlyChanges.foldl (fun x11 x12 hx11 => ?_) ?_
      · refine OnlyChanges.step (haltLog_frame _ _ _) ?_
        exact hx11
      · exact hx8
    clear_value x9
    have hx10 : OnlyChanges [.funcs, .ctxs, .engineFree, .cache, .locks, .journal, .groups, .vols, .mports, .movers, .progs, .errLog, .errSeq, .defLog, .defSeq, .rb, .out, .freeCtr, .seqCtr] s x10 := by
      unfold x10
      refine OnlyChanges.foldl (fun x13 x14 hx13 => ?_) ?_
      · refine OnlyChanges.step (haltLog_frame _ _ _) ?_
        exact hx13
      · exact hx9
    clear_value x10
    refine OnlyChanges.step (workEnded_frame _ _ _ _) ?_
    refine OnlyChanges.step (endThread_frame _ _) ?_
    exact hx10
  · exact (OnlyChanges.refl _ s)

theorem execLabelWriteCreate_frame a1 a2 a3 (s : State) : OnlyChangesQ [.ctxs, .cache, .groups, .freeCtr, .seqCtr] s (execLabelWriteCreate a1 a2 a3 s) := by
  unfold execLabelWriteCreate
  refine OnlyChangesQ.next ?_
  split
  · exact (OnlyChanges.refl _ s)
  · refine OnlyChanges.ite1 ?_ ?_
    · exact (OnlyChanges.refl _ s)
    · refine OnlyChanges.step (labelCreate_frame _ _ _ _ _) ?_
      refine OnlyChanges.step (updGroup_frame _ _ _) ?_
      exact (OnlyChanges.refl _ s)

theorem execTrap_frame a1 (s : State) : OnlyChangesQ [.funcs, .ctxs, .engineFree, .cache, .locks, .journal, .groups, .vols, .mports, .mem, .movers, .progs, .errLog, .errSeq, .defLog, .defSeq, .rb, .seqCtr] s (execTrap a1 s) := by
  unfold execTrap
  refine runIns_frame ?_ ?_
  · intro x1 x2 hx2
    extract_lets -merge -underBinder +onlyGivenNames x3 x4 x5
    have hx3 : OnlyChanges [.funcs, .ctxs, .engineFree, .cache, .locks, .journal, .groups, .vols, .mports, .mem, .movers, .progs, .errLog, .errSeq, .defLog, .defSeq, .rb, .seqCtr] s x3 := by
      unfold x3
      refine OnlyChanges.step (complete_frame _ _ _) ?_
      exact hx2
    clear_value x3
    clear_value x4
    have hx5 : OnlyChanges [.funcs, .ctxs, .engineFree, .cache, .locks, .journal, .groups, .vols, .mports, .mem, .movers, .progs, .errLog, .errSeq, .defLog, .defSeq, .rb, .seqCtr] s x5 := by
      unfold x5
      exact OnlyChanges.of hx3 (by intro p hp; cases p <;> first | exact absurd (by decide) hp | exact rfl)
    clear_value x5
    split
    · refine OnlyChanges.ite1 ?_ ?_
      · refine OnlyChanges.step (enterLost_frame _ _ _ _ _) ?_
        exact hx5
      · exact hx5
    · exact hx5
  · exact (OnlyChanges.refl _ s)

end Sys2Proof.Machine
end

