-- ==== Sys2Proof/Laws/FramesMgmt.lean ====
section
/-! SUPPORT. Which parts of the state each function of Machine/Mgmt.lean can change. -/

set_option Elab.async false

namespace Sys2Proof.Machine

theorem answer_frame (s : State) a2 a3 a4 a5 : OnlyChanges [.out] s (answer s a2 a3 a4 a5) := by
  unfold answer
  refine OnlyChanges.step (gelbelReply_frame _ _ _ _ _) ?_
  exact (OnlyChanges.refl _ s)

theorem gelbelRun_frame {F : List Part} {s t : State} {fm : GelbelForm} {g : GMsg} {body : State → State}
    (k : ∀ u, OnlyChanges F s u → OnlyChanges F s (body u)) (h : OnlyChanges F s t) (w : Part.sub [.out] F = true := by decide) :
    OnlyChanges F s (gelbelRun t fm g body) := by
  unfold gelbelRun
  have d : ∀ st, OnlyChanges F s (answer t fm g st []) := fun st => OnlyChanges.step (answer_frame _ _ _ _ _) h (Part.sub_trans (by decide) w)
  exact OnlyChanges.ite1 h (OnlyChanges.ite1 (d _) (OnlyChanges.ite1 (d _) (OnlyChanges.ite1 h (k _ h))))

theorem execFwUpdateAbort_frame a1 (s : State) : OnlyChangesQ [.pwr, .out] s (execFwUpdateAbort a1 s) := by
  unfold execFwUpdateAbort
  refine OnlyChangesQ.next ?_
  refine gelbelRun_frame ?_ ?_
  · intro x1 hx1
    refine OnlyChanges.ite1 ?_ ?_
    · refine OnlyChanges.step (answer_frame _ _ _ _ _) ?_
      refine OnlyChanges.step (updPwr_frame _ _) ?_
      exact hx1
    · refine OnlyChanges.step (answer_frame _ _ _ _ _) ?_
      exact hx1
  · exact (OnlyChanges.refl _ s)

theorem execFwUpdateBegin_frame a1 (s : State) : OnlyChangesQ [.pwr, .out] s (execFwUpdateBegin a1 s) := by
  unfold execFwUpdateBegin
  refine OnlyChangesQ.next ?_
  refine gelbelRun_frame ?_ ?_
  · intro x1 hx1
    refine OnlyChanges.ite1 ?_ ?_
    · refine OnlyChanges.step (answer_frame _ _ _ _ _) ?_
      refine OnlyChanges.step (updPwr_frame _ _) ?_
      exact hx1
    · refine OnlyChanges.step (answer_frame _ _ _ _ _) ?_
      exact hx1
  · exact (OnlyChanges.refl _ s)

theorem writeSlot_frame (s : State) a2 : OnlyChanges [.pwr, .errLog, .errSeq, .rb, .out] s (writeSlot s a2) := by
  unfold writeSlot
  extract_lets -merge -underBinder +onlyGivenNames x1 x2
  clear_value x1
  have hx2 : OnlyChanges [.pwr, .errLog, .errSeq, .rb, .out] s x2 := by
    unfold x2
    refine OnlyChanges.step (updPwr_frame _ _) ?_
    exact (OnlyChanges.refl _ s)
  clear_value x2
  refine OnlyChanges.step (rbChange_frame _) ?_
  refine OnlyChanges.step (emit_frame _ _) ?_
  refine OnlyChanges.step (logErr_frame _ _ _ _ _) ?_
  exact hx2

theorem execFwUpdateCommit_frame a1 a2 (s : State) : OnlyChangesQ [.pwr, .errLog, .errSeq, .rb, .out] s (execFwUpdateCommit a1 a2 s) := by
  unfold execFwUpdateCommit
  refine OnlyChangesQ.next ?_
  refine gelbelRun_frame ?_ ?_
  · intro x1 hx1
    refine OnlyChanges.ite1 ?_ ?_
    · refine OnlyChanges.step (answer_frame _ _ _ _ _) ?_
      exact hx1
    · refine OnlyChanges.ite1 ?_ ?_
      · refine OnlyChanges.step (answer_frame _ _ _ _ _) ?_
        refine OnlyChanges.step (logErr_frame _ _ _ _ _) ?_
        exact hx1
      · refine OnlyChanges.step (answer_frame _ _ _ _ _) ?_
        refine OnlyChanges.step (writeSlot_frame _ _) ?_
        exact hx1
  · exact (OnlyChanges.refl _ s)

theorem execFwUpdateData_frame a1 (s : State) : OnlyChangesQ [.pwr, .out] s (execFwUpdateData a1 s) := by
  unfold execFwUpdateData
  refine OnlyChangesQ.next ?_
  refine gelbelRun_frame ?_ ?_
  · intro x1 hx1
    extract_lets -merge -underBinder +onlyGivenNames x2 x3
    clear_value x2
    clear_value x3
    split
    · refine OnlyChanges.ite1 ?_ ?_
      · refine OnlyChanges.step (answer_frame _ _ _ _ _) ?_
        refine OnlyChanges.step (updPwr_frame _ _) ?_
        exact hx1
      · refine OnlyChanges.step (answer_frame _ _ _ _ _) ?_
        exact hx1
    · refine OnlyChanges.step (answer_frame _ _ _ _ _) ?_
      exact hx1
  · exact (OnlyChanges.refl _ s)

theorem gelbelRead_frame (s : State) a2 a3 a4 a5 : OnlyChanges [.out] s (gelbelRead s a2 a3 a4 a5) := by
  unfold gelbelRead
  refine gelbelRun_frame ?_ ?_
  · intro x1 hx1
    refine OnlyChanges.ite1 ?_ ?_
    · refine OnlyChanges.step (answer_frame _ _ _ _ _) ?_
      exact hx1
    · refine OnlyChanges.step (answer_frame _ _ _ _ _) ?_
      exact hx1
  · exact (OnlyChanges.refl _ s)

theorem execGelbelGetFare_frame a1 (s : State) : OnlyChangesQ [.out] s (execGelbelGetFare a1 s) := by
  unfold execGelbelGetFare
  extract_lets -merge -underBinder +onlyGivenNames x1 x2
  clear_value x1
  clear_value x2
  refine OnlyChangesQ.next ?_
  refine OnlyChanges.step (gelbelRead_frame _ _ _ _ _) ?_
  exact (OnlyChanges.refl _ s)

theorem execGelbelGetLog_frame a1 (s : State) : OnlyChangesQ [.out] s (execGelbelGetLog a1 s) := by
  unfold execGelbelGetLog
  extract_lets -merge -underBinder +onlyGivenNames x1 x2
  clear_value x1
  clear_value x2
  refine OnlyChangesQ.next ?_
  refine OnlyChanges.step (gelbelRead_frame _ _ _ _ _) ?_
  exact (OnlyChanges.refl _ s)

theorem execGelbelGetRouteBook_frame a1 (s : State) : OnlyChangesQ [.out] s (execGelbelGetRouteBook a1 s) := by
  unfold execGelbelGetRouteBook
  extract_lets -merge -underBinder +onlyGivenNames x1 x2
  clear_value x1
  clear_value x2
  refine OnlyChangesQ.next ?_
  refine OnlyChanges.step (gelbelRead_frame _ _ _ _ _) ?_
  exact (OnlyChanges.refl _ s)

theorem execGelbelGetStatus_frame a1 (s : State) : OnlyChangesQ [.out] s (execGelbelGetStatus a1 s) := by
  unfold execGelbelGetStatus
  refine OnlyChangesQ.next ?_
  refine OnlyChanges.step (gelbelRead_frame _ _ _ _ _) ?_
  exact (OnlyChanges.refl _ s)

theorem execGelbelGetTemp_frame a1 (s : State) : OnlyChangesQ [.out] s (execGelbelGetTemp a1 s) := by
  unfold execGelbelGetTemp
  refine OnlyChangesQ.next ?_
  refine OnlyChanges.step (gelbelRead_frame _ _ _ _ _) ?_
  exact (OnlyChanges.refl _ s)

theorem execGelbelMemberControl_frame a1 (s : State) : OnlyChangesQ [.pwr, .adm, .funcs, .ctxs, .cache, .locks, .journal, .groups, .vols, .mports, .mem, .fare, .errLog, .errSeq, .defLog, .defSeq, .rb, .fresh, .out, .seqCtr] s (execGelbelMemberControl a1 s) := by
  unfold execGelbelMemberControl
  extract_lets -merge -underBinder +onlyGivenNames x1
  clear_value x1
  refine OnlyChangesQ.next ?_
  refine gelbelRun_frame ?_ ?_
  · intro x2 hx2
    extract_lets -merge -underBinder +onlyGivenNames x3
    clear_value x3
    refine OnlyChanges.ite1 ?_ ?_
    · refine OnlyChanges.step (answer_frame _ _ _ _ _) ?_
      exact hx2
    · refine OnlyChangesA.finish ?_ ?_
      · refine OnlyChangesA.step (memberAct_frame _ _ _) ?_
        exact hx2
      · exact hx2
  · exact (OnlyChanges.refl _ s)

theorem execGelbelSetTokens_frame a1 (s : State) : OnlyChangesQ [.adm, .rb, .out] s (execGelbelSetTokens a1 s) := by
  unfold execGelbelSetTokens
  extract_lets -merge -underBinder +onlyGivenNames x1
  clear_value x1
  refine OnlyChangesQ.next ?_
  refine gelbelRun_frame ?_ ?_
  · intro x2 hx2
    extract_lets -merge -underBinder +onlyGivenNames x3 x4
    clear_value x3
    clear_value x4
    refine OnlyChanges.ite1 ?_ ?_
    · refine OnlyChanges.step (answer_frame _ _ _ _ _) ?_
      exact hx2
    · split
      · rename_i x5 x6
        have hx5 : OnlyChanges [.adm, .rb, .out] s x5 := by
          refine OnlyChangesO.of_eq x6 ?_
          refine OnlyChangesO.step (applyTokens_frame _ _ _) ?_
          exact hx2
        refine OnlyChanges.step (updAdm_frame _ _) ?_
        exact hx5
      · refine OnlyChanges.step (answer_frame _ _ _ _ _) ?_
        exact hx2
  · exact (OnlyChanges.refl _ s)

theorem execGelbelTimetable_frame a1 (s : State) : OnlyChangesQ [.tt, .funcs, .rb, .out, .seqCtr] s (execGelbelTimetable a1 s) := by
  unfold execGelbelTimetable
  extract_lets -merge -underBinder +onlyGivenNames x1
  clear_value x1
  refine OnlyChangesQ.next ?_
  refine gelbelRun_frame ?_ ?_
  · intro x2 hx2
    extract_lets -merge -underBinder +onlyGivenNames x3 x4 x5
    clear_value x3
    clear_value x4
    have hx5 : OnlyChanges [.tt, .funcs, .rb, .out, .seqCtr] s x5 := by
      unfold x5
      refine OnlyChanges.step (ttApply_frame _ _) ?_
      exact hx2
    clear_value x5
    refine OnlyChanges.ite1 ?_ ?_
    · refine OnlyChanges.step (answer_frame _ _ _ _ _) ?_
      exact hx2
    · refine OnlyChanges.ite1 ?_ ?_
      · refine OnlyChanges.step (updTt_frame _ _) ?_
        exact hx5
      · refine OnlyChanges.step (adminOk_frame _ _) ?_
        exact hx5
  · exact (OnlyChanges.refl _ s)

theorem execGelbelUndefinedCommand_frame a1 a2 (s : State) : OnlyChangesQ [.out] s (execGelbelUndefinedCommand a1 a2 s) := by
  unfold execGelbelUndefinedCommand
  refine OnlyChangesQ.next ?_
  refine OnlyChanges.ite1 ?_ ?_
  · exact (OnlyChanges.refl _ s)
  · refine gelbelRun_frame ?_ ?_
    · intro x1 hx1
      refine OnlyChanges.step (answer_frame _ _ _ _ _) ?_
      exact hx1
    · exact (OnlyChanges.refl _ s)

theorem execGelbelWake_frame a1 (s : State) : OnlyChangesQ [.pwr, .ports, .funcs, .errLog, .errSeq, .fresh, .out] s (execGelbelWake a1 s) := by
  unfold execGelbelWake
  extract_lets -merge -underBinder +onlyGivenNames x1
  clear_value x1
  refine OnlyChangesQ.next ?_
  refine gelbelRun_frame ?_ ?_
  · intro x2 hx2
    extract_lets -merge -underBinder +onlyGivenNames x3
    have hx3 : OnlyChanges [.pwr, .ports, .funcs, .errLog, .errSeq, .fresh, .out] s x3 := by
      unfold x3
      refine OnlyChanges.step (answer_frame _ _ _ _ _) ?_
      refine OnlyChanges.step (raisePme_frame _) ?_
      exact hx2
    clear_value x3
    refine OnlyChanges.ite1 ?_ ?_
    · refine OnlyChanges.step (answer_frame _ _ _ _ _) ?_
      exact hx2
    · refine OnlyChanges.ite1 ?_ ?_
      · refine OnlyChanges.step (wakeUp_frame _ _) ?_
        exact hx3
      · exact hx3
  · exact (OnlyChanges.refl _ s)

theorem mctpRun_frame (s : State) a2 a3 : OnlyChanges [.out] s (mctpRun s a2 a3) := by
  unfold mctpRun
  exact OnlyChanges.ite1 (OnlyChanges.refl _ s) (OnlyChanges.step (emit_frame _ _) (OnlyChanges.refl _ s))

theorem execMctpGetEndpointId_frame (s : State) : OnlyChangesQ [.out] s (execMctpGetEndpointId s) := by
  unfold execMctpGetEndpointId
  exact OnlyChangesQ.next (OnlyChanges.step (mctpRun_frame _ _ _) (OnlyChanges.refl _ s))

theorem execMctpGetMessageTypeSupport_frame (s : State) : OnlyChangesQ [.out] s (execMctpGetMessageTypeSupport s) := by
  unfold execMctpGetMessageTypeSupport
  exact OnlyChangesQ.next (OnlyChanges.step (mctpRun_frame _ _ _) (OnlyChanges.refl _ s))

theorem execMctpGetVersionSupport_frame (s : State) : OnlyChangesQ [.out] s (execMctpGetVersionSupport s) := by
  unfold execMctpGetVersionSupport
  exact OnlyChangesQ.next (OnlyChanges.step (mctpRun_frame _ _ _) (OnlyChanges.refl _ s))

theorem execMctpSetEndpointId_frame a1 (s : State) : OnlyChangesQ [.pwr, .out] s (execMctpSetEndpointId a1 s) := by
  unfold execMctpSetEndpointId
  refine OnlyChangesQ.next (OnlyChanges.ite1 (OnlyChanges.refl _ s) ?_)
  exact OnlyChanges.step (mctpRun_frame _ _ _) (OnlyChanges.step (updPwr_frame _ _) (OnlyChanges.refl _ s))

theorem execTagRead_frame a1 (s : State) : OnlyChangesQ [.out] s (execTagRead a1 s) := by
  unfold execTagRead
  refine OnlyChangesQ.next ?_
  refine OnlyChanges.step (gelbelRead_frame _ _ _ _ _) ?_
  exact (OnlyChanges.refl _ s)

theorem tagWriteBody_frame (s : State) a2 a3 : OnlyChanges [.pwr, .errLog, .errSeq, .rb, .out] s (tagWriteBody s a2 a3) := by
  unfold tagWriteBody
  extract_lets -merge -underBinder +onlyGivenNames x1 x2 x3 x4
  clear_value x1
  clear_value x2
  clear_value x3
  clear_value x4
  refine OnlyChanges.ite1 ?_ ?_
  · refine OnlyChanges.step (answer_frame _ _ _ _ _) ?_
    exact (OnlyChanges.refl _ s)
  · split
    · refine OnlyChanges.step (answer_frame _ _ _ _ _) ?_
      refine OnlyChanges.step (tagRefused_frame _ _) ?_
      exact (OnlyChanges.refl _ s)
    · refine OnlyChanges.ite1 ?_ ?_
      · refine OnlyChanges.step (answer_frame _ _ _ _ _) ?_
        refine OnlyChanges.step (logErr_frame _ _ _ _ _) ?_
        exact (OnlyChanges.refl _ s)
      · refine OnlyChanges.step (answer_frame _ _ _ _ _) ?_
        refine OnlyChanges.step (tagStore_frame _ _ _) ?_
        exact (OnlyChanges.refl _ s)

theorem execTagWrite_frame a1 (s : State) : OnlyChangesQ [.pwr, .errLog, .errSeq, .rb, .out] s (execTagWrite a1 s) := by
  unfold execTagWrite
  extract_lets -merge -underBinder +onlyGivenNames x1
  clear_value x1
  refine OnlyChangesQ.next ?_
  refine gelbelRun_frame ?_ ?_
  · intro x2 hx2
    refine OnlyChanges.step (tagWriteBody_frame _ _ _) ?_
    exact hx2
  · exact (OnlyChanges.refl _ s)

theorem uartRun_frame (s : State) a2 a3 a4 a5 : OnlyChanges [.out] s (uartRun s a2 a3 a4 a5) := by
  unfold uartRun
  refine OnlyChanges.ite1 ?_ ?_
  · exact (OnlyChanges.refl _ s)
  · refine OnlyChanges.ite1 ?_ ?_
    · refine OnlyChanges.step (emit_frame _ _) ?_
      exact (OnlyChanges.refl _ s)
    · refine OnlyChanges.ite1 ?_ ?_
      · refine OnlyChanges.step (emit_frame _ _) ?_
        exact (OnlyChanges.refl _ s)
      · refine OnlyChanges.step (emit_frame _ _) ?_
        exact (OnlyChanges.refl _ s)

theorem execUartHelp_frame (s : State) : OnlyChangesQ [.out] s (execUartHelp s) := by
  unfold execUartHelp
  refine OnlyChangesQ.next ?_
  refine OnlyChanges.step (uartRun_frame _ _ _ _ _) ?_
  exact (OnlyChanges.refl _ s)

theorem execUartLog_frame a1 (s : State) : OnlyChangesQ [.out] s (execUartLog a1 s) := by
  unfold execUartLog
  refine OnlyChangesQ.next ?_
  refine OnlyChanges.step (uartRun_frame _ _ _ _ _) ?_
  exact (OnlyChanges.refl _ s)

theorem execUartMem_frame a1 (s : State) : OnlyChangesQ [.out] s (execUartMem a1 s) := by
  unfold execUartMem
  extract_lets -merge -underBinder +onlyGivenNames x1
  clear_value x1
  refine OnlyChangesQ.next ?_
  refine OnlyChanges.step (uartRun_frame _ _ _ _ _) ?_
  exact (OnlyChanges.refl _ s)

theorem execUartRb_frame a1 a2 (s : State) : OnlyChangesQ [.out] s (execUartRb a1 a2 s) := by
  unfold execUartRb
  refine OnlyChangesQ.next ?_
  refine OnlyChanges.step (uartRun_frame _ _ _ _ _) ?_
  exact (OnlyChanges.refl _ s)

theorem execUartState_frame (s : State) : OnlyChangesQ [.out] s (execUartState s) := by
  unfold execUartState
  refine OnlyChangesQ.next ?_
  refine OnlyChanges.step (uartRun_frame _ _ _ _ _) ?_
  exact (OnlyChanges.refl _ s)

theorem execUartTag_frame a1 (s : State) : OnlyChangesQ [.out] s (execUartTag a1 s) := by
  unfold execUartTag
  refine OnlyChangesQ.next ?_
  refine OnlyChanges.step (uartRun_frame _ _ _ _ _) ?_
  exact (OnlyChanges.refl _ s)

theorem execUartTemp_frame (s : State) : OnlyChangesQ [.out] s (execUartTemp s) := by
  unfold execUartTemp
  refine OnlyChangesQ.next ?_
  refine OnlyChanges.step (uartRun_frame _ _ _ _ _) ?_
  exact (OnlyChanges.refl _ s)

theorem execUartTt_frame (s : State) : OnlyChangesQ [.out] s (execUartTt s) := by
  unfold execUartTt
  refine OnlyChangesQ.next ?_
  refine OnlyChanges.step (uartRun_frame _ _ _ _ _) ?_
  exact (OnlyChanges.refl _ s)

theorem execUartUnknownCommand_frame (s : State) : OnlyChangesQ [.out] s (execUartUnknownCommand s) := by
  unfold execUartUnknownCommand
  refine OnlyChangesQ.next ?_
  refine OnlyChanges.ite1 ?_ ?_
  · exact (OnlyChanges.refl _ s)
  · refine OnlyChanges.step (emit_frame _ _) ?_
    exact (OnlyChanges.refl _ s)

theorem execUartVault_frame (s : State) : OnlyChangesQ [.out] s (execUartVault s) := by
  unfold execUartVault
  refine OnlyChangesQ.next ?_
  refine OnlyChanges.step (uartRun_frame _ _ _ _ _) ?_
  exact (OnlyChanges.refl _ s)

theorem execUartVer_frame (s : State) : OnlyChangesQ [.out] s (execUartVer s) := by
  unfold execUartVer
  refine OnlyChangesQ.next ?_
  refine OnlyChanges.step (uartRun_frame _ _ _ _ _) ?_
  exact (OnlyChanges.refl _ s)

theorem execVaultRelease_frame a1 (s : State) : OnlyChangesQ [.pwr, .out] s (execVaultRelease a1 s) := by
  unfold execVaultRelease
  extract_lets -merge -underBinder +onlyGivenNames x1
  clear_value x1
  refine OnlyChangesQ.next ?_
  refine gelbelRun_frame ?_ ?_
  · intro x2 hx2
    refine OnlyChanges.ite1 ?_ ?_
    · refine OnlyChanges.step (answer_frame _ _ _ _ _) ?_
      refine OnlyChanges.step (updPwr_frame _ _) ?_
      exact hx2
    · refine OnlyChanges.step (answer_frame _ _ _ _ _) ?_
      exact hx2
  · exact (OnlyChanges.refl _ s)

end Sys2Proof.Machine
end

