-- ==== Sys2Proof/Laws/FramesPower.lean ====
section
/-! SUPPORT. Which parts of the state each function of Machine/Power.lean can change. -/

set_option Elab.async false

namespace Sys2Proof.Machine

theorem blowFuses_frame (s : State) : OnlyChanges [.pwr, .errLog, .errSeq, .out] s (blowFuses s) := by
  unfold blowFuses
  extract_lets -merge -underBinder +onlyGivenNames x1 x2
  clear_value x1
  clear_value x2
  refine OnlyChanges.ite1 ?_ ?_
  · exact (OnlyChanges.refl _ s)
  · refine OnlyChanges.ite1 ?_ ?_
    · refine OnlyChanges.step (logErr_frame _ _ _ _ _) ?_
      refine OnlyChanges.step (updPwr_frame _ _) ?_
      exact (OnlyChanges.refl _ s)
    · refine OnlyChanges.step (logErr_frame _ _ _ _ _) ?_
      refine OnlyChanges.step (emit_frame _ _) ?_
      refine OnlyChanges.step (updPwr_frame _ _) ?_
      exact (OnlyChanges.refl _ s)

/-- What a cold state leaves: the outputs, the counters of free values, and the queue. -/
theorem coldState_frame (s : State) a2 : OnlyChanges [.pwr, .tt, .adm, .ports, .funcs, .reads, .nextTag, .ctxs, .engineFree, .cache, .locks, .journal, .groups, .vols, .freedVols, .mports, .mem, .vlt, .movers, .xlate, .progs, .mbx, .fare, .errLog, .errSeq, .defLog, .defSeq, .rb, .fresh, .fetchDue] s (coldState s a2) := by
  intro p hp
  cases p <;> first | exact absurd (by decide) hp | exact rfl

theorem issueNow_frame (s : State) a2 : OnlyChanges [.ports, .funcs, .ctxs, .cache, .groups, .vols, .freedVols, .fare, .rb, .fresh, .out, .freeCtr, .seqCtr] s (issueNow s a2) := by
  unfold issueNow
  split
  · exact (OnlyChanges.refl _ s)
  · split
    · split
      · extract_lets -merge -underBinder +onlyGivenNames x1
        have hx1 : OnlyChanges [.ports, .funcs, .ctxs, .cache, .groups, .vols, .freedVols, .fare, .rb, .fresh, .out, .freeCtr, .seqCtr] s x1 := by
          unfold x1
          refine OnlyChanges.step (endIssue_frame _ _ _ _) ?_
          refine OnlyChanges.step (issueEntry_frame _ _ _ _ _) ?_
          exact (OnlyChanges.refl _ s)
        clear_value x1
        refine OnlyChanges.ite1 ?_ ?_
        · refine OnlyChanges.step (signalFn_frame _ _) ?_
          refine OnlyChanges.step (updCq_frame _ _ _ _) ?_
          exact hx1
        · exact (OnlyChanges.refl _ s)
      · exact (OnlyChanges.refl _ s)
    · exact (OnlyChanges.refl _ s)

theorem powerSet_frame (s : State) a2 : OnlyChanges [.ports, .funcs, .ctxs, .cache, .groups, .vols, .freedVols, .fare, .rb, .fresh, .out, .freeCtr, .seqCtr] s (powerSet s a2) := by
  unfold powerSet
  refine OnlyChanges.step (issueNow_frame _ _) ?_
  refine OnlyChanges.step (adminDone_frame _ _ _ _) ?_
  exact (OnlyChanges.refl _ s)

theorem commitRung_frame (s : State) a2 : OnlyChanges [.pwr, .tt, .adm, .ports, .funcs, .ctxs, .cache, .locks, .groups, .vols, .freedVols, .mports, .xlate, .fare, .errLog, .errSeq, .rb, .fresh, .out, .freeCtr, .seqCtr] s (commitRung s a2) := by
  unfold commitRung
  extract_lets -merge -underBinder +onlyGivenNames x1 x2 x3 x4 x5 x6
  clear_value x1
  have hx2 : OnlyChanges [.pwr, .tt, .adm, .ports, .funcs, .ctxs, .cache, .locks, .groups, .vols, .freedVols, .mports, .xlate, .fare, .errLog, .errSeq, .rb, .fresh, .out, .freeCtr, .seqCtr] s x2 := by
    unfold x2
    refine OnlyChanges.ite1 ?_ ?_
    · refine OnlyChanges.foldl (fun x7 x8 hx7 => ?_) ?_
      · refine OnlyChanges.step (powerSet_frame _ _) ?_
        exact hx7
      · refine OnlyChanges.step (updPwr_frame _ _) ?_
        exact (OnlyChanges.refl _ s)
    · exact (OnlyChanges.refl _ s)
  clear_value x2
  clear_value x3
  have hx4 : OnlyChanges [.pwr, .tt, .adm, .ports, .funcs, .ctxs, .cache, .locks, .groups, .vols, .freedVols, .mports, .xlate, .fare, .errLog, .errSeq, .rb, .fresh, .out, .freeCtr, .seqCtr] s x4 := by
    unfold x4
    refine OnlyChanges.ite1 ?_ ?_
    · refine OnlyChanges.step (layUp_frame _ _) ?_
      exact hx2
    · refine OnlyChanges.ite1 ?_ ?_
      · refine OnlyChanges.step (losePush_frame _) ?_
        exact hx2
      · exact hx2
  clear_value x4
  have hx5 : OnlyChanges [.pwr, .tt, .adm, .ports, .funcs, .ctxs, .cache, .locks, .groups, .vols, .freedVols, .mports, .xlate, .fare, .errLog, .errSeq, .rb, .fresh, .out, .freeCtr, .seqCtr] s x5 := by
    unfold x5
    refine OnlyChanges.step (markFresh_frame _ _ _ _ _) ?_
    refine OnlyChanges.step (updPwr_frame _ _) ?_
    exact hx4
  clear_value x5
  have hx6 : OnlyChanges [.pwr, .tt, .adm, .ports, .funcs, .ctxs, .cache, .locks, .groups, .vols, .freedVols, .mports, .xlate, .fare, .errLog, .errSeq, .rb, .fresh, .out, .freeCtr, .seqCtr] s x6 := by
    unfold x6
    refine OnlyChanges.step (logErr_frame _ _ _ _ _) ?_
    exact hx5
  clear_value x6
  refine OnlyChanges.ite1 ?_ ?_
  · exact hx6
  · refine OnlyChanges.step (emit_frame _ _) ?_
    exact hx6

theorem enterHeld_frame (s : State) a2 a3 : OnlyChanges [.pwr, .mports, .rb, .out] s (enterHeld s a2 a3) := by
  unfold enterHeld
  extract_lets -merge -underBinder +onlyGivenNames x1
  have hx1 : OnlyChanges [.pwr, .mports, .rb, .out] s x1 := by
    unfold x1
    refine OnlyChanges.foldl (fun x2 x3 hx2 => ?_) ?_
    · extract_lets -merge -underBinder +onlyGivenNames x4
      have hx4 : OnlyChanges [.pwr, .mports, .rb, .out] s x4 := by
        unfold x4
        refine OnlyChanges.step (updMport_frame _ _ _) ?_
        exact hx2
      clear_value x4
      refine OnlyChanges.ite1 ?_ ?_
      · refine OnlyChanges.step (emit_frame _ _) ?_
        exact hx4
      · exact hx4
    · exact (OnlyChanges.refl _ s)
  clear_value x1
  refine OnlyChanges.step (setDev_frame _ _) ?_
  refine OnlyChanges.step (updPwr_frame _ _) ?_
  exact hx1

theorem loadBoard_frame (s : State) : OnlyChanges [.mports, .mem, .vlt] s (loadBoard s) := by
  unfold loadBoard
  extract_lets -merge -underBinder +onlyGivenNames x1 x2
  clear_value x1
  have hx2 : OnlyChanges [.mports, .mem, .vlt] s x2 := by
    unfold x2
    refine OnlyChanges.step (updVlt_frame _ _) ?_
    exact (OnlyChanges.refl _ s)
  clear_value x2
  refine OnlyChanges.ite1 ?_ ?_
  · exact (OnlyChanges.refl _ s)
  · refine OnlyChanges.step (setQuads_frame _ _ _) ?_
    exact hx2

theorem startFirmware_frame (s : State) a2 a3 : OnlyChanges [.pwr, .mports, .mem, .vlt, .progs, .rb, .out] s (startFirmware s a2 a3) := by
  unfold startFirmware
  extract_lets -merge -underBinder +onlyGivenNames x1 x2 x3
  clear_value x1
  have hx2 : OnlyChanges [.pwr, .mports, .mem, .vlt, .progs, .rb, .out] s x2 := by
    unfold x2
    refine OnlyChanges.step (loadBoard_frame _) ?_
    refine OnlyChanges.step (updPwr_frame _ _) ?_
    exact (OnlyChanges.refl _ s)
  clear_value x2
  clear_value x3
  refine OnlyChanges.ite1 ?_ ?_
  · exact OnlyChanges.of hx2 (by intro p hp; cases p <;> first | exact absurd (by decide) hp | exact rfl)
  · refine OnlyChanges.step (enterHeld_frame _ _ _) ?_
    exact hx2

theorem execBootLoad_frame a1 a2 a3 a4 (s : State) : OnlyChangesQ [.pwr, .mports, .mem, .vlt, .progs, .errLog, .errSeq, .rb, .out] s (execBootLoad a1 a2 a3 a4 s) := by
  unfold execBootLoad
  extract_lets -merge -underBinder +onlyGivenNames x1 x2 x3 x4 x5 x6 x7 x8
  have hx1 : OnlyChanges [.pwr, .mports, .mem, .vlt, .progs, .errLog, .errSeq, .rb, .out] s x1 := by
    unfold x1
    refine OnlyChanges.step (updPwr_frame _ _) ?_
    exact (OnlyChanges.refl _ s)
  clear_value x1
  clear_value x2
  clear_value x3
  clear_value x4
  clear_value x5
  have hx6 : OnlyChanges [.pwr, .mports, .mem, .vlt, .progs, .errLog, .errSeq, .rb, .out] s x6 := by
    unfold x6
    refine OnlyChanges.step (updPwr_frame _ _) ?_
    exact hx1
  clear_value x6
  clear_value x7
  have hx8 : OnlyChanges [.pwr, .mports, .mem, .vlt, .progs, .errLog, .errSeq, .rb, .out] s x8 := by
    unfold x8
    refine OnlyChanges.step (logErr_frame _ _ _ _ _) ?_
    refine OnlyChanges.step (updPwr_frame _ _) ?_
    exact hx6
  clear_value x8
  refine OnlyChangesQ.next ?_
  refine OnlyChanges.ite1 ?_ ?_
  · exact (OnlyChanges.refl _ s)
  · refine OnlyChanges.ite1 ?_ ?_
    · refine OnlyChanges.step (enterHeld_frame _ _ _) ?_
      exact (OnlyChanges.refl _ s)
    · refine OnlyChanges.ite1 ?_ ?_
      · refine OnlyChanges.step (startFirmware_frame _ _ _) ?_
        exact hx6
      · refine OnlyChanges.ite1 ?_ ?_
        · refine OnlyChanges.step (startFirmware_frame _ _ _) ?_
          exact hx8
        · refine OnlyChanges.step (enterHeld_frame _ _ _) ?_
          exact hx6

theorem outputsOff_frame (s : State) : OnlyChanges [.tt, .out] s (outputsOff s) := by
  unfold outputsOff
  extract_lets -merge -underBinder +onlyGivenNames x1 x2 x3 x4 x5
  have hx1 : OnlyChanges [.tt, .out] s x1 := by
    unfold x1
    refine OnlyChanges.foldl (fun x6 x7 hx6 => ?_) ?_
    · refine OnlyChanges.step (emit_frame _ _) ?_
      exact hx6
    · exact (OnlyChanges.refl _ s)
  clear_value x1
  have hx2 : OnlyChanges [.tt, .out] s x2 := by
    unfold x2
    refine OnlyChanges.foldl (fun x8 x9 hx8 => ?_) ?_
    · refine OnlyChanges.step (emit_frame _ _) ?_
      exact hx8
    · exact hx1
  clear_value x2
  have hx3 : OnlyChanges [.tt, .out] s x3 := by
    unfold x3
    refine OnlyChanges.ite1 ?_ ?_
    · refine OnlyChanges.step (emit_frame _ _) ?_
      exact hx2
    · exact hx2
  clear_value x3
  have hx4 : OnlyChanges [.tt, .out] s x4 := by
    unfold x4
    refine OnlyChanges.ite1 ?_ ?_
    · refine OnlyChanges.step (emit_frame _ _) ?_
      exact hx3
    · exact hx3
  clear_value x4
  have hx5 : OnlyChanges [.tt, .out] s x5 := by
    unfold x5
    refine OnlyChanges.ite1 ?_ ?_
    · refine OnlyChanges.step (emit_frame _ _) ?_
      exact hx4
    · exact hx4
  clear_value x5
  refine OnlyChanges.step (ttcDrive_frame _ _) ?_
  exact hx5

theorem toOff_frame (s : State) a2 : OnlyChanges [.pwr, .tt, .adm, .ports, .funcs, .reads, .nextTag, .ctxs, .engineFree, .cache, .locks, .journal, .groups, .vols, .freedVols, .mports, .mem, .vlt, .movers, .xlate, .progs, .mbx, .fare, .errLog, .errSeq, .defLog, .defSeq, .rb, .fresh, .fetchDue, .out] s (toOff s a2) := by
  unfold toOff
  extract_lets -merge -underBinder +onlyGivenNames x1 x2
  have hx1 : OnlyChanges [.pwr, .tt, .adm, .ports, .funcs, .reads, .nextTag, .ctxs, .engineFree, .cache, .locks, .journal, .groups, .vols, .freedVols, .mports, .mem, .vlt, .movers, .xlate, .progs, .mbx, .fare, .errLog, .errSeq, .defLog, .defSeq, .rb, .fresh, .fetchDue, .out] s x1 := by
    unfold x1
    refine OnlyChanges.step (outputsOff_frame _) ?_
    exact (OnlyChanges.refl _ s)
  clear_value x1
  clear_value x2
  refine OnlyChanges.step (coldState_frame _ _) ?_
  exact hx1

theorem resetDevice_frame (s : State) : OnlyChanges [.pwr, .tt, .adm, .ports, .funcs, .reads, .nextTag, .ctxs, .engineFree, .cache, .locks, .journal, .groups, .vols, .freedVols, .mports, .mem, .vlt, .movers, .xlate, .progs, .mbx, .fare, .errLog, .errSeq, .defLog, .defSeq, .rb, .fresh, .fetchDue, .out] s (resetDevice s) := by
  unfold resetDevice
  refine OnlyChanges.ite1 ?_ ?_
  · refine OnlyChanges.step (coldState_frame _ _) ?_
    refine OnlyChanges.step (outputsOff_frame _) ?_
    exact (OnlyChanges.refl _ s)
  · refine OnlyChanges.step (toOff_frame _ _) ?_
    exact (OnlyChanges.refl _ s)

theorem execDevRstAssert_frame a1 (s : State) : OnlyChangesQ [.pwr, .tt, .adm, .ports, .funcs, .reads, .nextTag, .ctxs, .engineFree, .cache, .locks, .journal, .groups, .vols, .freedVols, .mports, .mem, .vlt, .movers, .xlate, .progs, .mbx, .fare, .errLog, .errSeq, .defLog, .defSeq, .rb, .fresh, .fetchDue, .out, .freeCtr] s (execDevRstAssert a1 s) := by
  unfold execDevRstAssert
  extract_lets -merge -underBinder +onlyGivenNames x1 x2
  clear_value x1
  have hx2 : OnlyChanges [.pwr, .tt, .adm, .ports, .funcs, .reads, .nextTag, .ctxs, .engineFree, .cache, .locks, .journal, .groups, .vols, .freedVols, .mports, .mem, .vlt, .movers, .xlate, .progs, .mbx, .fare, .errLog, .errSeq, .defLog, .defSeq, .rb, .fresh, .fetchDue, .out, .freeCtr] s x2 := by
    unfold x2
    exact OnlyChanges.of (OnlyChanges.refl _ s) (by intro p hp; cases p <;> first | exact absurd (by decide) hp | exact rfl)
  clear_value x2
  refine OnlyChangesQ.next ?_
  refine OnlyChanges.ite1 ?_ ?_
  · refine OnlyChanges.step (updPwr_frame _ _) ?_
    refine OnlyChanges.step (resetDevice_frame _) ?_
    exact hx2
  · exact hx2

theorem makePorts_frame (s : State) : OnlyChanges [.ports, .funcs] s (makePorts s) := by
  unfold makePorts
  refine OnlyChanges.foldl (fun x1 x2 hx1 => ?_) ?_
  · exact OnlyChanges.of hx1 (by intro p hp; cases p <;> first | exact absurd (by decide) hp | exact rfl)
  · exact (OnlyChanges.refl _ s)

theorem riseReset_frame (s : State) : OnlyChanges [.pwr, .ports, .funcs, .vlt] s (riseReset s) := by
  unfold riseReset
  extract_lets -merge -underBinder +onlyGivenNames x1 x2
  have hx1 : OnlyChanges [.pwr, .ports, .funcs, .vlt] s x1 := by
    unfold x1
    refine OnlyChanges.step (makePorts_frame _) ?_
    exact OnlyChanges.of (OnlyChanges.refl _ s) (by intro p hp; cases p <;> first | exact absurd (by decide) hp | exact rfl)
  clear_value x1
  have hx2 : OnlyChanges [.pwr, .ports, .funcs, .vlt] s x2 := by
    unfold x2
    refine OnlyChanges.step (updVlt_frame _ _) ?_
    exact hx1
  clear_value x2
  refine OnlyChanges.step (updPwr_frame _ _) ?_
  exact hx2

theorem execDevRstDeassert_frame a1 a2 a3 a4 (s : State) : OnlyChangesQ [.pwr, .ports, .funcs, .vlt, .freeCtr] s (execDevRstDeassert a1 a2 a3 a4 s) := by
  unfold execDevRstDeassert
  refine OnlyChangesQ.next ?_
  refine OnlyChanges.ite1 ?_ ?_
  · exact (OnlyChanges.refl _ s)
  · split
    · rename_i x1 x2 x3
      have hx2 : OnlyChanges [.pwr, .ports, .funcs, .vlt, .freeCtr] s x2 := by
        refine OnlyChangesP.of_eq x3 ?_
        refine OnlyChangesP.step (drawFree_frame _) ?_
        exact (OnlyChanges.refl _ s)
      extract_lets -merge -underBinder +onlyGivenNames x4
      have hx4 : OnlyChanges [.pwr, .ports, .funcs, .vlt, .freeCtr] s x4 := by
        unfold x4
        refine OnlyChanges.step (updPwr_frame _ _) ?_
        exact hx2
      clear_value x4
      refine OnlyChanges.ite1 ?_ ?_
      · refine OnlyChanges.step (riseReset_frame _) ?_
        exact hx4
      · exact hx4

theorem execEnterReady_frame (s : State) : OnlyChangesQ [.pwr, .adm, .vols, .fare, .errLog, .errSeq, .rb, .fresh, .out] s (execEnterReady s) := by
  unfold execEnterReady
  extract_lets -merge -underBinder +onlyGivenNames x1 x2 x3 x4
  clear_value x1
  have hx2 : OnlyChanges [.pwr, .adm, .vols, .fare, .errLog, .errSeq, .rb, .fresh, .out] s x2 := by
    unfold x2
    refine OnlyChanges.step (setDev_frame _ _) ?_
    exact (OnlyChanges.refl _ s)
  clear_value x2
  clear_value x3
  have hx4 : OnlyChanges [.pwr, .adm, .vols, .fare, .errLog, .errSeq, .rb, .fresh, .out] s x4 := by
    unfold x4
    exact OnlyChanges.of hx2 (by intro p hp; cases p <;> first | exact absurd (by decide) hp | exact rfl)
  clear_value x4
  refine OnlyChangesQ.next ?_
  refine OnlyChanges.ite1 ?_ ?_
  · exact (OnlyChanges.refl _ s)
  · refine OnlyChanges.step (recomputeCeil_frame _) ?_
    refine OnlyChanges.step (blowFuses_frame _) ?_
    exact hx4

theorem execFwStartTimeout_frame (s : State) : OnlyChangesQ [.pwr, .mports, .rb, .out] s (execFwStartTimeout s) := by
  unfold execFwStartTimeout
  refine OnlyChangesQ.next ?_
  refine OnlyChanges.ite1 ?_ ?_
  · refine OnlyChanges.step (enterHeld_frame _ _ _) ?_
    exact (OnlyChanges.refl _ s)
  · exact (OnlyChanges.refl _ s)

theorem restartFirmware_frame (s : State) : OnlyChanges [.pwr, .tt, .adm, .ports, .funcs, .reads, .nextTag, .ctxs, .engineFree, .cache, .locks, .journal, .groups, .vols, .freedVols, .mports, .mem, .vlt, .movers, .xlate, .progs, .mbx, .fare, .errLog, .errSeq, .defLog, .defSeq, .rb, .fresh, .fetchDue] s (restartFirmware s) := by
  unfold restartFirmware
  extract_lets -merge -underBinder +onlyGivenNames x1 x2 x3 x4 x5 x6
  clear_value x1
  clear_value x2
  have hx3 : OnlyChanges [.pwr, .tt, .adm, .ports, .funcs, .reads, .nextTag, .ctxs, .engineFree, .cache, .locks, .journal, .groups, .vols, .freedVols, .mports, .mem, .vlt, .movers, .xlate, .progs, .mbx, .fare, .errLog, .errSeq, .defLog, .defSeq, .rb, .fresh, .fetchDue] s x3 := by
    unfold x3
    refine OnlyChanges.step (coldState_frame _ _) ?_
    exact (OnlyChanges.refl _ s)
  clear_value x3
  clear_value x4
  clear_value x5
  have hx6 : OnlyChanges [.pwr, .tt, .adm, .ports, .funcs, .reads, .nextTag, .ctxs, .engineFree, .cache, .locks, .journal, .groups, .vols, .freedVols, .mports, .mem, .vlt, .movers, .xlate, .progs, .mbx, .fare, .errLog, .errSeq, .defLog, .defSeq, .rb, .fresh, .fetchDue] s x6 := by
    unfold x6
    exact OnlyChanges.of hx3 (by intro p hp; cases p <;> first | exact absurd (by decide) hp | exact rfl)
  clear_value x6
  refine OnlyChanges.step (setDev_frame _ _) ?_
  refine OnlyChanges.step (logErr_frame _ _ _ _ _) ?_
  exact hx6

theorem execLayupRestoreEnd_frame a1 a2 (s : State) : OnlyChangesQ [.pwr, .tt, .adm, .ports, .funcs, .reads, .nextTag, .ctxs, .engineFree, .cache, .locks, .journal, .groups, .vols, .freedVols, .mports, .mem, .vlt, .movers, .xlate, .progs, .mbx, .fare, .errLog, .errSeq, .defLog, .defSeq, .rb, .fresh, .fetchDue] s (execLayupRestoreEnd a1 a2 s) := by
  unfold execLayupRestoreEnd
  refine OnlyChangesQ.next ?_
  refine OnlyChanges.ite1 ?_ ?_
  · exact (OnlyChanges.refl _ s)
  · refine OnlyChanges.ite1 ?_ ?_
    · refine OnlyChanges.step (restartFirmware_frame _) ?_
      exact (OnlyChanges.refl _ s)
    · refine OnlyChanges.ite1 ?_ ?_
      · exact (OnlyChanges.refl _ s)
      · refine OnlyChanges.step (rbChange_frame _) ?_
        refine OnlyChanges.step (updPwr_frame _ _) ?_
        exact (OnlyChanges.refl _ s)

theorem supplyFault_frame (s : State) a2 : OnlyChanges [.pwr] s (supplyFault s a2) := by
  unfold supplyFault
  refine OnlyChanges.step (updPwr_frame _ _) ?_
  exact (OnlyChanges.refl _ s)

theorem execPowerGoodFall_frame a1 (s : State) : OnlyChangesQ [.pwr, .tt, .adm, .ports, .funcs, .reads, .nextTag, .ctxs, .engineFree, .cache, .locks, .journal, .groups, .vols, .freedVols, .mports, .mem, .vlt, .movers, .xlate, .progs, .mbx, .fare, .errLog, .errSeq, .defLog, .defSeq, .rb, .fresh, .fetchDue, .out, .seqCtr] s (execPowerGoodFall a1 s) := by
  unfold execPowerGoodFall
  extract_lets -merge -underBinder +onlyGivenNames x1
  have hx1 : OnlyChanges [.pwr, .tt, .adm, .ports, .funcs, .reads, .nextTag, .ctxs, .engineFree, .cache, .locks, .journal, .groups, .vols, .freedVols, .mports, .mem, .vlt, .movers, .xlate, .progs, .mbx, .fare, .errLog, .errSeq, .defLog, .defSeq, .rb, .fresh, .fetchDue, .out, .seqCtr] s x1 := by
    unfold x1
    refine OnlyChanges.step (updPwr_frame _ _) ?_
    exact (OnlyChanges.refl _ s)
  clear_value x1
  refine OnlyChangesQ.next ?_
  refine OnlyChanges.ite1 ?_ ?_
  · exact (OnlyChanges.refl _ s)
  · refine OnlyChanges.ite1 ?_ ?_
    · refine OnlyChanges.step (pfailQualified_frame _) ?_
      exact hx1
    · refine OnlyChanges.step (supplyFault_frame _ _) ?_
      refine OnlyChanges.step (toOff_frame _ _) ?_
      exact hx1

theorem execPowerSequenceComplete_frame (s : State) : OnlyChangesQ [.pwr, .tt, .rb, .out] s (execPowerSequenceComplete s) := by
  unfold execPowerSequenceComplete
  extract_lets -merge -underBinder +onlyGivenNames x1 x2
  clear_value x1
  have hx2 : OnlyChanges [.pwr, .tt, .rb, .out] s x2 := by
    unfold x2
    refine OnlyChanges.step (updPwr_frame _ _) ?_
    exact (OnlyChanges.refl _ s)
  clear_value x2
  refine OnlyChangesQ.next ?_
  refine OnlyChanges.ite1 ?_ ?_
  · refine OnlyChanges.step (setDev_frame _ _) ?_
    refine OnlyChanges.step (ttcPulse_frame _) ?_
    refine OnlyChanges.step (updTt_frame _ _) ?_
    exact hx2
  · exact (OnlyChanges.refl _ s)

theorem execRailEnableStep_frame (s : State) : OnlyChangesQ [.pwr, .out] s (execRailEnableStep s) := by
  unfold execRailEnableStep
  refine OnlyChangesQ.next ?_
  split
  · exact (OnlyChanges.refl _ s)
  · split
    · exact (OnlyChanges.refl _ s)
    · refine OnlyChanges.step (emit_frame _ _) ?_
      refine OnlyChanges.step (updPwr_frame _ _) ?_
      exact (OnlyChanges.refl _ s)
  · split
    · refine OnlyChanges.step (updPwr_frame _ _) ?_
      exact (OnlyChanges.refl _ s)
    · refine OnlyChanges.step (emit_frame _ _) ?_
      refine OnlyChanges.step (updPwr_frame _ _) ?_
      exact (OnlyChanges.refl _ s)

theorem execRungCommit_frame (s : State) : OnlyChangesQ [.pwr, .tt, .adm, .ports, .funcs, .ctxs, .cache, .locks, .groups, .vols, .freedVols, .mports, .xlate, .fare, .errLog, .errSeq, .rb, .fresh, .out, .freeCtr, .seqCtr] s (execRungCommit s) := by
  unfold execRungCommit
  refine OnlyChangesQ.next ?_
  split
  · exact (OnlyChanges.refl _ s)
  · refine OnlyChanges.ite1 ?_ ?_
    · exact (OnlyChanges.refl _ s)
    · refine OnlyChanges.ite1 ?_ ?_
      · refine OnlyChanges.step (abandonEntry_frame _ _) ?_
        exact (OnlyChanges.refl _ s)
      · refine OnlyChanges.step (commitRung_frame _ _) ?_
        exact (OnlyChanges.refl _ s)

theorem exitDeep_frame (s : State) a2 a3 : OnlyChanges [.pwr, .tt, .adm, .funcs, .ctxs, .cache, .locks, .journal, .groups, .vols, .freedVols, .mports, .mem, .vlt, .mbx, .fare, .errLog, .errSeq, .defLog, .defSeq, .rb, .fresh, .out, .freeCtr, .seqCtr] s (exitDeep s a2 a3) := by
  unfold exitDeep
  extract_lets -merge -underBinder +onlyGivenNames x1 x2 x3 x4
  clear_value x1
  clear_value x2
  have hx3 : OnlyChanges [.pwr, .tt, .adm, .funcs, .ctxs, .cache, .locks, .journal, .groups, .vols, .freedVols, .mports, .mem, .vlt, .mbx, .fare, .errLog, .errSeq, .defLog, .defSeq, .rb, .fresh, .out, .freeCtr, .seqCtr] s x3 := by
    unfold x3
    refine OnlyChanges.step (updPwr_frame _ _) ?_
    exact (OnlyChanges.refl _ s)
  clear_value x3
  have hx4 : OnlyChanges [.pwr, .tt, .adm, .funcs, .ctxs, .cache, .locks, .journal, .groups, .vols, .freedVols, .mports, .mem, .vlt, .mbx, .fare, .errLog, .errSeq, .defLog, .defSeq, .rb, .fresh, .out, .freeCtr, .seqCtr] s x4 := by
    unfold x4
    refine OnlyChanges.step (updTt_frame _ _) ?_
    exact hx3
  clear_value x4
  refine OnlyChanges.step (sendLtr_frame _ _) ?_
  refine OnlyChanges.step (logErr_frame _ _ _ _ _) ?_
  refine OnlyChanges.step (ttcPulse_frame _) ?_
  refine OnlyChanges.step (openSlot_frame _) ?_
  refine OnlyChanges.step (restorePush_frame _) ?_
  exact hx4

theorem exitShallow_frame (s : State) : OnlyChanges [.pwr, .funcs, .vlt, .errLog, .errSeq, .out] s (exitShallow s) := by
  unfold exitShallow
  extract_lets -merge -underBinder +onlyGivenNames x1 x2 x3 x4
  clear_value x1
  clear_value x2
  have hx3 : OnlyChanges [.pwr, .funcs, .vlt, .errLog, .errSeq, .out] s x3 := by
    unfold x3
    refine OnlyChanges.step (updPwr_frame _ _) ?_
    exact (OnlyChanges.refl _ s)
  clear_value x3
  have hx4 : OnlyChanges [.pwr, .funcs, .vlt, .errLog, .errSeq, .out] s x4 := by
    unfold x4
    refine OnlyChanges.step (sendLtr_frame _ _) ?_
    refine OnlyChanges.step (logErr_frame _ _ _ _ _) ?_
    refine OnlyChanges.step (restorePush_frame _) ?_
    exact hx3
  clear_value x4
  split
  · refine OnlyChanges.ite1 ?_ ?_
    · refine OnlyChanges.step (startDump_frame _) ?_
      exact hx4
    · exact hx4
  · exact hx4

theorem execRungExitPoint_frame a1 a2 (s : State) : OnlyChangesQ [.pwr, .tt, .adm, .funcs, .ctxs, .cache, .locks, .journal, .groups, .vols, .freedVols, .mports, .mem, .vlt, .mbx, .fare, .errLog, .errSeq, .defLog, .defSeq, .rb, .fresh, .out, .freeCtr, .seqCtr] s (execRungExitPoint a1 a2 s) := by
  unfold execRungExitPoint
  refine OnlyChangesQ.next ?_
  refine OnlyChanges.ite1 ?_ ?_
  · exact (OnlyChanges.refl _ s)
  · refine OnlyChanges.ite1 ?_ ?_
    · refine OnlyChanges.step (exitShallow_frame _) ?_
      exact (OnlyChanges.refl _ s)
    · refine OnlyChanges.ite1 ?_ ?_
      · exact (OnlyChanges.refl _ s)
      · refine OnlyChanges.step (exitDeep_frame _ _ _) ?_
        exact (OnlyChanges.refl _ s)

theorem execSelfTestStepDone_frame a1 a2 (s : State) : OnlyChangesQ [.pwr, .mports, .rb, .out] s (execSelfTestStepDone a1 a2 s) := by
  unfold execSelfTestStepDone
  refine OnlyChangesQ.next ?_
  refine OnlyChanges.ite1 ?_ ?_
  · exact (OnlyChanges.refl _ s)
  · split
    · refine OnlyChanges.step (enterHeld_frame _ _ _) ?_
      exact (OnlyChanges.refl _ s)
    · refine OnlyChanges.step (updPwr_frame _ _) ?_
      exact (OnlyChanges.refl _ s)

theorem execSupplyFaultTimeout_frame a1 (s : State) : OnlyChangesQ [.pwr] s (execSupplyFaultTimeout a1 s) := by
  unfold execSupplyFaultTimeout
  refine OnlyChangesQ.next ?_
  refine OnlyChanges.ite1 ?_ ?_
  · refine OnlyChanges.step (supplyFault_frame _ _) ?_
    exact (OnlyChanges.refl _ s)
  · exact (OnlyChanges.refl _ s)

theorem execVauxBelowInhibit_frame a1 (s : State) : OnlyChangesQ [.pwr] s (execVauxBelowInhibit a1 s) := by
  unfold execVauxBelowInhibit
  refine OnlyChangesQ.next ?_
  refine OnlyChanges.step (updPwr_frame _ _) ?_
  exact (OnlyChanges.refl _ s)

theorem execVauxBrownout_frame a1 (s : State) : OnlyChangesQ [.pwr, .tt, .adm, .ports, .funcs, .reads, .nextTag, .ctxs, .engineFree, .cache, .locks, .journal, .groups, .vols, .freedVols, .mports, .mem, .vlt, .movers, .xlate, .progs, .mbx, .fare, .errLog, .errSeq, .defLog, .defSeq, .rb, .fresh, .fetchDue, .out] s (execVauxBrownout a1 s) := by
  unfold execVauxBrownout
  refine OnlyChangesQ.next ?_
  refine OnlyChanges.ite1 ?_ ?_
  · refine OnlyChanges.step (updPwr_frame _ _) ?_
    exact (OnlyChanges.refl _ s)
  · refine OnlyChanges.step (updPwr_frame _ _) ?_
    refine OnlyChanges.step (toOff_frame _ _) ?_
    exact (OnlyChanges.refl _ s)

theorem execVauxInhibitClear_frame a1 (s : State) : OnlyChangesQ [.pwr] s (execVauxInhibitClear a1 s) := by
  unfold execVauxInhibitClear
  refine OnlyChangesQ.next ?_
  refine OnlyChanges.step (updPwr_frame _ _) ?_
  exact (OnlyChanges.refl _ s)

theorem execVauxRelease_frame a1 (s : State) : OnlyChangesQ [.pwr, .ports, .funcs, .vlt] s (execVauxRelease a1 s) := by
  unfold execVauxRelease
  extract_lets -merge -underBinder +onlyGivenNames x1
  have hx1 : OnlyChanges [.pwr, .ports, .funcs, .vlt] s x1 := by
    unfold x1
    refine OnlyChanges.step (updPwr_frame _ _) ?_
    exact (OnlyChanges.refl _ s)
  clear_value x1
  refine OnlyChangesQ.next ?_
  refine OnlyChanges.ite1 ?_ ?_
  · exact (OnlyChanges.refl _ s)
  · refine OnlyChanges.ite1 ?_ ?_
    · refine OnlyChanges.step (riseReset_frame _) ?_
      exact hx1
    · exact hx1

end Sys2Proof.Machine
end

