-- ==== Sys2Proof/Laws/FramesRegisters.lean ====
section
/-! SUPPORT. Which parts of the state each function of Machine/Registers.lean can change. -/

set_option Elab.async false

namespace Sys2Proof.Machine

theorem clearBox_frame (s : State) a2 a3 : OnlyChanges [.mbx] s (clearBox s a2 a3) := by
  unfold clearBox
  refine OnlyChanges.ite1 ?_ ?_
  · refine OnlyChanges.step (updBox_frame _ _ _) ?_
    exact (OnlyChanges.refl _ s)
  · exact (OnlyChanges.refl _ s)

theorem writeBinding_frame (s : State) a2 a3 a4 : OnlyChanges [.mbx] s (writeBinding s a2 a3 a4) := by
  unfold writeBinding
  refine OnlyChanges.step (updBox_frame _ _ _) ?_
  exact (OnlyChanges.refl _ s)

theorem writeEvt_frame (s : State) a2 a3 a4 : OnlyChanges [.mbx] s (writeEvt s a2 a3 a4) := by
  unfold writeEvt
  refine OnlyChanges.step (updBox_frame _ _ _) ?_
  exact (OnlyChanges.refl _ s)

theorem writeMsg_frame (s : State) a2 a3 a4 a5 : OnlyChanges [.funcs, .mbx, .fresh] s (writeMsg s a2 a3 a4 a5) := by
  unfold writeMsg
  extract_lets -merge -underBinder +onlyGivenNames x1
  clear_value x1
  refine OnlyChanges.ite1 ?_ ?_
  · refine OnlyChanges.step (ignoreAccess_frame _ _ _) ?_
    exact (OnlyChanges.refl _ s)
  · refine OnlyChanges.step (updBox_frame _ _ _) ?_
    exact (OnlyChanges.refl _ s)

theorem writeTmo_frame (s : State) a2 a3 a4 : OnlyChanges [.funcs, .mbx, .fresh] s (writeTmo s a2 a3 a4) := by
  unfold writeTmo
  refine OnlyChanges.ite1 ?_ ?_
  · refine OnlyChanges.step (ignoreAccess_frame _ _ _) ?_
    exact (OnlyChanges.refl _ s)
  · refine OnlyChanges.step (updBox_frame _ _ _) ?_
    exact (OnlyChanges.refl _ s)

theorem writeBox_frame (s : State) a2 a3 a4 a5 : OnlyChangesO [.funcs, .mbx, .fresh] s (writeBox s a2 a3 a4 a5) := by
  unfold writeBox
  refine OnlyChanges.ite3 ?_ ?_
  · refine OnlyChangesO.some ?_
    exact (OnlyChanges.refl _ s)
  · refine OnlyChanges.ite3 ?_ ?_
    · refine OnlyChangesO.some ?_
      refine OnlyChanges.step (writeMsg_frame _ _ _ _ _) ?_
      exact (OnlyChanges.refl _ s)
    · split
      · refine OnlyChangesO.some ?_
        exact (OnlyChanges.refl _ s)
      · refine OnlyChangesO.some ?_
        exact (OnlyChanges.refl _ s)
      · refine OnlyChangesO.some ?_
        exact (OnlyChanges.refl _ s)
      · refine OnlyChangesO.some ?_
        refine OnlyChanges.step (updBox_frame _ _ _) ?_
        exact (OnlyChanges.refl _ s)
      · refine OnlyChangesO.some ?_
        refine OnlyChanges.step (writeTmo_frame _ _ _ _) ?_
        exact (OnlyChanges.refl _ s)
      · refine OnlyChangesO.some ?_
        refine OnlyChanges.step (writeEvt_frame _ _ _ _) ?_
        exact (OnlyChanges.refl _ s)
      · refine OnlyChanges.ite3 ?_ ?_
        · refine OnlyChangesO.some ?_
          refine OnlyChanges.step (writeBinding_frame _ _ _ _) ?_
          exact (OnlyChanges.refl _ s)
        · exact OnlyChangesO.none

theorem writeFnReg_frame (s : State) a2 a3 a4 : OnlyChangesO [.ports, .funcs, .out] s (writeFnReg s a2 a3 a4) := by
  unfold writeFnReg
  extract_lets -merge -underBinder +onlyGivenNames x1
  clear_value x1
  split
  · refine OnlyChangesO.some ?_
    exact (OnlyChanges.refl _ s)
  · refine OnlyChangesO.some ?_
    refine OnlyChanges.step (updateIntx_frame _ _) ?_
    refine OnlyChanges.step (updFunc_frame _ _ _) ?_
    exact (OnlyChanges.refl _ s)
  · refine OnlyChanges.ite3 ?_ ?_
    · refine OnlyChangesO.some ?_
      refine OnlyChanges.step (updFunc_frame _ _ _) ?_
      exact (OnlyChanges.refl _ s)
    · exact OnlyChangesO.none
  · refine OnlyChanges.ite3 ?_ ?_
    · refine OnlyChangesO.some ?_
      refine OnlyChanges.step (updFunc_frame _ _ _) ?_
      exact (OnlyChanges.refl _ s)
    · exact OnlyChangesO.none
  · refine OnlyChangesO.some ?_
    refine OnlyChanges.ite1 ?_ ?_
    · refine OnlyChanges.step (updFunc_frame _ _ _) ?_
      exact (OnlyChanges.refl _ s)
    · exact (OnlyChanges.refl _ s)
  · refine OnlyChangesO.some ?_
    exact (OnlyChanges.refl _ s)
  · refine OnlyChangesO.some ?_
    exact (OnlyChanges.refl _ s)
  · exact OnlyChangesO.none

theorem writeQueueReg_frame (s : State) a2 a3 a4 : OnlyChanges [.funcs] s (writeQueueReg s a2 a3 a4) := by
  unfold writeQueueReg
  extract_lets -merge -underBinder +onlyGivenNames x1 x2 x3
  clear_value x1
  clear_value x2
  have hx3 : OnlyChanges [.funcs] s x3 := by
    unfold x3
    refine OnlyChanges.ite1 ?_ ?_
    · refine OnlyChanges.step (updSq_frame _ _ _ _) ?_
      exact (OnlyChanges.refl _ s)
    · exact (OnlyChanges.refl _ s)
  clear_value x3
  refine OnlyChanges.ite1 ?_ ?_
  · exact (OnlyChanges.refl _ s)
  · refine OnlyChanges.ite1 ?_ ?_
    · refine OnlyChanges.ite1 ?_ ?_
      · refine OnlyChanges.step (updFunc_frame _ _ _) ?_
        exact hx3
      · exact hx3
    · refine OnlyChanges.ite1 ?_ ?_
      · refine OnlyChanges.step (updCq_frame _ _ _ _) ?_
        exact (OnlyChanges.refl _ s)
      · exact (OnlyChanges.refl _ s)

theorem writeFn_frame (s : State) a2 a3 a4 : OnlyChangesO [.ports, .funcs, .mbx, .fresh, .out] s (writeFn s a2 a3 a4) := by
  have r := OnlyChanges.refl [.ports, .funcs, .mbx, .fresh, .out] s
  unfold writeFn
  refine OnlyChanges.ite3 (OnlyChangesO.step (writeFnReg_frame _ _ _ _) r) (OnlyChanges.ite3
    (OnlyChangesO.some (OnlyChanges.step (writeQueueReg_frame _ _ _ _) r)) (OnlyChanges.ite3 ?_ (OnlyChanges.ite3
    (OnlyChangesO.some (OnlyChanges.step (updFunc_frame _ _ _) r)) OnlyChangesO.none)))
  intro t e
  obtain ⟨i, -, e⟩ := Option.bind_eq_some_iff.mp e
  exact OnlyChangesO.of_eq e (OnlyChangesO.step (writeBox_frame _ _ _ _ _) r)

theorem writeBar0_frame (s : State) a2 a3 a4 a5 : OnlyChanges [.ports, .funcs, .mbx, .fresh, .out] s (writeBar0 s a2 a3 a4 a5) := by
  have r := OnlyChanges.refl [.ports, .funcs, .mbx, .fresh, .out] s
  have g : ∀ v, OnlyChanges [.ports, .funcs, .mbx, .fresh, .out] s ((writeFn s a2 a3 v).getD s) := fun v => OnlyChanges.getD (OnlyChangesO.step (writeFn_frame _ _ _ _) r) r
  unfold writeBar0
  dsimp only
  refine OnlyChanges.ite1 (OnlyChanges.getD (OnlyChangesO.step (writeFn_frame _ _ _ _) r) (OnlyChanges.step (countIgn_frame _ _) r)) ?_
  split
  · rename_i e
    exact OnlyChangesO.of_eq e (OnlyChangesO.step (writeFn_frame _ _ _ _) (g _))
  · rename_i e
    exact OnlyChanges.step (countIgn_frame _ _) (OnlyChangesO.of_eq e (OnlyChangesO.step (writeFn_frame _ _ _ _) (g _)))
  · exact OnlyChanges.step (countIgn_frame _ _) (g _)

theorem writeExpQ_frame (s : State) a2 a3 a4 : OnlyChanges [.adm, .rb] s (writeExpQ s a2 a3 a4) := by
  unfold writeExpQ
  extract_lets -merge -underBinder +onlyGivenNames x1
  clear_value x1
  refine OnlyChanges.step (rbChange_frame _) ?_
  refine OnlyChanges.step (updAdm_frame _ _) ?_
  exact (OnlyChanges.refl _ s)

theorem writeAdm_frame (s : State) a2 a3 : OnlyChanges [.adm, .rb] s (writeAdm s a2 a3) := by
  unfold writeAdm
  split
  · refine OnlyChanges.step (updAdm_frame _ _) ?_
    exact (OnlyChanges.refl _ s)
  · refine OnlyChanges.step (rbChange_frame _) ?_
    refine OnlyChanges.step (updAdm_frame _ _) ?_
    exact (OnlyChanges.refl _ s)
  · refine OnlyChanges.step (rbChange_frame _) ?_
    refine OnlyChanges.step (updAdm_frame _ _) ?_
    exact (OnlyChanges.refl _ s)
  · split
    · refine OnlyChanges.step (writeExpQ_frame _ _ _ _) ?_
      exact (OnlyChanges.refl _ s)
    · refine OnlyChanges.step (updAdm_frame _ _) ?_
      exact (OnlyChanges.refl _ s)
    · exact (OnlyChanges.refl _ s)

theorem writeDepth_frame (s : State) a2 a3 : OnlyChanges [.adm, .groups, .mports, .errLog, .errSeq, .rb, .out] s (writeDepth s a2 a3) := by
  unfold writeDepth
  split
  · exact (OnlyChanges.refl _ s)
  · extract_lets -merge -underBinder +onlyGivenNames x1 x2
    clear_value x1
    have hx2 : OnlyChanges [.adm, .groups, .mports, .errLog, .errSeq, .rb, .out] s x2 := by
      unfold x2
      refine OnlyChanges.ite1 ?_ ?_
      · refine OnlyChanges.step (undefinedField_frame _ _ _) ?_
        exact (OnlyChanges.refl _ s)
      · exact (OnlyChanges.refl _ s)
    clear_value x2
    refine OnlyChanges.step (rbChange_frame _) ?_
    refine OnlyChanges.step (applyDepth_frame _ _) ?_
    refine OnlyChanges.step (updGroup_frame _ _ _) ?_
    exact hx2

theorem writeMem_frame (s : State) a2 a3 : OnlyChanges [.adm, .groups, .mports, .mem, .errLog, .errSeq, .rb, .out] s (writeMem s a2 a3) := by
  unfold writeMem
  split
  · refine OnlyChanges.step (writeDepth_frame _ _ _) ?_
    exact (OnlyChanges.refl _ s)
  · refine OnlyChanges.step (updMport_frame _ _ _) ?_
    exact (OnlyChanges.refl _ s)
  · exact OnlyChanges.of (OnlyChanges.refl _ s) (by intro p hp; cases p <;> first | exact absurd (by decide) hp | exact rfl)

theorem writeMov_frame (s : State) a2 a3 a4 : OnlyChanges [.movers, .errLog, .errSeq] s (writeMov s a2 a3 a4) := by
  unfold writeMov
  split
  · extract_lets -merge -underBinder +onlyGivenNames x1 x2
    clear_value x1
    have hx2 : OnlyChanges [.movers, .errLog, .errSeq] s x2 := by
      unfold x2
      refine OnlyChanges.ite1 ?_ ?_
      · refine OnlyChanges.step (undefinedField_frame _ _ _) ?_
        exact (OnlyChanges.refl _ s)
      · exact (OnlyChanges.refl _ s)
    clear_value x2
    refine OnlyChanges.ite1 ?_ ?_
    · refine OnlyChanges.step (putChan_frame _ _ _ _) ?_
      exact hx2
    · exact (OnlyChanges.refl _ s)
  · exact (OnlyChanges.refl _ s)

theorem writePwr_frame (s : State) a2 a3 : OnlyChanges [.pwr, .errLog, .errSeq] s (writePwr s a2 a3) := by
  unfold writePwr
  extract_lets -merge -underBinder +onlyGivenNames x1 x2
  clear_value x1
  have hx2 : OnlyChanges [.pwr, .errLog, .errSeq] s x2 := by
    unfold x2
    refine OnlyChanges.ite1 ?_ ?_
    · refine OnlyChanges.step (undefinedField_frame _ _ _) ?_
      exact (OnlyChanges.refl _ s)
    · exact (OnlyChanges.refl _ s)
  clear_value x2
  refine OnlyChanges.ite1 ?_ ?_
  · refine OnlyChanges.step (updPwr_frame _ _) ?_
    exact hx2
  · exact (OnlyChanges.refl _ s)

theorem writeBlock_frame (s : State) a2 a3 a4 : OnlyChanges [.pwr, .tt, .adm, .funcs, .groups, .mports, .mem, .vlt, .movers, .mbx, .fare, .errLog, .errSeq, .rb, .fresh, .out] s (writeBlock s a2 a3 a4) := by
  unfold writeBlock
  split
  · refine OnlyChanges.step (updTt_frame _ _) ?_
    exact (OnlyChanges.refl _ s)
  · refine OnlyChanges.step (writeAdm_frame _ _ _) ?_
    exact (OnlyChanges.refl _ s)
  · refine OnlyChanges.step (updVlt_frame _ _) ?_
    exact (OnlyChanges.refl _ s)
  · refine OnlyChanges.step (writeMem_frame _ _ _) ?_
    exact (OnlyChanges.refl _ s)
  · refine OnlyChanges.step (writePwr_frame _ _ _) ?_
    exact (OnlyChanges.refl _ s)
  · extract_lets -merge -underBinder +onlyGivenNames x1
    clear_value x1
    refine OnlyChanges.ite1 ?_ ?_
    · exact OnlyChanges.of (OnlyChanges.refl _ s) (by intro p hp; cases p <;> first | exact absurd (by decide) hp | exact rfl)
    · exact (OnlyChanges.refl _ s)
  · refine OnlyChanges.ite1 ?_ ?_
    · refine OnlyChanges.step (updMbx_frame _ _) ?_
      exact (OnlyChanges.refl _ s)
    · exact (OnlyChanges.refl _ s)
  · refine OnlyChanges.ite1 ?_ ?_
    · refine OnlyChanges.getD ?_ ?_
      · refine OnlyChangesO.step (writeBox_frame _ _ _ _ _) ?_
        exact (OnlyChanges.refl _ s)
      · exact (OnlyChanges.refl _ s)
    · exact (OnlyChanges.refl _ s)
  · refine OnlyChanges.step (writeMov_frame _ _ _ _) ?_
    exact (OnlyChanges.refl _ s)
  · refine OnlyChanges.ite1 ?_ ?_
    · refine OnlyChanges.step (updWin_frame _ _ _ _) ?_
      exact (OnlyChanges.refl _ s)
    · exact (OnlyChanges.refl _ s)
  · exact (OnlyChanges.refl _ s)

theorem writeMap_frame (s : State) a2 a3 a4 a5 : OnlyChanges [.pwr, .tt, .adm, .funcs, .groups, .mports, .mem, .vlt, .movers, .mbx, .fare, .errLog, .errSeq, .rb, .fresh, .out] s (writeMap s a2 a3 a4 a5) := by
  unfold writeMap
  extract_lets -merge -underBinder +onlyGivenNames x1 x2 x3
  clear_value x1
  clear_value x2
  have hx3 : OnlyChanges [.pwr, .tt, .adm, .funcs, .groups, .mports, .mem, .vlt, .movers, .mbx, .fare, .errLog, .errSeq, .rb, .fresh, .out] s x3 := by
    unfold x3
    refine OnlyChanges.step (writeBlock_frame _ _ _ _) ?_
    exact (OnlyChanges.refl _ s)
  clear_value x3
  refine OnlyChanges.ite1 ?_ ?_
  · refine OnlyChanges.step (writeBlock_frame _ _ _ _) ?_
    exact (OnlyChanges.refl _ s)
  · refine OnlyChanges.ite1 ?_ ?_
    · refine OnlyChanges.step (writeBlock_frame _ _ _ _) ?_
      exact hx3
    · exact hx3

theorem execGenericRegisterWrite_frame a1 a2 a3 a4 (s : State) : OnlyChangesQ [.pwr, .tt, .adm, .ports, .funcs, .groups, .mports, .mem, .vlt, .movers, .mbx, .fare, .errLog, .errSeq, .rb, .fresh, .out] s (execGenericRegisterWrite a1 a2 a3 a4 s) := by
  unfold execGenericRegisterWrite
  refine OnlyChangesQ.next ?_
  split
  · split
    · exact (OnlyChanges.refl _ s)
    · refine OnlyChanges.ite1 ?_ ?_
      · refine OnlyChanges.step (poisonIn_frame _ _) ?_
        exact (OnlyChanges.refl _ s)
      · refine OnlyChanges.ite1 ?_ ?_
        · refine OnlyChanges.step (writeBar0_frame _ _ _ _ _) ?_
          exact (OnlyChanges.refl _ s)
        · exact (OnlyChanges.refl _ s)
  · split
    · exact (OnlyChanges.refl _ s)
    · refine OnlyChanges.ite1 ?_ ?_
      · refine OnlyChanges.step (poisonIn_frame _ _) ?_
        exact (OnlyChanges.refl _ s)
      · refine OnlyChanges.step (countIgn_frame _ _) ?_
        exact (OnlyChanges.refl _ s)
  · split
    · refine OnlyChanges.step (refuseCfg_frame _ _) ?_
      exact (OnlyChanges.refl _ s)
    · refine OnlyChanges.ite1 ?_ ?_
      · refine OnlyChanges.step (emit_frame _ _) ?_
        refine OnlyChanges.step (poisonIn_frame _ _) ?_
        exact (OnlyChanges.refl _ s)
      · refine OnlyChanges.ite1 ?_ ?_
        · refine OnlyChanges.step (writeCfgBytes_frame _ _ _ _ _ _) ?_
          exact (OnlyChanges.refl _ s)
        · refine OnlyChanges.step (emit_frame _ _) ?_
          exact (OnlyChanges.refl _ s)
  · exact (OnlyChanges.refl _ s)
  · refine OnlyChanges.ite1 ?_ ?_
    · refine OnlyChanges.step (writeMap_frame _ _ _ _ _) ?_
      exact (OnlyChanges.refl _ s)
    · exact (OnlyChanges.refl _ s)

theorem readBar2_frame (s : State) a2 a3 a4 a5 : OnlyChanges [.out] s (readBar2 s a2 a3 a4 a5) := by
  unfold readBar2
  split
  · refine OnlyChanges.step (emit_frame _ _) ?_
    exact (OnlyChanges.refl _ s)
  · refine OnlyChanges.step (emit_frame _ _) ?_
    exact (OnlyChanges.refl _ s)

theorem readRom_frame (s : State) a2 a3 a4 a5 : OnlyChanges [.out] s (readRom s a2 a3 a4 a5) := by
  unfold readRom
  refine OnlyChanges.ite1 ?_ ?_
  · refine OnlyChanges.step (emit_frame _ _) ?_
    exact (OnlyChanges.refl _ s)
  · refine OnlyChanges.foldl (fun x1 x2 hx1 => ?_) ?_
    · refine OnlyChanges.step (emit_frame _ _) ?_
      exact hx1
    · exact (OnlyChanges.refl _ s)

theorem regClear_frame (s : State) a2 a3 : OnlyChanges [.pwr, .tt, .funcs, .mports, .vlt, .movers, .mbx] s (regClear s a2 a3) := by
  unfold regClear
  split
  · refine OnlyChanges.ite1 ?_ ?_
    · split
      · refine OnlyChanges.step (clearBox_frame _ _ _) ?_
        exact (OnlyChanges.refl _ s)
      · exact (OnlyChanges.refl _ s)
    · refine OnlyChanges.step (updFunc_frame _ _ _) ?_
      exact (OnlyChanges.refl _ s)
  · refine OnlyChanges.ite1 ?_ ?_
    · refine OnlyChanges.step (updTt_frame _ _) ?_
      exact (OnlyChanges.refl _ s)
    · exact (OnlyChanges.refl _ s)
  · split
    · refine OnlyChanges.step (updVlt_frame _ _) ?_
      exact (OnlyChanges.refl _ s)
    · refine OnlyChanges.step (updVlt_frame _ _) ?_
      exact (OnlyChanges.refl _ s)
    · exact (OnlyChanges.refl _ s)
  · split
    · refine OnlyChanges.step (updMport_frame _ _ _) ?_
      exact (OnlyChanges.refl _ s)
    · exact (OnlyChanges.refl _ s)
  · split
    · refine OnlyChanges.step (updPwr_frame _ _) ?_
      exact (OnlyChanges.refl _ s)
    · refine OnlyChanges.step (updPwr_frame _ _) ?_
      exact (OnlyChanges.refl _ s)
    · exact (OnlyChanges.refl _ s)
  · refine OnlyChanges.step (clearBox_frame _ _ _) ?_
    exact (OnlyChanges.refl _ s)
  · refine OnlyChanges.step (updMover_frame _ _ _) ?_
    exact (OnlyChanges.refl _ s)
  · refine OnlyChanges.step (updWin_frame _ _ _ _) ?_
    exact (OnlyChanges.refl _ s)
  · exact (OnlyChanges.refl _ s)

theorem regAccess_frame (s : State) a2 a3 a4 : OnlyChanges [.pwr, .tt, .funcs, .mports, .vlt, .movers, .mbx, .out] s (regAccess s a2 a3 a4) := by
  unfold regAccess
  split
  · extract_lets -merge -underBinder +onlyGivenNames x1
    have hx1 : OnlyChanges [.pwr, .tt, .funcs, .mports, .vlt, .movers, .mbx, .out] s x1 := by
      unfold x1
      refine OnlyChanges.step (regClear_frame _ _ _) ?_
      exact (OnlyChanges.refl _ s)
    clear_value x1
    refine OnlyChanges.step (emit_frame _ _) ?_
    refine OnlyChanges.ite1 ?_ ?_
    · refine OnlyChanges.step (regClear_frame _ _ _) ?_
      exact hx1
    · exact hx1
  · exact (OnlyChanges.refl _ s)

theorem execReadToClear_frame a1 a2 (s : State) : OnlyChangesQ [.pwr, .tt, .funcs, .mports, .vlt, .movers, .mbx, .out] s (execReadToClear a1 a2 s) := by
  unfold execReadToClear
  refine OnlyChangesQ.next ?_
  split
  · split
    · refine OnlyChanges.step (refuseCfg_frame _ _) ?_
      exact (OnlyChanges.refl _ s)
    · refine OnlyChanges.ite1 ?_ ?_
      · refine OnlyChanges.step (emit_frame _ _) ?_
        exact (OnlyChanges.refl _ s)
      · refine OnlyChanges.step (emit_frame _ _) ?_
        exact (OnlyChanges.refl _ s)
  · split
    · exact (OnlyChanges.refl _ s)
    · refine OnlyChanges.ite1 ?_ ?_
      · refine OnlyChanges.step (emit_frame _ _) ?_
        exact (OnlyChanges.refl _ s)
      · refine OnlyChanges.ite1 ?_ ?_
        · refine OnlyChanges.step (regAccess_frame _ _ _ _) ?_
          exact (OnlyChanges.refl _ s)
        · refine OnlyChanges.step (emit_frame _ _) ?_
          exact (OnlyChanges.refl _ s)
  · split
    · exact (OnlyChanges.refl _ s)
    · refine OnlyChanges.ite1 ?_ ?_
      · refine OnlyChanges.step (emit_frame _ _) ?_
        exact (OnlyChanges.refl _ s)
      · refine OnlyChanges.step (readBar2_frame _ _ _ _ _) ?_
        exact (OnlyChanges.refl _ s)
  · split
    · exact (OnlyChanges.refl _ s)
    · refine OnlyChanges.step (readRom_frame _ _ _ _ _) ?_
      exact (OnlyChanges.refl _ s)
  · refine OnlyChanges.ite1 ?_ ?_
    · refine OnlyChanges.step (regAccess_frame _ _ _ _) ?_
      exact (OnlyChanges.refl _ s)
    · exact (OnlyChanges.refl _ s)

end Sys2Proof.Machine
end

