-- ==== Sys2Proof/Laws/FramesVerify.lean ====
section
/-! SUPPORT. Which parts of the state each function of Machine/Verify.lean can change. -/

set_option Elab.async false

namespace Sys2Proof.Machine

theorem dropStaging_frame (s : State) a2 : OnlyChanges [.progs] s (dropStaging s a2) := by
  unfold dropStaging
  extract_lets -merge -underBinder +onlyGivenNames x1
  clear_value x1
  exact OnlyChanges.of (OnlyChanges.refl _ s) (by intro p hp; cases p <;> first | exact absurd (by decide) hp | exact rfl)

theorem installProgram_frame (s : State) a2 a3 : OnlyChanges [.ctxs, .cache, .groups, .mports, .mem, .progs, .errLog, .errSeq, .rb] s (installProgram s a2 a3) := by
  unfold installProgram
  extract_lets -merge -underBinder +onlyGivenNames x1 x2 x3 x4 x5
  clear_value x1
  clear_value x2
  clear_value x3
  have hx4 : OnlyChanges [.ctxs, .cache, .groups, .mports, .mem, .progs, .errLog, .errSeq, .rb] s x4 := by
    unfold x4
    split
    · extract_lets -merge -underBinder +onlyGivenNames x6
      clear_value x6
      refine OnlyChanges.ite1 ?_ ?_
      · exact OnlyChanges.of (OnlyChanges.refl _ s) (by intro p hp; cases p <;> first | exact absurd (by decide) hp | exact rfl)
      · exact (OnlyChanges.refl _ s)
    · exact (OnlyChanges.refl _ s)
  clear_value x4
  clear_value x5
  refine OnlyChanges.step (reassemble_frame _ _) ?_
  exact OnlyChanges.of hx4 (by intro p hp; cases p <;> first | exact absurd (by decide) hp | exact rfl)

theorem loadSegment_frame (s : State) a2 : OnlyChanges [.funcs, .ctxs, .cache, .groups, .mports, .mem, .progs, .errLog, .errSeq, .rb, .out, .seqCtr] s (loadSegment s a2) := by
  unfold loadSegment
  extract_lets -merge -underBinder +onlyGivenNames x1 x2 x3
  clear_value x1
  clear_value x2
  clear_value x3
  refine OnlyChanges.ite1 ?_ ?_
  · refine OnlyChanges.step (adminBad_frame _ _) ?_
    exact (OnlyChanges.refl _ s)
  · split
    · refine OnlyChanges.step (adminBad_frame _ _) ?_
      refine OnlyChanges.step (dropStaging_frame _ _) ?_
      exact (OnlyChanges.refl _ s)
    · extract_lets -merge -underBinder +onlyGivenNames x4 x5
      clear_value x4
      have hx5 : OnlyChanges [.funcs, .ctxs, .cache, .groups, .mports, .mem, .progs, .errLog, .errSeq, .rb, .out, .seqCtr] s x5 := by
        unfold x5
        refine OnlyChanges.step (dropStaging_frame _ _) ?_
        exact (OnlyChanges.refl _ s)
      clear_value x5
      refine OnlyChanges.ite1 ?_ ?_
      · refine OnlyChanges.step (adminOk_frame _ _) ?_
        exact OnlyChanges.of (OnlyChanges.refl _ s) (by intro p hp; cases p <;> first | exact absurd (by decide) hp | exact rfl)
      · split
        · refine OnlyChanges.step (adminOk_frame _ _) ?_
          refine OnlyChanges.step (installProgram_frame _ _ _) ?_
          exact hx5
        · refine OnlyChanges.step (adminDone_frame _ _ _ _) ?_
          refine OnlyChanges.step (logErr_frame _ _ _ _ _) ?_
          exact hx5

theorem execLoadProgram_frame a1 (s : State) : OnlyChangesQ [.ports, .funcs, .ctxs, .cache, .groups, .mports, .mem, .progs, .mbx, .errLog, .errSeq, .rb, .fresh, .out, .seqCtr] s (execLoadProgram a1 s) := by
  unfold execLoadProgram
  refine OnlyChangesQ.next ?_
  refine adminRun_frame ?_ ?_
  · intro x1 x2 hx2
    refine OnlyChanges.step (loadSegment_frame _ _) ?_
    exact hx2
  · exact (OnlyChanges.refl _ s)

end Sys2Proof.Machine
end

