-- ==== Sys2Proof/Laws/Hbm.lean ====
section
/-! SUPPORT. The HBM address space (R27): its regions follow each other without a gap, and what the model counts by
number (frames, sidings, records) fills its region. -/

namespace Sys2Proof.Config

/-- Each region begins where the one before it ends. -/
theorem hbmRegions_contiguous : hbmRegions.IsChain fun a b => a.base + a.size = b.base := by decide

/-- The regions fill 48 GiB (R2). -/
theorem hbmRegions_size : (hbmRegions.map HbmRegion.size).sum = 48 * 2 ^ 30 := by decide

/-- A cache frame lies in the region of cache frames. -/
theorem frameAddr_region {fr : Nat} (h : fr < frames) : frameAddr fr + blockBytes ≤ 46 * 2 ^ 30 := by
  simp only [frameAddr, frames, blockBytes] at *; omega

/-- A siding lies in the region of sidings. -/
theorem sidingAddr_region {n : Nat} (h : n < sidings) :
    0xB80000000 ≤ sidingAddr n ∧ sidingAddr n + 512 ≤ 0xB88000000 := by
  simp only [sidingAddr, sidings] at *; omega

/-- A journal record lies in the journal region. -/
theorem recordAddr_region {n : Nat} (h : n < journalRecords) :
    0xB88000000 ≤ recordAddr n ∧ recordAddr n + 128 ≤ 0xB89000000 := by
  simp only [recordAddr, journalRecords] at *; omega

end Sys2Proof.Config
end

