-- ==== Sys2Proof/Laws/Tab.lean ====
section
/-! SUPPORT. Finite tables: reading after a change, and that every change keeps the keys in rising order. -/

namespace Sys2Proof

variable {α : Type}

@[simp] theorem Tab.find_put_same (t : Tab α) (k : Nat) (v : α) : Tab.find (Tab.put t k v) k = some v := by
  induction t with
  | nil => simp [Tab.put, Tab.find]
  | cons p t ih =>
    obtain ⟨a, x⟩ := p
    unfold Tab.put
    split
    · simp [Tab.find]
    · split
      · simp [Tab.find]
      · simp [Tab.find, *]

theorem Tab.find_put_other (t : Tab α) {k j : Nat} (v : α) (h : j ≠ k) : Tab.find (Tab.put t k v) j = Tab.find t j := by
  induction t with
  | nil => simp [Tab.put, Tab.find, h]
  | cons p t ih =>
    obtain ⟨a, x⟩ := p
    unfold Tab.put
    split
    · simp [Tab.find, h]
    · split
      · subst_vars; simp [Tab.find, h]
      · simp [Tab.find, ih]

@[simp] theorem Tab.find_upd_same (t : Tab α) (k : Nat) (f : α → α) : Tab.find (Tab.upd t k f) k = (Tab.find t k).map f := by
  unfold Tab.upd
  split <;> simp [*]

theorem Tab.find_upd_other (t : Tab α) {k j : Nat} (f : α → α) (h : j ≠ k) : Tab.find (Tab.upd t k f) j = Tab.find t j := by
  unfold Tab.upd
  split
  · exact Tab.find_put_other _ _ h
  · rfl

theorem Tab.find_mapVal (t : Tab α) (f : Nat → α → α) (k : Nat) : Tab.find (Tab.mapVal t f) k = (Tab.find t k).map (f k) := by
  induction t with
  | nil => rfl
  | cons p t ih =>
    obtain ⟨a, x⟩ := p
    simp only [Tab.mapVal, List.map_cons, Tab.find] at ih ⊢
    split
    · subst_vars; rfl
    · exact ih

theorem Tab.find_del_other (t : Tab α) {k j : Nat} (h : j ≠ k) : Tab.find (Tab.del t k) j = Tab.find t j := by
  induction t with
  | nil => rfl
  | cons p t ih =>
    obtain ⟨a, x⟩ := p
    unfold Tab.del
    split
    · subst_vars; simp [Tab.find, h]
    · simp [Tab.find, ih]

/-- Every key of a table is above a bound. -/
theorem Tab.sorted_cons {a : Nat} {x : α} {t : Tab α} (h : Tab.sorted ((a, x) :: t) = true) :
    Tab.sorted t = true ∧ ∀ p ∈ t, a < p.1 := by
  induction t generalizing a x with
  | nil => exact ⟨rfl, by simp⟩
  | cons p t ih =>
    obtain ⟨b, y⟩ := p
    simp only [Tab.sorted, Bool.and_eq_true, decide_eq_true_eq] at h
    refine ⟨h.2, ?_⟩
    intro q hq
    rcases List.mem_cons.mp hq with rfl | hq
    · exact h.1
    · exact Nat.lt_trans h.1 ((ih h.2).2 q hq)

theorem Tab.sorted_of {a : Nat} {x : α} {t : Tab α} (h : Tab.sorted t = true) (k : ∀ p ∈ t, a < p.1) :
    Tab.sorted ((a, x) :: t) = true := by
  cases t with
  | nil => rfl
  | cons p t =>
    obtain ⟨b, y⟩ := p
    simp only [Tab.sorted, Bool.and_eq_true, decide_eq_true_eq]
    exact ⟨k (b, y) List.mem_cons_self, h⟩

theorem Tab.mem_put {t : Tab α} {k : Nat} {v : α} {p : Nat × α} (h : p ∈ Tab.put t k v) : p = (k, v) ∨ p ∈ t := by
  induction t with
  | nil => simpa [Tab.put] using h
  | cons q t ih =>
    obtain ⟨a, x⟩ := q
    unfold Tab.put at h
    split at h
    · simpa using h
    · split at h
      · rcases List.mem_cons.mp h with h | h
        · exact .inl h
        · exact .inr (List.mem_cons_of_mem _ h)
      · rcases List.mem_cons.mp h with h | h
        · exact .inr (h ▸ List.mem_cons_self)
        · exact (ih h).imp id (List.mem_cons_of_mem _)

theorem Tab.mem_del {t : Tab α} {k : Nat} {p : Nat × α} (h : p ∈ Tab.del t k) : p ∈ t := by
  induction t with
  | nil => simp [Tab.del] at h
  | cons q t ih =>
    obtain ⟨a, x⟩ := q
    unfold Tab.del at h
    split at h
    · exact List.mem_cons_of_mem _ h
    · rcases List.mem_cons.mp h with h | h
      · exact h ▸ List.mem_cons_self
      · exact List.mem_cons_of_mem _ (ih h)

theorem Tab.sorted_put {t : Tab α} {k : Nat} {v : α} (h : Tab.sorted t = true) : Tab.sorted (Tab.put t k v) = true := by
  induction t with
  | nil => rfl
  | cons q t ih =>
    obtain ⟨a, x⟩ := q
    have c := Tab.sorted_cons h
    unfold Tab.put
    split
    · rename_i lt
      refine Tab.sorted_of h fun p hp => ?_
      rcases List.mem_cons.mp hp with rfl | hp
      · exact lt
      · exact Nat.lt_trans lt (c.2 p hp)
    · split
      · subst_vars
        exact Tab.sorted_of c.1 c.2
      · refine Tab.sorted_of (ih c.1) fun p hp => ?_
        rcases Tab.mem_put hp with rfl | hp
        · simp only; omega
        · exact c.2 p hp

theorem Tab.sorted_del {t : Tab α} {k : Nat} (h : Tab.sorted t = true) : Tab.sorted (Tab.del t k) = true := by
  induction t with
  | nil => rfl
  | cons q t ih =>
    obtain ⟨a, x⟩ := q
    have c := Tab.sorted_cons h
    unfold Tab.del
    split
    · exact c.1
    · exact Tab.sorted_of (ih c.1) fun p hp => c.2 p (Tab.mem_del hp)

theorem Tab.sorted_upd {t : Tab α} {k : Nat} {f : α → α} (h : Tab.sorted t = true) : Tab.sorted (Tab.upd t k f) = true := by
  unfold Tab.upd
  split
  · exact Tab.sorted_put h
  · exact h

/-- A key that is removed from a table in rising order has no entry. -/
theorem Tab.find_del_same {t : Tab α} {k : Nat} (h : Tab.sorted t = true) : Tab.find (Tab.del t k) k = none := by
  induction t with
  | nil => rfl
  | cons q t ih =>
    obtain ⟨a, x⟩ := q
    have c := Tab.sorted_cons h
    unfold Tab.del
    split
    · subst_vars
      have : ∀ u : Tab α, (∀ p ∈ u, a < p.1) → Tab.find u a = none := by
        intro u
        induction u with
        | nil => intro _; rfl
        | cons r u ihu =>
          intro hu
          have := hu r List.mem_cons_self
          simp only [Tab.find]
          rw [if_neg (by omega)]
          exact ihu fun p hp => hu p (List.mem_cons_of_mem _ hp)
      exact this t c.2
    · rename_i ne
      simp only [Tab.find, if_neg ne]
      exact ih c.1

end Sys2Proof
end

