-- ==== Sys2Proof/Laws/Memory.lean ====
section
/-! SUPPORT. Storage of bytes: a read after a write, and that every write keeps the canonical form. -/

namespace Sys2Proof

@[simp] theorem Memory.write_unlisted (m : Memory) (a b : Nat) (v : Byte) : (m.write a v).unlisted b = m.unlisted b := rfl

theorem Memory.read_write_other (m : Memory) {a b : Nat} (v : Byte) (h : b ≠ a) : (m.write a v).read b = m.read b := by
  unfold Memory.read Tab.getD
  rw [Memory.write_unlisted]
  unfold Memory.write
  simp only
  split
  · rw [Tab.find_del_other _ h]
  · rw [Tab.find_put_other _ _ h]

theorem Memory.wf_sorted {m : Memory} (h : m.wf = true) : Tab.sorted m.cells = true := by
  unfold Memory.wf at h
  simp only [Bool.and_eq_true] at h
  exact h.1

theorem Memory.read_write_same {m : Memory} (h : m.wf = true) (a : Nat) (v : Byte) : (m.write a v).read a = v := by
  unfold Memory.read Tab.getD
  rw [Memory.write_unlisted]
  unfold Memory.write
  simp only
  split
  · rw [Tab.find_del_same (Memory.wf_sorted h)]
    simp_all
  · rw [Tab.find_put_same]
    rfl

theorem Memory.wf_write {m : Memory} (h : m.wf = true) (a : Nat) (v : Byte) : (m.write a v).wf = true := by
  have hs := Memory.wf_sorted h
  unfold Memory.wf at h ⊢
  simp only [Bool.and_eq_true, List.all_eq_true, decide_eq_true_eq, Memory.write_unlisted] at h ⊢
  unfold Memory.write
  simp only
  split
  · exact ⟨Tab.sorted_del hs, fun c hc => decide_eq_true (h.2 c (Tab.mem_del hc))⟩
  · refine ⟨Tab.sorted_put hs, fun c hc => ?_⟩
    rcases Tab.mem_put hc with rfl | hc
    · exact decide_eq_true ‹_›
    · exact decide_eq_true (h.2 c hc)

theorem Memory.wf_writeList {m : Memory} (h : m.wf = true) (a : Nat) (vs : List Byte) : (m.writeList a vs).wf = true := by
  induction vs generalizing m a with
  | nil => exact h
  | cons v vs ih => exact ih (Memory.wf_write h a v) (a + 1)

theorem Memory.read_writeList_other {m : Memory} {a b : Nat} {vs : List Byte} (h : b < a ∨ a + vs.length ≤ b) :
    (m.writeList a vs).read b = m.read b := by
  induction vs generalizing m a with
  | nil => rfl
  | cons v vs ih =>
    simp only [List.length_cons] at h
    rw [Memory.writeList, ih (by omega), Memory.read_write_other _ _ (by omega)]

theorem Memory.read_writeList_same {m : Memory} (hm : m.wf = true) {a i : Nat} {vs : List Byte} (h : i < vs.length) :
    (m.writeList a vs).read (a + i) = vs[i] := by
  induction vs generalizing m a i with
  | nil => simp at h
  | cons v vs ih =>
    rw [Memory.writeList]
    cases i with
    | zero => rw [Memory.read_writeList_other (by omega)]; exact Memory.read_write_same hm _ _
    | succ i =>
      have := ih (Memory.wf_write hm a v) (a := a + 1) (i := i) (by simpa using h)
      simpa [Nat.add_assoc, Nat.add_comm 1] using this

@[simp] theorem Memory.wf_zero : Memory.zero.wf = true := rfl

@[simp] theorem Memory.wf_free (n : Nat) : (Memory.free n).wf = true := rfl

theorem Memory.wf_ofBytes (bs : List Byte) : (Memory.ofBytes bs).wf = true := Memory.wf_writeList rfl 0 bs

theorem Memory.wf_tabulate (f : Nat → Byte) (os : List Nat) : (Memory.tabulate f os).wf = true := by
  induction os with
  | nil => rfl
  | cons o os ih => exact Memory.wf_write ih o (f o)

end Sys2Proof
end

