-- ==== Sys2Proof/Laws/PerInstr.lean ====
section
/-! SUPPORT. The lemmas per command: no command's footprint holds the queue of those that wait. -/

namespace Sys2Proof.Laws.QueueApart

open Sys2Proof.Machine

/-- The parts that a command may change leave the queue of waiting commands out. -/
def Statement (i : Instr) : Prop := Part.pending ∉ footprint i

theorem apart (i : Instr) : Statement i := by
  unfold Statement
  cases i <;> simp [footprint]

theorem devRstAssert ticks : Statement (.devRstAssert ticks) := apart _
theorem devRstDeassert g0 g1 mgmt pins : Statement (.devRstDeassert g0 g1 mgmt pins) := apart _
theorem railEnableStep : Statement (.railEnableStep) := apart _
theorem supplyFaultTimeout rail : Statement (.supplyFaultTimeout rail) := apart _
theorem powerGoodFall rail : Statement (.powerGoodFall rail) := apart _
theorem vauxBelowInhibit mv : Statement (.vauxBelowInhibit mv) := apart _
theorem vauxInhibitClear mv : Statement (.vauxInhibitClear mv) := apart _
theorem vauxBrownout mv : Statement (.vauxBrownout mv) := apart _
theorem vauxRelease mv : Statement (.vauxRelease mv) := apart _
theorem powerSequenceComplete : Statement (.powerSequenceComplete) := apart _
theorem selfTestStepDone step failed : Statement (.selfTestStepDone step failed) := apart _
theorem bootLoad a b preferB otpOk : Statement (.bootLoad a b preferB otpOk) := apart _
theorem fwStartTimeout : Statement (.fwStartTimeout) := apart _
theorem vaultCheck ok0 ok1 images : Statement (.vaultCheck ok0 ok1 images) := apart _
theorem vaultRateMeasure ns0 ns1 : Statement (.vaultRateMeasure ns0 ns1) := apart _
theorem vaultSsdChange port usable ns0 ns1 : Statement (.vaultSsdChange port usable ns0 ns1) := apart _
theorem groupAssembly labels : Statement (.groupAssembly labels) := apart _
theorem imageRestore seq records blocks maps : Statement (.imageRestore seq records blocks maps) := apart _
theorem journalReplay : Statement (.journalReplay) := apart _
theorem imageRelease seq : Statement (.imageRelease seq) := apart _
theorem enterReady : Statement (.enterReady) := apart _
theorem groupRepair g open_ : Statement (.groupRepair g open_) := apart _
theorem ttcInEdge clock high : Statement (.ttcInEdge clock high) := apart _
theorem ttMissingEdge : Statement .ttMissingEdge := apart _
theorem ttAcquireLapse : Statement .ttAcquireLapse := apart _
theorem cycleEdge temps bankMv : Statement (.cycleEdge temps bankMv) := apart _
theorem possessionLeadNotice port : Statement (.possessionLeadNotice port) := apart _
theorem possNdwinIssue port : Statement (.possNdwinIssue port) := apart _
theorem possDtwinIssue port : Statement (.possDtwinIssue port) := apart _
theorem windowSelectCompletion port ok : Statement (.windowSelectCompletion port ok) := apart _
theorem windowSelectRetry port : Statement (.windowSelectRetry port) := apart _
theorem strayEvent port : Statement (.strayEvent port) := apart _
theorem policyWindowEnd : Statement (.policyWindowEnd) := apart _
theorem fareLatch : Statement (.fareLatch) := apart _
theorem remeasureDue vStart : Statement (.remeasureDue vStart) := apart _
theorem scrubPassStart g : Statement (.scrubPassStart g) := apart _
theorem patrolRead frame line ecc : Statement (.patrolRead frame line ecc) := apart _
theorem pfailQualify : Statement (.pfailQualify) := apart _
theorem memberAbandon : Statement (.memberAbandon) := apart _
theorem dumpWriteCompletion : Statement (.dumpWriteCompletion) := apart _
theorem vCutDetect mv : Statement (.vCutDetect mv) := apart _
theorem thermalTrip sensor reading : Statement (.thermalTrip sensor reading) := apart _
theorem hperstAssert p : Statement (.hperstAssert p) := apart _
theorem hperstDeassert p : Statement (.hperstDeassert p) := apart _
theorem portRebuild p : Statement (.portRebuild p) := apart _
theorem crsPeriodEnd : Statement (.crsPeriodEnd) := apart _
theorem hotReset p : Statement (.hotReset p) := apart _
theorem flr f : Statement (.flr f) := apart _
theorem flrTeardownEnd f : Statement (.flrTeardownEnd f) := apart _
theorem busMasterClear f : Statement (.busMasterClear f) := apart _
theorem busMasterSet f : Statement (.busMasterSet f) := apart _
theorem vfEnableWrite p enable num : Statement (.vfEnableWrite p enable num) := apart _
theorem dStateWrite p d3 : Statement (.dStateWrite p d3) := apart _
theorem ctoValueWrite f value : Statement (.ctoValueWrite f value) := apart _
theorem msixUnmask f vector : Statement (.msixUnmask f vector) := apart _
theorem intxClear f rings status : Statement (.intxClear f rings status) := apart _
theorem genericRegisterWrite block at_ value ep : Statement (.genericRegisterWrite block at_ value ep) := apart _
theorem readToClear block at_ : Statement (.readToClear block at_) := apart _
theorem ttNowRead who how : Statement (.ttNowRead who how) := apart _
theorem sqDoorbell f slot value : Statement (.sqDoorbell f slot value) := apart _
theorem entryFetchCompletion f slot entries ep : Statement (.entryFetchCompletion f slot entries ep) := apart _
theorem shadowPoll f slot : Statement (.shadowPoll f slot) := apart _
theorem pollCompletion f slot value : Statement (.pollCompletion f slot value) := apart _
theorem cqDoorbell f slot value : Statement (.cqDoorbell f slot value) := apart _
theorem pushDoorbell f slot value : Statement (.pushDoorbell f slot value) := apart _
theorem pushEntryWrite f slot off bytes ep : Statement (.pushEntryWrite f slot off bytes ep) := apart _
theorem inlineBufferWrite f slot off bytes ep : Statement (.inlineBufferWrite f slot off bytes ep) := apart _
theorem peerWindowWrite f win off bytes rid ep : Statement (.peerWindowWrite f win off bytes rid ep) := apart _
theorem hostReadCompletion tag ok bytes ep : Statement (.hostReadCompletion tag ok bytes ep) := apart _
theorem completionTimeout tag : Statement (.completionTimeout tag) := apart _
theorem lateHostCompletion tag : Statement (.lateHostCompletion tag) := apart _
theorem dispatch lane : Statement (.dispatch lane) := apart _
theorem completionIssue f slot : Statement (.completionIssue f slot) := apart _
theorem interruptDelayDue f slot : Statement (.interruptDelayDue f slot) := apart _
theorem slotAssign cluster : Statement (.slotAssign cluster) := apart _
theorem threadResume cx : Statement (.threadResume cx) := apart _
theorem waitExpiry cx : Statement (.waitExpiry cx) := apart _
theorem lockWatchdog g stripe : Statement (.lockWatchdog g stripe) := apart _
theorem orphanRecordReplay g stripe : Statement (.orphanRecordReplay g stripe) := apart _
theorem memberCompletion port cid status : Statement (.memberCompletion port cid status) := apart _
theorem memberTimeout port cid : Statement (.memberTimeout port cid) := apart _
theorem memberLateCompletion port cid : Statement (.memberLateCompletion port cid) := apart _
theorem memberDmaRequest port cid posted off bytes : Statement (.memberDmaRequest port cid posted off bytes) := apart _
theorem presenceQualified port present : Statement (.presenceQualified port present) := apart _
theorem linkContainment port cause : Statement (.linkContainment port cause) := apart _
theorem memberBringup port info : Statement (.memberBringup port info) := apart _
theorem destageCreate g stripe : Statement (.destageCreate g stripe) := apart _
theorem rebuildStepCreate g : Statement (.rebuildStepCreate g) := apart _
theorem jretireWmRelease cx : Statement (.jretireWmRelease cx) := apart _
theorem scrubStepCreate g : Statement (.scrubStepCreate g) := apart _
theorem zeroingCreate g : Statement (.zeroingCreate g) := apart _
theorem labelWriteCreate g index kind : Statement (.labelWriteCreate g index kind) := apart _
theorem mirrorRehome g : Statement (.mirrorRehome g) := apart _
theorem moverChannelStart m : Statement (.moverChannelStart m) := apart _
theorem moverResume m : Statement (.moverResume m) := apart _
theorem moverReadback m c valid : Statement (.moverReadback m c valid) := apart _
theorem moverChannelComplete m c : Statement (.moverChannelComplete m c) := apart _
theorem movChGo m : Statement (.movChGo m) := apart _
theorem movChHold m hold : Statement (.movChHold m hold) := apart _
theorem translationCompletion f pasid page pages addr read write : Statement (.translationCompletion f pasid page pages addr read write) := apart _
theorem atsInvalidate f itag page pages : Statement (.atsInvalidate f itag page pages) := apart _
theorem atsInvalidateCompletion f itag : Statement (.atsInvalidateCompletion f itag) := apart _
theorem prgResponse f pasid index code : Statement (.prgResponse f pasid index code) := apart _
theorem winCommit f w : Statement (.winCommit f w) := apart _
theorem winCommitResume f w : Statement (.winCommitResume f w) := apart _
theorem ttLoadArm : Statement (.ttLoadArm) := apart _
theorem ttSwitchArm : Statement (.ttSwitchArm) := apart _
theorem ttRefEnWrite en : Statement (.ttRefEnWrite en) := apart _
theorem ttPlanCommit : Statement (.ttPlanCommit) := apart _
theorem ttPlanEnWrite en : Statement (.ttPlanEnWrite en) := apart _
theorem ttPlanEpochWrite epoch : Statement (.ttPlanEpochWrite epoch) := apart _
theorem ttActiveBankWrite off value : Statement (.ttActiveBankWrite off value) := apart _
theorem admMaintFloorWrite value : Statement (.admMaintFloorWrite value) := apart _
theorem admGroupModeWrite g value : Statement (.admGroupModeWrite g value) := apart _
theorem vltMeasure vStart : Statement (.vltMeasure vStart) := apart _
theorem huTestEnd vEnd : Statement (.huTestEnd vEnd) := apart _
theorem vltLedgerParamWrite pDump value : Statement (.vltLedgerParamWrite pDump value) := apart _
theorem memQuadCfgWrite cfg0 cfg1 : Statement (.memQuadCfgWrite cfg0 cfg1) := apart _
theorem farePeriodWrite value : Statement (.farePeriodWrite value) := apart _
theorem mbxLockRead w agent : Statement (.mbxLockRead w agent) := apart _
theorem mbxLockWrite w agent value : Statement (.mbxLockWrite w agent value) := apart _
theorem mbxPost w agent value : Statement (.mbxPost w agent value) := apart _
theorem mbxTake w agent value : Statement (.mbxTake w agent value) := apart _
theorem mbxTimeout w : Statement (.mbxTimeout w) := apart _
theorem noticePost p : Statement (.noticePost p) := apart _
theorem adminInit p : Statement (.adminInit p) := apart _
theorem bind p : Statement (.bind p) := apart _
theorem unbind p : Statement (.unbind p) := apart _
theorem mbxHbWrite value : Statement (.mbxHbWrite value) := apart _
theorem heartbeatCheck : Statement (.heartbeatCheck) := apart _
theorem reloadHeartbeatTimeout : Statement (.reloadHeartbeatTimeout) := apart _
theorem rungEntryStart : Statement (.rungEntryStart) := apart _
theorem rungCommit : Statement (.rungCommit) := apart _
theorem rungWake e : Statement (.rungWake e) := apart _
theorem rungExitPoint elapsed cycles : Statement (.rungExitPoint elapsed cycles) := apart _
theorem layupRestoreEnd digestOk ticks : Statement (.layupRestoreEnd digestOk ticks) := apart _
theorem read cx lanes : Statement (.read cx lanes) := apart _
theorem write cx hostOk blocks : Statement (.write cx hostOk blocks) := apart _
theorem flush cx : Statement (.flush cx) := apart _
theorem flushDestage cx : Statement (.flushDestage cx) := apart _
theorem writeZeroes cx : Statement (.writeZeroes cx) := apart _
theorem deallocate cx : Statement (.deallocate cx) := apart _
theorem verify cx lanes : Statement (.verify cx lanes) := apart _
theorem identifyVolume a : Statement (.identifyVolume a) := apart _
theorem createVolumeCreate a : Statement (.createVolumeCreate a) := apart _
theorem createVolumeAttach a : Statement (.createVolumeAttach a) := apart _
theorem createVolumeDetach a : Statement (.createVolumeDetach a) := apart _
theorem deleteVolume a : Statement (.deleteVolume a) := apart _
theorem createQueue a : Statement (.createQueue a) := apart _
theorem setPower a : Statement (.setPower a) := apart _
theorem getLog a : Statement (.getLog a) := apart _
theorem loadProgram a : Statement (.loadProgram a) := apart _
theorem bindRoute a : Statement (.bindRoute a) := apart _
theorem setTokens a : Statement (.setTokens a) := apart _
theorem createGroup a : Statement (.createGroup a) := apart _
theorem setTimetable a : Statement (.setTimetable a) := apart _
theorem setWindow a : Statement (.setWindow a) := apart _
theorem memberControlReset a : Statement (.memberControlReset a) := apart _
theorem memberControlFail a : Statement (.memberControlFail a) := apart _
theorem memberControlReplace a : Statement (.memberControlReplace a) := apart _
theorem memberControlProfile a : Statement (.memberControlProfile a) := apart _
theorem memberControlAdopt a : Statement (.memberControlAdopt a) := apart _
theorem memberControlRetireGroup a : Statement (.memberControlRetireGroup a) := apart _
theorem memberControlFormat a : Statement (.memberControlFormat a) := apart _
theorem memberControlSanitize a : Statement (.memberControlSanitize a) := apart _
theorem memberControlScrub a : Statement (.memberControlScrub a) := apart _
theorem memberControlPowerOff a : Statement (.memberControlPowerOff a) := apart _
theorem memberControlSetDepth a : Statement (.memberControlSetDepth a) := apart _
theorem add w : Statement (.add w) := apart _
theorem sub w : Statement (.sub w) := apart _
theorem and w : Statement (.and w) := apart _
theorem or w : Statement (.or w) := apart _
theorem xor w : Statement (.xor w) := apart _
theorem shl w : Statement (.shl w) := apart _
theorem shr w : Statement (.shr w) := apart _
theorem sar w : Statement (.sar w) := apart _
theorem mul w : Statement (.mul w) := apart _
theorem mulhu w : Statement (.mulhu w) := apart _
theorem divu w : Statement (.divu w) := apart _
theorem remu w : Statement (.remu w) := apart _
theorem minu w : Statement (.minu w) := apart _
theorem maxu w : Statement (.maxu w) := apart _
theorem cmp w : Statement (.cmp w) := apart _
theorem flop w : Statement (.flop w) := apart _
theorem ldi w : Statement (.ldi w) := apart _
theorem ldih w : Statement (.ldih w) := apart _
theorem sel w : Statement (.sel w) := apart _
theorem ext w : Statement (.ext w) := apart _
theorem ins w : Statement (.ins w) := apart _
theorem popc w : Statement (.popc w) := apart _
theorem clz w : Statement (.clz w) := apart _
theorem bswap w : Statement (.bswap w) := apart _
theorem br w : Statement (.br w) := apart _
theorem btab w : Statement (.btab w) := apart _
theorem call w : Statement (.call w) := apart _
theorem ret w : Statement (.ret w) := apart _
theorem loop w : Statement (.loop w) := apart _
theorem callm w : Statement (.callm w) := apart _
theorem lds w : Statement (.lds w) := apart _
theorem cld w : Statement (.cld w) := apart _
theorem cst w : Statement (.cst w) := apart _
theorem xtl w : Statement (.xtl w) := apart _
theorem ginfo w : Statement (.ginfo w) := apart _
theorem desc w : Statement (.desc w) := apart _
theorem hread w : Statement (.hread w) := apart _
theorem hwrite w : Statement (.hwrite w) := apart _
theorem post w : Statement (.post w) := apart _
theorem clook w : Statement (.clook w) := apart _
theorem calloc w : Statement (.calloc w) := apart _
theorem cpin w : Statement (.cpin w) := apart _
theorem cunpin w : Statement (.cunpin w) := apart _
theorem lock w : Statement (.lock w) := apart _
theorem unlock w : Statement (.unlock w) := apart _
theorem perm w : Statement (.perm w) := apart _
theorem jopen w : Statement (.jopen w) := apart _
theorem jadd w : Statement (.jadd w) := apart _
theorem jseal w : Statement (.jseal w) := apart _
theorem jretire w : Statement (.jretire w) := apart _
theorem mread w : Statement (.mread w) := apart _
theorem mwrite w : Statement (.mwrite w) := apart _
theorem mwait w : Statement (.mwait w) := apart _
theorem xorv w : Statement (.xorv w) := apart _
theorem gmulv w : Statement (.gmulv w) := apart _
theorem pqgen w : Statement (.pqgen w) := apart _
theorem pqdelta w : Statement (.pqdelta w) := apart _
theorem pqsolve1 w : Statement (.pqsolve1 w) := apart _
theorem pqsolve2 w : Statement (.pqsolve2 w) := apart _
theorem cmpv w : Statement (.cmpv w) := apart _
theorem ttnow w : Statement (.ttnow w) := apart _
theorem dlset w : Statement (.dlset w) := apart _
theorem dlleft w : Statement (.dlleft w) := apart _
theorem wait w : Statement (.wait w) := apart _
theorem yield w : Statement (.yield w) := apart _
theorem trap w : Statement (.trap w) := apart _
theorem halt w : Statement (.halt w) := apart _
theorem rfault w : Statement (.rfault w) := apart _
theorem gelbelGetStatus g : Statement (.gelbelGetStatus g) := apart _
theorem gelbelGetRouteBook g : Statement (.gelbelGetRouteBook g) := apart _
theorem gelbelGetTemp g : Statement (.gelbelGetTemp g) := apart _
theorem gelbelGetFare g : Statement (.gelbelGetFare g) := apart _
theorem tagRead g : Statement (.tagRead g) := apart _
theorem tagWrite g : Statement (.tagWrite g) := apart _
theorem fwUpdateBegin g : Statement (.fwUpdateBegin g) := apart _
theorem fwUpdateData g : Statement (.fwUpdateData g) := apart _
theorem fwUpdateCommit g image : Statement (.fwUpdateCommit g image) := apart _
theorem fwUpdateAbort g : Statement (.fwUpdateAbort g) := apart _
theorem gelbelTimetable g : Statement (.gelbelTimetable g) := apart _
theorem gelbelWake g : Statement (.gelbelWake g) := apart _
theorem vaultRelease g : Statement (.vaultRelease g) := apart _
theorem gelbelMemberControl g : Statement (.gelbelMemberControl g) := apart _
theorem gelbelSetTokens g : Statement (.gelbelSetTokens g) := apart _
theorem gelbelGetLog g : Statement (.gelbelGetLog g) := apart _
theorem mctpSetEndpointId eid : Statement (.mctpSetEndpointId eid) := apart _
theorem mctpGetEndpointId : Statement (.mctpGetEndpointId) := apart _
theorem mctpGetVersionSupport : Statement (.mctpGetVersionSupport) := apart _
theorem mctpGetMessageTypeSupport : Statement (.mctpGetMessageTypeSupport) := apart _
theorem uartHelp : Statement (.uartHelp) := apart _
theorem uartState : Statement (.uartState) := apart _
theorem uartVer : Statement (.uartVer) := apart _
theorem uartTemp : Statement (.uartTemp) := apart _
theorem uartTt : Statement (.uartTt) := apart _
theorem uartRb off len : Statement (.uartRb off len) := apart _
theorem uartTag n : Statement (.uartTag n) := apart _
theorem uartMem port : Statement (.uartMem port) := apart _
theorem uartLog n : Statement (.uartLog n) := apart _
theorem uartVault : Statement (.uartVault) := apart _
theorem uartUnknownCommand : Statement (.uartUnknownCommand) := apart _
theorem refclkLoss : Statement (.refclkLoss) := apart _
theorem hostLinkUp p width speed flit : Statement (.hostLinkUp p width speed flit) := apart _
theorem gelbelUndefinedCommand cmd g : Statement (.gelbelUndefinedCommand cmd g) := apart _
theorem mailboxUndefinedRequest p : Statement (.mailboxUndefinedRequest p) := apart _
theorem memberControlUndefinedAction a : Statement (.memberControlUndefinedAction a) := apart _

end Sys2Proof.Laws.QueueApart
end

