-- ==== Sys2Proof/Laws/State.lean ====
section
/-! SUPPORT. What each update of the state leaves alone: one lemma for each field and each update, and what the updates of
a whole part give. -/

namespace Sys2Proof.Machine

@[simp] theorem updPwr_tt (s : State) g : (updPwr s g).tt = s.tt := rfl
@[simp] theorem updPwr_adm (s : State) g : (updPwr s g).adm = s.adm := rfl
@[simp] theorem updPwr_ports (s : State) g : (updPwr s g).ports = s.ports := rfl
@[simp] theorem updPwr_funcs (s : State) g : (updPwr s g).funcs = s.funcs := rfl
@[simp] theorem updPwr_reads (s : State) g : (updPwr s g).reads = s.reads := rfl
@[simp] theorem updPwr_nextTag (s : State) g : (updPwr s g).nextTag = s.nextTag := rfl
@[simp] theorem updPwr_ctxs (s : State) g : (updPwr s g).ctxs = s.ctxs := rfl
@[simp] theorem updPwr_engineFree (s : State) g : (updPwr s g).engineFree = s.engineFree := rfl
@[simp] theorem updPwr_cache (s : State) g : (updPwr s g).cache = s.cache := rfl
@[simp] theorem updPwr_locks (s : State) g : (updPwr s g).locks = s.locks := rfl
@[simp] theorem updPwr_journal (s : State) g : (updPwr s g).journal = s.journal := rfl
@[simp] theorem updPwr_groups (s : State) g : (updPwr s g).groups = s.groups := rfl
@[simp] theorem updPwr_vols (s : State) g : (updPwr s g).vols = s.vols := rfl
@[simp] theorem updPwr_freedVols (s : State) g : (updPwr s g).freedVols = s.freedVols := rfl
@[simp] theorem updPwr_mports (s : State) g : (updPwr s g).mports = s.mports := rfl
@[simp] theorem updPwr_mem (s : State) g : (updPwr s g).mem = s.mem := rfl
@[simp] theorem updPwr_vlt (s : State) g : (updPwr s g).vlt = s.vlt := rfl
@[simp] theorem updPwr_movers (s : State) g : (updPwr s g).movers = s.movers := rfl
@[simp] theorem updPwr_xlate (s : State) g : (updPwr s g).xlate = s.xlate := rfl
@[simp] theorem updPwr_progs (s : State) g : (updPwr s g).progs = s.progs := rfl
@[simp] theorem updPwr_mbx (s : State) g : (updPwr s g).mbx = s.mbx := rfl
@[simp] theorem updPwr_fare (s : State) g : (updPwr s g).fare = s.fare := rfl
@[simp] theorem updPwr_errLog (s : State) g : (updPwr s g).errLog = s.errLog := rfl
@[simp] theorem updPwr_errSeq (s : State) g : (updPwr s g).errSeq = s.errSeq := rfl
@[simp] theorem updPwr_defLog (s : State) g : (updPwr s g).defLog = s.defLog := rfl
@[simp] theorem updPwr_defSeq (s : State) g : (updPwr s g).defSeq = s.defSeq := rfl
@[simp] theorem updPwr_rb (s : State) g : (updPwr s g).rb = s.rb := rfl
@[simp] theorem updPwr_fresh (s : State) g : (updPwr s g).fresh = s.fresh := rfl
@[simp] theorem updPwr_fetchDue (s : State) g : (updPwr s g).fetchDue = s.fetchDue := rfl
@[simp] theorem updPwr_out (s : State) g : (updPwr s g).out = s.out := rfl
@[simp] theorem updPwr_freeCtr (s : State) g : (updPwr s g).freeCtr = s.freeCtr := rfl
@[simp] theorem updPwr_seqCtr (s : State) g : (updPwr s g).seqCtr = s.seqCtr := rfl
@[simp] theorem updPwr_pending (s : State) g : (updPwr s g).pending = s.pending := rfl

@[simp] theorem updTt_pwr (s : State) g : (updTt s g).pwr = s.pwr := rfl
@[simp] theorem updTt_adm (s : State) g : (updTt s g).adm = s.adm := rfl
@[simp] theorem updTt_ports (s : State) g : (updTt s g).ports = s.ports := rfl
@[simp] theorem updTt_funcs (s : State) g : (updTt s g).funcs = s.funcs := rfl
@[simp] theorem updTt_reads (s : State) g : (updTt s g).reads = s.reads := rfl
@[simp] theorem updTt_nextTag (s : State) g : (updTt s g).nextTag = s.nextTag := rfl
@[simp] theorem updTt_ctxs (s : State) g : (updTt s g).ctxs = s.ctxs := rfl
@[simp] theorem updTt_engineFree (s : State) g : (updTt s g).engineFree = s.engineFree := rfl
@[simp] theorem updTt_cache (s : State) g : (updTt s g).cache = s.cache := rfl
@[simp] theorem updTt_locks (s : State) g : (updTt s g).locks = s.locks := rfl
@[simp] theorem updTt_journal (s : State) g : (updTt s g).journal = s.journal := rfl
@[simp] theorem updTt_groups (s : State) g : (updTt s g).groups = s.groups := rfl
@[simp] theorem updTt_vols (s : State) g : (updTt s g).vols = s.vols := rfl
@[simp] theorem updTt_freedVols (s : State) g : (updTt s g).freedVols = s.freedVols := rfl
@[simp] theorem updTt_mports (s : State) g : (updTt s g).mports = s.mports := rfl
@[simp] theorem updTt_mem (s : State) g : (updTt s g).mem = s.mem := rfl
@[simp] theorem updTt_vlt (s : State) g : (updTt s g).vlt = s.vlt := rfl
@[simp] theorem updTt_movers (s : State) g : (updTt s g).movers = s.movers := rfl
@[simp] theorem updTt_xlate (s : State) g : (updTt s g).xlate = s.xlate := rfl
@[simp] theorem updTt_progs (s : State) g : (updTt s g).progs = s.progs := rfl
@[simp] theorem updTt_mbx (s : State) g : (updTt s g).mbx = s.mbx := rfl
@[simp] theorem updTt_fare (s : State) g : (updTt s g).fare = s.fare := rfl
@[simp] theorem updTt_errLog (s : State) g : (updTt s g).errLog = s.errLog := rfl
@[simp] theorem updTt_errSeq (s : State) g : (updTt s g).errSeq = s.errSeq := rfl
@[simp] theorem updTt_defLog (s : State) g : (updTt s g).defLog = s.defLog := rfl
@[simp] theorem updTt_defSeq (s : State) g : (updTt s g).defSeq = s.defSeq := rfl
@[simp] theorem updTt_rb (s : State) g : (updTt s g).rb = s.rb := rfl
@[simp] theorem updTt_fresh (s : State) g : (updTt s g).fresh = s.fresh := rfl
@[simp] theorem updTt_fetchDue (s : State) g : (updTt s g).fetchDue = s.fetchDue := rfl
@[simp] theorem updTt_out (s : State) g : (updTt s g).out = s.out := rfl
@[simp] theorem updTt_freeCtr (s : State) g : (updTt s g).freeCtr = s.freeCtr := rfl
@[simp] theorem updTt_seqCtr (s : State) g : (updTt s g).seqCtr = s.seqCtr := rfl
@[simp] theorem updTt_pending (s : State) g : (updTt s g).pending = s.pending := rfl

@[simp] theorem updAdm_pwr (s : State) g : (updAdm s g).pwr = s.pwr := rfl
@[simp] theorem updAdm_tt (s : State) g : (updAdm s g).tt = s.tt := rfl
@[simp] theorem updAdm_ports (s : State) g : (updAdm s g).ports = s.ports := rfl
@[simp] theorem updAdm_funcs (s : State) g : (updAdm s g).funcs = s.funcs := rfl
@[simp] theorem updAdm_reads (s : State) g : (updAdm s g).reads = s.reads := rfl
@[simp] theorem updAdm_nextTag (s : State) g : (updAdm s g).nextTag = s.nextTag := rfl
@[simp] theorem updAdm_ctxs (s : State) g : (updAdm s g).ctxs = s.ctxs := rfl
@[simp] theorem updAdm_engineFree (s : State) g : (updAdm s g).engineFree = s.engineFree := rfl
@[simp] theorem updAdm_cache (s : State) g : (updAdm s g).cache = s.cache := rfl
@[simp] theorem updAdm_locks (s : State) g : (updAdm s g).locks = s.locks := rfl
@[simp] theorem updAdm_journal (s : State) g : (updAdm s g).journal = s.journal := rfl
@[simp] theorem updAdm_groups (s : State) g : (updAdm s g).groups = s.groups := rfl
@[simp] theorem updAdm_vols (s : State) g : (updAdm s g).vols = s.vols := rfl
@[simp] theorem updAdm_freedVols (s : State) g : (updAdm s g).freedVols = s.freedVols := rfl
@[simp] theorem updAdm_mports (s : State) g : (updAdm s g).mports = s.mports := rfl
@[simp] theorem updAdm_mem (s : State) g : (updAdm s g).mem = s.mem := rfl
@[simp] theorem updAdm_vlt (s : State) g : (updAdm s g).vlt = s.vlt := rfl
@[simp] theorem updAdm_movers (s : State) g : (updAdm s g).movers = s.movers := rfl
@[simp] theorem updAdm_xlate (s : State) g : (updAdm s g).xlate = s.xlate := rfl
@[simp] theorem updAdm_progs (s : State) g : (updAdm s g).progs = s.progs := rfl
@[simp] theorem updAdm_mbx (s : State) g : (updAdm s g).mbx = s.mbx := rfl
@[simp] theorem updAdm_fare (s : State) g : (updAdm s g).fare = s.fare := rfl
@[simp] theorem updAdm_errLog (s : State) g : (updAdm s g).errLog = s.errLog := rfl
@[simp] theorem updAdm_errSeq (s : State) g : (updAdm s g).errSeq = s.errSeq := rfl
@[simp] theorem updAdm_defLog (s : State) g : (updAdm s g).defLog = s.defLog := rfl
@[simp] theorem updAdm_defSeq (s : State) g : (updAdm s g).defSeq = s.defSeq := rfl
@[simp] theorem updAdm_rb (s : State) g : (updAdm s g).rb = s.rb := rfl
@[simp] theorem updAdm_fresh (s : State) g : (updAdm s g).fresh = s.fresh := rfl
@[simp] theorem updAdm_fetchDue (s : State) g : (updAdm s g).fetchDue = s.fetchDue := rfl
@[simp] theorem updAdm_out (s : State) g : (updAdm s g).out = s.out := rfl
@[simp] theorem updAdm_freeCtr (s : State) g : (updAdm s g).freeCtr = s.freeCtr := rfl
@[simp] theorem updAdm_seqCtr (s : State) g : (updAdm s g).seqCtr = s.seqCtr := rfl
@[simp] theorem updAdm_pending (s : State) g : (updAdm s g).pending = s.pending := rfl

@[simp] theorem updVlt_pwr (s : State) g : (updVlt s g).pwr = s.pwr := rfl
@[simp] theorem updVlt_tt (s : State) g : (updVlt s g).tt = s.tt := rfl
@[simp] theorem updVlt_adm (s : State) g : (updVlt s g).adm = s.adm := rfl
@[simp] theorem updVlt_ports (s : State) g : (updVlt s g).ports = s.ports := rfl
@[simp] theorem updVlt_funcs (s : State) g : (updVlt s g).funcs = s.funcs := rfl
@[simp] theorem updVlt_reads (s : State) g : (updVlt s g).reads = s.reads := rfl
@[simp] theorem updVlt_nextTag (s : State) g : (updVlt s g).nextTag = s.nextTag := rfl
@[simp] theorem updVlt_ctxs (s : State) g : (updVlt s g).ctxs = s.ctxs := rfl
@[simp] theorem updVlt_engineFree (s : State) g : (updVlt s g).engineFree = s.engineFree := rfl
@[simp] theorem updVlt_cache (s : State) g : (updVlt s g).cache = s.cache := rfl
@[simp] theorem updVlt_locks (s : State) g : (updVlt s g).locks = s.locks := rfl
@[simp] theorem updVlt_journal (s : State) g : (updVlt s g).journal = s.journal := rfl
@[simp] theorem updVlt_groups (s : State) g : (updVlt s g).groups = s.groups := rfl
@[simp] theorem updVlt_vols (s : State) g : (updVlt s g).vols = s.vols := rfl
@[simp] theorem updVlt_freedVols (s : State) g : (updVlt s g).freedVols = s.freedVols := rfl
@[simp] theorem updVlt_mports (s : State) g : (updVlt s g).mports = s.mports := rfl
@[simp] theorem updVlt_mem (s : State) g : (updVlt s g).mem = s.mem := rfl
@[simp] theorem updVlt_movers (s : State) g : (updVlt s g).movers = s.movers := rfl
@[simp] theorem updVlt_xlate (s : State) g : (updVlt s g).xlate = s.xlate := rfl
@[simp] theorem updVlt_progs (s : State) g : (updVlt s g).progs = s.progs := rfl
@[simp] theorem updVlt_mbx (s : State) g : (updVlt s g).mbx = s.mbx := rfl
@[simp] theorem updVlt_fare (s : State) g : (updVlt s g).fare = s.fare := rfl
@[simp] theorem updVlt_errLog (s : State) g : (updVlt s g).errLog = s.errLog := rfl
@[simp] theorem updVlt_errSeq (s : State) g : (updVlt s g).errSeq = s.errSeq := rfl
@[simp] theorem updVlt_defLog (s : State) g : (updVlt s g).defLog = s.defLog := rfl
@[simp] theorem updVlt_defSeq (s : State) g : (updVlt s g).defSeq = s.defSeq := rfl
@[simp] theorem updVlt_rb (s : State) g : (updVlt s g).rb = s.rb := rfl
@[simp] theorem updVlt_fresh (s : State) g : (updVlt s g).fresh = s.fresh := rfl
@[simp] theorem updVlt_fetchDue (s : State) g : (updVlt s g).fetchDue = s.fetchDue := rfl
@[simp] theorem updVlt_out (s : State) g : (updVlt s g).out = s.out := rfl
@[simp] theorem updVlt_freeCtr (s : State) g : (updVlt s g).freeCtr = s.freeCtr := rfl
@[simp] theorem updVlt_seqCtr (s : State) g : (updVlt s g).seqCtr = s.seqCtr := rfl
@[simp] theorem updVlt_pending (s : State) g : (updVlt s g).pending = s.pending := rfl

@[simp] theorem updMbx_pwr (s : State) g : (updMbx s g).pwr = s.pwr := rfl
@[simp] theorem updMbx_tt (s : State) g : (updMbx s g).tt = s.tt := rfl
@[simp] theorem updMbx_adm (s : State) g : (updMbx s g).adm = s.adm := rfl
@[simp] theorem updMbx_ports (s : State) g : (updMbx s g).ports = s.ports := rfl
@[simp] theorem updMbx_funcs (s : State) g : (updMbx s g).funcs = s.funcs := rfl
@[simp] theorem updMbx_reads (s : State) g : (updMbx s g).reads = s.reads := rfl
@[simp] theorem updMbx_nextTag (s : State) g : (updMbx s g).nextTag = s.nextTag := rfl
@[simp] theorem updMbx_ctxs (s : State) g : (updMbx s g).ctxs = s.ctxs := rfl
@[simp] theorem updMbx_engineFree (s : State) g : (updMbx s g).engineFree = s.engineFree := rfl
@[simp] theorem updMbx_cache (s : State) g : (updMbx s g).cache = s.cache := rfl
@[simp] theorem updMbx_locks (s : State) g : (updMbx s g).locks = s.locks := rfl
@[simp] theorem updMbx_journal (s : State) g : (updMbx s g).journal = s.journal := rfl
@[simp] theorem updMbx_groups (s : State) g : (updMbx s g).groups = s.groups := rfl
@[simp] theorem updMbx_vols (s : State) g : (updMbx s g).vols = s.vols := rfl
@[simp] theorem updMbx_freedVols (s : State) g : (updMbx s g).freedVols = s.freedVols := rfl
@[simp] theorem updMbx_mports (s : State) g : (updMbx s g).mports = s.mports := rfl
@[simp] theorem updMbx_mem (s : State) g : (updMbx s g).mem = s.mem := rfl
@[simp] theorem updMbx_vlt (s : State) g : (updMbx s g).vlt = s.vlt := rfl
@[simp] theorem updMbx_movers (s : State) g : (updMbx s g).movers = s.movers := rfl
@[simp] theorem updMbx_xlate (s : State) g : (updMbx s g).xlate = s.xlate := rfl
@[simp] theorem updMbx_progs (s : State) g : (updMbx s g).progs = s.progs := rfl
@[simp] theorem updMbx_fare (s : State) g : (updMbx s g).fare = s.fare := rfl
@[simp] theorem updMbx_errLog (s : State) g : (updMbx s g).errLog = s.errLog := rfl
@[simp] theorem updMbx_errSeq (s : State) g : (updMbx s g).errSeq = s.errSeq := rfl
@[simp] theorem updMbx_defLog (s : State) g : (updMbx s g).defLog = s.defLog := rfl
@[simp] theorem updMbx_defSeq (s : State) g : (updMbx s g).defSeq = s.defSeq := rfl
@[simp] theorem updMbx_rb (s : State) g : (updMbx s g).rb = s.rb := rfl
@[simp] theorem updMbx_fresh (s : State) g : (updMbx s g).fresh = s.fresh := rfl
@[simp] theorem updMbx_fetchDue (s : State) g : (updMbx s g).fetchDue = s.fetchDue := rfl
@[simp] theorem updMbx_out (s : State) g : (updMbx s g).out = s.out := rfl
@[simp] theorem updMbx_freeCtr (s : State) g : (updMbx s g).freeCtr = s.freeCtr := rfl
@[simp] theorem updMbx_seqCtr (s : State) g : (updMbx s g).seqCtr = s.seqCtr := rfl
@[simp] theorem updMbx_pending (s : State) g : (updMbx s g).pending = s.pending := rfl

@[simp] theorem updCache_pwr (s : State) g : (updCache s g).pwr = s.pwr := rfl
@[simp] theorem updCache_tt (s : State) g : (updCache s g).tt = s.tt := rfl
@[simp] theorem updCache_adm (s : State) g : (updCache s g).adm = s.adm := rfl
@[simp] theorem updCache_ports (s : State) g : (updCache s g).ports = s.ports := rfl
@[simp] theorem updCache_funcs (s : State) g : (updCache s g).funcs = s.funcs := rfl
@[simp] theorem updCache_reads (s : State) g : (updCache s g).reads = s.reads := rfl
@[simp] theorem updCache_nextTag (s : State) g : (updCache s g).nextTag = s.nextTag := rfl
@[simp] theorem updCache_ctxs (s : State) g : (updCache s g).ctxs = s.ctxs := rfl
@[simp] theorem updCache_engineFree (s : State) g : (updCache s g).engineFree = s.engineFree := rfl
@[simp] theorem updCache_locks (s : State) g : (updCache s g).locks = s.locks := rfl
@[simp] theorem updCache_journal (s : State) g : (updCache s g).journal = s.journal := rfl
@[simp] theorem updCache_groups (s : State) g : (updCache s g).groups = s.groups := rfl
@[simp] theorem updCache_vols (s : State) g : (updCache s g).vols = s.vols := rfl
@[simp] theorem updCache_freedVols (s : State) g : (updCache s g).freedVols = s.freedVols := rfl
@[simp] theorem updCache_mports (s : State) g : (updCache s g).mports = s.mports := rfl
@[simp] theorem updCache_mem (s : State) g : (updCache s g).mem = s.mem := rfl
@[simp] theorem updCache_vlt (s : State) g : (updCache s g).vlt = s.vlt := rfl
@[simp] theorem updCache_movers (s : State) g : (updCache s g).movers = s.movers := rfl
@[simp] theorem updCache_xlate (s : State) g : (updCache s g).xlate = s.xlate := rfl
@[simp] theorem updCache_progs (s : State) g : (updCache s g).progs = s.progs := rfl
@[simp] theorem updCache_mbx (s : State) g : (updCache s g).mbx = s.mbx := rfl
@[simp] theorem updCache_fare (s : State) g : (updCache s g).fare = s.fare := rfl
@[simp] theorem updCache_errLog (s : State) g : (updCache s g).errLog = s.errLog := rfl
@[simp] theorem updCache_errSeq (s : State) g : (updCache s g).errSeq = s.errSeq := rfl
@[simp] theorem updCache_defLog (s : State) g : (updCache s g).defLog = s.defLog := rfl
@[simp] theorem updCache_defSeq (s : State) g : (updCache s g).defSeq = s.defSeq := rfl
@[simp] theorem updCache_rb (s : State) g : (updCache s g).rb = s.rb := rfl
@[simp] theorem updCache_fresh (s : State) g : (updCache s g).fresh = s.fresh := rfl
@[simp] theorem updCache_fetchDue (s : State) g : (updCache s g).fetchDue = s.fetchDue := rfl
@[simp] theorem updCache_out (s : State) g : (updCache s g).out = s.out := rfl
@[simp] theorem updCache_freeCtr (s : State) g : (updCache s g).freeCtr = s.freeCtr := rfl
@[simp] theorem updCache_seqCtr (s : State) g : (updCache s g).seqCtr = s.seqCtr := rfl
@[simp] theorem updCache_pending (s : State) g : (updCache s g).pending = s.pending := rfl

@[simp] theorem updFrame_pwr (s : State) fr g : (updFrame s fr g).pwr = s.pwr := rfl
@[simp] theorem updFrame_tt (s : State) fr g : (updFrame s fr g).tt = s.tt := rfl
@[simp] theorem updFrame_adm (s : State) fr g : (updFrame s fr g).adm = s.adm := rfl
@[simp] theorem updFrame_ports (s : State) fr g : (updFrame s fr g).ports = s.ports := rfl
@[simp] theorem updFrame_funcs (s : State) fr g : (updFrame s fr g).funcs = s.funcs := rfl
@[simp] theorem updFrame_reads (s : State) fr g : (updFrame s fr g).reads = s.reads := rfl
@[simp] theorem updFrame_nextTag (s : State) fr g : (updFrame s fr g).nextTag = s.nextTag := rfl
@[simp] theorem updFrame_ctxs (s : State) fr g : (updFrame s fr g).ctxs = s.ctxs := rfl
@[simp] theorem updFrame_engineFree (s : State) fr g : (updFrame s fr g).engineFree = s.engineFree := rfl
@[simp] theorem updFrame_locks (s : State) fr g : (updFrame s fr g).locks = s.locks := rfl
@[simp] theorem updFrame_journal (s : State) fr g : (updFrame s fr g).journal = s.journal := rfl
@[simp] theorem updFrame_groups (s : State) fr g : (updFrame s fr g).groups = s.groups := rfl
@[simp] theorem updFrame_vols (s : State) fr g : (updFrame s fr g).vols = s.vols := rfl
@[simp] theorem updFrame_freedVols (s : State) fr g : (updFrame s fr g).freedVols = s.freedVols := rfl
@[simp] theorem updFrame_mports (s : State) fr g : (updFrame s fr g).mports = s.mports := rfl
@[simp] theorem updFrame_mem (s : State) fr g : (updFrame s fr g).mem = s.mem := rfl
@[simp] theorem updFrame_vlt (s : State) fr g : (updFrame s fr g).vlt = s.vlt := rfl
@[simp] theorem updFrame_movers (s : State) fr g : (updFrame s fr g).movers = s.movers := rfl
@[simp] theorem updFrame_xlate (s : State) fr g : (updFrame s fr g).xlate = s.xlate := rfl
@[simp] theorem updFrame_progs (s : State) fr g : (updFrame s fr g).progs = s.progs := rfl
@[simp] theorem updFrame_mbx (s : State) fr g : (updFrame s fr g).mbx = s.mbx := rfl
@[simp] theorem updFrame_fare (s : State) fr g : (updFrame s fr g).fare = s.fare := rfl
@[simp] theorem updFrame_errLog (s : State) fr g : (updFrame s fr g).errLog = s.errLog := rfl
@[simp] theorem updFrame_errSeq (s : State) fr g : (updFrame s fr g).errSeq = s.errSeq := rfl
@[simp] theorem updFrame_defLog (s : State) fr g : (updFrame s fr g).defLog = s.defLog := rfl
@[simp] theorem updFrame_defSeq (s : State) fr g : (updFrame s fr g).defSeq = s.defSeq := rfl
@[simp] theorem updFrame_rb (s : State) fr g : (updFrame s fr g).rb = s.rb := rfl
@[simp] theorem updFrame_fresh (s : State) fr g : (updFrame s fr g).fresh = s.fresh := rfl
@[simp] theorem updFrame_fetchDue (s : State) fr g : (updFrame s fr g).fetchDue = s.fetchDue := rfl
@[simp] theorem updFrame_out (s : State) fr g : (updFrame s fr g).out = s.out := rfl
@[simp] theorem updFrame_freeCtr (s : State) fr g : (updFrame s fr g).freeCtr = s.freeCtr := rfl
@[simp] theorem updFrame_seqCtr (s : State) fr g : (updFrame s fr g).seqCtr = s.seqCtr := rfl
@[simp] theorem updFrame_pending (s : State) fr g : (updFrame s fr g).pending = s.pending := rfl

@[simp] theorem updBox_pwr (s : State) b g : (updBox s b g).pwr = s.pwr := rfl
@[simp] theorem updBox_tt (s : State) b g : (updBox s b g).tt = s.tt := rfl
@[simp] theorem updBox_adm (s : State) b g : (updBox s b g).adm = s.adm := rfl
@[simp] theorem updBox_ports (s : State) b g : (updBox s b g).ports = s.ports := rfl
@[simp] theorem updBox_funcs (s : State) b g : (updBox s b g).funcs = s.funcs := rfl
@[simp] theorem updBox_reads (s : State) b g : (updBox s b g).reads = s.reads := rfl
@[simp] theorem updBox_nextTag (s : State) b g : (updBox s b g).nextTag = s.nextTag := rfl
@[simp] theorem updBox_ctxs (s : State) b g : (updBox s b g).ctxs = s.ctxs := rfl
@[simp] theorem updBox_engineFree (s : State) b g : (updBox s b g).engineFree = s.engineFree := rfl
@[simp] theorem updBox_cache (s : State) b g : (updBox s b g).cache = s.cache := rfl
@[simp] theorem updBox_locks (s : State) b g : (updBox s b g).locks = s.locks := rfl
@[simp] theorem updBox_journal (s : State) b g : (updBox s b g).journal = s.journal := rfl
@[simp] theorem updBox_groups (s : State) b g : (updBox s b g).groups = s.groups := rfl
@[simp] theorem updBox_vols (s : State) b g : (updBox s b g).vols = s.vols := rfl
@[simp] theorem updBox_freedVols (s : State) b g : (updBox s b g).freedVols = s.freedVols := rfl
@[simp] theorem updBox_mports (s : State) b g : (updBox s b g).mports = s.mports := rfl
@[simp] theorem updBox_mem (s : State) b g : (updBox s b g).mem = s.mem := rfl
@[simp] theorem updBox_vlt (s : State) b g : (updBox s b g).vlt = s.vlt := rfl
@[simp] theorem updBox_movers (s : State) b g : (updBox s b g).movers = s.movers := rfl
@[simp] theorem updBox_xlate (s : State) b g : (updBox s b g).xlate = s.xlate := rfl
@[simp] theorem updBox_progs (s : State) b g : (updBox s b g).progs = s.progs := rfl
@[simp] theorem updBox_fare (s : State) b g : (updBox s b g).fare = s.fare := rfl
@[simp] theorem updBox_errLog (s : State) b g : (updBox s b g).errLog = s.errLog := rfl
@[simp] theorem updBox_errSeq (s : State) b g : (updBox s b g).errSeq = s.errSeq := rfl
@[simp] theorem updBox_defLog (s : State) b g : (updBox s b g).defLog = s.defLog := rfl
@[simp] theorem updBox_defSeq (s : State) b g : (updBox s b g).defSeq = s.defSeq := rfl
@[simp] theorem updBox_rb (s : State) b g : (updBox s b g).rb = s.rb := rfl
@[simp] theorem updBox_fresh (s : State) b g : (updBox s b g).fresh = s.fresh := rfl
@[simp] theorem updBox_fetchDue (s : State) b g : (updBox s b g).fetchDue = s.fetchDue := rfl
@[simp] theorem updBox_out (s : State) b g : (updBox s b g).out = s.out := rfl
@[simp] theorem updBox_freeCtr (s : State) b g : (updBox s b g).freeCtr = s.freeCtr := rfl
@[simp] theorem updBox_seqCtr (s : State) b g : (updBox s b g).seqCtr = s.seqCtr := rfl
@[simp] theorem updBox_pending (s : State) b g : (updBox s b g).pending = s.pending := rfl

@[simp] theorem updMover_pwr (s : State) m g : (updMover s m g).pwr = s.pwr := rfl
@[simp] theorem updMover_tt (s : State) m g : (updMover s m g).tt = s.tt := rfl
@[simp] theorem updMover_adm (s : State) m g : (updMover s m g).adm = s.adm := rfl
@[simp] theorem updMover_ports (s : State) m g : (updMover s m g).ports = s.ports := rfl
@[simp] theorem updMover_funcs (s : State) m g : (updMover s m g).funcs = s.funcs := rfl
@[simp] theorem updMover_reads (s : State) m g : (updMover s m g).reads = s.reads := rfl
@[simp] theorem updMover_nextTag (s : State) m g : (updMover s m g).nextTag = s.nextTag := rfl
@[simp] theorem updMover_ctxs (s : State) m g : (updMover s m g).ctxs = s.ctxs := rfl
@[simp] theorem updMover_engineFree (s : State) m g : (updMover s m g).engineFree = s.engineFree := rfl
@[simp] theorem updMover_cache (s : State) m g : (updMover s m g).cache = s.cache := rfl
@[simp] theorem updMover_locks (s : State) m g : (updMover s m g).locks = s.locks := rfl
@[simp] theorem updMover_journal (s : State) m g : (updMover s m g).journal = s.journal := rfl
@[simp] theorem updMover_groups (s : State) m g : (updMover s m g).groups = s.groups := rfl
@[simp] theorem updMover_vols (s : State) m g : (updMover s m g).vols = s.vols := rfl
@[simp] theorem updMover_freedVols (s : State) m g : (updMover s m g).freedVols = s.freedVols := rfl
@[simp] theorem updMover_mports (s : State) m g : (updMover s m g).mports = s.mports := rfl
@[simp] theorem updMover_mem (s : State) m g : (updMover s m g).mem = s.mem := rfl
@[simp] theorem updMover_vlt (s : State) m g : (updMover s m g).vlt = s.vlt := rfl
@[simp] theorem updMover_xlate (s : State) m g : (updMover s m g).xlate = s.xlate := rfl
@[simp] theorem updMover_progs (s : State) m g : (updMover s m g).progs = s.progs := rfl
@[simp] theorem updMover_mbx (s : State) m g : (updMover s m g).mbx = s.mbx := rfl
@[simp] theorem updMover_fare (s : State) m g : (updMover s m g).fare = s.fare := rfl
@[simp] theorem updMover_errLog (s : State) m g : (updMover s m g).errLog = s.errLog := rfl
@[simp] theorem updMover_errSeq (s : State) m g : (updMover s m g).errSeq = s.errSeq := rfl
@[simp] theorem updMover_defLog (s : State) m g : (updMover s m g).defLog = s.defLog := rfl
@[simp] theorem updMover_defSeq (s : State) m g : (updMover s m g).defSeq = s.defSeq := rfl
@[simp] theorem updMover_rb (s : State) m g : (updMover s m g).rb = s.rb := rfl
@[simp] theorem updMover_fresh (s : State) m g : (updMover s m g).fresh = s.fresh := rfl
@[simp] theorem updMover_fetchDue (s : State) m g : (updMover s m g).fetchDue = s.fetchDue := rfl
@[simp] theorem updMover_out (s : State) m g : (updMover s m g).out = s.out := rfl
@[simp] theorem updMover_freeCtr (s : State) m g : (updMover s m g).freeCtr = s.freeCtr := rfl
@[simp] theorem updMover_seqCtr (s : State) m g : (updMover s m g).seqCtr = s.seqCtr := rfl
@[simp] theorem updMover_pending (s : State) m g : (updMover s m g).pending = s.pending := rfl

@[simp] theorem updChan_pwr (s : State) m c g : (updChan s m c g).pwr = s.pwr := rfl
@[simp] theorem updChan_tt (s : State) m c g : (updChan s m c g).tt = s.tt := rfl
@[simp] theorem updChan_adm (s : State) m c g : (updChan s m c g).adm = s.adm := rfl
@[simp] theorem updChan_ports (s : State) m c g : (updChan s m c g).ports = s.ports := rfl
@[simp] theorem updChan_funcs (s : State) m c g : (updChan s m c g).funcs = s.funcs := rfl
@[simp] theorem updChan_reads (s : State) m c g : (updChan s m c g).reads = s.reads := rfl
@[simp] theorem updChan_nextTag (s : State) m c g : (updChan s m c g).nextTag = s.nextTag := rfl
@[simp] theorem updChan_ctxs (s : State) m c g : (updChan s m c g).ctxs = s.ctxs := rfl
@[simp] theorem updChan_engineFree (s : State) m c g : (updChan s m c g).engineFree = s.engineFree := rfl
@[simp] theorem updChan_cache (s : State) m c g : (updChan s m c g).cache = s.cache := rfl
@[simp] theorem updChan_locks (s : State) m c g : (updChan s m c g).locks = s.locks := rfl
@[simp] theorem updChan_journal (s : State) m c g : (updChan s m c g).journal = s.journal := rfl
@[simp] theorem updChan_groups (s : State) m c g : (updChan s m c g).groups = s.groups := rfl
@[simp] theorem updChan_vols (s : State) m c g : (updChan s m c g).vols = s.vols := rfl
@[simp] theorem updChan_freedVols (s : State) m c g : (updChan s m c g).freedVols = s.freedVols := rfl
@[simp] theorem updChan_mports (s : State) m c g : (updChan s m c g).mports = s.mports := rfl
@[simp] theorem updChan_mem (s : State) m c g : (updChan s m c g).mem = s.mem := rfl
@[simp] theorem updChan_vlt (s : State) m c g : (updChan s m c g).vlt = s.vlt := rfl
@[simp] theorem updChan_xlate (s : State) m c g : (updChan s m c g).xlate = s.xlate := rfl
@[simp] theorem updChan_progs (s : State) m c g : (updChan s m c g).progs = s.progs := rfl
@[simp] theorem updChan_mbx (s : State) m c g : (updChan s m c g).mbx = s.mbx := rfl
@[simp] theorem updChan_fare (s : State) m c g : (updChan s m c g).fare = s.fare := rfl
@[simp] theorem updChan_errLog (s : State) m c g : (updChan s m c g).errLog = s.errLog := rfl
@[simp] theorem updChan_errSeq (s : State) m c g : (updChan s m c g).errSeq = s.errSeq := rfl
@[simp] theorem updChan_defLog (s : State) m c g : (updChan s m c g).defLog = s.defLog := rfl
@[simp] theorem updChan_defSeq (s : State) m c g : (updChan s m c g).defSeq = s.defSeq := rfl
@[simp] theorem updChan_rb (s : State) m c g : (updChan s m c g).rb = s.rb := rfl
@[simp] theorem updChan_fresh (s : State) m c g : (updChan s m c g).fresh = s.fresh := rfl
@[simp] theorem updChan_fetchDue (s : State) m c g : (updChan s m c g).fetchDue = s.fetchDue := rfl
@[simp] theorem updChan_out (s : State) m c g : (updChan s m c g).out = s.out := rfl
@[simp] theorem updChan_freeCtr (s : State) m c g : (updChan s m c g).freeCtr = s.freeCtr := rfl
@[simp] theorem updChan_seqCtr (s : State) m c g : (updChan s m c g).seqCtr = s.seqCtr := rfl
@[simp] theorem updChan_pending (s : State) m c g : (updChan s m c g).pending = s.pending := rfl

@[simp] theorem emit_pwr (s : State) o : (emit s o).pwr = s.pwr := rfl
@[simp] theorem emit_tt (s : State) o : (emit s o).tt = s.tt := rfl
@[simp] theorem emit_adm (s : State) o : (emit s o).adm = s.adm := rfl
@[simp] theorem emit_ports (s : State) o : (emit s o).ports = s.ports := rfl
@[simp] theorem emit_funcs (s : State) o : (emit s o).funcs = s.funcs := rfl
@[simp] theorem emit_reads (s : State) o : (emit s o).reads = s.reads := rfl
@[simp] theorem emit_nextTag (s : State) o : (emit s o).nextTag = s.nextTag := rfl
@[simp] theorem emit_ctxs (s : State) o : (emit s o).ctxs = s.ctxs := rfl
@[simp] theorem emit_engineFree (s : State) o : (emit s o).engineFree = s.engineFree := rfl
@[simp] theorem emit_cache (s : State) o : (emit s o).cache = s.cache := rfl
@[simp] theorem emit_locks (s : State) o : (emit s o).locks = s.locks := rfl
@[simp] theorem emit_journal (s : State) o : (emit s o).journal = s.journal := rfl
@[simp] theorem emit_groups (s : State) o : (emit s o).groups = s.groups := rfl
@[simp] theorem emit_vols (s : State) o : (emit s o).vols = s.vols := rfl
@[simp] theorem emit_freedVols (s : State) o : (emit s o).freedVols = s.freedVols := rfl
@[simp] theorem emit_mports (s : State) o : (emit s o).mports = s.mports := rfl
@[simp] theorem emit_mem (s : State) o : (emit s o).mem = s.mem := rfl
@[simp] theorem emit_vlt (s : State) o : (emit s o).vlt = s.vlt := rfl
@[simp] theorem emit_movers (s : State) o : (emit s o).movers = s.movers := rfl
@[simp] theorem emit_xlate (s : State) o : (emit s o).xlate = s.xlate := rfl
@[simp] theorem emit_progs (s : State) o : (emit s o).progs = s.progs := rfl
@[simp] theorem emit_mbx (s : State) o : (emit s o).mbx = s.mbx := rfl
@[simp] theorem emit_fare (s : State) o : (emit s o).fare = s.fare := rfl
@[simp] theorem emit_errLog (s : State) o : (emit s o).errLog = s.errLog := rfl
@[simp] theorem emit_errSeq (s : State) o : (emit s o).errSeq = s.errSeq := rfl
@[simp] theorem emit_defLog (s : State) o : (emit s o).defLog = s.defLog := rfl
@[simp] theorem emit_defSeq (s : State) o : (emit s o).defSeq = s.defSeq := rfl
@[simp] theorem emit_rb (s : State) o : (emit s o).rb = s.rb := rfl
@[simp] theorem emit_fresh (s : State) o : (emit s o).fresh = s.fresh := rfl
@[simp] theorem emit_fetchDue (s : State) o : (emit s o).fetchDue = s.fetchDue := rfl
@[simp] theorem emit_freeCtr (s : State) o : (emit s o).freeCtr = s.freeCtr := rfl
@[simp] theorem emit_seqCtr (s : State) o : (emit s o).seqCtr = s.seqCtr := rfl
@[simp] theorem emit_pending (s : State) o : (emit s o).pending = s.pending := rfl

@[simp] theorem emitAll_pwr (s : State) os : (emitAll s os).pwr = s.pwr := rfl
@[simp] theorem emitAll_tt (s : State) os : (emitAll s os).tt = s.tt := rfl
@[simp] theorem emitAll_adm (s : State) os : (emitAll s os).adm = s.adm := rfl
@[simp] theorem emitAll_ports (s : State) os : (emitAll s os).ports = s.ports := rfl
@[simp] theorem emitAll_funcs (s : State) os : (emitAll s os).funcs = s.funcs := rfl
@[simp] theorem emitAll_reads (s : State) os : (emitAll s os).reads = s.reads := rfl
@[simp] theorem emitAll_nextTag (s : State) os : (emitAll s os).nextTag = s.nextTag := rfl
@[simp] theorem emitAll_ctxs (s : State) os : (emitAll s os).ctxs = s.ctxs := rfl
@[simp] theorem emitAll_engineFree (s : State) os : (emitAll s os).engineFree = s.engineFree := rfl
@[simp] theorem emitAll_cache (s : State) os : (emitAll s os).cache = s.cache := rfl
@[simp] theorem emitAll_locks (s : State) os : (emitAll s os).locks = s.locks := rfl
@[simp] theorem emitAll_journal (s : State) os : (emitAll s os).journal = s.journal := rfl
@[simp] theorem emitAll_groups (s : State) os : (emitAll s os).groups = s.groups := rfl
@[simp] theorem emitAll_vols (s : State) os : (emitAll s os).vols = s.vols := rfl
@[simp] theorem emitAll_freedVols (s : State) os : (emitAll s os).freedVols = s.freedVols := rfl
@[simp] theorem emitAll_mports (s : State) os : (emitAll s os).mports = s.mports := rfl
@[simp] theorem emitAll_mem (s : State) os : (emitAll s os).mem = s.mem := rfl
@[simp] theorem emitAll_vlt (s : State) os : (emitAll s os).vlt = s.vlt := rfl
@[simp] theorem emitAll_movers (s : State) os : (emitAll s os).movers = s.movers := rfl
@[simp] theorem emitAll_xlate (s : State) os : (emitAll s os).xlate = s.xlate := rfl
@[simp] theorem emitAll_progs (s : State) os : (emitAll s os).progs = s.progs := rfl
@[simp] theorem emitAll_mbx (s : State) os : (emitAll s os).mbx = s.mbx := rfl
@[simp] theorem emitAll_fare (s : State) os : (emitAll s os).fare = s.fare := rfl
@[simp] theorem emitAll_errLog (s : State) os : (emitAll s os).errLog = s.errLog := rfl
@[simp] theorem emitAll_errSeq (s : State) os : (emitAll s os).errSeq = s.errSeq := rfl
@[simp] theorem emitAll_defLog (s : State) os : (emitAll s os).defLog = s.defLog := rfl
@[simp] theorem emitAll_defSeq (s : State) os : (emitAll s os).defSeq = s.defSeq := rfl
@[simp] theorem emitAll_rb (s : State) os : (emitAll s os).rb = s.rb := rfl
@[simp] theorem emitAll_fresh (s : State) os : (emitAll s os).fresh = s.fresh := rfl
@[simp] theorem emitAll_fetchDue (s : State) os : (emitAll s os).fetchDue = s.fetchDue := rfl
@[simp] theorem emitAll_freeCtr (s : State) os : (emitAll s os).freeCtr = s.freeCtr := rfl
@[simp] theorem emitAll_seqCtr (s : State) os : (emitAll s os).seqCtr = s.seqCtr := rfl
@[simp] theorem emitAll_pending (s : State) os : (emitAll s os).pending = s.pending := rfl

@[simp] theorem rbChange_pwr (s : State) : (rbChange s).pwr = s.pwr := rfl
@[simp] theorem rbChange_tt (s : State) : (rbChange s).tt = s.tt := rfl
@[simp] theorem rbChange_adm (s : State) : (rbChange s).adm = s.adm := rfl
@[simp] theorem rbChange_ports (s : State) : (rbChange s).ports = s.ports := rfl
@[simp] theorem rbChange_funcs (s : State) : (rbChange s).funcs = s.funcs := rfl
@[simp] theorem rbChange_reads (s : State) : (rbChange s).reads = s.reads := rfl
@[simp] theorem rbChange_nextTag (s : State) : (rbChange s).nextTag = s.nextTag := rfl
@[simp] theorem rbChange_ctxs (s : State) : (rbChange s).ctxs = s.ctxs := rfl
@[simp] theorem rbChange_engineFree (s : State) : (rbChange s).engineFree = s.engineFree := rfl
@[simp] theorem rbChange_cache (s : State) : (rbChange s).cache = s.cache := rfl
@[simp] theorem rbChange_locks (s : State) : (rbChange s).locks = s.locks := rfl
@[simp] theorem rbChange_journal (s : State) : (rbChange s).journal = s.journal := rfl
@[simp] theorem rbChange_groups (s : State) : (rbChange s).groups = s.groups := rfl
@[simp] theorem rbChange_vols (s : State) : (rbChange s).vols = s.vols := rfl
@[simp] theorem rbChange_freedVols (s : State) : (rbChange s).freedVols = s.freedVols := rfl
@[simp] theorem rbChange_mports (s : State) : (rbChange s).mports = s.mports := rfl
@[simp] theorem rbChange_mem (s : State) : (rbChange s).mem = s.mem := rfl
@[simp] theorem rbChange_vlt (s : State) : (rbChange s).vlt = s.vlt := rfl
@[simp] theorem rbChange_movers (s : State) : (rbChange s).movers = s.movers := rfl
@[simp] theorem rbChange_xlate (s : State) : (rbChange s).xlate = s.xlate := rfl
@[simp] theorem rbChange_progs (s : State) : (rbChange s).progs = s.progs := rfl
@[simp] theorem rbChange_mbx (s : State) : (rbChange s).mbx = s.mbx := rfl
@[simp] theorem rbChange_fare (s : State) : (rbChange s).fare = s.fare := rfl
@[simp] theorem rbChange_errLog (s : State) : (rbChange s).errLog = s.errLog := rfl
@[simp] theorem rbChange_errSeq (s : State) : (rbChange s).errSeq = s.errSeq := rfl
@[simp] theorem rbChange_defLog (s : State) : (rbChange s).defLog = s.defLog := rfl
@[simp] theorem rbChange_defSeq (s : State) : (rbChange s).defSeq = s.defSeq := rfl
@[simp] theorem rbChange_fresh (s : State) : (rbChange s).fresh = s.fresh := rfl
@[simp] theorem rbChange_fetchDue (s : State) : (rbChange s).fetchDue = s.fetchDue := rfl
@[simp] theorem rbChange_out (s : State) : (rbChange s).out = s.out := rfl
@[simp] theorem rbChange_freeCtr (s : State) : (rbChange s).freeCtr = s.freeCtr := rfl
@[simp] theorem rbChange_seqCtr (s : State) : (rbChange s).seqCtr = s.seqCtr := rfl
@[simp] theorem rbChange_pending (s : State) : (rbChange s).pending = s.pending := rfl

@[simp] theorem updFunc_pwr (s : State) f g : (updFunc s f g).pwr = s.pwr := rfl
@[simp] theorem updFunc_tt (s : State) f g : (updFunc s f g).tt = s.tt := rfl
@[simp] theorem updFunc_adm (s : State) f g : (updFunc s f g).adm = s.adm := rfl
@[simp] theorem updFunc_ports (s : State) f g : (updFunc s f g).ports = s.ports := rfl
@[simp] theorem updFunc_reads (s : State) f g : (updFunc s f g).reads = s.reads := rfl
@[simp] theorem updFunc_nextTag (s : State) f g : (updFunc s f g).nextTag = s.nextTag := rfl
@[simp] theorem updFunc_ctxs (s : State) f g : (updFunc s f g).ctxs = s.ctxs := rfl
@[simp] theorem updFunc_engineFree (s : State) f g : (updFunc s f g).engineFree = s.engineFree := rfl
@[simp] theorem updFunc_cache (s : State) f g : (updFunc s f g).cache = s.cache := rfl
@[simp] theorem updFunc_locks (s : State) f g : (updFunc s f g).locks = s.locks := rfl
@[simp] theorem updFunc_journal (s : State) f g : (updFunc s f g).journal = s.journal := rfl
@[simp] theorem updFunc_groups (s : State) f g : (updFunc s f g).groups = s.groups := rfl
@[simp] theorem updFunc_vols (s : State) f g : (updFunc s f g).vols = s.vols := rfl
@[simp] theorem updFunc_freedVols (s : State) f g : (updFunc s f g).freedVols = s.freedVols := rfl
@[simp] theorem updFunc_mports (s : State) f g : (updFunc s f g).mports = s.mports := rfl
@[simp] theorem updFunc_mem (s : State) f g : (updFunc s f g).mem = s.mem := rfl
@[simp] theorem updFunc_vlt (s : State) f g : (updFunc s f g).vlt = s.vlt := rfl
@[simp] theorem updFunc_movers (s : State) f g : (updFunc s f g).movers = s.movers := rfl
@[simp] theorem updFunc_xlate (s : State) f g : (updFunc s f g).xlate = s.xlate := rfl
@[simp] theorem updFunc_progs (s : State) f g : (updFunc s f g).progs = s.progs := rfl
@[simp] theorem updFunc_mbx (s : State) f g : (updFunc s f g).mbx = s.mbx := rfl
@[simp] theorem updFunc_fare (s : State) f g : (updFunc s f g).fare = s.fare := rfl
@[simp] theorem updFunc_errLog (s : State) f g : (updFunc s f g).errLog = s.errLog := rfl
@[simp] theorem updFunc_errSeq (s : State) f g : (updFunc s f g).errSeq = s.errSeq := rfl
@[simp] theorem updFunc_defLog (s : State) f g : (updFunc s f g).defLog = s.defLog := rfl
@[simp] theorem updFunc_defSeq (s : State) f g : (updFunc s f g).defSeq = s.defSeq := rfl
@[simp] theorem updFunc_rb (s : State) f g : (updFunc s f g).rb = s.rb := rfl
@[simp] theorem updFunc_fresh (s : State) f g : (updFunc s f g).fresh = s.fresh := rfl
@[simp] theorem updFunc_fetchDue (s : State) f g : (updFunc s f g).fetchDue = s.fetchDue := rfl
@[simp] theorem updFunc_out (s : State) f g : (updFunc s f g).out = s.out := rfl
@[simp] theorem updFunc_freeCtr (s : State) f g : (updFunc s f g).freeCtr = s.freeCtr := rfl
@[simp] theorem updFunc_seqCtr (s : State) f g : (updFunc s f g).seqCtr = s.seqCtr := rfl
@[simp] theorem updFunc_pending (s : State) f g : (updFunc s f g).pending = s.pending := rfl

@[simp] theorem updPort_pwr (s : State) p g : (updPort s p g).pwr = s.pwr := rfl
@[simp] theorem updPort_tt (s : State) p g : (updPort s p g).tt = s.tt := rfl
@[simp] theorem updPort_adm (s : State) p g : (updPort s p g).adm = s.adm := rfl
@[simp] theorem updPort_funcs (s : State) p g : (updPort s p g).funcs = s.funcs := rfl
@[simp] theorem updPort_reads (s : State) p g : (updPort s p g).reads = s.reads := rfl
@[simp] theorem updPort_nextTag (s : State) p g : (updPort s p g).nextTag = s.nextTag := rfl
@[simp] theorem updPort_ctxs (s : State) p g : (updPort s p g).ctxs = s.ctxs := rfl
@[simp] theorem updPort_engineFree (s : State) p g : (updPort s p g).engineFree = s.engineFree := rfl
@[simp] theorem updPort_cache (s : State) p g : (updPort s p g).cache = s.cache := rfl
@[simp] theorem updPort_locks (s : State) p g : (updPort s p g).locks = s.locks := rfl
@[simp] theorem updPort_journal (s : State) p g : (updPort s p g).journal = s.journal := rfl
@[simp] theorem updPort_groups (s : State) p g : (updPort s p g).groups = s.groups := rfl
@[simp] theorem updPort_vols (s : State) p g : (updPort s p g).vols = s.vols := rfl
@[simp] theorem updPort_freedVols (s : State) p g : (updPort s p g).freedVols = s.freedVols := rfl
@[simp] theorem updPort_mports (s : State) p g : (updPort s p g).mports = s.mports := rfl
@[simp] theorem updPort_mem (s : State) p g : (updPort s p g).mem = s.mem := rfl
@[simp] theorem updPort_vlt (s : State) p g : (updPort s p g).vlt = s.vlt := rfl
@[simp] theorem updPort_movers (s : State) p g : (updPort s p g).movers = s.movers := rfl
@[simp] theorem updPort_xlate (s : State) p g : (updPort s p g).xlate = s.xlate := rfl
@[simp] theorem updPort_progs (s : State) p g : (updPort s p g).progs = s.progs := rfl
@[simp] theorem updPort_mbx (s : State) p g : (updPort s p g).mbx = s.mbx := rfl
@[simp] theorem updPort_fare (s : State) p g : (updPort s p g).fare = s.fare := rfl
@[simp] theorem updPort_errLog (s : State) p g : (updPort s p g).errLog = s.errLog := rfl
@[simp] theorem updPort_errSeq (s : State) p g : (updPort s p g).errSeq = s.errSeq := rfl
@[simp] theorem updPort_defLog (s : State) p g : (updPort s p g).defLog = s.defLog := rfl
@[simp] theorem updPort_defSeq (s : State) p g : (updPort s p g).defSeq = s.defSeq := rfl
@[simp] theorem updPort_rb (s : State) p g : (updPort s p g).rb = s.rb := rfl
@[simp] theorem updPort_fresh (s : State) p g : (updPort s p g).fresh = s.fresh := rfl
@[simp] theorem updPort_fetchDue (s : State) p g : (updPort s p g).fetchDue = s.fetchDue := rfl
@[simp] theorem updPort_out (s : State) p g : (updPort s p g).out = s.out := rfl
@[simp] theorem updPort_freeCtr (s : State) p g : (updPort s p g).freeCtr = s.freeCtr := rfl
@[simp] theorem updPort_seqCtr (s : State) p g : (updPort s p g).seqCtr = s.seqCtr := rfl
@[simp] theorem updPort_pending (s : State) p g : (updPort s p g).pending = s.pending := rfl

@[simp] theorem updCtx_pwr (s : State) cx g : (updCtx s cx g).pwr = s.pwr := rfl
@[simp] theorem updCtx_tt (s : State) cx g : (updCtx s cx g).tt = s.tt := rfl
@[simp] theorem updCtx_adm (s : State) cx g : (updCtx s cx g).adm = s.adm := rfl
@[simp] theorem updCtx_ports (s : State) cx g : (updCtx s cx g).ports = s.ports := rfl
@[simp] theorem updCtx_funcs (s : State) cx g : (updCtx s cx g).funcs = s.funcs := rfl
@[simp] theorem updCtx_reads (s : State) cx g : (updCtx s cx g).reads = s.reads := rfl
@[simp] theorem updCtx_nextTag (s : State) cx g : (updCtx s cx g).nextTag = s.nextTag := rfl
@[simp] theorem updCtx_engineFree (s : State) cx g : (updCtx s cx g).engineFree = s.engineFree := rfl
@[simp] theorem updCtx_cache (s : State) cx g : (updCtx s cx g).cache = s.cache := rfl
@[simp] theorem updCtx_locks (s : State) cx g : (updCtx s cx g).locks = s.locks := rfl
@[simp] theorem updCtx_journal (s : State) cx g : (updCtx s cx g).journal = s.journal := rfl
@[simp] theorem updCtx_groups (s : State) cx g : (updCtx s cx g).groups = s.groups := rfl
@[simp] theorem updCtx_vols (s : State) cx g : (updCtx s cx g).vols = s.vols := rfl
@[simp] theorem updCtx_freedVols (s : State) cx g : (updCtx s cx g).freedVols = s.freedVols := rfl
@[simp] theorem updCtx_mports (s : State) cx g : (updCtx s cx g).mports = s.mports := rfl
@[simp] theorem updCtx_mem (s : State) cx g : (updCtx s cx g).mem = s.mem := rfl
@[simp] theorem updCtx_vlt (s : State) cx g : (updCtx s cx g).vlt = s.vlt := rfl
@[simp] theorem updCtx_movers (s : State) cx g : (updCtx s cx g).movers = s.movers := rfl
@[simp] theorem updCtx_xlate (s : State) cx g : (updCtx s cx g).xlate = s.xlate := rfl
@[simp] theorem updCtx_progs (s : State) cx g : (updCtx s cx g).progs = s.progs := rfl
@[simp] theorem updCtx_mbx (s : State) cx g : (updCtx s cx g).mbx = s.mbx := rfl
@[simp] theorem updCtx_fare (s : State) cx g : (updCtx s cx g).fare = s.fare := rfl
@[simp] theorem updCtx_errLog (s : State) cx g : (updCtx s cx g).errLog = s.errLog := rfl
@[simp] theorem updCtx_errSeq (s : State) cx g : (updCtx s cx g).errSeq = s.errSeq := rfl
@[simp] theorem updCtx_defLog (s : State) cx g : (updCtx s cx g).defLog = s.defLog := rfl
@[simp] theorem updCtx_defSeq (s : State) cx g : (updCtx s cx g).defSeq = s.defSeq := rfl
@[simp] theorem updCtx_rb (s : State) cx g : (updCtx s cx g).rb = s.rb := rfl
@[simp] theorem updCtx_fresh (s : State) cx g : (updCtx s cx g).fresh = s.fresh := rfl
@[simp] theorem updCtx_fetchDue (s : State) cx g : (updCtx s cx g).fetchDue = s.fetchDue := rfl
@[simp] theorem updCtx_out (s : State) cx g : (updCtx s cx g).out = s.out := rfl
@[simp] theorem updCtx_freeCtr (s : State) cx g : (updCtx s cx g).freeCtr = s.freeCtr := rfl
@[simp] theorem updCtx_seqCtr (s : State) cx g : (updCtx s cx g).seqCtr = s.seqCtr := rfl
@[simp] theorem updCtx_pending (s : State) cx g : (updCtx s cx g).pending = s.pending := rfl

@[simp] theorem updMport_pwr (s : State) p g : (updMport s p g).pwr = s.pwr := rfl
@[simp] theorem updMport_tt (s : State) p g : (updMport s p g).tt = s.tt := rfl
@[simp] theorem updMport_adm (s : State) p g : (updMport s p g).adm = s.adm := rfl
@[simp] theorem updMport_ports (s : State) p g : (updMport s p g).ports = s.ports := rfl
@[simp] theorem updMport_funcs (s : State) p g : (updMport s p g).funcs = s.funcs := rfl
@[simp] theorem updMport_reads (s : State) p g : (updMport s p g).reads = s.reads := rfl
@[simp] theorem updMport_nextTag (s : State) p g : (updMport s p g).nextTag = s.nextTag := rfl
@[simp] theorem updMport_ctxs (s : State) p g : (updMport s p g).ctxs = s.ctxs := rfl
@[simp] theorem updMport_engineFree (s : State) p g : (updMport s p g).engineFree = s.engineFree := rfl
@[simp] theorem updMport_cache (s : State) p g : (updMport s p g).cache = s.cache := rfl
@[simp] theorem updMport_locks (s : State) p g : (updMport s p g).locks = s.locks := rfl
@[simp] theorem updMport_journal (s : State) p g : (updMport s p g).journal = s.journal := rfl
@[simp] theorem updMport_groups (s : State) p g : (updMport s p g).groups = s.groups := rfl
@[simp] theorem updMport_vols (s : State) p g : (updMport s p g).vols = s.vols := rfl
@[simp] theorem updMport_freedVols (s : State) p g : (updMport s p g).freedVols = s.freedVols := rfl
@[simp] theorem updMport_mem (s : State) p g : (updMport s p g).mem = s.mem := rfl
@[simp] theorem updMport_vlt (s : State) p g : (updMport s p g).vlt = s.vlt := rfl
@[simp] theorem updMport_movers (s : State) p g : (updMport s p g).movers = s.movers := rfl
@[simp] theorem updMport_xlate (s : State) p g : (updMport s p g).xlate = s.xlate := rfl
@[simp] theorem updMport_progs (s : State) p g : (updMport s p g).progs = s.progs := rfl
@[simp] theorem updMport_mbx (s : State) p g : (updMport s p g).mbx = s.mbx := rfl
@[simp] theorem updMport_fare (s : State) p g : (updMport s p g).fare = s.fare := rfl
@[simp] theorem updMport_errLog (s : State) p g : (updMport s p g).errLog = s.errLog := rfl
@[simp] theorem updMport_errSeq (s : State) p g : (updMport s p g).errSeq = s.errSeq := rfl
@[simp] theorem updMport_defLog (s : State) p g : (updMport s p g).defLog = s.defLog := rfl
@[simp] theorem updMport_defSeq (s : State) p g : (updMport s p g).defSeq = s.defSeq := rfl
@[simp] theorem updMport_rb (s : State) p g : (updMport s p g).rb = s.rb := rfl
@[simp] theorem updMport_fresh (s : State) p g : (updMport s p g).fresh = s.fresh := rfl
@[simp] theorem updMport_fetchDue (s : State) p g : (updMport s p g).fetchDue = s.fetchDue := rfl
@[simp] theorem updMport_out (s : State) p g : (updMport s p g).out = s.out := rfl
@[simp] theorem updMport_freeCtr (s : State) p g : (updMport s p g).freeCtr = s.freeCtr := rfl
@[simp] theorem updMport_seqCtr (s : State) p g : (updMport s p g).seqCtr = s.seqCtr := rfl
@[simp] theorem updMport_pending (s : State) p g : (updMport s p g).pending = s.pending := rfl

@[simp] theorem updGroup_pwr (s : State) n g : (updGroup s n g).pwr = s.pwr := rfl
@[simp] theorem updGroup_tt (s : State) n g : (updGroup s n g).tt = s.tt := rfl
@[simp] theorem updGroup_adm (s : State) n g : (updGroup s n g).adm = s.adm := rfl
@[simp] theorem updGroup_ports (s : State) n g : (updGroup s n g).ports = s.ports := rfl
@[simp] theorem updGroup_funcs (s : State) n g : (updGroup s n g).funcs = s.funcs := rfl
@[simp] theorem updGroup_reads (s : State) n g : (updGroup s n g).reads = s.reads := rfl
@[simp] theorem updGroup_nextTag (s : State) n g : (updGroup s n g).nextTag = s.nextTag := rfl
@[simp] theorem updGroup_ctxs (s : State) n g : (updGroup s n g).ctxs = s.ctxs := rfl
@[simp] theorem updGroup_engineFree (s : State) n g : (updGroup s n g).engineFree = s.engineFree := rfl
@[simp] theorem updGroup_cache (s : State) n g : (updGroup s n g).cache = s.cache := rfl
@[simp] theorem updGroup_locks (s : State) n g : (updGroup s n g).locks = s.locks := rfl
@[simp] theorem updGroup_journal (s : State) n g : (updGroup s n g).journal = s.journal := rfl
@[simp] theorem updGroup_vols (s : State) n g : (updGroup s n g).vols = s.vols := rfl
@[simp] theorem updGroup_freedVols (s : State) n g : (updGroup s n g).freedVols = s.freedVols := rfl
@[simp] theorem updGroup_mports (s : State) n g : (updGroup s n g).mports = s.mports := rfl
@[simp] theorem updGroup_mem (s : State) n g : (updGroup s n g).mem = s.mem := rfl
@[simp] theorem updGroup_vlt (s : State) n g : (updGroup s n g).vlt = s.vlt := rfl
@[simp] theorem updGroup_movers (s : State) n g : (updGroup s n g).movers = s.movers := rfl
@[simp] theorem updGroup_xlate (s : State) n g : (updGroup s n g).xlate = s.xlate := rfl
@[simp] theorem updGroup_progs (s : State) n g : (updGroup s n g).progs = s.progs := rfl
@[simp] theorem updGroup_mbx (s : State) n g : (updGroup s n g).mbx = s.mbx := rfl
@[simp] theorem updGroup_fare (s : State) n g : (updGroup s n g).fare = s.fare := rfl
@[simp] theorem updGroup_errLog (s : State) n g : (updGroup s n g).errLog = s.errLog := rfl
@[simp] theorem updGroup_errSeq (s : State) n g : (updGroup s n g).errSeq = s.errSeq := rfl
@[simp] theorem updGroup_defLog (s : State) n g : (updGroup s n g).defLog = s.defLog := rfl
@[simp] theorem updGroup_defSeq (s : State) n g : (updGroup s n g).defSeq = s.defSeq := rfl
@[simp] theorem updGroup_rb (s : State) n g : (updGroup s n g).rb = s.rb := rfl
@[simp] theorem updGroup_fresh (s : State) n g : (updGroup s n g).fresh = s.fresh := rfl
@[simp] theorem updGroup_fetchDue (s : State) n g : (updGroup s n g).fetchDue = s.fetchDue := rfl
@[simp] theorem updGroup_out (s : State) n g : (updGroup s n g).out = s.out := rfl
@[simp] theorem updGroup_freeCtr (s : State) n g : (updGroup s n g).freeCtr = s.freeCtr := rfl
@[simp] theorem updGroup_seqCtr (s : State) n g : (updGroup s n g).seqCtr = s.seqCtr := rfl
@[simp] theorem updGroup_pending (s : State) n g : (updGroup s n g).pending = s.pending := rfl

@[simp] theorem updVol_pwr (s : State) v g : (updVol s v g).pwr = s.pwr := rfl
@[simp] theorem updVol_tt (s : State) v g : (updVol s v g).tt = s.tt := rfl
@[simp] theorem updVol_adm (s : State) v g : (updVol s v g).adm = s.adm := rfl
@[simp] theorem updVol_ports (s : State) v g : (updVol s v g).ports = s.ports := rfl
@[simp] theorem updVol_funcs (s : State) v g : (updVol s v g).funcs = s.funcs := rfl
@[simp] theorem updVol_reads (s : State) v g : (updVol s v g).reads = s.reads := rfl
@[simp] theorem updVol_nextTag (s : State) v g : (updVol s v g).nextTag = s.nextTag := rfl
@[simp] theorem updVol_ctxs (s : State) v g : (updVol s v g).ctxs = s.ctxs := rfl
@[simp] theorem updVol_engineFree (s : State) v g : (updVol s v g).engineFree = s.engineFree := rfl
@[simp] theorem updVol_cache (s : State) v g : (updVol s v g).cache = s.cache := rfl
@[simp] theorem updVol_locks (s : State) v g : (updVol s v g).locks = s.locks := rfl
@[simp] theorem updVol_journal (s : State) v g : (updVol s v g).journal = s.journal := rfl
@[simp] theorem updVol_groups (s : State) v g : (updVol s v g).groups = s.groups := rfl
@[simp] theorem updVol_freedVols (s : State) v g : (updVol s v g).freedVols = s.freedVols := rfl
@[simp] theorem updVol_mports (s : State) v g : (updVol s v g).mports = s.mports := rfl
@[simp] theorem updVol_mem (s : State) v g : (updVol s v g).mem = s.mem := rfl
@[simp] theorem updVol_vlt (s : State) v g : (updVol s v g).vlt = s.vlt := rfl
@[simp] theorem updVol_movers (s : State) v g : (updVol s v g).movers = s.movers := rfl
@[simp] theorem updVol_xlate (s : State) v g : (updVol s v g).xlate = s.xlate := rfl
@[simp] theorem updVol_progs (s : State) v g : (updVol s v g).progs = s.progs := rfl
@[simp] theorem updVol_mbx (s : State) v g : (updVol s v g).mbx = s.mbx := rfl
@[simp] theorem updVol_fare (s : State) v g : (updVol s v g).fare = s.fare := rfl
@[simp] theorem updVol_errLog (s : State) v g : (updVol s v g).errLog = s.errLog := rfl
@[simp] theorem updVol_errSeq (s : State) v g : (updVol s v g).errSeq = s.errSeq := rfl
@[simp] theorem updVol_defLog (s : State) v g : (updVol s v g).defLog = s.defLog := rfl
@[simp] theorem updVol_defSeq (s : State) v g : (updVol s v g).defSeq = s.defSeq := rfl
@[simp] theorem updVol_rb (s : State) v g : (updVol s v g).rb = s.rb := rfl
@[simp] theorem updVol_fresh (s : State) v g : (updVol s v g).fresh = s.fresh := rfl
@[simp] theorem updVol_fetchDue (s : State) v g : (updVol s v g).fetchDue = s.fetchDue := rfl
@[simp] theorem updVol_out (s : State) v g : (updVol s v g).out = s.out := rfl
@[simp] theorem updVol_freeCtr (s : State) v g : (updVol s v g).freeCtr = s.freeCtr := rfl
@[simp] theorem updVol_seqCtr (s : State) v g : (updVol s v g).seqCtr = s.seqCtr := rfl
@[simp] theorem updVol_pending (s : State) v g : (updVol s v g).pending = s.pending := rfl

@[simp] theorem updLock_pwr (s : State) n st g : (updLock s n st g).pwr = s.pwr := rfl
@[simp] theorem updLock_tt (s : State) n st g : (updLock s n st g).tt = s.tt := rfl
@[simp] theorem updLock_adm (s : State) n st g : (updLock s n st g).adm = s.adm := rfl
@[simp] theorem updLock_ports (s : State) n st g : (updLock s n st g).ports = s.ports := rfl
@[simp] theorem updLock_funcs (s : State) n st g : (updLock s n st g).funcs = s.funcs := rfl
@[simp] theorem updLock_reads (s : State) n st g : (updLock s n st g).reads = s.reads := rfl
@[simp] theorem updLock_nextTag (s : State) n st g : (updLock s n st g).nextTag = s.nextTag := rfl
@[simp] theorem updLock_ctxs (s : State) n st g : (updLock s n st g).ctxs = s.ctxs := rfl
@[simp] theorem updLock_engineFree (s : State) n st g : (updLock s n st g).engineFree = s.engineFree := rfl
@[simp] theorem updLock_cache (s : State) n st g : (updLock s n st g).cache = s.cache := rfl
@[simp] theorem updLock_journal (s : State) n st g : (updLock s n st g).journal = s.journal := rfl
@[simp] theorem updLock_groups (s : State) n st g : (updLock s n st g).groups = s.groups := rfl
@[simp] theorem updLock_vols (s : State) n st g : (updLock s n st g).vols = s.vols := rfl
@[simp] theorem updLock_freedVols (s : State) n st g : (updLock s n st g).freedVols = s.freedVols := rfl
@[simp] theorem updLock_mports (s : State) n st g : (updLock s n st g).mports = s.mports := rfl
@[simp] theorem updLock_mem (s : State) n st g : (updLock s n st g).mem = s.mem := rfl
@[simp] theorem updLock_vlt (s : State) n st g : (updLock s n st g).vlt = s.vlt := rfl
@[simp] theorem updLock_movers (s : State) n st g : (updLock s n st g).movers = s.movers := rfl
@[simp] theorem updLock_xlate (s : State) n st g : (updLock s n st g).xlate = s.xlate := rfl
@[simp] theorem updLock_progs (s : State) n st g : (updLock s n st g).progs = s.progs := rfl
@[simp] theorem updLock_mbx (s : State) n st g : (updLock s n st g).mbx = s.mbx := rfl
@[simp] theorem updLock_fare (s : State) n st g : (updLock s n st g).fare = s.fare := rfl
@[simp] theorem updLock_errLog (s : State) n st g : (updLock s n st g).errLog = s.errLog := rfl
@[simp] theorem updLock_errSeq (s : State) n st g : (updLock s n st g).errSeq = s.errSeq := rfl
@[simp] theorem updLock_defLog (s : State) n st g : (updLock s n st g).defLog = s.defLog := rfl
@[simp] theorem updLock_defSeq (s : State) n st g : (updLock s n st g).defSeq = s.defSeq := rfl
@[simp] theorem updLock_rb (s : State) n st g : (updLock s n st g).rb = s.rb := rfl
@[simp] theorem updLock_fresh (s : State) n st g : (updLock s n st g).fresh = s.fresh := rfl
@[simp] theorem updLock_fetchDue (s : State) n st g : (updLock s n st g).fetchDue = s.fetchDue := rfl
@[simp] theorem updLock_out (s : State) n st g : (updLock s n st g).out = s.out := rfl
@[simp] theorem updLock_freeCtr (s : State) n st g : (updLock s n st g).freeCtr = s.freeCtr := rfl
@[simp] theorem updLock_seqCtr (s : State) n st g : (updLock s n st g).seqCtr = s.seqCtr := rfl
@[simp] theorem updLock_pending (s : State) n st g : (updLock s n st g).pending = s.pending := rfl

@[simp] theorem updRec_pwr (s : State) i g : (updRec s i g).pwr = s.pwr := rfl
@[simp] theorem updRec_tt (s : State) i g : (updRec s i g).tt = s.tt := rfl
@[simp] theorem updRec_adm (s : State) i g : (updRec s i g).adm = s.adm := rfl
@[simp] theorem updRec_ports (s : State) i g : (updRec s i g).ports = s.ports := rfl
@[simp] theorem updRec_funcs (s : State) i g : (updRec s i g).funcs = s.funcs := rfl
@[simp] theorem updRec_reads (s : State) i g : (updRec s i g).reads = s.reads := rfl
@[simp] theorem updRec_nextTag (s : State) i g : (updRec s i g).nextTag = s.nextTag := rfl
@[simp] theorem updRec_ctxs (s : State) i g : (updRec s i g).ctxs = s.ctxs := rfl
@[simp] theorem updRec_engineFree (s : State) i g : (updRec s i g).engineFree = s.engineFree := rfl
@[simp] theorem updRec_cache (s : State) i g : (updRec s i g).cache = s.cache := rfl
@[simp] theorem updRec_locks (s : State) i g : (updRec s i g).locks = s.locks := rfl
@[simp] theorem updRec_groups (s : State) i g : (updRec s i g).groups = s.groups := rfl
@[simp] theorem updRec_vols (s : State) i g : (updRec s i g).vols = s.vols := rfl
@[simp] theorem updRec_freedVols (s : State) i g : (updRec s i g).freedVols = s.freedVols := rfl
@[simp] theorem updRec_mports (s : State) i g : (updRec s i g).mports = s.mports := rfl
@[simp] theorem updRec_mem (s : State) i g : (updRec s i g).mem = s.mem := rfl
@[simp] theorem updRec_vlt (s : State) i g : (updRec s i g).vlt = s.vlt := rfl
@[simp] theorem updRec_movers (s : State) i g : (updRec s i g).movers = s.movers := rfl
@[simp] theorem updRec_xlate (s : State) i g : (updRec s i g).xlate = s.xlate := rfl
@[simp] theorem updRec_progs (s : State) i g : (updRec s i g).progs = s.progs := rfl
@[simp] theorem updRec_mbx (s : State) i g : (updRec s i g).mbx = s.mbx := rfl
@[simp] theorem updRec_fare (s : State) i g : (updRec s i g).fare = s.fare := rfl
@[simp] theorem updRec_errLog (s : State) i g : (updRec s i g).errLog = s.errLog := rfl
@[simp] theorem updRec_errSeq (s : State) i g : (updRec s i g).errSeq = s.errSeq := rfl
@[simp] theorem updRec_defLog (s : State) i g : (updRec s i g).defLog = s.defLog := rfl
@[simp] theorem updRec_defSeq (s : State) i g : (updRec s i g).defSeq = s.defSeq := rfl
@[simp] theorem updRec_rb (s : State) i g : (updRec s i g).rb = s.rb := rfl
@[simp] theorem updRec_fresh (s : State) i g : (updRec s i g).fresh = s.fresh := rfl
@[simp] theorem updRec_fetchDue (s : State) i g : (updRec s i g).fetchDue = s.fetchDue := rfl
@[simp] theorem updRec_out (s : State) i g : (updRec s i g).out = s.out := rfl
@[simp] theorem updRec_freeCtr (s : State) i g : (updRec s i g).freeCtr = s.freeCtr := rfl
@[simp] theorem updRec_seqCtr (s : State) i g : (updRec s i g).seqCtr = s.seqCtr := rfl
@[simp] theorem updRec_pending (s : State) i g : (updRec s i g).pending = s.pending := rfl

@[simp] theorem countIgn_pwr (s : State) f : (countIgn s f).pwr = s.pwr := rfl
@[simp] theorem countIgn_tt (s : State) f : (countIgn s f).tt = s.tt := rfl
@[simp] theorem countIgn_adm (s : State) f : (countIgn s f).adm = s.adm := rfl
@[simp] theorem countIgn_ports (s : State) f : (countIgn s f).ports = s.ports := rfl
@[simp] theorem countIgn_reads (s : State) f : (countIgn s f).reads = s.reads := rfl
@[simp] theorem countIgn_nextTag (s : State) f : (countIgn s f).nextTag = s.nextTag := rfl
@[simp] theorem countIgn_ctxs (s : State) f : (countIgn s f).ctxs = s.ctxs := rfl
@[simp] theorem countIgn_engineFree (s : State) f : (countIgn s f).engineFree = s.engineFree := rfl
@[simp] theorem countIgn_cache (s : State) f : (countIgn s f).cache = s.cache := rfl
@[simp] theorem countIgn_locks (s : State) f : (countIgn s f).locks = s.locks := rfl
@[simp] theorem countIgn_journal (s : State) f : (countIgn s f).journal = s.journal := rfl
@[simp] theorem countIgn_groups (s : State) f : (countIgn s f).groups = s.groups := rfl
@[simp] theorem countIgn_vols (s : State) f : (countIgn s f).vols = s.vols := rfl
@[simp] theorem countIgn_freedVols (s : State) f : (countIgn s f).freedVols = s.freedVols := rfl
@[simp] theorem countIgn_mports (s : State) f : (countIgn s f).mports = s.mports := rfl
@[simp] theorem countIgn_mem (s : State) f : (countIgn s f).mem = s.mem := rfl
@[simp] theorem countIgn_vlt (s : State) f : (countIgn s f).vlt = s.vlt := rfl
@[simp] theorem countIgn_movers (s : State) f : (countIgn s f).movers = s.movers := rfl
@[simp] theorem countIgn_xlate (s : State) f : (countIgn s f).xlate = s.xlate := rfl
@[simp] theorem countIgn_progs (s : State) f : (countIgn s f).progs = s.progs := rfl
@[simp] theorem countIgn_mbx (s : State) f : (countIgn s f).mbx = s.mbx := rfl
@[simp] theorem countIgn_fare (s : State) f : (countIgn s f).fare = s.fare := rfl
@[simp] theorem countIgn_errLog (s : State) f : (countIgn s f).errLog = s.errLog := rfl
@[simp] theorem countIgn_errSeq (s : State) f : (countIgn s f).errSeq = s.errSeq := rfl
@[simp] theorem countIgn_defLog (s : State) f : (countIgn s f).defLog = s.defLog := rfl
@[simp] theorem countIgn_defSeq (s : State) f : (countIgn s f).defSeq = s.defSeq := rfl
@[simp] theorem countIgn_rb (s : State) f : (countIgn s f).rb = s.rb := rfl
@[simp] theorem countIgn_fetchDue (s : State) f : (countIgn s f).fetchDue = s.fetchDue := rfl
@[simp] theorem countIgn_out (s : State) f : (countIgn s f).out = s.out := rfl
@[simp] theorem countIgn_freeCtr (s : State) f : (countIgn s f).freeCtr = s.freeCtr := rfl
@[simp] theorem countIgn_seqCtr (s : State) f : (countIgn s f).seqCtr = s.seqCtr := rfl
@[simp] theorem countIgn_pending (s : State) f : (countIgn s f).pending = s.pending := rfl

@[simp] theorem updSq_pwr (s : State) f q g : (updSq s f q g).pwr = s.pwr := rfl
@[simp] theorem updSq_tt (s : State) f q g : (updSq s f q g).tt = s.tt := rfl
@[simp] theorem updSq_adm (s : State) f q g : (updSq s f q g).adm = s.adm := rfl
@[simp] theorem updSq_ports (s : State) f q g : (updSq s f q g).ports = s.ports := rfl
@[simp] theorem updSq_reads (s : State) f q g : (updSq s f q g).reads = s.reads := rfl
@[simp] theorem updSq_nextTag (s : State) f q g : (updSq s f q g).nextTag = s.nextTag := rfl
@[simp] theorem updSq_ctxs (s : State) f q g : (updSq s f q g).ctxs = s.ctxs := rfl
@[simp] theorem updSq_engineFree (s : State) f q g : (updSq s f q g).engineFree = s.engineFree := rfl
@[simp] theorem updSq_cache (s : State) f q g : (updSq s f q g).cache = s.cache := rfl
@[simp] theorem updSq_locks (s : State) f q g : (updSq s f q g).locks = s.locks := rfl
@[simp] theorem updSq_journal (s : State) f q g : (updSq s f q g).journal = s.journal := rfl
@[simp] theorem updSq_groups (s : State) f q g : (updSq s f q g).groups = s.groups := rfl
@[simp] theorem updSq_vols (s : State) f q g : (updSq s f q g).vols = s.vols := rfl
@[simp] theorem updSq_freedVols (s : State) f q g : (updSq s f q g).freedVols = s.freedVols := rfl
@[simp] theorem updSq_mports (s : State) f q g : (updSq s f q g).mports = s.mports := rfl
@[simp] theorem updSq_mem (s : State) f q g : (updSq s f q g).mem = s.mem := rfl
@[simp] theorem updSq_vlt (s : State) f q g : (updSq s f q g).vlt = s.vlt := rfl
@[simp] theorem updSq_movers (s : State) f q g : (updSq s f q g).movers = s.movers := rfl
@[simp] theorem updSq_xlate (s : State) f q g : (updSq s f q g).xlate = s.xlate := rfl
@[simp] theorem updSq_progs (s : State) f q g : (updSq s f q g).progs = s.progs := rfl
@[simp] theorem updSq_mbx (s : State) f q g : (updSq s f q g).mbx = s.mbx := rfl
@[simp] theorem updSq_fare (s : State) f q g : (updSq s f q g).fare = s.fare := rfl
@[simp] theorem updSq_errLog (s : State) f q g : (updSq s f q g).errLog = s.errLog := rfl
@[simp] theorem updSq_errSeq (s : State) f q g : (updSq s f q g).errSeq = s.errSeq := rfl
@[simp] theorem updSq_defLog (s : State) f q g : (updSq s f q g).defLog = s.defLog := rfl
@[simp] theorem updSq_defSeq (s : State) f q g : (updSq s f q g).defSeq = s.defSeq := rfl
@[simp] theorem updSq_rb (s : State) f q g : (updSq s f q g).rb = s.rb := rfl
@[simp] theorem updSq_fresh (s : State) f q g : (updSq s f q g).fresh = s.fresh := rfl
@[simp] theorem updSq_fetchDue (s : State) f q g : (updSq s f q g).fetchDue = s.fetchDue := rfl
@[simp] theorem updSq_out (s : State) f q g : (updSq s f q g).out = s.out := rfl
@[simp] theorem updSq_freeCtr (s : State) f q g : (updSq s f q g).freeCtr = s.freeCtr := rfl
@[simp] theorem updSq_seqCtr (s : State) f q g : (updSq s f q g).seqCtr = s.seqCtr := rfl
@[simp] theorem updSq_pending (s : State) f q g : (updSq s f q g).pending = s.pending := rfl

@[simp] theorem updCq_pwr (s : State) f q g : (updCq s f q g).pwr = s.pwr := rfl
@[simp] theorem updCq_tt (s : State) f q g : (updCq s f q g).tt = s.tt := rfl
@[simp] theorem updCq_adm (s : State) f q g : (updCq s f q g).adm = s.adm := rfl
@[simp] theorem updCq_ports (s : State) f q g : (updCq s f q g).ports = s.ports := rfl
@[simp] theorem updCq_reads (s : State) f q g : (updCq s f q g).reads = s.reads := rfl
@[simp] theorem updCq_nextTag (s : State) f q g : (updCq s f q g).nextTag = s.nextTag := rfl
@[simp] theorem updCq_ctxs (s : State) f q g : (updCq s f q g).ctxs = s.ctxs := rfl
@[simp] theorem updCq_engineFree (s : State) f q g : (updCq s f q g).engineFree = s.engineFree := rfl
@[simp] theorem updCq_cache (s : State) f q g : (updCq s f q g).cache = s.cache := rfl
@[simp] theorem updCq_locks (s : State) f q g : (updCq s f q g).locks = s.locks := rfl
@[simp] theorem updCq_journal (s : State) f q g : (updCq s f q g).journal = s.journal := rfl
@[simp] theorem updCq_groups (s : State) f q g : (updCq s f q g).groups = s.groups := rfl
@[simp] theorem updCq_vols (s : State) f q g : (updCq s f q g).vols = s.vols := rfl
@[simp] theorem updCq_freedVols (s : State) f q g : (updCq s f q g).freedVols = s.freedVols := rfl
@[simp] theorem updCq_mports (s : State) f q g : (updCq s f q g).mports = s.mports := rfl
@[simp] theorem updCq_mem (s : State) f q g : (updCq s f q g).mem = s.mem := rfl
@[simp] theorem updCq_vlt (s : State) f q g : (updCq s f q g).vlt = s.vlt := rfl
@[simp] theorem updCq_movers (s : State) f q g : (updCq s f q g).movers = s.movers := rfl
@[simp] theorem updCq_xlate (s : State) f q g : (updCq s f q g).xlate = s.xlate := rfl
@[simp] theorem updCq_progs (s : State) f q g : (updCq s f q g).progs = s.progs := rfl
@[simp] theorem updCq_mbx (s : State) f q g : (updCq s f q g).mbx = s.mbx := rfl
@[simp] theorem updCq_fare (s : State) f q g : (updCq s f q g).fare = s.fare := rfl
@[simp] theorem updCq_errLog (s : State) f q g : (updCq s f q g).errLog = s.errLog := rfl
@[simp] theorem updCq_errSeq (s : State) f q g : (updCq s f q g).errSeq = s.errSeq := rfl
@[simp] theorem updCq_defLog (s : State) f q g : (updCq s f q g).defLog = s.defLog := rfl
@[simp] theorem updCq_defSeq (s : State) f q g : (updCq s f q g).defSeq = s.defSeq := rfl
@[simp] theorem updCq_rb (s : State) f q g : (updCq s f q g).rb = s.rb := rfl
@[simp] theorem updCq_fresh (s : State) f q g : (updCq s f q g).fresh = s.fresh := rfl
@[simp] theorem updCq_fetchDue (s : State) f q g : (updCq s f q g).fetchDue = s.fetchDue := rfl
@[simp] theorem updCq_out (s : State) f q g : (updCq s f q g).out = s.out := rfl
@[simp] theorem updCq_freeCtr (s : State) f q g : (updCq s f q g).freeCtr = s.freeCtr := rfl
@[simp] theorem updCq_seqCtr (s : State) f q g : (updCq s f q g).seqCtr = s.seqCtr := rfl
@[simp] theorem updCq_pending (s : State) f q g : (updCq s f q g).pending = s.pending := rfl

@[simp] theorem updWin_pwr (s : State) f w g : (updWin s f w g).pwr = s.pwr := rfl
@[simp] theorem updWin_tt (s : State) f w g : (updWin s f w g).tt = s.tt := rfl
@[simp] theorem updWin_adm (s : State) f w g : (updWin s f w g).adm = s.adm := rfl
@[simp] theorem updWin_ports (s : State) f w g : (updWin s f w g).ports = s.ports := rfl
@[simp] theorem updWin_reads (s : State) f w g : (updWin s f w g).reads = s.reads := rfl
@[simp] theorem updWin_nextTag (s : State) f w g : (updWin s f w g).nextTag = s.nextTag := rfl
@[simp] theorem updWin_ctxs (s : State) f w g : (updWin s f w g).ctxs = s.ctxs := rfl
@[simp] theorem updWin_engineFree (s : State) f w g : (updWin s f w g).engineFree = s.engineFree := rfl
@[simp] theorem updWin_cache (s : State) f w g : (updWin s f w g).cache = s.cache := rfl
@[simp] theorem updWin_locks (s : State) f w g : (updWin s f w g).locks = s.locks := rfl
@[simp] theorem updWin_journal (s : State) f w g : (updWin s f w g).journal = s.journal := rfl
@[simp] theorem updWin_groups (s : State) f w g : (updWin s f w g).groups = s.groups := rfl
@[simp] theorem updWin_vols (s : State) f w g : (updWin s f w g).vols = s.vols := rfl
@[simp] theorem updWin_freedVols (s : State) f w g : (updWin s f w g).freedVols = s.freedVols := rfl
@[simp] theorem updWin_mports (s : State) f w g : (updWin s f w g).mports = s.mports := rfl
@[simp] theorem updWin_mem (s : State) f w g : (updWin s f w g).mem = s.mem := rfl
@[simp] theorem updWin_vlt (s : State) f w g : (updWin s f w g).vlt = s.vlt := rfl
@[simp] theorem updWin_movers (s : State) f w g : (updWin s f w g).movers = s.movers := rfl
@[simp] theorem updWin_xlate (s : State) f w g : (updWin s f w g).xlate = s.xlate := rfl
@[simp] theorem updWin_progs (s : State) f w g : (updWin s f w g).progs = s.progs := rfl
@[simp] theorem updWin_mbx (s : State) f w g : (updWin s f w g).mbx = s.mbx := rfl
@[simp] theorem updWin_fare (s : State) f w g : (updWin s f w g).fare = s.fare := rfl
@[simp] theorem updWin_errLog (s : State) f w g : (updWin s f w g).errLog = s.errLog := rfl
@[simp] theorem updWin_errSeq (s : State) f w g : (updWin s f w g).errSeq = s.errSeq := rfl
@[simp] theorem updWin_defLog (s : State) f w g : (updWin s f w g).defLog = s.defLog := rfl
@[simp] theorem updWin_defSeq (s : State) f w g : (updWin s f w g).defSeq = s.defSeq := rfl
@[simp] theorem updWin_rb (s : State) f w g : (updWin s f w g).rb = s.rb := rfl
@[simp] theorem updWin_fresh (s : State) f w g : (updWin s f w g).fresh = s.fresh := rfl
@[simp] theorem updWin_fetchDue (s : State) f w g : (updWin s f w g).fetchDue = s.fetchDue := rfl
@[simp] theorem updWin_out (s : State) f w g : (updWin s f w g).out = s.out := rfl
@[simp] theorem updWin_freeCtr (s : State) f w g : (updWin s f w g).freeCtr = s.freeCtr := rfl
@[simp] theorem updWin_seqCtr (s : State) f w g : (updWin s f w g).seqCtr = s.seqCtr := rfl
@[simp] theorem updWin_pending (s : State) f w g : (updWin s f w g).pending = s.pending := rfl

@[simp] theorem updPwr_pwr (s : State) g : (updPwr s g).pwr = g s.pwr := rfl
@[simp] theorem updTt_tt (s : State) g : (updTt s g).tt = g s.tt := rfl
@[simp] theorem updAdm_adm (s : State) g : (updAdm s g).adm = g s.adm := rfl
@[simp] theorem updVlt_vlt (s : State) g : (updVlt s g).vlt = g s.vlt := rfl
@[simp] theorem updMbx_mbx (s : State) g : (updMbx s g).mbx = g s.mbx := rfl
@[simp] theorem updCache_cache (s : State) g : (updCache s g).cache = g s.cache := rfl
@[simp] theorem updFunc_funcs (s : State) k g : (updFunc s k g).funcs = s.funcs.upd k g := rfl
@[simp] theorem updPort_ports (s : State) k g : (updPort s k g).ports = s.ports.upd k g := rfl
@[simp] theorem updCtx_ctxs (s : State) k g : (updCtx s k g).ctxs = s.ctxs.upd k g := rfl
@[simp] theorem updMport_mports (s : State) k g : (updMport s k g).mports = s.mports.upd k g := rfl
@[simp] theorem updGroup_groups (s : State) k g : (updGroup s k g).groups = s.groups.upd k g := rfl
@[simp] theorem updVol_vols (s : State) k g : (updVol s k g).vols = s.vols.upd k g := rfl
@[simp] theorem emit_out (s : State) o : (emit s o).out = o :: s.out := rfl
@[simp] theorem emitAll_out (s : State) os : (emitAll s os).out = os.reverse ++ s.out := rfl
@[simp] theorem rbChange_rb (s : State) : (rbChange s).rb = { s.rb with changed := true } := rfl

@[simp] theorem logErr_pwr (s : State) c b w d : (logErr s c b w d).pwr = s.pwr := rfl
@[simp] theorem logErr_tt (s : State) c b w d : (logErr s c b w d).tt = s.tt := rfl
@[simp] theorem logErr_adm (s : State) c b w d : (logErr s c b w d).adm = s.adm := rfl
@[simp] theorem logErr_ports (s : State) c b w d : (logErr s c b w d).ports = s.ports := rfl
@[simp] theorem logErr_funcs (s : State) c b w d : (logErr s c b w d).funcs = s.funcs := rfl
@[simp] theorem logErr_reads (s : State) c b w d : (logErr s c b w d).reads = s.reads := rfl
@[simp] theorem logErr_nextTag (s : State) c b w d : (logErr s c b w d).nextTag = s.nextTag := rfl
@[simp] theorem logErr_ctxs (s : State) c b w d : (logErr s c b w d).ctxs = s.ctxs := rfl
@[simp] theorem logErr_engineFree (s : State) c b w d : (logErr s c b w d).engineFree = s.engineFree := rfl
@[simp] theorem logErr_cache (s : State) c b w d : (logErr s c b w d).cache = s.cache := rfl
@[simp] theorem logErr_locks (s : State) c b w d : (logErr s c b w d).locks = s.locks := rfl
@[simp] theorem logErr_journal (s : State) c b w d : (logErr s c b w d).journal = s.journal := rfl
@[simp] theorem logErr_groups (s : State) c b w d : (logErr s c b w d).groups = s.groups := rfl
@[simp] theorem logErr_vols (s : State) c b w d : (logErr s c b w d).vols = s.vols := rfl
@[simp] theorem logErr_freedVols (s : State) c b w d : (logErr s c b w d).freedVols = s.freedVols := rfl
@[simp] theorem logErr_mports (s : State) c b w d : (logErr s c b w d).mports = s.mports := rfl
@[simp] theorem logErr_mem (s : State) c b w d : (logErr s c b w d).mem = s.mem := rfl
@[simp] theorem logErr_vlt (s : State) c b w d : (logErr s c b w d).vlt = s.vlt := rfl
@[simp] theorem logErr_movers (s : State) c b w d : (logErr s c b w d).movers = s.movers := rfl
@[simp] theorem logErr_xlate (s : State) c b w d : (logErr s c b w d).xlate = s.xlate := rfl
@[simp] theorem logErr_progs (s : State) c b w d : (logErr s c b w d).progs = s.progs := rfl
@[simp] theorem logErr_mbx (s : State) c b w d : (logErr s c b w d).mbx = s.mbx := rfl
@[simp] theorem logErr_fare (s : State) c b w d : (logErr s c b w d).fare = s.fare := rfl
@[simp] theorem logErr_defLog (s : State) c b w d : (logErr s c b w d).defLog = s.defLog := rfl
@[simp] theorem logErr_defSeq (s : State) c b w d : (logErr s c b w d).defSeq = s.defSeq := rfl
@[simp] theorem logErr_rb (s : State) c b w d : (logErr s c b w d).rb = s.rb := rfl
@[simp] theorem logErr_fresh (s : State) c b w d : (logErr s c b w d).fresh = s.fresh := rfl
@[simp] theorem logErr_fetchDue (s : State) c b w d : (logErr s c b w d).fetchDue = s.fetchDue := rfl
@[simp] theorem logErr_out (s : State) c b w d : (logErr s c b w d).out = s.out := rfl
@[simp] theorem logErr_freeCtr (s : State) c b w d : (logErr s c b w d).freeCtr = s.freeCtr := rfl
@[simp] theorem logErr_seqCtr (s : State) c b w d : (logErr s c b w d).seqCtr = s.seqCtr := rfl
@[simp] theorem logErr_pending (s : State) c b w d : (logErr s c b w d).pending = s.pending := rfl
@[simp] theorem logErr_errSeq (s : State) c b w d : (logErr s c b w d).errSeq = s.errSeq + 1 := rfl

end Sys2Proof.Machine
end

