-- ==== Sys2Proof/Tests/Slice0.lean ====
section
/-! SUPPORT. Small states, worked examples of spec/, a refused term for each check of WellFormed, and for each obligation
with hypotheses a witness that meets them. -/

namespace Sys2Proof.Tests
open Sys2Proof Sys2Proof.Machine

set_option Elab.async false

/-! Small states -/

/-- A word of a thread of context 0. -/
def insOf (mod : BitVec 9) (imm : BitVec 32) (d a b : BitVec 5) : Ins :=
  { cx := 0, d := d, a := a, b := b, mod := mod, imm := imm }

/-- A thread in a slot. -/
def aCtx : Ctx :=
  { cls := .standard, dl := 0x30000, state := .running, budget := 100, func := 0, sqid := 1, vol := some 7,
    place := some (0, 0), g := [(1, 7), (2, 0x100000000), (3, 5), (4, 0xFFFFFFFFFFFFFFFF)] }

/-- A state with one context. -/
def oneCtx (x : Ctx) : State := { pwr := { devState := .ready }, ctxs := [(0, x)] }

theorem test_meets_EngineArithmetic :
    Issues anyKind (insOf 0 0 5 1 6) aCtx (oneCtx aCtx) ∧
    ((insOf 0 0 5 1 6).aluOk = true ∧ (insOf 0 0 5 1 6).narrow = false ∧ (insOf 0 0 5 1 6).s2 aCtx = 0) ∧
    ((insOf 0 0 5 1 3).aluOk = true ∧ (insOf 0 0 5 1 3).narrow = false ∧ (insOf 0 0 5 1 3).s2 aCtx = 5) ∧
    ((insOf 2 0 5 1 2).aluOk = true ∧ (insOf 2 0 5 1 2).narrow = true ∧
      ((insOf 2 0 5 1 2).s2 aCtx).truncate 32 = (0 : BitVec 32)) ∧
    ((insOf 3 0x80000000 5 4 0).aluOk = true ∧ (insOf 3 0x80000000 5 4 0).narrow = true) ∧
    ((insOf 1 9 5 1 0).modIn 0x001#9 && (insOf 1 9 5 1 0).s2ok) = true := by
  unfold Issues; decide +kernel

theorem test_meets_EngineLogicAndShifts :
    Issues anyKind (insOf 0 0 5 1 4) aCtx (oneCtx aCtx) ∧
    ((insOf 0 0 5 1 4).aluOk = true ∧ (insOf 0 0 5 1 4).narrow = false ∧ ((insOf 0 0 5 1 4).s2 aCtx).toNat % 64 = 63) ∧
    ((insOf 3 32 5 4 0).aluOk = true ∧ (insOf 3 32 5 4 0).narrow = true) ∧
    ((insOf 0x01F 1 5 1 0).modIn 0x01F#9 && (insOf 0x01F 1 5 1 0).s2ok) = true := by
  unfold Issues; decide +kernel

/-- EXT and INS at p = 63, n = 1, and at p = 0, n = 64. -/
theorem test_meets_EngineBitFields :
    Issues anyKind (insOf 0 0x7F 5 1 0) aCtx (oneCtx aCtx) ∧
    ((insOf 2 0x80000000 5 0 0).modIn 0x002#9 && (insOf 2 0x80000000 5 0 0).noA && (insOf 2 0x80000000 5 0 0).noB) = true ∧
    ((insOf 0 7 5 0 0).modIn 0 && (insOf 0 7 5 0 0).noA && (insOf 0 7 5 0 0).noB) = true ∧
    (insOf 0 0x7F 5 1 0).bitsOk = true ∧ (insOf 2 0x1000 5 1 0).bitsOk = true ∧
    (insOf 0 0 5 1 0).unaryOk = true ∧ (insOf 2 0 5 1 0).unaryOk = true := by
  unfold Issues; decide +kernel

/-- CMP of every condition, 64 and 32 bits wide, into f7; FLOP of every operation. -/
theorem test_meets_EngineFlags :
    Issues anyKind (insOf 0x01C 0 0 1 4) aCtx (oneCtx aCtx) ∧
    (∀ c < 8, ∀ w < 2,
      let i := insOf (BitVec.ofNat 9 (0x01C + 2 * w + 32 * c)) 0 0 1 4
      (i.modIn 0x1FF#9 && i.noD && i.s2ok && i.flagOk && decide (i.cond < 8)) = true ∧ i.cond = c ∧
        i.narrow = decide (w = 1)) ∧
    (∀ c < 5,
      let i := insOf (BitVec.ofNat 9 (32 * c)) 0 7 1 0
      (i.modIn 0x1E0#9 && i.imm == 0 && decide (i.cond < 5) && decide (i.d.toNat < 8) && !i.noD &&
        decide (i.a.toNat < 8) && decide (i.b.toNat < 8) && (i.cond != 4 || i.noB)) = true ∧ i.cond = c) ∧
    (8 ≤ (insOf 0x100 0 0 1 4).cond ∧ 8 ≤ (insOf 0x1FF 0 0 1 4).cond) := by
  unfold Issues; decide +kernel

theorem test_meets_RegisterFile :
    (31 ≠ 0 ∧ Tab.sorted aCtx.g = true) ∧ (1 ≠ 31) ∧ (7 ≠ 0 ∧ 7 < 8) ∧ (1 < 8 ∧ 7 < 8 ∧ 1 ≠ 7) := by decide +kernel

/-- A context at the deepest call. -/
def deepCtx : Ctx := { aCtx with depth := 4, retStack := [9, 8, 7, 6] }

theorem test_meets_EngineBranches :
    Issues anyKind (insOf 0x020 0xFFFFFFFB 0 0 0) deepCtx (oneCtx deepCtx) ∧
    Issues anyKind (insOf 0 5 0 0 0) aCtx (oneCtx aCtx) ∧
    (let i := insOf 0x020 0xFFFFFFFB 0 0 0; (i.modIn 0x03C#9 && i.noD && i.noA && i.noB) = true) ∧
    (∀ n ∈ ([1, 256] : List Nat), let i := insOf 0 (BitVec.ofNat 32 n) 0 1 0
      (i.modIn 0 && i.noD && i.noB && decide (1 ≤ i.imm.toNat) && decide (i.imm.toNat ≤ 256)) = true) ∧
    (let i := insOf 0 5 0 0 0; (i.modIn 0 && i.noD && i.noA && i.noB) = true) ∧ aCtx.depth < 4 ∧ 4 ≤ deepCtx.depth ∧
    (let i := insOf 0 0 0 0 0; (i.modIn 0 && i.noD && i.noA && i.noB && i.imm == 0) = true) ∧
    (0 < deepCtx.depth ∧ deepCtx.retStack = 9 :: [8, 7, 6]) ∧
    (let i := insOf 0 0xFFFFFFFF 1 0 0; (i.modIn 0 && i.noA && i.noB && i.imm.msb) = true) := by
  unfold Issues; decide +kernel

/-- A group of 9 members, 3 data strips and one spare column, its members on ports 10 to 18. -/
def aGroup : Group :=
  { assembly := .assembled, n := 9, w := 3, stripLog2 := 16, spare := 1, layout := 2, rows := 16384, extents := 64,
    members := (List.range 9).map fun i => (i, 10 + i), used := [3] }

/-- A volume of one extent in group 0. -/
def aVol : Volume := { group := 0, pi := false, route := 16, blocks := 262144, extents := [3], createTs := 0, attached := [0] }

/-- A member in service. -/
def aMember (i : Nat) : MPort :=
  { absent := false, state := 2, present := true, linkUp := true, group := some 0, index := i, blocks := 2 ^ 30,
    queuePairs := 4 }

/-- A port whose link is up. -/
def upPort : HostPort := { widthMax := 16, linkUp := true, crs := false }

/-- A PF with one submission queue and one ring. -/
def aFunc : Func :=
  { exists_ := true, bme := true, msixEn := true, unmasked := [3]
    sqs := [(1, { push := false, cls := .standard, cqSlot := 2, log2 := 4, base := 0x10000, pollInt := 0, pasid := none,
                  quota := 16 })]
    cqs := [(2, { log2 := 4, base := 0x20000, ien := true, vec := 3, ivCount := 0, ivDelay := 0 })] }

/-- A part in Ready with one port, one PF, one group, one volume, and the given contexts. -/
def readyWith (cs : Tab Ctx) : State :=
  { pwr := { devState := .ready }, ports := [(0, upPort)], funcs := [(0, aFunc)],
    groups := [(0, aGroup)], vols := [(7, aVol)], mports := (List.range 9).map fun i => (10 + i, aMember i), ctxs := cs }

/-- A MAP call at volume block 262,143; the budget covers it, whatever MAP's own instructions count. -/
def mapCtx : Ctx :=
  { aCtx with g := [(1, 262143)], budget := 1 + Config.mapInstrs 0 0 262143 }

theorem test_meets_EngineCallMap :
    Issues notMap (insOf 0 0 0 0 0) mapCtx (readyWith [(0, mapCtx)]) ∧
    (let i := insOf 0 0 0 0 0; (i.modIn 0 && i.noD && i.noA && i.noB && i.imm == 0) = true) ∧ mapCtx.depth < 4 ∧
    1 + Config.mapInstrs (layoutRouteOf (readyWith [(0, mapCtx)]) mapCtx.route.toNat) (greg mapCtx 2).toNat
      (greg mapCtx 1).toNat ≤ mapCtx.budget ∧
    ctxVol (readyWith [(0, mapCtx)]) mapCtx = some aVol ∧ ctxGroup (readyWith [(0, mapCtx)]) mapCtx = some aGroup ∧
    greg mapCtx 2 = 0 ∧ Tab.sorted mapCtx.g = true :=
  ⟨⟨rfl, rfl, rfl, rfl, by simp [mapCtx]⟩, by decide +kernel, by decide +kernel, Nat.le_refl _, rfl, rfl, rfl, rfl⟩

/-- A program with 3 bytes of constants. -/
def aProg : Program := { consts := [1, 2, 0x80] }

/-- A byte, sign-extended, at the last offset of the context and beyond the constants; the last byte of LOCAL. -/
theorem test_meets_EngineLoadsAndStores :
    Issues anyKind (insOf 0x010 511 5 0 0) aCtx (readyWith [(0, aCtx)]) ∧ Issues notMap (insOf 0 63 0 0 4) aCtx (readyWith [(0, aCtx)]) ∧
    (∀ m ∈ ([0x010, 0x01C] : List Nat), let i := insOf (BitVec.ofNat 9 m) 511 5 0 0; (i.modIn 0x01C#9 && i.noB) = true) ∧
    progOf { readyWith [(0, aCtx)] with progs := { loaded := [(0, aProg)] } } aCtx.program = some aProg ∧
    (∀ m ∈ ([0, 0x00C] : List Nat), let i := insOf (BitVec.ofNat 9 m) 63 0 0 4; (i.modIn 0x00C#9 && i.noD) = true) ∧
    (let i := insOf 1 0 5 0 0; (i.modIn 0x001#9 && i.noA && i.s2ok) = true) ∧ ctxVol (readyWith [(0, aCtx)]) aCtx = some aVol ∧
    ctxVol (oneCtx aCtx) aCtx = none ∧
    (∀ k ∈ ([0, 14] : List Nat), let i := insOf 0 (BitVec.ofNat 32 k) 5 0 0; (i.modIn 0 && i.noA && i.noB && decide (i.imm.toNat < 15)) = true) ∧
    ctxGroupNo (readyWith [(0, aCtx)]) aCtx = some 0 ∧ ctxGroup (readyWith [(0, aCtx)]) aCtx = some aGroup := by
  unfold Issues; decide +kernel

/-- Threads of a Maintenance handler and of a fault handler. -/
def maintCtx : Ctx := { aCtx with kind := .maint, func := 0xFFFF, sqid := 0xFFFF, dl := BitVec.allOnes 64 }
def faultCtx : Ctx := { aCtx with inFault := true, fault := 0x0000000000000502 }

theorem test_meets_EngineTimeAndSystem :
    Issues notMap (insOf 0 0 5 0 0) aCtx (oneCtx aCtx) ∧ Issues maintOnly (insOf 1 9 0 0 0) maintCtx (oneCtx maintCtx) ∧
    Issues (· == .fault) (insOf 1 0 0 0 0) faultCtx (oneCtx faultCtx) ∧
    (let i := insOf 0 0 5 0 0; (i.modIn 0 && i.noA && i.noB && i.imm == 0) = true) ∧
    (let i := insOf 1 9 0 0 0; (i.modIn 0x001#9 && i.noD && i.noA && i.s2ok) = true) ∧
    (∀ n ∈ ([0, 1] : List Nat), let i := insOf 1 (BitVec.ofNat 32 n) 0 0 0; (i.modIn 0x021#9 && i.noD && !i.bit5 && i.noA && i.s2ok) = true) ∧
    (let i := insOf 0x020 0 0 1 0; (i.modIn 0x021#9 && i.noD && i.bit5 && !i.useImm && i.noB && i.imm == 0) = true) ∧
    (let i := insOf 0 0 0 0 0; (i.modIn 0 && i.noD && i.noA && i.noB && i.imm == 0) = true) ∧
    (∀ n ∈ ([2, 4, 255] : List Nat), let i := insOf 0 (BitVec.ofNat 32 n) 0 1 0; (i.modIn 0 && i.noD && i.noB && i.immIn 8) = true ∧ i.imm ≠ 3) ∧
    (∀ m ∈ ([0, 1] : List Nat), let i := insOf (BitVec.ofNat 9 m) 0 0 0 0; (i.modIn 0x001#9 && i.noD && i.noA && i.noB && i.imm == 0) = true) := by
  unfold Issues; decide +kernel

/-- A thread that has posted. -/
def postedCtx : Ctx := { aCtx with posted := some 0 }

theorem test_meets_EngineHalt :
    Issues notMap (insOf 0 0 0 0 0) postedCtx (readyWith [(0, postedCtx)]) ∧
    (let i := insOf 0 0 0 0 0; (i.modIn 0 && i.noD && i.noA && i.noB && i.imm == 0) = true) ∧
    postedCtx.kind ≠ .maint ∧ postedCtx.posted ≠ none ∧ postedCtx.work = none ∧ locksHeld (readyWith [(0, postedCtx)]) 0 = [] ∧
    recsOf (readyWith [(0, postedCtx)]) 0 = [] ∧ Tab.sorted (readyWith [(0, postedCtx)]).ctxs = true := by
  unfold Issues; decide +kernel

/-- A command whose data pointer is of kind 2, an inline buffer. -/
def inlineCtx : Ctx := { aCtx with cmd := 0x200 }

theorem test_meets_EngineDescriptorAndPost :
    Issues hostKind (insOf 0 15 5 0 0) aCtx (readyWith [(0, aCtx)]) ∧ Issues hostKind (insOf 0 15 5 0 0) inlineCtx (readyWith [(0, inlineCtx)]) ∧
    aCtx.posted = none ∧ flrNow (readyWith [(0, aCtx)]) aCtx.func.toNat = false ∧
    (let i := insOf 0 15 5 0 0; (i.modIn 0 && i.noA && i.noB && i.immIn 4) = true) ∧ eDpk aCtx.cmd = 0 ∧ eDpk inlineCtx.cmd = 2 ∧
    Tab.sorted aCtx.g = true ∧ (let i := insOf 0 0 0 1 0; (i.modIn 0 && i.noD && i.noB && i.imm == 0) = true) ∧
    aCtx.kind ≠ .maint ∧ aCtx.writeBack = true ∧ aCtx.flushWait = [] ∧
    (∃ q c, sqOf (readyWith [(0, aCtx)]) aCtx.func.toNat (aCtx.sqid.toNat % 64) = some q ∧
      cqOf (readyWith [(0, aCtx)]) aCtx.func.toNat q.cqSlot = some c) := by
  unfold Issues
  and_intros <;> first | exact ⟨_, _, rfl, rfl⟩ | decide +kernel

/-- A descriptor of 8 KiB of host memory in handle 1 and one frame in handle 0. -/
def xferCtx : Ctx := { aCtx with h := [(0, .frames [(0, 5)]), (1, .desc (.host 0x4000 8192))], g := [(1, 0)] }

/-- A part with that thread and its frame. -/
def xferState : State := { readyWith [(0, xferCtx)] with cache := { frames := [(5, { pins := 1 })] } }

theorem test_meets_EngineHostTransfers :
    Issues hostKind (insOf 0 1 5 1 0) xferCtx xferState ∧ Issues hostKind (insOf 0 1 5 1 0) postedCtx (oneCtx postedCtx) ∧
    (∀ write : Bool, let i := insOf 0 1 5 1 0; (i.modIn 0 && i.noB && i.immIn (if write then 9 else 8)) = true) ∧
    postedCtx.posted ≠ none ∧ xferCtx.posted = none ∧ flrNow xferState xferCtx.func.toNat = false ∧
    ownChan xferState 0 xferCtx.pc = none ∧ (∀ write, operandOf xferState xferCtx write 0 1 = none) ∧
    operandOf xferState xferCtx false 2 1 = some 0 ∧ operandOf xferState xferCtx true 2 1 = some 1 ∧
    freeChan xferState xferCtx.cluster (eclass xferCtx == .express) = some (0, 2) ∧
    fnOf xferState xferCtx.func.toNat = some aFunc ∧ aFunc.bme = true ∧ runningOf (moverOf xferState 0) = none := by
  unfold Issues; decide +kernel

theorem test_meets_EngineCacheInstructions :
    Issues notMap (insOf 0 0x22 5 1 0) xferCtx xferState ∧
    (let i := insOf 0 0x22 5 1 0; (i.modIn 0 && i.noB && i.immIn 6) = true ∧ i.imm.getLsbD 4 = false) ∧ xferCtx.vol = some 7 ∧
    wCount (0x003F000000000000#64) = 64 ∧
    (let i := insOf 0 2 5 1 0; (i.modIn 0 && i.noB && i.immIn 6 && decide (i.imm.toNat / 16 = 0)) = true) ∧
    256 < wPos 0xFF01000000000000#64 + wCount 0xFF01000000000000#64 ∧ wCount 0xFF00000000000000#64 = 1 ∧
    callocRoom xferState xferCtx 1 = true ∧ handleOf xferCtx 2 = .empty ∧ takeFrame xferState = some 0 ∧
    (let i := insOf 0 0x02 5 1 0; (i.modIn 0 && i.noB && i.immIn 8) = true) ∧ (handleOf xferCtx 3).frameTab = [] ∧
    (handleOf xferCtx 0).at_ (0 % 256) = some 5 ∧ xferState.cache.frames.find 5 = some { pins := 1 } ∧
    (let i := insOf 0 0xFFFF 0 0 0; (i.modIn 0 && i.noD && i.noA && i.noB && i.immIn 16) = true) ∧ Tab.sorted xferCtx.h = true := by
  unfold Issues; decide +kernel

/-- A thread that takes stripe 8, beside the holder of stripe 9. -/
def lockCtx : Ctx := { aCtx with g := [(1, 8), (2, 9)] }
def lockState : State :=
  { readyWith [(0, lockCtx)] with locks := [{ group := 0, stripe := 9, holder := some 4, due := 0 }] }
/-- The same with stripe 8 its own. -/
def heldState : State :=
  { readyWith [(0, lockCtx)] with locks := [{ group := 0, stripe := 8, holder := some 0, due := 0 }] }

theorem test_meets_EngineLocks :
    Issues notMap (insOf 0 0 0 1 0) lockCtx lockState ∧ Issues notMap (insOf 0 0 0 1 0) lockCtx heldState ∧
    lockGroup lockState lockCtx = 0 ∧ (let i := insOf 0 0 0 1 0; (i.modIn 0 && i.noD && i.noB && i.imm == 0) = true) ∧
    ((locksHeld lockState 0).length < 2 ∧ (∀ l ∈ locksHeld lockState 0, l.stripe < 8) ∧
      (locksHeld heldState 0).length < 2 ∧ (∀ l ∈ locksHeld heldState 0, l.stripe < 9)) ∧
    (lockOf lockState 0 8 = none ∧ lockRoom lockState (eclass lockCtx == .express) = true) ∧
    (∃ l, lockOf lockState 0 9 = some l) ∧ holds lockState 0 0 8 = false ∧
    (∃ l, lockOf heldState 0 8 = some l ∧ l.holder = some 0 ∧ l.waiters = []) ∧ recOf heldState 0 0 8 = none ∧
    (∀ p ∈ heldState.ctxs, ∀ a b, p.2.wait ≠ .lock a b) ∧ Issues anyKind (insOf 0 5 5 1 0) lockCtx lockState ∧
    (∀ k ∈ ([0, 4, 5] : List Nat), let i := insOf 0 (BitVec.ofNat 32 k) 5 1 0; (i.modIn 0 && i.immIn 4 && decide (i.imm.toNat < 6)) = true) ∧
    ctxGroup (oneCtx aCtx) aCtx = none ∧ ctxGroupNo lockState lockCtx = some 0 ∧ ctxGroup lockState lockCtx = some aGroup ∧
    8 < aGroup.n := by
  unfold Issues
  and_intros <;> first | decide +kernel | exact ⟨_, rfl⟩ | exact ⟨_, rfl, rfl, rfl⟩ | skip
  intro p hp a b
  have : p = (0, lockCtx) := by simpa [heldState, readyWith] using hp
  subst this; exact WaitFor.noConfusion

/-- The open record of stripe 8 with one entry, whose frame is protected or not. -/
def aRec (frs : List Nat) : JRec :=
  { group := 0, stripe := 8, generation := 5, vol := some 7, ctx := some 0, openTs := 0,
    entries := if frs.isEmpty then [] else [{ index := 2, lba := 262144, frames := frs, stage := true }] }
def recState (frs : List Nat) : State :=
  { heldState with
    ctxs := [(0, { lockCtx with g := [(1, 8), (3, 1), (4, 262144)], h := [(0, .frames [(0, 5)])] })]
    journal := { recs := [(3, aRec frs)], nextGen := 6 }
    cache := { frames := [(5, { pins := 1, prot := true }), (6, { pins := 1 })] } }
def recCtx : Ctx := { lockCtx with g := [(1, 8), (3, 1), (4, 262144)], h := [(0, .frames [(0, 5)])] }

theorem test_meets_EngineJournal :
    Issues notMap (insOf 0 0 5 1 0) recCtx (recState []) ∧ Issues notMap (insOf 0 0 5 1 0) lockCtx lockState ∧
    Issues notMap (insOf 0 0 5 1 0) lockCtx heldState ∧ lockGroup (recState []) recCtx = 0 ∧
    (let i := insOf 0 0 5 1 0; (i.modIn 0 && i.noB && i.imm == 0) = true) ∧ holds lockState 0 0 8 = false ∧
    (holds (recState []) 0 0 8 = true ∧ recOf (recState []) 0 0 8 ≠ none) ∧
    (holds heldState 0 0 8 = true ∧ recOf heldState 0 0 8 = none ∧ (recsOf heldState 0).length < 2 ∧
      recsUsed heldState < Config.journalRecords) ∧
    (recOf (recState [6]) 0 0 8 = some (3, aRec [6]) ∧ (aRec [6]).sealed = false ∧ (aRec [6]).entries ≠ [] ∧
      ((aRec [6]).entries.any fun e => e.frames.any fun fr => !(frameOf (recState [6]) fr).prot) = true) ∧
    (recOf (recState [5]) 0 0 8 = some (3, aRec [5]) ∧ (recState [5]).journal.recs.find 3 = some (aRec [5]) ∧
      (aRec [5]).sealed = false ∧ (aRec [5]).entries ≠ [] ∧
      ((aRec [5]).entries.all fun e => e.frames.all fun fr => (frameOf (recState [5]) fr).prot) = true) ∧
    (let i := insOf 0x004 0x10 3 1 4; (i.modIn 0x01C#9 && i.immIn 5 && i.flagOk) = true ∧
      jaddFrames heldState i lockCtx 0 = none ∧ jaddFrames (recState [5]) i recCtx 0 = some (3, aRec [5], [5]) ∧
      jaddFrames (recState []) i recCtx 0 = some (3, aRec [], [5])) ∧
    (aRec [5]).entries.length < 6 ∧ ((aRec [5]).entries.length % 6 ≠ 0 ∧ (aRec []).entries = []) ∧
    recOf (recState []) 0 0 8 = some (3, aRec []) ∧ (recState []).journal.recs.find 3 = some (aRec []) ∧ (aRec []).sealed = false ∧
    Tab.sorted (recState []).journal.recs = true ∧ (∀ p ∈ (recState []).ctxs, p.2.wait ≠ .record) := by
  unfold Issues
  and_intros <;> decide +kernel

/-- A read of 1 block and a write of record entry 2, with tickets 0 to 2 free, ended and running. -/
def memCtx : Ctx :=
  { aCtx with g := [(1, 8), (3, 2), (4, 262144), (6, 2), (7, 0x102), (8, 0x202)], h := [(0, .frames [(0, 6)])],
              tickets := [(1, .reported 3), (2, .outstanding)] }
def memState (m : MPort) : State :=
  { heldState with ctxs := [(0, memCtx)], mports := [(12, m)], cache := { frames := [(5, { pins := 1, prot := true }), (6, { pins := 1 })] }
                   journal := { recs := [(3, { aRec [5] with sealed := true })], nextGen := 6 } }

theorem test_meets_EngineMemberInstructions :
    let ok := memState (aMember 2)
    let bad := memState { aMember 2 with state := 4 }
    let small := memState { aMember 2 with blocks := 262144 }
    Issues notMap (insOf 0 0 5 6 4) memCtx ok ∧ Issues notMap (insOf 0 0 5 6 4) memCtx bad ∧
    Issues notMap (insOf 0 0 5 6 4) memCtx small ∧
    (ctxGroupNo ok memCtx = some 0 ∧ ctxGroup ok memCtx = some aGroup ∧ portOfMember aGroup (rwIndex 2) = some 12 ∧
      memberPort ok aGroup (rwIndex 2) = some (aMember 2) ∧ ok.mports.find 12 = some (aMember 2)) ∧
    (let i := insOf 0 0 5 6 4; (i.modIn 0 && i.immIn 5) = true ∧ (i.ga memCtx) = 2 ∧ (i.gb memCtx) = 262144) ∧
    readFailed aGroup { aMember 2 with state := 4 } 262144 = true ∧ readFailed aGroup (aMember 2) 262144 = false ∧
    (rwTicket 0x202 = 2 ∧ ticketBusy memCtx 2 = true) ∧
    (ticketBusy memCtx 0 = false ∧ { aMember 2 with blocks := 262144 }.blocks < wLba 262144 + wCount 262144) ∧
    (wLba 262144 + wCount 262144 ≤ (aMember 2).blocks ∧ framesAt (handleOf memCtx 0) (wPos 262144) (wCount 262144) = some [6] ∧
      (∀ fr ∈ [6], (frameOf ok fr).rdonly = false) ∧ queueRoom ok 12 (aMember 2) (eclass memCtx) memCtx.cluster = true) ∧
    (let i := insOf 0 0 1 6 4; (i.modIn 0 && i.imm == 0) = true ∧ (i.gd memCtx).toNat = 8) ∧ (aMember 2).group = some 0 ∧
    judged (aMember 2).state = true ∧ (interlock ok 0 memCtx (aMember 2) 0 8 (rwIndex 2) (wLba 262144) (wCount 262144)
      (wPos 262144)).toOption = some ([5], some 3) ∧ ticketRuns memCtx 0 = false ∧
    (let i := insOf 0x040 0 5 3 0; (i.modIn 0x1E0#9 && i.noB && i.imm == 0) = true ∧ i.cond = 2) ∧
    memCtx.tickets.find (1 % 32) = some (.reported 3) ∧ ticketBusy memCtx (2 % 32) = true ∧
    (let i := insOf 0 0 5 3 0; i.cond < 2 ∧ i.cond = 0) ∧ (∀ k < 32, (2#64).getLsbD k = true → ticketBusy memCtx k = false) ∧
    (∃ k < 32, (4#64).getLsbD k = true ∧ ticketRuns memCtx k = true) := by
  unfold Issues; decide +kernel

/-- A read that gives way to a possession. -/
theorem test_meets_EngineMemberInstructions_away :
    let away := { aMember 2 with inPoss := true }
    Issues notMap (insOf 0 16 5 6 4) memCtx (memState away) ∧ memberPort (memState away) aGroup (rwIndex 2) = some away ∧
    (insOf 0 16 5 6 4).modIn 0 = true ∧ (insOf 0 31 5 6 4).immIn 5 = true ∧ (insOf 0 16 5 6 4).imm.getLsbD 4 = true ∧
    readFailed aGroup away 262144 = false ∧ away.inPoss = true := by
  unfold Issues; decide +kernel

/-- What VecFits asks, as a test that runs. -/
def fitsB (s : State) (v : Vec) (src dst : Handle) (srcs dsts : List Nat) : Bool :=
  decide (v.len = 1) && decide (v.o + 1 ≤ v.stride) && decide (srcs.length ≤ 32) &&
    ((srcs ++ dsts).all fun j => decide ((j + 1) * v.stride ≤ 256)) &&
    (srcs.all fun j => (src.at_ (v.pos j 0)).all fun fr => decide ((frameOf s fr).badLines = [])) &&
    (dsts.all fun j => (dst.at_ (v.pos j 0)).any fun fr => (s.cache.frames.find fr).any fun f =>
      decide (f.rdonly = false) && srcs.all fun k => decide (src.at_ (v.pos k 0) ≠ some fr)) &&
    (dsts.all fun j => dsts.all fun k => decide (j ≠ k → dst.at_ (v.pos j 0) ≠ dst.at_ (v.pos k 0)))

theorem fits_of {s : State} {v : Vec} {src dst : Handle} {srcs dsts : List Nat} (h : fitsB s v src dst srcs dsts = true) :
    VecFits s v src dst srcs dsts := by
  simp only [fitsB, Bool.and_eq_true, decide_eq_true_eq, List.all_eq_true, Option.any_eq_true, Option.all_eq_true] at h
  obtain ⟨⟨⟨⟨⟨⟨h1, h2⟩, h3⟩, h4⟩, h5⟩, h6⟩, h7⟩ := h
  refine ⟨h1, h2, h3, h4, fun j hj fr e => h5 j hj fr e, fun j hj => ?_, h7⟩
  obtain ⟨fr, e1, f, e2, e3, e4⟩ := h6 j hj
  exact ⟨fr, f, e1, e2, e3, e4⟩

/-- Five source frames in handle 1 and five destination frames in handle 0, in one column. -/
def vecCtx (b : Word) : Ctx :=
  { aCtx with g := [(1, 0x20000), (2, b), (3, 0x100)],
              h := [(0, .frames ((List.range 5).map fun j => (j, 20 + j))), (1, .frames ((List.range 5).map fun j => (j, 10 + j)))] }
def vecState (b : Word) : State :=
  { readyWith [(0, vecCtx b)] with
    cache := { frames := (List.range 5).map (fun j => (10 + j, { pins := 1, prot := true })) ++
                         (List.range 5).map (fun j => (20 + j, { pins := 1 })) } }

theorem test_meets_EngineVectors :
    Issues notMap (insOf 0x004 0x10 0 1 2) (vecCtx 7) (vecState 7) ∧ Issues notMap (insOf 0x004 0x10 0 3 2) (vecCtx 7) (vecState 7) ∧
    Issues notMap (insOf 0x004 0x10 5 1 2) (vecCtx 0x201) (vecState 0x201) ∧
    vecForm (insOf 0x004 0x10 0 1 2) = true ∧ (vecOf 0x100).stride < (vecOf 0x100).o + (vecOf 0x100).len ∧
    (let src := handleOf (vecCtx 7) 1; let dst := handleOf (vecCtx 7) 0; let v := vecOf 0x20000; let s := vecState 7
     let lanes := (List.range 32).filter fun j => (7#64).getLsbD j
     VecFits s v src dst lanes [v.dst] ∧ VecFits s v src dst [0x200 / 256 % 32] [v.dst] ∧
     VecFits s v src dst lanes [v.dst, v.dst + 1] ∧ VecFits s v src dst [0, 1, 2, 3] [v.dst, v.dst + 1] ∧
     VecFits s v src dst (((List.range 3).filter (· != 2)) ++ [3 + 1]) [2] ∧
     VecFits s v src dst (((List.range 3).filter fun j => j != 1 && j != 2) ++ [3, 3 + 1]) [1, 2] ∧
     VecFits s v src .empty [1, 2] []) ∧
    ctxW (vecState 7) (vecCtx 7) = 3 ∧ 2 < 3 ∧ 1 < 2 ∧ 0x201 % 32 = 1 ∧ 0x201 / 256 % 32 = 2 ∧
    (let i := insOf 0x004 0x10 5 1 2; (i.modIn 0x01C#9 && i.immIn 8 && decide (i.imm.toNat % 16 = 0) && i.flagOk) = true) := by
  unfold Issues
  repeat' first | exact fits_of (by decide +kernel) | decide +kernel | constructor

theorem test_meets_LostStripsRecovered :
    (254 < (List.replicate 255 (7 : Byte)).length ∧ (List.replicate 255 (7 : Byte)).length ≤ 255) ∧
    (253 < 254 ∧ 254 < (List.replicate 255 (7 : Byte)).length) := by decide +kernel

/-- A channel that moves data of a frame to the host. -/
def aChan : Channel := { state := .queued, cls := .standard, src := { kind := 0 }, dst := { kind := 1 }, count := 4096, ctx := some 0 }
/-- A part in Ready with mover 0 holding one channel. -/
def chanState (c : Nat) (k : Channel) : State :=
  { readyWith [(0, aCtx)] with movers := [(0, { chans := [(c, k)] })] }
/-- An admin command whose data is 4,096 bytes in the host. -/
def aAdmin : AdminCmd :=
  { port := 0, entry := BitVec.ofNat 512 (0x48 + 4096 * 2 ^ 256), vis := 0, data := List.replicate 16 5, poisoned := false }
def sboxChan (count : Nat) : Channel :=
  { src := { kind := 1 }, dst := { kind := 4 }, dstOff := 64, count := count }
def sboxState (k : Channel) : State := { chanState 15 k with mbx := { adminQ := [aAdmin] } }

theorem test_meets_Movers :
    (chanWaiters (chanState 2 aChan) (0 / 2) = [] ∧ (moverOf (chanState 2 aChan) 0).chans = [(2, aChan)] ∧ aChan.state = .queued ∧
      aChan.src.kind = 0) ∧
    (let k := { aChan with state := .paused, causes := 1 }
     (moverOf (chanState 2 k) 0).chans = [(2, k)] ∧ k.state = .paused ∧ k.causes = 1 ∧ k.cls ≠ .express ∧ k.src.kind = 0 ∧
      k.ctx ≠ none) ∧
    (let k := { aChan with state := .readback, dstReg := 5 }
     (moverOf (chanState 2 k) 0).chans.find 2 = some k ∧ k.state = .readback ∧ k.readbacks = 0 ∧ k.ctx = some 0 ∧
      (chanState 2 k).ctxs.find 0 = some aCtx ∧ Tab.sorted (moverOf (chanState 2 k) 0).chans = true ∧ Tab.sorted aCtx.g = true ∧
      k.dstReg ≠ 0) ∧
    (∀ k, ∀ p ∈ (chanState 2 k).ctxs, ∀ a b d e, p.2.wait ≠ .channel a b d e) ∧
    ((chanOf (sboxState (sboxChan 0)) 0 15).state = .idle ∧ (chanOf (sboxState { sboxChan 0 with state := .done }) 0 15).state = .done ∧
      goCheck (sboxState (sboxChan 0)) (chanOf (sboxState (sboxChan 0)) 0 15) = some 0 ∧
      goCheck (sboxState (sboxChan 4097)) (chanOf (sboxState (sboxChan 4097)) 0 15) = some 0 ∧
      goCheck (sboxState (sboxChan 4096)) (chanOf (sboxState (sboxChan 4096)) 0 15) = none ∧
      (chanOf (sboxState (sboxChan 4096)) 0 15).hold = false) ∧
    (let k := { sboxChan 4096 with state := .queued }
     (chanOf (sboxState k) 0 15).state = .queued ∧ (chanOf (sboxState k) 0 15).inFlight = 0) ∧
    (let k := { sboxChan 4096 with state := .running }
     (sboxState k).mbx.adminQ.head? = some aAdmin ∧ (moverOf (sboxState k) 0).chans.find 15 = some k ∧ k.state = .running ∧
      k.src.kind = 1 ∧ k.spat = 0 ∧ k.dpat = 0 ∧ k.ilv = 0 ∧ (sboxState k).mbx.sram.wf = true) := by
  and_intros <;> try decide +kernel
  intro k p hp a b d e
  have : p = (0, aCtx) := by simpa [chanState, readyWith] using hp
  subst this; exact WaitFor.noConfusion

/-- A page request group of context 0, which it waits for, and an ATS read of page 5. -/
def atsState : State :=
  { readyWith [(0, { aCtx with state := .translating })] with
    reads := [(9, { func := 0, purpose := .ats 3 [4, 5], issued := 0, due := 0x10000, express := false })]
    xlate := { prgs := [{ func := 0, pasid := 3, index := 1, ctx := 0, pages := [5], sent := true }]
               invals := [(0, 31, [9, 8])] } }

def lateRead : HostRead :=
  { func := 0, purpose := .data 0 2 0 512, issued := 0, due := 0x10000, express := false, quarantined := true }

theorem test_meets_AddressTranslation :
    (∃ k < 1, atsPending atsState 0 3 (5 + k) = true) ∧
    (∀ p ∈ atsState.movers, ∀ q ∈ p.2.chans, q.2.causes.getLsbD 1 = false) ∧
    ((atsState.xlate.invals.filter fun v => v.1 == 0).length < 32) ∧
    (let s := { atsState with reads := [(9, lateRead)] }
     firstInval s 0 = some (0, 31, [9, 8]) ∧ ∀ g ∈ [9, 8], ∀ x, s.reads.find g = some x → x.quarantined = true) ∧
    (∀ g ∈ atsState.xlate.prgs, ¬(g.func = 0 ∧ g.pasid = 3 ∧ g.index = 2 ∧ g.sent = true)) ∧
    (∃ g x, (atsState.xlate.prgs.find? fun g => g.func == 0 && g.pasid == 3 && g.index == 1 && g.sent) = some g ∧
      atsState.xlate.prgs.filter (fun g => g.func == 0 && !g.sent) = [] ∧ atsState.ctxs.find g.ctx = some x ∧
      x.state = .translating) := by
  and_intros <;> first | decide +kernel | exact ⟨_, _, rfl, by decide +kernel, rfl, rfl⟩ | skip

/-- A PF with the given queue in slot 1. -/
def fnWith (q : Sq) : Func := { aFunc with sqs := [(1, q)] }
def sqState (q : Sq) : State := { readyWith [] with funcs := [(0, fnWith q)] }
/-- A ring of 16 entries, and a push queue. -/
def aRing : Sq := { push := false, cls := .standard, cqSlot := 2, log2 := 4, base := 0x10000, pollInt := 0, pasid := none, quota := 16,
                    pi := 12, ci := 28 }
def aPush : Sq := { aRing with push := true, log2 := 6, pi := 5, ci := 127 }

theorem test_meets_QueueDoorbells :
    takesWrites (sqState aRing) 0 = some (fnWith aRing) ∧ takesWrites (sqState aPush) 0 = some (fnWith aPush) ∧
    (fnWith aRing).sqs.find 2 = none ∧ (fnWith aRing).sqs.find 1 = some aRing ∧ (aRing.push = false ∧ aRing.pollInt = 0) ∧
    (fnWith aPush).sqs.find 1 = some aPush ∧ aPush.push = true ∧
    (takesWrites (sqState { aRing with pollInt := 1 }) 0 = some (fnWith { aRing with pollInt := 1 }) ∧
      { aRing with pollInt := 1 }.pollInt ≠ 0) := by decide +kernel

theorem test_meets_ConsumerIndex :
    takesWrites (sqState aRing) 0 = some (fnWith aRing) ∧
    (fnWith aRing).cqs.find 2 = some { log2 := 4, base := 0x20000, ien := true, vec := 3, ivCount := 0, ivDelay := 0 } := by
  decide +kernel

theorem test_meets_RingOccupancy :
    (31 < 2 * 2 ^ 4 ∧ 15 < 2 * 2 ^ 4 ∧ idxDist (2 ^ 4) 15 31 = 2 ^ 4 ∧ idxDist (2 ^ 4) 15 31 ≤ 2 ^ 4) ∧
    (3 < 2 * 2 ^ 4 ∧ idxDist (2 ^ 4) 3 3 = 0) := by decide +kernel

/-- A polled ring that fetches one entry, and the reads of its poll and its entry. -/
def pollRing : Sq := { aRing with pollInt := 100, announced := [{ vis := 0 }, { vis := 1 }], fetching := 1 }
def aRead (p : ReadPurpose) (quar : Bool) : HostRead :=
  { func := 0, purpose := p, issued := 0, due := 0, express := false, quarantined := quar }
def pollState (q : Sq) (rs : Tab HostRead) : State :=
  { sqState q with funcs := [(0, { fnWith q with shadow := some 0x8000 })], reads := rs }

theorem test_meets_FetchesAndPolls :
    let fn : Func := { fnWith pollRing with shadow := some 0x8000 }
    sqOf (pollState pollRing []) 0 1 = some pollRing ∧
    (readFor (pollState pollRing [(6, aRead (.entry 1) false)]) 0 (.entry 1) = some 6 ∧ [(0 : BitVec 512)].length = pollRing.fetching) ∧
    (fnOf (pollState pollRing []) 0 = some fn ∧ fn.shadow = some 0x8000 ∧ pollRing.push = false ∧ pollRing.pollInt ≠ 0 ∧
      pollRing.pollOut = false ∧ due (pollState pollRing []) pollRing.pollDue = true ∧
      fetcherRuns (pollState pollRing []) 0 1 = true ∧ readOk (pollState pollRing []) 0 (pollRing.cls == .express) = true) ∧
    readFor (pollState pollRing [(6, aRead (.poll 1) false)]) 0 (.poll 1) = some 6 ∧
    (∀ p ∈ [ReadPurpose.poll 1, .entry 1], ∀ quar, (pollState pollRing [(6, aRead p quar)]).reads.find 6 = some (aRead p quar) ∧
      (aRead p quar).func = 0 ∧ (aRead p quar).purpose = p ∧ (aRead p quar).quarantined = quar ∧
      Tab.sorted (pollState pollRing [(6, aRead p quar)]).reads = true ∧
      due (pollState pollRing [(6, aRead p quar)]) (aRead p quar).due = true) ∧
    ∀ rs, Unblocked (pollState pollRing rs) := by
  and_intros <;> try decide +kernel
  refine fun rs => ⟨?_, ?_, ?_, ?_⟩
  · intro p hp; cases hp
  · intro p hp; cases hp
  · intro p hp; cases hp
  · exact (by decide +kernel : ∀ p ∈ (pollState pollRing []).funcs, ∀ q ∈ p.2.sqs, q.2.push = true ∨ q.2.fetchStop = true ∨
      q.2.fetching ≠ 0 ∨ q.2.announced = [])

/-- A fetch in the issue step, and the answers that a poll takes in its last slot and after it. -/
theorem test_meets_FetchesAndPolls_issue :
    let q : Sq := { aRing with announced := [{ vis := 0 }, { vis := 1 }] }
    let s : State := { pollState q [] with fetchDue := [(0, 1)] }
    let p : BitVec 44 → State := fun c => { pollState pollRing [(6, aRead (.poll 1) false)] with tt := { cycle := c } }
    (sqOf s 0 1 = some q ∧ fnOf s 0 = some { fnWith q with shadow := some 0x8000 } ∧ s.fetchDue = [(0, 1)] ∧ q.push = false ∧
      q.fetchStop = false ∧ q.fetching = 0 ∧ fetcherRuns s 0 1 = true ∧ readOk s 0 (q.cls == .express) = true ∧
      min (min q.announced.length ((if q.cls = .express then 64 else 16) - q.fetched.length))
        (min (2 ^ q.log2 - q.ci % 2 ^ q.log2) (min (fnWith q).mrrs 4096 / 64)) = 2) ∧
    (past (p 0) (aRead (.poll 1) false).due = false ∧ past (p 1) (aRead (.poll 1) false).due = true ∧
      piAccepted 16 12 28 (leNat (([12, 0, 0, 0] : List Byte).take 4)) = true ∧
      piAccepted 16 12 28 (leNat (([13, 0, 0, 0] : List Byte).take 4)) = false) := by decide +kernel

/-- A peer window of two pages, the second busy, and a push queue with entries 0 to 4 announced. -/
def winFunc (x : Window) : Func := { fnWith { aPush with ci := 0, inlineBusy := [15] } with windows := [(15, x)] }
def aWin : Window := { en := true, ridChk := true, size := 8192, rid := 0x100, pages := [(0, 5), (1, 6)], busy := [1] }
def winState (x : Window) : State :=
  { readyWith [] with funcs := [(0, winFunc x)], cache := { frames := [(5, { pins := 1 }), (6, { pins := 1 })] } }

theorem test_meets_PushAndWindowWrites :
    let q : Sq := { aPush with ci := 0, inlineBusy := [15] }
    let cause : Window → Nat → Nat → BitVec 16 → Nat := fun x off n rid =>
      if x.en = false then 1 else if x.size < off + n then 2 else if x.ridChk = true ∧ rid ≠ x.rid then 3
      else if ∃ p ∈ x.busy, off / 4096 ≤ p ∧ p ≤ (off + n - 1) / 4096 then 4 else 0
    let touched : Nat → Nat → Prop := fun off n => ∃ j, j < (((q.pi : Int) - q.ci) % 128).toNat ∧
      64 * ((q.ci + j) % 64) < off + n ∧ off < 64 * ((q.ci + j) % 64) + 64
    (takesWrites (winState aWin) 0 = some (winFunc aWin) ∧ [(7 : Byte)] ≠ []) ∧ (winFunc aWin).sqs.find 1 = some q ∧ q.push = true ∧
    (4095 + 1 ≤ 4096 ∧ q.entries.wf = true ∧ ¬touched 4095 1 ∧ ¬touched 320 1) ∧ touched 319 1 ∧
    (0 < 16 ∧ 4095 % 4096 + 1 ≤ 4096 ∧ 0 ∉ q.inlineBusy ∧ (q.inline_.getD 0 {}).wf = true ∧ 15 < 16 ∧ 15 ∈ q.inlineBusy) ∧
    (15 < 16 ∧ winOf (winFunc aWin) 15 = aWin ∧ cause aWin 4095 1 0x100 = 0 ∧ aWin.pages.find (4095 / 4096) = some 5 ∧
      (winState aWin).cache.frames.find 5 = some { pins := 1 } ∧ ({ pins := 1 } : Frame).data.wf = true) ∧
    (cause { aWin with en := false } 0 1 0x100 = 1 ∧ cause aWin 8192 1 0x100 = 2 ∧ cause aWin 8191 1 0x101 = 3 ∧
      cause aWin 8191 1 0x100 = 4 ∧ cause aWin 4095 2 0x100 = 4) := by
  and_intros <;> first | decide +kernel | exact ⟨4, by decide +kernel⟩ | skip
  all_goals
    rintro ⟨j, h1, h2, h3⟩
    have h1' : j < 5 := h1
    have h3' : _ < 64 * ((0 + j) % 64) + 64 := h3
    omega

/-- Writes to no push queue, past the areas, with a copy on the way, and over both pages of a window. -/
theorem test_meets_PushAndWindowWrites_more :
    let x : Window := { aWin with busy := [] }
    (winFunc aWin).sqs.find 2 = none ∧ (fnWith aRing).sqs.find 1 = some aRing ∧ aRing.push = false ∧ 4096 < 4095 + [(7 : Byte), 8].length ∧
    65536 < 65535 + [(7 : Byte), 8].length ∧ (∃ k ∈ ([15] : List Nat), 4096 * k ≤ 15 * 4096 + 1 - 1 ∧ 15 * 4096 < 4096 * (k + 1)) ∧
    (∀ m ∈ some (Memory.ofBytes [4]), m.wf = true) ∧ 16 ≤ 16 ∧
    (x.pages.find 0 = some 5 ∧ x.pages.find 1 = some 6 ∧ ∀ fr ∈ [5, 6], (winState x).cache.frames.find fr = some { pins := 1 }) := by
  decide +kernel

/-- A READ of one resident block, a program that serves it, and its head entry. -/
def readHead : Head := { entry := BitVec.ofNat 512 (1 + 0x1234 * 2 ^ 16 + 7 * 2 ^ 32 + 4096 * 2 ^ 256), vis := 0, held := {},
                         poisoned := false, clash := false }
def opProg : Program :=
  { handlers := [{ entry := 9, budget := 500, kind := .opcode }]
    routes := [{ id := 16, layout := false, groupMaint := false, map := 1, fault := none, ops := [some 0], destage := none,
                 rebuild := none, scrub := none, zero := none, label := none, build := none }] }
def headRing (cl : Cls) (h : Head) : Sq :=
  { aRing with cls := cl, fetched := [{ entry := h.entry, vis := h.vis, poisoned := h.poisoned }] }
def dispatchState (cl : Cls) (slot : Nat) (h : Head) : State :=
  { readyWith [] with
    funcs := [(0, { aFunc with sqs := [(slot, headRing cl h)] })]
    progs := { loaded := [(5, opProg)] } }

/-- A queue that is first of its class, while no higher class has one to serve, is served next. -/
theorem served_of {s : State} {cl : Cls} {f slot : Nat} {rest : List (Nat × Nat)} (h : cl ≠ .maintenance)
    (low : ([Cls.express, .standard, .bulk, .maintenance].all fun k => decide (cl.code ≤ k.code) || (serviceOrder s k).isEmpty) = true)
    (first : serviceOrder s cl = (f, slot) :: rest) : ServedNext s cl f slot := by
  refine ⟨h, fun k hk x hx => absurd hx ?_, [], rest, first, fun x hx => absurd hx (by simp)⟩
  have hm : k ∈ [Cls.express, .standard, .bulk, .maintenance] := by cases k <;> simp
  have := List.all_eq_true.1 low k hm
  simp only [Bool.or_eq_true, decide_eq_true_eq, List.isEmpty_iff] at this
  rw [this.resolve_left (Nat.not_le.2 hk)]
  simp

/-- Every class has its first queue served, and idle queues leave a lane nothing to take. -/
theorem test_meets_Dispatching_served :
    ServedNext (dispatchState .express 1 readHead) .express 0 1 ∧ ServedNext (dispatchState .standard 1 readHead) .standard 0 1 ∧
    ServedNext (dispatchState .bulk 1 readHead) .bulk 0 1 ∧ ∀ k : Cls, ∀ x ∈ serviceOrder (readyWith []) k, LeftInPlace (readyWith []) x := by
  refine ⟨?_, ?_, ?_, fun k x hx => by cases k <;> cases hx⟩ <;> exact served_of (by decide) (by decide +kernel) rfl

theorem test_meets_Dispatching :
    let q : Cls → Head → Sq := headRing
    let fn : Cls → Nat → Head → Func := fun cl slot h => { aFunc with sqs := [(slot, headRing cl h)] }
    (∀ cl ∈ [Cls.express, .standard, .bulk], 3 < 4 ∧ fnOf (dispatchState cl 1 readHead) 0 = some (fn cl 1 readHead) ∧
      (fn cl 1 readHead).sqs.find 1 = some (q cl readHead) ∧ headOf (q cl readHead) = some readHead) ∧
    (judgeHead (dispatchState .standard 1 readHead) 0 1 (fn .standard 1 readHead) (q .standard readHead) { readHead with poisoned := true } =
        .refusal .dataPoisoned 0 true ∧ (cqOf (dispatchState .standard 1 readHead) 0 (q .standard readHead).cqSlot).isSome = true) ∧
    judgeHead (dispatchState .standard 0 readHead) 0 0 (fn .standard 0 readHead) (q .standard readHead)
      { readHead with entry := 0x48 } = .admin ∧
    (judgeHead (dispatchState .standard 1 readHead) 0 1 (fn .standard 1 readHead) (q .standard readHead) readHead =
        .admitted 3 1 (some 65536) [] false ∧ (dispatchState .standard 1 readHead).vols.find (eVol readHead.entry) = some aVol ∧
      (opHandler (dispatchState .standard 1 readHead) aVol (eOpc readHead.entry)).isSome = true ∧
      freeSiding (dispatchState .standard 1 readHead) = some 0) := by decide +kernel

/-- One completion ready on a ring with one free entry; its context has ended. -/
def aReady : Ready :=
  { cid := 0x1234, status := 0, sqSlot := 1, vis := 0, dl := 0x20000, held := {}, readyTs := 0, lateCause := 0, refusalCause := 0,
    poison := false, vol := some 7, ctx := some 0, inlineBuf := none, windowPages := none, cls := .standard, blocksRead := 1,
    blocksWritten := 0 }
def aCq : Cq := { log2 := 4, base := 0x20000, ien := true, vec := 3, ivCount := 2, ivDelay := 9, pi := 31, ci := 16, ready := [aReady] }
def cqFunc (c : Cq) : Func := { aFunc with cqs := [(2, c)] }
def cqState (c : Cq) : State :=
  { readyWith [(0, { aCtx with state := .doneUnposted })] with funcs := [(0, cqFunc c)], tt := { running := true, slot := 9 } }

theorem test_meets_CompletionsIssued :
    let one : Cq := { aCq with ready := [], unsignalled := 2, ivDue := 5, evDue := true }
    let late : Cq := { aCq with ready := [{ aReady with cls := .bulk, ctx := none }], ci := 15 }
    let both : State := { cqState aCq with funcs := [(0, { cqFunc aCq with cqs := [(1, { aCq with ready := [{ aReady with cls := .express }] }), (2, aCq)] })] }
    (fnOf (cqState aCq) 0 = some (cqFunc aCq) ∧ (cqFunc aCq).cqs.find 2 = some aCq ∧ (cqFunc aCq).resume = false) ∧
    (upstreamOk (cqState aCq) { cqFunc aCq with bme := false } = false ∧ onW0 { cqState aCq with pwr := { devState := .ready, rung := 2 } } = false ∧
      outranked both 0 2 = true) ∧
    (upstreamOk (cqState late) (cqFunc late) = true ∧ onW0 (cqState late) = true ∧ late.hasRoom = false ∧
      late.ready = [{ aReady with cls := .bulk, ctx := none }] ∧ past (cqState late) aReady.readyTs = true ∧ aReady.parked = false ∧
      sqOf (cqState late) 0 1 = some { aRing with pi := 0, ci := 0 }) ∧
    (upstreamOk (cqState aCq) (cqFunc aCq) = true ∧ onW0 (cqState aCq) = true ∧ outranked (cqState aCq) 0 2 = false ∧ aCq.hasRoom = true ∧
      aCq.ready = aReady :: [] ∧ past (cqState aCq) aReady.readyTs = true ∧ aReady.vol = some 7 ∧ (cqState aCq).vols.find 7 = some aVol ∧
      aVol.detachWait = [] ∧ aVol.deleting = false ∧ (sqOf (cqState aCq) 0 1).map Sq.ci = some 0 ∧ 1 < 64 ∧ 0 < 512 ∧
      Tab.sorted (cqState aCq).ctxs = true ∧ aReady.ctx = some 0 ∧ (cqState aCq).ctxs.find 0 = some { aCtx with state := .doneUnposted }) ∧
    (ringDue (cqState one) one = true ∧ ringDue (cqState one) { one with unsignalled := 1, ivDue := 10 } = false ∧
      ringDue (cqState one) { one with unsignalled := 1, ivDue := 9 } = true ∧ aCq.evDue = false ∧ one.evDue = true) ∧
    (one.ien = true ∧ (cqFunc one).msixEn = true ∧ (cqFunc one).flrBusy = false ∧ maskedVec (cqFunc one) one.vec = false ∧
      maskedVec (cqFunc one) 2047 = true ∧ upstreamOk (cqState one) (cqFunc one) = true ∧
      upstreamOk (cqState one) { cqFunc one with bme := false } = false) ∧
    (usesIntx 0 { cqFunc one with msixEn := false } = true ∧ 63 < 64 ∧ Tab.sorted (cqFunc one).cqs = true ∧ upPort.intx = false) ∧
    (∀ x ∈ (cqFunc { one with ien := false }).cqs, x.2.evDue = true → x.2.ien = false) := by
  decide +kernel

/-- Contexts 0 and 1 of one cluster, and threads in every slot of its engines. -/
def readyCtx (cl : Cls) : Ctx := { aCtx with cls := cl, state := .ready, place := none }
def fullCluster : Tab Ctx :=
  (0, readyCtx .express) :: ((enginesOf 0).map fun e => (List.range 8).map fun n => (1 + 8 * e + n, { aCtx with place := some (e, n) })).flatten

theorem test_meets_ThreadEvents :
    let ts : State := readyWith [(0, readyCtx .express)]
    let full : State := readyWith fullCluster
    let some_ : State := readyWith ((0, readyCtx .express) :: (List.range 16).map fun e => (e + 1, { aCtx with place := some (e, 0) }))
    let waits : WaitFor → Ctx := fun w => { aCtx with state := .waiting, wait := w, place := none, tickets := [(1, .ended 0)] }
    (ts.ctxs.find 0 = some (readyCtx .express) ∧ nextReady ts 0 (fun c => c.cls == .express) = some (0, readyCtx .express) ∧
      (freeSlot0 ts 0).isSome = true) ∧
    (nextReady some_ 0 (fun c => c.cls == .express) = some (0, readyCtx .express) ∧ freeSlot0 some_ 0 = none ∧
      (freeOther some_ 0 .express).isSome = true) ∧
    (nextReady full 0 (fun c => c.cls == .express) = some (0, readyCtx .express) ∧ freeSlot0 full 0 = none ∧
      freeOther full 0 .express = none ∧ victimOf full 0 = some (2, { aCtx with place := some (0, 1) }) ∧
      full.ctxs.find 2 = some { aCtx with place := some (0, 1) } ∧ 1 ≠ 0 ∧ 2 ≠ 0) ∧
    (nextReady (readyWith [(0, readyCtx .bulk)]) 0 (fun c => c.cls == .express) = none ∧
      nextReady (readyWith [(0, readyCtx .bulk)]) 0 (fun c => c.cls != .express) = some (0, readyCtx .bulk) ∧
      (freeOther (readyWith [(0, readyCtx .bulk)]) 0 Cls.bulk).isSome = true) ∧
    ((waits .frames).state = .waiting ∧ callocRoom (readyWith [(0, waits .frames)]) (waits .frames) 1 = true) ∧
    recsUsed (readyWith [(0, waits .record)]) < Config.journalRecords ∧
    (waitResult (waits (.tickets 2 false 5)) 2 false = some [1] ∧ Tab.sorted (waits .frames).g = true ∧ 5 ≠ 0) ∧
    (due (readyWith []) 0 = true ∧ due (readyWith []) 1 = false) ∧
    (let l : LockEnt := { group := 0, stripe := 8, holder := some 0, due := 0, waiters := [1, 2] }
     let s : State := { readyWith [(0, aCtx)] with locks := [l] }
     lockOf s 0 8 = some l ∧ l.holder = some 0 ∧ due s l.due = true ∧ recOf s 0 0 8 = none ∧ l.waiters = 1 :: [2] ∧ 1 ≠ 0 ∧ 0 ∉ [2]) ∧
    ({ group := 0, stripe := 8, holder := some 0, due := 0 : LockEnt }.waiters = []) := by decide +kernel

/-- A cluster whose slots all hold Express threads; a full member queue that has room again; a lock whose holder waits, one not
yet due, and one marked the slot before. -/
theorem test_meets_ThreadEvents_more :
    let x : Ctx := { aCtx with state := .waiting, wait := .memQueue 12, place := none }
    let full : State := readyWith (fullCluster.map fun p => (p.1, if p.1 = 0 then p.2 else { p.2 with cls := .express }))
    let l : LockEnt := { group := 0, stripe := 8, holder := some 0, due := 0, waiters := [1, 2] }
    let lockedBy : LockEnt → Ctx → State := fun l c => { readyWith [(0, c)] with locks := [l] }
    (nextReady full 0 (fun c => c.cls == .express) = some (0, readyCtx .express) ∧ freeSlot0 full 0 = none ∧
      freeOther full 0 .express = none ∧ victimOf full 0 = none) ∧
    (x.state = .waiting ∧ x.wait = .memQueue 12 ∧
      ∀ mp ∈ (readyWith [(0, x)]).mports.find 12, queueRoom (readyWith [(0, x)]) 12 mp (eclass x) x.cluster = true) ∧
    (lockOf (lockedBy { l with due := 1 } aCtx) 0 8 = some { l with due := 1 } ∧ due (lockedBy { l with due := 1 } aCtx) 1 = false ∧
      lockOf (lockedBy l x) 0 8 = some l ∧ due (lockedBy l x) l.due = true ∧ l.expired = false ∧ aCtx.state ≠ .waiting ∧
      aCtx.state ≠ .translating) ∧
    (∀ ws ∈ [[1, 2], []], let y := { l with expired := true, waiters := ws }
      lockOf (lockedBy y aCtx) 0 8 = some y ∧ ((lockedBy y aCtx).locks.filter fun l => l.expired) = [y] ∧
        recOf (lockedBy y aCtx) 0 0 8 = none) ∧
    ∀ p ∈ (lockedBy l aCtx).ctxs, p.2.wait = .nothing := by decide +kernel

/-- An orphan record, a record whose retire waits for lower steps, and a mirror that has lost a member. -/
def sealedRec (cx : Option Nat) : JRec := { aRec [5] with sealed := true, ctx := cx }
def retireCtx : Ctx := { lockCtx with state := .waiting, wait := .retire 0 8 (some (2, 100)) 5, place := none }
def retireState : State :=
  { heldState with ctxs := [(0, retireCtx)], journal := { recs := [(3, sealedRec (some 0))], nextGen := 6 } }
def orphanState : State := { readyWith [] with journal := { recs := [(3, sealedRec none)], nextGen := 6 } }
def lostMirror : State := { readyWith [] with mports := (List.range 8).map fun i => (11 + i, aMember (i + 1)) }

theorem test_meets_JournalEvents :
    (orphanOf orphanState 0 8 = some (3, sealedRec none) ∧ (∀ e ∈ (sealedRec none).entries, e.writing = 0) ∧
      orphanState.vlt.pfail = false ∧ Tab.sorted orphanState.journal.recs = true) ∧
    (retireState.ctxs.find 0 = some retireCtx ∧ retireCtx.wait = .retire 0 8 (some (2, 100)) 5 ∧
      recOf retireState 0 0 8 = some (3, sealedRec (some 0)) ∧ (sealedRec (some 0)).sealed = true ∧
      (∀ e ∈ (sealedRec (some 0)).entries, e.writing = 0) ∧ lowerStep retireState 0 0 2 100 = false ∧
      (∀ l ∈ retireState.locks, 0 ∉ l.waiters) ∧ Tab.sorted retireState.journal.recs = true ∧ Tab.sorted retireCtx.g = true ∧
      5 ≠ 0) ∧
    (lostMirror.groups.find 0 = some aGroup ∧ tripleDegraded lostMirror aGroup = true ∧ lostMirror.mbx.unattended = false) := by
  decide +kernel

/-- The entry of an orphan record whose member takes the write, and whose members take none. -/
theorem test_meets_JournalEvents_replay :
    let e : JEntry := { index := 2, lba := 262144, frames := [5], stage := true }
    let s : Nat → State := fun state =>
      { orphanState with cache := { frames := [(5, { pins := 1, prot := true })] }, mports := (List.range 9).map fun i => (10 + i, { aMember i with state := state }) }
    orphanOf (s 2) 0 8 = some (3, sealedRec none) ∧ (s 2).groups.find 0 = some aGroup ∧ (sealedRec none).replaying = false ∧
    (sealedRec none).entries = [e] ∧ Replayable (s 2) aGroup (sealedRec none) e ∧ Replayable (s 5) aGroup (sealedRec none) e ∧
    (∀ p ∈ (s 2).journal.recs, p.2.replaying = false) ∧ ∀ e ∈ (sealedRec none).entries, takesReplay (s 4) aGroup e.index = false :=
  ⟨by decide +kernel, rfl, rfl, rfl, ⟨by decide +kernel, by decide +kernel, by simp, 12, aMember 2, rfl, rfl⟩,
    ⟨by decide +kernel, by decide +kernel, by simp, 12, { aMember 2 with state := 5 }, rfl, rfl⟩, by decide +kernel, by decide +kernel⟩

/-- A part whose power is as given. -/
def pwrState (p : Power) : State := { pwr := p }

theorem test_meets_PowerAndReset :
    (250 ≤ 250 ∧ (pwrState { devState := .held, heldCode := 0x13 }).pwr.devState ≠ .off) ∧ 25 ≤ 25 ∧
    (State.reset.pwr.devRstHigh = false ∧ State.reset.pwr.devState = .off ∧ State.reset.pwr.vauxOk = true) ∧
    ((pwrState { vauxOk := false }).pwr.vauxOk = false ∧ (pwrState { vauxOk := false }).pwr.devRstHigh = false) ∧
    (let s := pwrState { seqDir := some true, railEn := 0x0FF }
     8 < 9 ∧ s.pwr.railEn.getLsbD 8 = false ∧ (∀ k < 8, s.pwr.railEn.getLsbD k = true) ∧ s.pwr.seqDir = some true) ∧
    (let s := pwrState { seqDir := some false, railEn := 0x001 }
     0 < 9 ∧ s.pwr.railEn.getLsbD 0 = true ∧ (∀ k < 9, 0 < k → s.pwr.railEn.getLsbD k = false) ∧ s.pwr.seqDir = some false) ∧
    (let s := pwrState { seqDir := some true, railEn := 0x1FF, railPg := 0x0FF }
     8 < 9 ∧ s.pwr.seqDir = some true ∧ s.pwr.railEn.getLsbD 8 = true ∧ s.pwr.railPg.getLsbD 8 = false ∧
       s.pwr.railEn = 0x1FF#9 ∧ s.pwr.devState = .off) ∧
    (let s := pwrState { devState := .ready, railEn := 0x1FF, railPg := 0x1FF }
     8 ∈ [1, 2, 6, 7, 8] ∧ s.pwr.seqDir = none ∧ s.pwr.devState ≠ .off ∧ s.pwr.railEn.getLsbD 8 = true) ∧
    (1549#12).toNat < 1550 ∧ ((pwrState { vauxOk := false }).pwr.vauxOk = false ∧ 1600 < (1601#12).toNat) := by decide +kernel

/-- The reset line that rises in the state out of power, the test port, and the brown-out's release under it. -/
theorem test_meets_PowerAndReset_more :
    (let s := pwrState { seqDir := some true, railEn := 0x1FF, testEn := true }
     s.pwr.seqDir = some true ∧ s.pwr.railEn = 0x1FF#9 ∧ s.pwr.devState = .off ∧ s.pwr.testEn = true) ∧
    State.reset.pwr.testEn = false ∧ State.reset.pwr.seqDir = none ∧ (pwrState { devState := .held }).pwr.devState ≠ .off ∧
    { State.reset.pwr with devRstHigh := true }.devRstHigh = true ∧
    ∀ te ∈ [false, true], let s := pwrState { vauxOk := false, devRstHigh := true, testEn := te }
      s.pwr.vauxOk = false ∧ s.pwr.devRstHigh = true ∧ s.pwr.testEn = te := by decide +kernel

/-- Firmware images, and a part in Starting. -/
def aImage : SlotImage :=
  { readOk := true, magicOk := true, sigOk := true, svn := 3, version := 1, libraryRefused := 0, libraryAt := 0, program0 := 0 }
def starting (n : Nat) : State := { readyWith [] with pwr := { devState := .starting, selfTestStep := n, otp := 3 } }

theorem test_meets_StartUp :
    let good : State → SlotImage → Prop := fun s x => x.readOk = true ∧ x.magicOk = true ∧ x.sigOk = true ∧ s.pwr.otp ≤ x.svn
    (starting 6).pwr.devState = .starting ∧ (7 = (starting 6).pwr.selfTestStep + 1 ∧ 7 < 8) ∧
    ((starting 6).pwr.fwStarted = false ∧ (starting 6).pwr.selfTestStep ≠ 0 ∧ good (starting 6) aImage ∧ aImage.libraryRefused = 0 ∧
      ¬good (starting 6) { aImage with svn := 2 }) ∧
    (let s : State := { starting 6 with pwr := { (starting 6).pwr with fwStarted := true } }
     s.pwr.devState = .starting ∧ s.pwr.fwStarted = true ∧ s.pwr.fwBeat = false ∧ due s s.pwr.fwDue = true) ∧
    ((starting 7).pwr.devState = .starting ∧ (starting 7).pwr.vaultChecked = false ∧ (starting 7).pwr.selfTestStep = 7 ∧
      (let f : ImageFound := { areaB := true, headerOk := true, snapshotOk := true, released := false, seq := 9, groupIds := [],
                               overLimit := false }
       f.headerOk = true ∧ f.snapshotOk = true ∧ f.released = false)) ∧
    (let s : State := { starting 7 with pwr := { (starting 7).pwr with vaultChecked := true }, vlt := { ok0 := true, ok1 := true } }
     s.pwr.vaultChecked = true ∧ s.vlt.ok0 = true ∧ s.vlt.ok1 = true ∧ 0 < 1) ∧
    readyNow { starting 8 with pwr := { (starting 8).pwr with vaultChecked := true, fwStarted := true } } = true := by decide +kernel

/-- Steps 4 and 5, after the firmware has started, with the test port disabled. -/
theorem test_meets_StartUp_more : ∀ n ∈ [3, 4],
    let s : State := { starting n with pwr := { (starting n).pwr with fwStarted := true } }
    TestHeld s ∧ s.pwr.devState = .starting ∧ n + 1 = s.pwr.selfTestStep + 1 ∧ n + 1 < 8 ∧ s.pwr.fwStarted = true := by
  simp only [TestHeld]
  decide +kernel

/-- A label of a drive on port 10. -/
def aLabel : LabelFound :=
  { port := 10, groupId := 77, generation := 4, group := 0, index := 0, mstate := 0, n := 9, w := 3, stripLog2 := 16, spare := 1, layout := 2,
    seed := 5, extents := 64, rows := 16384, createTs := 0, layoutHash := [], failHist := [], mirror := none, homes := none,
    extentMap := [], lost := [], poison := [] }
def anImage : Area := { sealed := true, seq := 9, usable := true }
def recovering (a : Area) : State := { pwr := { devState := .recovering }, vlt := { areaB := a } }

theorem test_meets_Recovery :
    (let s : State := { pwr := { devState := .ready }, mports := [(10, { aMember 0 with group := none, state := 1, label := some aLabel })] }
     s.pwr.devState = .ready ∧ labelPool s = [aLabel] ∧ s.groups = [] ∧ aLabel.mstate = 0 ∧ Tab.sorted s.mports = true ∧
      (labelHistory aLabel).any (fun e => e.2.index == aLabel.index) = false) ∧
    ((readyWith []).groups.find 0 = some aGroup ∧ aGroup.assembly = .assembled ∧ aGroup.clean = false) ∧
    (areaOf (recovering anImage) 9 = some (true, anImage) ∧ (recovering anImage).pwr.devState = .recovering ∧
      anImage.restored = false ∧ lowerImages (recovering anImage) 9 (fun x => x.restored) = true ∧
      mapped (recovering anImage) 7 5 = none ∧ takeFrame (recovering anImage) = some 0 ∧ anImage.overLimit = false) ∧
    (let s : State := { orphanState with journal := { recs := [(3, { sealedRec none with restored := true })] } }
     s.pwr.devState = .ready ∧ s.vlt.pfail = false ∧ replayable s = [(3, { sealedRec none with restored := true })] ∧
      Tab.sorted s.journal.recs = true) ∧
    (let a := { anImage with restored := true, errorsDone := true }
     areaOf (recovering a) 9 = some (true, a) ∧ a.restored = true ∧ a.errorsDone = true ∧ a.released = false ∧
      (recovering a).vlt.pfail = false ∧ lowerImages (recovering a) 9 (fun x => x.released) = true) := by decide +kernel

/-- A group in repair; a restored record whose member takes its entry, and one whose members take none. -/
theorem test_meets_Recovery_more :
    let e : JEntry := { index := 2, lba := 262144, frames := [5], stage := true }
    let r : JRec := { sealedRec none with restored := true }
    let s : Nat → State := fun state =>
      { orphanState with
        cache := { frames := [(5, { pins := 1, prot := true })] }
        mports := (List.range 9).map fun i => (10 + i, { aMember i with state := state })
        journal := { recs := [(3, r)] } }
    (({ aGroup with assembly := .repairing } : Group).assembly = .repairing ∧ (s 2).pwr.devState = .ready ∧ replayable (s 2) = [(3, r)] ∧
      (s 2).groups.find r.group = some aGroup ∧ (∀ p ∈ (s 2).journal.recs, p.2.replaying = false) ∧ (∀ x ∈ r.entries, x.writing = 0) ∧
      (∀ x ∈ r.entries, takesReplay (s 4) aGroup x.index = false) ∧ r.entries = [e]) ∧
    Replayable (s 2) aGroup r e ∧ Replayable (s 5) aGroup r e :=
  ⟨by decide +kernel, ⟨by decide +kernel, by decide +kernel, by simp, 12, aMember 2, rfl, rfl⟩, by decide +kernel, by decide +kernel, by simp,
    12, { aMember 2 with state := 5 }, rfl, rfl⟩

/-- A part in Ready with vault parameters. -/
def vaultState (v : Vault) : State := { readyWith [] with vlt := v, pwr := { devState := .ready, vaultChecked := true } }
def aVault : Vault := { huItest := 100, huDiv := 10, pDump := 45000, vCut := 30000, ok0 := true, ns0 := 5 }

theorem test_meets_EnergyLedger :
    let board : State → Prop := fun s => s.vlt.huItest ≠ 0 ∧ s.vlt.huDiv ≠ 0 ∧ s.vlt.pDump ≠ 0
    (measureOk (vaultState aVault) = true ∧ (vaultState aVault).vlt.measuring = false ∧ board (vaultState aVault) ∧
      (vaultState aVault).vlt.vCut.toNat < 30001 ∧ (vaultState aVault).vlt.ok0 = true ∧
      (vaultState aVault).pwr.devState ≠ .starting ∧ (vaultState aVault).vlt.remeasure ≠ 0 ∧
      (vaultState aVault).tt.cycle.toNat % (vaultState aVault).vlt.remeasure.toNat = 0) ∧
    (¬board (vaultState { aVault with huDiv := 0 }) ∧ measureOk (vaultState { aVault with huDiv := 0 }) = true) ∧
    30000 ≤ (vaultState aVault).vlt.vCut.toNat ∧
    ((vaultState { aVault with ok0 := false }).vlt.ok0 = false ∧ (vaultState { aVault with ok0 := false }).vlt.ok1 = false) ∧
    (let s := vaultState { aVault with measuring := true, vStart := 50000 }
     s.vlt.measuring = true ∧ due s s.vlt.huDue = true ∧ s.vlt.vStart.toNat < 49751 + 250 ∧ 49750 + 250 ≤ s.vlt.vStart.toNat) ∧
    ((vaultState aVault).pwr.vaultChecked = true ∧ (vaultState aVault).vlt.pfail = false ∧ (vaultState aVault).vlt.ok1 = false) ∧
    (12058623 < Config.frames ∧ 63 < 64 ∧ (vaultState aVault).vlt.patrolEn = true ∧ (vaultState aVault).vlt.patrol ≠ 0 ∧
      onW0 (vaultState aVault) = true) ∧
    (let f : Frame := { key := some (7, 5), dirty := true }
     let s : State := { vaultState aVault with cache := { frames := [(4, f), (12058623, { key := some (7, 6) })] } }
     s.cache.frames.find 4 = some f ∧ f.retired = false ∧ sealedOf s 4 = none ∧ f.dirty = true ∧ f.data.wf = true ∧
      s.cache.frames.find 12058623 = some { key := some (7, 6) } ∧ sealedOf s 12058623 = none) := by decide +kernel

/-- A part that dumps. -/
def aDump (step : DumpStep) (held : Bool) : Dump :=
  { areaB := false, seq := 1, step := step, q := 0, held := held, recExtents := 0, dirtyExtents := 0, records := [], dirtyFrames := [],
    inlines := [] }
def dumping (d : Dump) : State :=
  { readyWith [] with
    pwr := { devState := .vaulting }, tt := { cycle := 2 }
    vlt := { aVault with pfail := true, dump := some d, areaA := { sealed := true, inProgress := true } } }

theorem test_meets_PowerFailure :
    (let s := vaultState aVault
     s.pwr.devState = .ready ∧ s.pwr.rung = 0 ∧ dumpArea s = some false ∧ s.pwr.seqDir = none ∧
     { s.pwr with railEn := 0x1FF }.railEn.getLsbD 0 = true ∧ 11 < 12 ∧ (919#16).msb = false ∧ 920 ≤ (920#16).toNat ∧
     (919#16).toNat < 920 ∧ s.pwr.thermtripLow = false) ∧
    ((pwrState { devState := .held }).pwr.devState = .held ∧ (pwrState { devState := .held }).vlt.pfail = false) ∧
    (let d := aDump .maps true
     (dumping d).vlt.dump = some d ∧ (dumping d).pwr.devState = .vaulting ∧ d.writes = true ∧ d.abandoned = false ∧ d.held = true ∧
      d.step = .maps ∧ due (dumping d) (tsAdd (dumping d).tt.kActive d.q 131072) = true) ∧
    (∀ st ∈ [DumpStep.header, .index, .final, .flush], (aDump st false).held = false ∧ (aDump st false).step = st ∧
      (dumping (aDump st false)).vlt.dump = some (aDump st false)) ∧
    ((dumping (aDump .index false)).vlt.vcut = false ∧ 29999 < (dumping (aDump .index false)).vlt.vCut.toNat) := by decide +kernel

/-- A failure in W3, in Starting before the vault is checked and after, and in Recovering. -/
theorem test_meets_PowerFailure_more :
    (let s : State := { vaultState aVault with pwr := { devState := .ready, rung := 3 } }
     TestHeld s ∧ s.pwr.devState = .ready ∧ 3 ≤ s.pwr.rung) ∧
    (let s : State := { vaultState aVault with pwr := { devState := .starting } }
     TestHeld s ∧ s.pwr.devState = .starting ∧ s.pwr.vaultChecked = false) ∧
    (∀ d ∈ [DevState.recovering, .starting], let s : State := { vaultState aVault with pwr := { devState := d, vaultChecked := true } }
      TestHeld s ∧ s.pwr.devState = d ∧ s.pwr.vaultChecked = true ∧ dumpArea s = some false) ∧
    ({ aDump .index false with abandoned := true }.abandoned = true ∧ (aDump .index false).abandoned = false) := by
  simp only [TestHeld]
  decide +kernel

/-- A part that may go to a rung, and one that has prepared it. -/
def idleState (r : BitVec 3) : State :=
  { pwr := { devState := .ready, setRung := r, idle := 1000, vaultChecked := true }, vlt := { ok0 := true } }
def ladderState (p : Power) : State := { idleState 4 with pwr := p }

theorem test_meets_PowerLadder :
    (entryOk (idleState 1) (targetRung (idleState 1)) = true ∧ targetRung (idleState 1) = 1) ∧
    (entryOk (idleState 2) (targetRung (idleState 2)) = true ∧ targetRung (idleState 2) = 2) ∧
    (entryOk (idleState 4) (targetRung (idleState 4)) = true ∧ 3 ≤ targetRung (idleState 4)) ∧
    (let s := ladderState { (idleState 1).pwr with entry := some 2 }
     s.pwr.entry = some 2 ∧ prepared s 2 = true ∧ targetRung s < 2) ∧
    (let s := ladderState { (idleState 2).pwr with entry := some 2 }
     s.pwr.entry = some 2 ∧ prepared s 2 = true ∧ 2 ≤ targetRung s ∧ targetRung s = 2 ∧ 2 < 3) ∧
    (let s := ladderState { (idleState 4).pwr with entry := some 3 }
     s.pwr.entry = some 3 ∧ prepared s 3 = true ∧ 3 ≤ targetRung s ∧ 3 ≤ 3) ∧
    (∀ r ∈ [1, 2, 3], let s := ladderState { devState := .ready, rung := r }
     s.pwr.devState = .ready ∧ s.pwr.entry = none ∧ s.pwr.exiting = false ∧ s.pwr.rung = r ∧ 0 < s.pwr.rung) ∧
    (∀ r ∈ [2, 3], let s := ladderState { devState := .ready, rung := r, exiting := true }
     s.pwr.exiting = true ∧ (s.pwr.rung < 3 ∨ 3 ≤ s.pwr.rung) ∧ s.vlt.dump = none ∧ s.pwr.devState = .ready) ∧
    (let s := ladderState { devState := .ready, restoring := true }
     s.pwr.restoring = true ∧ s.pwr.devState = .ready ∧ ∀ p ∈ s.mports, p.2.down = true → p.2.contained = true) := by decide +kernel

/-- A part that may not go to its rung, one that has not prepared it, the wakes from W4, and a SET_POWER that waits for its rung. -/
theorem test_meets_PowerLadder_more :
    entryOk State.reset (targetRung State.reset) = false ∧ State.reset.pwr.entry = none ∧ State.reset.pwr.exiting = false ∧
    State.reset.pwr.devState ≠ .ready ∧
    (let s : State := { ladderState { (idleState 4).pwr with entry := some 3 } with ctxs := [(0, aCtx)] }
     s.pwr.entry = some 3 ∧ prepared s 3 = false) ∧
    (let s := ladderState { devState := .ready, rung := 4 }
     s.pwr.devState = .ready ∧ s.pwr.entry = none ∧ s.pwr.exiting = false ∧ 3 ≤ s.pwr.rung ∧ 4 ≤ s.pwr.rung) ∧
    (let a : AdminCmd := { port := 0, entry := 0x12340044, vis := 0, data := [], poisoned := false }
     let q : Sq := { push := false, cls := .standard, cqSlot := 0, log2 := 4, base := 0x30000, pollInt := 0, pasid := none, quota := 0 }
     let k : Cq := { log2 := 4, base := 0x40000, ien := false, vec := 0, ivCount := 1, ivDelay := 0 }
     let fn : Func := { aFunc with sqs := [(0, q)], cqs := [(0, k)] }
     let s : State := { ladderState { (idleState 2).pwr with entry := some 2, setWaiters := [a] } with ports := [(0, upPort)], funcs := [(0, fn)] }
     s.pwr.entry = some 2 ∧ prepared s 2 = true ∧ targetRung s = 2 ∧ s.pwr.setWaiters = [a] ∧ a.port < 8 ∧ fnOf s (64 * a.port) = some fn ∧
      fn.sqs.find 0 = some q ∧ fn.cqs.find q.cqSlot = some k ∧ upstreamOk s fn = true ∧ k.hasRoom = true ∧ q.ci < 2 ^ 32 ∧
      (∀ f ∈ s.funcs, ∀ x ∈ f.2.cqs, x.2.ready = [])) := by decide +kernel

/-- A running timetable in a lock state, with the last edge 1,500,000 clocks ago. -/
def ttState (l : LockState) (runs : List Nat) (missed : Nat) : State :=
  { tt := { running := true, lock := l, lastEdge := some 0, runPeriods := runs, missed := missed, measPeriod := 384000000,
            fromHoldover := true } }

/-- An edge of 16 clocks: 1,501,500 is within 0.1 % and 1,501,501 is not; with the window of 64 slots, 1,464 clocks are in it
and 1,465 are not. -/
theorem test_meets_TimetableLock :
    let near : State → Nat → Prop := fun s p => (2 * (p : Int) - 3 * (s.tt.nomActive.toNat : Int)).natAbs * 1000 ≤ 3 * s.tt.nomActive.toNat
    let fits : State → Nat → Nat → Nat → Prop := fun s p a b =>
      2 * (max p (max a b) - min p (min a b)) * 2 ^ s.tt.kActive ≤ s.tt.window.toNat * 3 * s.tt.nomActive.toNat
    let off : State → Nat → Nat := fun s ref =>
      (((ref * 256 : Nat) : Int) - ((0 * 256 + s.tt.measPeriod.toNat * (s.tt.missed + 1) : Nat) : Int)).natAbs
    15 < 16 ∧ (16 ≤ 16 ∧ (ttState .free [] 0).tt.refEn = true ∧ (ttState .free [] 0).tt.running = true) ∧
    ((ttState .free [] 0).tt.lock = .free ∧ (ttState .holdover [] 0).tt.lock = .holdover) ∧
    ((ttState .acquiring [] 0).tt.lock = .acquiring ∧ (ttState .acquiring [] 0).tt.lastEdge = some 0 ∧
      near (ttState .acquiring [] 0) 1501500 ∧ ¬near (ttState .acquiring [] 0) 1501501 ∧ (ttState .acquiring [] 0).tt.runPeriods = [] ∧
      (ttState .acquiring [1500000, 1500000] 0).tt.runPeriods = [1500000, 1500000] ∧
      fits (ttState .acquiring [] 0) 1501464 1500000 1500000 ∧ near (ttState .acquiring [] 0) 1501464 ∧
      ¬fits (ttState .acquiring [] 0) 1501465 1500000 1500000 ∧ near (ttState .acquiring [] 0) 1501465) ∧
    ((ttState .locked [] 0).tt.lock = .locked ∧
      off (ttState .locked [] 0) 1501464 * 2 ^ 16 ≤ (ttState .locked [] 0).tt.window.toNat * (ttState .locked [] 0).tt.measPeriod.toNat ∧
      (ttState .locked [] 0).tt.window.toNat * (ttState .locked [] 0).tt.measPeriod.toNat < off (ttState .locked [] 0) 1501465 * 2 ^ 16 ∧
      (ttState .locked [] 0).tt.missed = 0 ∧ (ttState .locked [] 1).tt.missed < 2 ∧ (ttState .locked [] 2).tt.missed = 2) := by
  decide +kernel

/-- Where the edge and the command are no edge; the check slot of a missing edge and the lapse of three cycles, with the slot before each. -/
theorem test_meets_TimetableLock_more :
    let at_ : State → BitVec 44 → Nat → State := fun s cycle slot => { s with tt := { s.tt with cycle := cycle, slot := slot } }
    let check : State → Bool := fun s =>
      due s (tsAdd s.tt.kActive s.tt.edgeTs (2 ^ s.tt.kActive * (s.tt.missed + 1) + s.tt.window.toNat))
    let lapse : State → Bool := fun s =>
      due s (tsAdd s.tt.kActive s.tt.edgeTs
        ((s.tt.nomActive.toNat * 9 / 2 * 2 ^ s.tt.kActive + localClocks s.tt - 1) / localClocks s.tt))
    ({ (ttState .free [] 0).tt with refEn := false }.refEn = false ∧ State.reset.tt.running = false) ∧
    ((ttState .locked [] 0).tt.lock = .locked ∧ check (at_ (ttState .locked [] 0) 1 63) = false ∧
      check (at_ (ttState .locked [] 0) 1 64) = true ∧ check (at_ (ttState .locked [] 2) 3 64) = true) ∧
    ((ttState .acquiring [] 0).tt.lock = .acquiring ∧ lapse (at_ (ttState .acquiring [] 0) 2 65535) = false ∧
      lapse (at_ (ttState .acquiring [] 0) 3 0) = true) := by
  decide +kernel

/-- Entry 0x0000_0018_004B_0086 in a period of 900. -/
theorem test_meets_PlanPosition :
    peValid 0x00000018004B0086#64 = true ∧ 899 < bankPeriod { periodA := 899 } false ∧
    peCovers 0x00000018004B0086#64 900 99 = true ∧ peCovers 0x00000018004B0086#64 900 100 = false := by decide +kernel

/-- One good entry; one whose length exceeds the period; a pending switch; both banks active. -/
theorem test_meets_TimetableControl :
    let good : Tab Word → Nat → Nat × Word → Prop := fun bank period x => peValid x.2 = true →
      peMember x.2 ≤ 71 ∧ peLen x.2 ≤ period ∧ peStart x.2 < period ∧
      ∀ y ∈ bank, y.1 ≠ x.1 → peValid y.2 = true → peMember y.2 = peMember x.2 →
        ¬∃ pos < period, (∃ j < peLen x.2, (peStart x.2 + j) % period = pos) ∧ (∃ j < peLen y.2, (peStart y.2 + j) % period = pos)
    ({} : Timetable).switch = none ∧ ({ switch := some { edges := 2 } } : Timetable).switch = some { edges := 2 } ∧
    (∀ x ∈ ([(0, 0x0000000000000086#64)] : Tab Word), good [(0, 0x0000000000000086#64)] 1 x) ∧
    (∃ x ∈ ([(0, 0x0000000100000086#64)] : Tab Word), ¬good [(0, 0x0000000100000086#64)] 1 x) ∧
    (0x1000 ≤ 0x1000 ∧ 0x1000 < 0x3000 ∧ 0x3000 ≤ 0x4FFF ∧ 0x4FFF < 0x5000) := by
  refine ⟨rfl, rfl, ?_, ⟨_, List.mem_singleton.2 rfl, ?_⟩, by decide⟩
  · intro x hx
    obtain rfl := List.mem_singleton.1 hx
    intro _
    refine ⟨by decide, by decide, by decide, fun y hy hne => ?_⟩
    obtain rfl := List.mem_singleton.1 hy
    exact absurd rfl hne
  · intro h
    exact absurd (h (by decide)).2.1 (by decide)

/-- A timetable that runs at a cycle edge, with a load and a switch armed and one Express allotment. -/
def edgeState : State :=
  { readyWith [] with
    tt := { running := true, loadArm := true, cycleLoad := 9, switch := some { edges := 2 } }
    adm := { exp := [(0, { sqid := 1, func := 0, hit := 5, next := some (7, 8, 9) })] } }

theorem test_meets_CycleEdge :
    State.reset.tt.running = false ∧ edgeState.tt.running = true ∧
    (∃ sw, edgeState.tt.switch = some sw ∧ 1 < sw.edges) ∧ (∃ e, edgeState.adm.exp.find 0 = some e) ∧
    (let seen := ([784#16, 0x8000#16].take 12).filter fun r => r != 0x8000#16
     784#16 ∈ seen ∧ 784 ≤ (784#16).toInt) ∧
    (let seen := ([744#16, 0x8000#16].take 12).filter fun r => r != 0x8000#16
     seen = [744#16] ∧ (744#16).toInt ≤ 744) ∧
    ([0x8000#16].take 12).filter (fun r => r != 0x8000#16) = [] ∧
    (edgeState.fare.en = true ∧ edgeState.tt.slot = 0 ∧ edgeState.tt.cycle.toNat % edgeState.fare.period.toNat = 0 ∧
      edgeState.fare.seq = 0) ∧ (1#32 ≠ 0) ∧
    (edgeState.mem.policyWin ≠ 0 ∧ edgeState.tt.cycle.toNat % edgeState.mem.policyWin.toNat = 0 ∧
      Tab.sorted edgeState.mports = true) ∧
    (edgeState.mem.scrubEn = true ∧ edgeState.groups.find 0 = some aGroup ∧ aGroup.assembly = .assembled ∧
      aGroup.scrubbing = false) ∧ ({ scrubEn := false } : MemRegs).scrubEn = false := by
  refine ⟨rfl, rfl, ⟨_, rfl, by decide⟩, ⟨_, rfl⟩, ?_⟩
  decide +kernel

/-- The snapshot that an edge takes, the INTA that an edge releases, and a group whose last pass began long ago. -/
theorem test_meets_CycleEdge_more :
    (let s : State := { edgeState with
       tt := { running := true, cycle := 59999 }, fare := { running := true, en := true, seq := 5, ts := 3, periodNext := some 20000 } }
     s.tt.running = true ∧ s.tt.switch = none ∧ s.fare.en = true ∧ s.tt.loadArm = false ∧
      (s.tt.cycle + 1).toNat % (s.fare.periodNext.getD s.fare.period).toNat = 0 ∧ s.fare.ts ≠ tsOf 60000 0) ∧
    (let fn : Func := { aFunc with sqs := [], cqs := [] }
     let s : State := { edgeState with ports := [(0, { upPort with intx := true })], funcs := [(0, fn)] }
     s.ports.find 0 = some { upPort with intx := true } ∧ fnOf s (64 * 0) = some fn ∧ intxPending fn = false ∧ fn.cqs = []) ∧
    (let g : Group := { aGroup with scrubAt := some 0 }
     let s : State := { edgeState with groups := [(0, g)], tt := { cycle := 0xFFFFFFFFFF } }
     s.mem.scrubEn = true ∧ s.groups.find 0 = some g ∧ g.assembly = .assembled ∧ g.scrubbing = false ∧
      s.mem.scrubPeriod.toNat ≤ (s.tt.cycle - tsCycle (g.scrubAt.getD 0)).toNat) := by decide +kernel

/-- A plan that announces port 10 in cycles 1 and 7 of 8, and a scheduled member on it. -/
def planTt (c : BitVec 44) : Timetable := { running := true, cycle := c, planEn := true, periodA := 7, planA := [(0, 0x0001008A), (4, 0x0007008A)] }
def planMember : MPort := { aMember 0 with plm := true, profiled := true, dtwinMax := 10 ^ 12 }
def planState (c : BitVec 44) (p : MPort) : State := { readyWith [] with tt := planTt c, mports := [(10, p)] }
def winOp (op : MemOp) : MemCmd :=
  { op := op, ctx := none, ticket := 0, lba := 0, count := 0, frames := [], issued := 0, due := 0, express := false, determ := false,
    jrec := none }

theorem test_meets_Possessions :
    let poss : MPort := { planMember with inPoss := true, annc := some 0 }
    (let s := planState 0 planMember
     s.mports.find 10 = some planMember ∧ onW0 s = true ∧ entryAt s.tt 10 (s.tt.cycle + 1) ≠ none ∧
      entryAt s.tt 10 (s.tt.cycle + 1) ≠ planMember.annc ∧ planMember.inPoss = false ∧ takeable s 10 planMember = true) ∧
    (let s := planState 1 poss
     s.mports.find 10 = some poss ∧ poss.inPoss = true ∧ poss.ndwinSent = false ∧ poss.dtwinSent = false ∧
      (∀ x ∈ poss.cmds, (x.2.op == .read && x.2.express && x.2.determ) = false) ∧ poss.annc ≠ none ∧
      entryAt s.tt 10 (s.tt.cycle + 1) = none) ∧
    (due (planState 1 { planMember with retryDue := some 0 }) 0 = true) ∧
    (planMember.plm = true ∧ judged planMember.state = true ∧ planMember.inPoss = false ∧
      depthPositive (planState 1 planMember) planMember = true) ∧
    (∀ op ∈ [MemOp.winNdwin, .winDtwin], winCmd { poss with cmds := [(9, winOp op)] } = some (9, winOp op) ∧ (winOp op).op = op) ∧
    (poss.early = false ∧ { poss with early := true }.early = true) := by decide +kernel

/-- The slot that TT_POSS_LEAD gives, and the one before: 65,472 and 65,471 at its reset value of 64. -/
theorem test_meets_Possessions_slots :
    let s : State := { planState 0 planMember with tt := { planTt 0 with slot := 65536 - (planTt 0).possLead.toNat } }
    s.mports.find 10 = some planMember ∧ onW0 s = true ∧ 2 ^ s.tt.kActive = s.tt.slot + s.tt.possLead.toNat ∧
      entryAt s.tt 10 (s.tt.cycle + 1) ≠ none ∧ entryAt s.tt 10 (s.tt.cycle + 1) ≠ planMember.annc ∧ planMember.inPoss = false ∧
      takeable s 10 planMember = true ∧
      (let p : MPort := { planMember with inPoss := true, annc := some 0 }
       let t : State := { planState 1 p with tt := { planTt 1 with slot := 65536 - (planTt 1).possLead.toNat } }
       t.mports.find 10 = some p ∧ onW0 t = true ∧ 2 ^ t.tt.kActive ≤ t.tt.slot + t.tt.possLead.toNat ∧ p.dtwinSent = false ∧
        entryAt t.tt 10 (t.tt.cycle + 1) = none ∧ entryAt t.tt 10 (t.tt.cycle + 1) ≠ p.annc) := by decide +kernel

/-- A member with one command, and counters that no limit judges. -/
def aCmd (op : MemOp) : MemCmd :=
  { op := op, ctx := some 0, ticket := 2, lba := 262144, count := 1, frames := [5], issued := 0, due := 0, express := false, determ := true,
    jrec := if op == .write then some (3, 2) else none }
def cmdPort (op : MemOp) : MPort := { aMember 2 with cmds := [(9, aCmd op)], quarantine := [8] }
def cmdState (op : MemOp) : State :=
  { memState (cmdPort op) with
    ctxs := [(0, { memCtx with place := some (0, 0) })], mem := { failTmo := 0, failMedia := 0, slowTmo := 0 }
    cache := { frames := [(5, { key := some (7, 0), pins := 1 })] } }

theorem test_meets_MemberCommands :
    (∀ op ∈ [MemOp.read, .write], (cmdState op).mports.find 12 = some (cmdPort op) ∧ linksHeld (cmdState op) = false ∧
      (cmdState op).mem.failTmo = 0 ∧ (cmdState op).mem.failMedia = 0 ∧ (cmdState op).mem.slowTmo = 0 ∧
      (cmdPort op).cmds.find 9 = some (aCmd op) ∧ (aCmd op).op = op ∧ (aCmd op).ctx = some 0 ∧
      (cmdState op).ctxs.find 0 = some { memCtx with place := some (0, 0) } ∧ memCtx.wait = .nothing ∧ (aCmd op).frames = [5] ∧
      (cmdState op).cache.frames.find 5 = some { key := some (7, 0), pins := 1 } ∧
      due (cmdState op) (aCmd op).due = true ∧ (cmdPort op).quarantine.length < 63 ∧ (cmdPort op).contained = false ∧
      0 + [(1 : Byte)].length ≤ 4096 ∧ 4095 + [(1 : Byte)].length ≤ 4096 ∧ [(1 : Byte)] ≠ []) ∧
    (({ key := some (7, 0), pins := 1 } : Frame).retireLast = false ∧ ({ key := some (7, 0), pins := 1 } : Frame).key ≠ none ∧
      ({ key := some (7, 0), pins := 1 } : Frame).data.wf = true) ∧
    ((aCmd .write).jrec = some (3, 2) ∧ (cmdState .write).journal.recs.find 3 = some { aRec [5] with sealed := true } ∧
      (cmdState .write).groups.find 0 = some aGroup ∧ judged (cmdPort .write).state = true ∧ (cmdPort .write).group = some 0) ∧
    8 ∈ (cmdPort .read).quarantine ∧ ∀ op, ∀ x ∈ (cmdState op).ctxs, ∀ g st wm d, x.2.wait ≠ .retire g st wm d := by
  and_intros <;> try decide +kernel
  intro op x hx g st wm d
  have : x = (0, { memCtx with place := some (0, 0) }) := by simpa [cmdState] using hx
  subst this; exact WaitFor.noConfusion

/-- A completion in the slot of the bound is in time; one in the next slot is late, its identifier in quarantine or not. -/
theorem test_meets_MemberCommands_late :
    let s : State := { cmdState .read with tt := { slot := 1 } }
    past (cmdState .read) (aCmd .read).due = false ∧ past s (aCmd .read).due = true ∧ s.mports.find 12 = some (cmdPort .read) ∧
      linksHeld s = false ∧ (∀ x ∈ s.journal.recs, x.2.replaying = false) ∧ 9 ∉ (cmdPort .read).quarantine ∧
      9 ∈ { cmdPort .read with quarantine := [9] }.quarantine := by decide +kernel

/-- What a drive reports. -/
def aDrive (failed : Option Nat) : DriveInfo :=
  { failedStep := failed, nvme20 := true, lba4k := true, queuePairs := 8, mpsminOk := true, blocks := 262400, vwcOff := true, fua := false,
    plm := true, ndwinMin := 0, dtwinMax := 0, urgentArb := false, zerosDealloc := false, model := [], width := 4, speed := 5,
    label := none }
def portState (p : MPort) : State :=
  { readyWith [] with mports := [(10, p)], pwr := { devState := .starting, railEn := 0x1FF, railPg := 0x1FF } }

theorem test_meets_MemberPorts :
    (State.reset.mem.quadSet = false ∧ ({ quadSet := true } : MemRegs).quadSet = true) ∧
    (let p : MPort := { absent := false }
     (portState p).mports.find 10 = some p ∧ p.absent = false ∧ p.powerOff = false ∧ p.present = false ∧ vioUp (portState p) = true ∧
      (portState p).mem.hotplugEn = true) ∧
    (let p : MPort := { absent := false, present := true }
     (portState p).mports.find 10 = some p ∧ p.present = true ∧ p.contained = false ∧ judged p.state = false ∧ p.down = false ∧
      p.resetWait = [] ∧ (portState p).pwr.devState ≠ .ready) ∧
    ((aDrive none).failedStep = none ∧ (aDrive none).label = none ∧ (aDrive (some 3)).failedStep = some 3) := by decide +kernel

/-- A program with every Maintenance handler, and small groups: strips of one block. -/
def workRoute1 : Route :=
  { id := 16, layout := false, groupMaint := true, map := 2, fault := none, ops := [], destage := some 0, rebuild := some 0,
    scrub := some 0, zero := some 0, label := some 0, build := none }
def workProg : Program :=
  { handlers := [{ entry := 9, budget := 500, kind := .maint }]
    routes := [workRoute1] }
def smallGroup : Group := { aGroup with stripLog2 := 12 }
def workState (g : Group) : State :=
  { readyWith [] with
    groups := [(0, g)], progs := { loaded := [(5, workProg)] }, tt := { cycle := 0xFFFF }
    cache := { frames := (List.range 3).map fun i => (i, { key := some (7, i), dirty := true, prot := true }) } }
/-- The same with no dirty block, which calls for no destage; its group with every extent zeroed. -/
def calmState (g : Group) : State := { workState g with cache := {} }
def rebuildState (g : Group) : State :=
  { calmState g with mports := (List.range 9).map fun i => (10 + i, { aMember i with state := if i = 4 then 5 else 2 }) }
def fullGroup : Group := { smallGroup with zeroFrom := 64, zeroPlan := 64 }

/-- The work may be created: its route, its handler and the ladder's leave. -/
def can (s : State) (w : Work) (vol : Option Nat) : Prop :=
  workRoute s w vol 0 = some (5, workRoute1) ∧
    handlerOf s 5 (workHandler workRoute1 w) = some { entry := 9, budget := 500, kind := .maint } ∧ workAllowed s w = true

theorem test_meets_MaintenanceWork :
    let s := workState smallGroup
    (s.groups.find 0 = some smallGroup ∧ freeSiding s = some 0 ∧ maintUsed s < Config.maintSidings) ∧
    (can s .destage (some 7) ∧ stripeBlocks s 0 smallGroup 262146 = (7, 0) :: [(7, 1), (7, 2)] ∧
      (∀ x ∈ (7, 0) :: [(7, 1), (7, 2)], loneDirty s x ≠ none) ∧ oldDirty s 0 (7, 0) = true ∧
      smallGroup.geom.m * smallGroup.geom.b ≤ 256 ∧ destageRunning s 0 262146 0 = false ∧ beforeDestage s = false ∧
      destageWaits s smallGroup 262146 (dirtyLanes s 0 smallGroup 262146) = false) ∧
    (let e : FailEnt := { index := 4, watermark := 0 }
     let g := { smallGroup with history := [(0, e)] }
     let t := rebuildState g
     can t .rebuild none ∧ g.assembly = .assembled ∧ g.steps = [] ∧ 0 < t.mem.rbDepth.toNat ∧ g.history = [(0, e)] ∧ e.watermark = 0 ∧
      0 < g.rows ∧ passEmpty g e.index 0 (cycleRowsOf g) 0 = 0 ∧ rebuildCols g 0 e.index 0 = [4] ∧ memberState t g e.index = 5 ∧
      beforeRebuild t = false ∧ rebuildTarget t g 0 e.index 0 4 = some 4 ∧ 0 < g.geom.m ∧ 0 < g.geom.b ∧ g.geom.m * g.geom.b ≤ 256) ∧
    (let g := { fullGroup with scrubQueue := [12] }
     let t := calmState g
     can t .scrub none ∧ g.assembly = .assembled ∧ rebuilding t g = false ∧ g.resync = [] ∧ beforeScrub t = false ∧ g.scrubQueue = 12 :: [] ∧
      touchesPoss t g 12 = false ∧ 0 < g.geom.m ∧ 0 < g.geom.b ∧ g.geom.m * g.geom.b ≤ 256) ∧
    (can s .zero none ∧ smallGroup.zeroing = [] ∧ { smallGroup with zeroPlan := 63 }.zeroPlan < smallGroup.extents ∧ smallGroup.creator = none ∧
      beforeZero (calmState smallGroup) = false) ∧
    (can s .label none ∧ 8 < smallGroup.n ∧ takeFrame s = some 3) := by
  unfold can
  and_intros <;> decide +kernel

/-- A pass under way, a stripe that touches a member in possession, stripes put off to the end of the pass, and its end. -/
theorem test_meets_MaintenanceWork_scrub :
    let busy : Group → State := fun g => { calmState g with mports := (List.range 9).map fun i => (10 + i, { aMember i with inPoss := true }) }
    let g := { fullGroup with scrubbing := true, scrubAt := some 0xFFFF0000#64 }
    let last := { g with scrubNext := 64 * 87382 }
    (can (calmState g) .scrub none ∧ beforeScrub (calmState g) = false ∧ g.scrubQueue = [] ∧ g.scrubbing = true ∧ g.scrubNext < g.extents * g.geom.es ∧
      scrubPaced (calmState g) g = true ∧ touchesPoss (calmState g) g g.scrubNext = false) ∧
    touchesPoss (busy { g with scrubQueue := [12] }) { g with scrubQueue := [12] } 12 = true ∧
    (last.extents * last.geom.es ≤ last.scrubNext ∧ last.scrubLate = [] ∧ scrubRuns (calmState last) 0 = false) ∧
    ({ last with scrubLate := [12] }.scrubLate = 12 :: [] ∧ touchesPoss (calmState { last with scrubLate := [12] }) last 12 = false) := by
  unfold can
  decide +kernel

/-- A VF of port 0, and states of the port and the PF. -/
def vfState (p : HostPort) (pf : Func) (vf : Option Func) : State :=
  { readyWith [] with ports := [(0, p)], funcs := (0, pf) :: (match vf with | some x => [(1, x)] | none => []) }
def quietPF : Func := { aFunc with sqs := [], cqs := [] }

/-- No context, channel, page request group or announced entry. -/
theorem unblocked_of {s : State} (h : s.ctxs = []) (h1 : s.movers = []) (h2 : s.xlate.prgs = [])
    (h3 : (s.funcs.all fun p => p.2.sqs.all fun q => q.2.announced.isEmpty) = true) : Unblocked s := by
  refine ⟨by simp [h], by simp [h1], by simp [h2], fun p hp q hq => Or.inr (Or.inr (Or.inr ?_))⟩
  have := List.all_eq_true.1 (List.all_eq_true.1 h3 p hp) q hq
  simpa using this

theorem test_meets_HostResets :
    Unblocked (vfState upPort aFunc none) ∧ (∀ v ∈ (vfState upPort aFunc none).vols, v.2.detachWait = [] ∧ v.2.deleting = false) ∧
    (answers (vfState upPort aFunc none) 0 = some aFunc ∧ ctxsOf (vfState upPort aFunc none) 0 = [] ∧ isPF 0 = true ∧
      vfsOf (vfState upPort aFunc none) 0 = []) ∧
    (let gone : Func := { exists_ := true, flrBusy := true }
     let keep : HostPort := { upPort with vfEnable := true, numVfs := 1 }
     (vfState keep aFunc (some gone)).funcs.find 1 = some gone ∧ gone.exists_ = true ∧
      (vfState keep aFunc (some gone)).ports.find (portOf 1) = some keep ∧ gone.flrBusy = true ∧
      ctxsOf (vfState keep aFunc (some gone)) 1 = [] ∧ vfStays keep 1 = true ∧ vfStays { keep with numVfs := 0 } 1 = false ∧
      Tab.sorted (vfState keep aFunc (some gone)).funcs = true ∧ Unblocked (vfState keep aFunc (some gone))) ∧
    (let s := vfState upPort { aFunc with d3 := true } none
     s.ports.find 0 = some upPort ∧ s.funcs.find (64 * 0) = some { aFunc with d3 := true } ∧ upPort.hperst = false ∧
      fnsOfPort s 0 = [64 * 0] ∧ ctxsOf s (64 * 0) = [] ∧ { aFunc with d3 := true }.d3 = true ∧ Unblocked s) ∧
    (let h : HostPort := { upPort with hperst := true, hwakeLow := true }
     (vfState h aFunc none).ports.find 0 = some h ∧ h.hperst = true ∧ h.hwakeLow = true ∧ Unblocked (vfState h aFunc none)) ∧
    (let h : HostPort := { upPort with rebuild := true }
     (vfState h aFunc none).ports.find 0 = some h ∧ h.rebuild = true ∧ h.hperst = false ∧ (vfState h aFunc none).tt.slot = 0 ∧
      (∀ f ∈ fnsOfPort (vfState h aFunc none) 0, flrNow (vfState h aFunc none) f = false)) := by
  repeat' first | exact unblocked_of rfl rfl rfl rfl | decide +kernel | constructor

/-- The slots that separate: a teardown, a rebuild and the start-up period in their first slot and after; a port that answers retry. -/
theorem test_meets_HostResets_times :
    let late : State → State := fun s => { s with tt := { s.tt with cycle := 5 } }
    let h : HostPort := { upPort with rebuild := true }
    let s := vfState h { aFunc with flrBusy := true } none
    (past (late s) (0 : Word) = true ∧ (late s).tt.slot = 0 ∧ past s (0 : Word) = false ∧ h.rebuildTs = 0 ∧ aFunc.flrTs = 0) ∧
    (s.ports.find (portOf 0) = some h ∧ h.hperst = false ∧ h.rebuild = true ∧ { upPort with crs := true }.crs = true) ∧
    (s.pwr.devState ≠ .off ∧ due (late s) (late s).pwr.crsDue = true ∧
      due { s with pwr := { s.pwr with crsDue := 5 } } 5 = false ∧ State.reset.pwr.devState = .off) ∧
    (takesCfg (vfState upPort aFunc none) 0 = some aFunc ∧ 1 ≤ 16 ∧ 1 ≤ 6 ∧ 6 ≤ 6) := by decide +kernel

/-- A channel of context 0, which belongs to PF 0. -/
theorem test_meets_HostControls :
    let s := vfState upPort quietPF none
    (Unblocked s ∧ ∀ v ∈ s.vols, v.2.detachWait = [] ∧ v.2.deleting = false) ∧
    (takesCfg s 0 = some quietPF ∧ chansOf s 0 = [] ∧ (∀ x ∈ readyRings s, x.1 ≠ 0) ∧ quietPF.held = []) ∧
    (let fn : Func := { quietPF with held := [.shadow 0x8000 5], bme := false }
     let t := vfState upPort fn none
     takesCfg t 0 = some fn ∧ fn.held = [.shadow 0x8000 5] ∧ upstreamOk t { fn with bme := true } = true ∧ Unblocked t) ∧
    ((0#4 = 0) ∧ (1#4 = 1) ∧ (2#4 = 2) ∧ 3 ≤ (3#4).toNat) ∧
    (s.ports.find 0 = some upPort ∧ takesCfg s (64 * 0) = some quietPF ∧ vfsOf s 0 = []) ∧
    (let h : HostPort := { upPort with vfEnable := true, numVfs := 1 }
     let t := vfState h quietPF (some { exists_ := true })
     t.ports.find 0 = some h ∧ takesCfg t (64 * 0) = some quietPF ∧ h.vfEnable = true ∧ vfsOf t 0 = [1] ∧ ctxsOf t 1 = [] ∧ Unblocked t) ∧
    (readyRings s = [] ∧ (∀ g ∈ fnsOfPort s 0, chansOf s g = []) ∧ ∀ x ∈ s.funcs, x.2.held = []) ∧
    (let fn : Func := { quietPF with pba := [2047] }
     let t := vfState upPort fn none
     answers t 0 = some fn ∧ fn.msixFmask = false ∧ fn.msixEn = true ∧ upstreamOk t fn = true ∧ 2047 < vectorsOf 0 ∧
      2047 ∉ fn.unmasked ∧ fn.pba = [2047] ∧ quietPF.pba = [] ∧ answers s 0 = some quietPF) ∧
    (let fn : Func := { quietPF with msixEn := false, intxRing := 4 }
     let h : HostPort := { upPort with intx := true }
     let t := vfState h fn none
     takesWrites t 0 = some fn ∧ t.ports.find (portOf 0) = some h ∧ isPF 0 = true ∧ h.intx = true ∧
      intxPending { fn with intxRing := fn.intxRing &&& ~~~ 4 } = false) := by
  repeat' first | exact unblocked_of rfl rfl rfl rfl | decide +kernel | constructor

/-- Work that waits for bus mastering to return, a port that answers retry, and an INTX bit that an event sets in the slot of its clear. -/
theorem test_meets_HostControls_more :
    (let fn : Func := { quietPF with held := [.shadow 0x8000 5], resume := true }
     let s := vfState upPort fn none
     Unblocked s ∧ fnOf s 0 = some fn ∧ fn.resume = true ∧ upstreamOk s fn = true ∧ chansOf s 0 = [] ∧ (∀ x ∈ readyRings s, x.1 ≠ 0)) ∧
    (let h : HostPort := { upPort with rebuild := true }
     let s := vfState h quietPF none
     Unblocked s ∧ s.ports.find (portOf 0) = some h ∧ h.hperst = false ∧ h.rebuild = true) ∧
    (let s : State := { vfState upPort quietPF none with fresh := [{ block := .fn 0, off := 0x48, pos := 63, amount := 1 }] }
     Unblocked s ∧ takesWrites s 0 = some quietPF ∧ 63 < 64 ∧ s.fresh = [{ block := .fn 0, off := 0x48, pos := 63, amount := 1 }] ∧
      ∀ e ∈ (vfState upPort quietPF none).fresh, e.block ≠ .fn 0) := by
  repeat' first | exact unblocked_of rfl rfl rfl rfl | decide +kernel | constructor

theorem test_meets_Registers :
    let s := vfState upPort quietPF none
    (7 < 8 ∧ (readyWith []).groups.find 0 = some aGroup ∧ aGroup.inPoss = []) ∧
    (65536 ≤ (65536#32).toNat ∧ (65535#32).toNat < 65536) ∧ takesWrites s 0 = some quietPF ∧ (0x15 % 4 ≠ 0) ∧
    (3277 ≤ (3277#32).toNat ∧ (4194304#32).toNat ≤ 4194304 ∧ (3276#32).toNat < 3277 ∧ 4194304 < (4194305#32).toNat) ∧
    (0x600 ≤ 0x600 ∧ 0xFFC < 0x1000 ∧ 0xFFC % 4 = 0) ∧ takesCfg s 0 = some quietPF ∧ 15 < 16 ∧
    (7 < 8 ∧ (chanOf s 7 15).state = .idle) ∧ (71 < 72 ∧ (readyWith []).mports.find 10 = some (aMember 0)) ∧
    (answers s 0 = some quietPF ∧ quietPF.d3 = false) ∧
    (answers (vfState upPort { quietPF with d3 := true } none) 0 = some { quietPF with d3 := true } ∧
      { quietPF with d3 := true }.d3 = true) := by decide +kernel

/-- A push queue in slot 3 whose window is read; sizes and offsets that BAR0 does not take; a count that an event raised in the slot of its read. -/
theorem test_meets_Registers_more :
    (let q : Sq := { aPush with entries := Memory.ofBytes [4, 5, 6] }
     let fn : Func := { quietPF with sqs := [(3, q), (5, aRing)] }
     let s := vfState upPort fn none
     answers s 0 = some fn ∧ fn.d3 = false ∧ fn.sqs.find 3 = some q ∧ q.push = true ∧ 3 < 16 ∧ 4094 + 2 ≤ 4096 ∧
      (∀ x ∈ fn.sqs, x.1 = 5 → x.2.push = false) ∧ fn.sqs.find 16 = none) ∧
    (2 ≠ 4 ∧ 2 ≠ 8 ∧ 0x14 % 8 ≠ 0 ∧ 0xFF8 % 8 = 0 ∧ 0xFF8 < 0x1000) ∧
    (let s : State := { readyWith [] with fresh := [{ block := .vlt, off := 0x64, pos := 0, amount := 3 }] }
     3 < 2 ^ 32 ∧ s.fresh = [{ block := .vlt, off := 0x64, pos := 0, amount := 3 }] ∧ (readyWith []).fresh = []) := by decide +kernel

/-- Windows that a commit disables, keeps, makes, and leaves short of frames. -/
theorem test_meets_WindowsAndAdmission :
    let win : Window → State := fun x => { readyWith [] with funcs := [(0, { aFunc with windows := [(15, x)] })] }
    (∀ x ∈ [({} : Window), { shEn := true, en := true, shSize := 8192, size := 8192 }, { shEn := true, shSize := 8192, commitPend := true },
        { shEn := true, shSize := 4096 * 13000000, commitPend := true }],
      fnOf (win x) 0 = some { aFunc with windows := [(15, x)] } ∧ 15 < 16 ∧ winOf { aFunc with windows := [(15, x)] } 15 = x ∧
      x.commitWait = []) ∧
    ((winFrames (8192 / 4096) (win {})).isSome = true ∧ winFrames 13000000 (win {}) = none) ∧
    ((50#32).toNat % 64 ≤ 50 ∧ 50 < (51#32).toNat % 64) ∧ (7 < 8 ∧ 8 ≤ 8) := by decide +kernel

/-- A state of port 0 with its PF and a mailbox. -/
def boxState (i : Nat) (b : Mailbox) : State := { vfState upPort quietPF none with mbx := { boxes := [(i, b)] } }
def fullBox (i : Nat) : Mailbox := { fixedBox i with full := true, poster := 1, due := 0 }

theorem test_meets_Mailboxes :
    (∀ i ∈ [0, 63], i < 64) ∧
    (let free := boxState 0 (fixedBox 0)
     let mine := boxState 0 { fixedBox 0 with owner := 1 }
     agentUp free 1 = true ∧ isSender (boxOf free 0) 1 = true ∧ (boxOf free 0).owner = 0 ∧ (boxOf mine 0).owner ≠ 0 ∧
      isSender (boxOf free 63) 1 = false ∧ isRecv (boxOf free 63) 1 = false ∧ (boxOf mine 0).owner = 1 ∧
      (boxOf mine 0).full = false ∧ (1#32).getLsbD 0 = true) ∧
    (let s := boxState 0 (fullBox 0)
     isRecv (boxOf s 0) 1025 = true ∧ agentUp s 1025 = true ∧ (boxOf s 0).full = true ∧ (boxOf s 0).posterReset = false ∧
      due s (boxOf s 0).due = true) ∧
    (let s := boxState 16 { fixedBox 16 with full := true, poster := 1025 }
     isRecv (boxOf s 16) 1027 = true ∧ agentUp s 1027 = true ∧ 512 < (boxOf s 16).poster) ∧
    (let s := { boxState 0 (fixedBox 0) with mbx := { notices := [(7, [5])] } }
     15 = 8 + 7 ∧ 7 < 8 ∧ s.mbx.unattended = false ∧ (boxOf s 15).full = false ∧ noticesOf s 7 = 5 :: []) := by decide +kernel

/-- A taken message in the slot of its bound and in the next; agents that read. -/
theorem test_meets_Mailboxes_late :
    let s := boxState 0 (fullBox 0)
    let t : State := { s with tt := { slot := 1 } }
    past s (boxOf s 0).due = false ∧ past t (boxOf t 0).due = true ∧ (boxOf t 0).full = true ∧ isRecv (boxOf t 0) 1025 = true ∧
      agentUp t 1025 = true ∧ agentReads s 1 = true ∧ agentReads s 1025 = true ∧ (0x1000#32).toNat % 4096 = 0 ∧ (1#32).toNat % 4096 ≠ 0 := by
  decide +kernel

theorem test_meets_Heartbeat :
    let hb : Mailboxes → State := fun m => { readyWith [] with mbx := m, pwr := { (readyWith []).pwr with fwBeat := true } }
    (hb {}).mbx.unattended = false ∧
    (let s := hb { unattended := true, reloading := true, reloadDue := 0 }
     s.mbx.unattended = true ∧ s.mbx.reloading = true ∧ s.mbx.gaveUp = false ∧ due s s.mbx.reloadDue = true) ∧
    ((hb { hbDue := 0 }).pwr.fwBeat = true ∧ due (hb { hbDue := 0 }) (hb { hbDue := 0 }).mbx.hbDue = true ∧
      (hb { hb := 1, hbSeen := 0 }).mbx.hb ≠ (hb { hb := 1, hbSeen := 0 }).mbx.hbSeen ∧
      (hb { hbFails := 1 }).mbx.hb = (hb { hbFails := 1 }).mbx.hbSeen ∧ 1 ≤ (hb { hbFails := 1 }).mbx.hbFails) ∧
    (let s : State := { hb { lapsed := true } with tt := { running := true } }
     s.mbx.lapsed = true ∧ s.tt.running = true ∧ s.tt.slot + 1 < slotsOf s.tt.kActive ∧ s.pending = []) ∧
    (0 + 1 < 3 ∧ 3 ≤ 2 + 1) := by decide +kernel

/-- Port 0's request mailbox holds a message. -/
def askState (m : Nat) : State := boxState 0 { fullBox 0 with msg := BitVec.ofNat 512 m }
/-- ADMIN_INIT: rings of 16 and 65,536 entries, vector 2,047, interrupts on, and its three addresses. -/
def initMsg : Nat := 1 + 4 * 2 ^ 16 + 16 * 2 ^ 24 + 2047 * 2 ^ 32 + 2 ^ 48 + 0x1000 * 2 ^ 64 + 0x2000 * 2 ^ 128 + 0x3000 * 2 ^ 192 + 64 * 2 ^ 256
/-- BIND: the signal box receives, PF 0 sends by view 15. -/
def bindMsg : Nat := 2 + 1025 * 2 ^ 16 + 2 ^ 64 + 15 * 2 ^ 80

theorem test_meets_MailboxRequests :
    (let s := askState initMsg
     canTake s 0 = true ∧ (boxOf s 0).msg.toNat % 256 = 1 ∧ fnOf s (64 * 0) = some quietPF ∧ s.pwr.devState = .ready ∧
      adminInitOk (boxOf s 0).msg = true ∧ quietPF.sqs.find 0 = none) ∧
    (adminInitOk (boxOf (askState 1) 0).msg = false ∧ (askState 1).pwr.devState ≠ .starting ∧
      (askState 1).pwr.devState ≠ .off ∧ canTake (askState 1) 0 = true) ∧
    (let s := askState bindMsg
     canTake s 0 = true ∧ (boxOf s 0).msg.toNat % 256 = 2 ∧ freeBox s = some 18 ∧ bindOk s 0 (boxOf s 0).msg = true ∧
      bindOk (askState 2) 0 (boxOf (askState 2) 0).msg = false) ∧
    (let s := { askState (3 + 63 * 2 ^ 8) with
      mbx := { boxes := [(0, { fullBox 0 with msg := BitVec.ofNat 512 (3 + 63 * 2 ^ 8) }), (63, { boundBy := some 0, bound := true })] } }
     canTake s 0 = true ∧ (boxOf s 0).msg.toNat % 256 = 3 ∧ msgField (boxOf s 0).msg 1 1 = 63 ∧
      (boxOf s 63).boundBy = some (64 * 0) ∧ msgField (boxOf s 0).msg 5 3 = 0 ∧ msgField (boxOf s 0).msg 0x18 40 = 0 ∧ 18 ≤ 63 ∧
      Tab.sorted s.mbx.boxes = true ∧ (boxOf (askState 3) 0).boundBy ≠ some (64 * 0)) ∧
    (∀ k ∈ [0, 4, 255], (boxOf (askState k) 0).msg.toNat % 256 = k ∧ canTake (askState k) 0 = true ∧ k ≠ 1 ∧ k ≠ 2 ∧ k ≠ 3) := by
  decide +kernel

/-- An I/O command of one block at LBA 5 of volume 7, its 4,096 bytes at 0x8000; the flags set in the first word. -/
def ioCmdCtx (opc : Nat) : Ctx :=
  { aCtx with cmd := BitVec.ofNat 512 (opc + 7 * 2 ^ 32 + 5 * 2 ^ 64 + 0x8000 * 2 ^ 192 + 4096 * 2 ^ 256), g := [] }
def ioState (c : Ctx) : State := { readyWith [(0, c)] with cache := { frames := [(2, { key := some (7, 5), data := Memory.ofBytes [9] })] } }
/-- The blocks of the one stripe that the command's range touches, as a VERIFY brings them; its strips are of one block. -/
def verifyLanes (d : Nat → Memory) : List LaneRead :=
  (List.range 5).map fun i => let p := place smallGroup 262147 i
    { index := p.member, lba := memberLba smallGroup p.row 0, event := .ok (d i) }
def verifyState : State := { ioState (ioCmdCtx 6) with groups := [(0, smallGroup)] }
/-- Data 1, 2, 4 and its P and Q. -/
def soundLanes (i : Nat) : Memory :=
  let ds := [Memory.ofBytes [1], Memory.ofBytes [2], Memory.ofBytes [4]]
  if i = 3 then xorFrames ds else if i = 4 then weightedFrames (indexed ds) else ds.getD i {}

theorem test_meets_IoCommands :
    (∀ opc ∈ [1, 2, 3, 4, 5, 6, 3 + 2 ^ 10], let c := ioCmdCtx opc
     ioCtx (ioState c) 0 (opc % 256) = some c ∧ c.vol = some 7 ∧ (ioState c).vols.find 7 = some aVol ∧
      flrNow (ioState c) c.func.toNat = false ∧ c.h = [] ∧ c.pinned = [] ∧ c.writeBack = true ∧ locksHeld (ioState c) 0 = [] ∧
      recsOf (ioState c) 0 = [] ∧ (ioState c).vlt.pfail = false ∧ c.flushWait = [] ∧ eBlocks c.cmd = 1 ∧
      eFlag c.cmd 10 = decide (255 < opc)) ∧
    (∃ q k, sqOf (ioState (ioCmdCtx 1)) 0 (1 % 64) = some q ∧ cqOf (ioState (ioCmdCtx 1)) 0 q.cqSlot = some k) ∧
    (∀ opc ∈ [1, 2], let c := ioCmdCtx opc
     eDpk c.cmd = 0 ∧ eBits c.cmd 32 0 32 = 4096 ∧ atsPasid (ioState c) c = none ∧ aVol.pi = false ∧ fnOf (ioState c) 0 = some aFunc ∧
      upstreamOk (ioState c) aFunc = true ∧ 1 ≤ aFunc.mps ∧ callocRoom (ioState c) c 1 = true ∧ takeFrame (ioState c) = some 0) ∧
    (let s := ioState (ioCmdCtx 1)
     s.groups.find 0 = some aGroup ∧ servedBy s 7 5 = some { key := some (7, 5), data := Memory.ofBytes [9] } ∧ inPoisonList s 7 5 = false) ∧
    (let c := { ioCmdCtx (3 + 2 ^ 10) with flushWait := [(7, 5)] }
     ioCtx (ioState c) 0 3 = some c ∧ c.flushWait ≠ []) := by
  refine ⟨by decide +kernel, ⟨_, _, rfl, rfl⟩, by decide +kernel⟩

/-- A state all of whose frames are pinned. -/
def crowded (s : State) : State := { s with cache := { s.cache with frames := List.replicate Config.frames (0, { pins := 1 }) } }
theorem crowded_avail (s : State) : framesAvail (crowded s) = 0 := by
  unfold framesAvail crowded
  simp [evictable]

/-- A WRITE that finds no frame. -/
theorem test_meets_IoCommands_short :
    ioCtx (crowded (ioState (ioCmdCtx 2))) 0 2 = some (ioCmdCtx 2) ∧ aVol.pi = false ∧
    callocRoom (crowded (ioState (ioCmdCtx 2))) (ioCmdCtx 2) 1 = false := by
  refine ⟨by decide +kernel, rfl, ?_⟩
  unfold callocRoom
  rw [crowded_avail]
  decide

/-- Strips that agree, and strips whose P alone is wrong, which members in service take back. -/
theorem test_meets_IoCommands_verify :
    let wrongP : Nat → Memory := fun i => if i = 3 then Memory.ofBytes [77] else soundLanes i
    (ioCtx verifyState 0 6 = some (ioCmdCtx 6) ∧ verifyState.groups.find 0 = some smallGroup ∧
      rangeUnits smallGroup aVol (ioCmdCtx 6).cmd = [(262147, 0)] ∧ lockOf verifyState 0 262147 = none ∧ aVol.pi = false ∧
      ∀ x ∈ verifyState.vols, x.2.pi = false) ∧
    (∀ i < 3 + 2, verifyStrips verifyState 0 smallGroup (verifyLanes soundLanes) 262147 0 i = .data (soundLanes i)) ∧
    (∀ i < 3 + 2, verifyStrips verifyState 0 smallGroup (verifyLanes wrongP) 262147 0 i = .data (wrongP i)) ∧
    (soundLanes 3 = xorFrames ((List.range 3).map soundLanes) ∧
      soundLanes 4 = weightedFrames (indexed ((List.range 3).map soundLanes)) ∧ Memory.ofBytes [77] ≠ soundLanes 3) ∧
    (rewriteRoom verifyState 2 = true ∧ (∀ i ∈ [3, 4], takesReplay verifyState smallGroup (place smallGroup 262147 i).member = true) ∧
      lanesTaken { verifyState with mports := [] } smallGroup 262147 [(3, {}), (4, {})] = [] ∧
      Tab.sorted verifyState.cache.frames = true ∧ ∀ x ∈ verifyState.cache.frames, x.1 < Config.frames) := by decide +kernel

/-- An admin entry: opcode, VOL, LBA, NBLK, the length of its data at 0x4000 (0: none), and bytes 40 to 63. -/
def adminEnt (opc vol lba nblk len tail : Nat) : BitVec 512 :=
  BitVec.ofNat 512 (opc + 0x1234 * 2 ^ 16 + vol * 2 ^ 32 + lba * 2 ^ 64 + nblk * 2 ^ 128 + (if len = 0 then 0 else 0x4000 * 2 ^ 192) +
    len * 2 ^ 256 + tail * 2 ^ 320)
/-- The value v of a field at byte k of an entry. -/
def at40 (k v : Nat) : Nat := v * 2 ^ (8 * (k - 40))
def adminOf (e : BitVec 512) (data : List Byte) : AdminCmd := { port := 0, entry := e, vis := 0, data := data, poisoned := false }
/-- A PF with its admin queue pair. -/
def adminFunc : Func :=
  { aFunc with
    sqs := (0, { push := false, cls := .standard, cqSlot := 0, log2 := 4, base := 0x30000, pollInt := 0, pasid := none, quota := 0 }) :: aFunc.sqs
    cqs := (0, { log2 := 4, base := 0x40000, ien := false, vec := 0, ivCount := 1, ivDelay := 0 }) :: aFunc.cqs }
/-- A part in Ready with a handler route 16, whose admin queue of port 0 holds one command. -/
def adminState (a : AdminCmd) : State :=
  { vfState upPort adminFunc none with progs := { loaded := [(5, workProg)] }, mbx := { adminQ := [a] } }
def adminReadyB (a : AdminCmd) (opc : Nat) (fm : AdminForm) (s : State) : Bool :=
  ((adminHead s a.port).any fun q => q.entry == a.entry) && !frozen s && !s.mbx.unattended && (eOpc a.entry == opc) && adminRsvdOk a.entry fm &&
    decide (a.port < 8) && !flrNow s (64 * a.port) && (fm.dir == .none || (pfUp s a.port && (eDpk a.entry != 1 ||
      (decide (a.list.length = 16 * eBits a.entry 32 0 16) && listOk (adminList a) (adminLen a))))) &&
    (fm.dir != .fromHost || (!a.poisoned && decide (a.data.length = adminLen a)))

theorem ready_of {a : AdminCmd} {opc : Nat} {fm : AdminForm} {s : State} (h : adminReadyB a opc fm s = true) : AdminReady a opc fm s := by
  simp only [adminReadyB, Bool.and_eq_true, decide_eq_true_eq, beq_iff_eq, Bool.not_eq_true', Bool.or_eq_true, bne_iff_ne] at h
  obtain ⟨⟨⟨⟨⟨⟨⟨⟨h1, h2⟩, h3⟩, h4⟩, h5⟩, h6⟩, h7⟩, h8⟩, h9⟩ := h
  refine ⟨?_, h2, h3, h4, h5, h6, h7, fun hd => ?_, fun hd => h9.resolve_left fun hn => hn hd⟩
  case refine_2 => exact (h8.resolve_left hd).imp_right fun h h1 => (h.resolve_left fun hn => hn h1)
  cases hq : adminHead s a.port with
  | none => simp [hq] at h1
  | some q => exact ⟨q, rfl, by simpa [hq] using h1⟩

/-- The completion ring that the clauses on ends speak of is there. -/
theorem test_meets_AdminEnds :
    let s := adminState (adminOf 0 [])
    ∃ q k, sqOf s (64 * 0) 0 = some q ∧ cqOf s (64 * 0) q.cqSlot = some k := ⟨_, _, rfl, rfl⟩

/-- CREATE_VOLUME of volume 9 in group 0: action, PI, blocks less one, function. -/
def cvCmd (act vol lba pi f : Nat) : AdminCmd :=
  adminOf (adminEnt 0x41 vol lba 0 0 (at40 40 act + at40 41 (8 * pi) + at40 42 f + at40 44 16)) []
/-- Group 0 with every extent zeroed, and the state a CREATE acts on. -/
def zeroedGroup : Group := { aGroup with zeroFrom := 64, zeroPlan := 64 }
def cvState (a : AdminCmd) : State := { adminState a with groups := [(0, zeroedGroup)] }

theorem test_meets_AdminVolumes :
    (∀ len ∈ [4092, 4096], AdminReady (adminOf (adminEnt 0x40 7 0 0 len 0) []) 0x40 { vol := true, dir := .toHost }
      (adminState (adminOf (adminEnt 0x40 7 0 0 len 0) []))) ∧
    (∀ x ∈ [(0, 9), (0, 7), (3, 9), (1, 7), (2, 7), (1, 9), (2, 9)], AdminReady (cvCmd x.1 x.2 0 0 0) 0x41 cvForm (adminState (cvCmd x.1 x.2 0 0 0))) ∧
    (∀ x ∈ [(0, 262143), (1, 262143), (0, 262144), (1, 262144), (0, 2 ^ 40)],
      AdminReady (cvCmd 0 9 x.2 x.1 0) 0x41 cvForm (cvState (cvCmd 0 9 x.2 x.1 0))) ∧
    AdminReady (adminOf (adminEnt 0x42 7 0 0 0 0) []) 0x42 { vol := true } (adminState (adminOf (adminEnt 0x42 7 0 0 0 0) [])) ∧
    (∀ r ∈ [16, 0xFFFF], AdminReady (adminOf (adminEnt 0x47 7 0 0 0 (at40 40 r)) []) 0x47 { vol := true, tail := [(40, 0, 16)] }
      (adminState (adminOf (adminEnt 0x47 7 0 0 0 (at40 40 r)) []))) := by
  refine ⟨?_, ?_, ?_, ready_of (by decide +kernel), ?_⟩ <;> refine fun x hx => ready_of ?_ <;>
    (revert x; decide +kernel)

/-- The same states with what the clauses ask besides. -/
theorem test_meets_AdminVolumes_rest :
    (∀ len ∈ [4092, 4096], adminLen (adminOf (adminEnt 0x40 7 0 0 len 0) []) = len) ∧ eVol (adminEnt 0x40 7 0 0 4096 0) = 7 ∧
    (∀ x ∈ [(0, 9), (0, 7), (3, 9), (1, 7), (2, 7), (1, 9), (2, 9)], let e := (cvCmd x.1 x.2 0 0 0).entry
     cvAction e = x.1 ∧ eVol e = x.2 ∧ eLba e = 0 ∧ eBits e 41 0 3 = 0 ∧ cvFunc e = 0) ∧
    (let s := adminState (adminOf 0 [])
     s.vols.find 9 = none ∧ s.vols.find 7 = some aVol ∧ usableVol s 7 = some aVol ∧ usableVol s 9 = none ∧ s.groups.find 0 = some aGroup ∧
      aGroup.assembly = .assembled ∧ outF aGroup < 2 ∧ 2 ≤ outF { aGroup with extraFailed := [1, 2] } ∧ fnOf s 0 = some adminFunc ∧
      0 ∈ aVol.attached ∧ aVol.detachWait = [] ∧ volBusy s 7 (some 0) = false ∧ volBusy s 7 none = false ∧ Tab.sorted s.vols = true ∧
      routeFits s 16 aGroup = true ∧ routeFits s 0xFFFF aGroup = false ∧
      volBusy { s with ctxs := [(0, aCtx)] } 7 (some 0) = true ∧ volBusy { s with ctxs := [(0, aCtx)] } 7 none = true ∧
      sumsFit (updVol s 7 fun v => { v with attached := v.attached ++ [1] }) = true) ∧
    (∀ x ∈ [(0, 262143, 1), (1, 262143, 2), (0, 262144, 2), (1, 262144, 3)],
      let u := adminTake (cvState (cvCmd 0 9 x.2.1 x.1 0)) 0
      (u.groups.find 0 = some zeroedGroup ∧ zeroedGroup.assembly = .assembled ∧ outF zeroedGroup < 2) ∧
      ((createdVol u (cvCmd 0 9 x.2.1 x.1 0).entry 0 zeroedGroup).any fun y => routeFits u y.1.route zeroedGroup &&
        sumsFit { u with vols := u.vols.put 9 y.1, groups := u.groups.put 0 y.2 } &&
        decide (y.1.extents.length + y.1.piExtents.length = x.2.2)) = true) ∧
    createdVol (adminState (adminOf 0 [])) (cvCmd 0 9 (2 ^ 40) 0 0).entry 0 aGroup = none := by decide +kernel

/-- A volume that an attachment's sums do not admit, routes that a CREATE cannot take, a number freed in this cycle, a volume that is being filled. -/
theorem test_meets_AdminVolumes_more :
    let cvr : Nat → Nat → AdminCmd := fun r f => adminOf (adminEnt 0x41 9 262143 0 0 (at40 42 f + at40 44 r)) []
    let e : ExpQ := { sqid := 64, func := 1, hit := 5000, miss := 60000, write := 60000 }
    let tight : State → State := fun s => { s with
      ports := [(0, { upPort with vfEnable := true, numVfs := 1 })], adm := { s.adm with exp := [(0, e)] }
      funcs := s.funcs.put 1 { exists_ := true, sqs := [(0, { aRing with cls := .express })] } }
    (∀ x ∈ [(17, 0), (16, 5)], adminReadyB (cvr x.1 x.2) 0x41 cvForm (cvState (cvr x.1 x.2)) = true ∧
      (createdVol (adminTake (cvState (cvr x.1 x.2)) 0) (cvr x.1 x.2).entry 0 zeroedGroup).isSome = true) ∧
    routeFits (cvState (adminOf 0 [])) 17 zeroedGroup = false ∧ fnOf (cvState (adminOf 0 [])) 5 = none ∧
    (let a := cvCmd 1 7 0 0 1
     let s := tight (adminState a)
     adminReadyB a 0x41 cvForm s = true ∧ usableVol s 7 = some aVol ∧ (fnOf s 1).isSome = true ∧ 1 ∉ aVol.attached ∧
      sumsFit (updVol (adminTake s 0) 7 fun v => { v with attached := v.attached ++ [1] }) = false) ∧
    9 ∈ ({ cvState (adminOf 0 []) with freedVols := [9] } : State).freedVols ∧
    ({ aVol with fill := some { cmd := none } } : Volume).fill.isSome = true ∧
    (let a := adminOf (adminEnt 0x47 9 0 0 0 (at40 40 16)) []
     adminReadyB a 0x47 { vol := true, tail := [(40, 0, 16)] } (adminState a) = true ∧ usableVol (adminState a) 9 = none) ∧
    (let a := adminOf (adminEnt 0x42 9 0 0 0 0) []
     adminReadyB a 0x42 { vol := true } (adminState a) = true ∧ usableVol (adminState a) 9 = none) := by decide +kernel

/-- CREATE_QUEUE: kind, slot, log2, class, ring slot; the ring's quota or interrupt fields. -/
def cqCmd (kind slot log2 cls cq quota : Nat) : AdminCmd :=
  adminOf (adminEnt 0x43 0 (if kind = 2 then 0 else 0x70) quota 0 (at40 40 (kind * 2 ^ 9 + slot * 2 ^ 11 + log2 * 2 ^ 17 + cls * 2 ^ 22 + cq * 2 ^ 24) +
    at40 58 9)) []
def cqCmds : List AdminCmd := [cqCmd 0 63 16 0 0 0, cqCmd 1 2 4 1 2 15, cqCmd 1 63 16 0 2 0, cqCmd 2 63 0 0 2 0, cqCmd 0 2 16 0 0 0, cqCmd 3 5 4 0 0 0]
def pwCmd (rung dwell : Nat) : AdminCmd := adminOf (adminEnt 0x44 0 0 0 0 (at40 40 rung + at40 42 dwell)) []
def logCmd (id off len : Nat) : AdminCmd := adminOf (adminEnt 0x45 0 0 0 len (at40 40 id + at40 44 off)) []
def tokCmd (kind target hit bulk : Nat) : AdminCmd := adminOf (adminEnt 0x48 0 0 0 0 (at40 40 target + at40 42 kind + at40 44 hit + at40 56 bulk)) []
/-- A part whose PF has an Express ring in slot 1. -/
def tokState (a : AdminCmd) : State :=
  { adminState a with funcs := [(0, { adminFunc with sqs := [(0, { aRing with cqSlot := 0 }), (1, { aRing with cls := .express })] })] }

theorem test_meets_AdminSettings :
    (∀ a ∈ cqCmds, AdminReady a 0x43 cqForm (adminState a)) ∧
    (∀ x ∈ [(0, 1), (4, 65535), (5, 1), (1, 0)], AdminReady (pwCmd x.1 x.2) 0x44 spForm (adminState (pwCmd x.1 x.2))) ∧
    (∀ x ∈ [(1, 0, 64), (4, 64, 131072), (0, 0, 64), (5, 0, 64), (1, 32, 64), (1, 0, 131136), (1, 0, 96)],
      AdminReady (logCmd x.1 x.2.1 x.2.2) 0x45 glForm (adminState (logCmd x.1 x.2.1 x.2.2))) ∧
    (∀ x ∈ [(0, 1, 5, 0), (0, 1, 5, 1), (0, 2, 5, 0), (1, 0, 5, 7), (0, 4096, 0, 0), (1, 64, 0, 0)],
      AdminReady (tokCmd x.1 x.2.1 x.2.2.1 x.2.2.2) 0x48 stForm (tokState (tokCmd x.1 x.2.1 x.2.2.1 x.2.2.2))) := by
  refine ⟨?_, ?_, ?_, ?_⟩ <;> refine fun x hx => ready_of ?_ <;>
    (revert x; decide +kernel)

theorem test_meets_AdminSettings_rest :
    (cqCmds.map fun a => queueOk (adminState a) 0 (queueSpec a.entry)) = [true, true, true, true, false, false] ∧
    (cqCmds.map fun a => ((queueSpec a.entry).kind, (queueSpec a.entry).cls)) = [(0, 0), (1, 1), (1, 0), (2, 0), (0, 0), (3, 0)] ∧
    ([(0, 1), (1, 65535), (4, 1)].map fun x => let s := adminState (adminOf 0 [])
      decide (targetRung { s with pwr := { s.pwr with setRung := BitVec.ofNat 3 x.1, setDwell := BitVec.ofNat 16 x.2, setWaiters := [] } } = 0)) =
      [true, false, false] ∧ (adminState (adminOf 0 [])).pwr.setWaiters = [] ∧
    ([(1, 0, 64), (4, 64, 131072)].map fun x => let a := logCmd x.1 x.2.1 x.2.2
      (eBits a.entry 40 0 8, eBits a.entry 44 0 32, adminLen a)) = [(1, 0, 64), (4, 64, 131072)] ∧
    ([(0, 1, 5, 0), (0, 1, 5, 1), (0, 2, 5, 0), (1, 0, 5, 7), (0, 4096, 0, 0), (1, 64, 0, 0)].map fun x =>
      let a := tokCmd x.1 x.2.1 x.2.2.1 x.2.2.2
      let r := tokenReq a.entry
      let u := adminTake (tokState a) 0
      (r.kind, ownFunc (tokState a) 0 (if r.kind = 0 then r.target / 64 else r.target), r.v.2.2.2,
        (setExpress u r.target r.v.1 r.v.2.1 r.v.2.2.1).isSome)) =
      [(0, true, 0, true), (0, true, 1, true), (0, true, 0, false), (1, true, 7, false), (0, false, 0, false), (1, false, 0, false)] := by
  decide +kernel

/-- Heads of the admin ring that every command is turned away by, and those that wait: a GET_LOG of 64 bytes by list, and LOAD_PROGRAM. -/
theorem test_meets_AdminSettings_shared :
    let lst : List Byte → Nat → AdminCmd := fun bs n => { adminOf (adminEnt 0x45 0 0 0 n (at40 40 1) ||| 0x100) [] with list := bs }
    let head : AdminCmd → State → Prop := fun a s => ((adminHead s a.port).map fun q => q.entry) = some a.entry ∧ a.port < 8 ∧ flrNow s (64 * a.port) = false
    let log := logCmd 1 0 64
    let s := adminState log
    (adminRowOf (.getLog log) = some (log, true, glForm) ∧ head log s ∧ frozen s = false ∧ s.mbx.unattended = false ∧
      adminRsvdOk log.entry glForm = true ∧ glForm.dir ≠ .none ∧ pfUp s 0 = true) ∧
    frozen { s with vlt := { pfail := true } } = true ∧ ({ s with mbx := { unattended := true } } : State).mbx.unattended = true ∧
    adminRsvdOk (log.entry ||| 0x8000) glForm = false ∧ pfUp { s with funcs := [(0, { adminFunc with bme := false })] } 0 = false ∧
    (let a := lst [] 1
     eDpk a.entry = 1 ∧ a.list.length ≠ 16 * eBits a.entry 32 0 16 ∧ head a (adminState a)) ∧
    (let a := lst (List.replicate 16 0) 1
     eDpk a.entry = 1 ∧ a.list.length = 16 * eBits a.entry 32 0 16 ∧ listOk (adminList a) (adminLen a) = false ∧ head a (adminState a)) ∧
    (let a := adminOf (adminEnt 0x46 0 0 0 280 (at40 40 2)) []
     eDpk a.entry = 0 ∧ a.poisoned = false ∧ a.data.length ≠ adminLen a ∧ ({ a with poisoned := true } : AdminCmd).poisoned = true ∧
      head a (adminState a) ∧ adminRsvdOk a.entry lpForm = true ∧ lpForm.dir = .fromHost) := by decide +kernel

/-- SET_TIMETABLE with SEL: nothing, every change but the load and the plan, all, one field out of place, and one range broken. -/
def ttSel (sel load nom k out width per cnt : Nat) (data : List Byte) : AdminCmd :=
  adminOf (adminEnt 0x4B 0 load 0 data.length (at40 40 sel + at40 42 (k + 32 * (sel / 32 % 2) + 128 * out + 256 * (sel / 128 % 2)) + at40 44 nom +
    at40 48 (if sel.testBit 2 then 65535 else 0) + at40 50 (if sel.testBit 3 then 1023 else 0) + at40 52 width + at40 54 per +
    at40 56 (if sel.testBit 8 then 4095 else 0) + at40 60 cnt)) data
def ttData : List Byte := leBytes 8 5 ++ leBytes 8 0 ++ leBytes 8 0x0001008A
def ttCmds : List AdminCmd :=
  [ttSel 0 0 0 0 0 0 0 0 [], ttSel 0x1BD 0 125000 12 1 2047 0 0 [], ttSel 0x1FE (2 ^ 44 - 1) 0 0 1 1 7 1 ttData,
   ttSel 0x1FF (2 ^ 44 - 1) 16000000 20 0 1 7 1 ttData, ttSel 0 0 125000 12 0 0 0 0 [], ttSel 0x10 0 0 0 1 0 0 0 []]

theorem test_meets_AdminSettings_timetable :
    ∀ a ∈ ttCmds, AdminReady a 0x4B (ttForm a.entry) (adminState a) :=
  fun a ha => ready_of (by revert a; decide +kernel)

theorem test_meets_AdminSettings_timetable_rest :
    (ttCmds.map fun a => let r := ttReq a.entry a.data
      decide (eLba a.entry < 2 ^ 44 ∧ (r.on 6 = true → adminLen a = 16 + 8 * r.count) ∧ r.ok (adminState a) = true)) =
      [true, true, true, true, false, false] ∧
    (ttCmds.map fun a => let r := ttReq a.entry a.data; (r.waits, r.on 0, r.on 1, r.on 6, r.on 3)).take 4 =
      [(false, false, false, false, false), (true, true, false, false, true), (true, false, true, true, true), (true, true, true, true, true)] := by
  decide +kernel

/-- SET_WINDOW of window 15: COMMIT, EN, size. -/
def winCmdOf (commit en size : Nat) : AdminCmd :=
  adminOf (adminEnt 0x4C 0 0 0 0 (at40 42 15 + at40 43 commit + at40 44 en + at40 48 size)) []
def winSetState (a : AdminCmd) (n : Nat) : State :=
  { adminState a with funcs := [(0, { adminFunc with windows := [(15, { en := n != 0, size := n })] })] }

theorem test_meets_AdminSettings_window :
    ∀ x ∈ [(0, 1, 8192), (1, 0, 0), (1, 1, 8192), (1, 1, 4096), (0, 1, 100), (1, 1, 2 ^ 31)],
      AdminReady (winCmdOf x.1 x.2.1 x.2.2) 0x4C swForm (winSetState (winCmdOf x.1 x.2.1 x.2.2) 8192) :=
  fun a ha => ready_of (by revert a; decide +kernel)

theorem test_meets_AdminSettings_window_rest :
    ([(0, 1, 8192), (1, 0, 0), (1, 1, 8192), (1, 1, 4096), (0, 1, 100), (1, 1, 2 ^ 31)].map fun x =>
      let a := winCmdOf x.1 x.2.1 x.2.2
      let s := winSetState a 8192
      let y := shadowSet a.entry (winOf { adminFunc with windows := [(15, { en := true, size := 8192 })] } 15)
      (windowOk s 0 a.entry, eBits a.entry 43 0 1, y.commitWait.length, y.shEn, y.en && y.shSize == y.size)) =
      [(true, 0, 0, true, true), (true, 1, 0, false, false), (true, 1, 0, true, true), (true, 1, 0, true, false), (false, 0, 0, true, false),
       (false, 1, 0, true, false)] ∧
    (winFrames (4096 / 4096) (winSetState (adminOf 0 []) 0)).isSome = true := by decide +kernel

/-- Frames are short when all of them are pinned. -/
theorem test_meets_AdminSettings_short (s : State) : winFrames (4096 / 4096) (crowded s) = none := by
  unfold winFrames
  rw [crowded_avail, if_neg (by decide)]

/-- An image of one word, a RET that is the MAP of layout route 0x20; and what CREATE_GROUP and LOAD_PROGRAM are given. -/
def tinyImage : List Byte :=
  leBytes 4 0x4750584A ++ leBytes 2 1 ++ leBytes 2 0x80 ++ leBytes 4 280 ++ leBytes 4 0x80 ++ leBytes 4 1 ++ leBytes 8 0 ++ leBytes 4 0x88 ++
    leBytes 2 1 ++ leBytes 2 1 ++ leBytes 4 0x98 ++ leBytes 88 0 ++ leBytes 8 0x2300000000000000 ++ leBytes 4 0 ++ leBytes 4 100 ++ leBytes 8 1 ++
    leBytes 2 0x20 ++ leBytes 2 1 ++ leBytes 2 0 ++ leBytes 26 (2 ^ 208 - 1) ++ leBytes 96 0
/-- LOAD_PROGRAM: number, FIRST and LAST, offset, total, data. -/
def lpCmd (n fl off total : Nat) (data : List Byte) : AdminCmd :=
  adminOf (adminEnt 0x46 0 0 0 data.length (at40 40 n + at40 42 fl + at40 44 off + at40 48 total)) data
/-- Program 2 has its first 8 bytes staged. -/
def lpState (a : AdminCmd) : State :=
  { adminState a with progs := { loaded := [(5, workProg)], staging := [(2, { total := 280, bytes := tinyImage.take 8 })] } }
def lpCmds : List AdminCmd :=
  [lpCmd 64 3 0 280 tinyImage, lpCmd 2 3 0 272 tinyImage, lpCmd 63 1 0 280 (tinyImage.take 8), lpCmd 2 2 8 280 (tinyImage.drop 8), lpCmd 2 3 0 280 tinyImage,
   lpCmd 0 3 0 280 tinyImage]
/-- CREATE_GROUP 1 of the nine ports from 20 on, or of fewer. -/
def cgCmd (n : Nat) : AdminCmd :=
  adminOf (adminEnt 0x49 0 0 0 0 (at40 40 1 + at40 41 n + at40 42 3 + at40 43 (14 + 32) + at40 44 2 + at40 52 ((2 ^ n - 1) * 2 ^ 20))) []
def cgProg : Program := { workProg with routes := workProg.routes ++ [{ workRoute1 with id := 2, layout := true, map := 0 }] }
def cgState (a : AdminCmd) : State :=
  { adminState a with
    progs := { loaded := [(5, cgProg)] }
    mports := (List.range 9).map fun i => (20 + i, { aMember 0 with state := 1, group := none }) }

theorem test_meets_MemberControls :
    (∀ n ∈ [9, 4], AdminReady (cgCmd n) 0x49 cgForm (cgState (cgCmd n))) ∧ (∀ a ∈ lpCmds, AdminReady a 0x46 lpForm (lpState a)) := by
  refine ⟨?_, ?_⟩ <;> refine fun x hx => ready_of ?_ <;>
    (revert x; decide +kernel)

theorem test_meets_MemberControls_rest :
    ([9, 4].map fun n => (groupReq (cgCmd n).entry).ok (cgState (cgCmd n))) = [true, false] ∧ Tab.sorted (lpState (adminOf 0 [])).progs.staging = true ∧
    (lpCmds.map fun a => let e := a.entry
      let u := adminTake (lpState a) 0
      let n := eBits e 40 0 16
      let seg := stageNext u n (eBits e 42 0 1 == 1) (eBits e 42 1 1 == 1) (eBits e 44 0 32) (eBits e 48 0 32) a.data
      (decide (n < 64), eBits e 42 0 2, seg.map fun x => x.bytes.length,
        seg.map fun x => (verify (dropStaging u n) n x.bytes).toOption.isSome)) =
      [(false, 3, some 280, some true), (true, 3, none, none), (true, 1, some 8, some false), (true, 2, some 280, some true),
       (true, 3, some 280, some true), (true, 3, some 280, some false)] := by decide +kernel

/-- MEMBER_CONTROL of port 10: action, A1, A2. -/
def mcCmd (k a1 a2 : Nat) : AdminCmd := adminOf (adminEnt 0x4A 0 0 0 0 (at40 40 10 + at40 41 k + at40 44 a1 + at40 48 a2)) []
def mcState (m : MPort) (g : Group) (a : AdminCmd) : State :=
  { adminState a with mports := [(10, m)], groups := [(0, g)] }
def loneMember : MPort := { aMember 0 with state := 1, group := none }
/-- Group 0 with indices 4 and 5 failed; the entry of 4 has passed its rows. -/
def worn : Group := { aGroup with history := [(0, { index := 4, watermark := 16384 })], extraFailed := [5] }

theorem test_meets_MemberControls_actions :
    (∀ k ∈ [0, 12, 255, 1, 2, 9, 10], AdminReady (mcCmd k 0 0) 0x4A mcForm (mcState (aMember 0) aGroup (mcCmd k 0 0))) ∧
    (∀ f ∈ [4, 5, 3], AdminReady (mcCmd 3 (256 * f) 0) 0x4A mcForm (mcState loneMember worn (mcCmd 3 (256 * f) 0))) ∧
    (∀ x ∈ [(4, 1000), (5, 7), (6, 0), (7, 0), (8, 1), (8, 2), (8, 4), (11, 2), (11, 3)],
      AdminReady (mcCmd x.1 x.2 0) 0x4A mcForm (mcState loneMember aGroup (mcCmd x.1 x.2 0))) := by
  refine ⟨?_, ?_, ?_⟩ <;> refine fun x hx => ready_of ?_ <;>
    (revert x; decide +kernel)

theorem test_meets_MemberControls_actions_rest :
    ([0, 12, 255, 1, 8].map fun k => (mcPort (mcCmd k 7 5).entry, mcAction (mcCmd k 7 5).entry, mcA1 (mcCmd k 7 5).entry, mcA2 (mcCmd k 7 5).entry)) =
      [(10, 0, 7, 5), (10, 12, 7, 5), (10, 255, 7, 5), (10, 1, 7, 5), (10, 8, 7, 5)] ∧
    (let s := mcState (aMember 0) aGroup (mcCmd 2 0 0)
     s.mports.find 10 = some (aMember 0) ∧ (aMember 0).state = 2 ∧ (aMember 0).contained = false ∧ loneMember.state = 1 ∧
      judged (aMember 0).state = true ∧ judged loneMember.state = false ∧ (aMember 0).group = some 0 ∧ s.groups.find 0 = some aGroup ∧
      outF aGroup < 2 ∧ 2 ≤ outF { aGroup with extraFailed := [4, 5] } ∧ (∀ x ∈ s.ctxs, ∀ i j l o, x.2.wait ≠ .retire i j l o)) ∧
    ([4, 5, 3].map fun f => let s := mcState loneMember worn (mcCmd 3 (256 * f) 0)
      (mayReplace s 10 loneMember 0 f worn, entryPassed worn f, decide (outF worn < 2))) =
      [(true, true, true), (true, false, true), (false, false, true)] ∧
    (let g := { worn with extraFailed := [5, 6] }
     mayReplace (mcState loneMember g (mcCmd 3 1024 0)) 10 loneMember 0 4 g = true ∧ entryPassed g 4 = true ∧ 2 ≤ outF g) ∧
    (let u := adminTake (mcState loneMember aGroup (mcCmd 4 1000 0)) 0
     (storeProfile u loneMember.model 1000 500).1 = .success ∧ loneMember.present = true ∧ { loneMember with present := false }.present = false ∧
      (storeProfile { u with pwr := { u.pwr with nvInhibit := true } } loneMember.model 1000 500).1 ≠ .success) ∧
    (let g := { aGroup with assembly := .foreign, groupId := 2 ^ 70 + 5 }
     let s := mcState (aMember 0) g (mcCmd 5 7 5)
     g.assembly = .foreign ∧ idMatches g 5 = true ∧ idMatches g 6 = false ∧ s.groups.find 7 = none ∧ aGroup.assembly ≠ .foreign ∧
      Tab.sorted s.groups = true) ∧
    (let g := { aGroup with assembly := .assembled, groupId := 5 }
     let s := { mcState (aMember 0) g (mcCmd 6 0 5) with vols := [] }
     (∀ v ∈ s.vols, v.2.group ≠ 0) ∧ idMatches g 5 = true ∧ (aMember 0).present = true) ∧
    (assembledOf (mcState (aMember 0) aGroup (mcCmd 9 0 0)) (aMember 0) = some 0 ∧
      assembledOf (mcState loneMember aGroup (mcCmd 9 0 0)) loneMember = none) ∧ 2 % 4 < 3 ∧ 3 % 4 = 3 := by
  repeat' first | decide +kernel | exact fun x hx => absurd hx (by simp [mcState, adminState, vfState, readyWith]) | constructor

/-- A port that may be formatted and one in containment. -/
theorem test_meets_MemberControls_states :
    loneMember.state = 1 ∧ ({ aMember 0 with contained := true } : MPort).contained = true ∧ ({ aMember 0 with state := 4 } : MPort).state = 4 ∧
    ({ aMember 0 with state := 5 } : MPort).state = 5 ∧ 2 ≤ 2 % 8 ∧ 4 % 8 ≤ 4 ∧ 1 % 8 < 2 ∧ 4 < 5 % 8 := by decide

/-- A port that is not there, a member of a group that is not, and a profile that the reserve does not hold. -/
theorem test_meets_MemberControls_more :
    (let a := mcCmd 9 0 0
     let s : State := { adminState a with mports := [], groups := [] }
     adminReadyB a 0x4A mcForm s = true ∧ s.mports.find (mcPort a.entry) = none ∧ memberActionOf (.memberControlScrub a) = some (a, 9) ∧
      s.groups.find 3 = none ∧ ((aMember 0).group.bind fun g => s.groups.find g) = none) ∧
    (let a := mcCmd 4 1000 0
     let s : State := { mcState loneMember aGroup a with pwr := { devState := .ready, nvInhibit := true } }
     adminReadyB a 0x4A mcForm s = true ∧ loneMember.present = true ∧
      (storeProfile (adminTake s 0) loneMember.model (mcA1 a.entry) (mcA2 a.entry % 2 ^ 32)).1 ≠ .success) := by decide +kernel

def gMsg (body : List Byte) : GMsg := { tag := 7, body := body }
def gState : State := adminState (adminOf 0 [])
def gPwr (p : Power) : State := { gState with pwr := p }
/-- A record of type 2 or 3 for record 1 or 9, or of a type that does not fit. -/
def tagBody (r type sig : Nat) : List Byte := leBytes 1 r ++ leBytes 256 type ++ leBytes sig 5
def ttBody : List Byte := leBytes 8 (2 ^ 44 - 1) ++ leBytes 2 0xA ++ leBytes 8 0 ++ leBytes 2 1023 ++ leBytes 12 0
def mcBody (k : Nat) : List Byte := leBytes 1 10 ++ leBytes 1 k ++ leBytes 14 0
def tokBody (kind target : Nat) : List Byte := leBytes 2 target ++ leBytes 2 kind ++ leBytes 16 9

theorem test_meets_GelbelMessages :
    (State.reset.pwr.devState = .off ∧ gState.pwr.devState ≠ .off ∧ gState.pwr.rung ≤ 1 ∧ gState.mbx.unattended = false ∧
      gState.pwr.devState ≠ .held ∧ gState.vlt.pfail = false) ∧
    (2 ≤ (gPwr { devState := .ready, rung := 2 }).pwr.rung ∧ { gState with mbx := { unattended := true } }.mbx.unattended = true) ∧
    (let s := gPwr { devState := .held, heldCode := 1 }
     s.pwr.devState ≠ .off ∧ s.pwr.rung ≤ 1 ∧ s.mbx.unattended = false ∧ s.pwr.devState = .held) ∧
    ((0 : Byte) = 0 ∧ 0x0D#8 < 0x0E#8 ∧ 0x0D#8 < 0xFF#8) ∧ ((gMsg [1]).body ≠ [] ∧ (gMsg []).body = []) ∧
    (let r := tagBody 1 2 0
     let q := tagBody 9 0x55 0
     r.length = 257 ∧ (tagBody 1 2 96).length = 353 ∧ (tagBody 9 2 96).length = 353 ∧ leNat (r.take 1) = 1 ∧
      tagTypeFits 1 (leNat (((r.drop 1).take 256).take 1)) = true ∧ tagTypeFits 9 (leNat (((q.drop 1).take 256).take 1)) = false ∧
      gState.pwr.nvInhibit = false ∧ gState.pwr.tagWorn.getLsbD 1 = false ∧ (gPwr { devState := .ready, tagWorn := 2 }).pwr.tagWorn.getLsbD 1 = true ∧
      (gPwr { devState := .ready, nvInhibit := true }).pwr.nvInhibit = true ∧ ownerKey gState = none) ∧
    ((∀ m ∈ [0, 0x800000], let b := leBytes 1 0 ++ leBytes 4 m
      b.length = 5 ∧ leNat ((b.drop 0).take 1) = 0 ∧ leNat ((b.drop 1).take 4) ≤ 0x800000) ∧
      gState.pwr.fwLen = none ∧
      (let s := gPwr { devState := .ready, fwLen := some 100 }
       let b := fun off n => leBytes 1 1 ++ leBytes 4 off ++ leBytes n 3
       s.pwr.fwLen = some 100 ∧ s.pwr.fwData.wf = true ∧ (b 0 100).length = 105 ∧ leNat (((b 0 100).drop 0).take 1) = 1 ∧
        leNat (((b 0 100).drop 1).take 4) + (105 - 5) ≤ 100 ∧ 100 < leNat (((b 0 101).drop 1).take 4) + ((b 0 101).length - 5) ∧
        (b 0 0).length = 5 ∧ (b 0 1000).length = 1005)) := by decide +kernel

theorem test_meets_GelbelMessages_commit :
    let x : SlotImage := { readOk := true, magicOk := true, sigOk := true, version := 3, svn := 2, libraryRefused := 0, libraryAt := 0, program0 := 0 }
    let s := gPwr { devState := .ready, fwLen := some 100, otp := 2 }
    s.pwr.fwLen.isSome = true ∧ x.readOk = true ∧ x.magicOk = true ∧ x.sigOk = true ∧ s.pwr.otp ≤ x.svn ∧ libraryKept s x = true ∧
      s.pwr.nvInhibit = false ∧ { x with svn := 1 }.svn < s.pwr.otp := by decide +kernel

/-- Message bodies that stand for admin commands. -/
theorem test_meets_GelbelMessages_admin :
    (let n := ttBody.length
     let a := gelbelEntry 0x08 7 (leNat (ttBody.take 8) % 2 ^ 44) (ttBody.drop 8)
     n = 32 ∧ leNat (ttBody.take 8) < 2 ^ 44 ∧ tailOk a (ttForm a.entry) = true ∧ (ttReq a.entry []).on 6 = false ∧
      (ttReq a.entry []).ok gState = true ∧ (ttReq a.entry []).waits = true) ∧
    (∀ k ∈ [0, 12, 255, 9, 10, 1], let a := gelbelEntry 0x0B 7 0 (mcBody k)
     (mcBody k).length = 16 ∧ tailOk a mcForm = true ∧ mcAction a.entry = k ∧ mcPort a.entry = 10) ∧
    gState.mports.find 10 = some (aMember 0) ∧ assembledOf gState (aMember 0) = some 0 ∧ gState.groups.find 0 = some aGroup ∧
    (∀ x ∈ [(1, 0), (1, 1)], let a := gelbelEntry 0x0C 7 0 (tokBody x.1 x.2)
     (tokBody x.1 x.2).length = 20 ∧
      tailOk a { tail := [(40, 0, 16), (42, 0, 1), (44, 0, 32), (48, 0, 32), (52, 0, 32), (56, 0, 32)] } = true ∧
      (tokenReq a.entry).kind = 1 ∧ (tokenReq a.entry).target = x.2) ∧
    fnOf gState 1 = none ∧ (fnOf gState 0).isSome = true := by decide +kernel

theorem test_meets_ServiceTerminal :
    State.reset.pwr.devState = .off ∧ gState.pwr.devState ≠ .off ∧ 2 ≤ (gPwr { devState := .ready, rung := 4 }).pwr.rung ∧ gState.pwr.rung < 2 ∧
    15 < 16 ∧ 16 ≤ 16 ∧ 256 ≤ 256 ∧ 0xFF00 + 256 ≤ 0x10000 ∧ 256 < 257 ∧ 0x10000 < 0xFF01 + 256 ∧ 10 < 72 ∧
    gState.mports.find 10 = some (aMember 0) ∧ 72 ≤ 72 ∧ 32 < 33 ∧ 32 ≤ 32 := by decide +kernel

theorem test_meets_Footprints : wordOf .uartHelp = none ∧ ∃ t, exec .uartHelp gState = .next t := ⟨rfl, _, rfl⟩
theorem test_meets_DeviceStateMoves :
    (∃ t, step State.reset = .next t) ∧ (∃ t, step { gState with pending := [.uartHelp] } = .next t) ∧
    TestHeld gState ∧ gState.pwr.otp ≤ 64 := ⟨⟨_, rfl⟩, ⟨_, rfl⟩, by simp [TestHeld, gState, adminState, vfState, readyWith], by decide⟩

/-! Worked examples of the manual. -/

/-- R36: the timestamp of cycle 1,234,567,890, slot 40,000, and those 6,554 and 30,000 slots later. -/
theorem test_timestamps :
    tsOf 1234567890 40000 = 0x000499602D209C40 ∧ tsAdd 16 0x000499602D209C40 6554 = 0x000499602D20B5DA ∧
    tsAdd 16 0x000499602D209C40 30000 = 0x000499602D301170 := by decide +kernel

/-- The ring of 16 of chapter 5: with CI 28 and PI 12 a doorbell of 13 is refused, with CI 30 it is taken. -/
theorem test_ring_of_16 :
    (match exec (.sqDoorbell 0 1 13) (sqState aRing) with
      | .next t => (sqOf t 0 1).map fun q => q.pi
      | _ => none) = some 12 ∧
    (match exec (.sqDoorbell 0 1 13) (sqState { aRing with ci := 30 }) with
      | .next t => (sqOf t 0 1).map fun q => q.pi
      | _ => none) = some 13 := by decide +kernel

/-- The stripe with w = 4 of chapter 7: P and Q, the update of D_2, and the rows of R220. -/
theorem test_parity_of_a_byte :
    let d : List Byte := [0x3C, 0xA5, 0x71, 0x0E]
    pOf d = 0xE6 ∧ qOf d = 0xC2 ∧ 0xE6#8 ^^^ (0x71 ^^^ 0x5B) = 0xCC ∧ 0xC2#8 ^^^ gmul (gpow 2) (0x71 ^^^ 0x5B) = 0x6A ∧
    gmul (gneg 1) 0x57 = 0xA5 ∧ gmul 0x0A 0xDD = 1 ∧ solve2 1 3 0xAB 0x27 = (0xA5, 0x0E) := by decide +kernel

/-- The layout n = 9, w = 3 of chapter 7: rows and members of group stripe 12. -/
theorem test_decluster_9_3 :
    let g : Geom := { n := 9, w := 3, stripLog2 := 16, spare := 1, seed := 0 }
    ([0, 1, 2, 3, 4].map (declusterPlace g 12)) = [(7, 5), (7, 6), (7, 7), (7, 8), (8, 1)] := by decide +kernel

/-- The example shelf of chapter 7: extents of the group, and the stripe, strip, block and row of a volume block. -/
theorem test_example_shelf :
    let g : Geom := { n := 36, w := 10, stripLog2 := 16, spare := 2, seed := 1 }
    let gr : Group := { aGroup with n := 36, w := 10, spare := 2, seed := 1 }
    let v : Volume := { aVol with blocks := 2 ^ 20, extents := [1, 2, 3, 41207] }
    g.rowsOf false 7500000000 = 2170063 * 216 ∧ g.extentsIn false (2170063 * 216) = 810298 ∧ g.es = 1639 ∧
    stripeOf gr v 1000000 = (67539607, 8, 0) ∧ (declusterPlace g 67539607 8).1 = 23837508 := by decide +kernel

/-- The 900-cycle plan of chapter 2: the entry of member port 6 and the plan position in cycle 1,234,567,890. -/
theorem test_plan_of_900 :
    planPos 0 1234567890 900 = 90 ∧ entryAt { State.reset.tt with planEn := true, planA := [(3, 0x00000018004B0086)], periodA := 899 } 6 1234567890 = some 3 ∧
    entryAt { State.reset.tt with planEn := true, planA := [(3, 0x00000018004B0086)], periodA := 899 } 6 1234567900 = none := by decide +kernel

/-- R80, R81: 100 µs at k = 16 and k = 17, and 1,190 core clocks. -/
theorem test_slots_of_times :
    slotsOfNs State.reset 100000 = 6554 ∧ slotsOfNs { State.reset with tt := { State.reset.tt with kActive := 17 } } 100000 = 13108 ∧
    slotsOfClocks State.reset 1190 = 52 := by decide +kernel

/-- The ceilings of chapter 3's example. -/
theorem test_ceilings :
    let c := ceilings { State.reset with vlt := { State.reset.vlt with budget := 13 * 2 ^ 30 } } 1000000
    c.eng = 24000000 ∧ c.mov = 62500 ∧ c.hbm = 292968 ∧ c.write = 26624 := by decide +kernel

/-- R190: a volume of 2 TiB with PI takes 2,048 and 4 extents. -/
theorem test_extents_of_2TiB : extentNeed 536870912 true = (2048, 4) := by decide +kernel

/-- The bank of chapter 10: 0.1 F, 50 V, and 12 GB/s give 13 GiB. -/
theorem test_bank_of_a_tenth :
    let v : Vault := { cMeas := 100000, vStart := 50000, vCut := 30000, pDump := 45000, tFixed := 1966080, ns0 := 89478485, ok0 := true }
    budgetBytes 1000000 16 { v with ns1 := 89478485, ok1 := true } = 13 * 2 ^ 30 := by decide +kernel

/-- R251: the word of ADD g3, g1, 160; and a BR by 5 words back. -/
theorem test_words :
    wordOp 0x00184001000000A0 = 0 ∧ (wordIns 0x00184001000000A0).d = 3 ∧ (wordIns 0x00184001000000A0).a = 1 ∧ (wordIns 0x00184001000000A0).mod = 1 ∧
    (wordIns 0x00184001000000A0).imm = 160 ∧ wordOk 0x00184001000000A0 = true ∧ wordOp 0x20000008FFFFFFFB = 0x20 ∧
    (wordIns 0x20000008FFFFFFFB).imm.toInt = -5 ∧ wordOk 0x20000008FFFFFFFB = true := by decide +kernel

/-! The first steps of MAP in chapter 8: the results of its thirteen instructions that a register step can show. -/

/-- The value that an engine instruction leaves in g5. -/
def leaves (c : Ins → Instr) (i : Ins) (x : Ctx) : Option Word :=
  match exec (c { i with d := 5 }) (oneCtx x) with
  | .next t => (t.ctxs.find 0).map fun y => greg y 5
  | _ => none
def mapStepRegs : Ctx := { aCtx with g := [(1, 1000000), (3, 67538273), (4, 213568), (6, 160), (7, 1334), (8, 41207), (9, 1639)] }

theorem test_first_steps_of_map :
    leaves .shr (insOf 1 18 5 1 0) mapStepRegs = some 3 ∧ leaves .and (insOf 1 0x3FFFF 5 1 0) mapStepRegs = some 213568 ∧
    leaves .mul (insOf 0 0 5 8 9) mapStepRegs = some 67538273 ∧ leaves .divu (insOf 0 0 5 4 6) mapStepRegs = some 1334 ∧
    leaves .add (insOf 0 0 5 3 7) mapStepRegs = some 67539607 ∧ leaves .remu (insOf 0 0 5 4 6) mapStepRegs = some 128 := by decide +kernel

/-! Commands that name what no 7240 has are ill-formed: one for each check. -/

theorem test_wf_refuses :
    ∀ c ∈ ([.flr 512, .sqDoorbell 0 64 0, .threadResume Config.sidings, .hotReset 8, .strayEvent 72, .scrubPassStart 8, .mbxTimeout 64, .mbxPost 0 0 1,
      .mbxPost 0 513 1, .mbxPost 0 1028 1, .moverResume 8, .moverChannelComplete 0 16, .winCommit 0 16, .destageCreate 0 (2 ^ 48),
      .memberTimeout 0 65536, .thermalTrip 12 0, .powerGoodFall 9, .dispatch 4, .slotAssign 4, .prgResponse 0 (2 ^ 20) 0 .success,
      .prgResponse 0 0 512 .success, .createVolumeCreate { aAdmin with port := 8 }, .tagRead { tag := 0, body := List.replicate 1013 0 },
      .readToClear (.fn 512) ⟨0, 4⟩, .readToClear (.mbx 64) ⟨0, 4⟩, .readToClear (.mov 8) ⟨0, 4⟩, .readToClear (.win 0 16) ⟨0, 4⟩, .readToClear (.cfg 512) ⟨0, 4⟩,
      .readToClear (.bar2 512) ⟨0, 8⟩, .readToClear (.rom 8) ⟨0, 64⟩, .genericRegisterWrite (.mbx 64) ⟨0, 4⟩ 0 false,
      .ttNowRead (.mirror 1) .full, .ttNowRead (.core 2) .full, .ttNowRead (.fnNow 512) .full, .selfTestStepDone 8 none, .selfTestStepDone 0 none,
      .cycleEdge [] 0, .vaultSsdChange 2 true 0 0, .patrolRead Config.frames 0 .clean, .patrolRead 0 64 .clean, .vfEnableWrite 0 true 64,
      .msixUnmask 0 (some 2048), .pushEntryWrite 0 0 4096 [1] false, .inlineBufferWrite 0 0 65536 [1] false, .atsInvalidate 0 32 0 1,
      .labelWriteCreate 0 72 0, .labelWriteCreate 0 0 5, .uartRb 65536 1, .uartRb 0 257, .uartTag 16, .uartLog 33, .hostLinkUp 0 0 5 true,
      .vltMeasure (2 ^ 17)] : List Instr), c.wf = false := by decide +kernel

theorem test_wf_takes :
    ∀ c ∈ ([.flr 511, .sqDoorbell 0 63 0, .threadResume (Config.sidings - 1), .mbxPost 0 512 1, .mbxPost 16 1027 1, .memberTimeout 71 65535,
      .createVolumeCreate { aAdmin with port := 7 }, .ttNowRead (.mirror 64) .full, .uartRb 65535 256] : List Instr), c.wf = true := by
  decide +kernel

/-! What the host asks, and the queue. -/

/-- No row of the table has bits, so no word spells a command. -/
theorem test_no_word_spells : decodeTableWord 64 0x00184001000000A0 = none ∧ (State.reset.withFetchWord 64 1).pending = [] := by decide +kernel

/-- A command at the front of the queue runs and leaves it. -/
theorem test_step_takes_the_front :
    (match step { gState with pending := [.mctpGetEndpointId, .uartHelp] } with
      | .next t => (t.pending, t.out)
      | _ => ([], [])) = ([.uartHelp], [.mctp 2 [0]]) := by decide +kernel

end Sys2Proof.Tests
end

section
/-! Registers of the signal box map as READ_TO_CLEAR reads them, and the reset values (R8, R9). -/

namespace Sys2Proof.Machine

/-- A block of the signal box map: its registers are reached by no BAR and by no configuration request. -/
def signalBoxBlock : RegBlock → Bool
  | .fn _ | .bar2 _ | .cfg _ | .rom _ => false
  | _ => true

theorem regClear_out (s : State) (b : RegBlock) (off : Nat) : (regClear s b off).out = s.out :=
  regClear_frame s b off .out (by decide)

theorem regAccess_dword_out {s : State} {b : RegBlock} {off n : Nat} (h : readReg s b off 4 = some n) :
    (regAccess s b off 4).out = .regRead (BitVec.ofNat 64 n) :: s.out := by
  unfold regAccess
  rw [h]
  exact congrArg _ (regClear_out s b off)

theorem exec_readToClear_signalBox {b : RegBlock} (hb : signalBoxBlock b = true) (a : Access) (s : State) :
    exec (.readToClear b a) s = .next (if regAligned a.off a.size then regAccess s b a.off a.size else s) := by
  cases b with
  | fn | bar2 | cfg | rom => cases hb
  | tt | adm | vlt | mem | pwr | fare | tag | hb | mbx | mov | win => rfl

/-- A list of offsets and values that a block's aligned dwords hold is what READ_TO_CLEAR returns of them. -/
theorem readToClear_returns {s : State} {b : RegBlock} {l : List (Nat × Nat)} (hb : signalBoxBlock b = true)
    (h : ∀ x ∈ l, regAligned x.1 4 = true ∧ readReg s b x.1 4 = some x.2) :
    ∀ x ∈ l, ∃ t, exec (.readToClear b ⟨x.1, 4⟩) s = .next t ∧ t.out = .regRead (BitVec.ofNat 64 x.2) :: s.out := by
  intro x hx
  obtain ⟨aligned, value⟩ := h x hx
  refine ⟨_, exec_readToClear_signalBox hb _ s, ?_⟩
  rw [if_pos aligned]
  exact regAccess_dword_out value

/-- Settles O60: every listed register is an aligned dword of the signal box map, and its value at reset is computed. -/
theorem resetState : Obligations.ResetState := by
  unfold Obligations.ResetState
  refine ⟨rfl, by decide, rfl, rfl, rfl, rfl, rfl, rfl, rfl, rfl, rfl, rfl, ?_, ?_, ?_, ?_, ?_, ?_, ?_, ?_⟩
  all_goals exact readToClear_returns rfl (by decide +kernel)

end Sys2Proof.Machine
end

section
/-! Power management control in configuration space (R94, R130): what a write of its dword does. -/

namespace Sys2Proof.Machine

theorem fnOf_find {s : State} {f : Nat} {fn : Func} (h : fnOf s f = some fn) : s.funcs.find f = some fn := by
  unfold fnOf at h
  split at h
  next => split at h <;> simp_all
  next => cases h

theorem answers_fnOf {s : State} {f : Nat} {fn : Func} (h : answers s f = some fn) : fnOf s f = some fn := by
  unfold answers at h
  split at h
  next => split at h <;> simp_all
  next => cases h

theorem takesCfg_answers {s : State} {f : Nat} {fn : Func} (h : takesCfg s f = some fn) : answers s f = some fn := by
  unfold takesCfg at h
  split at h
  next => split at h <;> simp_all
  next => cases h

theorem updFunc_funcIs {s : State} {f : Nat} {fn : Func} (g : Func → Func) (h : s.funcs.find f = some fn) :
    FuncIs f (g fn) s (updFunc s f g) :=
  ⟨by simp [updFunc, h], fun _ hk => Tab.find_upd_other _ _ hk⟩

/-- No bit of the dword at 0x44 is one that only reads back. -/
theorem cfgMask_pmCtrl (f : Nat) : cfgMask f 0x44 = 0 := ite_self _

theorem writeCfg_pmCtrl (f : Nat) (fn : Func) (v ones : BitVec 32) :
    writeCfg f fn 0x44 v ones = { fn with cfg := fn.cfg.del 0x44, pmeEn := isPF f && v.getLsbD 8 } := by
  simp [writeCfg, cfgMask_pmCtrl]

/-- The dword that a write of all four bytes leaves is what was written, whatever stood there. -/
theorem ofNat_wholeDword (old : Nat) (v : Word) :
    BitVec.ofNat 32 (old - old / 2 ^ (8 * 0) % 2 ^ (8 * 4) * 2 ^ (8 * 0) + v.toNat % 2 ^ (8 * 4) * 2 ^ (8 * 0)) = lo32 v := by
  apply BitVec.eq_of_toNat_eq
  simp only [lo32, BitVec.toNat_ofNat, BitVec.extractLsb'_toNat, Nat.shiftRight_zero]
  omega

theorem writeCfgBytes_pmCtrl (s : State) (f : Nat) (fn : Func) (v : Word) :
    ∃ ones, writeCfgBytes s f fn 0x44 4 v =
      emit (updFunc s f fun fn => writeCfg f fn 0x44 (lo32 v) ones) (.configDone f) :=
  ⟨_, by rw [← ofNat_wholeDword (readCfg s f fn 0x44) v]; rfl⟩

/-- A dword written to power management control sets PME_En of a PF; a VF has no such capability, and its PME_En is 0
(R94, R130). -/
theorem cfgWrite_pmCtrl {s : State} {f : Nat} {fn : Func} (v : Word) (h : takesCfg s f = some fn) :
    Does (.genericRegisterWrite (.cfg f) ⟨0x44, 4⟩ v false) [.funcs, .out] s fun t =>
      t.out = .configDone f :: s.out ∧
      FuncIs f { fn with cfg := fn.cfg.del 0x44, pmeEn := isPF f && (lo32 v).getLsbD 8 } s t := by
  obtain ⟨ones, written⟩ := writeCfgBytes_pmCtrl s f fn v
  have runs : exec (.genericRegisterWrite (.cfg f) ⟨0x44, 4⟩ v false) s = .next (writeCfgBytes s f fn 0x44 4 v) := by
    change execGenericRegisterWrite (.cfg f) ⟨0x44, 4⟩ v false s = _
    simp only [execGenericRegisterWrite, h]
    rfl
  refine ⟨_, written ▸ runs, OnlyChanges.step (emit_frame _ _) (updFunc_frame _ _ _ |>.step (OnlyChanges.refl _ s)), rfl, ?_⟩
  rw [← writeCfg_pmCtrl f fn (lo32 v) ones]
  exact updFunc_funcIs _ (fnOf_find (answers_fnOf (takesCfg_answers h)))

/-- Function 1, the first VF of port 0, is enabled behind its PF on a port that is up. -/
def vfUp : State :=
  { ports := [(0, { widthMax := 16, crs := false, vfEnable := true, numVfs := 1 })]
    funcs := [(0, { exists_ := true }), (1, { exists_ := true })] }

theorem vfUp_takesCfg : takesCfg vfUp 1 = some { exists_ := true } := rfl

/-- Refutes O46: its clause on PME_En speaks of every function, but a VF has no Power Management capability (R94). With
`vfUp` and a dword with bit 8 set, the write at 0x44 of VF 1 leaves PME_En 0 where the clause has it 1. -/
theorem not_registers : ¬ Obligations.Registers := by
  unfold Obligations.Registers
  intro h
  obtain ⟨-, -, -, -, -, -, -, -, -, -, -, -, pmCtrl, -⟩ := h vfUp 0x100#64
  obtain ⟨t, claimed, -, -, claimedVf, -⟩ := pmCtrl 1 _ vfUp_takesCfg
  obtain ⟨u, actual, -, -, actualVf, -⟩ := cfgWrite_pmCtrl 0x100#64 vfUp_takesCfg
  obtain rfl : t = u := Host.Outcome.next.inj (claimed.symm.trans actual)
  have pmeEn : (0x100#64 : Word).getLsbD 8 = (isPF 1 && (lo32 0x100#64).getLsbD 8) :=
    congrArg Func.pmeEn (Option.some.inj (claimedVf.symm.trans actualVf))
  exact absurd pmeEn (by decide)

end Sys2Proof.Machine
end

section
/-! The siding cache (R18, R243): a context that takes a slot or is created when no shared entry is free. -/

namespace Sys2Proof.Machine

theorem firstOut_self (x : Nat × Ctx) : firstOut x x = x := ite_self _

theorem foldl_firstOut_replicate (n : Nat) (x : Nat × Ctx) : (List.replicate n x).foldl firstOut x = x := by
  induction n with
  | zero => rfl
  | succ n ih => rw [List.replicate_succ, List.foldl_cons, firstOut_self, ih]

/-- When every context that may be evicted is one and the same, it goes to the siding region. -/
theorem evictOne_of_replicate {s : State} {n k : Nat} {y : Ctx} (nonempty : n ≠ 0)
    (h : (s.ctxs.filter fun x => mayEvict x.2) = List.replicate n (k, y)) :
    evictOne s = updCtx s k fun c => { c with res := .siding } := by
  obtain ⟨m, rfl⟩ := Nat.exists_eq_succ_of_ne_zero nonempty
  rw [evictOne, h, List.replicate_succ]
  simp only [foldl_firstOut_replicate]

/-- A Maintenance context that waits, by where it lies. -/
def sidedCtx (r : Residence) : Ctx := { cls := .maintenance, dl := noTs, state := .waiting, kind := .maint, res := r }

/-- A full siding cache in a table that is not in rising order: the entries of key 1 that may be evicted stand behind
one that may not. -/
def fullSiding : Tab Ctx :=
  List.replicate Config.expressReserve (1, sidedCtx .reserve) ++
    List.replicate (Config.sidingCache - Config.expressReserve) (1, sidedCtx .shared)

theorem filter_fullSiding (p : Nat × Ctx → Bool) : fullSiding.filter p =
    (if p (1, sidedCtx .reserve) then List.replicate Config.expressReserve (1, sidedCtx .reserve) else []) ++
      if p (1, sidedCtx .shared) then List.replicate (Config.sidingCache - Config.expressReserve) (1, sidedCtx .shared) else [] := by
  rw [fullSiding, List.filter_append, List.filter_replicate, List.filter_replicate]

theorem length_filter_fullSiding (p : Nat × Ctx → Bool) : (fullSiding.filter p).length =
    (if p (1, sidedCtx .reserve) then Config.expressReserve else 0) +
      if p (1, sidedCtx .shared) then Config.sidingCache - Config.expressReserve else 0 := by
  rw [filter_fullSiding, List.length_append, apply_ite List.length, apply_ite List.length, List.length_replicate,
    List.length_replicate, List.length_nil]

section
variable {s : State} {pre : Tab Ctx} (full : s.ctxs = pre ++ fullSiding)
include full

theorem residents_fullSiding (r : Residence) : residents s r = (pre.filter fun x => x.2.res == r).length +
    ((if r = .reserve then Config.expressReserve else 0) + if r = .shared then Config.sidingCache - Config.expressReserve else 0) := by
  rw [residents, full, List.filter_append, List.length_append, length_filter_fullSiding]
  cases r <;> rfl

theorem sharedRoom_fullSiding : sharedRoom s = false := by
  rw [sharedRoom, residents_fullSiding full, if_neg (by decide), if_pos rfl]
  exact decide_eq_false (by omega)

theorem reserveRoom_fullSiding : reserveRoom s = false := by
  rw [reserveRoom, residents_fullSiding full, if_pos rfl]
  exact decide_eq_false (by omega)

/-- Making room moves the context that key 1 finds, which is none that may be evicted. -/
theorem makeRoom_fullSiding (others : ∀ x ∈ pre, mayEvict x.2 = false) :
    makeRoom s = updCtx s 1 fun c => { c with res := .siding } := by
  have evictable : (s.ctxs.filter fun x => mayEvict x.2) =
      List.replicate (Config.sidingCache - Config.expressReserve) (1, sidedCtx .shared) := by
    have preStays : (pre.filter fun x => mayEvict x.2) = [] := List.filter_eq_nil_iff.2 fun x hx => by simp [others x hx]
    rw [full, List.filter_append, preStays, filter_fullSiding, if_neg (by decide), if_pos (by decide), List.nil_append, List.nil_append]
  rw [makeRoom, sharedRoom_fullSiding full]
  exact evictOne_of_replicate (by decide) evictable

theorem makeRoom_fullSiding_one (others : ∀ x ∈ pre, mayEvict x.2 = false) (one : s.ctxs.find 1 = some (sidedCtx .reserve)) :
    (makeRoom s).ctxs.find 1 = some (sidedCtx .siding) := by
  rw [makeRoom_fullSiding full others, updCtx_ctxs, Tab.find_upd_same, one]
  rfl

end

/-- A context that may not be evicted does not change where `OthersKeep` names it not. -/
theorem not_othersKeep_of_moved {s t : State} {but : List Nat} {k : Nat} {x : Ctx} (here : s.ctxs.find k = some x)
    (stays : mayEvict x = false) (out : k ∉ but) (moved : t.ctxs.find k ≠ some x) : ¬ OthersKeep but s t := by
  intro keeps
  rcases keeps k out with same | ⟨-, y, found, may, -⟩
  · exact moved (same.trans here)
  · obtain rfl := Option.some.inj (here.symm.trans found)
    exact absurd (stays.symm.trans may) (by decide)

theorem sidedCtx_siding_ne_reserve : some (sidedCtx .siding) ≠ some (sidedCtx .reserve) := fun same =>
  absurd (congrArg Ctx.res (Option.some.inj same)) (by decide)

end Sys2Proof.Machine
end

section
/-! Thread slots (R18, R243, R244): an Express context that takes slot 0 while the siding cache is full. -/

namespace Sys2Proof.Machine

/-- An Express context that is READY in the siding region. -/
def sidedExpress : Ctx := { cls := .express, dl := noTs, res := .siding }

/-- An Express context waits for a slot of cluster 0, whose engines are idle. -/
def fullBeforeSlot : State := { ctxs := [(0, sidedExpress)] ++ fullSiding }

theorem fullBeforeSlot_one : fullBeforeSlot.ctxs.find 1 = some (sidedCtx .reserve) := rfl

theorem nextReady_fullBeforeSlot :
    nextReady fullBeforeSlot 0 (fun c => c.cls == .express) = some (0, sidedExpress) := by
  have ready : (fullBeforeSlot.ctxs.filter fun x => x.2.state == .ready && x.2.cluster == 0 && x.2.cls == .express) =
      [(0, sidedExpress)] := by
    rw [fullBeforeSlot, List.filter_append, filter_fullSiding, if_neg (by decide), if_neg (by decide)]
    rfl
  rw [nextReady, ready]
  rfl

theorem slotFree_fullBeforeSlot (e n : Nat) : slotFree fullBeforeSlot e n = true := by
  have unplaced : fullBeforeSlot.ctxs.any (fun x => x.2.place == some (e, n)) = false := by
    rw [fullBeforeSlot, fullSiding, List.any_append, List.any_append, List.any_replicate, List.any_replicate]
    rfl
  rw [slotFree, unplaced]
  rfl

theorem freeSlot0_fullBeforeSlot : freeSlot0 fullBeforeSlot 0 = some 0 := by
  have all : ((enginesOf 0).filter fun e => slotFree fullBeforeSlot e 0) = enginesOf 0 :=
    List.filter_eq_self.2 fun e _ => slotFree_fullBeforeSlot e 0
  rw [freeSlot0, all]
  decide

theorem exec_slotAssign_slot0 {s : State} {cluster cx e : Nat} {x : Ctx}
    (best : nextReady s cluster (fun c => c.cls == .express) = some (cx, x)) (free : freeSlot0 s cluster = some e) :
    exec (.slotAssign cluster) s = .next (enterSlot s cx e 0) := by
  change execSlotAssign cluster s = _
  simp only [execSlotAssign, slotAssign, best, free]

/-- A context that is loaded from the siding region leaves the others as the making of room leaves them. -/
theorem enterSlot_find_other {s : State} {cx k e n : Nat} {c : Ctx} (here : s.ctxs.find cx = some c) (out : c.res = .siding)
    (other : k ≠ cx) : (enterSlot s cx e n).ctxs.find k = (makeRoom s).ctxs.find k := by
  have loaded : loadCtx s cx = updCtx (makeRoom s) cx fun c => { c with res := .shared } := by
    simp [loadCtx, here, out]
  rw [enterSlot, loaded, updCtx_ctxs, Tab.find_upd_other _ _ other, updCtx_ctxs, Tab.find_upd_other _ _ other]

/-- Refutes O28: its clauses on SLOT_ASSIGN have the contexts that take no slot keep what they hold, but for one that may be evicted.
In `fullBeforeSlot` the eviction picks an entry of key 1 that stands behind another, and the one in front goes to the
siding region from a reserved entry. The statement has no hypothesis that `ctxs` is in rising order. -/
theorem not_threadEvents : ¬ Obligations.ThreadEvents := by
  unfold Obligations.ThreadEvents
  intro h
  obtain ⟨express, -⟩ := h fullBeforeSlot 0 sidedExpress rfl
  obtain ⟨slot0, -⟩ := express 0 sidedExpress nextReady_fullBeforeSlot
  obtain ⟨t, claimed, -, -, keeps⟩ := slot0 0 freeSlot0_fullBeforeSlot
  obtain rfl : t = enterSlot fullBeforeSlot 0 0 0 :=
    Host.Outcome.next.inj (claimed.symm.trans (exec_slotAssign_slot0 nextReady_fullBeforeSlot freeSlot0_fullBeforeSlot))
  refine not_othersKeep_of_moved fullBeforeSlot_one rfl (by decide) ?_ keeps
  rw [enterSlot_find_other rfl rfl (by decide), makeRoom_fullSiding_one (s := fullBeforeSlot) rfl (by decide) fullBeforeSlot_one]
  exact sidedCtx_siding_ne_reserve

end Sys2Proof.Machine
end

section
/-! The dispatcher (R16 to R18, R162): what an admitted Express command does to the contexts. -/

namespace Sys2Proof.Machine

/-- The head of the first queue in turn is taken. -/
theorem dispatchFrom_cons {s t : State} {lane : Nat} {cl : Cls} {f slot : Nat} {rest : List (Nat × Nat)} {fn : Func} {q : Sq} {h : Head}
    (func : fnOf s f = some fn) (queue : fn.sqs.find slot = some q) (may : mayTake s fn slot q = true) (head : headOf q = some h)
    (taken : takeEntry s lane f slot fn q h = some t) :
    dispatchFrom s lane cl ((f, slot) :: rest) = some (updAdm t fun a => { a with rr := a.rr.put cl.code (sqidOf f slot) }) := by
  simp only [dispatchFrom, func, queue, may, head, if_true, Option.bind_some, taken]

theorem exec_dispatch_express {s t : State} {lane : Nat} (low : lane < 4)
    (taken : dispatchFrom s lane .express (serviceOrder s .express) = some t) : exec (.dispatch lane) s = .next t := by
  change execDispatch lane s = _
  rw [execDispatch, if_neg (Nat.not_le.2 low), taken]
  rfl

theorem judgeHead_io {s : State} {f slot : Nat} {fn : Func} {q : Sq} {h : Head} (clean : h.poisoned = false)
    (io : isAdminSq f slot = false) : judgeHead s f slot fn q h = judgeIo s f slot fn q h.entry h.clash := by
  simp [judgeHead, clean, io]

/-- A FLUSH that meets the checks of R17 goes to admission. -/
theorem judgeIo_flush {s : State} {f slot : Nat} {fn : Func} {q : Sq} {e : BitVec 512} {v : Volume} (opc : eOpc e = 3)
    (vol : s.vols.find (eVol e) = some v) (handler : (opHandler s v 3).isSome = true) (fields : check1 fn q (some v) e = true)
    (stands : v.deleting = false) (attached : v.attached.contains f = true) :
    judgeIo s f slot fn q e false = judgeAdmission s f slot fn q v e := by
  simp only [List.contains_eq_mem, decide_eq_true_eq] at attached
  simp [judgeIo, opc, vol, handler, fields, stands, attached]

theorem takeEntry_admitted {s : State} {lane f slot : Nat} {fn : Func} {q : Sq} {h : Head} {kind units : Nat} {bound : Option Nat}
    {pins : List Nat} {degraded : Bool} {v : Volume} {x : Nat × Route × Nat × HandlerEnt} {cx : Nat}
    (judgement : judgeHead s f slot fn q h = .admitted kind units bound pins degraded) (vol : s.vols.find (eVol h.entry) = some v)
    (handler : opHandler s v (eOpc h.entry) = some x) (free : freeSiding s = some cx) :
    takeEntry s lane f slot fn q h = some (grantCtx (takeHead s f slot q) f slot lane q h v x kind units bound pins degraded) := by
  simp only [takeEntry, judgement, vol, handler, free]

theorem takeHead_ctxs (s : State) (f slot : Nat) (q : Sq) : (takeHead s f slot q).ctxs = s.ctxs :=
  takeHead_frame s f slot q .ctxs (by decide)

/-- The contexts once a context is granted: those that the new one's residence leaves, and the new one. -/
theorem grantCtx_ctxs {s : State} {f slot lane : Nat} {q : Sq} {h : Head} {v : Volume} {x : Nat × Route × Nat × HandlerEnt}
    {kind units : Nat} {bound : Option Nat} {pins : List Nat} {degraded : Bool} {cx : Nat} (free : freeSiding s = some cx) :
    ∃ u c, u.ctxs = s.ctxs ∧ (grantCtx s f slot lane q h v x kind units bound pins degraded).ctxs =
      (newResidence u q.cls).2.ctxs.put cx c := by
  let u := (holdPages (pins.foldl pinFrame (spendTokens s f (sqidOf f slot) (eVol h.entry) kind units)) f (windowOf h.entry)).2
  have keeps : OnlyChanges [.adm, .vols, .cache, .funcs] s u :=
    OnlyChangesP.step (holdPages_frame _ f (windowOf h.entry))
      (OnlyChanges.foldl (fun _ fr k => OnlyChanges.step (pinFrame_frame _ fr) k)
        (OnlyChanges.step (spendTokens_frame s _ _ _ _ _) (OnlyChanges.refl _ s)))
  have granted : ∃ c, (grantCtx s f slot lane q h v x kind units bound pins degraded).ctxs =
      (newResidence (nextSeq u).2 q.cls).2.ctxs.put cx c := by
    rw [grantCtx, free]
    exact ⟨_, rfl⟩
  obtain ⟨c, put⟩ := granted
  exact ⟨(nextSeq u).2, c, keeps .ctxs (by decide), put⟩

theorem newResidence_express {s : State} (full : reserveRoom s = false) : (newResidence s .express).2 = makeRoom s := by
  rw [newResidence, full]
  rfl

/-- A FLUSH of volume 7. -/
def flushHead : Head := { entry := BitVec.ofNat 512 (3 + 7 * 2 ^ 32), vis := 0, held := {}, poisoned := false, clash := false }

theorem flushHead_opc : eOpc flushHead.entry = 3 := by decide +kernel
theorem flushHead_vol : eVol flushHead.entry = 7 := by decide +kernel

/-- An Express ring on which it is first. -/
def flushRing : Sq :=
  { push := false, cls := .express, cqSlot := 0, log2 := 4, base := 0, pollInt := 0, pasid := none, quota := 1
    fetched := [{ entry := flushHead.entry, vis := 0, poisoned := false }] }

def flushFunc : Func := { exists_ := true, sqs := [(1, flushRing)] }

def flushVolume : Volume := { group := 0, pi := false, route := 16, blocks := 8, extents := [], createTs := 0, attached := [0] }

def flushHandler : HandlerEnt := { entry := 9, budget := 500, kind := .opcode }

def flushRoute : Route :=
  { id := 16, layout := false, groupMaint := false, map := 1, fault := none, ops := [none, none, some 0], destage := none, rebuild := none,
    scrub := none, zero := none, label := none, build := none }

/-- A part in Ready with that ring, a token for its FLUSH, a program that serves it and a full siding cache. -/
def fullBeforeDispatch : State :=
  { pwr := { devState := .ready }, funcs := [(0, flushFunc)], vols := [(7, flushVolume)]
    progs := { loaded := [(5, { handlers := [flushHandler], routes := [flushRoute] })] }
    adm := { exp := [(0, { sqid := 1, func := 0, hit := 1, hitLeft := 1 })] }
    ctxs := fullSiding }

theorem fullBeforeDispatch_one : fullBeforeDispatch.ctxs.find 1 = some (sidedCtx .reserve) := rfl

theorem serviceOrder_fullBeforeDispatch : serviceOrder fullBeforeDispatch .express = [(0, 1)] := rfl

theorem servedNext_fullBeforeDispatch : ServedNext fullBeforeDispatch .express 0 1 :=
  ⟨by decide, fun k below => absurd below (Nat.not_lt_zero _), [], [], serviceOrder_fullBeforeDispatch, by simp⟩

/-- No siding is held by a command of the function: every context is of Maintenance. -/
theorem sidingsHeld_fullBeforeDispatch : sidingsHeld fullBeforeDispatch 0 = 0 := by
  rw [sidingsHeld, fullBeforeDispatch, length_filter_fullSiding]
  rfl

theorem judgeEntry_fullBeforeDispatch :
    judgeEntry fullBeforeDispatch 0 1 flushRing flushVolume 7 flushHead.entry =
      .accept 0 1 (some (hitBound fullBeforeDispatch false 1)) [] false := by decide +kernel

theorem judgeHead_fullBeforeDispatch : judgeHead fullBeforeDispatch 0 1 flushFunc flushRing flushHead =
    .admitted 0 1 (some (hitBound fullBeforeDispatch false 1)) [] false := by
  have io := judgeHead_io (s := fullBeforeDispatch) (f := 0) (slot := 1) (fn := flushFunc) (q := flushRing) (h := flushHead) rfl rfl
  have flush := judgeIo_flush (s := fullBeforeDispatch) (f := 0) (slot := 1) (fn := flushFunc) (q := flushRing) (e := flushHead.entry)
    (v := flushVolume) flushHead_opc (by rw [flushHead_vol]; rfl) rfl (by decide +kernel) rfl rfl
  rw [io, show flushHead.clash = false from rfl, flush, judgeAdmission, flushHead_vol, show sqidOf 0 1 = 1 from rfl,
    judgeEntry_fullBeforeDispatch]
  simp only [sidingsHeld_fullBeforeDispatch]
  rfl

theorem opHandler_fullBeforeDispatch : opHandler fullBeforeDispatch flushVolume 3 = some (5, flushRoute, 0, flushHandler) := rfl

theorem takeEntry_fullBeforeDispatch :
    takeEntry fullBeforeDispatch 0 0 1 flushFunc flushRing flushHead =
      some (grantCtx (takeHead fullBeforeDispatch 0 1 flushRing) 0 1 0 flushRing flushHead flushVolume
        (5, flushRoute, 0, flushHandler) 0 1 (some (hitBound fullBeforeDispatch false 1)) [] false) :=
  takeEntry_admitted judgeHead_fullBeforeDispatch (by rw [flushHead_vol]; rfl)
    (by rw [flushHead_opc]; exact opHandler_fullBeforeDispatch) rfl (cx := 0)

/-- The context that key 1 finds moves to the siding region, to make room for the one that is granted. -/
theorem grantCtx_find_fullBeforeDispatch {h : Head} {x : Nat × Route × Nat × HandlerEnt} {kind units : Nat} {bound : Option Nat} :
    (grantCtx (takeHead fullBeforeDispatch 0 1 flushRing) 0 1 0 flushRing h flushVolume x kind units bound [] false).ctxs.find 1 =
      some (sidedCtx .siding) := by
  have before : (takeHead fullBeforeDispatch 0 1 flushRing).ctxs = [] ++ fullSiding := takeHead_ctxs ..
  have free : freeSiding (takeHead fullBeforeDispatch 0 1 flushRing) = some 0 := by
    rw [freeSiding, before]
    rfl
  obtain ⟨u, c, same, put⟩ := grantCtx_ctxs (slot := 1) (lane := 0) (f := 0) (q := flushRing) (h := h) (v := flushVolume) (x := x)
    (kind := kind) (units := units) (bound := bound) (pins := []) (degraded := false) free
  have full : u.ctxs = [] ++ fullSiding := same.trans before
  rw [put, Tab.find_put_other _ _ (by decide), show flushRing.cls = .express from rfl,
    newResidence_express (reserveRoom_fullSiding full)]
  exact makeRoom_fullSiding_one full (by simp) (by rw [full]; rfl)

/-- Refutes O26: its clause on an admitted command has the other contexts keep what they hold, but for one that may be evicted. In
`fullBeforeDispatch` the Express FLUSH finds the siding cache full, and the eviction picks an entry of key 1 that stands
behind another; the one in front goes to the siding region from a reserved entry. The statement has no hypothesis that
`ctxs` is in rising order. -/
theorem not_dispatching : ¬ Obligations.Dispatching := by
  unfold Obligations.Dispatching
  intro h
  obtain ⟨-, served⟩ := h 0 fullBeforeDispatch (by decide)
  obtain ⟨-, -, admitted⟩ := served 0 1 .express flushFunc flushRing flushHead servedNext_fullBeforeDispatch rfl rfl rfl
  obtain ⟨t, claimed, -, -, keeps, -⟩ := admitted _ _ _ _ _ flushVolume (5, flushRoute, 0, flushHandler) 0
    judgeHead_fullBeforeDispatch (by rw [flushHead_vol]; rfl) (by rw [flushHead_opc]; exact opHandler_fullBeforeDispatch) rfl
  have taken := dispatchFrom_cons (cl := .express) (rest := []) rfl rfl rfl rfl takeEntry_fullBeforeDispatch
  rw [← serviceOrder_fullBeforeDispatch] at taken
  obtain rfl := Host.Outcome.next.inj (claimed.symm.trans (exec_dispatch_express (by decide) taken))
  refine not_othersKeep_of_moved fullBeforeDispatch_one rfl (by decide) ?_ keeps
  rw [updAdm_ctxs, grantCtx_find_fullBeforeDispatch]
  exact sidedCtx_siding_ne_reserve

end Sys2Proof.Machine
end

section
/-! Power failure (R30, R345, R349): a lost reference clock while VAULT_DONE_N is still to go low. -/

namespace Sys2Proof.Machine

/-- A part in Ready on W0 with an SSD and a free image area, and VAULT_DONE_N still to go low in the next slot. -/
def readyDoneDue : State := { pwr := { devState := .ready }, vlt := { ok0 := true, doneNext := true } }

theorem readyDoneDue_testHeld : TestHeld readyDoneDue := nofun

/-- The loss of the reference clock stops the timetable, so a VAULT_DONE_N that waits for the next slot goes low at once
and no dump counts as running. -/
theorem refclkLoss_doneNext {s : State} (waits : (pfailQualified s).vlt.doneNext = true) :
    ∃ t, exec .refclkLoss s = .next t ∧ t.vlt.dumping = false :=
  ⟨_, rfl, by simp [waits, driveDone]⟩

/-- Refutes O34: its clause on REFCLK_LOSS has the dump run on whatever `doneNext` is. The qualification in `readyDoneDue`
begins a dump and leaves `doneNext` set, so REFCLK_LOSS drives VAULT_DONE_N low and ends the dump. The model sets `doneNext`
only in Held and on the way to Vaulted (`doneSoon`), but the statement has no hypothesis that it is false in Ready. -/
theorem not_powerFailure : ¬ Obligations.PowerFailure := by
  unfold Obligations.PowerFailure
  intro h
  obtain ⟨-, -, -, dumps, -⟩ := h readyDoneDue readyDoneDue_testHeld
  obtain ⟨-, refclk, -⟩ := dumps false (.inl ⟨rfl, rfl⟩) rfl
  obtain ⟨t, claimed, -, ⟨-, -, dumping, -⟩, -⟩ := refclk
  obtain ⟨u, actual, ended⟩ := refclkLoss_doneNext (s := readyDoneDue) (by decide +kernel)
  obtain rfl : t = u := Host.Outcome.next.inj (claimed.symm.trans actual)
  exact absurd (dumping.symm.trans ended) (by decide)

end Sys2Proof.Machine
end

section
/-! The power ladder (R160, R205, R472): what the completion of a SET_POWER takes with it at the commit slot. -/

namespace Sys2Proof.Machine

/-- A SET_POWER of port 0 that waits for its rung. -/
def waitingSetPower : AdminCmd := { port := 0, entry := 0x44, vis := 0, data := [], poisoned := false }

/-- A completion of the command of context 0, whose thread has ended. -/
def endedReady : Ready :=
  { cid := 1, status := 0, sqSlot := 0, vis := 0, dl := noTs, held := {}, readyTs := 0, lateCause := 0, refusalCause := 0,
    poison := false, vol := none, ctx := some 0, inlineBuf := none, windowPages := none, cls := .standard, blocksRead := 0,
    blocksWritten := 0 }

/-- The PF of port 0 with its admin pair; a completion that a context holds is first on the admin ring. -/
def adminRingPf : Func :=
  { exists_ := true, bme := true
    sqs := [(0, { push := false, cls := .standard, cqSlot := 0, log2 := 4, base := 0, pollInt := 0, pasid := none, quota := 0 })]
    cqs := [(0, { log2 := 4, base := 0, ien := false, vec := 0, ivCount := 0, ivDelay := 0, ready := [endedReady] })] }

/-- An entry to W1 that has come to its commit slot with a SET_POWER waiting; context 0 pins frame 5. -/
def commitPinned : State :=
  { pwr := { devState := .ready, setRung := 1, entry := some 1, setWaiters := [waitingSetPower] }
    funcs := [(0, adminRingPf)]
    ctxs := [(0, { cls := .standard, dl := noTs, state := .doneUnposted, pinned := [5] })]
    cache := { frames := [(5, { pins := 1 })] } }

theorem exec_rungCommit_reached {s : State} {r : Nat} (entry : s.pwr.entry = some r) (ready : prepared s r = true)
    (target : r ≤ targetRung s) : exec .rungCommit s = .next (commitRung s r) := by
  change execRungCommit s = _
  simp [execRungCommit, entry, ready, Nat.not_lt.2 target]

/-- The completion of SET_POWER issues the entry that is first on the ring; the context of that entry goes with its pin, and the
frame, which no block is mapped to, is free. -/
theorem commitPinned_unpins : (commitRung commitPinned 1).cache.frames.find 5 = none := by decide +kernel

/-- Refutes O35: its clause on RUNG_COMMIT has the cache the same below W3. In `commitPinned` the first entry of the admin ring
is the completion of a context, which the commit slot issues for the SET_POWER; the context goes with its pin, and frame 5 is
free. The statement has no hypothesis that an admin ring holds only completions without a context. -/
theorem not_powerLadder : ¬ Obligations.PowerLadder := by
  unfold Obligations.PowerLadder
  intro h
  obtain ⟨-, -, -, commits, -⟩ := h commitPinned
  obtain ⟨-, atCommit⟩ := commits 1 rfl
  obtain ⟨-, reached⟩ := atCommit (by decide +kernel)
  have target : 1 ≤ targetRung commitPinned := by decide +kernel
  obtain ⟨t, claimed, -, -, -, -, -, -, -, shallow, -⟩ := reached target
  obtain ⟨-, -, cache⟩ := shallow (by decide)
  obtain rfl : t = commitRung commitPinned 1 :=
    Host.Outcome.next.inj (claimed.symm.trans (exec_rungCommit_reached rfl (by decide +kernel) target))
  have unpinned := commitPinned_unpins
  rw [cache] at unpinned
  exact absurd unpinned (by decide)

end Sys2Proof.Machine
end

section
/-! The lock state of the timetable (R31, R32, R38, R39): what an edge on TTC_IN, its absence and REF_EN do to it. -/

namespace Sys2Proof.Machine

/-- A command does what its meaning's next state shows, within the parts that its meaning can change. -/
theorem Does.of_exec {c : Instr} {ps : List Part} {s t : State} {post : State → Prop} (run : exec c s = .next t)
    (frame : OnlyChangesQ ps s (exec c s)) (h : post t) : Does c ps s post :=
  ⟨t, run, frame t run, h⟩

theorem setLock_tt (s : State) (l : LockState) : (setLock s l).tt = { s.tt with lock := l } := by
  unfold setLock
  split
  next same => rw [← same]
  next => rfl

theorem setLock_changed {s : State} {l : LockState} (moves : s.tt.lock ≠ l) : (setLock s l).rb.changed = true := by
  rw [setLock, if_neg moves]
  rfl

theorem inTolerance_iff (nom p : Nat) :
    inTolerance nom p = true ↔ (2 * (p : Int) - 3 * (nom : Int)).natAbs * 1000 ≤ 3 * nom := by
  simp only [inTolerance, Bool.and_eq_true, decide_eq_true_eq]
  omega

theorem inTolerance_eq_false_iff (nom p : Nat) :
    inTolerance nom p = false ↔ ¬(2 * (p : Int) - 3 * (nom : Int)).natAbs * 1000 ≤ 3 * nom := by
  rw [← inTolerance_iff, Bool.not_eq_true]

theorem spread_one (a : Nat) : spread [a] = 0 := by simp [spread]

theorem spread_two (a b : Nat) : spread [a, b] = max b a - min b a := by
  simp only [spread, List.foldl_cons, List.foldl_nil]
  omega

theorem spread_three (a b c : Nat) : spread [a, b, c] = max c (max a b) - min c (min a b) := by
  simp only [spread, List.foldl_cons, List.foldl_nil]
  omega

/-! An edge -/

theorem Runs.ttcInEdge {s : State} {clock high : Nat} {post : State → Prop} (h : post (ttcEdge s clock high)) :
    Runs (.ttcInEdge clock high) s post :=
  Does.of_exec rfl (execTtcInEdge_frame clock high s) h

theorem ttcEdge_ignored {s : State} {high : Nat} (clock : Nat)
    (ignored : high < 16 ∨ s.tt.refEn = false ∨ s.tt.running = false) : ttcEdge s clock high = s := by
  have out : (decide (high < 16) || !s.tt.refEn || !s.tt.running) = true := by
    rcases ignored with short | off | stopped <;> simp [*]
  rw [ttcEdge, if_pos out]

section
variable {s : State} {clock high : Nat} (long : 16 ≤ high) (on : s.tt.refEn = true) (running : s.tt.running = true)
include long on running

theorem ttcEdge_free (lock : s.tt.lock = .free) : ttcEdge s clock high =
    setLock (updTt s fun t =>
      { t with lastEdge := some (clock - s.tt.inComp.toNat), edgeTs := now s, runPeriods := [], fromHoldover := false }) .acquiring := by
  simp [ttcEdge, Nat.not_lt.2 long, on, running, lock]

theorem ttcEdge_holdover (lock : s.tt.lock = .holdover) : ttcEdge s clock high =
    setLock (updTt s fun t =>
      { t with lastEdge := some (clock - s.tt.inComp.toNat), edgeTs := now s, runPeriods := [], fromHoldover := true }) .acquiring := by
  simp [ttcEdge, Nat.not_lt.2 long, on, running, lock]

theorem ttcEdge_acquiring (lock : s.tt.lock = .acquiring) :
    ttcEdge s clock high = ttQualify s (clock - s.tt.inComp.toNat) := by
  simp [ttcEdge, Nat.not_lt.2 long, on, running, lock]

theorem ttcEdge_locked (lock : s.tt.lock = .locked) : ttcEdge s clock high = ttTrack s (clock - s.tt.inComp.toNat) := by
  simp [ttcEdge, Nat.not_lt.2 long, on, running, lock]

end

/-! An edge while ACQUIRING -/

/-- The periods of a run keep within TT_WINDOW slots of each other (R39). -/
def runFits (t : Timetable) (ps : List Nat) : Bool := withinSlots t.nomActive.toNat t.kActive t.window.toNat (spread ps)

theorem runFits_iff (t : Timetable) (ps : List Nat) :
    runFits t ps = true ↔ 2 * spread ps * 2 ^ t.kActive ≤ t.window.toNat * 3 * t.nomActive.toNat := by
  simp [runFits, withinSlots]

section
variable {s : State} {ref l : Nat} (last : s.tt.lastEdge = some l)
include last

theorem ttQualify_strays (off : inTolerance s.tt.nomActive.toNat (ref - l) = false) : ttQualify s ref = ttRestart s ref true := by
  simp [ttQualify, last, off]

variable (near : inTolerance s.tt.nomActive.toNat (ref - l) = true)
include near

theorem ttQualify_breaks (wide : runFits s.tt (s.tt.runPeriods ++ [ref - l]) = false) : ttQualify s ref = ttRestart s ref false := by
  unfold runFits at wide
  simp [ttQualify, last, near, wide]

variable (fits : runFits s.tt (s.tt.runPeriods ++ [ref - l]) = true)
include fits

theorem ttQualify_grows (short : (s.tt.runPeriods ++ [ref - l]).length < 3) : ttQualify s ref =
    updTt s fun t => { t with lastEdge := some ref, edgeTs := now s, runPeriods := s.tt.runPeriods ++ [ref - l] } := by
  unfold runFits at fits
  simp only [ttQualify, last, near, fits, short, Bool.not_true, Bool.false_eq_true, if_false, if_true]

theorem ttQualify_locks (full : 3 ≤ (s.tt.runPeriods ++ [ref - l]).length) : ttQualify s ref = ttLock s ref (ref - l) := by
  unfold runFits at fits
  simp only [ttQualify, last, near, fits, Nat.not_lt.2 full, Bool.not_true, Bool.false_eq_true, if_false]

end

theorem ttRestart_tt (s : State) (ref : Nat) (fe : Bool) : (ttRestart s ref fe).tt =
    { s.tt with lastEdge := some ref, edgeTs := now s, runPeriods := [], freqErr := s.tt.freqErr || fe } := rfl

/-- What the lock takes from the edge that gives it (R39). -/
theorem ttLock_locks {s : State} (lock : s.tt.lock ≠ .locked) (ref p : Nat) :
    let t := ttLock s ref p
    t.tt.lock = .locked ∧ t.tt.measPeriod = BitVec.ofNat 40 (p * 256) ∧ t.tt.lastEdge = some ref ∧ t.tt.edgeTs = now s ∧
      t.tt.ttFree = false ∧ t.tt.ttHoldover = false ∧ t.tt.freqErr = false ∧ t.tt.cycle = s.tt.cycle ∧ t.tt.slot = s.tt.slot ∧
      t.tt.cntEst = (s.tt.cntEst && !s.tt.cntEstLock) ∧ t.rb.changed = true := by
  have changed : (ttLock s ref p).rb.changed = true := setLock_changed lock
  refine ⟨?_, ?_, ?_, ?_, ?_, ?_, ?_, ?_, ?_, ?_, changed⟩ <;> rw [ttLock, setLock_tt] <;> rfl

/-! The command, by the periods of the run so far and their spread with the new one (R32, R39) -/

section
variable {clock high : Nat} {s : State} {ref l d : Nat} {ps : List Nat} (edge : ttcEdge s clock high = ttQualify s ref)
  (last : s.tt.lastEdge = some l)
include edge last

theorem ttcInEdge_strays (off : inTolerance s.tt.nomActive.toNat (ref - l) = false) : Runs (.ttcInEdge clock high) s fun t =>
    t.tt = { s.tt with lastEdge := some ref, edgeTs := now s, runPeriods := [], freqErr := true } := by
  refine Runs.ttcInEdge ?_
  rw [edge, ttQualify_strays last off, ttRestart_tt, Bool.or_true]

variable (near : inTolerance s.tt.nomActive.toNat (ref - l) = true) (run : s.tt.runPeriods = ps) (sp : spread (ps ++ [ref - l]) = d)
include near run sp

theorem ttcInEdge_breaks (wide : ¬2 * d * 2 ^ s.tt.kActive ≤ s.tt.window.toNat * 3 * s.tt.nomActive.toNat) :
    Runs (.ttcInEdge clock high) s fun t => t.tt = { s.tt with lastEdge := some ref, edgeTs := now s, runPeriods := [] } := by
  refine Runs.ttcInEdge ?_
  rw [← sp, ← run, ← runFits_iff, Bool.not_eq_true] at wide
  rw [edge, ttQualify_breaks last near wide, ttRestart_tt, Bool.or_false]

variable (fits : 2 * d * 2 ^ s.tt.kActive ≤ s.tt.window.toNat * 3 * s.tt.nomActive.toNat)
include fits

theorem ttcInEdge_grows (short : (ps ++ [ref - l]).length < 3) : Runs (.ttcInEdge clock high) s fun t =>
    t.tt = { s.tt with lastEdge := some ref, edgeTs := now s, runPeriods := ps ++ [ref - l] } := by
  refine Runs.ttcInEdge ?_
  subst sp run
  rw [edge, ttQualify_grows last near ((runFits_iff _ _).2 fits) short]
  rfl

theorem ttcInEdge_locks (full : 3 ≤ (ps ++ [ref - l]).length) {post : State → Prop} (h : post (ttLock s ref (ref - l))) :
    Runs (.ttcInEdge clock high) s post := by
  refine Runs.ttcInEdge ?_
  subst sp run
  rwa [edge, ttQualify_locks last near ((runFits_iff _ _).2 fits) full]

end

/-! An edge while LOCKED -/

/-- How far an edge lies from the expected one, in 1/256 core clocks (R38). -/
def edgeOff (t : Timetable) (l ref : Nat) : Nat := (ref * 256 - expectedEdge t l) + (expectedEdge t l - ref * 256)

theorem edgeOff_eq (t : Timetable) (l ref : Nat) : edgeOff t l ref =
    (((ref * 256 : Nat) : Int) - ((l * 256 + t.measPeriod.toNat * (t.missed + 1) : Nat) : Int)).natAbs := by
  unfold edgeOff expectedEdge
  omega

theorem outOfWindow_iff (t : Timetable) (d : Nat) :
    outOfWindow t false d = true ↔ ¬d * 2 ^ t.kActive ≤ t.window.toNat * t.measPeriod.toNat := by
  simp only [outOfWindow, Bool.false_and, Bool.or_false, decide_eq_true_eq, Nat.not_le]
  rfl

section
variable {s : State} {ref l : Nat} (last : s.tt.lastEdge = some l)
include last

theorem ttTrack_out (out : outOfWindow s.tt false (edgeOff s.tt l ref) = true) :
    ttTrack s ref = markFresh (updTt s fun t => { t with offwin := satInc t.offwin }) .tt 0x38 16 1 := by
  unfold edgeOff at out
  simp [ttTrack, last, out]

/-- What an edge in the window changes (R32, R38, R39). -/
theorem ttTrack_in (inside : outOfWindow s.tt false (edgeOff s.tt l ref) = false) :
    let t := ttTrack s ref
    let p := (ref - l) * 256 / (s.tt.missed + 1)
    t.tt.lock = s.tt.lock ∧ t.tt.missed = 0 ∧ t.tt.lastEdge = some ref ∧ t.tt.edgeTs = now s ∧
      t.tt.phaseErr = BitVec.ofInt 32 (phaseOf t.tt) ∧ t.tt.cycle = s.tt.cycle ∧ t.tt.slot = s.tt.slot ∧
      (inTolerance s.tt.nomActive.toNat (p / 256) = true → t.tt.measPeriod = BitVec.ofNat 40 p) ∧
      (inTolerance s.tt.nomActive.toNat (p / 256) = false → t.tt.measPeriod = s.tt.measPeriod ∧ t.tt.freqErr = true) := by
  unfold edgeOff at inside
  simp only [ttTrack, last, inside, Bool.not_false, if_true, updTt_tt, true_and]
  refine ⟨rfl, fun near => by rw [if_pos near], fun off => ⟨by simp [off], by simp [off]⟩⟩

end

/-- The period of one cycle, when no edge is missing. -/
theorem onePeriod (n : Nat) : n * 256 / (0 + 1) / 256 = n := by omega

/-! A missing edge, the lapse of an acquisition, and REF_EN -/

theorem ttMissingEdge_early {s : State} (early : due s (missDue s.tt) = false) : exec .ttMissingEdge s = .next s := by
  change execTtMissingEdge s = _
  rw [execTtMissingEdge, if_neg (by simp [early])]

section
variable {s : State} (lock : s.tt.lock = .locked) (come : due s (missDue s.tt) = true)
include lock come

/-- The check of an expected edge that has not come (R38, R39). -/
theorem exec_ttMissingEdge : exec .ttMissingEdge s = .next (
    let u := markFresh (updTt s fun t => { t with missed := t.missed + 1, miss := satInc t.miss }) .tt 0x38 0 1
    if s.tt.missed + 1 < 3 then u else setLock (updTt u fun t => { t with ttHoldover := true, slewing := false }) .holdover) := by
  change execTtMissingEdge s = _
  rw [execTtMissingEdge, if_pos (by simp [lock, come])]
  rfl

theorem ttMissingEdge_counts (few : s.tt.missed < 2) :
    Runs .ttMissingEdge s fun t => t.tt = { s.tt with missed := s.tt.missed + 1, miss := satInc s.tt.miss } :=
  Does.of_exec (exec_ttMissingEdge lock come) (execTtMissingEdge_frame s) (by rw [if_pos (by omega)]; rfl)

theorem ttMissingEdge_holdover (third : s.tt.missed = 2) : Runs .ttMissingEdge s fun t =>
    t.tt = { s.tt with missed := 3, miss := satInc s.tt.miss, lock := .holdover, ttHoldover := true, slewing := false } ∧
      t.rb.changed = true := by
  refine Does.of_exec (exec_ttMissingEdge lock come) (execTtMissingEdge_frame s) ?_
  rw [if_neg (by omega)]
  refine ⟨?_, setLock_changed (show s.tt.lock ≠ .holdover by simp [lock])⟩
  rw [← show s.tt.missed + 1 = 3 by omega]
  exact setLock_tt _ _

end

theorem ttAcquireLapse_early {s : State} (early : due s (lapseDue s.tt) = false) : exec .ttAcquireLapse s = .next s := by
  change execTtAcquireLapse s = _
  rw [execTtAcquireLapse, if_neg (by simp [early])]

/-- An acquisition lapses to the state that it began in (R39). -/
theorem ttAcquireLapse_lapses {s : State} (lock : s.tt.lock = .acquiring) (come : due s (lapseDue s.tt) = true) :
    Runs .ttAcquireLapse s fun t =>
      t.tt = { s.tt with lock := if s.tt.fromHoldover then .holdover else .free, lastEdge := none, runPeriods := [] } ∧
        t.rb.changed = true := by
  have leaves : s.tt.lock ≠ if s.tt.fromHoldover then .holdover else .free := by
    rw [lock]
    split <;> nofun
  have run : exec .ttAcquireLapse s = .next (setLock (updTt s fun t => { t with lastEdge := none, runPeriods := [] })
      (if s.tt.fromHoldover then .holdover else .free)) := by
    change execTtAcquireLapse s = _
    rw [execTtAcquireLapse, if_pos (by simp [lock, come])]
  exact Does.of_exec run (execTtAcquireLapse_frame s) ⟨setLock_tt _ _, setLock_changed leaves⟩

theorem Runs.ttRefEnWrite {s : State} {en : Bool} {post : State → Prop} (h : post (setRefEn s en)) : Runs (.ttRefEnWrite en) s post :=
  Does.of_exec rfl (execTtRefEnWrite_frame en s) h

theorem setRefEn_false_tt (s : State) : (setRefEn s false).tt =
    { s.tt with refEn := false, lock := .free, ttFree := true, ttHoldover := false, slewing := false, lastEdge := none,
                runPeriods := [], missed := 0 } :=
  setLock_tt _ _

theorem setRefEn_false_changed {s : State} (lock : s.tt.lock ≠ .free) : (setRefEn s false).rb.changed = true :=
  setLock_changed lock


/-- Settles O36: a case for each lock state and each judgement on the edge, and the checks of an edge that does not come. -/
theorem timetableLock : Obligations.TimetableLock := by
  unfold Obligations.TimetableLock
  intro s goes moves nom near
  have nearIs : ∀ {p}, near p → inTolerance nom p = true := (inTolerance_iff _ _).2
  have strays : ∀ {p}, ¬near p → inTolerance nom p = false := (inTolerance_eq_false_iff _ _).2
  refine ⟨fun clock high => ⟨fun ignored => ?ignored, fun long on running => ?live⟩, fun lock => ?missing, fun lock => ?lapse,
    Runs.ttRefEnWrite rfl, Runs.ttRefEnWrite (setRefEn_false_tt s),
    fun lock => Runs.ttRefEnWrite ⟨setRefEn_false_tt s, setRefEn_false_changed lock⟩⟩
  case ignored =>
    exact congrArg _ (ttcEdge_ignored clock ignored)
  case missing =>
    exact ⟨ttMissingEdge_early, ttMissingEdge_counts lock, ttMissingEdge_holdover lock⟩
  case lapse =>
    exact ⟨ttAcquireLapse_early, ttAcquireLapse_lapses lock⟩
  case live =>
    refine ⟨fun lock => ?free, fun lock => ?holdover, fun lock l last => ?acquiring, fun lock l last => ?locked⟩
    case free =>
      refine Runs.ttcInEdge ?_
      rw [ttcEdge_free long on running lock]
      exact ⟨setLock_tt _ _, setLock_changed (by simp [lock])⟩
    case holdover =>
      refine Runs.ttcInEdge ?_
      rw [ttcEdge_holdover long on running lock]
      exact ⟨setLock_tt _ _, setLock_changed (by simp [lock])⟩
    case acquiring =>
      have edge := ttcEdge_acquiring (clock := clock) long on running lock
      refine ⟨fun off => ttcInEdge_strays edge last (strays off),
        fun ok first => ttcInEdge_grows edge last (nearIs ok) first (spread_one _) (by omega) (by simp),
        fun ok a one => ⟨ttcInEdge_breaks edge last (nearIs ok) one (spread_two a _),
          fun fits => ttcInEdge_grows edge last (nearIs ok) one (spread_two a _) fits (by simp)⟩,
        fun ok a b two => ⟨ttcInEdge_breaks edge last (nearIs ok) two (spread_three a b _),
          fun fits => ttcInEdge_locks edge last (nearIs ok) two (spread_three a b _) fits (by simp)
            (ttLock_locks (by simp [lock]) _ _)⟩⟩
    case locked =>
      have edge := ttcEdge_locked (clock := clock) long on running lock
      refine ⟨fun out => Runs.ttcInEdge ?_, fun inside => Runs.ttcInEdge ?_⟩
      · rw [edge, ttTrack_out last ((outOfWindow_iff _ _).2 (edgeOff_eq _ _ _ ▸ out))]
        rfl
      · have notOut := Bool.eq_false_iff.2 fun out => (outOfWindow_iff _ _).1 out (edgeOff_eq s.tt l _ ▸ inside)
        obtain ⟨same, missed, lastEdge, ts, phase, cycle, slot, adopts, refuses⟩ := ttTrack_in last notOut
        rw [edge]
        refine ⟨same.trans lock, missed, lastEdge, ts, phase, cycle, slot, fun none ok => ?_, fun none off => ?_⟩
        · rw [none, onePeriod] at adopts
          rw [adopts (nearIs ok), Nat.zero_add, Nat.div_one]
        · rw [none, onePeriod] at refuses
          exact refuses (strays off)

end Sys2Proof.Machine
end

section
/-! Plan entries (R53, R55): the plan position, the positions that an entry covers, and the overlap of two entries. -/

namespace Sys2Proof.Machine

/-- A position is one of the L positions of an entry from its START on, modulo the period (R53). -/
def Covers (e : Word) (period pos : Nat) : Prop := ∃ j < peLen e, (peStart e + j) % period = pos

/-- How far a position lies behind a start, modulo the period, says whether the positions from the start on reach it. -/
theorem arc_lt_iff {period : Nat} (positive : 0 < period) (x start len : Nat) :
    (x + period - start % period) % period < len ↔ ∃ j < len, (start + j) % period = x % period := by
  have below := Nat.mod_lt start positive
  have whole := Nat.div_add_mod start period
  constructor
  · intro short
    refine ⟨_, short, ?_⟩
    rw [Nat.add_mod_mod, show start + (x + period - start % period) = x + period * (start / period + 1) by
      rw [Nat.mul_add]; omega, Nat.add_mul_mod_self_left]
  · rintro ⟨j, short, reaches⟩
    refine Nat.lt_of_le_of_lt ?_ short
    calc (x + period - start % period) % period
        = (x % period + (period - start % period)) % period := by rw [Nat.mod_add_mod, Nat.add_sub_assoc below.le]
      _ = (j + period * (start / period + 1)) % period := by
          rw [← reaches, Nat.mod_add_mod, show start + j + (period - start % period) = j + period * (start / period + 1) by
            rw [Nat.mul_add]; omega]
      _ ≤ j := by rw [Nat.add_mul_mod_self_left]; exact Nat.mod_le _ _

theorem peCovers_iff {e : Word} {period pos : Nat} (valid : peValid e = true) (inside : pos < period) :
    peCovers e period pos = true ↔ Covers e period pos := by
  rw [peCovers, valid, Bool.true_and, decide_eq_true_iff, arc_lt_iff (Nat.zero_lt_of_lt inside), Nat.mod_eq_of_lt inside]
  rfl

theorem bankPeriod_pos (t : Timetable) (b : Bool) : 1 ≤ bankPeriod t b := Nat.le_add_left _ _

theorem bankPeriod_le (t : Timetable) (b : Bool) : bankPeriod t b ≤ 65536 := by
  have a := t.periodA.isLt
  have b := t.periodB.isLt
  unfold bankPeriod
  split <;> omega

theorem planPos_cast (epoch cycle : BitVec 44) {period : Nat} (positive : 1 ≤ period) :
    (planPos epoch cycle period : Int) = ((cycle.toNat : Int) - (epoch.toNat : Int)) % (period : Int) :=
  Int.toNat_of_nonneg (Int.emod_nonneg _ (by omega))

theorem planPos_lt (epoch cycle : BitVec 44) {period : Nat} (positive : 1 ≤ period) : planPos epoch cycle period < period := by
  have below := Int.emod_lt_of_pos ((cycle.toNat : Int) - (epoch.toNat : Int)) (show (0 : Int) < period by omega)
  rw [← planPos_cast epoch cycle positive] at below
  omega

/-- Settles O37: the position is the remainder over the integers, and an entry covers what its length reaches from its start. -/
theorem planPosition : Obligations.PlanPosition := by
  unfold Obligations.PlanPosition
  intro t cycle e period
  have positive : 1 ≤ period := bankPeriod_pos t t.bankB
  exact ⟨positive, bankPeriod_le t t.bankB, planPos_lt _ _ positive, planPos_cast _ _ positive,
    fun valid pos inside => peCovers_iff valid inside⟩

/-- Two entries meet when the start of one lies among the positions of the other (R55). -/
theorem peOverlap_iff (a b : Word) {period : Nat} (positive : 0 < period) :
    peOverlap a b period = true ↔ ∃ pos < period, Covers a period pos ∧ Covers b period pos := by
  simp only [peOverlap, Bool.or_eq_true, decide_eq_true_eq, arc_lt_iff positive]
  have starts : ∀ e : Word, Covers e period (peStart e % period) := fun e => ⟨0, Nat.succ_pos _, rfl⟩
  constructor
  · rintro (covered | covered)
    · exact ⟨_, Nat.mod_lt _ positive, covered, starts b⟩
    · exact ⟨_, Nat.mod_lt _ positive, starts a, covered⟩
  · rintro ⟨pos, -, ⟨i, iShort, iAt⟩, ⟨j, jShort, jAt⟩⟩
    have same : peStart a + i ≡ peStart b + j [MOD period] := iAt.trans jAt.symm
    rcases Nat.le_total j i with le | le
    · refine .inl ⟨i - j, by omega, Nat.ModEq.add_right_cancel' j ?_⟩
      rwa [Nat.add_assoc, Nat.sub_add_cancel le]
    · refine .inr ⟨j - i, by omega, Nat.ModEq.add_right_cancel' i ?_⟩
      rw [Nat.add_assoc, Nat.sub_add_cancel le]
      exact same.symm

end Sys2Proof.Machine
end

section
/-! The cycle edge (R114, R120): INTA of a function that may send nothing. -/

namespace Sys2Proof.Machine

/-- The PF of port 0 with no completion ring and nothing pending; a configuration write has cleared Bus Master Enable. -/
def silentPf : Func := { exists_ := true, bme := false }

/-- A part in Ready whose timetable runs; INTA of port 0 stands asserted. -/
def intaHeld : State :=
  { pwr := { devState := .ready }, tt := { running := true }
    ports := [(0, { widthMax := 16, linkUp := true, intx := true })], funcs := [(0, silentPf)] }

/-- With Bus Master Enable 0 the issue step that the edge ends leaves INTA as it stands (R120). -/
theorem cycleEdge_intaHeld : ∃ t, exec (.cycleEdge [] 0) intaHeld = .next t ∧ Out.deassertIntx 0 ∉ t.out :=
  ⟨_, rfl, by decide +kernel⟩

/-- Refutes O39: its clause on INTA has Deassert_INTA sent at every edge once no event of a function is pending. In `intaHeld` the
function has Bus Master Enable 0, so its port sends nothing for it (R120), and INTA stays asserted over the edge. The
statement has no hypothesis that the function may send. -/
theorem not_cycleEdge : ¬ Obligations.CycleEdge := by
  unfold Obligations.CycleEdge
  intro h
  obtain ⟨-, edge, -⟩ := h intaHeld
  obtain ⟨t, claimed, -, -, -, -, -, -, -, -, -, -, -, -, inta, -⟩ := edge [] 0 rfl nofun
  obtain ⟨u, actual, unsent⟩ := cycleEdge_intaHeld
  obtain rfl : t = u := Host.Outcome.next.inj (claimed.symm.trans actual)
  exact unsent (inta 0 _ silentPf rfl rfl rfl rfl rfl)

end Sys2Proof.Machine
end

section
/-! The controls of the timetable (R37, R40, R44, R55 to R57): arm bits, plan commit, plan registers and TT_NOW. -/

namespace Sys2Proof.Machine

/-- An entry that is written to the error log is the newest one there. -/
theorem logErr_logged (s : State) (code : Nat) (src : Block) (w : LogAt) (detail : Nat) :
    Logged (BitVec.ofNat 16 code) detail s (logErr s code src w detail) :=
  ⟨rfl, _, rfl, rfl, rfl, rfl⟩

/-! The arm bits -/

theorem ttSwitchArm_arms {s : State} (idle : s.tt.switch = none) :
    Does .ttSwitchArm [.tt] s fun t => t.tt = { s.tt with switch := some { edges := 2 } } := by
  refine Does.of_exec rfl (execTtSwitchArm_frame s) ?_
  rw [updTt_tt, idle]

theorem ttSwitchArm_pending {s : State} {sw : TtSwitch} (pending : s.tt.switch = some sw) : exec .ttSwitchArm s = .next s := by
  change execTtSwitchArm s = _
  simp only [execTtSwitchArm, updTt, pending]

/-! The commit of a plan -/

/-- An entry of a bank meets the commit check (R55): it names a port, fits in the period, and shares no position with another
entry of the same port. -/
def EntryFits (bank : Tab Word) (period : Nat) (x : Nat × Word) : Prop := peValid x.2 = true →
  peMember x.2 ≤ 71 ∧ peLen x.2 ≤ period ∧ peStart x.2 < period ∧
  ∀ y ∈ bank, y.1 ≠ x.1 → peValid y.2 = true → peMember y.2 = peMember x.2 →
    ¬∃ pos < period, Covers x.2 period pos ∧ Covers y.2 period pos

/-- No other entry of the port meets this one. -/
theorem bank_apart_iff (bank : Tab Word) {period : Nat} (positive : 0 < period) (x : Nat × Word) :
    (bank.any fun y => y.1 != x.1 && peValid y.2 && peMember y.2 == peMember x.2 && peOverlap x.2 y.2 period) = false ↔
      ∀ y ∈ bank, y.1 ≠ x.1 → peValid y.2 = true → peMember y.2 = peMember x.2 →
        ¬∃ pos < period, Covers x.2 period pos ∧ Covers y.2 period pos := by
  simp only [← peOverlap_iff _ _ positive, List.any_eq_false, Bool.and_eq_true, bne_iff_ne, beq_iff_eq, not_and, and_imp]

theorem peCheck_eq_zero_iff (bank : Tab Word) {period : Nat} (positive : 0 < period) (x : Nat × Word) :
    peCheck bank period x.1 x.2 = 0 ↔ EntryFits bank period x := by
  unfold EntryFits
  rw [← bank_apart_iff bank positive, peCheck]
  cases peValid x.2 with
  | false => simp
  | true => grind

theorem peCheck_lt (bank : Tab Word) (period i : Nat) (e : Word) : peCheck bank period i e < 4 := by
  unfold peCheck
  repeat' split
  all_goals decide

theorem peValid_of_peCheck {bank : Tab Word} {period i : Nat} {e : Word} (fails : peCheck bank period i e ≠ 0) : peValid e = true := by
  cases valid : peValid e
  case true => rfl
  case false => simp [peCheck, valid] at fails

theorem planCheck_eq_none_iff (bank : Tab Word) {period : Nat} (positive : 0 < period) :
    planCheck bank period = none ↔ ∀ x ∈ bank, EntryFits bank period x := by
  simp only [planCheck, List.findSome?_eq_none_iff, ite_eq_left_iff, reduceCtorEq, imp_false, not_not, peCheck_eq_zero_iff bank positive]

theorem planCheck_some {bank : Tab Word} {period i k : Nat} (found : planCheck bank period = some (i, k)) :
    ∃ x ∈ bank, i = x.1 ∧ k = peCheck bank period x.1 x.2 ∧ k ≠ 0 := by
  obtain ⟨x, mem, here⟩ := List.exists_of_findSome?_eq_some found
  by_cases zero : peCheck bank period x.1 x.2 = 0
  · simp [zero] at here
  · obtain ⟨rfl, rfl⟩ : x.1 = i ∧ peCheck bank period x.1 x.2 = k := by simpa [zero] using here
    exact ⟨x, mem, rfl, rfl, zero⟩

/-- The entries and the period of the bank that a commit checks. -/
theorem inactiveBank (t : Timetable) : bankOf t (!t.bankB) = (if t.bankB then t.planA else t.planB) ∧
    bankPeriod t (!t.bankB) = (if t.bankB then t.periodA.toNat else t.periodB.toNat) + 1 := by
  unfold bankOf bankPeriod
  cases t.bankB <;> exact ⟨rfl, rfl⟩

section
variable {s : State} {bank : Tab Word} {period : Nat} (bankIs : bankOf s.tt (!s.tt.bankB) = bank)
  (periodIs : bankPeriod s.tt (!s.tt.bankB) = period)
include bankIs periodIs

/-- A bank whose entries all meet the check is scheduled (R55). -/
theorem ttPlanCommit_accepts (good : ∀ x ∈ bank, EntryFits bank period x) :
    Does .ttPlanCommit [.tt] s fun t => t.tt = { s.tt with commitPend := true } := by
  have positive : 0 < period := periodIs ▸ bankPeriod_pos _ _
  have accepted : planCommit s = updTt s fun t => { t with commitPend := true } := by
    rw [planCommit, bankIs, periodIs, (planCheck_eq_none_iff bank positive).2 good]
  exact ⟨planCommit s, rfl, accepted ▸ updTt_frame s _, by rw [accepted]; rfl⟩

/-- The commit of a bank with an entry that fails the check is refused, with the index and the kind of a failing entry (R55). -/
theorem ttPlanCommit_refuses (bad : ∃ x ∈ bank, ¬EntryFits bank period x) :
    Does .ttPlanCommit [.tt, .fresh] s fun t => t.tt.planErr = true ∧ t.tt.errKind ≠ 0 ∧
      (∃ x ∈ bank, t.tt.errIndex = BitVec.ofNat 10 x.1 ∧ peValid x.2 = true) ∧
      t.tt = { s.tt with planErr := true, errIndex := t.tt.errIndex, errKind := t.tt.errKind } := by
  have positive : 0 < period := periodIs ▸ bankPeriod_pos _ _
  have fails : planCheck bank period ≠ none := fun none => by
    obtain ⟨x, mem, off⟩ := bad
    exact off ((planCheck_eq_none_iff bank positive).1 none x mem)
  obtain ⟨⟨i, k⟩, found⟩ := Option.ne_none_iff_exists'.1 fails
  obtain ⟨x, mem, rfl, rfl, kind⟩ := planCheck_some found
  refine Does.of_exec rfl (execTtPlanCommit_frame s) ?_
  have refused : (planCommit s).tt = { s.tt with planErr := true, errIndex := BitVec.ofNat 10 x.1,
                                                 errKind := BitVec.ofNat 2 (peCheck bank period x.1 x.2) } := by
    rw [planCommit, bankIs, periodIs, found]
    rfl
  rw [refused]
  refine ⟨rfl, fun zero => kind ?_, ⟨x, mem, rfl, peValid_of_peCheck kind⟩, rfl⟩
  have small := peCheck_lt bank period x.1 x.2
  simpa [Nat.mod_eq_of_lt small] using congrArg BitVec.toNat zero

end

/-! The registers of the bank in force -/

theorem inBank_iff (bankB : Bool) (off : Nat) : inBank bankB off = true ↔
    if bankB then off = 0x4C ∨ (0x3000 ≤ off ∧ off < 0x5000) else off = 0x48 ∨ (0x1000 ≤ off ∧ off < 0x3000) := by
  cases bankB <;> simp [inBank]

theorem ttActiveBankWrite_logs {s : State} {off : Nat} (v : Word) (active : inBank s.tt.bankB off = true) :
    Does (.ttActiveBankWrite off v) [.errLog, .errSeq] s (Logged 0x0202#16 off s) := by
  refine Does.of_exec rfl (execTtActiveBankWrite_frame off v s) ?_
  rw [if_pos active]
  exact logErr_logged s 0x0202 .timetable {} off

theorem ttActiveBankWrite_elsewhere {s : State} {off : Nat} (v : Word) (free : inBank s.tt.bankB off = false) :
    exec (.ttActiveBankWrite off v) s = .next s := by
  change execTtActiveBankWrite off v s = _
  rw [execTtActiveBankWrite, free]
  rfl

/-! TT_NOW -/

@[simp] theorem ttLatch_setTtLatch_same (t : Timetable) (who : TtRequester) (v : BitVec 32) :
    ttLatch (setTtLatch t who v) who = some v := by
  cases who <;> simp [ttLatch, setTtLatch]

/-- The latches of the other requesters stay (R37). -/
theorem ttLatch_setTtLatch_other (t : Timetable) {who w : TtRequester} (v : BitVec 32) (other : w ≠ who) :
    ttLatch (setTtLatch t who v) w = ttLatch t w := by
  cases who with
  | fnNow f =>
    cases w with
    | fnNow g => exact Tab.find_put_other _ _ fun same => other (congrArg _ same)
    | mirror | core => rfl
  | mirror f =>
    cases w with
    | mirror g => exact Tab.find_put_other _ _ fun same => other (congrArg _ same)
    | fnNow | core => rfl
  | core c =>
    cases w with
    | core d => exact Tab.find_put_other _ _ fun same => other (congrArg _ same)
    | fnNow | mirror => rfl

/-- A read of both halves, or of the high half, changes nothing but what the part returns (R37). -/
theorem ttNowRead_keeps (s : State) (who : TtRequester) {how : TtRead} (keeps : how ≠ .low) :
    Does (.ttNowRead who how) [.out] s fun t => t.out = .regRead (ttNowValue s who how) :: s.out := by
  cases how with
  | low => exact absurd rfl keeps
  | full | high => exact ⟨_, rfl, emit_frame s _, rfl⟩

theorem ttNowRead_latches (s : State) (who : TtRequester) : Does (.ttNowRead who .low) [.tt, .out] s fun t =>
    t.out = .regRead (((now s).extractLsb' 0 32).zeroExtend 64) :: s.out ∧
      ttLatch t.tt who = some ((now s).extractLsb' 32 32) ∧ ∀ w, w ≠ who → ttLatch t.tt w = ttLatch s.tt w :=
  Does.of_exec rfl (execTtNowRead_frame who .low s)
    ⟨rfl, ttLatch_setTtLatch_same _ _ _, fun _ other => ttLatch_setTtLatch_other _ _ other⟩

/-- Settles O38: the commit check is decided entry by entry, and two entries overlap when the start of one lies in the other. -/
theorem timetableControl : Obligations.TimetableControl := by
  unfold Obligations.TimetableControl
  intro s goes off bank period covers good
  obtain ⟨bankIs, periodIs⟩ := inactiveBank s.tt
  refine ⟨Does.of_exec rfl (execTtLoadArm_frame s) rfl, ttSwitchArm_arms, fun sw => ttSwitchArm_pending,
    ttPlanCommit_accepts bankIs periodIs, ttPlanCommit_refuses bankIs periodIs,
    fun en => Does.of_exec rfl (execTtPlanEnWrite_frame en s) rfl,
    fun e => Does.of_exec rfl (execTtPlanEpochWrite_frame e s) rfl,
    fun o v => ⟨fun active => ttActiveBankWrite_logs v ((inBank_iff _ _).2 active), fun free => ttActiveBankWrite_elsewhere v ?_⟩,
    fun who => ⟨ttNowRead_keeps s who nofun, ttNowRead_latches s who, ttNowRead_keeps s who nofun⟩⟩
  exact Bool.eq_false_iff.2 fun active => free ((inBank_iff _ _).1 active)

end Sys2Proof.Machine
end

section
/-! Possessions (R54, R370, R372 to R374): the lead notice, the Window Selects, their completions and retries, and strays. -/

namespace Sys2Proof.Machine

/-! A command of the initiator's own (R366) -/

/-- The administrative command that `sendAdmin` registers for no waiter. -/
def adminMemCmd (s : State) (op : MemOp) : MemCmd :=
  { op := op, ctx := none, ticket := 0, lba := 0, count := 0, frames := [], issued := now s,
    due := after s (max 1 s.mem.tmoAdmin.toNat), express := false, determ := false, jrec := none }

/-- A port with a command registered under its next identifier. -/
def MPort.registered (p : MPort) (m : MemCmd) : MPort :=
  { p with cmds := p.cmds.put p.nextCid m, nextCid := p.nextCid + 1, idleCycles := 0, lowPower := false }

theorem sendAdmin_eq {s : State} {port : Nat} {p : MPort} (op : MemOp) (here : s.mports.find port = some p) :
    sendAdmin s port op none =
      emit (updMport (if p.lowPower then emit s (.memPower port false) else s) port fun p => p.registered (adminMemCmd s op))
        (.memCmd port p.nextCid op 0 0 false false) := by
  rw [sendAdmin, sendMem, echoFirst]
  simp only [Option.bind_none, here]
  rfl

theorem sendAdmin_mports {s : State} {port : Nat} {p : MPort} (op : MemOp) (here : s.mports.find port = some p) :
    (sendAdmin s port op none).mports = s.mports.upd port fun p => p.registered (adminMemCmd s op) := by
  rw [sendAdmin_eq op here]
  split <;> rfl

/-- A Window Select left for the port: it is registered under the port's next identifier with its timeout, it is the last output,
and no other port changes. -/
def WinSent (s : State) (port : Nat) (p : MPort) (op : MemOp) (t : State) (post : MPort → Prop) : Prop :=
  ∃ q m, t.mports.find port = some q ∧ q.cmds.find p.nextCid = some m ∧ m.op = op ∧
    m.due = after s (max 1 s.mem.tmoAdmin.toNat) ∧ post q ∧
    t.out.head? = some (.memCmd port p.nextCid op 0 0 false false) ∧ ∀ k, k ≠ port → t.mports.find k = s.mports.find k

theorem WinSent.of_same {s t u : State} {port : Nat} {p : MPort} {op : MemOp} {post : MPort → Prop}
    (sent : WinSent s port p op t post) (mports : u.mports = t.mports) (out : u.out = t.out) : WinSent s port p op u post := by
  unfold WinSent at *
  rwa [mports, out]

/-- From s to u at most one port has changed, from p to x, and nothing that a timeout is reckoned from. -/
structure PortBecame (s : State) (port : Nat) (p x : MPort) (u : State) : Prop where
  tt : u.tt = s.tt
  mem : u.mem = s.mem
  here : u.mports.find port = some x
  nextCid : x.nextCid = p.nextCid
  others : ∀ k, k ≠ port → u.mports.find k = s.mports.find k

section
variable {s u : State} {port : Nat} {p x : MPort}

theorem PortBecame.refl (here : s.mports.find port = some p) : PortBecame s port p p s := ⟨rfl, rfl, here, rfl, fun _ _ => rfl⟩

theorem PortBecame.updMport {g : MPort → MPort} (became : PortBecame s port p x u) (cid : (g x).nextCid = x.nextCid) :
    PortBecame s port p (g x) (updMport u port g) where
  tt := became.tt
  mem := became.mem
  here := by simp [became.here]
  nextCid := cid.trans became.nextCid
  others k other := (Tab.find_upd_other _ _ other).trans (became.others k other)

theorem PortBecame.sendAdmin {op : MemOp} {post : MPort → Prop} (became : PortBecame s port p x u)
    (h : ∀ m, post (x.registered m)) : WinSent s port p op (sendAdmin u port op none) post := by
  obtain ⟨tt, mem, here, cid, others⟩ := became
  refine ⟨x.registered (adminMemCmd u op), adminMemCmd u op, ?_, ?_, rfl, ?_, h _, ?_, fun k other => ?_⟩
  · rw [sendAdmin_mports op here, Tab.find_upd_same, here]
    rfl
  · rw [← cid]
    exact Tab.find_put_same _ _ _
  · simp only [adminMemCmd, after, now, tt, mem]
  · rw [sendAdmin_eq op here, cid]
    rfl
  · rw [sendAdmin_mports op here, Tab.find_upd_other _ _ other, others k other]

/-- An NDWIN that is issued leaves none to retry (R370). -/
theorem PortBecame.sendNdwin {post : MPort → Prop} (became : PortBecame s port p x u)
    (h : ∀ m, post (MPort.registered { x with ndwinSent := true, retryDue := none } m)) :
    WinSent s port p .winNdwin (sendNdwin u port) post :=
  (became.updMport (g := fun x => { x with ndwinSent := true, retryDue := none }) rfl).sendAdmin h

/-- A DTWIN that is issued has not succeeded yet, and leaves none to retry (R370, R374). -/
theorem PortBecame.sendDtwin {post : MPort → Prop} (became : PortBecame s port p x u)
    (h : ∀ m, post (MPort.registered { x with dtwinSent := true, dtwinDone := false, retryDue := none } m)) :
    WinSent s port p .winDtwin (sendDtwin u port) post :=
  (became.updMport (g := fun x => { x with dtwinSent := true, dtwinDone := false, retryDue := none }) rfl).sendAdmin h

end

/-! The commands of a possession that starts or ends (R54, R370) -/

section
variable {s : State} {port : Nat} {p : MPort} (here : s.mports.find port = some p) (w0 : onW0 s = true)
include here w0

theorem possessionLeadNotice_leads (slot : 2 ^ s.tt.kActive = s.tt.slot + s.tt.possLead.toNat)
    (start : entryAt s.tt port (s.tt.cycle + 1) ≠ none) (fresh : entryAt s.tt port (s.tt.cycle + 1) ≠ p.annc)
    (out : p.inPoss = false) (taken : takeable s port p = true) :
    Does (.possessionLeadNotice port) [.mports] s (MportIs port { p with lead := true } s) := by
  have run : exec (.possessionLeadNotice port) s = .next (updMport s port fun p => { p with lead := true }) := by
    change execPossessionLeadNotice port s = _
    simp only [execPossessionLeadNotice, here, w0, leadSlot, slotsOf, beq_iff_eq.2 slot, Option.isSome_iff_ne_none.2 start,
      bne_iff_ne.2 fresh, out, taken]
    rfl
  exact Does.of_exec run (execPossessionLeadNotice_frame port s) ⟨by simp [here], fun k other => Tab.find_upd_other _ _ other⟩

theorem possNdwinIssue_sends (inPoss : p.inPoss = true) (ndwin : p.ndwinSent = false) (dtwin : p.dtwinSent = false)
    (clear : ∀ x ∈ p.cmds, (x.2.op == .read && x.2.express && x.2.determ) = false) :
    Runs (.possNdwinIssue port) s fun t => WinSent s port p .winNdwin t fun q => q.ndwinSent = true := by
  have none : earlierReads p = false := List.any_eq_false.2 fun x mem => by simp [clear x mem]
  have run : exec (.possNdwinIssue port) s = .next (wakeMem (sendNdwin s port) port) := by
    change execPossNdwinIssue port s = _
    simp [execPossNdwinIssue, here, w0, inPoss, ndwin, dtwin, none]
  have woken := wakeMem_frame (sendNdwin s port) port
  exact Does.of_exec run (execPossNdwinIssue_frame port s)
    (((PortBecame.refl here).sendNdwin fun _ => rfl).of_same (woken .mports (by decide)) (woken .out (by decide)))

theorem possDtwinIssue_sends (slot : 2 ^ s.tt.kActive ≤ s.tt.slot + s.tt.possLead.toNat) (inPoss : p.inPoss = true)
    (dtwin : p.dtwinSent = false) (ends : entryAt s.tt port (s.tt.cycle + 1) ≠ p.annc)
    (stops : entryAt s.tt port (s.tt.cycle + 1) = none ∨ takeable s port p = false) :
    Runs (.possDtwinIssue port) s fun t => WinSent s port p .winDtwin t fun q => q.dtwinSent = true ∧ q.dtwinDone = false := by
  have continued : ((entryAt s.tt port (s.tt.cycle + 1)).isSome && takeable s port p) = false := by
    rcases stops with none | refused
    · rw [none]
      rfl
    · rw [refused, Bool.and_false]
  have run : exec (.possDtwinIssue port) s = .next (sendDtwin s port) := by
    change execPossDtwinIssue port s = _
    simp only [execPossDtwinIssue, here, w0, leadCame, slotsOf, slot, inPoss, dtwin, bne_iff_ne.2 ends, continued]
    rfl
  exact Does.of_exec run (execPossDtwinIssue_frame port s) ((PortBecame.refl here).sendDtwin fun _ => ⟨rfl, rfl⟩)

/-! Retry (R370, R374) -/

section
variable {d : Word} (retry : p.retryDue = some d) (come : due s d = true)
include retry come

theorem exec_windowSelectRetry : exec (.windowSelectRetry port) s =
    .next (if p.inPoss && !p.dtwinSent then sendNdwin s port else sendDtwin s port) := by
  change execWindowSelectRetry port s = _
  simp [execWindowSelectRetry, here, w0, retry, come]

theorem windowSelectRetry_ndwin (before : p.inPoss = true ∧ p.dtwinSent = false) : Runs (.windowSelectRetry port) s fun t =>
    WinSent s port p .winNdwin t fun q => q.retryDue = none ∧ q.ndwinSent = true := by
  refine Does.of_exec (exec_windowSelectRetry here w0 retry come) (execWindowSelectRetry_frame port s) ?_
  rw [if_pos (by simp [before])]
  exact (PortBecame.refl here).sendNdwin fun _ => ⟨rfl, rfl⟩

theorem windowSelectRetry_dtwin (after_ : p.inPoss = false ∨ p.dtwinSent = true) : Runs (.windowSelectRetry port) s fun t =>
    WinSent s port p .winDtwin t fun q => q.retryDue = none ∧ q.dtwinSent = true := by
  refine Does.of_exec (exec_windowSelectRetry here w0 retry come) (execWindowSelectRetry_frame port s) ?_
  rw [if_neg (by rcases after_ with out | sent <;> simp [*])]
  exact (PortBecame.refl here).sendDtwin fun _ => ⟨rfl, rfl⟩

end

/-! A stray (R372, R374) -/

theorem strayEvent_logs (plm : p.plm = true) (watched : judged p.state = true) (out : p.inPoss = false)
    (depth : depthPositive s p = true) : Runs (.strayEvent port) s fun t => Logged 0x0B11#16 0 s t ∧ t.rb.changed = true ∧
      WinSent s port p .winDtwin t fun q => q.stray = true := by
  let u := logErr (updMport s port fun p => { p with stray := true }) 0x0B11 .initiator { member := port } 0
  have run : exec (.strayEvent port) s = .next (rbChange (sendDtwin u port)) := by
    change execStrayEvent port s = _
    simp only [execStrayEvent, here, w0, plm, watched, out, depth]
    rfl
  have kept := sendDtwin_frame u port
  have became : PortBecame s port p { p with stray := true } u :=
    { (PortBecame.refl here).updMport (g := fun p => { p with stray := true }) rfl with }
  refine Does.of_exec run (execStrayEvent_frame port s) ⟨?_, rfl, (became.sendDtwin fun _ => rfl).of_same rfl rfl⟩
  obtain ⟨seq, e, first, named⟩ :=
    logErr_logged (updMport s port fun p => { p with stray := true }) 0x0B11 .initiator { member := port } 0
  exact ⟨(kept .errSeq (by decide)).trans seq, e, (congrArg List.head? (kept .errLog (by decide))).trans first, named⟩

end

/-! The completion of a Window Select (R370, R373, R374) -/

/-- The end of a member command takes it from the port's commands; what else it changes is not at the port. -/
theorem endCmd_rest (s : State) (port cid : Nat) (m : MemCmd) (ev : TicketEvent) : OnlyChanges [.ctxs, .cache, .journal, .seqCtr]
    (updMport s port fun p => { p with cmds := p.cmds.del cid }) (endCmd s port cid m ev) := by
  unfold endCmd
  extract_lets gone filled written told
  have hFilled : OnlyChanges [.ctxs, .cache, .journal, .seqCtr] gone filled :=
    OnlyChanges.ite1 (OnlyChanges.foldl (fun _ _ k => OnlyChanges.step (filledFrame_frame _ _) k) (OnlyChanges.refl _ _))
      (OnlyChanges.refl _ _)
  have hWritten : OnlyChanges [.ctxs, .cache, .journal, .seqCtr] gone written := by
    unfold written
    split
    · exact OnlyChanges.step (endWrite_frame _ _ _ _) hFilled
    · exact hFilled
  have hTold : OnlyChanges [.ctxs, .cache, .journal, .seqCtr] gone told := by
    unfold told
    split
    · exact OnlyChanges.step (tryTickets_frame _ _) (OnlyChanges.step (updCtx_frame _ _ _) hWritten)
    · exact hWritten
  exact OnlyChanges.step (wakeFrameWaiters_frame _) (OnlyChanges.step (unpinAll_frame _ _) hTold)

section
variable {s u v : State} {port : Nat} {p x : MPort}

theorem PortBecame.step {F : List Part} (became : PortBecame s port p x u) (k : OnlyChanges F u v) (tt : Part.tt ∉ F := by decide)
    (mem : Part.mem ∉ F := by decide) (mports : Part.mports ∉ F := by decide) : PortBecame s port p x v where
  tt := (k .tt tt).trans became.tt
  mem := (k .mem mem).trans became.mem
  here := (congrArg (Tab.find · port) (k .mports mports)).trans became.here
  nextCid := became.nextCid
  others n other := (congrArg (Tab.find · n) (k .mports mports)).trans (became.others n other)

theorem PortBecame.endCmd (became : PortBecame s port p x u) (cid : Nat) (m : MemCmd) (ev : TicketEvent) :
    PortBecame s port p { x with cmds := x.cmds.del cid } (endCmd u port cid m ev) :=
  (became.updMport (g := fun x => { x with cmds := x.cmds.del cid }) rfl).step (endCmd_rest u port cid m ev)

theorem PortBecame.retryWin (became : PortBecame s port p x u) :
    PortBecame s port p { x with retryDue := some (after s s.mem.winRetry.toNat) } (retryWin u port) := by
  have time : after u u.mem.winRetry.toNat = after s s.mem.winRetry.toNat := by
    simp only [after, now, became.tt, became.mem]
  rw [← time]
  exact became.updMport (g := fun x => { x with retryDue := some (after u u.mem.winRetry.toNat) }) rfl

/-- A possession that is over leaves no Window Select to issue or to retry, and the member is no stray (R369, R374). -/
theorem PortBecame.endPoss (became : PortBecame s port p x u) (inPoss : x.inPoss = true) :
    PortBecame s port p { x with inPoss := false, stray := false, early := false, dtwinSent := false, dtwinDone := false,
                                 ndwinSent := false, retryDue := none } (endPoss u port) := by
  have ended := became.updMport (g := fun x =>
    { x with inPoss := false, stray := false, early := false, dtwinSent := false, dtwinDone := false, ndwinSent := false,
             retryDue := none }) rfl
  simp only [Machine.endPoss, became.here, inPoss, Bool.not_true, Bool.false_eq_true, if_false]
  split
  · exact ended.step (updGroup_frame _ _ _)
  · exact ended

end

section
variable {s : State} {port cid : Nat} {p : MPort} {m : MemCmd} (here : s.mports.find port = some p)
include here

theorem winCompletion_refused : PortBecame s port p
    { p with cmds := p.cmds.del cid, retryDue := some (after s s.mem.winRetry.toNat) } (winCompletion s port cid m false) :=
  ((PortBecame.refl here).endCmd cid m .ok).retryWin

theorem winCompletion_ndwin (op : m.op = .winNdwin) :
    PortBecame s port p { p with cmds := p.cmds.del cid } (winCompletion s port cid m true) := by
  have taken : winCompletion s port cid m true = endCmd s port cid m .ok := by simp [winCompletion, op]
  exact taken ▸ (PortBecame.refl here).endCmd cid m .ok

variable (op : m.op = .winDtwin)
include op

theorem winCompletion_dtwin_onTime (early : p.early = false) : PortBecame s port p
    { p with cmds := p.cmds.del cid, dtwinDone := p.inPoss, retryDue := none, dtwinSent := p.inPoss }
    (winCompletion s port cid m true) := by
  have ended := (PortBecame.refl here).endCmd cid m .ok
  have taken : winCompletion s port cid m true = updMport (endCmd s port cid m .ok) port fun p =>
      { p with dtwinDone := p.inPoss, retryDue := none, dtwinSent := p.inPoss } := by
    simp [winCompletion, op, ended.here, early]
  exact taken ▸ ended.updMport (g := fun p => { p with dtwinDone := p.inPoss, retryDue := none, dtwinSent := p.inPoss }) rfl

theorem winCompletion_dtwin_early (early : p.early = true) (inPoss : p.inPoss = true) : PortBecame s port p
    { p with cmds := p.cmds.del cid, inPoss := false, stray := false, early := false, dtwinSent := false, dtwinDone := false,
             ndwinSent := false, retryDue := none } (winCompletion s port cid m true) := by
  have ended := (PortBecame.refl here).endCmd cid m .ok
  have taken : winCompletion s port cid m true = wakeMem (endPoss (endCmd s port cid m .ok) port) port := by
    simp [winCompletion, op, ended.here, early]
  exact taken ▸ (ended.endPoss inPoss).step (wakeMem_frame _ _)

end

/-- A completion ends the outstanding Window Select of its port, and what becomes of the port is what the command shows. -/
theorem Runs.windowSelectCompletion {s : State} {port cid : Nat} {p x : MPort} {m : MemCmd} {ok : Bool} {post : MPort → Prop}
    (here : s.mports.find port = some p) (select : winCmd p = some (cid, m))
    (became : PortBecame s port p x (winCompletion s port cid m ok)) (cmds : x.cmds = p.cmds.del cid) (h : post x) :
    Runs (.windowSelectCompletion port ok) s fun t => ∃ q, t.mports.find port = some q ∧ q.cmds = p.cmds.del cid ∧ post q := by
  have run : exec (.windowSelectCompletion port ok) s = .next (winCompletion s port cid m ok) := by
    change execWindowSelectCompletion port ok s = _
    simp only [execWindowSelectCompletion, here, Option.bind_some, select]
  exact Does.of_exec run (execWindowSelectCompletion_frame port ok s) ⟨x, became.here, cmds, h⟩

end Sys2Proof.Machine

namespace Sys2Proof

open Machine

/-- Settles O40: what becomes of the port is read off each command, and the Window Select that leaves is the port's next
identifier's. -/
theorem possessions : Obligations.Possessions := by
  unfold Obligations.Possessions
  intro s port p here sent next
  refine ⟨fun w0 => ⟨possessionLeadNotice_leads here w0, possNdwinIssue_sends here w0, possDtwinIssue_sends here w0,
    fun d retry come => ⟨windowSelectRetry_ndwin here w0 retry come, windowSelectRetry_dtwin here w0 retry come⟩,
    strayEvent_logs here w0⟩, fun cid m select => ⟨fun op => ?ndwin, fun op => ?dtwin⟩⟩
  case ndwin =>
    exact ⟨Runs.windowSelectCompletion here select (winCompletion_ndwin here op) rfl ⟨rfl, rfl⟩,
      Runs.windowSelectCompletion here select (winCompletion_refused here) rfl ⟨rfl, rfl⟩⟩
  case dtwin =>
    exact ⟨Runs.windowSelectCompletion here select (winCompletion_refused here) rfl ⟨rfl, rfl⟩,
      fun early => Runs.windowSelectCompletion here select (winCompletion_dtwin_onTime here op early) rfl ⟨rfl, rfl, rfl⟩,
      fun early inPoss => Runs.windowSelectCompletion here select (winCompletion_dtwin_early here op early inPoss) rfl
        ⟨rfl, rfl, rfl⟩⟩

end Sys2Proof
end

section
/-! Peer windows and the admission unit (R60, R63, R74, R420, R421): commits, the Maintenance floor and a group's running mode. -/

namespace Sys2Proof.Machine

/-! Commits of a window -/

theorem commitDone_nil (s : State) : commitDone s [] = s := rfl

theorem updWin_funcIs {s t : State} {f w : Nat} {fn : Func} (g : Window → Window) (here : fnOf s f = some fn)
    (same : t.funcs = s.funcs) : FuncIs f { fn with windows := fn.windows.put w (g (winOf fn w)) } s (updWin t f w g) := by
  have found := fnOf_find here
  unfold FuncIs updWin
  rw [updFunc_funcs, same]
  exact ⟨by rw [Tab.find_upd_same, found]; rfl, fun k other => Tab.find_upd_other _ _ other⟩

theorem FuncIs.of_same {f : Nat} {fn : Func} {s t u : State} (h : FuncIs f fn s t) (same : u.funcs = t.funcs) : FuncIs f fn s u := by
  unfold FuncIs at *
  rwa [same]

/-- Frames given back, with their waiters woken, change no function. -/
theorem wakeFrameWaiters_unpinAll_funcs (s : State) (frs : List Nat) : (wakeFrameWaiters (unpinAll s frs)).funcs = s.funcs :=
  (wakeFrameWaiters_frame _ .funcs (by decide)).trans (unpinAll_frame s frs .funcs (by decide))

section
variable {s : State} {f w : Nat} {fn : Func} (here : fnOf s f = some fn)
include here

theorem winCommit_disabled (off : (winOf fn w).shEn = false) : winCommit s f w = commitDone
    (wakeFrameWaiters (unpinAll (updWin s f w fun y => { inForce y with pages := [] }) (Tab.vals (winOf fn w).pages)))
    (winOf fn w).commitWait := by
  simp only [winCommit, here, off, Bool.not_false, if_true]

variable (on : (winOf fn w).shEn = true)
include on

theorem winCommit_kept (en : (winOf fn w).en = true) (size : (winOf fn w).shSize = (winOf fn w).size) :
    winCommit s f w = commitDone (updWin s f w inForce) (winOf fn w).commitWait := by
  simp only [winCommit, here, on, en, size, beq_self_eq_true, Bool.and_self, Bool.not_true, Bool.false_eq_true, if_false, if_true]

variable (anew : (winOf fn w).en = false ∨ (winOf fn w).shSize ≠ (winOf fn w).size)
include anew

theorem winCommit_short (none : winFrames ((winOf fn w).shSize / 4096) s = none) :
    winCommit s f w = updWin s f w fun y => { y with commitPend := true } := by
  have changes : ((winOf fn w).en && (winOf fn w).shSize == (winOf fn w).size) = false := by
    rcases anew with dis | size <;> simp [*]
  simp only [winCommit, here, on, changes, none, Bool.not_true, Bool.false_eq_true, if_false]

theorem winCommit_framed {frs : List Nat} {u : State} (some : winFrames ((winOf fn w).shSize / 4096) s = some (frs, u)) :
    winCommit s f w = commitDone (wakeFrameWaiters (unpinAll
      (updWin u f w fun y => { inForce y with pages := (List.range frs.length).zip frs }) (Tab.vals (winOf fn w).pages)))
      (winOf fn w).commitWait := by
  have changes : ((winOf fn w).en && (winOf fn w).shSize == (winOf fn w).size) = false := by
    rcases anew with dis | size <;> simp [*]
  simp only [winCommit, here, on, changes, some, Bool.not_true, Bool.false_eq_true, if_false]

end

/-- A command that commits a window: what the commit leaves of its function, by the shadow set and the free frames. -/
theorem commits_window {s : State} {c : Instr} {f w : Nat} {fn : Func} (here : fnOf s f = some fn)
    (run : exec c s = .next (winCommit s f w)) (foot : footprint c = [.funcs, .ctxs, .cache, .out, .freeCtr, .seqCtr])
    (idle : (winOf fn w).commitWait = []) :
    let x := winOf fn w
    let puts : Window → State → Prop := fun y t => FuncIs f { fn with windows := fn.windows.put w y } s t
    (x.shEn = false → Runs c s (puts { inForce x with pages := [] })) ∧
    (x.shEn = true → x.en = true → x.shSize = x.size → Does c [.funcs] s (puts (inForce x))) ∧
    (x.shEn = true → x.en = false ∨ x.shSize ≠ x.size →
      (winFrames (x.shSize / 4096) s = none → Does c [.funcs] s (puts { x with commitPend := true })) ∧
      (∀ frs u, winFrames (x.shSize / 4096) s = some (frs, u) →
        Runs c s (puts { inForce x with pages := (List.range frs.length).zip frs }))) := by
  have framed : OnlyChanges (footprint c) s (winCommit s f w) := foot ▸ winCommit_frame s f w
  refine ⟨fun off => ⟨_, run, framed, ?_⟩, fun on en size => ?_, fun on anew => ⟨fun none => ?_, fun frs u some => ⟨_, run, framed, ?_⟩⟩⟩
  · rw [winCommit_disabled here off, idle, commitDone_nil]
    exact (updWin_funcIs _ here rfl).of_same (wakeFrameWaiters_unpinAll_funcs _ _)
  · rw [winCommit_kept here on en size, idle, commitDone_nil] at run
    exact ⟨_, run, updWin_frame s f w _, updWin_funcIs _ here rfl⟩
  · rw [winCommit_short here on anew none] at run
    exact ⟨_, run, updWin_frame s f w _, updWin_funcIs _ here rfl⟩
  · rw [winCommit_framed here on anew some, idle, commitDone_nil]
    have taken : u.funcs = s.funcs := winFrames_frame _ s _ some .funcs (by decide)
    exact (updWin_funcIs _ here taken).of_same (wakeFrameWaiters_unpinAll_funcs _ _)

theorem exec_winCommit {s : State} {f w : Nat} (bound : w < 16) : exec (.winCommit f w) s = .next (winCommit s f w) :=
  congrArg _ (if_pos bound)

theorem exec_winCommitResume {s : State} {f w : Nat} {fn : Func} (here : fnOf s f = some fn)
    (pend : (winOf fn w).commitPend = true) : exec (.winCommitResume f w) s = .next (winCommit s f w) := by
  change execWinCommitResume f w s = _
  simp only [execWinCommitResume, here, pend, if_true]

/-! The Maintenance floor and the running mode of a group -/

theorem fieldOf_zero {n : Nat} (v : BitVec n) (k : Nat) : fieldOf v 0 k = v.toNat % 2 ^ k := by
  simp [fieldOf]

/-- The ceilings for the timetable in force are in their registers once they have been computed anew. -/
theorem setCeil_adm (s : State) :
    (setCeil s).adm.maintFloor = s.adm.maintFloor ∧ (setCeil s).adm.ceilEng = BitVec.ofNat 32 (24 * s.tt.nomActive.toNat) ∧
      (setCeil s).adm.ceilMov = BitVec.ofNat 32 (s.tt.nomActive.toNat * 256 / 4096) ∧
      (setCeil s).adm.ceilHbm = BitVec.ofNat 32 (s.tt.nomActive.toNat * 1200 / 4096) := by
  unfold setCeil
  extract_lets c t
  split <;> exact ⟨rfl, rfl, rfl, rfl⟩

/-- A cut changes allotments and marks itself; it leaves the floor and the ceilings. -/
theorem cutCeil_adm (s : State) :
    (cutCeil s).adm.maintFloor = s.adm.maintFloor ∧ (cutCeil s).adm.ceilEng = s.adm.ceilEng ∧
      (cutCeil s).adm.ceilMov = s.adm.ceilMov ∧ (cutCeil s).adm.ceilHbm = s.adm.ceilHbm := by
  unfold cutCeil
  split <;> exact ⟨rfl, rfl, rfl, rfl⟩

theorem admMaintFloorWrite_sets {s : State} {value : BitVec 32} (fits : value.toNat % 64 ≤ 50) :
    Runs (.admMaintFloorWrite value) s fun t => t.adm.maintFloor = BitVec.ofNat 6 (value.toNat % 64) ∧
      t.adm.ceilEng = BitVec.ofNat 32 (24 * s.tt.nomActive.toNat) ∧
      t.adm.ceilMov = BitVec.ofNat 32 (s.tt.nomActive.toNat * 256 / 4096) ∧
      t.adm.ceilHbm = BitVec.ofNat 32 (s.tt.nomActive.toNat * 1200 / 4096) := by
  let u := updAdm s fun a => { a with maintFloor := BitVec.ofNat 6 (value.toNat % 64) }
  have run : exec (.admMaintFloorWrite value) s = .next (recomputeCeil u) := by
    change execAdmMaintFloorWrite value s = _
    simp only [execAdmMaintFloorWrite, fieldOf_zero, Nat.reducePow, Nat.not_lt.2 fits, if_false, u]
  refine Does.of_exec run (execAdmMaintFloorWrite_frame value s) ?_
  obtain ⟨floor, eng, mov, hbm⟩ := cutCeil_adm (setCeil u)
  obtain ⟨floor', eng', mov', hbm'⟩ := setCeil_adm u
  exact ⟨floor.trans floor', eng.trans eng', mov.trans mov', hbm.trans hbm'⟩

theorem admMaintFloorWrite_refused {s : State} {value : BitVec 32} (large : 50 < value.toNat % 64) :
    Does (.admMaintFloorWrite value) [.errLog, .errSeq] s fun t => t.errSeq = s.errSeq + 1 := by
  have run : exec (.admMaintFloorWrite value) s = .next (undefinedField s .admission (value.toNat % 64)) := by
    change execAdmMaintFloorWrite value s = _
    simp only [execAdmMaintFloorWrite, fieldOf_zero, Nat.reducePow, large, if_true]
  exact ⟨_, run, undefinedField_frame _ _ _, rfl⟩

theorem admGroupModeWrite_waits {s : State} {g : Nat} {value : BitVec 32} (bound : g < 8) :
    Does (.admGroupModeWrite g value) [.adm, .errLog, .errSeq] s fun t => t.adm = { s.adm with
      groupModeNext := s.adm.groupModeNext.put g (if value.toNat % 4 = 3 then 0 else BitVec.ofNat 2 value.toNat) } := by
  have mode : BitVec.ofNat 2 value.toNat = BitVec.ofNat 2 (value.toNat % 4) := by
    apply BitVec.eq_of_toNat_eq
    simp
  refine Does.of_exec rfl (execAdmGroupModeWrite_frame g value s) ?_
  rw [mode, if_neg (Nat.not_le.2 bound)]
  simp only [fieldOf_zero, Nat.reducePow]
  split <;> rfl

/-- Settles O47: a commit is read off the shadow set and the frames that the directory gives, a write off its value. -/
theorem windowsAndAdmission : Obligations.WindowsAndAdmission := by
  unfold Obligations.WindowsAndAdmission
  intro s
  refine ⟨fun f w fn here bound => ⟨commits_window here (exec_winCommit bound) rfl,
      fun pend => commits_window here (exec_winCommitResume here pend) rfl⟩,
    fun value => ⟨admMaintFloorWrite_sets, admMaintFloorWrite_refused⟩,
    fun g value => ⟨admGroupModeWrite_waits, fun beyond => congrArg _ (if_pos beyond)⟩⟩

end Sys2Proof.Machine
end

section
/-! Host ports (R95, R204, R472): HPERST_N goes high on one port while the part prepares W2. -/

namespace Sys2Proof.Machine

/-- A push queue whose entries the preparation of W2 has copied to the staging region. -/
def copiedPush : Sq :=
  { push := true, cls := .standard, cqSlot := 1, log2 := 0, base := 0, pollInt := 0, pasid := none, quota := 1, copy := some {} }

/-- The PF of port 1 with that queue. -/
def copiedPf : Func := { exists_ := true, sqs := [(1, copiedPush)] }

/-- The part prepares W2 in Ready; port 0 is in HPERST_N, and the PF of port 1 has a push queue. -/
def preparingW2 : State :=
  { pwr := { devState := .ready, entry := some 2 }
    ports := [(0, { widthMax := 16, hperst := true }), (1, { widthMax := 16, linkUp := true, crs := false })]
    funcs := [(0, { exists_ := true }), (64, copiedPf)] }

theorem preparingW2_unblocked : Unblocked preparingW2 := by
  refine ⟨List.forall_mem_nil _, List.forall_mem_nil _, List.forall_mem_nil _, fun p mem q here => .inl ?_⟩
  simp only [preparingW2, copiedPf, List.mem_cons, List.not_mem_nil, or_false] at mem
  rcases mem with rfl | rfl
  · exact absurd here List.not_mem_nil
  · rw [List.mem_singleton.1 here]
    rfl

/-- HPERST_N of port 0 wakes the part, which gives up the preparation: the copy of the queue of port 1 goes (R472). -/
theorem hperstDeassert_preparingW2 : ∃ t, exec (.hperstDeassert 0) preparingW2 = .next t ∧
    t.funcs.find 64 ≠ preparingW2.funcs.find 64 :=
  ⟨_, rfl, by decide +kernel⟩

/-- Refutes O44: its clause on HPERST_DEASSERT has no function change but the PF of the port. In `preparingW2` the rising edge on
port 0 abandons the entry to W2 (R204, R475), and every push queue of the part loses its copy with it. The statement has
no hypothesis that no entry is in preparation. -/
theorem not_hostResets : ¬ Obligations.HostResets := by
  unfold Obligations.HostResets
  intro h
  obtain ⟨-, -, -, ports, -⟩ := h preparingW2 preparingW2_unblocked (List.forall_mem_nil _)
  obtain ⟨-, deassert, -⟩ := ports 0 _ _ rfl rfl
  obtain ⟨t, claimed, -, -, -, ⟨-, others⟩, -⟩ := deassert rfl
  obtain ⟨u, actual, moved⟩ := hperstDeassert_preparingW2
  obtain rfl : t = u := Host.Outcome.next.inj (claimed.symm.trans actual)
  exact moved (others 64 (by decide))

end Sys2Proof.Machine
end

section
/-! Events of rings (R114, R165): a ring without IEN whose event is due while another INTx event waits to be sent. -/

namespace Sys2Proof.Machine

/-- A completion ring without IEN whose event was due in the slot before. -/
def silentDue : Cq := { log2 := 4, base := 0, ien := false, vec := 0, ivCount := 1, ivDelay := 0, evDue := true }

/-- The PF of port 0 with that ring; bit 2 of Q_FN_INTX_RING is set, and Bus Master Enable has just become 1 again. -/
def intxWaitingPf : Func := { exists_ := true, bme := true, resume := true, intxRing := 4, cqs := [(1, silentDue)] }

/-- Assert_INTA of port 0 waits for the issue step of the slot. -/
def intxWaiting : State :=
  { pwr := { devState := .ready }
    ports := [(0, { widthMax := 16, linkUp := true, crs := false })], funcs := [(0, intxWaitingPf)] }

/-- The events of the function are looked at, and INTA is asserted for the bit that waits. -/
theorem interruptDelayDue_intxWaiting : ∃ t, exec (.interruptDelayDue 0 1) intxWaiting = .next t ∧ t.out = [.assertIntx 0] :=
  ⟨_, rfl, by decide +kernel⟩

/-- Refutes O27: its clause on a function with no due ring that has IEN has nothing leave the part. In `intxWaiting` a bit of another
ring is set and not yet signalled, and INTERRUPT_DELAY_DUE of the silent ring sends Assert_INTA for it (R114). The
statement has no hypothesis that no INTx event is pending. -/
theorem not_completionsIssued : ¬ Obligations.CompletionsIssued := by
  unfold Obligations.CompletionsIssued
  intro h
  obtain ⟨-, -, -, signals⟩ := h 0 1 intxWaiting intxWaitingPf silentDue rfl rfl
  obtain ⟨t, claimed, -, b, -, -, silent, -⟩ := signals rfl
  obtain ⟨unsent, -⟩ := silent fun x mem _ => by rw [List.mem_singleton.1 mem]; rfl
  obtain ⟨u, actual, sent⟩ := interruptDelayDue_intxWaiting
  obtain rfl : t = u := Host.Outcome.next.inj (claimed.symm.trans actual)
  exact absurd (sent.symm.trans unsent) (by decide)

end Sys2Proof.Machine
end

section
/-! FAIL of MEMBER_CONTROL (R320, R353, R377, R382): a member that holds the last write of a record under replay. -/

namespace Sys2Proof.Machine

/-- MEMBER_CONTROL FAIL for port 3. -/
def failPort3 : AdminCmd := { port := 0, entry := BitVec.ofNat 512 (0x4A + 3 * 2 ^ 320 + 2 * 2 ^ 328), vis := 0, data := [], poisoned := false }

/-- A record marked RESYNC that the journal unit replays: its write to member index 0 has not ended. -/
def resyncReplay : JRec :=
  { sealed := true, group := 0, stripe := 8, generation := 1, vol := none, ctx := none, openTs := 0, resync := true, replaying := true
    entries := [{ index := 0, lba := 65536, frames := [], stage := false, writing := 1 }] }

/-- That write at the member. -/
def replayWrite : MemCmd :=
  { op := .write, ctx := none, ticket := 0, lba := 65536, count := 16, frames := [], issued := 0, due := 0, express := false,
    determ := false, jrec := some (0, 0) }

/-- The member at index 0 of group 0, in service with the write outstanding. -/
def replayMember : MPort := { state := 2, present := true, group := some 0, index := 0, cmds := [(1, replayWrite)] }

/-- A group of four members in service at ports 3 to 6. -/
def replayGroup : Group := { assembly := .assembled, n := 4, w := 2, layout := 1, members := [(0, 3), (1, 4), (2, 5), (3, 6)] }

/-- FAIL for port 3 stands first of its PF while the record is under replay. -/
def failUnderReplay : State :=
  { pwr := { devState := .ready }, mbx := { adminQ := [failPort3] }, groups := [(0, replayGroup)], journal := { recs := [(0, resyncReplay)] }
    mports := [(3, replayMember), (4, { state := 2, group := some 0, index := 1 }), (5, { state := 2, group := some 0, index := 2 }),
               (6, { state := 2, group := some 0, index := 3 })] }

theorem failUnderReplay_ready : AdminReady failPort3 0x4A mcForm failUnderReplay :=
  ⟨⟨_, rfl, rfl⟩, rfl, rfl, by decide +kernel, by decide +kernel, by decide, rfl, fun data => absurd rfl data, nofun⟩

/-- The failure loses the write, which ends the replay, and the record's stripe is logged for resync after the failure. -/
theorem memberControlFail_underReplay : ∃ t, exec (.memberControlFail failPort3) failUnderReplay = .next t ∧ t.errSeq = 2 :=
  ⟨_, rfl, by decide +kernel⟩

/-- Refutes O54: its clause on FAIL has one log entry written, 0x0B06. In `failUnderReplay` the member's last write ends LOST and
with it the replay of a record marked RESYNC, so 0x0A21 is logged too (R320). The statement excludes a JRETIRE that waits
for the write, but not a replay. -/
theorem not_memberControls : ¬ Obligations.MemberControls := by
  unfold Obligations.MemberControls
  intro h
  obtain ⟨-, -, control⟩ := h failUnderReplay failPort3
  obtain ⟨-, -, actions⟩ := control failUnderReplay_ready
  obtain ⟨-, fail, -⟩ := actions replayMember (by decide +kernel)
  obtain ⟨-, serves⟩ := fail (by decide +kernel)
  obtain ⟨-, fails⟩ := serves 0 replayGroup rfl rfl rfl
  obtain ⟨t, claimed, -, -, -, ⟨once, -⟩, -⟩ := fails (.inr (by decide)) (List.forall_mem_nil _)
  obtain ⟨u, actual, twice⟩ := memberControlFail_underReplay
  obtain rfl : t = u := Host.Outcome.next.inj (claimed.symm.trans actual)
  exact absurd (twice.symm.trans once) (by decide)

end Sys2Proof.Machine
end

section
/-! What every admin command shares (R10, R120, R123, R126, R153, R154, R174, R345): the start of a command that stands first of its
PF, what turns it away, and how it ends on the ring of its queue. -/

namespace Sys2Proof.Machine

/-! Queues of a function across changes of its registers -/

/-- What the admin commands of a function rest on: that it exists and is not torn down, its count of poisoned TLPs, its queues. -/
def Func.service (fn : Func) : Bool × Bool × BitVec 32 × Tab Sq × Tab Cq := (fn.exists_, fn.flrBusy, fn.cntPsnIn, fn.sqs, fn.cqs)

/-- From s to t every function keeps its service fields. -/
def ServiceKept (s t : State) : Prop := ∀ f, (t.funcs.find f).map Func.service = (s.funcs.find f).map Func.service

theorem ServiceKept.of_funcs {s t : State} (same : t.funcs = s.funcs) : ServiceKept s t := fun _ => by rw [same]

theorem ServiceKept.trans {s t u : State} (h : ServiceKept s t) (k : ServiceKept t u) : ServiceKept s u :=
  fun f => (k f).trans (h f)

theorem ServiceKept.symm {s t : State} (h : ServiceKept s t) : ServiceKept t s := fun f => (h f).symm

theorem ServiceKept.updFunc (s : State) (k : Nat) {g : Func → Func} (keeps : ∀ fn, (g fn).service = fn.service) :
    ServiceKept s (updFunc s k g) := by
  intro f
  rw [updFunc_funcs]
  by_cases same : f = k
  · subst same
    rw [Tab.find_upd_same, Option.map_map, show Func.service ∘ g = Func.service from funext keeps]
  · rw [Tab.find_upd_other _ _ same]

theorem fnOf_eq_some {s : State} {f : Nat} {fn : Func} : fnOf s f = some fn ↔ s.funcs.find f = some fn ∧ fn.exists_ = true := by
  unfold fnOf
  split
  next x here => grind
  next absent => simp [absent]

theorem ServiceKept.fnOf {s t : State} {f : Nat} {fn : Func} (kept : ServiceKept s t) (here : fnOf s f = some fn) :
    ∃ x, fnOf t f = some x ∧ x.service = fn.service := by
  obtain ⟨found, lives⟩ := fnOf_eq_some.1 here
  obtain ⟨x, found', same⟩ := Option.map_eq_some_iff.1 ((kept f).trans (congrArg (Option.map Func.service) found))
  exact ⟨x, fnOf_eq_some.2 ⟨found', (congrArg Prod.fst same).trans lives⟩, same⟩

theorem sendMsix_service (s : State) (f v : Nat) : ServiceKept s (sendMsix s f v) := by
  unfold sendMsix
  split
  next => exact .of_funcs rfl
  next =>
    split
    · exact .of_funcs rfl
    · split
      · exact .updFunc _ _ fun _ => rfl
      · split
        · exact .of_funcs rfl
        · exact .updFunc _ _ fun _ => rfl

theorem raiseFn_service (s : State) (f : Nat) (b : FnBit) : ServiceKept s (raiseFn s f b) := by
  have sent (u : State) : ServiceKept u (sendEvent u f b) := by
    unfold sendEvent
    split
    next => exact .of_funcs rfl
    next =>
      split
      · split
        · exact sendMsix_service _ _ _
        · exact .of_funcs (updateIntx_frame u f .funcs (by decide))
      · exact .of_funcs rfl
  have set (u : State) : ServiceKept u (updFunc u f b.set) := .updFunc _ _ fun _ => by cases b <;> rfl
  unfold raiseFn
  split
  next => exact .of_funcs rfl
  next =>
    extract_lets u
    split
    · exact .of_funcs rfl
    · exact (set u).trans (sent _)

/-- A poisoned TLP is counted at its function, and leaves its queues. -/
theorem poisonIn_service {s : State} {f : Nat} {fn : Func} (here : fnOf s f = some fn) :
    ∃ x, fnOf (poisonIn s f) f = some x ∧ x.flrBusy = fn.flrBusy ∧ x.cntPsnIn = satInc fn.cntPsnIn ∧ x.sqs = fn.sqs ∧ x.cqs = fn.cqs := by
  let g : Func → Func := fun fn => { aerSet fn 12 with cntPsnIn := satInc fn.cntPsnIn, cmdStat := fn.cmdStat ||| 0x8000#16 }
  have raised : ServiceKept (updFunc s f g) (poisonIn s f) := raiseFn_service (markFresh (updFunc s f g) (.fn f) 0x28 0 1) f .psnIn
  obtain ⟨found, lives⟩ := fnOf_eq_some.1 here
  have counted : fnOf (updFunc s f g) f = some (g fn) := fnOf_eq_some.2 ⟨by rw [updFunc_funcs, Tab.find_upd_same, found]; rfl, lives⟩
  obtain ⟨x, here', same⟩ := raised.fnOf counted
  simp only [Func.service, Prod.mk.injEq] at same
  obtain ⟨-, busy, count, sqs, cqs⟩ := same
  exact ⟨x, here', busy, count, sqs, cqs⟩

/-! The end of an admin command -/

theorem sqOf_of_fnOf {s : State} {f : Nat} {fn : Func} (here : fnOf s f = some fn) (slot : Nat) : sqOf s f slot = fn.sqs.find slot := by
  simp [sqOf, here]

theorem cqOf_of_fnOf {s : State} {f : Nat} {fn : Func} (here : fnOf s f = some fn) (slot : Nat) : cqOf s f slot = fn.cqs.find slot := by
  simp [cqOf, here]

theorem flrNow_of_fnOf {s : State} {f : Nat} {fn : Func} (here : fnOf s f = some fn) : flrNow s f = fn.flrBusy := by
  simp [flrNow, here]

theorem fnOf_of_sqOf {s : State} {f slot : Nat} {q : Sq} (here : sqOf s f slot = some q) : ∃ fn, fnOf s f = some fn ∧ fn.sqs.find slot = some q :=
  Option.bind_eq_some_iff.1 here

theorem fnOf_updCq_same {s : State} {f : Nat} {fn : Func} (here : fnOf s f = some fn) (slot : Nat) (g : Cq → Cq) :
    fnOf (updCq s f slot g) f = some { fn with cqs := fn.cqs.upd slot g } := by
  obtain ⟨found, lives⟩ := fnOf_eq_some.1 here
  refine fnOf_eq_some.2 ⟨?_, lives⟩
  rw [updCq, updFunc_funcs, Tab.find_upd_same, found]
  rfl

/-- A completion that becomes ready changes no function but for the ready entries of its rings. -/
theorem pushReady_fnOf {s : State} {k : Nat} {fn : Func} (f : Nat) (r : Ready) (here : fnOf s k = some fn) :
    ∃ cqs, fnOf (pushReady s f r) k = some { fn with cqs := cqs } ∧
      ∀ slot c, fn.cqs.find slot = some c → ∃ rs, cqs.find slot = some { c with ready := rs } := by
  unfold pushReady
  split
  · exact ⟨_, here, fun _ c found => ⟨_, found⟩⟩
  · split
    · exact ⟨_, here, fun _ c found => ⟨_, found⟩⟩
    next q _ =>
      by_cases same : k = f
      · subst same
        refine ⟨_, fnOf_updCq_same (s := (nextSeq s).2) here q.cqSlot _, fun slot c found => ?_⟩
        by_cases ring : slot = q.cqSlot
        · subst ring
          exact ⟨_, by rw [Tab.find_upd_same, found]; rfl⟩
        · exact ⟨_, by rw [Tab.find_upd_other _ _ ring]; exact found⟩
      · obtain ⟨found, lives⟩ := fnOf_eq_some.1 here
        exact ⟨fn.cqs, fnOf_eq_some.2 ⟨(Tab.find_upd_other _ _ same).trans found, lives⟩, fun _ c found => ⟨_, found⟩⟩

/-- The signal box runs c for the admin command a of the queue: the same entry of the same PF, with the list and the data of a. -/
structure Starts (a c : AdminCmd) : Prop where
  entry : c.entry = a.entry
  port : c.port = a.port
  data : c.data = a.data
  list : c.list = a.list

theorem Starts.extents {a c : AdminCmd} (h : Starts a c) : adminExtents c = adminExtents a := by
  simp only [adminExtents, adminList, h.entry, h.list]

theorem Starts.len {a c : AdminCmd} (h : Starts a c) : adminLen c = adminLen a := by
  simp only [adminLen, h.extents]

theorem Starts.listed {a c : AdminCmd} (h : Starts a c) : adminList c = adminList a := by
  simp only [adminList, h.entry, h.list]

/-- From s to u the signal box has taken the first admin command of a PF, and nothing has changed that its completion rests on. -/
structure Served (s u : State) (p : Nat) : Prop where
  mbx : u.mbx = (adminTake s p).mbx
  time : now u = now s
  busy : flrNow u (64 * p) = false
  ring : ∀ q k, sqOf s (64 * p) 0 = some q → cqOf s (64 * p) q.cqSlot = some k → ∃ q' k', sqOf u (64 * p) 0 = some q' ∧
    q'.cqSlot = q.cqSlot ∧ cqOf u (64 * p) q.cqSlot = some k' ∧ k'.ready = k.ready

theorem Served.take {s : State} {p : Nat} (busy : flrNow s (64 * p) = false) : Served s (adminTake s p) p :=
  ⟨rfl, rfl, busy, fun q k sq cq => ⟨q, k, sq, rfl, cq, rfl⟩⟩

theorem Served.of_kept {s u v : State} {p : Nat} (served : Served s u p) (mbx : v.mbx = u.mbx) (time : now v = now u)
    (kept : ServiceKept u v) : Served s v p := by
  obtain ⟨mbx', time', busy, ring⟩ := served
  refine ⟨mbx.trans mbx', time.trans time', ?_, fun q k sq cq => ?_⟩
  · cases here : fnOf v (64 * p) with
    | none => simp [flrNow, here]
    | some x =>
      obtain ⟨fn, here', same⟩ := kept.symm.fnOf here
      simp only [Func.service, Prod.mk.injEq] at same
      obtain ⟨-, flr, -⟩ := same
      rw [flrNow_of_fnOf here, ← flr, ← flrNow_of_fnOf here', busy]
  · obtain ⟨q', k', sq', slot, cq', ready⟩ := ring q k sq cq
    obtain ⟨fn, here, found⟩ := fnOf_of_sqOf sq'
    obtain ⟨x, here', same⟩ := kept.fnOf here
    simp only [Func.service, Prod.mk.injEq] at same
    obtain ⟨-, -, -, sqs, cqs⟩ := same
    rw [cqOf_of_fnOf here] at cq'
    exact ⟨q', k', by rw [sqOf_of_fnOf here', sqs, found], slot, by rw [cqOf_of_fnOf here', cqs, cq'], ready⟩

/-- An admin command of a PF ends: its completion joins the ring of its queue. -/
theorem Served.ends {s u : State} {a c : AdminCmd} (served : Served s u a.port) (starts : Starts a c) (port : a.port < 8)
    (st : Status) (poison : Bool) : AdminEnds st.code a s (adminDone u c st poison) := by
  obtain ⟨mbx, time, busy, ring⟩ := served
  refine ⟨(adminDone_frame u c st poison .mbx (by decide)).trans mbx, fun q k sq cq => ?_⟩
  obtain ⟨q', k', sq', slot, cq', ready⟩ := ring q k sq cq
  obtain ⟨fn, here, found⟩ := fnOf_of_sqOf sq'
  have notGelbel : c.port ≠ gelbelPort := by
    rw [starts.port]
    exact Nat.ne_of_lt port
  rw [cqOf_of_fnOf here] at cq'
  unfold adminDone
  rw [if_neg notGelbel, starts.port, pushReady, busy, if_neg (by decide), sq']
  have joined (r : Ready) : cqOf (updCq (nextSeq u).2 (64 * a.port) q'.cqSlot fun x => { x with ready := x.ready ++ [r] }) (64 * a.port)
      q.cqSlot = some { k' with ready := k'.ready ++ [r] } := by
    rw [cqOf_of_fnOf (fnOf_updCq_same (s := (nextSeq u).2) here q'.cqSlot _), slot, Tab.find_upd_same, cq']
    rfl
  exact ⟨_, _, joined _, congrArg (· ++ [_]) ready, congrArg eCid starts.entry, rfl, time, rfl⟩

theorem adminDone_out {s : State} {a c : AdminCmd} (starts : Starts a c) (port : a.port < 8) (st : Status) (poison : Bool) :
    (adminDone s c st poison).out = s.out := by
  have notGelbel : c.port ≠ gelbelPort := by
    rw [starts.port]
    exact Nat.ne_of_lt port
  unfold adminDone
  rw [if_neg notGelbel]
  exact pushReady_frame _ _ _ .out (by decide)

/-- The completion of an admin command changes no function but for the ready entries of its rings. -/
theorem adminDone_fnOf {s : State} {a c : AdminCmd} (starts : Starts a c) (port : a.port < 8) (st : Status) (poison : Bool) {k : Nat}
    {fn : Func} (here : fnOf s k = some fn) : ∃ cqs, fnOf (adminDone s c st poison) k = some { fn with cqs := cqs } ∧
      ∀ slot x, fn.cqs.find slot = some x → ∃ rs, cqs.find slot = some { x with ready := rs } := by
  have notGelbel : c.port ≠ gelbelPort := by
    rw [starts.port]
    exact Nat.ne_of_lt port
  unfold adminDone
  rw [if_neg notGelbel]
  exact pushReady_fnOf _ _ here

/-! The start of an admin command -/

theorem adminHead_port {s : State} {p : Nat} {q : AdminCmd} (head : adminHead s p = some q) : q.port = p := by
  simpa using List.find?_some head

/-- What the signal box does with an admin command that stands first of its PF, check by check. -/
theorem adminRun_first {s : State} {a q : AdminCmd} (head : adminHead s a.port = some q) (same : q.entry = a.entry) :
    ∃ c, Starts a c ∧ ∀ fm body, adminRun s a true fm body =
      let t := adminTake s a.port
      if frozen s then s
      else if s.mbx.unattended then adminDone t c .notAdmitted false
      else if !adminRsvdOk a.entry fm then adminDone t c .invalidField false
      else if fm.dir == .none then body c t
      else if !pfUp s a.port then s
      else if eDpk a.entry = 1 ∧ a.list.length ≠ 16 * eBits a.entry 32 0 16 then adminDone t c .hostFault false
      else if eDpk a.entry = 1 ∧ listOk (adminList a) (adminLen a) = false then adminDone t c .invalidField false
      else if fm.dir == .toHost then body c t
      else if a.poisoned then adminDone (poisonIn t (64 * a.port)) c .dataPoisoned true
      else if a.data.length ≠ adminLen a then adminDone t c .hostFault false
      else body c t := by
  let c : AdminCmd := { q with data := a.data, poisoned := a.poisoned, list := a.list }
  have starts : Starts a c := ⟨same, (adminHead_port head : q.port = a.port), rfl, rfl⟩
  refine ⟨c, starts, fun fm body => ?_⟩
  rw [← starts.listed, ← starts.len]
  simp only [adminRun, head, same, bne_self_eq_false, Bool.not_true, Bool.or_self, Bool.false_or, Bool.and_eq_true, decide_eq_true_eq,
    bne_iff_ne, Bool.not_eq_true', c]

/-- An admin command that meets the checks that all share runs its own effect. -/
theorem AdminReady.run {s : State} {a : AdminCmd} {opc : Nat} {fm : AdminForm} (ready : AdminReady a opc fm s) :
    ∃ c, Starts a c ∧ ∀ body, adminRun s a (eOpc a.entry == opc) fm body = body c (adminTake s a.port) := by
  obtain ⟨⟨q, head, same⟩, thawed, attended, row, rsvd, -, -, moves, arrived⟩ := ready
  obtain ⟨c, starts, run⟩ := adminRun_first head same
  refine ⟨c, starts, fun body => ?_⟩
  rw [beq_iff_eq.2 row, run fm body]
  by_cases still : fm.dir = .none
  · simp [thawed, attended, rsvd, still]
  · obtain ⟨up, listed⟩ := moves still
    have whole : ¬(eDpk a.entry = 1 ∧ a.list.length ≠ 16 * eBits a.entry 32 0 16) := fun h => h.2 (listed h.1).1
    have right : ¬(eDpk a.entry = 1 ∧ listOk (adminList a) (adminLen a) = false) := fun h =>
      absurd ((listed h.1).2.symm.trans h.2) (by decide)
    by_cases out : fm.dir = .toHost
    · simp [thawed, attended, rsvd, up, whole, right, out]
    · have inward : fm.dir = .fromHost := by cases h : fm.dir <;> simp_all
      obtain ⟨clean, full⟩ := arrived inward
      simp [thawed, attended, rsvd, up, whole, right, inward, clean, full]

end Sys2Proof.Machine
end

section
/-! What turns an admin command away, whatever its row (R10, R120, R123, R126, R153, R154, R174, R345). -/

namespace Sys2Proof.Machine

/-- The parts that the start of an admin command and its end can change. -/
def adminParts : List Part := [.ports, .funcs, .mbx, .fresh, .out, .seqCtr]

/-- A command is of a row of the admin table: it runs as an admin command of a form, within its footprint. -/
def AdminRow (c : Instr) (a : AdminCmd) (row : Bool) (fm : AdminForm) : Prop :=
  (∃ body, ∀ s, exec c s = .next (adminRun s a row fm body)) ∧ Part.sub adminParts (footprint c) = true

theorem memberActionOf_row {c : Instr} {a : AdminCmd} {k : Nat} (action : memberActionOf c = some (a, k)) :
    AdminRow c a (eOpc a.entry == 0x4A && mcAction a.entry == k) mcForm := by
  unfold memberActionOf at action
  split at action
  case h_12 => cases action
  all_goals
    obtain ⟨rfl, rfl⟩ := Prod.mk.inj (Option.some.inj action)
    exact ⟨⟨_, fun _ => rfl⟩, rfl⟩

theorem adminRowOf_row {c : Instr} {a : AdminCmd} {row : Bool} {fm : AdminForm} (found : adminRowOf c = some (a, row, fm)) :
    AdminRow c a row fm := by
  unfold adminRowOf at found
  split at found
  case h_16 =>
    obtain ⟨⟨b, k⟩, action, same⟩ := Option.map_eq_some_iff.1 found
    obtain ⟨rfl, rfl, rfl⟩ : b = a ∧ (eOpc b.entry == 0x4A && mcAction b.entry == k) = row ∧ mcForm = fm := by simpa using same
    exact memberActionOf_row action
  all_goals
    simp only [Option.some.injEq, Prod.mk.injEq] at found
    obtain ⟨rfl, rfl, rfl⟩ := found
    exact ⟨⟨_, fun _ => rfl⟩, rfl⟩

theorem fnOf_of_pfUp {s : State} {p : Nat} (up : pfUp s p = true) : ∃ fn, fnOf s (64 * p) = some fn := by
  unfold pfUp at up
  split at up
  next fn here => exact ⟨fn, here⟩
  next => cases up

/-- A command that its checks turn away does nothing but end, with a status. -/
theorem AdminRow.turned {c : Instr} {a b : AdminCmd} {row : Bool} {fm : AdminForm} {s : State} (of : AdminRow c a row fm)
    (port : a.port < 8) (busy : flrNow s (64 * a.port) = false) (starts : Starts a b) {st : Status}
    (run : exec c s = .next (adminDone (adminTake s a.port) b st false)) : Runs c s fun t => AdminEnds st.code a s t ∧ t.out = s.out := by
  have taken : OnlyChanges (footprint c) s (adminTake s a.port) :=
    (adminTake_frame s a.port).step (OnlyChanges.refl _ s) (Part.sub_trans (by decide) of.2)
  exact ⟨_, run, (adminDone_frame _ b st false).step taken (Part.sub_trans (by decide) of.2),
    (Served.take busy).ends starts port st false, adminDone_out starts port st false⟩

section
variable {c : Instr} {a : AdminCmd} {fm : AdminForm} {s : State} {q : AdminCmd} (row : AdminRow c a true fm)
  (head : adminHead s a.port = some q) (same : q.entry = a.entry)
include row head same

theorem exec_admin_frozen (stopped : frozen s = true) : exec c s = .next s := by
  obtain ⟨⟨body, run⟩, -⟩ := row
  obtain ⟨b, -, first⟩ := adminRun_first head same
  rw [run, first]
  simp [stopped]

variable (port : a.port < 8) (busy : flrNow s (64 * a.port) = false) (thawed : frozen s = false)

include port busy thawed in
theorem admin_unattended (left : s.mbx.unattended = true) : Runs c s fun t => AdminEnds 1 a s t ∧ t.out = s.out := by
  obtain ⟨⟨body, run⟩, -⟩ := id row
  obtain ⟨b, starts, first⟩ := adminRun_first head same
  refine row.turned (st := .notAdmitted) port busy starts ?_
  rw [run, first]
  simp [thawed, left]

variable (attended : s.mbx.unattended = false)

include port busy thawed attended in
theorem admin_reserved (rsvd : adminRsvdOk a.entry fm = false) : Runs c s fun t => AdminEnds 3 a s t ∧ t.out = s.out := by
  obtain ⟨⟨body, run⟩, -⟩ := id row
  obtain ⟨b, starts, first⟩ := adminRun_first head same
  refine row.turned (st := .invalidField) port busy starts ?_
  rw [run, first]
  simp [thawed, attended, rsvd]

variable (rsvd : adminRsvdOk a.entry fm = true)

include thawed attended rsvd in
theorem exec_admin_down (moves : fm.dir ≠ .none) (down : pfUp s a.port = false) : exec c s = .next s := by
  obtain ⟨⟨body, run⟩, -⟩ := row
  obtain ⟨b, -, first⟩ := adminRun_first head same
  rw [run, first]
  simp [thawed, attended, rsvd, moves, down]

variable (up : pfUp s a.port = true)
include port busy thawed attended rsvd up

/-- A buffer list that did not come back whole is a host fault (R126, R154). -/
theorem admin_listShort (moves : fm.dir ≠ .none) (list : eDpk a.entry = 1 ∧ a.list.length ≠ 16 * eBits a.entry 32 0 16) :
    Runs c s fun t => AdminEnds 9 a s t ∧ t.out = s.out := by
  obtain ⟨⟨body, run⟩, -⟩ := id row
  obtain ⟨b, starts, first⟩ := adminRun_first head same
  refine row.turned (st := .hostFault) port busy starts ?_
  rw [run, first]
  simp [thawed, attended, rsvd, moves, up, list]

variable (whole : ¬(eDpk a.entry = 1 ∧ a.list.length ≠ 16 * eBits a.entry 32 0 16))
include whole

theorem admin_listBad (moves : fm.dir ≠ .none) (bad : eDpk a.entry = 1 ∧ listOk (adminList a) (adminLen a) = false) :
    Runs c s fun t => AdminEnds 3 a s t ∧ t.out = s.out := by
  obtain ⟨⟨body, run⟩, -⟩ := id row
  obtain ⟨b, starts, first⟩ := adminRun_first head same
  refine row.turned (st := .invalidField) port busy starts ?_
  rw [run, first]
  have full : a.list.length = 16 * eBits a.entry 32 0 16 := by simpa [bad] using whole
  simp [thawed, attended, rsvd, moves, up, full, bad]

variable (right : ¬(eDpk a.entry = 1 ∧ listOk (adminList a) (adminLen a) = false)) (inward : fm.dir = .fromHost)
include right inward

theorem admin_dataShort (clean : a.poisoned = false) (short : a.data.length ≠ adminLen a) :
    Runs c s fun t => AdminEnds 9 a s t ∧ t.out = s.out := by
  obtain ⟨⟨body, run⟩, -⟩ := id row
  obtain ⟨b, starts, first⟩ := adminRun_first head same
  refine row.turned (st := .hostFault) port busy starts ?_
  rw [run, first]
  simp [thawed, attended, rsvd, inward, up, whole, right, clean, short]

/-- Poisoned data is counted at the PF, and the command ends DATA_POISONED (R123). -/
theorem admin_poisoned (poison : a.poisoned = true) : Runs c s fun t => AdminEnds 6 a s t ∧
    ∀ fn, fnOf s (64 * a.port) = some fn → ∃ y, fnOf t (64 * a.port) = some y ∧ y.cntPsnIn = satInc fn.cntPsnIn := by
  obtain ⟨⟨body, run⟩, sub⟩ := row
  obtain ⟨b, starts, first⟩ := adminRun_first head same
  have ran : exec c s = .next (adminDone (poisonIn (adminTake s a.port) (64 * a.port)) b .dataPoisoned true) := by
    rw [run, first]
    simp [thawed, attended, rsvd, inward, up, whole, right, poison]
  obtain ⟨fn, here⟩ := fnOf_of_pfUp up
  obtain ⟨x, here', flr, count, sqs, cqs⟩ := poisonIn_service (s := adminTake s a.port) here
  have counts := poisonIn_frame (adminTake s a.port) (64 * a.port)
  have time : now (poisonIn (adminTake s a.port) (64 * a.port)) = now s := by rw [now, counts .tt (by decide)]; rfl
  have served : Served s (poisonIn (adminTake s a.port) (64 * a.port)) a.port := by
    refine ⟨counts .mbx (by decide), time, ?_, fun q k sq cq => ⟨q, k, ?_, rfl, ?_, rfl⟩⟩
    · rw [flrNow_of_fnOf here', flr, ← flrNow_of_fnOf here, busy]
    · rw [sqOf_of_fnOf here', sqs, ← sqOf_of_fnOf here, sq]
    · rw [cqOf_of_fnOf here', cqs, ← cqOf_of_fnOf here, cq]
  have taken : OnlyChanges (footprint c) s (adminTake s a.port) :=
    (adminTake_frame s a.port).step (OnlyChanges.refl _ s) (Part.sub_trans (by decide) sub)
  refine ⟨_, ran, (adminDone_frame _ b .dataPoisoned true).step (counts.step taken (Part.sub_trans (by decide) sub))
    (Part.sub_trans (by decide) sub), served.ends starts port .dataPoisoned true, fun fn' found => ?_⟩
  obtain rfl := Option.some.inj (here.symm.trans found)
  obtain ⟨rs, here'', -⟩ := adminDone_fnOf starts port .dataPoisoned true here'
  exact ⟨_, here'', count⟩

end

/-- What every admin command shares: the first of the checks that it fails decides what becomes of it. -/
theorem admin_shared {c : Instr} {a : AdminCmd} {fm : AdminForm} {s : State} (row : adminRowOf c = some (a, true, fm))
    (first : ∃ q, adminHead s a.port = some q ∧ q.entry = a.entry) (port : a.port < 8) (busy : flrNow s (64 * a.port) = false) :
    let turned : Nat → Prop := fun code => Runs c s fun t => AdminEnds code a s t ∧ t.out = s.out
    let list := eDpk a.entry = 1 ∧ a.list.length ≠ 16 * eBits a.entry 32 0 16
    let bad := eDpk a.entry = 1 ∧ listOk (adminList a) (adminLen a) = false
    let data := ¬list ∧ ¬bad ∧ fm.dir = .fromHost
    (frozen s = true → exec c s = .next s) ∧
    (frozen s = false →
      (s.mbx.unattended = true → turned 1) ∧
      (s.mbx.unattended = false → adminRsvdOk a.entry fm = false → turned 3) ∧
      (s.mbx.unattended = false → adminRsvdOk a.entry fm = true → fm.dir ≠ .none →
        (pfUp s a.port = false → exec c s = .next s) ∧
        (pfUp s a.port = true → (list → turned 9) ∧ (¬list → bad → turned 3) ∧ (data → a.poisoned = true → Runs c s fun t => AdminEnds 6 a s t ∧
            ∀ fn, fnOf s (64 * a.port) = some fn → ∃ y, fnOf t (64 * a.port) = some y ∧ y.cntPsnIn = satInc fn.cntPsnIn) ∧
          (data → a.poisoned = false → a.data.length ≠ adminLen a → turned 9)))) := by
  obtain ⟨q, head, same⟩ := first
  have of := adminRowOf_row row
  exact ⟨exec_admin_frozen of head same, fun thawed => ⟨admin_unattended of head same port busy thawed,
    admin_reserved of head same port busy thawed, fun attended rsvd moves => ⟨exec_admin_down of head same thawed attended rsvd moves,
      fun up => ⟨admin_listShort of head same port busy thawed attended rsvd up moves,
        fun whole => admin_listBad of head same port busy thawed attended rsvd up whole moves,
        fun ⟨whole, right, inward⟩ => admin_poisoned of head same port busy thawed attended rsvd up whole right inward,
        fun ⟨whole, right, inward⟩ => admin_dataShort of head same port busy thawed attended rsvd up whole right inward⟩⟩⟩⟩

end Sys2Proof.Machine
end

section
/-! CREATE_QUEUE (R168, R169, R198): the checks, and the ring or queue that it makes. -/

namespace Sys2Proof.Machine

theorem Runs.imp {c : Instr} {s : State} {p q : State → Prop} (run : Runs c s p) (h : ∀ t, p t → q t) : Runs c s q := by
  obtain ⟨t, goes, kept, post⟩ := run
  exact ⟨t, goes, kept, h t post⟩

/-- An admin command that its own checks refuse ends INVALID_FIELD and has no other effect. -/
theorem AdminRow.bad {c : Instr} {a b : AdminCmd} {row : Bool} {fm : AdminForm} {s : State} {opc : Nat} {form : AdminForm}
    (of : AdminRow c a row fm) (ready : AdminReady a opc form s) (starts : Starts a b)
    (run : exec c s = .next (adminBad (adminTake s a.port) b)) : Runs c s fun t => AdminEnds 3 a s t ∧ t.out = s.out ∧
      OnlyChanges [.funcs, .mbx, .out, .seqCtr] s t := by
  obtain ⟨-, -, -, -, -, port, busy, -⟩ := ready
  obtain ⟨t, goes, kept, ends, out⟩ := of.turned port busy starts (st := .invalidField) run
  obtain rfl := Host.Outcome.next.inj (run.symm.trans goes)
  exact ⟨_, goes, kept, ends, out, (adminBad_frame _ _).step ((adminTake_frame s a.port).step (OnlyChanges.refl _ s))⟩

/-! The first poll of a ring (R141) -/

theorem fnOf_updFunc_same {s : State} {f : Nat} {fn : Func} {g : Func → Func} (here : fnOf s f = some fn)
    (lives : (g fn).exists_ = true) : fnOf (updFunc s f g) f = some (g fn) := by
  obtain ⟨found, -⟩ := fnOf_eq_some.1 here
  exact fnOf_eq_some.2 ⟨by rw [updFunc_funcs, Tab.find_upd_same, found]; rfl, lives⟩

theorem fnOf_updFunc_other (s : State) {f k : Nat} (g : Func → Func) (other : k ≠ f) : fnOf (updFunc s f g) k = fnOf s k := by
  simp only [fnOf, updFunc_funcs, Tab.find_upd_other _ _ other]

theorem fnOf_congr {s t : State} (same : t.funcs = s.funcs) (k : Nat) : fnOf t k = fnOf s k := by
  simp only [fnOf, same]

/-- A poll is issued for the queue, or no function changes. -/
theorem poll_funcs (s : State) (f slot : Nat) : (poll s f slot).funcs = s.funcs ∨
    ∃ d, (poll s f slot).funcs = (updSq s f slot fun q => { q with pollOut := true, pollDue := d }).funcs := by
  unfold poll
  split
  next q _ _ =>
    split
    · exact .inl rfl
    · split
      · exact .inl rfl
      · exact .inr ⟨after s q.pollInt, rfl⟩
  next => exact .inl rfl

theorem poll_fnOf_other (s : State) {f k : Nat} (slot : Nat) (other : k ≠ f) : fnOf (poll s f slot) k = fnOf s k := by
  rcases poll_funcs s f slot with same | ⟨d, moved⟩
  · exact fnOf_congr same k
  · exact (fnOf_congr moved k).trans (fnOf_updFunc_other s _ other)

/-- A poll changes its own queue's poll state and no other part of the function. -/
theorem poll_fnOf_same {s : State} {f : Nat} {fn : Func} (slot : Nat) (here : fnOf s f = some fn) :
    ∃ sqs, fnOf (poll s f slot) f = some { fn with sqs := sqs } ∧ ∀ k z, fn.sqs.find k = some z →
      ∃ o d, sqs.find k = some { z with pollOut := o, pollDue := d } := by
  rcases poll_funcs s f slot with same | ⟨d, moved⟩
  · exact ⟨_, (fnOf_congr same f).trans here, fun _ z found => ⟨_, _, found⟩⟩
  · refine ⟨_, (fnOf_congr moved f).trans (fnOf_updFunc_same here (fnOf_eq_some.1 here).2), fun k z found => ?_⟩
    by_cases same : k = slot
    · subst same
      exact ⟨true, d, by rw [Tab.find_upd_same, found]; rfl⟩
    · exact ⟨_, _, by rw [Tab.find_upd_other _ _ same]; exact found⟩

/-! The new ring or queue -/

theorem Tab.find_none_of_not_has {α : Type} {t : Tab α} {k : Nat} (h : Tab.has t k = false) : t.find k = none := by
  simpa [Tab.has] using h

/-- What the checks of R169 give: the function exists, and the slot holds no ring or queue of the kind asked for. -/
theorem queueOk_free {s : State} {p : Nat} {q : QueueSpec} (ok : queueOk s p q = true) : ∃ fn, fnOf s q.func = some fn ∧
    (q.kind = 0 → fn.cqs.find q.slot = none) ∧ (q.kind ≠ 0 → fn.sqs.find q.slot = none) := by
  unfold queueOk at ok
  split at ok
  next fn hp here _ =>
    refine ⟨fn, here, fun ring => Tab.find_none_of_not_has ?_, fun queue => Tab.find_none_of_not_has ?_⟩
    · simp only [ring, if_pos, ringSpecOk, Bool.and_eq_true, Bool.not_eq_true'] at ok
      exact ok.2.1.2
    · simp only [queue, if_neg, sqSpecOk, Bool.and_eq_true, Bool.not_eq_true', not_false_eq_true] at ok
      exact ok.2.1.1.1.1.1.1
  next => cases ok

theorem addQueue_keeps_cq {q : QueueSpec} {fn : Func} {j : Nat} {k : Cq} (ts : Word) (free : q.kind = 0 → fn.cqs.find q.slot = none)
    (found : fn.cqs.find j = some k) : (addQueue q ts fn).cqs.find j = some k := by
  unfold addQueue
  extract_lets x
  split
  next ring =>
    have other : j ≠ q.slot := fun same => by simp [← same, found] at free; exact free ring
    exact (Tab.find_put_other _ _ other).trans found
  next => exact found

theorem addQueue_keeps_sq {q : QueueSpec} {fn : Func} {j : Nat} {k : Sq} (ts : Word) (free : q.kind ≠ 0 → fn.sqs.find q.slot = none)
    (found : fn.sqs.find j = some k) : (addQueue q ts fn).sqs.find j = some k := by
  unfold addQueue
  extract_lets x
  split
  next => exact found
  next queue =>
    have other : j ≠ q.slot := fun same => by simp [← same, found] at free; exact queue free
    exact (Tab.find_put_other _ _ other).trans found

theorem addQueue_kept (q : QueueSpec) (ts : Word) (fn : Func) : (addQueue q ts fn).exists_ = fn.exists_ ∧
    (addQueue q ts fn).flrBusy = fn.flrBusy ∧ (addQueue q ts fn).shadow = fn.shadow.orElse fun _ => some q.shadow := by
  unfold addQueue
  extract_lets x
  split <;> exact ⟨rfl, rfl, rfl⟩

theorem addQueue_ring {q : QueueSpec} (ts : Word) (fn : Func) (ring : q.kind = 0) : (addQueue q ts fn).cqs.find q.slot =
    some { log2 := q.log2, base := q.base, ien := q.ien, vec := q.vec, ivCount := q.ivCountM1 + 1, ivDelay := q.ivDelay } := by
  simp [addQueue, ring]

theorem addQueue_queue {q : QueueSpec} (ts : Word) (fn : Func) (queue : q.kind ≠ 0) : (addQueue q ts fn).sqs.find q.slot =
    some { push := q.kind == 2, cls := clsOfSpec q.cls, cqSlot := q.cqSlot, log2 := q.log2, base := q.base, pollInt := q.pollInt,
           pasid := if q.pasidEn then some q.pasid else none, quota := q.quotaM1 + 1, pollDue := ts } := by
  simp [addQueue, queue]

/-- The state with the ring or queue that a CREATE_QUEUE makes, its first poll issued. -/
def queueMade (s : State) (q : QueueSpec) : State := poll (addExpEntry (updFunc s q.func (addQueue q (now s))) q) q.func q.slot

theorem queueMade_other (s : State) (q : QueueSpec) {k : Nat} (other : k ≠ q.func) : fnOf (queueMade s q) k = fnOf s k :=
  calc fnOf (queueMade s q) k
      = fnOf (addExpEntry (updFunc s q.func (addQueue q (now s))) q) k := poll_fnOf_other _ q.slot other
    _ = fnOf (updFunc s q.func (addQueue q (now s))) k := fnOf_congr (addExpEntry_frame _ q .funcs (by decide)) k
    _ = fnOf s k := fnOf_updFunc_other s _ other

theorem queueMade_same {s : State} {q : QueueSpec} {fn : Func} (here : fnOf s q.func = some fn) : ∃ sqs,
    fnOf (queueMade s q) q.func = some { addQueue q (now s) fn with sqs := sqs } ∧
      ∀ k z, (addQueue q (now s) fn).sqs.find k = some z → ∃ o d, sqs.find k = some { z with pollOut := o, pollDue := d } := by
  refine poll_fnOf_same q.slot ((fnOf_congr (addExpEntry_frame _ q .funcs (by decide)) _).trans (fnOf_updFunc_same here ?_))
  obtain ⟨lives, -⟩ := addQueue_kept q (now s) fn
  exact lives.trans (fnOf_eq_some.1 here).2

theorem queueMade_adm (s : State) (q : QueueSpec) :
    (queueMade s q).adm = (addExpEntry (updFunc s q.func (addQueue q (now s))) q).adm := poll_frame _ _ _ .adm (by decide)

theorem queueMade_frame (s : State) (q : QueueSpec) : OnlyChanges [.adm, .funcs, .reads, .nextTag, .out] s (queueMade s q) :=
  (poll_frame _ _ _).step ((addExpEntry_frame _ q).step ((updFunc_frame s q.func _).step (OnlyChanges.refl _ s)))

/-- The new ring or queue takes no place that the admin queue or its ring holds. -/
theorem queueMade_served {s : State} {p : Nat} {q : QueueSpec} (ok : queueOk s p q = true) (busy : flrNow s (64 * p) = false) :
    Served s (queueMade (adminTake s p) q) p := by
  obtain ⟨fn, here, freeRing, freeQueue⟩ := queueOk_free ok
  have frame := queueMade_frame (adminTake s p) q
  have time : now (queueMade (adminTake s p) q) = now s := by
    rw [now, frame .tt (by decide)]
    rfl
  by_cases same : 64 * p = q.func
  · obtain ⟨sqs, here', polled⟩ := queueMade_same (s := adminTake s p) here
    obtain ⟨-, flr, -⟩ := addQueue_kept q (now (adminTake s p)) fn
    refine ⟨frame .mbx (by decide), time, ?_, fun y k sq cq => ?_⟩
    · rw [same, flrNow_of_fnOf here', ← busy, same, flrNow_of_fnOf here]
      exact flr
    · rw [same, sqOf_of_fnOf here] at sq
      rw [same, cqOf_of_fnOf here] at cq
      obtain ⟨o, d, found⟩ := polled 0 y (addQueue_keeps_sq _ freeQueue sq)
      exact ⟨{ y with pollOut := o, pollDue := d }, k, by rw [same, sqOf_of_fnOf here']; exact found, rfl,
        by rw [same, cqOf_of_fnOf here']; exact addQueue_keeps_cq _ freeRing cq, rfl⟩
  · have kept : fnOf (queueMade (adminTake s p) q) (64 * p) = fnOf s (64 * p) := queueMade_other _ q same
    refine ⟨frame .mbx (by decide), time, ?_, fun y k sq cq => ⟨y, k, ?_, rfl, ?_, rfl⟩⟩
    · rw [flrNow, kept]
      exact busy
    · rw [sqOf, kept]
      exact sq
    · rw [cqOf, kept]
      exact cq

theorem addExpEntry_adm (s : State) {q : QueueSpec} (other : q.kind = 0 ∨ q.cls ≠ 0) : (addExpEntry s q).adm = s.adm := by
  unfold addExpEntry
  rw [if_pos (by simpa using other)]

/-- An Express queue takes a free entry with no allotments (R89, R169). -/
theorem addExpEntry_express (s : State) {q : QueueSpec} (queue : q.kind ≠ 0) (express : q.cls = 0) :
    (addExpEntry s q).adm.exp.find (Tab.gap s.adm.exp 0) =
      some { sqid := BitVec.ofNat 16 (sqidOf q.func q.slot), func := BitVec.ofNat 9 q.func } := by
  unfold addExpEntry
  rw [if_neg (by simp [queue, express])]
  exact Tab.find_put_same _ _ _

/-- A CREATE_QUEUE runs to its refusal, or makes its queue and ends. -/
theorem exec_createQueue {s : State} {a : AdminCmd} (ready : AdminReady a 0x43 cqForm s) : ∃ b, Starts a b ∧
    exec (.createQueue a) s = .next (
      if queueOk s a.port (queueSpec a.entry) then adminOk (queueMade (adminTake s a.port) (queueSpec a.entry)) b
      else adminBad (adminTake s a.port) b) := by
  obtain ⟨b, starts, run⟩ := ready.run
  refine ⟨b, starts, (congrArg _ (run _)).trans ?_⟩
  rw [starts.entry, starts.port]
  rfl

theorem createQueue_bad {s : State} {a : AdminCmd} (ready : AdminReady a 0x43 cqForm s) (bad : queueOk s a.port (queueSpec a.entry) = false) :
    Runs (.createQueue a) s fun t => AdminEnds 3 a s t ∧ t.adm = s.adm ∧ t.out = s.out := by
  obtain ⟨b, starts, run⟩ := exec_createQueue ready
  rw [bad, if_neg (by decide)] at run
  exact ((adminRowOf_row rfl).bad ready starts run).imp fun t ⟨ends, out, kept⟩ => ⟨ends, kept .adm (by decide), out⟩

theorem createQueue_makes {s : State} {a : AdminCmd} (ready : AdminReady a 0x43 cqForm s) (ok : queueOk s a.port (queueSpec a.entry) = true) :
    let q := queueSpec a.entry
    Runs (.createQueue a) s fun t => AdminEnds 0 a s t ∧ ∃ fn x, fnOf s q.func = some fn ∧
        fnOf t q.func = some x ∧ x.shadow = (fn.shadow.orElse fun _ => some q.shadow) ∧
        (q.kind = 0 → t.adm = s.adm ∧ ∃ k, x.cqs.find q.slot = some k ∧ k.log2 = q.log2 ∧ k.base = q.base ∧ k.ien = q.ien ∧
          k.vec = q.vec ∧ k.ivCount = q.ivCountM1 + 1 ∧ k.ivDelay = q.ivDelay ∧ k.pi = 0 ∧ k.ci = 0) ∧
        (q.kind ≠ 0 → ∃ k, x.sqs.find q.slot = some k ∧ k.push = (q.kind == 2) ∧ k.cls = clsOfSpec q.cls ∧
          k.cqSlot = q.cqSlot ∧ k.log2 = q.log2 ∧ k.base = q.base ∧ k.pollInt = q.pollInt ∧
          k.pasid = (if q.pasidEn then some q.pasid else none) ∧ k.quota = q.quotaM1 + 1 ∧ k.pi = 0 ∧ k.ci = 0) ∧
        (q.kind ≠ 0 → q.cls ≠ 0 → t.adm = s.adm) ∧
        (q.kind ≠ 0 → q.cls = 0 → ∃ i, t.adm.exp.find i =
          some { sqid := BitVec.ofNat 16 (sqidOf q.func q.slot), func := BitVec.ofNat 9 q.func }) := by
  intro q
  obtain ⟨b, starts, run⟩ := exec_createQueue ready
  rw [ok, if_pos rfl] at run
  obtain ⟨-, -, -, -, -, port, busy, -⟩ := ready
  obtain ⟨fn, here, -⟩ := queueOk_free ok
  obtain ⟨sqs, here', polled⟩ := queueMade_same (s := adminTake s a.port) here
  obtain ⟨cqs, here'', rings⟩ := adminDone_fnOf starts port .success false here'
  obtain ⟨-, -, shadow⟩ := addQueue_kept q (now (adminTake s a.port)) fn
  have adm : (adminOk (queueMade (adminTake s a.port) q) b).adm =
      (addExpEntry (updFunc (adminTake s a.port) q.func (addQueue q (now (adminTake s a.port)))) q).adm :=
    (adminOk_frame _ b .adm (by decide)).trans (queueMade_adm _ q)
  refine .of_exec run (execCreateQueue_frame a s) ⟨(queueMade_served ok busy).ends starts port .success false,
    fn, _, here, here'', shadow, fun ring => ⟨adm.trans (addExpEntry_adm _ (.inl ring)), ?_⟩, fun queue => ?_,
    fun _ cls => adm.trans (addExpEntry_adm _ (.inr cls)), fun queue cls => ⟨Tab.gap s.adm.exp 0, ?_⟩⟩
  · obtain ⟨rs, found⟩ := rings q.slot _ (addQueue_ring _ fn ring)
    exact ⟨_, found, rfl, rfl, rfl, rfl, rfl, rfl, rfl, rfl⟩
  · obtain ⟨o, d, found⟩ := polled q.slot _ (addQueue_queue _ fn queue)
    exact ⟨_, found, rfl, rfl, rfl, rfl, rfl, rfl, rfl, rfl, rfl, rfl⟩
  · rw [adm]
    exact addExpEntry_express _ queue cls

end Sys2Proof.Machine
end

section
/-! SET_POWER (R202, R205) and SET_TOKENS (R65, R75, R199): what they set, and what they wait for. -/

namespace Sys2Proof.Machine

/-! SET_POWER -/

/-- The power state with the rung and the dwell of a SET_POWER, no earlier one waiting. -/
def powerSetting (e : BitVec 512) (p : Power) : Power :=
  { p with setRung := BitVec.ofNat 3 (eBits e 40 0 3), setDwell := BitVec.ofNat 16 (eBits e 42 0 16), setWaiters := [] }

theorem exec_setPower {s : State} {a : AdminCmd} (ready : AdminReady a 0x44 spForm s) : ∃ b, Starts a b ∧
    exec (.setPower a) s = .next (
      let v := s.pwr.setWaiters.foldl (fun t c => adminOk t c) (updPwr (adminTake s a.port) (powerSetting a.entry))
      if 4 < eBits a.entry 40 0 3 || eBits a.entry 42 0 16 = 0 then adminBad (adminTake s a.port) b
      else if targetRung v = 0 then adminOk v b else updPwr v fun p => { p with setWaiters := [b] }) := by
  obtain ⟨b, starts, run⟩ := ready.run
  refine ⟨b, starts, (congrArg _ (run _)).trans ?_⟩
  rw [starts.entry]
  rfl

section
variable {s : State} {a : AdminCmd} (ready : AdminReady a 0x44 spForm s)
include ready

theorem setPower_bad (bad : 4 < eBits a.entry 40 0 3 ∨ eBits a.entry 42 0 16 = 0) :
    Runs (.setPower a) s fun t => AdminEnds 3 a s t ∧ t.pwr = s.pwr := by
  obtain ⟨b, starts, run⟩ := exec_setPower ready
  rw [if_pos (by simpa using bad)] at run
  exact ((adminRowOf_row rfl).bad ready starts run).imp fun t ⟨ends, _, kept⟩ => ⟨ends, kept .pwr (by decide)⟩

variable (low : eBits a.entry 40 0 3 ≤ 4) (dwell : eBits a.entry 42 0 16 ≠ 0) (alone : s.pwr.setWaiters = [])
include low dwell alone

theorem exec_setPower_alone : ∃ b, Starts a b ∧ exec (.setPower a) s = .next (
    let v := updPwr (adminTake s a.port) (powerSetting a.entry)
    if targetRung { s with pwr := powerSetting a.entry s.pwr } = 0 then adminOk v b
    else updPwr v fun p => { p with setWaiters := [b] }) := by
  obtain ⟨b, starts, run⟩ := exec_setPower ready
  rw [if_neg (by simp [low, dwell]), alone] at run
  exact ⟨b, starts, run⟩

theorem setPower_atOnce (here : targetRung { s with pwr := powerSetting a.entry s.pwr } = 0) :
    Runs (.setPower a) s fun t => AdminEnds 0 a s t ∧ t.pwr = powerSetting a.entry s.pwr := by
  obtain ⟨b, starts, run⟩ := exec_setPower_alone ready low dwell alone
  rw [if_pos here] at run
  obtain ⟨-, -, -, -, -, port, busy, -⟩ := ready
  have served : Served s (updPwr (adminTake s a.port) (powerSetting a.entry)) a.port :=
    (Served.take busy).of_kept rfl rfl (.of_funcs rfl)
  exact .of_exec run (execSetPower_frame a s) ⟨served.ends starts port .success false, adminOk_frame _ b .pwr (by decide)⟩

theorem setPower_waits (ahead : targetRung { s with pwr := powerSetting a.entry s.pwr } ≠ 0) :
    Runs (.setPower a) s fun t => AdminWaits a t.pwr.setWaiters s t ∧
      t.pwr = { powerSetting a.entry s.pwr with setWaiters := t.pwr.setWaiters } := by
  obtain ⟨b, starts, run⟩ := exec_setPower_alone ready low dwell alone
  rw [if_neg ahead] at run
  exact .of_exec run (execSetPower_frame a s) ⟨⟨rfl, rfl, b, .head _, starts.entry, starts.port⟩, rfl⟩

end

/-! SET_TOKENS -/

/-- What a SET_TOKENS that its checks pass sets (R65, R75, R199). -/
theorem exec_setTokens {s : State} {a : AdminCmd} (ready : AdminReady a 0x48 stForm s) : ∃ b, Starts a b ∧
    exec (.setTokens a) s = .next (match applyTokens (adminTake s a.port) (tokenReq a.entry) (ownFunc s a.port) with
      | some t => updAdm t fun x => { x with tokenWait := x.tokenWait ++ [b] }
      | none => adminBad (adminTake s a.port) b) := by
  obtain ⟨b, starts, run⟩ := ready.run
  refine ⟨b, starts, (congrArg _ (run _)).trans ?_⟩
  rw [starts.entry, starts.port]
  rfl

theorem setShared_isSome {s : State} {f : Nat} {v : BitVec 32 × BitVec 32 × BitVec 32 × BitVec 32} (here : (fnOf s f).isSome = true) :
    setShared s f v = some (updAdm s fun a => { a with sb := a.sb.put f { (a.sb.getD f {}) with next := some v } }) := by
  obtain ⟨fn, found⟩ := Option.isSome_iff_exists.1 here
  simp [setShared, found]

theorem find?_mapVal_of_keeps {α : Type} (t : Tab α) (p : α → Bool) (g : Nat → α → α) (keeps : ∀ k x, p (g k x) = p x) :
    (Tab.mapVal t g).find? (fun e => p e.2) = (t.find? fun e => p e.2).map fun e => (e.1, g e.1 e.2) := by
  rw [Tab.mapVal, List.find?_map]
  congr 2
  funext e
  exact keeps _ _

theorem find?_put_of_new {α : Type} {t : Tab α} {v : α} {p : α → Bool} (k : Nat) (own : p v = true) (others : ∀ e ∈ t, p e.2 = false) :
    (Tab.put t k v).find? (fun e => p e.2) = some (k, v) := by
  induction t with
  | nil => simp [Tab.put, own]
  | cons e t ih =>
    obtain ⟨j, y⟩ := e
    have rest := ih fun e mem => others e (.tail _ mem)
    have first : p y = false := others (j, y) (.head _)
    unfold Tab.put
    split
    · simp [own]
    · split
      · simp [own]
      · simpa [first] using rest

/-- The state with an allotment next at the Express entry of a queue: its own, or one that it takes now. -/
def expressSet (s : State) (sqid : Nat) (v : BitVec 32 × BitVec 32 × BitVec 32) : State :=
  match expOf s sqid with
  | some _ => updExp s sqid fun x => { x with next := some v }
  | none => updAdm s fun a => putExp a { sqid := BitVec.ofNat 16 sqid, func := BitVec.ofNat 9 (sqid / 64), next := some v }

theorem eq_of_setExpress {s t : State} {sqid : Nat} {v : BitVec 32 × BitVec 32 × BitVec 32}
    (set : setExpress s sqid v.1 v.2.1 v.2.2 = some t) : t = rbChange (expressSet s sqid v) := by
  unfold setExpress at set
  split at set
  next => cases set
  next =>
    split at set
    · cases set
    · change (if sumsFit (expressSet s sqid v) then some (rbChange (expressSet s sqid v)) else none) = some t at set
      split at set
      · exact (Option.some.inj set).symm
      · cases set

theorem expressSet_keeps (s : State) (sqid : Nat) (v : BitVec 32 × BitVec 32 × BitVec 32) :
    (expressSet s sqid v).adm.sb = s.adm.sb ∧ (expressSet s sqid v).mbx = s.mbx ∧ (expressSet s sqid v).funcs = s.funcs := by
  unfold expressSet
  split <;> exact ⟨rfl, rfl, rfl⟩

theorem expressSet_own {s : State} {sqid : Nat} {z : Nat × ExpQ} (v : BitVec 32 × BitVec 32 × BitVec 32) (found : expOf s sqid = some z) :
    expOf (expressSet s sqid v) sqid = some (z.1, { z.2 with next := some v }) := by
  have same : (z.2.sqid.toNat == sqid) = true :=
    List.find?_some (p := fun e : Nat × ExpQ => e.2.sqid.toNat == sqid) found
  have moved := find?_mapVal_of_keeps s.adm.exp (fun x => x.sqid.toNat == sqid)
    (fun _ e => if e.sqid.toNat == sqid then { e with next := some v } else e) fun k x => by split <;> rfl
  rw [show s.adm.exp.find? (fun e => e.2.sqid.toNat == sqid) = some z from found, Option.map_some, same, if_pos rfl] at moved
  unfold expressSet
  rw [found]
  exact moved

theorem expressSet_new {s : State} {sqid : Nat} (v : BitVec 32 × BitVec 32 × BitVec 32) (small : sqid < 2 ^ 16)
    (absent : expOf s sqid = none) : ∃ i x, expOf (expressSet s sqid v) sqid = some (i, x) ∧ x.next = some v := by
  let x : ExpQ := { sqid := BitVec.ofNat 16 sqid, func := BitVec.ofNat 9 (sqid / 64), next := some v }
  have others : ∀ e ∈ s.adm.exp, (e.2.sqid.toNat == sqid) = false := by simpa [expOf] using absent
  have own : (x.sqid.toNat == sqid) = true := by simpa [x] using Nat.mod_eq_of_lt small
  unfold expressSet
  rw [absent]
  exact ⟨_, x, find?_put_of_new (p := fun y : ExpQ => y.sqid.toNat == sqid) (Tab.gap s.adm.exp 0) own others, rfl⟩

theorem eBits_lt (e : BitVec 512) (k b n : Nat) : eBits e k b n < 2 ^ n := BitVec.isLt _

section
variable {s : State} {a : AdminCmd} (ready : AdminReady a 0x48 stForm s)
include ready

theorem setTokens_bad (refused : applyTokens (adminTake s a.port) (tokenReq a.entry) (ownFunc s a.port) = none) :
    Runs (.setTokens a) s fun t => AdminEnds 3 a s t ∧ t.adm = s.adm := by
  obtain ⟨b, starts, run⟩ := exec_setTokens ready
  rw [refused] at run
  exact ((adminRowOf_row rfl).bad ready starts run).imp fun t ⟨ends, _, kept⟩ => ⟨ends, kept .adm (by decide)⟩

/-- A SET_TOKENS that is taken waits for the cycle edge (R65). -/
theorem setTokens_waits {v : State} (taken : applyTokens (adminTake s a.port) (tokenReq a.entry) (ownFunc s a.port) = some v)
    (mbx : v.mbx = (adminTake s a.port).mbx) (funcs : v.funcs = s.funcs) : Runs (.setTokens a) s fun t =>
      AdminWaits a t.adm.tokenWait s t ∧ t.rb = v.rb ∧ t.adm.sb = v.adm.sb ∧ t.adm.exp = v.adm.exp := by
  obtain ⟨b, starts, run⟩ := exec_setTokens ready
  rw [taken] at run
  exact .of_exec run (execSetTokens_frame a s)
    ⟨⟨mbx, funcs, b, List.mem_append_right _ (.head _), starts.entry, starts.port⟩, rfl, rfl, rfl⟩

theorem setTokens_foreign (foreign : ownFunc s a.port
    (if (tokenReq a.entry).kind = 0 then (tokenReq a.entry).target / 64 else (tokenReq a.entry).target) = false) :
    Runs (.setTokens a) s fun t => AdminEnds 3 a s t ∧ t.adm = s.adm := by
  refine setTokens_bad ready ?_
  unfold applyTokens
  split at foreign <;> simp [*]

theorem setTokens_express (kind : (tokenReq a.entry).kind = 0) (own : ownFunc s a.port ((tokenReq a.entry).target / 64) = true) :
    let r := tokenReq a.entry
    let express := setExpress (adminTake s a.port) r.target r.v.1 r.v.2.1 r.v.2.2.1
    (r.v.2.2.2 ≠ 0 ∨ express = none → Runs (.setTokens a) s fun t => AdminEnds 3 a s t ∧ t.adm = s.adm) ∧
    (r.v.2.2.2 = 0 → express.isSome = true → Runs (.setTokens a) s fun t => AdminWaits a t.adm.tokenWait s t ∧
      t.rb.changed = true ∧ t.adm.sb = s.adm.sb ∧ ∃ x, expOf t r.target = some x ∧
        x.2.next = some (r.v.1, r.v.2.1, r.v.2.2.1) ∧
        ∀ z, expOf s r.target = some z → x = (z.1, { z.2 with next := x.2.next })) := by
  intro r express
  have applied : applyTokens (adminTake s a.port) r (ownFunc s a.port) = if r.v.2.2.2 == 0 then express else none := by
    simp [applyTokens, r, express, kind, own]
  refine ⟨fun refused => setTokens_bad ready (applied.trans ?_), fun zero taken => ?_⟩
  · rcases refused with more | none
    · exact if_neg (by simpa using more)
    · simp [none]
  · obtain ⟨v, set⟩ := Option.isSome_iff_exists.1 taken
    have eq := eq_of_setExpress (v := (r.v.1, r.v.2.1, r.v.2.2.1)) set
    obtain ⟨sb, mbx, funcs⟩ := expressSet_keeps (adminTake s a.port) r.target (r.v.1, r.v.2.1, r.v.2.2.1)
    rw [zero, set] at applied
    refine (setTokens_waits ready applied (by rw [eq]; exact mbx) (by rw [eq]; exact funcs)).imp fun t ⟨waits, rb, sb', exp⟩ =>
      ⟨waits, by rw [rb, eq]; rfl, by rw [sb', eq]; exact sb, ?_⟩
    have same : expOf t r.target = expOf (expressSet (adminTake s a.port) r.target (r.v.1, r.v.2.1, r.v.2.2.1)) r.target := by
      rw [expOf, exp, eq]
      rfl
    cases found : expOf s r.target with
    | some z => exact ⟨_, same.trans (expressSet_own (s := adminTake s a.port) _ found), rfl, fun y here => by cases here; rfl⟩
    | none =>
      obtain ⟨i, x, entered, next⟩ := expressSet_new (s := adminTake s a.port) (r.v.1, r.v.2.1, r.v.2.2.1) (eBits_lt _ _ _ _) found
      exact ⟨(i, x), same.trans entered, next, fun y here => by cases here⟩

theorem setTokens_shared (kind : (tokenReq a.entry).kind = 1) (own : ownFunc s a.port (tokenReq a.entry).target = true) :
    let r := tokenReq a.entry
    Runs (.setTokens a) s fun t => AdminWaits a t.adm.tokenWait s t ∧ t.adm.exp = s.adm.exp ∧
      t.adm.sb.find r.target = some { (sbOf s r.target) with next := some r.v } ∧
      ∀ k, k ≠ r.target → t.adm.sb.find k = s.adm.sb.find k := by
  intro r
  have here : (fnOf (adminTake s a.port) r.target).isSome = true := by
    simp only [ownFunc, Bool.and_eq_true] at own
    exact own.1.2
  have applied : applyTokens (adminTake s a.port) r (ownFunc s a.port) = setShared (adminTake s a.port) r.target r.v := by
    simp [applyTokens, r, kind, own]
  refine (setTokens_waits ready (applied.trans (setShared_isSome here)) rfl rfl).imp fun t ⟨waits, _, sb, exp⟩ =>
    ⟨waits, exp, ?_, fun k other => ?_⟩
  · rw [sb]
    exact Tab.find_put_same _ _ _
  · rw [sb]
    exact Tab.find_put_other _ _ other

end

end Sys2Proof.Machine
end

section
/-! GET_LOG (R206 to R208): the bytes of a log page, and what a header and an error log entry hold. -/

namespace Sys2Proof.Machine

/-! Bytes of a value -/

theorem leBytes_length (n v : Nat) : (leBytes n v).length = n := by
  induction n generalizing v with
  | zero => rfl
  | succ n ih => exact congrArg (· + 1) (ih _)

theorem leNat_leBytes (n v : Nat) : leNat (leBytes n v) = v % 256 ^ n := by
  induction n generalizing v with
  | zero => simp [leBytes, leNat, Nat.mod_one]
  | succ n ih =>
    rw [leBytes, leNat, ih, BitVec.toNat_ofNat, Nat.pow_succ' (n := n), Nat.mod_mul]

theorem leNat_leBytes_bitVec {w : Nat} (n : Nat) (v : BitVec w) (fits : 2 ^ w ≤ 256 ^ n) : leNat (leBytes n v.toNat) = v.toNat := by
  rw [leNat_leBytes, Nat.mod_eq_of_lt (v.isLt.trans_le fits)]

theorem padTo_length (n : Nat) (l : List Byte) : (padTo n l).length = n := by
  simp only [padTo, List.length_append, List.length_take, List.length_replicate]
  omega

/-! The chunks of a page -/

theorem logChunk_length (s : State) (id k : Nat) : (logChunk s id k).length = 32 := by
  have entry {α : Type} (o : Option α) (bytes : α → List Byte) (fits : ∀ x, (bytes x).length = 32) :
      ((o.map bytes).getD (List.replicate 32 0)).length = 32 := by
    cases o with
    | none => rfl
    | some x => exact fits x
  have logged (q : Nat) (e : LogEnt) : (errBytes q e).length = 32 := by simp [errBytes, leBytes_length]
  have deferred (q : Nat) (e : DefEnt) : (defBytes q e).length = 32 := by simp [defBytes, leBytes_length]
  have lost (l : Lost) : (lostBytes l).length = 32 := by simp [lostBytes, leBytes_length]
  have blank : (List.replicate 32 (0 : Byte)).length = 32 := rfl
  unfold logChunk
  extract_lets cut q1 q2
  have slice (l : List Byte) (i : Nat) : (cut l i).length = 32 := padTo_length _ _
  split
  · split
    · exact slice _ _
    · split
      · exact blank
      · exact entry _ _ fun x => logged _ _
  · split
    · split
      · exact slice _ _
      · split
        · exact blank
        · exact entry _ _ fun x => deferred _ _
    · split
      · split
        · exact slice _ _
        · split
          · exact blank
          · exact slice _ _
      · split
        · exact slice _ _
        · exact entry _ _ lost

theorem logBytes_length {s : State} {id off len : Nat} (whole : len % 64 = 0) : (logBytes s id off len).length = len := by
  simp only [logBytes, List.length_flatten, List.map_map, Function.comp_def, logChunk_length, List.map_const', List.length_range,
    List.sum_replicate, smul_eq_mul]
  omega

/-- The first bytes of what GET_LOG sends are those of the chunk at its offset. -/
theorem logBytes_field {s : State} {id off len k n : Nat} (some : 32 ≤ len) (first : k + n ≤ 32) :
    ((logBytes s id off len).drop k).take n = ((logChunk s id (off / 32)).drop k).take n := by
  obtain ⟨m, chunks⟩ : ∃ m, len / 32 = m + 1 := ⟨len / 32 - 1, by omega⟩
  rw [logBytes, chunks, List.range_succ_eq_map, List.map_cons, List.flatten_cons, Nat.add_zero,
    List.drop_append_of_le_length (by rw [logChunk_length]; omega), List.take_append_of_le_length]
  rw [List.length_drop, logChunk_length]
  omega

/-! The fields of a page's header (R207) -/

/-- A write at an offset leaves the bytes before it. -/
theorem padTo_splice_before {n off k m : Nat} {b : List Byte} (bs : List Byte) (full : b.length = n) (before : k + m ≤ off) (inside : off ≤ n) :
    ((padTo n (splice b off bs)).drop k).take m = (b.drop k).take m := by
  apply List.ext_getElem?
  intro i
  by_cases here : i < m
  · rw [List.getElem?_take_of_lt here, List.getElem?_take_of_lt here, List.getElem?_drop, List.getElem?_drop, padTo, splice, List.append_assoc,
      List.getElem?_append_left (by simp; omega), List.getElem?_take_of_lt (by omega), List.getElem?_append_left (by simp; omega),
      List.getElem?_take_of_lt (by omega)]
  · simp [here]

/-- A write at an offset stands there. -/
theorem padTo_splice_same {n off : Nat} {b bs : List Byte} (full : b.length = n) (inside : off + bs.length ≤ n) :
    ((padTo n (splice b off bs)).drop off).take bs.length = bs := by
  have start : (b.take off).length = off := by
    rw [List.length_take]
    omega
  apply List.ext_getElem?
  intro i
  by_cases here : i < bs.length
  · rw [List.getElem?_take_of_lt here, List.getElem?_drop, padTo, splice, List.append_assoc, List.getElem?_append_left (by simp; omega),
      List.getElem?_take_of_lt (by omega), List.getElem?_append_right (by omega), start, Nat.add_sub_cancel_left,
      List.getElem?_append_left here]
  · simp [here]

/-- Fields laid later leave the bytes before them. -/
theorem lay_before {n k m : Nat} {fs : List (Nat × List Byte)} {b : List Byte} (full : b.length = n)
    (later : ∀ f ∈ fs, k + m ≤ f.1 ∧ f.1 ≤ n) :
    ((fs.foldl (fun b f => padTo n (splice b f.1 f.2)) b).drop k).take m = (b.drop k).take m := by
  induction fs generalizing b with
  | nil => rfl
  | cons f fs ih =>
    obtain ⟨before, inside⟩ := later f (.head _)
    exact (ih (padTo_length _ _) fun f mem => later f (.tail _ mem)).trans (padTo_splice_before f.2 full before inside)

theorem layBytes_length (n : Nat) (fs : List (Nat × List Byte)) : (layBytes n fs).length = n := by
  unfold layBytes
  induction fs using List.reverseRecOn with
  | nil => exact List.length_replicate
  | append_singleton fs f _ =>
    rw [List.foldl_append]
    exact padTo_length _ _

theorem layBytes_field {n k : Nat} {bs : List Byte} (pre : List (Nat × List Byte)) {post : List (Nat × List Byte)} (inside : k + bs.length ≤ n)
    (later : ∀ f ∈ post, k + bs.length ≤ f.1 ∧ f.1 ≤ n) : ((layBytes n (pre ++ (k, bs) :: post)).drop k).take bs.length = bs := by
  rw [layBytes, List.foldl_append, List.foldl_cons]
  exact (lay_before (padTo_length _ _) later).trans (padTo_splice_same (layBytes_length n pre) inside)

/-- A field in the first 32 bytes of a page that begins with laid fields. -/
theorem page_field {k : Nat} {bs : List Byte} (pre : List (Nat × List Byte)) {post : List (Nat × List Byte)} {more : List Byte}
    (inside : k + bs.length ≤ 32) (later : ∀ f ∈ post, k + bs.length ≤ f.1 ∧ f.1 ≤ 64) :
    ((padTo 32 (layBytes 64 (pre ++ (k, bs) :: post) ++ more)).drop k).take bs.length = bs := by
  have long := layBytes_length 64 (pre ++ (k, bs) :: post)
  rw [padTo, List.take_append_of_le_length (by omega), List.drop_append_of_le_length (by rw [List.length_take]; omega),
    List.take_append_of_le_length (by simp; omega), List.drop_take, List.take_take,
    Nat.min_eq_left (by omega)]
  exact layBytes_field pre (by omega) later

/-- The pages begin with a header of fields at rising offsets. -/
theorem logChunk_header (s : State) {id : Nat} (low : 1 ≤ id) (high : id ≤ 4) : ∃ cap rest more,
    logChunk s id 0 = padTo 32 (layBytes 64 ([(0, leBytes 1 id), (1, leBytes 1 1), (2, leBytes 2 (if id = 3 then 64 else 32)),
      (4, leBytes 4 cap)] ++ rest) ++ more) ∧ (∀ f ∈ rest, 8 ≤ f.1 ∧ f.1 ≤ 64) ∧
    (id ≤ 2 → cap = Config.logCapacity ∧ ∃ a b, rest = [a, b, (0x10, leBytes 8 (now s).toNat)]) := by
  have cases : id = 1 ∨ id = 2 ∨ id = 3 ∨ id = 4 := by omega
  rcases cases with rfl | rfl | rfl | rfl
  · let q := logSeqs s.errSeq s.errLog.length
    refine ⟨Config.logCapacity, [(0x08, leBytes 4 q.1), (0x0C, leBytes 4 q.2), (0x10, leBytes 8 (now s).toNat)], [], ?_, by simp,
      fun _ => ⟨rfl, _, _, rfl⟩⟩
    rw [List.append_nil]
    rfl
  · let q := logSeqs s.defSeq s.defLog.length
    refine ⟨Config.logCapacity, [(0x08, leBytes 4 q.1), (0x0C, leBytes 4 q.2), (0x10, leBytes 8 (now s).toNat)], [], ?_, by simp,
      fun _ => ⟨rfl, _, _, rfl⟩⟩
    rw [List.append_nil]
    rfl
  · refine ⟨4096, [(0x08, leBytes 4 s.fare.seq.toNat), (0x0C, leBytes 4 0), (0x10, leBytes 8 s.fare.ts.toNat),
      (0x18, leBytes 8 s.fare.prevTs.toNat), (0x20, leBytes 4 s.fare.period.toNat), (0x28, leBytes 8 s.fare.originTs.toNat)], [], ?_,
      by simp, by simp⟩
    rw [List.append_nil]
    rfl
  · exact ⟨Config.lostCapacity, [(0x08, leBytes 4 s.mem.lost.length), (0x10, leBytes 8 s.mem.lostTs.toNat)],
      (s.mem.lost.map lostBytes).flatten, rfl, by simp, by simp⟩

theorem logChunk_fields (s : State) {id : Nat} (low : 1 ≤ id) (high : id ≤ 4) :
    leNat (((logChunk s id 0).drop 0).take 1) = id ∧ leNat (((logChunk s id 0).drop 2).take 2) = (if id = 3 then 64 else 32) ∧
    (id ≤ 2 → leNat (((logChunk s id 0).drop 4).take 4) = Config.logCapacity ∧
      leNat (((logChunk s id 0).drop 0x10).take 8) = (now s).toNat) := by
  obtain ⟨cap, rest, more, page, later, logged⟩ := logChunk_header s low high
  have number := page_field (k := 0) (bs := leBytes 1 id) [] (more := more)
    (post := [(1, leBytes 1 1), (2, leBytes 2 (if id = 3 then 64 else 32)), (4, leBytes 4 cap)] ++ rest) (by simp [leBytes_length]) (by grind [leBytes_length])
  have size := page_field (k := 2) (bs := leBytes 2 (if id = 3 then 64 else 32)) [(0, leBytes 1 id), (1, leBytes 1 1)] (more := more)
    (post := (4, leBytes 4 cap) :: rest) (by simp [leBytes_length]) (by grind [leBytes_length])
  rw [page]
  refine ⟨?_, ?_, fun log => ?_⟩
  · exact (congrArg leNat number).trans ((leNat_leBytes 1 id).trans (Nat.mod_eq_of_lt (by omega)))
  · refine (congrArg leNat size).trans ((leNat_leBytes 2 _).trans (Nat.mod_eq_of_lt ?_))
    split <;> decide
  · obtain ⟨rfl, x, y, rfl⟩ := logged log
    have capacity := page_field (k := 4) (bs := leBytes 4 Config.logCapacity) (more := more)
      [(0, leBytes 1 id), (1, leBytes 1 1), (2, leBytes 2 (if id = 3 then 64 else 32))]
      (post := [x, y, (0x10, leBytes 8 (now s).toNat)]) (by simp [leBytes_length]) (by grind [leBytes_length])
    have time := page_field (k := 0x10) (bs := leBytes 8 (now s).toNat) (more := more)
      [(0, leBytes 1 id), (1, leBytes 1 1), (2, leBytes 2 (if id = 3 then 64 else 32)), (4, leBytes 4 Config.logCapacity), x, y]
      (post := []) (by simp [leBytes_length]) (by simp)
    exact ⟨(congrArg leNat capacity).trans (leNat_leBytes 4 _), (congrArg leNat time).trans (leNat_leBytes_bitVec 8 _ (by decide))⟩

/-- The first entry of the error log stands in the first chunk after the header. -/
theorem logChunk_entry {s : State} {x : LogEnt} (seq : s.errSeq = 1) (log : s.errLog = [x]) : logChunk s 1 2 = errBytes 0 x := by
  have first : logAt s.errLog s.errSeq (2 - 2) = some (0, x) := by
    rw [seq, log]
    rfl
  simp only [logChunk, first]
  rfl

theorem errBytes_fields (q : Nat) (x : LogEnt) : let b := errBytes q x
    (b.drop 0).take 4 = leBytes 4 q ∧ (b.drop 4).take 2 = leBytes 2 x.code.toNat ∧ (b.drop 8).take 8 = leBytes 8 x.ts.toNat ∧
      (b.drop 0x18).take 8 = leBytes 8 x.detail.toNat :=
  ⟨rfl, rfl, rfl, rfl⟩

/-! GET_LOG -/

/-- What a page sent may be: the checks of R206. -/
def logFits (a : AdminCmd) : Prop :=
  1 ≤ eBits a.entry 40 0 8 ∧ eBits a.entry 40 0 8 ≤ 4 ∧ eBits a.entry 44 0 32 % 64 = 0 ∧ adminLen a % 64 = 0 ∧ adminLen a ≠ 0 ∧
    adminLen a ≤ 131072

section
variable {s : State} {a : AdminCmd} (ready : AdminReady a 0x45 glForm s)
include ready

theorem exec_getLog : ∃ b, Starts a b ∧ (¬logFits a → exec (.getLog a) s = .next (adminBad (adminTake s a.port) b)) ∧
    (logFits a → exec (.getLog a) s = .next (adminSend (adminTake s a.port) b
      (logBytes (adminTake s a.port) (eBits a.entry 40 0 8) (eBits a.entry 44 0 32) (adminLen a)))) := by
  obtain ⟨b, starts, run⟩ := ready.run
  refine ⟨b, starts, fun bad => (congrArg _ (run _)).trans ?_, fun fits => (congrArg _ (run _)).trans ?_⟩ <;>
    simp only [starts.entry, starts.len]
  · rw [if_pos]
    simp only [logFits, Bool.or_eq_true, decide_eq_true_eq, bne_iff_ne] at bad ⊢
    omega
  · rw [if_neg]
    simp only [logFits, Bool.or_eq_true, decide_eq_true_eq, bne_iff_ne] at fits ⊢
    omega

theorem getLog_bad (bad : ¬logFits a) : Runs (.getLog a) s fun t => AdminEnds 3 a s t ∧ t.out = s.out := by
  obtain ⟨b, starts, run, -⟩ := exec_getLog ready
  exact ((adminRowOf_row rfl).bad ready starts (run bad)).imp fun t ⟨ends, out, _⟩ => ⟨ends, out⟩

/-- GET_LOG sends bytes of its page to the places of its pointer, and ends. -/
theorem getLog_sends (fits : logFits a) : Runs (.getLog a) s fun t => AdminEnds 0 a s t ∧
    AdminSent a (logBytes s (eBits a.entry 40 0 8) (eBits a.entry 44 0 32) (adminLen a)) s t := by
  obtain ⟨b, starts, -, run⟩ := exec_getLog ready
  obtain ⟨-, -, -, -, -, port, busy, moves, -⟩ := ready
  obtain ⟨up, -⟩ := moves (by decide)
  obtain ⟨fn, here⟩ := fnOf_of_pfUp up
  let bs := logBytes (adminTake s a.port) (eBits a.entry 40 0 8) (eBits a.entry 44 0 32) (adminLen a)
  have served : Served s (emitAdmin (adminTake s a.port) b bs) a.port := (Served.take busy).of_kept rfl rfl (.of_funcs rfl)
  have ro : fnOf (adminTake s a.port) (64 * a.port) = some fn := here
  refine .of_exec (run fits) (execGetLog_frame a s) ⟨served.ends starts port .success false, fn, here,
    (adminDone_out starts port .success false).trans ?_⟩
  simp only [emitAdmin, emit, starts.port, starts.entry, starts.extents, ro]
  rfl

theorem getLog_page (fits : logFits a) :
    let id := eBits a.entry 40 0 8
    let off := eBits a.entry 44 0 32
    Runs (.getLog a) s fun t => AdminEnds 0 a s t ∧ ∃ bs, AdminSent a bs s t ∧ bs.length = adminLen a ∧
      let at_ : Nat → Nat → Nat := fun k n => leNat ((bs.drop k).take n)
      (off = 0 → at_ 0 1 = id ∧ at_ 2 2 = (if id = 3 then 64 else 32) ∧
        (id ≤ 2 → at_ 4 4 = Config.logCapacity ∧ at_ 0x10 8 = (now s).toNat)) ∧
      ∀ x, id = 1 → off = 64 → s.errSeq = 1 → s.errLog = [x] → at_ 0 4 = 0 ∧ at_ 4 2 = x.code.toNat ∧
        at_ 8 8 = x.ts.toNat ∧ at_ 0x18 8 = x.detail.toNat := by
  intro number off
  obtain ⟨low, high, -, whole, more, -⟩ := id fits
  have field (k n : Nat) (first : k + n ≤ 32) : leNat (((logBytes s number off (adminLen a)).drop k).take n) =
      leNat (((logChunk s number (off / 32)).drop k).take n) := congrArg leNat (logBytes_field (by omega) first)
  refine (getLog_sends ready fits).imp fun t ⟨ends, sent⟩ => ⟨ends, _, sent, logBytes_length whole, fun start => ?_,
    fun x log entry seq kept => ?_⟩
  · obtain ⟨page, size, times⟩ := logChunk_fields s low high
    have chunk : off / 32 = 0 := by omega
    simp only [chunk] at field
    exact ⟨(field 0 1 (by decide)).trans page, (field 2 2 (by decide)).trans size, fun log =>
      ⟨(field 4 4 (by decide)).trans (times log).1, (field 0x10 8 (by decide)).trans (times log).2⟩⟩
  · obtain ⟨count, code, time, detail⟩ := errBytes_fields 0 x
    have chunk : logChunk s number (off / 32) = errBytes 0 x := by
      rw [log, entry]
      exact logChunk_entry seq kept
    rw [chunk] at field
    have value {k n m : Nat} {bs : List Byte} (first : k + n ≤ 32) (here : ((errBytes 0 x).drop k).take n = bs) (eq : leNat bs = m) :=
      (field k n first).trans ((congrArg leNat here).trans eq)
    exact ⟨value (by decide) count rfl, value (by decide) code (leNat_leBytes_bitVec 2 _ (by decide)),
      value (by decide) time (leNat_leBytes_bitVec 8 _ (by decide)), value (by decide) detail (leNat_leBytes_bitVec 8 _ (by decide))⟩

end

end Sys2Proof.Machine
end

section
/-! SET_TIMETABLE (R43, R44, R200, R201): what each selected change sets, and what the command waits for. -/

namespace Sys2Proof.Machine

/-! The changes of a request -/

/-- What a SET_TIMETABLE that its checks pass sets, from timetable to timetable. -/
structure TtSet (r : TtReq) (x y : Timetable) : Prop where
  inComp : y.inComp = if r.on 3 then BitVec.ofNat 10 r.inComp else x.inComp
  planEn : y.planEn = if r.on 7 then r.planEn else x.planEn
  refEn : y.refEn = if r.on 5 then r.refEn else x.refEn
  outEn : y.outEn = if r.on 4 then r.outEn else x.outEn
  cycleLoad : y.cycleLoad = if r.on 1 then BitVec.ofNat 44 r.cycleLoad else x.cycleLoad
  loadArm : r.on 1 = true → y.loadArm = true
  switched : r.on 0 = true → y.nomCycle = BitVec.ofNat 32 r.nom ∧ y.slotsLog2 = BitVec.ofNat 5 r.k ∧ y.switch.isSome = true ∧
    y.window = x.window ∧ y.possLead = x.possLead
  atOnce : r.on 0 = false → y.window = (if r.on 2 then BitVec.ofNat 16 r.window else x.window) ∧
    y.possLead = if r.on 8 then BitVec.ofNat 32 r.possLead else x.possLead
  plan : r.on 6 = true → y.commitPend = true ∧ (if x.bankB then y.planA else y.planB) = r.plan ∧
    (if x.bankB then y.planB else y.planA) = if x.bankB then x.planB else x.planA

/-- The commands that wait are no register of the timetable. -/
theorem TtSet.waiting {r : TtReq} {x y : Timetable} (set : TtSet r x y) (w : List TtWait) : TtSet r x { y with waiters := w } :=
  ⟨set.inComp, set.planEn, set.refEn, set.outEn, set.cycleLoad, set.loadArm, set.switched, set.atOnce, set.plan⟩

/-- The state once the reference is switched on or off, when the request selects it. -/
def refSet (s : State) (r : TtReq) : State :=
  if r.on 5 then setRefEn (updTt s fun t => { t with cntEstLock := r.cntEstLock }) r.refEn else s

/-- Switching the reference changes REF_EN, CNT_EST_LOCK and the lock state. -/
theorem refSet_tt (s : State) (r : TtReq) : let y := (refSet s r).tt
    y = { s.tt with refEn := if r.on 5 then r.refEn else s.tt.refEn, cntEstLock := y.cntEstLock, lock := y.lock, ttFree := y.ttFree,
                    ttHoldover := y.ttHoldover, slewing := y.slewing, lastEdge := y.lastEdge, runPeriods := y.runPeriods,
                    missed := y.missed } := by
  unfold refSet
  split
  · cases r.refEn
    · simp only [setRefEn_false_tt]
      rfl
    · rfl
  · rfl

/-- The timetable once its registers have taken a request (R201). -/
def regsSet (r : TtReq) (t : Timetable) : Timetable :=
  if r.on 0 then { t with nomCycle := BitVec.ofNat 32 r.nom, slotsLog2 := BitVec.ofNat 5 r.k, switch := some r.toSwitch }
  else
    { t with window := if r.on 2 then BitVec.ofNat 16 r.window else t.window,
             outWidth := if r.on 4 then BitVec.ofNat 12 r.outWidth else t.outWidth,
             possLead := if r.on 8 then BitVec.ofNat 32 r.possLead else t.possLead }

/-- The timetable once a load is armed, when the request selects one (R40). -/
def loadSet (r : TtReq) (t : Timetable) : Timetable :=
  if r.on 1 then { t with cycleLoad := BitVec.ofNat 44 r.cycleLoad, loadArm := true } else t

/-- The timetable before a plan is written, when the request selects one. -/
def planless (s : State) (r : TtReq) : Timetable := loadSet r (regsSet r (refSet s r).tt)

theorem ttApply_tt (s : State) (r : TtReq) : (ttApply s r).tt =
    let t := if r.on 6 then writePlan r (planless s r) else planless s r
    { t with inComp := if r.on 3 then BitVec.ofNat 10 r.inComp else t.inComp,
             outEn := if r.on 4 then r.outEn else t.outEn, planEn := if r.on 7 then r.planEn else t.planEn } := rfl

/-- A plan goes to the bank that is not in use, and its commit is pending. -/
theorem writePlan_banks (r : TtReq) (t : Timetable) : (writePlan r t).commitPend = true ∧
    (if t.bankB then (writePlan r t).planA else (writePlan r t).planB) = r.plan ∧
    (if t.bankB then (writePlan r t).planB else (writePlan r t).planA) = if t.bankB then t.planB else t.planA := by
  cases bank : t.bankB <;> simp [writePlan, bank]

/-- A plan written leaves what is no part of a plan. -/
theorem writePlan_keeps (r : TtReq) (t : Timetable) : let y := writePlan r t
    y = { t with epochNext := y.epochNext, commitPend := y.commitPend, planA := y.planA, periodA := y.periodA, planB := y.planB,
                 periodB := y.periodB } := by
  cases bank : t.bankB <;> simp [writePlan, bank]

/-- Before a plan is written the banks are as they were. -/
theorem planless_banks (s : State) (r : TtReq) : (planless s r).bankB = s.tt.bankB ∧ (planless s r).planA = s.tt.planA ∧
    (planless s r).planB = s.tt.planB := by
  unfold planless loadSet regsSet
  rw [refSet_tt]
  refine ⟨?_, ?_, ?_⟩ <;> split <;> split <;> rfl

/-- Before a plan is written the other selected registers have their values. -/
theorem planless_regs (s : State) (r : TtReq) :
    (planless s r).inComp = s.tt.inComp ∧ (planless s r).planEn = s.tt.planEn ∧ (planless s r).outEn = s.tt.outEn ∧
    (planless s r).refEn = (if r.on 5 then r.refEn else s.tt.refEn) ∧
    (planless s r).cycleLoad = (if r.on 1 then BitVec.ofNat 44 r.cycleLoad else s.tt.cycleLoad) := by
  unfold planless loadSet regsSet
  rw [refSet_tt]
  refine ⟨?_, ?_, ?_, ?_, ?_⟩ <;> split <;> split <;> rfl

theorem planless_loadArm {s : State} {r : TtReq} (load : r.on 1 = true) : (planless s r).loadArm = true := by
  rw [planless, loadSet, if_pos load]

theorem planless_switched {s : State} {r : TtReq} (switch : r.on 0 = true) : let t := planless s r
    t.nomCycle = BitVec.ofNat 32 r.nom ∧ t.slotsLog2 = BitVec.ofNat 5 r.k ∧ t.switch.isSome = true ∧ t.window = s.tt.window ∧
      t.possLead = s.tt.possLead := by
  unfold planless loadSet regsSet
  rw [refSet_tt, if_pos switch]
  split <;> exact ⟨rfl, rfl, rfl, rfl, rfl⟩

theorem planless_atOnce {s : State} {r : TtReq} (stays : r.on 0 = false) : let t := planless s r
    t.window = (if r.on 2 then BitVec.ofNat 16 r.window else s.tt.window) ∧
      t.possLead = if r.on 8 then BitVec.ofNat 32 r.possLead else s.tt.possLead := by
  unfold planless loadSet regsSet
  rw [refSet_tt, if_neg (ne_true_of_eq_false stays)]
  split <;> exact ⟨rfl, rfl⟩

/-- A request sets no clock. -/
theorem ttApply_now (s : State) (r : TtReq) : now (ttApply s r) = now s := by
  have clock : (planless s r).cycle = s.tt.cycle ∧ (planless s r).slot = s.tt.slot := by
    unfold planless loadSet regsSet
    rw [refSet_tt]
    refine ⟨?_, ?_⟩ <;> split <;> split <;> rfl
  have kept : (ttApply s r).tt.cycle = (planless s r).cycle ∧ (ttApply s r).tt.slot = (planless s r).slot := by
    rw [ttApply_tt]
    split
    · rw [writePlan_keeps]
      exact ⟨rfl, rfl⟩
    · exact ⟨rfl, rfl⟩
  rw [now, kept.1, kept.2, clock.1, clock.2, now]

theorem ttApply_sets (s : State) (r : TtReq) : TtSet r s.tt (ttApply s r).tt := by
  obtain ⟨inComp, planEn, outEn, refEn, cycleLoad⟩ := planless_regs s r
  obtain ⟨bank, planA, planB⟩ := planless_banks s r
  rw [ttApply_tt]
  by_cases plan : r.on 6 = true
  · obtain ⟨pend, written, kept⟩ := writePlan_banks r (planless s r)
    rw [bank] at written kept
    rw [if_pos plan, writePlan_keeps]
    exact ⟨by rw [← inComp], by rw [← planEn], refEn, by rw [← outEn], cycleLoad, planless_loadArm, planless_switched, planless_atOnce,
      fun _ => ⟨pend, written, by rw [← planA, ← planB]; exact kept⟩⟩
  · rw [if_neg plan]
    exact ⟨by rw [← inComp], by rw [← planEn], refEn, by rw [← outEn], cycleLoad, planless_loadArm, planless_switched, planless_atOnce,
      fun on => absurd on plan⟩

/-! The command -/

/-- The checks of R201. -/
def ttTakes (s : State) (a : AdminCmd) : Prop :=
  let r := ttReq a.entry a.data
  eLba a.entry < 2 ^ 44 ∧ (r.on 6 = true → adminLen a = 16 + 8 * r.count) ∧ r.ok s = true

section
variable {s : State} {a : AdminCmd} (ready : AdminReady a 0x4B (ttForm a.entry) s)
include ready

theorem exec_setTimetable : ∃ b, Starts a b ∧ (¬ttTakes s a → exec (.setTimetable a) s = .next (adminBad (adminTake s a.port) b)) ∧
    (ttTakes s a → exec (.setTimetable a) s = .next (
      let r := ttReq a.entry a.data
      let t := ttApply (adminTake s a.port) r
      if r.waits then
        updTt t fun x => { x with waiters := x.waiters ++ [{ cmd := b, switch := r.on 0, load := r.on 1, swap := r.on 6 }] }
      else adminOk t b)) := by
  obtain ⟨b, starts, run⟩ := ready.run
  have refuses : (eLba a.entry / 2 ^ 44 != 0 || ((ttReq a.entry a.data).on 6 && adminLen a != 16 + 8 * (ttReq a.entry a.data).count) ||
      !(ttReq a.entry a.data).ok (adminTake s a.port)) = true ↔ ¬ttTakes s a := by
    have same : (ttReq a.entry a.data).ok (adminTake s a.port) = (ttReq a.entry a.data).ok s := rfl
    simp only [same, ttTakes, Bool.or_eq_true, Bool.and_eq_true, bne_iff_ne, Bool.not_eq_true']
    grind
  refine ⟨b, starts, fun bad => (congrArg _ (run _)).trans ?_, fun takes => (congrArg _ (run _)).trans ?_⟩ <;>
    simp only [starts.entry, starts.data, starts.len]
  · rw [if_pos (refuses.2 bad)]
  · rw [if_neg fun bad => refuses.1 bad takes]

theorem setTimetable_bad (bad : ¬ttTakes s a) : Runs (.setTimetable a) s fun t => AdminEnds 3 a s t ∧ t.tt = s.tt := by
  obtain ⟨b, starts, run, -⟩ := exec_setTimetable ready
  exact ((adminRowOf_row rfl).bad ready starts (run bad)).imp fun t ⟨ends, _, kept⟩ => ⟨ends, kept .tt (by decide)⟩

theorem setTimetable_sets (takes : ttTakes s a) : let r := ttReq a.entry a.data
    Runs (.setTimetable a) s fun t => (r.waits = false → AdminEnds 0 a s t) ∧
      (r.waits = true → AdminWaits a (t.tt.waiters.map TtWait.cmd) s t) ∧ TtSet r s.tt t.tt := by
  intro r
  obtain ⟨b, starts, -, run⟩ := exec_setTimetable ready
  obtain ⟨-, -, -, -, -, port, busy, -⟩ := ready
  have frame := ttApply_frame (adminTake s a.port) r
  have set : TtSet r s.tt (ttApply (adminTake s a.port) r).tt := ttApply_sets (adminTake s a.port) r
  refine .of_exec (run takes) (execSetTimetable_frame a s) ?_
  dsimp only
  split
  next waits =>
    refine ⟨fun none => absurd waits (ne_true_of_eq_false none), fun _ => ⟨frame .mbx (by decide), frame .funcs (by decide), b, ?_,
      starts.entry, starts.port⟩, ?_⟩
    · simp [updTt]
    · exact set.waiting _
  next ends =>
    have served : Served s (ttApply (adminTake s a.port) r) a.port :=
      (Served.take busy).of_kept (frame .mbx (by decide)) (ttApply_now _ r) (.of_funcs (frame .funcs (by decide)))
    refine ⟨fun _ => served.ends starts port .success false, fun waits => absurd waits ends, ?_⟩
    rw [adminOk_frame _ b .tt (by decide)]
    exact set

end

end Sys2Proof.Machine
end

section
/-! SET_WINDOW (R199, R420, R424): the shadow set, and the commit that the command waits for. -/

namespace Sys2Proof.Machine

/-! A window of a function -/

/-- A function has a window. -/
def WinIs (f w : Nat) (y : Window) (t : State) : Prop := ∃ z, fnOf t f = some z ∧ winOf z w = y

theorem WinIs.updWin {f w : Nat} {y : Window} {s : State} (h : WinIs f w y s) (g : Window → Window) :
    WinIs f w (g y) (updWin s f w g) := by
  obtain ⟨z, here, rfl⟩ := h
  refine ⟨_, fnOf_updFunc_same here (fnOf_eq_some.1 here).2, ?_⟩
  simp only [winOf, Tab.getD, Tab.find_put_same, Option.getD_some]

theorem WinIs.of_funcs {f w : Nat} {y : Window} {s t : State} (h : WinIs f w y s) (same : t.funcs = s.funcs) : WinIs f w y t := by
  obtain ⟨z, here, win⟩ := h
  exact ⟨z, (fnOf_congr same f).trans here, win⟩

theorem WinIs.done {f w : Nat} {y : Window} {s : State} {a b : AdminCmd} (h : WinIs f w y s) (starts : Starts a b) (port : a.port < 8)
    (st : Status) (poison : Bool) : WinIs f w y (adminDone s b st poison) := by
  obtain ⟨z, here, win⟩ := h
  obtain ⟨cqs, here', -⟩ := adminDone_fnOf starts port st poison here
  exact ⟨_, here', win⟩

theorem updWin_service (s : State) (f w : Nat) (g : Window → Window) : ServiceKept s (updWin s f w g) := .updFunc _ _ fun _ => rfl

/-! Staging frames -/

/-- The frames that an allocation takes are read off the directory alone. -/
theorem allocFrames_congr (mk : Nat → Memory → Frame) (n : Nat) : ∀ {k : Nat} {s t : State}, t.cache = s.cache → t.freeCtr = s.freeCtr →
    (allocFrames n k mk t).map Prod.fst = (allocFrames n k mk s).map Prod.fst := by
  induction n with
  | zero => exact fun _ _ => rfl
  | succ n ih =>
    intro k s t cache free
    have taken : takeFrame t = takeFrame s := by simp only [takeFrame, cache]
    unfold allocFrames allocFrame
    rw [taken]
    cases takeFrame s with
    | none => rfl
    | some fr =>
      let after (u : State) : State :=
        { u with cache := { u.cache with frames := u.cache.frames.put fr (mk k (Memory.free u.freeCtr)) }, freeCtr := u.freeCtr + 1 }
      have rest := ih (k := k + 1) (s := after s) (t := after t) (by simp only [after, cache, free]) (by simp only [after, free])
      have step (o : Option (List Nat × State)) : Option.map Prod.fst (match o with
          | none => none
          | some (l, u) => some (fr :: l, u)) = (o.map Prod.fst).map (fr :: ·) := by
        cases o <;> rfl
      exact (step _).trans ((congrArg (Option.map (fr :: ·)) rest).trans (step _).symm)

theorem winFrames_congr {s t : State} (n : Nat) (cache : t.cache = s.cache) (free : t.freeCtr = s.freeCtr) :
    (winFrames n t).map Prod.fst = (winFrames n s).map Prod.fst := by
  have avail : framesAvail t = framesAvail s := by simp only [framesAvail, cache]
  unfold winFrames
  rw [avail]
  split
  · exact allocFrames_congr _ n cache free
  · rfl

/-! A commit with one command waiting for it -/

section
variable {s v : State} {a b : AdminCmd} {f w : Nat} {x : Window} (starts : Starts a b) (port : a.port < 8) (served : Served s v a.port)
  (win : WinIs f w x v) (waits : x.commitWait = [b])
include starts port served

/-- Frames given back and their waiters woken change nothing that the completion rests on. -/
theorem commitDone_ends {t : State} {y : Window} {frs : List Nat} (kept : ServiceKept v t) (mbx : t.mbx = v.mbx) (time : now t = now v)
    (win : WinIs f w y t) : AdminEnds 0 a s (commitDone (wakeFrameWaiters (unpinAll t frs)) [b]) ∧
      WinIs f w y (commitDone (wakeFrameWaiters (unpinAll t frs)) [b]) := by
  have woken := wakeFrameWaiters_frame (unpinAll t frs)
  have given := unpinAll_frame t frs
  have funcs := (woken .funcs (by decide)).trans (given .funcs (by decide))
  have clock : now (wakeFrameWaiters (unpinAll t frs)) = now t := by
    rw [now, (woken .tt (by decide)).trans (given .tt (by decide)), now]
  have left := served.of_kept (((woken .mbx (by decide)).trans (given .mbx (by decide))).trans mbx) (clock.trans time)
    (kept.trans (.of_funcs funcs))
  exact ⟨left.ends starts port .success false, (win.of_funcs funcs).done starts port .success false⟩

include win waits

theorem winCommit_off_ends (off : x.shEn = false) : AdminEnds 0 a s (winCommit v f w) ∧
    WinIs f w { inForce x with pages := [] } (winCommit v f w) := by
  obtain ⟨z, here, rfl⟩ := id win
  rw [winCommit_disabled here off, waits]
  exact commitDone_ends starts port served (updWin_service _ _ _ _) rfl rfl (win.updWin _)

variable (on : x.shEn = true)
include on

theorem winCommit_same_ends (en : x.en = true) (size : x.shSize = x.size) : AdminEnds 0 a s (winCommit v f w) ∧
    WinIs f w (inForce x) (winCommit v f w) := by
  obtain ⟨z, here, rfl⟩ := id win
  rw [winCommit_kept here on en size, waits]
  have left : Served s (updWin v f w inForce) a.port := served.of_kept rfl rfl (updWin_service v f w inForce)
  exact ⟨left.ends starts port .success false,
    (win.updWin inForce).done starts port .success false⟩

theorem winCommit_framed_ends (anew : x.en = false ∨ x.shSize ≠ x.size) {frs : List Nat} {u : State}
    (some : winFrames (x.shSize / 4096) v = some (frs, u)) : AdminEnds 0 a s (winCommit v f w) ∧
      WinIs f w { inForce x with pages := (List.range frs.length).zip frs } (winCommit v f w) := by
  obtain ⟨z, here, rfl⟩ := id win
  have taken : OnlyChanges [.cache, .freeCtr] v u := winFrames_frame _ v _ some
  have funcs : u.funcs = v.funcs := taken .funcs (by decide)
  rw [winCommit_framed here on anew some, waits]
  refine commitDone_ends starts port served ((ServiceKept.of_funcs funcs).trans (updWin_service _ _ _ _)) (taken .mbx (by decide)) ?_
    ((win.of_funcs funcs).updWin _)
  rw [now, now, show (updWin u f w _).tt = v.tt from taken .tt (by decide)]

end

/-! The command -/

/-- The state in which a SET_WINDOW has written the shadow set. -/
def shadowed (s : State) (a : AdminCmd) : State := updWin (adminTake s a.port) (eBits a.entry 40 0 9) (eBits a.entry 42 0 4) (shadowSet a.entry)

/-- The state in which a SET_WINDOW waits at its window for the commit. -/
def commitAsked (s : State) (a b : AdminCmd) : State :=
  updWin (shadowed s a) (eBits a.entry 40 0 9) (eBits a.entry 42 0 4) fun x => { x with commitWait := x.commitWait ++ [b] }

section
variable {s : State} {a : AdminCmd} (ready : AdminReady a 0x4C swForm s)
include ready

theorem exec_setWindow : ∃ b, Starts a b ∧
    (windowOk s a.port a.entry = false → exec (.setWindow a) s = .next (adminBad (adminTake s a.port) b)) ∧
    (windowOk s a.port a.entry = true → exec (.setWindow a) s = .next (
      if eBits a.entry 43 0 1 = 1 then winCommit (commitAsked s a b) (eBits a.entry 40 0 9) (eBits a.entry 42 0 4)
      else adminOk (shadowed s a) b)) := by
  obtain ⟨b, starts, run⟩ := ready.run
  have same : windowOk (adminTake s a.port) a.port a.entry = windowOk s a.port a.entry := rfl
  refine ⟨b, starts, fun bad => (congrArg _ (run _)).trans ?_, fun ok => (congrArg _ (run _)).trans ?_⟩ <;>
    simp only [starts.entry, starts.port, same]
  · rw [bad]
    rfl
  · rw [ok]
    rfl

theorem setWindow_bad (bad : windowOk s a.port a.entry = false) : Runs (.setWindow a) s (AdminEnds 3 a s) := by
  obtain ⟨b, starts, run, -⟩ := exec_setWindow ready
  exact ((adminRowOf_row rfl).bad ready starts (run bad)).imp fun t ⟨ends, _⟩ => ends

section
variable {fn : Func} (ok : windowOk s a.port a.entry = true) (here : fnOf s (eBits a.entry 40 0 9) = some fn)
include ok here

omit ready ok in
theorem shadowed_win : WinIs (eBits a.entry 40 0 9) (eBits a.entry 42 0 4) (shadowSet a.entry (winOf fn (eBits a.entry 42 0 4)))
    (shadowed s a) :=
  WinIs.updWin (s := adminTake s a.port) ⟨fn, here, rfl⟩ _

theorem setWindow_shadow (plain : eBits a.entry 43 0 1 = 0) : Runs (.setWindow a) s fun t => AdminEnds 0 a s t ∧
    WinIs (eBits a.entry 40 0 9) (eBits a.entry 42 0 4) (shadowSet a.entry (winOf fn (eBits a.entry 42 0 4))) t := by
  obtain ⟨b, starts, -, run⟩ := exec_setWindow ready
  obtain ⟨-, -, -, -, -, port, busy, -⟩ := ready
  have ran := run ok
  rw [if_neg (by omega)] at ran
  have served : Served s (shadowed s a) a.port := (Served.take busy).of_kept rfl rfl (updWin_service _ _ _ _)
  exact .of_exec ran (execSetWindow_frame a s) ⟨served.ends starts port .success false, (shadowed_win here).done starts port .success false⟩

theorem setWindow_commit (commit : eBits a.entry 43 0 1 = 1) :
    let x := shadowSet a.entry (winOf fn (eBits a.entry 42 0 4))
    let winIs : Window → State → Prop := WinIs (eBits a.entry 40 0 9) (eBits a.entry 42 0 4)
    x.commitWait = [] →
      (x.shEn = false → Runs (.setWindow a) s fun t => AdminEnds 0 a s t ∧ winIs { inForce x with pages := [] } t) ∧
      (x.shEn = true → x.en = true → x.shSize = x.size → Runs (.setWindow a) s fun t => AdminEnds 0 a s t ∧ winIs (inForce x) t) ∧
      (x.shEn = true → x.en = false ∨ x.shSize ≠ x.size →
        (∀ frs v, winFrames (x.shSize / 4096) s = some (frs, v) → Runs (.setWindow a) s fun t => AdminEnds 0 a s t ∧
          winIs { inForce x with pages := (List.range frs.length).zip frs } t) ∧
        (winFrames (x.shSize / 4096) s = none → Runs (.setWindow a) s fun t => t.cache = s.cache ∧
          t.mbx = (adminTake s a.port).mbx ∧ ∃ b, b.entry = a.entry ∧ winIs { x with commitPend := true, commitWait := [b] } t)) := by
  intro x winIs idle
  obtain ⟨b, starts, -, run⟩ := exec_setWindow ready
  obtain ⟨-, -, -, -, -, port, busy, -⟩ := ready
  have ran := run ok
  rw [if_pos commit] at ran
  have served : Served s (commitAsked s a b) a.port :=
    (Served.take busy).of_kept rfl rfl ((updWin_service _ _ _ _).trans (updWin_service _ _ _ _))
  let y := { x with commitWait := [b] }
  have win : winIs y (commitAsked s a b) := by
    have asked := (shadowed_win here).updWin fun y => { y with commitWait := y.commitWait ++ [b] }
    rw [idle] at asked
    exact asked
  have frames := winFrames_congr (s := s) (t := commitAsked s a b) (x.shSize / 4096) rfl rfl
  have runs {post : State → Prop} (h : post (winCommit (commitAsked s a b) (eBits a.entry 40 0 9) (eBits a.entry 42 0 4))) :
      Runs (.setWindow a) s post := .of_exec ran (execSetWindow_frame a s) h
  refine ⟨fun off => runs (winCommit_off_ends (x := y) starts port served win rfl off),
    fun on en size => runs (winCommit_same_ends (x := y) starts port served win rfl on en size),
    fun on anew => ⟨fun frs v some => ?_, fun none => runs ?_⟩⟩
  · rw [some] at frames
    obtain ⟨⟨l, u⟩, taken, rfl⟩ := Option.map_eq_some_iff.1 frames
    exact runs (winCommit_framed_ends (x := y) starts port served win rfl on anew taken)
  · rw [none] at frames
    obtain ⟨z, here', same⟩ := id win
    have short := winCommit_short here' (w := eBits a.entry 42 0 4) (by rw [same]; exact on) (by rw [same]; exact anew)
      (by rw [same]; exact Option.map_eq_none_iff.1 frames)
    rw [short]
    exact ⟨rfl, rfl, b, starts.entry, win.updWin _⟩

end
end

end Sys2Proof.Machine
end

section
/-! The settings that admin commands change, command by command. -/

namespace Sys2Proof.Machine

theorem fnOf_of_windowOk {s : State} {p : Nat} {e : BitVec 512} (ok : windowOk s p e = true) : ∃ fn, fnOf s (eBits e 40 0 9) = some fn := by
  simp only [windowOk, Bool.and_eq_true, decide_eq_true_eq, beq_iff_eq] at ok
  obtain ⟨⟨⟨⟨⟨⟨-, here⟩, -⟩, -⟩, -⟩, -⟩, -⟩ := ok
  exact Option.isSome_iff_exists.1 here

/-- Settles O53: the checks that all share decide first, then the checks of each command's own row. -/
theorem adminSettings : Obligations.AdminSettings := by
  unfold Obligations.AdminSettings
  intro s a
  refine ⟨fun c fm row first port busy => admin_shared row first port busy,
    fun ready => ⟨createQueue_bad ready, createQueue_makes ready⟩,
    fun ready => ⟨setPower_bad ready, fun low dwell alone => ⟨setPower_atOnce ready low dwell alone, setPower_waits ready low dwell alone⟩⟩,
    fun ready => ⟨getLog_bad ready, getLog_page ready⟩,
    fun ready => ⟨setTokens_foreign ready, fun kind own => setTokens_express ready kind (by simpa [kind] using own),
      fun kind own => setTokens_shared ready kind (by simpa [kind] using own)⟩,
    fun ready => ⟨setTimetable_bad ready, fun takes => (setTimetable_sets ready takes).imp fun t ⟨ends, waits, set⟩ =>
      ⟨ends, waits, set.inComp, set.planEn, set.refEn, set.outEn, set.cycleLoad, set.loadArm, set.switched, set.atOnce, set.plan⟩⟩,
    fun ready => ⟨setWindow_bad ready, fun ok => ?_⟩⟩
  obtain ⟨fn, here⟩ := fnOf_of_windowOk ok
  exact ⟨fn, here, ⟨rfl, rfl, rfl⟩, setWindow_shadow ready ok here, setWindow_commit ready ok here⟩

end Sys2Proof.Machine
end

section
/-! Power and reset (R90, R460 to R466, R469, R502): the return to Off, the straps, the rails and VAUX. -/

namespace Sys2Proof.Machine

/-! The return to Off -/

/-- From s the part has returned to Off: every switched unit is empty, and the non-volatile stores are kept (R463, R466). -/
def ReturnedOff (s t : State) : Prop :=
  t.pwr.devState = .off ∧ t.ports = [] ∧ t.funcs = [] ∧ t.ctxs = [] ∧ t.cache = {} ∧ t.journal = {} ∧ t.groups = [] ∧
  t.mports = [] ∧ t.vlt = {} ∧ t.adm = {} ∧ t.tt = {} ∧ t.pwr.tags = s.pwr.tags ∧ t.pwr.otp = s.pwr.otp ∧
  t.pwr.slotA = s.pwr.slotA ∧ t.pwr.slotB = s.pwr.slotB

theorem returnedOff_coldState {s : State} (u : State) {p : Power} (off : p.devState = .off) (tags : p.tags = s.pwr.tags)
    (otp : p.otp = s.pwr.otp) (slotA : p.slotA = s.pwr.slotA) (slotB : p.slotB = s.pwr.slotB) : ReturnedOff s (coldState u p) :=
  ⟨off, rfl, rfl, rfl, rfl, rfl, rfl, rfl, rfl, rfl, rfl, tags, otp, slotA, slotB⟩

theorem outputsOff_pwr (s : State) : (outputsOff s).pwr = s.pwr := outputsOff_frame s .pwr (by decide)

/-- The always-on domain after a return to Off, with a value of PWR_RST_CAUSE. -/
def offPower (p : Power) (cause : BitVec 32) : Power := { keptPower p with rstCause := cause }

theorem toOff_eq (s : State) (cause : Nat) : toOff s cause =
    coldState (outputsOff s) (offPower s.pwr (BitVec.ofNat 32 (cause + s.pwr.heldCode.toNat * 2 ^ 8))) := by
  simp only [toOff, outputsOff_pwr, offPower]

/-- PWR_RST_CAUSE after a DEV_RST_N that is taken: it records a return from another state (R466, R487). -/
def resetCause (p : Power) : BitVec 32 :=
  if p.devState = .off then p.rstCause else BitVec.ofNat 32 (2 + p.heldCode.toNat * 2 ^ 8)

theorem resetDevice_eq (s : State) : resetDevice s = coldState (outputsOff s) (offPower s.pwr (resetCause s.pwr)) := by
  unfold resetDevice resetCause
  by_cases off : s.pwr.devState = .off
  · rw [if_pos (beq_iff_eq.2 off), if_pos off]
    rfl
  · rw [if_neg (mt beq_iff_eq.1 off), if_neg off, toOff_eq]

/-! DEV_RST_N -/

/-- A pulse on DEV_RST_N that is taken. -/
def resetTaken (s : State) : State := updPwr (resetDevice { s with freeCtr := s.freeCtr + 1 }) fun p => { p with devRstHigh := false }

theorem resetTaken_off (s : State) : ReturnedOff s (resetTaken s) ∧ (resetTaken s).pwr.devRstHigh = false ∧
    (resetTaken s).pwr.rstCause = resetCause s.pwr := by
  unfold resetTaken
  rw [resetDevice_eq]
  exact ⟨returnedOff_coldState _ rfl rfl rfl rfl rfl, rfl, rfl⟩

theorem Runs.devRstAssert {s : State} {ticks : Nat} {post : State → Prop}
    (h : post (if pulseTaken s ticks then resetTaken s else { s with freeCtr := s.freeCtr + 1 })) : Runs (.devRstAssert ticks) s post :=
  Does.of_exec rfl (execDevRstAssert_frame ticks s) h

theorem pulseTaken_long {s : State} {ticks : Nat} (long : 250 ≤ ticks) : pulseTaken s ticks = true := by
  rw [pulseTaken, if_neg (by omega), if_pos long]

theorem devRstAssert_long {s : State} {ticks : Nat} (long : 250 ≤ ticks) : Runs (.devRstAssert ticks) s fun t => ReturnedOff s t ∧
    t.pwr.devRstHigh = false ∧
    (s.pwr.devState ≠ .off → t.pwr.rstCause = BitVec.ofNat 32 (2 + s.pwr.heldCode.toNat * 2 ^ 8)) := by
  refine Runs.devRstAssert ?_
  rw [if_pos (pulseTaken_long long)]
  obtain ⟨off, low, cause⟩ := resetTaken_off s
  exact ⟨off, low, fun on => cause.trans (if_neg on)⟩

theorem devRstAssert_glitch {s : State} {ticks : Nat} (short : ticks ≤ 25) : Does (.devRstAssert ticks) [.freeCtr] s fun _ => True := by
  have ignored : exec (.devRstAssert ticks) s = .next { s with freeCtr := s.freeCtr + 1 } := by
    simp [exec, execDevRstAssert, pulseTaken, short]
  exact ⟨_, ignored, (OnlyChanges.refl _ s).of fun p out => by cases p <;> first | exact absurd (by decide) out | rfl, trivial⟩

theorem devRstAssert_any (s : State) (ticks : Nat) : Runs (.devRstAssert ticks) s fun t =>
    (ReturnedOff s t ∧ t.pwr.devRstHigh = false) ∨ t = { s with freeCtr := s.freeCtr + 1 } := by
  refine Runs.devRstAssert ?_
  split
  · obtain ⟨off, low, -⟩ := resetTaken_off s
    exact .inl ⟨off, low⟩
  · exact .inr rfl

/-! The straps -/

/-- Widths of the ports of 16 host lanes by their strap (R90). -/
def strapWidths (v : BitVec 2) : List Nat :=
  if v = 0 then [16] else if v = 1 then [8, 8] else if v = 2 then [4, 4, 4, 4] else []

/-- The host ports and their PFs stand as two straps give them, and no other port and PF does (R90). -/
def LaidOut (a b : BitVec 2) (t : State) : Prop :=
  ∀ g < 2, ∀ k < 4,
    let w := (strapWidths (if g = 0 then a else b))[k]?
    t.ports.find (4 * g + k) = w.map (fun w => { widthMax := w }) ∧ t.funcs.find (64 * (4 * g + k)) = w.map fun _ => { exists_ := true }

/-- Ports and functions that a list of ports with widths makes. -/
def portsMade (l : List (Nat × Nat)) : Tab HostPort × Tab Func :=
  l.foldl (fun t p => (t.1.put p.1 { widthMax := p.2 }, t.2.put (64 * p.1) { exists_ := true })) ([], [])

theorem makePorts_made {s : State} (ports : s.ports = []) (funcs : s.funcs = []) :
    ((makePorts s).ports, (makePorts s).funcs) = portsMade (strapPorts 0 s.pwr.strapG0 ++ strapPorts 1 s.pwr.strapG1) := by
  unfold makePorts portsMade
  rw [← ports, ← funcs]
  exact (List.foldl_hom (fun t : State => (t.ports, t.funcs)) fun _ _ => rfl).symm

theorem portsMade_straps : ∀ a b : BitVec 2, ∀ g < 2, ∀ k < 4,
    let w := (strapWidths (if g = 0 then a else b))[k]?
    let t := portsMade (strapPorts 0 a ++ strapPorts 1 b)
    t.1.find (4 * g + k) = w.map (fun w => { widthMax := w }) ∧ t.2.find (64 * (4 * g + k)) = w.map fun _ => { exists_ := true } := by
  decide +kernel

theorem riseReset_laidOut (s : State) : LaidOut s.pwr.strapG0 s.pwr.strapG1 (riseReset s) := by
  have made := makePorts_made (s := { s with ports := [], funcs := [] }) rfl rfl
  intro g low k few
  obtain ⟨port, func⟩ := portsMade_straps s.pwr.strapG0 s.pwr.strapG1 g low k few
  exact ⟨(congrArg (fun x => x.1.find (4 * g + k)) made).trans port, (congrArg (fun x => x.2.find (64 * (4 * g + k))) made).trans func⟩

theorem makePorts_pwr (s : State) : (makePorts s).pwr = s.pwr := makePorts_frame s .pwr (by decide)

theorem riseReset_pwr (s : State) : (riseReset s).pwr = { s.pwr with seqDir := some true, supplyLock := false } := by
  show { (makePorts { s with ports := [], funcs := [] }).pwr with seqDir := some true, supplyLock := false } = _
  rw [makePorts_pwr]

/-! DEV_RST_N rises -/

/-- What the rise of DEV_RST_N records: the straps, a free value for one that changes in its window, and the pins (R469, R497). -/
def risenPower (s : State) (g0 g1 : Option (BitVec 2)) (m : Option Bool) (pins : RstPins) : Power :=
  let w := (drawFree s).1
  { s.pwr with devRstHigh := true, strapG0 := g0.getD (w.extractLsb' 0 2), strapG1 := g1.getD (w.extractLsb' 2 2),
               mgmtI3c := m.getD (w.getLsbD 4), vltRelLow := !pins.relN, testEn := pins.testEn }

theorem exec_devRstDeassert_ignored {s : State} (g0 g1 : Option (BitVec 2)) (m : Option Bool) (pins : RstPins)
    (h : s.pwr.devRstHigh = true ∨ s.pwr.devState ≠ .off) : exec (.devRstDeassert g0 g1 m pins) s = .next s := by
  simp only [exec, execDevRstDeassert]
  rw [if_pos (by simpa using h)]

section
variable {s : State} {g0 g1 : Option (BitVec 2)} {m : Option Bool} {pins : RstPins} (low : s.pwr.devRstHigh = false) (off : s.pwr.devState = .off)
include low off

theorem exec_devRstDeassert : exec (.devRstDeassert g0 g1 m pins) s = .next (
    let u := { s with freeCtr := s.freeCtr + 1, pwr := risenPower s g0 g1 m pins }
    if s.pwr.vauxOk && !pins.testEn then riseReset u else u) := by
  simp only [exec, execDevRstDeassert]
  rw [if_neg (by simp [low, off])]
  rfl

theorem devRstDeassert_starts (vaux : s.pwr.vauxOk = true) (test : pins.testEn = false) : Runs (.devRstDeassert g0 g1 m pins) s fun t =>
    let p := risenPower s g0 g1 m pins
    LaidOut p.strapG0 p.strapG1 t ∧ t.pwr = { p with seqDir := some true, supplyLock := false } := by
  refine Does.of_exec (exec_devRstDeassert low off) (execDevRstDeassert_frame g0 g1 m pins s) ?_
  simp only [vaux, test, Bool.not_false, Bool.and_self, if_true]
  exact ⟨riseReset_laidOut _, riseReset_pwr _⟩

theorem devRstDeassert_waits (held : s.pwr.vauxOk = false ∨ pins.testEn = true) :
    Does (.devRstDeassert g0 g1 m pins) [.pwr, .freeCtr] s fun t => t.pwr = risenPower s g0 g1 m pins := by
  have stays : (s.pwr.vauxOk && !pins.testEn) = false := by
    rcases held with h | h <;> simp [h]
  refine ⟨_, exec_devRstDeassert low off, ?_, ?_⟩ <;> simp only [stays, Bool.false_eq_true, if_false]
  exact (OnlyChanges.refl _ s).of fun p out => by cases p <;> first | exact absurd (by decide) out | rfl

end

/-! The rail sequence -/

theorem railBit_getLsbD {i k : Nat} (rail : i < 9) : (railBit i).getLsbD k = (k == i) := by
  rw [railBit, BitVec.getLsbD_ofNat, Nat.testBit_two_pow]
  by_cases same : i = k
  · subst same
    simp [rail]
  · simp [same, Ne.symm same]

theorem nextOn_eq {p : Power} {i : Nat} (rail : i < 9) (off : p.railEn.getLsbD i = false) (below : ∀ k < i, p.railEn.getLsbD k = true) :
    nextOn p = some i := by
  rw [nextOn, List.find?_range_eq_some]
  exact ⟨by simpa using off, List.mem_range.2 rail, fun k lower => by simpa using below k lower⟩

/-- The last number below n with a property. -/
theorem find?_reverse_range {p : Nat → Bool} {n i : Nat} (inside : i < n) (own : p i = true) (above : ∀ k < n, i < k → p k = false) :
    (List.range n).reverse.find? p = some i := by
  induction n with
  | zero => cases inside
  | succ n ih =>
    rw [List.range_succ, List.reverse_append, List.reverse_singleton, List.singleton_append]
    rcases Nat.lt_or_eq_of_le (Nat.le_of_lt_succ inside) with lower | rfl
    · rw [List.find?_cons_of_neg (by simp [above n (Nat.lt_succ_self n) lower])]
      exact ih lower fun k few => above k (Nat.lt_succ_of_lt few)
    · exact List.find?_cons_of_pos own

theorem nextOff_eq {p : Power} {i : Nat} (rail : i < 9) (on : p.railEn.getLsbD i = true)
    (above : ∀ k < 9, i < k → p.railEn.getLsbD k = false) : nextOff p = some i :=
  find?_reverse_range rail on above

theorem railEnableStep_up {s : State} {i : Nat} (rail : i < 9) (off : s.pwr.railEn.getLsbD i = false)
    (below : ∀ k < i, s.pwr.railEn.getLsbD k = true) (up : s.pwr.seqDir = some true) :
    Does .railEnableStep [.pwr, .out] s fun t => t.out = .rail i true :: s.out ∧ t.pwr.seqDir = some true ∧
      ∀ k < 9, t.pwr.railEn.getLsbD k = (s.pwr.railEn.getLsbD k || k == i) := by
  have step : exec .railEnableStep s = .next (emit (updPwr s fun p =>
      { p with railEn := p.railEn ||| railBit i, railPg := if i = 0 then p.railPg else p.railPg ||| railBit (i - 1) }) (.rail i true)) := by
    simp only [exec, execRailEnableStep, up, nextOn_eq rail off below]
  refine Does.of_exec step (execRailEnableStep_frame s) ⟨rfl, up, fun k _ => ?_⟩
  rw [← railBit_getLsbD rail]
  exact BitVec.getLsbD_or

theorem railEnableStep_down {s : State} {i : Nat} (rail : i < 9) (on : s.pwr.railEn.getLsbD i = true)
    (above : ∀ k < 9, i < k → s.pwr.railEn.getLsbD k = false) (down : s.pwr.seqDir = some false) :
    Does .railEnableStep [.pwr, .out] s fun t => t.out = .rail i false :: s.out ∧
      (∀ k < 9, t.pwr.railEn.getLsbD k = (s.pwr.railEn.getLsbD k && k != i)) ∧
      t.pwr.seqDir = if i = 0 then none else some false := by
  have step : exec .railEnableStep s = .next (emit (updPwr s fun p =>
      { p with railEn := p.railEn &&& ~~~ railBit i, railPg := p.railPg &&& ~~~ railBit i,
               seqDir := if i = 0 then none else p.seqDir }) (.rail i false)) := by
    simp only [exec, execRailEnableStep, down, nextOff_eq rail on above]
  refine Does.of_exec step (execRailEnableStep_frame s) ⟨rfl, fun k few => ?_, ?_⟩
  · show (s.pwr.railEn &&& ~~~ railBit i).getLsbD k = _
    rw [BitVec.getLsbD_and, BitVec.getLsbD_not, railBit_getLsbD rail, decide_eq_true few, Bool.true_and, bne]
  · show (if i = 0 then none else s.pwr.seqDir) = _
    rw [down]

/-- The rail's number in PWR_RST_CAUSE, for every rail. -/
theorem faultRail_bits : ∀ rail < 9, let v := BitVec.ofNat 32 (8 + rail % 16 * 16)
    v.getLsbD 3 = true ∧ (v.extractLsb' 4 4).toNat = rail := by decide

/-- A supply fault of a rail is recorded with the rail's number, whatever stood there (R462, R487). -/
theorem supplyFault_pwr {rail : Nat} (s : State) (number : rail < 9) : let p := (supplyFault s rail).pwr
    p.supplyLock = true ∧ p.seqDir = some false ∧ p.rstCause.getLsbD 3 = true ∧ (p.rstCause.extractLsb' 4 4).toNat = rail := by
  obtain ⟨set, named⟩ := faultRail_bits rail number
  refine ⟨rfl, rfl, ?_, ?_⟩
  · show ((s.pwr.rstCause &&& 0xFF07#32) ||| BitVec.ofNat 32 (8 + rail % 16 * 16)).getLsbD 3 = true
    rw [BitVec.getLsbD_or, set, Bool.or_true]
  · show (((s.pwr.rstCause &&& 0xFF07#32) ||| BitVec.ofNat 32 (8 + rail % 16 * 16)).extractLsb' 4 4).toNat = rail
    rw [BitVec.extractLsb'_or, BitVec.extractLsb'_and, show (0xFF07#32).extractLsb' 4 4 = 0#4 from rfl, BitVec.and_zero, BitVec.zero_or, named]

theorem supplyFaultTimeout_faults {s : State} {rail : Nat} (number : rail < 9) (up : s.pwr.seqDir = some true)
    (on : s.pwr.railEn.getLsbD rail = true) (late : s.pwr.railPg.getLsbD rail = false) :
    Does (.supplyFaultTimeout rail) [.pwr] s fun t => t.pwr.supplyLock = true ∧ t.pwr.seqDir = some false ∧
      t.pwr.rstCause.getLsbD 3 = true ∧ (t.pwr.rstCause.extractLsb' 4 4).toNat = rail := by
  have fault : exec (.supplyFaultTimeout rail) s = .next (supplyFault s rail) := by
    simp only [exec, execSupplyFaultTimeout]
    rw [if_pos (by rw [up, on, late, decide_eq_true number]; rfl)]
  exact Does.of_exec fault (execSupplyFaultTimeout_frame rail s) (supplyFault_pwr s number)

/-! Power-good of every rail -/

theorem ttcDrive_tt (s : State) (high : Bool) : (ttcDrive s high).tt = { s.tt with ttcHigh := high } := by
  unfold ttcDrive
  split
  next same => rw [← same]
  next => rfl

theorem ttcPulse_tt {s : State} (runs : s.tt.running = true) : (ttcPulse s).tt = { s.tt with ttcHigh := s.tt.outEn } := by
  unfold ttcPulse
  cases on : s.tt.outEn <;> simp [ttcDrive_tt, runs, on]

theorem ttcPulse_pwr (s : State) : (ttcPulse s).pwr = s.pwr := ttcPulse_frame s .pwr (by decide)

section
variable {s : State} (up : s.pwr.seqDir = some true) (all : s.pwr.railEn = 0x1FF#9) (off : s.pwr.devState = .off)
include up all off

/-- The part as the last power-good finds it (R462). -/
def railsUp (s : State) : State :=
  let t := after s (20 * slotsOf s.tt.kActive)
  ttcPulse (updTt (updPwr s fun p => { p with seqDir := none, railPg := 0x1FF#9, crsDue := t }) fun t => { t with running := true })

omit up all off in
theorem railsUp_pwr (s : State) : (railsUp s).pwr =
    { s.pwr with seqDir := none, railPg := 0x1FF#9, crsDue := after s (20 * slotsOf s.tt.kActive) } := ttcPulse_pwr _

omit up all off in
theorem railsUp_tt (s : State) : (railsUp s).tt = { s.tt with running := true, ttcHigh := s.tt.outEn } := ttcPulse_tt rfl

theorem exec_powerSequenceComplete : exec .powerSequenceComplete s = .next (setDev (railsUp s) .starting) := by
  simp only [exec, execPowerSequenceComplete]
  rw [if_pos (by simp [up, all, off])]
  rfl

theorem powerSequenceComplete_starts (test : s.pwr.testEn = false) : Does .powerSequenceComplete [.pwr, .tt, .rb, .out] s fun t =>
    t.pwr.devState = .starting ∧ t.pwr.seqDir = none ∧ t.pwr.railPg = 0x1FF#9 ∧
    t.pwr.crsDue = tsAdd s.tt.kActive (now s) (20 * 2 ^ s.tt.kActive) ∧
    t.tt = { s.tt with running := true, ttcHigh := s.tt.outEn } ∧ t.rb.changed = true := by
  refine Does.of_exec (exec_powerSequenceComplete up all off) (execPowerSequenceComplete_frame s) ?_
  rw [setDev, railsUp_pwr, if_neg (by simp [test])]
  simp only [rbChange_pwr, rbChange_tt, rbChange_rb, updPwr_pwr, updPwr_tt, railsUp_pwr, railsUp_tt, true_and, and_true]
  rfl

theorem powerSequenceComplete_tested (test : s.pwr.testEn = true) : Does .powerSequenceComplete [.pwr, .tt, .out] s fun t =>
    t.pwr.devState = .off := by
  have held : setDev (railsUp s) .starting = railsUp s := by
    rw [setDev, railsUp_pwr, if_pos test]
  refine ⟨_, exec_powerSequenceComplete up all off, ?_, ?_⟩ <;> rw [held]
  · exact (ttcPulse_frame _).step ((updTt_frame _ _).step ((updPwr_frame s _).step (OnlyChanges.refl _ s)))
  · exact (congrArg Power.devState (railsUp_pwr s)).trans off

end

/-- The core and HBM rails are rails, and none of those whose loss is a power failure (R463). -/
theorem coreRail : ∀ rail ∈ [1, 2, 6, 7, 8], rail < 9 ∧ (rail = 0 || rail = 3 || rail = 4 || rail = 5) = false := by decide

theorem powerGoodFall_off {s : State} {rail : Nat} (core : rail ∈ [1, 2, 6, 7, 8]) (rests : s.pwr.seqDir = none) (up : s.pwr.devState ≠ .off)
    (on : s.pwr.railEn.getLsbD rail = true) : Runs (.powerGoodFall rail) s fun t => ReturnedOff s t ∧ t.pwr.supplyLock = true ∧
      t.pwr.seqDir = some false ∧ t.pwr.rstCause.getLsbD 3 = true ∧ (t.pwr.rstCause.extractLsb' 4 4).toNat = rail := by
  obtain ⟨number, fault⟩ := coreRail rail core
  have falls : exec (.powerGoodFall rail) s =
      .next (supplyFault (toOff (updPwr s fun p => { p with railPg := p.railPg &&& ~~~ railBit rail }) 0) rail) := by
    simp only [exec, execPowerGoodFall]
    rw [if_neg (by simp [rests, up, on, number]), if_neg (Bool.eq_false_iff.1 fault)]
  refine Does.of_exec falls (execPowerGoodFall_frame rail s) ⟨?_, supplyFault_pwr _ number⟩
  rw [toOff_eq]
  exact returnedOff_coldState _ rfl rfl rfl rfl rfl

/-! VAUX -/

theorem vauxBrownout_off {s : State} {mv : BitVec 12} (low : mv.toNat < 1550) : Runs (.vauxBrownout mv) s fun t => ReturnedOff s t ∧
    t.pwr.railEn = 0 ∧ t.pwr.vauxOk = false ∧ t.pwr.nvInhibit = true ∧
    t.pwr.rstCause = BitVec.ofNat 32 (4 + s.pwr.heldCode.toNat * 2 ^ 8) := by
  refine Does.of_exec (congrArg Host.Outcome.next (if_neg (Nat.not_le.2 low))) (execVauxBrownout_frame mv s) ?_
  rw [toOff_eq]
  exact ⟨returnedOff_coldState _ rfl rfl rfl rfl rfl, rfl, rfl, rfl, rfl⟩

theorem vauxRelease_releases {s : State} {mv : BitVec 12} (low : s.pwr.vauxOk = false) (high : 1600 < mv.toNat) :
    Runs (.vauxRelease mv) s fun t => t.pwr.vauxOk = true ∧ t.pwr.vauxMv = mv ∧ t.pwr.rstCause = s.pwr.rstCause ||| 1#32 ∧
      if s.pwr.devRstHigh = true ∧ s.pwr.testEn = false then
        LaidOut s.pwr.strapG0 s.pwr.strapG1 t ∧ t.pwr.seqDir = some true
      else t.ports = s.ports ∧ t.funcs = s.funcs ∧ t.pwr.seqDir = s.pwr.seqDir := by
  have release : exec (.vauxRelease mv) s = .next (
      let u := updPwr s fun p => { p with vauxOk := true, vauxMv := mv, rstCause := p.rstCause ||| 1#32 }
      if s.pwr.devRstHigh && !s.pwr.testEn then riseReset u else u) := by
    simp only [exec, execVauxRelease]
    rw [if_neg (by simp [low, high])]
    rfl
  refine Does.of_exec release (execVauxRelease_frame mv s) ?_
  by_cases rises : s.pwr.devRstHigh = true ∧ s.pwr.testEn = false
  · rw [if_pos rises, if_pos (by simpa using rises), riseReset_pwr]
    exact ⟨rfl, rfl, rfl, riseReset_laidOut _, rfl⟩
  · rw [if_neg rises, if_neg (by simpa using rises)]
    exact ⟨rfl, rfl, rfl, rfl, rfl, rfl⟩

/-- Settles O30: every return to Off is the cold state over what the always-on domain keeps; the rises lay out the ports by the
straps, and the rails move one at a time. -/
theorem powerAndReset : Obligations.PowerAndReset := by
  unfold Obligations.PowerAndReset
  intro s
  refine ⟨fun _ => devRstAssert_long, fun _ => devRstAssert_glitch, devRstAssert_any s,
    fun g0 g1 m rel te => exec_devRstDeassert_ignored g0 g1 m ⟨rel, te⟩, fun g0 g1 m rel te low off => ?_,
    fun rests => ?_, fun i => railEnableStep_up, fun i => railEnableStep_down, fun rail => supplyFaultTimeout_faults,
    fun up all off => ⟨powerSequenceComplete_starts up all off, powerSequenceComplete_tested up all off⟩,
    fun rail => powerGoodFall_off, fun mv => Does.of_exec rfl (execVauxBelowInhibit_frame mv s) rfl,
    fun mv => Does.of_exec rfl (execVauxInhibitClear_frame mv s) rfl, fun mv => vauxBrownout_off, fun mv => vauxRelease_releases⟩
  · let pins : RstPins := ⟨rel, te⟩
    refine ⟨(risenPower s g0 g1 m pins).strapG0, (risenPower s g0 g1 m pins).strapG1, (risenPower s g0 g1 m pins).mgmtI3c, ?_, ?_, ?_,
      devRstDeassert_starts (pins := pins) low off, devRstDeassert_waits (pins := pins) low off⟩ <;>
      rintro v rfl <;> rfl
  · simp only [exec, execRailEnableStep, rests]

end Sys2Proof.Machine
end

section
/-! The controls of a function (R129, R204, R472, R475): D0 of one port while the part prepares W2. -/

namespace Sys2Proof.Machine

/-- D0 of port 1 wakes the part, which gives up the preparation: the copy of that port's queue goes (R472). -/
theorem dStateWrite_preparingW2 : ∃ t, exec (.dStateWrite 1 false) preparingW2 = .next t ∧
    t.funcs.find 64 ≠ some { copiedPf with d3 := false, resume := copiedPf.bme } :=
  ⟨_, rfl, by decide +kernel⟩

/-- Refutes O45: its clause on D_STATE_WRITE has a function change in D3 and in what it resumes alone. In `preparingW2` the write of
D0 to port 1 abandons the entry to W2 (R204, R475), and every push queue of the part loses its copy with it. The statement has
no hypothesis that no entry is in preparation. -/
theorem not_hostControls : ¬ Obligations.HostControls := by
  unfold Obligations.HostControls
  intro h
  obtain ⟨-, -, -, ports, -⟩ := h preparingW2 64 copiedPf preparingW2_unblocked (List.forall_mem_nil _)
  obtain ⟨-, -, dState⟩ := ports 1 _ copiedPf rfl rfl
  obtain ⟨t, claimed, -, -, -, kept⟩ := dState false
  obtain ⟨u, actual, moved⟩ := dStateWrite_preparingW2
  obtain rfl : t = u := Host.Outcome.next.inj (claimed.symm.trans actual)
  exact moved (kept 64 copiedPf rfl rfl rfl)

end Sys2Proof.Machine
end

section
/-! I/O commands (R158, R160, R242): a command whose function has no queue of its number. -/

namespace Sys2Proof.Machine

/-- A FLUSH of volume 7, for slot 5 of PF 0. -/
def queuelessFlush : Ctx :=
  { cls := .standard, dl := noTs, state := .running, func := 0, sqid := 5, cmd := BitVec.ofNat 512 (3 + 7 * 2 ^ 32), vol := some 7 }

/-- A part in Ready that runs it; PF 0 has no queue. -/
def queuelessState : State :=
  { pwr := { devState := .ready }, funcs := [(0, { exists_ := true })], vols := [(7, flushVolume)], ctxs := [(0, queuelessFlush)] }

/-- With no ring to join, the completion is dropped and the context is FREE at the end of its thread (R160, R242). -/
theorem flush_queueless : ∃ t, exec (.flush 0) queuelessState = .next t ∧ t.ctxs.find 0 = none :=
  ⟨_, rfl, by decide +kernel⟩

/-- Refutes O51: every clause has the context stand in DONE_UNPOSTED afterwards, which needs a completion that is still to be
issued. In `queuelessState` the FLUSH of context 0 names a queue that its function does not have: nothing joins a ring, and
the context is FREE at once. The statement has no hypothesis that the queue and its ring exist. -/
theorem not_ioCommands : ¬ Obligations.IoCommands := by
  unfold Obligations.IoCommands
  intro h
  have io : ioCtx queuelessState 0 3 = some queuelessFlush := by decide +kernel
  obtain ⟨-, -, -, -, flush, -⟩ := h queuelessState 0 3 7 queuelessFlush flushVolume io rfl rfl (by decide +kernel) rfl rfl rfl rfl rfl
  obtain ⟨t, claimed, -, ⟨z, stands, -⟩, -⟩ := flush rfl (by decide +kernel)
  obtain ⟨u, actual, free⟩ := flush_queueless
  obtain rfl : t = u := Host.Outcome.next.inj (claimed.symm.trans actual)
  rw [free] at stands
  cases stands

end Sys2Proof.Machine
end

section
/-! Events of a function (R100, R112 to R114, R123): what raising a status bit leaves of its registers and queues. -/

namespace Sys2Proof.Machine

theorem fnOf_exists {s : State} {f : Nat} {fn : Func} (here : fnOf s f = some fn) : fn.exists_ = true :=
  (fnOf_eq_some.1 here).2

theorem FuncIs.refl {s : State} {f : Nat} {fn : Func} (here : s.funcs.find f = some fn) : FuncIs f fn s s := ⟨here, fun _ _ => rfl⟩

theorem FuncIs.trans {s t u : State} {f : Nat} {x y : Func} (h : FuncIs f x s t) (k : FuncIs f y t u) : FuncIs f y s u :=
  ⟨k.1, fun j other => (k.2 j other).trans (h.2 j other)⟩

theorem FuncIs.fnOf {s t : State} {f : Nat} {x : Func} (h : FuncIs f x s t) (lives : x.exists_ = true) : fnOf t f = some x :=
  fnOf_eq_some.2 ⟨h.1, lives⟩

/-- A function without its pending and its held messages. -/
def Func.still (fn : Func) : Func := { fn with pba := [], held := [] }

/-- From s to t one function becomes fn but for its pending and its held messages, and no other function changes. -/
def FuncStill (f : Nat) (fn : Func) (s t : State) : Prop := ∃ x, FuncIs f x s t ∧ x.still = fn.still

theorem FuncIs.still {s t : State} {f : Nat} {x : Func} (h : FuncIs f x s t) : FuncStill f x s t := ⟨x, h, rfl⟩

theorem FuncStill.of_same {s t u : State} {f : Nat} {fn : Func} (h : FuncStill f fn s t) (same : u.funcs = t.funcs) : FuncStill f fn s u := by
  obtain ⟨x, is, still⟩ := h
  exact ⟨x, is.of_same same, still⟩

theorem sendMsix_still {s : State} {f : Nat} {fn : Func} (v : Nat) (here : fnOf s f = some fn) : FuncStill f fn s (sendMsix s f v) := by
  have found := fnOf_find here
  unfold sendMsix
  rw [here]
  dsimp only
  split
  · exact (FuncIs.refl found).still
  · split
    · exact ⟨_, updFunc_funcIs _ found, rfl⟩
    · split
      · exact (FuncIs.refl found).still.of_same rfl
      · exact ⟨_, updFunc_funcIs _ found, rfl⟩

theorem sendEvent_still {s : State} {f : Nat} {fn : Func} (b : FnBit) (here : fnOf s f = some fn) : FuncStill f fn s (sendEvent s f b) := by
  have stays := (FuncIs.refl (fnOf_find here)).still
  unfold sendEvent
  rw [here]
  dsimp only
  split
  · split
    · exact sendMsix_still _ here
    · exact stays.of_same (updateIntx_frame s f .funcs (by decide))
  · exact stays

/-- A status bit of a function (R100). -/
def FnBit.get (b : FnBit) (fn : Func) : Bool :=
  match b with
  | .cto => fn.stCto
  | .unexp => fn.stUnexp
  | .psnIn => fn.stPsnIn
  | .fetchTmo => fn.stFetchTmo
  | .rbChanged => fn.stRbChanged

theorem status_bits : ∀ c u p t r : Bool, let n := bit c 2 + bit u 3 + bit p 4 + bit t 5 + bit r 7
    n.testBit 2 = c ∧ n.testBit 3 = u ∧ n.testBit 4 = p ∧ n.testBit 5 = t ∧ n.testBit 7 = r := by decide

theorem fnW1c_testBit (fn : Func) (b : FnBit) : (fnW1c fn).testBit b.pos = b.get fn := by
  obtain ⟨cto, unexp, psnIn, fetchTmo, rbChanged⟩ := status_bits fn.stCto fn.stUnexp fn.stPsnIn fn.stFetchTmo fn.stRbChanged
  cases b
  · exact cto
  · exact unexp
  · exact psnIn
  · exact fetchTmo
  · exact rbChanged

theorem FnBit.set_of_get {b : FnBit} {fn : Func} (raised : b.get fn = true) : b.set fn = fn := by
  cases b <;> simp only [FnBit.get] at raised <;> simp only [FnBit.set, ← raised]

theorem FnBit.set_exists (b : FnBit) (fn : Func) : (b.set fn).exists_ = fn.exists_ := by cases b <;> rfl

theorem raiseFn_still {s : State} {f : Nat} {fn : Func} (b : FnBit) (here : fnOf s f = some fn) : FuncStill f (b.set fn) s (raiseFn s f b) := by
  obtain ⟨found, lives⟩ := fnOf_eq_some.1 here
  unfold raiseFn
  rw [here]
  dsimp only
  split
  next raised =>
    rw [FnBit.set_of_get ((fnW1c_testBit fn b).symm.trans raised)]
    exact (FuncIs.refl found).still.of_same rfl
  next =>
    have set : FuncIs f (b.set fn) s (updFunc (markFresh s (.fn f) 0x04 b.pos 1) f b.set) := updFunc_funcIs b.set found
    obtain ⟨x, sent, still⟩ := sendEvent_still b (set.fnOf ((b.set_exists fn).trans lives))
    exact ⟨x, set.trans sent, still⟩

/-- A count of a function is raised with a status bit (R100): the function changes, and the bit's event may be sent. -/
theorem updFunc_raiseFn_still {s u : State} {f : Nat} {fn : Func} (b : FnBit) {g : Func → Func} (here : fnOf s f = some fn)
    (lives : (g fn).exists_ = fn.exists_) (same : u.funcs = (updFunc s f g).funcs) : FuncStill f (b.set (g fn)) s (raiseFn u f b) := by
  obtain ⟨found, exist⟩ := fnOf_eq_some.1 here
  have counted : FuncIs f (g fn) s u := (updFunc_funcIs g found).of_same same
  obtain ⟨x, raised, still⟩ := raiseFn_still b (counted.fnOf (lives.trans exist))
  exact ⟨x, counted.trans raised, still⟩

/-- What a poisoned TLP counts at its function (R123). -/
def countPsnIn (fn : Func) : Func := { aerSet fn 12 with cntPsnIn := satInc fn.cntPsnIn, cmdStat := fn.cmdStat ||| 0x8000#16 }

theorem poisonIn_still {s : State} {f : Nat} {fn : Func} (here : fnOf s f = some fn) :
    FuncStill f (FnBit.psnIn.set (countPsnIn fn)) s (poisonIn s f) :=
  (updFunc_raiseFn_still (u := markFresh (updFunc s f countPsnIn) (.fn f) 0x28 0 1) .psnIn here rfl rfl).of_same rfl

theorem countIgn_funcIs {s : State} {f : Nat} {fn : Func} (here : s.funcs.find f = some fn) :
    FuncIs f { fn with cntIgn := satInc fn.cntIgn } s (countIgn s f) :=
  (updFunc_funcIs _ here).of_same rfl

end Sys2Proof.Machine
end

section
/-! Bytes of a posted write (R123, R149, R150, R422): the entries, buffers or pages that it covers, and what each of them reads
after it. -/

namespace Sys2Proof.Machine

theorem mem_span {n lo p : Nat} : p ∈ (List.range n).map (· + lo) ↔ lo ≤ p ∧ p < lo + n := by
  simp only [List.mem_map, List.mem_range]
  exact ⟨by rintro ⟨k, few, rfl⟩; omega, fun ⟨first, end_⟩ => ⟨p - lo, by omega, by omega⟩⟩

theorem nodup_span (n lo : Nat) : ((List.range n).map (· + lo)).Nodup :=
  List.nodup_range.map fun _ _ same => Nat.add_right_cancel same

theorem read_writeList {m : Memory} (wf : m.wf = true) (a j : Nat) (vs : List Byte) :
    (m.writeList a vs).read j = if a ≤ j ∧ j < a + vs.length then vs.getD (j - a) 0 else m.read j := by
  split
  next inside =>
    have read := Memory.read_writeList_same wf (a := a) (i := j - a) (vs := vs) (by omega)
    rw [Nat.add_sub_cancel' inside.1] at read
    rw [read, List.getD_eq_getElem]
  next => exact Memory.read_writeList_other (by omega)

/-- The bytes from an offset on stand in the part of a memory that begins at `base` of the range written; the rest of its 4 KiB
keeps its bytes. -/
def Stored (off : Nat) (bytes : List Byte) (base : Nat) (old new : Memory) : Prop :=
  ∀ j < 4096, new.read j = if off ≤ base + j ∧ base + j ≤ off + bytes.length - 1 then bytes.getD (base + j - off) 0 else old.read j

/-- First byte, and end, of a write from an offset on in the k-th 4 KiB. -/
def pieceFrom (off k : Nat) : Nat := max off (4096 * k)
def pieceEnd (off len k : Nat) : Nat := min (off + len) (4096 * (k + 1))

/-- The bytes of a write that lie in the k-th 4 KiB. -/
def piece (off : Nat) (bytes : List Byte) (k : Nat) : List Byte :=
  (bytes.drop (pieceFrom off k - off)).take (pieceEnd off bytes.length k - pieceFrom off k)

theorem piece_length (off : Nat) (bytes : List Byte) (k : Nat) :
    (piece off bytes k).length = pieceEnd off bytes.length k - pieceFrom off k := by
  simp only [piece, List.length_take, List.length_drop, pieceEnd, pieceFrom]
  omega

theorem piece_getD {off k i : Nat} {bytes : List Byte} (inside : i < (piece off bytes k).length) :
    (piece off bytes k).getD i 0 = bytes.getD (pieceFrom off k - off + i) 0 := by
  rw [piece_length] at inside
  simp only [piece, List.getD_eq_getElem?_getD, List.getElem?_take_of_lt inside, List.getElem?_drop]

section
variable {off k : Nat} {bytes : List Byte} {m : Memory} (nonempty : bytes ≠ [])
include nonempty

theorem stored_piece (wf : m.wf = true) : Stored off bytes (4096 * k) m (m.writeList (pieceFrom off k - 4096 * k) (piece off bytes k)) := by
  have length := List.length_pos_of_ne_nil nonempty
  have first : 4096 * k ≤ pieceFrom off k := Nat.le_max_right _ _
  intro j low
  rw [read_writeList wf]
  by_cases covered : off ≤ 4096 * k + j ∧ 4096 * k + j ≤ off + bytes.length - 1
  · have inside : pieceFrom off k - 4096 * k ≤ j ∧ j < pieceFrom off k - 4096 * k + (piece off bytes k).length := by
      rw [piece_length]
      simp only [pieceFrom, pieceEnd]
      omega
    rw [if_pos inside, if_pos covered, piece_getD (by omega)]
    congr 1
    simp only [pieceFrom]
    omega
  · rw [if_neg covered, if_neg]
    rw [piece_length]
    simp only [pieceFrom, pieceEnd]
    omega

omit nonempty in
theorem stored_apart (apart : ¬(4096 * k ≤ off + bytes.length - 1 ∧ off < 4096 * (k + 1))) : Stored off bytes (4096 * k) m m := by
  intro j low
  rw [if_neg (by omega)]

theorem stored_whole (wf : m.wf = true) : Stored off bytes 0 m (m.writeList off bytes) := by
  have length := List.length_pos_of_ne_nil nonempty
  intro j low
  rw [read_writeList wf, Nat.zero_add]
  exact if_congr (by omega) rfl rfl

end

/-! Entries of a push queue -/

theorem mem_touchedEntries {off len p : Nat} (some : len ≠ 0) : p ∈ touchedEntries off len ↔ 64 * p ≤ off + len - 1 ∧ off < 64 * p + 64 := by
  rw [touchedEntries, if_neg some, mem_span]
  omega

theorem idxDist_64 (a b : Nat) : idxDist 64 a b = (((b : Int) - a) % 128).toNat := by
  simp only [idxDist]
  omega

/-- A write touches an entry between CI and PI (R149). -/
def TouchesLive (q : Sq) (off last : Nat) : Prop :=
  ∃ j, j < (((q.pi : Int) - q.ci) % 128).toNat ∧
    let p := (q.ci + j) % 64
    64 * p ≤ last ∧ off < 64 * p + 64

theorem touches_iff (q : Sq) {off len : Nat} (some : len ≠ 0) :
    (touchedEntries off len).any (fun p => (liveEntries q).contains p) = true ↔ TouchesLive q off (off + len - 1) := by
  simp only [List.any_eq_true, mem_touchedEntries some, List.contains_iff_mem, liveEntries, List.mem_map, List.mem_range, idxDist_64,
    TouchesLive]
  exact ⟨fun ⟨p, touched, j, live, here⟩ => ⟨j, live, here ▸ touched⟩, fun ⟨j, live, touched⟩ => ⟨_, touched, j, live, rfl⟩⟩

/-- What a write that is taken does to a push queue (R123, R149). -/
def storeEntry (off : Nat) (bytes : List Byte) (ep : Bool) (q : Sq) : Sq :=
  { q with entries := q.entries.writeList off bytes, copy := q.copy.map fun m => m.writeList off bytes,
           entryPoison := entryPoisonAfter q.entryPoison off bytes.length ep }

theorem entryPoisonAfter_poisoned {old : List Nat} {off len p : Nat} (some : len ≠ 0) (touched : 64 * p ≤ off + len - 1 ∧ off < 64 * p + 64) :
    p ∈ entryPoisonAfter old off len true := by
  simp only [entryPoisonAfter, if_true, List.mem_append, List.mem_filter, mem_touchedEntries some, touched, and_self, true_and,
    List.contains_eq_mem, Bool.not_eq_true', decide_eq_false_iff_not]
  exact Decidable.em _

theorem entryPoisonAfter_clean {old : List Nat} {off len p : Nat} (whole : off ≤ 64 * p ∧ 64 * p + 64 ≤ off + len) :
    p ∉ entryPoisonAfter old off len false := by
  simp [entryPoisonAfter, whole]

/-! Inline buffers -/

/-- Inline buffers that a write covers (R150). -/
def buffersOf (off : Nat) (bytes : List Byte) : List Nat :=
  (List.range (if bytes.isEmpty then 0 else (off + bytes.length - 1) / 4096 + 1 - off / 4096)).map (· + off / 4096)

theorem buffersOf_nodup (off : Nat) (bytes : List Byte) : (buffersOf off bytes).Nodup := nodup_span _ _

theorem mem_buffersOf {off k : Nat} {bytes : List Byte} (nonempty : bytes ≠ []) :
    k ∈ buffersOf off bytes ↔ 4096 * k ≤ off + bytes.length - 1 ∧ off < 4096 * (k + 1) := by
  rw [buffersOf, mem_span, if_neg (by simpa using nonempty)]
  omega

/-- What a write that is taken does to one inline buffer of its queue (R122, R123, R150). -/
def storeBuffer (off : Nat) (bytes : List Byte) (ep : Bool) (q : Sq) (k : Nat) : Sq :=
  { q with
    inline_ := q.inline_.put k ((q.inline_.getD k {}).writeList (pieceFrom off k - 4096 * k) (piece off bytes k))
    inlinePoison := inlinePoisonAfter q.inlinePoison k (pieceFrom off k - 4096 * k) (pieceEnd off bytes.length k - pieceFrom off k) ep }

theorem storeBuffer_getD_other (off : Nat) (bytes : List Byte) (ep : Bool) (q : Sq) {k j : Nat} (other : j ≠ k) :
    (storeBuffer off bytes ep q k).inline_.getD j {} = q.inline_.getD j {} := by
  simp only [storeBuffer, Tab.getD, Tab.find_put_other _ _ other]

theorem storeBuffer_getD_same (off : Nat) (bytes : List Byte) (ep : Bool) (q : Sq) (k : Nat) :
    (storeBuffer off bytes ep q k).inline_.getD k {} =
      (q.inline_.getD k {}).writeList (pieceFrom off k - 4096 * k) (piece off bytes k) := by
  simp only [storeBuffer, Tab.getD, Tab.find_put_same, Option.getD_some]

theorem inlinePoisonAfter_keeps {old : List Nat} {b off len p : Nat} (marked : p ∈ old) : p ∈ inlinePoisonAfter old b off len true := by
  simp only [inlinePoisonAfter, if_true]
  split
  · exact marked
  · exact List.mem_append_left _ marked

theorem inlinePoisonAfter_marks (old : List Nat) (b off len : Nat) : b ∈ inlinePoisonAfter old b off len true := by
  simp only [inlinePoisonAfter, if_true]
  split
  next has => simpa using has
  next => exact List.mem_append_right _ (List.mem_singleton_self b)

section
variable (off : Nat) (bytes : List Byte) (ep : Bool)

theorem storeBuffers_rest (l : List Nat) (q : Sq) : let r := l.foldl (storeBuffer off bytes ep) q
    r = { q with inline_ := r.inline_, inlinePoison := r.inlinePoison } := by
  induction l generalizing q with
  | nil => rfl
  | cons k l ih => exact ih (storeBuffer off bytes ep q k)

theorem storeBuffers_getD_other {l : List Nat} {j : Nat} (other : j ∉ l) (q : Sq) :
    (l.foldl (storeBuffer off bytes ep) q).inline_.getD j {} = q.inline_.getD j {} := by
  induction l generalizing q with
  | nil => rfl
  | cons k l ih =>
    rw [List.mem_cons, not_or] at other
    exact (ih other.2 _).trans (storeBuffer_getD_other off bytes ep q other.1)

theorem storeBuffers_getD {l : List Nat} {k : Nat} (each : l.Nodup) (mem : k ∈ l) (q : Sq) :
    (l.foldl (storeBuffer off bytes ep) q).inline_.getD k {} =
      (q.inline_.getD k {}).writeList (pieceFrom off k - 4096 * k) (piece off bytes k) := by
  induction l generalizing q with
  | nil => cases mem
  | cons i l ih =>
    obtain ⟨new, each⟩ := List.nodup_cons.1 each
    rw [List.foldl_cons]
    rcases List.mem_cons.1 mem with rfl | later
    · rw [storeBuffers_getD_other off bytes ep new, storeBuffer_getD_same]
    · rw [ih each later, storeBuffer_getD_other off bytes ep q fun same => new (by rwa [← same])]

theorem storeBuffer_poison_keeps (i : Nat) {k : Nat} {q : Sq} (marked : k ∈ q.inlinePoison) :
    k ∈ (storeBuffer off bytes true q i).inlinePoison := by
  dsimp only [storeBuffer]
  exact inlinePoisonAfter_keeps marked

theorem storeBuffer_poison (q : Sq) (k : Nat) : k ∈ (storeBuffer off bytes true q k).inlinePoison := by
  dsimp only [storeBuffer]
  exact inlinePoisonAfter_marks _ _ _ _

theorem storeBuffers_poison_keeps {l : List Nat} {k : Nat} {q : Sq} (marked : k ∈ q.inlinePoison) :
    k ∈ (l.foldl (storeBuffer off bytes true) q).inlinePoison := by
  induction l generalizing q with
  | nil => exact marked
  | cons i l ih => exact ih (storeBuffer_poison_keeps off bytes i marked)

theorem storeBuffers_poison {l : List Nat} {k : Nat} (mem : k ∈ l) (q : Sq) : k ∈ (l.foldl (storeBuffer off bytes true) q).inlinePoison := by
  induction l generalizing q with
  | nil => cases mem
  | cons i l ih =>
    rcases List.mem_cons.1 mem with rfl | later
    · exact storeBuffers_poison_keeps (q := storeBuffer off bytes true q k) off bytes (storeBuffer_poison off bytes q k)
    · exact ih later _

end

/-! Pages of a window -/

theorem mem_pagesOf {off len p : Nat} (some : len ≠ 0) : p ∈ pagesOf off len ↔ off / 4096 ≤ p ∧ p ≤ (off + len - 1) / 4096 := by
  rw [pagesOf, if_neg some, mem_span]
  omega

/-- What a write that a window takes does to one of its pages (R123, R422). -/
def storePage (off : Nat) (bytes : List Byte) (ep : Bool) (x : Window) (s : State) (p : Nat) : State :=
  match x.pages.find p with
  | none => s
  | some fr =>
    updFrame (fillFrame s fr (pieceFrom off p - 4096 * p) (piece off bytes p)) fr fun g =>
      { g with poison := ep || (g.poison && pieceEnd off bytes.length p - pieceFrom off p != 4096) }

section
variable {off : Nat} {bytes : List Byte} {ep : Bool} {x : Window}

theorem storePage_frame (s : State) (p : Nat) : OnlyChanges [.cache] s (storePage off bytes ep x s p) := by
  unfold storePage
  split
  · exact .refl _ s
  · exact (updFrame_frame _ _ _).step (fillFrame_frame s _ _ _)

theorem storePage_other {s : State} {p j : Nat} (other : x.pages.find p ≠ some j) :
    (storePage off bytes ep x s p).cache.frames.find j = s.cache.frames.find j := by
  unfold storePage
  split
  next => rfl
  next fr found =>
    have apart : j ≠ fr := fun same => other (same ▸ found)
    simp only [updFrame, fillFrame, updCache_cache, Tab.find_upd_other _ _ apart]

theorem storePage_same {s : State} {p fr : Nat} {g : Frame} (found : x.pages.find p = some fr) (here : s.cache.frames.find fr = some g) :
    ∃ h, (storePage off bytes ep x s p).cache.frames.find fr = some h ∧
      h.data = g.data.writeList (pieceFrom off p - 4096 * p) (piece off bytes p) ∧ (ep = true → h.poison = true) := by
  simp only [storePage, found, updFrame, fillFrame, updCache_cache, Tab.find_upd_same, here, Option.map_some]
  exact ⟨_, rfl, rfl, fun poisoned => by simp [poisoned]⟩

theorem storePages_other {l : List Nat} {j : Nat} (other : ∀ p ∈ l, x.pages.find p ≠ some j) (s : State) :
    (l.foldl (storePage off bytes ep x) s).cache.frames.find j = s.cache.frames.find j := by
  induction l generalizing s with
  | nil => rfl
  | cons p l ih =>
    exact (ih (fun k mem => other k (List.mem_cons_of_mem _ mem)) _).trans (storePage_other (other p List.mem_cons_self))

theorem storePages_same {l : List Nat} {p fr : Nat} {s : State} {g : Frame} (each : l.Nodup)
    (apart : ∀ a ∈ l, ∀ b ∈ l, x.pages.find a = x.pages.find b → a = b) (mem : p ∈ l) (found : x.pages.find p = some fr)
    (here : s.cache.frames.find fr = some g) : ∃ h, (l.foldl (storePage off bytes ep x) s).cache.frames.find fr = some h ∧
      h.data = g.data.writeList (pieceFrom off p - 4096 * p) (piece off bytes p) ∧ (ep = true → h.poison = true) := by
  induction l generalizing s with
  | nil => cases mem
  | cons i l ih =>
    obtain ⟨new, each⟩ := List.nodup_cons.1 each
    rw [List.foldl_cons]
    have later (k : Nat) (own : x.pages.find k = some fr) (first : k ∈ i :: l) : k = p := apart k first p mem (own.trans found.symm)
    rcases List.mem_cons.1 mem with rfl | inside
    · rw [storePages_other fun k among own => new (later k own (List.mem_cons_of_mem _ among) ▸ among)]
      exact storePage_same found here
    · have before : x.pages.find i ≠ some fr := fun own => new (later i own List.mem_cons_self ▸ inside)
      exact ih each (fun a am b bm => apart a (List.mem_cons_of_mem _ am) b (List.mem_cons_of_mem _ bm)) inside
        ((storePage_other before).trans here)

end

end Sys2Proof.Machine
end

section
/-! Writes to push queues and peer windows (R123, R149, R150, R422): what is taken, dropped or refused. -/

namespace Sys2Proof.Machine

theorem takesWrites_fnOf {s : State} {f : Nat} {fn : Func} (h : takesWrites s f = some fn) : fnOf s f = some fn := by
  unfold takesWrites at h
  split at h
  next x here =>
    split at h
    · exact answers_fnOf (here.trans h)
    · cases h
  next => cases h

/-! The TLP of a write -/

/-- The part once the TLP of a posted write has come: a poisoned one is counted (R123). -/
def received (s : State) (f : Nat) (ep : Bool) : State := if ep then poisonIn s f else s

/-- What the TLP of a write leaves of its function. -/
structure Receives (ep : Bool) (fn x : Func) : Prop where
  clean : ep = false → x = fn
  counted : ep = true → x.cntPsnIn = satInc fn.cntPsnIn ∧ x.stPsnIn = true
  lives : x.exists_ = fn.exists_
  ignored : x.cntIgn = fn.cntIgn
  queues : x.sqs = fn.sqs
  windows : x.windows = fn.windows

theorem received_funcIs {s : State} {f : Nat} {fn : Func} (ep : Bool) (here : fnOf s f = some fn) :
    ∃ x, FuncIs f x s (received s f ep) ∧ Receives ep fn x := by
  cases ep
  · exact ⟨fn, .refl (fnOf_find here), fun _ => rfl, nofun, rfl, rfl, rfl, rfl⟩
  · obtain ⟨x, is, still⟩ := poisonIn_still here
    have kept {α : Type} (field : Func → α) := congrArg field still
    exact ⟨x, is, nofun, fun _ => ⟨kept Func.cntPsnIn, kept Func.stPsnIn⟩, kept Func.exists_, kept Func.cntIgn, kept Func.sqs,
      kept Func.windows⟩

theorem received_frame (s : State) (f : Nat) (ep : Bool) : OnlyChanges [.funcs, .ports, .fresh, .out] s (received s f ep) := by
  cases ep
  · exact .refl _ s
  · exact (poisonIn_frame s f).step (.refl _ s)

/-- A posted write does something within the named parts; a poisoned one is counted for its function as well. -/
def WriteDoes (f : Nat) (ep : Bool) (fn : Func) (s : State) (c : Instr) (ps : List Part) (post : State → Prop) : Prop :=
  Does c (if ep then [.funcs, .ports, .fresh, .out] ++ ps else ps) s fun t => post t ∧
    (ep = true → ∃ b, fnOf t f = some b ∧ b.cntPsnIn = satInc fn.cntPsnIn ∧ b.stPsnIn = true)

theorem WriteDoes.of {f : Nat} {ep : Bool} {fn x y : Func} {s t : State} {c : Instr} {ps : List Part} {post : State → Prop}
    (receives : Receives ep fn x) (run : exec c s = .next t) (moves : OnlyChanges ps (received s f ep) t) (stands : fnOf t f = some y)
    (count : y.cntPsnIn = x.cntPsnIn) (bit : y.stPsnIn = x.stPsnIn) (h : post t) : WriteDoes f ep fn s c ps post := by
  refine ⟨t, run, ?_, h, fun poisoned => ?_⟩
  · cases ep
    · exact moves
    · exact OnlyChanges.of (fun p out => received_frame s f true p fun mem => out (List.mem_append_left _ mem))
        fun p out => moves p fun mem => out (List.mem_append_right _ mem)
  · obtain ⟨counted, marked⟩ := receives.counted poisoned
    exact ⟨y, stands, count.trans counted, bit.trans marked⟩

section
variable {f : Nat} {ep : Bool} {fn : Func} {s : State} {c : Instr} (takes : takesWrites s f = some fn)
include takes

/-- A write that is dropped whole is counted (R98). -/
theorem write_ignored (run : exec c s = .next (countIgn (received s f ep) f)) : WriteDoes f ep fn s c [.funcs, .fresh] fun t =>
    ∃ b, FuncIs f b s t ∧ b.cntIgn = satInc fn.cntIgn ∧ b.sqs = fn.sqs := by
  have here := takesWrites_fnOf takes
  obtain ⟨x, is, receives⟩ := received_funcIs ep here
  have counted := is.trans (countIgn_funcIs is.1)
  exact .of receives run (countIgn_frame _ f) (counted.fnOf (receives.lives.trans (fnOf_exists here))) rfl rfl
    ⟨_, counted, congrArg satInc receives.ignored, receives.queues⟩

/-- A write that a submission queue takes changes that queue alone. -/
theorem write_queue {slot : Nat} {q : Sq} {g : Sq → Sq} {post : Sq → Prop} (found : fn.sqs.find slot = some q)
    (run : exec c s = .next (updSq (received s f ep) f slot g)) (h : post (g q)) : WriteDoes f ep fn s c [.funcs] fun t =>
      ∃ b r, FuncIs f b s t ∧ b.sqs.find slot = some r ∧ (ep = false → b = { fn with sqs := b.sqs }) ∧
        (∀ k, k ≠ slot → b.sqs.find k = fn.sqs.find k) ∧ post r := by
  have here := takesWrites_fnOf takes
  obtain ⟨x, is, receives⟩ := received_funcIs ep here
  have stored : FuncIs f { x with sqs := x.sqs.upd slot g } s (updSq (received s f ep) f slot g) := is.trans (updFunc_funcIs _ is.1)
  refine .of receives run (updSq_frame _ f slot g) (stored.fnOf (receives.lives.trans (fnOf_exists here))) rfl rfl
    ⟨_, g q, stored, ?_, fun clean => ?_, fun k other => ?_, h⟩
  · rw [Tab.find_upd_same, receives.queues, found]
    rfl
  · rw [receives.clean clean]
  · rw [Tab.find_upd_other _ _ other, receives.queues]

/-! Push queues -/

theorem exec_pushEntryWrite_absent {slot : Nat} (off : Nat) (bytes : List Byte) (absent : ∀ q, fn.sqs.find slot = some q → q.push = false) :
    exec (.pushEntryWrite f slot off bytes ep) s = .next (countIgn (received s f ep) f) := by
  simp only [exec, execPushEntryWrite, takes]
  cases found : fn.sqs.find slot with
  | none => rfl
  | some q =>
    simp only [absent q found, Bool.not_false, Bool.true_or, if_true]
    rfl

theorem exec_inlineBufferWrite_absent {slot : Nat} (off : Nat) (bytes : List Byte)
    (absent : ∀ q, fn.sqs.find slot = some q → q.push = false) :
    exec (.inlineBufferWrite f slot off bytes ep) s = .next (countIgn (received s f ep) f) := by
  simp only [exec, execInlineBufferWrite, takes]
  cases found : fn.sqs.find slot with
  | none => rfl
  | some q =>
    simp only [absent q found, Bool.not_false, Bool.true_or, if_true]
    rfl

section
variable {slot off : Nat} {bytes : List Byte} {q : Sq} (nonempty : bytes ≠ []) (found : fn.sqs.find slot = some q) (push : q.push = true)
include nonempty found push

omit nonempty in
theorem exec_pushEntryWrite : exec (.pushEntryWrite f slot off bytes ep) s = .next (
    if 4096 < off + bytes.length || (touchedEntries off bytes.length).any fun p => (liveEntries q).contains p
    then countIgn (received s f ep) f else updSq (received s f ep) f slot (storeEntry off bytes ep)) := by
  simp only [exec, execPushEntryWrite, takes, found, push, Bool.not_true, Bool.false_or]
  rfl

theorem pushEntryWrite_drops (full : 4096 < off + bytes.length ∨ TouchesLive q off (off + bytes.length - 1)) :
    exec (.pushEntryWrite f slot off bytes ep) s = .next (countIgn (received s f ep) f) := by
  rw [exec_pushEntryWrite takes found push, if_pos]
  rw [Bool.or_eq_true, decide_eq_true_iff, touches_iff q (List.length_pos_of_ne_nil nonempty).ne']
  exact full

theorem pushEntryWrite_stores (fits : off + bytes.length ≤ 4096) (free : ¬TouchesLive q off (off + bytes.length - 1))
    (wf : q.entries.wf = true) (copyWf : ∀ m, q.copy = some m → m.wf = true) :
    WriteDoes f ep fn s (.pushEntryWrite f slot off bytes ep) [.funcs] fun t =>
      ∃ b r, FuncIs f b s t ∧ b.sqs.find slot = some r ∧ (ep = false → b = { fn with sqs := b.sqs }) ∧
        (∀ k, k ≠ slot → b.sqs.find k = fn.sqs.find k) ∧
        r = { q with entries := r.entries, copy := r.copy, entryPoison := r.entryPoison } ∧ Stored off bytes 0 q.entries r.entries ∧
        (q.copy = none → r.copy = none) ∧ (∀ m, q.copy = some m → ∃ x, r.copy = some x ∧ Stored off bytes 0 m x) ∧
        ∀ p, 64 * p ≤ off + bytes.length - 1 → off < 64 * p + 64 → (ep = true → p ∈ r.entryPoison) ∧
          (ep = false → off ≤ 64 * p → 64 * p + 64 ≤ off + bytes.length - 1 + 1 → p ∉ r.entryPoison) := by
  have length := List.length_pos_of_ne_nil nonempty
  refine write_queue takes (q := q) (g := storeEntry off bytes ep) found ?_ ⟨rfl, stored_whole nonempty wf, fun none => ?_, fun m some => ?_,
    fun p first end_ => ⟨?_, ?_⟩⟩
  · rw [exec_pushEntryWrite takes found push, if_neg]
    rw [Bool.or_eq_true, decide_eq_true_iff, touches_iff q length.ne']
    exact not_or.2 ⟨by omega, free⟩
  · simp only [storeEntry, none, Option.map_none]
  · exact ⟨_, by simp only [storeEntry, some, Option.map_some], stored_whole nonempty (copyWf m some)⟩
  · rintro rfl
    exact entryPoisonAfter_poisoned length.ne' ⟨first, end_⟩
  · rintro rfl whole last
    exact entryPoisonAfter_clean ⟨whole, by omega⟩

omit nonempty in
theorem exec_inlineBufferWrite : exec (.inlineBufferWrite f slot off bytes ep) s = .next (
    if 65536 < off + bytes.length || (buffersOf off bytes).any q.inlineBusy.contains
    then countIgn (received s f ep) f
    else updSq (received s f ep) f slot fun q => (buffersOf off bytes).foldl (storeBuffer off bytes ep) q) := by
  simp only [exec, execInlineBufferWrite, takes, found, push, Bool.not_true, Bool.false_or]
  rfl

omit takes found push in
theorem buffersBusy_iff : (buffersOf off bytes).any q.inlineBusy.contains = true ↔
    ∃ k ∈ q.inlineBusy, 4096 * k ≤ off + bytes.length - 1 ∧ off < 4096 * (k + 1) := by
  simp only [List.any_eq_true, mem_buffersOf nonempty, List.contains_iff_mem]
  exact exists_congr fun k => and_comm

theorem inlineBufferWrite_drops (full : 65536 < off + bytes.length ∨
      ∃ k ∈ q.inlineBusy, 4096 * k ≤ off + bytes.length - 1 ∧ off < 4096 * (k + 1)) :
    exec (.inlineBufferWrite f slot off bytes ep) s = .next (countIgn (received s f ep) f) := by
  rw [exec_inlineBufferWrite takes found push, if_pos]
  rw [Bool.or_eq_true, decide_eq_true_iff, buffersBusy_iff nonempty]
  exact full

theorem inlineBufferWrite_stores (fits : off + bytes.length ≤ 65536)
    (free : ¬∃ k ∈ q.inlineBusy, 4096 * k ≤ off + bytes.length - 1 ∧ off < 4096 * (k + 1)) (wf : ∀ k, (q.inline_.getD k {}).wf = true) :
    WriteDoes f ep fn s (.inlineBufferWrite f slot off bytes ep) [.funcs] fun t =>
      ∃ b r, FuncIs f b s t ∧ b.sqs.find slot = some r ∧ (ep = false → b = { fn with sqs := b.sqs }) ∧
        (∀ k, k ≠ slot → b.sqs.find k = fn.sqs.find k) ∧
        r = { q with inline_ := r.inline_, inlinePoison := r.inlinePoison } ∧
        (∀ k, Stored off bytes (4096 * k) (q.inline_.getD k {}) (r.inline_.getD k {})) ∧
        ∀ k, 4096 * k ≤ off + bytes.length - 1 → off < 4096 * (k + 1) → ep = true → k ∈ r.inlinePoison := by
  refine write_queue takes (q := q) (g := fun q => (buffersOf off bytes).foldl (storeBuffer off bytes ep) q) found ?_
    ⟨storeBuffers_rest off bytes ep _ q, fun k => ?_, fun k first end_ => ?_⟩
  · rw [exec_inlineBufferWrite takes found push, if_neg]
    rw [Bool.or_eq_true, decide_eq_true_iff, buffersBusy_iff nonempty]
    exact not_or.2 ⟨by omega, free⟩
  · by_cases covered : k ∈ buffersOf off bytes
    · rw [storeBuffers_getD off bytes ep (buffersOf_nodup off bytes) covered]
      exact stored_piece nonempty (wf k)
    · rw [storeBuffers_getD_other off bytes ep covered]
      exact stored_apart (mt (mem_buffersOf nonempty).2 covered)
  · rintro rfl
    exact storeBuffers_poison off bytes ((mem_buffersOf nonempty).2 ⟨first, end_⟩) q

end

/-! Peer windows -/

omit takes in
theorem Logged.of_same {s s' t t' : State} {code : BitVec 16} {detail : Nat} (h : Logged code detail s t) (seq : s.errSeq = s'.errSeq)
    (clock : now s = now s') (seq' : t'.errSeq = t.errSeq) (log : t'.errLog = t.errLog) : Logged code detail s' t' := by
  unfold Logged at *
  rwa [seq', log, ← seq, ← clock]

/-- A window before the message of a write that it drops. -/
def logDrop (s : State) (f w off case_ : Nat) : State :=
  let s := updWin s f w fun y => { y with cntDrop := satInc y.cntDrop, drop := true }
  logErr (markFresh (markFresh s (.win f w) 0x24 0 1) (.win f w) 0x18 2 1) 0x0C20 .translation { func := f }
    (w + off * 2 ^ 8 + case_ * 2 ^ 32)

omit takes in
theorem winDrop_eq (s : State) (f w off case_ : Nat) (x : Window) : winDrop s f w off case_ x =
    if x.evt.getLsbD 11 then sendMsix (logDrop s f w off case_) f (fieldOf x.evt 0 11) else logDrop s f w off case_ := rfl

omit takes in
theorem winDrop_logged (s : State) (f w off case_ : Nat) (x : Window) :
    Logged 0x0C20#16 (w + off * 2 ^ 8 + case_ * 2 ^ 32) s (winDrop s f w off case_ x) := by
  have logged : Logged 0x0C20#16 (w + off * 2 ^ 8 + case_ * 2 ^ 32) s (logDrop s f w off case_) :=
    logErr_logged (markFresh (markFresh _ (.win f w) 0x24 0 1) (.win f w) 0x18 2 1) 0x0C20 .translation { func := f } _
  rw [winDrop_eq]
  split
  · exact logged.of_same rfl rfl (sendMsix_frame _ _ _ .errSeq (by decide)) (sendMsix_frame _ _ _ .errLog (by decide))
  · exact logged

omit takes in
theorem winDrop_still {s : State} {f : Nat} {fn : Func} (w off case_ : Nat) (x : Window) (here : fnOf s f = some fn) :
    FuncStill f { fn with windows := fn.windows.put w { winOf fn w with cntDrop := satInc (winOf fn w).cntDrop, drop := true } } s
      (winDrop s f w off case_ x) := by
  have counted := (updWin_funcIs (w := w) (fun y => { y with cntDrop := satInc y.cntDrop, drop := true }) here rfl).of_same
    (u := logDrop s f w off case_) rfl
  rw [winDrop_eq]
  split
  · obtain ⟨y, sent, still⟩ := sendMsix_still (fieldOf x.evt 0 11) (counted.fnOf (fnOf_exists (fn := fn) here))
    exact ⟨y, counted.trans sent, still⟩
  · exact counted.still

/-- Why a window drops a write, 0 for none (R422). -/
def refusal (x : Window) (off last len : Nat) (rid : BitVec 16) : Nat :=
  if x.en = false then 1 else if x.size < off + len then 2 else if x.ridChk = true ∧ rid ≠ x.rid then 3
  else if ∃ p ∈ x.busy, off / 4096 ≤ p ∧ p ≤ last / 4096 then 4 else 0

omit takes in
theorem dropCase_eq (x : Window) {off len : Nat} (rid : BitVec 16) (some : len ≠ 0) :
    dropCase x off len rid = refusal x off (off + len - 1) len rid := by
  have busy : (pagesOf off len).any x.busy.contains = true ↔ ∃ p ∈ x.busy, off / 4096 ≤ p ∧ p ≤ (off + len - 1) / 4096 := by
    simp only [List.any_eq_true, mem_pagesOf some, List.contains_iff_mem]
    exact exists_congr fun p => and_comm
  simp only [dropCase, refusal, Bool.not_eq_true', Bool.and_eq_true, bne_iff_ne, busy]

section
variable {win off : Nat} {bytes : List Byte} {rid : BitVec 16} (nonempty : bytes ≠ [])
include nonempty

theorem exec_peerWindowWrite (low : win < 16) : exec (.peerWindowWrite f win off bytes rid ep) s = .next (
    let k := refusal (winOf fn win) off (off + bytes.length - 1) bytes.length rid
    if k = 0 then winAccept (received s f ep) f win off bytes ep (winOf fn win)
    else winDrop (received s f ep) f win off k (winOf fn win)) := by
  have goes : (16 ≤ win || bytes.isEmpty) = false := by simp [low, nonempty]
  simp only [exec, execPeerWindowWrite, takes, goes, Bool.false_eq_true, if_false,
    dropCase_eq _ rid (List.length_pos_of_ne_nil nonempty).ne']
  rfl

omit nonempty in
theorem exec_peerWindowWrite_outside (high : 16 ≤ win) : exec (.peerWindowWrite f win off bytes rid ep) s = .next s := by
  simp [exec, execPeerWindowWrite, takes, high]

theorem peerWindowWrite_stores (low : win < 16) (taken : refusal (winOf fn win) off (off + bytes.length - 1) bytes.length rid = 0)
    (paged : ∀ p, off / 4096 ≤ p ∧ p ≤ (off + bytes.length - 1) / 4096 → ∃ fr g, (winOf fn win).pages.find p = some fr ∧
      s.cache.frames.find fr = some g ∧ g.data.wf = true)
    (apart : ∀ p p', (off / 4096 ≤ p ∧ p ≤ (off + bytes.length - 1) / 4096) → (off / 4096 ≤ p' ∧ p' ≤ (off + bytes.length - 1) / 4096) →
      (winOf fn win).pages.find p = (winOf fn win).pages.find p' → p = p') :
    WriteDoes f ep fn s (.peerWindowWrite f win off bytes rid ep) [.funcs, .cache, .fresh] fun t =>
      (∀ p fr g, (off / 4096 ≤ p ∧ p ≤ (off + bytes.length - 1) / 4096) → (winOf fn win).pages.find p = some fr →
        s.cache.frames.find fr = some g →
        ∃ h, t.cache.frames.find fr = some h ∧ Stored off bytes (4096 * p) g.data h.data ∧ (ep = true → h.poison = true)) ∧
      (∀ j, (∀ p, (off / 4096 ≤ p ∧ p ≤ (off + bytes.length - 1) / 4096) → (winOf fn win).pages.find p ≠ some j) →
        t.cache.frames.find j = s.cache.frames.find j) ∧
      ∃ b, FuncIs f b s t ∧ (ep = false → b = { fn with windows := b.windows }) ∧
        winOf b win = { winOf fn win with cntRx := satAdd (winOf fn win).cntRx bytes.length } := by
  have length := (List.length_pos_of_ne_nil nonempty).ne'
  have here := takesWrites_fnOf takes
  obtain ⟨x, is, receives⟩ := received_funcIs ep here
  have lives := receives.lives.trans (fnOf_exists here)
  have same : winOf x win = winOf fn win := congrArg (fun t : Tab Window => t.getD win {}) receives.windows
  have cache : (received s f ep).cache = s.cache := received_frame s f ep .cache (by decide)
  let u := (pagesOf off bytes.length).foldl (storePage off bytes ep (winOf fn win)) (received s f ep)
  have funcs : u.funcs = (received s f ep).funcs :=
    OnlyChanges.foldl (fun t p moved => (storePage_frame t p).step moved) (.refl [.cache] (received s f ep)) .funcs (by decide)
  have counted := is.trans (updWin_funcIs (w := win) (fun y => { y with cntRx := satAdd y.cntRx bytes.length }) (is.fnOf lives) funcs)
  refine .of receives ((exec_peerWindowWrite takes nonempty low).trans (congrArg _ (if_pos taken))) (winAccept_frame _ _ _ _ _ _ _)
    (counted.fnOf lives) rfl rfl ⟨fun p fr g cover found at_ => ?_, fun j free => ?_, _, counted, fun clean => ?_, ?_⟩
  · obtain ⟨_, _, found', at', wf⟩ := paged p cover
    obtain rfl := Option.some.inj (found.symm.trans found')
    obtain rfl := Option.some.inj (at_.symm.trans at')
    obtain ⟨h, stands, data, poison⟩ := storePages_same (s := received s f ep) (ep := ep) (off := off) (bytes := bytes) (nodup_span _ _)
      (fun a am b bm => apart a b ((mem_pagesOf length).1 am) ((mem_pagesOf length).1 bm)) ((mem_pagesOf length).2 cover) found
      ((congrArg (fun c => c.frames.find fr) cache).trans at_)
    exact ⟨h, stands, data ▸ stored_piece nonempty wf, poison⟩
  · exact (storePages_other (fun p mem => free p ((mem_pagesOf length).1 mem)) _).trans (congrArg (fun c => c.frames.find j) cache)
  · rw [receives.clean clean]
  · rw [winOf, Tab.getD, Tab.find_put_same, Option.getD_some, same]

theorem peerWindowWrite_drops (low : win < 16) {k : Nat} (refused : refusal (winOf fn win) off (off + bytes.length - 1) bytes.length rid = k)
    (drops : k ≠ 0) : WriteDoes f ep fn s (.peerWindowWrite f win off bytes rid ep) [.funcs, .errLog, .errSeq, .fresh, .out] fun t =>
      Logged 0x0C20#16 (win + off * 2 ^ 8 + k * 2 ^ 32) s t ∧
      ∃ b, fnOf t f = some b ∧ winOf b win = { winOf fn win with cntDrop := satInc (winOf fn win).cntDrop, drop := true } := by
  have here := takesWrites_fnOf takes
  obtain ⟨x, is, receives⟩ := received_funcIs ep here
  have lives := receives.lives.trans (fnOf_exists here)
  have same : winOf x win = winOf fn win := congrArg (fun t : Tab Window => t.getD win {}) receives.windows
  obtain ⟨b, dropped, still⟩ := winDrop_still win off k (winOf fn win) (is.fnOf lives)
  have kept {α : Type} (field : Func → α) := congrArg field still
  have run := exec_peerWindowWrite (ep := ep) (off := off) (rid := rid) takes nonempty low
  rw [refused] at run
  replace run := run.trans (congrArg _ (if_neg drops))
  have stands := (is.trans dropped).fnOf ((kept Func.exists_).trans lives)
  refine .of receives run (winDrop_frame _ _ _ _ _ _) stands (kept Func.cntPsnIn) (kept Func.stPsnIn)
    ⟨(winDrop_logged _ f win off k _).of_same (received_frame s f ep .errSeq (by decide)) (congrArg (fun tt : Timetable => tsOf tt.cycle tt.slot)
      (received_frame s f ep .tt (by decide))) rfl rfl, b, stands, ?_⟩
  have windows : b.windows = x.windows.put win { winOf x win with cntDrop := satInc (winOf x win).cntDrop, drop := true } := kept Func.windows
  rw [winOf, windows, Tab.getD, Tab.find_put_same, Option.getD_some, same]

end
end

/-- Settles O25: what a write covers is read back from the memory, buffers or frames that it was cut to. -/
theorem pushAndWindowWrites : Obligations.PushAndWindowWrites := by
  unfold Obligations.PushAndWindowWrites
  intro f slot off bytes ep s fn takes nonempty
  refine ⟨fun absent => ⟨write_ignored takes (exec_pushEntryWrite_absent takes off bytes absent),
      write_ignored takes (exec_inlineBufferWrite_absent takes off bytes absent)⟩, fun q found push =>
    ⟨pushEntryWrite_stores takes nonempty found push, fun full => write_ignored takes (pushEntryWrite_drops takes nonempty found push full),
      inlineBufferWrite_stores takes nonempty found push,
      fun full => write_ignored takes (inlineBufferWrite_drops takes nonempty found push full)⟩,
    fun win rid => ⟨exec_peerWindowWrite_outside takes, peerWindowWrite_stores takes nonempty, fun low some => peerWindowWrite_drops takes nonempty low rfl some⟩⟩

end Sys2Proof.Machine
end

section
/-! Rings under fetches and polls (R126, R127, R138, R141, R142): what the fetcher and the poller leave of every queue, and what the
arrival of a fetch or of a poll makes of its own. -/

namespace Sys2Proof.Machine

/-! What a queue keeps -/

/-- A queue without its outstanding reads, the time of its next poll and its push-queue memory. -/
def Sq.ring (q : Sq) : Sq := { q with fetching := 0, pollOut := false, pollDue := 0, entries := {}, copy := none }

/-- From s to t every queue keeps its ring. -/
def RingsKept (s t : State) : Prop := ∀ f slot, (sqOf t f slot).map Sq.ring = (sqOf s f slot).map Sq.ring

theorem sqOf_congr {s t : State} (same : t.funcs = s.funcs) (f slot : Nat) : sqOf t f slot = sqOf s f slot := by
  rw [sqOf, sqOf, fnOf_congr same]

theorem sqOf_updSq_same {s : State} {f slot : Nat} {q : Sq} (g : Sq → Sq) (here : sqOf s f slot = some q) :
    sqOf (updSq s f slot g) f slot = some (g q) := by
  obtain ⟨fn, lives, found⟩ := fnOf_of_sqOf here
  have changed : fnOf (updSq s f slot g) f = some { fn with sqs := fn.sqs.upd slot g } :=
    fnOf_updFunc_same lives (fnOf_exists (fn := fn) lives)
  rw [sqOf_of_fnOf changed, Tab.find_upd_same, found, Option.map_some]

theorem RingsKept.refl (s : State) : RingsKept s s := fun _ _ => rfl

theorem RingsKept.trans {s t u : State} (h : RingsKept s t) (k : RingsKept t u) : RingsKept s u :=
  fun f slot => (k f slot).trans (h f slot)

theorem RingsKept.of_funcs {s t : State} (same : t.funcs = s.funcs) : RingsKept s t := fun f slot => by rw [sqOf_congr same]

theorem RingsKept.sqOf {s t : State} {f slot : Nat} {q : Sq} (kept : RingsKept s t) (here : sqOf s f slot = some q) :
    ∃ r, sqOf t f slot = some r ∧ r.ring = q.ring :=
  Option.map_eq_some_iff.1 ((kept f slot).trans (congrArg (Option.map Sq.ring) here))

/-- A function whose queues keep their rings, whatever else changes of it. -/
theorem RingsKept.updFunc (s : State) (f : Nat) {g : Func → Func} (lives : ∀ fn, (g fn).exists_ = fn.exists_)
    (keeps : ∀ fn slot, ((g fn).sqs.find slot).map Sq.ring = (fn.sqs.find slot).map Sq.ring) : RingsKept s (updFunc s f g) := by
  intro k slot
  by_cases same : k = f
  · subst same
    unfold Machine.sqOf fnOf
    rw [updFunc_funcs, Tab.find_upd_same]
    cases s.funcs.find k with
    | none => rfl
    | some fn =>
      dsimp only [Option.map_some]
      rw [lives fn]
      split
      · exact keeps fn slot
      · rfl
  · rw [Machine.sqOf, fnOf_updFunc_other s g same, Machine.sqOf]

theorem RingsKept.updSq (s : State) (f slot : Nat) {g : Sq → Sq} (keeps : ∀ q, (g q).ring = q.ring) : RingsKept s (updSq s f slot g) := by
  refine .updFunc s f (fun _ => rfl) fun fn j => ?_
  by_cases same : j = slot
  · rw [same, Tab.find_upd_same, Option.map_map, show Sq.ring ∘ g = Sq.ring from funext keeps]
  · rw [Tab.find_upd_other _ _ same]

theorem RingsKept.foldl {α : Type} {step : State → α → State} (each : ∀ s x, RingsKept s (step s x)) (s : State) (l : List α) :
    RingsKept s (l.foldl step s) := by
  induction l generalizing s with
  | nil => exact .refl s
  | cons x l ih => exact (each s x).trans (ih _)

theorem fetch_rings (s : State) (f slot : Nat) : RingsKept s (fetch s f slot) := by
  unfold fetch
  split
  next fn q _ _ =>
    extract_lets n
    split
    · exact .refl s
    · exact (RingsKept.updSq s f slot (g := fun q => { q with fetching := n }) fun _ => rfl).trans (.of_funcs rfl)
  next => exact .refl s

theorem fetchAll_rings (s : State) : RingsKept s (fetchAll s) := by
  have of_class (cl : Cls) (s : State) : RingsKept s (fetchClass cl s) := .foldl (step := fun s (x : Nat × Nat) => fetch s x.1 x.2) (fun s x => fetch_rings s x.1 x.2) s _
  exact ((of_class .express s).trans (of_class .standard _)).trans (of_class .bulk _)

theorem poll_rings (s : State) (f slot : Nat) : RingsKept s (poll s f slot) := by
  rcases poll_funcs s f slot with same | ⟨d, moved⟩
  · exact .of_funcs same
  · exact (RingsKept.updSq s f slot (g := fun q => { q with pollOut := true, pollDue := d }) fun _ => rfl).trans (.of_funcs moved)

theorem shadowWrite_rings (s : State) (f off value : Nat) : RingsKept s (shadowWrite s f off value) := by
  unfold shadowWrite
  split
  · exact .refl s
  · split
    · exact .refl s
    · split
      · exact .refl s
      · split
        · exact .of_funcs rfl
        · exact .updFunc s f (fun _ => rfl) fun _ _ => rfl

theorem restorePush_rings (s : State) : RingsKept s (restorePush s) := by
  intro f slot
  simp only [sqOf, fnOf, restorePush, updPush, Tab.find_mapVal]
  cases s.funcs.find f with
  | none => rfl
  | some fn =>
    dsimp only [Option.map_some]
    split
    · simp only [Option.bind_some, Tab.find_mapVal, Option.map_map]
      congr 1
      funext q
      dsimp only [Function.comp]
      split <;> rfl
    · rfl

theorem abandonEntry_rings (s : State) (arrival : Nat) : RingsKept s (abandonEntry s arrival) := by
  unfold abandonEntry
  split
  next => exact .refl s
  next t _ =>
    extract_lets u v
    have restored : RingsKept s v := (RingsKept.of_funcs (t := u) rfl).trans ((restorePush_rings u).trans (.of_funcs rfl))
    split
    · exact restored.trans (.of_funcs (sendLtr_frame v 0 .funcs (by decide)))
    · exact restored

theorem commandArrives_rings (s : State) (arrival : Nat) : RingsKept s (commandArrives s arrival) := by
  unfold commandArrives
  extract_lets u
  have abandoned : RingsKept s u := abandonEntry_rings s arrival
  split
  · exact abandoned.trans (.of_funcs (startExit_frame u .funcs (by decide)))
  · exact abandoned

/-! A producer index is judged (R138) -/

/-- New entries of a queue that become visible at a time. -/
def Sq.announcing (q : Sq) (t : Word) (n : Nat) : Sq := { q with announced := q.announced ++ List.replicate n { vis := t } }

theorem announce_ring {s : State} {f slot : Nat} {q : Sq} (n : Nat) (here : sqOf s f slot = some q) :
    ∃ r, sqOf (announce s f slot n) f slot = some r ∧ r.ring = (q.announcing (now s) n).ring := by
  unfold announce
  split
  next none => exact ⟨q, here, by simp [Sq.announcing, none]⟩
  next =>
    extract_lets t u
    have announced : sqOf u f slot = some (q.announcing t n) := sqOf_updSq_same (fun q => q.announcing t n) here
    refine (commandArrives_rings _ _).sqOf ?_
    split
    · exact announced
    · exact (sqOf_congr (noteBusy_frame u .funcs (by decide)) f slot).trans announced

/-- What a queue is once a value of its producer index is judged: new entries, or an overrun. -/
def Sq.judged (q : Sq) (t : Word) (p : Nat) : Sq :=
  if piAccepted q.size q.pi q.ci p then { q with pi := p, fetchStop := false }.announcing t (idxDist q.size q.pi p)
  else { q with overrun := true }

theorem Sq.judged_accepted {q : Sq} {p : Nat} (t : Word) (accepted : piAccepted q.size q.pi q.ci p = true) :
    q.judged t p = { q with pi := p, fetchStop := false }.announcing t (idxDist q.size q.pi p) :=
  if_pos accepted

theorem Sq.judged_refused {q : Sq} {p : Nat} (t : Word) (refused : ¬piAccepted q.size q.pi q.ci p = true) :
    q.judged t p = { q with overrun := true } :=
  if_neg refused

theorem Sq.judged_ring (q : Sq) (t : Word) (p : Nat) : (Sq.judged { q with pollOut := false } t p).ring = (q.judged t p).ring := by
  by_cases accepted : piAccepted q.size q.pi q.ci p = true
  · rw [q.judged_accepted t accepted, Sq.judged_accepted (q := { q with pollOut := false }) t accepted]
    rfl
  · rw [q.judged_refused t accepted, Sq.judged_refused (q := { q with pollOut := false }) t accepted]
    rfl

/-- A poll's value is judged once fetching goes on (R141). -/
theorem judgePi_ring {s : State} {f slot : Nat} {q : Sq} (p : Nat) (here : sqOf s f slot = some q) :
    ∃ r, sqOf (if piAccepted q.size q.pi q.ci p then judgePi (updSq s f slot fun q => { q with fetchStop := false }) f slot p q
      else judgePi s f slot p q) f slot = some r ∧ r.ring = (q.judged (now s) p).ring := by
  by_cases accepted : piAccepted q.size q.pi q.ci p = true
  · rw [if_pos accepted, judgePi, if_pos accepted, q.judged_accepted _ accepted]
    exact announce_ring _ (sqOf_updSq_same _ (sqOf_updSq_same _ here))
  · rw [if_neg accepted, judgePi, if_neg accepted, q.judged_refused _ accepted]
    exact ⟨_, sqOf_updSq_same _ here, rfl⟩

/-! A poll arrives (R141) -/

theorem pollArrives_ring {s : State} {f slot : Nat} {q : Sq} (tag value : Nat) (here : sqOf s f slot = some q) :
    ∃ r, sqOf (pollArrives s f slot tag value false) f slot = some r ∧ r.ring = (q.judged (now s) value).ring := by
  have closed : sqOf (updSq (closeRead s tag) f slot fun q => { q with pollOut := false }) f slot = some { q with pollOut := false } :=
    sqOf_updSq_same _ ((sqOf_congr rfl f slot).trans here)
  obtain ⟨r, judged, ring⟩ := judgePi_ring value closed
  obtain ⟨x, after, same⟩ := ((fetch_rings _ f slot).trans (poll_rings _ f slot)).sqOf judged
  refine ⟨x, ?_, (same.trans ring).trans (q.judged_ring _ _)⟩
  simp only [pollArrives, Bool.false_eq_true, if_false, closed]
  exact after

theorem pollCompletion_judges {s : State} {f slot tag : Nat} {q : Sq} (value : BitVec 32) (here : sqOf s f slot = some q)
    (reads : readFor s f (.poll slot) = some tag) : Runs (.pollCompletion f slot value) s fun t => ∃ r, sqOf t f slot = some r ∧
      r.ring = (q.judged (now s) value.toNat).ring := by
  refine Does.of_exec (t := pollArrives s f slot tag value.toNat false) ?_ (execPollCompletion_frame f slot value s) (pollArrives_ring tag _ here)
  simp only [exec, execPollCompletion, reads]

/-! A fetch arrives (R142) -/

/-- A queue once its fetch has brought the entries. -/
def Sq.arrived (q : Sq) (entries : List (BitVec 512)) (ep : Bool) : Sq :=
  { q with
    ci := (q.ci + q.fetching) % (2 * q.size), announced := q.announced.drop q.fetching, fetching := 0,
    fetched := q.fetched ++ ((q.announced.take q.fetching).zip entries).map fun x =>
      { entry := x.2, vis := x.1.vis, held := x.1.held, poisoned := ep } }

theorem fetchArrives_ring {s : State} {f slot : Nat} {q : Sq} (tag : Nat) (entries : List (BitVec 512)) (ep : Bool)
    (here : sqOf s f slot = some q) :
    ∃ r, sqOf (fetchArrives s f slot tag entries ep) f slot = some r ∧ r.ring = (q.arrived entries ep).ring := by
  obtain ⟨fn, lives, found⟩ := fnOf_of_sqOf here
  obtain ⟨x, is, receives⟩ := received_funcIs ep lives
  have stands : sqOf (received s f ep) f slot = some q := by
    rw [sqOf_of_fnOf (is.fnOf (receives.lives.trans (fnOf_exists lives))), receives.queues, found]
  let u := updSq (closeRead (received s f ep) tag) f slot fun q => q.arrived entries ep
  have arrived : sqOf u f slot = some (q.arrived entries ep) := sqOf_updSq_same _ ((sqOf_congr rfl f slot).trans stands)
  let v := if isAdminRing f slot && entries.any fun e => !isSetPower e then updPwr u fun p => { p with busySeen := true, idle := 0 } else u
  have noted : sqOf v f slot = some (q.arrived entries ep) := by
    unfold v
    split
    · exact (sqOf_congr rfl f slot).trans arrived
    · exact arrived
  have run : fetchArrives s f slot tag entries ep = fetchAll (shadowWrite v f (4 * slot) (q.arrived entries ep).ci) :=
    show (match sqOf v f slot with
      | some q => fetchAll (shadowWrite v f (4 * slot) q.ci)
      | none => v) = _ by rw [noted]
  rw [run]
  exact ((shadowWrite_rings v f _ _).trans (fetchAll_rings _)).sqOf noted

theorem entryFetchCompletion_arrives {s : State} {f slot tag : Nat} {q : Sq} {entries : List (BitVec 512)} (ep : Bool)
    (here : sqOf s f slot = some q) (reads : readFor s f (.entry slot) = some tag) (whole : entries.length = q.fetching) :
    Runs (.entryFetchCompletion f slot entries ep) s fun t => ∃ r, sqOf t f slot = some r ∧ r.ring = (q.arrived entries ep).ring := by
  refine Does.of_exec (t := fetchArrives s f slot tag entries ep) ?_ (execEntryFetchCompletion_frame f slot entries ep s)
    (fetchArrives_ring tag entries ep here)
  simp only [exec, execEntryFetchCompletion, reads, here, whole, if_true]

/-! Reads go out (R141, R142) -/

theorem updSq_sqIs {s t : State} {f slot : Nat} {q : Sq} (g : Sq → Sq) (here : sqOf s f slot = some q)
    (same : t.funcs = (updSq s f slot g).funcs) : SqIs f slot (g q) s t := by
  obtain ⟨fn, lives, found⟩ := fnOf_of_sqOf here
  refine ⟨fn, _, fnOf_find lives, (updFunc_funcIs _ (fnOf_find lives)).of_same same, rfl, ?_, fun k other => Tab.find_upd_other _ _ other⟩
  rw [Tab.find_upd_same, found, Option.map_some]

theorem issueRead_reads (s : State) (f : Nat) (purpose : ReadPurpose) (express : Bool) (addr len : Nat) :
    ∃ x, (issueRead s f purpose express addr len).reads.find s.nextTag = some x ∧ x.func = f ∧ x.purpose = purpose ∧ x.issued = now s ∧
      x.quarantined = false :=
  ⟨_, Tab.find_put_same _ _ _, rfl, rfl, rfl, rfl⟩

section
variable {s : State} {f slot : Nat} {fn : Func} {q : Sq} (lives : fnOf s f = some fn) (here : sqOf s f slot = some q)
  (pulled : q.push = false) (runs : fetcherRuns s f slot = true) (ok : readOk s f (q.cls == .express) = true)

omit lives here runs ok in
include pulled in
theorem fetchCount_pulled : fetchCount fn q = min (min q.announced.length ((if q.cls = .express then 64 else 16) - q.fetched.length))
    (min (2 ^ q.log2 - q.ci % 2 ^ q.log2) (min fn.mrrs 4096 / 64)) := by
  simp only [fetchCount, fetchCap, Sq.size, pulled, Bool.false_eq_true, if_false, beq_iff_eq]

include lives here pulled runs ok

theorem fetch_issues (some : fetchCount fn q ≠ 0) (goes : q.fetchStop = false) (free : q.fetching = 0) :
    fetch s f slot = issueRead (updSq s f slot fun r => { r with fetching := fetchCount fn q }) f (.entry slot) (q.cls == .express)
      (q.base + 64 * (q.ci % 2 ^ q.log2)) (64 * fetchCount fn q) := by
  have size : q.size = 2 ^ q.log2 := by simp [Sq.size, pulled]
  simp [fetch, lives, here, pulled, goes, free, some, runs, ok, size]

theorem fetchIssue_issues (queued : s.fetchDue = [(f, slot)]) (goes : q.fetchStop = false) (free : q.fetching = 0) :
    let n := min (min q.announced.length ((if q.cls = .express then 64 else 16) - q.fetched.length))
      (min (2 ^ q.log2 - q.ci % 2 ^ q.log2) (min fn.mrrs 4096 / 64))
    n ≠ 0 → let t := fetchIssue s
      OnlyChanges [.funcs, .reads, .nextTag, .fetchDue, .out] s t ∧ SqIs f slot { q with fetching := n } s t ∧
      t.out = .hostRead s.nextTag f (.entry slot) (q.base + 64 * (q.ci % 2 ^ q.log2)) (64 * n) none :: s.out ∧
      ∃ x, t.reads.find s.nextTag = some x ∧ x.func = f ∧ x.purpose = .entry slot ∧ x.issued = now s := by
  rw [← fetchCount_pulled pulled]
  intro n some t
  let u := { s with fetchDue := [] }
  have issued : t = issueRead (updSq u f slot fun r => { r with fetching := n }) f (.entry slot) (q.cls == .express)
      (q.base + 64 * (q.ci % 2 ^ q.log2)) (64 * n) := by
    have one : t = fetch u f slot := by
      unfold t fetchIssue
      rw [queued]
      rfl
    exact one.trans (fetch_issues lives here pulled runs ok some goes free)
  obtain ⟨x, stands, func, purpose, time, -⟩ := issueRead_reads (updSq u f slot fun r => { r with fetching := n }) f (.entry slot)
    (q.cls == .express) (q.base + 64 * (q.ci % 2 ^ q.log2)) (64 * n)
  rw [← issued] at stands
  exact ⟨fetchIssue_frame s, updSq_sqIs (fun r => { r with fetching := n }) here ((congrArg State.funcs issued).trans rfl), congrArg State.out issued,
    x, stands, func, purpose, time⟩

theorem poll_issues {base : Nat} (shadow : fn.shadow = some base) (polled : q.pollInt ≠ 0) (free : q.pollOut = false)
    (time : due s q.pollDue = true) : poll s f slot =
      issueRead (updSq s f slot fun r => { r with pollOut := true, pollDue := after s q.pollInt }) f (.poll slot) (q.cls == .express)
        (base + 0x200 + 4 * slot) 4 := by
  have rings : q.polled = true := by simp [Sq.polled, pulled, polled]
  simp [poll, lives, here, shadow, rings, free, time, runs, ok]

theorem shadowPoll_issues {base : Nat} (shadow : fn.shadow = some base) (polled : q.pollInt ≠ 0) (free : q.pollOut = false)
    (time : due s q.pollDue = true) : Runs (.shadowPoll f slot) s fun t =>
      SqIs f slot { q with pollOut := true, pollDue := after s q.pollInt } s t ∧
      t.out.head? = some (.hostRead s.nextTag f (.poll slot) (base + 0x200 + 4 * slot) 4 none) ∧ t.nextTag = s.nextTag + 1 ∧
      ∃ x, t.reads.find s.nextTag = some x ∧ x.func = f ∧ x.purpose = .poll slot ∧ x.issued = now s ∧ x.quarantined = false := by
  have issued := poll_issues lives here pulled runs ok shadow polled free time
  refine Does.of_exec (t := poll s f slot) rfl (execShadowPoll_frame f slot s) ?_
  rw [issued]
  exact ⟨updSq_sqIs (fun r => { r with pollOut := true, pollDue := after s q.pollInt }) here rfl, rfl, rfl, issueRead_reads _ _ _ _ _ _⟩

end

end Sys2Proof.Machine
end

section
/-! Reads that fail, time out or come late (R125 to R128): with nothing that waits for a tracker, they change their queue and the
registers of their function. -/

namespace Sys2Proof.Machine

/-! Requests that a freed tracker lets go on (R128) -/

theorem Tab.mem_of_find {α : Type} {t : Tab α} {k : Nat} {v : α} (found : t.find k = some v) : (k, v) ∈ t := by
  induction t with
  | nil => cases found
  | cons p t ih =>
    obtain ⟨a, x⟩ := p
    unfold Tab.find at found
    split at found
    next same =>
      cases found
      exact same ▸ List.mem_cons_self
    next => exact List.mem_cons_of_mem _ (ih found)

/-- No list read, no transfer and no page request group waits for a tracker to come free. -/
structure NoneWaits (s : State) : Prop where
  lists : ∀ p ∈ s.ctxs, ∀ d k, p.2.wait ≠ .list d k
  channels : ∀ m ∈ s.movers, ∀ c ∈ m.2.chans, c.2.state ≠ .running ∧ c.2.causes.getLsbD 1 = false
  groups : ∀ g ∈ s.xlate.prgs, g.sent = true

theorem NoneWaits.of_frame {s t : State} {ps : List Part} (h : NoneWaits s) (frame : OnlyChanges ps s t)
    (apart : .ctxs ∉ ps ∧ .movers ∉ ps ∧ .xlate ∉ ps := by decide) : NoneWaits t := by
  obtain ⟨lists, channels, groups⟩ := h
  have ctxs : t.ctxs = s.ctxs := frame .ctxs apart.1
  have movers : t.movers = s.movers := frame .movers apart.2.1
  have xlate : t.xlate = s.xlate := frame .xlate apart.2.2
  exact ⟨ctxs ▸ lists, movers ▸ channels, xlate ▸ groups⟩

section
variable {s : State} (none : NoneWaits s)
include none

theorem askLists_none (cl : Cls) : askLists cl s = s := by
  refine List.foldl_fixed' (fun cx => ?_) _
  unfold askList
  split
  next => rfl
  next c here =>
    split
    next d k waits => exact absurd waits (none.lists _ (Tab.mem_of_find here) d k)
    next => rfl

theorem recheckClass_none (cl : Cls) : recheckClass cl s = s := by
  have nothing : (s.movers.map fun m =>
      (m.2.chans.filter fun c => c.2.causes.getLsbD 1 && c.2.cls == cl).map fun c => (m.1, c.1)).flatten = [] := by
    simp only [List.flatten_eq_nil_iff, List.forall_mem_map, List.map_eq_nil_iff, List.filter_eq_nil_iff]
    intro m mover c chan
    rw [(none.channels m mover c chan).2]
    exact Bool.false_ne_true
  rw [recheckClass, nothing]
  rfl

theorem pumpAll_none (cl : Cls) : pumpAll cl s = s := by
  have nothing : (s.movers.map fun m => (m.2.chans.filter fun c => c.2.state == .running && c.2.src.kind == 1 && c.2.cls == cl).map fun c =>
      (m.1, c.1, c.2.ctx)).flatten = [] := by
    simp only [List.flatten_eq_nil_iff, List.forall_mem_map, List.map_eq_nil_iff, List.filter_eq_nil_iff]
    intro m mover c chan
    simp [(none.channels m mover c chan).1]
  rw [pumpAll, nothing]
  rfl

theorem sendAllPrgs_none : sendAllPrgs s = s := by
  have nothing : (s.xlate.prgs.filter fun g => !g.sent) = [] := by
    rw [List.filter_eq_nil_iff]
    intro g group
    simp [none.groups g group]
  rw [sendAllPrgs, nothing]
  rfl

theorem kickClass_fetches (cl : Cls) : kickClass s cl = fetchClass cl s := by
  have fetched : NoneWaits (fetchClass cl s) := none.of_frame (fetchClass_frame cl s)
  rw [kickClass, askLists_none fetched, recheckClass_none fetched, pumpAll_none fetched]

/-- With nothing else that waits, a freed tracker lets fetches go on alone. -/
theorem kick_fetches : kick s = fetchAll s := by
  have express := none.of_frame (fetchClass_frame .express s)
  have standard := express.of_frame (fetchClass_frame .standard _)
  have bulk := standard.of_frame (fetchClass_frame .bulk _)
  simp only [kick, List.foldl_cons, List.foldl_nil, kickClass_fetches none, kickClass_fetches express, kickClass_fetches standard,
    sendAllPrgs_none bulk]
  rfl

end

/-- No fetch of a queue may be issued. -/
def Sq.idle (q : Sq) : Prop := q.push = true ∨ q.fetchStop = true ∨ q.fetching ≠ 0 ∨ q.announced = []

/-- Nothing waits for a tracker to come free, entry fetches included. -/
structure Settled (s : State) : Prop extends NoneWaits s where
  rings : ∀ f slot q, sqOf s f slot = some q → q.idle

theorem Unblocked.settled {s : State} (h : Unblocked s) : Settled s := by
  obtain ⟨lists, channels, groups, rings⟩ := h
  refine ⟨⟨lists, channels, groups⟩, fun f slot q here => ?_⟩
  obtain ⟨fn, lives, found⟩ := fnOf_of_sqOf here
  exact rings _ (Tab.mem_of_find (fnOf_find lives)) _ (Tab.mem_of_find found)

theorem fetch_idle {s : State} {f slot : Nat} (idle : ∀ q, sqOf s f slot = some q → q.idle) : fetch s f slot = s := by
  unfold fetch
  split
  next fn q _ here =>
    rcases idle q here with push | stop | out | none
    · simp [push]
    · simp [stop]
    · simp [out]
    · simp [fetchCount, none]
  next => rfl

theorem Settled.kick {s : State} (h : Settled s) : kick s = s := by
  have class_ (cl : Cls) : fetchClass cl s = s := List.foldl_fixed' (fun x => fetch_idle (h.rings x.1 x.2)) _
  rw [kick_fetches h.toNoneWaits, fetchAll, class_, class_, class_]

theorem idle_upd {t : Tab Sq} {slot : Nat} {g : Sq → Sq} (idle : ∀ j q, t.find j = some q → q.idle) (keeps : ∀ q, q.idle → (g q).idle)
    (j : Nat) (q : Sq) (found : (t.upd slot g).find j = some q) : q.idle := by
  by_cases same : j = slot
  · rw [same, Tab.find_upd_same] at found
    obtain ⟨p, here, rfl⟩ := Option.map_eq_some_iff.1 found
    exact keeps p (idle slot p here)
  · rw [Tab.find_upd_other _ _ same] at found
    exact idle j q found

/-! A function that changes but for its messages -/

section
variable {s t u : State} {f : Nat} {x : Func}

theorem FuncStill.fnOf (h : FuncStill f x s t) (lives : x.exists_ = true) : ∃ y, fnOf t f = some y ∧ y.still = x.still := by
  obtain ⟨y, is, still⟩ := h
  exact ⟨y, is.fnOf ((congrArg Func.exists_ still : y.still.exists_ = x.still.exists_).trans lives), still⟩

theorem FuncStill.sqOf (h : FuncStill f x s t) (lives : x.exists_ = true) (slot : Nat) : sqOf t f slot = x.sqs.find slot := by
  obtain ⟨y, here, still⟩ := h.fnOf lives
  rw [sqOf_of_fnOf here, show y.sqs = x.sqs from (congrArg Func.sqs still : y.still.sqs = x.still.sqs)]

/-- A further change of the function, of which neither its messages nor their absence makes a difference. -/
theorem FuncStill.map {g : Func → Func} (h : FuncStill f x s t) (lives : x.exists_ = true) (keeps : ∀ y, (g y).still = (g y.still).still)
    (k : ∀ y, Machine.fnOf t f = some y → FuncStill f (g y) t u) : FuncStill f (g x) s u := by
  obtain ⟨y, is, still⟩ := h
  obtain ⟨z, changed, still'⟩ := k y (is.fnOf ((congrArg Func.exists_ still : y.still.exists_ = x.still.exists_).trans lives))
  refine ⟨z, is.trans changed, ?_⟩
  rw [still', keeps y, still, ← keeps x]

/-- A function whose queues stay idle, and nothing that could wait elsewhere, leave the part settled. -/
theorem FuncStill.settled {ps : List Part} (h : FuncStill f x s t) (settled : Settled s) (frame : OnlyChanges ps s t)
    (idle : ∀ slot q, x.sqs.find slot = some q → q.idle) (apart : .ctxs ∉ ps ∧ .movers ∉ ps ∧ .xlate ∉ ps := by decide) : Settled t := by
  obtain ⟨y, ⟨found, others⟩, still⟩ := h
  refine ⟨settled.toNoneWaits.of_frame frame apart, fun k slot q here => ?_⟩
  obtain ⟨z, lives, queue⟩ := fnOf_of_sqOf here
  obtain ⟨stands, exist⟩ := fnOf_eq_some.1 lives
  by_cases same : k = f
  · subst same
    obtain rfl := Option.some.inj (stands.symm.trans found)
    exact idle slot q ((congrArg (fun w : Func => w.sqs.find slot) still).symm.trans queue)
  · rw [others k same] at stands
    exact settled.rings k slot q ((sqOf_of_fnOf (fnOf_eq_some.2 ⟨stands, exist⟩) slot).trans queue)

end

theorem Settled.idle {s : State} {f : Nat} {fn : Func} (h : Settled s) (lives : fnOf s f = some fn) (slot : Nat) (q : Sq)
    (found : fn.sqs.find slot = some q) : q.idle :=
  h.rings f slot q ((sqOf_of_fnOf lives slot).trans found)

theorem updSq_still {s : State} {f : Nat} {fn : Func} (slot : Nat) (g : Sq → Sq) (lives : fnOf s f = some fn) :
    FuncStill f { fn with sqs := fn.sqs.upd slot g } s (updSq s f slot g) :=
  (updFunc_funcIs _ (fnOf_find lives)).still

/-! What a read that fails, times out or comes late counts (R126, R127) -/

/-- A ring whose poll did not succeed comes again at a time. -/
def Sq.pollAgain (q : Sq) (d : Word) : Sq := { q with pollOut := false, pollDue := d }

/-- A ring whose fetch did not succeed is not fetched from. -/
def Sq.fetchStops (q : Sq) : Sq := { q with fetchStop := true, fetching := 0 }

/-- What a timeout counts at its function. -/
def timedOut (fn : Func) : Func := { aerSet fn 14 with cntCto := satInc fn.cntCto }

/-- What a late completion counts at its function. -/
def cameLate (fn : Func) : Func := { aerSet fn 16 with cntUnexp := satInc fn.cntUnexp }

theorem countCto_still {s : State} {f : Nat} {fn : Func} (lives : fnOf s f = some fn) :
    FuncStill f (FnBit.cto.set (timedOut fn)) s (countCto s f) :=
  (updFunc_raiseFn_still (u := markFresh (updFunc s f timedOut) (.fn f) 0x20 0 1) .cto lives rfl rfl).of_same rfl

theorem unexpected_still {s : State} {f : Nat} {fn : Func} (lives : fnOf s f = some fn) :
    FuncStill f (FnBit.unexp.set (cameLate fn)) s (unexpected s f) :=
  (updFunc_raiseFn_still (u := markFresh (updFunc s f cameLate) (.fn f) 0x24 0 1) .unexp lives rfl rfl).of_same rfl

theorem statusRecord_still {s : State} {f : Nat} {fn : Func} (st : HostStatus) (lives : fnOf s f = some fn) :
    ∃ c, FuncStill f { fn with cmdStat := c } s (statusRecord s f st) := by
  have found := fnOf_find lives
  cases st
  · exact ⟨fn.cmdStat, (FuncIs.refl found).still⟩
  · exact ⟨_, ((updFunc_funcIs (fun fn => { fn with cmdStat := fn.cmdStat ||| 0x2000#16 }) found).of_same rfl).still⟩
  · exact ⟨_, ((updFunc_funcIs (fun fn => { fn with cmdStat := fn.cmdStat ||| 0x1000#16 }) found).of_same rfl).still⟩
  · exact ⟨fn.cmdStat, ((FuncIs.refl found).of_same rfl).still⟩

theorem statusRecord_aer (s : State) (f : Nat) {st : HostStatus} {kind : Nat}
    (row : (st, kind) ∈ [(HostStatus.unsupported, 4), (.abort, 5), (.retry, 6)]) : Out.aer f kind ∈ (statusRecord s f st).out := by
  simp only [List.mem_cons, Prod.mk.injEq, List.not_mem_nil, or_false] at row
  rcases row with ⟨rfl, rfl⟩ | ⟨rfl, rfl⟩ | ⟨rfl, rfl⟩ <;> exact List.mem_cons_self

theorem readFails_poll {s : State} {r : HostRead} {slot : Nat} {q : Sq} (purpose : r.purpose = .poll slot)
    (here : sqOf s r.func slot = some q) : readFails s r = updSq s r.func slot fun p => p.pollAgain (after s q.pollInt) := by
  unfold readFails
  rw [purpose]
  simp only [here, Option.map_some, Option.getD_some]
  rfl

theorem readFails_entry {s : State} {r : HostRead} {slot : Nat} (purpose : r.purpose = .entry slot) :
    readFails s r = raiseFn (updSq s r.func slot Sq.fetchStops) r.func .fetchTmo := by
  unfold readFails
  rw [purpose]
  rfl

section
variable {s : State} {r : HostRead} {slot tag : Nat} {fn : Func} {q : Sq} (settled : Settled s) (lives : fnOf s r.func = some fn)
  (found : fn.sqs.find slot = some q)
include settled lives

/-! A poll or a fetch fails, or times out (R126) -/

include found in
/-- A poll fails after its failure was recorded at its function. -/
theorem pollFails {t : State} {x : Func} (purpose : r.purpose = .poll slot) (recorded : FuncStill r.func x s t)
    (exist : x.exists_ = fn.exists_) (sqs : x.sqs = fn.sqs) (frame : OnlyChanges [.ports, .funcs, .reads, .fresh, .out] s t) :
    let u := readFails t r
    FuncStill r.func { x with sqs := x.sqs.upd slot fun p => p.pollAgain (after s q.pollInt) } s u ∧ Settled u ∧
      sqOf u r.func slot = some (q.pollAgain (after s q.pollInt)) ∧ u.reads = t.reads ∧ u.out = t.out := by
  have alive := exist.trans (fnOf_exists lives)
  have here : sqOf t r.func slot = some q := (recorded.sqOf alive slot).trans (sqs ▸ found)
  have clock : after t q.pollInt = after s q.pollInt :=
    congrArg (fun tt : Timetable => tsAdd tt.kActive (tsOf tt.cycle tt.slot) q.pollInt) (frame .tt (by decide))
  rw [readFails_poll purpose here, clock]
  have failed := recorded.map (g := fun y => { y with sqs := y.sqs.upd slot fun p => p.pollAgain (after s q.pollInt) }) alive
    (fun _ => rfl) fun y here => updSq_still slot (fun p => p.pollAgain (after s q.pollInt)) here
  refine ⟨failed, failed.settled settled ((updSq_frame _ _ _ _).step frame) (idle_upd (sqs ▸ settled.idle lives) fun _ idle => idle), ?_,
    rfl, rfl⟩
  rw [failed.sqOf alive, Tab.find_upd_same, sqs, found, Option.map_some]

/-- The tag of a read that has timed out. -/
def quarantine (s : State) (tag : Nat) : State := { s with reads := s.reads.upd tag fun r => { r with quarantined := true } }

omit settled in
theorem quarantine_still : FuncStill r.func (FnBit.cto.set (timedOut fn)) s (quarantine (countCto s r.func) tag) :=
  (countCto_still lives).of_same rfl

omit settled lives in
theorem quarantine_frame : OnlyChanges [.ports, .funcs, .reads, .fresh, .out] s (quarantine (countCto s r.func) tag) := by
  have moves : OnlyChanges [.reads] (countCto s r.func) (quarantine (countCto s r.func) tag) := by
    intro p apart
    cases p
    case reads => exact absurd List.mem_cons_self apart
    all_goals rfl
  exact moves.step ((countCto_frame s r.func).step (.refl _ s))

omit settled lives in
theorem quarantine_reads : (quarantine (countCto s r.func) tag).reads = s.reads.upd tag fun r => { r with quarantined := true } := by
  rw [quarantine, show (countCto s r.func).reads = s.reads from countCto_frame s r.func .reads (by decide)]

include found in
theorem timeoutRead_poll (purpose : r.purpose = .poll slot) : let t := timeoutRead s tag r
    FuncStill r.func { FnBit.cto.set (timedOut fn) with sqs := fn.sqs.upd slot fun p => p.pollAgain (after s q.pollInt) } s t ∧ Settled t ∧
      sqOf t r.func slot = some (q.pollAgain (after s q.pollInt)) ∧
      t.reads = s.reads.upd tag fun r => { r with quarantined := true } := by
  obtain ⟨failed, rests, queue, reads, -⟩ := pollFails settled lives found purpose (quarantine_still lives (tag := tag)) rfl rfl quarantine_frame
  have run : timeoutRead s tag r = kick (readFails (quarantine (countCto s r.func) tag) r) := by
    simp only [timeoutRead, isPageReq, purpose, Bool.false_eq_true, if_false]
    rfl
  rw [run, rests.kick]
  exact ⟨failed, rests, queue, reads.trans quarantine_reads⟩

include found in
theorem timeoutRead_entry (purpose : r.purpose = .entry slot) : let t := timeoutRead s tag r
    FuncStill r.func (FnBit.fetchTmo.set { FnBit.cto.set (timedOut fn) with sqs := fn.sqs.upd slot Sq.fetchStops }) s t ∧
      sqOf t r.func slot = some q.fetchStops ∧ t.reads = s.reads.upd tag fun r => { r with quarantined := true } := by
  have alive := (fnOf_exists lives)
  have stopped := (quarantine_still lives (tag := tag)).map (g := fun y => { y with sqs := y.sqs.upd slot Sq.fetchStops }) alive
    (fun _ => rfl) fun y here => updSq_still slot Sq.fetchStops here
  have failed := stopped.map (g := FnBit.fetchTmo.set) alive (fun _ => rfl) fun y here => raiseFn_still .fetchTmo here
  have frame := (raiseFn_frame _ r.func .fetchTmo).step ((updSq_frame _ r.func slot Sq.fetchStops).step (quarantine_frame (s := s) (r := r) (tag := tag)))
  have rests := failed.settled settled frame (idle_upd (t := fn.sqs) (settled.idle lives) fun _ _ => .inr (.inl rfl))
  have run : timeoutRead s tag r = kick (readFails (quarantine (countCto s r.func) tag) r) := by
    simp only [timeoutRead, isPageReq, purpose, Bool.false_eq_true, if_false]
    rfl
  rw [run, readFails_entry purpose, rests.kick]
  refine ⟨failed, ?_, ?_⟩
  · rw [failed.sqOf alive]
    exact (Tab.find_upd_same _ _ _).trans (congrArg (Option.map Sq.fetchStops) found)
  · exact (raiseFn_frame _ _ _ .reads (by decide)).trans quarantine_reads

/-! A late completion (R127) -/

theorem lateRead_counts (sorted : Tab.sorted s.reads = true) : let t := lateRead s tag r
    FuncStill r.func (FnBit.unexp.set (cameLate fn)) s t ∧ t.reads.find tag = none := by
  have closed : fnOf (closeRead s tag) r.func = some fn := lives
  have late : FuncStill r.func (FnBit.unexp.set (cameLate fn)) s (unexpected (closeRead s tag) r.func) := unexpected_still closed
  have frame : OnlyChanges [.ports, .funcs, .reads, .fresh, .out] s (unexpected (closeRead s tag) r.func) :=
    (unexpected_frame _ r.func).step ((closeRead_frame s tag).step (.refl _ s))
  have rests := late.settled settled frame (show ∀ j p, fn.sqs.find j = some p → p.idle from settled.idle lives)
  rw [lateRead, rests.kick]
  refine ⟨late, ?_⟩
  rw [show (unexpected (closeRead s tag) r.func).reads = s.reads.del tag from unexpected_frame _ _ .reads (by decide)]
  exact Tab.find_del_same sorted

end

end Sys2Proof.Machine
end

section
/-! Host read completions and timeouts (R126, R127, R141): the outcome for a poll and for a fetch, and O24. -/

namespace Sys2Proof.Machine

section
variable {s : State} {x : HostRead} {slot tag : Nat} {q : Sq} (reads : s.reads.find tag = some x)
include reads

theorem exec_lateHostCompletion (late : x.quarantined = true) : exec (.lateHostCompletion tag) s = .next (lateRead s tag x) := by
  simp only [exec, execLateHostCompletion, reads, late, if_true]

theorem exec_completionTimeout (fresh : x.quarantined = false) (time : due s x.due = true) :
    exec (.completionTimeout tag) s = .next (timeoutRead s tag x) := by
  simp only [exec, execCompletionTimeout, reads, fresh, time, Bool.not_true, Bool.or_false, Bool.false_eq_true, if_false]

theorem exec_hostReadCompletion_poll (fresh : x.quarantined = false) (purpose : x.purpose = .poll slot) (st : HostStatus) (bytes : List Byte)
    (ep : Bool) : exec (.hostReadCompletion tag st bytes ep) s = .next (
      if past s x.due then lateRead (timeoutRead s tag x) tag x
      else if st == .success then kick (pollArrives s x.func slot tag (leNat (bytes.take 4)) ep)
      else kick (readFails (statusRecord (closeRead s tag) x.func st) x)) := by
  simp only [exec, execHostReadCompletion, reads, isPageReq, readArrives, purpose, fresh, Bool.false_eq_true, if_false]

variable (here : sqOf s x.func slot = some q) (settled : Settled s) (sorted : Tab.sorted s.reads = true)
  (fresh : x.quarantined = false)
include settled

include sorted here in
theorem lateHostCompletion_counts (late : x.quarantined = true) : Runs (.lateHostCompletion tag) s fun t => t.reads.find tag = none ∧
    ∃ a b, s.funcs.find x.func = some a ∧ t.funcs.find x.func = some b ∧ b.stUnexp = true ∧ b.cntUnexp = satInc a.cntUnexp := by
  obtain ⟨fn, lives, -⟩ := fnOf_of_sqOf here
  obtain ⟨⟨y, is, still⟩, freed⟩ := lateRead_counts (tag := tag) settled lives sorted
  exact Does.of_exec (exec_lateHostCompletion reads late) (execLateHostCompletion_frame tag s)
    ⟨freed, fn, y, fnOf_find lives, is.1, (congrArg Func.stUnexp still : y.still.stUnexp = _),
      (congrArg Func.cntUnexp still : y.still.cntUnexp = _)⟩

include here fresh

theorem completionTimeout_poll (purpose : x.purpose = .poll slot) (time : due s x.due = true) : Runs (.completionTimeout tag) s fun t =>
    t.reads.find tag = some { x with quarantined := true } ∧ sqOf t x.func slot = some { q with pollOut := false, pollDue := after s q.pollInt } ∧
    ∃ a b, s.funcs.find x.func = some a ∧ t.funcs.find x.func = some b ∧ b.stCto = true ∧ b.cntCto = satInc a.cntCto := by
  obtain ⟨fn, lives, found⟩ := fnOf_of_sqOf here
  obtain ⟨⟨y, is, still⟩, -, queue, moved⟩ := timeoutRead_poll (tag := tag) settled lives found purpose
  refine Does.of_exec (exec_completionTimeout reads fresh time) (execCompletionTimeout_frame tag s) ⟨?_, queue, fn, y, fnOf_find lives, is.1,
    (congrArg Func.stCto still : y.still.stCto = _), (congrArg Func.cntCto still : y.still.cntCto = _)⟩
  rw [moved, Tab.find_upd_same, reads, Option.map_some]

theorem completionTimeout_entry (purpose : x.purpose = .entry slot) (time : due s x.due = true) : Runs (.completionTimeout tag) s fun t =>
    t.reads.find tag = some { x with quarantined := true } ∧ sqOf t x.func slot = some { q with fetchStop := true, fetching := 0 } ∧
    ∃ a b, s.funcs.find x.func = some a ∧ t.funcs.find x.func = some b ∧ b.stFetchTmo = true ∧ b.cntCto = satInc a.cntCto := by
  obtain ⟨fn, lives, found⟩ := fnOf_of_sqOf here
  obtain ⟨⟨y, is, still⟩, queue, moved⟩ := timeoutRead_entry (tag := tag) settled lives found purpose
  refine Does.of_exec (exec_completionTimeout reads fresh time) (execCompletionTimeout_frame tag s) ⟨?_, queue, fn, y, fnOf_find lives, is.1,
    (congrArg Func.stFetchTmo still : y.still.stFetchTmo = _), (congrArg Func.cntCto still : y.still.cntCto = _)⟩
  rw [moved, Tab.find_upd_same, reads, Option.map_some]

variable (purpose : x.purpose = .poll slot)
include purpose

/-- A poll's data that comes in time is judged, and fetching goes on where it may. -/
theorem hostReadCompletion_judges (time : past s x.due = false) (bytes : List Byte) :
    Runs (.hostReadCompletion tag .success bytes false) s fun t => ∃ r, sqOf t x.func slot = some r ∧
      r.ring = (q.judged (now s) (leNat (bytes.take 4))).ring := by
  have run := exec_hostReadCompletion_poll reads fresh purpose .success bytes false
  rw [time, if_neg Bool.false_ne_true, beq_self_eq_true, if_pos rfl] at run
  obtain ⟨r, judged, ring⟩ := pollArrives_ring tag (leNat (bytes.take 4)) here
  obtain ⟨y, stands, same⟩ := (fetchAll_rings _).sqOf judged
  refine Does.of_exec run (execHostReadCompletion_frame tag .success bytes false s) ⟨y, ?_, same.trans ring⟩
  rw [kick_fetches (settled.toNoneWaits.of_frame (pollArrives_frame s x.func slot tag _ false))]
  exact stands

include sorted

/-- A poll that ends with a status other than success comes again after its interval. -/
theorem hostReadCompletion_fails (time : past s x.due = false) {st : HostStatus} {kind : Nat}
    (row : (st, kind) ∈ [(HostStatus.unsupported, 4), (.abort, 5), (.retry, 6)]) (bytes : List Byte) (ep : Bool) :
    Runs (.hostReadCompletion tag st bytes ep) s fun t => t.reads.find tag = none ∧ Out.aer x.func kind ∈ t.out ∧
      sqOf t x.func slot = some { q with pollOut := false, pollDue := after s q.pollInt } := by
  obtain ⟨fn, lives, found⟩ := fnOf_of_sqOf here
  obtain ⟨c, recorded⟩ := statusRecord_still (s := closeRead s tag) st lives
  have frame : OnlyChanges [.ports, .funcs, .reads, .fresh, .out] s (statusRecord (closeRead s tag) x.func st) :=
    (statusRecord_frame _ _ _).step ((closeRead_frame s tag).step (.refl _ s))
  obtain ⟨-, rests, queue, moved, out⟩ := pollFails settled lives found purpose recorded rfl rfl frame
  have failed : (st == HostStatus.success) = false := by
    simp only [List.mem_cons, Prod.mk.injEq, List.not_mem_nil, or_false] at row
    rcases row with ⟨rfl, -⟩ | ⟨rfl, -⟩ | ⟨rfl, -⟩ <;> rfl
  have run := exec_hostReadCompletion_poll reads fresh purpose st bytes ep
  rw [time, failed, if_neg Bool.false_ne_true, if_neg Bool.false_ne_true, rests.kick] at run
  refine Does.of_exec run (execHostReadCompletion_frame tag st bytes ep s) ⟨?_, out ▸ statusRecord_aer _ _ row, queue⟩
  rw [moved, show (statusRecord (closeRead s tag) x.func st).reads = s.reads.del tag from statusRecord_frame _ _ _ .reads (by decide)]
  exact Tab.find_del_same sorted

/-- A completion after the check slot of its timeout finds the read timed out, and is late. -/
theorem hostReadCompletion_late (time : past s x.due = true) (st : HostStatus) (bytes : List Byte) (ep : Bool) :
    Runs (.hostReadCompletion tag st bytes ep) s fun t => t.reads.find tag = none ∧
      sqOf t x.func slot = some { q with pollOut := false, pollDue := after s q.pollInt } ∧
      ∃ a b, s.funcs.find x.func = some a ∧ t.funcs.find x.func = some b ∧ b.cntCto = satInc a.cntCto ∧ b.cntUnexp = satInc a.cntUnexp := by
  obtain ⟨fn, lives, found⟩ := fnOf_of_sqOf here
  obtain ⟨timed, rests, queue, moved⟩ := timeoutRead_poll (tag := tag) settled lives found purpose
  have alive := (fnOf_exists lives)
  have sorted' : Tab.sorted (timeoutRead s tag x).reads = true := moved ▸ Tab.sorted_upd sorted
  obtain ⟨w, stands, -⟩ := timed.fnOf alive
  obtain ⟨-, freed⟩ := lateRead_counts (tag := tag) rests stands sorted'
  have counted := timed.map (g := fun y => FnBit.unexp.set (cameLate y)) alive (fun _ => rfl) fun y here =>
    (lateRead_counts (tag := tag) rests here sorted').1
  have same : sqOf (lateRead (timeoutRead s tag x) tag x) x.func slot = sqOf (timeoutRead s tag x) x.func slot :=
    (counted.sqOf alive slot).trans (timed.sqOf alive slot).symm
  obtain ⟨y, is, still⟩ := counted
  exact Does.of_exec ((exec_hostReadCompletion_poll reads fresh purpose st bytes ep).trans (congrArg _ (if_pos time)))
    (execHostReadCompletion_frame tag st bytes ep s) ⟨freed, same.trans queue, fn, y, fnOf_find lives, is.1,
      (congrArg Func.cntCto still : y.still.cntCto = _), (congrArg Func.cntUnexp still : y.still.cntUnexp = _)⟩

end

/-! O24 -/

theorem judged_accepted_fields {q r : Sq} {t : Word} {p : Nat} (ring : r.ring = (q.judged t p).ring)
    (accepted : piAccepted q.size q.pi q.ci p = true) : r.pi = p ∧ r.ci = q.ci ∧ r.fetchStop = false ∧
      r.announced = q.announced ++ List.replicate (idxDist q.size q.pi p) { vis := t } := by
  rw [q.judged_accepted t accepted] at ring
  have kept {α : Type} (field : Sq → α) := congrArg field ring
  exact ⟨kept Sq.pi, kept Sq.ci, kept Sq.fetchStop, kept Sq.announced⟩

theorem judged_refused_fields {q r : Sq} {t : Word} {p : Nat} (ring : r.ring = (q.judged t p).ring)
    (refused : ¬piAccepted q.size q.pi q.ci p = true) : r.pi = q.pi ∧ r.ci = q.ci ∧ r.announced = q.announced ∧ r.overrun = true := by
  rw [q.judged_refused t refused] at ring
  have kept {α : Type} (field : Sq → α) := congrArg field ring
  exact ⟨kept Sq.pi, kept Sq.ci, kept Sq.announced, kept Sq.overrun⟩

theorem arrived_fields {q r : Sq} {entries : List (BitVec 512)} {ep : Bool} (ring : r.ring = (q.arrived entries ep).ring) :
    r.ci = (q.ci + q.fetching) % (2 * q.size) ∧ r.announced = q.announced.drop q.fetching ∧ r.pi = q.pi ∧
      r.fetched = q.fetched ++ ((q.announced.take q.fetching).zip entries).map fun x =>
        { entry := x.2, vis := x.1.vis, held := x.1.held, poisoned := ep } := by
  have kept {α : Type} (field : Sq → α) := congrArg field ring
  exact ⟨kept Sq.ci, kept Sq.announced, kept Sq.pi, kept Sq.fetched⟩

/-- Settles O24: fetches, polls and an abandoned entry leave every queue's ring, so what arrives stands in its own queue; and with
nothing that waits for a tracker a failed read changes its queue alone. -/
theorem fetchesAndPolls : Obligations.FetchesAndPolls := by
  unfold Obligations.FetchesAndPolls
  intro f slot tag s q here
  refine ⟨fun entries ep reads whole => ?_, fun fn lives queued pulled goes free runs ok =>
      fetchIssue_issues lives here pulled runs ok queued goes free,
    fun fn base lives shadow pulled polled free time runs ok => shadowPoll_issues lives here pulled runs ok shadow polled free time,
    fun value reads => ?_, fun x reads func unblocked sorted => ?_⟩
  · refine Runs.imp (entryFetchCompletion_arrives ep here reads whole) ?_
    rintro t ⟨r, stands, ring⟩
    exact ⟨r, stands, arrived_fields ring⟩
  · refine Runs.imp (pollCompletion_judges value here reads) ?_
    rintro t ⟨r, stands, ring⟩
    split
    next accepted =>
      obtain ⟨pi, ci, goes, announced⟩ := judged_accepted_fields ring accepted
      exact ⟨r, stands, ci, pi, goes, announced⟩
    next refused =>
      obtain ⟨pi, ci, announced, overrun⟩ := judged_refused_fields ring refused
      exact ⟨r, stands, ci, pi, announced, overrun⟩
  · subst func
    have settled := unblocked.settled
    refine ⟨fun bytes ep fresh purpose => ⟨fun time => ⟨fun st kind row => ?_, fun accepted => ?_⟩, fun time st => ?_⟩, fun fresh time =>
      ⟨fun purpose => completionTimeout_poll reads here settled fresh purpose time,
        fun purpose => completionTimeout_entry reads here settled fresh purpose time⟩,
      lateHostCompletion_counts reads here settled sorted⟩
    · exact hostReadCompletion_fails reads here settled sorted fresh purpose time row bytes ep
    · refine Runs.imp (hostReadCompletion_judges reads here settled fresh purpose time bytes) ?_
      rintro t ⟨r, stands, ring⟩
      obtain ⟨pi, ci, goes, -⟩ := judged_accepted_fields ring accepted
      exact ⟨r, stands, pi, ci, goes⟩
    · exact hostReadCompletion_late reads here settled sorted fresh purpose time st bytes ep

end Sys2Proof.Machine
end

section
/-! Ring indices (R137 to R139): the outstanding count, when N entries are outstanding, and the consumer index of a completion ring. -/

namespace Sys2Proof.Machine

/-! The outstanding count (R137) -/

/-- The entries from one index up to another are their difference modulo 2N. -/
theorem idxDist_eq_emod {n : Nat} (pos : 0 < n) (a b : Nat) : (idxDist n a b : Int) = ((b : Int) - a) % (2 * n : Nat) := by
  have below : a % (2 * n) ≤ b + 2 * n := (Nat.mod_lt a (by omega)).le.trans (Nat.le_add_left _ _)
  rw [idxDist, Int.natCast_emod, Int.natCast_sub below, Int.natCast_add, Int.natCast_emod, ← Int.emod_sub_emod, Int.add_emod_right,
    Int.emod_sub_emod, Int.sub_emod_emod]

section
variable {n a b : Nat} (ha : a < 2 * n) (hb : b < 2 * n)
include ha hb

theorem idxDist_of_lt : idxDist n a b = if a ≤ b then b - a else b + 2 * n - a := by
  rw [idxDist, Nat.mod_eq_of_lt ha]
  split
  next le => rw [show b + 2 * n - a = b - a + 2 * n by omega, Nat.add_mod_right, Nat.mod_eq_of_lt (by omega)]
  next => exact Nat.mod_eq_of_lt (by omega)

theorem idxDist_eq_zero_iff : idxDist n a b = 0 ↔ b = a := by
  rw [idxDist_of_lt ha hb]
  split <;> omega

/-- N entries are outstanding exactly when one index is the other moved on by half of the index range. -/
theorem idxDist_eq_size_iff : idxDist n a b = n ↔ b = if a < n then a + n else a - n := by
  rw [idxDist_of_lt ha hb]
  split <;> split <;> omega

end

/-- Bit k of an index below 2^(k + 1) is its top bit: to flip it is to move the index by 2^k. -/
theorem xor_two_pow_of_lt {k a : Nat} (ha : a < 2 * 2 ^ k) : a ^^^ 2 ^ k = if a < 2 ^ k then a + 2 ^ k else a - 2 ^ k := by
  have pos : 0 < 2 ^ k := Nat.two_pow_pos k
  have low : (a ^^^ 2 ^ k) % 2 ^ k = a % 2 ^ k := by rw [Nat.xor_mod_two_pow, Nat.mod_self, Nat.xor_zero]
  have top : (a ^^^ 2 ^ k) / 2 ^ k = a / 2 ^ k ^^^ 1 := by rw [Nat.xor_div_two_pow, Nat.div_self pos]
  have halves := Nat.div_add_mod (a ^^^ 2 ^ k) (2 ^ k)
  rw [low, top] at halves
  split
  next below =>
    rw [Nat.div_eq_of_lt below, Nat.mod_eq_of_lt below, Nat.zero_xor] at halves
    omega
  next above =>
    have one : a / 2 ^ k = 1 := Nat.div_eq_of_lt_le (by omega) (by omega)
    have rest : a % 2 ^ k = a - 2 ^ k := by rw [Nat.mod_eq_sub_mod (by omega), Nat.mod_eq_of_lt (by omega)]
    rw [one, rest, Nat.xor_self] at halves
    omega

theorem xor_eq_two_pow_iff {k a b : Nat} (ha : a < 2 * 2 ^ k) : b ^^^ a = 2 ^ k ↔ b = if a < 2 ^ k then a + 2 ^ k else a - 2 ^ k := by
  rw [← xor_two_pow_of_lt ha]
  constructor
  · intro differ
    rw [← differ, Nat.xor_comm b, Nat.xor_xor_cancel_left]
  · rintro rfl
    rw [Nat.xor_right_comm, Nat.xor_self, Nat.zero_xor]

/-- Settles O23: two indices differ in bit k only exactly when one is the other moved on by N, and then N entries are outstanding, more
than which no ring has. -/
theorem ringOccupancy : Obligations.RingOccupancy := by
  unfold Obligations.RingOccupancy
  intro k pi ci hpi hci
  have pos : 0 < 2 ^ k := Nat.two_pow_pos k
  refine ⟨idxDist_eq_emod pos ci pi, idxDist_eq_zero_iff hci hpi, (idxDist_eq_size_iff hci hpi).trans (xor_eq_two_pow_iff hci).symm,
    fun fits => ?_⟩
  have last : (ci + 2 ^ k) % (2 * 2 ^ k) < 2 * 2 ^ k := Nat.mod_lt _ (by omega)
  have all : idxDist (2 ^ k) ci ((ci + 2 ^ k) % (2 * 2 ^ k)) = 2 ^ k := by
    refine (idxDist_eq_size_iff hci last).2 ?_
    split
    next => exact Nat.mod_eq_of_lt (by omega)
    next => rw [Nat.mod_eq_sub_mod (by omega), Nat.mod_eq_of_lt (by omega)]; omega
  simp only [piAccepted, all, last, fits, le_refl, decide_true, Bool.and_self]

/-! The consumer index of a completion ring (R139) -/

theorem ciAccepted_iff {n : Nat} (pos : 0 < n) (pi ci c : Nat) : ciAccepted n pi ci c = true ↔
    ¬(2 * n ≤ c ∨ ((pi : Int) - ci) % (2 * n : Nat) < ((pi : Int) - c) % (2 * n : Nat)) := by
  rw [← idxDist_eq_emod pos, ← idxDist_eq_emod pos, Int.ofNat_lt, not_or, Nat.not_le, Nat.not_lt, ciAccepted, Bool.and_eq_true,
    decide_eq_true_eq, decide_eq_true_eq]

theorem updCq_cqIs {s t : State} {f slot : Nat} {fn : Func} {q : Cq} (g : Cq → Cq) (lives : s.funcs.find f = some fn)
    (here : fn.cqs.find slot = some q) (same : t.funcs = (updCq s f slot g).funcs) : CqIs f slot (g q) s t := by
  refine ⟨fn, _, lives, (updFunc_funcIs _ lives).of_same same, rfl, ?_, fun k other => Tab.find_upd_other _ _ other⟩
  rw [Tab.find_upd_same, here, Option.map_some]

/-- Settles O22: what the rule says of the counts is the model's check, and each outcome is a change of the one ring. -/
theorem consumerIndex : Obligations.ConsumerIndex := by
  unfold Obligations.ConsumerIndex
  intro f slot value s fn q takes here n c d
  have found := fnOf_find (takesWrites_fnOf takes)
  have judged : ciAccepted q.size q.pi q.ci c = true ↔ ¬(2 * n ≤ c ∨ d q.ci < d c) := ciAccepted_iff (Nat.two_pow_pos _) q.pi q.ci c
  refine Does.of_exec rfl (execCqDoorbell_frame f slot value s) ?_
  simp only [takes, here]
  by_cases accepted : ciAccepted q.size q.pi q.ci c = true
  · rw [if_pos accepted, if_neg (judged.1 accepted)]
    exact updCq_cqIs (fun q => { q with ci := c }) found here rfl
  · rw [if_neg accepted, if_pos (not_not.1 (mt judged.2 accepted))]
    exact updCq_cqIs (fun q => { q with overrun := true }) found here rfl

end Sys2Proof.Machine
end

section
/-! Doorbells of queues (R138, R204, R472): a doorbell of a ring while the part prepares W2 and a push queue's entries are copied. -/

namespace Sys2Proof.Machine

/-- An empty ring of 16 entries. -/
def emptyRing : Sq :=
  { push := false, cls := .standard, cqSlot := 1, log2 := 4, base := 0, pollInt := 0, pasid := none, quota := 1 }

/-- The PF of port 1 with its copied push queue in slot 1 and the ring in slot 2. -/
def copiedPfRing : Func := { copiedPf with sqs := [(1, copiedPush), (2, emptyRing)] }

/-- The part prepares W2 in Ready, and the PF of port 1 has both queues. -/
def preparingRing : State := { preparingW2 with funcs := [(0, { exists_ := true }), (64, copiedPfRing)] }

/-- A first entry in the ring gives up the preparation: the copy of the push queue goes (R472). -/
theorem sqDoorbell_preparingRing : ∃ t, exec (.sqDoorbell 64 2 1) preparingRing = .next t ∧
    ∃ fn, t.funcs.find 64 = some fn ∧ fn.sqs.find 1 = some { copiedPush with copy := none } :=
  ⟨_, rfl, _, rfl, by decide +kernel⟩

/-- Refutes O21: its clause on SQ_DOORBELL has no queue change but the one of the doorbell. In `preparingRing` the doorbell of slot 2
announces an entry, which abandons the entry to W2 (R204, R472), and the push queue in slot 1 loses its copy with it. The
statement has no hypothesis that no entry is in preparation. -/
theorem not_queueDoorbells : ¬ Obligations.QueueDoorbells := by
  unfold Obligations.QueueDoorbells
  intro h
  obtain ⟨-, taken⟩ := h 64 2 1 preparingRing
  obtain ⟨-, -, queues⟩ := taken copiedPfRing (by decide +kernel)
  obtain ⟨ring, -⟩ := queues emptyRing rfl
  obtain ⟨t, claimed, -, _, ⟨a, b, before, ⟨after, -⟩, -, -, others⟩, -⟩ := ring rfl rfl
  obtain ⟨u, actual, fn, stands, moved⟩ := sqDoorbell_preparingRing
  obtain rfl : t = u := Host.Outcome.next.inj (claimed.symm.trans actual)
  obtain rfl : b = fn := Option.some.inj (after.symm.trans stands)
  obtain rfl : copiedPfRing = a := Option.some.inj before
  exact absurd (moved.symm.trans (others 1 (by decide))) (by decide)

end Sys2Proof.Machine
end

section
/-! Requests to the signal box (R135, R166, R167, R430, R431): the answer that ends every request, and what ADMIN_INIT, BIND and
UNBIND make of a function and of a mailbox. -/

namespace Sys2Proof.Machine

/-! Mailboxes and notices -/

section
variable {s t : State} (same : t.mbx = s.mbx)
include same

theorem boxOf_congr (i : Nat) : boxOf t i = boxOf s i := by rw [boxOf, boxOf, same]

theorem noticesOf_congr (p : Nat) : noticesOf t p = noticesOf s p := by rw [noticesOf, noticesOf, same]

end

@[simp] theorem boxOf_updBox_same (s : State) (i : Nat) (g : Mailbox → Mailbox) : boxOf (updBox s i g) i = g (boxOf s i) := by
  simp [boxOf, updBox, Tab.getD]

theorem boxOf_updBox_other (s : State) {i j : Nat} (g : Mailbox → Mailbox) (other : j ≠ i) : boxOf (updBox s i g) j = boxOf s j := by
  simp [boxOf, updBox, Tab.getD, Tab.find_put_other _ _ other]

@[simp] theorem noticesOf_updBox (s : State) (i p : Nat) (g : Mailbox → Mailbox) : noticesOf (updBox s i g) p = noticesOf s p := rfl

/-! The end of a message (R432, R436, R437) -/

/-- A mailbox once its message has ended with a cause. -/
def Mailbox.ended (b : Mailbox) (i cause : Nat) : Mailbox :=
  { b with full := false, cause := cause, empty := true, noticeHeld := b.posterReset, owner := if 8 ≤ i && i < 16 then 0 else b.owner }

theorem endMessage_mbx (s : State) (i cause : Nat) : (endMessage s i cause).mbx = (updBox s i fun b => b.ended i cause).mbx := by
  unfold endMessage
  extract_lets b u v
  have marked : v.mbx = (updBox s i fun b => b.ended i cause).mbx := rfl
  split
  · exact marked
  · exact (emptyEvent_frame v i b .mbx (by decide)).trans marked

theorem sendMsix_fnOf {s : State} {f : Nat} {fn : Func} (k v : Nat) (here : fnOf s f = some fn) :
    ∃ x, fnOf (sendMsix s k v) f = some x ∧ x.still = fn.still := by
  by_cases same : f = k
  · exact same ▸ (sendMsix_still v (same ▸ here)).fnOf (fnOf_exists here)
  · cases sender : fnOf s k with
    | none => exact ⟨fn, by simp only [sendMsix, sender, here], rfl⟩
    | some y =>
      obtain ⟨z, ⟨-, others⟩, -⟩ := sendMsix_still v sender
      exact ⟨fn, fnOf_eq_some.2 ⟨(others f same).trans (fnOf_find here), fnOf_exists here⟩, rfl⟩

/-- The empty interrupt of a poster changes no function but for its messages. -/
theorem endMessage_fnOf {s : State} {f : Nat} {fn : Func} (i cause : Nat) (here : fnOf s f = some fn) :
    ∃ x, fnOf (endMessage s i cause) f = some x ∧ x.still = fn.still := by
  unfold endMessage
  extract_lets b u v
  have stands : fnOf v f = some fn := (fnOf_congr rfl f).trans here
  split
  · exact ⟨fn, stands, rfl⟩
  · unfold emptyEvent
    split
    · split
      · split
        · exact sendMsix_fnOf _ _ stands
        · exact ⟨fn, stands, rfl⟩
      · exact ⟨fn, stands, rfl⟩
    · exact ⟨fn, (fnOf_congr rfl f).trans stands, rfl⟩

/-! The answer to a request (R431) -/

/-- From s to t the signal box takes the request of a PF and answers it with a RESULT notice. -/
def Answered (p type code box : Nat) (s t : State) : Prop :=
  noticesOf t p = noticesOf s p ++ [BitVec.ofNat 512 (0x81 + type * 2 ^ 8 + code * 2 ^ 16 + box * 2 ^ 24)] ∧
    (boxOf t p).full = false ∧ (boxOf t p).cause = 1

theorem Answered.of_mbx {p type code box : Nat} {s t u : State} (h : Answered p type code box s t) (same : u.mbx = t.mbx) :
    Answered p type code box s u := by
  rw [Answered, noticesOf_congr same, boxOf_congr same]
  exact h

section
variable (s : State) (p type box : Nat) (st : Status)

theorem answerRequest_answered {s₀ : State} (kept : noticesOf s p = noticesOf s₀ p) :
    Answered p type st.code box s₀ (answerRequest s p type st box) := by
  have ended : boxOf (answerRequest s p type st box) p = (boxOf s p).ended p 1 :=
    (boxOf_congr (endMessage_mbx s p 1) p).trans (boxOf_updBox_same s p _)
  have notices : noticesOf (endMessage s p 1) p = noticesOf s₀ p := (noticesOf_congr (endMessage_mbx s p 1) p).trans kept
  refine ⟨?_, congrArg Mailbox.full ended, congrArg Mailbox.cause ended⟩
  rw [← notices]
  simp [answerRequest, resultNotice, queueNotice, noticesOf, Tab.getD]

theorem answerRequest_boxOf_other {i : Nat} (other : i ≠ p) : boxOf (answerRequest s p type st box) i = boxOf s i :=
  (boxOf_congr (endMessage_mbx s p 1) i).trans (boxOf_updBox_other s _ other)

theorem answerRequest_fnOf {s : State} {f : Nat} {fn : Func} (here : fnOf s f = some fn) :
    ∃ x, fnOf (answerRequest s p type st box) f = some x ∧ x.still = fn.still :=
  endMessage_fnOf p 1 here

end

theorem msgField_type (m : BitVec 512) : msgField m 0 1 = m.toNat % 256 := fieldOf_zero m 8

/-! ADMIN_INIT (R135, R166, R167) -/

/-- An ADMIN_INIT is taken: the part serves the admin pair, the message keeps its ranges, and the PF has no admin pair yet. -/
def TakesInit (s : State) (fn : Func) (m : BitVec 512) : Prop :=
  (s.pwr.devState = .recovering ∨ s.pwr.devState = .ready) ∧ adminInitOk m = true ∧ fn.sqs.find 0 = none

/-- The queue q and the ring c are the admin queue pair of a function, as a message describes it. -/
def AdminPairIs (m : BitVec 512) (x : Func) (q : Sq) (c : Cq) : Prop :=
  x.shadow = some (msgField m 0x18 8) ∧ x.sqs.find 0 = some q ∧ x.cqs.find 0 = some c ∧ q.push = false ∧ q.cls = .standard ∧
    q.cqSlot = 0 ∧ q.log2 = msgField m 2 1 ∧ q.base = msgField m 8 8 ∧ q.pollInt = msgField m 0x20 4 ∧ q.pi = 0 ∧ q.ci = 0 ∧
    c.log2 = msgField m 3 1 ∧ c.base = msgField m 0x10 8 ∧ c.vec = msgField m 4 2 ∧ c.pi = 0 ∧ c.ci = 0

section
variable {s : State} {p : Nat} {fn : Func} (m : BitVec 512) (lives : fnOf s (64 * p) = some fn)
include lives

theorem applyInit_taken (takes : TakesInit s fn m) : applyInit s p m =
    poll (answerRequest (updFunc s (64 * p) (adminPair m (now s))) p 1 .success 0xFF) (64 * p) 0 := by
  obtain ⟨up, ok, free⟩ := takes
  simp [applyInit, lives, up, ok, Tab.has, free]

theorem applyInit_refused (refused : ¬TakesInit s fn m) : applyInit s p m =
    answerRequest (markFresh (updFunc s (64 * p) fun fn => { fn with initErr := true }) (.fn (64 * p)) 0x204 25 1) p 1 .invalidField 0xFF := by
  have not_all : ((s.pwr.devState == .recovering || s.pwr.devState == .ready) && adminInitOk m && !fn.sqs.has 0) = false := by
    rw [Bool.eq_false_iff]
    intro all
    refine refused ?_
    simpa [TakesInit, Tab.has, and_assoc] using all
  simp only [applyInit, lives, not_all, Bool.false_eq_true, if_false]

theorem applyInit_makes (takes : TakesInit s fn m) : Answered p 1 0 0xFF s (applyInit s p m) ∧
    ∃ x q c, fnOf (applyInit s p m) (64 * p) = some x ∧ AdminPairIs m x q c := by
  rw [applyInit_taken m lives takes]
  let u := updFunc s (64 * p) (adminPair m (now s))
  have made : fnOf u (64 * p) = some (adminPair m (now s) fn) := fnOf_updFunc_same lives (fnOf_exists (fn := fn) lives)
  obtain ⟨x, answered, still⟩ := answerRequest_fnOf p 1 0xFF .success made
  have kept {α : Type} (field : Func → α) := congrArg field still
  obtain ⟨sqs, polled, queues⟩ := poll_fnOf_same 0 answered
  obtain ⟨o, d, queue⟩ := queues 0 _ ((kept fun x => x.sqs.find 0).trans (Tab.find_put_same _ _ _))
  exact ⟨(answerRequest_answered u p 1 0xFF .success rfl).of_mbx (poll_frame _ _ _ .mbx (by decide)), _, _, _, polled, kept Func.shadow, queue,
    (kept fun x => x.cqs.find 0).trans (Tab.find_put_same _ _ _), rfl, rfl, rfl, rfl, rfl, rfl, rfl, rfl, rfl, rfl, rfl, rfl, rfl⟩

theorem applyInit_refuses (refused : ¬TakesInit s fn m) : Answered p 1 3 0xFF s (applyInit s p m) ∧
    ∃ x, fnOf (applyInit s p m) (64 * p) = some x ∧ x.initErr = true ∧ x.sqs = fn.sqs ∧ x.cqs = fn.cqs := by
  rw [applyInit_refused m lives refused]
  let u := markFresh (updFunc s (64 * p) fun fn => { fn with initErr := true }) (.fn (64 * p)) 0x204 25 1
  have marked : fnOf u (64 * p) = some { fn with initErr := true } := fnOf_updFunc_same lives (fnOf_exists (fn := fn) lives)
  obtain ⟨x, answered, still⟩ := answerRequest_fnOf p 1 0xFF .invalidField marked
  have kept {α : Type} (field : Func → α) := congrArg field still
  exact ⟨answerRequest_answered u p 1 0xFF .invalidField rfl, x, answered, kept Func.initErr, kept Func.sqs, kept Func.cqs⟩

end

/-! The requests of a PF, each answered (R431) -/

/-- The mailbox that a BIND of a PF describes (R430, R431). -/
def boundBox (p : Nat) (m : BitVec 512) : Mailbox :=
  { recv := msgField m 2 2, recvView := msgField m 4 1, send := bindSenders m, bound := true, boundBy := some (64 * p) }

theorem freeBox_bound {s : State} {i : Nat} (free : freeBox s = some i) : 18 ≤ i := by
  obtain ⟨k, -, rfl⟩ := List.mem_map.1 (List.mem_of_find?_eq_some free)
  exact Nat.le_add_left 18 k

section
variable {s : State} {p : Nat} (can : canTake s p = true)
include can

theorem port_of_canTake : p < 8 := by
  simp only [canTake, Bool.and_eq_true, decide_eq_true_eq] at can
  exact can.1.1.1.1

theorem adminInit_applies {post : State → Prop} (type : (boxOf s p).msg.toNat % 256 = 1) (started : s.pwr.devState ≠ .starting)
    (on : s.pwr.devState ≠ .off) (h : post (applyInit s p (boxOf s p).msg)) : Runs (.adminInit p) s post := by
  refine Does.of_exec ?_ (execAdminInit_frame p s) h
  simp [exec, execAdminInit, can, msgField_type, type, started, on]

theorem bind_binds {i : Nat} (type : (boxOf s p).msg.toNat % 256 = 2) (free : freeBox s = some i) (ok : bindOk s p (boxOf s p).msg = true) :
    Runs (.bind p) s fun t => Answered p 2 0 i s t ∧ boxOf t i = boundBox p (boxOf s p).msg := by
  have other : i ≠ p := by have := freeBox_bound free; have := port_of_canTake can; omega
  let u := updBox s i fun _ => boundBox p (boxOf s p).msg
  refine Does.of_exec (t := answerRequest u p 2 .success i) ?_ (execBind_frame p s) ⟨answerRequest_answered u p 2 i .success rfl,
    (answerRequest_boxOf_other u p 2 i .success other).trans (boxOf_updBox_same s i _)⟩
  simp [exec, execBind, can, msgField_type, type, free, ok, u, boundBox]

theorem bind_refused (type : (boxOf s p).msg.toNat % 256 = 2) (bad : freeBox s = none ∨ bindOk s p (boxOf s p).msg = false) :
    Runs (.bind p) s (Answered p 2 3 0xFF s) := by
  refine Does.of_exec ?_ (execBind_frame p s) (answerRequest_answered s p 2 0xFF .invalidField rfl)
  rcases bad with taken | refused
  · simp [exec, execBind, can, msgField_type, type, taken]
  · cases free : freeBox s <;> simp [exec, execBind, can, msgField_type, type, free, refused]

end

/-- A mailbox is unbound. -/
def dropBox (s : State) (i : Nat) : State := updMbx s fun x => { x with boxes := x.boxes.del i }

theorem boxOf_dropBox {s : State} (i : Nat) (sorted : Tab.sorted s.mbx.boxes = true) : boxOf (dropBox s i) i = fixedBox i := by
  simp [boxOf, dropBox, Tab.getD, Tab.find_del_same sorted]

/-- The message that a mailbox holds when it is unbound ends first (R431). -/
def emptied (s : State) (i : Nat) : State := if (boxOf s i).full then endMessage s i 3 else s

theorem emptied_sorted {s : State} (i : Nat) (sorted : Tab.sorted s.mbx.boxes = true) : Tab.sorted (emptied s i).mbx.boxes = true := by
  unfold emptied
  split
  · rw [endMessage_mbx]
    exact Tab.sorted_put sorted
  · exact sorted

theorem emptied_notices (s : State) (i p : Nat) : noticesOf (emptied s i) p = noticesOf s p := by
  unfold emptied
  split
  · exact noticesOf_congr (endMessage_mbx s i 3) p
  · rfl

section
variable {s : State} {p : Nat} (can : canTake s p = true) (type : (boxOf s p).msg.toNat % 256 = 3)
include can type

theorem unbind_unbinds {i : Nat} (box : msgField (boxOf s p).msg 1 1 = i) (mine : (boxOf s i).boundBy = some (64 * p))
    (rsvd : msgField (boxOf s p).msg 5 3 = 0 ∧ msgField (boxOf s p).msg 0x18 40 = 0) (high : 18 ≤ i) (sorted : Tab.sorted s.mbx.boxes = true) :
    Runs (.unbind p) s fun t => Answered p 3 0 i s t ∧ boxOf t i = fixedBox i := by
  have other : i ≠ p := by have := port_of_canTake can; omega
  let u := dropBox (emptied s i) i
  refine Does.of_exec (t := answerRequest u p 3 .success i) ?_ (execUnbind_frame p s)
    ⟨answerRequest_answered u p 3 i .success (emptied_notices s i p),
      (answerRequest_boxOf_other u p 3 i .success other).trans (boxOf_dropBox i (emptied_sorted i sorted))⟩
  simp [exec, execUnbind, can, msgField_type, type, box, mine, rsvd, u, dropBox, emptied]

theorem unbind_refused (refused : ¬((boxOf s (msgField (boxOf s p).msg 1 1)).boundBy = some (64 * p) ∧ msgField (boxOf s p).msg 5 3 = 0 ∧
    msgField (boxOf s p).msg 0x18 40 = 0)) : Runs (.unbind p) s (Answered p 3 3 0xFF s) := by
  refine Does.of_exec ?_ (execUnbind_frame p s) (answerRequest_answered s p 3 0xFF .invalidField rfl)
  rw [← and_assoc] at refused
  simp [exec, execUnbind, can, msgField_type, type, refused]

end

theorem undefinedRequest_refused {s : State} {p : Nat} (can : canTake s p = true) (init : (boxOf s p).msg.toNat % 256 ≠ 1)
    (bind : (boxOf s p).msg.toNat % 256 ≠ 2) (unbind : (boxOf s p).msg.toNat % 256 ≠ 3) :
    Runs (.mailboxUndefinedRequest p) s (Answered p ((boxOf s p).msg.toNat % 256) 3 0xFF s) := by
  refine Does.of_exec ?_ (execMailboxUndefinedRequest_frame p s) (answerRequest_answered s p _ 0xFF .invalidField rfl)
  simp [exec, execMailboxUndefinedRequest, can, msgField_type, init, bind, unbind]

/-- Settles O50: every request ends in one answer, which takes the message and queues a RESULT notice; the empty interrupt that it may
send and a first poll leave the admin pair and the bound mailbox as the request made them. -/
theorem mailboxRequests : Obligations.MailboxRequests := by
  unfold Obligations.MailboxRequests
  intro s p can m type answered
  refine ⟨fun init fn lives => ⟨fun takes => ?_, fun refused started on => ?_⟩,
    fun bind => ⟨fun i free ok => ?_, fun bad => ?_⟩, fun unbind => ⟨fun allowed high sorted => ?_, fun refused => ?_⟩,
    fun init bind unbind => undefinedRequest_refused can init bind unbind⟩
  · have up : s.pwr.devState ≠ .starting ∧ s.pwr.devState ≠ .off := by
      rcases takes.1 with is | is <;> rw [is] <;> decide
    simp only [answered, init]
    exact adminInit_applies can init up.1 up.2 (applyInit_makes m lives takes)
  · simp only [answered, init]
    exact adminInit_applies can init started on (applyInit_refuses m lives refused)
  · simp only [answered, bind]
    exact bind_binds can bind free ok
  · simp only [answered, bind]
    exact bind_refused can bind bad
  · simp only [answered, unbind]
    exact unbind_unbinds can unbind rfl allowed.1 allowed.2 high sorted
  · simp only [answered, unbind]
    exact unbind_refused can unbind refused

end Sys2Proof.Machine
end

section
/-! Maintenance contexts (R163, R241, R284, R334): when one can be created, the context that is created, and the fields of its
descriptor. -/

namespace Sys2Proof.Machine

/-! A context is created -/

/-- A Maintenance context can be created for a work of a group: a siding is free, a route has the handler, and the ladder gives
leave (R163, R284, R471). -/
structure Creates (s : State) (w : Work) (vol : Option Nat) (g cx prog : Nat) (r : Route) (h : HandlerEnt) : Prop where
  siding : freeSiding s = some cx
  room : maintUsed s < Config.maintSidings
  route : workRoute s w vol g = some (prog, r)
  handler : handlerOf s prog (workHandler r w) = some h
  allowed : workAllowed s w = true

/-- From s to t the siding cx takes a Maintenance context for a work of a group, READY at the handler's entry; no other context
changes. -/
def WorkMade (s : State) (g cx prog : Nat) (h : HandlerEnt) (w : Work) (vol : Option Nat) (t : State) (post : Ctx → Prop) : Prop :=
  ∃ c, t.ctxs.find cx = some c ∧ c.cls = .maintenance ∧ c.kind = .maint ∧ c.work = some w ∧ c.vol = vol ∧ c.group = some g ∧
    c.pc = BitVec.ofNat 24 h.entry ∧ c.budget = h.budget ∧ c.program = prog ∧ c.state = .ready ∧ c.dl = noTs ∧ post c ∧
    ∀ k, k ≠ cx → t.ctxs.find k = s.ctxs.find k

/-- The handles of a new Maintenance context: h15 for label work (R334). -/
def workHandles (h15 : Tab Nat) : Tab Handle := if h15.isEmpty then [] else [(15, .frames h15)]

/-- The context that a work gets. -/
def newWork (s : State) (w : Work) (vol : Option Nat) (g cx prog : Nat) (r : Route) (h : HandlerEnt) (d : BitVec 512) (h15 : Tab Nat) : Ctx :=
  { pc := BitVec.ofNat 24 h.entry, cls := .maintenance, dl := noTs, budget := h.budget, route := BitVec.ofNat 16 r.id,
    handler := BitVec.ofNat 16 ((workHandler r w).getD 0), cmd := d, kind := .maint, vol := vol, group := some g, work := some w,
    cluster := cx % 4, since := s.seqCtr, program := prog, bound := 0, res := if sharedRoom s then .shared else .siding,
    h := workHandles h15 }

/-- The state with a new Maintenance context. -/
def withWork (s : State) (cx : Nat) (c : Ctx) : State := { s with seqCtr := s.seqCtr + 1, ctxs := s.ctxs.put cx c }

section
variable {s t : State} {w : Work} {vol : Option Nat} {g cx prog : Nat} {r : Route} {h : HandlerEnt} (creates : Creates s w vol g cx prog r h)
include creates

theorem Creates.createWork (d : BitVec 512) (h15 : Tab Nat) :
    createWork s w vol g d h15 = some (cx, withWork s cx (newWork s w vol g cx prog r h d h15)) := by
  obtain ⟨siding, room, route, handler, allowed⟩ := creates
  simp only [Machine.createWork, siding, route, handler, allowed, Nat.not_le.2 room, decide_false, Bool.not_true, Bool.or_self,
    Bool.false_eq_true, if_false]
  rfl

/-- What decides on a creation is the contexts, the programs, the volumes, the group's layout and the ladder. -/
theorem Creates.step {ps : List Part} (frame : OnlyChanges ps s t) (layout : (t.groups.find g).map Group.layout = (s.groups.find g).map Group.layout)
    (apart : ∀ p ∈ [Part.ctxs, .progs, .vols, .pwr, .mbx, .vlt], p ∉ ps := by decide) : Creates t w vol g cx prog r h := by
  have ctxs : t.ctxs = s.ctxs := frame .ctxs (apart _ (by decide))
  have progs : t.progs = s.progs := frame .progs (apart _ (by decide))
  have vols : t.vols = s.vols := frame .vols (apart _ (by decide))
  have pwr : t.pwr = s.pwr := frame .pwr (apart _ (by decide))
  have mbx : t.mbx = s.mbx := frame .mbx (apart _ (by decide))
  have vlt : t.vlt = s.vlt := frame .vlt (apart _ (by decide))
  have viaLayout (find : Nat → Option (Nat × Route)) : (t.groups.find g).bind (fun x => find x.layout) =
      (s.groups.find g).bind fun x => find x.layout := by
    rw [show (fun x : Group => find x.layout) = find ∘ Group.layout from rfl, ← Option.bind_map, ← Option.bind_map, layout]
  obtain ⟨siding, room, route, handler, allowed⟩ := creates
  refine ⟨?_, ?_, route.symm ▸ ?_, ?_, ?_⟩
  · rw [← siding, freeSiding, freeSiding, ctxs]
  · rwa [maintUsed, ctxs]
  · cases w <;> simp only [workRoute, routeOf, maintRoute, vols, progs]
    case refine_3.build => exact viaLayout (routeOf s)
    all_goals exact viaLayout (maintRoute s)
  · rw [← handler, handlerOf, handlerOf, progs]
  · rw [← allowed, workAllowed, workAllowed, onW0, onW0, frozen, frozen, pwr, mbx, vlt]

omit creates in
theorem workMade_of_put {d : BitVec 512} {h15 : Tab Nat} {post : Ctx → Prop} {u : State} (before : s.ctxs = u.ctxs)
    (after : t.ctxs = (withWork s cx (newWork s w vol g cx prog r h d h15)).ctxs)
    (own : ∀ c, c.cmd = d → c.h = workHandles h15 → post c) : WorkMade u g cx prog h w vol t post := by
  refine ⟨newWork s w vol g cx prog r h d h15, ?_, rfl, rfl, rfl, rfl, rfl, rfl, rfl, rfl, rfl, rfl, own _ rfl rfl, fun k other => ?_⟩
  · rw [after]
    exact Tab.find_put_same _ _ _
  · rw [after, ← before]
    exact Tab.find_put_other _ _ other

end

theorem updGroup_groupIs {s : State} {g : Nat} {x : Group} (f : Group → Group) (here : s.groups.find g = some x) :
    GroupIs g (f x) s (updGroup s g f) :=
  ⟨by simp [here], fun _ other => Tab.find_upd_other _ _ other⟩

theorem GroupIs.updGroup {s t : State} {g : Nat} {x : Group} (is : GroupIs g x s t) (f : Group → Group) :
    GroupIs g (f x) s (updGroup t g f) :=
  ⟨by simp [is.1], fun _ other => (Tab.find_upd_other _ _ other).trans (is.2 _ other)⟩

theorem GroupIs.of_same {s t u : State} {g : Nat} {x : Group} (is : GroupIs g x s t) (same : u.groups = t.groups) : GroupIs g x s u := by
  rwa [GroupIs, same]

/-! The fields of a descriptor -/

/-- The field at a place of a number that a vector holds whole. -/
theorem fieldOf_ofNat {d lo n : Nat} (fits : lo + n ≤ 512) : fieldOf (BitVec.ofNat 512 d) lo n = d / 2 ^ lo % 2 ^ n := by
  apply Nat.eq_of_testBit_eq
  intro i
  simp only [fieldOf, BitVec.testBit_toNat, BitVec.getLsbD_extractLsb', BitVec.getLsbD_ofNat, Nat.testBit_mod_two_pow, Nat.testBit_div_two_pow]
  grind

/-- A field below the last one that was put is not changed by it. -/
theorem dsc_skip {a off n v lo k : Nat} (below : lo + k ≤ 8 * (off - 0x40)) (fits : lo + k ≤ 512) :
    fieldOf (BitVec.ofNat 512 (a + dscPut off n v)) lo k = fieldOf (BitVec.ofNat 512 a) lo k := by
  obtain ⟨j, at_⟩ := Nat.exists_eq_add_of_le below
  rw [fieldOf_ofNat fits, fieldOf_ofNat fits, dscPut, at_, Nat.pow_add, Nat.pow_add,
    show v % 2 ^ (8 * n) * (2 ^ lo * 2 ^ k * 2 ^ j) = 2 ^ lo * (2 ^ k * (v % 2 ^ (8 * n) * 2 ^ j)) by ring,
    Nat.add_mul_div_left _ _ (Nat.two_pow_pos lo), Nat.add_mul_mod_self_left]

/-- A field put above all the others is read back. -/
theorem dsc_here {a off n v : Nat} (above : a < 2 ^ (8 * (off - 0x40))) (fits : 8 * (off - 0x40) + 8 * n ≤ 512) :
    fieldOf (BitVec.ofNat 512 (a + dscPut off n v)) (8 * (off - 0x40)) (8 * n) = v % 2 ^ (8 * n) := by
  rw [fieldOf_ofNat fits, dscPut, Nat.add_mul_div_right _ _ (Nat.two_pow_pos _), Nat.div_eq_of_lt above, Nat.zero_add, Nat.mod_mod]

theorem dsc_first {n v : Nat} (fits : 8 * n ≤ 512) : fieldOf (BitVec.ofNat 512 (dscPut 0x40 n v)) 0 (8 * n) = v % 2 ^ (8 * n) := by
  simpa only [Nat.zero_add] using dsc_here (a := 0) (off := 0x40) (v := v) (Nat.two_pow_pos _) (by simpa using fits)

theorem dsc_below {a off n v top : Nat} (above : a < 2 ^ (8 * (off - 0x40))) (fits : 8 * (off - 0x40) + 8 * n ≤ top) :
    a + dscPut off n v < 2 ^ top := by
  have value : v % 2 ^ (8 * n) + 1 ≤ 2 ^ (8 * n) := Nat.mod_lt _ (Nat.two_pow_pos _)
  calc a + dscPut off n v < 2 ^ (8 * (off - 0x40)) + v % 2 ^ (8 * n) * 2 ^ (8 * (off - 0x40)) := Nat.add_lt_add_right above _
    _ = (v % 2 ^ (8 * n) + 1) * 2 ^ (8 * (off - 0x40)) := by ring
    _ ≤ 2 ^ (8 * n) * 2 ^ (8 * (off - 0x40)) := Nat.mul_le_mul_right _ value
    _ = 2 ^ (8 * (off - 0x40) + 8 * n) := by rw [← Nat.pow_add, Nat.add_comm]
    _ ≤ 2 ^ top := Nat.pow_le_pow_right (by decide) fits

theorem dsc_first_below {n v top : Nat} (fits : 8 * n ≤ top) : dscPut 0x40 n v < 2 ^ top := by
  simpa only [Nat.zero_add] using dsc_below (a := 0) (off := 0x40) (v := v) (Nat.two_pow_pos _) (by simpa using fits)

/-- Strips of at most 256 blocks make one piece (R383, R393). -/
theorem onePiece {m b : Nat} (lanes : 0 < m) (blocks : 0 < b) (fits : m * b ≤ 256) :
    (b + max 1 (256 / m) - 1) / max 1 (256 / m) = 1 ∧ min (max 1 (256 / m)) b = b := by
  have whole : b ≤ 256 / m := (Nat.le_div_iff_mul_le lanes).2 (by rwa [Nat.mul_comm])
  have piece : max 1 (256 / m) = 256 / m := by omega
  rw [piece]
  exact ⟨Nat.div_eq_of_lt_le (by omega) (by omega), by omega⟩

end Sys2Proof.Machine
end

section
/-! Destage and rebuild steps (R217, R333, R383, R384): a stripe that is dirty whole, and a row with one strip to rebuild. -/

namespace Sys2Proof.Machine

/-! DESTAGE_CREATE -/

/-- The descriptor of a destage of a run of n + 1 blocks (R333). -/
def destageDsc (g stripe flags dirty v lba n seq : Nat) : BitVec 512 :=
  BitVec.ofNat 512 (dscPut 0x40 8 stripe + dscPut 0x48 8 lba + dscPut 0x50 2 n + dscPut 0x52 1 flags + dscPut 0x54 2 v +
    dscPut 0x58 4 dirty + dscPut 0x61 1 g + dscPut 0x64 4 seq)

theorem destageDsc_fields (g stripe flags dirty v lba n seq : Nat) : let d := destageDsc g stripe flags dirty v lba n seq
    fieldOf d 0 64 = stripe % 2 ^ 64 ∧ fieldOf d 64 64 = lba % 2 ^ 64 ∧ fieldOf d 144 8 = flags % 2 ^ 8 := by
  intro d
  simp (disch := decide) only [d, destageDsc, dsc_skip]
  exact ⟨dsc_first (by decide),
    dsc_here (off := 0x48) (dsc_first_below (by decide)) (by decide),
    dsc_here (off := 0x52) (dsc_below (dsc_below (dsc_first_below (by decide)) (by decide)) (by decide)) (by decide)⟩

theorem destageOne_creates {s : State} {g stripe flags dirty v lba n cx prog : Nat} {gr : Group} {r : Route} {h : HandlerEnt}
    (here : s.groups.find g = some gr) (creates : Creates s .destage (some v) g cx prog r h)
    (idle : destageRunning s g stripe lba = false) : destageOne s g stripe flags dirty v lba n =
      updGroup (withWork s cx (newWork s .destage (some v) g cx prog r h (destageDsc g stripe flags dirty v lba n gr.seq) [])) g
        fun x => { x with seq := x.seq + 1 } := by
  simp only [destageOne, idle, here, Bool.false_eq_true, if_false, Option.map_some, Option.getD_some]
  rw [← destageDsc, creates.createWork]

/-- A stripe that is dirty whole gets one destage, with FULL set (R333). -/
theorem destageCreate_full {s : State} {g stripe v l : Nat} {gr : Group} {rest : List (Nat × Nat)} (here : s.groups.find g = some gr)
    (blocks : stripeBlocks s g gr stripe = (v, l) :: rest) (dirty : ∀ x ∈ (v, l) :: rest, loneDirty s x ≠ none)
    (old : oldDirty s g (v, l) = true) (fits : gr.geom.m * gr.geom.b ≤ 256) (first : beforeDestage s = false)
    (free : destageWaits s gr stripe (dirtyLanes s g gr stripe) = false) :
    destageCreate s g stripe = destageOne s g stripe (bit (stripeErased s gr stripe) 0 + bit true 1 + bit (urgentLevel s) 2)
      (dirtyLanes s g gr stripe) v l 0 := by
  have lone : ∀ x ∈ (v, l) :: rest, (loneDirty s x).isSome = true := fun x mem => Option.isSome_iff_ne_none.2 (dirty x mem)
  have due : destageDue s g gr stripe = true := by
    simp only [destageDue, blocks, List.any_cons, lone _ (.head _), old, Bool.true_or, Bool.or_true, Bool.and_self]
  have full : (allDirty s g gr stripe && decide (gr.geom.m * gr.geom.b ≤ 256)) = true := by
    simp only [allDirty, blocks, List.isEmpty_cons, List.all_eq_true.2 lone, fits, Bool.not_false, decide_true, Bool.and_self]
  simp only [destageCreate, here, due, first, free, full, blocks, Bool.not_true, Bool.or_self, Bool.false_eq_true, if_false, if_true]

theorem destageCreate_makes {s : State} {g stripe v l cx prog : Nat} {gr : Group} {r : Route} {h : HandlerEnt} {rest : List (Nat × Nat)}
    (here : s.groups.find g = some gr) (creates : Creates s .destage (some v) g cx prog r h)
    (blocks : stripeBlocks s g gr stripe = (v, l) :: rest) (dirty : ∀ x ∈ (v, l) :: rest, loneDirty s x ≠ none)
    (old : oldDirty s g (v, l) = true) (fits : gr.geom.m * gr.geom.b ≤ 256) (idle : destageRunning s g stripe l = false)
    (first : beforeDestage s = false) (free : destageWaits s gr stripe (dirtyLanes s g gr stripe) = false) :
    Does (.destageCreate g stripe) [.ctxs, .groups, .seqCtr] s fun t => GroupIs g { gr with seq := gr.seq + 1 } s t ∧
      WorkMade s g cx prog h .destage (some v) t fun c =>
        fieldOf c.cmd 0 64 = stripe % 2 ^ 64 ∧ fieldOf c.cmd 64 64 = l % 2 ^ 64 ∧ c.cmd.getLsbD (8 * 0x12 + 1) = true := by
  have run : exec (.destageCreate g stripe) s = .next (destageCreate s g stripe) := rfl
  rw [destageCreate_full here blocks dirty old fits first free, destageOne_creates here creates idle] at run
  refine .of_exec run (execDestageCreate_frame g stripe s)
    ⟨updGroup_groupIs (s := withWork s cx _) _ here, workMade_of_put rfl rfl fun c cmd _ => ?_⟩
  obtain ⟨stripe_, lba, flags⟩ := destageDsc_fields g stripe (bit (stripeErased s gr stripe) 0 + bit true 1 + bit (urgentLevel s) 2)
    (dirtyLanes s g gr stripe) v l 0 gr.seq
  rw [cmd]
  refine ⟨stripe_, lba, ?_⟩
  have full := congrArg (Nat.testBit · 1) flags
  simp only [fieldOf, BitVec.testBit_toNat, BitVec.getLsbD_extractLsb'] at full
  refine (by simpa using full : _ = _).trans ?_
  cases stripeErased s gr stripe <;> cases urgentLevel s <;> rfl

/-! REBUILD_STEP_CREATE -/

/-- The descriptor of a rebuild step (R384). -/
def rebuildDsc (g stripe lane skip o n target index lba row last seq : Nat) : BitVec 512 :=
  BitVec.ofNat 512 (dscPut 0x40 8 stripe + dscPut 0x48 1 lane + dscPut 0x49 1 skip + dscPut 0x4A 2 o + dscPut 0x4C 2 n +
    dscPut 0x4E 1 target + dscPut 0x4F 1 index + dscPut 0x50 8 lba + dscPut 0x58 8 row + dscPut 0x60 1 last + dscPut 0x61 1 g +
    dscPut 0x64 4 seq)

theorem rebuildDsc_fields (g stripe lane skip o n target index lba row last seq : Nat) :
    let d := rebuildDsc g stripe lane skip o n target index lba row last seq
    fieldOf d 0 64 = stripe % 2 ^ 64 ∧ fieldOf d 192 64 = row % 2 ^ 64 ∧ fieldOf d 112 8 = target % 2 ^ 8 ∧
      fieldOf d 96 16 = n % 2 ^ 16 := by
  intro d
  simp (disch := decide) only [d, rebuildDsc, dsc_skip]
  have below4C {top : Nat} (above : 96 ≤ top) : dscPut 0x40 8 stripe + dscPut 0x48 1 lane + dscPut 0x49 1 skip + dscPut 0x4A 2 o < 2 ^ top :=
    dsc_below (dsc_below (dsc_below (dsc_first_below (by decide)) (by decide)) (by decide)) above
  have below4E := dsc_below (n := 2) (v := n) (off := 0x4C) (below4C (by decide)) (Nat.le_refl _)
  have below50 := dsc_below (n := 1) (v := index) (off := 0x4F) (dsc_below (n := 1) (v := target) (off := 0x4E) below4E (Nat.le_refl _))
    (Nat.le_refl _)
  exact ⟨dsc_first (by decide),
    dsc_here (off := 0x58) (dsc_below (off := 0x50) below50 (by decide)) (by decide),
    dsc_here (off := 0x4E) below4E (by decide),
    dsc_here (off := 0x4C) (below4C (Nat.le_refl _)) (by decide)⟩

/-- The totals of reads are all that a plan's reads change of a group (R237). -/
theorem countReads_rest (g : Group) (stripe lane skip : Nat) :
    countReads g stripe lane skip = { g with rbReads := (countReads g stripe lane skip).rbReads } := by
  unfold countReads
  generalize (List.range g.geom.m).filter _ = lanes
  induction lanes using List.reverseRecOn with
  | nil => rfl
  | append_singleton lanes i ih => rw [List.foldl_append, ih]; rfl

section
variable {s : State} {g cx prog : Nat} {gr : Group} {r : Route} {h : HandlerEnt}

theorem rebuildPiece_creates {pos row target stripe lane skip o n : Nat} {e : FailEnt} {last : Bool} {x : Group}
    (here : s.groups.find g = some x) (creates : Creates s .rebuild none g cx prog r h) :
    rebuildPiece s g pos row e gr target stripe lane skip o n last = updGroup (withWork s cx (newWork s .rebuild none g cx prog r h
        (rebuildDsc g stripe lane skip o n target e.index (memberLba gr row o) row (bit last 0) x.seq) [])) g fun x =>
      { x with seq := x.seq + 1, steps := x.steps ++ [{ pos := pos, row := row, ctx := cx }] } := by
  simp only [rebuildPiece, here, Option.map_some, Option.getD_some]
  rw [← rebuildDsc, creates.createWork]

/-- A strip that fits one piece gets one step (R383). -/
theorem rebuildStrip_one {pos row target col : Nat} {e : FailEnt} {last : Bool} (home : rebuildTarget s gr pos e.index row col = some target)
    (lanes : 0 < gr.geom.m) (blocks : 0 < gr.geom.b) (fits : gr.geom.m * gr.geom.b ≤ 256) :
    ∃ skip last', let x := stripeOfCol gr e.index row col
      rebuildStrip g pos row e gr last s col =
        rebuildPiece (updGroup s g fun y => countReads y x.1 x.2 skip) g pos row e gr target x.1 x.2 skip 0 gr.geom.b last' := by
  obtain ⟨pieces, whole⟩ := onePiece lanes blocks fits
  refine ⟨skipLane s ((s.groups.find g).getD gr) (stripeOfCol gr e.index row col).1 (stripeOfCol gr e.index row col).2, last && 0 + 1 == 1, ?_⟩
  simp only [rebuildStrip, home, pieces, List.range_one, List.foldl_cons, List.foldl_nil, Nat.zero_mul, Nat.sub_zero, whole]

section
variable {pos row col target : Nat} {e : FailEnt} (here : s.groups.find g = some gr) (assembled : gr.assembly = .assembled)
  (idle : gr.steps = []) (depth : 0 < s.mem.rbDepth.toNat) (history : gr.history = [(pos, e)]) (start : e.watermark = 0)
  (rows : 0 < gr.rows) (row_ : passEmpty gr e.index pos (cycleRowsOf gr) 0 = row)
  (homed : layoutKind gr.layout = .decluster ∨ memberState s gr e.index = 5) (first : beforeRebuild s = false)
include here assembled idle depth history start rows row_ homed first

/-- The first rebuild step of a group is logged, and is of the first row in which its member holds a strip (R383). -/
theorem exec_rebuildStepCreate : exec (.rebuildStepCreate g) s =
    .next (rebuildRow (logErr s 0x0B20 .signalBox {} (g + e.index * 2 ^ 8)) g pos row e gr) := by
  have next : nextRow gr pos e = 0 := by simp only [nextRow, idle, List.filter_nil, List.map_nil, List.foldl_nil, start]
  have plan : plannable s gr (pos, e) = true := by
    simp only [plannable, next, rows, decide_true, Bool.true_and, Bool.or_eq_true, beq_iff_eq]
    exact homed
  have calls : rebuildCalls s gr = true := by
    simp only [rebuildCalls, assembled, idle, List.length_nil, depth, history, List.any_cons, plan, beq_self_eq_true, decide_true,
      Bool.true_or, Bool.and_self]
  have entry : (byFailure gr).find? (plannable s gr) = some (pos, e) := by
    simp only [byFailure, history, List.foldr_cons, List.foldr_nil, insertEnt, List.find?_cons, plan]
  change execRebuildStepCreate g s = _
  simp only [execRebuildStepCreate, here, calls, first, entry, next, row_, idle, start, Bool.not_true, Bool.or_self, Bool.false_eq_true,
    if_false, List.isEmpty_nil, beq_self_eq_true, Bool.and_self, if_true, Nat.zero_mul, Nat.add_zero]

theorem rebuildStepCreate_makes (creates : Creates s .rebuild none g cx prog r h) (cols : rebuildCols gr pos e.index row = [col])
    (home : rebuildTarget s gr pos e.index row col = some target) (lanes : 0 < gr.geom.m) (blocks : 0 < gr.geom.b)
    (fits : gr.geom.m * gr.geom.b ≤ 256) :
    Runs (.rebuildStepCreate g) s fun t => Logged 0x0B20#16 (g + e.index * 2 ^ 8) s t ∧
      (∃ y, GroupIs g y s t ∧ y = { gr with
        seq := gr.seq + 1, steps := [{ pos := pos, row := row, ctx := cx }], rbReads := y.rbReads }) ∧
      WorkMade s g cx prog h .rebuild none t fun c => fieldOf c.cmd 0 64 = (stripeOfCol gr e.index row col).1 % 2 ^ 64 ∧
        fieldOf c.cmd (8 * 0x18) 64 = row % 2 ^ 64 ∧ fieldOf c.cmd (8 * 0x0E) 8 = target % 2 ^ 8 ∧
        fieldOf c.cmd (8 * 0x0C) 16 = gr.geom.b % 2 ^ 16 := by
  let u := logErr s 0x0B20 .signalBox {} (g + e.index * 2 ^ 8)
  obtain ⟨skip, last, strip⟩ := rebuildStrip_one (s := u) (g := g) (last := some col == [col].getLast?) home lanes blocks fits
  let x := stripeOfCol gr e.index row col
  have counted := updGroup_groupIs (s := u) (fun y => countReads y x.1 x.2 skip) here
  have logged := (creates.step (t := u) (logErr_frame s _ _ _ _) rfl).step (updGroup_frame u g fun y => countReads y x.1 x.2 skip)
    (by rw [counted.1, show u.groups = s.groups from rfl, here, countReads_rest]; rfl)
  have run : exec (.rebuildStepCreate g) s = .next (rebuildPiece (updGroup u g fun y => countReads y x.1 x.2 skip) g pos row e gr target
      x.1 x.2 skip 0 gr.geom.b last) := by
    rw [exec_rebuildStepCreate here assembled idle depth history start rows row_ homed first, rebuildRow, cols]
    simp only [List.foldl_cons, List.foldl_nil]
    rw [strip]
  rw [rebuildPiece_creates counted.1 logged] at run
  refine .of_exec run (execRebuildStepCreate_frame g s) ⟨logErr_logged s _ _ _ _, ⟨_, counted.updGroup _, ?_⟩,
    workMade_of_put rfl rfl fun c cmd _ => ?_⟩
  · rw [countReads_rest, idle]
    rfl
  · rw [cmd]
    exact rebuildDsc_fields ..

end

end

end Sys2Proof.Machine
end

section
/-! Scrub, zeroing and label steps (R193, R236, R334, R378, R392, R393), and every kind of Maintenance work. -/

namespace Sys2Proof.Machine

/-! SCRUB_STEP_CREATE -/

/-- The descriptor of a scrub step (R393). -/
def scrubDsc (g stripe o n resync : Nat) : BitVec 512 :=
  BitVec.ofNat 512 (dscPut 0x40 8 stripe + dscPut 0x4A 2 o + dscPut 0x4C 2 n + dscPut 0x60 1 resync + dscPut 0x61 1 g)

theorem scrubDsc_fields (g stripe o n resync : Nat) : let d := scrubDsc g stripe o n resync
    fieldOf d 0 64 = stripe % 2 ^ 64 ∧ fieldOf d 96 16 = n % 2 ^ 16 := by
  intro d
  simp (disch := decide) only [d, scrubDsc, dsc_skip]
  exact ⟨dsc_first (by decide),
    dsc_here (off := 0x4C) (dsc_below (dsc_first_below (by decide)) (by decide)) (by decide)⟩

section
variable {s : State} {g cx prog : Nat} {gr : Group} {r : Route} {h : HandlerEnt}

theorem scrubStripe_one {stripe : Nat} (creates : Creates s .scrub none g cx prog r h) (lanes : 0 < gr.geom.m) (blocks : 0 < gr.geom.b)
    (fits : gr.geom.m * gr.geom.b ≤ 256) : scrubStripe s g stripe gr false =
      withWork s cx (newWork s .scrub none g cx prog r h (scrubDsc g stripe 0 gr.geom.b (bit false 0)) []) := by
  obtain ⟨pieces, whole⟩ := onePiece lanes blocks fits
  simp only [scrubStripe, pieces, List.range_one, List.foldl_cons, List.foldl_nil, Nat.zero_mul, Nat.sub_zero, whole]
  rw [← scrubDsc, creates.createWork]

/-- The scrub of a stripe that touches no member in possession, after a change of the group that leaves its layout. -/
theorem scrubOne_makes {stripe : Nat} {f : Group → Group} (here : s.groups.find g = some gr) (creates : Creates s .scrub none g cx prog r h)
    (layout : (f gr).layout = gr.layout) (free : touchesPoss s gr stripe = false) (lanes : 0 < gr.geom.m) (blocks : 0 < gr.geom.b)
    (fits : gr.geom.m * gr.geom.b ≤ 256) : let t := scrubOne (updGroup s g f) g stripe gr
    GroupIs g (f gr) s t ∧ WorkMade s g cx prog h .scrub none t fun c =>
      fieldOf c.cmd 0 64 = stripe % 2 ^ 64 ∧ fieldOf c.cmd (8 * 0x0C) 16 = gr.geom.b % 2 ^ 16 := by
  intro t
  have changed := updGroup_groupIs f here
  have still := creates.step (updGroup_frame s g f) (by rw [changed.1, here]; exact congrArg some layout)
  have free' : touchesPoss (updGroup s g f) gr stripe = false := free
  have eq : t = withWork (updGroup s g f) cx (newWork (updGroup s g f) .scrub none g cx prog r h
      (scrubDsc g stripe 0 gr.geom.b (bit false 0)) []) := by
    simp only [t, scrubOne, free', Bool.false_eq_true, if_false]
    exact scrubStripe_one still lanes blocks fits
  rw [eq]
  refine ⟨changed.of_same rfl, workMade_of_put rfl rfl fun c cmd _ => ?_⟩
  rw [cmd]
  exact scrubDsc_fields ..

section
variable (here : s.groups.find g = some gr) (assembled : gr.assembly = .assembled) (calm : rebuilding s gr = false)
  (resync : gr.resync = []) (creates : Creates s .scrub none g cx prog r h) (first : beforeScrub s = false)
include here assembled calm resync creates first

/-- With nothing to do before, a scrub step is of the stripes queued by media events, else of the pass (R378, R392). -/
theorem exec_scrubStepCreate : exec (.scrubStepCreate g) s = .next (
    match gr.scrubQueue with
    | st :: rest => scrubOne (updGroup s g fun x => { x with scrubQueue := rest }) g st gr
    | [] => if !gr.scrubbing || decide (stripesOf gr ≤ gr.scrubNext) then scrubTail s g gr
      else if scrubPaced s gr then scrubOne (updGroup s g fun x => { x with scrubNext := x.scrubNext + 1 }) g gr.scrubNext gr
      else s) := by
  have none_ : nextResync s g gr = none := by rw [nextResync, resync]; rfl
  change execScrubStepCreate g s = _
  simp only [execScrubStepCreate, here, assembled, calm, first, creates.createWork, none_, bne_self_eq_false, Option.isNone_some,
    Bool.or_self, Bool.false_eq_true, if_false] <;> rfl

theorem scrubStepCreate_queued {stripe : Nat} {rest : List Nat} (queue : gr.scrubQueue = stripe :: rest) :
    (touchesPoss s gr stripe = false → 0 < gr.geom.m → 0 < gr.geom.b → gr.geom.m * gr.geom.b ≤ 256 →
      Does (.scrubStepCreate g) [.ctxs, .groups, .seqCtr] s fun t => GroupIs g { gr with scrubQueue := rest } s t ∧
        WorkMade s g cx prog h .scrub none t fun c =>
          fieldOf c.cmd 0 64 = stripe % 2 ^ 64 ∧ fieldOf c.cmd (8 * 0x0C) 16 = gr.geom.b % 2 ^ 16) ∧
    (touchesPoss s gr stripe = true → Does (.scrubStepCreate g) [.groups] s
      (GroupIs g { gr with scrubQueue := rest, scrubLate := gr.scrubLate ++ [stripe] } s)) := by
  have run := exec_scrubStepCreate here assembled calm resync creates first
  rw [queue] at run
  refine ⟨fun free lanes blocks fits => .of_exec run (execScrubStepCreate_frame g s)
    (scrubOne_makes here creates rfl free lanes blocks fits), fun held => ?_⟩
  have held' : touchesPoss (updGroup s g fun x => { x with scrubQueue := rest }) gr stripe = true := held
  simp only [scrubOne, held', if_true] at run
  exact ⟨_, run, (updGroup_frame _ _ _).step (updGroup_frame _ _ _), (updGroup_groupIs _ here).updGroup _⟩

variable (empty : gr.scrubQueue = []) (running : gr.scrubbing = true)
include empty running

theorem scrubStepCreate_pass (more : gr.scrubNext < gr.extents * gr.geom.es) (paced : scrubPaced s gr = true)
    (free : touchesPoss s gr gr.scrubNext = false) (lanes : 0 < gr.geom.m) (blocks : 0 < gr.geom.b) (fits : gr.geom.m * gr.geom.b ≤ 256) :
    Does (.scrubStepCreate g) [.ctxs, .groups, .seqCtr] s fun t => GroupIs g { gr with scrubNext := gr.scrubNext + 1 } s t ∧
      WorkMade s g cx prog h .scrub none t fun c =>
        fieldOf c.cmd 0 64 = gr.scrubNext % 2 ^ 64 ∧ fieldOf c.cmd (8 * 0x0C) 16 = gr.geom.b % 2 ^ 16 := by
  have run := exec_scrubStepCreate here assembled calm resync creates first
  simp only [empty, running, stripesOf, Nat.not_le.2 more, paced, decide_false, Bool.not_true, Bool.or_self, Bool.false_eq_true, if_false,
    if_true] at run
  exact .of_exec run (execScrubStepCreate_frame g s)
    (scrubOne_makes (f := fun x => { x with scrubNext := x.scrubNext + 1 }) here creates rfl free lanes blocks fits)

theorem scrubStepCreate_end (passed : gr.extents * gr.geom.es ≤ gr.scrubNext) :
    (gr.scrubLate = [] → scrubRuns s g = false →
      Does (.scrubStepCreate g) [.groups] s (GroupIs g { gr with scrubbing := false, repairScrub := false } s)) ∧
    (∀ stripe rest, gr.scrubLate = stripe :: rest → touchesPoss s gr stripe = false → 0 < gr.geom.m → 0 < gr.geom.b →
      gr.geom.m * gr.geom.b ≤ 256 → Does (.scrubStepCreate g) [.ctxs, .groups, .seqCtr] s fun t =>
        GroupIs g { gr with scrubLate := rest } s t ∧ WorkMade s g cx prog h .scrub none t fun c =>
          fieldOf c.cmd 0 64 = stripe % 2 ^ 64 ∧ fieldOf c.cmd (8 * 0x0C) 16 = gr.geom.b % 2 ^ 16) := by
  have run : exec (.scrubStepCreate g) s = .next (scrubTail s g gr) := by
    rw [exec_scrubStepCreate here assembled calm resync creates first, empty]
    simp only [stripesOf, passed, decide_true, Bool.or_true, if_true]
  refine ⟨fun none ended => ?_, fun stripe rest late free lanes blocks fits => ?_⟩
  · simp only [scrubTail, none, running, ended, Bool.not_false, Bool.and_self, if_true] at run
    exact ⟨_, run, updGroup_frame _ _ _, updGroup_groupIs _ here⟩
  · simp only [scrubTail, late] at run
    exact .of_exec run (execScrubStepCreate_frame g s)
      (scrubOne_makes (f := fun x => { x with scrubLate := rest }) here creates rfl free lanes blocks fits)

end

/-! ZEROING_CREATE -/

/-- The descriptor of an extent's zeroing (R334). -/
def zeroDsc (g first count extent vol seq : Nat) : BitVec 512 :=
  BitVec.ofNat 512 (dscPut 0x40 8 first + dscPut 0x48 4 count + dscPut 0x4C 4 extent + dscPut 0x50 2 vol + dscPut 0x61 1 g +
    dscPut 0x64 4 seq)

theorem zeroDsc_fields (g first count extent vol seq : Nat) : let d := zeroDsc g first count extent vol seq
    fieldOf d 0 64 = first % 2 ^ 64 ∧ fieldOf d 64 32 = count % 2 ^ 32 ∧ fieldOf d 96 32 = extent % 2 ^ 32 := by
  intro d
  simp (disch := decide) only [d, zeroDsc, dsc_skip]
  exact ⟨dsc_first (by decide),
    dsc_here (off := 0x48) (dsc_first_below (by decide)) (by decide),
    dsc_here (off := 0x4C) (dsc_below (dsc_first_below (by decide)) (by decide)) (by decide)⟩

/-- With no deletion's extent left to zero, the next extent of the group is zeroed (R193, R195). -/
theorem zeroingCreate_makes (here : s.groups.find g = some gr) (creates : Creates s .zero none g cx prog r h) (idle : gr.zeroing = [])
    (more : gr.zeroPlan < gr.extents) (written : gr.creator = none) (first : beforeZero s = false) :
    Does (.zeroingCreate g) [.ctxs, .groups, .seqCtr] s fun t =>
      GroupIs g { gr with seq := gr.seq + 1, zeroPlan := gr.zeroPlan + 1,
                          zeroing := [{ extent := gr.zeroPlan, vol := none }] } s t ∧
      WorkMade s g cx prog h .zero none t fun c => fieldOf c.cmd 0 64 = gr.zeroPlan * gr.geom.es % 2 ^ 64 ∧
        fieldOf c.cmd (8 * 0x08) 32 = gr.geom.es % 2 ^ 32 ∧ fieldOf c.cmd (8 * 0x0C) 32 = gr.zeroPlan % 2 ^ 32 := by
  let z : ZeroWork := { extent := gr.zeroPlan, vol := none }
  have next : nextZero s g gr = some (z, true) := by
    simp only [nextZero, idle, List.find?_nil, written, Option.isNone_none, more, decide_true, Bool.and_self, if_true, z]
  have run : exec (.zeroingCreate g) s = .next (updGroup (withWork s cx (newWork s .zero none g cx prog r h
      (zeroDsc g (gr.zeroPlan * gr.geom.es) gr.geom.es gr.zeroPlan 0xFFFF gr.seq) [])) g fun x =>
      { x with seq := x.seq + 1, zeroPlan := x.zeroPlan + 1, zeroing := x.zeroing ++ [z] }) := by
    change execZeroingCreate g s = _
    simp only [execZeroingCreate, here, first, next, Bool.false_eq_true, if_false, z, Option.getD_none]
    rw [← zeroDsc, creates.createWork]
    rfl
  refine .of_exec run (execZeroingCreate_frame g s) ⟨?_, workMade_of_put rfl rfl fun c cmd _ => ?_⟩
  · have changed := updGroup_groupIs (fun x : Group =>
      { x with seq := x.seq + 1, zeroPlan := x.zeroPlan + 1, zeroing := x.zeroing ++ [z] }) here
    rw [idle] at changed
    exact changed.of_same rfl
  · rw [cmd]
    exact zeroDsc_fields ..

/-! LABEL_WRITE_CREATE -/

/-- The descriptor of a label write (R334). -/
def labelDsc (g kind index join lba n seq : Nat) : BitVec 512 :=
  BitVec.ofNat 512 (dscPut 0x40 1 kind + dscPut 0x41 1 index + dscPut 0x42 1 join + dscPut 0x48 8 lba + dscPut 0x50 2 n +
    dscPut 0x61 1 g + dscPut 0x64 4 seq)

theorem labelDsc_fields (g kind index join lba n seq : Nat) : let d := labelDsc g kind index join lba n seq
    fieldOf d 8 8 = index % 2 ^ 8 ∧ fieldOf d 64 64 = lba % 2 ^ 64 := by
  intro d
  simp (disch := decide) only [d, labelDsc, dsc_skip]
  exact ⟨dsc_here (off := 0x41) (dsc_first_below (by decide)) (by decide),
    dsc_here (off := 0x48) (dsc_below (dsc_below (dsc_first_below (by decide)) (by decide)) (by decide)) (by decide)⟩

/-- One copy of a member label is one block. -/
theorem labelBytes_length (s : State) (g : Nat) (gr : Group) (index copy : Nat) : (labelBytes s g gr index copy).length = 4096 := by
  simp only [labelBytes, sealBytes, List.length_append, layBytes_length, leBytes_length]

/-- The frame that holds a label until it is written. -/
def labelFrame (bs : List Byte) : Frame := { pins := 1, stage := true, prot := true, data := blockOfBytes bs 0 }

/-- The state with the frame of a label. -/
def withLabel (s : State) (fr : Nat) (bs : List Byte) : State :=
  { s with cache := { s.cache with frames := s.cache.frames.put fr (labelFrame bs) }, freeCtr := s.freeCtr + 1 }

theorem allocFrames_label {fr : Nat} (bs : List Byte) (taken : takeFrame s = some fr) :
    allocFrames 1 0 (fun k _ => { pins := 1, stage := true, prot := true, data := blockOfBytes bs k }) s =
      some ([fr], withLabel s fr bs) := by
  simp only [allocFrames, allocFrame, taken]
  rfl

/-- Content of one block gets one frame, and a context that writes it. -/
theorem labelCreate_block {x : Group} {index kind copy fr : Nat} {bs : List Byte} (here : s.groups.find g = some x)
    (creates : Creates s .label none g cx prog r h) (taken : takeFrame s = some fr) (content : labelContent s g x index kind copy = bs)
    (block : bs.length = 4096) : ∃ join, labelCreate s g index kind copy =
      updGroup (withWork (withLabel s fr bs) cx (newWork (withLabel s fr bs) .label none g cx prog r h
        (labelDsc g kind index join (labelLba kind copy) 1 x.seq) [(0, fr)])) g
        fun y => { y with seq := y.seq + 1, labelDirty := false } := by
  refine ⟨bit (!judged (memberState (withLabel s fr bs) x index)) 0, ?_⟩
  have allocated := allocFrames_label bs taken
  have room : Creates (withLabel s fr bs) .label none g cx prog r h :=
    creates.step (OnlyChangesOP.of_eq allocated (allocFrames_frame _ _ _ s)) rfl
  have one : min 256 (max 1 ((bs.length + 4095) / 4096)) = 1 := by omega
  simp only [labelCreate, here, content, one, allocated, List.range_one, List.zip_cons_cons, List.zip_nil_right]
  rw [← labelDsc, room.createWork]

theorem labelWriteCreate_makes {index fr : Nat} (here : s.groups.find g = some gr) (creates : Creates s .label none g cx prog r h)
    (member : index < gr.n) (taken : takeFrame s = some fr) :
    Runs (.labelWriteCreate g index 0) s fun t =>
      GroupIs g { gr with generation := gr.generation + 1, seq := gr.seq + 1, labelDirty := false } s t ∧
      (∃ f, t.cache.frames.find fr = some f ∧ f.stage = true ∧ f.prot = true ∧ f.pins = 1) ∧
      WorkMade s g cx prog h .label none t fun c => c.h = [(15, .frames [(0, fr)])] ∧ fieldOf c.cmd 8 8 = index % 2 ^ 8 ∧
        fieldOf c.cmd 64 64 = 0 := by
  let raised : Group → Group := fun x => { x with generation := x.generation + 1 }
  have changed := updGroup_groupIs raised here
  have still := creates.step (updGroup_frame s g raised) (by rw [changed.1, here]; rfl)
  obtain ⟨join, made⟩ := labelCreate_block (index := index) changed.1 still (fr := fr) taken (if_pos rfl) (labelBytes_length ..)
  have run : exec (.labelWriteCreate g index 0) s = .next (labelCreate (updGroup s g raised) g index 0 0) := by
    change execLabelWriteCreate g index 0 s = _
    simp only [execLabelWriteCreate, here, Nat.not_lt_zero, Nat.not_le.2 member, decide_false, Bool.or_self, Bool.false_eq_true, if_false,
      if_true, raised]
  rw [made] at run
  refine .of_exec run (execLabelWriteCreate_frame g index 0 s) ⟨(changed.of_same rfl).updGroup _,
    ⟨_, Tab.find_put_same _ _ _, rfl, rfl, rfl⟩, workMade_of_put rfl rfl fun c cmd handles => ?_⟩
  rw [cmd]
  exact ⟨handles, labelDsc_fields ..⟩

end

/-- Settles O43: each kind of work finds its context created, and its descriptor's fields are read off where they were put. -/
theorem maintenanceWork : Obligations.MaintenanceWork := by
  unfold Obligations.MaintenanceWork
  intro s g gr cx prog r h here siding room can made m b
  have creates {w : Work} {vol : Option Nat} (may : can w vol) : Creates s w vol g cx prog r h :=
    ⟨siding, room, may.1, may.2.1, may.2.2⟩
  refine ⟨fun stripe v l rest may blocks dirty old fits idle first free =>
      destageCreate_makes here (creates may) blocks dirty old fits idle first free,
    fun pos e row col target may assembled idle depth history start rows row_ cols homed first home lanes blocks fits =>
      rebuildStepCreate_makes here assembled idle depth history start rows row_ homed first (creates may) cols home lanes blocks fits,
    fun assembled calm resync may first => ⟨fun stripe rest queue =>
        scrubStepCreate_queued here assembled calm resync (creates may) first queue,
      fun empty running more paced free lanes blocks fits =>
        scrubStepCreate_pass here assembled calm resync (creates may) first empty running more paced free lanes blocks fits,
      fun empty running passed => scrubStepCreate_end here assembled calm resync (creates may) first empty running passed⟩,
    fun may idle more written first => zeroingCreate_makes here (creates may) idle more written first,
    fun index fr may member taken => labelWriteCreate_makes here (creates may) member taken⟩

end Sys2Proof.Machine
end

section
/-! Admin commands on volumes, shared (R174, R188): what a served command leaves as it was, and one volume that changes. -/

namespace Sys2Proof.Machine

/-- What a served command does to a volume, a group or the Route Book is nothing that its completion rests on. -/
theorem Served.of_frame {s u v : State} {p : Nat} {ps : List Part} (served : Served s u p) (frame : OnlyChanges ps u v)
    (apart : ∀ q ∈ [Part.mbx, .tt, .funcs], q ∉ ps := by decide) : Served s v p :=
  served.of_kept (frame .mbx (apart _ (by decide))) (by rw [now, frame .tt (apart _ (by decide))]; rfl)
    (.of_funcs (frame .funcs (apart _ (by decide))))

/-- A command that ends at once changes no volume and no group. -/
theorem AdminRow.endsAtOnce {c : Instr} {a b : AdminCmd} {row : Bool} {fm form : AdminForm} {s : State} {opc : Nat} {st : Status}
    (of : AdminRow c a row fm) (ready : AdminReady a opc form s) (starts : Starts a b)
    (run : exec c s = .next (adminDone (adminTake s a.port) b st false)) :
    Runs c s fun t => AdminEnds st.code a s t ∧ t.vols = s.vols ∧ t.groups = s.groups ∧ t.out = s.out := by
  obtain ⟨-, -, -, -, -, port, busy, -⟩ := ready
  obtain ⟨t, goes, kept, ends, out⟩ := of.turned port busy starts run
  obtain rfl := Host.Outcome.next.inj (run.symm.trans goes)
  have frame := adminDone_frame (adminTake s a.port) b st false
  exact ⟨_, goes, kept, ends, frame .vols (by decide), frame .groups (by decide), out⟩

section
variable {s t u : State} {n : Nat} {v x : Volume}

theorem VolIs.of_same (is : VolIs n x s t) (same : u.vols = t.vols) : VolIs n x s u := by
  rwa [VolIs, same]

theorem updVol_volIs (f : Volume → Volume) (here : s.vols.find n = some v) : VolIs n (f v) s (updVol s n f) :=
  ⟨(Tab.find_upd_same ..).trans (congrArg (Option.map f) here), fun _ other => Tab.find_upd_other _ _ other⟩

theorem VolIs.updVol (is : VolIs n x s t) (f : Volume → Volume) : VolIs n (f x) s (updVol t n f) :=
  ⟨(Tab.find_upd_same ..).trans (congrArg (Option.map f) is.1), fun _ other => (Tab.find_upd_other _ _ other).trans (is.2 _ other)⟩

theorem find_of_usableVol (here : usableVol s n = some v) : s.vols.find n = some v ∧ v.deleting = false := by
  simpa only [usableVol, Option.filter_eq_some_iff, Bool.not_eq_true'] using here

end

/-- The number of the volume whose commands run is 12 bits wide. -/
theorem eVol_lt (e : BitVec 512) : eVol e < 2 ^ 16 := Nat.lt_of_lt_of_le (BitVec.isLt _) (by decide)

end Sys2Proof.Machine
end

section
/-! IDENTIFY_VOLUME (R192) and BIND_ROUTE (R199, R283). -/

namespace Sys2Proof.Machine

/-! The page of IDENTIFY_VOLUME -/

theorem identifyBytes_length (s : State) (n pf : Nat) : (identifyBytes s n pf).length = 4096 := by
  unfold identifyBytes
  split <;> exact layBytes_length _ _

/-- The fields of the page of a volume in use. -/
theorem identifyBytes_fields {s : State} {n pf : Nat} {v : Volume} (here : s.vols.find n = some v) :
    let at_ : Nat → Nat → Nat := fun k w => leNat (((identifyBytes s n pf).drop k).take w)
    at_ 0 2 = n % 2 ^ 16 ∧ at_ 2 1 = (if v.deleting then 2 else 1) ∧ at_ 3 1 = bit v.pi 0 + bit (v.marks.contains pf) 1 ∧
    at_ 4 1 = v.group % 256 ∧ at_ 6 2 = v.route % 2 ^ 16 ∧ at_ 8 8 = v.blocks % 2 ^ 64 ∧
    at_ 0x10 4 = (v.extents.length + v.piExtents.length) % 2 ^ 32 ∧ at_ 0x14 4 = v.deferredCnt.toNat ∧
    at_ 0x18 8 = v.createTs.toNat := by
  intro at_
  let fields : List (Nat × List Byte) := [(0x000, leBytes 2 n), (0x002, leBytes 1 (if v.deleting then 2 else 1)),
    (0x003, leBytes 1 (bit v.pi 0 + bit (v.marks.contains pf) 1)), (0x004, leBytes 1 v.group), (0x006, leBytes 2 v.route),
    (0x008, leBytes 8 v.blocks), (0x010, leBytes 4 (v.extents.length + v.piExtents.length)),
    (0x014, leBytes 4 v.deferredCnt.toNat), (0x018, leBytes 8 v.createTs.toNat), (0x020, leBytes 2 v.attached.length),
    (0x040, attachMap v)]
  have page : identifyBytes s n pf = layBytes 4096 fields := by simp only [identifyBytes, here, fields]
  have field (i : Nat) {k w x : Nat} (cut : fields = fields.take i ++ (k, leBytes w x) :: fields.drop (i + 1)) (inside : k + w ≤ 4096)
      (later : ∀ f ∈ fields.drop (i + 1), k + w ≤ f.1 ∧ f.1 ≤ 4096) : at_ k w = x % 256 ^ w := by
    have laid := layBytes_field (n := 4096) (k := k) (bs := leBytes w x) (fields.take i) (post := fields.drop (i + 1))
      (by rwa [leBytes_length]) (by rwa [leBytes_length])
    rw [← cut, leBytes_length] at laid
    rw [← leNat_leBytes w x, ← laid, ← page]
  refine ⟨field 0 rfl (by decide) (by simp [fields]), (field 1 rfl (by decide) (by simp [fields])).trans ?_,
    (field 2 rfl (by decide) (by simp [fields])).trans ?_, field 3 rfl (by decide) (by simp [fields]),
    field 4 rfl (by decide) (by simp [fields]), field 5 rfl (by decide) (by simp [fields]), field 6 rfl (by decide) (by simp [fields]),
    (field 7 rfl (by decide) (by simp [fields])).trans (Nat.mod_eq_of_lt v.deferredCnt.isLt),
    (field 8 rfl (by decide) (by simp [fields])).trans (Nat.mod_eq_of_lt v.createTs.isLt)⟩
  · cases v.deleting <;> rfl
  · cases v.pi <;> cases v.marks.contains pf <;> rfl

theorem layBytes_first {n : Nat} {bs : List Byte} (fits : bs.length ≤ n) : layBytes n [(0, bs)] = bs ++ List.replicate (n - bs.length) 0 := by
  have full : (bs ++ List.replicate (n - bs.length) (0 : Byte)).length = n := by
    rw [List.length_append, List.length_replicate]
    omega
  simp only [layBytes, List.foldl_cons, List.foldl_nil, splice, padTo, List.take_zero, List.nil_append, Nat.zero_add, List.drop_replicate,
    full, Nat.sub_self, List.replicate_zero, List.append_nil]
  exact List.take_of_length_le (Nat.le_of_eq full)

/-- The page of a number without a volume is the number and zeros. -/
theorem identifyBytes_none {s : State} {n pf : Nat} (none_ : s.vols.find n = none) :
    leNat (((identifyBytes s n pf).drop 0).take 2) = n % 2 ^ 16 ∧ ∀ b ∈ (identifyBytes s n pf).drop 2, b = 0 := by
  have page : identifyBytes s n pf = layBytes 4096 [(0, leBytes 2 n)] := by simp only [identifyBytes, none_]
  have laid : layBytes 4096 [(0, leBytes 2 n)] = leBytes 2 n ++ List.replicate 4094 0 := by
    rw [layBytes_first (by rw [leBytes_length]; decide), leBytes_length]
  rw [page, laid]
  refine ⟨?_, fun b mem => ?_⟩
  · rw [List.drop_zero, List.take_append_of_le_length (by rw [leBytes_length]), List.take_of_length_le (by rw [leBytes_length])]
    exact leNat_leBytes 2 n
  · rw [List.drop_append_of_le_length (by rw [leBytes_length]), List.drop_of_length_le (by rw [leBytes_length]), List.nil_append] at mem
    exact List.eq_of_mem_replicate mem

section
variable {s : State} {a : AdminCmd}

section
variable (ready : AdminReady a 0x40 { vol := true, dir := .toHost } s)
include ready

theorem exec_identifyVolume : ∃ b, Starts a b ∧ exec (.identifyVolume a) s = .next
    (if adminLen a != 4096 then adminBad (adminTake s a.port) b
     else adminSend (adminTake s a.port) b (identifyBytes (adminTake s a.port) (eVol a.entry) (64 * a.port))) := by
  obtain ⟨b, starts, run⟩ := ready.run
  refine ⟨b, starts, (congrArg _ (run _)).trans ?_⟩
  simp only [starts.entry, starts.len, starts.port]

theorem identifyVolume_bad (len : adminLen a ≠ 4096) : Runs (.identifyVolume a) s fun t =>
    AdminEnds 3 a s t ∧ t.vols = s.vols ∧ t.groups = s.groups ∧ t.out = s.out := by
  obtain ⟨b, starts, run⟩ := exec_identifyVolume ready
  rw [if_pos (bne_iff_ne.2 len)] at run
  exact (adminRowOf_row rfl).endsAtOnce ready starts (st := .invalidField) run

theorem identifyVolume_sends (len : adminLen a = 4096) : Runs (.identifyVolume a) s fun t => AdminEnds 0 a s t ∧
    AdminSent a (identifyBytes s (eVol a.entry) (64 * a.port)) s t := by
  obtain ⟨b, starts, run⟩ := exec_identifyVolume ready
  obtain ⟨-, -, -, -, -, port, busy, moves, -⟩ := ready
  obtain ⟨up, -⟩ := moves (by decide)
  obtain ⟨fn, here⟩ := fnOf_of_pfUp up
  have ro : fnOf (adminTake s a.port) (64 * a.port) = some fn := here
  rw [len, bne_self_eq_false, if_neg Bool.false_ne_true] at run
  refine .of_exec run (execIdentifyVolume_frame a s) ⟨((Served.take busy).of_frame (emitAdmin_frame _ _ _)).ends starts port .success false,
    fn, here, (adminDone_out starts port .success false).trans ?_⟩
  simp only [emitAdmin, emit, starts.port, starts.entry, starts.extents, ro]
  rfl

/-- IDENTIFY_VOLUME sends the fields of its volume, and zeros for a number without one (R192). -/
theorem identifyVolume_page (len : adminLen a = 4096) : Runs (.identifyVolume a) s fun t => AdminEnds 0 a s t ∧
    ∃ bs, AdminSent a bs s t ∧ bs.length = 4096 ∧
      let at_ : Nat → Nat → Nat := fun k n => leNat ((bs.drop k).take n)
      at_ 0 2 = eVol a.entry ∧ (s.vols.find (eVol a.entry) = none → ∀ b ∈ bs.drop 2, b = 0) ∧
      ∀ v, s.vols.find (eVol a.entry) = some v → at_ 2 1 = (if v.deleting then 2 else 1) ∧
        at_ 3 1 = bit v.pi 0 + bit (v.marks.contains (64 * a.port)) 1 ∧ at_ 4 1 = v.group % 256 ∧
        at_ 6 2 = v.route % 2 ^ 16 ∧ at_ 8 8 = v.blocks % 2 ^ 64 ∧
        at_ 0x10 4 = (v.extents.length + v.piExtents.length) % 2 ^ 32 ∧ at_ 0x14 4 = v.deferredCnt.toNat ∧
        at_ 0x18 8 = v.createTs.toNat := by
  have whole : eVol a.entry % 2 ^ 16 = eVol a.entry := Nat.mod_eq_of_lt (eVol_lt _)
  refine (identifyVolume_sends ready len).imp fun t ⟨ends, sent⟩ => ⟨ends, _, sent, identifyBytes_length .., ?_,
    fun none_ => (identifyBytes_none none_).2, fun v here => (identifyBytes_fields here).2⟩
  cases here : s.vols.find (eVol a.entry) with
  | none => exact (identifyBytes_none here).1.trans whole
  | some v => exact (identifyBytes_fields here).1.trans whole

end

/-! BIND_ROUTE -/

section
variable (ready : AdminReady a 0x47 { vol := true, tail := [(40, 0, 16)] } s)
include ready

theorem exec_bindRoute : ∃ b, Starts a b ∧ exec (.bindRoute a) s = .next (
    match (usableVol s (eVol a.entry)).bind fun v => s.groups.find v.group with
    | none => adminBad (adminTake s a.port) b
    | some g =>
      if routeFits s (eBits a.entry 40 0 16) g then
        adminOk (updVol (adminTake s a.port) (eVol a.entry) fun v => { v with route := eBits a.entry 40 0 16 }) b
      else adminBad (adminTake s a.port) b) := by
  obtain ⟨b, starts, run⟩ := ready.run
  refine ⟨b, starts, (congrArg _ (run _)).trans ?_⟩
  simp only [starts.entry] <;> rfl

theorem bindRoute_unusable (gone : usableVol s (eVol a.entry) = none) : Runs (.bindRoute a) s fun t =>
    AdminEnds 3 a s t ∧ t.vols = s.vols ∧ t.groups = s.groups ∧ t.out = s.out := by
  obtain ⟨b, starts, run⟩ := exec_bindRoute ready
  rw [gone] at run
  exact (adminRowOf_row rfl).endsAtOnce ready starts (st := .invalidField) run

variable {v : Volume} {g : Group} (usable : usableVol s (eVol a.entry) = some v) (here : s.groups.find v.group = some g)
include usable here

theorem bindRoute_foreign (no : routeFits s (eBits a.entry 40 0 16) g = false) : Runs (.bindRoute a) s fun t =>
    AdminEnds 3 a s t ∧ t.vols = s.vols ∧ t.groups = s.groups ∧ t.out = s.out := by
  obtain ⟨b, starts, run⟩ := exec_bindRoute ready
  simp only [usable, Option.bind_some, here, no, Bool.false_eq_true, if_false] at run
  exact (adminRowOf_row rfl).endsAtOnce ready starts (st := .invalidField) run

theorem bindRoute_sets (fits : routeFits s (eBits a.entry 40 0 16) g = true) : Runs (.bindRoute a) s fun t =>
    AdminEnds 0 a s t ∧ VolIs (eVol a.entry) { v with route := eBits a.entry 40 0 16 } s t := by
  obtain ⟨b, starts, run⟩ := exec_bindRoute ready
  obtain ⟨-, -, -, -, -, port, busy, -⟩ := ready
  simp only [usable, Option.bind_some, here, fits, if_true] at run
  have set := updVol_volIs (s := adminTake s a.port) (fun v => { v with route := eBits a.entry 40 0 16 }) (find_of_usableVol usable).1
  exact .of_exec run (execBindRoute_frame a s) ⟨((Served.take busy).of_frame (updVol_frame _ _ _)).ends starts port .success false,
    VolIs.of_same set (adminDone_frame _ b .success false .vols (by decide))⟩

end

end

end Sys2Proof.Machine
end

section
/-! CREATE_VOLUME with CREATE and ATTACH (R188 to R191). -/

namespace Sys2Proof.Machine

/-! CREATE -/

/-- What a CREATE makes: a volume of its blocks, with its extents from the group's free ones (R190, R191). -/
theorem createdVol_made {s : State} {e : BitVec 512} {n : Nat} {g x : Group} {v : Volume} (made : createdVol s e n g = some (v, x)) :
    v.fill = none ∧ v.blocks = eLba e + 1 ∧ v.createTs = now s ∧ v.attached = [cvFunc e] ∧ v.route = eBits e 44 0 16 ∧
    v.pi = (eBits e 41 3 1 == 1) ∧ v.extents.length = (eLba e + 262144) / 262144 ∧
    v.piExtents.length = (if eBits e 41 3 1 = 1 then ((eLba e + 262144) / 262144 + 511) / 512 else 0) ∧
    x.used = g.used ++ v.extents ++ v.piExtents := by
  let pi := eBits e 41 3 1 == 1
  let need := extentNeed (eLba e + 1) pi
  let es := (freeExtents g g.extents 0).take (need.1 + need.2)
  have room : ¬es.length < need.1 + need.2 := by
    intro short
    rw [createdVol, if_pos short] at made
    cases made
  rw [createdVol, if_neg room] at made
  obtain ⟨rfl, rfl⟩ : _ ∧ _ := by simpa only [Option.some.injEq, Prod.mk.injEq] using made
  have whole : es.length = need.1 + need.2 := Nat.le_antisymm (List.length_take_le ..) (Nat.le_of_not_lt room)
  have data : need.1 = (eLba e + 262144) / 262144 := by
    simp only [need, extentNeed, Config.extentBlocks]
    omega
  have checks : need.2 = if eBits e 41 3 1 = 1 then (need.1 + 511) / 512 else 0 := by
    simp only [need, extentNeed, pi, beq_iff_eq]
  refine ⟨rfl, rfl, rfl, rfl, rfl, rfl, ?_, ?_, ?_⟩
  · change (es.take need.1).length = _
    rw [List.length_take, whole, ← data]
    omega
  · change (es.drop need.1).length = _
    rw [List.length_drop, whole, ← data, ← checks]
    omega
  · change g.used ++ es = g.used ++ es.take need.1 ++ es.drop need.1
    rw [List.append_assoc, List.take_append_drop]

section
variable {s : State} {a : AdminCmd} (ready : AdminReady a 0x41 cvForm s)
include ready

/-- The checks that all share are met, and so is the action's row. -/
theorem AdminReady.runAction {row : Bool} (of : row = true) : ∃ c, Starts a c ∧
    ∀ body, adminRun s a (eOpc a.entry == 0x41 && row) cvForm body = body c (adminTake s a.port) := by
  subst of
  simpa only [Bool.and_true] using ready.run

theorem createVolume_undefined (action : cvAction a.entry = 3) : Runs (.createVolumeCreate a) s fun t =>
    AdminEnds 3 a s t ∧ t.vols = s.vols ∧ t.groups = s.groups ∧ t.out = s.out := by
  obtain ⟨b, starts, run⟩ := ready.runAction (row := cvAction a.entry == 0 || cvAction a.entry == 3) (by simp [action])
  exact (adminRowOf_row rfl).endsAtOnce ready starts (st := .invalidField) ((congrArg _ (run _)).trans
    (by rw [starts.entry, if_pos action]; rfl))

section
variable (action : cvAction a.entry = 0)
include action

theorem exec_createVolume : ∃ b, Starts a b ∧ exec (.createVolumeCreate a) s = .next (createVolume (adminTake s a.port) b) := by
  obtain ⟨b, starts, run⟩ := ready.runAction (row := cvAction a.entry == 0 || cvAction a.entry == 3) (by simp [action])
  exact ⟨b, starts, (congrArg _ (run _)).trans (by rw [starts.entry, action]; rfl)⟩

end
end

/-! The checks of CREATE, one by one -/

/-- The state with a volume that a CREATE has made, and the group without its extents. -/
def withVolume (s : State) (n : Nat) (v : Volume) (k : Nat) (x : Group) : State :=
  { s with vols := s.vols.put n v, groups := s.groups.put k x }

section
variable {s : State} {a : AdminCmd} {g : Group} (here : s.groups.find (eBits a.entry 41 0 3) = some g)

include here in
theorem createVolume_used (used : ¬(s.vols.find (eVol a.entry) = none ∧ eVol a.entry ∉ s.freedVols)) : createVolume s a = adminBad s a := by
  have taken : (s.vols.has (eVol a.entry) || s.freedVols.contains (eVol a.entry)) = true := by
    rw [Bool.or_eq_true, List.contains_iff_mem, Tab.has, Option.isSome_iff_ne_none]
    grind
  unfold createVolume
  extract_lets e vol gno
  split
  next none_ => exact absurd (here.symm.trans none_) (Option.some_ne_none _)
  next =>
    rw [if_pos]
    rw [Bool.or_eq_true]
    exact .inl taken

variable (serves : g.assembly = .assembled ∨ g.assembly = .repairing) (unused : s.vols.find (eVol a.entry) = none ∧ eVol a.entry ∉ s.freedVols)
include serves unused

omit here in
theorem create_passes : ¬(s.vols.has (eVol a.entry) || s.freedVols.contains (eVol a.entry) ||
    !(g.assembly == .assembled || g.assembly == .repairing)) = true := by
  simpa [Tab.has, unused, or_iff_not_imp_left] using serves

include here

theorem createVolume_degraded (many : 2 ≤ outF g) : createVolume s a = adminDone s a .groupDegradedLimit false := by
  unfold createVolume
  extract_lets e vol gno
  split
  next none_ => exact absurd (here.symm.trans none_) (Option.some_ne_none _)
  next found =>
    obtain rfl := Option.some.inj (here.symm.trans found)
    rw [if_neg (create_passes serves unused), if_pos many]

/-- With at most one failed member, the free extents of the group decide (R190). -/
theorem createVolume_made (sound : outF g < 2) : (createdVol s a.entry (eBits a.entry 41 0 3) g = none ∧ createVolume s a = adminBad s a) ∨
    ∃ v x, createdVol s a.entry (eBits a.entry 41 0 3) g = some (v, x) ∧ createVolume s a =
      let t := withVolume s (eVol a.entry) v (eBits a.entry 41 0 3) x
      if !routeFits s v.route g || (fnOf s (cvFunc a.entry)).isNone || !sumsFit t then adminBad s a
      else if v.pi then updVol (rbChange t) (eVol a.entry) fun v => { v with fill := some { cmd := some a } }
      else adminOk (rbChange t) a := by
  unfold createVolume
  extract_lets e vol gno
  split
  next none_ => exact absurd (here.symm.trans none_) (Option.some_ne_none _)
  next found =>
    obtain rfl := Option.some.inj (here.symm.trans found)
    rw [if_neg (create_passes serves unused), if_neg (Nat.not_le.2 sound)]
    split
    next none_ => exact .inl ⟨none_, rfl⟩
    next v x made => exact .inr ⟨v, x, made, rfl⟩

end

/-! CREATE as a command -/

section
variable {s : State} {a : AdminCmd} {g : Group} (ready : AdminReady a 0x41 cvForm s) (action : cvAction a.entry = 0)
  (here : s.groups.find (eBits a.entry 41 0 3) = some g)
include ready action here

theorem createVolumeCreate_used (used : ¬(s.vols.find (eVol a.entry) = none ∧ eVol a.entry ∉ s.freedVols)) :
    Runs (.createVolumeCreate a) s fun t => AdminEnds 3 a s t ∧ t.vols = s.vols ∧ t.groups = s.groups ∧ t.out = s.out := by
  obtain ⟨b, starts, run⟩ := exec_createVolume ready action
  rw [createVolume_used (g := g) (by rw [starts.entry]; exact here) (by rw [starts.entry]; exact used)] at run
  exact (adminRowOf_row rfl).endsAtOnce ready starts (st := .invalidField) run

variable (serves : g.assembly = .assembled ∨ g.assembly = .repairing) (unused : s.vols.find (eVol a.entry) = none ∧ eVol a.entry ∉ s.freedVols)
include serves unused

theorem createVolumeCreate_degraded (many : 2 ≤ outF g) :
    Runs (.createVolumeCreate a) s fun t => AdminEnds 14 a s t ∧ t.vols = s.vols ∧ t.groups = s.groups ∧ t.out = s.out := by
  obtain ⟨b, starts, run⟩ := exec_createVolume ready action
  rw [createVolume_degraded (g := g) (by rw [starts.entry]; exact here) serves (by rw [starts.entry]; exact unused) many] at run
  exact (adminRowOf_row rfl).endsAtOnce ready starts (st := .groupDegradedLimit) run

variable (sound : outF g < 2)
include sound

theorem createVolumeCreate_full (none_ : createdVol (adminTake s a.port) a.entry (eBits a.entry 41 0 3) g = none) :
    Runs (.createVolumeCreate a) s fun t => AdminEnds 3 a s t ∧ t.vols = s.vols ∧ t.groups = s.groups ∧ t.out = s.out := by
  obtain ⟨b, starts, run⟩ := exec_createVolume ready action
  have outcome := createVolume_made (s := adminTake s a.port) (a := b) (by rw [starts.entry]; exact here) serves
    (by rw [starts.entry]; exact unused) sound
  rw [starts.entry] at outcome
  obtain ⟨-, bad⟩ | ⟨v, x, made, -⟩ := outcome
  · rw [bad] at run
    exact (adminRowOf_row rfl).endsAtOnce ready starts (st := .invalidField) run
  · exact absurd (made.symm.trans none_) (Option.some_ne_none _)

variable {v : Volume} {x : Group} (made : createdVol (adminTake s a.port) a.entry (eBits a.entry 41 0 3) g = some (v, x))
include made

theorem exec_createVolume_made : ∃ b, Starts a b ∧ exec (.createVolumeCreate a) s = .next (
    let t := withVolume (adminTake s a.port) (eVol a.entry) v (eBits a.entry 41 0 3) x
    if !routeFits s v.route g || (fnOf s (cvFunc a.entry)).isNone || !sumsFit t then adminBad (adminTake s a.port) b
      else if v.pi then updVol (rbChange t) (eVol a.entry) fun v => { v with fill := some { cmd := some b } }
      else adminOk (rbChange t) b) := by
  obtain ⟨b, starts, run⟩ := exec_createVolume ready action
  have outcome := createVolume_made (s := adminTake s a.port) (a := b) (by rw [starts.entry]; exact here) serves
    (by rw [starts.entry]; exact unused) sound
  rw [starts.entry] at outcome
  obtain ⟨none_, -⟩ | ⟨v', x', made', eq⟩ := outcome
  · exact absurd (made.symm.trans none_) (Option.some_ne_none _)
  · obtain ⟨rfl, rfl⟩ : v = v' ∧ x = x' := by simpa only [Option.some.injEq, Prod.mk.injEq] using made.symm.trans made'
    exact ⟨b, starts, run.trans (congrArg _ eq)⟩

theorem createVolumeCreate_unfit (bad : ¬(routeFits s v.route g = true ∧ (fnOf s (cvFunc a.entry)).isSome = true ∧
      sumsFit (withVolume (adminTake s a.port) (eVol a.entry) v (eBits a.entry 41 0 3) x) = true)) :
    Runs (.createVolumeCreate a) s fun t => AdminEnds 3 a s t ∧ t.vols = s.vols ∧ t.groups = s.groups ∧ t.out = s.out := by
  obtain ⟨b, starts, run⟩ := exec_createVolume_made ready action here serves unused sound made
  rw [if_pos] at run
  · exact (adminRowOf_row rfl).endsAtOnce ready starts (st := .invalidField) run
  · by_contra fits
    simp only [Bool.or_eq_true, Bool.not_eq_true', not_or, Bool.not_eq_false, Option.isNone_iff_eq_none] at fits
    obtain ⟨⟨route, func⟩, sums⟩ := fits
    exact bad ⟨route, Option.isSome_iff_ne_none.2 func, sums⟩

theorem createVolumeCreate_makes (fits : routeFits s v.route g = true ∧ (fnOf s (cvFunc a.entry)).isSome = true ∧
      sumsFit (withVolume (adminTake s a.port) (eVol a.entry) v (eBits a.entry 41 0 3) x) = true) :
    Runs (.createVolumeCreate a) s fun t => (∃ w, VolIs (eVol a.entry) { v with fill := w } s t ∧
        (v.pi = false → w = none ∧ AdminEnds 0 a s t) ∧ (v.pi = true → ∃ b, w = some { cmd := some b } ∧ AdminWaits a [b] s t)) ∧
      GroupIs (eBits a.entry 41 0 3) x s t ∧ t.rb.changed = true ∧ t.out = s.out := by
  obtain ⟨b, starts, run⟩ := exec_createVolume_made ready action here serves unused sound made
  obtain ⟨-, -, -, -, -, port, busy, -⟩ := ready
  obtain ⟨route, func, sums⟩ := fits
  rw [if_neg (by simp [route, Option.isSome_iff_ne_none.1 func, sums])] at run
  let t := rbChange (withVolume (adminTake s a.port) (eVol a.entry) v (eBits a.entry 41 0 3) x)
  have vol : VolIs (eVol a.entry) v s t := ⟨Tab.find_put_same _ _ _, fun _ other => Tab.find_put_other _ _ other⟩
  have grp : GroupIs (eBits a.entry 41 0 3) x s t := ⟨Tab.find_put_same _ _ _, fun _ other => Tab.find_put_other _ _ other⟩
  obtain ⟨unfilled, -⟩ := createdVol_made made
  by_cases pi : v.pi = true
  · rw [if_pos pi] at run
    exact .of_exec run (execCreateVolumeCreate_frame a s) ⟨⟨_, vol.updVol _, fun no => absurd pi (by simp [no]), fun _ =>
      ⟨b, rfl, rfl, rfl, b, .head _, starts.entry, starts.port⟩⟩, GroupIs.of_same grp rfl, rfl, rfl⟩
  · rw [if_neg pi] at run
    have done := adminDone_frame t b .success false
    have served : Served s t a.port := (Served.take busy).of_kept rfl rfl (.of_funcs rfl)
    have same : { v with fill := none } = v := by rw [← unfilled]
    exact .of_exec run (execCreateVolumeCreate_frame a s) ⟨⟨none, by rw [same]; exact vol.of_same (done .vols (by decide)),
      fun _ => ⟨rfl, served.ends starts port .success false⟩, fun yes => absurd yes pi⟩, GroupIs.of_same grp (done .groups (by decide)),
      congrArg RouteBook.changed (done .rb (by decide)), adminDone_out starts port .success false⟩

end

/-! ATTACH -/

section
variable {s : State} {a : AdminCmd} (ready : AdminReady a 0x41 cvForm s) (action : cvAction a.entry = 1)
include ready action

theorem exec_attachVolume : ∃ b, Starts a b ∧ exec (.createVolumeAttach a) s = .next (attachVolume (adminTake s a.port) b) := by
  obtain ⟨b, starts, run⟩ := ready.runAction (row := cvAction a.entry == 1) (by simp [action])
  exact ⟨b, starts, congrArg _ (run _)⟩

theorem attachVolume_bad (bad : usableVol s (eVol a.entry) = none ∨ fnOf s (cvFunc a.entry) = none ∨ eLba a.entry ≠ 0) :
    Runs (.createVolumeAttach a) s fun t => AdminEnds 3 a s t ∧ t.vols = s.vols ∧ t.groups = s.groups ∧ t.out = s.out := by
  obtain ⟨b, starts, run⟩ := exec_attachVolume ready action
  refine (adminRowOf_row rfl).endsAtOnce ready starts (st := .invalidField) (run.trans (congrArg _ ?_))
  unfold attachVolume
  rw [starts.entry]
  extract_lets f n
  split
  next => rfl
  next v usable =>
    have wrong : fnOf s (cvFunc a.entry) = none ∨ eLba a.entry ≠ 0 :=
      bad.resolve_left fun gone => absurd (usable.symm.trans gone) (Option.some_ne_none _)
    exact if_pos (show ((fnOf s (cvFunc a.entry)).isNone || eLba a.entry != 0) = true by simpa using wrong)

variable {v : Volume} (usable : usableVol s (eVol a.entry) = some v) (func : (fnOf s (cvFunc a.entry)).isSome = true)
  (lba : eLba a.entry = 0)
include usable func lba

theorem exec_attachVolume_usable : ∃ b, Starts a b ∧ exec (.createVolumeAttach a) s = .next (
    let u := adminTake s a.port
    let t := updVol u (eVol a.entry) fun v => { v with attached := v.attached ++ [cvFunc a.entry] }
    if v.attached.contains (cvFunc a.entry) then adminOk u b
    else if sumsFit t then adminOk (noteSums u t) b else adminBad u b) := by
  obtain ⟨b, starts, run⟩ := exec_attachVolume ready action
  refine ⟨b, starts, run.trans (congrArg _ ?_)⟩
  unfold attachVolume
  rw [starts.entry]
  extract_lets f n t u w
  split
  next gone => exact absurd (usable.symm.trans gone) (Option.some_ne_none _)
  next found =>
    obtain rfl := Option.some.inj (usable.symm.trans found)
    exact if_neg (show ¬((fnOf s (cvFunc a.entry)).isNone || eLba a.entry != 0) = true by
      simpa [lba] using Option.isSome_iff_ne_none.1 func)

theorem attachVolume_again (attached : cvFunc a.entry ∈ v.attached) :
    Runs (.createVolumeAttach a) s fun t => AdminEnds 0 a s t ∧ t.vols = s.vols ∧ t.groups = s.groups ∧ t.out = s.out := by
  obtain ⟨b, starts, run⟩ := exec_attachVolume_usable ready action usable func lba
  rw [if_pos (List.contains_iff_mem.2 attached)] at run
  exact (adminRowOf_row rfl).endsAtOnce ready starts (st := .success) run

variable (anew : cvFunc a.entry ∉ v.attached)
include anew

theorem attachVolume_attaches (fits : sumsFit (updVol (adminTake s a.port) (eVol a.entry) fun v =>
      { v with attached := v.attached ++ [cvFunc a.entry] }) = true) :
    Runs (.createVolumeAttach a) s fun t => AdminEnds 0 a s t ∧
      VolIs (eVol a.entry) { v with attached := v.attached ++ [cvFunc a.entry] } s t := by
  obtain ⟨b, starts, run⟩ := exec_attachVolume_usable ready action usable func lba
  rw [if_neg (mt List.contains_iff_mem.1 anew), if_pos fits] at run
  obtain ⟨-, -, -, -, -, port, busy, -⟩ := ready
  let t := updVol (adminTake s a.port) (eVol a.entry) fun v => { v with attached := v.attached ++ [cvFunc a.entry] }
  have set : VolIs (eVol a.entry) _ s t := updVol_volIs (s := adminTake s a.port) _ (find_of_usableVol usable).1
  have noted := noteSums_frame (adminTake s a.port) t
  have served := ((Served.take busy).of_frame (updVol_frame _ _ _)).of_frame noted
  exact .of_exec run (execCreateVolumeAttach_frame a s) ⟨served.ends starts port .success false,
    (set.of_same (noted .vols (by decide))).of_same (adminDone_frame _ b .success false .vols (by decide))⟩

theorem attachVolume_unfit (bad : sumsFit (updVol (adminTake s a.port) (eVol a.entry) fun v =>
      { v with attached := v.attached ++ [cvFunc a.entry] }) = false) :
    Runs (.createVolumeAttach a) s fun t => AdminEnds 3 a s t ∧ t.vols = s.vols ∧ t.groups = s.groups ∧ t.out = s.out := by
  obtain ⟨b, starts, run⟩ := exec_attachVolume_usable ready action usable func lba
  rw [if_neg (mt List.contains_iff_mem.1 anew), if_neg (by simp [bad])] at run
  exact (adminRowOf_row rfl).endsAtOnce ready starts (st := .invalidField) run

end

end Sys2Proof.Machine
end

section
/-! CREATE_VOLUME with DETACH, and DELETE_VOLUME (R189, R191, R193): what waits, and what ends it. -/

namespace Sys2Proof.Machine

/-! What ends a wait -/

theorem volBusy_congr {s t : State} (ctxs : t.ctxs = s.ctxs) (funcs : t.funcs = s.funcs) (n : Nat) (f : Option Nat) :
    volBusy t n f = volBusy s n f := by
  rw [volBusy, volBusy, ctxs, funcs]

/-- The volume n waits for the functions that are still busy, of those that it has waited for. -/
def keepWaiting (s : State) (n : Nat) : State :=
  updVol s n fun v => { v with detachWait := v.detachWait.filter fun x => volBusy s n (some x.1) }

/-- The DETACH commands of a volume whose functions are no longer busy end. -/
def endDetached (s : State) (n : Nat) (v : Volume) : State :=
  (v.detachWait.filter fun x => !volBusy s n (some x.1)).foldl (fun s x => adminDone s x.2 .success false) (keepWaiting s n)

theorem volSettle_eq {s : State} {n : Nat} {v : Volume} (here : s.vols.find n = some v) : volSettle s n =
    if v.deleting && v.fill.isNone && !volBusy (endDetached s n v) n none then finishDelete (endDetached s n v) n v
    else endDetached s n v := by
  unfold volSettle
  rw [here]
  rfl

theorem keepWaiting_frame (s : State) (n : Nat) : OnlyChanges [.vols] s (keepWaiting s n) := updVol_frame _ _ _

theorem VolIs.keepWaiting {s t : State} {n : Nat} {v : Volume} (is : VolIs n v s t) :
    VolIs n { v with detachWait := v.detachWait.filter fun x => volBusy t n (some x.1) } s (keepWaiting t n) :=
  is.updVol _

/-- What becomes of the one DETACH that a volume awaits. -/
theorem volSettle_detach {s : State} {n f : Nat} {v : Volume} {b : AdminCmd} (here : s.vols.find n = some v) (lives : v.deleting = false)
    (waits : v.detachWait = [(f, b)]) :
    (volBusy s n (some f) = false → volSettle s n = adminDone (keepWaiting s n) b .success false) ∧
    (volBusy s n (some f) = true → volSettle s n = keepWaiting s n) := by
  have settled : volSettle s n = endDetached s n v := by
    rw [volSettle_eq here, lives, Bool.false_and, Bool.false_and]
    exact if_neg Bool.false_ne_true
  rw [settled, endDetached, waits]
  constructor <;> intro state <;> simp [state]

/-- The state in which a volume is gone, before its DELETE_VOLUME ends. -/
def deletedVol (s : State) (n : Nat) (v : Volume) : State :=
  let u := dropVolFrames s n
  updGroup (rbChange { u with
    seqCtr := u.seqCtr + 1, vols := u.vols.del n, freedVols := u.freedVols ++ [n],
    fare := { u.fare with deleted := u.fare.deleted ++ [fareLast n v] } }) v.group fun g =>
    { g with zeroing := g.zeroing ++ ((v.extents ++ v.piExtents).mergeSort (· ≤ ·)).map fun e =>
      { extent := e, vol := some n, batch := u.seqCtr } }

theorem finishDelete_ends {s : State} {n : Nat} {v : Volume} {b : AdminCmd} (waits : v.deleteWait = some b) :
    finishDelete s n v = adminDone (deletedVol s n v) b .success false := by
  unfold finishDelete
  rw [waits]
  rfl

/-- No frame holds a block of a deleted volume (R193). -/
theorem dropVolFrames_unmaps {s : State} {n : Nat} : ∀ x ∈ (dropVolFrames s n).cache.frames, ∀ l, x.2.key ≠ some (n, l) := by
  intro x mem l key
  obtain ⟨y, -, rfl⟩ := List.mem_map.1 mem
  cases held : y.2.key with
  | none => simp [held] at key
  | some z =>
    simp only [held] at key
    split at key
    next => cases key
    next other =>
      obtain rfl := Option.some.inj key
      exact other (beq_self_eq_true _)

/-- Each extent of a deleted volume is to be zeroed (R193). -/
theorem deletedVol_zeroing {s : State} {n : Nat} {v : Volume} {g : Group} (here : s.groups.find v.group = some g) :
    ∃ y, (deletedVol s n v).groups.find v.group = some y ∧
      ∀ x ∈ v.extents ++ v.piExtents, ∃ z ∈ y.zeroing, z.extent = x ∧ z.vol = some n := by
  refine ⟨_, (Tab.find_upd_same ..).trans (congrArg (Option.map _) here), fun x mem => ?_⟩
  exact ⟨_, List.mem_append_right _ (List.mem_map.2 ⟨x, (List.mem_mergeSort).2 mem, rfl⟩), rfl, rfl⟩

section
variable {s : State} {a : AdminCmd}

/-! DETACH -/

section
variable (ready : AdminReady a 0x41 cvForm s) (action : cvAction a.entry = 2) {v : Volume}
  (usable : usableVol s (eVol a.entry) = some v) (func : (fnOf s (cvFunc a.entry)).isSome = true) (lba : eLba a.entry = 0)
include ready action usable func lba

theorem exec_detachVolume : ∃ b, Starts a b ∧ exec (.createVolumeDetach a) s = .next (
    let u := adminTake s a.port
    let f := cvFunc a.entry
    if v.attached.contains f then
      volSettle (noteSums u (updVol u (eVol a.entry) fun v => { v with
        attached := v.attached.filter (· != f), marks := v.marks.filter (· != f), detachWait := v.detachWait ++ [(f, b)] })) (eVol a.entry)
    else adminBad u b) := by
  obtain ⟨b, starts, run⟩ := ready.runAction (row := cvAction a.entry == 2) (by simp [action])
  refine ⟨b, starts, (congrArg _ (run _)).trans (congrArg _ ?_)⟩
  unfold detachVolume
  rw [starts.entry]
  extract_lets f n u
  split
  next gone => exact absurd (usable.symm.trans gone) (Option.some_ne_none _)
  next found =>
    obtain rfl := Option.some.inj (usable.symm.trans found)
    have open_ : ((fnOf s f).isNone || eLba a.entry != 0) = false := by
      simpa [lba] using func
    by_cases attached : v.attached.contains f = true
    · refine (if_neg (show ¬((fnOf s f).isNone || eLba a.entry != 0 || !v.attached.contains f) = true from ?_)).trans
        (if_pos attached).symm
      rw [open_, attached]
      decide
    · refine (if_pos (show ((fnOf s f).isNone || eLba a.entry != 0 || !v.attached.contains f) = true from ?_)).trans
        (if_neg attached).symm
      rw [Bool.eq_false_iff.2 attached, Bool.not_false, Bool.or_true]

theorem detachVolume_foreign (apart : cvFunc a.entry ∉ v.attached) : Runs (.createVolumeDetach a) s fun t =>
    AdminEnds 3 a s t ∧ t.vols = s.vols ∧ t.groups = s.groups ∧ t.out = s.out := by
  obtain ⟨b, starts, run⟩ := exec_detachVolume ready action usable func lba
  rw [if_neg (mt List.contains_iff_mem.1 apart)] at run
  exact (adminRowOf_row rfl).endsAtOnce ready starts (st := .invalidField) run

variable (attached : cvFunc a.entry ∈ v.attached) (alone : v.detachWait = [])
include attached alone

/-- A DETACH takes the function off the volume's list at once, and waits for its commands (R191). -/
theorem exec_detachVolume_waits : ∃ b u, Starts a b ∧ VolIs (eVol a.entry) { v with
      attached := v.attached.filter (· != cvFunc a.entry), marks := v.marks.filter (· != cvFunc a.entry),
      detachWait := [(cvFunc a.entry, b)] } s u ∧
    OnlyChanges [.vols, .rb] (adminTake s a.port) u ∧ exec (.createVolumeDetach a) s = .next (volSettle u (eVol a.entry)) := by
  obtain ⟨b, starts, run⟩ := exec_detachVolume ready action usable func lba
  rw [if_pos (List.contains_iff_mem.2 attached)] at run
  have noted := noteSums_frame (adminTake s a.port) (updVol (adminTake s a.port) (eVol a.entry) fun v => { v with
    attached := v.attached.filter (· != cvFunc a.entry), marks := v.marks.filter (· != cvFunc a.entry),
    detachWait := v.detachWait ++ [(cvFunc a.entry, b)] })
  have set := updVol_volIs (s := adminTake s a.port) (fun v => { v with
    attached := v.attached.filter (· != cvFunc a.entry), marks := v.marks.filter (· != cvFunc a.entry),
    detachWait := v.detachWait ++ [(cvFunc a.entry, b)] }) (find_of_usableVol usable).1
  rw [alone, List.nil_append] at set
  exact ⟨b, _, starts, set.of_same (noted .vols (by decide)), noted.step ((updVol_frame _ _ _).step (OnlyChanges.refl _ _)), run⟩

theorem detachVolume_ends (free : volBusy s (eVol a.entry) (some (cvFunc a.entry)) = false) : Runs (.createVolumeDetach a) s fun t =>
    AdminEnds 0 a s t ∧ VolIs (eVol a.entry) { v with
      attached := v.attached.filter (· != cvFunc a.entry), marks := v.marks.filter (· != cvFunc a.entry) } s t := by
  obtain ⟨b, u, starts, set, frame, run⟩ := exec_detachVolume_waits ready action usable func lba attached alone
  obtain ⟨-, -, -, -, -, port, busy, -⟩ := ready
  have free' := (volBusy_congr (frame .ctxs (by decide) : _ = s.ctxs) (frame .funcs (by decide) : _ = s.funcs) _ _).trans free
  obtain ⟨ended, -⟩ := volSettle_detach set.1 (find_of_usableVol usable).2 rfl
  have kept := set.keepWaiting
  simp only [List.filter_cons, List.filter_nil, free', Bool.false_eq_true, if_false] at kept
  rw [← alone] at kept
  rw [ended free'] at run
  have served := ((Served.take busy).of_frame frame).of_frame (keepWaiting_frame u (eVol a.entry))
  exact .of_exec run (execCreateVolumeDetach_frame a s) ⟨served.ends starts port .success false,
    kept.of_same (adminDone_frame _ b .success false .vols (by decide))⟩

theorem detachVolume_waits (held : volBusy s (eVol a.entry) (some (cvFunc a.entry)) = true) : Runs (.createVolumeDetach a) s fun t => ∃ w,
    VolIs (eVol a.entry) { v with
      attached := v.attached.filter (· != cvFunc a.entry), marks := v.marks.filter (· != cvFunc a.entry), detachWait := w } s t ∧
    AdminWaits a (w.map Prod.snd) s t := by
  obtain ⟨b, u, starts, set, frame, run⟩ := exec_detachVolume_waits ready action usable func lba attached alone
  have held' := (volBusy_congr (frame .ctxs (by decide) : _ = s.ctxs) (frame .funcs (by decide) : _ = s.funcs) _ _).trans held
  obtain ⟨-, waits⟩ := volSettle_detach set.1 (find_of_usableVol usable).2 rfl
  have kept := set.keepWaiting
  simp only [List.filter_cons, List.filter_nil, held', if_true] at kept
  rw [waits held'] at run
  exact .of_exec run (execCreateVolumeDetach_frame a s) ⟨_, kept, frame .mbx (by decide), frame .funcs (by decide),
    b, .head _, starts.entry, starts.port⟩

end

/-! DELETE_VOLUME -/

section
variable (ready : AdminReady a 0x42 { vol := true } s)
include ready

theorem exec_deleteVolume : ∃ b, Starts a b ∧ exec (.deleteVolume a) s = .next (
    match usableVol s (eVol a.entry) with
    | none => adminBad (adminTake s a.port) b
    | some _ => volSettle (rbChange (updVol (adminTake s a.port) (eVol a.entry) fun v =>
        { v with deleting := true, deleteWait := some b })) (eVol a.entry)) := by
  obtain ⟨b, starts, run⟩ := ready.run
  exact ⟨b, starts, (congrArg _ (run _)).trans (by rw [starts.entry]; rfl)⟩

theorem deleteVolume_unusable (gone : usableVol s (eVol a.entry) = none) : Runs (.deleteVolume a) s fun t =>
    AdminEnds 3 a s t ∧ t.vols = s.vols ∧ t.groups = s.groups ∧ t.out = s.out := by
  obtain ⟨b, starts, run⟩ := exec_deleteVolume ready
  rw [gone] at run
  exact (adminRowOf_row rfl).endsAtOnce ready starts (st := .invalidField) run

variable {v : Volume} (usable : usableVol s (eVol a.entry) = some v) (alone : v.detachWait = [])
include usable alone

/-- A DELETE_VOLUME marks its volume, and waits until its commands have ended and its PI is written (R193). -/
theorem exec_deleteVolume_marks : ∃ b u, Starts a b ∧ VolIs (eVol a.entry) { v with deleting := true, deleteWait := some b } s u ∧
    OnlyChanges [.vols, .rb] (adminTake s a.port) u ∧ u.rb.changed = true ∧ (Tab.sorted s.vols = true → Tab.sorted u.vols = true) ∧
    exec (.deleteVolume a) s = .next (if v.fill.isNone && !volBusy s (eVol a.entry) none then
      finishDelete u (eVol a.entry) { v with deleting := true, deleteWait := some b } else u) := by
  obtain ⟨b, starts, run⟩ := exec_deleteVolume ready
  rw [usable] at run
  let n := eVol a.entry
  let mark : Volume → Volume := fun v => { v with deleting := true, deleteWait := some b }
  let u := rbChange (updVol (adminTake s a.port) n mark)
  obtain ⟨here, -⟩ := find_of_usableVol usable
  have set : VolIs n (mark v) s u := updVol_volIs (s := adminTake s a.port) mark here
  have waits : (mark v).detachWait = [] := alone
  have frame : OnlyChanges [.vols, .rb] (adminTake s a.port) (keepWaiting u n) :=
    (keepWaiting_frame _ _).step ((rbChange_frame _).step ((updVol_frame _ _ _).step (OnlyChanges.refl _ _)))
  have ended : endDetached u n (mark v) = keepWaiting u n := by rw [endDetached, waits]; rfl
  have kept : VolIs n (mark v) s (keepWaiting u n) := by
    have kept := set.keepWaiting
    rw [waits, List.filter_nil, ← waits] at kept
    exact kept
  refine ⟨b, keepWaiting u n, starts, kept, frame, rfl, fun sorted => Tab.sorted_upd (Tab.sorted_upd sorted), run.trans (congrArg _ ?_)⟩
  refine (volSettle_eq set.1).trans ?_
  rw [ended, volBusy_congr (frame .ctxs (by decide) : _ = s.ctxs) (frame .funcs (by decide) : _ = s.funcs)]
  rfl

theorem deleteVolume_waits (held : volBusy s (eVol a.entry) none = true ∨ v.fill.isSome = true) : Runs (.deleteVolume a) s fun t =>
    t.rb.changed = true ∧ ∃ w, VolIs (eVol a.entry) { v with deleting := true, deleteWait := some w } s t ∧ AdminWaits a [w] s t := by
  obtain ⟨b, u, starts, set, frame, changed, -, run⟩ := exec_deleteVolume_marks ready usable alone
  have still : ¬(v.fill.isNone && !volBusy s (eVol a.entry) none) = true := by
    rcases held with busy | filling
    · rw [busy, Bool.not_true, Bool.and_false]
      decide
    · rw [Option.isNone_eq_false_iff.2 filling, Bool.false_and]
      decide
  rw [if_neg still] at run
  exact .of_exec run (execDeleteVolume_frame a s) ⟨changed, b, set, frame .mbx (by decide), frame .funcs (by decide),
    b, .head _, starts.entry, starts.port⟩

theorem deleteVolume_ends (free : volBusy s (eVol a.entry) none = false) (filled : v.fill = none) (sorted : Tab.sorted s.vols = true) :
    Runs (.deleteVolume a) s fun t => AdminEnds 0 a s t ∧ t.vols.find (eVol a.entry) = none ∧
      t.freedVols = s.freedVols ++ [eVol a.entry] ∧ (∀ k, k ≠ eVol a.entry → t.vols.find k = s.vols.find k) ∧ t.rb.changed = true ∧
      (∀ x ∈ t.cache.frames, ∀ l, x.2.key ≠ some (eVol a.entry, l)) ∧ ∀ g, s.groups.find v.group = some g → ∃ y,
        t.groups.find v.group = some y ∧ ∀ x ∈ v.extents ++ v.piExtents, ∃ z ∈ y.zeroing, z.extent = x ∧ z.vol = some (eVol a.entry) := by
  obtain ⟨b, u, starts, set, frame, -, order, run⟩ := exec_deleteVolume_marks ready usable alone
  obtain ⟨-, -, -, -, -, port, busy, -⟩ := ready
  rw [if_pos (by simp [free, filled]), finishDelete_ends rfl] at run
  let n := eVol a.entry
  let y : Volume := { v with deleting := true, deleteWait := some b }
  have done := adminDone_frame (deletedVol u n y) b .success false
  have served : Served s (deletedVol u n y) a.port := ((Served.take busy).of_frame frame).of_kept rfl rfl (.of_funcs rfl)
  have vols : (deletedVol u n y).vols = u.vols.del n := rfl
  have groups : u.groups = s.groups := frame .groups (by decide)
  refine .of_exec run (execDeleteVolume_frame a s) ⟨served.ends starts port .success false, ?_, ?_, fun k other => ?_, ?_, ?_,
    fun g here => ?_⟩
  · rw [done .vols (by decide), vols, Tab.find_del_same (order sorted)]
  · rw [done .freedVols (by decide)]
    exact congrArg (· ++ [n]) (frame .freedVols (by decide))
  · rw [done .vols (by decide), vols, Tab.find_del_other _ other, set.2 k other]
  · rw [done .rb (by decide)]
    rfl
  · rw [done .cache (by decide)]
    exact dropVolFrames_unmaps
  · rw [done .groups (by decide)]
    exact deletedVol_zeroing (v := y) (by rw [groups]; exact here)

end

end

/-- Settles O52: each admin command on a volume ends, or waits for what the volume awaits. -/
theorem adminVolumes : Obligations.AdminVolumes := by
  unfold Obligations.AdminVolumes
  intro s a
  refine ⟨fun ready => ⟨identifyVolume_bad ready, identifyVolume_page ready⟩,
    fun ready => ⟨fun action g here serves => ⟨createVolumeCreate_used ready action here,
        createVolumeCreate_degraded ready action here serves, createVolumeCreate_full ready action here serves,
        fun v x unused sound made => ⟨createVolumeCreate_unfit ready action here serves unused sound made, fun fits => ?_⟩⟩,
      createVolume_undefined ready,
      fun action => ⟨attachVolume_bad ready action, fun v usable func lba => ⟨attachVolume_again ready action usable func lba, fun anew =>
        ⟨attachVolume_attaches ready action usable func lba anew, attachVolume_unfit ready action usable func lba anew⟩⟩⟩,
      fun action v usable func lba => ⟨detachVolume_foreign ready action usable func lba,
        fun attached alone => ⟨detachVolume_ends ready action usable func lba attached alone,
          detachVolume_waits ready action usable func lba attached alone⟩⟩⟩,
    fun ready => ⟨deleteVolume_unusable ready, fun v usable alone => ⟨deleteVolume_waits ready usable alone,
      deleteVolume_ends ready usable alone⟩⟩,
    fun ready => ⟨bindRoute_unusable ready, fun v g usable here => ⟨bindRoute_sets ready usable here,
      bindRoute_foreign ready usable here⟩⟩⟩
  obtain ⟨-, blocks, time, attached, route, pi, extents, piExtents, used⟩ := createdVol_made made
  exact (createVolumeCreate_makes ready action here serves unused sound made fits).imp fun t ⟨vol, grp, changed, out⟩ =>
    ⟨vol, grp, changed, out, blocks, time, attached, route, pi, extents, piExtents, used⟩

end Sys2Proof.Machine
end

section
/-! What every Gelbel command shares (R446, R447, R466): what is answered, and when a request is served. -/

namespace Sys2Proof.Machine

/-- A command answers a request with its number, the request's tag, a status and a body, and does nothing else. -/
def Tells (s : State) (g : GMsg) (c : Instr) (cmd st : Byte) (bs : List Byte) : Prop :=
  Does c [.out] s fun t => t.out = .gelbel (cmd ||| 0x80#8) g.tag st bs :: s.out

/-- The newest output is the response to a request. -/
def Replies (g : GMsg) (cmd st : Byte) (bs : List Byte) (t : State) : Prop :=
  t.out.head? = some (.gelbel (cmd ||| 0x80#8) g.tag st bs)

/-- The state in which the core is served: out of Off, on W0 or W1, with the signal box attended. -/
def CoreUp (s : State) : Prop := s.pwr.devState ≠ .off ∧ s.pwr.rung ≤ 1 ∧ s.mbx.unattended = false

theorem coreServed_iff {s : State} : coreServed s = true ↔ s.pwr.rung ≤ 1 ∧ s.mbx.unattended = false := by
  simp [coreServed]

section
variable {s : State} {g : GMsg} {c : Instr} {fm : GelbelForm}

theorem tells_of_answer {st : Status} {bs : List Byte} (run : exec c s = .next (answer s fm g st bs)) :
    Tells s g c fm.cmd (BitVec.ofNat 8 st.code) bs :=
  ⟨_, run, answer_frame _ _ _ _ _, rfl⟩

variable {body : State → State}

theorem core_served (served : fm.core = true → coreServed s = true) : (fm.core && !coreServed s) = false := by
  cases core : fm.core
  · rfl
  · rw [served core]
    rfl

theorem gelbelRun_off (off : s.pwr.devState = .off) : gelbelRun s fm g body = s := by
  simp [gelbelRun, off]

variable (up : s.pwr.devState ≠ .off)
include up

theorem gelbelRun_unserved (core : fm.core = true) (away : 2 ≤ s.pwr.rung ∨ s.mbx.unattended = true) :
    gelbelRun s fm g body = answer s fm g .notAdmitted [] := by
  have unserved : coreServed s = false := by
    rw [Bool.eq_false_iff, Ne, coreServed_iff]
    rintro ⟨high, attended⟩
    rcases away with low | left
    · omega
    · exact absurd (left.symm.trans attended) (by decide)
  simp [gelbelRun, up, core, unserved]

variable (served : fm.core = true → coreServed s = true)
include served

theorem gelbelRun_held (writes : fm.writes = true) (held : s.pwr.devState = .held) :
    gelbelRun s fm g body = answer s fm g .notAdmitted [] := by
  rw [gelbelRun, if_neg (by simpa using up), core_served served, if_neg Bool.false_ne_true, if_pos (by simp [writes, held])]

theorem gelbelRun_body (live : fm.writes = true → s.pwr.devState ≠ .held)
    (thawed : fm.core = true → fm.writes = true → frozen s = false) : gelbelRun s fm g body = body s := by
  rw [gelbelRun, if_neg (by simpa using up), core_served served, if_neg Bool.false_ne_true, if_neg (by simpa using live),
    if_neg (by simpa using thawed)]

/-- A command that only reads gives its bytes, or INVALID_FIELD. -/
theorem gelbelRead_tells {ok : Bool} {bs : List Byte} (run : exec c s = .next (gelbelRead s fm g ok bs)) (reads : fm.writes = false) :
    (ok = true → Tells s g c fm.cmd 0 bs) ∧ (ok = false → Tells s g c fm.cmd 3 []) := by
  rw [gelbelRead, gelbelRun_body up served (by simp [reads]) (by simp [reads])] at run
  constructor <;> rintro rfl
  · exact tells_of_answer (st := .success) run
  · exact tells_of_answer (st := .invalidField) run

end

/-- A command serves a request as every command of a form is served. -/
def Serves (c : Instr) (g : GMsg) (fm : GelbelForm) : Prop := ∀ s, ∃ body, exec c s = .next (gelbelRun s fm g body)

section
variable {s : State} {g : GMsg} {c : Instr} {fm : GelbelForm} (serves : Serves c g fm)
include serves

theorem Serves.off (off : s.pwr.devState = .off) : exec c s = .next s := by
  obtain ⟨body, run⟩ := serves s
  rw [run, gelbelRun_off off]

theorem Serves.unserved (up : s.pwr.devState ≠ .off) (core : fm.core = true) (away : 2 ≤ s.pwr.rung ∨ s.mbx.unattended = true) :
    Tells s g c fm.cmd 1 [] := by
  obtain ⟨body, run⟩ := serves s
  rw [gelbelRun_unserved up core away] at run
  exact tells_of_answer (st := .notAdmitted) run

theorem Serves.held (core : CoreUp s) (writes : fm.writes = true) (held : s.pwr.devState = .held) : Tells s g c fm.cmd 1 [] := by
  obtain ⟨body, run⟩ := serves s
  obtain ⟨up, served⟩ := core
  rw [gelbelRun_held up (fun _ => coreServed_iff.2 served) writes held] at run
  exact tells_of_answer (st := .notAdmitted) run

end

/-- A core command, with its number. -/
def CoreMessage (g : GMsg) (x : Byte × Instr) : Prop :=
  x ∈ [(0x04#8, Instr.gelbelGetFare g), (0x07, .fwUpdateBegin g), (0x07, .fwUpdateData g), (0x07, .fwUpdateAbort g),
    (0x08, .gelbelTimetable g), (0x0B, .gelbelMemberControl g), (0x0C, .gelbelSetTokens g), (0x0D, .gelbelGetLog g)]

/-- Each core command is served as one, and all but GET_FARE and GET_LOG as a write (R447). -/
theorem CoreMessage.serves {g : GMsg} {x : Byte × Instr} (core : CoreMessage g x) : ∃ fm : GelbelForm, Serves x.2 g fm ∧ fm.cmd = x.1 ∧
    fm.core = true ∧ (x.1 ≠ 0x04 → x.1 ≠ 0x0D → fm.writes = true) := by
  simp only [CoreMessage, List.mem_cons, List.not_mem_nil, or_false] at core
  have writer (cmd : Byte) (c : Instr) (serves : Serves c g { cmd := cmd, core := true, writes := true }) : ∃ fm : GelbelForm,
      Serves c g fm ∧ fm.cmd = cmd ∧ fm.core = true ∧ (cmd ≠ 0x04 → cmd ≠ 0x0D → fm.writes = true) := ⟨_, serves, rfl, rfl, fun _ _ => rfl⟩
  rcases core with rfl | rfl | rfl | rfl | rfl | rfl | rfl | rfl
  · exact ⟨{ cmd := 0x04, core := true }, fun _ => ⟨_, rfl⟩, rfl, rfl, fun no => absurd rfl no⟩
  · exact writer _ _ fun _ => ⟨_, rfl⟩
  · exact writer _ _ fun _ => ⟨_, rfl⟩
  · exact writer _ _ fun _ => ⟨_, rfl⟩
  · exact writer _ _ fun _ => ⟨_, rfl⟩
  · exact writer _ _ fun _ => ⟨_, rfl⟩
  · exact writer _ _ fun _ => ⟨_, rfl⟩
  · exact ⟨{ cmd := 0x0D, core := true }, fun _ => ⟨_, rfl⟩, rfl, rfl, fun _ no => absurd rfl no⟩

/-- A number that R447 does not define. -/
theorem undefinedCommand_tells {s : State} {g : GMsg} {cmd : Byte} (up : s.pwr.devState ≠ .off) (undefined : cmd = 0 ∨ 0x0D#8 < cmd) :
    Tells s g (.gelbelUndefinedCommand cmd g) cmd 2 [] := by
  have other : ¬(1 ≤ cmd.toNat && cmd.toNat ≤ 0x0D) = true := by
    simp only [Bool.and_eq_true, decide_eq_true_eq]
    rcases undefined with rfl | high
    · decide
    · rw [BitVec.lt_def] at high
      simp only [BitVec.toNat_ofNat] at high
      omega
  have run : exec (.gelbelUndefinedCommand cmd g) s = .next (answer s { cmd := cmd } g .invalidOpcode []) := by
    change execGelbelUndefinedCommand cmd g s = _
    rw [execGelbelUndefinedCommand, if_neg other, gelbelRun_body up (by simp) (by simp) (by simp)]
  exact tells_of_answer (st := .invalidOpcode) run

end Sys2Proof.Machine
end

section
/-! The reads of Gelbel (R447, R448): status, temperatures, tag records, the Route Book, counters and logs. -/

namespace Sys2Proof.Machine

/-- The body of GET_STATUS: 25 bytes, of which the first three and the Route Book generation stand where R447 puts them. -/
theorem statusBody_fields (s : State) : (statusBody s).length = 25 ∧
    ((statusBody s).take 3).map BitVec.toNat = [s.pwr.devState.code, s.pwr.heldCode.toNat, s.pwr.rung % 256] ∧
    leNat (((statusBody s).drop 11).take 4) = s.rb.gen.toNat := by
  refine ⟨by simp only [statusBody, List.length_append, leBytes_length], ?_, ?_⟩
  · have state : s.pwr.devState.code % 256 = s.pwr.devState.code := by cases s.pwr.devState <;> rfl
    have held : s.pwr.heldCode.toNat % 256 = s.pwr.heldCode.toNat := Nat.mod_eq_of_lt s.pwr.heldCode.isLt
    change [s.pwr.devState.code % 256, s.pwr.heldCode.toNat % 256, s.pwr.rung % 256] = _
    rw [state, held]
  · exact leNat_leBytes_bitVec 4 s.rb.gen (by decide)

section
variable {s : State} {g : GMsg} (up : s.pwr.devState ≠ .off)
include up

theorem getStatus_tells : (g.body.isEmpty = true → Tells s g (.gelbelGetStatus g) 0x01 0 (statusBody s)) ∧
    (g.body.isEmpty = false → Tells s g (.gelbelGetStatus g) 0x01 3 []) :=
  gelbelRead_tells (fm := { cmd := 0x01 }) up (fun no => nomatch no) rfl rfl

theorem getTemp_tells : (g.body.isEmpty = true → Tells s g (.gelbelGetTemp g) 0x03 0 ((readings s).map fun t => leBytes 2 t.toNat).flatten) ∧
    (g.body.isEmpty = false → Tells s g (.gelbelGetTemp g) 0x03 3 []) :=
  gelbelRead_tells (fm := { cmd := 0x03 }) up (fun no => nomatch no) rfl rfl

theorem gelbelTagRead_tells : let ok := g.body.length == 1 && decide (gField g 0 1 < 16)
    (ok = true → Tells s g (.tagRead g) 0x05 0 (tagBytes s (gField g 0 1))) ∧ (ok = false → Tells s g (.tagRead g) 0x05 3 []) :=
  gelbelRead_tells (fm := { cmd := 0x05 }) up (fun no => nomatch no) rfl rfl

end

section
variable {s : State} {g : GMsg}

/-- GET_ROUTE_BOOK is a core command, but in Held (R447). -/
theorem getRouteBook_tells (serves : CoreUp s ∨ s.pwr.devState = .held) :
    let ok := g.body.length == 6 && decide (gField g 4 2 ≤ 1008) && decide (gField g 0 4 + gField g 4 2 ≤ 0x10000)
    (ok = true → Tells s g (.gelbelGetRouteBook g) 0x02 0 (leBytes 4 s.rb.gen.toNat ++ rbBytes s (gField g 0 4) (gField g 4 2))) ∧
    (ok = false → Tells s g (.gelbelGetRouteBook g) 0x02 3 []) := by
  refine gelbelRead_tells (fm := { cmd := 0x02, core := s.pwr.devState != .held }) ?_ (fun core => ?_) rfl rfl
  · rcases serves with ⟨up, -⟩ | held
    · exact up
    · simp [held]
  · rcases serves with ⟨-, served⟩ | held
    · exact coreServed_iff.2 served
    · simp [held] at core

theorem getFare_tells (core : CoreUp s) :
    let ok := g.body.length == 3 && decide (gField g 2 1 ≤ 15) && decide (gField g 0 2 + gField g 2 1 ≤ 4096)
    (ok = true → Tells s g (.gelbelGetFare g) 0x04 0 (leBytes 4 s.fare.seq.toNat ++ leBytes 8 s.fare.ts.toNat ++
      ((List.range (gField g 2 1)).map fun i => fareBytes s.fare.seq (fareRecord s (gField g 0 2 + i))).flatten)) ∧
    (ok = false → Tells s g (.gelbelGetFare g) 0x04 3 []) :=
  gelbelRead_tells (fm := { cmd := 0x04, core := true }) core.1 (fun _ => coreServed_iff.2 core.2) rfl rfl

theorem gelbelGetLog_tells (core : CoreUp s) :
    let ok := g.body.length == 7 && decide (1 ≤ gField g 0 1) && decide (gField g 0 1 ≤ 4) && decide (gField g 5 2 ≤ 1008)
    (ok = true → Tells s g (.gelbelGetLog g) 0x0D 0 (logSlice s (gField g 0 1) (gField g 1 4) (gField g 5 2))) ∧
    (ok = false → Tells s g (.gelbelGetLog g) 0x0D 3 []) :=
  gelbelRead_tells (fm := { cmd := 0x0D, core := true }) core.1 (fun _ => coreServed_iff.2 core.2) rfl rfl

end

end Sys2Proof.Machine
end

section
/-! TAG_WRITE and VAULT_RELEASE (R354, R450 to R453, R459, R465). -/

namespace Sys2Proof.Machine

/-! A record in force after a write -/

/-- The bytes of a record after a write: SEQ in place of the bytes given there, and the CRC (R451). -/
def storedTag (seq : Nat) (bs : List Byte) : List Byte :=
  splice (bs.take 0xFC) 4 (leBytes 4 seq) ++ leBytes 4 (crc32 (splice (bs.take 0xFC) 4 (leBytes 4 seq))).toNat

theorem storedTag_fields (seq : Nat) {bs : List Byte} (whole : bs.length = 256) : let b := storedTag seq bs
    b.length = 256 ∧ b.take 4 = bs.take 4 ∧ leNat ((b.drop 4).take 4) = seq % 2 ^ 32 ∧ (b.drop 8).take 244 = (bs.drop 8).take 244 ∧
      b.drop 252 = leBytes 4 (crc32 (b.take 252)).toNat := by
  have first : (bs.take 4).length = 4 := by rw [List.length_take]; omega
  have rest : ((bs.take 252).drop 8).length = 244 := by rw [List.length_drop, List.length_take]; omega
  have cut : splice (bs.take 0xFC) 4 (leBytes 4 seq) = bs.take 4 ++ (leBytes 4 seq ++ (bs.take 252).drop 8) := by
    rw [splice, leBytes_length, List.take_take, List.append_assoc]
    rfl
  have body : (splice (bs.take 0xFC) 4 (leBytes 4 seq)).length = 252 := by
    rw [cut, List.length_append, List.length_append, leBytes_length, first, rest]
  have head : (storedTag seq bs).take 252 = splice (bs.take 0xFC) 4 (leBytes 4 seq) := List.take_left' body
  have tail : (storedTag seq bs).drop 252 = leBytes 4 (crc32 (splice (bs.take 0xFC) 4 (leBytes 4 seq))).toNat := List.drop_left' body
  have laid : storedTag seq bs = bs.take 4 ++ (leBytes 4 seq ++ ((bs.take 252).drop 8 ++ (storedTag seq bs).drop 252)) := by
    rw [tail, storedTag, cut, List.append_assoc, List.append_assoc]
  have after4 : (storedTag seq bs).drop 4 = leBytes 4 seq ++ ((bs.take 252).drop 8 ++ (storedTag seq bs).drop 252) :=
    (congrArg (List.drop 4) laid).trans (List.drop_left' first)
  have after8 : (storedTag seq bs).drop 8 = (bs.take 252).drop 8 ++ (storedTag seq bs).drop 252 := by
    rw [show 8 = 4 + 4 from rfl, ← List.drop_drop, after4]
    exact List.drop_left' (leBytes_length ..)
  refine ⟨?_, (congrArg (List.take 4) laid).trans (List.take_left' first), ?_, ?_, ?_⟩
  · rw [storedTag, List.length_append, body, leBytes_length]
  · rw [after4, List.take_left' (leBytes_length ..)]
    exact leNat_leBytes 4 seq
  · rw [after8, List.take_left' rest, List.drop_take]
  · rw [head, tail]

section
variable {s : State} {g : GMsg}

/-- TAG_WRITE as a request. -/
def tagForm : GelbelForm := { cmd := 0x06, writes := true }

/-- A record is stored, and its write logged (R104, R452). -/
theorem tagStore_stores (s : State) (r : Nat) (bs : List Byte) : let t := tagStore s r bs
    let seq := tagField s r 4 4 + 1
    t.pwr.tags = s.pwr.tags.put r (storedTag seq bs) ∧ t.out = .tagWrite r :: s.out ∧ t.rb.changed = true ∧
      Logged 0x0D10#16 (r + seq * 2 ^ 8) s t :=
  ⟨rfl, rfl, rfl, rfl, _, rfl, rfl, rfl, rfl⟩

/-! The command -/

variable (up : s.pwr.devState ≠ .off) (live : s.pwr.devState ≠ .held)
include up live

theorem exec_tagWrite : exec (.tagWrite g) s = .next (tagWriteBody s tagForm g) :=
  congrArg _ (gelbelRun_body (fm := tagForm) up (fun no => nomatch no) (fun _ => live) (fun no => nomatch no))

/-- What a write is: 256 bytes for a record that its TYPE fits, and a signature for record 1 at most (R451, R453). -/
def TagFits (g : GMsg) : Prop :=
  (g.body.length = 257 ∨ (g.body.length = 353 ∧ gField g 0 1 = 1)) ∧ gField g 0 1 < 16 ∧
    tagTypeFits (gField g 0 1) (leNat (((g.body.drop 1).take 256).take 1)) = true

omit up live in
theorem tagFits_iff : (!(decide (g.body.length = 257) || (decide (g.body.length = 353) && decide (gField g 0 1 = 1))) ||
    decide (16 ≤ gField g 0 1) ||    !tagTypeFits (gField g 0 1) (leNat (((g.body.drop 1).take 256).take 1))) = false ↔ TagFits g := by
  simp only [TagFits, Bool.or_eq_false_iff, Bool.not_eq_false', Bool.or_eq_true, Bool.and_eq_true, decide_eq_true_eq, decide_eq_false_iff_not,
    Nat.not_le, and_assoc]

theorem tagWrite_unfit (bad : ¬TagFits g) : Tells s g (.tagWrite g) 0x06 3 [] := by
  refine tells_of_answer (fm := tagForm) (st := .invalidField) ((exec_tagWrite up live).trans (congrArg _ ?_))
  exact if_pos (Bool.of_not_eq_false (mt tagFits_iff.1 bad))

variable (fits : TagFits g)
include fits

/-- The write of a right request: what refuses it, or what it stores (R451 to R453). -/
theorem exec_tagWrite_fits : let r := gField g 0 1
    let bs := (g.body.drop 1).take 256
    exec (.tagWrite g) s = .next (
      match tagRefusal s r with
      | some st => answer (tagRefused s st) tagForm g st []
      | none =>
        if r = 1 && !ownerMay s bs (g.body.drop 257) then
          answer (logErr s 0x0D11 .alwaysOn {} (r + Status.invalidField.code * 2 ^ 8)) tagForm g .invalidField []
        else answer (tagStore s r bs) tagForm g .success []) := by
  intro r bs
  refine (exec_tagWrite up live).trans (congrArg _ ?_)
  exact if_neg (by rw [Bool.not_eq_true]; exact tagFits_iff.2 fits)

theorem tagWrite_inhibited (dead : s.pwr.nvInhibit = true) : Runs (.tagWrite g) s fun t =>
    Replies g 0x06 13 [] t ∧ t.pwr = s.pwr ∧ Logged 0x0E12#16 1 s t := by
  have run := exec_tagWrite_fits up live fits
  have refusal : tagRefusal s (gField g 0 1) = some .nvInhibited := by simp [tagRefusal, dead]
  simp only [refusal] at run
  exact .of_exec run (execTagWrite_frame g s) ⟨rfl, rfl, logErr_logged ..⟩

variable (powered : s.pwr.nvInhibit = false)
include powered

theorem tagWrite_worn (worn : s.pwr.tagWorn.getLsbD (gField g 0 1) = true) : Tells s g (.tagWrite g) 0x06 3 [] := by
  have run := exec_tagWrite_fits up live fits
  have refusal : tagRefusal s (gField g 0 1) = some .invalidField := by simp [tagRefusal, powered, worn]
  simp only [refusal] at run
  exact tells_of_answer (fm := tagForm) (st := .invalidField) run

variable (sound : s.pwr.tagWorn.getLsbD (gField g 0 1) = false)
include sound

omit up live fits in
theorem tagRefusal_none : tagRefusal s (gField g 0 1) = none := by simp [tagRefusal, powered, sound]

omit up live fits powered sound in
theorem ownerMay_iff {bs sig : List Byte} : ownerMay s bs sig = true ↔ ∀ key, ownerKey s = some key → Config.sigValid bs key sig = true := by
  unfold ownerMay
  split <;> simp_all

/-- Record 1 takes a write only with a signature by the key in force (R453). -/
theorem tagWrite_unsigned (owner : gField g 0 1 = 1) (no : ownerMay s ((g.body.drop 1).take 256) (g.body.drop 257) = false) :
    Runs (.tagWrite g) s fun t => Replies g 0x06 3 [] t ∧ t.pwr = s.pwr ∧ Logged 0x0D11#16 0x301 s t := by
  have run := exec_tagWrite_fits up live fits
  have taken := tagRefusal_none powered sound
  rw [owner] at taken
  simp only [owner, taken, no, decide_true, Bool.not_false, Bool.and_self, if_true] at run
  exact .of_exec run (execTagWrite_frame g s) ⟨rfl, rfl, logErr_logged ..⟩

theorem tagWrite_stores (may : gField g 0 1 ≠ 1 ∨ ownerMay s ((g.body.drop 1).take 256) (g.body.drop 257) = true) :
    let r := gField g 0 1
    let bs := (g.body.drop 1).take 256
    let seq := tagField s r 4 4 + 1
    Runs (.tagWrite g) s fun t => Replies g 0x06 0 [] t ∧ Out.tagWrite r ∈ t.out ∧ t.rb.changed = true ∧
      Logged 0x0D10#16 (r + seq * 2 ^ 8) s t ∧ ∃ b, t.pwr.tags.find r = some b ∧ b.length = 256 ∧
      b.take 4 = bs.take 4 ∧ leNat ((b.drop 4).take 4) = seq % 2 ^ 32 ∧ (b.drop 8).take 244 = (bs.drop 8).take 244 ∧
      b.drop 252 = leBytes 4 (crc32 (b.take 252)).toNat ∧ ∀ k, k ≠ r → t.pwr.tags.find k = s.pwr.tags.find k := by
  intro r bs seq
  have run := exec_tagWrite_fits up live fits
  have signed : (decide (gField g 0 1 = 1) && !ownerMay s ((g.body.drop 1).take 256) (g.body.drop 257)) = false := by
    rcases may with other | may
    · rw [decide_eq_false other, Bool.false_and]
    · rw [may, Bool.not_true, Bool.and_false]
  simp only [tagRefusal_none powered sound, signed, Bool.false_eq_true, if_false] at run
  have whole : bs.length = 256 := by
    obtain ⟨sized, -⟩ := fits
    simp only [bs, List.length_take, List.length_drop]
    omega
  obtain ⟨length, type, seq_, bytes, crc⟩ := storedTag_fields seq whole
  obtain ⟨tags, out, changed, logged⟩ := tagStore_stores s r bs
  refine .of_exec run (execTagWrite_frame g s) ⟨rfl, ?_, changed, logged, _, ?_, length, type, seq_, bytes, crc, fun k other => ?_⟩
  · exact List.mem_cons_of_mem _ (out ▸ .head _)
  · exact (congrArg (Tab.find · r) tags).trans (Tab.find_put_same _ _ _)
  · exact (congrArg (Tab.find · k) tags).trans (Tab.find_put_other _ _ other)

end

/-! VAULT_RELEASE -/

theorem vaultRelease_answers {s : State} {g : GMsg} (up : s.pwr.devState ≠ .off) :
    (g.body.length = 8 → Runs (.vaultRelease g) s fun t => Replies g 0x0A 0 [] t ∧
      t.pwr = { s.pwr with armedRelease := some (gField g 0 8) }) ∧
    (g.body.length ≠ 8 → Tells s g (.vaultRelease g) 0x0A 3 []) := by
  let fm : GelbelForm := { cmd := 0x0A }
  have run : exec (.vaultRelease g) s = .next (if g.body.length = 8 then
      answer (updPwr s fun p => { p with armedRelease := some (gField g 0 8) }) fm g .success [] else answer s fm g .invalidField []) :=
    congrArg _ (gelbelRun_body (fm := fm) up (fun no => nomatch no) (fun no => nomatch no) (fun no => nomatch no))
  refine ⟨fun eight => ?_, fun other => ?_⟩
  · rw [if_pos eight] at run
    exact .of_exec run (execVaultRelease_frame g s) ⟨rfl, rfl⟩
  · rw [if_neg other] at run
    exact tells_of_answer (fm := fm) (st := .invalidField) run

end Sys2Proof.Machine
end

section
/-! FW_UPDATE (R447, R479 to R481): what each of its four messages takes and does. -/

namespace Sys2Proof.Machine

section
variable {s : State} {g : GMsg} (core : CoreUp s) (live : s.pwr.devState ≠ .held) (thawed : s.vlt.pfail = false)
include core live thawed

/-- A core command is served to its end when nothing stops it (R345, R447). -/
theorem gelbelRun_core {fm : GelbelForm} {body : State → State} : gelbelRun s fm g body = body s :=
  gelbelRun_body core.1 (fun _ => coreServed_iff.2 core.2) (fun _ => live) fun _ _ => thawed

/-! BEGIN and ABORT -/

theorem fwUpdateBegin_begins (fits : g.body.length = 5 ∧ gField g 0 1 = 0 ∧ gField g 1 4 ≤ 0x800000) : Runs (.fwUpdateBegin g) s fun t =>
    Replies g 0x07 0 [] t ∧ t.pwr = { s.pwr with fwLen := some (gField g 1 4), fwData := {} } := by
  obtain ⟨length, begin_, short⟩ := fits
  have run : exec (.fwUpdateBegin g) s = .next
      (answer (updPwr s fun p => { p with fwLen := some (gField g 1 4), fwData := {} }) fwForm g .success []) := by
    refine (congrArg Host.Outcome.next (gelbelRun_core core live thawed)).trans (congrArg _ (if_pos ?_))
    rw [decide_eq_true length, decide_eq_true begin_, decide_eq_true short]
    rfl
  exact .of_exec run (execFwUpdateBegin_frame g s) ⟨rfl, rfl⟩

theorem fwUpdateAbort_aborts (length : g.body.length = 1) (abort : gField g 0 1 = 3) : Runs (.fwUpdateAbort g) s fun t =>
    Replies g 0x07 0 [] t ∧ t.pwr = { s.pwr with fwLen := none, fwData := {} } := by
  have run : exec (.fwUpdateAbort g) s = .next (answer (updPwr s fun p => { p with fwLen := none, fwData := {} }) fwForm g .success []) := by
    refine (congrArg Host.Outcome.next (gelbelRun_core core live thawed)).trans (congrArg _ (if_pos ?_))
    rw [decide_eq_true length, decide_eq_true abort]
    rfl
  exact .of_exec run (execFwUpdateAbort_frame g s) ⟨rfl, rfl⟩

/-! DATA -/

/-- What a DATA message does once a BEGIN has given a length. -/
def fwData (s : State) (g : GMsg) (len : Nat) : State :=
  let data := g.body.drop 5
  let off := gField g 1 4
  if 5 ≤ g.body.length && gField g 0 1 = 1 && data.length ≤ 1000 && off + data.length ≤ len then
    answer (updPwr s fun p => { p with fwData := p.fwData.writeList off data }) fwForm g .success []
  else answer s fwForm g .invalidField []

theorem exec_fwUpdateData : exec (.fwUpdateData g) s = .next (match s.pwr.fwLen with
    | some len => fwData s g len
    | none => answer s fwForm g .invalidField []) :=
  congrArg _ (gelbelRun_core core live thawed)

theorem fwUpdateData_unbegun (none_ : s.pwr.fwLen = none) : Tells s g (.fwUpdateData g) 0x07 3 [] := by
  have run := exec_fwUpdateData (g := g) core live thawed
  rw [none_] at run
  exact tells_of_answer (fm := fwForm) (st := .invalidField) run

variable {len : Nat} (begun : s.pwr.fwLen = some len)
include begun

theorem fwUpdateData_outside (outside : len < gField g 1 4 + (g.body.length - 5)) : Tells s g (.fwUpdateData g) 0x07 3 [] := by
  have run := exec_fwUpdateData (g := g) core live thawed
  rw [begun] at run
  refine tells_of_answer (fm := fwForm) (st := .invalidField) (run.trans (congrArg _ (if_neg ?_)))
  simp only [List.length_drop, Bool.and_eq_true, decide_eq_true_eq]
  omega

/-- The bytes of a DATA message stand at their offset, and the others are kept (R479). -/
theorem fwUpdateData_writes (whole : 5 ≤ g.body.length) (data : gField g 0 1 = 1) (short : g.body.length ≤ 1005)
    (inside : gField g 1 4 + (g.body.length - 5) ≤ len) (wf : s.pwr.fwData.wf = true) : Runs (.fwUpdateData g) s fun t =>
      Replies g 0x07 0 [] t ∧ t.pwr = { s.pwr with fwData := t.pwr.fwData } ∧ ∀ j, t.pwr.fwData.read j =
        if gField g 1 4 ≤ j ∧ j < gField g 1 4 + (g.body.length - 5) then g.body.getD (5 + j - gField g 1 4) 0 else s.pwr.fwData.read j := by
  have run := exec_fwUpdateData (g := g) core live thawed
  rw [begun] at run
  have takes : (decide (5 ≤ g.body.length) && decide (gField g 0 1 = 1) && decide ((g.body.drop 5).length ≤ 1000) &&
      decide (gField g 1 4 + (g.body.drop 5).length ≤ len)) = true := by
    simp only [List.length_drop, Bool.and_eq_true, decide_eq_true_eq]
    omega
  replace run := run.trans (congrArg _ (if_pos takes))
  refine .of_exec run (execFwUpdateData_frame g s) ⟨rfl, rfl, fun j => ?_⟩
  refine (read_writeList wf (gField g 1 4) j (g.body.drop 5)).trans ?_
  rw [List.length_drop]
  split
  next within =>
    rw [List.getD_eq_getElem?_getD, List.getD_eq_getElem?_getD, List.getElem?_drop, show 5 + (j - gField g 1 4) = 5 + j - gField g 1 4 by omega]
  next => rfl

end

/-! COMMIT -/

/-- The image passes the checks of R480 when none of its four reasons stands. -/
theorem slotReason_eq_zero {otp : Nat} {x : SlotImage} : slotReason otp x = 0 ↔
    x.readOk = true ∧ x.magicOk = true ∧ x.sigOk = true ∧ otp ≤ x.svn := by
  unfold slotReason
  cases x.readOk <;> cases x.magicOk <;> cases x.sigOk <;> simp

/-- What a COMMIT takes: a length has been given, the image passes its checks, and program 0 is kept while a group rests on it. -/
def CommitFits (s : State) (x : SlotImage) : Prop :=
  s.pwr.fwLen.isSome = true ∧ x.readOk = true ∧ x.magicOk = true ∧ x.sigOk = true ∧ s.pwr.otp ≤ x.svn ∧ libraryKept s x = true

theorem commitFits_iff {s : State} {g : GMsg} {x : SlotImage} (length : g.body.length = 1) (commit : gField g 0 1 = 2) :
    (g.body.length != 1 || gField g 0 1 != 2 || s.pwr.fwLen.isNone || slotReason s.pwr.otp x != 0 || !libraryKept s x) = false ↔
    CommitFits s x := by
  simp only [length, commit, bne_self_eq_false, Bool.false_or, Bool.or_eq_false_iff, Option.isNone_eq_false_iff, bne_eq_false_iff_eq,
    slotReason_eq_zero, Bool.not_eq_false', CommitFits, and_assoc]

/-- The image is in the inactive slot, which the boot record then prefers (R479). -/
theorem writeSlot_writes (s : State) (x : SlotImage) : let t := writeSlot s x
    t.rb.changed = true ∧ t.out = .flashWrite (!s.pwr.bootSlotB) :: s.out ∧ t.pwr.preferB = !s.pwr.bootSlotB ∧ t.pwr.fwLen = none ∧
      (if s.pwr.bootSlotB then t.pwr.slotA else t.pwr.slotB) = some x ∧
      (if s.pwr.bootSlotB then t.pwr.slotB else t.pwr.slotA) = if s.pwr.bootSlotB then s.pwr.slotB else s.pwr.slotA := by
  have slots : (writeSlot s x).pwr.slotA = (if !s.pwr.bootSlotB then s.pwr.slotA else some x) ∧
      (writeSlot s x).pwr.slotB = if !s.pwr.bootSlotB then some x else s.pwr.slotB := ⟨rfl, rfl⟩
  refine ⟨rfl, rfl, rfl, rfl, ?_, ?_⟩ <;> rw [slots.1, slots.2] <;> cases s.pwr.bootSlotB <;> rfl

section
variable {s : State} {g : GMsg} (core : CoreUp s) (live : s.pwr.devState ≠ .held) (thawed : s.vlt.pfail = false) (x : SlotImage)
  (length : g.body.length = 1) (commit : gField g 0 1 = 2)
include core live thawed length commit

theorem fwUpdateCommit_unfit (bad : ¬CommitFits s x) : Tells s g (.fwUpdateCommit g x) 0x07 3 [] := by
  refine tells_of_answer (fm := fwForm) (st := .invalidField)
    ((congrArg Host.Outcome.next (gelbelRun_core core live thawed)).trans (congrArg _ (if_pos ?_)))
  exact Bool.of_not_eq_false (mt (commitFits_iff length commit).1 bad)

variable (fits : CommitFits s x)
include fits

theorem exec_fwUpdateCommit_fits : exec (.fwUpdateCommit g x) s = .next (
    if s.pwr.nvInhibit then answer (logErr s 0x0E12 .alwaysOn {} 3) fwForm g .nvInhibited []
    else answer (writeSlot s x) fwForm g .success []) := by
  refine (congrArg Host.Outcome.next (gelbelRun_core core live thawed)).trans (congrArg _ (if_neg ?_))
  rw [Bool.not_eq_true]
  exact (commitFits_iff length commit).2 fits

theorem fwUpdateCommit_inhibited (dead : s.pwr.nvInhibit = true) : Runs (.fwUpdateCommit g x) s fun t =>
    Replies g 0x07 13 [] t ∧ t.pwr = s.pwr := by
  have run := exec_fwUpdateCommit_fits core live thawed x length commit fits
  rw [if_pos dead] at run
  exact .of_exec run (execFwUpdateCommit_frame g x s) ⟨rfl, rfl⟩

theorem fwUpdateCommit_commits (powered : s.pwr.nvInhibit = false) : Runs (.fwUpdateCommit g x) s fun t =>
    Replies g 0x07 0 [] t ∧ t.rb.changed = true ∧ t.pwr.preferB = !s.pwr.bootSlotB ∧ t.pwr.fwLen = none ∧
      Out.flashWrite (!s.pwr.bootSlotB) ∈ t.out ∧ (if s.pwr.bootSlotB then t.pwr.slotA else t.pwr.slotB) = some x ∧
      (if s.pwr.bootSlotB then t.pwr.slotB else t.pwr.slotA) = if s.pwr.bootSlotB then s.pwr.slotB else s.pwr.slotA := by
  have run := exec_fwUpdateCommit_fits core live thawed x length commit fits
  rw [powered, if_neg Bool.false_ne_true] at run
  obtain ⟨changed, out, prefer, len, new, old⟩ := writeSlot_writes s x
  exact .of_exec run (execFwUpdateCommit_frame g x s) ⟨rfl, changed, prefer, len, List.mem_cons_of_mem _ (out ▸ .head _), new, old⟩

end

end Sys2Proof.Machine
end

section
/-! The commands that act as admin commands do (R199 to R201, R381, R440, R447): TIMETABLE, MEMBER_CONTROL, SET_TOKENS. -/

namespace Sys2Proof.Machine

/-! The entry that a request stands for -/

/-- The entry holds the command's number and the request's tag, which its completion gives back. -/
theorem gelbelEntry_names (cmd tag : Byte) (lba : Nat) (tail : List Byte) : let e := (gelbelEntry cmd tag lba tail).entry
    e.extractLsb' 0 8 = cmd ∧ e.extractLsb' 16 8 = tag := by
  intro e
  have low := cmd.isLt
  have high := tag.isLt
  have number : cmd.toNat + tag.toNat * 2 ^ 16 + lba * 2 ^ 64 + leNat tail * 2 ^ 320 =
      cmd.toNat + tag.toNat * 2 ^ 16 + (lba + leNat tail * 2 ^ 256) * 2 ^ 64 := by
    rw [show 320 = 256 + 64 from rfl, Nat.pow_add, ← Nat.mul_assoc, Nat.add_mul, Nat.add_assoc]
  have first : fieldOf e 0 8 = cmd.toNat := by
    refine (fieldOf_ofNat (by decide)).trans ?_
    rw [number]
    omega
  have second : fieldOf e 16 8 = tag.toNat := by
    refine (fieldOf_ofNat (by decide)).trans ?_
    rw [number]
    omega
  exact ⟨BitVec.eq_of_toNat_eq first, BitVec.eq_of_toNat_eq second⟩

/-- The completion of such an entry is the response to the request. -/
theorem adminDone_gelbel (s : State) (cmd tag : Byte) (lba : Nat) (tail : List Byte) (st : Status) (poison : Bool) :
    adminDone s (gelbelEntry cmd tag lba tail) st poison = gelbelReply s cmd tag st [] := by
  obtain ⟨first, second⟩ := gelbelEntry_names cmd tag lba tail
  rw [adminDone, if_pos (show (gelbelEntry cmd tag lba tail).port = gelbelPort from rfl), first, second]

section
variable {s : State} {g : GMsg} (core : CoreUp s) (live : s.pwr.devState ≠ .held) (thawed : s.vlt.pfail = false)

/-! TIMETABLE -/

/-- The entry of a TIMETABLE, and the checks that it meets (R200, R201, R440). -/
def ttEntry (g : GMsg) : AdminCmd := gelbelEntry 0x08 g.tag (gField g 0 8 % 2 ^ 44) (g.body.drop 8)

def GelbelTtTakes (s : State) (g : GMsg) : Prop :=
  let r := ttReq (ttEntry g).entry []
  g.body.length = 32 ∧ gField g 0 8 < 2 ^ 44 ∧ tailOk (ttEntry g) (ttForm (ttEntry g).entry) = true ∧ r.on 6 = false ∧ r.ok s = true

theorem gelbelTtTakes_iff : (g.body.length != 32 || decide (2 ^ 44 ≤ gField g 0 8) || !tailOk (ttEntry g) (ttForm (ttEntry g).entry) ||
    (ttReq (ttEntry g).entry []).on 6 || !(ttReq (ttEntry g).entry []).ok s) = false ↔ GelbelTtTakes s g := by
  simp only [GelbelTtTakes, Bool.or_eq_false_iff, bne_eq_false_iff_eq, decide_eq_false_iff_not, Nat.not_le, Bool.not_eq_false', and_assoc]

include core live thawed

theorem gelbelTimetable_bad (bad : ¬GelbelTtTakes s g) : Tells s g (.gelbelTimetable g) 0x08 3 [] := by
  refine tells_of_answer (fm := { cmd := 0x08, core := true, writes := true }) (st := .invalidField)
    ((congrArg Host.Outcome.next (gelbelRun_core core live thawed)).trans (congrArg _ (if_pos ?_)))
  exact Bool.of_not_eq_false (mt gelbelTtTakes_iff.1 bad)

variable {r : TtReq} (request : ttReq (ttEntry g).entry [] = r) (takes : GelbelTtTakes s g)
include request takes

theorem exec_gelbelTimetable : exec (.gelbelTimetable g) s = .next (
    if r.waits then
      updTt (ttApply s r) fun t => { t with waiters := t.waiters ++ [{ cmd := ttEntry g, switch := r.on 0, load := r.on 1, swap := false }] }
    else adminOk (ttApply s r) (ttEntry g)) := by
  subst request
  refine (congrArg Host.Outcome.next (gelbelRun_core core live thawed)).trans (congrArg _ (if_neg ?_))
  rw [Bool.not_eq_true]
  exact gelbelTtTakes_iff.2 takes

theorem gelbelTimetable_sets : Runs (.gelbelTimetable g) s fun t => (r.waits = false → Replies g 0x08 0 [] t) ∧
    (r.waits = true → t.out = s.out ∧ ttEntry g ∈ t.tt.waiters.map TtWait.cmd) ∧ TtSet r s.tt t.tt := by
  have run := exec_gelbelTimetable core live thawed request takes
  have applied := ttApply_frame s r
  have set := ttApply_sets s r
  by_cases waits : r.waits = true
  · rw [if_pos waits] at run
    refine .of_exec run (execGelbelTimetable_frame g s) ⟨fun no => absurd waits (by simp [no]), fun _ => ⟨applied .out (by decide), ?_⟩,
      set.waiting _⟩
    exact List.mem_map.2 ⟨_, List.mem_append_right _ (.head _), rfl⟩
  · have done : adminOk (ttApply s r) (ttEntry g) = gelbelReply (ttApply s r) 0x08 g.tag .success [] := adminDone_gelbel ..
    rw [if_neg waits, done] at run
    exact .of_exec run (execGelbelTimetable_frame g s) ⟨fun _ => rfl, fun yes => absurd yes waits, set⟩

end

end Sys2Proof.Machine
end

section
/-! MEMBER_CONTROL and SET_TOKENS from the baseboard management controller (R65, R199, R381, R382, R392, R447). -/

namespace Sys2Proof.Machine

/-! What the actions do -/

section
variable {s : State} {port : Nat} {m : MPort}

/-- The loss of a port's commands leaves the port a port. -/
theorem PortBecame.loseCmds (here : s.mports.find port = some m) : ∃ x, PortBecame s port m x (loseCmds s port) := by
  have lose (cmds : List (Nat × MemCmd)) : ∀ u x, PortBecame s port m x u → ∃ y,
      PortBecame s port m y (cmds.foldl (fun s c => Machine.endCmd s port c.1 c.2 .lost) u) := by
    induction cmds with
    | nil => exact fun u x became => ⟨x, became⟩
    | cons c cmds ih => exact fun u x became => ih _ _ (became.endCmd c.1 c.2 .lost)
  obtain ⟨y, became⟩ := lose m.cmds s m (.refl here)
  unfold Machine.loseCmds
  rw [here]
  exact ⟨_, became.updMport (g := fun p => { p with quarantine := [], quarDet := [] }) rfl⟩

/-- A port that RESET may be asked of (R381). -/
theorem actReset_waits {w : AdminCmd} (here : s.mports.find port = some m) (may : m.state = 1 ∨ m.state = 4 ∨ m.contained = true) :
    ∃ t q, actReset s port w = .waits t ∧ Out.mperst port false ∈ t.out ∧ t.mports.find port = some q ∧ w ∈ q.resetWait ∧
      q.powerOff = false ∧ q.contained = false ∧ q.mperstHigh = false ∧ q.pulseDue = some (after s 6554) := by
  obtain ⟨x, became⟩ := PortBecame.loseCmds here
  have allowed : (m.state == 1 || m.state == 4 || m.contained) = true := by simpa [or_assoc] using may
  unfold actReset
  rw [here]
  refine ⟨_, _, if_neg (by rw [allowed]; decide), .head _,
    (Tab.find_upd_same ..).trans (congrArg (Option.map _) became.here), ?_, rfl, rfl, rfl, rfl⟩
  exact List.mem_append_right _ (.head _)

theorem actPowerOff_done (here : s.mports.find port = some m) (may : m.state = 1 ∨ m.state = 4) :
    ∃ t q, actPowerOff s port = .done t ∧ Out.mperst port false ∈ t.out ∧ t.mports.find port = some q ∧
      q.powerOff = true ∧ q.mperstHigh = false := by
  obtain ⟨x, became⟩ := PortBecame.loseCmds here
  have allowed : (m.state == 1 || m.state == 4) = true := by simpa using may
  unfold actPowerOff
  rw [here]
  exact ⟨_, _, if_neg (by rw [allowed]; decide), .head _, (Tab.find_upd_same ..).trans (congrArg (Option.map _) became.here), rfl, rfl⟩

theorem assembled_of_assembledOf {y : Nat} {gr : Group} (of : assembledOf s m = some y) (here : s.groups.find y = some gr) :
    gr.assembly = .assembled := by
  unfold assembledOf at of
  split at of
  next g x found =>
    split at of
    next is =>
      obtain rfl := Option.some.inj of
      obtain ⟨k, -, named⟩ := Option.bind_eq_some_iff.1 found
      obtain ⟨z, there, pair⟩ := Option.map_eq_some_iff.1 named
      obtain ⟨rfl, rfl⟩ := Prod.mk.inj pair
      obtain rfl := Option.some.inj (here.symm.trans there)
      exact beq_iff_eq.1 is
    next => cases of
  next => cases of

/-- SCRUB starts a pass of the port's group, unless one runs (R381, R392). -/
theorem actScrub_done {y : Nat} {gr : Group} (here : s.mports.find port = some m) (of : assembledOf s m = some y)
    (group : s.groups.find y = some gr) : ∃ t, actScrub s port = .done t ∧
      GroupIs y (if gr.scrubbing then gr else { gr with scrubbing := true, scrubNext := 0, scrubAt := some (now s) }) s t := by
  refine ⟨scrubStart s y, ?_, ?_⟩
  · unfold actScrub
    rw [here, Option.bind_some, of]
  · have started := updGroup_groupIs (fun g : Group => if g.assembly == .assembled && !g.scrubbing then
      { g with scrubbing := true, scrubNext := 0, scrubAt := some (now s) } else g) group
    rw [show (gr.assembly == .assembled) = true from beq_iff_eq.2 (assembled_of_assembledOf of group), Bool.true_and] at started
    cases scrubs : gr.scrubbing <;> rw [scrubs] at started <;> exact started

end

/-! MEMBER_CONTROL -/

/-- The entry of a MEMBER_CONTROL. -/
def mcEntry (g : GMsg) : AdminCmd := gelbelEntry 0x0B g.tag 0 g.body

section
variable {s : State} {g : GMsg} (core : CoreUp s) (live : s.pwr.devState ≠ .held) (thawed : s.vlt.pfail = false)
include core live thawed

theorem gelbelMemberControl_malformed (bad : g.body.length ≠ 16 ∨ tailOk (mcEntry g) mcForm = false) :
    Tells s g (.gelbelMemberControl g) 0x0B 3 [] := by
  refine tells_of_answer (fm := { cmd := 0x0B, core := true, writes := true }) (st := .invalidField)
    ((congrArg Host.Outcome.next (gelbelRun_core core live thawed)).trans (congrArg _ (if_pos ?_)))
  rw [Bool.or_eq_true, bne_iff_ne, Bool.not_eq_true']
  exact bad

variable {a : AdminCmd} (entry : mcEntry g = a) (length : g.body.length = 16) (tail : tailOk (mcEntry g) mcForm = true)
include entry length tail

theorem exec_gelbelMemberControl : exec (.gelbelMemberControl g) s = .next ((memberAct s a.entry a).finish s a) := by
  subst entry
  refine (congrArg Host.Outcome.next (gelbelRun_core core live thawed)).trans (congrArg _ (if_neg ?_))
  rw [Bool.or_eq_true, bne_iff_ne, Bool.not_eq_true']
  exact fun bad => bad.elim (absurd length) fun no => absurd (tail.symm.trans no) (by decide)

omit core live thawed length tail in
/-- The end of an action is the response to the request. -/
theorem adminOk_mcEntry (t : State) : adminOk t a = gelbelReply t 0x0B g.tag .success [] := by
  subst entry
  exact adminDone_gelbel ..

theorem gelbelMemberControl_undefined (undefined : mcAction a.entry = 0 ∨ 11 < mcAction a.entry) :
    Tells s g (.gelbelMemberControl g) 0x0B 3 [] := by
  have run := exec_gelbelMemberControl core live thawed entry length tail
  have refused : memberAct s a.entry a = .refused .invalidField := by
    unfold memberAct
    extract_lets p
    split
    case h_12 => rfl
    all_goals omega
  rw [refused] at run
  have answered : (Acted.refused .invalidField).finish s a = gelbelReply s 0x0B g.tag .invalidField [] := by
    subst entry
    exact adminDone_gelbel ..
  rw [answered] at run
  exact ⟨_, run, gelbelReply_frame _ _ _ _ _, rfl⟩

variable {m : MPort} (here : s.mports.find (mcPort a.entry) = some m)
include here

theorem gelbelMemberControl_scrub {y : Nat} {gr : Group} (action : mcAction a.entry = 9) (of : assembledOf s m = some y)
    (group : s.groups.find y = some gr) : Runs (.gelbelMemberControl g) s fun t => Replies g 0x0B 0 [] t ∧
      GroupIs y (if gr.scrubbing then gr else { gr with scrubbing := true, scrubNext := 0, scrubAt := some (now s) }) s t := by
  have run := exec_gelbelMemberControl core live thawed entry length tail
  obtain ⟨t, done, started⟩ := actScrub_done here of group
  have acted : memberAct s a.entry a = .done t := by rw [memberAct, action]; exact done
  rw [acted, Acted.finish, adminOk_mcEntry entry] at run
  exact .of_exec run (execGelbelMemberControl_frame g s) ⟨rfl, started⟩

theorem gelbelMemberControl_powerOff (action : mcAction a.entry = 10) (may : m.state = 1 ∨ m.state = 4) :
    Runs (.gelbelMemberControl g) s fun t => Replies g 0x0B 0 [] t ∧ Out.mperst (mcPort a.entry) false ∈ t.out ∧
      ∃ q, t.mports.find (mcPort a.entry) = some q ∧ q.powerOff = true ∧ q.mperstHigh = false := by
  have run := exec_gelbelMemberControl core live thawed entry length tail
  obtain ⟨t, q, done, out, port, off, low⟩ := actPowerOff_done here may
  have acted : memberAct s a.entry a = .done t := by rw [memberAct, action]; exact done
  rw [acted, Acted.finish, adminOk_mcEntry entry] at run
  exact .of_exec run (execGelbelMemberControl_frame g s) ⟨rfl, List.mem_cons_of_mem _ out, q, port, off, low⟩

theorem gelbelMemberControl_reset (action : mcAction a.entry = 1) (may : m.state = 1 ∨ m.state = 4 ∨ m.contained = true) :
    Runs (.gelbelMemberControl g) s fun t => Out.mperst (mcPort a.entry) false ∈ t.out ∧
      ∃ q, t.mports.find (mcPort a.entry) = some q ∧ a ∈ q.resetWait ∧ q.powerOff = false ∧ q.contained = false ∧
        q.mperstHigh = false ∧ q.pulseDue = some (after s 6554) := by
  have run := exec_gelbelMemberControl core live thawed entry length tail
  obtain ⟨t, q, waits, out, port, reset⟩ := actReset_waits (w := a) here may
  have acted : memberAct s a.entry a = .waits t := by rw [memberAct, action]; exact waits
  rw [acted, Acted.finish] at run
  exact .of_exec run (execGelbelMemberControl_frame g s) ⟨out, q, port, reset⟩

end

/-! SET_TOKENS -/

/-- The entry of a SET_TOKENS, and its named fields (R199). -/
def tokenEntry (g : GMsg) : AdminCmd := gelbelEntry 0x0C g.tag 0 g.body

def tokenForm : AdminForm := { tail := [(40, 0, 16), (42, 0, 1), (44, 0, 32), (48, 0, 32), (52, 0, 32), (56, 0, 32)] }

section
variable {s : State} {g : GMsg} (core : CoreUp s) (live : s.pwr.devState ≠ .held) (thawed : s.vlt.pfail = false)
include core live thawed

theorem gelbelSetTokens_malformed (bad : g.body.length ≠ 20 ∨ tailOk (tokenEntry g) tokenForm = false) :
    Tells s g (.gelbelSetTokens g) 0x0C 3 [] := by
  refine tells_of_answer (fm := { cmd := 0x0C, core := true, writes := true }) (st := .invalidField)
    ((congrArg Host.Outcome.next (gelbelRun_core core live thawed)).trans (congrArg _ (if_pos ?_)))
  rw [Bool.or_eq_true, bne_iff_ne, Bool.not_eq_true']
  exact bad

variable {a : AdminCmd} (entry : tokenEntry g = a) (length : g.body.length = 20) (tail : tailOk (tokenEntry g) tokenForm = true)
  (kind : (tokenReq a.entry).kind = 1)
include entry length tail kind

/-- For the shared buckets of a function the target has to exist (R65, R199). -/
theorem exec_gelbelSetTokens : exec (.gelbelSetTokens g) s = .next (
    match setShared s (tokenReq a.entry).target (tokenReq a.entry).v with
    | some t => updAdm t fun x => { x with tokenWait := x.tokenWait ++ [a] }
    | none => answer s { cmd := 0x0C, core := true, writes := true } g .invalidField []) := by
  have applied : applyTokens s (tokenReq a.entry) (fun _ => true) = setShared s (tokenReq a.entry).target (tokenReq a.entry).v := by
    rw [applyTokens, if_neg (by rw [kind]; decide), if_pos rfl]
  rw [← applied]
  subst entry
  refine (congrArg Host.Outcome.next (gelbelRun_core core live thawed)).trans (congrArg _ (if_neg ?_))
  rw [Bool.or_eq_true, bne_iff_ne, Bool.not_eq_true']
  exact fun bad => bad.elim (absurd length) fun no => absurd (tail.symm.trans no) (by decide)

theorem gelbelSetTokens_absent (none_ : fnOf s (tokenReq a.entry).target = none) : Tells s g (.gelbelSetTokens g) 0x0C 3 [] := by
  have run := exec_gelbelSetTokens core live thawed entry length tail kind
  rw [setShared, none_] at run
  exact tells_of_answer (fm := { cmd := 0x0C, core := true, writes := true }) (st := .invalidField) run

theorem gelbelSetTokens_sets (here : (fnOf s (tokenReq a.entry).target).isSome = true) : Does (.gelbelSetTokens g) [.adm] s fun t =>
    a ∈ t.adm.tokenWait ∧
      t.adm.sb.find (tokenReq a.entry).target = some { (sbOf s (tokenReq a.entry).target) with next := some (tokenReq a.entry).v } := by
  have run := exec_gelbelSetTokens core live thawed entry length tail kind
  rw [setShared_isSome here] at run
  exact ⟨_, run, (updAdm_frame _ _).step (updAdm_frame _ _), List.mem_append_right _ (.head _), Tab.find_put_same _ _ _⟩

end

/-! All messages -/

/-- Settles O55: what decides whether a request is served comes first, then each message by its own checks. -/
theorem gelbelMessages : Obligations.GelbelMessages := by
  unfold Obligations.GelbelMessages
  intro s g reply tells reads n field up core live temp cores
  refine ⟨fun x mem => ?_, fun core held x mem read log => ?_, fun up cmd undefined => undefinedCommand_tells up undefined,
    fun up => ⟨fun body => ?_, fun body => ?_⟩,
    gelbelTagRead_tells, getRouteBook_tells, getFare_tells, gelbelGetLog_tells, fun up live length other => ?_, fun up live sized => ?_,
    vaultRelease_answers, fun core live thawed => ⟨fwUpdateBegin_begins core live thawed, fwUpdateData_unbegun core live thawed,
      fun len begun whole data short => ⟨fwUpdateData_outside core live thawed begun,
        fwUpdateData_writes core live thawed begun whole data short⟩,
      fwUpdateAbort_aborts core live thawed, fun length commit x => ⟨fwUpdateCommit_unfit core live thawed x length commit,
        fwUpdateCommit_inhibited core live thawed x length commit, fwUpdateCommit_commits core live thawed x length commit⟩,
      ⟨gelbelTimetable_bad core live thawed, fun takes => (gelbelTimetable_sets core live thawed rfl takes).imp
        fun t ⟨answers, waits, set⟩ => ⟨answers, waits, set.inComp, set.planEn⟩⟩,
      ⟨gelbelMemberControl_malformed core live thawed, fun length tail => ⟨gelbelMemberControl_undefined core live thawed rfl length tail,
        fun m here => ⟨fun action y gr of group => gelbelMemberControl_scrub core live thawed rfl length tail here action of group,
          gelbelMemberControl_powerOff core live thawed rfl length tail here,
          gelbelMemberControl_reset core live thawed rfl length tail here⟩⟩⟩,
      ⟨gelbelSetTokens_malformed core live thawed, fun length tail kind => ⟨gelbelSetTokens_absent core live thawed rfl length tail kind,
        gelbelSetTokens_sets core live thawed rfl length tail kind⟩⟩⟩⟩
  · obtain ⟨fm, serves, number, core, -⟩ := CoreMessage.serves mem
    exact ⟨serves.off, fun up away => number ▸ serves.unserved up core away⟩
  · obtain ⟨fm, serves, number, -, writes⟩ := CoreMessage.serves mem
    exact number ▸ serves.held core (writes read log) held
  · have some_ : g.body.isEmpty = false := by simpa using body
    exact ⟨(getStatus_tells up).2 some_, (getTemp_tells up).2 some_⟩
  · have empty : g.body.isEmpty = true := by simpa using body
    refine ⟨?_, _, (getStatus_tells up).1 empty, statusBody_fields s⟩
    have read := (getTemp_tells up).1 empty
    rw [readings, List.map_map] at read
    exact read
  · refine tagWrite_unfit up live fun ⟨sized, _⟩ => ?_
    exact sized.elim length fun signed => other.elim (absurd signed.1) (absurd signed.2)
  · intro r bs fits
    have right (of : fits) : TagFits g := ⟨sized, of⟩
    refine ⟨fun bad => tagWrite_unfit up live fun ⟨_, of⟩ => bad of, fun of => tagWrite_inhibited up live (right of),
      fun of => tagWrite_worn up live (right of), fun of powered sound => ⟨fun owner no => ?_, fun may => ?_⟩⟩
    · exact tagWrite_unsigned up live (right of) powered sound owner (by rw [Bool.eq_false_iff]; exact mt ownerMay_iff.1 no)
    · exact tagWrite_stores up live (right of) powered sound (may.imp_right ownerMay_iff.2)

end Sys2Proof.Machine
end

section
/-! The field GF(2^8) of the parity strips (R211, R212): the laws of its product, its inverses, and the powers of g
(none below the 255th is 1). -/

namespace Sys2Proof.Machine

theorem xtime_eq (a : Byte) : xtime a = (a <<< 1) ^^^ (if a.getLsbD 7 then 0x1D#8 else 0#8) := by
  unfold xtime
  split <;> simp

theorem xtime_xor (a b : Byte) : xtime (a ^^^ b) = xtime a ^^^ xtime b := by
  have carry : (if (a ^^^ b).getLsbD 7 then 0x1D#8 else 0#8) =
      (if a.getLsbD 7 then 0x1D#8 else 0#8) ^^^ (if b.getLsbD 7 then 0x1D#8 else 0#8) := by
    rw [BitVec.getLsbD_xor]
    cases a.getLsbD 7 <;> cases b.getLsbD 7 <;> rfl
  rw [xtime_eq, xtime_eq, xtime_eq, carry, BitVec.shiftLeft_xor_distrib]
  ac_rfl

theorem xtime_ghalf (a : Byte) : xtime (ghalf a) = a := by
  revert a
  decide +kernel

/-! The product, by the rounds of its definition -/

theorem gmulAux_xor_left (n : Nat) (a a' b r r' : Byte) :
    gmulAux n (a ^^^ a') b (r ^^^ r') = gmulAux n a b r ^^^ gmulAux n a' b r' := by
  induction n generalizing a a' b r r' with
  | zero => rfl
  | succ n ih =>
    have round : (if b.getLsbD 0 then r ^^^ r' ^^^ (a ^^^ a') else r ^^^ r') =
        (if b.getLsbD 0 then r ^^^ a else r) ^^^ (if b.getLsbD 0 then r' ^^^ a' else r') := by
      split <;> ac_rfl
    rw [gmulAux, round, xtime_xor, ih]
    rfl

theorem gmulAux_xtime (n : Nat) (a b r : Byte) : gmulAux n (xtime a) b (xtime r) = xtime (gmulAux n a b r) := by
  induction n generalizing a b r with
  | zero => rfl
  | succ n ih =>
    have round : (if b.getLsbD 0 then xtime r ^^^ xtime a else xtime r) = xtime (if b.getLsbD 0 then r ^^^ a else r) := by
      rw [← xtime_xor]
      split <;> rfl
    rw [gmulAux, round, ih]
    rfl

theorem gmul_xor_left (a a' b : Byte) : gmul (a ^^^ a') b = gmul a b ^^^ gmul a' b :=
  gmulAux_xor_left 8 a a' b 0 0

theorem gmul_xtime_left (a b : Byte) : gmul (xtime a) b = xtime (gmul a b) :=
  gmulAux_xtime 8 a b 0

theorem zero_gmul (b : Byte) : gmul 0 b = 0 := by
  simpa using gmul_xor_left 0 0 b

theorem one_gmul (b : Byte) : gmul 1 b = b := by
  revert b
  decide +kernel

/-- The rounds of a product keep a factor of the first operand apart. -/
theorem gmul_gmulAux (n : Nat) (a b c r : Byte) : gmul (gmulAux n a b r) c = gmulAux n (gmul a c) b (gmul r c) := by
  induction n generalizing a b r with
  | zero => rfl
  | succ n ih =>
    have round : gmul (if b.getLsbD 0 then r ^^^ a else r) c = if b.getLsbD 0 then gmul r c ^^^ gmul a c else gmul r c := by
      rw [← gmul_xor_left]
      split <;> rfl
    rw [gmulAux, ih, round, gmul_xtime_left]
    rfl

/-- The factors b and c can be taken in either order. -/
theorem gmul_right_comm (a b c : Byte) : gmul (gmul a b) c = gmul (gmul a c) b := by
  have rounds := gmul_gmulAux 8 a b c 0
  rwa [zero_gmul] at rounds

theorem gmul_comm (a b : Byte) : gmul a b = gmul b a := by
  simpa only [one_gmul] using gmul_right_comm 1 a b

theorem gmul_assoc (a b c : Byte) : gmul (gmul a b) c = gmul a (gmul b c) := by
  rw [gmul_comm a b, gmul_right_comm, gmul_comm]

theorem gmul_xor_right (a b b' : Byte) : gmul a (b ^^^ b') = gmul a b ^^^ gmul a b' := by
  simp only [gmul_comm a, gmul_xor_left]

theorem gmul_xtime_right (a b : Byte) : gmul a (xtime b) = xtime (gmul a b) := by
  rw [gmul_comm, gmul_xtime_left, gmul_comm]

/-! Powers of g and inverses -/

theorem gneg_gmul_gpow (n : Nat) : gmul (gneg n) (gpow n) = 1 := by
  induction n with
  | zero => exact one_gmul 1
  | succ n ih => rw [gneg, gpow, gmul_xtime_right, ← gmul_xtime_left, xtime_ghalf, ih]

theorem gneg_gmul_gpow_gmul (n : Nat) (d : Byte) : gmul (gneg n) (gmul (gpow n) d) = d := by
  rw [← gmul_assoc, gneg_gmul_gpow, one_gmul]

theorem gpow_add (m n : Nat) : gpow (m + n) = gmul (gpow m) (gpow n) := by
  induction n with
  | zero => rw [gpow, gmul_comm, one_gmul]; rfl
  | succ n ih => rw [← Nat.add_assoc, gpow, ih, gpow, gmul_xtime_right]

/-- The order of g is at least 255 (R211). -/
theorem gpow_ne_one : ∀ n < 255, n ≠ 0 → gpow n ≠ 1 := by
  decide +kernel

theorem gpow_ne {m n : Nat} (less : m < n) (bound : n < 255) : gpow m ≠ gpow n := by
  intro same
  refine gpow_ne_one (n - m) (by omega) (by omega) ?_
  have apart := gneg_gmul_gpow_gmul m (gpow (n - m))
  rw [← gpow_add, Nat.add_sub_cancel' less.le, ← same, gneg_gmul_gpow] at apart
  exact apart.symm

theorem ginv_gmul : ∀ c : Byte, c ≠ 0 → gmul (ginv c) c = 1 := by
  decide +kernel

theorem cxy_gmul {x y : Nat} (less : x < y) (bound : y < 255) (d : Byte) :
    gmul (cxy x y) (gmul (gpow x ^^^ gpow y) d) = d := by
  rw [cxy, ← gmul_assoc, ginv_gmul _ fun zero => gpow_ne less bound (BitVec.xor_eq_zero_iff.1 zero), one_gmul]

end Sys2Proof.Machine
end

section
/-! The sums of a stripe (R213, R215, R220): what a lost byte adds to P and Q, and what a new byte changes in them. -/

namespace Sys2Proof.Machine

theorem xorAll_cons (a : Byte) (l : List Byte) : xorAll (a :: l) = a ^^^ xorAll l := by
  have shift : l.foldl (· ^^^ ·) (a ^^^ 0) = a ^^^ l.foldl (· ^^^ ·) 0 := List.foldl_assoc
  rwa [BitVec.xor_comm] at shift

theorem xorAll_perm {l l' : List Byte} (perm : l.Perm l') : xorAll l = xorAll l' :=
  perm.foldl_op_eq

theorem xorAll_set {l : List Byte} {x : Nat} (inside : x < l.length) (b : Byte) :
    xorAll (l.set x b) = xorAll l ^^^ l.getD x 0 ^^^ b := by
  induction l generalizing x with
  | nil => exact absurd inside (Nat.not_lt_zero x)
  | cons a l ih =>
    cases x with
    | zero =>
      rw [List.set_cons_zero, xorAll_cons, xorAll_cons, List.getD_cons_zero, BitVec.xor_comm a, xor_cancel_right, BitVec.xor_comm]
    | succ x =>
      rw [List.set_cons_succ, xorAll_cons, xorAll_cons, ih (Nat.lt_of_succ_lt_succ inside), List.getD_cons_succ]
      simp only [BitVec.xor_assoc]

/-- What a byte at an index adds to Q. -/
def qTerm (e : Nat × Byte) : Byte := gmul (gpow e.1) e.2

theorem weighted_eq (l : List (Nat × Byte)) : weighted l = xorAll (l.map qTerm) :=
  List.foldl_map.symm

theorem length_indexed {α : Type} (l : List α) : (indexed l).length = l.length := by
  simp [indexed]

theorem map_snd_indexed {α : Type} (l : List α) : (indexed l).map Prod.snd = l :=
  List.map_snd_zip (by simp)

theorem map_fst_indexed {α : Type} (l : List α) : (indexed l).map Prod.fst = List.range l.length :=
  List.map_fst_zip (by simp)

theorem indexed_set {α : Type} (l : List α) (x : Nat) (b : α) : indexed (l.set x b) = (indexed l).set x (x, b) := by
  refine List.ext_getElem (by simp [indexed]) fun n h h' => ?_
  by_cases here : x = n <;> simp [indexed, here]

theorem mem_indexed {ds : List Byte} {x : Nat} (inside : x < ds.length) : (x, ds.getD x 0) ∈ indexed ds := by
  refine List.mem_iff_getElem.2 ⟨x, by simpa [indexed], ?_⟩
  simp [indexed, inside]

/-- A table whose keys differ is one entry and the entries of the other keys. -/
theorem perm_cons_filter_ne {α : Type} [DecidableEq α] {l : List (Nat × α)} {x : Nat} {v : α} (keys : (l.map Prod.fst).Nodup)
    (mem : (x, v) ∈ l) : l.Perm ((x, v) :: l.filter fun e => e.1 != x) := by
  have others : l.erase (x, v) = l.filter fun e => e.1 != x := by
    rw [keys.of_map.erase_eq_filter]
    refine List.filter_congr fun e here => ?_
    have one : e.1 = x ↔ e = (x, v) := ⟨fun same => List.inj_on_of_nodup_map keys here mem same, fun same => same ▸ rfl⟩
    simp only [bne, beq_eq_decide, one]
  exact others ▸ List.perm_cons_erase mem

section
variable {l : List (Nat × Byte)} {x y : Nat} {v w : Byte} (keys : (l.map Prod.fst).Nodup) (f : Nat × Byte → Byte)

include keys

theorem xorAll_split (mem : (x, v) ∈ l) : xorAll (l.map f) = f (x, v) ^^^ xorAll ((l.filter fun e => e.1 != x).map f) := by
  rw [xorAll_perm ((perm_cons_filter_ne keys mem).map f), List.map_cons, xorAll_cons]

theorem xorAll_split_two (ne : y ≠ x) (mem : (x, v) ∈ l) (mem' : (y, w) ∈ l) : xorAll (l.map f) =
    f (x, v) ^^^ f (y, w) ^^^ xorAll ((l.filter fun e => e.1 != x && e.1 != y).map f) := by
  have stays : (y, w) ∈ l.filter fun e => e.1 != x := List.mem_filter.2 ⟨mem', by simpa using ne⟩
  have apart : ((l.filter fun e => e.1 != x).map Prod.fst).Nodup := keys.sublist (List.filter_sublist.map _)
  rw [xorAll_split keys f mem, xorAll_split apart f stays, List.filter_filter, BitVec.xor_assoc]
  simp only [Bool.and_comm]

end

/-! A stripe that lost one or two of its data bytes, and one with a new byte -/

theorem nodup_keys_indexed (ds : List Byte) : ((indexed ds).map Prod.fst).Nodup :=
  map_fst_indexed ds ▸ List.nodup_range

section
variable {ds : List Byte} {x y : Nat}

/-- Q without the terms of the other bytes is the weighted byte (the second row of R220). -/
theorem qOf_xor_others (inside : x < ds.length) :
    qOf ds ^^^ weighted ((indexed ds).filter fun e => e.1 != x) = gmul (gpow x) (ds.getD x 0) := by
  rw [qOf, weighted_eq, weighted_eq, xorAll_split (nodup_keys_indexed ds) qTerm (mem_indexed inside), xor_cancel_right, qTerm]

section
variable (less : x < y) (inside : y < ds.length)
include less inside

/-- P_xy of R220. -/
theorem pOf_xor_others : pOf ds ^^^ xorAll (((indexed ds).filter fun e => e.1 != x && e.1 != y).map Prod.snd) =
    ds.getD x 0 ^^^ ds.getD y 0 := by
  have split := xorAll_split_two (nodup_keys_indexed ds) Prod.snd less.ne' (mem_indexed (less.trans inside)) (mem_indexed inside)
  rw [map_snd_indexed] at split
  rw [pOf, split, xor_cancel_right]

/-- Q_xy of R220. -/
theorem qOf_xor_others_two : qOf ds ^^^ weighted ((indexed ds).filter fun e => e.1 != x && e.1 != y) =
    gmul (gpow x) (ds.getD x 0) ^^^ gmul (gpow y) (ds.getD y 0) := by
  rw [qOf, weighted_eq, weighted_eq, xorAll_split_two (nodup_keys_indexed ds) qTerm less.ne' (mem_indexed (less.trans inside))
    (mem_indexed inside), xor_cancel_right, qTerm, qTerm]

end

theorem solve2_syndromes (less : x < y) (bound : y < 255) (a b : Byte) :
    solve2 x y (a ^^^ b) (gmul (gpow x) a ^^^ gmul (gpow y) b) = (a, b) := by
  have first : gmul (gpow x) a ^^^ gmul (gpow y) b ^^^ gmul (gpow y) (a ^^^ b) = gmul (gpow x ^^^ gpow y) a := by
    rw [gmul_xor_right, gmul_xor_left, BitVec.xor_comm (gmul (gpow y) a), ← BitVec.xor_assoc, xor_cancel_right]
  simp only [solve2, first, cxy_gmul less bound, xor_xor_cancel_comm]

theorem qOf_set (inside : x < ds.length) (b : Byte) : qOf (ds.set x b) = qOf ds ^^^ gmul (gpow x) (ds.getD x 0 ^^^ b) := by
  have old : ((indexed ds).map qTerm).getD x 0 = gmul (gpow x) (ds.getD x 0) := by
    simp [indexed, inside, qTerm]
  rw [qOf, qOf, weighted_eq, weighted_eq, indexed_set, List.map_set, xorAll_set (by simpa [length_indexed]), old, BitVec.xor_assoc,
    gmul_xor_right, qTerm]

end

/-- Settles O18: P and Q are sums over the stripe, so taking the other bytes out of them leaves the lost ones; the rest is
arithmetic of the field, where the weights of two indices below 255 differ. -/
theorem lostStripsRecovered : Obligations.LostStripsRecovered := by
  unfold Obligations.LostStripsRecovered
  refine ⟨fun ds x inside _ => ?one, fun ds x y less inside size => ?two, fun ds x new inside => ⟨?newP, ?newQ⟩⟩
  case one =>
    rw [qOf_xor_others inside, gneg_gmul_gpow_gmul]
  case two =>
    dsimp only
    rw [pOf_xor_others less inside, qOf_xor_others_two less inside]
    exact solve2_syndromes less (inside.trans_le size) _ _
  case newP =>
    exact xorAll_set inside new
  case newQ =>
    exact qOf_set inside new

end Sys2Proof.Machine
end

section
/-! The register file of a thread (R249), and CALLM with the MAP it runs (R226, R282). -/

namespace Sys2Proof.Machine

/-! General registers -/

section
variable (c : Ctx) (n : Nat) (v : Word)

@[simp] theorem setGreg_pc : (setGreg c n v).pc = c.pc := by simp only [setGreg, apply_ite Ctx.pc, ite_self]
@[simp] theorem setGreg_budget : (setGreg c n v).budget = c.budget := by simp only [setGreg, apply_ite Ctx.budget, ite_self]
@[simp] theorem setGreg_state : (setGreg c n v).state = c.state := by simp only [setGreg, apply_ite Ctx.state, ite_self]
@[simp] theorem setGreg_h : (setGreg c n v).h = c.h := by simp only [setGreg, apply_ite Ctx.h, ite_self]
@[simp] theorem setGreg_locals : (setGreg c n v).locals = c.locals := by simp only [setGreg, apply_ite Ctx.locals, ite_self]
@[simp] theorem setGreg_flags : (setGreg c n v).flags = c.flags := by simp only [setGreg, apply_ite Ctx.flags, ite_self]
@[simp] theorem flagOf_setGreg (k : Nat) : flagOf (setGreg c n v) k = flagOf c k := by simp only [flagOf, setGreg_flags]

end

theorem sorted_setGreg {c : Ctx} (n : Nat) (v : Word) (sorted : Tab.sorted c.g = true) : Tab.sorted (setGreg c n v).g = true := by
  unfold setGreg
  split
  · exact sorted
  · split
    · exact Tab.sorted_del sorted
    · exact Tab.sorted_put sorted

theorem greg_setGreg_same {c : Ctx} {n : Nat} (v : Word) (sorted : Tab.sorted c.g = true) (listed : n ≠ 0) :
    greg (setGreg c n v) n = v := by
  simp only [greg, setGreg, if_neg listed]
  split
  next zero => simp [Tab.getD, Tab.find_del_same sorted, zero]
  next => simp [Tab.getD]

theorem greg_setGreg_other (c : Ctx) {n m : Nat} (v : Word) (other : m ≠ n) : greg (setGreg c n v) m = greg c m := by
  simp only [greg, setGreg, Tab.getD]
  split
  · rfl
  · split
    · rfl
    · split
      · rw [Tab.find_del_other _ other]
      · rw [Tab.find_put_other _ _ other]

/-! Flags -/

section
variable (c : Ctx) (n : Nat) (v : Bool)

@[simp] theorem setFlag_pc : (setFlag c n v).pc = c.pc := by simp only [setFlag, apply_ite Ctx.pc, ite_self]
@[simp] theorem setFlag_budget : (setFlag c n v).budget = c.budget := by simp only [setFlag, apply_ite Ctx.budget, ite_self]
@[simp] theorem setFlag_state : (setFlag c n v).state = c.state := by simp only [setFlag, apply_ite Ctx.state, ite_self]
@[simp] theorem setFlag_h : (setFlag c n v).h = c.h := by simp only [setFlag, apply_ite Ctx.h, ite_self]
@[simp] theorem setFlag_locals : (setFlag c n v).locals = c.locals := by simp only [setFlag, apply_ite Ctx.locals, ite_self]
@[simp] theorem setFlag_g : (setFlag c n v).g = c.g := by simp only [setFlag, apply_ite Ctx.g, ite_self]
@[simp] theorem greg_setFlag (k : Nat) : greg (setFlag c n v) k = greg c k := by simp only [greg, setFlag_g]

end

theorem flagOf_setFlag (c : Ctx) {n k : Nat} (v : Bool) (kept : n ≠ 0) (inside : k < 8) :
    flagOf (setFlag c n v) k = if k = n then v else flagOf c k := by
  have bit : (BitVec.ofNat 8 (2 ^ n)).getLsbD k = decide (k = n) := by
    rw [BitVec.getLsbD_ofNat, Nat.testBit_two_pow, decide_eq_true inside, Bool.true_and, decide_eq_decide.2 eq_comm]
  simp only [flagOf, setFlag, if_neg kept]
  generalize BitVec.ofNat 8 (2 ^ n) = mask at bit
  by_cases same : k = n
  · subst same
    cases v <;> simp_all
  · cases v <;> simp_all

/-! The issue of an instruction and its completion (R247, R271) -/

section
variable {allow : HandlerKind → Bool} {i : Ins} {x : Ctx} {s : State} (issues : Issues allow i x s)
include issues

theorem Issues.runIns {ok : Bool} (word : ok = true) (f : Ctx → State → State) :
    runIns i ok allow s f = .next (f x (updCtx s i.cx (issue s))) := by
  obtain ⟨here, running, allowed, unmarked, budget⟩ := issues
  obtain ⟨c, found, rfl⟩ := Option.map_eq_some_iff.1 here
  change c.state = .running at running
  change allow (kindNow c) = true at allowed
  change c.lockHold = none at unmarked
  change c.budget ≠ 0 at budget
  simp [Machine.runIns, word, found, running, allowed, unmarked, budget]

/-- An instruction that completes at once changes its own context alone, from what it was at its issue. -/
theorem Issues.complete_ctxIs (t : State) (before : t.ctxs = (updCtx s i.cx (issue s)).ctxs) (h : Ctx → Ctx) :
    CtxIs i.cx (h (advance x)) s (complete t i.cx h) := by
  refine ⟨?_, fun k other => ?_⟩
  · rw [complete, updCtx_ctxs, Tab.find_upd_same, before, updCtx_ctxs, Tab.find_upd_same, issues.1]
    rfl
  · rw [complete, updCtx_ctxs, Tab.find_upd_other _ _ other, before, updCtx_ctxs, Tab.find_upd_other _ _ other]

end

/-! What MAP leaves in the context (R226, R282) -/

section
variable (g : Group) (r : MapOut) (w7 : Word) (c : Ctx)

@[simp] theorem mapRegs_pc : (mapRegs g r w7 c).pc = c.pc := by simp [mapRegs]
@[simp] theorem mapRegs_budget : (mapRegs g r w7 c).budget = c.budget := by simp [mapRegs]
@[simp] theorem mapRegs_state : (mapRegs g r w7 c).state = c.state := by simp [mapRegs]
@[simp] theorem mapRegs_h : (mapRegs g r w7 c).h = c.h := by simp [mapRegs]
@[simp] theorem mapRegs_locals : (mapRegs g r w7 c).locals = c.locals := by simp [mapRegs]

/-- The results of MAP in g1 to g6. -/
theorem greg_mapRegs (sorted : Tab.sorted c.g = true) :
    let y := mapRegs g r w7 c
    greg y 1 = BitVec.ofNat 64 r.stripe ∧ greg y 2 = BitVec.ofNat 64 r.index ∧ greg y 3 = BitVec.ofNat 64 r.at_.member ∧
      greg y 4 = BitVec.ofNat 64 (memberLba g r.at_.row r.o) ∧ greg y 5 = BitVec.ofNat 64 r.o ∧
      greg y 6 = BitVec.ofNat 64 r.at_.row := by
  have s1 := sorted_setGreg 1 (BitVec.ofNat 64 r.stripe) sorted
  have s2 := sorted_setGreg 2 (BitVec.ofNat 64 r.index) s1
  have s3 := sorted_setGreg 3 (BitVec.ofNat 64 r.at_.member) s2
  have s4 := sorted_setGreg 4 (BitVec.ofNat 64 (memberLba g r.at_.row r.o)) s3
  have s5 := sorted_setGreg 5 (BitVec.ofNat 64 r.o) s4
  simp [mapRegs, greg_setGreg_other, greg_setGreg_same, sorted, s1, s2, s3, s4, s5]

theorem greg_mapRegs_of_lt {k : Nat} (high : 7 < k) : greg (mapRegs g r w7 c) k = greg c k := by
  simp (disch := omega) only [mapRegs, greg_setFlag, greg_setGreg_other]

theorem flagOf_mapRegs_spare : flagOf (mapRegs g r w7 c) 1 = r.at_.spare := by
  simp [mapRegs, flagOf_setFlag]

theorem flagOf_mapRegs_padding : flagOf (mapRegs g r w7 c) 2 = isPadding g r.stripe r.index := by
  simp [mapRegs, flagOf_setFlag]

theorem flagOf_mapRegs_of_lt {k : Nat} (high : 3 < k) (inside : k < 8) : flagOf (mapRegs g r w7 c) k = flagOf c k := by
  have one : k ≠ 1 := by omega
  have two : k ≠ 2 := by omega
  have three : k ≠ 3 := by omega
  simp [mapRegs, flagOf_setFlag, inside, one, two, three]

end

/-- CALLM of a thread within its depth and budget, where the context names a group and MAP answers r for n instructions: one
step, by log entry 16. -/
theorem exec_callm {i : Ins} {x : Ctx} {s : State} {g : Group} {n : Nat} {r : MapOut} (issues : Issues notMap i x s)
    (word : (i.modIn 0 && i.noD && i.noA && i.noB && i.imm == 0) = true) (depth : x.depth < 4)
    (cost : Config.mapInstrs (layoutRouteOf s x.route.toNat) (greg x 2).toNat (greg x 1).toNat = n) (budget : 1 + n ≤ x.budget)
    (group : ctxGroup s x = some g)
    (run : mapRun g (ctxVol s x) (greg x 2).toNat (greg x 1).toNat (greg x 3).toNat (greg x 5).toNat = r) :
    exec (.callm i) s = .next (complete (drawFree (updCtx s i.cx (issue s))).2 i.cx fun c =>
      mapRegs g r (Config.freeWord s.freeCtr) { c with budget := c.budget - n }) := by
  have shallow : ((s.ctxs.find i.cx).map fun c => decide (4 ≤ c.depth)) ≠ some true := by
    obtain ⟨c, found, rfl⟩ := Option.map_eq_some_iff.1 issues.1
    have own : c.depth < 4 := depth
    simp [found, own]
  subst cost run
  change execCallm i s = _
  rw [execCallm, if_neg (by simpa using shallow), issues.runIns word]
  refine congrArg _ ((if_neg (Nat.not_lt.2 budget)).trans ?_)
  have same : ctxGroup (drawFree (updCtx s i.cx (issue s))).2 x = some g := group
  simp only [same]
  rfl

/-- Settles O7: CALLM draws a free word for g7 and f3 and completes with what MAP answers, which mode 0 asks of the volume block
of g1. -/
theorem engineCallMap : Obligations.EngineCallMap := by
  unfold Obligations.EngineCallMap
  intro i x s v g issues word depth cost budget vol group mode
  have run : mapRun g (ctxVol s x) (greg x 2).toNat (greg x 1).toNat (greg x 3).toNat (greg x 5).toNat =
      let u := stripeOf g v (greg x 1).toNat
      { stripe := u.1, index := u.2.1, at_ := place g u.1 u.2.1, o := u.2.2 } := by
    rw [vol, mode]
    rfl
  have ⟨_, running, _⟩ := issues
  refine ⟨_, exec_callm issues word depth rfl budget group run, ?frame, _, issues.complete_ctxIs (drawFree _).2 rfl _, ?regs⟩
  case frame =>
    exact (complete_frame _ _ _).step ((drawFree_frame _).step ((updCtx_frame _ _ _).step (OnlyChanges.refl _ s)))
  case regs =>
    exact ⟨mapRegs_pc _ _ _ _, mapRegs_budget _ _ _ _, (mapRegs_state _ _ _ _).trans running, mapRegs_h _ _ _ _,
      mapRegs_locals _ _ _ _, fun sorted => greg_mapRegs _ _ _ _ sorted, flagOf_mapRegs_spare _ _ _ _,
      flagOf_mapRegs_padding _ _ _ _, fun _ => greg_mapRegs_of_lt _ _ _ _,
      fun _ inside high => flagOf_mapRegs_of_lt _ _ _ _ high inside⟩

end Sys2Proof.Machine
end

section
/-! What an engine instruction that completes at once does to its own context (R249, R256, R271); the instructions that write one
result (R254) and the register file. -/

namespace Sys2Proof.Machine

/-! Instructions that change their own context alone -/

section
variable {allow : HandlerKind → Bool} {i : Ins} {x : Ctx} {s : State} (issues : Issues allow i x s)
include issues

theorem Issues.updCtx_ctxIs (t : State) (before : t.ctxs = (updCtx s i.cx (issue s)).ctxs) (h : Ctx → Ctx) :
    CtxIs i.cx (h x) s (updCtx t i.cx h) := by
  obtain ⟨here, -⟩ := issues
  refine ⟨?_, fun k other => ?_⟩
  · rw [updCtx_ctxs, Tab.find_upd_same, before, updCtx_ctxs, Tab.find_upd_same, here]
    rfl
  · rw [updCtx_ctxs, Tab.find_upd_other _ _ other, before, updCtx_ctxs, Tab.find_upd_other _ _ other]

/-- An instruction that replaces its own context by a function of it, from what it was at its issue. -/
theorem Issues.sets {c : Instr} {ok : Bool} {f : Ctx → State → State} {h : Ctx → Ctx} {y : Ctx} (word : ok = true)
    (run : exec c s = Machine.runIns i ok allow s f)
    (set : f x (updCtx s i.cx (issue s)) = updCtx (updCtx s i.cx (issue s)) i.cx h) (value : h x = y) : Sets c i.cx y s :=
  ⟨_, run.trans ((issues.runIns word f).trans (congrArg _ set)),
    (updCtx_frame _ _ _).step ((updCtx_frame _ _ _).step (OnlyChanges.refl _ s)), value ▸ issues.updCtx_ctxIs _ rfl h⟩

theorem Issues.gives {c : Instr} {ok : Bool} {f : Ctx → State → State} {v : Word} (word : ok = true)
    (run : exec c s = Machine.runIns i ok allow s f)
    (gives : f x (updCtx s i.cx (issue s)) = completeD (updCtx s i.cx (issue s)) i v) : Gives c i x v s :=
  issues.sets word run (h := fun c => setGreg (advance c) i.d.toNat v) gives rfl

end

/-! Instructions on registers and flags alone (R254) -/

section
variable {i : Ins} {x : Ctx} {s : State} (issues : Issues anyKind i x s) {c : Instr}
include issues

theorem Issues.setsPure {ok : Bool} {h : Ctx → Ctx} {y : Ctx} (word : ok = true) (run : exec c s = pureIns i ok h s)
    (value : h (advance x) = y) : Sets c i.cx y s :=
  issues.sets word run (h := fun c => h (advance c)) rfl value

theorem Issues.givesResult {ok : Bool} {v : Ctx → Word} {w : Word} (word : ok = true) (run : exec c s = resultIns i ok v s)
    (value : v x = w) : Gives c i x w s :=
  value ▸ issues.gives word run (v := v x) rfl

variable {f64 : Word → Word → Word} {f32 : BitVec 32 → BitVec 32 → BitVec 32} {w : Word} (word : i.aluOk = true)
  (run : exec c s = resultIns i i.aluOk (aluOf f64 f32 i) s)
include word run

theorem Issues.givesWide (wide : i.narrow = false) (value : f64 (i.ga x) (i.s2 x) = w) : Gives c i x w s :=
  issues.givesResult word run (by simp [aluOf, wide, value])

theorem Issues.givesNarrow (narrow : i.narrow = true)
    (value : (f32 ((i.ga x).truncate 32) ((i.s2 x).truncate 32)).zeroExtend 64 = w) : Gives c i x w s :=
  issues.givesResult word run ((if_pos narrow).trans value)

end

theorem minBv_eq {w : Nat} (x y : BitVec w) : minBv x y = if y.toNat < x.toNat then y else x := by
  simp [minBv, BitVec.ult]

theorem maxBv_eq {w : Nat} (x y : BitVec w) : maxBv x y = if x.toNat < y.toNat then y else x := by
  simp [maxBv, BitVec.ult]

/-- All ones of 32 bits, zero-extended, is what DIVU with W gives for the divisor 0. -/
theorem zeroExtend_divOr (x y : BitVec 32) :
    (divOr x y).zeroExtend 64 = if y = 0 then 0xFFFFFFFF#64 else (x / y).zeroExtend 64 :=
  apply_ite (BitVec.zeroExtend 64) ..

/-- Settles O1: each instruction gives its operation of the two operands, at the width that W names. -/
theorem engineArithmetic : Obligations.EngineArithmetic := by
  unfold Obligations.EngineArithmetic
  intro i x s issues a b a32 b32
  refine ⟨fun word => ⟨fun wide => ?wide, fun narrow => ?narrow⟩, fun word => ?high⟩
  case high =>
    exact issues.givesResult word (show exec (.mulhu i) s = execMulhu i s from rfl) rfl
  case wide =>
    exact ⟨issues.givesWide word rfl wide rfl, issues.givesWide word rfl wide rfl, issues.givesWide word rfl wide rfl,
      issues.givesWide word rfl wide rfl, issues.givesWide word rfl wide rfl, issues.givesWide word rfl wide (minBv_eq a b),
      issues.givesWide word rfl wide (maxBv_eq a b)⟩
  case narrow =>
    have least := (congrArg (BitVec.zeroExtend 64) (minBv_eq a32 b32)).trans (apply_ite (BitVec.zeroExtend 64) ..)
    have greatest := (congrArg (BitVec.zeroExtend 64) (maxBv_eq a32 b32)).trans (apply_ite (BitVec.zeroExtend 64) ..)
    exact ⟨issues.givesNarrow word rfl narrow rfl, issues.givesNarrow word rfl narrow rfl, issues.givesNarrow word rfl narrow rfl,
      issues.givesNarrow word rfl narrow (zeroExtend_divOr a32 b32),
      issues.givesNarrow word rfl narrow (apply_ite (BitVec.zeroExtend 64) ..), issues.givesNarrow word rfl narrow least,
      issues.givesNarrow word rfl narrow greatest⟩

/-- A shift amount counts modulo 32 whether or not the word is cut to 32 bits. -/
theorem toNat_truncate_mod (b : Word) : (b.truncate 32 : BitVec 32).toNat % 32 = b.toNat % 32 := by
  rw [BitVec.truncate, BitVec.toNat_setWidth]
  omega

/-- Settles O2: each instruction gives its operation of the two operands, at the width that W names. -/
theorem engineLogicAndShifts : Obligations.EngineLogicAndShifts := by
  unfold Obligations.EngineLogicAndShifts
  intro i x s issues a b a32 b32
  refine ⟨fun word => ⟨fun wide => ?wide, fun narrow => ?narrow⟩, fun word => ?select⟩
  case wide =>
    refine ⟨?_, ?_, ?_, ?_, ?_, ?_⟩ <;> exact issues.givesWide word rfl wide rfl
  case narrow =>
    have amount : b32.toNat % 32 = b.toNat % 32 := toNat_truncate_mod b
    exact ⟨issues.givesNarrow word rfl narrow rfl, issues.givesNarrow word rfl narrow rfl, issues.givesNarrow word rfl narrow rfl,
      issues.givesNarrow word rfl narrow (congrArg (fun n => (a32 <<< n).zeroExtend 64) amount),
      issues.givesNarrow word rfl narrow (congrArg (fun n => (a32 >>> n).zeroExtend 64) amount),
      issues.givesNarrow word rfl narrow (congrArg (fun n => (a32.sshiftRight n).zeroExtend 64) amount)⟩
  case select =>
    refine issues.givesResult word (show exec (.sel i) s = execSel i s from rfl) ?_
    rw [aluOf, apply_ite (BitVec.truncate 32)]

/-- Settles O5: g0 and f0 are not stored (that a write to f0 is dropped is the model's choice, for R249 has the verifier refuse
it), and every other register and flag has its own place. -/
theorem registerFile : Obligations.RegisterFile := by
  unfold Obligations.RegisterFile
  intro x n m v b
  refine ⟨rfl, rfl, fun listed sorted => greg_setGreg_same v sorted listed, greg_setGreg_other x v, setGreg_flags x n v,
    setGreg_pc x n v, rfl, rfl, fun kept inside => ?same, fun inside _ other => ?other, setFlag_g x n b⟩
  case same =>
    rw [flagOf_setFlag x b kept inside, if_pos rfl]
  case other =>
    obtain rfl | kept := eq_or_ne n 0
    · rfl
    · rw [flagOf_setFlag x b kept inside, if_neg other]

end Sys2Proof.Machine
end

section
/-! The bit fields (R254) and the flags that CMP and FLOP write (R254, R255). -/

namespace Sys2Proof.Machine

/-! Masks and fields of a word -/

theorem getLsbD_onesBv (n : Nat) {k : Nat} (inside : k < 64) : (onesBv n).getLsbD k = decide (k < n) := by
  rw [onesBv, BitVec.getLsbD_ofNat, Nat.testBit_two_pow_sub_one, decide_eq_true inside, Bool.true_and]

theorem getLsbD_cut (i : Ins) (v : Word) {k : Nat} (inside : k < 64) :
    (i.cut v).getLsbD k = (decide (k < if i.narrow then 32 else 64) && v.getLsbD k) := by
  unfold Ins.cut
  split
  · simp [inside]
  · simp [inside]

/-- The fields of EXT and INS, which their word form keeps in the low 13 bits of the immediate (R254). -/
theorem bitsOk_fields {i : Ins} (word : i.bitsOk = true) : i.fp = i.imm.toNat % 64 ∧ i.fn = i.imm.toNat / 64 := by
  simp only [Ins.bitsOk, Ins.immIn, Bool.and_eq_true, decide_eq_true_eq] at word
  obtain ⟨⟨⟨-, short⟩, -⟩, -⟩ := word
  simp only [Ins.fp, Ins.fn, Ins.immBits, fieldOf, BitVec.extractLsb'_toNat, Nat.shiftRight_eq_div_pow]
  omega

/-- n bits from a place of a value given by its number. -/
theorem extractLsb'_ofNat {w lo n : Nat} (d : Nat) (fits : lo + n ≤ w) :
    (BitVec.ofNat w d).extractLsb' lo n = BitVec.ofNat n (d / 2 ^ lo) := by
  refine BitVec.eq_of_getLsbD_eq fun k inside => ?_
  have place : lo + k < w := by omega
  simp only [BitVec.getLsbD_extractLsb', BitVec.getLsbD_ofNat, Nat.testBit_div_two_pow, inside, place, Nat.add_comm k lo,
    decide_true, Bool.true_and]

/-! POPC, CLZ and BSWAP -/

theorem popCount_eq (v : Word) (n : Nat) : popCount v n = (List.range n).countP fun k => v.getLsbD k := by
  induction n with
  | zero => rfl
  | succ n ih => simp [popCount, ih, List.range_succ]

theorem leadZeros_spec (v : Word) (n : Nat) : let z := leadZeros v n
    z ≤ n ∧ (∀ k, n - z ≤ k → k < n → v.getLsbD k = false) ∧ (z < n → v.getLsbD (n - 1 - z) = true) := by
  induction n with
  | zero => exact ⟨Nat.le_refl 0, fun k _ inside => absurd inside (Nat.not_lt_zero k), fun less => absurd less (Nat.lt_irrefl 0)⟩
  | succ n ih =>
    obtain ⟨bound, zeros, one⟩ := ih
    dsimp only [leadZeros]
    split
    next top => exact ⟨Nat.zero_le _, fun k _ _ => by omega, fun _ => top⟩
    next top =>
      refine ⟨by omega, fun k from_ inside => ?_, fun less => ?_⟩
      · obtain rfl | lower := Nat.eq_or_lt_of_le (Nat.le_of_lt_succ inside)
        · exact Bool.not_eq_true _ ▸ top
        · exact zeros k (by omega) lower
      · have place : n + 1 - 1 - (leadZeros v n + 1) = n - 1 - leadZeros v n := by omega
        exact place ▸ one (by omega)

theorem swapBytes_succ (v : Word) (n : Nat) : swapBytes v (n + 1) = 256 * swapBytes v n + fieldOf v (8 * n) 8 := by
  have shifted : ∀ k ∈ List.range n, fieldOf v (8 * k) 8 * 256 ^ (n - k) = 256 * (fieldOf v (8 * k) 8 * 256 ^ (n - 1 - k)) := by
    intro k mem
    have place : n - k = n - 1 - k + 1 := by have := List.mem_range.1 mem; omega
    rw [place, pow_succ, ← mul_assoc, mul_comm]
  simp [swapBytes, List.range_succ, List.map_congr_left shifted, List.sum_map_mul_left]

/-- Byte k of the reversed bytes is byte n - 1 - k. -/
theorem swapBytes_byte (v : Word) (n k : Nat) :
    swapBytes v n / 256 ^ k % 256 = if k < n then fieldOf v (8 * (n - 1 - k)) 8 else 0 := by
  induction n generalizing k with
  | zero => simp [swapBytes]
  | succ n ih =>
    have low : fieldOf v (8 * n) 8 < 256 := BitVec.isLt _
    rw [swapBytes_succ]
    cases k with
    | zero =>
      rw [if_pos (Nat.succ_pos n)]
      simp only [Nat.pow_zero, Nat.div_one, Nat.add_sub_cancel, Nat.sub_zero]
      omega
    | succ k =>
      have rest : (256 * swapBytes v n + fieldOf v (8 * n) 8) / 256 = swapBytes v n := by omega
      rw [pow_succ', ← Nat.div_div_eq_div_mul, rest, ih k]
      simp only [Nat.add_lt_add_iff_right, Nat.add_sub_cancel, Nat.sub_sub, Nat.add_comm 1 k]

/-! The results, bit by bit -/

theorem getLsbD_ldih (i : Ins) (old : Word) (k : Nat) :
    (i.imm ++ (old.truncate 32 : BitVec 32)).getLsbD k = if k < 32 then old.getLsbD k else i.imm.getLsbD (k - 32) := by
  rw [BitVec.getLsbD_append, BitVec.truncate, BitVec.getLsbD_setWidth]
  split
  next low => simp [low]
  next => rfl

section
variable {i : Ins} {k : Nat} (inside : k < 64) (word : i.bitsOk = true)
include inside word

theorem getLsbD_ext (v : Word) : (i.cut ((i.cut v >>> i.fp) &&& onesBv i.fn)).getLsbD k =
    (decide (k < i.imm.toNat / 64 ∧ i.imm.toNat % 64 + k < if i.narrow then 32 else 64) && v.getLsbD (i.imm.toNat % 64 + k)) := by
  obtain ⟨fp, fn⟩ := bitsOk_fields word
  rw [fp, fn, getLsbD_cut i _ inside, BitVec.getLsbD_and, getLsbD_onesBv _ inside, BitVec.getLsbD_ushiftRight]
  by_cases within : i.imm.toNat % 64 + k < 64
  · rw [getLsbD_cut i _ within]
    grind
  · have beyond : v.getLsbD (i.imm.toNat % 64 + k) = false := BitVec.getLsbD_of_ge _ _ (by omega)
    have cut : (i.cut v).getLsbD (i.imm.toNat % 64 + k) = false := BitVec.getLsbD_of_ge _ _ (by omega)
    simp [beyond, cut]

theorem getLsbD_ins (old v : Word) :
    (i.cut ((old &&& ~~~ (onesBv i.fn <<< i.fp)) ||| ((v &&& onesBv i.fn) <<< i.fp))).getLsbD k =
      (decide (k < if i.narrow then 32 else 64) &&
        if i.imm.toNat % 64 ≤ k ∧ k < i.imm.toNat % 64 + i.imm.toNat / 64 then v.getLsbD (k - i.imm.toNat % 64)
        else old.getLsbD k) := by
  obtain ⟨fp, fn⟩ := bitsOk_fields word
  have below : k - i.imm.toNat % 64 < 64 := by omega
  rw [fp, fn, getLsbD_cut i _ inside]
  simp only [BitVec.getLsbD_or, BitVec.getLsbD_and, BitVec.getLsbD_not, BitVec.getLsbD_shiftLeft, getLsbD_onesBv _ below]
  grind

end

/-- Byte k of the reversed bytes of a width is the byte that lies as far from its top. -/
theorem extractLsb'_swapBytes (v : Word) {n k : Nat} (inside : k < 8) :
    (BitVec.ofNat 64 (swapBytes v n)).extractLsb' (8 * k) 8 =
      if 8 * k < 8 * n then v.extractLsb' (8 * n - 8 - 8 * k) 8 else 0 := by
  have byte := swapBytes_byte v n k
  rw [show (256 : Nat) ^ k = 2 ^ (8 * k) by rw [pow_mul]; rfl] at byte
  apply BitVec.eq_of_toNat_eq
  rw [extractLsb'_ofNat _ (by omega), BitVec.toNat_ofNat, byte, apply_ite BitVec.toNat]
  refine ite_congr (by simp) (fun _ => ?_) fun _ => rfl
  rw [show 8 * (n - 1 - k) = 8 * n - 8 - 8 * k by omega]
  rfl

/-- Settles O3: every result is a mask, a shift, a count or a reversal, read bit by bit. -/
theorem engineBitFields : Obligations.EngineBitFields := by
  unfold Obligations.EngineBitFields
  intro i x s issues a p n width
  refine ⟨fun word => ?ldi, fun word => ?ldih, fun word => ⟨?ext, ?ins⟩, fun word => ⟨?popc, ?clz, ?bswap⟩⟩
  case ldi =>
    exact issues.givesResult word (show exec (.ldi i) s = execLdi i s from rfl) rfl
  case ldih =>
    exact ⟨_, issues.givesResult word (show exec (.ldih i) s = execLdih i s from rfl) rfl, fun k _ => getLsbD_ldih i _ k⟩
  case ext =>
    exact ⟨_, issues.givesResult word (show exec (.ext i) s = execExt i s from rfl) rfl,
      fun k inside => getLsbD_ext inside word a⟩
  case ins =>
    exact ⟨_, issues.givesResult word (show exec (.ins i) s = execIns i s from rfl) rfl,
      fun k inside => getLsbD_ins inside word _ a⟩
  case popc =>
    exact issues.givesResult word (show exec (.popc i) s = execPopc i s from rfl) (congrArg _ (popCount_eq a width))
  case clz =>
    obtain ⟨bound, zeros, one⟩ := leadZeros_spec a width
    exact ⟨_, bound, issues.givesResult word (show exec (.clz i) s = execClz i s from rfl) rfl, zeros, one⟩
  case bswap =>
    have bytes : width = 8 * (if i.narrow then 4 else 8) := by simp only [width]; split <;> rfl
    exact ⟨_, issues.givesResult word (show exec (.bswap i) s = execBswap i s from rfl) rfl,
      fun k inside => bytes ▸ extractLsb'_swapBytes a inside⟩

/-! CMP and FLOP -/

/-- The conditions of R255. -/
theorem condHolds_iff {w : Nat} (c : Nat) (x y : BitVec w) : let v := condHolds c x y
    (c = 0 → (v = true ↔ x = y)) ∧ (c = 1 → (v = true ↔ x ≠ y)) ∧
    (c = 2 → (v = true ↔ x.toNat < y.toNat)) ∧ (c = 3 → (v = true ↔ y.toNat ≤ x.toNat)) ∧
    (c = 4 → (v = true ↔ x.toInt < y.toInt)) ∧ (c = 5 → (v = true ↔ y.toInt ≤ x.toInt)) ∧
    (c = 6 → (v = true ↔ x &&& y ≠ 0)) ∧ (c = 7 → (v = true ↔ x &&& y = 0)) := by
  refine ⟨?_, ?_, ?_, ?_, ?_, ?_, ?_, ?_⟩ <;> rintro rfl <;> simp [condHolds, BitVec.ult, BitVec.slt]

/-- The logic of FLOP (R254). -/
theorem flagLogic_eq (c : Nat) (a b : Bool) : let v := flagLogic c a b
    (c = 0 → v = (a && b)) ∧ (c = 1 → v = (a || b)) ∧ (c = 2 → v = xor a b) ∧ (c = 3 → v = (a && !b)) ∧ (c = 4 → v = !a) := by
  refine ⟨?_, ?_, ?_, ?_, ?_⟩ <;> rintro rfl <;> rfl

/-- Settles O4: the flag is the condition of R255 or the logic of R254, and an undefined condition is no word of CMP,
which stops by log entry 17. -/
theorem engineFlags : Obligations.EngineFlags := by
  unfold Obligations.EngineFlags
  intro i x s issues a b a32 b32 x'
  refine ⟨fun word => ⟨cmpHolds i x, ?cmp, fun wide => ?wide, fun narrow => ?narrow⟩, fun undefined => ?undefined,
    fun word => ⟨flagLogic i.cond (flagOf x i.a.toNat) (flagOf x i.b.toNat), ?flop, flagLogic_eq i.cond _ _⟩⟩
  case cmp =>
    exact issues.setsPure word (show exec (.cmp i) s = execCmp i s from rfl) rfl
  case flop =>
    exact issues.setsPure word (show exec (.flop i) s = execFlop i s from rfl) rfl
  case wide =>
    have value : cmpHolds i x = condHolds i.cond a b := by simp only [cmpHolds, wide, Bool.false_eq_true, if_false, a, b]
    exact value ▸ condHolds_iff i.cond a b
  case narrow =>
    have value : cmpHolds i x = condHolds i.cond a32 b32 := by simp only [cmpHolds, narrow, if_true, a32, b32, a, b]
    exact value ▸ condHolds_iff i.cond a32 b32
  case undefined =>
    change execCmp i s = _
    simp [execCmp, pureIns, runIns, Nat.not_lt.2 undefined]

end Sys2Proof.Machine
end

section
/-! Branches (R256). -/

namespace Sys2Proof.Machine

section
variable {allow : HandlerKind → Bool} {i : Ins} {x : Ctx} {s : State} (issues : Issues allow i x s)
include issues

/-- A call from depth 4 stops: a verified program makes none (R256, R277; log entry 17). -/
theorem exec_call_deep (deep : 4 ≤ x.depth) : exec (.call i) s = .fault .unverified := by
  obtain ⟨here, -⟩ := issues
  obtain ⟨c, found, rfl⟩ := Option.map_eq_some_iff.1 here
  have own : 4 ≤ c.depth := deep
  change execCall i s = _
  simp [execCall, found, own]

theorem exec_call_shallow (shallow : x.depth < 4) :
    exec (.call i) s = runIns i (i.modIn 0 && i.noD && i.noA && i.noB) anyKind s fun _ s =>
      updCtx s i.cx fun c => { jump c i.imm with retStack := (c.pc + 1) :: c.retStack, depth := c.depth + 1 } := by
  obtain ⟨here, -⟩ := issues
  obtain ⟨c, found, rfl⟩ := Option.map_eq_some_iff.1 here
  have own : c.depth < 4 := shallow
  change execCall i s = _
  simp [execCall, found, own]

end

theorem ite_pc (p : Prop) [Decidable p] (c : Ctx) (a b : BitVec 24) :
    (if p then { c with pc := a } else { c with pc := b }) = { c with pc := if p then a else b } := by
  split <;> rfl

/-- Settles O6: each branch sets the PC of its own context, and CALL and RET its return stack. -/
theorem engineBranches : Obligations.EngineBranches := by
  unfold Obligations.EngineBranches
  intro i x s issues x1 far
  refine ⟨fun word => ?br, fun word => ?btab, fun word => ⟨fun shallow => ?call, exec_call_deep issues⟩,
    fun word nonzero p rest stack => ?ret, fun word => ?loop⟩
  case br =>
    refine issues.sets word (show exec (.br i) s = execBr i s from rfl) rfl ?_
    simp only [beq_iff_eq]
    exact ite_pc _ x1 far (x.pc + 1)
  case btab =>
    refine issues.sets word (show exec (.btab i) s = execBtab i s from rfl) rfl ?_
    have offset (n : Nat) : (BitVec.ofNat 32 n).truncate 24 = BitVec.ofNat 24 n := BitVec.setWidth_ofNat_of_le (by decide) n
    simp only [jump, offset, x1]
  case call =>
    exact issues.sets word (exec_call_shallow issues shallow) rfl rfl
  case ret =>
    refine issues.sets word (show exec (.ret i) s = execRet i s from rfl) (if_neg nonzero.ne') ?_
    simp only [stack, List.headD_cons, List.tail_cons, x1]
  case loop =>
    refine issues.sets word (show exec (.loop i) s = execLoop i s from rfl) rfl ?_
    exact congrArg (fun c => setGreg c i.d.toNat (i.gd x - 1)) (ite_pc _ x1 (x.pc + 1) far)

end Sys2Proof.Machine
end

section
/-! Loads and stores (R257, R258). -/

namespace Sys2Proof.Machine

/-! The size, the place and the extension of an access -/

theorem accessSize_eq (i : Ins) : accessSize i = 2 ^ (i.mod.toNat / 4 % 4) := by
  simp only [accessSize, fieldOf, BitVec.extractLsb'_toNat, Nat.shiftRight_eq_div_pow, Nat.reducePow]

theorem accessSize_mem (i : Ins) : accessSize i = 1 ∨ accessSize i = 2 ∨ accessSize i = 4 ∨ accessSize i = 8 := by
  rw [accessSize_eq]
  have bound : i.mod.toNat / 4 % 4 < 4 := Nat.mod_lt _ (by decide)
  generalize i.mod.toNat / 4 % 4 = e at bound
  interval_cases e <;> decide

theorem accessAt_eq (i : Ins) (base : Word) (modulus : Nat) :
    accessAt i base modulus = (base + i.imm.signExtend 64).toNat % modulus -
      (base + i.imm.signExtend 64).toNat % modulus % 2 ^ (i.mod.toNat / 4 % 4) := by
  rw [← accessSize_eq]
  rfl

/-- A value of the size of the access is extended by its top bit when mod[4] asks for it. -/
theorem extendLoad_eq (i : Ins) {v : Nat} (fits : v < 2 ^ (8 * accessSize i)) : extendLoad i v =
    if i.mod.getLsbD 4 && v.testBit (8 * accessSize i - 1) then (BitVec.ofNat (8 * accessSize i) v).signExtend 64
    else BitVec.ofNat 64 v := by
  refine ite_congr rfl (fun signed => ?_) fun _ => rfl
  simp only [Bool.and_eq_true] at signed
  obtain ⟨-, top⟩ := signed
  have bounds : 0 < 8 * accessSize i ∧ 8 * accessSize i ≤ 64 := by have := accessSize_mem i; omega
  generalize 8 * accessSize i = n at *
  have room : 2 ^ n ≤ 2 ^ 64 := Nat.pow_le_pow_right (by decide) bounds.2
  have msb : (BitVec.ofNat n v).msb = true := by
    rw [BitVec.msb_eq_getLsbD_last, BitVec.getLsbD_ofNat, top, decide_eq_true (by omega), Bool.true_and]
  apply BitVec.eq_of_toNat_eq
  rw [BitVec.toNat_signExtend, msb, if_pos rfl, BitVec.toNat_setWidth, BitVec.toNat_ofNat, BitVec.toNat_ofNat,
    Nat.mod_eq_of_lt fits, Nat.mod_eq_of_lt (fits.trans_le room)]
  omega

theorem leNat_lt (bs : List Byte) : leNat bs < 2 ^ (8 * bs.length) := by
  induction bs with
  | nil => exact Nat.one_pos
  | cons b bs ih =>
    have byte : b.toNat < 256 := b.isLt
    rw [leNat, List.length_cons, Nat.mul_succ, pow_add]
    omega

/-! A store into LOCAL -/

/-- The bits of a value from lo on, as many as n, come from what is stored. -/
theorem getLsbD_insert512 (v : BitVec 512) {lo n k : Nat} (x : Nat) (inside : k < 512) :
    (insert512 v lo n x).getLsbD k = if lo ≤ k ∧ k < lo + n then x.testBit (k - lo) else v.getLsbD k := by
  have low : v.toNat % 2 ^ lo < 2 ^ lo := Nat.mod_lt _ (Nat.two_pow_pos lo)
  have stored : x % 2 ^ n < 2 ^ n := Nat.mod_lt _ (Nat.two_pow_pos n)
  have split : v.toNat - fieldOf v lo n * 2 ^ lo + x % 2 ^ n * 2 ^ lo =
      2 ^ lo * (2 ^ n * (v.toNat / 2 ^ lo / 2 ^ n) + x % 2 ^ n) + v.toNat % 2 ^ lo := by
    have whole : 2 ^ lo * (2 ^ n * (v.toNat / 2 ^ lo / 2 ^ n)) + 2 ^ lo * (v.toNat / 2 ^ lo % 2 ^ n) + v.toNat % 2 ^ lo =
        v.toNat := by
      rw [← mul_add, Nat.div_add_mod, Nat.div_add_mod]
    rw [fieldOf, BitVec.extractLsb'_toNat, Nat.shiftRight_eq_div_pow, mul_comm _ (2 ^ lo), mul_comm _ (2 ^ lo), mul_add]
    omega
  rw [insert512, BitVec.getLsbD_ofNat, decide_eq_true inside, Bool.true_and, split, Nat.testBit_two_pow_mul_add _ low,
    Nat.testBit_two_pow_mul_add _ stored]
  obtain below | above := Nat.lt_or_ge k lo
  · simp [below, below.not_ge, Nat.testBit_mod_two_pow, BitVec.testBit_toNat]
  · obtain within | beyond := Nat.lt_or_ge (k - lo) n
    · have stored : k < lo + n := by omega
      simp [above, above.not_gt, within, stored, Nat.testBit_mod_two_pow]
    · have kept : ¬k < lo + n := by omega
      have place : k - lo - n + n + lo = k := by omega
      simp [above.not_gt, beyond.not_gt, kept, Nat.testBit_div_two_pow, place, BitVec.testBit_toNat]

/-- The table of GINFO. -/
theorem ginfoField_eq (no : Nat) (g : Group) {k : Nat} (inside : k < 15) : ginfoField no g k =
    [no, g.n, g.w, g.stripLog2, g.stripLog2 - 12, g.spare, g.geom.es, g.w * g.geom.b, (patternOf g).1, (patternOf g).2,
      g.n - g.spare, g.rows, 262144, g.extents, g.seed.toNat].getD k 0 := by
  interval_cases k <;> rfl

/-- Settles O8: a load reads at the aligned place and extends what it reads, a store replaces bytes of LOCAL, and the tables are
those of the volume and the group of the context. -/
theorem engineLoadsAndStores : Obligations.EngineLoadsAndStores := by
  unfold Obligations.EngineLoadsAndStores
  intro i x s n aligned ext
  have size : accessSize i = n := accessSize_eq i
  have at_ (modulus : Nat) : accessAt i (i.ga x) modulus = aligned modulus := accessAt_eq i (i.ga x) modulus
  have extend {v : Nat} (fits : v < 2 ^ (8 * n)) : extendLoad i v = ext v := by
    rw [← size] at fits
    rw [extendLoad_eq i fits, size]
  refine ⟨fun issues word => ⟨fun p running => ?lds, ?cld⟩, fun issues word => ?cst,
    fun issues word => ⟨fun v vol => ?xtl, fun none_ => ?noVol⟩, fun issues word no g number group => ?ginfo⟩
  case lds =>
    refine issues.gives word (show exec (.lds i) s = execLds i s from rfl) ?_
    have program : progOf (updCtx s i.cx (issue s)) x.program = some p := running
    have short := leNat_lt ((List.range n).map fun k => p.consts.getD (aligned (2 ^ 32) + k) 0)
    rw [List.length_map, List.length_range] at short
    simp only [program, at_, size]
    exact congrArg _ (extend short)
  case cld =>
    refine issues.gives word (show exec (.cld i) s = execCld i s from rfl) ?_
    simp only [at_, size]
    exact congrArg _ (extend (Nat.mod_lt _ (Nat.two_pow_pos _)))
  case cst =>
    refine ⟨_, issues.sets word (show exec (.cst i) s = execCst i s from rfl) rfl rfl, fun k inside => ?_⟩
    rw [getLsbD_insert512 _ _ inside, at_, size, mul_add]
    rfl
  case xtl =>
    refine issues.gives word (show exec (.xtl i) s = execXtl i s from rfl) ?_
    have same : ctxVol (updCtx s i.cx (issue s)) x = some v := vol
    simp only [same]
  case noVol =>
    refine issues.gives word (show exec (.xtl i) s = execXtl i s from rfl) ?_
    have same : ctxVol (updCtx s i.cx (issue s)) x = none := none_
    simp only [same]
  case ginfo =>
    refine issues.gives word (show exec (.ginfo i) s = execGinfo i s from rfl) ?_
    have sameNo : ctxGroupNo (updCtx s i.cx (issue s)) x = some no := number
    have same : ctxGroup (updCtx s i.cx (issue s)) x = some g := group
    have inside : i.imm.toNat < 15 := by simp_all
    simp only [sameNo, same, ginfoField_eq no g inside]

end Sys2Proof.Machine
end

section
/-! Time and system instructions (R259 to R261): distances of timestamps, and a thread that gives up its slot. -/

namespace Sys2Proof.Machine

/-! Distances of timestamps (R36) -/

theorem tsRound_pos (k : Nat) : 0 < tsRound k := Nat.mul_pos (by decide) (Nat.two_pow_pos k)

theorem tsAhead_lt (k : Nat) (a b : Word) : tsAhead k a b < tsRound k := Nat.mod_lt _ (tsRound_pos k)

/-- The distance from a to b is that of their slots since cycle 0, modulo a round. -/
theorem tsRound_dvd_tsAhead (k : Nat) (a b : Word) :
    (tsRound k : Int) ∣ tsAhead k a b - ((tsLinear k b : Int) - tsLinear k a) := by
  have inside : tsLinear k a % tsRound k ≤ tsLinear k b % tsRound k + tsRound k :=
    (Nat.mod_lt _ (tsRound_pos k)).le.trans (Nat.le_add_left _ _)
  refine Int.ModEq.dvd (Int.ModEq.symm ?_)
  rw [tsAhead, Int.natCast_mod, Nat.cast_sub inside]
  push_cast
  calc ((tsLinear k b : Int) % tsRound k + tsRound k - tsLinear k a % tsRound k) % tsRound k
      ≡ (tsLinear k b : Int) % tsRound k + tsRound k - tsLinear k a % tsRound k [ZMOD tsRound k] := Int.mod_modEq _ _
    _ ≡ tsLinear k b + 0 - tsLinear k a [ZMOD tsRound k] :=
        ((Int.mod_modEq _ _).add (Int.modEq_zero_iff_dvd.2 dvd_rfl)).sub (Int.mod_modEq _ _)
    _ = tsLinear k b - tsLinear k a := by rw [add_zero]

/-- The two distances between timestamps that are not one slot make a round. -/
theorem tsAhead_add_tsAhead {k : Nat} {a b : Word} (apart : tsAhead k a b ≠ 0) : tsAhead k b a + tsAhead k a b = tsRound k := by
  have insideA : tsLinear k a % tsRound k < tsRound k := Nat.mod_lt _ (tsRound_pos k)
  have insideB : tsLinear k b % tsRound k < tsRound k := Nat.mod_lt _ (tsRound_pos k)
  unfold tsAhead at *
  generalize tsLinear k a % tsRound k = x at *
  generalize tsLinear k b % tsRound k = y at *
  obtain less | same | more := Nat.lt_trichotomy x y
  · rw [Nat.mod_eq_of_lt (show x + tsRound k - y < tsRound k by omega), show y + tsRound k - x = tsRound k + (y - x) by omega,
      Nat.add_mod_left, Nat.mod_eq_of_lt (show y - x < tsRound k by omega)]
    omega
  · subst same
    simp at apart
  · rw [Nat.mod_eq_of_lt (show y + tsRound k - x < tsRound k by omega), show x + tsRound k - y = tsRound k + (x - y) by omega,
      Nat.add_mod_left, Nat.mod_eq_of_lt (show x - y < tsRound k by omega)]
    omega

/-- Slots left are the signed distance to the deadline, taken within half a round (R259). -/
theorem slotsLeft_eq {s : State} {dl : Word} (given : dl ≠ noTs) : ∃ d : Int, slotsLeft s dl = BitVec.ofInt 64 d ∧
    -(tsRound s.tt.kActive : Int) ≤ 2 * d ∧ 2 * d < tsRound s.tt.kActive ∧
    (tsRound s.tt.kActive : Int) ∣ d - ((tsLinear s.tt.kActive dl : Int) - tsLinear s.tt.kActive (now s)) := by
  rw [slotsLeft, if_neg given]
  split
  next late =>
    have half : 2 * tsAhead s.tt.kActive (now s) dl < tsRound s.tt.kActive := of_decide_eq_true late
    exact ⟨tsAhead s.tt.kActive (now s) dl, (BitVec.ofInt_natCast ..).symm, by omega, by omega, tsRound_dvd_tsAhead ..⟩
  next late =>
    have half : ¬2 * tsAhead s.tt.kActive (now s) dl < tsRound s.tt.kActive := fun less => late (decide_eq_true less)
    have positive := tsRound_pos s.tt.kActive
    have round := tsAhead_add_tsAhead (show tsAhead s.tt.kActive (now s) dl ≠ 0 by omega)
    refine ⟨_, rfl, by omega, by omega, ?_⟩
    refine Int.dvd_neg.1 ?_
    convert tsRound_dvd_tsAhead s.tt.kActive dl (now s) using 1
    ring

/-! A thread gives up its slot (R19, R246, R259, R261) -/

theorem CtxIs.trans {cx : Nat} {c d : Ctx} {s t u : State} (h : CtxIs cx c s t) (k : CtxIs cx d t u) : CtxIs cx d s u :=
  ⟨k.1, fun j other => (k.2 j other).trans (h.2 j other)⟩

theorem CtxIs.updCtx {cx : Nat} {c : Ctx} {s t : State} (h : CtxIs cx c s t) (g : Ctx → Ctx) : CtxIs cx (g c) s (updCtx t cx g) :=
  h.trans ⟨by rw [updCtx_ctxs, Tab.find_upd_same, h.1]; rfl, fun _ other => Tab.find_upd_other _ _ other⟩

section
variable {cx : Nat} {c : Ctx} {s t : State} (h : CtxIs cx c s t)
include h

theorem CtxIs.leaveSlot : ∃ n, CtxIs cx { c with place := none, ran := n } s (leaveSlot t cx) := by
  unfold Machine.leaveSlot
  rw [h.1]
  dsimp only
  split
  next =>
    exact ⟨t.seqCtr, CtxIs.updCtx (t := { t with engineFree := _, seqCtr := _ }) h
      fun c => { c with place := none, ran := t.seqCtr }⟩
  next out =>
    refine ⟨c.ran, ?_⟩
    rw [← out]
    exact h

theorem CtxIs.startWait (w : WaitFor) :
    ∃ n, CtxIs cx { c with place := none, ran := n, state := .waiting, wait := w } s (startWait t cx w) := by
  obtain ⟨n, left⟩ := h.leaveSlot
  exact ⟨n, left.updCtx fun c => { c with state := .waiting, wait := w }⟩

theorem CtxIs.yieldCtx :
    ∃ n m, CtxIs cx { c with place := none, ran := n, state := .ready, wait := .nothing, since := m } s (yieldCtx t cx) := by
  obtain ⟨n, left⟩ := h.leaveSlot
  exact ⟨n, _, CtxIs.updCtx (t := { Machine.leaveSlot t cx with seqCtr := _ }) left
    fun c => { c with state := .ready, wait := .nothing, since := (Machine.leaveSlot t cx).seqCtr }⟩

end

section
variable {allow : HandlerKind → Bool} {i : Ins} {x : Ctx} {s t : State} {c : Instr} (issues : Issues allow i x s)
  {ok : Bool} (word : ok = true) {f : Ctx → State → State} (run : exec c s = Machine.runIns i ok allow s f)
include issues word run

/-- A thread completes an instruction and waits out of its slot. -/
theorem Issues.waits {w : WaitFor} (leaves : f x (Machine.updCtx s i.cx (issue s)) =
    Machine.startWait (complete (Machine.updCtx s i.cx (issue s)) i.cx id) i.cx w) :
    Does c [.ctxs, .engineFree, .seqCtr] s fun t => ∃ y, CtxIs i.cx y s t ∧ y.state = .waiting ∧ y.wait = w ∧ y.place = none ∧
      y.pc = x.pc + 1 ∧ y.budget = x.budget - 1 ∧ y.g = x.g ∧ y.h = x.h := by
  obtain ⟨n, out⟩ := (issues.complete_ctxIs _ rfl id).startWait w
  exact ⟨_, run.trans ((issues.runIns word f).trans (congrArg _ leaves)),
    (startWait_frame _ _ _).step ((complete_frame _ _ _).step ((updCtx_frame _ _ _).step (OnlyChanges.refl _ s))),
    _, out, rfl, rfl, rfl, rfl, rfl, rfl, rfl⟩

/-- A thread completes an instruction and is READY out of its slot. -/
theorem Issues.yields (leaves : f x (Machine.updCtx s i.cx (issue s)) =
    Machine.yieldCtx (complete (Machine.updCtx s i.cx (issue s)) i.cx id) i.cx) :
    Does c [.ctxs, .engineFree, .seqCtr] s fun t => ∃ y, CtxIs i.cx y s t ∧ y.state = .ready ∧ y.wait = .nothing ∧
      y.place = none ∧ y.pc = x.pc + 1 ∧ y.budget = x.budget - 1 ∧ y.g = x.g ∧ y.h = x.h := by
  obtain ⟨n, m, out⟩ := (issues.complete_ctxIs _ rfl id).yieldCtx
  exact ⟨_, run.trans ((issues.runIns word f).trans (congrArg _ leaves)),
    (yieldCtx_frame _ _).step ((complete_frame _ _ _).step ((updCtx_frame _ _ _).step (OnlyChanges.refl _ s))),
    _, out, rfl, rfl, rfl, rfl, rfl, rfl, rfl⟩

end

/-! TRAP and RFAULT (R261, R267) -/

/-- The posted record of a TRAP (R261). -/
def trapEntry (s : State) (i : Ins) (x : Ctx) : LogEnt :=
  { code := 0x0811, source := BitVec.ofNat 8 Block.clusters.num, flags := i.imm.truncate 8, ts := now s, func := x.func,
    vol := BitVec.ofNat 16 (x.vol.getD 0xFFFF), member := 0xFF, detail := i.ga x }

theorem logs_frame (s : State) (l : List LogEnt) (n : Nat) :
    OnlyChanges [.errLog, .errSeq] s { s with errLog := l, errSeq := n } := by
  intro p out
  cases p with
  | errLog => exact absurd (by decide) out
  | errSeq => exact absurd (by decide) out
  | _ => rfl

theorem movers_frame (s : State) (m : Tab Mover) : OnlyChanges [.movers] s { s with movers := m } := by
  intro p out
  cases p with
  | movers => exact absurd (by decide) out
  | _ => rfl

/-- Every TRAP but LOST_STRIPE leaves its record and no more. -/
theorem exec_trap {i : Ins} {x : Ctx} {s : State} (issues : Issues notMap i x s)
    (word : (i.modIn 0 && i.noD && i.noB && i.immIn 8) = true) (plain : i.imm.toNat ≠ 3) :
    exec (.trap i) s = .next { complete (updCtx s i.cx (issue s)) i.cx id with
      errSeq := s.errSeq + 1, errLog := (trapEntry s i x :: s.errLog).take Config.logCapacity } := by
  refine (show exec (.trap i) s = execTrap i s from rfl).trans ((issues.runIns word _).trans (congrArg _ ?_))
  dsimp only
  split
  next => exact if_neg plain
  next => rfl

/-- What RFAULT makes of its context (R267). -/
def resumed (i : Ins) (c : Ctx) : Ctx :=
  { c with inFault := false, budget := c.budget - 1, pc := BitVec.ofNat 24 (fieldOf c.fault 8 24) + (if i.useImm then 1 else 0) }

/-- What RFAULT makes of the movers: past the faulting instruction, the channels of the context stop. -/
def unblocked (i : Ins) (s : State) : State :=
  if i.useImm then { s with movers := s.movers.mapVal fun _ m => dropChans i.cx m } else s

theorem resumed_eq (i : Ins) (c : Ctx) : resumed i c = { c with
    inFault := false, budget := c.budget - 1, pc := c.fault.extractLsb' 8 24 + (if i.mod.getLsbD 0 then 1 else 0) } := by
  rw [resumed, fieldOf, BitVec.ofNat_toNat, BitVec.setWidth_eq, Ins.useImm]

theorem unblocked_ctxs (i : Ins) (s : State) : (unblocked i s).ctxs = s.ctxs := by
  unfold unblocked
  split <;> rfl

theorem unblocked_retry {i : Ins} (retry : i.useImm = false) (s : State) : unblocked i s = s :=
  if_neg (retry ▸ Bool.false_ne_true)

theorem unblocked_frame (i : Ins) (s : State) : OnlyChanges [.movers] s (unblocked i s) :=
  OnlyChanges.ite1 (movers_frame _ _) (OnlyChanges.refl _ s)

theorem exec_rfault {i : Ins} {x : Ctx} {s : State} (issues : Issues (· == .fault) i x s)
    (word : (i.modIn 0x001#9 && i.noD && i.noA && i.noB && i.imm == 0) = true) :
    exec (.rfault i) s = .next (updCtx (unblocked i (updCtx s i.cx (issue s))) i.cx (resumed i)) :=
  (show exec (.rfault i) s = execRfault i s from rfl).trans (issues.runIns word _)

/-- Settles O9: the instructions that stay in their slot change their own context, and the others leave it by `leaveSlot`; WAIT
counts its slots modulo 2^32 by log entry 70. -/
theorem engineTimeAndSystem : Obligations.EngineTimeAndSystem := by
  unfold Obligations.EngineTimeAndSystem
  intro i x s x' out ready slot
  refine ⟨fun issues word => ⟨?ttnow, fun none_ => ?noDl, fun given => ?dlleft⟩, fun issues word => ?dlset,
    fun issues word => ?wait, fun issues word => ?until_, fun issues word => ?yield, fun issues word kept => ?trap, fun issues word => ?rfault⟩
  case ttnow =>
    exact issues.gives word (show exec (.ttnow i) s = execTtnow i s from rfl) rfl
  case noDl =>
    refine issues.gives word (show exec (.dlleft i) s = execDlleft i s from rfl) (congrArg _ ?_)
    exact if_pos none_
  case dlleft =>
    obtain ⟨d, value, bounds⟩ := slotsLeft_eq (s := s) given
    exact ⟨d, issues.gives word (show exec (.dlleft i) s = execDlleft i s from rfl) (congrArg _ value), bounds⟩
  case dlset =>
    exact issues.sets word (show exec (.dlset i) s = execDlset i s from rfl) rfl rfl
  case wait =>
    simp only [Bool.and_eq_true, Bool.not_eq_true'] at word
    obtain ⟨⟨⟨⟨mods, noD⟩, relative⟩, noA⟩, s2ok⟩ := word
    have form : (i.modIn 0x021#9 && i.noD && (if i.bit5 then !i.useImm && i.noB && i.imm == 0 else i.noA && i.s2ok)) = true := by
      simp [mods, noD, relative, noA, s2ok]
    by_cases zero : (i.s2 x).toNat % 2 ^ 32 = 0
    · simp only [if_pos zero]
      refine issues.yields form (show exec (.wait i) s = execWait i s from rfl) ?_
      simp only [relative, Bool.false_eq_true, if_false, if_pos zero]
    · simp only [if_neg zero]
      refine issues.waits form (show exec (.wait i) s = execWait i s from rfl) ?_
      simp only [relative, Bool.false_eq_true, if_false, if_neg zero]
      rfl
  case until_ =>
    simp only [Bool.and_eq_true, Bool.not_eq_true'] at word
    obtain ⟨⟨⟨⟨⟨mods, noD⟩, absolute⟩, noImm⟩, noB⟩, imm⟩ := word
    have form : (i.modIn 0x021#9 && i.noD && (if i.bit5 then !i.useImm && i.noB && i.imm == 0 else i.noA && i.s2ok)) = true := by
      simp only [mods, noD, absolute, noImm, noB, imm, if_true, Bool.not_false, Bool.and_self]
    refine issues.waits form (show exec (.wait i) s = execWait i s from rfl) ?_
    simp only [absolute, if_true]
    rfl
  case yield =>
    exact issues.yields word (show exec (.yield i) s = execYield i s from rfl) rfl
  case trap =>
    exact ⟨_, exec_trap issues word fun three => kept (BitVec.eq_of_toNat_eq three),
      (logs_frame _ _ _).step ((complete_frame _ _ _).step ((updCtx_frame _ _ _).step (OnlyChanges.refl _ s))),
      issues.complete_ctxIs _ rfl id, rfl, trapEntry s i x, rfl, rfl, rfl, rfl, rfl, rfl⟩
  case rfault =>
    refine ⟨_, exec_rfault issues word,
      (updCtx_frame _ _ _).step ((unblocked_frame _ _).step ((updCtx_frame _ _ _).step (OnlyChanges.refl _ s))),
      resumed_eq i x ▸ issues.updCtx_ctxIs _ (unblocked_ctxs _ _) (resumed i), fun retry => ?_⟩
    change (unblocked i (updCtx s i.cx (issue s))).movers = _
    rw [unblocked_retry retry]
    rfl

end Sys2Proof.Machine
end

section
/-! HALT (R118, R242, R262) of the last context of a function in its FLR teardown. -/

namespace Sys2Proof.Machine

/-- A host command of function 0 that has posted and holds nothing. -/
def postedCtx : Ctx := { cls := .standard, dl := noTs, state := .running, func := 0, posted := some 0 }

/-- The word of HALT in context 0. -/
def haltWord : Ins := { cx := 0, d := 0, a := 0, b := 0, mod := 0, imm := 0 }

/-- Function 0 was reset one slot ago and waits for its one context, which is about to halt. -/
def lastCtxOfReset : State :=
  { tt := { slot := 1 }
    ports := [(0, { widthMax := 16 })]
    funcs := [(0, { exists_ := true, flrBusy := true })]
    ctxs := [(0, postedCtx)] }

theorem issues_lastCtxOfReset : Issues notMap haltWord (issue lastCtxOfReset postedCtx) lastCtxOfReset := by
  exact ⟨rfl, rfl, rfl, rfl, by decide⟩

/-- The HALT frees the context, and FLR_BUSY clears with it (R118). -/
theorem halt_lastCtxOfReset : ∃ t, exec (.halt haltWord) lastCtxOfReset = .next t ∧ flrNow t 0 = false :=
  ⟨_, rfl, rfl⟩

/-- Refutes O10: where HALT frees the last context of a function in its teardown, FLR_BUSY clears (R118), so the functions change,
which the statement leaves out of the parts that HALT may change. -/
theorem not_engineHalt : ¬ Obligations.EngineHalt := by
  unfold Obligations.EngineHalt
  intro h
  obtain ⟨t, claimed, only, -⟩ := h haltWord _ lastCtxOfReset issues_lastCtxOfReset (by decide) (by decide) (by decide)
    rfl rfl rfl rfl
  obtain ⟨u, actual, settled⟩ := halt_lastCtxOfReset
  obtain rfl : t = u := Host.Outcome.next.inj (claimed.symm.trans actual)
  have same : t.funcs = lastCtxOfReset.funcs := only .funcs (by decide)
  have busy : flrNow t 0 = true := by rw [flrNow, fnOf, same]; rfl
  exact absurd (settled.symm.trans busy) (by decide)

end Sys2Proof.Machine
end

section
/-! The context of an instruction (R247), and the locks that its thread holds (R296). -/

namespace Sys2Proof.Machine

/-- The thread holds fewer than two locks, each of a stripe below this one (R296). -/
structure LocksBelow (s : State) (cx stripe : Nat) : Prop where
  few : (locksHeld s cx).length < 2
  order : ∀ l ∈ locksHeld s cx, l.stripe < stripe

theorem LocksBelow.kept {s : State} {cx stripe : Nat} (below : LocksBelow s cx stripe) :
    (decide (2 ≤ (locksHeld s cx).length) || (locksHeld s cx).any fun l => decide (stripe ≤ l.stripe)) = false := by
  simp only [Bool.or_eq_false_iff, decide_eq_false_iff_not, List.any_eq_false, decide_eq_true_eq]
  exact ⟨Nat.not_le.2 below.few, fun l mem => Nat.not_le.2 (below.order l mem)⟩

section
variable {allow : HandlerKind → Bool} {i : Ins} {x : Ctx} {s : State} (issues : Issues allow i x s)
include issues

theorem Issues.running : x.state = .running := issues.2.1

theorem Issues.issued_ctxIs : CtxIs i.cx x s (updCtx s i.cx (issue s)) := by
  obtain ⟨here, -⟩ := issues
  exact ⟨(Tab.find_upd_same _ _ _).trans here, fun _ other => Tab.find_upd_other _ _ other⟩

end

/-! What a change of the contexts leaves -/

section
variable (s : State) (k : Nat) (f : Ctx → Ctx)

@[simp] theorem lockOf_updCtx (a b : Nat) : lockOf (updCtx s k f) a b = lockOf s a b := rfl
@[simp] theorem lockGroup_updCtx (c : Ctx) : lockGroup (updCtx s k f) c = lockGroup s c := rfl
@[simp] theorem lockRoom_updCtx (e : Bool) : lockRoom (updCtx s k f) e = lockRoom s e := rfl
@[simp] theorem locksHeld_updCtx (cx : Nat) : locksHeld (updCtx s k f) cx = locksHeld s cx := rfl
@[simp] theorem holds_updCtx (cx a b : Nat) : holds (updCtx s k f) cx a b = holds s cx a b := rfl
@[simp] theorem recOf_updCtx (cx a b : Nat) : recOf (updCtx s k f) cx a b = recOf s cx a b := rfl

end

end Sys2Proof.Machine
end

section
/-! POST (R186, R288, R291) of a VERIFY that still waits for a rewrite of its own. -/

namespace Sys2Proof.Machine

/-- A command of function 0 that has one rewrite still in the journal. -/
def rewritingCtx : Ctx := { cls := .standard, dl := noTs, state := .running, func := 0, sqid := 1, repairs := 1 }

/-- Function 0 with submission queue 1 on completion ring 2, and the one context. -/
def rewritingState : State :=
  { funcs := [(0, { exists_ := true
                    sqs := [(1, { push := false, cls := .standard, cqSlot := 2, log2 := 4, base := 0, pollInt := 0, pasid := none,
                                  quota := 8 })]
                    cqs := [(2, { log2 := 4, base := 0, ien := false, vec := 0, ivCount := 0, ivDelay := 0 })] })]
    ctxs := [(0, rewritingCtx)] }

theorem issues_rewritingState : Issues hostKind haltWord (issue rewritingState rewritingCtx) rewritingState :=
  ⟨rfl, rfl, rfl, rfl, by decide⟩

/-- The POST leaves the ring as it is: the completion waits for the rewrite (R186). -/
theorem post_rewritingState :
    ∃ t, exec (.post haltWord) rewritingState = .next t ∧ (cqOf t 0 2).map Cq.ready = some [] :=
  ⟨_, rfl, rfl⟩

/-- Refutes O11: a POST of a VERIFY whose journalled rewrites have not been retired makes no completion ready (R186), and the
statement does not leave such a thread out. -/
theorem not_engineDescriptorAndPost : ¬ Obligations.EngineDescriptorAndPost := by
  unfold Obligations.EngineDescriptorAndPost
  intro h
  obtain ⟨-, post⟩ := h haltWord _ rewritingState issues_rewritingState rfl (by decide)
  obtain ⟨t, claimed, -, -, completes⟩ := post (by decide) (by decide) rfl rfl
  obtain ⟨r, pushed, -⟩ := completes _ _ rfl rfl
  obtain ⟨u, actual, unmoved⟩ := post_rewritingState
  obtain rfl : t = u := Host.Outcome.next.inj (claimed.symm.trans actual)
  have both : some [] = some ([] ++ [r]) := unmoved.symm.trans pushed
  exact absurd both (by simp)

end Sys2Proof.Machine
end

section
/-! JRETIRE_WM_RELEASE (R178, R305) where the table of the contexts holds a key twice. -/

namespace Sys2Proof.Machine

/-- A context that waits in JRETIRE for the lower steps of a stripe. -/
def retiringCtx : Ctx := { cls := .standard, dl := noTs, state := .waiting, wait := .retire 0 8 none 5 }

/-- Another thread under the same key, whose completion waits for a block. -/
def shadowCtx : Ctx := { cls := .standard, dl := noTs, pc := 7, flushWait := [(0, 0)] }

/-- A sealed record of context 0 with no entries. -/
def emptyRec : JRec :=
  { sealed := true, group := 0, stripe := 8, generation := 0, vol := none, ctx := some 0, openTs := 0 }

/-- The record, and a table of contexts that holds key 0 twice. -/
def twiceKeyed : State :=
  { ctxs := [(0, retiringCtx), (0, shadowCtx)], journal := { recs := [(3, emptyRec)] } }

/-- The blocks that completions wait for are settled over every element of the table (R178), so the second one takes the place
of the first. -/
theorem jretireWmRelease_twiceKeyed :
    ∃ t, exec (.jretireWmRelease 0) twiceKeyed = .next t ∧ (t.ctxs.find 0).map Ctx.pc = some 8 :=
  ⟨_, rfl, rfl⟩

/-- Refutes O29: the statement does not ask for a sorted table of contexts; with a key held twice the context that goes on is the
second one, not the one that the table finds. -/
theorem not_journalEvents : ¬ Obligations.JournalEvents := by
  unfold Obligations.JournalEvents
  intro h
  obtain ⟨-, release, -⟩ := h twiceKeyed
  obtain ⟨t, claimed, -, -, y, found, -, -, pc, -⟩ := release 0 retiringCtx 0 8 none 5 3 emptyRec rfl rfl rfl rfl (by decide)
    (by rintro _ _ ⟨⟩) (by simp [twiceKeyed]) (by decide)
  obtain ⟨u, actual, moved⟩ := jretireWmRelease_twiceKeyed
  obtain rfl : t = u := Host.Outcome.next.inj (claimed.symm.trans actual)
  rw [found] at moved
  have both : some y.pc = some 8 := moved
  rw [pc] at both
  exact absurd both (by decide)

end Sys2Proof.Machine
end

section
/-! Stripe locks (R294 to R301): the entry of a stripe after a change of the locks, and the classes that follow the waiters. -/

namespace Sys2Proof.Machine

/-! The entry of a stripe -/

theorem lockOf_congr {s t : State} (same : t.locks = s.locks) (a b : Nat) : lockOf t a b = lockOf s a b := by
  rw [lockOf, same, lockOf]

theorem lockOf_updLock {s : State} {g st : Nat} {h : LockEnt → LockEnt}
    (keeps : ∀ l, (h l).group = l.group ∧ (h l).stripe = l.stripe) : lockOf (updLock s g st h) g st = (lockOf s g st).map h := by
  rw [lockOf, updLock, List.find?_map, lockOf]
  have same : (fun l : LockEnt => l.group == g && l.stripe == st) ∘
      (fun l => if l.group == g && l.stripe == st then h l else l) = fun l => l.group == g && l.stripe == st := by
    funext l
    dsimp only [Function.comp]
    split
    · rw [(keeps l).1, (keeps l).2]
    · rfl
  rw [same]
  cases found : s.locks.find? fun l => l.group == g && l.stripe == st with
  | none => rfl
  | some l => exact congrArg some (if_pos (List.find?_some found))

theorem lockOf_freed_same (s : State) (g st : Nat) :
    lockOf { s with locks := s.locks.filter fun l => !(l.group == g && l.stripe == st) } g st = none := by
  rw [lockOf, List.find?_eq_none]
  intro l kept
  simpa only [Bool.not_eq_true', Bool.not_eq_true] using (List.mem_filter.1 kept).2

theorem lockOf_freed_other (s : State) {g st a b : Nat} (other : (a, b) ≠ (g, st)) :
    lockOf { s with locks := s.locks.filter fun l => !(l.group == g && l.stripe == st) } a b = lockOf s a b := by
  rw [lockOf, List.find?_filter, lockOf]
  congr 1
  funext l
  rw [Bool.eq_iff_iff, decide_eq_true_eq]
  refine ⟨fun h => h.2, fun h => ⟨?_, h⟩⟩
  simp only [Bool.and_eq_true, beq_iff_eq] at h
  obtain ⟨rfl, rfl⟩ := h
  by_contra both
  exact other (by simpa using both)

/-! The inherited classes (R298) -/

theorem inheritRounds_find {s : State} {k : Nat} {c : Ctx} (n : Nat) {q : Cls}
    (here : s.ctxs.find k = some { c with inherited := q }) :
    ∃ r, (inheritRounds n s).ctxs.find k = some { c with inherited := r } := by
  induction n generalizing s q with
  | zero => exact ⟨q, here⟩
  | succ n ih =>
    have round : (inheritRound s).ctxs.find k = some { c with inherited := inheritedOf s k } := by
      rw [inheritRound, Tab.find_mapVal, here]
      rfl
    exact ih round

/-- A change of the locks changes no more of a context than the class it inherits. -/
theorem reclass_find {s : State} {k : Nat} {c : Ctx} (here : s.ctxs.find k = some c) :
    ∃ q, (reclass s).ctxs.find k = some { c with inherited := q } := by
  refine inheritRounds_find (q := .maintenance) _ ?_
  change (s.ctxs.mapVal fun _ c => { c with inherited := .maintenance }).find k = _
  rw [Tab.find_mapVal, here]
  rfl

theorem reclass_lockOf (s : State) (a b : Nat) : lockOf (reclass s) a b = lockOf s a b :=
  lockOf_congr (reclass_frame s .locks (by decide)) a b

/-! A freed entry (R297) -/

theorem Tab.mem_upd {α : Type} {t : Tab α} {k : Nat} {f : α → α} {p : Nat × α} (h : p ∈ t.upd k f) :
    (∃ v, (k, v) ∈ t ∧ p = (k, f v)) ∨ p ∈ t := by
  unfold Tab.upd at h
  split at h
  next v found => exact (Tab.mem_put h).imp_left fun same => ⟨v, Tab.mem_of_find found, same⟩
  next => exact .inr h

/-- What holds of the wait of every context still does when one changes but for its wait. -/
theorem updCtx_waits {s : State} {P : WaitFor → Prop} {k : Nat} {f : Ctx → Ctx} (keeps : ∀ c, (f c).wait = c.wait)
    (all : ∀ p ∈ s.ctxs, P p.2.wait) : ∀ p ∈ (updCtx s k f).ctxs, P p.2.wait := by
  intro p mem
  obtain ⟨v, old, rfl⟩ | old := Tab.mem_upd mem
  · exact (keeps v).symm ▸ all _ old
  · exact all _ old

theorem giveEntry_none {s : State} (unwanted : ∀ p ∈ s.ctxs, ∀ a b, p.2.wait ≠ .lock a b) : giveEntry s = s := by
  have empty : entryWaiters s = [] := by
    refine List.filter_eq_nil_iff.2 fun p mem => ?_
    split
    next g st waits => exact absurd waits (unwanted p mem g st)
    next => exact Bool.false_ne_true
  rw [giveEntry, empty]

/-- A lock that nobody waits for leaves the table when it passes. -/
theorem passLock_frees {s : State} {g st : Nat} {l : LockEnt} (held : lockOf s g st = some l) (last : l.waiters = [])
    (unwanted : ∀ p ∈ s.ctxs, ∀ a b, p.2.wait ≠ .lock a b) :
    passLock s g st = reclass { s with locks := s.locks.filter fun l => !(l.group == g && l.stripe == st) } := by
  simp only [passLock, held, last]
  exact congrArg reclass (giveEntry_none unwanted)

end Sys2Proof.Machine
end

section
/-! LOCK, UNLOCK and PERM (R294 to R297, R301). -/

namespace Sys2Proof.Machine

theorem locks_frame (s : State) (l : List LockEnt) : OnlyChanges [.locks] s { s with locks := l } := by
  intro p out
  cases p with
  | locks => exact absurd (by decide) out
  | _ => rfl

/-! LOCK -/

section
variable {i : Ins} {x : Ctx} {s : State} (below : LocksBelow s i.cx (i.ga x).toNat)
include below

variable (issues : Issues notMap i x s) (word : (i.modIn 0 && i.noD && i.noB && i.imm == 0) = true)
include issues word

theorem lock_granted (free : lockOf s (lockGroup s x) (i.ga x).toNat = none)
    (room : lockRoom s (eclass x == .express) = true) :
    Does (.lock i) [.ctxs, .locks] s fun t => CtxIs i.cx { x with pc := x.pc + 1, budget := x.budget - 1 } s t ∧
      t.locks = s.locks ++ [{ group := lockGroup s x, stripe := (i.ga x).toNat, holder := some i.cx,
                              due := after s Config.lockWatchdog }] := by
  let u := updCtx s i.cx (issue s)
  let e : LockEnt := { group := lockGroup s x, stripe := (i.ga x).toNat, holder := some i.cx, due := after s Config.lockWatchdog }
  have run : exec (.lock i) s = .next (complete { u with locks := u.locks ++ [e] } i.cx id) := by
    refine (show exec (.lock i) s = execLock i s from rfl).trans ((issues.runIns word _).trans (congrArg _ ?_))
    refine (if_neg (ne_true_of_eq_false below.kept)).trans ?_
    simp only [lockOf_updCtx, lockGroup_updCtx, lockRoom_updCtx, free, room, if_true]
    rfl
  exact ⟨_, run, (complete_frame _ _ _).step ((locks_frame u _).step ((updCtx_frame _ _ _).step (OnlyChanges.refl _ s))),
    issues.complete_ctxIs { u with locks := u.locks ++ [e] } rfl id, rfl⟩

theorem lock_waits {l : LockEnt} (held : lockOf s (lockGroup s x) (i.ga x).toNat = some l) :
    Does (.lock i) [.ctxs, .locks, .engineFree, .seqCtr] s fun t =>
      lockOf t (lockGroup s x) (i.ga x).toNat = some { l with waiters := l.waiters ++ [i.cx] } ∧
      ∃ y, t.ctxs.find i.cx = some y ∧ y.state = .waiting ∧ y.wait = .lock (lockGroup s x) (i.ga x).toNat ∧
        y.place = none ∧ y.pc = x.pc := by
  let u := updCtx s i.cx (issue s)
  let v := noteLate (startWait u i.cx (.lock (lockGroup s x) (i.ga x).toNat)) i.cx 5
  let h : LockEnt → LockEnt := fun l => { l with waiters := l.waiters ++ [i.cx] }
  let t := updLock v (lockGroup s x) (i.ga x).toNat h
  have run : exec (.lock i) s = .next (reclass t) := by
    refine (show exec (.lock i) s = execLock i s from rfl).trans ((issues.runIns word _).trans (congrArg _ ?_))
    refine (if_neg (ne_true_of_eq_false below.kept)).trans ?_
    simp only [lockOf_updCtx, lockGroup_updCtx, held]
    rfl
  have before : OnlyChanges [.ctxs, .engineFree, .seqCtr] s v :=
    (noteLate_frame _ _ _).step ((startWait_frame _ _ _).step ((updCtx_frame _ _ _).step (OnlyChanges.refl _ s)))
  have queued : lockOf t (lockGroup s x) (i.ga x).toNat = some (h l) := by
    rw [lockOf_updLock (h := h) fun _ => ⟨rfl, rfl⟩, lockOf_congr (before .locks (by decide)), held]
    rfl
  obtain ⟨n, waits⟩ := (issues.issued_ctxIs).startWait (.lock (lockGroup s x) (i.ga x).toNat)
  obtain ⟨q, out⟩ := reclass_find (s := t) (waits.updCtx fun c => { c with lateCause := lateOf c.lateCause 5 }).1
  exact ⟨_, run, (reclass_frame _).step ((updLock_frame _ _ _ _).step (before.step (OnlyChanges.refl _ s))),
    (reclass_lockOf _ _ _).trans queued, _, out, rfl, rfl, rfl, rfl⟩

end

/-! UNLOCK -/

section
variable {i : Ins} {x : Ctx} {s : State} (issues : Issues notMap i x s)
  (word : (i.modIn 0 && i.noD && i.noB && i.imm == 0) = true)
include issues word

theorem unlock_unheld (unheld : holds s i.cx (lockGroup s x) (i.ga x).toNat = false) :
    Sets (.unlock i) i.cx { x with pc := x.pc + 1, budget := x.budget - 1 } s := by
  refine issues.sets word (show exec (.unlock i) s = execUnlock i s from rfl) (h := advance) ?_ rfl
  simp only [complete, holds_updCtx, lockGroup_updCtx, unheld, Bool.not_false, if_true]
  rfl

theorem unlock_frees {l : LockEnt} (held : lockOf s (lockGroup s x) (i.ga x).toNat = some l) (mine : l.holder = some i.cx)
    (last : l.waiters = []) (clean : recOf s i.cx (lockGroup s x) (i.ga x).toNat = none)
    (unwanted : ∀ p ∈ s.ctxs, ∀ a b, p.2.wait ≠ .lock a b) :
    Does (.unlock i) [.ctxs, .locks] s fun t => lockOf t (lockGroup s x) (i.ga x).toNat = none ∧
      (∀ a b, (a, b) ≠ (lockGroup s x, (i.ga x).toNat) → lockOf t a b = lockOf s a b) ∧
      ∃ y, t.ctxs.find i.cx = some y ∧ y.pc = x.pc + 1 ∧ y.state = .running := by
  let v := complete (updCtx s i.cx (issue s)) i.cx id
  let t : State := { v with
    locks := v.locks.filter fun l => !(l.group == lockGroup s x && l.stripe == (i.ga x).toNat) }
  have run : exec (.unlock i) s = .next (reclass t) := by
    refine (show exec (.unlock i) s = execUnlock i s from rfl).trans ((issues.runIns word _).trans (congrArg _ ?_))
    have mine_ : holds s i.cx (lockGroup s x) (i.ga x).toNat = true := by simp [holds, held, mine]
    simp only [complete, holds_updCtx, recOf_updCtx, lockGroup_updCtx, mine_, clean, Bool.not_true,
      Bool.false_eq_true, if_false]
    exact passLock_frees (s := v) held last (updCtx_waits (P := fun w => ∀ a b, w ≠ .lock a b) (fun _ => rfl)
      (updCtx_waits (P := fun w => ∀ a b, w ≠ .lock a b) (fun _ => rfl) unwanted))
  obtain ⟨q, out⟩ := reclass_find (s := t) (issues.complete_ctxIs _ rfl id).1
  exact ⟨_, run, (reclass_frame _).step ((locks_frame v _).step ((complete_frame _ _ _).step
      ((updCtx_frame _ _ _).step (OnlyChanges.refl _ s)))),
    (reclass_lockOf _ _ _).trans (lockOf_freed_same _ _ _),
    fun a b other => (reclass_lockOf _ _ _).trans (lockOf_freed_other _ other), _, out, rfl, issues.running⟩

end

/-! PERM -/

section
variable {i : Ins} {x : Ctx} {s : State} (issues : Issues anyKind i x s)
  (word : (i.modIn 0 && i.immIn 4 && decide (i.imm.toNat < 6)) = true)
include issues word

theorem perm_groupless (none_ : ctxGroup s x = none) : Gives (.perm i) i x (BitVec.allOnes 64) s := by
  refine issues.gives word (show exec (.perm i) s = execPerm i s from rfl) ?_
  change (match ctxGroupNo s x, ctxGroup s x with
    | some _, some _ => _
    | _, _ => completeD _ i (BitVec.allOnes 64)) = _
  rw [none_]
  cases ctxGroupNo s x <;> rfl

theorem perm_gives {no : Nat} {gr : Group} (number : ctxGroupNo s x = some no) (group : ctxGroup s x = some gr) {v : Word}
    (value : (match permValue s no gr i.imm.toNat (i.ga x).toNat (i.gb x).toNat with
      | some v => BitVec.ofNat 64 v
      | none => BitVec.allOnes 64) = v) : Gives (.perm i) i x v s := by
  subst value
  refine issues.gives word (show exec (.perm i) s = execPerm i s from rfl) ?_
  change (match ctxGroupNo s x, ctxGroup s x with
    | some gno, some g => _
    | _, _ => completeD _ i (BitVec.allOnes 64)) = _
  rw [number, group]
  rfl

end

/-- Settles O14: what each instruction does to its context (R271), with the entry of the stripe (R297) and the value of the
selector (R295). -/
theorem engineLocks : Obligations.EngineLocks := by
  unfold Obligations.EngineLocks
  intro i x s g st x'
  refine ⟨fun issues word => ⟨fun few order => ⟨fun free room => lock_granted ⟨few, order⟩ issues word free room,
      fun l held => lock_waits ⟨few, order⟩ issues word held⟩, unlock_unheld issues word,
    fun l held mine last clean unwanted => unlock_frees issues word held mine last clean unwanted⟩,
    fun issues word => ⟨perm_groupless issues word, fun no gr number group =>
      ⟨_, perm_gives issues word number group rfl, fun sel inside => ?sigma, fun sel inside => ?member, fun sel => ?lost⟩⟩⟩
  case sigma => simp [sel, permValue, inside, st]
  case member => simp [sel, permValue, inside, bit, st]
  case lost =>
    rw [sel]
    change (BitVec.ofNat 64 (bit (isLost s no (i.ga x).toNat) 0)) = _
    cases isLost s no (i.ga x).toNat <;> rfl

end Sys2Proof.Machine
end

section
/-! The journal instructions (R302 to R306). -/

namespace Sys2Proof.Machine

@[simp] theorem recsOf_updCtx (s : State) (k : Nat) (f : Ctx → Ctx) (cx : Nat) : recsOf (updCtx s k f) cx = recsOf s cx := rfl
@[simp] theorem recsUsed_updCtx (s : State) (k : Nat) (f : Ctx → Ctx) : recsUsed (updCtx s k f) = recsUsed s := rfl
@[simp] theorem frameOf_updCtx (s : State) (k : Nat) (f : Ctx → Ctx) (fr : Nat) : frameOf (updCtx s k f) fr = frameOf s fr := rfl
@[simp] theorem jaddFrames_updCtx (s : State) (k : Nat) (f : Ctx → Ctx) (i : Ins) (c : Ctx) (g : Nat) :
    jaddFrames (updCtx s k f) i c g = jaddFrames s i c g := rfl

theorem journal_frame (s : State) (j : Journal) : OnlyChanges [.journal] s { s with journal := j } := by
  intro p out
  cases p with
  | journal => exact absurd (by decide) out
  | _ => rfl

theorem now_eq_of_frame {s t : State} {ps : List Part} (frame : OnlyChanges ps s t) (out : .tt ∉ ps := by decide) :
    now t = now s := by
  have same : t.tt = s.tt := frame .tt out
  rw [now, same, now]

/-- Every frame of a list of entries, one after the other. -/
theorem all_frames (es : List JEntry) (p : Nat → Bool) :
    (es.map fun e => e.frames).flatten.all p = es.all fun e => e.frames.all p := by
  rw [List.all_flatten, List.all_map]
  rfl

theorem wakeRecordWaiters_none {s : State} (unwanted : ∀ p ∈ s.ctxs, p.2.wait ≠ .record) : wakeRecordWaiters s = s := by
  have empty : (s.ctxs.filter fun x => x.2.wait == .record) = [] :=
    List.filter_eq_nil_iff.2 fun p mem => by simpa using unwanted p mem
  rw [wakeRecordWaiters, empty]
  rfl

/-- A record with no context waiting for one leaves the pool, and its pins the frames. -/
theorem dropRec_eq {s : State} {n : Nat} {r : JRec} (here : s.journal.recs.find n = some r)
    (unwanted : ∀ p ∈ s.ctxs, p.2.wait ≠ .record) :
    dropRec s n = let u := unpinAll s (r.entries.map fun e => e.frames).flatten
      { u with journal := { u.journal with recs := u.journal.recs.del n } } := by
  have frame := unpinAll_frame s (r.entries.map fun e => e.frames).flatten
  simp only [dropRec, here]
  refine wakeRecordWaiters_none (s := { unpinAll s _ with journal := _ }) ?_
  have same : (unpinAll s (r.entries.map fun e => e.frames).flatten).ctxs = s.ctxs := frame .ctxs (by decide)
  change ∀ p ∈ (unpinAll s (r.entries.map fun e => e.frames).flatten).ctxs, _
  rwa [same]

section
variable {i : Ins} {x : Ctx} {s : State} (issues : Issues notMap i x s)
include issues

/-! JOPEN -/

section
variable (word : (i.modIn 0 && i.noB && i.imm == 0) = true)
include word

theorem jopen_unlocked (unheld : holds s i.cx (lockGroup s x) (i.ga x).toNat = false) : Gives (.jopen i) i x 1 s := by
  refine issues.gives word (show exec (.jopen i) s = execJopen i s from rfl) ?_
  simp only [holds_updCtx, lockGroup_updCtx, unheld, Bool.not_false, if_true]

variable (held : holds s i.cx (lockGroup s x) (i.ga x).toNat = true)
include held

theorem jopen_open (open_ : recOf s i.cx (lockGroup s x) (i.ga x).toNat ≠ none) : Gives (.jopen i) i x 2 s := by
  refine issues.gives word (show exec (.jopen i) s = execJopen i s from rfl) ?_
  simp only [holds_updCtx, lockGroup_updCtx, recOf_updCtx, held, Option.isSome_iff_ne_none.2 open_, Bool.not_true, Bool.true_or,
    Bool.false_eq_true, if_false, if_true]

/-- The record that JOPEN makes (R302). -/
def openedRec (s : State) (i : Ins) (x : Ctx) : JRec :=
  { group := lockGroup s x, stripe := (i.ga x).toNat, generation := s.journal.nextGen, vol := x.vol, ctx := some i.cx, siding := i.cx,
    openTs := now s }

/-- The pool after JOPEN. -/
def openedJournal (s : State) (i : Ins) (x : Ctx) : Journal :=
  { (addRec s (openedRec s i x)).2.journal with nextGen := s.journal.nextGen + 1 }

theorem jopen_opens (free : recOf s i.cx (lockGroup s x) (i.ga x).toNat = none) (few : (recsOf s i.cx).length < 2)
    (room : recsUsed s < Config.journalRecords) :
    Does (.jopen i) [.ctxs, .journal] s fun t => t.journal.nextGen = s.journal.nextGen + 1 ∧
      CtxIs i.cx (setGreg { x with pc := x.pc + 1, budget := x.budget - 1 } i.d.toNat 0) s t ∧
      ∃ n r, t.journal.recs.find n = some r ∧ r.group = lockGroup s x ∧ r.stripe = (i.ga x).toNat ∧
        r.generation = s.journal.nextGen ∧ r.ctx = some i.cx ∧ r.sealed = false ∧ r.entries = [] ∧ r.vol = x.vol := by
  let u := updCtx s i.cx (issue s)
  have run : exec (.jopen i) s = .next (completeD { u with journal := openedJournal s i x } i 0) := by
    refine (show exec (.jopen i) s = execJopen i s from rfl).trans ((issues.runIns word _).trans (congrArg _ ?_))
    simp only [holds_updCtx, lockGroup_updCtx, recOf_updCtx, recsOf_updCtx, recsUsed_updCtx, held, free, Option.isSome_none,
      Nat.not_le.2 few, Nat.not_le.2 room, decide_false, Bool.or_self, Bool.not_true, Bool.false_eq_true, if_false]
    rfl
  exact ⟨_, run, (complete_frame _ _ _).step ((journal_frame u _).step ((updCtx_frame _ _ _).step (OnlyChanges.refl _ s))), rfl,
    issues.complete_ctxIs { u with journal := openedJournal s i x } rfl fun c => setGreg c i.d.toNat 0,
    _, _, Tab.find_put_same _ _ _, rfl, rfl, rfl, rfl, rfl, rfl, rfl⟩

end

/-! JSEAL -/

section
variable (word : (i.modIn 0 && i.noB && i.imm == 0) = true)
include word

theorem jseal_none (none_ : recOf s i.cx (lockGroup s x) (i.ga x).toNat = none) : Gives (.jseal i) i x 4 s := by
  refine issues.gives word (show exec (.jseal i) s = execJseal i s from rfl) ?_
  simp only [lockGroup_updCtx, recOf_updCtx, none_]

variable {n : Nat} {r : JRec} (mine : recOf s i.cx (lockGroup s x) (i.ga x).toNat = some (n, r)) (open_ : r.sealed = false)
  (filled : r.entries ≠ [])
include mine open_ filled

theorem jseal_unprotected (bare : (r.entries.any fun e => e.frames.any fun fr => !(frameOf s fr).prot) = true) :
    Gives (.jseal i) i x 3 s := by
  refine issues.gives word (show exec (.jseal i) s = execJseal i s from rfl) ?_
  have some_ : (r.entries.all fun e => e.frames.all fun fr => (frameOf s fr).prot) = false := by
    simpa [List.any_eq_true, List.all_eq_false] using bare
  simp only [lockGroup_updCtx, recOf_updCtx, frameOf_updCtx, mine, open_, List.isEmpty_eq_false_iff.2 filled, Bool.or_self,
    all_frames, some_, Bool.not_false, Bool.false_eq_true, if_false, if_true]

theorem jseal_seals (here : s.journal.recs.find n = some r)
    (whole : (r.entries.all fun e => e.frames.all fun fr => (frameOf s fr).prot) = true) :
    Does (.jseal i) [.ctxs, .cache, .journal, .groups, .out] s fun t =>
      t.journal.recs.find n = some { r with sealed := true, sealTs := now s, echoed := true } ∧
      CtxIs i.cx (setGreg { x with pc := x.pc + 1, budget := x.budget - 1 } i.d.toNat 0) s t := by
  let u := updCtx s i.cx (issue s)
  let v := (r.entries.map fun e => e.frames).flatten.foldl (fun s fr => updFrame s fr fun x => { x with rdonly := true }) u
  let r' : JRec := { r with sealed := true, sealTs := now v, echoed := true }
  let w := updRec v n fun _ => r'
  let t := queueEcho w (lockGroup s x) r.generation (i.ga x).toNat false (recParts w n r')
  have run : exec (.jseal i) s = .next (completeD t i 0) := by
    refine (show exec (.jseal i) s = execJseal i s from rfl).trans ((issues.runIns word _).trans (congrArg _ ?_))
    simp only [lockGroup_updCtx, recOf_updCtx, frameOf_updCtx, mine, open_, List.isEmpty_eq_false_iff.2 filled, Bool.or_self,
      all_frames, whole, Bool.not_true, Bool.false_eq_true, if_false]
    rfl
  have cached : OnlyChanges [.cache] u v :=
    OnlyChanges.foldl (fun t fr kept => (updFrame_frame t fr _).step kept) (OnlyChanges.refl _ u)
  have echoed : OnlyChanges [.cache, .journal, .groups, .out] u t :=
    (queueEcho_frame _ _ _ _ _ _).step ((updRec_frame _ _ _).step (cached.step (OnlyChanges.refl _ u)))
  have sealed_ : t.journal.recs.find n = some { r with sealed := true, sealTs := now s, echoed := true } := by
    have stamp : now v = now s := now_eq_of_frame (s := u) cached
    have recs : v.journal = s.journal := cached .journal (by decide)
    have journal : t.journal = w.journal := queueEcho_frame w _ _ _ _ _ .journal (by decide)
    rw [journal, ← stamp]
    change (v.journal.recs.upd n fun _ => r').find n = some r'
    rw [Tab.find_upd_same, recs, here]
    rfl
  exact ⟨_, run, (complete_frame _ _ _).step (echoed.step ((updCtx_frame _ _ _).step (OnlyChanges.refl _ s))), sealed_,
    issues.complete_ctxIs t (echoed .ctxs (by decide)) fun c => setGreg c i.d.toNat 0⟩

end

/-! JADD -/

section
variable (word : (i.modIn 0x01C#9 && i.immIn 5 && i.flagOk) = true)
include word

theorem jadd_refused (none_ : jaddFrames s i x (lockGroup s x) = none) :
    Sets (.jadd i) i.cx (setFlag { x with pc := x.pc + 1, budget := x.budget - 1 } i.flag false) s := by
  refine issues.sets word (show exec (.jadd i) s = execJadd i s from rfl) (h := fun c => setFlag (advance c) i.flag false) ?_ rfl
  simp only [lockGroup_updCtx, jaddFrames_updCtx, none_]
  rfl

/-- The entry that JADD puts into its record (R303). -/
def addedEntry (i : Ins) (x : Ctx) (frs : List Nat) : JEntry :=
  { index := (i.gd x).toNat, lba := wLba (i.gb x), frames := frs, stage := i.imm.getLsbD 4 }

theorem jadd_adds {n : Nat} {r : JRec} {frs : List Nat} (takes : jaddFrames s i x (lockGroup s x) = some (n, r, frs))
    (here : s.journal.recs.find n = some r) (inside : r.entries.length % 6 ≠ 0 ∨ r.entries = []) :
    Does (.jadd i) [.ctxs, .cache, .journal] s fun t =>
      t.journal.recs.find n = some { r with entries := r.entries ++ [addedEntry i x frs] } ∧
      CtxIs i.cx (setFlag { x with pc := x.pc + 1, budget := x.budget - 1 } i.flag true) s t := by
  let u := updCtx s i.cx (issue s)
  let v := frs.foldl pinFrame u
  let t := updRec v n fun r => { r with entries := r.entries ++ [addedEntry i x frs], conts := r.conts ++ [] }
  have fits : (r.entries.length % 6 == 0 && decide (0 < r.entries.length)) = false := by
    obtain partial_ | empty := inside
    · simp [partial_]
    · simp [empty]
  have run : exec (.jadd i) s = .next (complete t i.cx fun c => setFlag c i.flag true) := by
    refine (show exec (.jadd i) s = execJadd i s from rfl).trans ((issues.runIns word _).trans (congrArg _ ?_))
    simp only [lockGroup_updCtx, jaddFrames_updCtx, takes, fits, Bool.false_and, Bool.false_eq_true, if_false]
    rfl
  have pinned : OnlyChanges [.cache] u v :=
    OnlyChanges.foldl (fun t fr kept => (pinFrame_frame t fr).step kept) (OnlyChanges.refl _ u)
  have added : OnlyChanges [.cache, .journal] u t := (updRec_frame _ _ _).step (pinned.step (OnlyChanges.refl _ u))
  have entered : t.journal.recs.find n = some { r with entries := r.entries ++ [addedEntry i x frs] } := by
    have recs : v.journal = s.journal := pinned .journal (by decide)
    change (v.journal.recs.upd n _).find n = _
    rw [Tab.find_upd_same, recs, here]
    simp
  exact ⟨_, run, (complete_frame _ _ _).step (added.step ((updCtx_frame _ _ _).step (OnlyChanges.refl _ s))), entered,
    issues.complete_ctxIs t (added .ctxs (by decide)) fun c => setFlag c i.flag true⟩

end

/-! JRETIRE -/

section
variable (word : (i.modIn 0 && i.noB && i.imm == 0) = true)
include word

omit issues in
theorem jretire_word : (i.modIn 0 && i.immIn 1 && (i.imm.getLsbD 0 || i.noB)) = true ∧ i.imm.getLsbD 0 = false := by
  simp only [Bool.and_eq_true, beq_iff_eq] at word
  obtain ⟨⟨mods, noB⟩, imm⟩ := word
  simpa [noB, imm, Ins.immIn] using mods

theorem jretire_none (none_ : recOf s i.cx (lockGroup s x) (i.ga x).toNat = none) : Gives (.jretire i) i x 4 s := by
  refine issues.gives (jretire_word word).1 (show exec (.jretire i) s = execJretire i s from rfl) ?_
  simp only [lockGroup_updCtx, recOf_updCtx, none_, Option.isNone_none, if_true]

theorem jretire_discards {n : Nat} {r : JRec} (mine : recOf s i.cx (lockGroup s x) (i.ga x).toNat = some (n, r))
    (here : s.journal.recs.find n = some r) (open_ : r.sealed = false) (sorted : Tab.sorted s.journal.recs = true)
    (unwanted : ∀ p ∈ s.ctxs, p.2.wait ≠ .record) :
    Does (.jretire i) [.ctxs, .cache, .journal, .seqCtr] s fun t => t.journal.recs.find n = none ∧
      CtxIs i.cx (setGreg { x with pc := x.pc + 1, budget := x.budget - 1 } i.d.toNat 1) s t := by
  let u := updCtx s i.cx (issue s)
  let v := unpinAll u (r.entries.map fun e => e.frames).flatten
  let t : State := { v with journal := { v.journal with recs := v.journal.recs.del n } }
  have dropped : dropRec u n = t :=
    dropRec_eq here (updCtx_waits (P := fun w => w ≠ .record) (fun _ => rfl) unwanted)
  have ready : retireReady u i.cx (lockGroup s x) (i.ga x).toNat none = true := by
    simp only [retireReady, u, recOf_updCtx, mine, open_, Bool.not_false, Bool.true_or, Bool.and_self]
  have retires : doRetire u i.cx (lockGroup s x) (i.ga x).toNat none = (1, dropRec u n) := by
    simp only [doRetire, u, recOf_updCtx, mine, open_, Bool.not_false, if_true, retireWm]
  have run : exec (.jretire i) s = .next (completeD t i 1) := by
    refine (show exec (.jretire i) s = execJretire i s from rfl).trans ((issues.runIns (jretire_word word).1 _).trans (congrArg _ ?_))
    simp only [lockGroup_updCtx, recOf_updCtx, mine, Option.isNone_some, (jretire_word word).2, Bool.false_eq_true, if_false]
    refine (if_pos ready).trans ?_
    rw [retires, dropped]
    rfl
  have unpinned : OnlyChanges [.cache] u v := unpinAll_frame _ _
  have recs : v.journal = s.journal := unpinned .journal (by decide)
  refine ⟨_, run, (complete_frame _ _ _).step ((journal_frame v _).step (unpinned.step ((updCtx_frame _ _ _).step (OnlyChanges.refl _ s)))),
    ?_, issues.complete_ctxIs t (unpinned .ctxs (by decide)) fun c => setGreg c i.d.toNat 1⟩
  change (v.journal.recs.del n).find n = none
  rw [recs]
  exact Tab.find_del_same sorted

end

end

/-- Settles O15: each instruction on the record of its thread for the stripe (R303), by what the pool and the frames hold. -/
theorem engineJournal : Obligations.EngineJournal := by
  unfold Obligations.EngineJournal
  intro i x s issues g st
  refine ⟨fun word => ⟨fun unheld => jopen_unlocked issues word unheld, fun held open_ => jopen_open issues word held open_,
      fun held free few room => jopen_opens issues word held free few room, fun none_ => jseal_none issues word none_,
      fun n r mine open_ filled bare => jseal_unprotected issues word mine open_ filled bare,
      fun n r mine here open_ filled whole => jseal_seals issues word mine open_ filled here whole⟩,
    fun word => ⟨fun none_ => jadd_refused issues word none_,
      fun n r frs takes here _ inside => jadd_adds issues word takes here inside⟩,
    fun word => ⟨fun none_ => jretire_none issues word none_,
      fun n r mine here open_ sorted unwanted => jretire_discards issues word mine here open_ sorted unwanted⟩⟩

end Sys2Proof.Machine
end

section
/-! Handles and frames of a thread (R285, R292, R293), and contexts that are woken (R246). -/

namespace Sys2Proof.Machine

/-! A frame put into an empty handle, and a handle released -/

section
variable {s : State} {cx k : Nat} {c : Ctx} (here : s.ctxs.find cx = some c)
include here

theorem putFrame_empty (empty : handleOf c k = .empty) (pos fr : Nat) :
    putFrame s cx k pos fr = setHandle s cx k (.frames [(pos, fr)]) := by
  simp only [putFrame, here, empty]
  rfl

theorem releaseHandle_find : (releaseHandle s cx k).ctxs.find cx = some { c with h := c.h.del k } := by
  have frame := unpinAll_frame s (handleOf c k).pins
  simp only [releaseHandle, here]
  rw [setHandle, updCtx_ctxs, Tab.find_upd_same, show (unpinAll s (handleOf c k).pins).ctxs = s.ctxs from frame .ctxs (by decide), here]
  rfl

end

theorem releaseHandles_find (cx : Nat) (ks : List Nat) : ∀ {s : State} {c : Ctx}, s.ctxs.find cx = some c →
    (ks.foldl (fun s k => releaseHandle s cx k) s).ctxs.find cx = some { c with h := ks.foldl Tab.del c.h } := by
  induction ks with
  | nil => exact fun here => here
  | cons k ks ih => exact fun here => ih (releaseHandle_find here)

theorem find_foldl_del {α : Type} (ks : List Nat) (j : Nat) : ∀ {t : Tab α}, Tab.sorted t = true →
    (ks.foldl Tab.del t).find j = if j ∈ ks then none else t.find j := by
  induction ks with
  | nil => exact fun _ => rfl
  | cons k ks ih =>
    intro t sorted
    rw [List.foldl_cons, ih (Tab.sorted_del sorted)]
    by_cases listed : j ∈ ks
    · rw [if_pos listed, if_pos (List.mem_cons_of_mem _ listed)]
    by_cases same : j = k
    · subst same
      rw [if_neg listed, if_pos List.mem_cons_self, Tab.find_del_same sorted]
    · rw [if_neg listed, if_neg (by simp [same, listed]), Tab.find_del_other _ same]

/-- An instruction that puts one frame into a handle and completes leaves the other handles. -/
theorem putHandle_fields (x : Ctx) (k p fr d : Nat) : let y := setGreg (advance { x with h := x.h.put k (.frames [(p, fr)]) }) d 0
    (handleOf y k).at_ p = some fr ∧ y.pc = x.pc + 1 ∧ ∀ j, j ≠ k → handleOf y j = handleOf x j := by
  dsimp only [handleOf, Tab.getD]
  rw [setGreg_h, setGreg_pc]
  dsimp only [advance]
  rw [Tab.find_put_same]
  exact ⟨by simp [Handle.at_, Handle.frameTab, Tab.find], rfl, fun j other => by rw [Tab.find_put_other _ _ other]⟩

/-! Contexts that are woken change in no more than their state, what they wait for, and the time of it -/

/-- A context but for its state, what it waits for and the time of it. -/
def Ctx.MovedTo (c y : Ctx) : Prop := y = { c with state := y.state, wait := y.wait, since := y.since }

theorem Ctx.MovedTo.refl (c : Ctx) : c.MovedTo c := rfl

theorem Ctx.MovedTo.trans {c d e : Ctx} (h : c.MovedTo d) (k : d.MovedTo e) : c.MovedTo e := by
  rw [Ctx.MovedTo] at h k ⊢
  rw [k, h]

theorem wake_moved {s : State} {k j : Nat} {c : Ctx} (here : s.ctxs.find j = some c) :
    ∃ y, (wake s k).ctxs.find j = some y ∧ c.MovedTo y := by
  change ∃ y, (s.ctxs.upd k _).find j = some y ∧ _
  by_cases same : j = k
  · subst same
    rw [Tab.find_upd_same, here]
    exact ⟨_, rfl, rfl⟩
  · rw [Tab.find_upd_other _ _ same]
    exact ⟨c, here, .refl c⟩

theorem wakes_moved {α : Type} (f : α → Nat) (l : List α) {j : Nat} : ∀ {s : State} {c : Ctx}, s.ctxs.find j = some c →
    ∃ y, (l.foldl (fun s x => wake s (f x)) s).ctxs.find j = some y ∧ c.MovedTo y := by
  induction l with
  | nil => exact fun here => ⟨_, here, .refl _⟩
  | cons x l ih =>
    intro s c here
    obtain ⟨d, found, moved⟩ := wake_moved (k := f x) here
    obtain ⟨e, last, further⟩ := ih found
    exact ⟨e, last, moved.trans further⟩

theorem wakeFrameWaiters_moved {s : State} {j : Nat} {c : Ctx} (here : s.ctxs.find j = some c) :
    ∃ y, (wakeFrameWaiters s).ctxs.find j = some y ∧ c.MovedTo y := wakes_moved Prod.fst _ here

end Sys2Proof.Machine
end

section
/-! The cache instructions (R285, R292, R293). -/

namespace Sys2Proof.Machine

@[simp] theorem callocRoom_updCtx (s : State) (k : Nat) (f : Ctx → Ctx) (c : Ctx) (n : Nat) :
    callocRoom (updCtx s k f) c n = callocRoom s c n := rfl

theorem fieldOf_div_mod {w : Nat} (v : BitVec w) (lo n : Nat) : fieldOf v lo n = v.toNat / 2 ^ lo % 2 ^ n := by
  simp [fieldOf, Nat.shiftRight_eq_div_pow]

theorem wPos_lt (w : Word) : wPos w < 256 := by
  rw [wPos, fieldOf_div_mod]
  omega

section
variable {i : Ins} {x : Ctx} {s : State} (issues : Issues notMap i x s)

/-! CLOOK -/

theorem lookRun_mask (cx k v lba pos : Nat) (dirty : Bool) (s : State) : ∀ n, ∃ m < 2 ^ n,
    lookRun cx k v lba pos false dirty n s = (m, s) ∧ ∀ j < n, m.testBit j = (resident s v (lba + j) dirty).isSome := by
  intro n
  induction n with
  | zero => exact ⟨0, by decide, rfl, fun j below => absurd below (Nat.not_lt_zero j)⟩
  | succ n ih =>
    obtain ⟨m, small, run, bits⟩ := ih
    have last : m.testBit n = false := Nat.testBit_lt_two_pow small
    simp only [lookRun, run]
    cases found : resident s v (lba + n) dirty with
    | none =>
      refine ⟨m, by rw [Nat.pow_succ]; omega, rfl, fun j below => ?_⟩
      obtain lower | rfl : j < n ∨ j = n := by omega
      · exact bits j lower
      · rw [last, found, Option.isSome_none]
    | some fr =>
      refine ⟨m + 2 ^ n, by rw [Nat.pow_succ]; omega, rfl, fun j below => ?_⟩
      rw [Nat.add_comm]
      obtain lower | rfl : j < n ∨ j = n := by omega
      · rw [Nat.testBit_two_pow_add_gt lower, bits j lower]
      · rw [Nat.testBit_two_pow_add_eq, last, found, Option.isSome_some, Bool.not_false]

include issues

theorem clook_mask (word : (i.modIn 0 && i.noB && i.immIn 6) = true) {v : Nat} (vol : x.vol = some v)
    (few : wCount (i.ga x) ≤ 64) (unpinned : i.imm.getLsbD 4 = false) :
    ∃ r : Word, Gives (.clook i) i x r s ∧ ∀ j < 64, r.getLsbD j =
      (decide (j < wCount (i.ga x)) && (resident s v (wLba (i.ga x) + j) (i.imm.getLsbD 5)).isSome) := by
  obtain ⟨m, small, run, bits⟩ := lookRun_mask i.cx (i.immBits 0 4) v (wLba (i.ga x)) (wPos (i.ga x)) (i.imm.getLsbD 5)
    (updCtx s i.cx (issue s)) (wCount (i.ga x))
  refine ⟨BitVec.ofNat 64 m, issues.gives word (show exec (.clook i) s = execClook i s from rfl) ?_, fun j below => ?_⟩
  · simp only [vol, unpinned, Bool.false_and, Bool.or_false, decide_eq_true_eq, Nat.not_lt.2 few, if_false, run]
  · rw [BitVec.getLsbD_ofNat, decide_eq_true below, Bool.true_and]
    by_cases inside : j < wCount (i.ga x)
    · rw [bits j inside, decide_eq_true inside, Bool.true_and]
      rfl
    · rw [decide_eq_false inside, Bool.false_and]
      exact Nat.testBit_lt_two_pow (small.trans_le (Nat.pow_le_pow_right (by decide) (Nat.not_lt.1 inside)))

/-! CALLOC -/

section
variable (word : (i.modIn 0 && i.noB && i.immIn 6 && decide (i.imm.toNat / 16 = 0)) = true)
include word

omit issues in
theorem calloc_word : (i.modIn 0 && i.noB && i.immIn 6 && decide (i.immBits 4 2 < 3)) = true ∧ i.immBits 4 2 = 0 := by
  simp only [Bool.and_eq_true, decide_eq_true_eq] at word ⊢
  obtain ⟨form, stage⟩ := word
  have mode : i.immBits 4 2 = 0 := by rw [Ins.immBits, fieldOf_div_mod]; omega
  exact ⟨⟨form, mode ▸ by decide⟩, mode⟩

theorem calloc_refused (long : 256 < wPos (i.ga x) + wCount (i.ga x)) : Gives (.calloc i) i x 0xFE s := by
  obtain ⟨form, mode⟩ := calloc_word word
  refine issues.gives form (show exec (.calloc i) s = execCalloc i s from rfl) ?_
  simp [mode, posOk, Nat.not_le.2 long, opErr]

/-- The directory when a frame has been taken for STAGE (R292). -/
def staged (s : State) (fr : Nat) : State :=
  { s with cache := { s.cache with
             frames := s.cache.frames.put fr { pins := 1, stage := true, data := Memory.free s.freeCtr } }
           freeCtr := s.freeCtr + 1 }

theorem calloc_stages (one : wCount (i.ga x) = 1) (room : callocRoom s x 1 = true) (empty : handleOf x (i.imm.toNat % 16) = .empty)
    {fr : Nat} (taken : takeFrame s = some fr) :
    Does (.calloc i) [.ctxs, .cache, .freeCtr] s fun t => t.freeCtr = s.freeCtr + 1 ∧
      frameOf t fr = { pins := 1, stage := true, data := Memory.free s.freeCtr } ∧
      (∀ j, j ≠ fr → frameOf t j = frameOf s j) ∧
      ∃ y, CtxIs i.cx y s t ∧ (handleOf y (i.imm.toNat % 16)).at_ (wPos (i.ga x)) = some fr ∧ y.pc = x.pc + 1 ∧
        ∀ j, j ≠ i.imm.toNat % 16 → handleOf y j = handleOf x j := by
  let n := i.imm.toNat % 16
  let u := updCtx s i.cx (issue s)
  let v : State := { staged s fr with ctxs := u.ctxs }
  let h : Handle := .frames [(wPos (i.ga x), fr)]
  have given : v.ctxs.find i.cx = some x := issues.issued_ctxIs.1
  have taken_ : takeFrame u = some fr := taken
  have run : exec (.calloc i) s = .next (completeD (setHandle v i.cx n h) i 0) := by
    obtain ⟨form, mode⟩ := calloc_word word
    refine (show exec (.calloc i) s = execCalloc i s from rfl).trans ((issues.runIns form _).trans (congrArg _ ?_))
    have fits : posOk (wPos (i.ga x)) 1 = true := decide_eq_true (wPos_lt (i.ga x))
    simp only [mode, one, fits, room, callocRoom_updCtx, Nat.reduceEqDiff, Bool.not_true, Bool.false_or, Nat.reduceBEq,
      Bool.false_and, Bool.false_eq_true, if_false, if_true, callocRun, allocFrames, allocFrame]
    rw [taken_]
    exact congrArg (completeD · i 0) (by rw [show i.immBits 0 4 = n from fieldOf_zero _ _]; exact putFrame_empty given empty _ _)
  have framed : OnlyChanges [.cache, .freeCtr] u v := fun p out => by
    cases p with
    | cache => exact absurd (by decide) out
    | freeCtr => exact absurd (by decide) out
    | _ => rfl
  have handled : CtxIs i.cx { x with h := x.h.put n h } s (setHandle v i.cx n h) :=
    issues.updCtx_ctxIs v rfl fun c => { c with h := c.h.put n h }
  refine ⟨_, run, (complete_frame _ _ _).step ((setHandle_frame _ _ _ _).step (framed.step ((updCtx_frame _ _ _).step
    (OnlyChanges.refl _ s)))), rfl, ?_, fun j other => ?_, _, handled.updCtx fun c => setGreg (advance c) i.d.toNat 0,
    putHandle_fields _ _ _ _ _⟩
  · change ((s.cache.frames.put fr _).find fr).getD _ = _
    rw [Tab.find_put_same]
    rfl
  · change ((s.cache.frames.put fr _).find j).getD _ = (s.cache.frames.find j).getD _
    rw [Tab.find_put_other _ _ other]

end

/-! CPIN -/

section
variable (word : (i.modIn 0 && i.noB && i.immIn 8) = true)
include word

omit issues in
theorem cpin_word : (i.modIn 0 && i.noB && i.immIn 10 && decide (i.immBits 8 2 < 3)) = true ∧ i.immBits 8 2 = 0 ∧
    i.immBits 4 4 = i.imm.toNat / 16 ∧ i.immBits 0 4 = i.imm.toNat % 16 := by
  simp only [Bool.and_eq_true, Ins.immIn, decide_eq_true_eq] at word ⊢
  obtain ⟨form, small⟩ := word
  have mode : i.immBits 8 2 = 0 := by rw [Ins.immBits, fieldOf_div_mod]; omega
  have source : i.immBits 4 4 = i.imm.toNat / 16 := by rw [Ins.immBits, fieldOf_div_mod]; omega
  exact ⟨⟨⟨form, by omega⟩, by omega⟩, mode, source, fieldOf_zero _ _⟩

theorem cpin_refused (bare : (handleOf x (i.imm.toNat / 16)).frameTab = []) : Gives (.cpin i) i x 0xFE s := by
  obtain ⟨form, mode, source, target⟩ := cpin_word word
  refine issues.gives form (show exec (.cpin i) s = execCpin i s from rfl) ?_
  simp only [source, bare, List.isEmpty_nil, Bool.true_or, if_true]
  rfl

theorem cpin_pins (one : wCount (i.ga x) = 1) (empty : handleOf x (i.imm.toNat % 16) = .empty) {fr : Nat} {f : Frame}
    (sourced : (handleOf x (i.imm.toNat / 16)).at_ ((i.ga x).toNat % 256) = some fr) (listed : s.cache.frames.find fr = some f) :
    Does (.cpin i) [.ctxs, .cache] s fun t => t.cache.frames.find fr = some { f with pins := f.pins + 1 } ∧
      ∃ y, CtxIs i.cx y s t ∧ (handleOf y (i.imm.toNat % 16)).at_ ((i.ga x).toNat / 256 % 256) = some fr ∧ y.pc = x.pc + 1 ∧
        ∀ j, j ≠ i.imm.toNat % 16 → handleOf y j = handleOf x j := by
  let n := i.imm.toNat % 16
  let u := updCtx s i.cx (issue s)
  let v := pinFrame u fr
  let h : Handle := .frames [((i.ga x).toNat / 256 % 256, fr)]
  have given : v.ctxs.find i.cx = some x := issues.issued_ctxIs.1
  have run : exec (.cpin i) s = .next (completeD (setHandle v i.cx n h) i 0) := by
    obtain ⟨form, mode, source, target⟩ := cpin_word word
    refine (show exec (.cpin i) s = execCpin i s from rfl).trans ((issues.runIns form _).trans (congrArg _ ?_))
    have from_ : fieldOf (i.ga x) 0 8 = (i.ga x).toNat % 256 := fieldOf_zero _ _
    have to_ : fieldOf (i.ga x) 8 8 = (i.ga x).toNat / 256 % 256 := fieldOf_div_mod _ _ _
    have some_ : (handleOf x (i.imm.toNat / 16)).frameTab.isEmpty = false := by
      rw [List.isEmpty_eq_false_iff]
      intro bare
      rw [Handle.at_, bare] at sourced
      cases sourced
    have fits : ∀ p, p < 256 → posOk p 1 = true := fun p below => decide_eq_true below
    simp only [mode, source, target, one, some_, from_, to_, fits _ (Nat.mod_lt _ (by decide)), Bool.not_true, Bool.or_self,
      Bool.false_eq_true, if_false, if_true, cpinRun, Nat.add_zero, sourced]
    exact congrArg (completeD · i 0) (putFrame_empty given empty _ _)
  have handled : CtxIs i.cx { x with h := x.h.put n h } s (setHandle v i.cx n h) :=
    issues.updCtx_ctxIs v rfl fun c => { c with h := c.h.put n h }
  refine ⟨_, run, (complete_frame _ _ _).step ((setHandle_frame _ _ _ _).step ((pinFrame_frame _ _).step ((updCtx_frame _ _ _).step
    (OnlyChanges.refl _ s)))), ?_, _, handled.updCtx fun c => setGreg (advance c) i.d.toNat 0, putHandle_fields _ _ _ _ _⟩
  change (s.cache.frames.upd fr _).find fr = _
  rw [Tab.find_upd_same, listed]
  rfl

end

/-! CUNPIN -/

theorem cunpin_empties (word : (i.modIn 0 && i.noD && i.noA && i.noB && i.immIn 16) = true) (sorted : Tab.sorted x.h = true) :
    Does (.cunpin i) [.ctxs, .cache, .seqCtr] s fun t => ∃ y, t.ctxs.find i.cx = some y ∧ y.pc = x.pc + 1 ∧
      ∀ j < 16, handleOf y j = if i.imm.getLsbD j then .empty else handleOf x j := by
  let u := updCtx s i.cx (issue s)
  let ks := (List.range 16).filter fun k => i.imm.getLsbD k
  let v := ks.foldl (fun s k => releaseHandle s i.cx k) u
  have run : exec (.cunpin i) s = .next (complete (wakeFrameWaiters v) i.cx id) :=
    (show exec (.cunpin i) s = execCunpin i s from rfl).trans (issues.runIns word _)
  have released : OnlyChanges [.ctxs, .cache] u v :=
    OnlyChanges.foldl (fun t k kept => (releaseHandle_frame t i.cx k).step kept) (OnlyChanges.refl _ u)
  obtain ⟨y, found, moved⟩ := wakeFrameWaiters_moved (releaseHandles_find i.cx ks issues.issued_ctxIs.1)
  refine ⟨_, run, (complete_frame _ _ _).step ((wakeFrameWaiters_frame _).step (released.step ((updCtx_frame _ _ _).step
    (OnlyChanges.refl _ s)))), advance y, ?_, ?_, fun j below => ?_⟩
  · rw [complete, updCtx_ctxs, Tab.find_upd_same, found]
    rfl
  · rw [moved]
    rfl
  · have listed : j ∈ ks ↔ i.imm.getLsbD j = true := by simp [ks, below]
    have handles : (advance y).h = ks.foldl Tab.del x.h := by rw [moved]; rfl
    rw [handleOf, handles, Tab.getD, find_foldl_del ks j sorted]
    by_cases named : i.imm.getLsbD j = true
    · rw [if_pos (listed.2 named), if_pos named]
      rfl
    · rw [if_neg fun mem => named (listed.1 mem), if_neg named]
      rfl

end

/-- Settles O13: what each instruction does to the frames and to the handles of its thread (R285, R292). -/
theorem engineCacheInstructions : Obligations.EngineCacheInstructions := by
  unfold Obligations.EngineCacheInstructions
  intro i x s issues w n k
  refine ⟨fun word v vol few unpinned => clook_mask issues word vol few unpinned,
    fun word => ⟨fun long => calloc_refused issues word long,
      fun one room empty fr taken => calloc_stages issues word one room empty taken⟩,
    fun word => ⟨fun bare => cpin_refused issues word bare,
      fun one apart empty fr f sourced listed => cpin_pins issues word one empty sourced listed⟩,
    fun word sorted => cunpin_empties issues word sorted⟩

end Sys2Proof.Machine
end

section
/-! HREAD and HWRITE (R288 to R290, R401 to R406): the channel of a transfer. -/

namespace Sys2Proof.Machine

/-! Movers -/

@[simp] theorem moverOf_updMover_same (s : State) (m : Nat) (f : Mover → Mover) : moverOf (updMover s m f) m = f (moverOf s m) := by
  simp [moverOf, updMover, Tab.getD]

@[simp] theorem moverOf_updCtx (s : State) (k : Nat) (f : Ctx → Ctx) (m : Nat) : moverOf (updCtx s k f) m = moverOf s m := rfl

theorem moverOf_eq_of_frame {s t : State} {ps : List Part} (frame : OnlyChanges ps s t) (m : Nat)
    (out : .movers ∉ ps := by decide) : moverOf t m = moverOf s m := by
  have same : t.movers = s.movers := frame .movers out
  rw [moverOf, same, moverOf]

theorem runningOf_eq_none {x : Mover} : runningOf x = none ↔ ∀ c ∈ x.chans, c.2.state ≠ .running := by
  simp [runningOf]

/-- A channel that is queued on a mover does not run. -/
theorem runningOf_put {x : Mover} (idle : runningOf x = none) (seq : BitVec 32) (ch : Nat) {k : Channel} (queued : k.state = .queued) :
    runningOf { x with nextSeq := seq, chans := x.chans.put ch k } = none := by
  rw [runningOf_eq_none] at idle ⊢
  intro c mem
  obtain rfl | old := Tab.mem_put mem
  · rw [queued]
    decide
  · exact idle c old

/-! The parts of a context that a transfer names are those at its issue -/

/-- The channel names no more of the state than the volumes, and no more of the context than its volume, class, command, handles
and PC. -/
theorem newChan_congr {s t : State} {c y : Ctx} (vols : t.vols = s.vols)
    (same : y = { c with place := y.place, ran := y.ran, state := y.state, wait := y.wait })
    (cx : Nat) (write : Bool) (w : Word) (imm dst : Nat) (seq : BitVec 32) :
    newChan t y cx write w imm dst seq = newChan s c cx write w imm dst seq := by
  have pi : ctxPi t y = ctxPi s c := by
    rw [same]
    simp only [ctxPi, ctxVol, vols]
  have cls : eclass y = eclass c := by rw [same]; rfl
  simp only [newChan, pi, cls]
  rw [same]
  rfl

/-- What a transfer leaves before its mover looks at it: its channel queued, and its thread waiting for it. -/
def queuedOn (s : State) (y : Ctx) (cx m ch : Nat) (write : Bool) (w : Word) (imm dst : Nat) : State :=
  let u := openFrames s y write w imm
  updCtx (putChan (updMover u m fun z => { z with nextSeq := z.nextSeq + 1 }) m ch
    (newChan u y cx write w imm dst (moverOf u m).nextSeq)) cx fun c => { c with wait := .mover }

theorem queuedOn_frame (s : State) (y : Ctx) (cx m ch : Nat) (write : Bool) (w : Word) (imm dst : Nat) :
    OnlyChanges [.cache, .movers, .ctxs] s (queuedOn s y cx m ch write w imm dst) :=
  (updCtx_frame _ _ _).step ((putChan_frame _ _ _ _).step ((updMover_frame _ _ _).step ((openFrames_frame _ _ _ _ _).step
    (OnlyChanges.refl _ s))))

theorem moverOf_queuedOn (s : State) (y : Ctx) (cx m ch : Nat) (write : Bool) (w : Word) (imm dst : Nat) :
    moverOf (queuedOn s y cx m ch write w imm dst) m = { moverOf s m with
      nextSeq := (moverOf s m).nextSeq + 1
      chans := (moverOf s m).chans.put ch (newChan s y cx write w imm dst (moverOf s m).nextSeq) } := by
  have opened := openFrames_frame s y write w imm
  have before : moverOf (openFrames s y write w imm) m = moverOf s m := moverOf_eq_of_frame opened m
  simp only [queuedOn, moverOf_updCtx, putChan, moverOf_updMover_same, before,
    newChan_congr (s := s) (c := y) (y := y) (opened .vols (by decide)) rfl]

/-- A channel on a mover at rest, of a function that may master the bus, stays queued (R401, R406). -/
theorem startChan_queues {s : State} {cx m ch : Nat} {y : Ctx} {fn : Func} (here : s.ctxs.find cx = some y)
    (func : fnOf s y.func.toNat = some fn) (bme : fn.bme = true) (idle : runningOf (moverOf s m) = none)
    (write : Bool) (w : Word) (imm dst : Nat) : startChan s cx m ch write w imm dst = queuedOn s y cx m ch write w imm dst := by
  have same : fnOf (queuedOn s y cx m ch write w imm dst) y.func.toNat = some fn := by
    rw [← func, fnOf_congr (queuedOn_frame s y cx m ch write w imm dst .funcs (by decide))]
  have rests : runningOf (moverOf (queuedOn s y cx m ch write w imm dst) m) = none := by
    rw [moverOf_queuedOn]
    exact runningOf_put idle _ ch rfl
  unfold startChan
  rw [here]
  change (match fnOf (queuedOn s y cx m ch write w imm dst) y.func.toNat with
    | none => queuedOn s y cx m ch write w imm dst
    | some fn => _) = _
  rw [same]
  refine (if_neg (by simp [bme])).trans ?_
  split
  next runs => exact absurd (runs.symm.trans rests) (by simp)
  next => rfl

/-! The instructions -/

/-- The command has not posted and its function is not being reset, and the instruction waits for no channel of its own yet. -/
structure NewTransfer (s : State) (cx : Nat) (x : Ctx) : Prop where
  fresh : x.posted = none
  settled : flrNow s x.func.toNat = false
  own : ownChan s cx x.pc = none

section
variable {i : Ins} {x : Ctx} {s : State} {write : Bool} (issues : Issues hostKind i x s)
  (word : (i.modIn 0 && i.noB && i.immIn (if write then 9 else 8)) = true)
include issues word

theorem exec_hostTransfer : exec (if write then .hwrite i else .hread i) s =
    .next (hostTransfer i write x (updCtx s i.cx (issue s))) := by
  cases write with
  | true => exact (show exec (.hwrite i) s = execHwrite i s from rfl).trans (issues.runIns word _)
  | false => exact (show exec (.hread i) s = execHread i s from rfl).trans (issues.runIns word _)

theorem hostTransfer_posted (posted : x.posted ≠ none) : Gives (if write then .hwrite i else .hread i) i x 9 s := by
  refine ⟨_, (exec_hostTransfer issues word).trans (congrArg _ ?_), (completeD_frame _ i 9).step ((updCtx_frame _ _ _).step
    (OnlyChanges.refl _ s)), issues.complete_ctxIs _ rfl fun c => setGreg c i.d.toNat 9⟩
  rw [hostTransfer, Option.isSome_iff_ne_none.2 posted, Bool.true_or, if_pos rfl]

variable (new_ : NewTransfer s i.cx x)
include new_

omit issues word in
theorem hostTransfer_new : hostTransfer i write x (updCtx s i.cx (issue s)) =
    let u := updCtx s i.cx (issue s)
    match operandOf s x write (i.ga x) i.imm.toNat with
    | some e => completeD (logErr (movRefused u (chooseMover s x.cluster)) 0x0C01 .movers { func := x.func.toNat }
        (chooseMover s x.cluster + 0xFF * 2 ^ 8 + e * 2 ^ 16)) i opErr
    | none => match freeChan s x.cluster (eclass x == .express) with
      | some (m, ch) => startChan (startWait u i.cx .mover) i.cx m ch write (i.ga x) i.imm.toNat i.d.toNat
      | none => awaitChan u i.cx write (i.ga x) i.imm.toNat i.d.toNat := by
  have none_ : ownChan (updCtx s i.cx (issue s)) i.cx x.pc = none := new_.own
  have ready : (x.posted.isSome || flrNow (updCtx s i.cx (issue s)) x.func.toNat) = false := by
    rw [new_.fresh]
    exact new_.settled
  rw [hostTransfer, ready, none_]
  rfl

theorem hostTransfer_refused {e : Nat} (bad : operandOf s x write (i.ga x) i.imm.toNat = some e) :
    Does (if write then .hwrite i else .hread i) [.ctxs, .movers, .errLog, .errSeq, .fresh] s fun t => t.errSeq = s.errSeq + 1 ∧
      CtxIs i.cx (setGreg { x with pc := x.pc + 1, budget := x.budget - 1 } i.d.toNat 0xFE) s t ∧
      t.errLog.head?.map LogEnt.code = some 0x0C01#16 := by
  let u := updCtx s i.cx (issue s)
  let m := chooseMover s x.cluster
  let v := logErr (movRefused u m) 0x0C01 .movers { func := x.func.toNat } (m + 0xFF * 2 ^ 8 + e * 2 ^ 16)
  have run := exec_hostTransfer issues word
  rw [hostTransfer_new new_, bad] at run
  have logged : OnlyChanges [.movers, .fresh, .errLog, .errSeq] u v :=
    (logErr_frame _ _ _ _ _).step ((movRefused_frame u m).step (OnlyChanges.refl _ u))
  have seq : (movRefused u m).errSeq = s.errSeq := movRefused_frame u m .errSeq (by decide)
  exact ⟨_, run, (completeD_frame _ i opErr).step (logged.step ((updCtx_frame _ _ _).step (OnlyChanges.refl _ s))),
    congrArg (· + 1) seq, issues.complete_ctxIs v (logged .ctxs (by decide)) fun c => setGreg c i.d.toNat 0xFE, rfl⟩

theorem hostTransfer_queues {m ch : Nat} {fn : Func} (good : operandOf s x write (i.ga x) i.imm.toNat = none)
    (free : freeChan s x.cluster (eclass x == .express) = some (m, ch)) (func : fnOf s x.func.toNat = some fn)
    (bme : fn.bme = true) (idle : runningOf (moverOf s m) = none) :
    Does (if write then .hwrite i else .hread i) [.ctxs, .engineFree, .seqCtr, .cache, .movers] s fun t =>
      (∃ y, t.ctxs.find i.cx = some y ∧ y.state = .waiting ∧ y.wait = .mover ∧ y.place = none ∧ y.pc = x.pc) ∧
      (moverOf t m).chans.find ch =
        some (newChan s x i.cx write (i.ga x) i.imm.toNat i.d.toNat (moverOf s m).nextSeq) := by
  let u := updCtx s i.cx (issue s)
  let v := startWait u i.cx .mover
  have left : OnlyChanges [.ctxs, .engineFree, .seqCtr] s v :=
    (startWait_frame _ _ _).step ((updCtx_frame _ _ _).step (OnlyChanges.refl _ s))
  obtain ⟨n, waits⟩ := issues.issued_ctxIs.startWait .mover
  let y : Ctx := { x with place := none, ran := n, state := .waiting, wait := .mover }
  have mover : moverOf v m = moverOf s m := moverOf_eq_of_frame left m
  have run := exec_hostTransfer issues word
  rw [hostTransfer_new new_, good] at run
  simp only [free] at run
  rw [startChan_queues (y := y) (fn := fn) waits.1 (by rw [fnOf_congr (left .funcs (by decide))]; exact func) bme
    (by rw [mover]; exact idle)] at run
  refine ⟨_, run, (queuedOn_frame _ _ _ _ _ _ _ _ _).step (left.step (OnlyChanges.refl _ s)), ⟨y, ?_, rfl, rfl, rfl, rfl⟩, ?_⟩
  · have opened : (openFrames v y write (i.ga x) i.imm.toNat).ctxs = v.ctxs := openFrames_frame v y write _ _ .ctxs (by decide)
    change ((openFrames v y write (i.ga x) i.imm.toNat).ctxs.upd i.cx fun c => { c with wait := .mover }).find i.cx = some y
    rw [Tab.find_upd_same, opened, waits.1]
    rfl
  · rw [moverOf_queuedOn, mover, newChan_congr (s := s) (c := x) (left .vols (by decide)) rfl]
    exact Tab.find_put_same _ _ _

end

/-- Settles O12: the outcomes of a transfer (R289, R290) for both directions, with the channel that is queued for it (R401, R406). -/
theorem engineHostTransfers : Obligations.EngineHostTransfers := by
  unfold Obligations.EngineHostTransfers
  intro i x s write issues word c w
  refine ⟨hostTransfer_posted issues word, fun fresh settled own => ⟨fun e bad => hostTransfer_refused issues word ⟨fresh, settled, own⟩ bad,
    fun m ch fn good free func bme idle => ?_⟩⟩
  obtain ⟨t, run, frame, waits, queued⟩ := hostTransfer_queues issues word ⟨fresh, settled, own⟩ good free func bme idle
  refine ⟨t, run, frame, waits, _, queued, rfl, rfl, rfl, rfl, rfl, ?_, ?_, rfl⟩
  · cases write <;> rfl
  · cases write <;> rfl

end Sys2Proof.Machine
end

section
/-! Member commands of a thread (R307 to R311, R360): room in a queue, the command sent, and the tickets that MWAIT reads. -/

namespace Sys2Proof.Machine

/-! Room in a member's queues at the issue of an instruction -/

theorem Tab.mem_of_put {α : Type} {t : Tab α} {k : Nat} (v : α) {p : Nat × α} (h : p ∈ t) :
    p ∈ t.put k v ∨ (p.1 = k ∧ t.find k = some p.2) := by
  induction t with
  | nil => cases h
  | cons q t ih =>
    obtain ⟨a, x⟩ := q
    unfold Tab.put
    split
    next => exact .inl (List.mem_cons_of_mem _ h)
    next above =>
      obtain rfl | later := List.mem_cons.1 h
      · split
        next same => exact .inr ⟨same.symm, by simp [Tab.find, same]⟩
        next => exact .inl List.mem_cons_self
      · split
        next same => exact .inl (List.mem_cons_of_mem _ later)
        next other =>
          refine (ih later).imp (List.mem_cons_of_mem _) fun both => ⟨both.1, ?_⟩
          rw [Tab.find, if_neg other, both.2]

theorem any_upd {α : Type} {t : Tab α} {k : Nat} {f : α → α} {P : Nat × α → Bool} (keeps : ∀ v, P (k, f v) = P (k, v)) :
    (t.upd k f).any P = t.any P := by
  rw [Bool.eq_iff_iff, List.any_eq_true, List.any_eq_true]
  constructor
  · rintro ⟨p, mem, holds_⟩
    obtain ⟨v, old, rfl⟩ | old := Tab.mem_upd mem
    · exact ⟨_, old, (keeps v).symm.trans holds_⟩
    · exact ⟨p, old, holds_⟩
  · rintro ⟨⟨j, w⟩, mem, holds_⟩
    unfold Tab.upd
    split
    next v found =>
      obtain kept | ⟨key, same⟩ := Tab.mem_of_put (k := k) (f v) mem
      · exact ⟨_, kept, holds_⟩
      · obtain rfl : j = k := key
        obtain rfl : v = w := Option.some.inj (found.symm.trans same)
        exact ⟨_, Tab.mem_of_find (Tab.find_put_same _ _ _), (keeps v).trans holds_⟩
    next => exact ⟨_, mem, holds_⟩

theorem queueRoom_issue (s : State) (cx port : Nat) (p : MPort) (cl : Cls) (cluster : Nat) :
    queueRoom (updCtx s cx (issue s)) port p cl cluster = queueRoom s port p cl cluster := by
  have floor : floorDue (updCtx s cx (issue s)) port = floorDue s port :=
    congrArg (decide (0 < s.adm.deficit.getD port 0) && ·) (any_upd fun _ => rfl)
  have higher : higherWaits (updCtx s cx (issue s)) port cl = higherWaits s port cl := any_upd fun _ => rfl
  simp only [queueRoom, floor, higher]
  rfl

/-! The command that a thread sends -/

theorem sendMem_sends {s : State} {port : Nat} {p : MPort} (here : s.mports.find port = some p) (m : MemCmd) (zeroes : Bool) :
    let t := sendMem s port m zeroes
    t.out.head? = some (.memCmd port p.nextCid m.op m.lba m.count zeroes (zeroes && p.zerosDealloc)) ∧
    ∃ q, t.mports.find port = some q ∧ q.nextCid = p.nextCid + 1 ∧ q.cmds.find p.nextCid = some m := by
  have echoed : (echoFirst s m).mports = s.mports := echoFirst_frame s m .mports (by decide)
  have awake : ∀ u : State, (if p.lowPower then emit u (.memPower port false) else u).mports = u.mports := fun u => by
    split <;> rfl
  have found : (echoFirst s m).mports.find port = some p := echoed ▸ here
  simp only [sendMem, found]
  refine ⟨rfl, p.registered m, ?_, rfl, Tab.find_put_same _ _ _⟩
  rw [emit_mports, updMport_mports, Tab.find_upd_same, awake, found]
  rfl

/-- A command under no record echoes nothing. -/
theorem sendMem_frame_plain (s : State) (port : Nat) {m : MemCmd} (zeroes : Bool) (free : m.jrec = none) :
    OnlyChanges [.mports, .out] s (sendMem s port m zeroes) := by
  have quiet : echoFirst s m = s := by rw [echoFirst, free]; rfl
  simp only [sendMem, quiet]
  split
  next => exact OnlyChanges.refl _ s
  next => exact (emit_frame _ _).step ((updMport_frame _ _ _).step (OnlyChanges.ite1 ((emit_frame _ _).step (OnlyChanges.refl _ s))
    (OnlyChanges.refl _ s)))

/-! Tickets -/

theorem Tab.mapVal_id {α : Type} (t : Tab α) {f : Nat → α → α} (keeps : ∀ k x, f k x = x) : t.mapVal f = t :=
  (List.map_congr_left (g := id) fun p _ => congrArg (Prod.mk p.1) (keeps p.1 p.2)).trans (List.map_id t)

theorem reportTickets_nil (c : Ctx) : reportTickets c [] = c := by
  rw [reportTickets, Tab.mapVal_id]
  intro t x
  cases x <;> rfl

theorem waitValue_nil (c : Ctx) : waitValue c [] = 0 := by
  simp [waitValue, ticketBits]

theorem mem_ticketsIn {c : Ctx} {rw : Word} {k : Nat} :
    k ∈ ticketsIn c (rw.truncate 32) ↔ k < 32 ∧ rw.getLsbD k = true ∧ ticketBusy c k = true := by
  simp only [ticketsIn, List.mem_filter, List.mem_range, Bool.and_eq_true, BitVec.truncate_eq_setWidth, BitVec.getLsbD_setWidth,
    decide_eq_true_eq]
  tauto

theorem ticketBusy_of_runs {c : Ctx} {k : Nat} (runs : ticketRuns c k = true) : ticketBusy c k = true := by
  rw [ticketRuns, beq_iff_eq] at runs
  rw [ticketBusy, runs]

/-- An MWAIT of tickets that have all been reported is over at once. -/
theorem waitResult_idle {c : Ctx} {rw : Word} (idle : ∀ k < 32, rw.getLsbD k = true → ticketBusy c k = false) (any : Bool) :
    waitResult c (rw.truncate 32) any = some [] := by
  have none_ : ticketsIn c (rw.truncate 32) = [] := by
    refine List.eq_nil_iff_forall_not_mem.2 fun k mem => ?_
    obtain ⟨below, named, busy⟩ := mem_ticketsIn.1 mem
    exact absurd (busy.symm.trans (idle k below named)) (by decide)
  rw [waitResult, none_]
  rfl

/-- An MWAIT ALL with a ticket that still runs waits. -/
theorem waitResult_running {c : Ctx} {rw : Word} {k : Nat} (below : k < 32) (named : rw.getLsbD k = true)
    (runs : ticketRuns c k = true) : waitResult c (rw.truncate 32) false = none := by
  have mem : k ∈ ticketsIn c (rw.truncate 32) := mem_ticketsIn.2 ⟨below, named, ticketBusy_of_runs runs⟩
  have some_ : (ticketsIn c (rw.truncate 32)).isEmpty = false := List.isEmpty_eq_false_iff.2 (List.ne_nil_of_mem mem)
  have fewer : (endedOf c (ticketsIn c (rw.truncate 32))).length ≠ (ticketsIn c (rw.truncate 32)).length := by
    rw [endedOf, Ne, List.length_filter_eq_length_iff]
    intro all
    have ended := all k mem
    rw [runs] at ended
    exact absurd ended (by decide)
  simp only [waitResult, some_, fewer, Bool.false_eq_true, if_false]

end Sys2Proof.Machine
end

section
/-! MREAD, MWRITE and MWAIT (R307 to R311). -/

namespace Sys2Proof.Machine

section
variable (s : State) (k : Nat) (f : Ctx → Ctx)

@[simp] theorem ctxGroupNo_updCtx (c : Ctx) : ctxGroupNo (updCtx s k f) c = ctxGroupNo s c := rfl
@[simp] theorem ctxGroup_updCtx (c : Ctx) : ctxGroup (updCtx s k f) c = ctxGroup s c := rfl
@[simp] theorem memberPort_updCtx (g : Group) (index : Nat) : memberPort (updCtx s k f) g index = memberPort s g index := rfl
@[simp] theorem interlock_updCtx (cx : Nat) (c : Ctx) (p : MPort) (gno stripe index lba n pos : Nat) :
    interlock (updCtx s k f) cx c p gno stripe index lba n pos = interlock s cx c p gno stripe index lba n pos := rfl

end

/-- The group of the thread has a member of the index, at a port. -/
structure NamesMember (s : State) (x : Ctx) (index : Nat) (g : Group) (port : Nat) (p : MPort) : Prop where
  group : ctxGroup s x = some g
  member : portOfMember g index = some port
  here : memberPort s g index = some p

section
variable {i : Ins} {x : Ctx} {s : State} (issues : Issues notMap i x s)
include issues

/-! MREAD -/

section
variable (word : (i.modIn 0 && i.immIn 5) = true) {g : Group} {port : Nat} {p : MPort}
  (names : NamesMember s x (rwIndex (i.ga x)) g port p)

/-- What MREAD does of a member with a port, by the refusals of R308 in their order. -/
def mreadOf (i : Ins) (x : Ctx) (g : Group) (port : Nat) (p : MPort) (s : State) : State :=
  let mw := i.gb x
  let n := wCount mw
  let t := rwTicket (i.ga x)
  if readFailed g p (wLba mw) then completeD s i 1
  else if i.imm.getLsbD 4 && p.inPoss then completeD s i 2
  else if ticketBusy x t then completeD s i 3
  else if p.blocks < wLba mw + n then completeD s i 4
  else
    match framesAt (handleOf x (i.immBits 0 4)) (wPos mw) n with
    | none => completeD s i 5
    | some frs =>
      if frs.any fun fr => (frameOf s fr).rdonly then completeD s i 5
      else
        let cl := eclass x
        if !queueRoom s port p cl x.cluster then startWait s i.cx (.memQueue port)
        else
          let s := frs.foldl (fun s fr => updFrame (pinFrame s fr) fr fun x => { x with prot := false }) s
          let m : MemCmd :=
            { op := .read, ctx := some i.cx, ticket := t, lba := wLba mw, count := n, frames := frs,
              issued := now s, due := after s (memTimeout s p cl false), express := cl == .express,
              determ := !p.inPoss && !p.stray, jrec := none, queue := memQueue p cl x.cluster }
          complete (countUnits (sendMem s port m false) port cl n) i.cx fun c => openTicket (setGreg c i.d.toNat 0) t

include word names

theorem exec_mread : exec (.mread i) s = .next (mreadOf i x g port p (updCtx s i.cx (issue s))) := by
  refine (show exec (.mread i) s = execMread i s from rfl).trans ((issues.runIns word _).trans (congrArg _ ?_))
  simp only [ctxGroup_updCtx, names.group, names.member, memberPort_updCtx, names.here]
  rfl

theorem mread_gives {v : Word} (value : mreadOf i x g port p (updCtx s i.cx (issue s)) = completeD (updCtx s i.cx (issue s)) i v) :
    Gives (.mread i) i x v s :=
  ⟨_, (exec_mread issues word names).trans (congrArg _ value), (completeD_frame _ i v).step ((updCtx_frame _ _ _).step
    (OnlyChanges.refl _ s)), issues.complete_ctxIs _ rfl fun c => setGreg c i.d.toNat v⟩

theorem mread_failed (failed : readFailed g p (wLba (i.gb x)) = true) : Gives (.mread i) i x 1 s := by
  refine mread_gives issues word names ?_
  simp only [mreadOf, failed, if_true]

variable (readable : readFailed g p (wLba (i.gb x)) = false)
include readable

theorem mread_inPoss (avoid : i.imm.getLsbD 4 = true) (inPoss : p.inPoss = true) : Gives (.mread i) i x 2 s := by
  refine mread_gives issues word names ?_
  simp only [mreadOf, readable, avoid, inPoss, Bool.and_self, Bool.false_eq_true, if_false, if_true]

variable (taken : i.imm.getLsbD 4 = false ∨ p.inPoss = false)
include taken

omit issues word names readable in
theorem mread_taken : (i.imm.getLsbD 4 && p.inPoss) = false := by
  obtain any | free := taken
  · rw [any, Bool.false_and]
  · rw [free, Bool.and_false]

theorem mread_busy (busy : ticketBusy x (rwTicket (i.ga x)) = true) : Gives (.mread i) i x 3 s := by
  refine mread_gives issues word names ?_
  simp only [mreadOf, readable, mread_taken taken, busy, Bool.false_eq_true, if_false, if_true]

variable (idle : ticketBusy x (rwTicket (i.ga x)) = false)
include idle

theorem mread_beyond (beyond : p.blocks < wLba (i.gb x) + wCount (i.gb x)) : Gives (.mread i) i x 4 s := by
  refine mread_gives issues word names ?_
  simp only [mreadOf, readable, mread_taken taken, idle, beyond, Bool.false_eq_true, if_false, if_true]

theorem mread_sends {frs : List Nat} (found : s.mports.find port = some p) (inside : wLba (i.gb x) + wCount (i.gb x) ≤ p.blocks)
    (frames : framesAt (handleOf x (i.imm.toNat % 16)) (wPos (i.gb x)) (wCount (i.gb x)) = some frs)
    (writable : ∀ fr ∈ frs, (frameOf s fr).rdonly = false) (room : queueRoom s port p (eclass x) x.cluster = true) :
    Does (.mread i) [.ctxs, .cache, .mports, .adm, .out] s fun t =>
      CtxIs i.cx (openTicket (setGreg { x with pc := x.pc + 1, budget := x.budget - 1 } i.d.toNat 0) (rwTicket (i.ga x))) s t ∧
      t.out.head? = some (.memCmd port p.nextCid .read (wLba (i.gb x)) (wCount (i.gb x)) false false) ∧
      ∃ q c, t.mports.find port = some q ∧ q.nextCid = p.nextCid + 1 ∧ q.cmds.find p.nextCid = some c ∧
        c.op = .read ∧ c.ticket = rwTicket (i.ga x) ∧ c.ctx = some i.cx ∧ c.frames = frs ∧ c.issued = now s := by
  let u := updCtx s i.cx (issue s)
  let v := frs.foldl (fun s fr => updFrame (pinFrame s fr) fr fun x => { x with prot := false }) u
  let m : MemCmd :=
    { op := .read, ctx := some i.cx, ticket := rwTicket (i.ga x), lba := wLba (i.gb x), count := wCount (i.gb x), frames := frs,
      issued := now v, due := after v (memTimeout v p (eclass x) false), express := eclass x == .express,
      determ := !p.inPoss && !p.stray, jrec := none, queue := memQueue p (eclass x) x.cluster }
  let w := countUnits (sendMem v port m false) port (eclass x) (wCount (i.gb x))
  have run : exec (.mread i) s = .next (complete w i.cx fun c => openTicket (setGreg c i.d.toNat 0) (rwTicket (i.ga x))) := by
    refine (exec_mread issues word names).trans (congrArg _ ?_)
    have handle : i.immBits 0 4 = i.imm.toNat % 16 := fieldOf_zero _ _
    have open_ : (frs.any fun fr => (frameOf s fr).rdonly) = false := by
      simpa [List.any_eq_false] using writable
    simp only [mreadOf, readable, mread_taken taken, idle, Nat.not_lt.2 inside, handle, frames, frameOf_updCtx, open_, queueRoom_issue,
      room, Bool.not_true, Bool.false_eq_true, if_false]
    rfl
  have opened : OnlyChanges [.cache] u v := OnlyChanges.foldl
    (fun t fr kept => (updFrame_frame _ _ _).step ((pinFrame_frame t fr).step kept)) (OnlyChanges.refl _ u)
  have sent : OnlyChanges [.cache, .mports, .out, .adm] u w := (countUnits_frame _ _ _ _).step
    ((sendMem_frame_plain v port false rfl).step (opened.step (OnlyChanges.refl _ u)))
  have found_ : v.mports.find port = some p := (congrArg (Tab.find · port) (opened .mports (by decide))).trans found
  obtain ⟨out, q, mports, cid, registered⟩ := sendMem_sends found_ m false
  exact ⟨_, run, (complete_frame _ _ _).step (sent.step ((updCtx_frame _ _ _).step (OnlyChanges.refl _ s))),
    issues.complete_ctxIs w (sent .ctxs (by decide)) fun c => openTicket (setGreg c i.d.toNat 0) (rwTicket (i.ga x)), out,
    q, m, mports, cid, registered, rfl, rfl, rfl, rfl, now_eq_of_frame (s := u) opened⟩

end

/-! MWRITE -/

/-- A write's entry counts it (R311). -/
def countWriting (s : State) (index : Nat) (ri : Option Nat) : State :=
  match ri with
  | some r => updRec s r fun r => { r with entries := r.entries.map fun e =>
      if e.index = index then { e with writing := e.writing + 1 } else e }
  | none => s

omit issues in
theorem countWriting_frame (s : State) (index : Nat) (ri : Option Nat) : OnlyChanges [.journal] s (countWriting s index ri) := by
  cases ri with
  | none => exact OnlyChanges.refl _ s
  | some r => exact updRec_frame _ _ _

theorem mwrite_sends (word : (i.modIn 0 && i.imm == 0) = true) {gno port : Nat} {ri : Option Nat} {g : Group} {p : MPort} {frs : List Nat}
    (number : ctxGroupNo s x = some gno) (names : NamesMember s x (rwIndex (i.ga x)) g port p) (found : s.mports.find port = some p) (mine : p.group = some gno)
    (takes : judged p.state = true)
    (admitted : interlock s i.cx x p gno (i.gd x).toNat (rwIndex (i.ga x)) (wLba (i.gb x)) (wCount (i.gb x)) (wPos (i.gb x)) =
      .ok (frs, ri))
    (idle : ticketRuns x (rwTicket (i.ga x)) = false) (room : queueRoom s port p (eclass x) x.cluster = true) :
    Does (.mwrite i) [.ctxs, .cache, .journal, .groups, .mports, .adm, .out] s fun t =>
      CtxIs i.cx (openTicket { x with pc := x.pc + 1, budget := x.budget - 1 } (rwTicket (i.ga x))) s t ∧
      (let zeroes := frs.all fun fr => (frameOf s fr).zfill
       t.out.head? = some (.memCmd port p.nextCid .write (wLba (i.gb x)) (wCount (i.gb x)) zeroes (zeroes && p.zerosDealloc))) ∧
      ∃ q c, t.mports.find port = some q ∧ q.nextCid = p.nextCid + 1 ∧ q.cmds.find p.nextCid = some c ∧
        c.op = .write ∧ c.ticket = rwTicket (i.ga x) ∧ c.ctx = some i.cx ∧ c.frames = frs := by
  let u := updCtx s i.cx (issue s)
  let v := countWriting (frs.foldl pinFrame u) (rwIndex (i.ga x)) ri
  let zeroes := frs.all fun fr => (frameOf s fr).zfill
  let m : MemCmd :=
    { op := .write, ctx := some i.cx, ticket := rwTicket (i.ga x), lba := wLba (i.gb x), count := wCount (i.gb x), frames := frs,
      issued := now v, due := after v (memTimeout v p (eclass x) true), express := eclass x == .express, determ := false,
      jrec := ri.map fun r => (r, rwIndex (i.ga x)), queue := memQueue p (eclass x) x.cluster }
  let w := countUnits (sendMem v port m zeroes) port (eclass x) (wCount (i.gb x))
  have run : exec (.mwrite i) s = .next (complete w i.cx fun c => openTicket c (rwTicket (i.ga x))) := by
    refine (show exec (.mwrite i) s = execMwrite i s from rfl).trans ((issues.runIns word _).trans (congrArg _ ?_))
    simp only [ctxGroupNo_updCtx, number, ctxGroup_updCtx, names.group, names.member, memberPort_updCtx, names.here, Option.getD_some,
      interlock_updCtx, admitted, idle, takes, mine, BEq.rfl, queueRoom_issue, room,
      frameOf_updCtx, Bool.and_self, Bool.not_true, Bool.false_and, Bool.false_eq_true, if_false]
    rfl
  have counted : OnlyChanges [.cache, .journal] u v := (countWriting_frame _ _ _).step
    (OnlyChanges.foldl (fun t fr kept => (pinFrame_frame t fr).step kept) (OnlyChanges.refl _ u))
  have sent : OnlyChanges [.cache, .journal, .adm, .groups, .mports, .out] u w := (countUnits_frame _ _ _ _).step
    ((sendMem_frame v port m zeroes).step (counted.step (OnlyChanges.refl _ u)))
  have found_ : v.mports.find port = some p := (congrArg (Tab.find · port) (counted .mports (by decide))).trans found
  obtain ⟨out, q, mports, cid, registered⟩ := sendMem_sends found_ m zeroes
  exact ⟨_, run, (complete_frame _ _ _).step (sent.step ((updCtx_frame _ _ _).step (OnlyChanges.refl _ s))),
    issues.complete_ctxIs w (sent .ctxs (by decide)) fun c => openTicket c (rwTicket (i.ga x)), out,
    q, m, mports, cid, registered, rfl, rfl, rfl, rfl⟩

/-! MWAIT -/

section
variable (word : (i.modIn 0x1E0#9 && i.noB && i.imm == 0) = true)
include word

omit issues in
theorem mwait_word (form : i.cond < 3) : (i.modIn 0x1E0#9 && i.noB && i.imm == 0 && decide (i.cond < 3)) = true := by
  rw [word, decide_eq_true form]
  rfl

theorem mwait_reported (query : i.cond = 2) {e : Nat} (last : x.tickets.find ((i.ga x).toNat % 32) = some (.reported e)) :
    Gives (.mwait i) i x (BitVec.ofNat 64 e) s := by
  refine issues.gives (mwait_word word (by omega)) (show exec (.mwait i) s = execMwait i s from rfl) ?_
  simp only [query, if_true, last]

theorem mwait_busy (query : i.cond = 2) (busy : ticketBusy x ((i.ga x).toNat % 32) = true) : Gives (.mwait i) i x 0xFF s := by
  refine issues.gives (mwait_word word (by omega)) (show exec (.mwait i) s = execMwait i s from rfl) ?_
  simp only [query, if_true]
  unfold ticketBusy at busy
  split at busy
  next found => rw [found]
  next found => rw [found]
  next => cases busy

theorem mwait_idle (waits : i.cond < 2) (idle : ∀ k < 32, (i.ga x).getLsbD k = true → ticketBusy x k = false) :
    Gives (.mwait i) i x 0 s := by
  refine issues.gives (mwait_word word (by omega)) (show exec (.mwait i) s = execMwait i s from rfl) ?_
  simp only [Nat.ne_of_lt waits, if_false, waitResult_idle idle, reportTickets_nil, waitValue_nil]
  rfl

theorem mwait_waits (all : i.cond = 0) {k : Nat} (below : k < 32) (named : (i.ga x).getLsbD k = true)
    (runs : ticketRuns x k = true) :
    Does (.mwait i) [.ctxs, .engineFree, .seqCtr] s fun t => ∃ y, CtxIs i.cx y s t ∧ y.state = .waiting ∧
      y.wait = .tickets ((i.ga x).truncate 32) false i.d.toNat ∧ y.place = none ∧ y.pc = x.pc := by
  let u := updCtx s i.cx (issue s)
  have run : exec (.mwait i) s = .next (startWait u i.cx (.tickets ((i.ga x).truncate 32) false i.d.toNat)) := by
    refine (show exec (.mwait i) s = execMwait i s from rfl).trans ((issues.runIns (mwait_word word (by omega)) _).trans
      (congrArg _ ?_))
    simp only [all, OfNat.zero_ne_ofNat, if_false, Nat.reduceBEq, waitResult_running below named runs]
    rfl
  obtain ⟨n, out⟩ := issues.issued_ctxIs.startWait (.tickets ((i.ga x).truncate 32) false i.d.toNat)
  exact ⟨_, run, (startWait_frame _ _ _).step ((updCtx_frame _ _ _).step (OnlyChanges.refl _ s)), _, out, rfl, rfl, rfl, rfl⟩

end

end

/-- Settles O16: MREAD and MWRITE by the refusals of R308 and the interlocking (R311), MWAIT by the tickets of its mask (R307). -/
theorem engineMemberInstructions : Obligations.EngineMemberInstructions := by
  unfold Obligations.EngineMemberInstructions
  intro i x s issues rw mw n t
  refine ⟨fun gno g port p number group member here found => ?members,
    fun word => ⟨fun query e last => mwait_reported issues word query last, fun query busy => mwait_busy issues word query busy,
      fun waits idle => mwait_idle issues word waits idle,
      fun all ⟨k, below, named, runs⟩ => mwait_waits issues word all below named runs⟩⟩
  case members =>
    have names : NamesMember s x (rwIndex (i.ga x)) g port p := ⟨group, member, here⟩
    exact ⟨fun word => ⟨fun failed => mread_failed issues word names failed,
        fun readable avoid inPoss => mread_inPoss issues word names readable avoid inPoss,
        fun readable taken => ⟨fun busy => mread_busy issues word names readable taken busy,
          fun idle beyond => mread_beyond issues word names readable taken idle beyond,
          fun frs idle inside frames writable room =>
            mread_sends issues word names readable taken idle found inside frames writable room⟩⟩,
      fun word mine takes frs ri admitted idle room => mwrite_sends issues word number names found mine takes admitted idle room⟩

end Sys2Proof.Machine
end

section
/-! Frames byte by byte (R211 to R220, R312, R313): the bytes of a frame that is computed from others, and the first difference
of two. -/

namespace Sys2Proof.Machine

/-! Memories that are tabulated -/

theorem read_tabulate (f : Nat → Byte) (os : List Nat) (o : Nat) : (Memory.tabulate f os).read o = if o ∈ os then f o else 0 := by
  induction os with
  | nil => rfl
  | cons a os ih =>
    rw [Memory.tabulate]
    by_cases same : o = a
    · subst same
      rw [Memory.read_write_same (Memory.wf_tabulate f os), if_pos List.mem_cons_self]
    · rw [Memory.read_write_other _ _ same, ih]
      simp only [List.mem_cons, same, false_or]

/-- A memory that reads as zero where nothing is listed reads as zero at an offset that is not listed. -/
theorem read_unlisted {m : Memory} {o : Nat} (zero : m.fill = none) (out : o ∉ m.cells.map Prod.fst) : m.read o = 0 := by
  have none_ : Tab.find m.cells o = none := by
    cases found : Tab.find m.cells o with
    | none => rfl
    | some v => exact absurd (List.mem_map_of_mem (Tab.mem_of_find found)) out
  rw [Memory.read, Tab.getD, none_, Option.getD_none, Memory.unlisted, zero]

theorem lt_of_mem_support {size o : Nat} {srcs : List Memory} (mem : o ∈ Memory.support size srcs) : o < size := by
  unfold Memory.support at mem
  split at mem
  next => simpa using (List.mem_filter.1 mem).2
  next => exact List.mem_range.1 mem

theorem read_out_of_support {size o : Nat} {srcs : List Memory} (below : o < size) (out : o ∉ Memory.support size srcs) :
    ∀ m ∈ srcs, m.read o = 0 := by
  intro m mem
  unfold Memory.support at out
  split at out
  next zeros =>
    rw [List.all_eq_true] at zeros
    refine read_unlisted (Option.isNone_iff_eq_none.1 (zeros m mem)) fun listed => out ?_
    rw [List.mem_filter, List.mem_eraseDups]
    refine ⟨?_, decide_eq_true below⟩
    simpa using ⟨m, mem, by simpa using listed⟩
  next => exact absurd (List.mem_range.2 below) out

theorem read_mapFrames {f : List Byte → Byte} {srcs : List Memory} (zeros : f (srcs.map fun _ => 0) = 0) {o : Nat} (below : o < 4096) :
    (mapFrames f srcs).read o = f (srcs.map fun m => m.read o) := by
  rw [mapFrames, read_tabulate]
  split
  next => rfl
  next out =>
    have all : srcs.map (fun m => m.read o) = srcs.map fun _ => 0 :=
      List.map_congr_left (read_out_of_support (size := 4096) below out)
    rw [all, zeros]

/-! Sums, products and weighted sums of frames -/

theorem gmul_zero (c : Byte) : gmul c 0 = 0 := by rw [gmul_comm, zero_gmul]

theorem xorAll_zeros {α : Type} (l : List α) : xorAll (l.map fun _ => (0 : Byte)) = 0 := by
  induction l with
  | nil => rfl
  | cons a l ih => rw [List.map_cons, xorAll_cons, ih]; rfl

theorem xorAll_map {α : Type} (l : List α) (f : α → Byte) : xorAll (l.map f) = l.foldl (fun r a => r ^^^ f a) 0 := by
  rw [xorAll, List.foldl_map]

theorem weighted_map (js : List Nat) (f : Nat → Byte) :
    weighted (js.map fun j => (j, f j)) = js.foldl (fun r j => r ^^^ gmul (gpow j) (f j)) 0 := by
  rw [weighted, List.foldl_map]

section
variable {o : Nat} (below : o < 4096)
include below

theorem read_xorFrames (srcs : List Memory) : (xorFrames srcs).read o = xorAll (srcs.map fun m => m.read o) :=
  read_mapFrames (xorAll_zeros srcs) below

theorem read_scaleFrame (c : Byte) (m : Memory) : (scaleFrame c m).read o = gmul c (m.read o) := by
  have sum : ∀ b, xorAll [b] = b := fun b => (xorAll_cons b []).trans BitVec.xor_zero
  rw [scaleFrame, read_mapFrames (by rw [xorAll_zeros, gmul_zero]) below, List.map_singleton, sum]

theorem read_weightedFrames (js : List Nat) (d : Nat → Memory) :
    (weightedFrames (js.map fun j => (j, d j))).read o = js.foldl (fun r j => r ^^^ gmul (gpow j) ((d j).read o)) 0 := by
  have keys : (js.map fun j => (j, d j)).map Prod.fst = js.map id := by rw [List.map_map]; rfl
  have values : (js.map fun j => (j, d j)).map Prod.snd = js.map d := by rw [List.map_map]; rfl
  have pairs : ∀ g : Memory → Byte, (js.map id).zip ((js.map d).map g) = js.map fun j => (j, g (d j)) := fun g => by
    rw [List.map_map, List.zip_map']
    rfl
  rw [weightedFrames, keys, values, read_mapFrames _ below, pairs, weighted_map]
  rw [pairs, weighted_eq, List.map_map]
  refine Eq.trans (congrArg xorAll (List.map_congr_left fun j _ => ?_)) (xorAll_zeros js)
  simp only [Function.comp, qTerm, gmul_zero]

end

/-! The first difference -/

/-- The least of a list that goes into `firstDiff`. -/
theorem foldl_min {o : Nat} (l : List Nat) : ∀ init : Option Nat, (o ∈ l ∨ init = some o) → (∀ y ∈ l, o ≤ y) →
    (∀ y, init = some y → o ≤ y) →
    l.foldl (fun r o => match r with
      | none => some o
      | some x => some (min x o)) init = some o := by
  induction l with
  | nil => exact fun init here _ _ => here.resolve_left List.not_mem_nil
  | cons a l ih =>
    intro init here least small
    have above : o ≤ a := least a List.mem_cons_self
    have rest : ∀ y ∈ l, o ≤ y := fun y mem => least y (List.mem_cons_of_mem _ mem)
    rw [List.foldl_cons]
    cases init with
    | none =>
      refine ih _ ?_ rest fun y same => Option.some.inj same ▸ above
      obtain mem | ⟨⟨⟩⟩ := here
      exact (List.mem_cons.1 mem).symm.imp_right fun same => congrArg some same.symm
    | some x =>
      have below : o ≤ x := small x rfl
      refine ih _ ?_ rest fun y same => Option.some.inj same ▸ le_min below above
      obtain mem | same := here
      · refine (List.mem_cons.1 mem).symm.imp_right ?_
        rintro rfl
        exact congrArg some (Nat.min_eq_right below)
      · obtain rfl : x = o := Option.some.inj same
        exact .inr (congrArg some (Nat.min_eq_left above))

theorem firstDiff_none {a b : Memory} (same : ∀ o < 4096, a.read o = b.read o) : firstDiff a b = none := by
  have empty : ((Memory.support Config.blockBytes [a, b]).filter fun o => a.read o != b.read o) = [] := by
    refine List.filter_eq_nil_iff.2 fun o mem => ?_
    simp [same o (lt_of_mem_support mem)]
  rw [firstDiff, empty]
  rfl

theorem firstDiff_some {a b : Memory} {o : Nat} (below : o < 4096) (differ : a.read o ≠ b.read o)
    (first : ∀ k < o, a.read k = b.read k) : firstDiff a b = some o := by
  refine foldl_min _ none (.inl (List.mem_filter.2 ⟨?_, by simpa using differ⟩)) (fun y mem => ?_) nofun
  · by_contra out
    have zeros := read_out_of_support (size := 4096) below out
    exact differ ((zeros a (by simp)).trans (zeros b (by simp)).symm)
  · by_contra lower
    have equal := first y (by omega)
    simp [equal] at mem

end Sys2Proof.Machine
end

section
/-! A vector instruction over one block column (R312 to R315): the lanes that it writes, and the frames that it leaves. -/

namespace Sys2Proof.Machine

/-! The frames of a list, marked or written -/

theorem updFrame_find_same {s : State} {fr : Nat} (g : Frame → Frame) :
    (updFrame s fr g).cache.frames.find fr = (s.cache.frames.find fr).map g := Tab.find_upd_same _ _ _

theorem updFrame_find_other (s : State) {fr k : Nat} (g : Frame → Frame) (other : k ≠ fr) :
    (updFrame s fr g).cache.frames.find k = s.cache.frames.find k := Tab.find_upd_other _ _ other

theorem laneFrames_one (h : Handle) {v : Vec} (one : v.len = 1) (js : List Nat) :
    laneFrames h v js = js.map fun j => h.at_ (v.pos j 0) := by
  rw [laneFrames, one]
  induction js with
  | nil => rfl
  | cons j js ih => exact congrArg (h.at_ (v.pos j 0) :: ·) ih

/-- The marks of the destinations are put on their frames and on no other. -/
theorem markDsts_find (s : State) (h : Handle) {v : Vec} (one : v.len = 1) (js : List Nat) (p : Bool) (fr : Nat) :
    (markDsts s h v js p).cache.frames.find fr =
      if ∃ j ∈ js, h.at_ (v.pos j 0) = some fr then (s.cache.frames.find fr).map fun f => { f with prot := p }
      else s.cache.frames.find fr := by
  rw [markDsts, laneFrames_one h one]
  induction js generalizing s with
  | nil => simp
  | cons j js ih =>
    rw [List.map_cons, List.foldl_cons, ih]
    cases at_ : h.at_ (v.pos j 0) with
    | none => simp [at_]
    | some k =>
      by_cases same : fr = k
      · subst same
        simp only [updFrame_find_same, List.exists_mem_cons_iff, at_, true_or, if_true]
        split
        next => rw [Option.map_map]; rfl
        next => rfl
      · simp only [updFrame_find_other _ _ same, List.exists_mem_cons_iff, at_, Option.some.injEq, Ne.symm same, false_or]

/-- What a column's write leaves in a frame (R312, R315). -/
def writtenFrame (m : Memory) (z : Bool) (f : Frame) : Frame := { f with data := m, zfill := z, badLines := [], uncorr := false }

theorem writeColumn_cons (s : State) (h : Handle) (v : Vec) (k : Nat) (z : Bool) (j : Nat) (m : Memory) (l : List (Nat × Memory)) :
    writeColumn s h v k z ((j, m) :: l) = writeColumn (match h.at_ (v.pos j k) with
      | none => s
      | some fr => updFrame s fr (writtenFrame m z)) h v k z l := rfl

theorem writeColumn_find_other {h : Handle} {v : Vec} {k fr : Nat} (z : Bool) {l : List (Nat × Memory)} :
    ∀ {s : State}, (∀ a ∈ l, h.at_ (v.pos a.1 k) ≠ some fr) →
      (writeColumn s h v k z l).cache.frames.find fr = s.cache.frames.find fr := by
  induction l with
  | nil => exact fun _ => rfl
  | cons a l ih =>
    obtain ⟨j, m⟩ := a
    intro s out
    rw [writeColumn_cons, ih fun b mem => out b (List.mem_cons_of_mem _ mem)]
    cases at_ : h.at_ (v.pos j k) with
    | none => rfl
    | some n => exact updFrame_find_other _ _ fun same => out (j, m) List.mem_cons_self (by rw [at_, same])

/-- A column's results go into the frames at its positions, which are all different. -/
theorem writeColumn_find {h : Handle} {v : Vec} {k : Nat} (z : Bool) {j fr : Nat} {m : Memory} {f : Frame}
    (at_ : h.at_ (v.pos j k) = some fr) {l : List (Nat × Memory)} :
    ∀ {s : State}, l.Pairwise (fun a b => h.at_ (v.pos a.1 k) ≠ h.at_ (v.pos b.1 k)) → (j, m) ∈ l →
      s.cache.frames.find fr = some f → (writeColumn s h v k z l).cache.frames.find fr = some (writtenFrame m z f) := by
  induction l with
  | nil => exact fun _ mem => absurd mem List.not_mem_nil
  | cons a l ih =>
    intro s apart mem here
    obtain ⟨first, rest⟩ := List.pairwise_cons.1 apart
    obtain rfl | later := List.mem_cons.1 mem
    · rw [writeColumn_cons, writeColumn_find_other z fun b listed same => first b listed (at_.trans same.symm), at_]
      dsimp only
      rw [updFrame_find_same, here]
      rfl
    · obtain ⟨i, n⟩ := a
      rw [writeColumn_cons]
      refine ih rest later ?_
      cases other : h.at_ (v.pos i k) with
      | none => exact here
      | some w =>
        refine (updFrame_find_other _ _ fun same => first (j, m) later ?_).trans here
        dsimp only
        rw [at_, other, same]

/-! One block column -/

/-- The lane of a destination holds a frame that is protected and has the content. -/
def LaneHolds (v : Vec) (dst : Handle) (j : Nat) (m : Memory) (t : State) : Prop :=
  ∃ fr y, dst.at_ (v.pos j 0) = some fr ∧ t.cache.frames.find fr = some y ∧ y.prot = true ∧ y.data = m

theorem LaneHolds.laneIs {v : Vec} {dst : Handle} {j : Nat} {m : Memory} {t : State} {f : Nat → Byte} (holds_ : LaneHolds v dst j m t)
    (bytes : ∀ o < 4096, m.read o = f o) : LaneIs v dst j f t := by
  obtain ⟨fr, y, at_, here, prot, rfl⟩ := holds_
  exact ⟨fr, y, at_, here, prot, bytes⟩

section
variable {s : State} {v : Vec} {src dst : Handle}

theorem frameOf_of_find {fr : Nat} {f : Frame} (here : s.cache.frames.find fr = some f) : frameOf s fr = f := by
  rw [frameOf, Tab.getD, here]
  rfl

/-- A list of lanes that fits is not refused. -/
theorem vecOk_of_fits {op : VecOp} (fits : VecFits s v src dst op.srcs op.dsts) (limit : op.limitOk = true) :
    vecOk s v src dst op = true := by
  obtain ⟨one, stride, few, inside, -, held, -⟩ := fits
  simp only [vecOk, Bool.and_eq_true, limit, laneFrames_one _ one, decide_eq_true_eq, List.all_eq_true, one, and_true]
  refine ⟨⟨⟨fun j mem => decide_eq_true (inside j mem), stride⟩, by omega⟩, fun f mem => ?_⟩
  obtain ⟨j, listed, rfl⟩ := List.mem_map.1 mem
  obtain ⟨fr, y, at_, here, writable, other⟩ := held j listed
  rw [at_]
  simp only [frameOf_of_find here, writable, Bool.not_false, Bool.true_and, Bool.not_eq_true', List.contains_eq_mem, decide_eq_false_iff_not,
    List.mem_map, not_exists, not_and]
  exact other

/-- A column with no bad source line is not stopped. -/
theorem badSource_none {srcs : List Nat}
    (good : ∀ j ∈ srcs, ∀ fr, src.at_ (v.pos j 0) = some fr → (frameOf s fr).badLines = []) : badSource s src v srcs 0 = none := by
  rw [badSource, List.find?_eq_none]
  intro p mem
  obtain ⟨j, listed, rfl⟩ := List.mem_map.1 mem
  cases at_ : src.at_ (v.pos j 0) with
  | none => exact Bool.false_ne_true
  | some fr => simp [good j listed fr at_]

variable {srcs dsts : List Nat} (fits : VecFits s v src dst srcs dsts)
include fits

/-- The marks of the destinations leave the source frames. -/
theorem markDsts_source (p : Bool) {j fr : Nat} (mem : j ∈ srcs) (at_ : src.at_ (v.pos j 0) = some fr) :
    frameOf (markDsts s dst v dsts p) fr = frameOf s fr := by
  obtain ⟨one, -, -, -, -, held, -⟩ := fits
  have out : ¬∃ i ∈ dsts, dst.at_ (v.pos i 0) = some fr := by
    rintro ⟨i, listed, same⟩
    obtain ⟨n, y, own, -, -, other⟩ := held i listed
    exact other j mem (at_.trans (same.symm.trans own))
  rw [frameOf, Tab.getD, markDsts_find s dst one, if_neg out]
  rfl

/-- The state after the one column. -/
def columnDone (s : State) (dst : Handle) (v : Vec) (dsts : List Nat) (z : Bool) (ms : List Memory) : State :=
  markDsts (writeColumn (markDsts s dst v dsts false) dst v 0 z (dsts.zip ms)) dst v dsts true

omit fits in
theorem columnDone_frame (s : State) (dst : Handle) (v : Vec) (dsts : List Nat) (z : Bool) (ms : List Memory) :
    OnlyChanges [.cache] s (columnDone s dst v dsts z ms) :=
  (markDsts_frame _ _ _ _ _).step ((writeColumn_frame _ _ _ _ _ _).step ((markDsts_frame _ _ _ _ _).step (OnlyChanges.refl _ s)))

theorem columnDone_holds (nodup : dsts.Nodup) (z : Bool) {ms : List Memory} (full : dsts.length ≤ ms.length) {j : Nat} {m : Memory}
    (mem : (j, m) ∈ dsts.zip ms) :
    LaneHolds v dst j m (columnDone s dst v dsts z ms) := by
  obtain ⟨one, -, -, -, -, held, apart⟩ := fits
  have listed : j ∈ dsts := (List.of_mem_zip mem).1
  obtain ⟨fr, f, at_, here, -, -⟩ := held j listed
  have own : ∃ i ∈ dsts, dst.at_ (v.pos i 0) = some fr := ⟨j, listed, at_⟩
  have marked : (markDsts s dst v dsts false).cache.frames.find fr = some { f with prot := false } := by
    rw [markDsts_find s dst one, if_pos own, here]
    rfl
  have pairs : (dsts.zip ms).Pairwise fun a b => dst.at_ (v.pos a.1 0) ≠ dst.at_ (v.pos b.1 0) := by
    have keys : ((dsts.zip ms).map Prod.fst).Nodup := by rwa [List.map_fst_zip full]
    refine (List.pairwise_map.1 keys).imp_of_mem fun {a b} first second other => ?_
    exact apart _ (List.of_mem_zip first).1 _ (List.of_mem_zip second).1 other
  refine ⟨fr, { writtenFrame m z { f with prot := false } with prot := true }, at_, ?_, rfl, rfl⟩
  rw [columnDone, markDsts_find _ dst one, if_pos own, writeColumn_find z at_ pairs mem marked]
  rfl

end

end Sys2Proof.Machine
end

section
/-! The GF vector instructions (R312 to R315). -/

namespace Sys2Proof.Machine

/-! Fields of the operand words -/

theorem lanesOf_low (b : Word) : lanesOf (b &&& 0xFFFFFFFF#64) = (List.range 32).filter fun j => b.getLsbD j := by
  have low : ∀ j < 32, (0xFFFFFFFF#64).getLsbD j = true := by decide
  refine List.filter_congr fun j mem => ?_
  rw [BitVec.getLsbD_and, low j (List.mem_range.1 mem), Bool.and_true]

section
variable {i : Ins} {x : Ctx} {s : State} (issues : Issues notMap i x s) {c : Instr} {op : VecOp}

/-- What a vector instruction of one column leaves, in terms of the handles of its thread. -/
theorem vecRun_column {u : State} (one : (vecOf (i.ga x)).len = 1)
    (fits : VecFits u (vecOf (i.ga x)) (handleOf x (i.imm.toNat / 16 % 16)) (handleOf x (i.imm.toNat % 16)) op.srcs op.dsts)
    (limit : op.limitOk = true) :
    vecRun i u x op = complete (columnDone u (handleOf x (i.imm.toNat % 16)) (vecOf (i.ga x)) op.dsts op.zfill
      (op.result (op.srcs.map fun j => srcData u (handleOf x (i.imm.toNat / 16 % 16)) ((vecOf (i.ga x)).pos j 0)))) i.cx
        fun c => setFlag c i.flag true := by
  have source : i.immBits 4 4 = i.imm.toNat / 16 % 16 := fieldOf_div_mod _ _ _
  have target : i.immBits 0 4 = i.imm.toNat % 16 := fieldOf_zero _ _
  have same : ∀ j ∈ op.srcs, srcData (markDsts u (handleOf x (i.imm.toNat % 16)) (vecOf (i.ga x)) op.dsts false)
      (handleOf x (i.imm.toNat / 16 % 16)) ((vecOf (i.ga x)).pos j 0) =
      srcData u (handleOf x (i.imm.toNat / 16 % 16)) ((vecOf (i.ga x)).pos j 0) := fun j mem => by
    unfold srcData
    split
    next => rfl
    next fr at_ => rw [markDsts_source fits false mem at_]
  have good : badSource (markDsts u (handleOf x (i.imm.toNat % 16)) (vecOf (i.ga x)) op.dsts false)
      (handleOf x (i.imm.toNat / 16 % 16)) (vecOf (i.ga x)) op.srcs 0 = none := by
    refine badSource_none fun j mem fr at_ => ?_
    rw [markDsts_source fits false mem at_]
    exact fits.2.2.2.2.1 j mem fr at_
  simp only [vecRun, source, target, vecOk_of_fits fits limit, Bool.not_true, Bool.false_eq_true, if_false, one, runColumns, good,
    List.map_congr_left same]
  rfl

include issues

theorem vec_done (run : exec c s = .next (vecRun i (updCtx s i.cx (issue s)) x op))
    (fits : VecFits s (vecOf (i.ga x)) (handleOf x (i.imm.toNat / 16 % 16)) (handleOf x (i.imm.toNat % 16)) op.srcs op.dsts)
    (limit : op.limitOk = true) (nodup : op.dsts.Nodup) {ms : List Memory}
    (results : op.result (op.srcs.map fun j => srcData s (handleOf x (i.imm.toNat / 16 % 16)) ((vecOf (i.ga x)).pos j 0)) = ms)
    (full : op.dsts.length ≤ ms.length) :
    Does c [.ctxs, .cache] s fun t =>
      CtxIs i.cx (setFlag { x with pc := x.pc + 1, budget := x.budget - 1 } i.flag true) s t ∧
      ∀ j m, (j, m) ∈ op.dsts.zip ms → LaneHolds (vecOf (i.ga x)) (handleOf x (i.imm.toNat % 16)) j m t := by
  let u := updCtx s i.cx (issue s)
  have fits_ : VecFits u (vecOf (i.ga x)) (handleOf x (i.imm.toNat / 16 % 16)) (handleOf x (i.imm.toNat % 16)) op.srcs op.dsts := fits
  have results_ : op.result (op.srcs.map fun j => srcData u (handleOf x (i.imm.toNat / 16 % 16)) ((vecOf (i.ga x)).pos j 0)) = ms :=
    results
  let w := columnDone u (handleOf x (i.imm.toNat % 16)) (vecOf (i.ga x)) op.dsts op.zfill ms
  have frame : OnlyChanges [.cache] u w := columnDone_frame _ _ _ _ _ _
  rw [vecRun_column fits.1 fits_ limit, results_] at run
  exact ⟨_, run, (complete_frame _ _ _).step (frame.step ((updCtx_frame _ _ _).step (OnlyChanges.refl _ s))),
    issues.complete_ctxIs w (frame .ctxs (by decide)) fun c => setFlag c i.flag true,
    fun j m mem => columnDone_holds fits_ nodup op.zfill full mem⟩

theorem vec_refused (run : exec c s = .next (vecRun i (updCtx s i.cx (issue s)) x op))
    (long : (vecOf (i.ga x)).stride < (vecOf (i.ga x)).o + (vecOf (i.ga x)).len) :
    Sets c i.cx (setFlag { x with pc := x.pc + 1, budget := x.budget - 1 } i.flag false) s := by
  have refused : ∀ src dst, vecOk (updCtx s i.cx (issue s)) (vecOf (i.ga x)) src dst op = false := fun src dst => by
    simp only [vecOk, decide_eq_false (Nat.not_le.2 long), Bool.and_false, Bool.false_and]
  refine ⟨_, run.trans (congrArg _ (if_pos ?_)), (complete_frame _ _ _).step ((updCtx_frame _ _ _).step (OnlyChanges.refl _ s)),
    issues.complete_ctxIs _ rfl fun c => setFlag c i.flag false⟩
  rw [refused, Bool.not_false]

/-! The instructions, and what they write -/

variable (word : vecForm i = true)
include word

/-- The operation of XORV. -/
def xorvOp (i : Ins) (x : Ctx) : VecOp :=
  { srcs := (List.range 32).filter fun j => (i.gb x).getLsbD j, dsts := [(vecOf (i.ga x)).dst], limitOk := true,
    zfill := ((List.range 32).filter fun j => (i.gb x).getLsbD j).isEmpty, result := fun ms => [xorFrames ms] }

/-- The operation of GMULV. -/
def gmulvOp (i : Ins) (x : Ctx) : VecOp :=
  { srcs := [(i.gb x).toNat / 256 % 32], dsts := [(vecOf (i.ga x)).dst], limitOk := true, zfill := false,
    result := fun ms => [scaleFrame ((i.gb x).truncate 8) (ms.headD Memory.zero)] }

/-- The operation of PQGEN. -/
def pqgenOp (i : Ins) (x : Ctx) : VecOp :=
  let ls := (List.range 32).filter fun j => (i.gb x).getLsbD j
  { srcs := ls, dsts := [(vecOf (i.ga x)).dst, (vecOf (i.ga x)).dst + 1], limitOk := true, zfill := false,
    result := fun ms => [xorFrames ms, weightedFrames (ls.zip ms)] }

/-- The operation of PQDELTA. -/
def pqdeltaOp (i : Ins) (x : Ctx) (w : Nat) : VecOp :=
  let p := (i.gb x).toNat % 32
  { srcs := [0, 1, 2, 3], dsts := [(vecOf (i.ga x)).dst, (vecOf (i.ga x)).dst + 1], limitOk := decide (p < w), zfill := false,
    result := fun ms => match ms with
      | [od, nd, p', q'] => [xorFrames [p', od, nd], xorFrames [q', scaleFrame (gpow p) (xorFrames [od, nd])]]
      | _ => [] }

/-- The operation of PQSOLVE1. -/
def pqsolve1Op (i : Ins) (x : Ctx) (w : Nat) : VecOp :=
  let p := (i.gb x).toNat % 32
  let ds := (List.range w).filter (· != p)
  { srcs := ds ++ [w + 1], dsts := [p], limitOk := decide (p < w), zfill := false,
    result := fun ms => [scaleFrame (gneg p) (xorFrames [ms.getLastD Memory.zero, weightedFrames (ds.zip ms)])] }

/-- The operation of PQSOLVE2. -/
def pqsolve2Op (i : Ins) (x : Ctx) (w : Nat) : VecOp :=
  let p := (i.gb x).toNat % 32
  let q := (i.gb x).toNat / 256 % 32
  let ds := (List.range w).filter fun j => j != p && j != q
  { srcs := ds ++ [w, w + 1], dsts := [p, q], limitOk := decide (p < q) && decide (q < w), zfill := false,
    result := fun ms =>
      let pxy := xorFrames (ms.getD ds.length Memory.zero :: ms.take ds.length)
      let qxy := xorFrames [ms.getD (ds.length + 1) Memory.zero, weightedFrames (ds.zip ms)]
      let dx := scaleFrame (cxy p q) (xorFrames [qxy, scaleFrame (gpow q) pxy])
      [dx, xorFrames [pxy, dx]] }

theorem exec_xorv : exec (.xorv i) s = .next (vecRun i (updCtx s i.cx (issue s)) x (xorvOp i x)) := by
  refine (show exec (.xorv i) s = execXorv i s from rfl).trans ((issues.runIns word _).trans (congrArg _ ?_))
  simp only [lanesOf_low]
  rfl

theorem exec_gmulv : exec (.gmulv i) s = .next (vecRun i (updCtx s i.cx (issue s)) x (gmulvOp i x)) := by
  refine (show exec (.gmulv i) s = execGmulv i s from rfl).trans ((issues.runIns word _).trans (congrArg _ ?_))
  simp only [fieldOf_div_mod]
  rfl

theorem exec_pqgen : exec (.pqgen i) s = .next (vecRun i (updCtx s i.cx (issue s)) x (pqgenOp i x)) := by
  refine (show exec (.pqgen i) s = execPqgen i s from rfl).trans ((issues.runIns word _).trans (congrArg _ ?_))
  simp only [lanesOf_low]
  rfl

theorem exec_pqdelta : exec (.pqdelta i) s = .next (vecRun i (updCtx s i.cx (issue s)) x (pqdeltaOp i x (ctxW s x))) := by
  refine (show exec (.pqdelta i) s = execPqdelta i s from rfl).trans ((issues.runIns word _).trans (congrArg _ ?_))
  simp only [fieldOf_zero]
  rfl

theorem exec_pqsolve1 : exec (.pqsolve1 i) s = .next (vecRun i (updCtx s i.cx (issue s)) x (pqsolve1Op i x (ctxW s x))) := by
  refine (show exec (.pqsolve1 i) s = execPqsolve1 i s from rfl).trans ((issues.runIns word _).trans (congrArg _ ?_))
  simp only [fieldOf_zero]
  rfl

theorem exec_pqsolve2 : exec (.pqsolve2 i) s = .next (vecRun i (updCtx s i.cx (issue s)) x (pqsolve2Op i x (ctxW s x))) := by
  refine (show exec (.pqsolve2 i) s = execPqsolve2 i s from rfl).trans ((issues.runIns word _).trans (congrArg _ ?_))
  simp only [fieldOf_zero, fieldOf_div_mod (i.gb x) 8 5]
  rfl

theorem vectors_refused (long : (vecOf (i.ga x)).stride < (vecOf (i.ga x)).o + (vecOf (i.ga x)).len) :
    ∀ c ∈ [Instr.xorv i, .gmulv i, .pqgen i, .pqdelta i, .pqsolve1 i, .pqsolve2 i],
      Sets c i.cx (setFlag { x with pc := x.pc + 1, budget := x.budget - 1 } i.flag false) s := by
  simp only [List.forall_mem_cons, List.not_mem_nil, false_imp_iff, implies_true, and_true]
  exact ⟨vec_refused issues (exec_xorv issues word) long, vec_refused issues (exec_gmulv issues word) long,
    vec_refused issues (exec_pqgen issues word) long, vec_refused issues (exec_pqdelta issues word) long,
    vec_refused issues (exec_pqsolve1 issues word) long, vec_refused issues (exec_pqsolve2 issues word) long⟩

omit issues word

/-! The bytes that they write (R313) -/

section
variable {o : Nat} (below : o < 4096) (js : List Nat) (d : Nat → Memory)

theorem zip_map_append (r : List Memory) : js.zip (js.map d ++ r) = js.map fun j => (j, d j) := by
  induction js with
  | nil => rfl
  | cons j js ih => exact congrArg ((j, d j) :: ·) ih

theorem zip_map_self : js.zip (js.map d) = js.map fun j => (j, d j) := by
  rw [← List.append_nil (js.map d), zip_map_append]

/-- The sources of a two-lane solution: the data lanes in front, then P and Q. -/
theorem solve_sources (a b : Memory) : let ms := js.map d ++ [a, b]
    ms.getD js.length Memory.zero = a ∧ ms.getD (js.length + 1) Memory.zero = b ∧ ms.take js.length = js.map d := by
  have short : js.length = (js.map d).length := (List.length_map d).symm
  dsimp only
  rw [short, List.take_left]
  simp

include below

theorem read_xorFrames_map : (xorFrames (js.map d)).read o = js.foldl (fun r j => r ^^^ (d j).read o) 0 := by
  rw [read_xorFrames below, List.map_map, xorAll_map]
  rfl

theorem read_xorFrames_cons (m : Memory) : (xorFrames (m :: js.map d)).read o =
    m.read o ^^^ js.foldl (fun r j => r ^^^ (d j).read o) 0 := by
  rw [read_xorFrames below, List.map_cons, xorAll_cons, ← read_xorFrames_map below, read_xorFrames below]

theorem read_xorFrames_two (a b : Memory) : (xorFrames [a, b]).read o = a.read o ^^^ b.read o := by
  rw [read_xorFrames below]
  simp only [List.map_cons, List.map_nil, xorAll, List.foldl_cons, List.foldl_nil, BitVec.ofNat_eq_ofNat, BitVec.zero_xor]

theorem read_xorFrames_three (a b c : Memory) : (xorFrames [a, b, c]).read o = a.read o ^^^ b.read o ^^^ c.read o := by
  rw [read_xorFrames below]
  simp only [List.map_cons, List.map_nil, xorAll, List.foldl_cons, List.foldl_nil, BitVec.ofNat_eq_ofNat, BitVec.zero_xor]

end

include issues word

section
variable {v : Vec} {src dst : Handle} (vec : v = vecOf (i.ga x)) (from_ : src = handleOf x (i.imm.toNat / 16 % 16))
  (to_ : dst = handleOf x (i.imm.toNat % 16))
include vec from_ to_

theorem xorv_writes (fits : VecFits s v src dst ((List.range 32).filter fun j => (i.gb x).getLsbD j) [v.dst]) :
    Does (.xorv i) [.ctxs, .cache] s fun t => CtxIs i.cx (setFlag { x with pc := x.pc + 1, budget := x.budget - 1 } i.flag true) s t ∧
      LaneIs v dst v.dst (fun o => ((List.range 32).filter fun j => (i.gb x).getLsbD j).foldl
        (fun r j => r ^^^ (srcData s src (v.pos j 0)).read o) 0) t := by
  subst vec from_ to_
  obtain ⟨t, run, frame, own, lanes⟩ := vec_done issues (exec_xorv issues word) fits rfl (List.nodup_singleton _) rfl (by rfl)
  exact ⟨t, run, frame, own, (lanes _ _ List.mem_cons_self).laneIs fun o below => read_xorFrames_map below _ _⟩

theorem gmulv_writes (fits : VecFits s v src dst [(i.gb x).toNat / 256 % 32] [v.dst]) :
    Does (.gmulv i) [.ctxs, .cache] s fun t => CtxIs i.cx (setFlag { x with pc := x.pc + 1, budget := x.budget - 1 } i.flag true) s t ∧
      LaneIs v dst v.dst
        (fun o => gmul ((i.gb x).truncate 8) ((srcData s src (v.pos ((i.gb x).toNat / 256 % 32) 0)).read o)) t := by
  subst vec from_ to_
  obtain ⟨t, run, frame, own, lanes⟩ := vec_done issues (exec_gmulv issues word) fits rfl (List.nodup_singleton _) rfl (by rfl)
  exact ⟨t, run, frame, own, (lanes _ _ List.mem_cons_self).laneIs fun o below => read_scaleFrame below _ _⟩

theorem pqgen_writes (fits : VecFits s v src dst ((List.range 32).filter fun j => (i.gb x).getLsbD j) [v.dst, v.dst + 1]) :
    Does (.pqgen i) [.ctxs, .cache] s fun t => CtxIs i.cx (setFlag { x with pc := x.pc + 1, budget := x.budget - 1 } i.flag true) s t ∧
      LaneIs v dst v.dst (fun o => ((List.range 32).filter fun j => (i.gb x).getLsbD j).foldl
        (fun r j => r ^^^ (srcData s src (v.pos j 0)).read o) 0) t ∧
      LaneIs v dst (v.dst + 1) (fun o => ((List.range 32).filter fun j => (i.gb x).getLsbD j).foldl
        (fun r j => r ^^^ gmul (gpow j) ((srcData s src (v.pos j 0)).read o)) 0) t := by
  subst vec from_ to_
  obtain ⟨t, run, frame, own, lanes⟩ := vec_done issues (exec_pqgen issues word) fits rfl (by simp [pqgenOp]) rfl (by rfl)
  refine ⟨t, run, frame, own, (lanes _ _ List.mem_cons_self).laneIs fun o below => read_xorFrames_map below _ _,
    (lanes _ _ (List.mem_cons_of_mem _ List.mem_cons_self)).laneIs fun o below => ?_⟩
  simp only [pqgenOp, zip_map_self]
  rw [read_weightedFrames below]

theorem pqdelta_writes (fits : VecFits s v src dst [0, 1, 2, 3] [v.dst, v.dst + 1]) (inside : (i.gb x).toNat % 32 < ctxW s x) :
    Does (.pqdelta i) [.ctxs, .cache] s fun t => CtxIs i.cx (setFlag { x with pc := x.pc + 1, budget := x.budget - 1 } i.flag true) s t ∧
      LaneIs v dst v.dst (fun o => (srcData s src (v.pos 2 0)).read o ^^^ (srcData s src (v.pos 0 0)).read o ^^^
        (srcData s src (v.pos 1 0)).read o) t ∧
      LaneIs v dst (v.dst + 1) (fun o => (srcData s src (v.pos 3 0)).read o ^^^
        gmul (gpow ((i.gb x).toNat % 32)) ((srcData s src (v.pos 0 0)).read o ^^^ (srcData s src (v.pos 1 0)).read o)) t := by
  subst vec from_ to_
  obtain ⟨t, run, frame, own, lanes⟩ := vec_done issues (exec_pqdelta issues word) fits (decide_eq_true inside)
    (by simp [pqdeltaOp]) rfl (by rfl)
  refine ⟨t, run, frame, own, (lanes _ _ List.mem_cons_self).laneIs fun o below => read_xorFrames_three below _ _ _,
    (lanes _ _ (List.mem_cons_of_mem _ List.mem_cons_self)).laneIs fun o below => ?_⟩
  rw [read_xorFrames_two below, read_scaleFrame below, read_xorFrames_two below]

theorem pqsolve1_writes {p : Nat} {ds : List Nat} (lost : p = (i.gb x).toNat % 32) (others : ds = (List.range (ctxW s x)).filter (· != p))
    (fits : VecFits s v src dst (ds ++ [ctxW s x + 1]) [p]) (inside : p < ctxW s x) :
    Does (.pqsolve1 i) [.ctxs, .cache] s fun t => CtxIs i.cx (setFlag { x with pc := x.pc + 1, budget := x.budget - 1 } i.flag true) s t ∧
      LaneIs v dst p (fun o => gmul (gneg p) ((srcData s src (v.pos (ctxW s x + 1) 0)).read o ^^^
        ds.foldl (fun r j => r ^^^ gmul (gpow j) ((srcData s src (v.pos j 0)).read o)) 0)) t := by
  subst vec from_ to_ lost others
  obtain ⟨t, run, frame, own, lanes⟩ := vec_done issues (exec_pqsolve1 issues word) fits (decide_eq_true inside)
    (List.nodup_singleton _) rfl (by rfl)
  refine ⟨t, run, frame, own, (lanes _ _ List.mem_cons_self).laneIs fun o below => ?_⟩
  simp only [pqsolve1Op, List.map_append, List.map_singleton, List.getLastD_concat, zip_map_append]
  rw [read_scaleFrame below, read_xorFrames_two below, read_weightedFrames below]

theorem pqsolve2_writes {p q : Nat} {ds : List Nat} (lost : p = (i.gb x).toNat % 32) (lost' : q = (i.gb x).toNat / 256 % 32)
    (others : ds = (List.range (ctxW s x)).filter fun j => j != p && j != q)
    (fits : VecFits s v src dst (ds ++ [ctxW s x, ctxW s x + 1]) [p, q]) (order : p < q) (inside : q < ctxW s x) :
    Does (.pqsolve2 i) [.ctxs, .cache] s fun t => CtxIs i.cx (setFlag { x with pc := x.pc + 1, budget := x.budget - 1 } i.flag true) s t ∧
      let r := fun o => solve2 p q
        ((srcData s src (v.pos (ctxW s x) 0)).read o ^^^ ds.foldl (fun r j => r ^^^ (srcData s src (v.pos j 0)).read o) 0)
        ((srcData s src (v.pos (ctxW s x + 1) 0)).read o ^^^
          ds.foldl (fun r j => r ^^^ gmul (gpow j) ((srcData s src (v.pos j 0)).read o)) 0)
      LaneIs v dst p (fun o => (r o).1) t ∧ LaneIs v dst q (fun o => (r o).2) t := by
  subst vec from_ to_ lost lost' others
  obtain ⟨t, run, frame, own, lanes⟩ := vec_done issues (exec_pqsolve2 issues word) fits
    (by simp [pqsolve2Op, order, inside]) (by simp [pqsolve2Op, Nat.ne_of_lt order]) rfl (by rfl)
  simp only [pqsolve2Op, List.map_append, List.map_cons, List.map_nil, zip_map_append] at lanes
  obtain ⟨p_, q_, data⟩ := solve_sources ((List.range (ctxW s x)).filter fun j =>
    j != (i.gb x).toNat % 32 && j != (i.gb x).toNat / 256 % 32)
    (fun j => srcData s (handleOf x (i.imm.toNat / 16 % 16)) ((vecOf (i.ga x)).pos j 0))
    (srcData s (handleOf x (i.imm.toNat / 16 % 16)) ((vecOf (i.ga x)).pos (ctxW s x) 0))
    (srcData s (handleOf x (i.imm.toNat / 16 % 16)) ((vecOf (i.ga x)).pos (ctxW s x + 1) 0))
  refine ⟨t, run, frame, own, (lanes _ _ List.mem_cons_self).laneIs fun o below => ?_,
    (lanes _ _ (List.mem_cons_of_mem _ List.mem_cons_self)).laneIs fun o below => ?_⟩
  · rw [p_, q_, data, read_scaleFrame below, read_xorFrames_two below, read_xorFrames_two below, read_scaleFrame below, read_weightedFrames below,
      read_xorFrames_cons below]
    rfl
  · rw [p_, q_, data, read_xorFrames_two below, read_scaleFrame below, read_xorFrames_two below, read_xorFrames_two below, read_scaleFrame below,
      read_weightedFrames below, read_xorFrames_cons below]
    rfl

end

end

end Sys2Proof.Machine
end

section
/-! CMPV (R313 to R315). -/

namespace Sys2Proof.Machine

section
variable {i : Ins} {x : Ctx} {s : State} (issues : Issues notMap i x s)
  (word : (i.modIn 0x01C#9 && i.immIn 8 && decide (i.imm.toNat % 16 = 0) && i.flagOk) = true)
include issues word

/-- The operation of CMPV, which writes no lane. -/
def cmpvOp (i : Ins) (x : Ctx) : VecOp :=
  { srcs := [(i.gb x).toNat % 32, (i.gb x).toNat / 256 % 32], dsts := [], limitOk := true, zfill := false, result := fun _ => [] }

/-- What CMPV does, by the lanes that its thread names. -/
theorem exec_cmpv : exec (.cmpv i) s = .next (
    let u := updCtx s i.cx (issue s)
    let v := vecOf (i.ga x)
    let src := handleOf x (i.imm.toNat / 16 % 16)
    let p := (i.gb x).toNat % 32
    let q := (i.gb x).toNat / 256 % 32
    if !vecOk u v src .empty (cmpvOp i x) then complete u i.cx fun c => setFlag c i.flag false
    else match (List.range v.len).findSome? fun k => badSource u src v [p, q] k with
      | some n => poisonFault u i.cx (poisonAt (i.imm.toNat / 16 % 16) n)
      | none => complete u i.cx fun c => setFlag (setGreg c i.d.toNat (match laneDiff u src v p q v.len 0 with
          | none => 0
          | some o => BitVec.ofNat 64 (o + 1))) i.flag true) := by
  have form : (i.modIn 0x01C#9 && i.immIn 8 && decide (i.immBits 0 4 = 0) && i.flagOk) = true := by
    rw [show i.immBits 0 4 = i.imm.toNat % 16 from fieldOf_zero _ _]
    exact word
  refine (show exec (.cmpv i) s = execCmpv i s from rfl).trans ((issues.runIns form _).trans (congrArg _ ?_))
  simp only [fieldOf_zero (i.gb x) 5, fieldOf_div_mod (i.gb x) 8 5, show i.immBits 4 4 = i.imm.toNat / 16 % 16 from fieldOf_div_mod _ _ _]
  rfl

theorem cmpv_refused (long : (vecOf (i.ga x)).stride < (vecOf (i.ga x)).o + (vecOf (i.ga x)).len) :
    Sets (.cmpv i) i.cx (setFlag { x with pc := x.pc + 1, budget := x.budget - 1 } i.flag false) s := by
  have refused : vecOk (updCtx s i.cx (issue s)) (vecOf (i.ga x)) (handleOf x (i.imm.toNat / 16 % 16)) .empty (cmpvOp i x) = false := by
    simp only [vecOk, decide_eq_false (Nat.not_le.2 long), Bool.and_false, Bool.false_and]
  refine ⟨_, (exec_cmpv issues word).trans (congrArg _ (if_pos ?_)), (complete_frame _ _ _).step ((updCtx_frame _ _ _).step
    (OnlyChanges.refl _ s)), issues.complete_ctxIs _ rfl fun c => setFlag c i.flag false⟩
  rw [refused, Bool.not_false]

/-- The result of CMPV for a first difference. -/
def diffCode (d : Option Nat) : Nat := match d with
  | none => 0
  | some o => o + 1

theorem cmpv_compares {v : Vec} {src : Handle} {p q : Nat} (vec : v = vecOf (i.ga x)) (from_ : src = handleOf x (i.imm.toNat / 16 % 16))
    (first : p = (i.gb x).toNat % 32) (second : q = (i.gb x).toNat / 256 % 32) (fits : VecFits s v src .empty [p, q] []) :
    Sets (.cmpv i) i.cx (setFlag (setGreg { x with pc := x.pc + 1, budget := x.budget - 1 } i.d.toNat
      (BitVec.ofNat 64 (diffCode (firstDiff (srcData s src (v.pos p 0)) (srcData s src (v.pos q 0)))))) i.flag true) s := by
  subst vec from_ first second
  let u := updCtx s i.cx (issue s)
  let src := handleOf x (i.imm.toNat / 16 % 16)
  let v := vecOf (i.ga x)
  let p := (i.gb x).toNat % 32
  let q := (i.gb x).toNat / 256 % 32
  have fits_ : VecFits u v src .empty (cmpvOp i x).srcs (cmpvOp i x).dsts := fits
  have good : badSource u src v [p, q] 0 = none := badSource_none fits_.2.2.2.2.1
  have columns : ((List.range v.len).findSome? fun k => badSource u src v [p, q] k) = none := by
    rw [show v.len = 1 from fits.1]
    exact List.findSome?_eq_none_iff.2 fun k mem => by rw [List.mem_range.1 mem |> Nat.lt_one_iff.1]; exact good
  have value : (match laneDiff u src v p q v.len 0 with
      | none => 0
      | some o => BitVec.ofNat 64 (o + 1)) =
      BitVec.ofNat 64 (diffCode (firstDiff (srcData s src (v.pos p 0)) (srcData s src (v.pos q 0)))) := by
    rw [show v.len = 1 from fits.1, laneDiff]
    cases found : firstDiff (srcData u src (v.pos p 0)) (srcData u src (v.pos q 0)) with
    | none =>
      rw [show firstDiff (srcData s src (v.pos p 0)) (srcData s src (v.pos q 0)) = none from found]
      rfl
    | some o =>
      rw [show firstDiff (srcData s src (v.pos p 0)) (srcData s src (v.pos q 0)) = some o from found]
      simp [diffCode]
  have run := exec_cmpv issues word
  dsimp only at run
  rw [if_neg (by rw [vecOk_of_fits fits_ rfl]; decide), columns] at run
  dsimp only at run
  rw [value] at run
  exact ⟨_, run, (complete_frame _ _ _).step ((updCtx_frame _ _ _).step (OnlyChanges.refl _ s)),
    issues.complete_ctxIs _ rfl fun c => setFlag (setGreg c i.d.toNat _) i.flag true⟩

end

/-- Settles O17: each instruction by its row of R313 over the one column, CMPV by the first difference, and all of them by R314 when
the range does not fit. -/
theorem engineVectors : Obligations.EngineVectors := by
  unfold Obligations.EngineVectors
  intro i x s issues v b src dst x' at_ lanes sum wsum w p q done
  refine ⟨fun word => ⟨vectors_refused issues word, fun fits => xorv_writes issues word rfl rfl rfl fits,
      fun fits => gmulv_writes issues word rfl rfl rfl fits, fun fits => pqgen_writes issues word rfl rfl rfl fits,
      fun fits inside => pqdelta_writes issues word rfl rfl rfl fits inside,
      fun fits inside => pqsolve1_writes issues word rfl rfl rfl rfl rfl fits inside,
      fun fits order inside => pqsolve2_writes issues word rfl rfl rfl rfl rfl rfl fits order inside⟩,
    fun word => ⟨cmpv_refused issues word, fun fits => ⟨_, cmpv_compares issues word rfl rfl rfl rfl fits, fun same => ?_,
      fun o below differ first => ?_⟩⟩⟩
  · rw [firstDiff_none same]
    rfl
  · rw [firstDiff_some below differ first]
    rfl

end Sys2Proof.Machine
end

section
/-! What the end of a member command leaves of the contexts and of the journal (R305, R307, R309, R353). -/

namespace Sys2Proof.Machine

/-! Contexts that stay as they are, but for what wakes them -/

/-- From s to t every context keeps its tickets, its PC and its registers, and one that waits for nothing still does. -/
def CtxsStay (s t : State) : Prop := ∀ cx c, s.ctxs.find cx = some c →
  ∃ y, t.ctxs.find cx = some y ∧ y.tickets = c.tickets ∧ y.pc = c.pc ∧ y.g = c.g ∧ (c.wait = .nothing → y.wait = .nothing)

theorem CtxsStay.of_same {s t : State} (same : t.ctxs = s.ctxs) : CtxsStay s t :=
  fun _ c here => ⟨c, same ▸ here, rfl, rfl, rfl, id⟩

theorem CtxsStay.refl (s : State) : CtxsStay s s := .of_same rfl

theorem CtxsStay.trans {s t u : State} (h : CtxsStay s t) (k : CtxsStay t u) : CtxsStay s u := by
  intro cx c here
  obtain ⟨y, found, tickets, pc, g, wait⟩ := h cx c here
  obtain ⟨z, last, tickets', pc', g', wait'⟩ := k cx y found
  exact ⟨z, last, tickets'.trans tickets, pc'.trans pc, g'.trans g, wait' ∘ wait⟩

theorem CtxsStay.updCtx (s : State) (k : Nat) {f : Ctx → Ctx}
    (keeps : ∀ c, (f c).tickets = c.tickets ∧ (f c).pc = c.pc ∧ (f c).g = c.g ∧ (c.wait = .nothing → (f c).wait = .nothing)) :
    CtxsStay s (updCtx s k f) := by
  intro cx c here
  by_cases same : cx = k
  · subst same
    exact ⟨f c, by rw [updCtx_ctxs, Tab.find_upd_same, here]; rfl, keeps c⟩
  · exact ⟨c, by rw [updCtx_ctxs, Tab.find_upd_other _ _ same, here], rfl, rfl, rfl, id⟩

theorem CtxsStay.wake (s : State) (k : Nat) : CtxsStay s (wake s k) :=
  (CtxsStay.of_same rfl).trans (CtxsStay.updCtx { s with seqCtr := s.seqCtr + 1 } k fun _ => ⟨rfl, rfl, rfl, fun _ => rfl⟩)

theorem CtxsStay.wakes {α : Type} (f : α → Nat) (l : List α) : ∀ s, CtxsStay s (l.foldl (fun s x => Machine.wake s (f x)) s) := by
  induction l with
  | nil => exact CtxsStay.refl
  | cons x l ih => exact fun s => (CtxsStay.wake s (f x)).trans (ih _)

/-! Nothing to retire and nothing to replay -/

/-- A context does not wait in a JRETIRE. -/
def Ctx.Unretired (c : Ctx) : Prop := ∀ g st wm d, c.wait ≠ .retire g st wm d

/-- No JRETIRE waits and no record is being replayed. -/
structure Quiet (s : State) : Prop where
  ctxs : ∀ p ∈ s.ctxs, p.2.Unretired
  recs : ∀ p ∈ s.journal.recs, p.2.replaying = false

theorem Quiet.of_same {s t : State} (h : Quiet s) (ctxs : t.ctxs = s.ctxs) (journal : t.journal = s.journal) : Quiet t :=
  ⟨by rw [ctxs]; exact h.ctxs, by rw [journal]; exact h.recs⟩

theorem Quiet.of_frame {s t : State} {ps : List Part} (h : Quiet s) (frame : OnlyChanges ps s t) (ctxs : .ctxs ∉ ps := by decide)
    (journal : .journal ∉ ps := by decide) : Quiet t := h.of_same (frame .ctxs ctxs) (frame .journal journal)

theorem Quiet.updCtx {s : State} (h : Quiet s) (k : Nat) {f : Ctx → Ctx} (keeps : ∀ c, c.Unretired → (f c).Unretired) :
    Quiet (updCtx s k f) := by
  refine ⟨fun p mem => ?_, h.recs⟩
  obtain ⟨v, old, rfl⟩ | old := Tab.mem_upd mem
  · exact keeps v (h.ctxs _ old)
  · exact h.ctxs p old

theorem Quiet.updRec {s : State} (h : Quiet s) (k : Nat) {f : JRec → JRec} (keeps : ∀ r, (f r).replaying = r.replaying) :
    Quiet (updRec s k f) := by
  refine ⟨h.ctxs, fun p mem => ?_⟩
  obtain ⟨v, old, rfl⟩ | old := Tab.mem_upd mem
  · exact (keeps v).trans (h.recs _ old)
  · exact h.recs p old

theorem Quiet.wake {s : State} (h : Quiet s) (k : Nat) : Quiet (wake s k) :=
  Quiet.updCtx (s := { s with seqCtr := s.seqCtr + 1 }) (h.of_same rfl rfl) k fun _ _ => nofun

theorem Quiet.wakes {α : Type} (f : α → Nat) (l : List α) :
    ∀ {s : State}, Quiet s → Quiet (l.foldl (fun s x => Machine.wake s (f x)) s) := by
  induction l with
  | nil => exact id
  | cons x l ih => exact fun h => ih (h.wake (f x))

theorem setGreg_wait (c : Ctx) (n : Nat) (v : Word) : (setGreg c n v).wait = c.wait := by
  simp only [setGreg, apply_ite Ctx.wait, ite_self]

theorem Quiet.tryTickets {s : State} (h : Quiet s) (cx : Nat) : Quiet (tryTickets s cx) := by
  unfold Machine.tryTickets
  split
  next => exact h
  next c _ =>
    split
    next mask any dst _ =>
      split
      next l _ =>
        refine Quiet.wake (h.updCtx cx fun c kept => ?_) cx
        rw [Ctx.Unretired, setGreg_wait]
        exact kept
      next => exact h
    next => exact (apply_ite Quiet ..).mpr (by split; exacts [h, h.wake cx])
    next => exact h

theorem retryRetires_quiet {s : State} (h : Quiet s) : retryRetires s = s := by
  have replays : endReplays s = s := by
    have empty : (s.journal.recs.filter fun x => x.2.replaying && writesEnded x.2) = [] :=
      List.filter_eq_nil_iff.2 fun p mem => by simp [h.recs p mem]
    rw [endReplays, empty]
    exact ite_self _
  have empty : (s.ctxs.filter fun x => match x.2.wait with
      | .retire _ _ _ _ => true
      | _ => false) = [] := by
    refine List.filter_eq_nil_iff.2 fun p mem => ?_
    split
    next g st wm d waits => exact absurd waits (h.ctxs p mem g st wm d)
    next => exact Bool.false_ne_true
  unfold retryRetires
  rw [replays]
  exact congrArg (List.foldl (fun s x => tryRetire s x.1) s) empty

/-! The end of a member command -/

/-- The frames, the entry and the pins of a command before its thread is told (R286, R335). -/
def settled (s : State) (port cid : Nat) (m : MemCmd) (ev : TicketEvent) : State :=
  let s := updMport s port fun p => { p with cmds := p.cmds.del cid }
  let s := if m.op == .read && ev == .ok then m.frames.foldl filledFrame s else s
  match m.jrec with
  | some (r, i) => endWrite s r i (ev == .ok)
  | none => s

/-- The thread of a command is told (R307, R309). -/
def tellThread (s : State) (m : MemCmd) (ev : TicketEvent) : State :=
  match m.ctx with
  | some cx => tryTickets (updCtx s cx fun c => { c with tickets := c.tickets.put m.ticket (.ended ev.code) }) cx
  | none => s

theorem endCmd_eq (s : State) (port cid : Nat) (m : MemCmd) (ev : TicketEvent) :
    endCmd s port cid m ev = wakeFrameWaiters (unpinAll (tellThread (settled s port cid m ev) m ev) m.frames) := rfl

/-- The filling of a command's frames changes the cache alone. -/
theorem filledFrames_frame (s : State) (m : MemCmd) (ev : TicketEvent) :
    OnlyChanges [.cache] s (if m.op == .read && ev == .ok then m.frames.foldl filledFrame s else s) :=
  OnlyChanges.ite1 (OnlyChanges.foldl (fun _ fr kept => (filledFrame_frame _ fr).step kept) (OnlyChanges.refl _ s))
    (OnlyChanges.refl _ s)

theorem settled_frame (s : State) (port cid : Nat) (m : MemCmd) (ev : TicketEvent) :
    OnlyChanges [.mports, .cache, .journal] s (settled s port cid m ev) := by
  have filled := (filledFrames_frame (updMport s port fun p => { p with cmds := p.cmds.del cid }) m ev).step
    (F := [.mports, .cache, .journal]) ((updMport_frame _ _ _).step (OnlyChanges.refl _ s))
  unfold settled
  dsimp only
  split
  next => exact (endWrite_frame _ _ _ _).step filled
  next => exact filled

theorem Quiet.endCmd {s : State} (h : Quiet s) (port cid : Nat) (m : MemCmd) (ev : TicketEvent) : Quiet (endCmd s port cid m ev) := by
  rw [endCmd_eq]
  have filled : Quiet (if m.op == .read && ev == .ok then
      m.frames.foldl filledFrame (updMport s port fun p => { p with cmds := p.cmds.del cid })
      else updMport s port fun p => { p with cmds := p.cmds.del cid }) :=
    Quiet.of_frame (h.of_frame (updMport_frame s port _)) (filledFrames_frame _ m ev)
  have done : Quiet (settled s port cid m ev) := by
    unfold settled
    dsimp only
    split
    next => exact filled.updRec _ fun _ => rfl
    next => exact filled
  have told : Quiet (tellThread (settled s port cid m ev) m ev) := by
    unfold tellThread
    split
    next cx _ => exact (done.updCtx cx (f := fun c => { c with tickets := c.tickets.put m.ticket (.ended ev.code) }) fun _ kept => kept).tryTickets cx
    next => exact done
  exact Quiet.wakes Prod.fst _ (told.of_frame (unpinAll_frame _ m.frames))

/-! A thread is told of the end of its command -/

/-- From s to t the thread of a command, when it waits for nothing, has the command's ticket ended, and goes on where it was. -/
def Told (m : MemCmd) (ev : Nat) (s t : State) : Prop := ∀ cx c, m.ctx = some cx → s.ctxs.find cx = some c → c.wait = .nothing →
  ∃ y, t.ctxs.find cx = some y ∧ y.tickets.find m.ticket = some (.ended ev) ∧ y.pc = c.pc ∧ y.g = c.g

theorem Told.after {m : MemCmd} {ev : Nat} {s t u : State} (h : Told m ev s t) (k : CtxsStay t u) : Told m ev s u := by
  intro cx c mine here waits
  obtain ⟨y, found, ended, pc, g⟩ := h cx c mine here waits
  obtain ⟨z, last, tickets, pc', g', -⟩ := k cx y found
  exact ⟨z, last, tickets ▸ ended, pc'.trans pc, g'.trans g⟩

theorem Told.before {m : MemCmd} {ev : Nat} {s t u : State} (h : Told m ev t u) (k : CtxsStay s t) : Told m ev s u := by
  intro cx c mine here waits
  obtain ⟨y, found, -, pc, g, wait⟩ := k cx c here
  obtain ⟨z, last, ended, pc', g'⟩ := h cx y mine found (wait waits)
  exact ⟨z, last, ended, pc'.trans pc, g'.trans g⟩

theorem tellThread_told (s : State) (m : MemCmd) (ev : TicketEvent) : Told m ev.code s (tellThread s m ev) := by
  intro cx c mine here waits
  let y : Ctx := { c with tickets := c.tickets.put m.ticket (.ended ev.code) }
  have found : (updCtx s cx fun c => { c with tickets := c.tickets.put m.ticket (.ended ev.code) }).ctxs.find cx = some y := by
    rw [updCtx_ctxs, Tab.find_upd_same, here]
    rfl
  have stays : tellThread s m ev = updCtx s cx fun c => { c with tickets := c.tickets.put m.ticket (.ended ev.code) } := by
    have none_ : y.wait = .nothing := waits
    simp only [tellThread, mine, tryTickets, found, none_]
  exact ⟨y, stays ▸ found, Tab.find_put_same _ _ _, rfl, rfl⟩

theorem endCmd_told (s : State) (port cid : Nat) (m : MemCmd) (ev : TicketEvent) : Told m ev.code s (endCmd s port cid m ev) := by
  rw [endCmd_eq]
  refine (((tellThread_told _ m ev).before (.of_same (settled_frame s port cid m ev .ctxs (by decide)))).after
    (.of_same (unpinAll_frame _ m.frames .ctxs (by decide)))).after (CtxsStay.wakes Prod.fst _ _)

end Sys2Proof.Machine
end

section
/-! The port of a member command that ends (R360, R365 to R368, R376), and the error log. -/

namespace Sys2Proof.Machine

/-- An entry that is written between two changes that leave the log is the newest one. -/
theorem Logged.between {code : BitVec 16} {detail : Nat} {s' s t t' : State} {F G : List Part} (h : Logged code detail s t)
    (before : OnlyChanges F s' s) (after : OnlyChanges G t t') (b : .errSeq ∉ F ∧ .tt ∉ F := by decide)
    (a : .errSeq ∉ G ∧ .errLog ∉ G := by decide) : Logged code detail s' t' :=
  h.of_same (before .errSeq b.1) (now_eq_of_frame before b.2) (after .errSeq a.1) (after .errLog a.2)

/-- The failure policy is off: no count of timeouts or media events fails or slows a member (R376). -/
structure Lenient (s : State) : Prop where
  failTmo : s.mem.failTmo = 0
  failMedia : s.mem.failMedia = 0
  slowTmo : s.mem.slowTmo = 0

theorem Lenient.of_same {s t : State} (h : Lenient s) (same : t.mem = s.mem) : Lenient t := by
  constructor <;> rw [same]
  exacts [h.failTmo, h.failMedia, h.slowTmo]

theorem judgePolicy_lenient {s : State} (lenient : Lenient s) (port : Nat) : judgePolicy s port = s := by
  obtain ⟨tmo, media, slow⟩ := lenient
  unfold judgePolicy
  split
  next => rfl
  next => simp [tmo, media, slow]

theorem countMedia_lenient {s : State} (lenient : Lenient s) (port : Nat) : countMedia s port =
    markFresh (updMport s port fun p => { p with cntMedia := satInc p.cntMedia, mediaWin := p.mediaWin + 1 }) .mem
      (0x1014 + 32 * port) 0 1 := by
  refine judgePolicy_lenient (lenient.of_same ?_) port
  exact markFresh_frame (updMport s port _) .mem _ 0 1 .mem (by decide)

theorem countMedia_frame_lenient {s : State} (lenient : Lenient s) (port : Nat) : OnlyChanges [.mports, .fresh] s (countMedia s port) := by
  rw [countMedia_lenient lenient]
  exact (markFresh_frame _ _ _ _ _).step ((updMport_frame _ _ _).step (OnlyChanges.refl _ s))

theorem countTimeout_lenient {s : State} (lenient : Lenient s) (port : Nat) :
    countTimeout s port = updMport s port fun p => { p with tmoWin := p.tmoWin + 1 } := judgePolicy_lenient (s := updMport s port _) (lenient.of_same rfl) port

section
variable {s u : State} {port : Nat} {p x : MPort}

theorem PortBecame.lenient (became : PortBecame s port p x u) (lenient : Lenient s) : Lenient u := lenient.of_same became.mem

theorem PortBecame.observe (became : PortBecame s port p x u) (m : MemCmd) :
    ∃ l, PortBecame s port p { x with observed := l } (observe u port m) := by
  unfold Machine.observe
  split
  next => exact ⟨_, became.updMport (g := fun p => { p with observed := (since u m.issued, u.tt.cycle.toNat) :: p.observed }) rfl⟩
  next => exact ⟨x.observed, became⟩

theorem PortBecame.countMedia (became : PortBecame s port p x u) (lenient : Lenient s) :
    PortBecame s port p { x with cntMedia := satInc x.cntMedia, mediaWin := x.mediaWin + 1 } (countMedia u port) := by
  rw [countMedia_lenient (became.lenient lenient)]
  exact (became.updMport (g := fun p => { p with cntMedia := satInc p.cntMedia, mediaWin := p.mediaWin + 1 }) rfl).step
    (markFresh_frame _ _ _ _ _)

theorem PortBecame.logTimeout (became : PortBecame s port p x u) (queue cid : Nat) :
    PortBecame s port p { x with cntTmo := satInc x.cntTmo } (logTimeout u port queue cid) :=
  ((became.step (logErr_frame u _ _ _ _)).updMport (g := fun p => { p with cntTmo := satInc p.cntTmo }) rfl).step
    (markFresh_frame _ _ _ _ _)

/-- A port with fewer than 63 identifiers in quarantine takes another and does not fail (R367). -/
theorem quarantineId_eq (here : u.mports.find port = some x) (few : x.quarantine.length < 63) (cid : Nat) (m : MemCmd) :
    quarantineId u port cid m = updMport u port fun p =>
      { p with quarantine := p.quarantine ++ [cid]
               quarDet := if m.op == .read && m.determ then p.quarDet ++ [(cid, m.issued)] else p.quarDet } := by
  have short : ¬64 ≤ (x.quarantine ++ [cid]).length := by
    rw [List.length_append, List.length_singleton]
    omega
  simp only [quarantineId, updMport_mports, Tab.find_upd_same, here, Option.map_some, short, if_false]

theorem PortBecame.quarantineId (became : PortBecame s port p x u) (few : x.quarantine.length < 63) (cid : Nat) (m : MemCmd) :
    ∃ l, PortBecame s port p { x with quarantine := x.quarantine ++ [cid], quarDet := l } (quarantineId u port cid m) := by
  rw [quarantineId_eq became.here few]
  exact ⟨_, became.updMport (g := fun p => { p with
    quarantine := p.quarantine ++ [cid]
    quarDet := if m.op == .read && m.determ then p.quarDet ++ [(cid, m.issued)] else p.quarDet }) rfl⟩

theorem PortBecame.loseCmds_fields (became : PortBecame s port p x u) :
    ∃ l, PortBecame s port p { x with cmds := l, quarantine := [], quarDet := [] } (Machine.loseCmds u port) := by
  have lose (cmds : List (Nat × MemCmd)) : ∀ v l, PortBecame s port p { x with cmds := l } v → ∃ k,
      PortBecame s port p { x with cmds := k } (cmds.foldl (fun s c => Machine.endCmd s port c.1 c.2 .lost) v) := by
    induction cmds with
    | nil => exact fun v l now_ => ⟨l, now_⟩
    | cons c cmds ih => exact fun v l now_ => ih _ _ (now_.endCmd c.1 c.2 .lost)
  obtain ⟨k, lost⟩ := lose x.cmds u x.cmds became
  unfold Machine.loseCmds
  rw [became.here]
  exact ⟨k, lost.updMport (g := fun p => { p with quarantine := [], quarDet := [] }) rfl⟩

end

/-! Late completions (R365, R367) -/

section
variable {s u : State} {port cid : Nat} {p x : MPort}

theorem lateCompletion_eq (here : u.mports.find port = some x) (held : cid ∈ x.quarantine) : ∃ obs, lateCompletion u port cid =
    logErr (updMport (markFresh u .mem (0x1018 + 32 * port) 0 1) port fun p =>
      { p with quarantine := p.quarantine.filter (· != cid), quarDet := p.quarDet.filter fun q => q.1 != cid,
               cntLate := satInc p.cntLate, observed := obs ++ p.observed }) 0x0B04 .initiator { member := port } 0 := by
  simp only [lateCompletion, here, List.contains_eq_mem, held, decide_true, Bool.not_true, Bool.false_eq_true, if_false]
  exact ⟨_, rfl⟩

theorem PortBecame.lateCompletion (became : PortBecame s port p x u) (held : cid ∈ x.quarantine) : ∃ det obs,
    PortBecame s port p { x with quarantine := x.quarantine.filter (· != cid), quarDet := det, cntLate := satInc x.cntLate,
                                 observed := obs } (lateCompletion u port cid) := by
  obtain ⟨obs, takes⟩ := lateCompletion_eq became.here held
  rw [takes]
  exact ⟨_, _, ((became.step (markFresh_frame _ _ _ _ _)).updMport (g := fun p =>
    { p with quarantine := p.quarantine.filter (· != cid), quarDet := p.quarDet.filter fun q => q.1 != cid,
             cntLate := satInc p.cntLate, observed := obs ++ p.observed }) rfl).step (logErr_frame _ _ _ _ _)⟩

theorem lateCompletion_logs (here : u.mports.find port = some x) (held : cid ∈ x.quarantine) :
    Logged 0x0B04#16 0 u (lateCompletion u port cid) := by
  obtain ⟨obs, takes⟩ := lateCompletion_eq here held
  rw [takes]
  exact (logErr_logged _ 0x0B04 .initiator { member := port } 0).between (F := [.fresh, .mports])
    ((updMport_frame _ _ _).step ((markFresh_frame _ _ _ _ _).step (OnlyChanges.refl _ u))) (OnlyChanges.refl [] _)

end

end Sys2Proof.Machine
end

section
/-! Member reads and writes that end (R307 to R309, R335, R365 to R368, R376, R378). -/

namespace Sys2Proof.Machine

theorem CtxsStay.noteLate (s : State) (cx cause : Nat) : CtxsStay s (noteLate s cx cause) :=
  .updCtx s cx fun _ => ⟨rfl, rfl, rfl, id⟩

theorem Quiet.noteLate {s : State} (h : Quiet s) (cx cause : Nat) : Quiet (noteLate s cx cause) := h.updCtx cx fun _ kept => kept

theorem degradeCtx_fields (s : State) (stripe cause : Nat) (c : Ctx) : let y := degradeCtx s stripe cause c
    y.tickets = c.tickets ∧ y.pc = c.pc ∧ y.g = c.g ∧ y.wait = c.wait := by
  unfold degradeCtx
  dsimp only
  split <;> exact ⟨rfl, rfl, rfl, rfl⟩

theorem Ctx.Unretired.degradeCtx {s : State} {stripe cause : Nat} {c : Ctx} (h : c.Unretired) :
    (degradeCtx s stripe cause c).Unretired := by
  obtain ⟨-, -, -, wait⟩ := degradeCtx_fields s stripe cause c
  rw [Ctx.Unretired, wait]
  exact h

/-- The notes that a read leaves of its thread before it ends. -/
structure Noted (s t : State) : Prop where
  ctxs : CtxsStay s t
  quiet : Quiet s → Quiet t
  frame : OnlyChanges [.ctxs, .mports] s t

theorem Noted.trans {s t u : State} (h : Noted s t) (k : Noted t u) : Noted s u :=
  ⟨h.ctxs.trans k.ctxs, k.quiet ∘ h.quiet, k.frame.step h.frame⟩

theorem Noted.refl (s : State) : Noted s s := ⟨.refl s, id, OnlyChanges.refl _ s⟩

theorem Noted.noteLate (s : State) (cx cause : Nat) : Noted s (noteLate s cx cause) :=
  ⟨.noteLate s cx cause, fun h => h.noteLate cx cause, (noteLate_frame _ _ _).step (OnlyChanges.refl _ s)⟩

theorem Noted.observe (s : State) (port : Nat) (m : MemCmd) : Noted s (observe s port m) := by
  have frame := observe_frame s port m
  exact ⟨.of_same (frame .ctxs (by decide)), fun h => h.of_frame frame, frame.step (OnlyChanges.refl _ s)⟩

theorem Noted.noteMember (s : State) (port : Nat) (m : MemCmd) : Noted s (noteMember s port m) := by
  unfold Machine.noteMember
  split
  next cx _ =>
    split
    next => exact .noteLate s cx 1
    next => exact .refl s
  next => exact .refl s

theorem Noted.degradeUnread (s : State) (cx port lba : Nat) : Noted s (degradeUnread s cx port lba) := by
  unfold Machine.degradeUnread
  split
  next x _ =>
    refine ⟨.updCtx s cx fun c => ?_, fun h => h.updCtx cx fun c kept => kept.degradeCtx, (updCtx_frame _ _ _).step (OnlyChanges.refl _ s)⟩
    obtain ⟨tickets, pc, g, wait⟩ := degradeCtx_fields s x.2 0 c
    exact ⟨tickets, pc, g, fun none_ => wait.trans none_⟩
  next => exact .refl s

end Sys2Proof.Machine
end

section
/-! What a member command that ends leaves, by its operation and its event (R307 to R309, R335, R365 to R368, R376, R378). -/

namespace Sys2Proof.Machine

/-! The frame of a read (R286, R292) -/

theorem filledFrame_find {s : State} {fr : Nat} {f : Frame} (here : s.cache.frames.find fr = some f) :
    ∃ y, (filledFrame s fr).cache.frames.find fr = some y ∧ y.prot = true ∧ y.data = f.data ∧ y.retireLast = f.retireLast ∧
      (f.key ≠ none → y.key ≠ none) := by
  have protected_ : (protectFrame s fr).cache.frames.find fr = some { f with prot := true } := by
    rw [protectFrame, updFrame_find_same, here]
    rfl
  unfold filledFrame
  dsimp only
  split
  next b _ =>
    split
    next =>
      refine ⟨_, (updFrame_find_same _).trans (congrArg _ protected_), rfl, rfl, rfl, fun _ => ?_⟩
      exact Option.some_ne_none b
    next => exact ⟨_, protected_, rfl, rfl, rfl, id⟩
  next => exact ⟨_, protected_, rfl, rfl, rfl, id⟩

/-- A mapped frame that is not to be retired keeps its content when a pin goes. -/
theorem unpinFrame_find {s : State} {fr : Nat} {f : Frame} (here : s.cache.frames.find fr = some f) (stays : f.retireLast = false)
    (mapped_ : f.key ≠ none) : ∃ y, (unpinFrame s fr).cache.frames.find fr = some y ∧ y.prot = f.prot ∧ y.data = f.data := by
  have key : f.key.isNone = false := Option.isNone_eq_false_iff.2 (Option.isSome_iff_ne_none.2 mapped_)
  simp only [unpinFrame, here, stays, key, Bool.false_eq_true, if_false]
  split
  next => exact ⟨f, here, rfl, rfl⟩
  next =>
    split
    next => exact ⟨_, (updFrame_find_same _).trans (congrArg _ here), rfl, rfl⟩
    next => exact ⟨_, (updFrame_find_same _).trans (congrArg _ here), rfl, rfl⟩

/-- A read that ends OK leaves its one frame protected, with what was written into it (R286). -/
theorem endCmd_fills {s : State} {port cid fr : Nat} {m : MemCmd} {f : Frame} (op : m.op = .read) (one : m.frames = [fr])
    (here : s.cache.frames.find fr = some f) (stays : f.retireLast = false) (mapped_ : f.key ≠ none) :
    ∃ y, (endCmd s port cid m .ok).cache.frames.find fr = some y ∧ y.prot = true ∧ y.data = f.data := by
  obtain ⟨y, filled, prot, data, retire, key⟩ :=
    filledFrame_find (s := updMport s port fun p => { p with cmds := p.cmds.del cid }) here
  have settled_ : (settled s port cid m .ok).cache.frames.find fr = some y := by
    have fills : (m.op == MemOp.read && TicketEvent.ok == TicketEvent.ok) = true := by rw [op]; rfl
    unfold settled
    dsimp only
    rw [if_pos fills, one]
    split
    next r i _ => exact (congrArg (fun c : Cache => c.frames.find fr) (endWrite_frame _ r i _ .cache (by decide))).trans filled
    next => exact filled
  have told : (tellThread (settled s port cid m .ok) m .ok).cache = (settled s port cid m .ok).cache := by
    unfold tellThread
    split
    next cx _ => exact tryTickets_frame _ cx .cache (by decide)
    next => rfl
  obtain ⟨z, last, prot', data'⟩ := unpinFrame_find (s := tellThread (settled s port cid m .ok) m .ok)
    ((congrArg (fun c : Cache => c.frames.find fr) told).trans settled_) (retire.trans stays) (key mapped_)
  have woken := wakeFrameWaiters_frame (unpinAll (tellThread (settled s port cid m .ok) m .ok) m.frames)
  refine ⟨z, ?_, prot'.trans prot, data'.trans data⟩
  rw [endCmd_eq]
  refine (congrArg (fun c : Cache => c.frames.find fr) (woken .cache (by decide))).trans ?_
  rw [one]
  exact last

/-! The entry of a write (R335) -/

theorem endCmd_entries {s : State} {port cid r i : Nat} {m : MemCmd} {x : JRec} (ev : TicketEvent) (jrec : m.jrec = some (r, i))
    (here : s.journal.recs.find r = some x) : (endCmd s port cid m ev).journal.recs.find r = some { x with
      entries := x.entries.map fun e =>
        if e.index = i then { e with writing := e.writing - 1, done := e.done || ev == .ok } else e } := by
  have told : (tellThread (settled s port cid m ev) m ev).journal = (settled s port cid m ev).journal := by
    unfold tellThread
    split
    next cx _ => exact tryTickets_frame _ cx .journal (by decide)
    next => rfl
  have after_ : (endCmd s port cid m ev).journal = (settled s port cid m ev).journal := by
    rw [endCmd_eq]
    exact ((wakeFrameWaiters_frame _ .journal (by decide)).trans (unpinAll_frame _ m.frames .journal (by decide))).trans told
  have before := (filledFrames_frame (updMport s port fun p => { p with cmds := p.cmds.del cid }) m ev) .journal (by decide)
  rw [after_]
  simp only [settled, jrec]
  rw [endWrite, updRec, Tab.find_upd_same]
  refine (congrArg (fun j : Journal => (j.recs.find r).map _) before).trans ?_
  rw [updMport_journal, here]
  rfl

/-! The outcome of a command that still runs -/

section
variable {s : State} {port cid : Nat} {p : MPort} {m : MemCmd} (here : s.mports.find port = some p)
  (found : p.cmds.find cid = some m) (free : linksHeld s = false) (quiet : Quiet s)

theorem wakeMem_stays (s : State) (port : Nat) : CtxsStay s (wakeMem s port) := CtxsStay.wakes Prod.fst _ s

include here found in
theorem cmdOf_eq : cmdOf s port cid = some m := by
  rw [cmdOf, here]
  exact found

include here found free in
theorem exec_memberCompletion_early {st : CplStatus} {v : State} (early : past s m.due = false)
    (done : memCompletion s port cid m st = v) (calm : Quiet v) :
    exec (.memberCompletion port cid st) s = .next (wakeMem v port) := by
  change execMemberCompletion port cid st s = _
  simp only [execMemberCompletion, cmdOf_eq here found, free, early, done, retryRetires_quiet calm, Bool.false_eq_true, if_false]

/-- What a command that ended left before the contexts that wait for its port try again. -/
structure Ended (s : State) (port cid : Nat) (p : MPort) (m : MemCmd) (ev : Nat) (x : MPort) (v : State) : Prop where
  told : Told m ev s v
  quiet : Quiet v
  became : PortBecame s port p x v
  cmds : x.cmds = p.cmds.del cid

theorem Ended.woken {ev : Nat} {x : MPort} {v : State} (ended : Ended s port cid p m ev x v) :
    (wakeMem v port).mports.find port = some x := (ended.became.step (wakeMem_frame v port)).here

include here found free in
theorem Ended.completes {ev : Nat} {x : MPort} {v : State} {st : CplStatus} {post : State → MPort → Prop}
    (ended : Ended s port cid p m ev x v) (early : past s m.due = false) (done : memCompletion s port cid m st = v)
    (h : post (wakeMem v port) x) : Runs (.memberCompletion port cid st) s fun t => Told m ev s t ∧
      ∃ q, t.mports.find port = some q ∧ q.cmds = p.cmds.del cid ∧ post t q :=
  Does.of_exec (exec_memberCompletion_early here found free early done ended.quiet) (execMemberCompletion_frame port cid st s)
    ⟨ended.told.after (wakeMem_stays v port), x, ended.woken, ended.cmds, h⟩

include here quiet

/-! Reads -/

/-- What a read notes of its thread before it ends in time. -/
def readNoted (s : State) (port : Nat) (m : MemCmd) : State := noteMember (observe s port m) port m

omit here quiet in
theorem readNoted_noted (s : State) (port : Nat) (m : MemCmd) : Noted s (readNoted s port m) :=
  (Noted.observe s port m).trans (.noteMember _ port m)

omit quiet in
theorem readNoted_became : ∃ l, PortBecame s port p { p with observed := l } (readNoted s port m) := by
  obtain ⟨l, became⟩ := (PortBecame.refl here).observe m
  exact ⟨l, became.step (noteMember_frame _ port m)⟩

theorem readOk_ended : ∃ l, Ended s port cid p m 0 { p with observed := l, cmds := p.cmds.del cid }
    (endCmd (readNoted s port m) port cid m .ok) := by
  obtain ⟨l, became⟩ := readNoted_became (m := m) here
  have noted := readNoted_noted s port m
  exact ⟨l, (endCmd_told _ port cid m .ok).before noted.ctxs, (noted.quiet quiet).endCmd port cid m .ok,
    became.endCmd cid m .ok, rfl⟩

include found free in
theorem read_ok (op : m.op = .read) (early : past s m.due = false) :
    Runs (.memberCompletion port cid .ok) s fun t => Told m 0 s t ∧ ∃ q, t.mports.find port = some q ∧ q.cmds = p.cmds.del cid ∧
      (q.quarantine = p.quarantine ∧ ∀ fr f, m.frames = [fr] → s.cache.frames.find fr = some f → f.retireLast = false → f.key ≠ none →
        ∃ y, t.cache.frames.find fr = some y ∧ y.prot = true ∧ y.data = f.data) := by
  obtain ⟨l, ended⟩ := readOk_ended (cid := cid) (m := m) here quiet
  have done : memCompletion s port cid m .ok = endCmd (readNoted s port m) port cid m .ok := by
    unfold memCompletion
    rw [op]
    rfl
  refine ended.completes here found free (post := fun t q => q.quarantine = p.quarantine ∧ ∀ fr f, m.frames = [fr] →
    s.cache.frames.find fr = some f → f.retireLast = false → f.key ≠ none →
      ∃ y, t.cache.frames.find fr = some y ∧ y.prot = true ∧ y.data = f.data) early done ⟨rfl, fun fr f one held stays mapped_ => ?_⟩
  have same : (readNoted s port m).cache = s.cache := (readNoted_noted s port m).frame .cache (by decide)
  obtain ⟨y, filled, content⟩ := endCmd_fills (port := port) (cid := cid) op one
    ((congrArg (fun c : Cache => c.frames.find fr) same).trans held) stays mapped_
  exact ⟨y, (congrArg (fun c : Cache => c.frames.find fr) (wakeMem_frame _ port .cache (by decide))).trans filled, content⟩

/-- What a read notes of its thread when its data cannot be read. -/
def readDegraded (s : State) (port : Nat) (m : MemCmd) : State :=
  match m.ctx with
  | some cx => degradeUnread (readNoted s port m) cx port m.lba
  | none => readNoted s port m

omit here quiet in
theorem readDegraded_noted (s : State) (port : Nat) (m : MemCmd) : Noted s (readDegraded s port m) := by
  unfold readDegraded
  split
  next cx _ => exact (readNoted_noted s port m).trans (.degradeUnread _ cx port m.lba)
  next => exact readNoted_noted s port m

omit quiet in
theorem readDegraded_became : ∃ l, PortBecame s port p { p with observed := l } (readDegraded s port m) := by
  obtain ⟨l, became⟩ := readNoted_became (m := m) here
  unfold readDegraded
  split
  next cx _ => exact ⟨l, became.step (degradeUnread_frame _ cx port m.lba)⟩
  next => exact ⟨l, became⟩

variable (lenient : Lenient s)
include lenient

theorem mediaEvent_ended (ev : TicketEvent) : ∃ l n, let v := mediaEvent (endCmd (readDegraded s port m) port cid m ev) port m.lba
    Ended s port cid p m ev.code { p with observed := l, cmds := p.cmds.del cid, cntMedia := satInc p.cntMedia, mediaWin := n } v ∧
      Logged 0x0B03#16 m.lba s v := by
  obtain ⟨l, noted⟩ := readDegraded_became (m := m) here
  have before := readDegraded_noted s port m
  let w := endCmd (readDegraded s port m) port cid m ev
  let u := queueScrub (logErr w 0x0B03 .initiator { member := port } m.lba) port m.lba
  have scrubbed : PortBecame s port p { p with observed := l, cmds := p.cmds.del cid } u :=
    ((noted.endCmd cid m ev).step (logErr_frame w _ _ _ _)).step (queueScrub_frame _ port m.lba)
  have scrub : OnlyChanges [.groups] (logErr w 0x0B03 .initiator { member := port } m.lba) u := queueScrub_frame _ port m.lba
  have counted : OnlyChanges [.mports, .fresh] u (countMedia u port) := countMedia_frame_lenient (scrubbed.lenient lenient) port
  have logged : OnlyChanges [.errLog, .errSeq] w (logErr w 0x0B03 .initiator { member := port } m.lba) := logErr_frame w _ _ _ _
  have ctxs : (countMedia u port).ctxs = w.ctxs :=
    (counted .ctxs (by decide)).trans ((scrub .ctxs (by decide)).trans (logged .ctxs (by decide)))
  refine ⟨l, p.mediaWin + 1, ⟨((endCmd_told _ port cid m ev).before before.ctxs).after (.of_same ctxs),
    ((((before.quiet quiet).endCmd port cid m ev).of_frame logged).of_frame scrub).of_frame counted, scrubbed.countMedia lenient, rfl⟩, ?_⟩
  exact (logErr_logged w 0x0B03 .initiator { member := port } m.lba).between
    (F := [.ctxs, .mports, .cache, .journal, .seqCtr]) (G := [.groups, .mports, .fresh])
    ((endCmd_frame _ port cid m ev).step (before.frame.step (OnlyChanges.refl _ s)))
    (counted.step (scrub.step (OnlyChanges.refl _ _)))

include found free in
theorem read_fails (early : past s m.due = false) {st : CplStatus} {ev : TicketEvent}
    (done : memCompletion s port cid m st = mediaEvent (endCmd (readDegraded s port m) port cid m ev) port m.lba) :
    Runs (.memberCompletion port cid st) s fun t => Told m ev.code s t ∧ ∃ q, t.mports.find port = some q ∧
      q.cmds = p.cmds.del cid ∧ (q.cntMedia = satInc p.cntMedia ∧ Logged 0x0B03#16 m.lba s t) := by
  obtain ⟨l, n, ended, logged⟩ := mediaEvent_ended (cid := cid) (m := m) here quiet lenient ev
  exact ended.completes here found free (post := fun t q => q.cntMedia = satInc p.cntMedia ∧ Logged 0x0B03#16 m.lba s t) early done
    ⟨rfl, logged.between (OnlyChanges.refl [] s) (wakeMem_frame _ port)⟩

/-- A read that passes its timeout leaves its identifier in quarantine (R366, R367). -/
theorem memTimeoutOf_read (op : m.op = .read) (few : p.quarantine.length < 63) : ∃ det n,
    Ended s port cid p m 1 { p with cntTmo := satInc p.cntTmo, cmds := p.cmds.del cid, quarantine := p.quarantine ++ [cid],
                                    quarDet := det, tmoWin := n } (memTimeoutOf s port cid m) ∧
      Logged 0x0B02#16 (m.queue * 2 ^ 16 + cid) s (memTimeoutOf s port cid m) := by
  let u := logTimeout s port m.queue cid
  let w := match m.ctx with
    | some cx => noteLate u cx 2
    | none => u
  let v := quarantineId (endCmd w port cid m .timeout) port cid m
  have run : memTimeoutOf s port cid m = countTimeout v port := by
    simp only [memTimeoutOf, op]
    rfl
  have noted : Noted u w := by
    unfold w
    split
    next cx _ => exact .noteLate u cx 2
    next => exact .refl u
  have logs : OnlyChanges [.mports, .errLog, .errSeq, .fresh] s u := logTimeout_frame s port m.queue cid
  have late : PortBecame s port p { p with cntTmo := satInc p.cntTmo } w := by
    have counted := (PortBecame.refl here).logTimeout m.queue cid
    unfold w
    split
    next cx _ => exact counted.step (noteLate_frame u cx 2)
    next => exact counted
  have ended := late.endCmd cid m .timeout
  obtain ⟨det, held⟩ := ended.quarantineId few cid m
  have holds_ : OnlyChanges [.mports] (endCmd w port cid m .timeout) v := by
    unfold v
    rw [quarantineId_eq ended.here few]
    exact updMport_frame _ _ _
  have counts : OnlyChanges [.mports] v (countTimeout v port) := by
    rw [countTimeout_lenient (held.lenient lenient)]
    exact updMport_frame _ _ _
  have last : PortBecame s port p { p with cntTmo := satInc p.cntTmo, cmds := p.cmds.del cid, quarantine := p.quarantine ++ [cid],
                                           quarDet := det, tmoWin := p.tmoWin + 1 } (countTimeout v port) := by
    rw [countTimeout_lenient (held.lenient lenient)]
    exact held.updMport (g := fun p => { p with tmoWin := p.tmoWin + 1 }) rfl
  have first : Logged 0x0B02#16 (m.queue * 2 ^ 16 + cid) s u :=
    (logErr_logged s 0x0B02 .initiator { member := port } (m.queue * 2 ^ 16 + cid)).between (OnlyChanges.refl [] s)
      (G := [.mports, .fresh]) ((markFresh_frame _ _ _ _ _).step ((updMport_frame _ _ _).step (OnlyChanges.refl _ _)))
  refine ⟨det, p.tmoWin + 1, ?_, ?_⟩
  · rw [run]
    refine ⟨(((endCmd_told w port cid m .timeout).before noted.ctxs).before (.of_same (logs .ctxs (by decide)))).after
      (.of_same ((counts .ctxs (by decide)).trans (holds_ .ctxs (by decide)))), ?_, last, rfl⟩
    exact ((((noted.quiet (quiet.of_frame logs)).endCmd port cid m .timeout).of_frame holds_).of_frame counts)
  · rw [run]
    exact first.between (OnlyChanges.refl [] s) (G := [.ctxs, .mports, .cache, .journal, .seqCtr])
      (counts.step (holds_.step ((endCmd_frame _ port cid m .timeout).step (noted.frame.step (OnlyChanges.refl _ u)))))

include found free in
theorem read_timeout (op : m.op = .read) (few : p.quarantine.length < 63) (time : due s m.due = true) :
    Runs (.memberTimeout port cid) s fun t => Told m 1 s t ∧ ∃ q, t.mports.find port = some q ∧ q.cmds = p.cmds.del cid ∧
      (q.quarantine = p.quarantine ++ [cid] ∧ q.cntTmo = satInc p.cntTmo ∧ Logged 0x0B02#16 (m.queue * 2 ^ 16 + cid) s t) := by
  obtain ⟨det, n, ended, logged⟩ := memTimeoutOf_read (cid := cid) here quiet lenient op few
  have run : exec (.memberTimeout port cid) s = .next (wakeMem (memTimeoutOf s port cid m) port) := by
    change execMemberTimeout port cid s = _
    simp only [execMemberTimeout, cmdOf_eq here found, free, time, retryRetires_quiet ended.quiet, Bool.not_false, Bool.and_self, if_true]
  exact Does.of_exec run (execMemberTimeout_frame port cid s) ⟨ended.told.after (wakeMem_stays _ port), _, ended.woken, rfl, rfl, rfl,
    logged.between (OnlyChanges.refl [] s) (wakeMem_frame _ port)⟩

include found free in
theorem read_late (op : m.op = .read) (few : p.quarantine.length < 63) (late : past s m.due = true) (st : CplStatus) :
    Runs (.memberCompletion port cid st) s fun t => Told m 1 s t ∧ ∃ q, t.mports.find port = some q ∧ q.cmds = p.cmds.del cid ∧
      q.cntTmo = satInc p.cntTmo ∧ (cid ∉ p.quarantine → q.cntLate = satInc p.cntLate ∧ q.quarantine = p.quarantine) := by
  obtain ⟨det, n, ended, -⟩ := memTimeoutOf_read (cid := cid) here quiet lenient op few
  let w := wakeMem (memTimeoutOf s port cid m) port
  have run : exec (.memberCompletion port cid st) s = .next (lateCompletion w port cid) := by
    change execMemberCompletion port cid st s = _
    simp only [execMemberCompletion, cmdOf_eq here found, free, late, retryRetires_quiet ended.quiet, Bool.false_eq_true, if_false, if_true]
    rfl
  have woken := ended.became.step (wakeMem_frame _ port)
  obtain ⟨det', obs, last⟩ := woken.lateCompletion (cid := cid) (by simp)
  refine Does.of_exec run (execMemberCompletion_frame port cid st s) ⟨(ended.told.after (wakeMem_stays _ port)).after
    (.of_same (lateCompletion_frame w port cid .ctxs (by decide))), _, last.here, rfl, rfl, fun fresh => ⟨rfl, ?_⟩⟩
  change (p.quarantine ++ [cid]).filter (· != cid) = p.quarantine
  have kept : p.quarantine.filter (· != cid) = p.quarantine :=
    List.filter_eq_self.2 fun k mem => bne_iff_ne.2 fun same => fresh (same ▸ mem)
  simp [kept]

end

end Sys2Proof.Machine
end

section
/-! Member writes that end (R320, R335, R368, R377). -/

namespace Sys2Proof.Machine

section
variable {s : State} {port cid : Nat} {p : MPort} {m : MemCmd} (here : s.mports.find port = some p)

include here in
theorem endCmd_ended (quiet : Quiet s) (ev : TicketEvent) :
    Ended s port cid p m ev.code { p with cmds := p.cmds.del cid } (endCmd s port cid m ev) :=
  ⟨endCmd_told s port cid m ev, quiet.endCmd port cid m ev, (PortBecame.refl here).endCmd cid m ev, rfl⟩

/-! A write that ends FRAME (R320, R368) -/

theorem frameEvent_eq {r i : Nat} {x : JRec} (jrec : m.jrec = some (r, i)) (held : s.journal.recs.find r = some x) :
    frameEvent s m = markResync (if frozen s then s else updRec s r fun y => { y with resync := true }) x.group x.stripe := by
  simp only [frameEvent, jrec, held]

theorem Quiet.frameEvent (h : Quiet s) : Quiet (frameEvent s m) := by
  unfold Machine.frameEvent
  split
  next r i _ =>
    split
    next x _ =>
      refine Quiet.of_frame ?_ (markResync_frame _ x.group x.stripe)
      split
      · exact h
      · exact h.updRec r fun _ => rfl
    next => exact h
  next => exact h

/-- A stripe that is marked for resync is in the log and among those of its group (R320). -/
theorem markResync_marks (s : State) {g : Nat} {gr : Group} (stripe : Nat) (held : s.groups.find g = some gr) :
    Logged 0x0A21#16 stripe s (markResync s g stripe) ∧
      ∃ y, (markResync s g stripe).groups.find g = some y ∧ stripe ∈ y.resync := by
  have marked := updGroup_frame s g fun g =>
    { g with resync := if g.resync.contains stripe then g.resync else g.resync ++ [stripe] }
  refine ⟨(logErr_logged _ 0x0A21 .journal {} stripe).between marked (OnlyChanges.refl [] _), _,
    (Tab.find_upd_same ..).trans (congrArg _ held), ?_⟩
  change stripe ∈ if gr.resync.contains stripe = true then gr.resync else gr.resync ++ [stripe]
  split
  next old => exact List.contains_iff_mem.1 old
  next => exact List.mem_append_right _ (.head _)

theorem frameEvent_marks {r i : Nat} {x : JRec} {gr : Group} (jrec : m.jrec = some (r, i)) (held : s.journal.recs.find r = some x)
    (group : s.groups.find x.group = some gr) : Logged 0x0A21#16 x.stripe s (frameEvent s m) ∧
      ∃ y, (frameEvent s m).groups.find x.group = some y ∧ x.stripe ∈ y.resync := by
  let u := if frozen s then s else updRec s r fun y => { y with resync := true }
  have noted : OnlyChanges [.journal] s u := OnlyChanges.ite1 (OnlyChanges.refl _ s) (updRec_frame _ _ _)
  obtain ⟨logged, marked⟩ := markResync_marks u x.stripe ((congrArg (Tab.find · x.group) (noted .groups (by decide))).trans group)
  rw [frameEvent_eq jrec held]
  exact ⟨logged.between noted (OnlyChanges.refl [] _), marked⟩

include here in
theorem frameEvent_ended (quiet : Quiet s) :
    Ended s port cid p m 5 { p with cmds := p.cmds.del cid } (frameEvent (endCmd s port cid m .frame) m) := by
  obtain ⟨told, quiet', became, cmds⟩ := endCmd_ended (cid := cid) (m := m) here quiet .frame
  have frame := frameEvent_frame (endCmd s port cid m .frame) m
  exact ⟨told.after (.of_same (frame .ctxs (by decide))), quiet'.frameEvent, became.step frame, cmds⟩

end

/-! A member that fails (R377) -/

theorem Quiet.degradeReads {s : State} (h : Quiet s) (g index : Nat) : Quiet (degradeReads s g index) := by
  unfold Machine.degradeReads
  split
  next => exact h
  next gr _ =>
    refine ⟨fun q mem => ?_, h.recs⟩
    obtain ⟨old, held, rfl⟩ := List.mem_map.1 mem
    have calm := h.ctxs old held
    dsimp only
    split
    next => exact calm
    next => exact List.foldlRecOn _ _ calm fun c kept st _ => kept.degradeCtx

theorem Quiet.loseCmds {s : State} (h : Quiet s) (port : Nat) : Quiet (loseCmds s port) := by
  unfold Machine.loseCmds
  split
  next => exact h
  next p _ =>
    exact Quiet.of_frame (List.foldlRecOn p.cmds _ h fun u calm x _ => calm.endCmd port x.1 x.2 .lost) (updMport_frame _ _ _)

/-- A port is that of a failed member, and its reset is asserted. -/
def Down (port : Nat) (s : State) : Prop := ∃ q, s.mports.find port = some q ∧ q.state = 4 ∧ q.mperstHigh = false

theorem Down.of_frame {s t : State} {port : Nat} {F : List Part} (h : Down port s) (frame : OnlyChanges F s t)
    (mports : .mports ∉ F := by decide) : Down port t := by
  rw [Down, frame .mports mports]
  exact h

theorem Down.upd {s t : State} {port k : Nat} {f : MPort → MPort} (h : Down port s) (mports : t.mports = s.mports.upd k f)
    (keeps : ∀ q, (f q).state = q.state ∧ (f q).mperstHigh = q.mperstHigh) : Down port t := by
  obtain ⟨q, here, state, reset⟩ := h
  by_cases same : port = k
  · subst same
    exact ⟨f q, by rw [mports, Tab.find_upd_same, here]; rfl, (keeps q).1.trans state, (keeps q).2.trans reset⟩
  · exact ⟨q, by rw [mports, Tab.find_upd_other _ _ same, here], state, reset⟩

theorem Down.sendDtwin {s : State} {port k : Nat} {q : MPort} (h : Down port s) (here : s.mports.find k = some q) :
    Down port (sendDtwin s k) :=
  (h.upd (updMport_mports s k fun p => { p with dtwinSent := true, dtwinDone := false, retryDue := none }) fun _ => ⟨rfl, rfl⟩).upd
    (sendAdmin_mports .winDtwin ((Tab.find_upd_same ..).trans (congrArg _ here))) fun _ => ⟨rfl, rfl⟩

/-- Possessions that end early leave a failed member failed (R373). -/
theorem Down.applyDepth {s : State} {port : Nat} (h : Down port s) (g : Nat) : Down port (applyDepth s g) := by
  unfold Machine.applyDepth
  split
  next => exact h
  next gr _ =>
    refine List.foldlRecOn _ _ h fun u down k _ => ?_
    split
    next q here =>
      have early := down.upd (updMport_mports u k fun p => { p with early := true }) fun _ => ⟨rfl, rfl⟩
      dsimp only
      split
      next => exact early
      next => exact early.sendDtwin ((Tab.find_upd_same ..).trans (congrArg _ here))
    next => exact down

/-- A member of a group that fails: its reads in flight, its port, its commands and its place in the group (R79, R377). -/
def demoted (s : State) (port gno index : Nat) : State :=
  let s := degradeReads s gno index
  let s := updMport s port fun p =>
    { p with state := 4, inPoss := false, lead := false, early := false, dtwinSent := false, dtwinDone := false,
             ndwinSent := false, retryDue := none, mperstHigh := false }
  let s := loseCmds s port
  let s := updGroup s gno fun g =>
    { addFailure s g index with inPoss := g.inPoss.filter (· != port), labelDirty := true }
  updGroup s gno fun g => { g with mirrorDegraded := tripleDegraded s g }

theorem failMember_eq {s : State} {port gno : Nat} {p : MPort} (here : s.mports.find port = some p) (group : p.group = some gno)
    (member : judged p.state = true) (cause : Nat) : failMember s port cause =
      wakeMem (retryRetires (emit (rbChange (applyDepth
        (logErr (demoted s port gno p.index) 0x0B06 .initiator { member := port } cause) gno)) (.mperst port false))) port := by
  simp only [failMember, here, group, member, Bool.not_true, Bool.false_eq_true, if_false]
  rfl

theorem demoted_frame (s : State) (port gno index : Nat) :
    OnlyChanges [.ctxs, .cache, .journal, .groups, .mports, .seqCtr] s (demoted s port gno index) :=
  (updGroup_frame _ _ _).step ((updGroup_frame _ _ _).step ((loseCmds_frame _ _).step ((updMport_frame _ _ _).step
    ((degradeReads_frame s gno index).step (OnlyChanges.refl _ s)))))

theorem Quiet.demoted {s : State} (h : Quiet s) (port gno index : Nat) : Quiet (demoted s port gno index) :=
  ((((h.degradeReads gno index).of_frame (updMport_frame _ _ _)).loseCmds port).of_frame (updGroup_frame _ _ _)).of_frame
    (updGroup_frame _ _ _)

theorem demoted_down {s : State} {port : Nat} {p : MPort} (here : s.mports.find port = some p) (gno index : Nat) :
    Down port (demoted s port gno index) := by
  obtain ⟨l, lost⟩ := (((PortBecame.refl here).step (degradeReads_frame s gno index)).updMport (g := fun p =>
    { p with state := 4, inPoss := false, lead := false, early := false, dtwinSent := false, dtwinDone := false,
             ndwinSent := false, retryDue := none, mperstHigh := false }) rfl).loseCmds_fields
  exact ⟨_, ((lost.step (updGroup_frame _ _ _)).step (updGroup_frame _ _ _)).here, rfl, rfl⟩

/-- The failure of a member is logged and reported, and holds its port in reset. -/
structure Failed (s : State) (port cause : Nat) (t : State) : Prop where
  logged : Logged 0x0B06#16 cause s t
  reported : t.rb.changed = true
  reset : Out.mperst port false ∈ t.out
  down : Down port t

theorem Failed.wakeMem {s t : State} {port cause : Nat} (h : Failed s port cause t) (k : Nat) : Failed s port cause (wakeMem t k) := by
  have woken := wakeMem_frame t k
  refine ⟨h.logged.between (OnlyChanges.refl [] s) woken, ?_, ?_, h.down.of_frame woken⟩
  · rw [woken .rb (by decide)]
    exact h.reported
  · rw [woken .out (by decide)]
    exact h.reset

theorem Failed.before {s t u : State} {port cause : Nat} {F : List Part} (h : Failed t port cause u) (frame : OnlyChanges F s t)
    (still : .errSeq ∉ F ∧ .tt ∉ F := by decide) : Failed s port cause u :=
  { h with logged := h.logged.between frame (OnlyChanges.refl [] u) still }

theorem failMember_fails {s : State} {port gno : Nat} {p : MPort} (quiet : Quiet s) (here : s.mports.find port = some p)
    (group : p.group = some gno) (member : judged p.state = true) (cause : Nat) :
    Failed s port cause (failMember s port cause) ∧ Quiet (failMember s port cause) := by
  let u := demoted s port gno p.index
  let v := logErr u 0x0B06 .initiator { member := port } cause
  let w := emit (rbChange (applyDepth v gno)) (.mperst port false)
  have log : OnlyChanges [.errLog, .errSeq] u v := logErr_frame u _ _ _ _
  have depth : OnlyChanges [.adm, .groups, .mports, .out] v (applyDepth v gno) := applyDepth_frame v gno
  have report : OnlyChanges [.rb, .out] (applyDepth v gno) w := (emit_frame _ _).step ((rbChange_frame _).step (OnlyChanges.refl _ _))
  have calm : Quiet w := (((quiet.demoted port gno p.index).of_frame log).of_frame depth).of_frame report
  have down : Down port w := (((demoted_down here gno p.index).of_frame log).applyDepth gno).of_frame report
  have logged : Logged 0x0B06#16 cause s w := (logErr_logged u 0x0B06 .initiator { member := port } cause).between
    (demoted_frame s port gno p.index) (G := [.adm, .groups, .mports, .rb, .out]) (report.step (depth.step (OnlyChanges.refl _ _)))
  rw [failMember_eq here group member, retryRetires_quiet calm]
  exact ⟨Failed.wakeMem ⟨logged, rfl, .head _, down⟩ port, Quiet.wakes Prod.fst _ calm⟩

section
variable {s : State} {port cid : Nat} {p : MPort} {m : MemCmd} {r i : Nat} {x : JRec} (here : s.mports.find port = some p)
  (found : p.cmds.find cid = some m) (free : linksHeld s = false) (quiet : Quiet s) (op : m.op = .write) (early : past s m.due = false)
  (jrec : m.jrec = some (r, i)) (held : s.journal.recs.find r = some x)
include here found free quiet op early

include jrec held in
theorem write_ok : Runs (.memberCompletion port cid .ok) s fun t => Told m 0 s t ∧ ∃ q, t.mports.find port = some q ∧
    q.cmds = p.cmds.del cid ∧ ∃ y, t.journal.recs.find r = some y ∧ y.entries = x.entries.map fun e =>
      if e.index = i then { e with writing := e.writing - 1, done := true } else e := by
  have done : memCompletion s port cid m .ok = endCmd s port cid m .ok := by
    unfold memCompletion
    rw [op]
  refine (endCmd_ended (cid := cid) (m := m) here quiet .ok).completes here found free (post := fun t _ => ∃ y,
    t.journal.recs.find r = some y ∧ y.entries = x.entries.map fun e =>
      if e.index = i then { e with writing := e.writing - 1, done := true } else e) early done ⟨_,
    (congrArg (fun j : Journal => j.recs.find r) (wakeMem_frame _ port .journal (by decide))).trans
      (endCmd_entries (port := port) (cid := cid) .ok jrec held), ?_⟩
  simp only [BEq.rfl, Bool.or_true]

include jrec held in
theorem write_frame {gr : Group} (group : s.groups.find x.group = some gr) :
    Runs (.memberCompletion port cid .frame) s fun t => Told m 5 s t ∧ ∃ q, t.mports.find port = some q ∧
      q.cmds = p.cmds.del cid ∧ (Logged 0x0A21#16 x.stripe s t ∧ ∃ y, t.groups.find x.group = some y ∧ x.stripe ∈ y.resync) := by
  let u := endCmd s port cid m .frame
  have done : memCompletion s port cid m .frame = frameEvent u m := by
    unfold memCompletion
    rw [op]
  have ends : OnlyChanges [.ctxs, .cache, .journal, .mports, .seqCtr] s u := endCmd_frame s port cid m .frame
  obtain ⟨logged, marked⟩ := frameEvent_marks (s := u) jrec (endCmd_entries (port := port) (cid := cid) .frame jrec held)
    ((congrArg (Tab.find · x.group) (ends .groups (by decide))).trans group)
  have woken := wakeMem_frame (frameEvent u m) port
  refine (frameEvent_ended (cid := cid) (m := m) here quiet).completes here found free (post := fun t _ =>
    Logged 0x0A21#16 x.stripe s t ∧ ∃ y, t.groups.find x.group = some y ∧ x.stripe ∈ y.resync) early done
    ⟨logged.between ends woken, ?_⟩
  rw [woken .groups (by decide)]
  exact marked

theorem write_fails {g : Nat} (member : judged p.state = true) (group : p.group = some g) :
    Runs (.memberCompletion port cid .media) s (Failed s port 2) := by
  let u := endCmd s port cid m .media
  have done : memCompletion s port cid m .media = failMember u port 2 := by
    unfold memCompletion
    rw [op]
  have became : PortBecame s port p { p with cmds := p.cmds.del cid } u := (PortBecame.refl here).endCmd cid m .media
  obtain ⟨failed, calm⟩ := failMember_fails (quiet.endCmd port cid m .media) became.here group member 2
  exact Does.of_exec (exec_memberCompletion_early here found free early done calm) (execMemberCompletion_frame port cid .media s)
    ((failed.wakeMem port).before (endCmd_frame s port cid m .media))

end

end Sys2Proof.Machine
end

section
/-! The DMA requests of a member (R360) and the obligation on the commands of a member. -/

namespace Sys2Proof.Machine

/-! Data windows -/

theorem inWindow_of_fits {m : MemCmd} {fr off len : Nat} (one : m.frames = [fr]) (fits : off + len ≤ 4096) (posted : Bool) :
    inWindow m posted off len = ((m.op == .read && posted) || (m.op == .write && !posted)) := by
  have inside : off + len ≤ 4096 * m.frames.length := by
    rw [one]
    exact fits
  simp [inWindow, inside]

/-- Bytes within the one frame of a window go into that frame. -/
theorem fillWindow_one (s : State) {fr off : Nat} {bytes : List Byte} (some_ : bytes ≠ []) (fits : off + bytes.length ≤ 4096) :
    fillWindow [fr] 2 off bytes s = fillFrame s fr off bytes := by
  have long := List.length_pos_iff.2 some_
  have page : off / 4096 = 0 := by omega
  have at_ : off % 4096 = off := by omega
  have empty : bytes.isEmpty = false := by simpa using some_
  have all : bytes.take (4096 - off) = bytes := List.take_of_length_le (by omega)
  have rest : bytes.drop (4096 - off) = [] := List.drop_of_length_le (by omega)
  simp [fillWindow, page, at_, empty, all, rest]

theorem windowBytes_one {s : State} {fr off len : Nat} {f : Frame} (held : s.cache.frames.find fr = some f) (fits : off + len ≤ 4096) :
    windowBytes s [fr] off len = (List.range len).map fun k => f.data.read (off + k) := by
  have data : frameOf s fr = f := by simp [frameOf, Tab.getD, held]
  refine List.map_congr_left fun k inside => ?_
  have low := List.mem_range.1 inside
  have page : (off + k) / 4096 = 0 := by omega
  have at_ : (off + k) % 4096 = off + k := by omega
  simp [page, at_, data]

section
variable {s : State} {port cid : Nat} {p : MPort} {m : MemCmd} {off fr : Nat} {bytes : List Byte} {f : Frame}
  (here : s.mports.find port = some p) (found : p.cmds.find cid = some m) (free : linksHeld s = false) (reach : p.contained = false)
  (fits : off + bytes.length ≤ 4096) (one : m.frames = [fr]) (held : s.cache.frames.find fr = some f)
include here found free reach fits one

include held in
theorem dma_fills (wf : f.data.wf = true) (op : m.op = .read) (some_ : bytes ≠ []) :
    Runs (.memberDmaRequest port cid true off bytes) s fun t => ∃ y, t.cache.frames.find fr = some y ∧ y.key = f.key ∧
      y.pins = f.pins ∧ ∀ j, y.data.read j = if off ≤ j ∧ j < off + bytes.length then bytes.getD (j - off) 0 else f.data.read j := by
  have served : inWindow m true off bytes.length = true := by
    rw [inWindow_of_fits one fits, op]
    rfl
  have run : exec (.memberDmaRequest port cid true off bytes) s = .next (fillFrame s fr off bytes) := by
    change execMemberDmaRequest port cid true off bytes s = _
    simp only [execMemberDmaRequest, here, found, reach, free, served, Bool.or_self, Bool.false_eq_true, if_false, if_true]
    rw [one]
    exact congrArg _ (fillWindow_one s some_ fits)
  exact Does.of_exec run (execMemberDmaRequest_frame port cid true off bytes s)
    ⟨_, (updFrame_find_same _).trans (congrArg _ held), rfl, rfl, fun j => read_writeList wf off j bytes⟩

include held in
theorem dma_reads (op : m.op = .write) : Does (.memberDmaRequest port cid false off bytes) [.out] s fun t =>
    t.out = .memData port cid ((List.range bytes.length).map fun k => f.data.read (off + k)) :: s.out := by
  have served : inWindow m false off bytes.length = true := by
    rw [inWindow_of_fits one fits, op]
    rfl
  have run : exec (.memberDmaRequest port cid false off bytes) s =
      .next (emit s (.memData port cid ((List.range bytes.length).map fun k => f.data.read (off + k)))) := by
    change execMemberDmaRequest port cid false off bytes s = _
    simp only [execMemberDmaRequest, here, found, reach, free, served, Bool.or_self, Bool.false_eq_true, if_false, if_true]
    rw [one, windowBytes_one held fits]
  exact ⟨_, run, emit_frame s _, rfl⟩

/-- A request that its window does not serve is refused and counted (R360, R376). -/
theorem dma_refused (quiet : Quiet s) (lenient : Lenient s) (op : m.op = .read) :
    Runs (.memberDmaRequest port cid false off bytes) s fun t => Out.completerAbort port cid ∈ t.out ∧
      t.cache = s.cache ∧ ∃ q, t.mports.find port = some q ∧ q.cntMedia = satInc p.cntMedia := by
  let u := emit s (.completerAbort port cid)
  let v := countMedia u port
  have abort : OnlyChanges [.out] s u := emit_frame s _
  have counted : OnlyChanges [.mports, .fresh] u v := countMedia_frame_lenient (lenient.of_same (abort .mem (by decide))) port
  have refused : inWindow m false off bytes.length = false := by
    rw [inWindow_of_fits one fits, op]
    rfl
  have run : exec (.memberDmaRequest port cid false off bytes) s = .next (wakeMem v port) := by
    change execMemberDmaRequest port cid false off bytes s = _
    simp only [execMemberDmaRequest, here, found, reach, free, refused, Bool.or_self, Bool.false_eq_true, if_false]
    exact congrArg (fun w => Host.Outcome.next (wakeMem w port)) (retryRetires_quiet ((quiet.of_frame abort).of_frame counted))
  have woken := wakeMem_frame v port
  have rest : OnlyChanges [.mports, .fresh, .ctxs, .seqCtr] u (wakeMem v port) := woken.step (counted.step (OnlyChanges.refl _ u))
  refine Does.of_exec run (execMemberDmaRequest_frame port cid false off bytes s) ⟨?_, ?_, _,
    ((((PortBecame.refl here).step abort).countMedia lenient).step woken).here, rfl⟩
  · rw [rest .out (by decide)]
    exact .head _
  · rw [rest .cache (by decide)]
    exact abort .cache (by decide)

end

/-- A late completion frees its identifier, and is counted and logged (R365, R367). -/
theorem late_runs {s : State} {port cid : Nat} {p : MPort} (here : s.mports.find port = some p) (free : linksHeld s = false)
    (waits : cid ∈ p.quarantine) : Does (.memberLateCompletion port cid) [.mports, .errLog, .errSeq, .fresh] s fun t =>
      Logged 0x0B04#16 0 s t ∧ ∃ q, t.mports.find port = some q ∧ cid ∉ q.quarantine ∧ q.cntLate = satInc p.cntLate ∧
        q.cmds = p.cmds ∧ ∀ k, k ≠ port → t.mports.find k = s.mports.find k := by
  have run : exec (.memberLateCompletion port cid) s = .next (lateCompletion s port cid) := by
    change execMemberLateCompletion port cid s = _
    simp only [execMemberLateCompletion, free, Bool.false_eq_true, if_false]
  obtain ⟨det, obs, became⟩ := (PortBecame.refl here).lateCompletion waits
  exact Does.of_exec run (execMemberLateCompletion_frame port cid s)
    ⟨lateCompletion_logs here waits, _, became.here, by simp, rfl, rfl, became.others⟩

/-- Settles O41: a command that ends leaves its port through `endCmd`, and with no JRETIRE and no replay waiting, and the failure
policy off, nothing else moves its port. -/
theorem memberCommands : Obligations.MemberCommands := by
  intro s port cid p here free waits replays failTmo failMedia slowTmo
  have quiet : Quiet s := ⟨waits, replays⟩
  have lenient : Lenient s := ⟨failTmo, failMedia, slowTmo⟩
  refine ⟨fun m found => ⟨fun op late few st => read_late here found free quiet lenient op few late st, ?reads, ?writes, ?dma⟩,
    late_runs here free⟩
  case reads =>
    intro op early
    refine ⟨read_ok here found free quiet op early, read_fails here found free quiet lenient (ev := .media) early ?_,
      read_fails here found free quiet lenient (ev := .poisoned) early ?_, fun time few =>
        read_timeout here found free quiet lenient op few time⟩ <;>
      · unfold memCompletion
        rw [op]
        rfl
  case writes =>
    intro op early r i x jrec held
    refine ⟨write_ok here found free quiet op early jrec held, fun gr => write_frame here found free quiet op early jrec held,
      fun member g group => ?_⟩
    obtain ⟨t, run, frame, failed⟩ := write_fails here found free quiet op early member group
    exact ⟨t, run, frame, failed.logged, failed.reported, failed.reset, failed.down⟩
  case dma =>
    intro reach off bytes fits fr f one held wf
    exact ⟨dma_fills here found free reach fits one held wf, dma_reads here found free reach fits one held,
      dma_refused here found free reach fits one quiet lenient⟩

end Sys2Proof.Machine
end
